-- ==== Sys2Proof/Word.lean ====
section
/-!
DEFINITION. Word.lean: the word types and the plain containers of the model.
-/
namespace Sys2Proof

/-- One byte of memory or of a message. -/
abbrev Byte := BitVec 8

/-- A 32-bit lane, register or field. -/
abbrev W32 := BitVec 32

/-- A 64-bit register, address or scalar. -/
abbrev W64 := BitVec 64

/-- Sparse data by number, kept in one canonical form: keys strictly rising, and no entry equal to what an
unlisted key reads as (Machine/Bits.lean has its operations). -/
abbrev SMap (α : Type) := List (Nat × α)

/-- Logical cores 0 to 1,199 (R79). -/
abbrev CoreId := Fin 1200

/-- Tiles 0 to 3. -/
abbrev TileId := Fin 4

/-- Torus ports 0 to 7 (R12). -/
abbrev PortId := Fin 8

/-- Lamp slots 0 to 7 (R22). -/
abbrev LampId := Fin 8

/-- Ethernet ports: 0 feed 0, 1 feed 1, 2 management (R562, class 7). -/
abbrev EthId := Fin 3

end Sys2Proof
end

