-- ==== Sys2Proof/Syntax.lean ====
section
/-!
DEFINITION. Syntax.lean: the commands of the block, one constructor per row of spec/opcode_table.json, in its order.
A command is a step of the device or of its surroundings that happens now; its operands say which unit it concerns
and, for a physical step or an answer from outside, what was measured or received (log 1).
-/
namespace Sys2Proof


/-- How a commit write of an update block ends (R266): done; with an error; or with an uncorrectable error found in the
staged data, which lost = true puts in the undo copy or the staged state slots. -/
inductive CommitResult where
  | done
  | error
  | stagedUe (lost : Bool)
  deriving DecidableEq, Repr


/-- How a row read ends (R316): well, well after one retry, or with an uncorrectable error again. -/
inductive RowRead where
  | good
  | retried
  | failed
  deriving DecidableEq, Repr

/-- A W value of a contribution (R150, R158). -/
inductive WVal where
  | fin (neg : Bool) (man : Nat) (exp : Int)
  | inf (neg : Bool)
  | nan
  deriving DecidableEq, Repr

/-- A gradient contribution from another module: sender, its tag, step, table, row and vector (R312). The spec gives no
body layout for it. -/
structure RemoteContrib where
  node : Nat
  tag : Nat
  step : Nat
  table : Nat
  row : Nat
  vec : List WVal
  deriving DecidableEq, Repr

/-- A link block as a port's receiver hands it over (R376): header fields, decrypted payload (or LINK content), and
whether its CRC matched and its tag verified. -/
structure RxBlock where
  seq : BitVec 16
  ack : BitVec 16
  ackValid : Bool
  nak : Bool
  /-- KIND (R376) -/
  kind : Byte
  /-- message class [2:0] and virtual channel [3] -/
  vc : BitVec 4
  credit : Byte
  payload : List Byte
  crcOk : Bool
  tagOk : Bool
  /-- uncorrectable codewords of a block whose CRC fails (R382) -/
  uncorr : BitVec 8
  deriving DecidableEq, Repr

/-- Where an HCP packet came from, and its reply goes (R467, R469): the address and UDP port of a sender on an Ethernet
port, or a module of the pod and its message's tag. -/
inductive Via where
  | udp (eth : EthId) (addr : List Byte) (port : Nat)
  | torus (node tag : Nat)
  deriving DecidableEq, Repr

/-- One IPv6 fragment of a datagram (R468): identification, offset in the datagram, and whether more follow. -/
structure FragInfo where
  ident : Nat
  off : Nat
  more : Bool
  deriving DecidableEq, Repr

/-- A message of IPv6 neighbour discovery (R467): a solicitation for an address, or a router's advertisement of a prefix
of 8 bytes. -/
inductive NdMsg where
  | solicit (addr target : List Byte)
  | advert (addr pre : List Byte)
  deriving DecidableEq, Repr

/-- Source and destination of an IPv6 datagram (R467). -/
structure IpEnds where
  src : List Byte
  dst : List Byte
  deriving DecidableEq, Repr

/-- An SMBus Write Word (R34): the command code and the data word. -/
structure SmbWord where
  code : Byte
  data : BitVec 16
  deriving DecidableEq, Repr

/-- A digest message of R274: a module's chunk digests, or the block digests of one chunk. -/
inductive DigestMsg where
  | chunks (d : List (List Byte))
  | blocks (chunk : Fin 65536) (d : List (List Byte))
  deriving DecidableEq, Repr

/-- One end of a link of a ring (R398, R400): the link's number and whether the + end speaks. -/
structure LinkEnd where
  link : Fin 32
  plusEnd : Bool
  deriving DecidableEq, Repr

/-- What the completion barrier of a layout fence is looked at for (R448): a completion message, or SEQ_POD_TIMEOUT with
whether a peer still reports a rebuild in progress. -/
inductive LayWait where
  | inTime
  | late (rebuilding : Bool)
  deriving DecidableEq, Repr

/-- What the SPD hub of a fitted DIMM reports (R19, R483): kind 1 RDIMM, 2 MRDIMM or another, capacity in GiB, ×4 DRAMs,
speed bin in MT/s, 1.1 V operation, manufacturer code, serial and part number. -/
structure SpdInfo where
  kind : Nat
  gib : Nat
  by4 : Bool
  mts : Nat
  volt11 : Bool
  maker : BitVec 16
  serial : W32
  part : List Byte
  deriving DecidableEq, Repr

/-- How the training of an HBM stack ends (R335): the whole stack, the pseudo-channel its spare replaces, and those that
stay failed. -/
structure StackTrain where
  trained : Bool
  spared : Option (Fin 64)
  failed : List (Fin 64)
  deriving DecidableEq, Repr

/-- What a module waits for when SEQ_POD_TIMEOUT passes (R64, R298, R440): the peers of a collective, or the owners of an
Embedding descriptor, of descriptor idx of tile t; the reduced flag word; or a barrier. -/
inductive PodWait where
  | collective (t : TileId) (idx : Nat)
  | embedding (t : TileId) (idx : Nat)
  | flagReduce
  | barrier
  deriving DecidableEq, Repr

/-- What a memory access does (R332): a read of n bytes, or a write; lost: a Granary write whose retries all fail (R596). -/
inductive MemOp where
  | read (n : Nat)
  | write (bytes : List Byte) (lost : Bool)
  deriving DecidableEq, Repr

/-- A request at a cluster crossbar port (R366): tile, port, the requester's index, and the other requesters of the round. -/
structure XbarReq where
  tile : TileId
  port : Fin 65536
  slot : Fin 17
  rivals : List (Fin 17)
  deriving DecidableEq, Repr

/-- Where a read completes (R337, R557): memory, the register file of a VE, the buffers of an ME or of a core DMA, an
engine table of a tile, the store that a VE makes once its first active lanes are written (R205), or the head of a
finished-tile queue. -/
inductive ReadSite where
  | mem (a : BitVec 44)
  | veRegs (c : CoreId)
  | meBuffer (c : CoreId)
  | dmaBuffer (c : CoreId)
  | table (t : TileId)
  | veStore (c : CoreId) (lanes : Nat)
  | queue (c : CoreId)
  deriving DecidableEq, Repr

/-- What reconstruction from parity gives (R458, R461): the 64 bytes of the line, or neither. -/
inductive Recon where
  | bytes (b : List Byte)
  | doubleLoss
  | stripeTorn
  deriving DecidableEq, Repr

/-- How it completes: corrected, good at its one retry, or failed again. -/
inductive ReadEnd where
  | corrected
  | retried
  | failed (recon : Recon)
  deriving DecidableEq, Repr

/-- The commands (spec/95_what_each_step_holds.md; the rule cited is the row's main rule). -/
inductive Instr where
  /-- R6: A write to a CSR that has no row of its own sets, clears or ignores each field by its access code. -/
  | registerWrite (off : Nat) (bytes : Nat) (val : W64)
  /-- R30: The 52 V input rises above 44 V and the standby domain and SMBus target become ready. -/
  | inputPowerApplied (addr : Fin 8)
  /-- R40: Loss of the 52 V input clears the off-cause latch and the ALERT_SOURCE bits. -/
  | inputPowerLost
  /-- R30: PWR_EN rises and bulk charge begins, unless PWR_EN has not been low with EMERG_OFF_N high for the last 100 ms. -/
  | pwrEnRise (quietNs : Nat) (bscanEn : Bool)
  /-- R576: All rails reach regulation, PWR_GOOD is released, and the hub ROM starts on INT at T0. -/
  | pwrGoodRelease
  /-- R30: PWR_EN falls and the module powers off abruptly. -/
  | pwrEnFall
  /-- R32: EMERG_OFF_N is held low from outside for 10 µs and the safety controller stops conversion. -/
  | emergOffExternal
  /-- R16: The input reaches the overvoltage trip and conversion stops within 10 µs as a self-trip. -/
  | inputOvervoltage
  /-- R16: The input stays below the undervoltage trip for 1 ms and conversion stops as a self-trip. -/
  | inputUndervoltage
  /-- R15: The input leaves 46 V to 56 V without tripping, so ALERT_N is asserted and rates are no longer guaranteed. -/
  | inputOutOfRange
  /-- R541: A rail stays outside ±10 % for 20 µs or exceeds its current limit, which is a self-trip with RAIL_FAULT. -/
  | railFault (rail : Fin 16)
  /-- R541: A rail stays outside ±4 % for 1 ms, which sets RAIL_WARN and records EV_RAIL_WARN. -/
  | railWarn (rail : Fin 16)
  /-- R547: A sensor stays at its trip temperature for 10 µs and the safety controller self-trips with EMERG_THERMAL. -/
  | thermalTrip
  /-- R34: The SMBus Read Byte command 0x00 returns the module status bits. -/
  | smbStatus
  /-- R34: The SMBus command 0x01 returns the input voltage. -/
  | smbInputVoltage (reading : BitVec 16)
  /-- R34: The SMBus command 0x02 returns the input current. -/
  | smbInputCurrent (reading : BitVec 16)
  /-- R34: The SMBus command 0x03 returns the input power. -/
  | smbInputPower (reading : BitVec 16)
  /-- R34: The SMBus command 0x04 returns the hottest die temperature, or 0x8000 while PWR_GOOD is low. -/
  | smbHottest
  /-- R34: The SMBus command 0x05 returns the inlet thermistor temperature. -/
  | smbInlet (reading : BitVec 16)
  /-- R34: The SMBus command 0x06 returns the outlet thermistor temperature. -/
  | smbOutlet (reading : BitVec 16)
  /-- R34: The SMBus command 0x07 returns the off-cause latch. -/
  | smbOffCause
  /-- R35: The SMBus command 0x08 returns the sticky ALERT_SOURCE bits. -/
  | smbAlertSource
  /-- R34, R35: The SMBus command 0x09 clears ALERT_SOURCE bits whose conditions no longer hold; a code outside the table is
  not acknowledged. -/
  | smbAlertClear (w : SmbWord) (pec : Option Byte)
  /-- R34: The SMBus Block Read 0x0A returns the part number, stepping and module serial number. -/
  | smbIdentity
  /-- R35: A read of the SMBus Alert Response Address is answered with the module's address while ALERT_N is asserted. -/
  | smbAlertResponse
  /-- R37: A W1C write to PWR_OFF_CAUSE clears the same bits in the register and in the standby off-cause latch. -/
  | pwrOffCauseClear (bits : W32)
  /-- R38: The boundary-scan BYPASS instruction selects the bypass register of a die. -/
  | scanBypass (die : Fin 5)
  /-- R38: The boundary-scan IDCODE instruction returns 0x1D51_E0D3 from each die. -/
  | scanIdcode (die : Fin 5)
  /-- R38: The boundary-scan SAMPLE/PRELOAD instruction samples or preloads the boundary cells. -/
  | scanSample (die : Fin 5) (cells : List Byte)
  /-- R39: EXTEST drives the pins in boundary-scan mode and acts as BYPASS otherwise. -/
  | scanExtest (die : Fin 5)
  /-- R39: CLAMP holds the boundary outputs in boundary-scan mode and acts as BYPASS otherwise. -/
  | scanClamp (die : Fin 5)
  /-- R39: HIGHZ floats the outputs in boundary-scan mode and acts as BYPASS otherwise. -/
  | scanHighz (die : Fin 5)
  /-- R474: An HCP datagram arrives and is checked in order before it is queued as a command or refused. -/
  | hcpPacket (via : Via) (frag : Option FragInfo) (pkt : List Byte) (dport : BitVec 16)
  /-- R470: A relay datagram is forwarded unchanged over the torus to its target, and its reply is returned. -/
  | relay (eth : EthId) (addr : List Byte) (port : Nat) (dg : List Byte)
  /-- R468: An HCP datagram whose fragments have not all arrived within 100 ms is discarded. -/
  | fragmentTimeout (addr : List Byte) (port ident : Nat)
  /-- R467: An IPv6 neighbour discovery message on a port is answered. -/
  | neighbourDiscovery (eth : EthId) (msg : NdMsg)
  /-- R467: An ICMPv6 echo request on a port is answered. -/
  | echoRequest (eth : EthId) (ends : IpEnds) (data : List Byte)
  /-- R475: A command that replied PENDING finishes and sends its FINAL reply. -/
  | pendingCommandComplete (held : List (List Byte))
  /-- R480: HELLO returns the part number, stepping, serial, firmware version and highest HCP version. -/
  | hello (slow : Bool)
  /-- R513: ATTEST returns a report signed by the alias key over the measurements, inventory and the caller's nonce. -/
  | attest (slow : Bool)
  /-- R515: OPEN_SESSION in mode OPEN checks the controller certificate against the current owner and agrees the session keys. -/
  | openSession (cSig cert owner zOk flashOk slow : Bool)
  /-- R515: OPEN_SESSION in mode CLAIM writes a new owner record with generation 1 and opens a session. -/
  | claimSession (cSig cert owner zOk flashOk slow : Bool)
  /-- R515: OPEN_SESSION in mode TRANSFER replaces the owner, raises the generation, opens a session and closes the others. -/
  | transferSession (cSig cert owner zOk flashOk slow : Bool)
  /-- R515: OPEN_SESSION in mode RELEASE deletes the owner record, opens a session and closes the others. -/
  | releaseSession (cSig cert owner zOk flashOk slow : Bool)
  /-- R479: CLOSE_SESSION ends the session, erases its keys and discards the replies still owed in it. -/
  | closeSession
  /-- R10: READ_CSR reads a CSR at its own width and alignment. -/
  | readCsr (slow : Bool)
  /-- R10: WRITE_CSR writes a CSR at its own width and alignment, and reports any refusal that the register's rule defines. -/
  | writeCsr (slow : Bool)
  /-- R483: GET_INFO returns the section it names: identity, DIMMs, cores, ports, HBM or layout. -/
  | getInfo (slow : Bool)
  /-- R481: READ_MEM has the Reeve read up to 4,096 bytes at a global address. -/
  | readMem (slow : Bool)
  /-- R481: WRITE_MEM writes inline bytes at a global address and replies once they are visible. -/
  | writeMem (slow : Bool)
  /-- R481: COPY_MEM copies bytes between global addresses and replies with the bytes copied. -/
  | copyMem (slow : Bool)
  /-- R361: FLUSH waits for the accesses in its scope to complete and drains their posted writes into the arrays. -/
  | flush (slow : Bool)
  /-- R482: FENCE waits until every earlier access in its scope has completed and is visible. -/
  | fence (slow : Bool)
  /-- R47: LOAD_PROGRAM checks a step program image and writes it into a slot of the named tiles. -/
  | loadProgram (slow : Bool)
  /-- R59: RUN_STEPS makes a slot active on every tile and enters a start barrier with the pod. -/
  | runSteps (slow : Bool)
  /-- R61: HALT_STEPS sets the step after whose fence the module halts. -/
  | haltSteps (slow : Bool)
  /-- R62: ABORT_JOB stops descriptor issue, lets update blocks finish and returns the module to IDLE, deferred past an ongoing fence. -/
  | abortJob
  /-- R63: STEP_STATUS returns the Step Sequencer state, step number, flags, fault causes and active PROGRAM_ID. -/
  | stepStatus (slow : Bool)
  /-- R285: DEFINE_TABLE checks a table descriptor and writes it to all four tiles. -/
  | defineTable (slow : Bool)
  /-- R286: DROP_TABLE invalidates a table and removes its rows from the Hot-Row Directory and the Poison List. -/
  | dropTable (slow : Bool)
  /-- R320: RESTORE_ROW writes one owned row at its home, drops its journalled deltas and removes it from the Poison List. -/
  | restoreRow (slow : Bool)
  /-- R321: HOTROW_POLICY sets the hot-row controls, may empty the directory and starts a new first heat window. -/
  | hotrowPolicy (slow : Bool)
  /-- R351: FLUSH_JOURNAL writes back every sealed journal segment and replies with the number of rows written. -/
  | flushJournal (slow : Bool)
  /-- R217: LOAD_CALIBRATION writes calibration entries to all four tiles from inline data or a global address. -/
  | loadCalibration (slow : Bool)
  /-- R237: SET_LOSS_SCALE sets the exponent, its limits and the growth interval, and zeroes the clean-step count. -/
  | setLossScale (slow : Bool)
  /-- R484: READ_NUMERIC_FLAGS returns the OR of the numeric flag registers over its scope. -/
  | readNumericFlags (slow : Bool)
  /-- R484: CLEAR_NUMERIC_FLAGS clears the numeric flag registers of its scope, and the first-record registers as its scope states. -/
  | clearNumericFlags (slow : Bool)
  /-- R240: TRACE_CONFIG writes the Tracing Unit controls on all four tiles. -/
  | traceConfig (slow : Bool)
  /-- R444: SET_LAYOUT installs new axis lengths and a node field, at once or as the pending change for the next fence. -/
  | setLayout
  /-- R444: RESHARD keeps the lengths, rebuilds replaced modules from parity and executes a move list at a layout commit. -/
  | reshard
  /-- R273: DIGEST_CHECK compares memory digests along a line and reports the dissenting blocks. -/
  | digestCheck
  /-- R274: A chunk or block digest message from a peer on the line is taken into the comparison. -/
  | digestMessage (coord : Fin 32) (msg : DigestMsg)
  /-- R406: LINK_STATUS with ACTION 0 returns one status record for each port in the mask. -/
  | linkStatus
  /-- R406: LINK_STATUS with ACTION 1 starts a fast retrain of the named ports and returns their records. -/
  | linkStatusRetrain
  /-- R406: LINK_STATUS with ACTION 2 disables the named ports when the module is IDLE or FAULTED. -/
  | linkStatusDisable
  /-- R406: LINK_STATUS with ACTION 3 enables the named ports. -/
  | linkStatusEnable
  /-- R456: PARITY_CONFIG with ACTION CONFIGURE computes the parity units the module holds and sets ENABLE. -/
  | parityConfigure
  /-- R459: PARITY_CONFIG with ACTION REPAIR reconstructs one range from parity, releasing its torn slots and poisoned rows. -/
  | parityRepair (units : List (List Byte)) (lost : Option Bool) (slow : Bool)
  /-- R456: PARITY_CONFIG with ACTION DISABLE clears ENABLE. -/
  | parityDisable (slow : Bool)
  /-- R539: SET_CLOCK_SOURCE switches a clock domain between ROOT and INT without a glitch. -/
  | setClockSource (slow : Bool)
  /-- R549: SET_PERF_POINT sets the module power limit and the software cap on the CORE curve point. -/
  | setPerfPoint (slow : Bool)
  /-- R426: LAMP_STATUS returns one 64-byte record for each lamp slot in the mask. -/
  | lampStatus (slow : Bool)
  /-- R421: LAMP_RETIRE ramps the partner up and darkens a lamp, or with FORCE darkens it at once, then marks it RETIRED. -/
  | lampRetire
  /-- R566: READ_RECORDS returns up to 127 whole event records from a first sequence number. -/
  | readRecords (slow : Bool)
  /-- R560: CLEAR_STICKY writes all ones, as W1C, to one sticky register or to every sticky register. -/
  | clearSticky (slow : Bool)
  /-- R568: MONITOR_CONFIG sets a monitor channel's source and bins and clears its data. -/
  | monitorConfig (slow : Bool)
  /-- R571: MONITOR_READ returns a snapshot record for each monitor channel in the mask. -/
  | monitorRead (slow : Bool)
  /-- R485: EXPORT_STATE streams dense records or embedding rows, as stored, to the feed or to memory. -/
  | exportState (slow : Bool)
  /-- R272: IMPORT_STATE checks an export stream and writes its units unchanged, releasing torn slots. -/
  | importState (slow : Bool)
  /-- R268: ACCEPT_TORN writes a torn block's new state slots and old weights with LAG 1 and releases its slot. -/
  | acceptTorn (slow : Bool)
  /-- R586: UPDATE_FIRMWARE checks an image and writes it to flash, copy B first and then copy A. -/
  | updateFirmware (verified : Bool)
  /-- R586: A flash copy finishes writing and is read back and verified, then the next copy is written or one retry is made. -/
  | firmwareCopyWritten (ok : Bool)
  /-- R583: RESET_TILE replies first and then resets one tile's engines, state and ports in its stated order. -/
  | resetTile
  /-- R582: RESET_MODULE replies first and then resets the module in its stated order, keeping memory and the Granary key. -/
  | resetModule
  /-- R490: A SAMPLE feed message writes batch bytes into a feed ring slot and marks their units covered. -/
  | feedSample (eth : EthId) (addr : List Byte) (port : Nat) (msg : List Byte) (frag : Bool)
  /-- R490: INDEX_END takes a feed slot to INDEXED when its index bytes are covered and their CRC matches. -/
  | indexEnd (eth : EthId) (addr : List Byte) (port : Nat) (msg : List Byte) (frag : Bool)
  /-- R490: BATCH_END takes an INDEXED slot to COMPLETE, or reports the code of the failure. -/
  | batchEnd (eth : EthId) (addr : List Byte) (port : Nat) (msg : List Byte) (frag : Bool)
  /-- R488: A STATE_IN feed message writes its bytes at a local address. -/
  | stateIn (eth : EthId) (addr : List Byte) (port : Nat) (msg : List Byte) (frag : Bool)
  /-- R495: STATE_CREDIT grants stream offsets to an export, or asks it to resend a range. -/
  | stateCredit (eth : EthId) (addr : List Byte) (port : Nat) (msg : List Byte) (frag : Bool)
  /-- R495: An export that receives no credit for SEQ_POD_TIMEOUT ends with NOT_READY. -/
  | exportCreditTimeout (tag : W32)
  /-- R494: Every 1 ms while a window slot is not COMPLETE, the tile sends a STATUS message. -/
  | feedStatusTimer (t : TileId)
  /-- R497: An accepted write to a feed base or size register empties every slot of the tile. -/
  | feedRegisterWrite (t : TileId) (r : Fin 6) (val : W64)
  /-- R41: The Step Sequencers begin a step once the previous fence or start barrier is done and the feed holds batch s and the indices of s + 1. -/
  | stepStart
  /-- R492: The copies of the batch and of the next indices into the CUR and NEXT windows end, and descriptor 0 may issue. -/
  | feedCopyEnd (t : TileId)
  /-- R42: The feed wait exceeds SEQ_FEED_TIMEOUT and the step faults with FEED_LATE. -/
  | feedTimeout
  /-- R46: A NOP descriptor issues and completes without effect. -/
  | nopDesc (t : TileId)
  /-- R86: A MATMUL descriptor issues and hands a share of its tile-descriptor list to each named core. -/
  | matmul (t : TileId)
  /-- R87: A VE_RUN descriptor issues and hands a share of its program to each named core. -/
  | veRun (t : TileId)
  /-- R87: The Step Sequencer hands a waiting share to a core once that core's engine has a free pending slot. -/
  | shareDispatch (t : TileId) (c : CoreId)
  /-- R293: EMB_LOOKUP resolves each key and serves its row from the Commons, a local owner or a remote owner. -/
  | embLookup (t : TileId)
  /-- R312: EMB_GRAD sends a gradient contribution for each in-range key to its row's owner. -/
  | embGrad (t : TileId)
  /-- R315: EMB_APPLY runs the row recipe once on each coalesced entry of the named tables and frees the entry. -/
  | embApply (t : TileId)
  /-- R299: PREFETCH sends the Granary keys of the next batch to their owners for staging. -/
  | prefetch (t : TileId)
  /-- R355: EASEL_LOAD copies bytes into the issuing tile's Easel. -/
  | easelLoad (t : TileId)
  /-- R356: EASEL_FENCE issues once every earlier load and Easel-bound collective of its layer on the tile has completed. -/
  | easelFence (t : TileId) (waitNs : Nat)
  /-- R357: An Easel wait reaches SEQ_WINDOW_TIMEOUT and the EASEL_FENCE completes with WINDOW_LATE. -/
  | windowTimeout (t : TileId)
  /-- R438: A COLLECTIVE with OP ALL_GATHER places every member's piece at DST on every member. -/
  | allGather (t : TileId)
  /-- R438: A COLLECTIVE with OP REDUCE_SCATTER leaves each member the sum of its own piece over the group. -/
  | reduceScatter (t : TileId)
  /-- R438: A COLLECTIVE with OP ALL_REDUCE leaves every member the sum over the group. -/
  | allReduce (t : TileId)
  /-- R438: A COLLECTIVE with OP BROADCAST copies the root's piece to every member. -/
  | colBroadcast (t : TileId)
  /-- R438: A COLLECTIVE with OP SHIFT receives the piece of the neighbour on one axis. -/
  | colShift (t : TileId)
  /-- R442: A COLLECTIVE-class message is matched by generation, step and ordinal, or dropped or held. -/
  | collectiveMessage
  /-- R212: A QUANT descriptor issues and queues its Quantizer job on the tile. -/
  | quantDesc (t : TileId)
  /-- R247: An UPDATE descriptor issues and begins staging its update blocks from the issuing module's HBM. -/
  | updateDesc (t : TileId)
  /-- R359: A COPY descriptor copies bytes between global addresses. -/
  | copyDesc (t : TileId)
  /-- R361: MEM_FENCE ends once every earlier access of the module or of its tile has completed. -/
  | memFence (t : TileId)
  /-- R53: FLAG_REDUCE ORs every module's step flag word over the pod and delivers the outcome. -/
  | flagReduce (t : TileId)
  /-- R54: The reduced flag word arrives and each module applies the update, skips it or faults the step. -/
  | flagReduceResult (peers : W64)
  /-- R51: END issues after every earlier descriptor of its tile has completed, and the module enters the fence when all four tiles have issued it. -/
  | endStep (t : TileId)
  /-- R50: A descriptor's work completes and signals its sync counter, unless NO_SIGNAL is set. -/
  | descriptorComplete (t : TileId) (idx : Nat)
  /-- R57: With all update blocks committed and the segment sealed, the module sends its arrival fence message. -/
  | fenceBegin
  /-- R58: A fence message arrives, and a mismatch of step, layout generation or directory generation faults the step. -/
  | fenceMessage (phase : Fin 3) (node : BitVec 20) (step gen dirGen digest : Nat)
  /-- R57: The arrival barrier completes and orders 3 to 8 of the fence run. -/
  | arrivalBarrierComplete
  /-- R57: The completion barrier completes and the module begins the next step or halts. -/
  | completionBarrierComplete
  /-- R59: The start barrier of a RUN_STEPS completes across the pod. -/
  | startBarrierComplete
  /-- R64: A wait for a peer exceeds SEQ_POD_TIMEOUT and the step faults with POD_TIMEOUT. -/
  | podTimeout (w : PodWait)
  /-- R66: A step-abort notice from another module stops issue and faults the step with PEER_FAULT. -/
  | stepAbortNotice (mixed : Bool)
  /-- R70: Writing 1 to SEQ_CTRL.CLEAR_MIXED clears STATE_MIXED while the module is IDLE or FAULTED. -/
  | clearMixed
  /-- R72: A write to SEQ_STEP_SET sets the step number while the module is IDLE. -/
  | seqStepSet (val : W64)
  /-- R598: The ME fetches and checks an MMA tile descriptor, reserving a queue entry at a chain's start. -/
  | mma (c : CoreId) (waited : Nat)
  /-- R91: A tile descriptor with OP NOP is skipped without work or queue entry and does not end a chain. -/
  | tileNop (c : CoreId)
  /-- R165: A chain's reduction ends and its final conversion begins, or waits for the previous conversion. -/
  | chainReductionEnd (c : CoreId) (stall : Nat)
  /-- R166: A chain's final conversion ends and its results become HELD or READY, are held, or are written to local SRAM. -/
  | chainConversionEnd (c : CoreId) (stall : Nat)
  /-- R97: A CONFIRM notice for a ticket lets the held entries and results of the chains naming it become final. -/
  | confirm (t : TileId) (ticket : BitVec 16)
  /-- R98: A REPLAY notice returns the chains naming the ticket to FILLING and re-executes them into the same entries. -/
  | replay (t : TileId) (ticket : BitVec 16)
  /-- R102: A queue wait exceeds ME_WATCHDOG.LIMIT × 1,024 clocks and the waiting engine's share completes with an error. -/
  | meWatchdogExpiry (c : CoreId) (ofVe : Bool) (clocks : Nat)
  /-- R104: A core DMA transfer completes and is reported to the VE in issue order. -/
  | dmaTransferComplete (c : CoreId)
  /-- R111: Writing SEC_SPARE_SELECT.START begins the self-test of the selected spare core. -/
  | spareSelftestStart (phys : BitVec 11)
  /-- R111: A spare core's self-test ends and PASS is set to its result. -/
  | spareSelftestEnd (pass : Bool)
  /-- R82: Writing SEC_REPAIR_REQUEST.COMMIT submits a core for retirement and sets RESULT. -/
  | repairRequestCommit (phys : BitVec 11)
  /-- R127: A write to a user Palette entry takes effect only while IDLE and within limits, and is refused otherwise. -/
  | qzPaletteWrite (n : Fin 4) (val : W32)
  /-- R178: A VE share fetches and checks its program, loads its parameter words and starts at PC 0. -/
  | veShareStart (c : CoreId)
  /-- R179: A share that has ended completes once all of its DMA transfers have completed. -/
  | veShareComplete (c : CoreId)
  /-- R205: A share retires VE_INSN_LIMIT.LIMIT × 1,024 instructions and ends with INSN_LIMIT. -/
  | veInsnLimitExpiry (c : CoreId)
  /-- R182: The VE instruction NOP does nothing. -/
  | veNop (c : CoreId)
  /-- R179: HALT ends the share. -/
  | halt (c : CoreId)
  /-- R182: JMP adds a signed offset to PC. -/
  | jmp (c : CoreId)
  /-- R182: BZ branches when Xa is zero. -/
  | bz (c : CoreId)
  /-- R182: BNZ branches when Xa is not zero. -/
  | bnz (c : CoreId)
  /-- R182: LOOP decrements Xd and branches while it is not zero. -/
  | loop (c : CoreId)
  /-- R195: DMAWAIT waits until at most IMM[4:0] transfers are outstanding, and faults if one completed with an error. -/
  | dmawait (c : CoreId) (waited : Nat)
  /-- R182: SLI loads a sign-extended immediate into Xd. -/
  | sli (c : CoreId)
  /-- R182: SLUI sets the upper half of Xd from the immediate and keeps the low half of Xa. -/
  | slui (c : CoreId)
  /-- R182: SADD adds two scalars and an immediate modulo 2^64. -/
  | sadd (c : CoreId)
  /-- R182: SSUB subtracts scalars modulo 2^64. -/
  | ssub (c : CoreId)
  /-- R182: SMUL multiplies scalars modulo 2^64. -/
  | smul (c : CoreId)
  /-- R182: SAND takes the bitwise AND of two scalars. -/
  | sand (c : CoreId)
  /-- R182: SOR takes the bitwise OR of two scalars. -/
  | sor (c : CoreId)
  /-- R182: SXOR takes the bitwise exclusive OR of two scalars. -/
  | sxor (c : CoreId)
  /-- R182: SSHL shifts a scalar left. -/
  | sshl (c : CoreId)
  /-- R182: SSHR shifts a scalar right logically. -/
  | sshr (c : CoreId)
  /-- R182: SCMPLT sets Xd to 1 when Xa is less than Xb, signed. -/
  | scmplt (c : CoreId)
  /-- R182: SCMPEQ sets Xd to 1 when Xa equals Xb. -/
  | scmpeq (c : CoreId)
  /-- R182: SLD loads 8 bytes of local SRAM into a scalar. -/
  | sld (c : CoreId)
  /-- R182: SST stores a scalar as 8 bytes of local SRAM. -/
  | sst (c : CoreId)
  /-- R182: SGET reads the core number, share index, core count, step, tile or device time. -/
  | sget (c : CoreId)
  /-- R185: VLD loads 4 bytes per active lane. -/
  | vld (c : CoreId)
  /-- R185: VST stores 4 bytes per active lane. -/
  | vst (c : CoreId)
  /-- R182: VLD16 loads 2 bytes per active lane, zero-extended. -/
  | vld16 (c : CoreId)
  /-- R182: VST16 stores the low 2 bytes of each active lane. -/
  | vst16 (c : CoreId)
  /-- R182: VLD8 loads a byte per active lane, zero-extended. -/
  | vld8 (c : CoreId)
  /-- R182: VST8 stores the low byte of each active lane. -/
  | vst8 (c : CoreId)
  /-- R183: VLDP loads a packed run of Palette-format codes, one per lane. -/
  | vldp (c : CoreId)
  /-- R184: VSTP stores lane codes as a packed run, leaving the bits of inactive elements unchanged. -/
  | vstp (c : CoreId)
  /-- R182: VGATHER loads each active lane from a per-lane signed offset. -/
  | vgather (c : CoreId)
  /-- R186: VSCATTER stores each active lane at a per-lane offset, the highest lane winning on overlap. -/
  | vscatter (c : CoreId)
  /-- R182: VBCAST copies the low 32 bits of a scalar to every active lane. -/
  | vbcast (c : CoreId)
  /-- R192: POPT waits for a READY head entry, copies it into 16 vector registers, sets Xa and frees the entry. -/
  | popt (c : CoreId) (waited : Nat)
  /-- R187: FADD adds FP32 lanes, correctly rounded. -/
  | fadd (c : CoreId)
  /-- R187: FSUB subtracts FP32 lanes, correctly rounded. -/
  | fsub (c : CoreId)
  /-- R187: FMUL multiplies FP32 lanes, correctly rounded. -/
  | fmul (c : CoreId)
  /-- R187: FFMA forms a fused multiply-add rounded once. -/
  | ffma (c : CoreId)
  /-- R188: FDIV divides FP32 lanes, with the special cases of R188. -/
  | fdiv (c : CoreId)
  /-- R188: FSQRT takes FP32 square roots. -/
  | fsqrt (c : CoreId)
  /-- R182: FMIN takes the smaller lane, with −0 below +0. -/
  | fmin (c : CoreId)
  /-- R182: FMAX takes the larger lane, with −0 below +0. -/
  | fmax (c : CoreId)
  /-- R182: FABS clears the sign bit of each lane. -/
  | fabs (c : CoreId)
  /-- R182: FNEG inverts the sign bit of each lane. -/
  | fneg (c : CoreId)
  /-- R187: FEXP2 computes 2^x within 1 ulp. -/
  | fexp2 (c : CoreId)
  /-- R187: FLOG2 computes log2 x within 1 ulp. -/
  | flog2 (c : CoreId)
  /-- R187: FRSQRT computes 1/√x within 1 ulp. -/
  | frsqrt (c : CoreId)
  /-- R182: FCMPEQ sets mask bits where FP32 lanes are equal. -/
  | fcmpeq (c : CoreId)
  /-- R182: FCMPLT sets mask bits where Va is less than Vb. -/
  | fcmplt (c : CoreId)
  /-- R182: FCMPLE sets mask bits where Va is at most Vb. -/
  | fcmple (c : CoreId)
  /-- R189: IADD adds lanes modulo 2^32. -/
  | iadd (c : CoreId)
  /-- R189: ISUB subtracts lanes modulo 2^32. -/
  | isub (c : CoreId)
  /-- R189: IMUL multiplies lanes modulo 2^32. -/
  | imul (c : CoreId)
  /-- R189: IADDS adds lanes with saturation, setting INT_SATURATE and OVERFLOW when it saturates. -/
  | iadds (c : CoreId)
  /-- R182: IMIN takes the signed minimum of lanes. -/
  | imin (c : CoreId)
  /-- R182: IMAX takes the signed maximum of lanes. -/
  | imax (c : CoreId)
  /-- R182: AND takes the bitwise AND of lanes. -/
  | vand (c : CoreId)
  /-- R182: OR takes the bitwise OR of lanes. -/
  | vor (c : CoreId)
  /-- R182: XOR takes the bitwise exclusive OR of lanes. -/
  | vxor (c : CoreId)
  /-- R182: SHL shifts lanes left. -/
  | vshl (c : CoreId)
  /-- R182: SHR shifts lanes right logically. -/
  | vshr (c : CoreId)
  /-- R182: SRA shifts lanes right arithmetically. -/
  | vsra (c : CoreId)
  /-- R182: ICMPEQ sets mask bits where integer lanes are equal. -/
  | icmpeq (c : CoreId)
  /-- R182: ICMPLT sets mask bits where Va is less than Vb, signed. -/
  | icmplt (c : CoreId)
  /-- R182: IADDI adds an immediate to each lane modulo 2^32. -/
  | iaddi (c : CoreId)
  /-- R183: CVT converts lanes from one Palette entry to another under R131 to R134. -/
  | cvt (c : CoreId)
  /-- R183: CVTS forms an exact FP32 product and converts it once into a Palette entry. -/
  | cvts (c : CoreId)
  /-- R189: FCVTI converts FP32 lanes to INT32, rounding to nearest even and saturating. -/
  | fcvti (c : CoreId)
  /-- R187: ICVTF converts INT32 lanes to FP32, rounding to nearest even. -/
  | icvtf (c : CoreId)
  /-- R182: VSEL selects lanes from Va or Vb by a mask register. -/
  | vsel (c : CoreId)
  /-- R182: VPERM permutes lanes by per-lane indices. -/
  | vperm (c : CoreId)
  /-- R182: VROT rotates lanes by a scalar amount. -/
  | vrot (c : CoreId)
  /-- R182: VGETL copies one lane into a scalar. -/
  | vgetl (c : CoreId)
  /-- R182: VSETL writes one lane from a scalar. -/
  | vsetl (c : CoreId)
  /-- R182: VMOV copies a vector register. -/
  | vmov (c : CoreId)
  /-- R190: FREDSUM sums the active lanes by a fixed six-level FP32 tree. -/
  | fredsum (c : CoreId)
  /-- R191: FREDMAX returns the largest active lane. -/
  | fredmax (c : CoreId)
  /-- R191: FREDMIN returns the smallest active lane. -/
  | fredmin (c : CoreId)
  /-- R182: IREDSUM forms the exact 64-bit sum of the active lanes. -/
  | iredsum (c : CoreId)
  /-- R191: IREDMAX returns the signed maximum of the active lanes. -/
  | iredmax (c : CoreId)
  /-- R191: IREDMIN returns the signed minimum of the active lanes. -/
  | iredmin (c : CoreId)
  /-- R182: MAND takes the AND of two mask registers. -/
  | mand (c : CoreId)
  /-- R182: MOR takes the OR of two mask registers. -/
  | mor (c : CoreId)
  /-- R182: MXOR takes the exclusive OR of two mask registers. -/
  | mxor (c : CoreId)
  /-- R182: MNOT inverts a mask register. -/
  | mnot (c : CoreId)
  /-- R182: MSET copies a scalar into a mask register. -/
  | mset (c : CoreId)
  /-- R182: MGET copies a mask register into a scalar. -/
  | mget (c : CoreId)
  /-- R182: MPOP counts the one bits of a mask register. -/
  | mpop (c : CoreId)
  /-- R200: RAND writes a word of the counter generator's output for each active lane. -/
  | rand (c : CoreId)
  /-- R201: MASKGEN forms a drop-out keep mask from the counter generator and a threshold. -/
  | maskgen (c : CoreId)
  /-- R193: DMAGET issues a core DMA transfer from a global address into local SRAM. -/
  | dmaget (c : CoreId) (waited : Nat)
  /-- R193: DMAPUT issues a core DMA transfer from local SRAM to a global address. -/
  | dmaput (c : CoreId) (waited : Nat)
  /-- R211: The Quantizer takes the next job, checks it, decides whether to sample it and starts its first conversion. -/
  | quantJobStart (t : TileId)
  /-- R220: A job's first conversion is written, and the job completes, confirms or starts its re-conversion. -/
  | quantConversionEnd (t : TileId)
  /-- R222: A re-conversion in PASS mode is written and REPLAY is delivered for the job's ticket. -/
  | quantReconversionEnd (t : TileId)
  /-- R229: The Tracing Unit finishes copying a traced chain's operands and outputs, and the chain's entry may become READY. -/
  | traceCopyEnd (t : TileId)
  /-- R231: The wide recompute of a traced tile ends and its disagreement goes into a histogram bin, possibly raising an alarm. -/
  | traceRecomputeEnd (t : TileId)
  /-- R264: An UPDATE takes a free staging slot and starts reading the next block, or waits or fails when slots run out. -/
  | blockStageStart (t : TileId)
  /-- R260: A block is staged, its tag is checked, the recipe runs on its parameters and its commit begins. -/
  | blockStaged (t : TileId) (slot : Fin 16)
  /-- R261: One commit write of a block completes, and the next write begins, the block is committed, or it is retried or becomes TORN. -/
  | blockCommitWriteDone (t : TileId) (slot : Fin 16) (res : CommitResult) (tagOk : Bool)
  /-- R252: A write to a recipe register other than K0 to K15 clears VALID, and a constant write takes effect at the next step. -/
  | recipeWrite (n : Fin 32) (w : Fin 128) (val : W32)
  /-- R252: Writing UE_RECIPE_COMMIT.COMMIT checks a recipe and sets RESULT and VALID. -/
  | recipeCommit (val : W32)
  /-- R318: A row write by EMB_APPLY to an HBM home completes, and after a failed retry the row is poisoned. -/
  | rowWriteDone (t : TileId) (err : Bool)
  /-- R295: A row request message arrives at an owner and its rows are gathered for pooling, return or staging. -/
  | embRequest
  /-- R316: A row read at its serving tile completes, and after a failed retry the row is poisoned. -/
  | rowReadDone (t : TileId) (table : BitVec 12) (row : BitVec 40) (res : RowRead)
  /-- R295: A pooling share completes and its partial is sent to the requester. -/
  | poolShareComplete (t : TileId)
  /-- R297: A pooled partial of TYPE 0x0402 arrives and is combined into its bag's result. -/
  | pooledResponse
  /-- R294: A ROWS response of TYPE 0x0403 arrives and its rows are written to the bag's output. -/
  | rowsResponse
  /-- R313: A gradient contribution arrives at the serving tile and is summed into the row's coalescing entry. -/
  | contribution (t : TileId) (src : Option RemoteContrib)
  /-- R308: A module's hot-row change list arrives for application at the fence. -/
  | changeList (rank : Nat) (dem prom : List (Nat × Nat))
  /-- R309: A hot row sent by its owner is written into all four Commons. -/
  | commonsRefresh (table : BitVec 12) (row : BitVec 40) (bytes : List Byte)
  /-- R332: An access reaches the controller that serves it, or completes at once with UNMAPPED, DENIED, OFFLINE or another code. -/
  | memoryAccess (req : Fin 11) (gaddr : W64) (op : MemOp) (rivals : List (Fin 11)) (via : Option XbarReq)
  /-- R330: An access carried over the torus arrives and is served as a local access. -/
  | remoteAccess (a : BitVec 44) (op : MemOp)
  /-- R337: A read completes at its controller, corrected or retried once, and returns data, UE or a reconstruction. -/
  | readCompletion (site : ReadSite) (e : ReadEnd)
  /-- R457: An XOR delta for a protected write arrives at the unit's holder and is applied to the parity unit. -/
  | parityDelta (gran : Bool) (j off : Nat) (x : List Byte)
  /-- R558: The HBM or Granary controller scrubs the next part of its memory, correcting or recording errors. -/
  | patrolScrub (a : BitVec 44) (correctable : Bool)
  /-- R346: Background clearing of a written-back journal area ends and the area may be reused. -/
  | journalAreaCleared (t : TileId) (waited : Nat)
  /-- R341: A write to GRN_CTRL.DELAY takes effect only while IDLE with no sealed segment and within 1 to 8, otherwise sets DELAY_REJECT. -/
  | delayWrite (t : TileId) (val : W32)
  /-- R364: A bank grant held longer than HOLD_MAX is cut off and the access completes with CUTOFF. -/
  | holdCutoff (a : BitVec 44) (req : Fin 11)
  /-- R365: A requester withdraws its granted request at a crossbar port and the port idles for one cycle. -/
  | withdraw (x : XbarReq)
  /-- R380: A DATA link block is accepted in order or discarded, with NAK, ACK and credit handling. -/
  | dataBlock (p : PortId) (b : RxBlock)
  /-- R376: An IDLE link block arrives, carrying ACK, NAK and credit. -/
  | idleBlock (p : PortId) (b : RxBlock)
  /-- R380: The expected block has not arrived 2 × LNK_RTT after a NAK, so NAK is sent again. -/
  | nakTimer (p : PortId)
  /-- R381: ACK makes no progress for max(TIMEOUT_NS, 2 × LNK_RTT), so unacknowledged blocks are re-sent, or the link goes DOWN after RETRY_LIMIT. -/
  | replayTimeout (p : PortId)
  /-- R398: A whole message is assembled and is delivered to its engine or routed onward. -/
  | messageReceived
  /-- R401: An IDENT from the peer is checked for axis, lane and coordinates, and COORD_OK is set. -/
  | identBlock (p : PortId) (lane : Option (Fin 18)) (b : RxBlock)
  /-- R390: A TRAIN lane marker carries a lane's preset measurement during the preset sweep. -/
  | trainMarker (p : PortId) (b : RxBlock)
  /-- R522: A KEY link block carries the peer's X448 share or confirmation, and keying succeeds or fails. -/
  | keyBlock (p : PortId) (b : RxBlock) (confirm : List Byte)
  /-- R393: A LANE_SWAP block makes both ends switch a failed lane to a spare at one codeword index. -/
  | laneSwap (p : PortId) (b : RxBlock)
  /-- R403: A TIME request is answered, or a TIME reply updates the pod-time offset. -/
  | timeBlock (p : PortId) (b : RxBlock)
  /-- R396: A DOWN block from the peer takes the link DOWN with cause PEER. -/
  | downBlock (p : PortId) (b : RxBlock)
  /-- R390: An enabled port with its pair lit begins training, after light or after its 1 s retry wait. -/
  | trainingStart (p : PortId)
  /-- R390: Signal and PMA lock are reached on the lanes that can lock. -/
  | laneLock (p : PortId) (lanes : BitVec 18)
  /-- R391: The preset sweep ends and the active and spare lanes are chosen. -/
  | presetSweepEnd (p : PortId) (meas : List (List (Nat × Nat)))
  /-- R390: Block alignment and deskew finish, the round trip is measured and the port enters KEYING. -/
  | alignmentDone (p : PortId) (rttNs : BitVec 16)
  /-- R390: A training step misses its bound and the port returns to DOWN with the step's cause. -/
  | trainingTimeout (p : PortId)
  /-- R393: At the end of a 1 ms window each active lane is judged, and a failed lane is spared or marked marginal. -/
  | laneWindow (p : PortId) (meas : List (Nat × Nat × Bool))
  /-- R395: An active lane loses alignment and the port starts a fast retrain. -/
  | alignmentLost (p : PortId)
  /-- R395: A fast retrain returns the port to UP within 10 ms and unacknowledged blocks are re-sent. -/
  | retrainDone (p : PortId)
  /-- R395: A fast retrain does not return to UP within 10 ms and the link goes DOWN with RETRAIN_FAIL. -/
  | retrainTimeout (p : PortId)
  /-- R400: A link-state message updates the ring map of its axis. -/
  | linkStateMessage (p : PortId) (lend : LinkEnd) (up : Bool)
  /-- R403: Every LNK_TIME_PERIOD the module sends a TIME request to its parent. -/
  | timePeriod
  /-- R408: A write to LNK_CTRL.ENABLE enables a port or, outside a step, disables it. -/
  | lnkEnable (p : PortId) (on : Bool)
  /-- R408: Writing LNK_CTRL.RETRAIN starts a fast retrain of an UP port. -/
  | lnkRetrain (p : PortId)
  /-- R408: Writing LNK_CTRL.FULL_TRAIN takes the port DOWN with cause DISABLED and trains it afresh. -/
  | lnkFullTrain (p : PortId)
  /-- R414: A cartridge is seated and the device begins authenticating it with a fresh challenge. -/
  | lampInserted (k : LampId)
  /-- R524: The cartridge's signed answer arrives, and the lamp is authenticated and possibly lit, or is REFUSED. -/
  | lampAuthResponse (k : LampId) (rec : List Byte) (lit aged : W32) (verified : Bool)
  /-- R414: A lamp gives no answer within 2 s of seating and is held REFUSED. -/
  | lampAuthTimeout (k : LampId)
  /-- R422: A lamp is pulled, and is treated as FAILED if it was lit. -/
  | lampPulled (k : LampId)
  /-- R425: A cartridge's interlock pin leaves the slot and its laser bias is cut within 1 µs. -/
  | lampInterlock (k : LampId)
  /-- R420: A lit lamp stays below 80 % output at maximum bias for 1 s or loses power or communication, and its partner is raised at once. -/
  | lampFail (k : LampId)
  /-- R413: A 200 ms lamp ramp ends at its new levels. -/
  | rampEnd (pair : Fin 4)
  /-- R416: Each lit minute advances a lamp's LIT_MIN and AGED_MIN, and writes the counters when due. -/
  | lampMinute (k : LampId)
  /-- R418: After a full nominal hour the device predicts the lamp's end of life, possibly setting LOW or EOL. -/
  | lampHour (k : LampId) (meanUa : Nat)
  /-- R419: A lamp's bias and power are sampled each second, and bias at I_EOL sets EOL. -/
  | lampBiasSample (k : LampId) (ua uw : BitVec 20)
  /-- R423: Writing LMP_CTRL.AUTO_LIGHT to 1 lights authenticated DARK lamps. -/
  | autoLight
  /-- R425: A port that has seen no light for 1 ms blocks its transmit path. -/
  | openFibreBlock (p : PortId)
  /-- R425: Every 1 s a blocked port sends a Class 1 probe, and it restores full power once the peer's probe is received. -/
  | openFibreProbe (p : PortId) (peer : Bool)
  /-- R448: The arrival barrier of a layout fence completes, or times out with NOT_READY, and the commit runs. -/
  | layoutArrivalBarrier (timedOut : Bool)
  /-- R448: The completion barrier of a layout fence ends and the command replies. -/
  | layoutCompletionBarrier (w : LayWait)
  /-- R460: A replaced module finishes rebuilding its protected ranges and parity, and sets ENABLE. -/
  | rebuildEnd (base gbase : Nat) (ranges : List (Nat × Nat)) (units : List (Nat × Recon))
  /-- R521: Writing SEC_POD_CTRL.INSTALL installs the pod secret and sets SEC_POD_KEY_ID. -/
  | podInstall
  /-- R521: Writing SEC_POD_CTRL.CLEAR removes the pod secret. -/
  | podClear
  /-- R510: Writing SEC_EXTEND_CTRL.GO extends MREG7 with the digest held in SEC_EXTEND0 to SEC_EXTEND7. -/
  | extendGo
  /-- R504: A random-generator health test fails and RNG_FAIL is set. -/
  | rngHealthFail
  /-- R532: At the end of each MON window the source counts are judged, READY is set or failures are found, and INT is trimmed. -/
  | clockWindow (mon ref int root : Nat) (locked : Bool)
  /-- R535: A clock source shows no edge for 1 µs and fails. -/
  | edgeLoss (src : Fin 4)
  /-- R546: Every 100 µs the sensors are sampled and THERMAL_CAP is recomputed. -/
  | tempSample (temps : List (BitVec 16))
  /-- R548: Every 1 ms the mean input power is compared with LIMIT and POWER_CAP moves. -/
  | powerWindow (meanW : Nat) (mv10 : BitVec 16) (rails : List (BitVec 16 × BitVec 16))
  /-- R543: The CORE curve point moves one step, with its voltage ramp and divider change. -/
  | pointChange
  /-- R550: Every 100 ns the tiles' power is estimated and issue is withheld or ballast added to keep within the limits. -/
  | loadEstimate (demand : Nat)
  /-- R564: An event reaches the recorder and folds into the last record, takes a new record, or is dropped. -/
  | eventReached
  /-- R570: A latency occurrence or level sample updates a monitor channel. -/
  | monitorSample (ch : Fin 32) (lat : Int)
  /-- R508: ROM finishes orders 1 to 6 of the boot chain and jumps to stage one, or halts. -/
  | bootRomDone (identityOk : Bool) (stage1 : Option Bool)
  /-- R576: With ROOT READY and ROM done, the domains move to ROOT and are ungated, and lamp authentication begins. -/
  | domainsUngated
  /-- R80: Core self-tests end, spares are enabled or cores marked absent, and core SRAM is zeroed. -/
  | coreSelftestEnd (failed : List Nat)
  /-- R335: HBM training and repair end, and HBM is zeroed at power-on. -/
  | hbmTrained (hbm : List StackTrain)
  /-- R20: The SPD hubs are read, DIMMs are accepted or refused, and the Granary key is made. -/
  | dimmsTrained (dimms : List (Option SpdInfo))
  /-- R508: Stage one verifies and loads the later images, reads the owner record and starts the Reeve. -/
  | reeveStart (images : List (Option Bool)) (optics : List (Option Bool)) (mgmtOk : Bool)
  /-- R577: Authentication at power-on ends and each pair is lit as its authenticated lamps allow. -/
  | lampsLit
  /-- R369: Zeroing of the Granary ends and GRN_CTRL.ONLINE is set. -/
  | granaryZeroed
  /-- R30: EMERG_OFF_N, held low from outside, is released high, so EMERG_OFF_IN clears and the 100 ms wait before the next PWR_EN rising edge may begin. -/
  | emergOffRelease
  /-- R15: The 52 V input comes back within 46 V to 56 V, so the out-of-range condition ends and ALERT_SOURCE bit [0] can be cleared by ALERT_CLEAR. -/
  | inputReturnsToRange
  /-- R504: The random generator's health tests pass again, so RNG_FAIL clears and OPEN_SESSION and link KEYING may succeed. -/
  | rngHealthRestored
  /-- R273: The peers of a DIGEST_CHECK line have not all joined within SEQ_POD_TIMEOUT, and the module replies NOT_READY. -/
  | digestJoinTimeout
  /-- R456: The members of a parity group do not join a PARITY_CONFIG within SEQ_POD_TIMEOUT, and the command is refused with NOT_READY. -/
  | parityJoinTimeout
  /-- R181: The VE meets an instruction whose opcode is not in the operation table, faults as ILLEGAL and ends the share. -/
  | illegalOpcode (c : CoreId)
  deriving DecidableEq, Repr

end Sys2Proof
end

