-- ==== Sys2Proof/Machine/Bits.lean ====
section
/-!
DEFINITION. Machine/Bits.lean: bit fields, byte order, sparse maps, CRC-32 and serial numbers; no state.
-/
namespace Sys2Proof.Machine

/-- Bits [lo + w − 1 : lo] of v. -/
def fld (v lo w : Nat) : Nat := v / 2 ^ lo % 2 ^ w

/-- v with bits [lo + w − 1 : lo] replaced by x (taken modulo 2^w). -/
def setFld (v lo w x : Nat) : Nat := v - fld v lo w * 2 ^ lo + x % 2 ^ w * 2 ^ lo

/-- Bit i of v. -/
def bit (v i : Nat) : Bool := fld v i 1 = 1

/-- A Bool as 0 or 1. -/
def b2n (b : Bool) : Nat := if b then 1 else 0

/-- v seen as a w-bit two's complement number. -/
def sext (v w : Nat) : Int :=
  if v % 2 ^ w < 2 ^ (w - 1) then (v % 2 ^ w : Nat) else (v % 2 ^ w : Nat) - (2 ^ w : Nat)

/-- The w-bit two's complement code of z. -/
def wrapInt (z : Int) (w : Nat) : Nat := (z % (2 ^ w : Nat)).toNat

/-- Little-endian value of a byte list (R2). -/
def leNat : List Byte → Nat
  | [] => 0
  | b :: bs => b.toNat + 256 * leNat bs

/-- The n little-endian bytes of v (R2). -/
def leBytes : Nat → Nat → List Byte
  | 0, _ => []
  | n + 1, v => BitVec.ofNat 8 v :: leBytes n (v / 256)

/-- n bytes of b from offset off; bytes beyond its end read 0. -/
def slice (b : List Byte) (off n : Nat) : List Byte :=
  let x := (b.drop off).take n
  x ++ List.replicate (n - x.length) 0

/-- The little-endian number of n bytes at offset off. -/
def leAt (b : List Byte) (off n : Nat) : Nat := leNat (slice b off n)

/-- Every one of n bytes from offset off is 0 (the reserved-field check). -/
def zeroAt (b : List Byte) (off n : Nat) : Bool := (slice b off n).all (· == 0)

/-- ASCII bytes of a string, padded with 0x00 to n bytes. -/
def asciiPad (s : String) (n : Nat) : List Byte :=
  slice (s.toList.map fun c => BitVec.ofNat 8 c.toNat) 0 n

/-- a is later than b as n-bit serial numbers (R5). -/
def serialLater (n a b : Nat) : Bool :=
  let d := (a + 2 ^ n - b % 2 ^ n) % 2 ^ n
  1 ≤ d && d ≤ 2 ^ (n - 1) - 1

/-- Saturating addition in w bits. -/
def satAdd (w a b : Nat) : Nat := min (a + b) (2 ^ w - 1)

/-- The elements of a list with their positions, counted from n. -/
def withIdx {α : Type} : List α → Nat → List (Nat × α)
  | [], _ => []
  | x :: xs, n => (n, x) :: withIdx xs (n + 1)

/-- Replace element i of a list. -/
def setAt {α : Type} : List α → Nat → α → List α
  | [], _, _ => []
  | _ :: xs, 0, y => y :: xs
  | x :: xs, n + 1, y => x :: setAt xs n y

/-- What an SMap reads at a key, an unlisted key reading d. -/
def smGet {α : Type} (d : α) : SMap α → Nat → α
  | [], _ => d
  | (j, v) :: m, k => if j = k then v else smGet d m k

/-- Put v at key k, keeping the keys strictly rising. -/
def smPut {α : Type} : SMap α → Nat → α → SMap α
  | [], k, v => [(k, v)]
  | (j, w) :: m, k, v =>
    if k < j then (k, v) :: (j, w) :: m
    else if k = j then (k, v) :: m
    else (j, w) :: smPut m k v

/-- Remove key k. -/
def smDel {α : Type} : SMap α → Nat → SMap α
  | [], _ => []
  | (j, w) :: m, k => if j = k then smDel m k else (j, w) :: smDel m k

/-- Write v at key k, where an unlisted key reads d: the canonical form is kept. -/
def smSet {α : Type} [DecidableEq α] (d : α) (m : SMap α) (k : Nat) (v : α) : SMap α :=
  if v = d then smDel m k else smPut m k v

/-- Every key lies above lo and the keys rise strictly. -/
def smSortedFrom {α : Type} : Nat → SMap α → Bool
  | _, [] => true
  | lo, (j, _) :: m => lo ≤ j && smSortedFrom (j + 1) m

/-- The canonical form: keys strictly rising, and no entry equal to what an unlisted key reads as. -/
def smWf {α : Type} [DecidableEq α] (d : Nat → α) (m : SMap α) : Bool :=
  smSortedFrom 0 m && m.all fun e => !decide (e.2 = d e.1)

/-- One step of the reflected CRC-32 shift register over one bit. -/
def crcBit (c : BitVec 32) : BitVec 32 :=
  if c.getLsbD 0 then (c >>> 1) ^^^ 0xEDB88320#32 else c >>> 1

/-- The CRC register after one byte. -/
def crcByte (c : BitVec 32) (b : Byte) : BitVec 32 :=
  crcBit (crcBit (crcBit (crcBit (crcBit (crcBit (crcBit (crcBit (c ^^^ b.setWidth 32))))))))

/-- CRC-32 with the IEEE 802.3 polynomial. PRESUMED (log 3): reflected, started at all ones and inverted at the
end, as that standard's frame check sequence is. -/
def crc32 (b : List Byte) : Nat := (b.foldl crcByte 0xFFFFFFFF#32 ^^^ 0xFFFFFFFF#32).toNat

end Sys2Proof.Machine
end

