-- ==== Sys2Proof/Machine/Csr.lean ====
section
/-!
DEFINITION. Machine/Csr.lean: the map of CSR space (chapter 19): one row per register or register family, with its
offset, strides, width, reset value and writable fields, and the finding of a register from its offset; no state.
-/
namespace Sys2Proof.Machine

/-- One register family of R592: element (a, b) lies at off + a × s1 + b × s2, a < n1, b < n2. -/
structure RegRow where
  off : Nat
  n1 : Nat
  s1 : Nat
  n2 : Nat
  s2 : Nat
  /-- width in bytes, 4 or 8 (R10) -/
  bytes : Nat
  reset : Nat
  /-- mask of the RW fields (R6) -/
  rw : Nat
  /-- mask of the W1C fields (R6) -/
  w1c : Nat
  /-- module-wide in the sense of R69: one value for the four tile blocks -/
  wide : Bool
  deriving DecidableEq, Repr

/-- A single register. -/
def reg (off bytes reset rw w1c : Nat) : RegRow := ⟨off, 1, 2 ^ 32, 1, 2 ^ 32, bytes, reset, rw, w1c, false⟩
/-- A module-wide register of the tile blocks. -/
def regW (off bytes reset rw w1c : Nat) : RegRow := ⟨off, 1, 2 ^ 32, 1, 2 ^ 32, bytes, reset, rw, w1c, true⟩
/-- n registers at a stride. -/
def regs (off n s bytes reset rw w1c : Nat) : RegRow := ⟨off, n, s, 1, 2 ^ 32, bytes, reset, rw, w1c, false⟩
def regsW (off n s bytes reset rw w1c : Nat) : RegRow := ⟨off, n, s, 1, 2 ^ 32, bytes, reset, rw, w1c, true⟩
/-- A family with two strides. -/
def regs2 (off n1 s1 n2 s2 bytes reset rw w1c : Nat) : RegRow := ⟨off, n1, s1, n2, s2, bytes, reset, rw, w1c, false⟩

def all32 : Nat := 0xFFFFFFFF
def all64 : Nat := 0xFFFFFFFFFFFFFFFF
/-- The [43:0] address field of the base registers. -/
def addr44 : Nat := 0xFFFFFFFFFFF

/-- The hub block. The reset values of the registers that start-up loads (a dash in the Reset column) are the
model's own (log 7). -/
def hubRows : List RegRow := [
  reg 0x2000 4 0x1000 0 0,                                     -- CLK_STATUS
  reg 0x2004 4 0 0 0x1F,                                       -- CLK_FAIL_STICKY
  reg 0x2008 8 0x0000FFFF00030000 0 0,                         -- CLK_DOMAINS
  reg 0x2010 8 0 0 0, reg 0x2018 8 0 0 0,                      -- CLK_WINDOW_ERR, CLK_FAIL_TIME
  regs2 0x2100 4 0x40 16 4 4 0 0 0,                            -- CLK_CURVEd_i
  reg 0x4000 4 1 0 0,                                          -- PWR_SIDEBAND
  reg 0x4008 4 0 0 0x3F,                                       -- PWR_OFF_CAUSE
  reg 0x4100 4 0x047E0708 0x0FFF0FFF 0,                        -- PWR_CTRL
  reg 0x4104 4 0x0000FFFF 0xF 0,                               -- PWR_PERF
  reg 0x4108 4 0 0 0,                                          -- PWR_INPUT
  reg 0x410C 4 0 0 0xF,                                        -- PWR_STICKY
  regs 0x4110 4 8 8 0 0 0,                                     -- PWR counters
  regs 0x4204 15 4 4 0 0 0,                                    -- PWR_RAILn, n = 1 to 15
  regs 0x4300 43 4 4 0x8000 0 0,                               -- PWR_TEMPg
  regs 0x6000 20 8 8 0x7FFF7FFF7FFF7FFF 0 0,                   -- SEC_REPAIR_MASKi
  regs 0x6100 20 8 8 0 0 0,                                    -- SEC_ABSENT_MASKi
  reg 0x6200 4 0 0x7FF 0,                                      -- SEC_SPARE_SELECT
  reg 0x6208 4 0 0 0,                                          -- SEC_REPAIR_REQUEST
  regs2 0x8000 8 0x100 6 4 4 0 0 0,                            -- LMP_STATUSk to LMP_POWERk
  regs 0x8018 8 0x100 8 0 0 0, regs 0x8020 8 0x100 8 0 0 0,    -- LMP_RATINGk, LMP_SERIAL_LOk
  regs 0x8028 8 0x100 4 0 0 0,                                 -- LMP_SERIAL_HIk
  regs2 0x8040 8 0x100 16 4 4 0 0 0,                           -- LMP_CURVEki
  reg 0x8800 4 1 1 0, reg 0x8804 4 0x7D0 0xFFFF 0, reg 0x8808 4 0 0 0xFFFF,  -- LMP_CTRL, LMP_WARN, LMP_STICKY
  reg 0xA000 4 0x3C0 0x3FF 0, reg 0xA004 4 0 0 0, reg 0xA008 4 0 0 0xF,      -- SEC_HCP_CTRL, _STATUS, _STICKY
  regs 0xA010 5 8 8 0 0 0,                                     -- HCP counters
  reg 0xC000 4 0 0 0, reg 0xC004 4 0 0 0, reg 0xC008 8 0 0 0,  -- SEC_STATUS, SEC_OWNER_GEN, SEC_POD_KEY_ID
  regs 0xC010 4 8 8 0 0 0, reg 0xC030 4 0 0 0, reg 0xC034 4 0 0 7,           -- SEC_POD_SECRETj, _CTRL, SEC_STICKY
  reg 0xC038 8 0 0 0,                                          -- SEC_OPEN_FAILS
  regs 0xC040 5 4 4 0 0 0,                                     -- SEC_FW_VERSIONk
  regs 0xC080 8 8 8 0 0 0, reg 0xC0C0 4 0 0 0,                 -- SEC_EXTENDj, SEC_EXTEND_CTRL
  regs2 0xC100 8 64 8 8 8 0 0 0,                               -- SEC_MREGi_j
  regs2 0xC400 16 16 2 8 8 0 0 0,                              -- SEC_SESSIONn
  reg 0xC600 4 0 0 0, reg 0xC608 8 0 0 0,                      -- SEC_START_STATUS, SEC_FW_UPDATE
  reg 0xE000 4 0x3E8 0x1FFFF 0, reg 0xE004 4 0 0 3,            -- REC_CTRL, REC_STICKY
  reg 0xE008 4 0 0 0, reg 0xE00C 4 0 0 0,                      -- REC_HEAD, REC_OLDEST
  regs 0xE010 3 8 8 0 0 0,                                     -- REC_DROPPED, REC_SATURATED, REC_DEVICE_TIME
  regs2 0x10000 32 0x100 3 8 8 0 0 0,                          -- REC_HISTn_CFGj
  regs2 0x10020 32 0x100 2 8 8 0 0 0,                          -- REC_HISTn_COUNT, REC_HISTn_SUM
  regs 0x10030 32 0x100 8 0x800000007FFFFFFF 0 0,              -- REC_HISTn_MINMAX
  regs2 0x10040 32 0x100 32 4 4 0 0 0,                         -- REC_HISTn_BINb
  regs2 0x20000 4096 32 4 8 8 0 0 0 ]                          -- REC_RINGk_j

/-- The per-core block of R79: R106, R170, R206. -/
def coreRows : List RegRow := [
  reg 0x000 4 0 0 0, reg 0x008 4 0 0 0,                        -- ME_CORE_ID, ME_CORE_STATUS
  reg 0x010 4 0x00010A33 0x1F3FFF 0,                           -- ME_FMT_FWD
  reg 0x014 4 0x00010A34 0x1F3FFF 0,                           -- ME_FMT_BWD
  reg 0x018 4 0x8000 0xFFFFFF 0, reg 0x020 4 0 0 0,            -- ME_WATCHDOG, ME_QUEUE_STATE
  reg 0x028 4 0 0 0x3F, reg 0x030 4 0 0 0,                     -- ME_FAULT_STICKY, ME_TD_DONE
  regs 0x038 3 8 8 0 0 0,                                      -- ME_STALL_FULL, _EMPTY, _OPERAND
  reg 0x080 4 0 0 0xFF, reg 0x084 4 0 0 0x80000000,            -- ME_NUM_FLAGS, ME_NUM_FIRST
  regs 0x088 5 8 8 0 0 0,                                      -- ME_OVF_COUNT to ME_CONV_STALL
  reg 0x100 4 0 0 0, reg 0x108 4 0 0 0x7F, reg 0x10C 4 0 0 0x80000000,   -- VE_STATUS, VE_NUM_FLAGS, VE_NUM_FIRST
  reg 0x110 4 0 0 0x7F, reg 0x114 4 0 0 0x80000000,            -- VE_FAULT_STICKY, VE_FAULT_PC
  reg 0x118 4 0x100000 0xFFFFFF 0,                             -- VE_INSN_LIMIT
  regs 0x120 5 8 8 0 0 0 ]                                     -- VE_OVF_COUNT to VE_PROG_ADDR

/-- The engine registers of a tile block: R324, R277, R367, R69, R462, R497, R239, R115. -/
def tileRows : List RegRow := [
  regW 0x100000 4 1 1 0, regW 0x100004 4 0x20 0xFFFF 0,        -- EMB_CTRL, EMB_HOT_WINDOW
  regW 0x100008 4 0x00100040 all32 0, regW 0x10000C 4 0 0 0,   -- EMB_HOT_THRESH, EMB_DIR_GEN
  reg 0x100010 8 0 addr44 0, regW 0x100018 4 0x80 0x7FF 0,     -- EMB_COMMONS_BASE, EMB_COMMONS_SLOT
  reg 0x10001C 4 0x000F011D 0x01FF01FF 0, reg 0x100020 4 0x80000 0xFFFFF 0, -- EMB_POOL_CORES, EMB_POOL_OFFSET
  regW 0x100024 4 0x280 0x1FFF 0,                              -- EMB_COAL_SLOT
  reg 0x100028 8 0 addr44 0, reg 0x100030 8 0 addr44 0,        -- EMB_COAL_BASE, EMB_SPILL_BASE
  reg 0x100038 4 0 0x1FFFFF 0, reg 0x10003C 4 0 0 0,           -- EMB_SPILL_ENTRIES, EMB_STATUS
  reg 0x100040 4 0 0 0xF, reg 0x100044 4 0 0 0xF,              -- EMB_FAULT_STICKY, EMB_NUM_FLAGS
  regW 0x100048 8 0 all64 0,                                   -- EMB_POOL_PROG
  regs 0x100050 14 8 8 0 0 0,                                  -- EMB counters
  reg 0x100100 4 0 0xFFF 0, reg 0x100108 4 0 0xFFFF 0,         -- EMB_TDIR_SELECT, EMB_HDIR_SELECT
  reg 0x100110 8 0 0 0, regs 0x100140 8 8 8 0 0 0,             -- EMB_HDIR_DATA, EMB_TDIR_DATAj
  regs 0x100200 1024 8 8 0 0 0,                                -- EMB_POISONi
  regW 0x110000 4 1 3 0, regW 0x110008 8 0 0xFFFFFFFFFFFF 0,   -- UE_CTRL, UE_T
  reg 0x110010 8 0 addr44 0, reg 0x110018 4 0 0 0,             -- UE_STAGE_BASE, UE_STATUS
  reg 0x11001C 4 0 0 0x1F, reg 0x110020 4 0 0 0xF,             -- UE_NUM_FLAGS, UE_FAULT_STICKY
  regW 0x110024 4 0 0 0,                                       -- UE_RECIPE_COMMIT
  regs 0x110028 5 8 8 0 0 0, regs 0x110080 16 8 8 0 0 0,       -- UE counters, UE_TORN_SLOTi
  ⟨0x111000, 32, 0x200, 96, 4, 4, 0, 0, 0, true⟩,              -- Recipe n, words 0x000 to 0x17C
  regW 0x120000 4 2 0xF 0, reg 0x120004 4 0 0 0,               -- GRN_CTRL, GRN_STATUS
  reg 0x120008 8 0 addr44 0, reg 0x120010 4 0 all32 0,         -- GRN_JNL_BASE, GRN_JNL_SEG_BYTES
  reg 0x120014 4 0x10 0x1F 0, reg 0x120018 8 0 addr44 0,       -- GRN_JNL_BUCKETS, GRN_FILTER_BASE
  reg 0x120020 4 0x18 0x1F 0, reg 0x120024 4 0 0 7,            -- GRN_FILTER_CTRL, GRN_FAULT_STICKY
  reg 0x120028 8 0 addr44 0, reg 0x120030 8 0 0xFFFFFFFFFF 0,  -- GRN_STAGE_BASE, GRN_STAGE_BYTES
  reg 0x120038 8 0 addr44 0, reg 0x120040 4 0xE 0x1F 0,        -- GRN_STAGE_INDEX_BASE, GRN_STAGE_INDEX
  regs 0x120048 11 8 8 0 0 0, reg 0x1200A0 8 0 0 (2 ^ 63),     -- GRN counters, GRN_UE_LAST
  reg 0x120100 4 0 0 0, regs 0x120108 2 8 8 0 0 0,             -- HBM_STATUS, HBM_FAILED_PCi
  regs 0x120118 2 8 8 0 0 0, reg 0x120128 8 0 0 (2 ^ 63),      -- HBM_CE_COUNT, HBM_UE_COUNT, HBM_UE_LAST
  reg 0x120200 4 0x00446A88 0xFFFFFF 0,                        -- ARB_CORE_PRIO
  reg 0x120204 4 0x00040010 0xFFFFFF 0,                        -- ARB_CORE_CTRL
  reg 0x120208 8 0x0000016886EC288A 0xFFFFFFFFFFF 0,           -- ARB_STUDIO_PRIO
  reg 0x120210 4 0x00040010 0xFFFFFF 0,                        -- ARB_STUDIO_CTRL
  reg 0x120218 8 0x8888888888888888 all64 0,                   -- ARB_XBAR_PRIO
  reg 0x120220 4 0x00000C10 0xFFF 0,                           -- ARB_XBAR_CTRL
  reg 0x120228 4 0 0 0x07FF003F, reg 0x120230 8 0 0 (2 ^ 63),  -- ARB_HOLD_STICKY, ARB_HOLD_LAST
  regs 0x120238 2 8 8 0 0 0,                                   -- ARB_CUTOFF_COUNT, ARB_WITHDRAW_COUNT
  regW 0x130000 4 0 1 0, regW 0x130008 4 0 0 0,                -- SEQ_CTRL, SEQ_STATUS
  regsW 0x130010 4 8 8 0 0 0,                                  -- SEQ_STEP, _STEP_SET, _STEPS_LEFT, _HALT_AT
  regW 0x130030 4 0x2710 0xFFFFFF 0, regW 0x130034 4 0x4E20 0xFFFFFF 0, -- SEQ_FEED_TIMEOUT, SEQ_POD_TIMEOUT
  regW 0x130038 8 0 all64 0, reg 0x130040 8 0 0 0,             -- SEQ_JOB_SEED, SEQ_LOCAL_FLAGS
  regW 0x130048 8 0 0 0, regW 0x130050 4 0 0 0x1FF, regW 0x130058 4 0 0 0,  -- SEQ_POD_FLAGS, _FAULT_STICKY, _SKIP_COUNT
  reg 0x130100 8 0 addr44 0, reg 0x130108 4 0 0x1FFFFFFF 0,    -- SEQ_EASEL_BASE, SEQ_EASEL_BYTES
  regW 0x13010C 4 0x186A0 0xFFFFFF 0, regs 0x130110 3 8 8 0 0 0,  -- SEQ_WINDOW_TIMEOUT, EASEL_WAIT, _LAST, _FENCES
  regW 0x130200 8 0x01010101 0 0, regW 0x130208 4 0 0 0,       -- SEQ_LAYOUT, SEQ_LAYOUT_STATUS
  regW 0x13020C 4 0x200000 0 0, regW 0x130210 4 0 0 0,         -- SEQ_MAX_POSITIONS, SEQ_PARITY_CTRL
  regW 0x130214 4 0 0 7, regsW 0x130218 2 8 8 0 0 0,           -- SEQ_PARITY_STICKY, _PARITY_BASE, _PARITY_GRN_BASE
  reg 0x130228 4 0 0 0xF, regsW 0x130230 5 8 8 0 0 0,          -- SEQ_COL_NUM_FLAGS, layout counters
  reg 0x130400 8 0 addr44 0, reg 0x130408 4 0 0x1FFFFFF 0,     -- SEQ_FEED_BASE, SEQ_FEED_SLOT_BYTES
  reg 0x13040C 4 0 0xF 0, regs 0x130410 2 8 8 0 addr44 0,      -- SEQ_FEED_SLOTS, SEQ_FEED_CUR_BASE, _NEXT_BASE
  reg 0x130420 4 0 0x1FFFFFF 0, reg 0x130424 4 0 0 0,          -- SEQ_FEED_INDEX_MAX, SEQ_FEED_STATE
  regs 0x130428 4 8 8 0 0 0,                                   -- feed counters
  ⟨0x130600, 32, 16, 2, 8, 8, 0, 0, 0, true⟩,                  -- SEQ_PARITY_RANGE_BASEi, _LENi
  regW 0x140000 4 0 7 0, regW 0x140004 4 0 all32 0,            -- QZ_CTRL, QZ_SAT_LIMIT
  reg 0x140008 8 0 addr44 0, reg 0x140010 4 0 0 0,             -- QZ_STATS_BASE, QZ_STATUS
  reg 0x140014 4 0 0 0xF, reg 0x140018 4 0 0 3, regW 0x14001C 4 0 0 0,  -- QZ_NUM_FLAGS, _FAULT_STICKY, _CAL_VALID
  regs 0x140020 4 8 8 0 0 0,                                   -- QZ counters
  regW 0x140100 4 0x47000000 0 0, regW 0x140104 4 0x0018000F 0 0,   -- QZ_LOSS_SCALE, QZ_LS_CTRL
  regW 0x140108 4 0x7D0 0 0, regW 0x14010C 4 0 0 0,            -- QZ_LS_GROWTH, QZ_LS_CLEAN
  regW 0x140110 4 0 0 3, regW 0x140118 8 0 0 0,                -- QZ_LS_STICKY, QZ_LS_CHANGES
  regsW 0x140F00 16 8 4 0 0 0, regW 0x140F80 4 0 0 3,          -- QZ_PALETTEn, QZ_PALETTE_STICKY
  regW 0x141000 4 0x001B0A01 0x1F1F01 0, regW 0x141004 4 0x40 0x3FF 0,  -- TR_CTRL, TR_QUIET_LIMIT
  reg 0x141008 8 0 addr44 0, reg 0x141010 4 0 0x1FFFFFF 0,     -- TR_BUF_BASE, TR_BUF_BYTES
  reg 0x141014 4 0 0 0, regs 0x141018 4 8 8 0 0 0,             -- TR_STATUS, TR_SAMPLES to TR_LAST
  regs 0x141100 32 8 8 0 0 0,                                  -- TR_HISTi
  regs 0x142000 2048 4 4 0 0 0, regs 0x144000 64 8 8 0 0 all64 ]  -- TR_QUIETn, TR_SILENTn

/-- A port's block in the network block. -/
def portRows : List RegRow := [
  reg 0x000 4 1 1 0, reg 0x004 4 1 0 0,                        -- LNK_CTRL, LNK_STATUS
  regs 0x008 2 8 8 0 0 0, reg 0x018 4 0 0 0, reg 0x01C 4 0 0 0x7FE,  -- LNK_LANES, _PEER, _RTT, _DOWN_STICKY
  regs 0x020 10 8 8 0 0 0, regs 0x100 18 8 8 0 0 0 ]           -- port counters, LNK_LANEi

/-- The module registers of the network block, from its offset 0x8000. -/
def netRows : List RegRow := [
  reg 0x000 4 0 0xF 0, regs 0x008 4 4 4 0 0 0,                 -- LNK_ROUTE_CTRL, LNK_RINGa
  reg 0x020 4 0x1004886C 0xFF0FFFFF 0,                         -- LNK_CLASS_PRIO
  reg 0x024 4 0x00080FA0 0xFFFFFF 0, reg 0x028 4 0x00034151 0xFFFFF 0,  -- LNK_REPLAY_CTRL, LNK_BER_CTRL
  reg 0x030 8 0 0 0, reg 0x038 4 0 0 0,                        -- LNK_POD_TIME, LNK_TIME_STATUS
  reg 0x03C 4 0x3E8 0xFFFF 0, reg 0x040 8 0 0 0,               -- LNK_TIME_PERIOD, LNK_TIME_OFFSET
  regs 0x100 16 4 4 0 0x80FFFFFF 0 ]                           -- LNK_TRAIN_TABLEi

/-- Does a row name the offset? -/
def RegRow.has (r : RegRow) (o : Nat) : Bool :=
  r.off ≤ o &&
  (let d := o - r.off
   d / r.s1 < r.n1 && d % r.s1 / r.s2 < r.n2 && d % r.s1 % r.s2 = 0)

/-- A register found: its row, the key under which State.csr holds it, and its offset in its block. -/
structure RegAt where
  row : RegRow
  key : Nat
  o : Nat
  deriving DecidableEq, Repr

def findRow (rows : List RegRow) (o : Nat) : Option RegRow := rows.find? (·.has o)

/-- The block of CSR space an offset lies in (R591): 0 hub, 1 + t the engine part of tile t, 5 a per-core block,
6 a port, 7 the network's module registers, 8 unassigned. -/
def csrBlock (off : Nat) : Nat :=
  if off < 0x100000 then 0
  else if off < 0x200000 then 8
  else if off < 0xA00000 then (if off % 0x200000 < 0x4B000 then 5 else off / 0x200000)
  else if off < 0xA08000 then 6
  else if off < 0xA09000 then 7
  else 8

/-- The register at an offset of CSR space, if one is assigned there (R592). -/
def regFind (off : Nat) : Option RegAt :=
  let b := csrBlock off
  if b = 0 then (findRow hubRows off).map fun r => ⟨r, off, off⟩
  else if b = 5 then (findRow coreRows (off % 0x400)).map fun r => ⟨r, off, off % 0x400⟩
  else if b ≤ 4 then
    let o := off % 0x200000
    (findRow tileRows o).map fun r => ⟨r, if r.wide then 0x200000 + o else off, o⟩
  else if b = 6 then (findRow portRows (off % 0x1000)).map fun r => ⟨r, off, off % 0x1000⟩
  else if b = 7 then (findRow netRows (off - 0xA08000)).map fun r => ⟨r, off, off - 0xA08000⟩
  else none

/-- The tile of an offset in a tile block. -/
def tileOfCsr (off : Nat) : Nat := off / 0x200000 - 1
/-- The logical core of an offset in a per-core block. -/
def coreOfCsr (off : Nat) : Nat := 300 * tileOfCsr off + off % 0x200000 / 0x400

/-- A register lies under some of n bytes at an offset (log 72). -/
def csrOverlaps (off n : Nat) : Bool :=
  (List.range (7 + n)).any fun i =>
    7 ≤ off + i && match regFind (off + i - 7) with
      | some r => (off + i - 7) + r.row.bytes > off
      | none => false

/-- The start of tile t's block (R591). -/
def tileBase (t : Nat) : Nat := (t + 1) * 0x200000
/-- The start of a core's CSR block (R79). -/
def coreBase (lc : Nat) : Nat := (lc / 300 + 1) * 0x200000 + lc % 300 * 0x400
/-- The start of port p's block. -/
def portBase (p : Nat) : Nat := 0xA00000 + 0x1000 * p
/-- The key of a module-wide register at tile-block offset o. -/
def wideKey (o : Nat) : Nat := 0x200000 + o
/-- The key of a network module register. -/
def netKey (o : Nat) : Nat := 0xA08000 + o

end Sys2Proof.Machine
end

