-- ==== Sys2Proof/Config.lean ====
section
/-!
DEFINITION. Config.lean: the free values: what the spec leaves open, what another module answers, and the functions of
published standards that the spec only names. Each is an opaque constant, so no proof can see a value of it. The
first argument n is the count of free values taken before, so each use is a fresh value.
-/
namespace Sys2Proof

/-- The choice among the FP32 results within 1 ulp that R187 and R250 allow: FEXP2 (0), FLOG2 (1), FRSQRT and RSQRT
(2), and ONEMPOW with the exponent t (3 + t). The result depends only on the inputs (log 22). -/
opaque Config.nearestUlp (op : Nat) (input : W32) : Nat

/-- A byte the spec leaves undefined (log 4). -/
opaque Config.freeByte (n : Nat) : Byte

/-- A number the spec leaves undefined (log 4). -/
opaque Config.freeNat (n : Nat) : Nat

/-- The completion code, as its number in R332, of an access carried to another module (R330) (log 5). -/
opaque Config.remoteCode (n gaddr len : Nat) : Nat

/-- The byte another module returns for an address (R330) (log 5). -/
opaque Config.remoteByte (n gaddr : Nat) : Byte

/-- Byte i of the n-th draw from the hardware random generator (R504) (log 40). -/
opaque Config.random (n i : Nat) : Byte

/-- Byte i of the key stream of AES-256-GCM for a key and a 96-bit nonce (R387, R472, log 40). -/
opaque Config.gcmStream (key nonce : List Byte) (i : Nat) : Byte

/-- Byte i of its tag over additional data and ciphertext (log 40). -/
opaque Config.gcmTag (key nonce aad cipher : List Byte) (i : Nat) : Byte

/-- The interface identifier that the ports derive from the module serial number (R467): byte i (log 85). -/
opaque Config.interfaceId (serial : List Byte) (i : Nat) : Byte

/-- AES-256-XTS of a data unit: key, tweak, plaintext (R339) (log 40). -/
opaque Config.aesXts (key : List Byte) (tweak : Nat) (plain : List Byte) : List Byte

/-- SHAKE256 with an output of n bytes (log 40). -/
opaque Config.shake256 (n : Nat) (input : List Byte) : List Byte

/-- X448 of a secret and a point (log 40). -/
opaque Config.x448 (secret point : List Byte) : List Byte

/-- The Ed448 public key of a private key, and a signature under one: private key, context, message (log 40). -/
opaque Config.edPublic (key : List Byte) : List Byte
opaque Config.edSign (key context message : List Byte) : List Byte

/-- The 64-byte PUF seed of this die (R505); no state holds it (log 40). -/
opaque Config.pufSeed : List Byte

/-- The bytes of the field repair overlay (disabled slot by cluster) and of an owner record (key and generation), whose
encodings the spec does not give and of which only digests show (R509) (log 41). -/
opaque Config.overlayBytes (overlay : SMap (Option Nat)) : List Byte
opaque Config.ownerBytes (key : List Byte) (gen : Nat) : List Byte

/-- TYPE of the messages of class COLLECTIVE, which the spec does not give (log 48). -/
opaque Config.collectiveType : Nat

end Sys2Proof
end

