-- ==== Sys2Proof/Machine/Number.lean ====
section
/-!
DEFINITION. Machine/Number.lean: exact numbers, the Palette formats and every conversion into one (chapter 4), the
FP32 operations of the Vector Engine (R187 to R191), the W accumulator's addition (R150, R151) and the counter
generator (R197, R198); no state.
-/
namespace Sys2Proof.Machine

/-- Numeric flags as one word: [0] OVERFLOW, [1] UNDERFLOW, [2] INEXACT, [3] INVALID; the engines use the bits above
these as their own registers do (R171, R207). -/
abbrev NFlags := BitVec 32

def fOvf : NFlags := 1
def fUnf : NFlags := 2
def fInx : NFlags := 4
def fInv : NFlags := 8
/-- VE_NUM_FLAGS.DIVZERO (R207). -/
def fDz : NFlags := 16
/-- VE_NUM_FLAGS.INT_SATURATE (R207). -/
def fIsat : NFlags := 32
/-- TERN_CODE, bit [6] of ME_NUM_FLAGS (R171) and of VE_NUM_FLAGS (R207). -/
def fTern : NFlags := 64

/-- The flag word f when the condition holds, else no flag. -/
def flagIf (c : Bool) (f : NFlags) : NFlags := if c then f else 0

/-- An exact number: a signed dyadic value man × 2^exp (with the sign of a zero), an infinity, or NaN. -/
inductive Num where
  | fin (neg : Bool) (man : Nat) (exp : Int)
  | inf (neg : Bool)
  | nan
  deriving DecidableEq, Repr

/-- The number of bits of n. -/
def bitLen (n : Nat) : Nat := if n = 0 then 0 else Nat.log2 n + 1

/-- m × 2^e as a multiple of 2^q: the floor, the remainder below it and the remainder's denominator. -/
def toGrid (m : Nat) (e q : Int) : Nat × Nat × Nat :=
  if e ≥ q then (m * 2 ^ (e - q).toNat, 0, 1)
  else let d := 2 ^ (q - e).toNat; (m / d, m % d, d)

/-- Round m × 2^e to a multiple of 2^q, to nearest with ties to even; and whether the result is exact. A format without
mantissa bits has no even neighbour: its tie goes to the larger magnitude (R130, log 88). -/
def rne (m : Nat) (e q : Int) : Nat × Bool :=
  let (f, r, d) := toGrid m e q
  (if 2 * r > d || (2 * r = d && f % 2 = 1) then f + 1 else f, r = 0)

/-- Round m × 2^e to a multiple of 2^q by the stochastic method of R256 with the 16 random bits given. -/
def stochRound (m : Nat) (e q : Int) (rnd : Nat) : Nat × Bool :=
  let (f, r, d) := toGrid m e q
  (if r * 65536 / d + rnd % 65536 ≥ 65536 then f + 1 else f, r = 0)

/-- The exact product of two magnitudes and signs; infinities and NaN by IEEE rules (R158, R188), which make the product of
two infinities an infinity in the ME too (log 88). -/
def Num.mul : Num → Num → Num
  | .fin a m e, .fin b n g => .fin (a != b) (m * n) (e + g)
  | .inf a, .fin b n _ => if n = 0 then .nan else .inf (a != b)
  | .fin a m _, .inf b => if m = 0 then .nan else .inf (a != b)
  | .inf a, .inf b => .inf (a != b)
  | _, _ => .nan

/-- The sign, magnitude and exponent of the exact sum of two finite numbers; an exact zero of unlike signs is +0. -/
def addFin (a : Bool) (m : Nat) (e : Int) (b : Bool) (n : Nat) (g : Int) : Num :=
  let q := min e g
  let x : Int := (m * 2 ^ (e - q).toNat : Nat)
  let y : Int := (n * 2 ^ (g - q).toNat : Nat)
  let z := (if a then -x else x) + (if b then -y else y)
  .fin (if z = 0 then a && b else z < 0) z.natAbs q

/-- The exact sum of two numbers (R187): unlike infinities and NaN give NaN. -/
def Num.add : Num → Num → Num
  | .fin a m e, .fin b n g => addFin a m e b n g
  | .inf a, .fin _ _ _ => .inf a
  | .fin _ _ _, .inf b => .inf b
  | .inf a, .inf b => if a = b then .inf a else .nan
  | _, _ => .nan

def Num.neg : Num → Num
  | .fin a m e => .fin (!a) m e
  | .inf a => .inf (!a)
  | .nan => .nan

def Num.isFinite : Num → Bool
  | .fin _ _ _ => true
  | _ => false

def Num.isNan : Num → Bool
  | .nan => true
  | _ => false

def Num.isZero : Num → Bool
  | .fin _ 0 _ => true
  | _ => false

def Num.sign : Num → Bool
  | .fin a _ _ => a
  | .inf a => a
  | .nan => false

/-- Comparison of two numbers that are not NaN: a < b, with −0 equal to +0. -/
def Num.lt : Num → Num → Bool
  | .fin a m e, .fin b n g =>
    let q := min e g
    let x : Int := (m * 2 ^ (e - q).toNat : Nat)
    let y : Int := (n * 2 ^ (g - q).toNat : Nat)
    (if a then -x else x) < (if b then -y else y)
  | .inf a, .fin _ _ _ => a
  | .fin _ _ _, .inf b => !b
  | .inf a, .inf b => a && !b
  | _, _ => false

/-- An integer as an exact number. -/
def Num.ofInt (z : Int) : Num := .fin (z < 0) z.natAbs 0

/-! ## The Palette -/

/-- The fields of a Palette word (R116). -/
structure Fmt where
  width : Nat
  signed : Bool
  expBits : Nat
  manBits : Nat
  bias : Nat
  specials : Nat
  cls : Nat
  valid : Bool
  deriving DecidableEq, Repr

def fmtOf (w : Nat) : Fmt :=
  { width := fld w 0 6, signed := bit w 6, expBits := fld w 8 4, manBits := fld w 12 5, bias := fld w 17 7,
    specials := fld w 24 2, cls := fld w 26 2, valid := bit w 31 }

/-- The words of the fixed entries (R120) and of the user entries after reset (R126). -/
def paletteReset : Nat → Nat
  | 0 => 0x82FF7860 | 1 => 0x82FE7850 | 2 => 0x821EA550 | 3 => 0x810E3448 | 4 => 0x821E2548 | 5 => 0x80021244
  | 6 => 0x84000048 | 7 => 0x84000044 | 8 => 0x84000042 | 9 => 0x88000042 | 10 => 0x8DFE0808 | 11 => 0x8D0E3408
  | 12 => 0x811E3508 | 13 => 0x80062346 | 14 => 0x80023246 | _ => 0

/-- The limits on a user entry with VALID = 1 (R125). -/
def paletteOk (w : Nat) : Bool :=
  let f := fmtOf w
  f.cls = 0 && 2 ≤ f.expBits && f.expBits ≤ 5 && f.manBits ≤ 5 &&
  f.width = b2n f.signed + f.expBits + f.manBits && 3 ≤ f.width && f.width ≤ 8 && f.bias ≤ 31 &&
  f.specials ≤ 2 && (f.specials ≠ 2 || 1 ≤ f.manBits) && !bit w 7 && fld w 28 3 = 0

def fp32 : Fmt := fmtOf (paletteReset 0)
def bf16 : Fmt := fmtOf (paletteReset 1)
def fp16 : Fmt := fmtOf (paletteReset 2)
def e4m3 : Fmt := fmtOf (paletteReset 3)

/-- Is the format the exponent-only scale format E8M0 (R122)? -/
def Fmt.isE8M0 (f : Fmt) : Bool := f.cls = 3 && f.manBits = 0

/-- Integer or ternary class. -/
def Fmt.isInt (f : Fmt) : Bool := f.cls = 1 || f.cls = 2

/-- The value of a code (R117, R118, R121 to R123), and the flags of reading it: TERN_CODE with INVALID for 0b10. -/
def decodeCode (f : Fmt) (code : Nat) : Num × NFlags :=
  let c := code % 2 ^ f.width
  if f.cls = 1 then (.ofInt (sext c f.width), 0)
  else if f.cls = 2 then
    (if c = 1 then .fin false 1 0 else if c = 3 then .fin true 1 0 else .fin false 0 0,
     flagIf (c = 2) (fTern ||| fInv))
  else
    let e := fld c f.manBits f.expBits
    let m := fld c 0 f.manBits
    let s := f.signed && bit c (f.width - 1)
    let eAll := 2 ^ f.expBits - 1
    if f.cls = 3 && c ≥ 2 ^ (f.expBits + f.manBits) then (.nan, 0)
    else if f.specials = 1 && e = eAll && m = 2 ^ f.manBits - 1 then (.nan, 0)
    else if f.specials = 2 && e = eAll then (if m = 0 then .inf s else .nan, 0)
    else if f.isE8M0 then (.fin false 1 ((c : Int) - 127), 0)
    else if e = 0 then (.fin s m (1 - (f.bias : Int) - f.manBits), 0)
    else (.fin s (2 ^ f.manBits + m) ((e : Int) - f.bias - f.manBits), 0)

/-- The canonical NaN code of a float format that has one (R119). -/
def canonNan (f : Fmt) : Nat :=
  if f.specials = 1 then 2 ^ (f.expBits + f.manBits) - 1
  else (2 ^ f.expBits - 1) * 2 ^ f.manBits + 2 ^ (f.manBits - 1)

/-- The code of the largest finite magnitude, sign bit aside. -/
def maxMag (f : Fmt) : Nat :=
  if f.specials = 2 then (2 ^ f.expBits - 1) * 2 ^ f.manBits - 1
  else if f.specials = 1 then 2 ^ (f.expBits + f.manBits) - 2
  else 2 ^ (f.expBits + f.manBits) - 1

/-- The exponent of the least significant bit of the smallest normal number: emin − MAN_BITS. -/
def Fmt.qmin (f : Fmt) : Int := 1 - (f.bias : Int) - f.manBits

/-- Round a finite magnitude to the precision of a float format with the exponent range unbounded above, by rnd;
the magnitude code of the result, whether it is exact, and whether the exact value lies below the smallest normal. -/
def floatMag (f : Fmt) (rnd : Nat → Int → Int → Nat × Bool) (m : Nat) (e : Int) : Nat × Bool × Bool :=
  let top : Int := e + bitLen m
  let q := max f.qmin (top - (f.manBits + 1))
  let (r, ex) := rnd m e q
  ((q - f.qmin).toNat * 2 ^ f.manBits + r, ex, top ≤ f.qmin + f.manBits)

/-- The bit of a sign in a format's code. -/
def signBit (f : Fmt) (s : Bool) : Nat := if f.signed && s then 2 ^ (f.width - 1) else 0

/-- Conversion into a format (R130 to R134): the code and the flags. With sr = some bits the rounding is the
stochastic rounding of R256; the overflow test stays that of rounding to nearest (R131). DEDUCED (log 21): a negative
value into an unsigned format also sets inexact (and underflow when small), as R133 says of every conversion whose
result differs from the exact value; a negative infinity counts as such a value. -/
def convert (f : Fmt) (sr : Option Nat) (x : Num) : Nat × NFlags :=
  let rnd : Nat → Int → Int → Nat × Bool := fun m e q =>
    match sr with
    | none => rne m e q
    | some b => stochRound m e q b
  if f.isInt then
    let lo : Int := if f.cls = 2 then -1 else -(2 ^ (f.width - 1) : Nat)
    let hi : Int := if f.cls = 2 then 1 else (2 ^ (f.width - 1) : Nat) - 1
    match x with
    | .nan => (0, fInv)
    | .inf s => (wrapInt (if s then lo else hi) f.width, fOvf ||| fInx)
    | .fin s m e =>
      let near := (rne m e 0).1
      let zn : Int := if s then -(near : Int) else near
      if zn < lo then (wrapInt lo f.width, fOvf ||| fInx)
      else if zn > hi then (wrapInt hi f.width, fOvf ||| fInx)
      else
        let (r, ex) := rnd m e 0
        let z : Int := if s then -(r : Int) else r
        (wrapInt (max lo (min hi z)) f.width, flagIf (!ex) fInx)
  else
    match x with
    | .nan => if f.specials = 0 then (0, fInv) else (canonNan f, 0)
    | .inf s =>
      if s && !f.signed then (0, fInv ||| fInx)
      else if f.specials = 2 then (signBit f s + (2 ^ f.expBits - 1) * 2 ^ f.manBits, 0)
      else (signBit f s + maxMag f, fOvf ||| fInx)
    | .fin s m e =>
      if m = 0 then (signBit f s, 0)
      else
        let (near, _, tiny) := floatMag f rne m e
        if s && !f.signed then (0, fInv ||| fInx ||| flagIf tiny fUnf)
        else if near > maxMag f then (signBit f s + maxMag f, fOvf ||| fInx)
        else
          let (c, ex, _) := floatMag f rnd m e
          (signBit f s + min c (maxMag f), flagIf (!ex) fInx ||| flagIf (!ex && tiny) fUnf)

/-! ## FP32 operations of the Vector Engine -/

/-- The exact value of an FP32 code. -/
def f32 (c : W32) : Num := (decodeCode fp32 c.toNat).1

/-- The canonical FP32 NaN with INVALID (R188). -/
def nan32 : W32 × NFlags := (0x7FC00000#32, fInv)

def inf32 (s : Bool) : W32 := if s then 0xFF800000#32 else 0x7F800000#32

/-- Round an exact number to FP32 as an IEEE 754 operation (R187, R188): overflow gives an infinity. -/
def roundF32 : Num → W32 × NFlags
  | .nan => nan32
  | .inf s => (inf32 s, 0)
  | .fin s m e =>
    if m = 0 then (BitVec.ofNat 32 (signBit fp32 s), 0)
    else
      let (c, ex, tiny) := floatMag fp32 rne m e
      if c > maxMag fp32 then (inf32 s, fOvf ||| fInx)
      else (BitVec.ofNat 32 (signBit fp32 s + c), flagIf (!ex) fInx ||| flagIf (!ex && tiny) fUnf)

def fadd (a b : W32) : W32 × NFlags := roundF32 ((f32 a).add (f32 b))
def fsub (a b : W32) : W32 × NFlags := roundF32 ((f32 a).add (f32 b).neg)
def fmul (a b : W32) : W32 × NFlags := roundF32 ((f32 a).mul (f32 b))
def ffma (a b c : W32) : W32 × NFlags := roundF32 (((f32 a).mul (f32 b)).add (f32 c))

/-- A quotient of magnitudes as a dyadic number with a sticky low bit: at least 66 significant bits and the exact
remainder folded into bit 0, so that any narrower rounding of it equals the rounding of the exact quotient. -/
def quotient (m : Nat) (e : Int) (n : Nat) (g : Int) : Nat × Int :=
  let k := 66 + bitLen n - bitLen m
  let q := m * 2 ^ k / n
  (2 * q + b2n (m * 2 ^ k % n ≠ 0), e - g - k - 1)

/-- FDIV (R187, R188). -/
def fdiv (a b : W32) : W32 × NFlags :=
  match f32 a, f32 b with
  | .fin s m e, .fin t n g =>
    if n = 0 then (if m = 0 then nan32 else (inf32 (s != t), fDz))
    else if m = 0 then (BitVec.ofNat 32 (signBit fp32 (s != t)), 0)
    else let (q, x) := quotient m e n g; roundF32 (.fin (s != t) q x)
  | .inf s, .fin t _ _ => (inf32 (s != t), 0)
  | .fin s _ _, .inf t => (BitVec.ofNat 32 (signBit fp32 (s != t)), 0)
  | _, _ => nan32

/-- The integer square root, one result bit per unit of fuel. -/
def isqrtGo : Nat → Nat → Nat → Nat
  | 0, _, r => r
  | k + 1, n, r => let t := r + 2 ^ k; isqrtGo k n (if t * t ≤ n then t else r)

def isqrt (n : Nat) : Nat := isqrtGo (bitLen n / 2 + 1) n 0

/-- FSQRT (R187, R188): √−0 is −0. -/
def fsqrt (a : W32) : W32 × NFlags :=
  match f32 a with
  | .fin s m e =>
    if m = 0 then (a, 0)
    else if s then nan32
    else
      let k : Nat := if e % 2 = 0 then 80 else 81
      let n := m * 2 ^ k
      let r := isqrt n
      roundF32 (.fin false (2 * r + b2n (r * r ≠ n)) ((e - k) / 2 - 1))
  | .inf s => if s then nan32 else (a, 0)
  | .nan => nan32

/-- A positive value given as its floor in bits of 2^x (a sticky low bit when it is not exact), returned within 1 ulp
of the exact value (R187): the FP32 number below or above it, chosen by the free value; the number itself or a
neighbour where it is exact. -/
def nearUlp (op : Nat) (inp : W32) (s : Bool) (m : Nat) (x : Int) : W32 × NFlags :=
  let top : Int := x + bitLen m
  let q := max fp32.qmin (top - 24)
  let (f, r, _) := toGrid m x q
  let base := (q - fp32.qmin).toNat * 2 ^ fp32.manBits + f
  let exact : Bool := r = 0
  let pick := Config.nearestUlp op inp
  let c := if exact then (if pick % 3 = 0 then base else if pick % 3 = 1 then base + 1 else base - 1) else base + pick % 2
  let differs := !(exact && c = base)
  if c > maxMag fp32 then (inf32 s, fOvf ||| fInx)
  else (BitVec.ofNat 32 (signBit fp32 s + c),
    flagIf differs fInx ||| flagIf (differs && decide (top ≤ fp32.qmin + fp32.manBits)) fUnf)

/-- FRSQRT (R187, R188): 1/√x, with √ of a zero giving the infinity of its sign and DIVZERO. -/
def frsqrt (a : W32) : W32 × NFlags :=
  match f32 a with
  | .fin s m e =>
    if m = 0 then (inf32 s, fDz)
    else if s then nan32
    else
      -- 1/√(m·2^e) = 2^(−(e−d)/2) / √(m·2^d), d the parity of e
      let d := (e % 2).toNat
      let n := m * 2 ^ d
      let r := isqrt (2 ^ 200 / n)
      nearUlp 2 a false (2 * r + b2n (r * r * n ≠ 2 ^ 200)) (-((e - d) / 2) - 101)
  | .inf s => if s then nan32 else (0#32, 0)
  | .nan => nan32

/-- Fractional bits of log2 of y / 2^p in [1, 2), most significant first, k of them, by repeated squaring. -/
def log2Bits (p : Nat) : Nat → Nat → Nat → Nat
  | 0, _, acc => acc
  | k + 1, y, acc =>
    let z := y * y / 2 ^ p
    if z ≥ 2 ^ (p + 1) then log2Bits p k (z / 2) (2 * acc + 1) else log2Bits p k z (2 * acc)

/-- FLOG2 (R187, R188), from 96 bits of the fraction computed to 220 bits. -/
def flog2 (a : W32) : W32 × NFlags :=
  match f32 a with
  | .fin s m e =>
    if m = 0 then (inf32 true, fDz)
    else if s then nan32
    else
      let l := Nat.log2 m
      let p := 220
      let y := m * 2 ^ (p - l)
      let exact : Bool := m = 2 ^ l
      let z : Int := (e + l) * (2 ^ 96 : Nat) + (log2Bits p 96 y 0 : Nat)
      if exact then
        (if z = 0 then (0#32, 0) else nearUlp 1 a (z < 0) z.natAbs (-96))
      else
        -- between z and z + 1 in units of 2^-96: the magnitude's floor with a sticky bit
        let mag := if z < 0 then (-z - 1).toNat else z.toNat
        nearUlp 1 a (z < 0) (2 * mag + 1) (-97)
  | .inf s => if s then nan32 else (inf32 false, 0)
  | .nan => nan32

/-- 2^(2^−1), 2^(2^−2), … as roots in p fractional bits, multiplied where the fraction's bit is set. -/
def exp2Go (p : Nat) : Nat → Nat → Nat → Nat → Nat
  | 0, _, _, acc => acc
  | k + 1, frac, root, acc =>
    let r := isqrt (root * 2 ^ p)
    exp2Go p k frac r (if bit frac k then acc * r / 2 ^ p else acc)

/-- FEXP2 (R187, R188), from 120 bits of the fraction computed to 160 bits. -/
def fexp2 (a : W32) : W32 × NFlags :=
  match f32 a with
  | .fin s m e =>
    if m = 0 then nearUlp 0 a false 1 0
    else if e + bitLen m > 9 then (if s then nearUlp 0 a false 3 (-200) else (inf32 false, fOvf ||| fInx))
    else
      -- x = i + f / 2^120 with f truncated
      let (g, r, _) := toGrid m e (-120)
      let z : Int := if s then -(g : Int) - b2n (r ≠ 0) else g
      let i : Int := z / (2 ^ 120 : Nat)
      let f := (z % (2 ^ 120 : Nat)).toNat
      if f = 0 && r = 0 then nearUlp 0 a false 1 i
      else nearUlp 0 a false (2 * exp2Go 160 120 f (2 ^ 161) (2 ^ 160) + 1) (i - 161)
  | .inf s => (if s then 0#32 else inf32 false, 0)
  | .nan => nan32

/-- A magnitude cut to its 256 leading bits; and whether nothing was lost. -/
def cut256 (m : Nat) (e : Int) (ex : Bool) : Nat × Int × Bool :=
  let n := bitLen m - 256
  (m / 2 ^ n, e + n, ex && m % 2 ^ n = 0)

/-- m × 2^e to the power t by squaring, in 256 significant bits. -/
def powGo : Nat → Nat → Nat × Int × Bool → Nat × Int × Bool → Nat × Int × Bool
  | 0, _, _, acc => acc
  | k + 1, t, (m, e, ex), (am, ae, ax) =>
    let acc := if t % 2 = 1 then cut256 (am * m) (ae + e) (ax && ex) else (am, ae, ax)
    if t / 2 = 0 then acc else powGo k (t / 2) (cut256 (m * m) (e + e) ex) acc

/-- ONEMPOW (R250): 1 − A^t within 1 ulp; A^t beyond 2^±400 is taken as that bound. -/
def onempow (a : W32) (t : Nat) : W32 × NFlags :=
  match f32 a with
  | .nan => nan32
  | .inf s => (inf32 (!(s && t % 2 = 1)), 0)
  | .fin s m e =>
    if m = 0 then (0x3F800000#32, 0)
    else
      let (pm, pe, ex) := powGo 64 t (m, e, true) (1, 0, true)
      let top := pe + bitLen pm
      let (pm, pe, ex) := if top > 400 then (1, 400, false) else if top < -400 then (1, -400, false) else (pm, pe, ex)
      match addFin false 1 0 (!(s && t % 2 = 1)) pm pe with
      | .fin n v x =>
        if v = 0 then (0#32, 0)
        else if ex then nearUlp (3 + t) a n v x
        else nearUlp (3 + t) a n (2 * v + 1) (x - 1)
      | _ => nan32

/-- FMIN (lo = true) and FMAX, with −0 below +0 (R182, R188). -/
def fminmax (lo : Bool) (a b : W32) : W32 × NFlags :=
  let x := f32 a
  let y := f32 b
  if x.isNan || y.isNan then nan32
  else
    let aBelow := x.lt y || (x.isZero && y.isZero && x.sign)
    (if aBelow = lo then a else b, 0)

/-- FCMPEQ, FCMPLT, FCMPLE (R182): false for a NaN operand. -/
def fcmpeq (a b : W32) : Bool :=
  let x := f32 a; let y := f32 b
  !x.isNan && !y.isNan && !x.lt y && !y.lt x
def fcmplt (a b : W32) : Bool :=
  let x := f32 a; let y := f32 b
  !x.isNan && !y.isNan && x.lt y
def fcmple (a b : W32) : Bool :=
  let x := f32 a; let y := f32 b
  !x.isNan && !y.isNan && !y.lt x

/-- FCVTI (R189): NaN gives 0 with INVALID; out of range saturates with OVERFLOW and, by R131, INEXACT. -/
def fcvti (a : W32) : W32 × NFlags :=
  match f32 a with
  | .nan => (0#32, fInv)
  | .inf s => (if s then 0x80000000#32 else 0x7FFFFFFF#32, fOvf ||| fInx)
  | .fin s m e =>
    let (r, ex) := rne m e 0
    let z : Int := if s then -(r : Int) else r
    if z < -(2 ^ 31 : Nat) then (0x80000000#32, fOvf ||| fInx)
    else if z > (2 ^ 31 : Nat) - 1 then (0x7FFFFFFF#32, fOvf ||| fInx)
    else (BitVec.ofInt 32 z, flagIf (!ex) fInx)

/-- ICVTF (R187). -/
def icvtf (a : W32) : W32 × NFlags := roundF32 (.ofInt a.toInt)

/-! ## The W accumulator -/

/-- The W accumulator of R150: sign, 64-bit significand and its exponent; zero is (false, 0, 0). -/
structure WAcc where
  neg : Bool
  man : Nat
  exp : Int
  deriving DecidableEq, Repr

def wZero : WAcc := ⟨false, 0, 0⟩

/-- W + t for an exact finite term, rounded to a 64-bit significand to nearest even, +0 for a zero result (R151);
and whether the addition was exact. -/
def wAdd (w : WAcc) (s : Bool) (m : Nat) (e : Int) : WAcc × Bool :=
  match addFin w.neg w.man w.exp s m e with
  | .fin _ 0 _ => (wZero, true)
  | .fin n v q =>
    let q' := max q (q + bitLen v - 64)
    let (r, ex) := rne v q q'
    -- a carry out of the significand gives its leading bit alone
    (if r = 2 ^ 64 then ⟨n, 2 ^ 63, q' + 1⟩ else ⟨n, r, q'⟩, ex)
  | _ => (w, true)

def WAcc.num (w : WAcc) : Num := .fin w.neg w.man w.exp

/-- The 80-bit word of W (R150): S, E with bias 16,383, and M with its leading bit at [63]. -/
def WAcc.word (w : WAcc) : Nat :=
  if w.man = 0 then 0
  else
    let l := bitLen w.man
    let m := w.man * 2 ^ (64 - l)
    b2n w.neg * 2 ^ 79 + (w.exp + l - 1 + 16383).toNat * 2 ^ 64 + m

/-! ## The counter generator -/

/-- One round of the counter generator with its key (R197). -/
def crngRound (c : Nat × Nat × Nat × Nat) (k0 k1 : Nat) : Nat × Nat × Nat × Nat :=
  let (c0, c1, c2, c3) := c
  let p := 0xE817FB2D * c0
  let q := 0xB4F165A3 * c2
  (Nat.xor (Nat.xor (q / 2 ^ 32) c1) k0, q % 2 ^ 32, Nat.xor (Nat.xor (p / 2 ^ 32) c3) k1, p % 2 ^ 32)

def crngGo : Nat → Nat × Nat × Nat × Nat → Nat → Nat → Nat × Nat × Nat × Nat
  | 0, c, _, _ => c
  | n + 1, c, k0, k1 =>
    crngGo n (crngRound c k0 k1) ((k0 + 0x7F4A7C15) % 2 ^ 32) ((k1 + 0x3C6EF372) % 2 ^ 32)

/-- Word i of the counter generator's output for a key of 64 bits and the counter fields of R198. -/
def counterWord (seed elem tile step purpose layer i : Nat) : Nat :=
  let c0 := elem % 2 ^ 32
  let c1 := elem / 2 ^ 32 % 2 ^ 16 * 2 ^ 16 + tile % 2 ^ 16
  let c2 := step % 2 ^ 32
  let c3 := purpose % 16 * 2 ^ 28 + layer % 2 ^ 12 * 2 ^ 16 + step / 2 ^ 32 % 2 ^ 16
  let (w0, w1, w2, w3) := crngGo 8 (c0, c1, c2, c3) (seed % 2 ^ 32) (seed / 2 ^ 32 % 2 ^ 32)
  match i % 4 with | 0 => w0 | 1 => w1 | 2 => w2 | _ => w3

/-! ## Packed runs (R135) -/

/-- Element i of a run of width-bit elements whose bytes, little-endian, are the number n. -/
def packedElem (n width i : Nat) : Nat := fld n (width * i) width

/-- The number whose little-endian bytes are the packed run of the codes. -/
def packCodes (width : Nat) : List Nat → Nat
  | [] => 0
  | c :: cs => c % 2 ^ width + 2 ^ width * packCodes width cs

end Sys2Proof.Machine
end

