-- ==== Sys2Proof/Machine/Recipes.lean ====
section
/-!
DEFINITION. Machine/Recipes.lean: the words of the Recipe Table at reset (R248, R249, "Built-in recipes", R278) and
the reset value of the registers whose value differs along a family; no state.
-/
namespace Sys2Proof.Machine

/-- A micro-op word (R249). -/
def uop (op d a b c slot : Nat) : Nat :=
  op * 2 ^ 26 + d * 2 ^ 22 + a * 2 ^ 17 + b * 2 ^ 12 + c * 2 ^ 7 + slot

/-- Constant Kj as a source number. -/
def kSrc (j : Nat) : Nat := 16 + j

/-- Recipe 0, SGD with momentum. -/
def recipe0 : List Nat := [
  uop 0x01 0 0 0 0 0, uop 0x03 1 0 0 0 0, uop 0x13 1 1 (kSrc 1) 0 0, uop 0x09 0 1 0 0 0,
  uop 0x02 2 0 0 0 0, uop 0x13 2 1 (kSrc 0) 2 0, uop 0x08 0 2 0 0 0, 0]

/-- Recipe 1, AdamW. -/
def recipe1 : List Nat := [
  uop 0x01 0 0 0 0 0, uop 0x03 1 0 0 0 0, uop 0x03 2 0 0 0 1, uop 0x02 3 0 0 0 0,
  uop 0x12 1 1 (kSrc 0) 0 0, uop 0x13 1 0 (kSrc 1) 1 0, uop 0x12 4 0 0 0 0, uop 0x12 2 2 (kSrc 2) 0 0,
  uop 0x13 2 4 (kSrc 3) 2 0, uop 0x09 0 1 0 0 0, uop 0x09 0 2 0 0 1, uop 0x1B 5 (kSrc 0) 0 0 0,
  uop 0x1B 6 (kSrc 2) 0 0 0, uop 0x14 7 1 5 0 0, uop 0x14 8 2 6 0 0, uop 0x15 8 8 0 0 0,
  uop 0x10 8 8 (kSrc 4) 0 0, uop 0x14 7 7 8 0 0, uop 0x12 3 3 (kSrc 5) 0 0, uop 0x13 3 7 (kSrc 6) 3 0,
  uop 0x08 0 3 0 0 0, 0]

/-- Recipe 2, row-wise Adagrad. -/
def recipe2 : List Nat := [
  uop 0x01 0 0 0 0 0, uop 0x12 1 0 0 0 0, uop 0x1D 1 1 0 0 0, uop 0x04 2 0 0 0 0, uop 0x10 2 2 1 0 0,
  uop 0x0A 0 2 0 0 0, uop 0x10 3 2 (kSrc 1) 0 0, uop 0x16 3 3 0 0 0, uop 0x12 3 3 0 0 0,
  uop 0x02 4 0 0 0 0, uop 0x13 4 3 (kSrc 0) 4 0, uop 0x08 0 4 0 0 0, 0]

/-- Word w (offset 4 × w) of a recipe from its header words, constants and micro-ops. -/
def recipeWord (h0 h1 recBytes : Nat) (ks ops : List Nat) (w : Nat) : Nat :=
  if w = 0 then h0 else if w = 1 then h1 else if w = 2 then recBytes
  else if w < 16 then 0
  else if w < 32 then ks.getD (w - 16) 0
  else ops.getD (w - 32) 0

/-- Word w of recipe n at reset: FLAGS, N_OPS, NSLOT, GRAD_FMT in word 0 and the slot formats in word 1. -/
def recipeReset (n w : Nat) : Nat :=
  match n with
  | 0 => recipeWord (0x05 + 8 * 2 ^ 8 + 1 * 2 ^ 16 + 1 * 2 ^ 24) 3 (4160 + 2112) [0xBC23D70A, 0x3F666666] recipe0 w
  | 1 => recipeWord (0x05 + 22 * 2 ^ 8 + 2 * 2 ^ 16 + 1 * 2 ^ 24) (3 + 12 * 2 ^ 8) (4160 + 2 * 2112)
      [0x3F666666, 0x3DCCCCCD, 0x3F7FBE77, 0x3A83126F, 0x322BCC77, 0x3F7FFF58, 0xBA83126F] recipe1 w
  | 2 => recipeWord (0x07 + 13 * 2 ^ 8) 0 4160 [0xBC23D70A, 0x2EDBE6FF] recipe2 w
  | _ => 0

end Sys2Proof.Machine
end

