-- ==== Sys2Proof/Machine/State.lean ====
section
/-!
DEFINITION. Machine/State.lean: everything the spec gives the module, as plain data; the state right after reset; and
why a step can stop.

Sparse maps (SMap) hold the registers, the memories and the many like units. What an unlisted key reads as is fixed by
the accessors of Machine/Ops.lean: a register its reset value, a byte of memory 0, a unit its initial state.
-/
namespace Sys2Proof.Machine

open Sys2Proof

/-! ## Shared names -/

/-- How a memory or CSR access completes (R332). -/
inductive Code where
  | ok | unmapped | align | denied | offline | ue | cutoff | absent | unreachable
  deriving DecidableEq, Repr

/-- The step fault causes (R64), in the order of their bits. -/
inductive Cause where
  | feedLate | podTimeout | peerFault | windowLate | memUe | torn | descError | stepMismatch | tileReset
  deriving DecidableEq, Repr

/-- SEQ_STATUS.STATE (R71). -/
inductive SeqMode where
  | idle | waitFeed | running | fence | faulted | starting
  deriving DecidableEq, Repr

/-! ## Power, pins and the standby domain (chapter 1) -/

/-- Main conversion: off, charging towards regulation, or on with PWR_GOOD released (R30). -/
inductive PowerPhase where
  | off | charging | on
  deriving DecidableEq, Repr

/-- The instruction in force in a die of the boundary-scan chain (R38). -/
inductive ScanIr where
  | bypass | idcode | sample | extest | clamp | highz
  deriving DecidableEq, Repr

structure PowerState where
  /-- 52 V above 44 V: the standby domain and the SMBus target run (R30) -/
  standby : Bool
  /-- the level of PWR_EN -/
  pwrEn : Bool
  /-- EMERG_OFF_N is held low from outside -/
  emergExt : Bool
  /-- the safety controller drives EMERG_OFF_N low, until PWR_EN goes low (R28) -/
  emergTrip : Bool
  phase : PowerPhase
  /-- BSCAN_EN as sampled at the PWR_EN rising edge (R39) -/
  bscan : Bool
  /-- SMB_ADDR[2:0] as sampled when the standby domain started -/
  smbAddr : Nat
  /-- the off-cause latch, laid out as PWR_OFF_CAUSE[15:0] (R37) -/
  offCause : BitVec 16
  /-- the sticky ALERT_SOURCE bits (R34, R35) -/
  alertSource : BitVec 5
  /-- the input lies outside 46 V to 56 V without having tripped (R15) -/
  inputOut : Bool
  /-- the instruction of each die of the boundary-scan chain: 0 the hub die, 1 + t base die t (R38) -/
  scanIr : SMap ScanIr
  /-- boundary cells preloaded into each die (R38) -/
  scanCells : SMap (List Byte)
  /-- lamp authentication at power-on has ended (R577) -/
  lampsDone : Bool
  deriving DecidableEq, Repr

/-! ## Step programs (chapter 2) -/

/-- A descriptor that has issued and not completed (R49, R50). -/
structure InFlight where
  idx : Nat
  kind : Nat
  flags : Nat
  signal : Nat
  /-- the 24 argument bytes -/
  args : List Byte
  /-- shares, jobs, blocks or pieces of it still to finish -/
  parts : Nat
  /-- logical cores whose share has not been handed out (R87) -/
  waiting : List Nat
  /-- completes with an error: some true when it is MEM_UE under R597 -/
  err : Option Bool
  /-- an error to raise once its last part has ended (R259) -/
  late : Bool
  /-- the layer that an Easel-bound COLLECTIVE names (R356) -/
  easel : Option Nat
  deriving DecidableEq, Repr

/-- One tile's Step Sequencer. -/
structure TileSeq where
  /-- the images of the two program slots (R44); none while not valid -/
  slot0 : Option (List Byte)
  slot1 : Option (List Byte)
  /-- index of the next descriptor to issue -/
  next : Nat
  inflight : List InFlight
  /-- the sixteen sync counters (R50) -/
  ctr : SMap Nat
  /-- SEQ_STATUS.PHASE (R71) -/
  phase : Nat
  /-- the ordinals of COLLECTIVE descriptors issued in this step -/
  colOrd : Nat
  /-- sync counters that failed work has signalled, one bit each (R65) -/
  taint : Nat
  deriving DecidableEq, Repr

def TileSeq.init : TileSeq := ⟨none, none, 0, [], [], 0, 0, 0⟩

/-- What R54 makes of a reduced flag word. -/
structure Decision where
  faulted : Bool
  /-- the update is applied -/
  apply : Bool
  /-- OVF_COUNT was not 0: the loss scale is halved at the fence -/
  halve : Bool
  deriving DecidableEq, Repr

/-- Resets and stops accepted during orders 3 to 9 of a fence, which take effect after order 9 (R62, R581 to R584). -/
inductive Deferred where
  | abort
  | resetModule
  | resetTile (t : Nat)
  deriving DecidableEq, Repr

/-- A fence or barrier message of another module (R57, R59, R447): phase 0 start, 1 arrival, 2 completion. -/
structure BarrierMsg where
  phase : Nat
  node : Nat
  step : Nat
  gen : Nat
  dirGen : Nat
  digest : Nat
  deriving DecidableEq, Repr

/-- An open reduction that no collective engine works on any more, or a FLAG_REDUCE that a faulted step left open (R443):
its tile, 4 for a FLAG_REDUCE, the messages received for it, the numbers of those it sent, from lo up to hi, and whether
its result is still awaited. -/
structure OpenRed where
  tile : Nat
  msgs : Nat
  lo : Nat
  hi : Nat
  awaits : Bool
  deriving DecidableEq, Repr

/-- The Step Sequencers as a whole. -/
structure SeqState where
  mode : SeqMode
  /-- SEQ_STATUS.ACTIVE_SLOT -/
  active : Bool
  mixed : Bool
  haltPending : Bool
  lastSkipped : Bool
  /-- FLAG_REDUCE has issued on every tile of the module in this step -/
  reduceIssued : Bool
  /-- the messages received for that FLAG_REDUCE, and the numbers of those it sent: from the first up to the second -/
  flagMsgs : Nat
  flagSent : Nat × Nat
  /-- reductions that stay open without a place on a collective engine (R443) -/
  opens : List OpenRed
  decision : Option Decision
  /-- orders of R57 done in the fence in progress: 0 before order 2, 2 once the arrival message is sent, 8 after the
  orders up to the step number -/
  fenceOrder : Nat
  /-- the first fault cause since the last RUN_STEPS (R63) -/
  firstFault : Option Cause
  deferred : List Deferred
  /-- the flag word this module gave to FLAG_REDUCE (R53) -/
  sentFlags : Nat
  /-- barrier messages of other modules not yet used -/
  came : List BarrierMsg
  /-- the constants of the Recipe Table in force, as they stood when the step began (R253) -/
  consts : SMap W64
  /-- device time of the barrier that ended last, and of the issue of FLAG_REDUCE (R569) -/
  barrierAt : Nat
  joinAt : Nat
  deriving DecidableEq, Repr

/-! ## Cores (chapters 3, 5 and 6) -/

/-- Whose work a share is: a descriptor of a tile's program, or a pooling share of an Embedding Engine (R179). -/
inductive ShareSrc where
  | desc (tile idx : Nat)
  | pool (tile id : Nat)
  deriving DecidableEq, Repr

/-- A share of a MATMUL in an ME slot (R86, R87). -/
structure MeShare where
  src : ShareSrc
  /-- global address of this core's first list entry -/
  list : Nat
  len : Nat
  countFlags : Bool
  /-- next entry to fetch -/
  pos : Nat
  /-- a chain is open: the last MMA entry fetched had FINAL = 0 -/
  inChain : Bool
  err : Option Bool
  deriving DecidableEq, Repr

/-- Where a chain stands: entries still being fetched; reducing; reduced and waiting for or in final conversion;
converted and held for its tickets; waiting to be re-executed (R98). -/
inductive ChainStage where
  | fetching | reducing | converting | held | replay
  deriving DecidableEq, Repr

/-- The accumulators of one output element in the accumulator set of its chain: the group register (R147), the W
accumulator, the INT32 accumulator with its saturation mark, and the indicators of R158. -/
structure ElemAcc where
  group : BitVec 80
  w : WAcc
  i32 : Int
  sat : Bool
  nan : Bool
  posInf : Bool
  negInf : Bool
  deriving DecidableEq, Repr

structure MeChain where
  id : Nat
  src : ShareSrc
  countFlags : Bool
  /-- the MMA entries fetched, 64 bytes each -/
  tds : List (List Byte)
  /-- format word and OUT_MODE latched at the first descriptor (R92) -/
  fmt : Nat
  /-- ME_FMT_FWD and ME_FMT_BWD as they stood then -/
  fwd : Nat
  bwd : Nat
  outMode : Bool
  /-- FMT_SRC = 3: a weight gradient (R232) -/
  weightGrad : Bool
  /-- tickets named, and those not yet confirmed (R97) -/
  tickets : List Nat
  unconfirmed : List Nat
  /-- accumulator set (R165) -/
  set : Bool
  entry : Option Nat
  stage : ChainStage
  /-- this run re-executes the chain -/
  rerun : Bool
  /-- a REPLAY arrived during this run (R98) -/
  again : Bool
  /-- tickets whose REPLAY arrived while entries of the chain were still being fetched -/
  late : List Nat
  /-- a run whose results a re-execution already begun will replace -/
  replaced : Bool
  /-- a sample's copy runs before the chain may become READY (R229) -/
  traced : Bool
  /-- descriptors this run has reduced, and groups of the next one -/
  pos : Nat
  grp : Nat
  /-- the accumulators of the 1,024 elements, row by row; none before this run's first group -/
  acc : List ElemAcc
  /-- flags of the current run's reduction -/
  rflags : BitVec 32
  /-- converted results held under R599 or for HELD entries' counts: codes, overflow and invalid events, loudness -/
  out : List Nat
  ovf : Nat
  inv : Nat
  loud : Bool
  deriving DecidableEq, Repr

/-- A finished-tile queue entry (R94, R95): state 0 FREE, 1 FILLING, 2 HELD, 3 READY. -/
structure QEntry where
  state : Nat
  codes : List Nat
  tag : Nat
  /-- output format's Palette entry; bit [4] set for INT32 sums -/
  fmt : Nat
  /-- the chain that reserved it -/
  src : Option ShareSrc
  chain : Nat
  deriving DecidableEq, Repr

def QEntry.free : QEntry := ⟨0, [], 0, 0, none, 0⟩

/-- What the ME waits for before it fetches an MMA entry: a FREE entry (R101), or a set held under R599. -/
inductive MeWait where
  | none | full | held
  deriving DecidableEq, Repr

structure MeState where
  run : Option MeShare
  pend : Option MeShare
  chains : List MeChain
  nextId : Nat
  /-- accumulator set of the next chain -/
  nextSet : Bool
  entries : SMap QEntry
  head : Nat
  /-- next entry to reserve -/
  tail : Nat
  wait : MeWait
  /-- a chain already fetched, or one to be executed again, waits for a set held under R599 -/
  stuck : Bool
  /-- the chain that ME_NUM_FIRST records -/
  firstBy : Option Nat
  deriving DecidableEq, Repr

def MeState.init : MeState := ⟨none, none, [], 0, false, [], 0, 0, .none, false, none⟩

/-- A share of a VE program (R177, R178). -/
structure VeShare where
  src : ShareSrc
  prog : Nat
  param : Nat
  idx : Nat
  n : Nat
  countFlags : Bool
  deriving DecidableEq, Repr

/-- A core DMA transfer outstanding (R104, R193): DMAPUT or DMAGET, global and local address, bytes. -/
structure DmaXfer where
  put : Bool
  gaddr : Nat
  laddr : Nat
  len : Nat
  src : ShareSrc
  /-- R194 was broken: the destination bytes are undefined -/
  tainted : Bool
  deriving DecidableEq, Repr

/-- What the VE waits for (VE_STATUS.WAIT, R207). -/
inductive VeWait where
  | none | operand | popt | dmaFull | dmaWait
  deriving DecidableEq, Repr

structure VeState where
  run : Option VeShare
  pend : Option VeShare
  /-- the running share has started under R178 -/
  started : Bool
  /-- the running share has ended at HALT or a fault (R179) -/
  ended : Bool
  /-- its error so far -/
  err : Option Bool
  /-- the instruction buffer -/
  insns : List W64
  pc : Nat
  /-- instructions retired by the share -/
  retired : Nat
  /-- lane l of Vn at key 64 n + l -/
  v : SMap W32
  x : SMap W64
  m : SMap W64
  dma : List DmaXfer
  /-- errors of the completed transfers of the share, first one first: true for UE -/
  dmaErrs : List Bool
  /-- transfers that have completed since the last DMAWAIT (R194) -/
  unseen : List DmaXfer
  wait : VeWait
  /-- EV_CORE_FAULT has been recorded for the share (R102) -/
  noted : Bool
  deriving DecidableEq, Repr

def VeState.init : VeState := ⟨none, none, false, false, none, [], 0, 0, [], [], [], [], [], [], .none, false⟩

structure CoreState where
  me : MeState
  ve : VeState
  deriving DecidableEq, Repr

def CoreState.init : CoreState := ⟨MeState.init, VeState.init⟩

/-- Repair of cores (R78, R80 to R82, R111). -/
structure RepairState where
  /-- slot disabled in each cluster by the field repair overlay, by global cluster number; unlisted: as in the birth
  record -/
  overlay : SMap (Option Nat)
  /-- cores that were spares and that R80 has enabled, by physical index; the overlay keeps them with it (R107) -/
  spared : List Nat
  /-- core whose self-test SEC_SPARE_SELECT started, by physical index -/
  testing : Option Nat
  /-- cores to be treated as failed at the next start (R82), by physical index -/
  retired : List Nat
  /-- spares that failed a self-test, by physical index -/
  badSpares : List Nat
  deriving DecidableEq, Repr

/-! ## The event recorder (chapter 17) -/

/-- An event queued for the recorder (R561, R565). -/
structure Ev where
  code : Nat
  cls : Nat
  inst : Nat
  arg : Nat
  time : Nat
  /-- events were dropped immediately before this one (R564, R565) -/
  lost : Bool
  deriving DecidableEq, Repr

structure RecState where
  queue : List Ev
  /-- an event was dropped and no later one has been accepted -/
  dropped : Bool
  /-- the most recent record may still take folds: its source word, code and time -/
  last : Option (Nat × Nat × Nat)
  /-- ring slots that hold an uncorrectable error -/
  badSlots : List Nat
  deriving DecidableEq, Repr
/-! ## Quantizers and the Tracing Unit (chapter 7) -/

/-- The job a Quantizer is running. -/
structure QzRun where
  /-- index of its QUANT descriptor -/
  idx : Nat
  countFlags : Bool
  job : List Byte
  /-- the first conversion is in CAL mode -/
  cal : Bool
  /-- the re-conversion of R220 is running -/
  recon : Bool
  /-- the QUANT descriptor has completed -/
  descDone : Bool
  deriving DecidableEq, Repr

/-- What the Tracing Unit copied of a traced chain (R229). -/
structure TraceCopy where
  core : Nat
  chain : Nat
  tag : Nat
  /-- the sampled operand is A -/
  isA : Bool
  /-- for each descriptor: first destination row and column, whether its reduction runs along the row, and K -/
  parts : List (Nat × Nat × Bool × Nat)
  /-- the other operand with its scales, as BF16 codes, line by line -/
  other : List (List Nat)
  rs : List Nat
  cs : List Nat
  /-- the 1,024 outputs, and their Palette entry (16 for INT32 sums) -/
  out : List Nat
  outFmt : Nat
  deriving DecidableEq, Repr

/-- A sample in progress (R228). -/
structure Sample where
  ticket : Nat
  job : List Byte
  copy : Option TraceCopy
  /-- the recompute of R230 is running -/
  recomputing : Bool
  /-- the trace buffer when the job was sampled -/
  base : Nat
  bytes : Nat
  deriving DecidableEq, Repr

/-- One tile's Quantizer and Tracing Unit. -/
structure QzState where
  /-- jobs issued and not begun: descriptor index, job address, COUNT_FLAGS -/
  queue : List (Nat × Nat × Bool)
  run : Option QzRun
  /-- the ticket table (R223): 1 issued, 2 confirmed, 3 replayed -/
  tickets : SMap Nat
  /-- notices decided and not yet delivered (R222): the ticket, and whether it is REPLAY -/
  notices : List (Nat × Bool)
  /-- gated jobs counted by the Tracing Unit (R228) -/
  gated : Nat
  sample : Option Sample
  /-- layers marked active and loud in this step (R232) -/
  active : SMap Bool
  loud : SMap Bool
  /-- TR_BUF_BASE and TR_BUF_BYTES in force for the step (R240) -/
  bufBase : Nat
  bufBytes : Nat
  deriving DecidableEq, Repr

def QzState.init : QzState := ⟨[], none, [], [], 0, none, [], [], 0, 0⟩

/-- The module-wide part. -/
structure QzModule where
  /-- the calibration table (R216), entry by entry as its 64-bit word -/
  cal : SMap Nat
  /-- QZ_CTRL, TR_CTRL and TR_QUIET_LIMIT in force for the step (R213, R240) -/
  ctrl : Nat
  trCtrl : Nat
  quiet : Nat
  deriving DecidableEq, Repr

/-! ## The Update Journal and prefetch staging (chapter 10) -/

/-- A segment of a tile's journal (R342, R345): its area, step, entries made and bytes of entry space used. Index,
entries and filter bits themselves lie in memory. -/
structure Segment where
  area : Nat
  step : Nat
  count : Nat
  used : Nat
  /-- a RUN_STEPS found it with a step not below its first: the next fence writes it back (R350) -/
  stale : Bool
  deriving DecidableEq, Repr

structure GranState where
  building : Option Segment
  /-- sealed segments, oldest step first -/
  sealedSegs : List Segment
  /-- written-back areas not yet cleared (R346) -/
  clearing : List Nat
  /-- bytes of row space used in the two staging halves (R354) -/
  half0 : Nat
  half1 : Nat
  deriving DecidableEq, Repr

def GranState.init : GranState := ⟨none, [], [], 0, 0⟩

/-! ## Update Engines (chapter 8) -/

/-- An UPDATE at work. -/
structure UeJob where
  idx : Nat
  recipe : Nat
  /-- local addresses of the parameter and gradient shards -/
  params : Nat
  grads : Nat
  count : Nat
  /-- next block to stage -/
  next : Nat
  /-- completes with an error at its end (R259) -/
  bad : Bool
  deriving DecidableEq, Repr

/-- What a staging slot is doing: its block is being read, or committed, or is torn (R260 to R266). -/
inductive UePhase where
  | reading | committing | torn
  deriving DecidableEq, Repr

/-- A staging slot in use. The engine works from this copy of the staged bytes (log 36). -/
structure UeSlot where
  idx : Nat
  recipe : Nat
  /-- local addresses of the record and its gradients -/
  record : Nat
  grad : Nat
  phase : UePhase
  /-- tag read from the record -/
  tag : Nat
  /-- commit writes left, in order: offset in the record and bytes -/
  writes : List (Nat × List Byte)
  /-- writes of the state slots, and the undo copy of the weights -/
  slotWrites : List (Nat × List Byte)
  undo : List Byte
  /-- the record as it was staged: what parity describes until order 4 of the commit (R457) -/
  old : List Byte
  retried : Bool
  /-- for a torn block: its UE_TORN_SLOT register, step [15:0] and NO_UNDO -/
  reg : Nat
  step : Nat
  noUndo : Bool
  deriving DecidableEq, Repr

structure UeState where
  jobs : List UeJob
  slots : List (Nat × UeSlot)
  deriving DecidableEq, Repr

def UeState.init : UeState := ⟨[], []⟩


/-! ## The Embedding Engine (chapter 9) -/

/-- What is known of a row a fragment needs: still being read; excluded as poisoned; or its bytes and whether they are
in G8 layout (else the layout of R284). -/
inductive RowRes where
  | wait
  | bad
  | got (g8 : Bool) (bytes : List Byte)
  deriving DecidableEq, Repr

/-- A pooling share stands here: rows being gathered; in or before a core's VE slot; ended, with its error. -/
inductive PoolPhase where
  | gather
  | running
  | ended (err : Option Bool)
  deriving DecidableEq, Repr

/-- A share of a fragment: at most 256 rows to pool (MODE 0 to 2), the rows of one ROWS answer (3), or the rows of a
PREFETCH request (4) (R294, R295). -/
structure EmbShare where
  id : Nat
  /-- node field and TAG of the requester -/
  node : Nat
  tag : Nat
  table : Nat
  mode : Nat
  /-- bag position, row and result of each row, in key order -/
  items : List (Nat × Nat × RowRes)
  phase : PoolPhase
  /-- pooling core, and offset of the half of its pool area in use -/
  core : Nat
  area : Nat
  deriving DecidableEq, Repr

/-- A bag of a lookup being served. -/
structure EmbBag where
  tag : Nat
  /-- index of its entry in the list -/
  i : Nat
  mode : Nat
  fp32 : Bool
  /-- global address of its output -/
  dst : Nat
  keys : Nat
  /-- partials, or rows, still to arrive -/
  wait : Nat
  inc : Nat
  pois : Nat
  range : Nat
  firstEx : Nat
  /-- BF16 elements of the partials in order of arrival (R297) -/
  parts : List (List Nat)
  /-- positions of the keys sent to each other owner, by rank, in key order (R294) -/
  sent : SMap (List Nat)
  /-- BF16 elements of each row of a ROWS bag that has arrived -/
  rows : SMap (List Nat)
  deriving DecidableEq, Repr

/-- A descriptor of this chapter at work. -/
structure EmbJob where
  idx : Nat
  table : Nat
  d : Nat
  countFlags : Bool
  statusAddr : Nat
  bags : List EmbBag
  /-- for EMB_GRAD and PREFETCH: the tag its answers carry, and what is still to arrive -/
  tag : Nat
  wait : Nat
  err : Option Bool
  /-- device time of its issue (R569) -/
  since : Nat
  deriving DecidableEq, Repr

/-- A gradient contribution on its way to a serving tile of this module (R312). -/
structure Contrib where
  /-- TAG of the EMB_GRAD that sent it -/
  tag : Nat
  table : Nat
  row : Nat
  vec : List Num
  deriving DecidableEq, Repr

/-- A coalescing entry (R313). Its sums are held here, not in Studio SRAM or HBM (log 37). -/
structure CoalEntry where
  table : Nat
  row : Nat
  /-- in the spill area, and its place there or in the primary table -/
  spill : Bool
  place : Nat
  count : Nat
  acc : List Num
  deriving DecidableEq, Repr

/-- A row write of EMB_APPLY on its way to an HBM home (R318). -/
structure RowWrite where
  /-- the issuing tile and its descriptor -/
  tile : Nat
  idx : Nat
  table : Nat
  row : Nat
  addr : Nat
  bytes : List Byte
  retried : Bool
  deriving DecidableEq, Repr

structure EmbState where
  jobs : List EmbJob
  shares : List EmbShare
  coal : List CoalEntry
  /-- the heat sketch: counter i of sketch row j at key 4,096 j + i (R304) -/
  sketch : SMap Nat
  /-- the candidate list: table, row, estimate (R305) -/
  cand : List (Nat × Nat × Nat)
  /-- exact counts of owned hot rows: table, row, count (R305) -/
  exact : List (Nat × Nat × Nat)
  /-- rotation overs the pooling cores (R295) -/
  rot : Nat
  contribs : List Contrib
  writes : List RowWrite
  deriving DecidableEq, Repr

def EmbState.init : EmbState := ⟨[], [], [], [], [], [], 0, [], []⟩

/-- The module-wide part: the four tiles' copies of the Table Directory and of the Hot-Row Directory are equal. -/
structure EmbModule where
  /-- table descriptors, 64 bytes each (R282) -/
  tables : SMap (List Byte)
  /-- Hot-Row Directory entries as their 64-bit words (R301) -/
  dir : SMap Nat
  nextId : Nat
  nextTag : Nat
  /-- committed steps of the heat window in progress; none before the first window begins (R306) -/
  window : Option Nat
  /-- change lists of this fence that have come: owner rank, demotions, promotions (R308) -/
  lists : List (Nat × List (Nat × Nat) × List (Nat × Nat))
  /-- hot rows of other owners not yet refreshed at order 6 of this fence, and refreshes that came before it (R309) -/
  awaited : List (Nat × Nat)
  early : List (Nat × Nat × List Byte)
  deriving DecidableEq, Repr

def EmbModule.init : EmbModule := ⟨[], [], 0, 0, none, [], [], []⟩

/-- A message that has come in and waits for its engine (R378). -/
structure InMsg where
  src : Nat
  typ : Nat
  tag : Nat
  body : List Byte
  deriving DecidableEq, Repr

/-! ## Arbiters (R362) -/

/-- An arbiter: POINTER, and the requesters that have lost rounds, with their CUR and WAIT; any other requester has
CUR = BASE and WAIT = 0. -/
structure Arb where
  ptr : Nat
  losers : List (Nat × Nat × Nat)
  deriving DecidableEq, Repr

def Arb.init : Arb := ⟨0, []⟩

/-! ## Torus links (chapter 11) -/

/-- A DATA block not yet acknowledged (R379): its SEQ, the message it belongs to, its 512 bytes as sent, and how often
it has been re-sent. -/
structure TxBlock where
  seq : Nat
  msg : Nat
  bytes : List Byte
  resent : Nat
  deriving DecidableEq, Repr

/-- A torus port, apart from its registers. -/
structure PortState where
  /-- step of R390 reached: 0 waiting, 1 lit, 2 locked, 3 IDENT exchanged, 4 swept -/
  step : Nat
  /-- lanes that locked, and lanes on which the peer's IDENT has come -/
  locked : Nat
  idented : Nat
  /-- transmit lanes that the peer's TRAIN markers report as passing -/
  txPass : Nat
  /-- own X448 secret, SHARE and NONCE of the keying in progress, and the key material K -/
  secret : List Byte
  share : List Byte
  nonce : List Byte
  keyK : List Byte
  /-- the CONFIRM exchange has begun: the peer's SHARE has come -/
  shared : Bool
  /-- next SEQ to send and next SEQ expected; DATA and LINK blocks sent under the key -/
  txSeq : Nat
  rxSeq : Nat
  txCount : Nat
  linkCount : Nat
  retry : List TxBlock
  /-- DATA blocks not yet first sent: virtual channel (2 × class + VC), message, payload -/
  queue : List (Nat × Nat × List Byte)
  /-- credits in use: reserved ones by virtual channel, and shared ones -/
  resv : SMap Nat
  sharedUse : Nat
  /-- a NAK has been sent for the SEQ expected -/
  nak : Bool
  /-- SEQs of the DATA and of the LINK blocks whose tag has failed and that have not been accepted since (R388) -/
  authSeq : List Nat
  authLink : List Nat
  /-- bytes of the message being received on each virtual channel -/
  part : SMap (List Byte)
  /-- blocks that hold that message, and receive buffers in use, on each virtual channel (R385) -/
  partBlocks : SMap Nat
  held : SMap Nat
  /-- lanes' consecutive windows over SPARE_BER -/
  overs : SMap Nat
  /-- send time of the TIME request outstanding -/
  t1 : Option Nat
  /-- open-fibre control blocks the transmit path (R425) -/
  dark : Bool
  /-- EV_LINK_COORD has been recorded since the link came up -/
  coordNoted : Bool
  /-- a lane without a spare has lost lock, so that the retrain will fail (R394) -/
  lackLane : Bool
  /-- codeword index of the last lane swap (R393) -/
  swapAt : Nat
  deriving DecidableEq, Repr

def PortState.init : PortState :=
  { step := 0, locked := 0, idented := 0, txPass := 0, secret := [], share := [], nonce := [], keyK := [], shared := false,
    txSeq := 0, rxSeq := 0, txCount := 0, linkCount := 0, retry := [], queue := [], resv := [], sharedUse := 0,
    nak := false, authSeq := [], authLink := [], part := [], partBlocks := [], held := [], overs := [], t1 := none, dark := false,
    coordNoted := false, lackLane := false, swapAt := 0 }

structure NetState where
  ports : SMap PortState
  nextMsg : Nat
  /-- whole messages received and not yet delivered or routed on: 16 × receive port + virtual channel, the receive buffers
  that each frees, and bytes (R385, R398) -/
  assembled : List (Nat × Nat × List Byte)
  /-- nanoseconds of offset still to be removed from pod time (R403) -/
  slew : Int
  /-- the ends of the ring links that are known to be UP with COORD_OK, at 64 a + 2 c + e for link c of axis a, e being 1
  at its + port (R400) -/
  ends : SMap Bool
  /-- messages of class COLLECTIVE given to ports: their numbers and generations (R434) -/
  colGens : List (Nat × Nat)
  /-- those that a port lost before their link accepted them (R443) -/
  lost : List Nat
  deriving DecidableEq, Repr

def NetState.init : NetState := ⟨[], 0, [], 0, [], [], []⟩

/-! ## Lamps (chapter 12) -/

/-- A lamp slot, apart from its registers. -/
structure LampState where
  /-- a cartridge is in the slot -/
  seated : Bool
  /-- the challenge under way -/
  challenge : List Byte
  /-- the cartridge's own counters, LIT_MIN and AGED_MIN (R416) -/
  cartLit : Nat
  cartAged : Nat
  /-- sixteenths of an AGED_MIN minute -/
  frac : Nat
  /-- minutes of the hour in progress lit at NOMINAL, and minutes elapsed in it -/
  nominal : Nat
  minutes : Nat
  /-- a ramp under way ends with the lamp at this level; 0 dark -/
  target : Nat
  /-- it ends a LAMP_RETIRE -/
  retiring : Bool
  /-- EV_LAMP_LOW and EV_LAMP_EOL have been recorded for this insertion -/
  lowNoted : Bool
  eolNoted : Bool
  /-- it has run a full hour at NOMINAL since it was inserted (R418) -/
  predicted : Bool
  deriving DecidableEq, Repr

def LampState.init : LampState := ⟨false, [], 0, 0, 0, 0, 0, 0, false, false, false, false⟩

/-! ## The birth record and module flash -/

/-- What the birth record and module flash hold across power-off. The spec gives no values: those at reset are the
model's own (log 41). -/
structure Flash where
  /-- module serial number, 12 bytes -/
  serial : List Byte
  /-- device certificate, 384 bytes (R506) -/
  cert : List Byte
  /-- SHAKE256 digests of the birth record and of the field repair overlay, 64 bytes each (R509) -/
  birthDigest : List Byte
  /-- the link-training table (R392) -/
  train : SMap W32
  /-- the curve tables, entry i of domain d at 16 d + i, laid out as CLK_CURVEd_i (R554) -/
  curves : SMap W32
  /-- MAC addresses of the Ethernet ports, 6 bytes each -/
  macs : SMap (List Byte)
  /-- per lamp slot: serial of the last lamp, its LIT_MIN and AGED_MIN (R416, R417) -/
  lampRec : SMap (List Byte × Nat × Nat)
  /-- the owner record: owner public key and generation (R515) -/
  owner : Option (List Byte × Nat)
  /-- firmware images, header and body: copy A of kind k at 2 k, copy B at 2 k + 1 (R507) -/
  images : SMap (List Byte)
  deriving DecidableEq, Repr

def Flash.init : Flash := ⟨List.replicate 12 0, List.replicate 384 0, List.replicate 64 0, [], [], [], [], none, []⟩

/-! ## Start-up, identity and firmware (chapters 15 and 18) -/

/-- How far ROM has come (R508, R576). -/
inductive RomPhase where
  | running | done | halted
  deriving DecidableEq, Repr

structure BootState where
  rom : RomPhase
  /-- the Reeve runs and answers HCP (R576) -/
  reeve : Bool
  /-- VERSION of the running image of kind k at k; 0 when not loaded -/
  versions : SMap Nat
  /-- the alias private key, and the alias certificate (R512) -/
  aliasKey : List Byte
  aliasCert : List Byte
  /-- the pod secret (R521) -/
  podSecret : Option (List Byte)
  /-- the AES-256-XTS key of the Granary, 64 bytes once it has been made at this power-on (R339) -/
  granKey : List Byte
  /-- the DIMM records of R483, by socket; none read: 32 zero bytes -/
  dimms : SMap (List Byte)
  /-- state of each Ethernet port: 0 down, 1 up, 2 refused (R483) -/
  eth : SMap Nat
  /-- an UPDATE_FIRMWARE at work: the image, whether copy B is being written, and whether this is its second writing
  (R586) -/
  update : Option (List Byte × Bool × Bool)
  deriving DecidableEq, Repr

def BootState.init : BootState := ⟨.running, false, [], [], [], none, [], [], [], none⟩

/-! ## Clocks and temperature (chapter 16) -/

structure ClkState where
  /-- consecutive windows in tolerance, and out of it, of source n at n (R532, R535) -/
  good : SMap Nat
  bad : SMap Nat
  /-- the highest point each compute die allows, hysteresis included; unlisted 15 (R546) -/
  dieCap : SMap Nat
  /-- the step-down limit of the other components, as points below 15; samples for which a component has been at its
  throttle temperature (positive), or all have been 2 °C below (negative), since it moved (R546) -/
  down : Nat
  downAge : Int
  /-- consecutive power windows below LIMIT − 50 W (R548) -/
  calm : Nat
  /-- a new CAP waiting for the next step (R549) -/
  newCap : Option Nat
  /-- EV_CLK_FAIL has been recorded because ROOT was not READY by step 4 of start-up (R578) -/
  rootLate : Bool
  /-- estimates of the input power in the last 1 ms, newest first, mW (R550) -/
  loads : List Nat
  /-- trim of INT, toward a higher count when it rises (R534) -/
  trim : Int
  /-- ballast energy not yet a whole mJ, in units of 10^−10 J -/
  ballast : Nat
  deriving DecidableEq, Repr

def ClkState.init : ClkState := ⟨[], [], [], 0, 0, 0, none, false, [], 0, 0⟩

/-! ## Commands and sessions (chapters 14 and 15) -/

/-- An open session (R472, R473, R488, R520). -/
structure Session where
  id : Nat
  certId : Nat
  /-- K_CMD, K_REP, K_FIN and K_FOUT, 32 bytes each -/
  keys : List Byte
  /-- highest command SEQUENCE accepted; replies sent -/
  cmdSeq : Nat
  repSeq : Nat
  /-- highest feed SEQUENCE accepted, and those accepted in the 4,096 below it; feed messages sent -/
  feedHigh : Nat
  feedSeen : List Nat
  feedOut : Nat
  /-- device time of its last accepted command -/
  lastAt : Nat
  deriving DecidableEq, Repr

/-- An accepted command (R478). -/
structure HcpEntry where
  via : Via
  opcode : Nat
  tag : Nat
  session : Nat
  block : List Byte
  inline : List Byte
  /-- device time of its acceptance -/
  accepted : Nat
  /-- it holds one of the sixteen reserved entries -/
  reserved : Bool
  deriving DecidableEq, Repr

/-- The PENDING command (R475), and its final status and reply data once it has finished. -/
structure PendCmd where
  entry : HcpEntry
  result : Option (Nat × List Byte)
  deriving DecidableEq, Repr

/-- A datagram being reassembled on the management port (R468): source address and port, identification, pieces
(offset, bytes), and its whole length once its last fragment has come. -/
structure Frag where
  addr : List Byte
  port : Nat
  ident : Nat
  pieces : List (Nat × List Byte)
  total : Option Nat
  deriving DecidableEq, Repr

/-- A relayed packet whose reply has not come (R470): tag of its torus message, and where its reply goes. -/
structure RelayWait where
  tag : Nat
  eth : Nat
  addr : List Byte
  port : Nat
  deriving DecidableEq, Repr

structure HcpState where
  queue : List HcpEntry
  pend : Option PendCmd
  /-- open sessions, by SEC_SESSION entry -/
  sessions : SMap Session
  /-- service times of the last 1,024 commands, ns, newest first (R478) -/
  service : List Nat
  /-- the occupancy has been below half the threshold since the last EV_REEVE_OVERLOAD (R479) -/
  armed : Bool
  /-- device times of the last 1,000 AUTH_FAIL replies, newest first (R474) -/
  authFails : List Nat
  frags : List Frag
  relays : List RelayWait
  nextTag : Nat
  /-- prefixes of 8 bytes that routers have advertised on the Ethernet ports (R467) -/
  prefixes : SMap (List (List Byte))
  deriving DecidableEq, Repr

def HcpState.init : HcpState := ⟨[], none, [], [], true, [], [], [], 0, []⟩

/-! ## The sample feed (chapter 14) -/

structure FeedSlot where
  /-- 0 EMPTY, 1 FILLING, 2 INDEXED, 3 COMPLETE -/
  state : Nat
  /-- 64-byte units covered -/
  covered : SMap Bool
  indexBytes : Nat
  bytes : Nat
  /-- CODE and DETAIL of STATUS; DETAIL counts for codes that give one -/
  code : Nat
  detail : Nat
  deriving DecidableEq, Repr

def FeedSlot.init : FeedSlot := ⟨0, [], 0, 0, 0, 0⟩

structure FeedTile where
  slots : SMap FeedSlot
  /-- device time of the last STATUS sent for a drop -/
  dropAt : Option Nat
  /-- the copies of R492 are under way -/
  copying : Bool
  deriving DecidableEq, Repr

def FeedTile.init : FeedTile := ⟨[], none, false⟩

/-- An EXPORT_STATE to the feed (R485, R495): its command, bytes sent, bytes granted, and the device time of its final
reply once that has gone. -/
structure Export where
  entry : HcpEntry
  sent : Nat
  granted : Nat
  ended : Option Nat
  deriving DecidableEq, Repr

structure FeedState where
  tiles : SMap FeedTile
  /-- session of the last feed message accepted, and where its sender is -/
  last : Option (Nat × Nat × List Byte × Nat)
  exports : List Export
  deriving DecidableEq, Repr

def FeedState.init : FeedState := ⟨[], none, []⟩

/-! ## Layout changes (chapter 13) -/

structure LayoutState where
  /-- the change that is pending, or that a layout fence is making: whether it is RESHARD, and its parameter block (R444) -/
  change : Option (Bool × List Byte)
  /-- move-list entries skipped in the commit made last -/
  skipped : Nat
  /-- the commit waits at its order 2 (R434) -/
  waiting : Bool
  /-- chunk digests, 8 bytes each, of the modules that have joined a DIGEST_CHECK, by their coordinate c on its axis (R274) -/
  digests : SMap (List (List Byte))
  /-- block digests of chunk k, at 65,536 c + k -/
  blocks : SMap (List (List Byte))
  /-- this module has sent its block digests of the chunks that differ -/
  sent : Bool
  deriving DecidableEq, Repr

def LayoutState.init : LayoutState := ⟨none, 0, false, [], [], false⟩

/-! ## Collectives (chapter 13) -/

/-- A COLLECTIVE at work on a tile's collective engine (R436 to R443). -/
structure ColJob where
  idx : Nat
  ordinal : Nat
  op : Nat
  fmt : Nat
  /-- piece size, destination, and the axes the group spans -/
  bytes : Nat
  dst : Nat
  axes : Nat
  /-- member index of the root, and the direction of a SHIFT -/
  root : Nat
  minus : Bool
  /-- the layer it is Easel-bound for -/
  layer : Option Nat
  countFlags : Bool
  /-- data received: member, offset in units of 64 bytes, bytes; a reduction's own piece among them -/
  got : List (Nat × Nat × List Byte)
  /-- messages received, and the numbers of those sent: from the first up to the second -/
  msgs : Nat
  sent : Nat × Nat
  /-- the layout generation it was issued in -/
  gen : Nat
  deriving DecidableEq, Repr

/-! ## What the device sends -/

/-- One thing the device sends out, oldest first in State.out. The field is the model's own: it makes answers and
messages part of the state (log 2). -/
inductive Out where
  /-- an SMBus answer with its PEC (R33, R34) -/
  | smb (data : List Byte)
  /-- an SMBus transfer that is not acknowledged -/
  | smbNack
  /-- boundary-scan data of a die (R38) -/
  | scan (die : Nat) (data : List Byte)
  /-- a write of this module to another one's address (R330) -/
  | remoteWrite (gaddr : Nat) (data : List Byte)
  /-- a fence or barrier message to every module of the pod: 0 start, 1 arrival, 2 completion; step number, layout
  generation, directory generation and the digest of a pending layout change (R57, R59, R447) -/
  | podFence (phase step gen dirGen digest : Nat)
  /-- a step-abort notice to every module on the torus; mixed: an outcome that applies the update was out (R66) -/
  | stepAbort (step : Nat) (mixed : Bool)
  /-- the XOR of old and new bytes of a protected write, for parity unit j of member h of this module's group, from
  byte off of the unit; gran: the Granary run (R457) -/
  | parityDelta (gran : Bool) (h j off : Nat) (x : List Byte)
  /-- a link block or, lane being given, a lane marker's content on that transmit lane (R376, R405) -/
  | block (port : Nat) (lane : Option Nat) (bytes : List Byte)
  /-- a link-state message sent round a ring through a port: whether the end of link c at its + port, or at its − port, is
  UP with COORD_OK (R400) -/
  | linkState (port c : Nat) (plusEnd up : Bool)
  /-- digests sent to the other modules of a line: of a range's chunks, or of the blocks of one chunk (R274) -/
  | digests (axis : Nat) (chunk : Option Nat) (d : List (List Byte))
  /-- the challenge sent to a lamp (R524) -/
  | lampChallenge (slot : Nat) (bytes : List Byte)
  /-- the Class 1 probe of a blocked port (R425) -/
  | probe (port : Nat)
  /-- a gradient contribution to a row's owner (R312), and the word that one received is summed (R314) -/
  | contribution (node tag step table row : Nat) (vec : List Num)
  | contributionDone (node tag : Nat)
  /-- this module's hot-row change list, to every module: demotions, promotions (R308) -/
  | changeList (dem prom : List (Nat × Nat))
  /-- an owned hot row in the layout of R284, to every module; no bytes when it cannot be read (R309, log 38) -/
  | commonsRefresh (table row : Nat) (bytes : List Byte)
  /-- a UDP datagram over IPv6 from an Ethernet port: destination address and port, own port, data, and the size of the
  fragments it is sent in, 0 when it is not fragmented (R467, R468) -/
  | udp (eth : Nat) (addr : List Byte) (port own : Nat) (data : List Byte) (frag : Nat)
  /-- an answer to neighbour discovery or to an ICMPv6 echo request: its destination, the port's address and data (R467) -/
  | ndAnswer (eth : Nat) (addr target : List Byte)
  | echoReply (eth : Nat) (addr source data : List Byte)
  /-- the completion of a memory access (R332): requester index at its bank (255: another module), code and bytes -/
  | access (master : Nat) (code : Code) (data : List Byte)
  deriving DecidableEq, Repr

/-- The class in which a message travels that is kept whole here, since the spec gives it no TYPE and body: 0 CONTROL,
3 COLLECTIVE, 4 BULK; none for what does not travel as a torus message (R384, log 42). A parity delta and the word that
a contribution is summed are writes and completions of writes; digests are exchanged between the hubs. -/
def Out.cls : Out → Option Nat
  | .podFence _ _ _ _ _ => some 0
  | .stepAbort _ _ => some 0
  | .linkState _ _ _ _ => some 0
  | .digests _ _ _ => some 0
  | .contributionDone _ _ => some 2
  | .changeList _ _ => some 3
  | .remoteWrite _ _ => some 4
  | .parityDelta _ _ _ _ _ => some 4
  | .contribution _ _ _ _ _ _ => some 4
  | .commonsRefresh _ _ _ => some 4
  | .smb _ | .smbNack | .scan _ _ | .block _ _ _ | .lampChallenge _ _ | .probe _ | .udp _ _ _ _ _ _ | .ndAnswer _ _ _
  | .echoReply _ _ _ _ | .access _ _ _ => none


/-! ## The state -/

structure State where
  /-- commands waiting, first in first out -/
  pending : List Instr
  /-- every CSR, by its offset from CSR_BASE (a module-wide tile register at tile 0's block) -/
  csr : SMap W64
  /-- core SRAM, Studio SRAM, HBM and the Granary, by local address (R329) -/
  mem : SMap Byte
  /-- ranges (address, bytes) written and not yet drained by a FLUSH (R361) -/
  posted : List (Nat × Nat)
  /-- bytes, by local address, that hold an uncorrectable error: a read of one completes with UE (R337) -/
  ue : SMap Bool
  pwr : PowerState
  seq : SeqState
  tseq : SMap TileSeq
  cores : SMap CoreState
  repair : RepairState
  qz : SMap QzState
  qzm : QzModule
  upd : SMap UeState
  gran : SMap GranState
  emb : SMap EmbState
  embm : EmbModule
  /-- messages assembled and not yet taken by their engine -/
  inbox : List InMsg
  /-- arbiters, by the numbers of Machine/Arbiter.lean -/
  arb : SMap Arb
  net : NetState
  lamps : SMap LampState
  flash : Flash
  lay : LayoutState
  /-- the collectives of each tile -/
  col : SMap (List ColJob)
  boot : BootState
  clk : ClkState
  hcp : HcpState
  feed : FeedState
  erec : RecState
  /-- nanoseconds since the model's start, counted by idle steps; only bounds between events rest on it -/
  wall : Nat
  /-- wall time at which the last power-off was triggered (R31) -/
  offAt : Nat
  /-- how many free values have been taken; the model's own -/
  free : Nat
  out : List Out
  deriving DecidableEq, Repr

/-- Why a step stops with a fault. No command of this block stops so: every error of the spec is an effect on the
state. -/
inductive Fault where
  /-- raised by nothing; safe -/
  | none
  deriving DecidableEq, Repr

/-- Why a command is refused by the model. -/
inductive Refusal where
  /-- raised by a command that has no meaning yet; safe -/
  | notModelled (mnemonic : String)
  deriving DecidableEq, Repr

def PowerState.reset : PowerState :=
  { standby := true, pwrEn := true, emergExt := false, emergTrip := false, phase := .on, bscan := false, smbAddr := 0,
    offCause := 0, alertSource := 0, inputOut := false, scanIr := [], scanCells := [], lampsDone := false }

def SeqState.reset : SeqState :=
  { mode := .idle, active := false, mixed := false, haltPending := false, lastSkipped := false, reduceIssued := false,
    flagMsgs := 0, flagSent := (0, 0), opens := [], decision := none, fenceOrder := 0, firstFault := none, deferred := [], sentFlags := 0, came := [], consts := [], barrierAt := 0, joinAt := 0 }

def RepairState.reset : RepairState := ⟨[], [], none, [], []⟩
def RecState.reset : RecState := ⟨[], false, none, []⟩

/-- Right after module power-on reset: T0 of R576, PWR_GOOD just released, nothing in the queue. -/
def State.reset : State :=
  { pending := [], csr := [], mem := [], posted := [], ue := [], pwr := PowerState.reset, seq := SeqState.reset,
    tseq := [], cores := [], repair := RepairState.reset,
    qz := [], qzm := ⟨[], 0, 0, 0⟩, upd := [], gran := [], emb := [], embm := EmbModule.init, inbox := [], arb := [], net := NetState.init, lamps := [], flash := Flash.init, lay := LayoutState.init, col := [], boot := BootState.init, clk := ClkState.init,
    hcp := HcpState.init, feed := FeedState.init, erec := RecState.reset, wall := 0, offAt := 0, free := 0,
    out := [] }

end Sys2Proof.Machine
end

