-- ==== Sys2Proof/Machine/Ops.lean ====
section
/-!
DEFINITION. Machine/Ops.lean: the named operations over the state: registers, units, memory, events, messages.
-/
namespace Sys2Proof.Machine

open Sys2Proof

/-! ## Registers -/

/-- What a register reads at reset (R592): the row's reset value, the Palette words (R120, R126) and the recipes. -/
def csrReset (key : Nat) : W64 :=
  if 0x340F00 ≤ key && key < 0x340F80 then BitVec.ofNat 64 (paletteReset ((key - 0x340F00) / 8))
  else if 0x311000 ≤ key && key < 0x315000 then
    BitVec.ofNat 64 (recipeReset ((key - 0x311000) / 0x200) ((key - 0x311000) % 0x200 / 4))
  else match regFind key with
    | some r => BitVec.ofNat 64 r.row.reset
    | none => 0

/-- The value held by the register with a key. -/
def State.rd (s : State) (key : Nat) : Nat := (smGet (csrReset key) s.csr key).toNat

/-- Hold v in the register with a key. -/
def State.wr (s : State) (key v : Nat) : State :=
  { s with csr := smSet (csrReset key) s.csr key (BitVec.ofNat 64 v) }

/-- Field [lo + w − 1 : lo] of a register. -/
def State.rdf (s : State) (key lo w : Nat) : Nat := fld (s.rd key) lo w
def State.wrf (s : State) (key lo w x : Nat) : State := s.wr key (setFld (s.rd key) lo w x)

/-- Set the bits of a mask. -/
def State.orBits (s : State) (key mask : Nat) : State := s.wr key (Nat.lor (s.rd key) mask)

/-- Add n to a saturating counter of w bits. -/
def State.bumpW (s : State) (w key n : Nat) : State := s.wr key (satAdd w (s.rd key) n)

/-- Add n to a 64-bit counter, which saturates ("Counters and wrap"). -/
def State.bump (s : State) (key n : Nat) : State := s.bumpW 64 key n

/-- Return every register whose key satisfies p to its reset value. -/
def State.resetRegs (s : State) (p : Nat → Bool) : State := { s with csr := s.csr.filter fun e => !p e.1 }

/-! Keys of registers used outside their own chapter. -/

def kSeqStep : Nat := wideKey 0x130010
def kSeqStepsLeft : Nat := wideKey 0x130020
def kSeqHaltAt : Nat := wideKey 0x130028
def kJobSeed : Nat := wideKey 0x130038
def kPodFlags : Nat := wideKey 0x130048
def kSeqFault : Nat := wideKey 0x130050
def kSkipCount : Nat := wideKey 0x130058
def kLocalFlags (t : Nat) : Nat := tileBase t + 0x130040
def kClkDomains : Nat := 0x2008
def kOffCause : Nat := 0x4008
def kRecCtrl : Nat := 0xE000
def kRecSticky : Nat := 0xE004
def kRecHead : Nat := 0xE008
def kRecOldest : Nat := 0xE00C
def kRecDropped : Nat := 0xE010
def kRecSaturated : Nat := 0xE018
def kTime : Nat := 0xE020
def kGrnCtrl : Nat := wideKey 0x120000
def kLayout : Nat := wideKey 0x130200
def kLayoutStatus : Nat := wideKey 0x130208
def kParityCtrl : Nat := wideKey 0x130210
def kStartStatus : Nat := 0xC600

/-- SEQ_STEP (R72). -/
def State.step (s : State) : Nat := s.rdf kSeqStep 0 48
/-- REC_DEVICE_TIME (R563). -/
def State.time (s : State) : Nat := s.rd kTime
/-- The module's own node field (R463). -/
def State.node (s : State) : Nat := s.rdf kLayout 32 20
/-- No step is in progress: SEQ_STATUS.STATE is IDLE or FAULTED (R340). -/
def State.quiet (s : State) : Bool := s.seq.mode = .idle || s.seq.mode = .faulted
def State.isIdle (s : State) : Bool := s.seq.mode = .idle

/-- The package is powered (R30). -/
def State.powered (s : State) : Bool := s.pwr.phase = .on
/-- Clock domain d is gated (R531, R537): CLK_DOMAINS.GATED. -/
def State.gated (s : State) (d : Nat) : Bool := bit (s.rd kClkDomains) (32 + d)
/-- The engines of tile t can act: the package is powered and FAB t runs. -/
def State.fabOn (s : State) (t : Nat) : Bool := s.powered && !s.gated (4 + t)
/-- The cores of a tile can act: powered, with CORE t and FAB t running. -/
def State.coreOn (s : State) (lc : Nat) : Bool := s.fabOn (lc / 300) && !s.gated (lc / 300)
/-- The hub can act. -/
def State.hubOn (s : State) : Bool := s.powered && !s.gated 17

/-! ## Units -/

def State.core (s : State) (c : Nat) : CoreState := smGet CoreState.init s.cores c
def State.setCore (s : State) (c : Nat) (x : CoreState) : State := { s with cores := smSet CoreState.init s.cores c x }
def State.me (s : State) (c : Nat) : MeState := (s.core c).me
def State.ve (s : State) (c : Nat) : VeState := (s.core c).ve
def State.setMe (s : State) (c : Nat) (x : MeState) : State := s.setCore c { s.core c with me := x }
def State.setVe (s : State) (c : Nat) (x : VeState) : State := s.setCore c { s.core c with ve := x }
def State.tile (s : State) (t : Nat) : TileSeq := smGet TileSeq.init s.tseq t
def State.setTile (s : State) (t : Nat) (x : TileSeq) : State := { s with tseq := smSet TileSeq.init s.tseq t x }

/-! ## Order (R361, R482) -/

/-- A MEM_FENCE in flight. -/
def InFlight.fences (i : InFlight) : Bool := i.kind = 13 && i.err.isNone

/-- The scope and target of the FENCE or FLUSH that is PENDING. -/
def State.hcpFence (s : State) : Option (Nat × Nat) :=
  match s.hcp.pend with
  | some ⟨e, none⟩ =>
    if e.opcode = 0x0204 || e.opcode = 0x0205 then some (leAt e.block 0 1, leAt e.block 2 2) else none
  | _ => none

/-- A MEM_FENCE of tile u, in a running step, has a scope that p accepts. -/
def State.memFence (s : State) (p : Nat → Nat → Bool) : Bool :=
  s.seq.mode = .running && (List.range 4).any fun u => (s.tile u).inflight.any fun i => i.fences && p u (leAt i.args 0 1)

/-- An order command that has not ended covers the whole module: no access of the Reeve or of another module begins. -/
def State.fencedAll (s : State) : Bool :=
  s.memFence (fun _ sc => sc = 0) || (match s.hcpFence with | some (sc, _) => sc = 0 | none => false)

/-- One covers tile t: no access of its cores and engines begins (R361). -/
def State.fencedTile (s : State) (t : Nat) : Bool :=
  s.memFence (fun u sc => sc = 0 || u = t) ||
    (match s.hcpFence with | some (sc, k) => sc = 0 || (sc = 1 && k = t) | none => false)

/-- One covers core c: no access of its VE, ME output writer and core DMA begins. -/
def State.fencedCore (s : State) (c : Nat) : Bool := s.fencedTile (c / 300) || s.hcpFence = some (2, c)

/-- Append what the device sends. -/
def State.emit (s : State) (o : Out) : State := { s with out := s.out ++ [o] }

/-- Palette entry n (R115). -/
def State.fmt (s : State) (n : Nat) : Fmt := fmtOf (s.rd (wideKey (0x140F00 + 8 * n)))

/-- A fresh undefined number. -/
def State.freeNat (s : State) : Nat × State := (Config.freeNat s.free, { s with free := s.free + 1 })

/-- n fresh undefined bytes. -/
def freeBytes : Nat → Nat → List Byte
  | 0, _ => []
  | n + 1, k => Config.freeByte k :: freeBytes n (k + 1)

def State.takeFree (s : State) (n : Nat) : List Byte × State := (freeBytes n s.free, { s with free := s.free + n })

/-! ## Events (R561 to R565) -/

/-- An event is raised at its source and reaches the recorder's queue of 64, or is dropped (R565). -/
def State.raise (s : State) (code cls inst arg : Nat) : State :=
  if bit (s.rd kRecCtrl) 16 || s.erec.queue.length ≥ 64 then
    let s := (s.bump kRecDropped 1).orBits kRecSticky 1
    { s with erec := { s.erec with dropped := true } }
  else
    { s with erec := { s.erec with
        queue := s.erec.queue ++ [⟨code, cls, inst, arg, s.time, s.erec.dropped⟩], dropped := false } }

/-! ## Memory -/

/-- The ranges of the local address space (R329). -/
inductive Region where
  | core | studio | csr | hbm | granary | none
  deriving DecidableEq, Repr

def regionOf (a : Nat) : Region :=
  if a < 0x4B000000 then .core
  else if 0x100000000 ≤ a && a < 0x160000000 then .studio
  else if 0x200000000 ≤ a && a < 0x201000000 then .csr
  else if 0x1000000000 ≤ a && a < 0x9000000000 then .hbm
  else if 0x40000000000 ≤ a && a < 0x80000000000 then .granary
  else .none

def csrBase : Nat := 0x200000000
def studioBase (t : Nat) : Nat := 0x100000000 + t * 0x18000000
def hbmBase (t : Nat) : Nat := 0x1000000000 + t * 0x2000000000
def granBase (t : Nat) : Nat := 0x40000000000 + t * 0x10000000000

/-- The tile whose region an address lies in. -/
def tileOf (a : Nat) : Nat :=
  match regionOf a with
  | .core => a / 0x100000 / 300
  | .studio => (a - 0x100000000) / 0x18000000
  | .hbm => (a - 0x1000000000) / 0x2000000000
  | .granary => (a - 0x40000000000) / 0x10000000000
  | _ => 0

/-- Stack within the tile and pseudo-channel of an HBM offset (R334). -/
def hbmChan (x : Nat) : Nat × Nat :=
  let u := x / 256
  let c := Nat.xor (Nat.xor u (u / 2 ^ 7)) (u / 2 ^ 14) % 128
  (c / 64, c % 64)

/-- DDR5 channel of a Granary address (R333). -/
def granChan (a : Nat) : Nat :=
  let u := (a - 0x40000000000) % 0x10000000000 / 256
  4 * tileOf a + Nat.xor u (u / 2 ^ 8) % 4

/-- Does the 256-byte unit of an HBM address lie in a failed pseudo-channel (R335)? -/
def State.hbmFailed (s : State) (a : Nat) : Bool :=
  let t := tileOf a
  let (st, pc) := hbmChan (a - hbmBase t)
  bit (s.rd (tileBase t + 0x120108 + 8 * st)) pc

/-- Logical core lc is absent (R81): SEC_ABSENT_MASK, found from its cluster and rank in the effective mask. -/
def rankSlot (mask : Nat) : Nat → Nat → Nat → Nat
  | 0, i, _ => i
  | fuel + 1, i, r =>
    if bit mask i then (if r = 0 then i else rankSlot mask fuel (i + 1) (r - 1)) else rankSlot mask fuel (i + 1) r

/-- Effective enable mask of global cluster g (R78, R111). -/
def State.clusterMask (s : State) (g : Nat) : Nat := s.rdf (0x6000 + 8 * (g / 4)) (16 * (g % 4)) 16

/-- Global cluster and slot of a logical core (R78). -/
def State.slotOf (s : State) (lc : Nat) : Nat × Nat :=
  let g := lc / 15
  (g, rankSlot (s.clusterMask g) 16 0 (lc % 15))

/-- Physical index of a logical core (R77, R78). -/
def State.physOf (s : State) (lc : Nat) : Nat := let (g, sl) := s.slotOf lc; g * 16 + sl

def State.absent (s : State) (lc : Nat) : Bool :=
  let (g, sl) := s.slotOf lc
  bit (s.rdf (0x6100 + 8 * (g / 4)) (16 * (g % 4)) 16) sl

/-- The clock domain that serves an offset is gated (R591, R593). -/
def State.csrGated (s : State) (off : Nat) : Bool :=
  match csrBlock off with
  | 0 => s.gated 17
  | 6 => s.gated 16
  | 7 => s.gated 16
  | 8 => false
  | _ => s.gated (4 + tileOfCsr off)

/-- How an access completes that is not made at a register's own place and width: unassigned offsets read 0 and ignore
writes, whatever the width (R10, R11, R81, R332, R537). -/
def State.csrCode (s : State) (off n : Nat) : Code :=
  if s.csrGated off then .offline
  else if csrBlock off = 5 && s.absent (coreOfCsr off) then .absent
  else if csrOverlaps off n then .align else .ok

/-- How an access to n bytes at a completes, uncorrectable errors aside (R329 to R332, R537). -/
def State.accessCode (s : State) (a n : Nat) : Code :=
  let e := a + n - 1
  if n = 0 then .ok
  else if regionOf a ≠ regionOf e then .unmapped
  else match regionOf a with
    | .none => .unmapped
    | .csr => s.csrCode (a - csrBase) n
    | .core =>
      if (List.range (e / 0x100000 + 1 - a / 0x100000)).any fun i => s.absent (a / 0x100000 + i) then .absent
      else if s.gated (tileOf a) || s.gated (tileOf e) then .offline else .ok
    | .studio => if s.gated (4 + tileOf a) || s.gated (4 + tileOf e) then .offline else .ok
    | .hbm =>
      if s.gated (8 + tileOf a) || s.gated (8 + tileOf e) then .offline
      else if (List.range (e / 256 + 1 - a / 256)).any fun i => s.hbmFailed ((a / 256 + i) * 256) then .offline
      else .ok
    | .granary =>
      if !bit (s.rd kGrnCtrl) 4 || s.gated (12 + tileOf a) || s.gated (12 + tileOf e) then .offline else .ok

/-- The byte stored at a local address. Studio SRAM after power-on reads 0 (log 6); the other memories are zeroed. -/
def State.byte (s : State) (a : Nat) : Byte := smGet 0 s.mem a

def State.bytes (s : State) (a : Nat) : Nat → List Byte
  | 0 => []
  | n + 1 => s.byte a :: s.bytes (a + 1) n

/-- Store bytes, without any check: the memory array itself. -/
def memPut : SMap Byte → Nat → List Byte → SMap Byte
  | m, _, [] => m
  | m, a, b :: bs => memPut (smSet 0 m a b) (a + 1) bs

def ueSet : SMap Bool → Nat → Nat → Bool → SMap Bool
  | m, _, 0, _ => m
  | m, a, n + 1, v => ueSet (smSet false m a v) (a + 1) n v

def State.poke (s : State) (a : Nat) (bs : List Byte) : State :=
  { s with mem := memPut s.mem a bs, ue := if s.ue = [] then [] else ueSet s.ue a bs.length false }

/-- The first byte of n from a that holds an uncorrectable error. -/
def State.ueAt (s : State) (a n : Nat) : Option Nat :=
  if s.ue = [] then none else (s.ue.find? fun e => a ≤ e.1 && e.1 < a + n && e.2).map (·.1)

/-- The account of an uncorrectable read at a (R337). -/
def State.noteUe (s : State) (a : Nat) : State :=
  let t := tileOf a
  let b := tileBase t
  match regionOf a with
  | .hbm => ((s.bump (b + 0x120120) 1).wr (b + 0x120128) (2 ^ 63 + a)).raise 0x0402 1 t a
  | .granary =>
    let n := min (s.rdf (b + 0x1200A0) 48 15 + 1) 0x7FFF
    (s.wr (b + 0x1200A0) (2 ^ 63 + n * 2 ^ 48 + a)).raise 0x0405 1 t a
  | .core => s.raise 0x0407 2 (a / 0x100000) a
  | _ => s.raise 0x0407 1 t a

/-- Units of 4 KiB before range i, and the unit and offset of a in the run of protected ranges of its memory (R455). -/
def State.parityFind (s : State) (gran : Bool) (a : Nat) : Nat → Nat → Nat → Option (Nat × Nat)
  | 0, _, _ => none
  | k + 1, i, u =>
    let base := s.rd (wideKey (0x130600 + 16 * i))
    let len := s.rd (wideKey (0x130608 + 16 * i))
    if decide (regionOf base = .granary) = gran && len > 0 then
      (if base ≤ a && a < base + len then some (u + (a - base) / 4096, (a - base) % 4096)
       else s.parityFind gran a k (i + 1) (u + len / 4096))
    else s.parityFind gran a k (i + 1) u

/-- Units of the run of protected ranges of a memory. -/
def State.runUnits (s : State) (gran : Bool) : Nat :=
  (List.range (s.rdf kParityCtrl 24 6)).foldl (fun n i =>
    if decide (regionOf (s.rd (wideKey (0x130600 + 16 * i))) = .granary) = gran then
      n + s.rd (wideKey (0x130608 + 16 * i)) / 4096
    else n) 0

/-- Parity units held for a run. -/
def State.parityUnits (s : State) (gran : Bool) : Nat :=
  let n := s.rdf kParityCtrl 8 8 - 1
  if n = 0 then 0 else (s.runUnits gran + n - 1) / n

/-- Local address of parity unit j. -/
def State.parityAddr (s : State) (gran : Bool) (j : Nat) : Nat :=
  s.rdf (wideKey (if gran then 0x130220 else 0x130218)) 0 44 + 4096 * j

/-- A local address lies in a parity unit held here. -/
def State.inParity (s : State) (a : Nat) : Bool :=
  let gran : Bool := regionOf a = .granary
  let base := s.parityAddr gran 0
  bit (s.rd kParityCtrl) 0 && base ≤ a && a < base + 4096 * s.parityUnits gran

/-- An address lies in a protected range of this module. -/
def State.isProtected (s : State) (a : Nat) : Bool :=
  bit (s.rd kParityCtrl) 0 && (s.parityFind (regionOf a = .granary) a (s.rdf kParityCtrl 24 6) 0 0).isSome

/-- The 64-byte line of a is written in place with reconstructed bytes; the model kept what the line held. -/
def State.healLine (s : State) (a : Nat) : State := { s with ue := ueSet s.ue (a / 64 * 64) 64 false }

/-- A unit is reconstructed from parity (R458). -/
def State.repaired (s : State) (a : Nat) : State :=
  (s.bump (wideKey 0x130240) 1).raise 0x0805 1 (tileOf a) (a / 4096 * 4096)

/-- A read meets an uncorrectable error at a (R337): where parity covers the byte its controller reconstructs it (R458),
and a parity unit is computed again (R461). Whether the other members allow it is a free value (log 80). -/
def State.rebuilt (s : State) (a : Nat) : Bool × State :=
  let s := s.noteUe a
  if s.isProtected a then
    let (k, s) := s.freeNat
    if k % 3 = 0 then (true, (s.healLine a).repaired a) else (false, s.orBits (wideKey 0x130214) (k % 3))
  else if s.inParity a then
    let (k, s) := s.freeNat
    let s := s.orBits (wideKey 0x130214) 4
    if k % 2 = 0 then (true, s.healLine a) else (false, s)
  else (false, s)

/-- Read n bytes that every check but that of errors lets through. -/
def State.readGo (s : State) (a n : Nat) : Nat → Code × List Byte × State
  | 0 => (.ue, [], s)
  | fuel + 1 =>
    match s.ueAt a n with
    | none => (.ok, if regionOf a = .csr then List.replicate n 0 else s.bytes a n, s)
    | some e =>
      match s.rebuilt e with
      | (true, s) => s.readGo a n fuel
      | (false, s) => (.ue, [], s)

/-- Read n bytes at a local address: the code, the bytes, and the state with the account of an error. -/
def State.memRead (s : State) (a n : Nat) : Code × List Byte × State :=
  match s.accessCode a n with
  | .ok => s.readGo a n (n / 64 + 2)
  | c => (c, [], s)

/-- The parity unit that covers unit u of this member: the holder's index and the unit's number there (R455). -/
def State.parityHolder (s : State) (u : Nat) : Nat × Nat :=
  let n := s.rdf kParityCtrl 8 8
  let i := s.rdf kParityCtrl 16 8
  ((i + 1 + u % (n - 1)) % n, u / (n - 1))

def xorBytes : List Byte → List Byte → List Byte
  | x :: xs, y :: ys => (x ^^^ y) :: xorBytes xs ys
  | _, _ => []

/-- The delta x for bytes at a of one 4 KiB unit, sent when a lies in a protected range (R457). -/
def State.parityXor (s : State) (a : Nat) (x : List Byte) : State :=
  if !bit (s.rd kParityCtrl) 0 then s
  else
    let gran : Bool := regionOf a = .granary
    match s.parityFind gran a (s.rdf kParityCtrl 24 6) 0 0 with
    | none => s
    | some (u, off) =>
      let (h, j) := s.parityHolder u
      s.emit (.parityDelta gran h j off x)

/-- The delta of a write of bs: old bytes XOR new ones. -/
def State.parityDelta (s : State) (a : Nat) (bs : List Byte) : State := s.parityXor a (xorBytes (s.bytes a bs.length) bs)

/-- A delta cut at 4 KiB boundaries. -/
def State.parityXors (s : State) (a : Nat) (x : List Byte) : Nat → State
  | 0 => s
  | fuel + 1 =>
    let k := 4096 - a % 4096
    if x = [] then s else (s.parityXor a (x.take k)).parityXors (a + k) (x.drop k) fuel

/-- The delta of a whole range: what it held before XOR what it holds now. -/
def State.parityCatchUp (s : State) (a : Nat) (old : List Byte) : State :=
  s.parityXors a (xorBytes old (s.bytes a old.length)) (old.length / 4096 + 2)

/-- A write cut at 4 KiB boundaries, each piece with its delta, then stored. -/
def State.storeUnits (s : State) (a : Nat) (bs : List Byte) : Nat → State
  | 0 => s
  | fuel + 1 =>
    let k := 4096 - a % 4096
    if bs = [] then s
    else ((s.parityDelta a (bs.take k)).poke a (bs.take k)).storeUnits (a + k) (bs.drop k) fuel

/-- A write waits in its controller's queue until a FLUSH drains it (R360, R361). -/
def State.post (s : State) (a n : Nat) : State :=
  if regionOf a = .core || n = 0 then s else { s with posted := s.posted ++ [(a, n)] }

/-- Store bytes at a local address with the parity delta of R457, as a posted write. -/
def State.store (s : State) (a : Nat) (bs : List Byte) : State :=
  (s.storeUnits a bs (bs.length / 4096 + 2)).post a bs.length

/-- A write of an update block, whose one delta goes at the end of its commit (R457). -/
def State.memWriteBare (s : State) (a : Nat) (bs : List Byte) : Code × State :=
  match s.accessCode a bs.length with
  | .ok => (.ok, (s.poke a bs).post a bs.length)
  | c => (c, s)

/-- Write bytes at a local address. own: one of the device's own paths that R340 lets write the Granary in a step. -/
def State.memWrite (s : State) (own : Bool) (a : Nat) (bs : List Byte) : Code × State :=
  match s.accessCode a bs.length with
  | .ok =>
    if regionOf a = .granary && !own && !s.quiet then
      (.denied, s.orBits (tileBase (tileOf a) + 0x120024) 2)
    else (.ok, if regionOf a = .csr then s else s.store a bs)
  | c => (c, s)

/-- The completion code with a number (R332); a number that names none is UNREACHABLE. -/
def codeOf : Nat → Code
  | 0 => .ok | 1 => .unmapped | 2 => .align | 3 => .denied | 4 => .offline | 5 => .ue | 6 => .cutoff | 7 => .absent
  | _ => .unreachable

def Code.num : Code → Nat
  | .ok => 0 | .unmapped => 1 | .align => 2 | .denied => 3 | .offline => 4 | .ue => 5 | .cutoff => 6 | .absent => 7
  | .unreachable => 8

/-- How a global address is served (R3, R4, R330): locally, nowhere, or by another module. -/
inductive Served where
  | here (a : Nat)
  | nowhere
  | there
  deriving DecidableEq, Repr

/-- A node field lies within the current layout's lengths (R3, R330). -/
def State.inLayout (s : State) (node : Nat) : Bool :=
  let l := s.rd kLayout
  fld node 15 5 < fld l 0 6 && fld node 10 5 < fld l 8 6 && fld node 5 5 < fld l 16 6 && fld node 0 5 < fld l 24 6

/-- Coordinate of a node on axis a, and the length of an axis. -/
def coordOf (node a : Nat) : Nat := fld node (15 - 5 * a) 5
def State.layoutLen (s : State) (a : Nat) : Nat := s.rdf kLayout (8 * a) 6
/-- LNK_RINGa (R400). -/
def State.ring (s : State) (a : Nat) : Nat := s.rd (netKey (8 + 4 * a))

/-- Every link of a path of n links is usable. -/
def State.pathOk (s : State) (a start l : Nat) (plus : Bool) : Nat → Bool
  | 0 => true
  | n + 1 =>
    let c := if plus then start else (start + l - 1) % l
    bit (s.ring a) c && s.pathOk a (if plus then (start + 1) % l else c) l plus n

/-- The axis that a message for a node crosses first (R398). -/
def State.axisTo (s : State) (node : Nat) : Option Nat :=
  (List.range 4).find? fun a => coordOf s.node a ≠ coordOf node a

/-- A path of usable links towards a node begins here: none makes a message for it UNREACHABLE (R398). -/
def State.reaches (s : State) (node : Nat) : Bool :=
  match s.axisTo node with
  | none => true
  | some a =>
    let c := coordOf s.node a
    let l := s.layoutLen a
    let d := (coordOf node a + l - c) % l
    s.pathOk a c l true d || s.pathOk a c l false (l - d)

def State.serve (s : State) (g : Nat) : Served :=
  let node := fld g 44 20
  if node = 0xFFFFF || node = s.node then .here (g % 2 ^ 44)
  else if s.inLayout node then .there
  else .nowhere

def remoteBytes : Nat → Nat → Nat → List Byte
  | 0, _, _ => []
  | k + 1, n, g => Config.remoteByte n g :: remoteBytes k n (g + 1)

/-- Read at a global address. What another module answers is a free value (log 5); one that no path reaches answers
nothing (R398). -/
def State.gRead (s : State) (g n : Nat) : Code × List Byte × State :=
  match s.serve g with
  | .here a => s.memRead a n
  | .nowhere => (.unmapped, [], s)
  | .there =>
    let c := if s.reaches (fld g 44 20) then codeOf (Config.remoteCode s.free g n) else .unreachable
    (c, if c = .ok then remoteBytes n s.free g else [], { s with free := s.free + 1 })

/-- Write at a global address. -/
def State.gWrite (s : State) (own : Bool) (g : Nat) (bs : List Byte) : Code × State :=
  match s.serve g with
  | .here a => s.memWrite own a bs
  | .nowhere => (.unmapped, s)
  | .there =>
    if !s.reaches (fld g 44 20) then (.unreachable, s)
    else (codeOf (Config.remoteCode s.free g bs.length), ({ s with free := s.free + 1 }).emit (.remoteWrite g bs))

/-- Local address of offset o of a core's SRAM (R79). -/
def coreAddr (c o : Nat) : Nat := c * 0x100000 + o

/-- Make n bytes from a zero (the clearing of an index or a filter bank). -/
def State.zero (s : State) (a n : Nat) : State :=
  { s with mem := s.mem.filter fun e => !(a ≤ e.1 && e.1 < a + n), ue := s.ue.filter fun e => !(a ≤ e.1 && e.1 < a + n) }

/-- The part of a posted write before a, and the part from e on. -/
def cutRange (a e : Nat) (w : Nat × Nat) : List (Nat × Nat) :=
  if w.1 + w.2 ≤ a || e ≤ w.1 then [w]
  else (if w.1 < a then [(w.1, a - w.1)] else []) ++ (if e < w.1 + w.2 then [(e, w.1 + w.2 - e)] else [])

/-- Bytes a to a + n − 1 wait in no controller's queue any more: an engine has written over them (R371). -/
def State.unpost (s : State) (a n : Nat) : State :=
  if s.posted = [] then s else { s with posted := s.posted.flatMap (cutRange a (a + n)) }

/-- A write of one of the device's engines into its own tables, with the parity delta of R457. -/
def State.put (s : State) (a : Nat) (bs : List Byte) : State :=
  (s.storeUnits a bs (bs.length / 4096 + 2)).unpost a bs.length

/-- The clearing of such a table. -/
def State.clear (s : State) (a n : Nat) : State :=
  let s := if bit (s.rd kParityCtrl) 0 then s.parityXors a (s.bytes a n) (n / 4096 + 2) else s
  (s.zero a n).unpost a n

/-- The n bytes at a become undefined (log 4). -/
def State.undef (s : State) (a n : Nat) : State :=
  let (bs, s) := s.takeFree n
  s.poke a bs

/-- Bytes that a stopped write leaves undefined, in a range whose parity follows them (R457, R465). -/
def State.undefStore (s : State) (a n : Nat) : State :=
  let (bs, s) := s.takeFree n
  s.storeUnits a bs (n / 4096 + 2)

/-! ## Numeric flags of the step (R52) -/

/-- Count overflow and invalid events in a tile's step flag word, each field saturating. -/
def State.countStep (s : State) (t ovf inv : Nat) : State :=
  if ovf = 0 && inv = 0 then s
  else
    let w := s.rd (kLocalFlags t)
    s.wr (kLocalFlags t) (setFld (setFld w 0 24 (satAdd 24 (fld w 0 24) ovf)) 24 24 (satAdd 24 (fld w 24 24) inv))

/-! ## Replies (R477) -/

def stOk : Nat := 0x0000
def stPending : Nat := 0x0001
def stBadOpcode : Nat := 0x0010
def stBadParam : Nat := 0x0011
def stBadLength : Nat := 0x0012
def stAuthFail : Nat := 0x0020
def stStale : Nat := 0x0021
def stQueueFull : Nat := 0x0030
def stBusy : Nat := 0x0031
def stBusyReducing : Nat := 0x0032
def stNotReady : Nat := 0x0040
def stClockNotReady : Nat := 0x0041
def stStepFault : Nat := 0x0050
def stTornBlock : Nat := 0x0051
def stPoisoned : Nat := 0x0052
def stWindowLate : Nat := 0x0053
def stLimit : Nat := 0x0060
def stGeneration : Nat := 0x0070
def stInternal : Nat := 0x00FF

/-- What a command comes to: its status, its reply data, and the state after it. -/
abbrev Ans := Nat × List Byte × State

/-- A refusal, which leaves the state unchanged. -/
def State.no (s : State) (status : Nat) : Ans := (status, [], s)
/-- Success without data. -/
def State.yes (s : State) : Ans := (stOk, [], s)

/-- The status that carries an access's completion code (R332, R477). -/
def Code.status : Code → Nat
  | .ok => stOk
  | .unmapped | .align | .absent => stBadParam
  | .denied | .cutoff => stBusy
  | .offline | .unreachable => stNotReady
  | .ue => stPoisoned

end Sys2Proof.Machine
end

