-- ==== Sys2Proof/Machine/MeArith.lean ====
section
/-!
DEFINITION. Machine/MeArith.lean: the arithmetic of a chain (chapter 5): operand decoding, group registers, anchored
blocks and spills, the integer path, group scales, and the final conversion. Reads go to one core's local SRAM.
-/
namespace Sys2Proof.Machine

open Sys2Proof

/-- ME_NUM_FLAGS bits of its own (R171). -/
def mIsat : NFlags := 16
def mNanScale : NFlags := 32
def mTern : NFlags := 64
def mRounded : NFlags := 128

/-- Fields of a tile descriptor (R88). -/
def tdOp (td : List Byte) : Nat := leAt td 0 1
def tdFlag (td : List Byte) (i : Nat) : Bool := bit (leAt td 1 1) i
def tdSrc (td : List Byte) : Nat := fld (leAt td 2 1) 0 2
def tdOutMode (td : List Byte) : Bool := bit (leAt td 2 1) 2
def tdK (td : List Byte) : Nat := leAt td 8 2
def tdTag (td : List Byte) : Nat := leAt td 10 2
def tdTicket (td : List Byte) : Nat := leAt td 12 2
/-- The address and pitch fields, by their offset. -/
def tdW (td : List Byte) (off : Nat) : Nat := leAt td off 4

/-- Group size G of a format word (R89). -/
def fwGroup (fw : Nat) : Nat := 32 * 2 ^ fld fw 12 2

/-- The format word with its A and B formats exchanged (FMT_SRC = 3). -/
def fwSwap (fw : Nat) : Nat := setFld (setFld fw 0 4 (fld fw 4 4)) 4 4 (fld fw 0 4)

/-- A result and the state after reading; the error is true for UE. -/
abbrev Rd (α : Type) := Except Bool α × State

/-- The error a completion code stands for: none, UE or another (R597). -/
def Code.err : Code → Option Bool
  | .ok => none
  | .ue => some true
  | _ => some false

/-- Read n bytes at offset o of a core's SRAM. -/
def State.coreRead (s : State) (c o n : Nat) : Rd (List Byte) :=
  match s.memRead (coreAddr c o) n with
  | (.ok, bs, s) => (.ok bs, s)
  | (.ue, _, s) => (.error true, s)
  | (_, _, s) => (.error false, s)

/-- Row segments of n bytes each, at a base and a pitch, as little-endian numbers. -/
def State.coreSegs (s : State) (c base pitch n : Nat) : Nat → Rd (List Nat)
  | 0 => (.ok [], s)
  | k + 1 =>
    match s.coreRead c base n with
    | (.error e, s) => (.error e, s)
    | (.ok bs, s) =>
      match s.coreSegs c (base + pitch) pitch n k with
      | (.error e, s) => (.error e, s)
      | (.ok r, s) => (.ok (leNat bs :: r), s)

/-- The 32 stored segments of block j of an operand: columns j of stored rows when the reduction runs along a row,
else stored rows 32 j to 32 j + 31 (R84, R88). -/
def State.opBlock (s : State) (c base pitch width : Nat) (alongRow : Bool) (j : Nat) : Rd (List Nat) :=
  s.coreSegs c (if alongRow then base + 4 * width * j else base + pitch * (32 * j)) pitch (4 * width) 32

/-- The 32 codes of line i (row of A or column of B) of a block. -/
def blockLine (segs : List Nat) (width : Nat) (alongRow : Bool) (i : Nat) : List Nat :=
  if alongRow then
    let n := segs.getD i 0
    (List.range 32).map fun k => packedElem n width k
  else segs.map fun n => packedElem n width i

/-- What one unit (a group, or an anchored block) gives: its group register (R147), whose weight is 2^exp, the spilled
products in ascending position, and the indicators. -/
structure UnitSum where
  sum : BitVec 80
  exp : Int
  spills : List Num
  nan : Bool
  posInf : Bool
  negInf : Bool
  deriving DecidableEq, Repr

/-- Add one product to a unit whose register weight is 2^u.exp (R147, R149, R158). -/
def UnitSum.add (u : UnitSum) (p : Num) : UnitSum :=
  match p with
  | .nan => { u with nan := true }
  | .inf s => if s then { u with negInf := true } else { u with posInf := true }
  | .fin s m e =>
    if m = 0 then u
    else if e < u.exp then { u with spills := u.spills ++ [p] }
    else
      let v := BitVec.ofNat 80 (m * 2 ^ (e - u.exp).toNat)
      { u with sum := if s then u.sum - v else u.sum + v }

def mulZip : List Num → List Num → List Num
  | x :: xs, y :: ys => x.mul y :: mulZip xs ys
  | _, _ => []

/-- floor(log2 |p|) of the largest finite nonzero product: the anchor A of a block (R149). -/
def anchor : List Num → Option Int → Option Int
  | [], a => a
  | .fin _ m e :: ps, a =>
    if m = 0 then anchor ps a
    else
      let l := e + bitLen m - 1
      anchor ps (match a with | none => some l | some b => some (max l b))
  | _ :: ps, a => anchor ps a

/-- A unit of products on the anchored path, or with the register weight 2^q (R148, R149). -/
def unitSum (anchored : Bool) (q : Int) (ps : List Num) : UnitSum :=
  let e := if anchored then (match anchor ps none with | some a => a - 73 | none => 0) else q
  ps.foldl UnitSum.add ⟨0, e, [], false, false, false⟩

/-- One term into W: a register sum or a spilled product, times two finite scales; and whether it was exact. -/
def addTerm (w : WAcc) (t a b : Num) : WAcc × Bool :=
  match (t.mul a).mul b with
  | .fin s m e => wAdd w s m e
  | _ => (w, true)

def addTerms (w : WAcc) (a b : Num) : List Num → WAcc × Bool
  | [] => (w, true)
  | t :: ts =>
    let (w, x) := addTerm w t a b
    let (w, y) := addTerms w a b ts
    (w, x && y)

/-- How a chain accumulates (R146). -/
inductive Path where
  | narrow | anchored | integer
  deriving DecidableEq, Repr

def pathOf (fa fb : Fmt) (scaled : Bool) : Path :=
  if fa.isInt && fb.isInt then (if scaled then .narrow else .integer)
  else if fa.width ≤ 8 && fb.width ≤ 8 then .narrow else .anchored

/-- The exponent of the register weight L of an operand (R148). -/
def fmtQ (f : Fmt) : Int := if f.isInt then 0 else f.qmin

/-- Accumulate one unit into an element, with the decoded scales of its group (R147, R151, R156 to R158, R162). The flags
are those of the reduction; the last number counts spills. -/
def ElemAcc.unit (p : Path) (x : ElemAcc) (u : UnitSum) (a b : Num) : ElemAcc × NFlags × Nat :=
  let x := { x with group := u.sum }
  let g := u.sum.toInt
  match p with
  | .integer =>
    if x.sat then (x, 0, 0)
    else
      let v := x.i32 + g
      if v > 2147483647 then ({ x with i32 := 2147483647, sat := true }, mIsat ||| fOvf, 0)
      else if v < -2147483648 then ({ x with i32 := -2147483648, sat := true }, mIsat ||| fOvf, 0)
      else ({ x with i32 := v }, 0, 0)
  | _ =>
    if a.isNan || b.isNan then ({ x with nan := true }, 0, u.spills.length)
    else
      let (w, ex) := addTerms x.w a b (.fin (g < 0) g.natAbs u.exp :: u.spills)
      ({ x with w := w, nan := x.nan || u.nan, posInf := x.posInf || u.posInf, negInf := x.negInf || u.negInf },
       flagIf (!ex) (mRounded ||| fInx), u.spills.length)

/-- A group scale of 0 whose elements are not examined (R157). -/
def zeroScale (a b : Num) : Bool := (a.isZero || b.isZero) && !(a.isNan || b.isNan)

/-- The decoded lines of one operand for one group: for each of its units, the 32 lines of 32 numbers; and for each
line whether it holds the TERN code 0b10. -/
structure OpGroup where
  /-- unit u, line i, the unit's numbers in reduction order -/
  lines : List (List (List Num))
  tern : List Bool
  deriving DecidableEq, Repr

def decodeLine (f : Fmt) (codes : List Nat) : List Num := codes.map fun c => (decodeCode f c).1

def ternLine (f : Fmt) (codes : List Nat) : Bool := decide (f.cls = 2) && codes.any fun c => c % 4 = 2

/-- Blocks j to j + n − 1 of an operand. -/
def State.opBlocks (s : State) (c base pitch width : Nat) (alongRow : Bool) : Nat → Nat → Rd (List (List Nat))
  | _, 0 => (.ok [], s)
  | j, n + 1 =>
    match s.opBlock c base pitch width alongRow j with
    | (.error e, s) => (.error e, s)
    | (.ok b, s) =>
      match s.opBlocks c base pitch width alongRow (j + 1) n with
      | (.error e, s) => (.error e, s)
      | (.ok r, s) => (.ok (b :: r), s)

/-- The units of a group: its blocks one by one on the anchored path, else all of them joined. -/
def groupOf (f : Fmt) (anchored alongRow : Bool) (blocks : List (List Nat)) : OpGroup :=
  let codes := blocks.map fun b => (List.range 32).map fun i => blockLine b f.width alongRow i
  let joined := (List.range 32).map fun i => codes.flatMap fun b => b.getD i []
  { lines := (if anchored then codes else [joined]).map fun u => u.map (decodeLine f),
    tern := joined.map (ternLine f) }

/-- The 32 group scales of group g: one byte per line at base + line × n + g; 2^0 when there is none (R88). -/
def State.groupScales (s : State) (c base n g : Nat) (f : Fmt) : Rd (List Num) :=
  if base = 0xFFFFFFFF then (.ok (List.replicate 32 (.fin false 1 0)), s)
  else
    match s.coreSegs c (base + g) n 1 32 with
    | (.error e, s) => (.error e, s)
    | (.ok r, s) => (.ok (r.map fun x => (decodeCode f (x % 256)).1), s)

/-- Running results of a reduction. -/
structure Red where
  acc : List ElemAcc
  flags : NFlags
  spills : Nat
  deriving DecidableEq, Repr

def unitsInto (p : Path) (q : Int) (a b : Num) : ElemAcc → List (List Num × List Num) → ElemAcc × NFlags × Nat
  | x, [] => (x, 0, 0)
  | x, (u, v) :: r =>
    let (x, f, n) := x.unit p (unitSum (decide (p = .anchored)) q (mulZip u v)) a b
    let (x, g, m) := unitsInto p q a b x r
    (x, f ||| g, n + m)

def lineOf (g : OpGroup) (i : Nat) : List (List Num) := g.lines.map fun u => u.getD i []

def zipPairs {α β : Type} : List α → List β → List (α × β)
  | x :: xs, y :: ys => (x, y) :: zipPairs xs ys
  | _, _ => []

/-- One group into every element of the tile, in row-major order. -/
def groupInto (p : Path) (q : Int) (ga gb : OpGroup) (sa sb : List Num) (r : Red) : Red :=
  let cell : Nat → ElemAcc → ElemAcc × NFlags × Nat := fun n x =>
    let i := n / 32
    let j := n % 32
    let a := sa.getD i .nan
    let b := sb.getD j .nan
    if zeroScale a b then (x, 0, 0)
    else
      let (x, f, k) := unitsInto p q a b x (zipPairs (lineOf ga i) (lineOf gb j))
      (x, f ||| flagIf (ga.tern.getD i false || gb.tern.getD j false) (mTern ||| fInv), k)
  let out := (withIdx r.acc 0).map fun e => cell e.1 e.2
  { acc := out.map (·.1),
    flags := out.foldl (fun f e => f ||| e.2.1)
      (r.flags ||| flagIf (sa.any (·.isNan) || sb.any (·.isNan)) (mNanScale ||| fInv)),
    spills := r.spills + out.foldl (fun n e => n + e.2.2) 0 }

/-- Reduce group g of a tile descriptor of n groups of gb blocks each, in the order of R152. -/
def State.redGroup (s : State) (c fw : Nat) (td : List Byte) (p : Path) (gb n g : Nat) (r : Red) : Rd Red :=
  let fa := s.fmt (fld fw 0 4)
  let fb := s.fmt (fld fw 4 4)
  let fs := s.fmt (fld fw 8 4)
  let alongA := !tdFlag td 2
  let alongB := tdFlag td 3
  match s.opBlocks c (tdW td 16) (tdW td 20) fa.width alongA (g * gb) gb with
  | (.error e, s) => (.error e, s)
  | (.ok ba, s) =>
    match s.opBlocks c (tdW td 24) (tdW td 28) fb.width alongB (g * gb) gb with
    | (.error e, s) => (.error e, s)
    | (.ok bb, s) =>
      match s.groupScales c (tdW td 32) n g fs with
      | (.error e, s) => (.error e, s)
      | (.ok sa, s) =>
        match s.groupScales c (tdW td 36) n g fs with
        | (.error e, s) => (.error e, s)
        | (.ok sb, s) =>
          let anch := decide (p = .anchored)
          (.ok (groupInto p (fmtQ fa + fmtQ fb) (groupOf fa anch alongA ba) (groupOf fb anch alongB bb) sa sb r), s)

/-- Every accumulator of an element as a chain starts (R151, R158, R162). -/
def elemZero : ElemAcc := ⟨0, wZero, 0, false, false, false, false⟩

/-- Do a chain's descriptors name group scales (R146)? -/
def tdsScaled (tds : List (List Byte)) : Bool :=
  tds.any fun td => tdW td 32 ≠ 0xFFFFFFFF || tdW td 36 ≠ 0xFFFFFFFF

/-! ## Final conversion -/

/-- Thirty-two FP32 scales at an offset, or ones (R154). -/
def State.lineScales (s : State) (c : Nat) (used : Bool) (base : Nat) : Rd (List Num) :=
  if !used then (.ok (List.replicate 32 (.fin false 1 0)), s)
  else
    match s.coreSegs c base 4 4 32 with
    | (.error e, s) => (.error e, s)
    | (.ok r, s) => (.ok (r.map fun x => f32 (BitVec.ofNat 32 x)), s)

/-- The value converted for an element (R154, R158, R163). -/
def ElemAcc.final (p : Path) (x : ElemAcc) (rs cs : Num) : Num :=
  let v : Num :=
    if p = .integer then .ofInt x.i32
    else if x.nan || (x.posInf && x.negInf) then .nan
    else if x.posInf then .inf false
    else if x.negInf then .inf true
    else x.w.num
  (v.mul rs).mul cs

/-- The container and the flags of one element: RAW_INT gives the sum unscaled (R163); every NaN result sets INVALID
(R158). -/
def ElemAcc.convert (p : Path) (raw : Bool) (f : Fmt) (x : ElemAcc) (rs cs : Num) : Nat × NFlags :=
  if raw then (wrapInt x.i32 32, 0)
  else
    let v := x.final p rs cs
    let (c, fl) := Machine.convert f none v
    (c, if v.isNan then fl ||| fInv else fl)

/-- Is a code a nonzero normal value of a float format (R232)? -/
def normalCode (f : Fmt) (c : Nat) : Bool :=
  decide (fld c f.manBits f.expBits ≠ 0) && (match (decodeCode f c).1 with | .fin _ _ _ => true | _ => false)

/-- What a conversion gives: codes, their flags together, and the counts of R167 and R169. -/
structure Conv where
  codes : List Nat
  flags : NFlags
  /-- conversion overflows of elements that had not saturated -/
  ovf : Nat
  unf : Nat
  nan : Nat
  loud : Bool
  deriving DecidableEq, Repr

def convTile (p : Path) (raw : Bool) (f : Fmt) (rs cs : List Num) (acc : List ElemAcc) : Conv :=
  let out := (withIdx acc 0).map fun e => (e.2, e.2.convert p raw f (rs.getD (e.1 / 32) .nan) (cs.getD (e.1 % 32) .nan))
  { codes := out.map (·.2.1),
    flags := out.foldl (fun g e => g ||| e.2.2) 0,
    ovf := out.countP fun e => !e.1.sat && e.2.2 &&& fOvf ≠ 0,
    unf := out.countP fun e => e.2.2 &&& fUnf ≠ 0,
    nan := out.countP fun e => e.2.2 &&& fInv ≠ 0,
    loud := out.any fun e => if raw then e.2.1 ≠ 0 else normalCode f e.2.1 }

end Sys2Proof.Machine
end

