-- ==== Sys2Proof/Machine/Trace.lean ====
section
/-!
DEFINITION. Machine/Trace.lean: the Quantizer's per-tile state, and the Tracing Unit: what it copies of a chain and what
it recomputes (R228 to R231).
-/
namespace Sys2Proof.Machine

open Sys2Proof

def State.qzt (s : State) (t : Nat) : QzState := smGet QzState.init s.qz t
def State.setQzt (s : State) (t : Nat) (x : QzState) : State := { s with qz := smSet QzState.init s.qz t x }

/-- Fields of a Quantizer job (R210). -/
def jobTensor (j : List Byte) : Nat := leAt j 0 2
def jobTicket (j : List Byte) : Nat := leAt j 2 2
def jobSrcFmt (j : List Byte) : Nat := leAt j 4 1
def jobDstFmt (j : List Byte) : Nat := leAt j 5 1
def jobScaleFmt (j : List Byte) : Nat := fld (leAt j 6 1) 0 4
def jobGroup (j : List Byte) : Nat := 32 * 2 ^ fld (leAt j 6 1) 4 2
def jobDir (j : List Byte) : Bool := bit (leAt j 6 1) 6
def jobMode (j : List Byte) : Nat := fld (leAt j 7 1) 0 2
def jobRows (j : List Byte) : Nat := leAt j 8 4
def jobCols (j : List Byte) : Nat := leAt j 12 4

/-- TR counters of a tile: 0 samples, 1 skipped, 2 alarms. -/
def kTrace (t k : Nat) : Nat := tileBase t + 0x141018 + 8 * k

def State.setSample (s : State) (t : Nat) (x : Option Sample) : State := s.setQzt t { s.qzt t with sample := x }

/-- Abandon the sample of a tile (R229). -/
def State.dropSample (s : State) (t : Nat) : State :=
  match (s.qzt t).sample with
  | none => s
  | some _ => (s.setSample t none).bump (kTrace t 1) 1

/-- Where an operand of a descriptor lies in a job's destination: first row and column, whether the reduction runs
along the stored row, and K (R229). -/
def tracePart (s : State) (c : Nat) (job td : List Byte) (isA : Bool) : Option (Nat × Nat × Bool × Nat) :=
  match s.serve (leAt job 32 8) with
  | .here d =>
    let w := (s.fmt (jobDstFmt job)).width
    let pitch := leAt job 28 4
    let k := 32 * tdK td
    let along := if isA then !tdFlag td 2 else tdFlag td 3
    let a := coreAddr c (tdW td (if isA then 16 else 24))
    let p := tdW td (if isA then 20 else 28)
    if a < d || p ≠ pitch || (!isA && along) then none
    else
      let row := (a - d) / pitch
      let col := (a - d) % pitch / (4 * w) * 32
      let (nr, nc) := if along then (32, k) else (k, 32)
      if (a - d) % pitch % (4 * w) = 0 && row + nr ≤ jobRows job && col + nc ≤ jobCols job then some (row, col, along, k)
      else none
  | _ => none

def traceParts (s : State) (c : Nat) (job : List Byte) (isA : Bool) :
    List (List Byte) → Option (List (Nat × Nat × Bool × Nat))
  | [] => some []
  | td :: tds =>
    match tracePart s c job td isA, traceParts s c job isA tds with
    | some p, some ps => some (p :: ps)
    | _, _ => none

/-- The BF16 code of a number (R130). -/
def bf16Code (x : Num) : Nat := (convert bf16 none x).1

/-- The 32 lines of an operand of one descriptor with its scales, as BF16 codes; none on a read error. -/
def State.traceLines (s : State) (c fw : Nat) (td : List Byte) (isA : Bool) : Nat → Nat → Option (List (List Nat))
  | _, 0 => some (List.replicate 32 [])
  | g, n + 1 =>
    let gb := fwGroup fw / 32
    let f := s.fmt (if isA then fld fw 0 4 else fld fw 4 4)
    let along := if isA then !tdFlag td 2 else tdFlag td 3
    match s.opBlocks c (tdW td (if isA then 16 else 24)) (tdW td (if isA then 20 else 28)) f.width along (g * gb) gb,
      s.groupScales c (tdW td (if isA then 32 else 36)) (tdK td / gb) g (s.fmt (fld fw 8 4)),
      s.traceLines c fw td isA (g + 1) n with
    | (.ok bs, _), (.ok sc, _), some rest =>
      let u := (groupOf f false along bs).lines.headD []
      some ((withIdx u 0).map fun e => (e.2.map fun x => bf16Code (x.mul (sc.getD e.1 .nan))) ++ rest.getD e.1 [])
    | _, _, _ => none

def joinLines : List (List Nat) → List (List Nat) → List (List Nat)
  | x :: xs, y :: ys => (x ++ y) :: joinLines xs ys
  | xs, [] => xs
  | [], ys => ys

def State.traceOther (s : State) (c fw : Nat) (isA : Bool) : List (List Byte) → Option (List (List Nat))
  | [] => some (List.replicate 32 [])
  | td :: tds =>
    match s.traceLines c fw td isA 0 (tdK td / (fwGroup fw / 32)), s.traceOther c fw isA tds with
    | some x, some y => some (joinLines x y)
    | _, _ => none

/-- The FP32 codes of 32 row or column scales; none of them when unused. -/
def State.scaleCodes (s : State) (c : Nat) (used : Bool) (base : Nat) : Option (List Nat) :=
  if !used then some []
  else match s.coreSegs c base 4 4 32 with
    | (.ok r, _) => some r
    | _ => none

/-- Bytes of the copy of R229: the other operand and its scales, the row and column scales, and the outputs, each in
its own format (log 34). -/
def copyBytes (s : State) (ch : MeChain) (isA : Bool) (outW : Nat) : Nat :=
  let f := s.fmt (if isA then fld ch.fmt 4 4 else fld ch.fmt 0 4)
  let last := ch.tds.getLastD []
  ch.tds.foldl (fun n td =>
      n + 32 * 32 * tdK td * f.width / 8 +
        (if tdW td (if isA then 36 else 32) = 0xFFFFFFFF then 0 else 32 * (32 * tdK td / fwGroup ch.fmt)))
    ((if tdFlag last 4 then 128 else 0) + (if tdFlag last 5 then 128 else 0) + 1024 * outW / 8)

/-- Palette entry of a chain's output, 16 for INT32 sums. -/
def outEntry (fw : Nat) : Nat := if bit fw 20 then 16 else fld fw 16 4

/-- When a chain of core c is about to become final: is it the traced chain of its tile's sample (R229)? Then the copy
begins and the answer is true; a copy that the buffer cannot hold abandons the sample. -/
def State.traceHook (s : State) (c : Nat) (ch : MeChain) (codes : List Nat) : Bool × State :=
  let t := c / 300
  let q := s.qzt t
  match q.sample with
  | none => (false, s)
  | some sm =>
    if sm.copy.isSome || !ch.tickets.contains sm.ticket then (false, s)
    else
      let pick : Option (Bool × List (Nat × Nat × Bool × Nat)) :=
        match traceParts s c sm.job true ch.tds with
        | some p => some (true, p)
        | none => (traceParts s c sm.job false ch.tds).map fun p => (false, p)
      match pick with
      | none => (false, s)
      | some (isA, parts) =>
        let last := ch.tds.getLastD []
        let outW := if bit ch.fmt 20 then 32 else (s.fmt (fld ch.fmt 16 4)).width
        let used := 2 * (jobRows sm.job * jobCols sm.job)
        let n := copyBytes s ch isA outW
        match s.traceOther c ch.fmt (!isA) ch.tds, s.scaleCodes c (tdFlag last 4) (tdW last 40),
          s.scaleCodes c (tdFlag last 5) (tdW last 44) with
        | some other, some rs, some cs =>
          if used + n > sm.bytes then (false, s.dropSample t)
          else
            let cp : TraceCopy :=
              { core := c, chain := ch.id, tag := tdTag last, isA := isA, parts := parts, other := other, rs := rs,
                cs := cs, out := codes, outFmt := outEntry ch.fmt }
            (true, (s.setSample t (some { sm with copy := some cp })).undef (sm.base + used) n)
        | _, _, _ => (false, s.dropSample t)

/-- The wide copy's BF16 code at a row and column of the source (R228). -/
def State.wideAt (s : State) (base cols r c : Nat) : Nat := leNat (s.bytes (base + 2 * (r * cols + c)) 2)

/-- Line i of the sampled operand, from the wide copy, over the chain's whole reduction. -/
def State.wideLine (s : State) (base cols i : Nat) : List (Nat × Nat × Bool × Nat) → List Num
  | [] => []
  | (r, c, along, k) :: ps =>
    ((List.range k).map fun j =>
      (decodeCode bf16 (if along then s.wideAt base cols (r + i) (c + j) else s.wideAt base cols (r + j) (c + i))).1) ++
    s.wideLine base cols i ps

/-- One wide element (R230): products added in W in ascending order, then the scales exactly. -/
def wideDot (xs ys : List Num) (rs cs : Num) : Num :=
  let ps := mulZip xs ys
  let one : Num := .fin false 1 0
  let (x, _, _) := ps.foldl
    (fun (a : ElemAcc × NFlags × Nat) p => a.1.unit .narrow
      ((⟨0, match p with | .fin _ _ e => e | _ => 0, [], false, false, false⟩ : UnitSum).add p) one one)
    (elemZero, 0, 0)
  x.final .narrow rs cs

def Num.abs : Num → Num
  | .fin _ m e => .fin false m e
  | .inf _ => .inf false
  | .nan => .nan

/-- Histogram bin of d = a / w for two non-negative sums (R230, R231). -/
def histBin (a w : Num) : Nat :=
  match a, w with
  | .fin _ m e, .fin _ n g =>
    if n = 0 then (if m = 0 then 0 else 31)
    else
      -- the number of k from −30 to 0 with d ≥ 2^k
      (List.range 31).countP fun (i : Nat) =>
        let h : Int := g + i - 30
        m * 2 ^ (e - min e h).toNat ≥ n * 2 ^ (h - min e h).toNat
  | _, _ => 31

/-- The disagreement bin of a traced tile (R230, R231). -/
def State.traceBin (s : State) (sm : Sample) (cp : TraceCopy) : Nat :=
  let cols := jobCols sm.job
  let lines := (List.range 32).map fun i => s.wideLine sm.base cols i cp.parts
  let other := cp.other.map fun l => l.map fun c => (decodeCode bf16 c).1
  let sc := fun (l : List Nat) (i : Nat) => if l = [] then (.fin false 1 0 : Num) else f32 (BitVec.ofNat 32 (l.getD i 0))
  let nums := (withIdx cp.out 0).map fun e =>
    let i := e.1 / 32
    let j := e.1 % 32
    let xs := if cp.isA then lines.getD i [] else other.getD i []
    let ys := if cp.isA then other.getD j [] else lines.getD j []
    let n := if cp.outFmt = 16 then .ofInt (sext e.2 32) else (decodeCode (s.fmt cp.outFmt) e.2).1
    (n, wideDot xs ys (sc cp.rs i) (sc cp.cs j))
  let a := nums.foldl (fun z e => z.add (e.1.add e.2.neg).abs) (.fin false 0 0)
  let w := nums.foldl (fun z e => z.add e.2.abs) (.fin false 0 0)
  if nums.any fun e => (match e.1, e.2 with | .fin _ _ _, .fin _ _ _ => false | _, _ => true) then 31 else histBin a w

end Sys2Proof.Machine
end

