-- ==== Sys2Proof/Machine/Journal.lean ====
section
/-!
DEFINITION. Machine/Journal.lean: the Update Journal's areas, index, filter and entries, and prefetch staging
(R342 to R347, R353, R354); the write-back itself is in Machine/Writeback.lean.
-/
namespace Sys2Proof.Machine

open Sys2Proof

def State.grn (s : State) (t : Nat) : GranState := smGet GranState.init s.gran t
def State.setGrn (s : State) (t : Nat) (x : GranState) : State := { s with gran := smSet GranState.init s.gran t x }

/-- GRN counter k of a tile (R368). -/
def kGrnCount (t k : Nat) : Nat := tileBase t + 0x120048 + 8 * k

/-- D (R341). -/
def State.delayD (s : State) : Nat := s.rdf kGrnCtrl 0 4

/-- The row hash of R342 and R344 onto n places. -/
def rowHash (r table n : Nat) : Nat := (r * 0x9E3779B97F4A7C15 + table) % 2 ^ 64 * n / 2 ^ 64

/-- The KEY of a row (R342). -/
def rowKey (table r : Nat) : Nat := r % 2 ^ 40 + table % 2 ^ 12 * 2 ^ 40 + 2 ^ 63

def State.jnlArea (s : State) (t k : Nat) : Nat :=
  s.rdf (tileBase t + 0x120008) 0 44 + k * s.rd (tileBase t + 0x120010)
def State.jnlBuckets (s : State) (t : Nat) : Nat := 2 ^ s.rdf (tileBase t + 0x120014) 0 5
def State.filterBits (s : State) (t : Nat) : Nat := 2 ^ s.rdf (tileBase t + 0x120020) 0 5
/-- The journal of tile t is configured: GRN_JNL_SEG_BYTES is not 0 (R347). -/
def State.jnlSet (s : State) (t : Nat) : Bool := s.rd (tileBase t + 0x120010) ≠ 0
/-- Local address of filter bank k of tile t. -/
def State.filterBank (s : State) (t k : Nat) : Nat :=
  s.rdf (tileBase t + 0x120018) 0 44 + k * (s.filterBits t / 8)

/-- The row's bit in bank k: its byte address and bit (R344). -/
def State.filterPos (s : State) (t k table r : Nat) : Nat × Nat :=
  let b := rowHash r table (s.filterBits t)
  (s.filterBank t k + b / 8, b % 8)

def State.filterHit (s : State) (t k table r : Nat) : Bool :=
  let (a, i) := s.filterPos t k table r
  s.jnlSet t && bit (s.byte a).toNat i

def State.filterSet (s : State) (t k table r : Nat) : State :=
  let (a, i) := s.filterPos t k table r
  s.put a [BitVec.ofNat 8 (Nat.lor (s.byte a).toNat (2 ^ i))]

/-- What a probe of an index finds: the entry's address, or the free way where one would be indexed, with the buckets
read beyond the home bucket; or no free way in any bucket. -/
inductive Probe where
  | found (entry overflow : Nat)
  | room (way overflow : Nat)
  | full
  deriving DecidableEq, Repr

/-- The four ways of a bucket: the way that holds the key, or the first free way (R342). -/
def State.probeWays (s : State) (area bucket key : Nat) : Nat → Nat → Option Nat → Option (Nat ⊕ Nat)
  | 0, _, free => free.map .inr
  | k + 1, w, free =>
    let a := bucket + 16 * w
    let v := leNat (s.bytes a 8)
    if v = key then some (.inl (area + 64 * leNat (s.bytes (a + 8) 4)))
    else s.probeWays area bucket key k (w + 1) (if free = none && !bit v 63 then some a else free)

/-- Probe from a bucket on, wrapping at the bucket count, until the row or a bucket with a free way (R342, R353). -/
def State.probeGo (s : State) (area key n : Nat) : Nat → Nat → Nat → Probe
  | 0, _, _ => .full
  | k + 1, b, overs =>
    match s.probeWays area (area + 64 * b) key 4 0 none with
    | some (.inl e) => .found e overs
    | some (.inr w) => .room w overs
    | none => s.probeGo area key n k ((b + 1) % n) (overs + 1)

def State.probe (s : State) (t k table r : Nat) : Probe :=
  let n := s.jnlBuckets t
  s.probeGo (s.jnlArea t k) (rowKey table r) n n (rowHash r table n) 0

/-- Bytes of an entry of a row of d elements (R343). -/
def entryBytes (d : Nat) : Nat := (32 + 4 * d + 63) / 64 * 64

/-- The bytes of an entry (R343). -/
def entryImage (table r step d : Nat) (acc : Option W32) (delta : List W32) : List Byte :=
  leBytes 8 (rowKey table r) ++ leBytes 4 (step % 2 ^ 32) ++ leBytes 2 d ++
  leBytes 2 (b2n acc.isSome) ++ leBytes 4 (acc.getD 0).toNat ++ leBytes 12 0 ++
  delta.flatMap (fun x => leBytes 4 x.toNat)

/-- The entry at an address: ACC_DELTA when present, and the deltas (R343). -/
def State.entryAt (s : State) (a : Nat) : Option W32 × List W32 :=
  let h := s.bytes a 32
  let d := leAt h 12 2
  let b := s.bytes (a + 32) (4 * d)
  (if bit (leAt h 14 2) 0 then some (BitVec.ofNat 32 (leAt h 16 4)) else none,
   (List.range d).map fun i => BitVec.ofNat 32 (leAt b (4 * i) 4))

def addAcc : Option W32 → Option W32 → Option W32
  | none, y => y
  | x, none => x
  | some x, some y => some (fadd x y).1

def zipAdd : List W32 → List W32 → List W32
  | x :: xs, y :: ys => (fadd x y).1 :: zipAdd xs ys
  | xs, [] => xs
  | [], ys => ys

/-- Make, or add into, the entry of a row in the building segment of tile t (R343 to R345). none: the journal is full
for this row (R347). -/
def State.journalAdd (s : State) (t table r : Nat) (acc : Option W32) (delta : List W32) : Option State :=
  let g := s.grn t
  match g.building with
  | none => none
  | some sg =>
    let segBytes := s.rd (tileBase t + 0x120010)
    let area := s.jnlArea t sg.area
    if !s.jnlSet t then none
    else match s.probe t sg.area table r with
      | .full => none
      | .found e _ =>
        let (acc0, d0) := s.entryAt e
        some (s.put e (entryImage table r sg.step delta.length (addAcc acc0 acc) (zipAdd d0 delta)))
      | .room w _ =>
        let off := 64 * s.jnlBuckets t + sg.used
        let n := entryBytes delta.length
        if off + n > segBytes then none
        else
          let s := s.put w (leBytes 8 (rowKey table r) ++ leBytes 4 (off / 64) ++ leBytes 4 0)
          let s := s.put (area + off) (slice (entryImage table r sg.step delta.length acc delta) 0 n)
          let s := s.filterSet t sg.area table r
          let s := s.bump (kGrnCount t 3) 1
          some (s.setGrn t { g with building := some { sg with count := sg.count + 1, used := sg.used + n } })

/-- Clear an area's index and filter bank; a journal that is not configured has none (log 66). -/
def State.clearArea (s : State) (t k : Nat) : State :=
  if !s.jnlSet t then s else (s.clear (s.jnlArea t k) (64 * s.jnlBuckets t)).clear (s.filterBank t k) (s.filterBits t / 8)

/-- Open the segment of step s on a tile (R345). -/
def State.openSegment (s : State) (t : Nat) : State :=
  s.setGrn t { s.grn t with building := some ⟨s.step % 10, s.step, 0, 0, false⟩ }

/-- Seal the building segment, even when it holds no entry (R345). -/
def State.sealSegment (s : State) (t : Nat) : State :=
  let g := s.grn t
  match g.building with
  | none => s
  | some sg => s.setGrn t { g with building := none, sealedSegs := g.sealedSegs ++ [sg] }

/-- Discard the building segment: its entries and filter bits are dropped and counted (R345). -/
def State.dropBuilding (s : State) (t : Nat) : State :=
  let g := s.grn t
  match g.building with
  | none => s
  | some sg =>
    ((s.clearArea t sg.area).bump (kGrnCount t 6) sg.count).setGrn t { g with building := none }

/-! ## Prefetch staging (R354) -/

def State.stageHalf (s : State) (t h : Nat) : Nat :=
  s.rdf (tileBase t + 0x120028) 0 44 + h % 2 * (s.rdf (tileBase t + 0x120030) 0 40 / 2)
def State.stageBuckets (s : State) (t : Nat) : Nat := 2 ^ s.rdf (tileBase t + 0x120040) 0 5
def State.stageIndex (s : State) (t h : Nat) : Nat :=
  s.rdf (tileBase t + 0x120038) 0 44 + h % 2 * (64 * s.stageBuckets t)

/-- Tile t has a prefetch staging area: GRN_STAGE_BYTES is not 0 (R354, log 66). -/
def State.stageSet (s : State) (t : Nat) : Bool := s.rdf (tileBase t + 0x120030) 0 40 ≠ 0

/-- Look a row up in a staging half: its address there, or the free way of its home bucket, or neither (R354). -/
def State.stageFind (s : State) (t h table r : Nat) : Option (Nat ⊕ Nat) :=
  let n := s.stageBuckets t
  if !s.stageSet t then none else s.probeWays (s.stageHalf t h) (s.stageIndex t h + 64 * rowHash r table n) (rowKey table r) 4 0 none

def GranState.used (g : GranState) (h : Nat) : Nat := if h % 2 = 0 then g.half0 else g.half1
def GranState.setUsed (g : GranState) (h n : Nat) : GranState :=
  if h % 2 = 0 then { g with half0 := n } else { g with half1 := n }

/-- Stage a row's bytes into half h, or decline it (R299, R354). -/
def State.stageRow (s : State) (t h table r : Nat) (bs : List Byte) : State :=
  let g := s.grn t
  let n := (bs.length + 63) / 64 * 64
  match s.stageFind t h table r with
  | some (.inl _) => s
  | some (.inr w) =>
    if g.used h + n > s.rdf (tileBase t + 0x120030) 0 40 / 2 then s.bump (kGrnCount t 9) 1
    else
      let off := g.used h
      let s := s.put w (leBytes 8 (rowKey table r) ++ leBytes 4 (off / 64) ++ leBytes 4 0)
      let s := s.put (s.stageHalf t h + off) bs
      s.setGrn t (g.setUsed h (off + n))
  | none => s.bump (kGrnCount t 9) 1

/-- Empty a staging half. -/
def State.stageEmpty (s : State) (t h : Nat) : State :=
  let s := if s.stageSet t then s.clear (s.stageIndex t h) (64 * s.stageBuckets t) else s
  s.setGrn t ((s.grn t).setUsed h 0)

end Sys2Proof.Machine
end

