-- ==== Sys2Proof/Machine/Fault.lean ====
section
/-!
DEFINITION. Machine/Fault.lean: raising a step fault (R64 to R67, R597), one operation for every engine.
-/
namespace Sys2Proof.Machine

open Sys2Proof

/-- The bit of a cause in SEQ_FAULT_STICKY (R64). -/
def Cause.bitNo : Cause → Nat
  | .feedLate => 0 | .podTimeout => 1 | .peerFault => 2 | .windowLate => 3 | .memUe => 4 | .torn => 5
  | .descError => 6 | .stepMismatch => 7 | .tileReset => 8

/-- The cause of work that completes with an error: MEM_UE when it arose from UE, else DESC_ERROR (R597). -/
def causeOf (ue : Bool) : Cause := if ue then .memUe else .descError

/-- Do something on each of the four tiles, in order. -/
def State.eachTile (s : State) (f : State → Nat → State) : State := f (f (f (f s 0) 1) 2) 3

/-- The step ends FAULTED (R66, R67): the abort notice goes out when it is due, STATE_MIXED is set when an outcome that
applies the update was delivered, EV_STEP_FAULT is recorded, the building segments are discarded (R345), and the staging
half being filled for the next step is emptied (R354). -/
def State.endStep (s : State) (c : Cause) (notice : Bool) : State :=
  let applied : Bool := match s.seq.decision with | some d => d.apply | none => false
  let s := if notice then s.emit (.stepAbort s.step applied) else s
  let s := { s with
    seq := { s.seq with mode := .faulted, mixed := s.seq.mixed || applied, fenceOrder := 0, came := [] },
    embm := { s.embm with lists := [], awaited := [], early := [] } }
  let s := s.raise 0x0601 0 0 c.bitNo
  s.eachTile fun s t => (s.dropBuilding t).stageEmpty t (s.step + 1)

/-- A fault that came with a notice sends none. -/
def State.endFaulted (s : State) (c : Cause) : State := s.endStep c (c ≠ .peerFault)

/-- Note a cause: its sticky bit, and the first cause since the last RUN_STEPS (R63, R64). -/
def State.noteCause (s : State) (c : Cause) : State :=
  let s := s.orBits kSeqFault (2 ^ c.bitNo)
  { s with seq := { s.seq with firstFault := match s.seq.firstFault with | none => some c | x => x } }

/-- Two causes of one event, the first of them first (R260). -/
def State.noteTwo (s : State) (c d : Cause) : State := (s.noteCause c).noteCause d

/-- Causes that keep the step from reaching FLAG_REDUCE, or that R74 sends to the pod at once (R66). -/
def Cause.prevents : Cause → Bool
  | .feedLate | .peerFault | .stepMismatch | .tileReset => true
  | _ => false

/-- Raise a step fault on tile t. While IDLE there is no step to fault; work that ends after the step has faulted only
adds its cause (R64, R66). -/
def State.fault (s : State) (t : Nat) (c : Cause) : State :=
  if s.isIdle then s
  else if s.quiet then s.noteCause c
  else
    let s := s.noteCause c
    if s.seq.mode = .running && !s.seq.reduceIssued && !c.prevents then s.orBits (kLocalFlags t) (2 ^ 48)
    else s.endFaulted c

/-- A fault that ends the step whatever its phase (R66, R397). -/
def State.faultAtOnce (s : State) (c : Cause) : State :=
  if s.isIdle then s else if s.quiet then s.noteCause c else (s.noteCause c).endFaulted c

end Sys2Proof.Machine
end

