-- ==== Sys2Proof/Machine/Work.lean ====
section
/-!
DEFINITION. Machine/Work.lean: the descriptors in flight, and what the end of a share, job or piece does to them.
-/
namespace Sys2Proof.Machine

open Sys2Proof

def State.flight (s : State) (t idx : Nat) : Option InFlight := (s.tile t).inflight.find? (·.idx = idx)

def State.mapFlight (s : State) (t idx : Nat) (f : InFlight → InFlight) : State :=
  let x := s.tile t
  s.setTile t { x with inflight := x.inflight.map fun i => if i.idx = idx then f i else i }

def orErr : Option Bool → Option Bool → Option Bool
  | some e, _ => some e
  | none, e => e

/-- One share, job or piece of a descriptor ends; an error raises its fault at once (R64, R597), but one that R259 keeps
to the end of the last piece. -/
def State.partDone (s : State) (t idx : Nat) (err : Option Bool) : State :=
  match s.flight t idx with
  | none => s
  | some i =>
    let err := if i.late && i.parts ≤ 1 then orErr err (some false) else err
    let s := s.mapFlight t idx fun i => { i with parts := i.parts - 1, err := orErr i.err err }
    match err with
    | none => s
    | some ue => s.fault t (causeOf ue)

/-- COUNT_FLAGS events of the work of a source enter the issuing tile's step flag word (R52). -/
def State.countFor (s : State) (src : ShareSrc) (ovf inv : Nat) : State :=
  match src with
  | .desc t _ => s.countStep t ovf inv
  | .pool _ _ => s

def State.embt (s : State) (t : Nat) : EmbState := smGet EmbState.init s.emb t
def State.setEmbt (s : State) (t : Nat) (x : EmbState) : State := { s with emb := smSet EmbState.init s.emb t x }

/-- A pooling share ends; its error faults the step of its tile (R179). -/
def State.poolEnd (s : State) (t id : Nat) (err : Option Bool) : State :=
  let x := s.embt t
  let s := s.setEmbt t { x with shares := x.shares.map fun y => if y.id = id then { y with phase := .ended err } else y }
  match err with
  | none => s
  | some ue => s.fault t (causeOf ue)

/-- A share of a descriptor, or of an Embedding Engine, ends. -/
def State.shareDone (s : State) (src : ShareSrc) (err : Option Bool) : State :=
  match src with
  | .desc t idx => s.partDone t idx err
  | .pool t id => s.poolEnd t id err

/-- An error that belongs to no share in progress faults the step of the tile that issued the work. -/
def State.strayError (s : State) (src : ShareSrc) (ue : Bool) : State :=
  match src with
  | .desc t _ => s.fault t (causeOf ue)
  | .pool t _ => s.fault t (causeOf ue)

end Sys2Proof.Machine
end

