-- ==== Sys2Proof/Machine/Me.lean ====
section
/-!
DEFINITION. Machine/Me.lean: the matrix engine: tile descriptors and chains, the finished-tile queue, Quantizer gating
and replay, waits and the watchdog (chapters 3 and 5).
-/
namespace Sys2Proof.Machine

open Sys2Proof

/-! ## Small views -/

def kNumFlags (c : Nat) : Nat := coreBase c + 0x80
def kNumFirst (c : Nat) : Nat := coreBase c + 0x84
def kMeFault (c : Nat) : Nat := coreBase c + 0x28
def kStallFull (c : Nat) : Nat := coreBase c + 0x38
def kStallEmpty (c : Nat) : Nat := coreBase c + 0x40

/-- ME_FAULT_STICKY bits (R110). -/
def mfTd : Nat := 1
def mfChain : Nat := 2
def mfFull : Nat := 4
def mfEmpty : Nat := 8
def mfDma : Nat := 16
def mfAccess : Nat := 32

def MeState.entry (m : MeState) (i : Nat) : QEntry := smGet QEntry.free m.entries i
def MeState.setEntry (m : MeState) (i : Nat) (e : QEntry) : MeState :=
  { m with entries := smSet QEntry.free m.entries i e }

/-- Chains that have not finished their first run. -/
def MeChain.first (ch : MeChain) : Bool :=
  !ch.rerun && (ch.stage = .fetching || ch.stage = .reducing || ch.stage = .converting)

/-- A chain's results stand in an accumulator set: it is in final conversion, or held under R599 (R165). -/
def MeChain.holds (ch : MeChain) (set : Bool) : Bool :=
  ch.set = set && (ch.stage = .converting || (ch.stage = .held && ch.outMode))

/-- A chain holds its converted results in an accumulator set until its tickets are settled (R599). -/
def MeState.setHeld (m : MeState) (set : Bool) : Bool := m.chains.any fun ch => ch.stage = .held && ch.holds set

/-- The oldest chain not yet reduced. -/
def MeState.unreduced? (m : MeState) : Option MeChain :=
  m.chains.find? fun ch => ch.stage = .fetching || ch.stage = .reducing

/-- The chain under reduction: the oldest one not yet reduced, unless its set holds another chain's results (R165). -/
def MeState.reducing? (m : MeState) : Option MeChain :=
  match m.unreduced? with
  | none => none
  | some ch => if m.chains.any (·.holds ch.set) then none else some ch

def MeState.inChain (m : MeState) : Bool := match m.run with | some sh => sh.inChain | none => false

/-- The next entry to reserve is the one after the last entry in use (R96, R598). -/
def MeState.trim (m : MeState) : MeState :=
  { m with tail := match (List.range 8).reverse.find? fun k => (m.entry ((m.head + k) % 8)).state ≠ 0 with
      | some k => (m.head + k + 1) % 8
      | none => m.head }

/-- Free the entries that chain id of a share and its later chains have reserved. -/
def MeState.freeFrom (m : MeState) (src : ShareSrc) (id : Nat) : MeState :=
  (List.range 8).foldl (fun m i =>
    if (m.entry i).src = some src && (m.entry i).chain ≥ id then m.setEntry i QEntry.free else m) m

/-- Discard chain id of a share and every later chain of the same share (R598). -/
def MeState.discard (m : MeState) (src : ShareSrc) (id : Nat) : MeState :=
  let gone := fun (ch : MeChain) => decide (ch.src = src) && ch.id ≥ id
  let set := match m.chains.find? gone with | some ch => ch.set | none => m.nextSet
  ({ m with chains := m.chains.filter fun ch => !gone ch, nextSet := set }.freeFrom src id).trim

/-- Begin the oldest chain that waits for re-execution, when the ME is at a chain boundary and the next accumulator
set is not held (R98, R599). -/
def MeState.startReplay (m : MeState) : MeState :=
  if m.inChain || m.setHeld m.nextSet then m
  else match m.chains.find? (·.stage = .replay) with
    | none => m
    | some ch =>
      { m with
        chains := m.chains.filter (fun x => !decide (x = ch)) ++
          [{ ch with stage := .reducing, set := m.nextSet, rerun := true, pos := 0, grp := 0, acc := [], rflags := 0 }]
        nextSet := !m.nextSet }

/-- A chain that is fetched, or one to be executed again, waits for a set held under R599. -/
def MeState.isStuck (m : MeState) : Bool :=
  (match m.unreduced? with | some ch => m.setHeld ch.set | none => false) ||
  (m.chains.any (·.stage = .replay) && !m.inChain && m.setHeld m.nextSet)

/-- The running share has ended: it failed, or its list is done and no chain of it is on its first run. -/
def MeState.shareOver (m : MeState) : Bool :=
  match m.run with
  | none => false
  | some sh =>
    (sh.err.isSome || sh.pos ≥ sh.len) && !m.chains.any fun ch => ch.first && decide (ch.src = sh.src)

/-- Complete the running share when it is over, and let the pending share take its place. -/
def State.meEndShare (s : State) (c : Nat) : Nat → State
  | 0 => s
  | n + 1 =>
    let m := s.me c
    match m.run with
    | none =>
      (match m.pend with
      | none => s
      | some p => (s.setMe c { m with run := some p, pend := none }).meEndShare c n)
    | some sh =>
      if m.shareOver then
        ((s.setMe c { m with run := none, wait := .none }).shareDone sh.src sh.err).meEndShare c n
      else s

/-- ME_STALL_FULL gains clocks that no operand tells: a free value (log 78). -/
def State.stallFull (s : State) (c : Nat) : State :=
  let (n, s) := s.freeNat
  s.bump (kStallFull c) n

/-- A wait for a set held under R599 begins or ends. -/
def State.meStuck (s : State) (c : Nat) : State :=
  let m := s.me c
  if m.isStuck = m.stuck then s
  else
    let s := s.setMe c { m with stuck := !m.stuck }
    if m.stuck then s.stallFull c else s

/-- What follows every event of the ME. -/
def State.meAdvance (s : State) (c : Nat) : State :=
  ((s.setMe c ((s.me c).startReplay).startReplay).meEndShare c 4).meStuck c

/-- Another event ends the ME's wait. -/
def State.meRelease (s : State) (c : Nat) : State :=
  let m := s.me c
  if m.wait = .none then s else (s.setMe c { m with wait := .none }).stallFull c

/-- The share fails (R598): the fault bit, the chain it falls in with the later ones, and no further entry. -/
def State.meFail (s : State) (c bits : Nat) (ue : Bool) (chain : Option Nat) : State :=
  let s := (s.orBits (kMeFault c) bits).meRelease c
  let m := s.me c
  match m.run with
  | none => s
  | some sh =>
    let m := match chain with | some id => m.discard sh.src id | none => m
    (s.setMe c { m with run := some { sh with err := some ue, inChain := false } }).meAdvance c

/-- A read of a chain fails (R598). A chain whose share is over faults the step. -/
def State.chainFail (s : State) (c : Nat) (ue : Bool) (ch : MeChain) : State :=
  let m := s.me c
  if m.run.map (·.src) = some ch.src then s.meFail c mfAccess ue (some ch.id)
  else (((s.orBits (kMeFault c) mfAccess).setMe c (m.discard ch.src ch.id)).strayError ch.src ue).meAdvance c

/-! ## Reduction -/

/-- Tile descriptors completed, modulo 2^32 (R110). -/
def State.bumpTd (s : State) (c n : Nat) : State := s.wr (coreBase c + 0x30) ((s.rd (coreBase c + 0x30) + n) % 2 ^ 32)

/-- The TAG that ME_NUM_FIRST records: of the chain's FINAL descriptor; a free value until that is fetched, since the
spec gives a chain without one no TAG (R172). -/
def State.firstTag (s : State) (ch : MeChain) : Nat × State :=
  if ch.stage = .fetching then (let (n, s) := s.freeNat; (n % 2 ^ 16, s)) else (tdTag (ch.tds.getLastD []), s)

/-- Set ME_NUM_FLAGS bits for a chain and keep ME_NUM_FIRST (R167, R172). -/
def State.meFlags (s : State) (c : Nat) (ch : MeChain) (f : NFlags) : State :=
  let s := s.orBits (kNumFlags c) f.toNat
  let inv : Bool := f &&& fInv ≠ 0
  if f &&& (fOvf ||| fInv) = 0 then s
  else if !bit (s.rd (kNumFirst c)) 31 then
    let (tag, s) := s.firstTag ch
    (s.wr (kNumFirst c) (2 ^ 31 + b2n inv * 2 ^ 16 + tag)).setMe c { s.me c with firstBy := some ch.id }
  else if (s.me c).firstBy = some ch.id && inv then s.orBits (kNumFirst c) (2 ^ 16)
  else s

def State.chainPath (s : State) (ch : MeChain) : Path :=
  pathOf (s.fmt (fld ch.fmt 0 4)) (s.fmt (fld ch.fmt 4 4)) (tdsScaled ch.tds)

/-- The flags and counts of one group that a chain's run has reduced (R149, R162, R167, R169). -/
def State.redFlags (s : State) (c : Nat) (ch : MeChain) (r : Red) : State :=
  let s := s.meFlags c ch r.flags
  let s := s.bump (coreBase c + 0xA0) r.spills
  let s := s.bump (coreBase c + 0x88) (r.acc.countP (·.sat) - ch.acc.countP (·.sat))
  s.bump (coreBase c + 0x98) (b2n (r.flags &&& mTern ≠ 0 && ch.rflags &&& mTern = 0))

/-- Groups of one descriptor, and those not yet reduced of what is fetched of a chain. -/
def tdGroups (fw : Nat) (td : List Byte) : Nat := tdK td / (fwGroup fw / 32)
def MeChain.left (ch : MeChain) : Nat :=
  (ch.tds.drop ch.pos).foldl (fun n td => n + tdGroups ch.fmt td) 0 - ch.grp
/-- Groups of the descriptor under reduction that are not yet reduced. -/
def MeChain.leftNow (ch : MeChain) : Nat :=
  match ch.tds.drop ch.pos with
  | [] => 0
  | td :: _ => tdGroups ch.fmt td - ch.grp

/-- Reduce the next group of a chain; its operands and scales are read now (R165). -/
def State.redStep (s : State) (c : Nat) (ch : MeChain) : Except Bool MeChain × State :=
  match ch.tds.drop ch.pos with
  | [] => (.ok ch, s)
  | td :: _ =>
    let n := tdGroups ch.fmt td
    let acc := if ch.acc = [] then List.replicate 1024 elemZero else ch.acc
    match s.redGroup c ch.fmt td (s.chainPath ch) (fwGroup ch.fmt / 32) n ch.grp ⟨acc, 0, 0⟩ with
    | (.error ue, s) => (.error ue, s)
    | (.ok r, s) =>
      let s := s.redFlags c ch r
      let ch := { ch with acc := r.acc, rflags := ch.rflags ||| r.flags }
      if ch.grp + 1 < n then (.ok { ch with grp := ch.grp + 1 }, s)
      else (.ok { ch with pos := ch.pos + 1, grp := 0 }, s.bumpTd c 1)

/-- Reduce n more groups of a chain. -/
def State.redRun (s : State) (c : Nat) : Nat → MeChain → Except Bool MeChain × State
  | 0, ch => (.ok ch, s)
  | n + 1, ch =>
    match s.redStep c ch with
    | (.error ue, s) => (.error ue, s)
    | (.ok ch, s) => s.redRun c n ch

/-- The fetch of an entry fails or refuses it. What the open chain has fetched before is reduced to its end for its
flags, as R175 has it for an aborted chain; then the share fails (R598; log 78). -/
def State.meRefuse (s : State) (c bits : Nat) (ue : Bool) : State :=
  let m := s.me c
  match m.chains.find? (·.stage = .fetching) with
  | none => s.meFail c bits ue none
  | some ch =>
    if m.reducing? ≠ some ch then s.meFail c bits ue (some ch.id)
    else match s.redRun c ch.left ch with
      | (.ok _, s) => s.meFail c bits ue (some ch.id)
      | (.error e, s) => s.meFail c (Nat.lor bits mfAccess) (ue || e) (some ch.id)

/-! ## Fetching -/

/-- The format word a descriptor resolves to (R88, R92). -/
def tdFw (fwd bwd : Nat) (td : List Byte) : Nat :=
  match tdSrc td with
  | 0 => fwd
  | 1 => bwd
  | 2 => tdW td 4
  | _ => fwSwap bwd

/-- Reserved fields of R88, for any OP. -/
def tdReserved (td : List Byte) : Bool :=
  !tdFlag td 7 && fld (leAt td 2 1) 3 5 = 0 && zeroAt td 3 1 && zeroAt td 14 2 && zeroAt td 56 8

/-- A span of n rows of w bytes at a base and a pitch stays within the 1 MiB (R90). -/
def inSram (base pitch w n : Nat) : Bool := base + (n - 1) * pitch + w ≤ 0x100000

/-- An operand format the ME accepts (R90). -/
def State.opFmtOk (s : State) (n : Nat) : Bool :=
  n ≠ 0 && n ≠ 10 && n ≠ 11 && (n < 12 || (s.fmt n).valid)

/-- The checks of R90 and R164 on one MMA descriptor with its format word. DEDUCED (log 31): the encodings of the
format word are always checked, OUT_FMT not under RAW_INT. -/
def State.tdOk (s : State) (td : List Byte) (fw : Nat) : Bool :=
  let fa := s.fmt (fld fw 0 4)
  let fb := s.fmt (fld fw 4 4)
  let raw := bit fw 20
  let k := 32 * tdK td
  let g := fwGroup fw
  let final := tdFlag td 1
  let rowA := (if tdFlag td 2 then 32 else k) * fa.width / 8
  let rowB := (if tdFlag td 3 then k else 32) * fb.width / 8
  let outW := if raw then 128 else 4 * (s.fmt (fld fw 16 4)).width
  let sc := fun (a : Nat) => a = 0xFFFFFFFF || (a % 8 = 0 && inSram a 0 (32 * (k / g)) 1)
  tdOp td = 1 && tdReserved td &&
  fld fw 14 2 = 0 && fld fw 21 11 = 0 && (fld fw 8 4 = 10 || fld fw 8 4 = 11) && fld fw 12 2 ≠ 3 &&
  (raw || fld fw 16 4 ≤ 4) &&
  s.opFmtOk (fld fw 0 4) && s.opFmtOk (fld fw 4 4) && fa.isInt = fb.isInt && (!raw || fa.isInt) &&
  1 ≤ tdK td && tdK td ≤ 2048 && tdK td % (g / 32) = 0 &&
  tdW td 16 % 8 = 0 && tdW td 20 % 8 = 0 && tdW td 24 % 8 = 0 && tdW td 28 % 8 = 0 &&
  rowA ≤ tdW td 20 && rowB ≤ tdW td 28 &&
  inSram (tdW td 16) (tdW td 20) rowA (if tdFlag td 2 then k else 32) &&
  inSram (tdW td 24) (tdW td 28) rowB (if tdFlag td 3 then 32 else k) &&
  sc (tdW td 32) && sc (tdW td 36) &&
  (!(final && tdFlag td 4) || (tdW td 40 % 4 = 0 && inSram (tdW td 40) 0 128 1)) &&
  (!(final && tdFlag td 5) || (tdW td 44 % 4 = 0 && inSram (tdW td 44) 0 128 1)) &&
  (!(final && tdOutMode td) ||
    (tdW td 48 % 8 = 0 && tdW td 52 % 4 = 0 && inSram (tdW td 48) (tdW td 52) outW 32)) &&
  (!raw || (tdW td 32 = 0xFFFFFFFF && tdW td 36 = 0xFFFFFFFF && !(final && (tdFlag td 4 || tdFlag td 5))))

def addNew (l : List Nat) (x : Nat) : List Nat := if l.contains x then l else l ++ [x]

/-- The chain being fetched: the last one. -/
def MeState.open? (m : MeState) : Option MeChain := m.chains.find? (·.stage = .fetching)

def MeState.mapChain (m : MeState) (id : Nat) (f : MeChain → MeChain) : MeState :=
  { m with chains := m.chains.map fun ch => if ch.id = id && !ch.replaced then f ch else ch }

/-- Take one checked descriptor into a chain: its ticket, and with FINAL the end of fetching. -/
def MeChain.take (q : QzState) (ch : MeChain) (td : List Byte) : MeChain :=
  let ch := { ch with tds := ch.tds ++ [td] }
  let ch :=
    if tdFlag td 6 then
      { ch with
        tickets := addNew ch.tickets (tdTicket td)
        unconfirmed := if smGet 0 q.tickets (tdTicket td) ≥ 2 then ch.unconfirmed
          else addNew ch.unconfirmed (tdTicket td) }
    else ch
  if tdFlag td 1 then { ch with stage := .reducing, again := ch.tickets.any ch.late.contains } else ch

/-- The end-of-list check of R598, made with the last entry's fetch; then what follows. -/
def State.meListEnd (s : State) (c : Nat) : State :=
  let m := s.me c
  match m.run with
  | some sh => if sh.pos ≥ sh.len && sh.inChain then s.meRefuse c mfChain false else s.meAdvance c
  | none => s.meAdvance c

/-- Read the next entry of the running share's list: its share and the entry, or why not. -/
inductive Fetch where
  | none
  | bad (ue : Bool)
  | entry (sh : MeShare) (td : List Byte)
  deriving DecidableEq, Repr

def State.meFetch (s : State) (c : Nat) : Fetch × State :=
  match (s.me c).run with
  | Option.none => (.none, s)
  | some sh =>
    if sh.err.isSome || sh.pos ≥ sh.len then (.none, s)
    else match s.gRead (sh.list + 64 * sh.pos) 64 with
      | (.ok, td, s) => (.entry sh td, s)
      | (.ue, _, s) => (.bad true, s)
      | (_, _, s) => (.bad false, s)

/-- The ME starts to wait (R101, R599). -/
def State.meWait (s : State) (c : Nat) (w : MeWait) : State := s.setMe c { s.me c with wait := w }

/-- A wait ends: its clocks are counted (R102, R599). -/
def State.meUnwait (s : State) (c clocks : Nat) : State :=
  let m := s.me c
  if m.wait = .none then s else (s.setMe c { m with wait := .none }).bump (kStallFull c) clocks

/-- Begin a chain with its first descriptor: the entry is reserved and the format latched (R92, R96). -/
def State.meBegin (s : State) (c : Nat) (sh : MeShare) (td : List Byte) (fw : Nat) : State :=
  let m := s.me c
  let om := tdOutMode td
  let ch : MeChain :=
    { id := m.nextId, src := sh.src, countFlags := sh.countFlags, tds := [], fmt := fw,
      fwd := s.rd (coreBase c + 0x10), bwd := s.rd (coreBase c + 0x14), outMode := om, weightGrad := tdSrc td = 3,
      tickets := [], unconfirmed := [], set := m.nextSet, entry := if om then none else some m.tail,
      stage := .fetching, rerun := false, again := false, late := [], replaced := false, traced := false, pos := 0,
      grp := 0, acc := [], rflags := 0, out := [], ovf := 0, inv := 0, loud := false }
  let m := if om then m else
    { m.setEntry m.tail { QEntry.free with state := 1, src := some sh.src, chain := m.nextId } with tail := (m.tail + 1) % 8 }
  s.setMe c { m with
    chains := m.chains ++ [ch.take (s.qzt (c / 300)) td], nextId := m.nextId + 1, nextSet := !m.nextSet,
    run := some { sh with pos := sh.pos + 1, inChain := !tdFlag td 1 } }

/-- Continue the open chain (R91); its FINAL descriptor gives the TAG of a record that it has made (R172). -/
def State.meContinue (s : State) (c : Nat) (sh : MeShare) (td : List Byte) (ch : MeChain) : State :=
  let m := s.me c
  let s := s.setMe c { m.mapChain ch.id (fun ch => ch.take (s.qzt (c / 300)) td) with
    run := some { sh with pos := sh.pos + 1, inChain := !tdFlag td 1 } }
  if tdFlag td 1 && bit (s.rd (kNumFirst c)) 31 && m.firstBy = some ch.id then s.wrf (kNumFirst c) 0 16 (tdTag td) else s

/-- Tickets a chain would name with one more descriptor. -/
def ticketsWith (ch : MeChain) (td : List Byte) : List Nat :=
  if tdFlag td 6 then addNew ch.tickets (tdTicket td) else ch.tickets

/-- An MMA entry has been read. An entry that R90 refuses is not judged under R91 (log 78). -/
def State.meMma (s : State) (c waited : Nat) (sh : MeShare) (td : List Byte) : State :=
  if sh.inChain then
    match (s.me c).open? with
    | none => s
    | some ch =>
      let fw := tdFw ch.fwd ch.bwd td
      if !s.tdOk td fw then s.meRefuse c mfTd false
      else if !tdFlag td 0 || fw ≠ ch.fmt || tdOutMode td ≠ ch.outMode || (ticketsWith ch td).length > 4 then
        s.meRefuse c mfChain false
      else (s.meContinue c sh td ch).meListEnd c
  else
    let fw := tdFw (s.rd (coreBase c + 0x10)) (s.rd (coreBase c + 0x14)) td
    let m := s.me c
    if !s.tdOk td fw then s.meRefuse c mfTd false
    else if tdFlag td 0 then s.meRefuse c mfChain false
    else if !tdOutMode td && (m.entry m.tail).state ≠ 0 then s.meWait c .full
    else if m.setHeld m.nextSet then s.meWait c .held
    else if m.chains.any (·.stage = .replay) then s
    else ((s.meUnwait c waited).meBegin c sh td fw).meListEnd c

/-- MMA: fetch the next entry of the share's list, unless it is a NOP (R88 to R92, R96, R598). -/
def execMma (c : CoreId) (waited : Nat) (s : State) : Host.Outcome State Fault Refusal :=
  .next <|
    if !s.coreOn c || s.fencedTile (c / 300) then s
    else match s.meFetch c with
      | (.none, _) => s
      | (.bad ue, s) => s.meRefuse c mfAccess ue
      | (.entry sh td, s1) => if tdOp td = 0 then s else s1.meMma c waited sh td

/-- TILE_NOP: skip an entry with OP NOP (R88, R91); its reserved fields are checked (R90). -/
def execTileNop (c : CoreId) (s : State) : Host.Outcome State Fault Refusal :=
  .next <|
    if !s.coreOn c || s.fencedTile (c / 300) then s
    else match s.meFetch c with
      | (.entry sh td, s1) =>
        if tdOp td ≠ 0 then s
        else if !tdReserved td then s1.meRefuse c mfTd false
        else
          let m := s1.me c
          ((s1.bumpTd c 1).setMe c { m with run := some { sh with pos := sh.pos + 1 } }).meListEnd c
      | _ => s

/-! ## The end of a reduction, and conversion -/

/-- Chain ch is reduced, to ch': it waits for its conversion, and a chain to be re-executed starts again at once in the
other set (R98, R165). -/
def MeState.reduced (m : MeState) (ch ch' : MeChain) : MeState :=
  let done := { ch' with stage := .converting, again := false, replaced := ch.again }
  let chains := m.chains.map fun x => if decide (x = ch) then done else x
  { m with chains := if ch.again then chains ++ [{ ch with stage := .replay, rerun := true, again := false }] else chains }

/-- CHAIN_REDUCTION_END: stall is the clocks the MAC array waited on a loader (R85, R151, R165). -/
def execChainReductionEnd (c : CoreId) (stall : Nat) (s : State) : Host.Outcome State Fault Refusal :=
  .next <|
    if !s.coreOn c || s.fencedTile (c / 300) then s
    else match (s.me c).reducing? with
      | none => s
      | some ch =>
        if ch.stage = .fetching then s
        else match (s.bump (coreBase c + 0x48) stall).redRun c ch.left ch with
          | (.error ue, s) => s.chainFail c ue ch
          | (.ok ch', s) => (s.setMe c ((s.me c).reduced ch ch')).meAdvance c

/-- While no command comes, the chain under reduction reduces its next group (R165, log 79). A chain of integer operands
waits for its FINAL descriptor, since a later descriptor may name the scales that choose its path (R146). -/
def State.meTick (s : State) (c : Nat) : State :=
  match (s.me c).reducing? with
  | none => s
  | some ch =>
    if ch.left = 0 || s.fencedTile (c / 300) || (ch.stage = .fetching && (s.fmt (fld ch.fmt 0 4)).isInt) then s
    else match s.redStep c ch with
      | (.error ue, s) => s.chainFail c ue ch
      | (.ok ch', s) => s.setMe c ((s.me c).mapChain ch.id fun _ => ch')

/-- Rows of an OUT_MODE = 1 chain, packed in the output format (R96). -/
def State.outRows (s : State) (c base pitch width : Nat) : Nat → List Nat → State
  | 0, _ => s
  | n + 1, codes =>
    (s.poke (coreAddr c base) (leBytes (4 * width) (packCodes width (codes.take 32)))).outRows c (base + pitch) pitch
      width n (codes.drop 32)

/-- The results of a chain become final (R96, R97, R169, R232, R599). -/
def State.chainFinal (s : State) (c : Nat) (ch : MeChain) : State :=
  let last := ch.tds.getLastD []
  let m := s.me c
  let m := { m with chains := m.chains.filter fun x => !decide (x.id = ch.id) || x.replaced }
  let m := match ch.entry with
    | some e => m.setEntry e { m.entry e with state := 3, codes := ch.out, tag := tdTag last, fmt := fld ch.fmt 16 5 }
    | none => m
  let s := s.setMe c m
  let s := if ch.outMode then
      s.outRows c (tdW last 48) (tdW last 52) (if bit ch.fmt 20 then 32 else (s.fmt (fld ch.fmt 16 4)).width) 32 ch.out
    else s
  if ch.countFlags then s.countFor ch.src ch.ovf ch.inv else s

/-- A chain has its confirmed results: when it is the traced chain the Tracing Unit copies it, and its queue entry waits
for that (R229). -/
def State.chainReady (s : State) (c : Nat) (ch : MeChain) : State :=
  let (traced, s) := s.traceHook c ch ch.out
  match ch.entry, traced with
  | some e, true =>
    let m := (s.me c).mapChain ch.id fun _ => { ch with stage := .held, traced := true }
    s.setMe c (m.setEntry e { m.entry e with state := 2 })
  | _, _ => s.chainFinal c ch

/-- Mark the layer of a weight-gradient chain (R232). -/
def State.markLayer (s : State) (c : Nat) (ch : MeChain) : State :=
  if ch.weightGrad && s.qzm.quiet ≠ 0 then
    let t := c / 300
    let q := s.qzt t
    let l := tdTag (ch.tds.getLastD []) % 4096
    s.setQzt t { q with active := smSet false q.active l true,
                        loud := if ch.loud then smSet false q.loud l true else q.loud }
  else s

/-- A converted run: replaced and re-executed, held for its tickets, or final (R97 to R99, R599). -/
def State.chainDone (s : State) (c : Nat) (ch : MeChain) : State :=
  let m := s.me c
  if ch.replaced then s.setMe c { m with chains := m.chains.filter fun x => !(decide (x.id = ch.id) && x.replaced) }
  else if ch.again then
    s.setMe c (m.mapChain ch.id fun _ => { ch with stage := .replay, rerun := true, again := false })
  else if ch.unconfirmed ≠ [] then
    let m := m.mapChain ch.id fun _ => { ch with stage := .held }
    s.setMe c (match ch.entry with
      | some e => m.setEntry e { m.entry e with state := 2 }
      | none => m)
  else (s.markLayer c ch).chainReady c ch

/-- The final conversion of a reduced chain: its results, flags and counts, or the error of a scale read (R154, R158,
R167 to R169). -/
def State.chainConvert (s : State) (c : Nat) (ch : MeChain) : Except Bool MeChain × State :=
  let last := ch.tds.getLastD []
  match s.lineScales c (tdFlag last 4) (tdW last 40) with
  | (.error ue, s) => (.error ue, s)
  | (.ok rs, s) =>
    match s.lineScales c (tdFlag last 5) (tdW last 44) with
    | (.error ue, s) => (.error ue, s)
    | (.ok cs, s) =>
      let v := convTile (s.chainPath ch) (bit ch.fmt 20) (s.fmt (fld ch.fmt 16 4)) rs cs ch.acc
      let s := s.meFlags c ch v.flags
      let s := s.bump (coreBase c + 0x88) v.ovf
      let s := s.bump (coreBase c + 0x90) v.unf
      let s := s.bump (coreBase c + 0x98) v.nan
      (.ok { ch with out := v.codes, loud := v.loud, ovf := v.ovf + ch.acc.countP (·.sat),
                     inv := v.nan + b2n (ch.rflags &&& mTern ≠ 0) }, s)

/-- CHAIN_CONVERSION_END: stall is the clocks the output writer of an OUT_MODE = 1 chain waited for a bank (R166). -/
def execChainConversionEnd (c : CoreId) (stall : Nat) (s : State) : Host.Outcome State Fault Refusal :=
  .next <|
    if !s.coreOn c || s.fencedCore c then s
    else match (s.me c).chains.find? (·.stage = .converting) with
      | none => s
      | some ch =>
        match s.chainConvert c ch with
        | (.error ue, s) => s.chainFail c ue ch
        | (.ok ch', s) =>
          ((s.bump (coreBase c + 0xA8) (if ch.outMode then stall else 0)).chainDone c ch').meAdvance c

/-! ## Notices -/

/-- CONFIRM at one core: the ticket is no longer awaited; held chains that await none become final (R97, R599). -/
def State.confirmChains (s : State) (c ticket : Nat) : List MeChain → State
  | [] => s
  | ch :: chs =>
    let un := ch.unconfirmed.filter (· ≠ ticket)
    let ch' := { ch with unconfirmed := un }
    let s :=
      if !ch.unconfirmed.contains ticket then s
      else if ch.stage = .held && un = [] then (s.markLayer c ch').chainReady c ch'
      else s.setMe c ((s.me c).mapChain ch.id fun x => { x with unconfirmed := un })
    s.confirmChains c ticket chs

/-- REPLAY at one core (R98, R599). -/
def State.replayChains (s : State) (c ticket : Nat) : List MeChain → State
  | [] => s
  | ch :: chs =>
    let un := ch.unconfirmed.filter (· ≠ ticket)
    let m := s.me c
    let s :=
      if ch.stage = .fetching then
        s.setMe c (m.mapChain ch.id fun x => { x with unconfirmed := un, late := addNew x.late ticket })
      else if !ch.unconfirmed.contains ticket then s
      else match ch.stage with
        | .held =>
          let m := m.mapChain ch.id fun x => { x with unconfirmed := un, stage := .replay, rerun := true, out := [] }
          s.setMe c (match ch.entry with
            | some e => m.setEntry e { m.entry e with state := 1, codes := [], tag := 0, fmt := 0 }
            | none => m)
        | .replay => s.setMe c (m.mapChain ch.id fun x => { x with unconfirmed := un })
        | _ => s.setMe c (m.mapChain ch.id fun x => { x with unconfirmed := un, again := true })
    s.replayChains c ticket chs

/-- Cores of a tile that hold anything; the others have no chain. -/
def State.coresOf (s : State) (t : Nat) : List Nat := (s.cores.map (·.1)).filter fun c => c / 300 = t

/-- Deliver a notice to every core of the tile (R222, R223). -/
def State.notice (s : State) (t ticket : Nat) (replay : Bool) : State :=
  let q := s.qzt t
  let s := s.setQzt t { q with tickets := smSet 0 q.tickets ticket (if replay then 3 else 2),
                               notices := q.notices.erase (ticket, replay) }
  (s.coresOf t).foldl (fun s c =>
    (if replay then s.replayChains c ticket ((s.me c).chains.filter fun ch => !ch.replaced)
     else s.confirmChains c ticket ((s.me c).chains.filter fun ch => !ch.replaced)).meAdvance c) s

/-- A notice is delivered: the cores of the tile that it may make write rows are under no order command (R361). -/
def State.mayNotice (s : State) (t : Nat) : Bool := s.fabOn t && !(s.coresOf t).any fun c => s.fencedCore c

/-- CONFIRM: a notice of the tile's Quantizer arrives at its cores (R97). -/
def execConfirm (t : TileId) (ticket : BitVec 16) (s : State) : Host.Outcome State Fault Refusal :=
  .next <| if s.mayNotice t && (s.qzt t).notices.contains (ticket.toNat, false) then s.notice t ticket.toNat false else s

/-- REPLAY (R98). -/
def execReplay (t : TileId) (ticket : BitVec 16) (s : State) : Host.Outcome State Fault Refusal :=
  .next <| if s.mayNotice t && (s.qzt t).notices.contains (ticket.toNat, true) then s.notice t ticket.toNat true else s

end Sys2Proof.Machine
end

