-- ==== Sys2Proof/Machine/Quant.lean ====
section
/-!
DEFINITION. Machine/Quant.lean: Quantizer jobs, scales and re-conversion, the Tracing Unit's steps, silent layers and the
loss scale (chapter 7).
-/
namespace Sys2Proof.Machine

open Sys2Proof

def kQz (t o : Nat) : Nat := tileBase t + 0x140000 + o
def kQzLimit : Nat := wideKey 0x140004
def kQzCtrl : Nat := wideKey 0x140000
def kLsCtrl : Nat := wideKey 0x140104
def kTrCtrl : Nat := wideKey 0x141000
def kTrQuiet : Nat := wideKey 0x141004

/-! ## Jobs -/

/-- G divides the grouped dimension, and the fields keep R210 and R211; a reused ticket is judged apart. -/
def State.jobOk (s : State) (j : List Byte) : Bool :=
  let f := s.fmt (jobDstFmt j)
  let rows := jobRows j
  let cols := jobCols j
  let srcW := if jobSrcFmt j = 0 then 4 else 2
  jobTensor j < 16384 && jobSrcFmt j ≤ 2 &&
  ((3 ≤ jobDstFmt j && jobDstFmt j ≤ 9) || (12 ≤ jobDstFmt j && jobDstFmt j ≤ 15 && f.valid)) &&
  (jobScaleFmt j = 10 || jobScaleFmt j = 11) && fld (leAt j 6 1) 4 2 ≠ 3 && !bit (leAt j 6 1) 7 &&
  jobMode j ≠ 3 && fld (leAt j 7 1) 3 5 = 0 && zeroAt j 48 16 &&
  1 ≤ rows && rows ≤ 65536 && 1 ≤ cols && cols ≤ 65536 && rows * cols ≤ 16777216 &&
  (if jobDir j then rows else cols) % jobGroup j = 0 &&
  cols * srcW ≤ leAt j 24 4 && cols * f.width ≤ 8 * leAt j 28 4 && leAt j 28 4 % 8 = 0 && leAt j 32 8 % 8 = 0

/-- A calibration entry's AMAX when the entry is valid (R216). -/
def calMag (e : Nat) : Option Num :=
  match f32 (BitVec.ofNat 32 e) with
  | .fin false m x => if bit e 32 && m ≠ 0 then some (.fin false m x) else none
  | _ => none

def State.calOf (s : State) (tensor : Nat) : Option Num := calMag (smGet 0 s.qzm.cal tensor)

/-- The mode a job resolves to: CAL, missing calibration aside (R213). -/
def State.wantsCal (s : State) (j : List Byte) : Bool :=
  match jobMode j with
  | 1 => true
  | 2 => false
  | _ => match fld s.qzm.ctrl 0 2 with
    | 1 => true
    | 2 => false
    | _ => !bit (s.rd kQzCtrl) 3

/-- A numerator not below a denominator: a ≥ b × 2^k for positive numbers m × 2^e. -/
def geScaled (m : Nat) (e : Int) (n : Nat) (g : Int) : Bool :=
  let q := min e g
  m * 2 ^ (e - q).toNat ≥ n * 2 ^ (g - q).toNat

/-- Smallest k from k0 on with M × 2^k ≥ a. -/
def ceilLog (am : Nat) (ae : Int) (mm : Nat) (me : Int) : Nat → Int → Int
  | 0, k => k
  | n + 1, k => if geScaled mm (me + k) am ae then k else ceilLog am ae mm me n (k + 1)

/-- The smallest UE4M3 code from c on whose value times M is at least a (R214). -/
def ue4m3Code (am : Nat) (ae : Int) (mm : Nat) (me : Int) : Nat → Nat → Nat
  | 0, c => c
  | n + 1, c =>
    match (decodeCode (fmtOf (paletteReset 11)) c).1 with
    | .fin _ v x => if geScaled (mm * v) (me + x) am ae then c else ue4m3Code am ae mm me n (c + 1)
    | _ => c

/-- The largest finite magnitude M of a destination format (R214). -/
def largest (f : Fmt) : Nat × Int :=
  if f.cls = 2 then (1, 0)
  else if f.cls = 1 then (2 ^ (f.width - 1) - 1, 0)
  else match (decodeCode f (maxMag f)).1 with
    | .fin _ m e => (m, e)
    | _ => (1, 0)

/-- The scale code for a magnitude (R214). -/
def scaleCode (e8 : Bool) (f : Fmt) (am : Nat) (ae : Int) : Nat :=
  let (mm, me) := largest f
  if am = 0 then (if e8 then 0x7F else 0x38)
  else if e8 then
    let k := ceilLog am ae mm me 4 ((ae + bitLen am) - (me + bitLen mm) - 1)
    (max (-127) (min 127 k) + 127).toNat
  else ue4m3Code am ae mm me 0x7D 1

/-- x / s, exactly or with a sticky bit below 66 significant bits. -/
def divScale (x s : Num) : Num :=
  match x, s with
  | .fin a m e, .fin _ n g =>
    if m = 0 then x
    else if n = 1 then .fin a m (e - g)
    else let (q, k) := quotient m e n g; .fin a q k
  | _, _ => x

/-- The largest finite magnitude of a group. -/
def groupMax (xs : List Num) : Nat × Int :=
  xs.foldl (fun a x => match x with
    | .fin _ m e => if geScaled a.1 a.2 m e then a else (m, e)
    | _ => a) (0, 0)

/-- Source rows are FP32, BF16 or FP16. -/
def srcBytes (j : List Byte) : Nat := if jobSrcFmt j = 0 then 4 else 2

/-- Groups along one line, and in all. -/
def lineGroups (j : List Byte) : Nat := (if jobDir j then jobRows j else jobCols j) / jobGroup j
def jobGroups (j : List Byte) : Nat := jobRows j * jobCols j / jobGroup j

/-- Row and column of element k of group i, in the order of R212. -/
def groupPos (j : List Byte) (i k : Nat) : Nat × Nat :=
  let n := lineGroups j
  let p := i % n * jobGroup j + k
  if jobDir j then (p, i / n) else (i / n, p)

/-- The BF16 copy of a sampled job's element, at its place in the trace buffer (R228). -/
def State.wideCopy (s : State) (j : List Byte) (wide : Option Nat) (r c code : Nat) : State :=
  match wide with
  | none => s
  | some base =>
    s.put (base + 2 * (r * jobCols j + c)) (leBytes 2 (bf16Code (decodeCode (fmtOf (paletteReset (jobSrcFmt j))) code).1))

/-- Source codes of elements k to k + n − 1 of group i, in a pass that makes the wide copy or not. -/
def State.groupSrc (s : State) (j : List Byte) (wide : Option Nat) (i : Nat) : Nat → Nat → Rd (List Nat)
  | _, 0 => (.ok [], s)
  | k, n + 1 =>
    let (r, c) := groupPos j i k
    match s.gRead (leAt j 16 8 + r * leAt j 24 4 + c * srcBytes j) (srcBytes j) with
    | (.ok, bs, s) =>
      (match (s.wideCopy j wide r c (leNat bs)).groupSrc j wide i (k + 1) n with
      | (.ok l, s) => (.ok (leNat bs :: l), s)
      | (.error e, s) => (.error e, s))
    | (code, _, s) => (.error (code = .ue), s)

/-- Global address of the byte in which element (r, c) of the destination begins. -/
def elemAddr (j : List Byte) (w r c : Nat) : Nat := leAt j 32 8 + r * leAt j 28 4 + w * c / 8

/-- The bytes around an element that shares them with others; free where they cannot be read. -/
def State.around (s : State) (a n : Nat) : List Byte × State :=
  match s.serve a with
  | .here l => if (s.ueAt l n).isSome then s.takeFree n else (s.bytes l n, s)
  | _ =>
    match s.gRead a n with
    | (.ok, b, s) => (b, s)
    | (_, _, s) => s.takeFree n

/-- Write one element code into its packed row. An element of whole bytes is written alone (R215). -/
def State.putElem (s : State) (j : List Byte) (w r c code : Nat) : Code × State :=
  let a := elemAddr j w r c
  if w % 8 = 0 then s.gWrite false a (leBytes (w / 8) code)
  else
    let n := (w * c % 8 + w + 7) / 8
    let (bs, s) := s.around a n
    s.gWrite false a (leBytes n (setFld (leNat bs) (w * c % 8) w code))

/-- Elements of a group that runs down a column; how many were written before an error. -/
def State.putColumn (s : State) (j : List Byte) (w i : Nat) : Nat → List Nat → Code × Nat × State
  | k, [] => (.ok, k, s)
  | k, x :: xs =>
    let (r, c) := groupPos j i k
    match s.putElem j w r c x with
    | (.ok, s) => s.putColumn j w i (k + 1) xs
    | (e, s) => (e, k, s)

/-- Write a group's elements: a group along a row is whole bytes (R135, R210). -/
def State.putGroup (s : State) (j : List Byte) (w i : Nat) (codes : List Nat) : Code × Nat × State :=
  if jobDir j then s.putColumn j w i 0 codes
  else
    let (r, c) := groupPos j i 0
    match s.gWrite false (elemAddr j w r c) (leBytes (w * codes.length / 8) (packCodes w codes)) with
    | (.ok, s) => (.ok, codes.length, s)
    | (e, s) => (e, 0, s)

/-- What a conversion has counted. -/
structure QzSum where
  flags : NFlags
  sat : Nat
  inv : Nat
  deriving DecidableEq, Repr

/-- Where a conversion stops on an error: whether UE caused it, the group, its elements written, and the counts. -/
structure QzStop where
  ue : Bool
  group : Nat
  elems : Nat
  sum : QzSum
  deriving DecidableEq, Repr

/-- Convert group i, with the magnitude given or its own (R214, R215), and write its elements and scale. -/
def State.qzGroup (s : State) (j : List Byte) (mag : Option (Nat × Int)) (wide : Option Nat) (i : Nat) (z : QzSum) :
    Except QzStop QzSum × State :=
  let f := s.fmt (jobDstFmt j)
  let src := fmtOf (paletteReset (jobSrcFmt j))
  match s.groupSrc j wide i 0 (jobGroup j) with
  | (.error e, s) => (.error ⟨e, i, 0, z⟩, s)
  | (.ok codes, s) =>
    let xs := codes.map fun c => (decodeCode src c).1
    let (am, ae) := mag.getD (groupMax xs)
    let sc := scaleCode (jobScaleFmt j = 10) f am ae
    let sv := (decodeCode (fmtOf (paletteReset (jobScaleFmt j))) sc).1
    let out := xs.map fun x => convert f none (divScale x sv)
    match s.putGroup j f.width i (out.map (·.1)) with
    | (.ok, n, s) =>
      (match s.gWrite false (leAt j 40 8 + i) [BitVec.ofNat 8 sc] with
      | (.ok, s) =>
        (.ok { flags := out.foldl (fun g e => g ||| e.2) z.flags,
               sat := z.sat + out.countP (fun e => e.2 &&& fOvf ≠ 0),
               inv := z.inv + out.countP (fun e => e.2 &&& fInv ≠ 0) }, s)
      | (code, s) => (.error ⟨code = .ue, i, n, z⟩, s))
    | (code, n, s) => (.error ⟨code = .ue, i, n, z⟩, s)

/-- Groups i to i + n − 1 in order. -/
def State.qzGroups (s : State) (j : List Byte) (mag : Nat → Option (Nat × Int)) (wide : Option Nat) :
    Nat → Nat → QzSum → Except QzStop QzSum × State
  | _, 0, z => (.ok z, s)
  | i, n + 1, z =>
    match s.qzGroup j (mag i) wide i z with
    | (.error e, s) => (.error e, s)
    | (.ok z, s) => s.qzGroups j mag wide (i + 1) n z

/-- The first pass of a PASS conversion finds the largest magnitude of every group (R212). -/
def State.qzScan (s : State) (j : List Byte) (wide : Option Nat) : Nat → Nat → Rd (List (Nat × Int))
  | _, 0 => (.ok [], s)
  | i, n + 1 =>
    match s.groupSrc j wide i 0 (jobGroup j) with
    | (.error e, s) => (.error e, s)
    | (.ok codes, s) =>
      let m := groupMax (codes.map fun c => (decodeCode (fmtOf (paletteReset (jobSrcFmt j))) c).1)
      match s.qzScan j wide (i + 1) n with
      | (.ok l, s) => (.ok (m :: l), s)
      | e => e

/-- Bits of an element that no conversion wrote become undefined, where this module holds them and a write would be
served. -/
def State.blurAt (s : State) (a sh w : Nat) : State :=
  match s.serve a with
  | .here l =>
    let n := (sh + w + 7) / 8
    if s.accessCode l n = .ok && (s.quiet || regionOf l ≠ .granary) then
      let (x, s) := s.freeNat
      s.storeUnits l (leBytes n (setFld (leNat (s.bytes l n)) sh w x)) 2
    else s
  | _ => s

/-- Elements of group i from the k-th on, and its scale, become undefined. -/
def State.blurGroup (s : State) (j : List Byte) (i k : Nat) : State :=
  let w := (s.fmt (jobDstFmt j)).width
  let s := ((List.range (jobGroup j)).filter fun x => k ≤ x).foldl (fun s x =>
    let (r, c) := groupPos j i x
    s.blurAt (elemAddr j w r c) (w * c % 8) w) s
  s.blurAt (leAt j 40 8 + i) 0 8

def State.blurGroups (s : State) (j : List Byte) : Nat → Nat → Nat → State
  | _, _, 0 => s
  | i, k, n + 1 => (s.blurGroup j i k).blurGroups j (i + 1) 0 n

/-- A whole conversion: CAL with a magnitude in one pass, or PASS in two, of which the first makes a sampled job's wide
copy (R212, R228); cut short after n groups. -/
def State.qzConvertTo (s : State) (j : List Byte) (cal : Option Num) (wide : Option Nat) (n : Nat) :
    Except QzStop QzSum × State :=
  let zero : QzSum := ⟨0, 0, 0⟩
  match cal with
  | some x => s.qzGroups j (fun _ => match x with | .fin _ m e => some (m, e) | _ => none) wide 0 n zero
  | none =>
    match s.qzScan j wide 0 (jobGroups j) with
    | (.error e, s) => (.error ⟨e, 0, 0, zero⟩, s)
    | (.ok l, s) => s.qzGroups j (fun i => l[i]?) none 0 n zero

def State.qzConvert (s : State) (j : List Byte) (cal : Option Num) (wide : Option Nat) : Except QzStop QzSum × State :=
  s.qzConvertTo j cal wide (jobGroups j)

def State.setRun (s : State) (t : Nat) (r : Option QzRun) : State := s.setQzt t { s.qzt t with run := r }
def State.setTicket (s : State) (t ticket v : Nat) : State :=
  s.setQzt t { s.qzt t with tickets := smSet 0 (s.qzt t).tickets ticket v }

/-- A notice is decided; it is delivered by CONFIRM or REPLAY (R222). -/
def State.postNotice (s : State) (t ticket : Nat) (replay : Bool) : State :=
  if ticket = 0 then s else s.setQzt t { s.qzt t with notices := (s.qzt t).notices ++ [(ticket, replay)] }

/-- The ticket's notice has been decided or delivered. -/
def QzState.noticed (q : QzState) (ticket : Nat) : Bool :=
  smGet 0 q.tickets ticket ≥ 2 || q.notices.any fun n => n.1 = ticket

/-- Sample the gated job (R228). -/
def State.sampleJob (s : State) (t : Nat) (j : List Byte) : State :=
  if jobTicket j = 0 then s
  else
    let q := s.qzt t
    let ctl := s.qzm.trCtrl
    let k := min 16 (fld ctl 8 5)
    let due : Bool := q.gated % 2 ^ k = 0 && bit ctl 0
    let s := s.setQzt t { q with gated := (q.gated + 1) % 2 ^ 32 }
    if !due then s
    else if q.bufBytes ≥ 2 * jobRows j * jobCols j && q.bufBytes ≠ 0 && q.sample.isNone then
      s.setSample t (some ⟨jobTicket j, j, none, false, q.bufBase, q.bufBytes⟩)
    else s.bump (kTrace t 1) 1

/-- QUANT_JOB_START (R211 to R213, R218, R228). -/
def execQuantJobStart (t : TileId) (s : State) : Host.Outcome State Fault Refusal :=
  .next <|
    let q := s.qzt t
    match q.queue with
    | [] => s
    | (idx, addr, cf) :: rest =>
      if !s.fabOn t || s.fencedTile t || q.run.isSome then s
      else
        let s := s.setQzt t { q with queue := rest }
        if addr % 8 ≠ 0 then s.partDone t idx (some false)
        else match s.gRead addr 64 with
          | (.ok, j, s) =>
            let k := jobTicket j
            if k ≠ 0 && smGet 0 q.tickets k ≠ 0 then
              (s.orBits (kQz t 0x18) 2).partDone t idx (some false)
            else if !s.jobOk j then
              (((s.orBits (kQz t 0x18) 1).setTicket t k (if k = 0 then 0 else 1)).postNotice t k false).partDone t idx
                (some false)
            else
              let want := s.wantsCal j
              let cal : Bool := want && (s.calOf (jobTensor j)).isSome
              let s := if want && !cal then (s.bump (kQz t 0x38) 1).raise 0x0702 1 t (jobTensor j) else s
              let s := if k = 0 then s else s.setTicket t k 1
              (s.sampleJob t j).setRun t (some ⟨idx, cf, j, cal, false, false⟩)
          | (code, _, s) => s.partDone t idx (some (code = .ue))

/-- The trace buffer into which the conversion of a sampled job copies its source. -/
def State.wideFor (s : State) (t : Nat) (j : List Byte) : Option Nat :=
  match (s.qzt t).sample with
  | some sm => if sm.ticket = jobTicket j && sm.copy.isNone then some sm.base else none
  | none => none

/-- The clip-statistics entry takes the counts of a first conversion (R227). -/
def State.clipStats (s : State) (t : Nat) (j : List Byte) (sat : Nat) : State :=
  if !bit s.qzm.ctrl 2 || bit (leAt j 7 1) 2 then s
  else
    let a := s.rdf (kQz t 8) 0 44 + 16 * jobTensor j
    let e := s.bytes a 16
    let fresh : Bool := leAt e 12 4 ≠ s.step % 2 ^ 32
    let n := (if fresh then 0 else leAt e 0 8) + jobRows j * jobCols j
    let k := satAdd 32 (if fresh then 0 else leAt e 8 4) sat
    s.put a (leBytes 8 n ++ leBytes 4 k ++ leBytes 4 s.step)

/-- R601: the job stops on an error; what it has not yet written becomes undefined. -/
def State.qzFail (s : State) (t : Nat) (r : QzRun) (e : QzStop) : State :=
  let s := (s.orBits (kQz t 0x14) e.sum.flags.toNat).blurGroups r.job e.group e.elems (jobGroups r.job - e.group)
  let k := jobTicket r.job
  let s := if k ≠ 0 && !(s.qzt t).noticed k then s.postNotice t k false else s
  let s := s.setRun t none
  if r.descDone then s.fault t (causeOf e.ue) else s.partDone t r.idx (some e.ue)

/-- The conversion stands (R221, R222, R225): counts, the notice, and the descriptor unless it has completed. -/
def State.qzStand (s : State) (t : Nat) (r : QzRun) (z : QzSum) : State :=
  let s := (s.bump (kQz t 0x20) 1).bump (kQz t 0x28) z.sat
  let s := if r.countFlags then s.countStep t z.sat z.inv else s
  let s := s.postNotice t (jobTicket r.job) r.recon
  let s := s.setRun t none
  if r.descDone then s else s.partDone t r.idx none

/-- QUANT_CONVERSION_END: the first conversion is written (R212, R215, R219 to R222, R225 to R227, R601). -/
def execQuantConversionEnd (t : TileId) (s : State) : Host.Outcome State Fault Refusal :=
  .next <|
    match (s.qzt t).run with
    | none => s
    | some r =>
      if !s.fabOn t || r.recon then s
      else
        let j := r.job
        match s.qzConvert j (if r.cal then s.calOf (jobTensor j) else none) (s.wideFor t j) with
        | (.error e, s) => s.qzFail t r e
        | (.ok z, s) =>
          let s := s.orBits (kQz t 0x14) z.flags.toNat
          let s := s.clipStats t j z.sat
          if r.cal && z.sat > s.rd kQzLimit then
            let s := s.bump (kQz t 0x30) 1
            let s := s.raise 0x0701 1 t (jobTensor j + min z.sat 0xFFFFFFFF * 2 ^ 16)
            let gated : Bool := jobTicket j ≠ 0
            let s := s.setRun t (some { r with recon := true, descDone := gated })
            if gated then s.partDone t r.idx none else s
          else s.qzStand t r z

/-- QUANT_RECONVERSION_END (R220, R222). -/
def execQuantReconversionEnd (t : TileId) (s : State) : Host.Outcome State Fault Refusal :=
  .next <|
    match (s.qzt t).run with
    | none => s
    | some r =>
      if !s.fabOn t || !r.recon then s
      else match s.qzConvert r.job none none with
        | (.error e, s) => s.qzFail t r e
        | (.ok z, s) => (s.orBits (kQz t 0x14) z.flags.toNat).qzStand t r z

/-! ## The Tracing Unit -/

/-- TRACE_COPY_END: the traced chain may become final, and the recompute begins (R229, R230). -/
def execTraceCopyEnd (t : TileId) (s : State) : Host.Outcome State Fault Refusal :=
  .next <|
    match (s.qzt t).sample with
    | none => s
    | some sm =>
      match sm.copy with
      | none => s
      | some cp =>
        if !s.fabOn t || sm.recomputing then s
        else
          let s := s.setSample t (some { sm with recomputing := true })
          match (s.me cp.core).chains.find? fun ch => ch.id = cp.chain && ch.traced with
          | some ch => (s.chainFinal cp.core ch).meAdvance cp.core
          | none => s

/-- TRACE_RECOMPUTE_END (R230, R231). -/
def execTraceRecomputeEnd (t : TileId) (s : State) : Host.Outcome State Fault Refusal :=
  .next <|
    match (s.qzt t).sample with
    | none => s
    | some sm =>
      match sm.copy with
      | none => s
      | some cp =>
        if !s.fabOn t || !sm.recomputing then s
        else
          let b := s.traceBin sm cp
          let last := jobTensor sm.job + b * 2 ^ 16 + cp.tag * 2 ^ 32
          let s := (s.setSample t none).bump (kTrace t 0) 1
          let s := (s.bump (tileBase t + 0x141100 + 8 * b) 1).wr (tileBase t + 0x141030) last
          if b ≥ max 1 (fld s.qzm.trCtrl 16 5) then (s.bump (kTrace t 2) 1).raise 0x0703 1 t last else s

/-! ## Step boundaries -/

/-- What this chapter does when a step begins (R213, R223, R232, R240). -/
def State.quantStepStart (s : State) : State :=
  let l := s.rd kLayout
  let small : Bool := fld l 0 6 * fld l 8 6 * fld l 16 6 * fld l 24 6 ≤ 64
  let s := s.wrf kQzCtrl 3 1 (b2n !small)
  let s := { s with qzm := { s.qzm with ctrl := s.rd kQzCtrl, trCtrl := s.rd kTrCtrl, quiet := s.rdf kTrQuiet 0 10 } }
  s.eachTile fun s t => s.setQzt t { s.qzt t with
    tickets := [], notices := [], active := [], loud := [],
    bufBase := s.rdf (tileBase t + 0x141008) 0 44, bufBytes := s.rdf (tileBase t + 0x141010) 0 25 }

/-- Abandon samples that no chain has taken, at FLAG_REDUCE (R229). -/
def State.reduceSamples (s : State) : State :=
  s.eachTile fun s t => match (s.qzt t).sample with
    | some sm => if sm.copy.isNone then s.dropSample t else s
    | none => s

/-- One active layer's quiet counter at the fence of a committed step (R233). -/
def State.quietLayer (s : State) (t l : Nat) (loud : Bool) : State :=
  let k := tileBase t + 0x142000 + 4 * (l / 2)
  let n := if loud then 0 else satAdd 16 (s.rdf k (16 * (l % 2)) 16) 1
  let s := s.wrf k (16 * (l % 2)) 16 n
  if n = s.qzm.quiet && n ≠ 0 then
    (s.orBits (tileBase t + 0x144000 + 8 * (l / 64)) (2 ^ (l % 64))).raise 0x0704 1 t (l + t * 2 ^ 16)
  else s

def State.quietFence (s : State) : State :=
  if s.qzm.quiet = 0 then s
  else s.eachTile fun s t =>
    (s.qzt t).active.foldl (fun s e => s.quietLayer t e.1 (smGet false (s.qzt t).loud e.1)) s

/-- 2^EXP as FP32. -/
def scaleWord (exp : Int) : Nat := (exp + 127).toNat * 2 ^ 23

/-- EXP changes, or is held at a limit (R236). -/
def State.lossChange (s : State) (new : Int) (hit : Nat) : State :=
  let old := s.rdf kLsCtrl 0 8
  let s := (s.wrf kLsCtrl 0 8 (wrapInt new 8)).wr (wideKey 0x140100) (scaleWord new)
  let s := s.bump (wideKey 0x140118) 1
  let s := if wrapInt new 8 = old then s.orBits (wideKey 0x140110) hit else s
  s.raise 0x0705 0 0 (old + wrapInt new 8 * 2 ^ 8)

/-- The loss scale at the fence of a committed step (R54, R236): halved, kept after an invalid-only skip, or clean. -/
def State.lossFence (s : State) (halve skipped : Bool) : State :=
  let c := s.rd kLsCtrl
  let exp := sext (fld c 0 8) 8
  let clean := wideKey 0x14010C
  if halve then (s.wr clean 0).lossChange (max (exp - 1) (sext (fld c 8 8) 8)) 1
  else if skipped then s.wr clean 0
  else
    let n := satAdd 32 (s.rd clean) 1
    let g := s.rd (wideKey 0x140108)
    if g ≠ 0 && n = g then (s.wr clean 0).lossChange (min (exp + 1) (sext (fld c 16 8) 8)) 2
    else s.wr clean n

/-- SET_LOSS_SCALE's effect (R237). -/
def State.setLoss (s : State) (exp lo hi : Int) (growth : Nat) : State :=
  let s := s.wr kLsCtrl (wrapInt exp 8 + wrapInt lo 8 * 2 ^ 8 + wrapInt hi 8 * 2 ^ 16)
  let s := (s.wr (wideKey 0x140100) (scaleWord exp)).wr (wideKey 0x140108) growth
  s.wr (wideKey 0x14010C) 0

/-- Write calibration entries from id on, and recount the valid ones (R217). -/
def State.putCal (s : State) (id : Nat) : List W64 → State
  | [] =>
    s.wr (wideKey 0x14001C) (s.qzm.cal.countP fun e => (calMag e.2).isSome)
  | e :: es => { s with qzm := { s.qzm with cal := smSet 0 s.qzm.cal id e.toNat } }.putCal (id + 1) es

/-! ## Resets and aborts -/

/-- Offsets in a tile block of this chapter's per-tile registers (R239). -/
def qzTileReg (o : Nat) : Bool :=
  (0x140008 ≤ o && o < 0x140040 && o ≠ 0x14001C) || (0x141008 ≤ o && o < 0x145000)
/-- Offsets of its module-wide registers. -/
def qzWideReg (o : Nat) : Bool :=
  o = 0x140000 || o = 0x140004 || o = 0x14001C || (0x140100 ≤ o && o < 0x140120) || o = 0x141000 || o = 0x141004

/-- RESET_TILE (R242): DEDUCED (log 35), the Tracing Unit's job counter is kept, since only R241 names it. -/
def State.quantResetTile (s : State) (t : Nat) : State :=
  let q := s.qzt t
  let s := match q.run with
    | some r => s.blurGroups r.job 0 0 (jobGroups r.job)
    | none => s
  (s.setQzt t { QzState.init with gated := q.gated }).resetRegs fun k =>
    tileBase t ≤ k && k < tileBase t + 0x200000 && qzTileReg (k - tileBase t)

/-- Power-on and RESET_MODULE (R241). -/
def State.quantReset (s : State) : State :=
  { s with qz := [], qzm := ⟨[], 0, 0, 0⟩ }.resetRegs fun k =>
    0x200000 ≤ k && k < 0xA00000 && (qzTileReg (k % 0x200000) || qzWideReg (k % 0x200000))

/-- ABORT_JOB on one tile (R243): the groups converted before the stop are a free number of them. -/
def State.quantAbortTile (s : State) (t : Nat) : State :=
  let q := s.qzt t
  let s := match q.run with
    | none => s
    | some r =>
      let (x, s) := s.freeNat
      let cal := if r.cal && !r.recon then s.calOf (jobTensor r.job) else none
      match s.qzConvertTo r.job cal (if r.recon then none else s.wideFor t r.job) (x % (jobGroups r.job + 1)) with
      | (.ok z, s) => s.orBits (kQz t 0x14) z.flags.toNat
      | (.error e, s) => s.orBits (kQz t 0x14) e.sum.flags.toNat
  let s := s.dropSample t
  s.setQzt t { s.qzt t with queue := [], run := none, tickets := [], notices := [] }

end Sys2Proof.Machine
end

