-- ==== Sys2Proof/Machine/UeRecipe.lean ====
section
/-!
DEFINITION. Machine/UeRecipe.lean: the Recipe Table, its checks and the recipe interpreter, and the rounding of what the
Update Engine stores (R246, R248 to R258, R602).
-/
namespace Sys2Proof.Machine

open Sys2Proof

/-- Word w of recipe n. -/
def kRecipe (n w : Nat) : Nat := wideKey (0x111000 + 0x200 * n + 4 * w)
def State.recipe (s : State) (n w : Nat) : Nat := s.rd (kRecipe n w)

def State.recValid (s : State) (n : Nat) : Bool := bit (s.recipe n 0) 0
def State.recRow (s : State) (n : Nat) : Bool := bit (s.recipe n 0) 1
def State.recOps (s : State) (n : Nat) : Nat := fld (s.recipe n 0) 8 8
def State.recSlots (s : State) (n : Nat) : Nat := fld (s.recipe n 0) 16 8
def State.recGradFmt (s : State) (n : Nat) : Nat := fld (s.recipe n 0) 24 8
def State.recSlotFmt (s : State) (n k : Nat) : Nat := fld (s.recipe n 1) (8 * k) 8
/-- RECORD_BYTES (R252). -/
def State.recBytes (s : State) (n : Nat) : Nat := s.recipe n 2

/-- A constant in force in the step (R253). -/
def State.recConst (s : State) (n j : Nat) : W32 :=
  let k := kRecipe n (16 + j)
  (smGet (csrReset k) s.seq.consts k).setWidth 32

/-- The constants latched when a step begins (R253). -/
def State.latchConsts (s : State) : State :=
  { s with seq := { s.seq with consts := s.csr.filter fun e => 0x311000 ≤ e.1 && e.1 < 0x315000 } }

/-! ## Micro-ops (R249, R250) -/

def uOp (w : Nat) : Nat := fld w 26 6
def uD (w : Nat) : Nat := fld w 22 4
def uA (w : Nat) : Nat := fld w 17 5
def uB (w : Nat) : Nat := fld w 12 5
def uC (w : Nat) : Nat := fld w 7 5
def uSlot (w : Nat) : Nat := fld w 0 2

/-- For an operation: whether it writes Fd, how many sources it reads, whether it names a slot, whether it is for row
recipes only. -/
def uForm (op : Nat) : Option (Bool × Nat × Bool × Bool) :=
  match op with
  | 0x00 => some (false, 0, false, false)
  | 0x01 | 0x02 => some (true, 0, false, false)
  | 0x03 => some (true, 0, true, false)
  | 0x04 => some (true, 0, false, true)
  | 0x08 => some (false, 1, false, false)
  | 0x09 => some (false, 1, true, false)
  | 0x0A => some (false, 1, false, true)
  | 0x10 | 0x11 | 0x12 => some (true, 2, false, false)
  | 0x13 => some (true, 3, false, false)
  | 0x14 => some (true, 2, false, false)
  | 0x15 | 0x16 => some (true, 1, false, false)
  | 0x17 | 0x18 => some (true, 2, false, false)
  | 0x19 | 0x1A | 0x1B => some (true, 1, false, false)
  | 0x1C | 0x1D => some (true, 1, false, true)
  | 0x1E => some (true, 1, false, false)
  | _ => none

/-- The sources a micro-op reads. -/
def uSources (w n : Nat) : List Nat := [uA w, uB w, uC w].take n

/-- One micro-op is well formed: reserved and unused fields 0, sources written before, slot below NSLOT (R249, R252). -/
def uopOk (row : Bool) (nslot w : Nat) (written : List Nat) : Bool :=
  match uForm (uOp w) with
  | none => false
  | some (d, n, sl, rowOnly) =>
    fld w 2 5 = 0 && (d || uD w = 0) && (([uA w, uB w, uC w].drop n).all (· = 0)) &&
    (if sl then uSlot w < nslot else uSlot w = 0) && (!rowOnly || row) &&
    (uSources w n).all fun x => x ≥ 16 || written.contains x

def uopsOk (row : Bool) (nslot : Nat) : List Nat → List Nat → Bool
  | [], _ => true
  | w :: ws, written =>
    uopOk row nslot w written && decide ((uOp w = 0) = (ws = [])) &&
    uopsOk row nslot ws (match uForm (uOp w) with | some (true, _, _, _) => uD w :: written | _ => written)

def State.recWords (s : State) (n lo k : Nat) : List Nat := (List.range k).map fun j => s.recipe n (lo + j)

/-- A state slot's format is allowed (R252). -/
def State.slotFmtOk (s : State) (f : Nat) : Bool :=
  f = 1 || f = 3 || f = 4 || (12 ≤ f && f ≤ 15 && (s.fmt f).valid && (s.fmt f).width = 8)

/-- The checks of R252 on a recipe's contents. -/
def State.recipeOk (s : State) (n : Nat) : Bool :=
  let row := s.recRow n
  let k := s.recOps n
  let ns := s.recSlots n
  let ops := s.recWords n 32 k
  fld (s.recipe n 0) 3 5 = 0 && fld (s.recipe n 1) 24 8 = 0 && 1 ≤ k && k ≤ 64 && ns ≤ 3 &&
  (s.recWords n (32 + k) (64 - k)).all (· = 0) && uopsOk row ns ops [] &&
  (if row then s.recGradFmt n = 0 && ns = 0 else s.recGradFmt n = 1 || s.recGradFmt n = 2) &&
  ((List.range 3).all fun i => if i < ns then s.slotFmtOk (s.recSlotFmt n i) else s.recSlotFmt n i = 0) &&
  ops.countP (fun w => uOp w = 0x08) = 1 && ops.countP (fun w => uOp w = 0x0A) ≤ 1 &&
  (List.range ns).all fun i => ops.countP (fun w => uOp w = 0x09 && uSlot w = i) = 1

/-- Bytes of a state slot (R246). -/
def slotBytes (f : Nat) : Nat := if f = 1 then 4096 else 2112

/-- Offset of state slot k in the record. -/
def State.slotOff (s : State) (n : Nat) : Nat → Nat
  | 0 => 4160
  | k + 1 => s.slotOff n k + slotBytes (s.recSlotFmt n k)

/-- RECIPE_COMMIT's effect (R252). -/
def State.commitRecipe (s : State) (val : Nat) : State :=
  let n := fld val 0 5
  let key := wideKey 0x110024
  if !bit val 8 then s
  else if n < 3 then s.wr key (4 * 2 ^ 16)
  else if !s.isIdle then s.wr key (2 * 2 ^ 16)
  else if !s.recipeOk n then s.wr key (3 * 2 ^ 16)
  else ((s.wrf (kRecipe n 0) 0 1 1).wr (kRecipe n 2) (s.slotOff n (s.recSlots n))).wr key (1 * 2 ^ 16)

/-- Bits of recipe word w that a write sets (R248). -/
def recipeMask (w : Nat) : Nat :=
  if w = 0 then 0xFFFFFF02 else if w = 1 then 0x00FFFFFF
  else if 16 ≤ w && w < 96 then 0xFFFFFFFF else 0

/-- A write of a recipe register (R252, R253): built-in recipes take only constants. -/
def State.writeRecipe (s : State) (n w val : Nat) : State :=
  let k := kRecipe n w
  if 16 ≤ w && w < 32 then s.wr k val
  else if n < 3 then s
  else (s.wr k (Nat.lor (s.rd k - Nat.land (s.rd k) (recipeMask w)) (Nat.land val (recipeMask w)))).wrf (kRecipe n 0) 0 1 0

/-! ## The interpreter -/

/-- What a recipe reads: gradients, weights, state slots, the row accumulator, lane by lane. -/
structure UeIn where
  grad : List Num
  weight : List Num
  slots : List (List Num)
  acc : W32
  deriving DecidableEq, Repr

/-- What it stores. -/
structure UeOut where
  weight : Option (List W32)
  slots : SMap (List W32)
  acc : Option W32
  deriving DecidableEq, Repr

def orAll (l : List (W32 × NFlags)) : NFlags := l.foldl (fun f e => f ||| e.2) 0

def map1 (f : W32 → W32 × NFlags) (a : List W32) : List W32 × NFlags :=
  let r := a.map f
  (r.map (·.1), orAll r)
def map2 (f : W32 → W32 → W32 × NFlags) (a b : List W32) : List W32 × NFlags :=
  let r := (zipPairs a b).map fun e => f e.1 e.2
  (r.map (·.1), orAll r)
def map3 (f : W32 → W32 → W32 → W32 × NFlags) (a b c : List W32) : List W32 × NFlags :=
  let r := (zipPairs a (zipPairs b c)).map fun e => f e.1 e.2.1 e.2.2
  (r.map (·.1), orAll r)

/-- RSUM: additions in element order from element 0 (R602). -/
def rsum : List W32 → W32 × NFlags
  | [] => (0, 0)
  | x :: xs => xs.foldl (fun a y => let (z, f) := fadd a.1 y; (z, a.2 ||| f)) (x, 0)

/-- Round each exact number to FP32. -/
def loads (l : List Num) : List W32 × NFlags :=
  let r := l.map roundF32
  (r.map (·.1), orAll r)

/-- One micro-op over all lanes: the registers, what is stored, the flags. exp is the loss-scale exponent, t is UE_T + 1. -/
def uStep (k : Nat → W32) (exp : Int) (t lanes : Nat) (i : UeIn) (w : Nat) (r : SMap (List W32)) (o : UeOut) :
    SMap (List W32) × UeOut × NFlags :=
  let src := fun n => if n < 16 then smGet [] r n else List.replicate lanes (k (n - 16))
  let a := src (uA w)
  let b := src (uB w)
  let c := src (uC w)
  let put := fun (x : List W32 × NFlags) => (smPut r (uD w) x.1, o, x.2)
  match uOp w with
  | 0x01 => put (loads (i.grad.map fun g => g.mul (.fin false 1 (-exp))))
  | 0x02 => put (loads i.weight)
  | 0x03 => put (loads (i.slots.getD (uSlot w) []))
  | 0x04 => put (List.replicate lanes i.acc, 0)
  | 0x08 => (r, { o with weight := some a }, 0)
  | 0x09 => (r, { o with slots := smPut o.slots (uSlot w) a }, 0)
  | 0x0A => (r, { o with acc := a.head? }, 0)
  | 0x10 => put (map2 fadd a b)
  | 0x11 => put (map2 fsub a b)
  | 0x12 => put (map2 fmul a b)
  | 0x13 => put (map3 ffma a b c)
  | 0x14 => put (map2 fdiv a b)
  | 0x15 => put (map1 fsqrt a)
  | 0x16 => put (map1 frsqrt a)
  | 0x17 => put (map2 (fminmax false) a b)
  | 0x18 => put (map2 (fminmax true) a b)
  | 0x19 => put (map1 (fun x => (x &&& 0x7FFFFFFF#32, 0)) a)
  | 0x1A => put (map1 (fun x => (x ^^^ 0x80000000#32, 0)) a)
  | 0x1B => put (map1 (fun x => onempow x t) a)
  | 0x1C => let (z, f) := rsum a; put (List.replicate lanes z, f)
  | 0x1D =>
    let (z, f) := rsum a
    let (y, g) := fdiv z (roundF32 (.ofInt lanes)).1
    put (List.replicate lanes y, f ||| g)
  | 0x1E => put (a, 0)
  | _ => (r, o, 0)

def uRun (k : Nat → W32) (exp : Int) (t lanes : Nat) (i : UeIn) :
    List Nat → SMap (List W32) → UeOut → NFlags → UeOut × NFlags
  | [], _, o, f => (o, f)
  | w :: ws, r, o, f =>
    let (r, o, g) := uStep k exp t lanes i w r o
    uRun k exp t lanes i ws r o (f ||| g)

/-- Run recipe n on lanes of inputs. -/
def State.runRecipe (s : State) (n lanes : Nat) (i : UeIn) : UeOut × NFlags :=
  uRun (s.recConst n) (sext (s.rdf kLsCtrl 0 8) 8) (s.rdf (wideKey 0x110008) 0 48 + 1) lanes i
    (s.recWords n 32 (s.recOps n)) [] ⟨none, [], none⟩ 0

/-- Bits of UE_NUM_FLAGS for flags (R278). -/
def State.ueFlags (s : State) (t : Nat) (f : NFlags) : State :=
  if f = 0 then s else s.orBits (tileBase t + 0x11001C) (f.toNat % 32)

def finite32 (x : W32) : Bool := match f32 x with | .fin _ _ _ => true | _ => false

/-- The random bits of a store at a local address (R258). -/
def State.storeBits (s : State) (addr recipe purpose step : Nat) : Nat :=
  counterWord (s.rd kJobSeed) (addr % 2 ^ 44) (fld s.node 15 5) step purpose recipe 0 % 65536

/-- Codes of consecutive elements of wb bytes from an address, each with its own random bits (R256). -/
def State.roundRun (s : State) (f : Fmt) (addr wb recipe purpose step : Nat) : List Num → List (Nat × NFlags)
  | [] => []
  | x :: xs => convert f (some (s.storeBits addr recipe purpose step)) x :: s.roundRun f (addr + wb) wb recipe purpose step xs

/-- amax / M rounded towards +infinity to FP32; 1.0 when amax is 0 (R257). -/
def slotScale (am : Nat) (ae : Int) (f : Fmt) : W32 :=
  if am = 0 then 0x3F800000#32
  else
    let (mm, me) := largest f
    let (q, x) := quotient am ae mm me
    let top := x + bitLen q
    let g := max fp32.qmin (top - 24)
    let (fl, r, _) := toGrid q x g
    BitVec.ofNat 32 ((g - fp32.qmin).toNat * 2 ^ 23 + (if r = 0 then fl else fl + 1))

/-- Groups of 128 values of an 8-bit slot: the scales, and the quotients to convert (R257). -/
def slotGroups (f : Fmt) : Nat → List Num → List W32 × List Num
  | 0, _ => ([], [])
  | n + 1, xs =>
    let g := xs.take 128
    let (am, ae) := groupMax g
    let sc := slotScale am ae f
    let (scs, qs) := slotGroups f n (xs.drop 128)
    (sc :: scs, g.map (fun x => divScale x (f32 sc)) ++ qs)

end Sys2Proof.Machine
end

