-- ==== Sys2Proof/Machine/UeBlocks.lean ====
section
/-!
DEFINITION. Machine/UeBlocks.lean: update blocks as transactions: staging, the commit order, torn blocks and their
acceptance, and the resets of the Update Engine (R244, R247, R254, R259 to R268, R279 to R281).
-/
namespace Sys2Proof.Machine

open Sys2Proof

def State.upt (s : State) (t : Nat) : UeState := smGet UeState.init s.upd t
def State.setUpt (s : State) (t : Nat) (x : UeState) : State := { s with upd := smSet UeState.init s.upd t x }

def kUe (t o : Nat) : Nat := tileBase t + 0x110000 + o
def kTorn (t i : Nat) : Nat := kUe t (0x80 + 8 * i)

def UeState.slot (u : UeState) (i : Nat) : Option UeSlot := (u.slots.find? (·.1 = i)).map (·.2)
def UeState.setSlot (u : UeState) (i : Nat) (x : UeSlot) : UeState :=
  { u with slots := smPut u.slots i x }
def UeState.free (u : UeState) (i : Nat) : UeState := { u with slots := smDel u.slots i }

/-- Tag fields (R245). -/
def tagWord (step state lag recipe : Nat) : Nat := step % 2 ^ 16 + state * 2 ^ 16 + lag * 2 ^ 18 + recipe * 2 ^ 19
def tagStep (w : Nat) : Nat := fld w 0 16
def tagState (w : Nat) : Nat := fld w 16 2
def tagLag (w : Nat) : Nat := fld w 18 1
def tagRecipe (w : Nat) : Nat := fld w 19 5

/-- An address range wholly in the module's HBM. -/
def inHbm (a n : Nat) : Bool := regionOf a = .hbm && regionOf (a + max n 1 - 1) = .hbm

/-- A base names this module (R247): its local address. -/
def State.ownLocal (s : State) (g : Nat) : Option Nat :=
  let node := fld g 44 20
  if node = 0xFFFFF || node = s.node then some (g % 2 ^ 44) else none

/-- An UPDATE that has issued (R247, R254): a job, or a refusal. -/
def State.updateIssue (s : State) (t idx recipe count p g : Nat) : State :=
  let bad := (s.orBits (kUe t 0x20) 1).partDone t idx (some false)
  match s.ownLocal p, s.ownLocal g with
  | some p, some g =>
    if recipe < 32 && s.recValid recipe && !s.recRow recipe && p % 64 = 0 && g % 64 = 0 &&
        inHbm p (count * s.recBytes recipe) && inHbm g (count * 4096) then
      if count = 0 then s.partDone t idx none
      else s.setUpt t { s.upt t with jobs := (s.upt t).jobs ++ [⟨idx, recipe, p, g, count, 0, false⟩] }
    else bad
  | _, _ => bad

/-- End the jobs that have no block left to stage and none in flight. -/
def State.ueJobs (s : State) (t : Nat) : List UeJob → State
  | [] => s
  | j :: js =>
    let u := s.upt t
    let s :=
      if j.next ≥ j.count && !u.slots.any (fun e => e.2.idx = j.idx && e.2.phase ≠ .torn) then
        (s.setUpt t { u with jobs := u.jobs.filter fun x => x.idx ≠ j.idx }).partDone t j.idx
          (if j.bad then some false else none)
      else s
    s.ueJobs t js

def State.ueAdvance (s : State) (t : Nat) : State := s.ueJobs t (s.upt t).jobs

/-- Stop a job: no further block is staged. -/
def State.stopJob (s : State) (t idx : Nat) : State :=
  let u := s.upt t
  s.setUpt t { u with jobs := u.jobs.map fun j => if j.idx = idx then { j with next := j.count } else j }

/-- An error of a job faults the step and stops it. -/
def State.jobError (s : State) (t idx : Nat) (ue : Bool) : State :=
  ((s.stopJob t idx).mapFlight t idx fun i => { i with err := orErr i.err (some ue) }).fault t (causeOf ue)

/-- BLOCK_STAGE_START (R260, R264). -/
def execBlockStageStart (t : TileId) (s : State) : Host.Outcome State Fault Refusal :=
  .next <|
    let u := s.upt t
    match u.jobs.find? fun j => j.next < j.count with
    | none => s
    | some j =>
      if !s.fabOn t || s.fencedTile t || s.seq.mode ≠ .running then s
      else if (u.slots.filter fun e => e.2.phase = .torn).length = 16 then
        ((s.orBits (kUe t 0x20) 8).jobError t j.idx false).ueAdvance t
      else match (List.range 16).find? fun i => (u.slot i).isNone with
        | none => s
        | some i =>
          let x : UeSlot :=
            { idx := j.idx, recipe := j.recipe, record := j.params + j.next * s.recBytes j.recipe,
              grad := j.grads + j.next * 4096, phase := .reading, tag := 0, writes := [], slotWrites := [], undo := [], old := [],
              retried := false, reg := 0, step := s.step % 2 ^ 16, noUndo := false }
          let u := u.setSlot i x
          s.setUpt t { u with jobs := u.jobs.map fun k => if k.idx = j.idx then { k with next := k.next + 1 } else k }

/-- n little-endian numbers of w bytes. -/
def nums : Nat → Nat → List Byte → List Nat
  | 0, _, _ => []
  | n + 1, w, bs => leAt bs 0 w :: nums n w (bs.drop w)

/-- The decoded elements of a slot (R246). -/
def slotIn (f : Fmt) (bf : Bool) (bs : List Byte) : List Num :=
  if bf then (nums 2048 2 bs).map fun c => (decodeCode bf16 c).1
  else
    let sc := (nums 16 4 bs).map fun c => f32 (BitVec.ofNat 32 c)
    (withIdx (nums 2048 1 (bs.drop 64)) 0).map fun e => (decodeCode f e.2).1.mul (sc.getD (e.1 / 128) .nan)

/-- Inputs of a dense block from its record and gradients. -/
def State.blockIn (s : State) (n : Nat) (rec gr : List Byte) : UeIn :=
  { grad := (nums 2048 2 gr).map fun c => (decodeCode (fmtOf (paletteReset (s.recGradFmt n))) c).1,
    weight := (nums 2048 2 (rec.drop 64)).map fun c => (decodeCode bf16 c).1,
    slots := (List.range (s.recSlots n)).map fun k =>
      slotIn (s.fmt (s.recSlotFmt n k)) (s.recSlotFmt n k = 1) (rec.drop (s.slotOff n k)),
    acc := 0 }

/-- Writes of state slot k: a BF16 slot in one, an 8-bit slot its scales and then its codes (R246, R256, R257, R261). -/
def State.slotOut (s : State) (n record k : Nat) (vals : List W32) : List (Nat × List Byte) × NFlags :=
  let off := s.slotOff n k
  let fm := s.recSlotFmt n k
  let xs := vals.map f32
  if fm = 1 then
    let r := s.roundRun bf16 (record + off) 2 n 1 s.step xs
    ([(off, r.flatMap fun e => leBytes 2 e.1)], r.foldl (fun f e => f ||| e.2) 0)
  else
    let f := s.fmt fm
    let (scs, qs) := slotGroups f 16 xs
    let r := s.roundRun f (record + off + 64) 1 n 2 s.step qs
    ([(off, scs.flatMap fun c => leBytes 4 c.toNat), (off + 64, r.map fun e => BitVec.ofNat 8 e.1)],
     r.foldl (fun f e => f ||| e.2) 0)

def State.slotOuts (s : State) (n record : Nat) (o : UeOut) : List Nat → List (Nat × List Byte) × NFlags
  | [] => ([], 0)
  | k :: ks =>
    let (a, f) := s.slotOut n record k (smGet [] o.slots k)
    let (b, g) := s.slotOuts n record o ks
    (a ++ b, f ||| g)

/-- A block or row with a value that is not finite stores nothing (R259). -/
def State.nonfiniteNums (s : State) (t addr : Nat) (vals : List Num) : State :=
  let nan : Bool := vals.any Num.isNan
  let inf : Bool := vals.any fun x => match x with | .inf _ => true | _ => false
  ((s.ueFlags t (flagIf nan fInv ||| flagIf inf fOvf)).bump (kUe t 0x38) 1).raise 0x0605 1 t addr

def State.nonfinite (s : State) (t addr : Nat) (vals : List W32) : State := s.nonfiniteNums t addr (vals.map f32)

/-- Bytes of staging slot i of tile t in Studio SRAM, 32 KiB where UE_STAGE_BASE places them (R278, log 36). -/
def State.stagePut (s : State) (t i off : Nat) (bs : List Byte) : State :=
  let b := s.rdf (kUe t 0x10) 0 44
  if regionOf b = .studio && tileOf b = t && regionOf (b + 0x7FFFF) = .studio && tileOf (b + 0x7FFFF) = t then
    s.poke (b + 0x8000 * i + off) (bs.take (0x8000 - off))
  else s

/-- The block becomes TORN (R266). -/
def State.tear (s : State) (t i : Nat) (x : UeSlot) (noUndo tagOk : Bool) : State :=
  let s := if tagOk then
      (s.memWriteBare x.record (leBytes 8 (tagWord (tagStep x.tag) 3 (tagLag x.tag) (tagRecipe x.tag)))).2
    else s
  let reg := ((List.range 16).find? fun k => !bit (s.rd (kTorn t k)) 63).getD 0
  let s := s.wr (kTorn t reg) (2 ^ 63 + b2n noUndo * 2 ^ 61 + x.step * 2 ^ 44 + x.record)
  let s := s.setUpt t ((s.upt t).setSlot i { x with phase := .torn, writes := [], reg := reg, noUndo := noUndo })
  let s := (s.bump (kUe t 0x48) 1).raise 0x0603 1 t x.record
  s.fault t .torn

/-- BLOCK_STAGED: the tag is checked, the recipe runs, and the commit's writes are ready (R260, R261, R265). -/
def execBlockStaged (t : TileId) (slot : Fin 16) (s : State) : Host.Outcome State Fault Refusal :=
  .next <|
    match (s.upt t).slot slot with
    | none => s
    | some x =>
      if !s.fabOn t || x.phase ≠ .reading then s
      else
        let drop := fun (s : State) => s.setUpt t ((s.upt t).free slot)
        let n := x.recipe
        match s.memRead x.record (s.recBytes n) with
        | (.ok, rec, s) =>
          match s.memRead x.grad 4096 with
          | (.ok, gr, s) =>
            let tag := leAt rec 0 8
            let x := { x with tag := tag, undo := slice rec 64 4096, old := rec }
            let s := ((s.stagePut t slot 0 rec).stagePut t slot 0x5000 x.undo).stagePut t slot 0x6000 gr
            if tagState tag = 2 then
              let s := if s.isIdle then s else s.noteTwo .torn .descError
              (((s.orBits (kUe t 0x20) 2).tear t slot { x with undo := [] } true true).jobError t x.idx false).ueAdvance t
            else if tagState tag = 3 then (((drop s).orBits (kUe t 0x20) 2).jobError t x.idx false).ueAdvance t
            else if tagState tag = 1 && tagRecipe tag ≠ n then
              (((drop s).orBits (kUe t 0x20) 4).jobError t x.idx false).ueAdvance t
            else if tagState tag = 1 && tagStep tag = s.step % 2 ^ 16 && bit (s.rd (wideKey 0x110000)) 0 then
              ((drop s).bump (kUe t 0x40) 1).ueAdvance t
            else
              let (o, f) := s.runRecipe n 2048 (s.blockIn n rec gr)
              let ws := o.weight.getD []
              let vals := ws ++ o.slots.flatMap (·.2)
              let s := s.ueFlags t f
              if !vals.all finite32 then
                let s := (drop s).nonfinite t x.record vals
                let u := s.upt t
                let bad := bit (s.rd (wideKey 0x110000)) 1
                (s.setUpt t { u with jobs := u.jobs.map fun j => if j.idx = x.idx then { j with bad := j.bad || bad } else j }).ueAdvance t
              else
                let (sw, g) := s.slotOuts n x.record o (List.range (s.recSlots n))
                let r := s.roundRun bf16 (x.record + 64) 2 n 1 s.step (ws.map f32)
                let s := s.ueFlags t (r.foldl (fun f e => f ||| e.2) g)
                let commit := tagWord (tagStep tag) 2 (tagLag tag) (tagRecipe tag)
                let writes := (0, leBytes 8 commit) :: sw ++ [(64, r.flatMap fun e => leBytes 2 e.1),
                  (0, leBytes 8 (tagWord s.step 1 0 n) ++ List.replicate 56 0)]
                let s := sw.foldl (fun s w => s.stagePut t slot w.1 w.2) s
                s.setUpt t ((s.upt t).setSlot slot
                  { x with phase := .committing, writes := writes, slotWrites := sw, step := s.step % 2 ^ 16 })
          | (code, _, s) => (((drop s).jobError t x.idx (code = .ue))).ueAdvance t
        | (code, _, s) => (((drop s).jobError t x.idx (code = .ue))).ueAdvance t

/-- The next write of a commit succeeds or fails (R261, R266). -/
def State.commitWrite (s : State) (t i : Nat) (x : UeSlot) (err tagOk : Bool) : State :=
  match x.writes with
  | [] => s
  | (off, bs) :: rest =>
    match (if err then (Code.denied, s) else s.memWriteBare (x.record + off) bs) with
    | (.ok, s) =>
      if rest = [] then
        (((s.parityCatchUp x.record x.old).setUpt t ((s.upt t).free i)).bump (kUe t 0x28) 1).ueAdvance t
      else s.setUpt t ((s.upt t).setSlot i { x with writes := rest, retried := false })
    | (_, s) =>
      if x.retried then (s.tear t i x x.noUndo tagOk).ueAdvance t
      else s.setUpt t ((s.upt t).setSlot i { x with retried := true })

/-- The commit write due is a state slot or the weights: orders 2 and 3 of R261 read staged data (R266). -/
def UeSlot.dataDue (x : UeSlot) : Bool := x.writes.length > 1 && x.writes.length < x.slotWrites.length + 3

/-- BLOCK_COMMIT_WRITE_DONE. tagOk: the write of the TORN tag succeeds, where one is tried. -/
def execBlockCommitWriteDone (t : TileId) (slot : Fin 16) (res : CommitResult) (tagOk : Bool) (s : State) :
    Host.Outcome State Fault Refusal :=
  .next <|
    match (s.upt t).slot slot with
    | none => s
    | some x =>
      if !s.fabOn t || x.phase ≠ .committing then s
      else match res with
        | .done => s.commitWrite t slot x false tagOk
        | .error => s.commitWrite t slot x true tagOk
        | .stagedUe lost => if x.dataDue then (s.tear t slot x lost tagOk).ueAdvance t else s

/-- Finish a block that has begun its commit (R262). -/
def State.finishBlock (s : State) (t i : Nat) : Nat → State
  | 0 => s
  | n + 1 =>
    match (s.upt t).slot i with
    | some x => if x.phase = .committing then (s.commitWrite t i x false true).finishBlock t i n else s
    | none => s

/-- Blocks in commit complete, staged blocks are discarded, and no block is staged any more (R262). -/
def State.ueStop (s : State) (t : Nat) : State :=
  let s := ((s.upt t).slots.map (·.1)).foldl (fun s i => s.finishBlock t i 32) s
  s.setUpt t { jobs := [], slots := (s.upt t).slots.filter fun e => e.2.phase = .torn }

/-- Release the torn slots whose records meet n bytes at a (R267, R272). An import brings parity up to the torn record
first, so that the deltas of its own writes describe what it stores (DEDUCED, log 76). -/
def State.releaseSlots (s : State) (t a n : Nat) (catchUp : Bool) : List (Nat × UeSlot) → State
  | [] => s
  | (i, x) :: l =>
    let s :=
      if x.phase = .torn && x.record < a + n && a < x.record + max 1 x.old.length then
        let s := if catchUp then s.parityCatchUp x.record x.old else s
        (s.wr (kTorn t x.reg) 0).setUpt t ((s.upt t).free i)
      else s
    s.releaseSlots t a n catchUp l

def State.releaseTorn (s : State) (a n : Nat) (catchUp : Bool) : State :=
  s.eachTile fun s t => s.releaseSlots t a n catchUp (s.upt t).slots

/-- Offsets of the per-tile registers of R277. -/
def ueTileReg (o : Nat) : Bool := (0x110010 ≤ o && o < 0x110024) || (0x110028 ≤ o && o < 0x110100)

/-- RESET_TILE (R280). -/
def State.ueResetTile (s : State) (t : Nat) : State :=
  ((s.ueStop t).setUpt t UeState.init).resetRegs fun k =>
    tileBase t ≤ k && k < tileBase t + 0x200000 && ueTileReg (k - tileBase t)

/-- Power-on and RESET_MODULE (R279). -/
def State.ueReset (s : State) : State :=
  { s with upd := [] }.resetRegs fun k => 0x200000 ≤ k && k < 0xA00000 && 0x110000 ≤ k % 0x200000 && k % 0x200000 < 0x115000

/-- ACCEPT_TORN on one torn block (R268): the writes, and whether they succeeded. -/
def State.acceptWrites (s : State) (x : UeSlot) : List (Nat × List Byte) → Bool × State
  | [] => (true, s)
  | (off, bs) :: r =>
    match s.memWriteBare (x.record + off) bs with
    | (.ok, s) => s.acceptWrites x r
    | (_, s) => (false, s)

def State.acceptTorn (s : State) (t i : Nat) (x : UeSlot) : Bool × State :=
  if x.noUndo then (false, s)
  else match s.acceptWrites x (x.slotWrites ++ [(64, x.undo), (0, leBytes 8 (tagWord x.step 1 1 x.recipe))]) with
    | (true, s) => (true, ((s.parityCatchUp x.record x.old).wr (kTorn t x.reg) 0).setUpt t ((s.upt t).free i))
    | e => e

end Sys2Proof.Machine
end

