-- ==== Sys2Proof/Machine/Rows.lean ====
section
/-!
DEFINITION. Machine/Rows.lean: embedding rows: the table descriptors (R283), ownership (R287 to R289), the row layouts
(R141 to R143, R284) and a row read through the Update Journal (R352, R353).
-/
namespace Sys2Proof.Machine

open Sys2Proof

/-- EMB register at an offset of the tile's 0x10_0000 block, and counter k of R325. -/
def kEmb (t o : Nat) : Nat := tileBase t + 0x100000 + o
def kEmbCount (t k : Nat) : Nat := kEmb t (0x50 + 8 * k)

/-! ## Table descriptors -/

/-- The descriptor of a table (R282); zeros where none was defined. -/
def State.table (s : State) (n : Nat) : List Byte := smGet [] s.embm.tables n

def tbValid (d : List Byte) : Bool := bit (leAt d 0 2) 0
def tbKeying (d : List Byte) : Bool := bit (leAt d 0 2) 1
def tbFresh (d : List Byte) : Bool := bit (leAt d 0 2) 2
def tbHot (d : List Byte) : Bool := bit (leAt d 0 2) 3
def tbFmt (d : List Byte) : Nat := leAt d 2 1
def tbRecipe (d : List Byte) : Nat := leAt d 3 1
def tbDim (d : List Byte) : Nat := leAt d 4 2
def tbRowBytes (d : List Byte) : Nat := leAt d 6 2
def tbRows (d : List Byte) : Nat := leAt d 8 8
def tbBase (d : List Byte) : Nat := leAt d 16 8
def tbHashA (d : List Byte) : Nat := leAt d 24 8
def tbHashB (d : List Byte) : Nat := leAt d 32 8
def tbOwnMul (d : List Byte) : Nat := leAt d 40 8

def State.tableOk (s : State) (n : Nat) : Bool := n < 4096 && tbValid (s.table n)

/-- Axis length k (b, t, p, s) of the current layout, and M (R288). -/
def State.axis (s : State) (k : Nat) : Nat := s.rdf kLayout (8 * k) 6
def State.modules (s : State) : Nat := s.axis 0 * s.axis 1 * s.axis 2 * s.axis 3

/-- Rank of a node field, and the node field of a rank (R288). -/
def State.rankOf (s : State) (node : Nat) : Nat :=
  ((fld node 15 5 * s.axis 1 + fld node 10 5) * s.axis 2 + fld node 5 5) * s.axis 3 + fld node 0 5
def State.nodeOf (s : State) (o : Nat) : Nat :=
  let q := o / s.axis 3
  let u := q / s.axis 2
  o % s.axis 3 + q % s.axis 2 * 2 ^ 5 + u % s.axis 1 * 2 ^ 10 + u / s.axis 1 * 2 ^ 15
def State.rank (s : State) : Nat := s.rankOf s.node

/-- The row of a key; none when it is out of range (R287). -/
def rowOfKey (d : List Byte) (x : Nat) : Option Nat :=
  if tbKeying d then (if x < tbRows d then some x else none)
  else some ((tbHashA d * x + tbHashB d) % 2 ^ 64 * tbRows d / 2 ^ 64)

/-- Owner rank, slot and home address of a row (R288). -/
def State.locate (s : State) (d : List Byte) (r : Nat) : Nat × Nat × Nat :=
  let u := r * tbOwnMul d % tbRows d
  (u % s.modules, u / s.modules, tbBase d + u / s.modules * tbRowBytes d)

def State.owner (s : State) (d : List Byte) (r : Nat) : Nat := (s.locate d r).1
/-- The serving tile (R289). -/
def State.serving (s : State) (d : List Byte) (r : Nat) : Nat := (s.locate d r).2.1 % 4
def State.home (s : State) (d : List Byte) (r : Nat) : Nat := (s.locate d r).2.2

/-! ## Row layouts -/

/-- Bytes of a row of d elements in the layout of R284, and in G8 (R141). -/
def rowBytes16 (d : Nat) : Nat := (2 * d + 4 + 63) / 64 * 64
def rowBytes8 (d : Nat) : Nat := (d + 4 + 63) / 64 * 64

/-- The accumulator and the elements of a stored row, exactly (R141, R143, R284). -/
def decodeRow (g8 : Bool) (d : Nat) (bs : List Byte) : Num × List Num :=
  if g8 then
    let sc := (decodeCode bf16 (leAt bs 0 2)).1
    ((decodeCode bf16 (leAt bs 2 2)).1, (slice bs 4 d).map fun c => sc.mul (decodeCode e4m3 c.toNat).1)
  else ((decodeCode bf16 (leAt bs 0 2)).1, (nums d 2 (slice bs 4 (2 * d))).map fun c => (decodeCode bf16 c).1)

/-- Convert consecutive elements, the code for offset off with the random bits sr off gives. -/
def convRun (f : Fmt) (sr : Nat → Option Nat) (wb : Nat) : Nat → List Num → List (Nat × NFlags)
  | _, [] => []
  | off, x :: xs => convert f (sr off) x :: convRun f sr wb (off + wb) xs

/-- A row in the layout of R284 or G16: its bytes, padded to n, and the flags. -/
def encodeRow16 (n : Nat) (sr : Nat → Option Nat) (acc : Num) (el : List Num) : List Byte × NFlags :=
  let a := convert bf16 (sr 0) acc
  let e := convRun bf16 sr 2 4 el
  (slice (leBytes 2 a.1 ++ [0, 0] ++ e.flatMap fun x => leBytes 2 x.1) 0 n, e.foldl (fun f x => f ||| x.2) a.2)

/-- The G8 row scale: amax / 448 rounded up to BF16; 1.0 when amax is 0 (R142). -/
def g8Scale (el : List Num) : Nat :=
  let (am, ae) := groupMax el
  if am = 0 then 0x3F80
  else
    let (q, x) := quotient am ae 448 0
    let g := max bf16.qmin (x + bitLen q - 8)
    let (fl, r, _) := toGrid q x g
    (g - bf16.qmin).toNat * 2 ^ 7 + (if r = 0 then fl else fl + 1)

/-- A G8 row (R141, R142). -/
def encodeRow8 (n : Nat) (sr : Nat → Option Nat) (acc : Num) (el : List Num) : List Byte × NFlags :=
  let sc := g8Scale el
  let a := convert bf16 (sr 2) acc
  let sv := (decodeCode bf16 sc).1
  let e := convRun e4m3 sr 1 4 (el.map fun x => divScale x sv)
  (slice (leBytes 2 sc ++ leBytes 2 a.1 ++ e.map fun x => BitVec.ofNat 8 x.1) 0 n, e.foldl (fun f x => f ||| x.2) a.2)

/-- Addition in W precision (R151): finite sums are rounded to a 64-bit significand, a zero sum is +0. -/
def wPlus : Num → Num → Num
  | .fin a m e, .fin b n g => (wAdd ⟨a, m, e⟩ b n g).1.num
  | x, y => x.add y

def wPlusAll : List Num → List Num → List Num
  | x :: xs, y :: ys => wPlus x y :: wPlusAll xs ys
  | _, _ => []

/-- A W value divided by a count and rounded once to W precision (R297, R312). -/
def wDiv (x : Num) (n : Nat) : Num :=
  match x with
  | .fin a m e =>
    if m = 0 || n = 0 then .fin false 0 0
    else let (q, g) := quotient m e n 0; (wAdd wZero a q g).1.num
  | y => y

/-- Elements rounded once to BF16 under R130, with the flags of R297: a NaN sets INVALID. -/
def toCodes (f : Fmt) (xs : List Num) : List Nat × NFlags :=
  let e := xs.map fun x => let (c, g) := convert f none x; (c, g ||| flagIf x.isNan fInv)
  (e.map (·.1), e.foldl (fun f x => f ||| x.2) 0)

/-! ## Reads through the journal -/

/-- The live sealed segments whose bank holds the row's bit, in ascending step order (R344). -/
def State.maybeIn (s : State) (t table r : Nat) : List Segment :=
  (s.grn t).sealedSegs.filter fun g => s.filterHit t g.area table r

/-- Probe one segment and add the deltas found (R353). -/
def State.freshOne (s : State) (t table r : Nat) (acc : Num) (el : List Num) (g : Segment) : Num × List Num × State :=
  match s.probe t g.area table r with
  | .found e o =>
    let (da, de) := s.entryAt e
    (match da with | some x => wPlus acc (f32 x) | none => acc, wPlusAll el (de.map f32),
      ((s.bump (kGrnCount t 1) 1).bump (kGrnCount t 2) 1).bump (kGrnCount t 7) o)
  | .room _ o => (acc, el, (s.bump (kGrnCount t 1) 1).bump (kGrnCount t 7) o)
  | .full => (acc, el, (s.bump (kGrnCount t 1) 1).bump (kGrnCount t 7) (s.jnlBuckets t - 1))

/-- The segments in order. -/
def State.freshGo (s : State) (t table r : Nat) (acc : Num) (el : List Num) : List Segment → Num × List Num × State
  | [] => (acc, el, s)
  | g :: gs =>
    let x := s.freshOne t table r acc el g
    x.2.2.freshGo t table r x.1 x.2.1 gs

/-- A row whose home bytes have been read, as the reader sees it: under BOUNDED its bytes, the stale read counted
(R352); under FRESH, and for a refresh of the Commons, with its pending deltas, in the layout of R284 (R309, R353). -/
def State.present (s : State) (t table r : Nat) (fresh : Bool) (bs : List Byte) : Bool × List Byte × State :=
  let d := s.table table
  let g8 : Bool := tbFmt d = 1
  if tbFmt d = 0 then (false, bs, s)
  else if fresh then
    let (a, e) := decodeRow g8 (tbDim d) bs
    let (a, e, s) := s.freshGo t table r a e (s.maybeIn t table r)
    let (out, f) := encodeRow16 (rowBytes16 (tbDim d)) (fun _ => none) a e
    (false, out, s.orBits (kEmb t 0x44) (f.toNat % 16))
  else (g8, bs, if s.maybeIn t table r = [] then s else s.bump (kGrnCount t 0) 1)

/-- Where step s reads a Granary row: staging half (s mod 2), else its home (R300, R354). -/
def State.rowSource (s : State) (t table r : Nat) : Nat × Bool :=
  let d := s.table table
  if tbFmt d = 0 then (s.home d r, false)
  else match s.stageFind t (s.step % 2) table r with
    | some (.inl a) => (a, true)
    | _ => (s.home d r, false)

/-! ## The Poison List (R316 to R320) -/

def kPoison (t i : Nat) : Nat := kEmb t (0x200 + 8 * i)

/-- The list entry of a row: the [51:0] part with VALID. -/
def poisonWord (table r : Nat) : Nat := 2 ^ 63 + table % 4096 * 2 ^ 40 + r % 2 ^ 40

/-- Entries held in the Poison List of tile t: index and word. -/
def State.poisonList (s : State) (t : Nat) : List (Nat × Nat) :=
  (s.csr.filter fun e => kPoison t 0 ≤ e.1 && e.1 < kPoison t 1024).map fun e => ((e.1 - kPoison t 0) / 8, e.2.toNat)

def State.isPoisoned (s : State) (table r : Nat) : Bool :=
  (List.range 4).any fun t => (s.poisonList t).any fun e => setFld e.2 52 1 0 = poisonWord table r

/-- Enter a row (R316, R319): its events are recorded by the caller's read. -/
def State.poison (s : State) (t table r cause : Nat) : State :=
  if s.isPoisoned table r then s
  else match (List.range 1024).find? fun i => !bit (s.rd (kPoison t i)) 63 with
    | some i => (s.wr (kPoison t i) (poisonWord table r + cause * 2 ^ 52)).raise 0x0408 1 t (table % 4096 * 2 ^ 40 + r)
    | none => (s.orBits (kEmb t 0x40) 8).fault t .memUe

/-- The retried read of a row at src has failed (R316): its home address goes into the record, and a staged copy's own
address is accounted for beside it (R337). -/
def State.rowFailed (s : State) (t table r src : Nat) : State :=
  let home := s.home (s.table table) r
  let s := (s.bump (kEmbCount t 12) 1).noteUe src
  (if src = home then s else s.raise 0x0405 1 t home).poison t table r 0

/-- Read a row for the Embedding Engine. Parity reconstructs no embedding row as it is served (R458). -/
def State.rowRead (s : State) (t table r src : Nat) : Code × List Byte × State :=
  let n := tbRowBytes (s.table table)
  match s.accessCode src n with
  | .ok => if (s.ueAt src n).isSome then (.ue, [], s.rowFailed t table r src) else (.ok, s.bytes src n, s)
  | c => (c, [], s)

/-- Remove the rows of the Poison Lists that satisfy p (table, row). -/
def State.unpoison (s : State) (p : Nat → Nat → Bool) : State :=
  s.eachTile fun s t => (s.poisonList t).foldl (fun s e =>
    if p (fld e.2 40 12) (fld e.2 0 40) then s.wr (kPoison t e.1) 0 else s) s

end Sys2Proof.Machine
end

