-- ==== Sys2Proof/Machine/HotRow.lean ====
section
/-!
DEFINITION. Machine/HotRow.lean: the Hot-Row Directory, the Commons, heat and change lists (R301 to R310).
-/
namespace Sys2Proof.Machine

open Sys2Proof

/-! ## The directory -/

def kDirGen : Nat := wideKey 0x10000C
def State.dirGen (s : State) : Nat := s.rdf kDirGen 0 16
def State.dirEntry (s : State) (e : Nat) : Nat := smGet 0 s.embm.dir e

/-- The set of quad q of a table (R301). -/
def hotSet (table q : Nat) : Nat := (q * 0x9E3779B1 + table) % 2 ^ 32 / 2 ^ 18

/-- A directory word without its PRESENT bits. -/
def dirKey (table q : Nat) : Nat := table % 4096 * 16 + q % 2 ^ 38 * 2 ^ 16

/-- The entry that covers the quad of a row. -/
def State.quadEntry (s : State) (table r : Nat) : Option Nat :=
  ((List.range 4).map fun w => hotSet table (r / 4) * 4 + w).find? fun e =>
    decide (s.dirEntry e ≠ 0) && setFld (s.dirEntry e) 0 4 0 = dirKey table (r / 4)

/-- The entry of a row that is hot. -/
def State.hotFind (s : State) (table r : Nat) : Option Nat :=
  match s.quadEntry table r with
  | some e => if bit (s.dirEntry e) (r % 4) then some e else none
  | none => none

def State.isHot (s : State) (table r : Nat) : Bool := (s.hotFind table r).isSome

/-- Every hot row: table and row. -/
def State.hotRows (s : State) : List (Nat × Nat) :=
  s.embm.dir.flatMap fun e => ((List.range 4).filter fun i => bit e.2 i).map fun i => (fld e.2 4 12, 4 * fld e.2 16 38 + i)

def State.setDir (s : State) (e v : Nat) : State := { s with embm := { s.embm with dir := smSet 0 s.embm.dir e v } }

/-- Advance the directory generation (R303). -/
def State.nextDirGen (s : State) : State := s.wr kDirGen ((s.dirGen + 1) % 2 ^ 16)

/-- A counter of every tile. -/
def State.bumpTiles (s : State) (k : Nat) : State := s.eachTile fun s t => s.bump (kEmbCount t k) 1

/-- Remove a row; an entry whose PRESENT becomes 0 is freed (R308). -/
def State.coolRow (s : State) (table r : Nat) : Bool × State :=
  match s.hotFind table r with
  | none => (false, s)
  | some e =>
    let v := setFld (s.dirEntry e) (r % 4) 1 0
    (true, s.setDir e (if fld v 0 4 = 0 then 0 else v))

def State.coolAll (s : State) : List (Nat × Nat) → Bool × State
  | [] => (false, s)
  | (t, r) :: l =>
    let (c, s) := s.coolRow t r
    let s := if c then s.bumpTiles 9 else s
    let (c', s) := s.coolAll l
    (c || c', s)

/-- Add a row, or refuse it when its quad has no entry and its set no free way (R308). -/
def State.heatRow (s : State) (table r : Nat) : Bool × State :=
  if s.isHot table r then (false, s)
  else
    let put := fun (e : Nat) =>
      let v := Nat.lor (s.dirEntry e) (2 ^ (r % 4))
      (true, (s.setDir e (Nat.lor v (dirKey table (r / 4)))).bumpTiles 8)
    match s.quadEntry table r with
    | some e => put e
    | none =>
      match ((List.range 4).map fun w => hotSet table (r / 4) * 4 + w).find? fun e => s.dirEntry e = 0 with
      | some e => put e
      | none => (false, s.bumpTiles 10)

def State.heatAll (s : State) : List (Nat × Nat) → Bool × State
  | [] => (false, s)
  | (t, r) :: l =>
    let (c, s) := s.heatRow t r
    let (c', s) := s.heatAll l
    (c || c', s)

/-- Empty the directory; the generation advances when any entry was present (R310, R321). -/
def State.emptyDir (s : State) : State :=
  if s.embm.dir = [] then s else ({ s with embm := { s.embm with dir := [] } }).nextDirGen

/-- Remove a table's rows (R286). -/
def State.dirDrop (s : State) (table : Nat) : State :=
  let dir := s.embm.dir.filter fun e => fld e.2 4 12 ≠ table
  if dir = s.embm.dir then s else ({ s with embm := { s.embm with dir := dir } }).nextDirGen

/-! ## The Commons (R302, R309) -/

/-- Local address of a row's slot in tile t's Commons. -/
def State.commonsSlot (s : State) (t e i : Nat) : Nat :=
  s.rdf (kEmb t 0x10) 0 44 + (4 * e + i) * s.rdf (wideKey 0x100018) 0 11

/-- Write a hot row into all four Commons. -/
def State.commonsWrite (s : State) (table r : Nat) (bs : List Byte) : State :=
  match s.hotFind table r with
  | none => s
  | some e => s.eachTile fun s t => (s.memWrite true (s.commonsSlot t e (r % 4)) bs).2

/-- Read a hot row from a tile's Commons. -/
def State.commonsRead (s : State) (t e table r : Nat) : Code × List Byte × State :=
  s.memRead (s.commonsSlot t e (r % 4)) (rowBytes16 (tbDim (s.table table)))

/-! ## Heat (R304 to R307) -/

def heatConst : Nat → Nat
  | 0 => 0x9E3779B1 | 1 => 0x85EBCA77 | 2 => 0xC2B2AE3D | _ => 0x27D4EB2F

/-- Key of a row's counter in sketch row j (R304). -/
def sketchKey (table r j : Nat) : Nat := 4096 * j + (r * heatConst j + table) % 2 ^ 32 / 2 ^ 20

def EmbState.estimate (x : EmbState) (table r : Nat) : Nat :=
  min (min (smGet 0 x.sketch (sketchKey table r 0)) (smGet 0 x.sketch (sketchKey table r 1)))
    (min (smGet 0 x.sketch (sketchKey table r 2)) (smGet 0 x.sketch (sketchKey table r 3)))

def sketchAdd (table r : Nat) : List Nat → SMap Nat → SMap Nat
  | [], m => m
  | j :: js, m => let k := sketchKey table r j; sketchAdd table r js (smSet 0 m k (satAdd 16 (smGet 0 m k) 1))

/-- The smallest estimate of a list, and the first entry that has it. -/
def coldest : List (Nat × Nat × Nat) → Option (Nat × Nat × Nat)
  | [] => none
  | x :: xs => match coldest xs with
    | none => some x
    | some y => if x.2.2 ≤ y.2.2 then some x else some y

/-- A contribution for a row arrives at its serving tile (R304, R305). Among equal smallest estimates the oldest
candidate is replaced (DESIGN CHOICE, log 38). -/
def EmbState.heat (x : EmbState) (hot : Bool) (table r : Nat) : EmbState :=
  let x := { x with sketch := sketchAdd table r [0, 1, 2, 3] x.sketch }
  let est := x.estimate table r
  if hot then
    if x.exact.any (fun e => e.1 = table && e.2.1 = r) then
      { x with exact := x.exact.map fun e => if e.1 = table && e.2.1 = r then (table, r, e.2.2 + 1) else e }
    else { x with exact := x.exact ++ [(table, r, 1)] }
  else if x.cand.any (fun e => e.1 = table && e.2.1 = r) then
    { x with cand := x.cand.map fun e => if e.1 = table && e.2.1 = r then (table, r, est) else e }
  else if x.cand.length < 256 then { x with cand := x.cand ++ [(table, r, est)] }
  else match coldest x.cand with
    | some c => if est > c.2.2 then { x with cand := (x.cand.erase c) ++ [(table, r, est)] } else x
    | none => x

/-- Clear heat: sketches, candidate lists and exact counts (R306). -/
def State.clearHeat (s : State) : State :=
  s.eachTile fun s t => s.setEmbt t { s.embt t with sketch := [], cand := [], exact := [] }

/-- A new first window begins now, or at the next RUN_STEPS (R306). -/
def State.newWindow (s : State) (w : Option Nat) : State := { s.clearHeat with embm := { s.clearHeat.embm with window := w } }

/-- A table's rows may be promoted (R302). -/
def State.eligible (s : State) (table : Nat) : Bool :=
  s.tableOk table && tbHot (s.table table) && bit (s.rd (wideKey 0x100000)) 0 &&
  rowBytes16 (tbDim (s.table table)) ≤ s.rdf (wideKey 0x100018) 0 11

/-- Hot rows that this module owns. -/
def State.ownHot (s : State) : List (Nat × Nat) := s.hotRows.filter fun e => s.owner (s.table e.1) e.2 = s.rank

/-- The exact count of a hot row in the window. -/
def State.exactCount (s : State) (table r : Nat) : Nat :=
  match (s.embt (s.serving (s.table table) r)).exact.find? fun e => e.1 = table && e.2.1 = r with
  | some e => e.2.2
  | none => 0

/-- The heat window closes at this fence (R306). -/
def State.windowCloses (s : State) : Bool :=
  match s.embm.window with
  | some w => w + 1 ≥ s.rdf (wideKey 0x100004) 0 16
  | none => false

/-- Order of promotion: descending estimate, then ascending table and row (R307). -/
def hotter (a b : Nat × Nat × Nat) : Bool :=
  a.2.2 > b.2.2 || (a.2.2 = b.2.2 && (a.1 < b.1 || (a.1 = b.1 && a.2.1 ≤ b.2.1)))

def insertHot (x : Nat × Nat × Nat) : List (Nat × Nat × Nat) → List (Nat × Nat × Nat)
  | [] => [x]
  | y :: ys => if hotter x y then x :: y :: ys else y :: insertHot x ys

def sortHot : List (Nat × Nat × Nat) → List (Nat × Nat × Nat)
  | [] => []
  | x :: xs => insertHot x (sortHot xs)

/-- This module's change list (R307): demotions and promotions. A poisoned hot row is demoted at any fence (R317). -/
def State.changes (s : State) : List (Nat × Nat) × List (Nat × Nat) :=
  let close := s.windowCloses
  let own := s.ownHot
  let dem := own.filter fun e =>
    s.isPoisoned e.1 e.2 ||
    (close && (s.exactCount e.1 e.2 < s.rdf (wideKey 0x100008) 16 16 || !s.eligible e.1))
  if !close then (dem, [])
  else
    let cands := ((List.range 4).flatMap fun t => (s.embt t).cand).filter fun e =>
      e.2.2 ≥ s.rdf (wideKey 0x100008) 0 16 && s.eligible e.1 && !s.isPoisoned e.1 e.2.1 && !s.isHot e.1 e.2.1
    let room := 262144 / s.modules + dem.length - own.length
    (dem, ((sortHot cands).take room).map fun e => (e.1, e.2.1))

/-- Are change lists exchanged at this fence: the window closes, or a row could be demoted as poisoned (log 38)? -/
def State.exchanges (s : State) : Bool := s.windowCloses || s.embm.dir ≠ []

def insertRank (x : Nat × List (Nat × Nat) × List (Nat × Nat)) :
    List (Nat × List (Nat × Nat) × List (Nat × Nat)) → List (Nat × List (Nat × Nat) × List (Nat × Nat))
  | [] => [x]
  | y :: ys => if x.1 < y.1 then x :: y :: ys else if x.1 = y.1 then y :: ys else y :: insertRank x ys

/-- Apply the change lists of every module: all demotions, then all promotions in ascending owner rank (R308). The heat
window counts the step, and closes. -/
def State.applyChanges (s : State) : State :=
  let ls := s.embm.lists
  let close := s.windowCloses
  let (c, s) := s.coolAll (ls.flatMap fun l => l.2.1)
  let (c', s) := s.heatAll (ls.flatMap fun l => l.2.2)
  let s := if c || c' then s.nextDirGen else s
  let s := { s with embm := { s.embm with lists := [] } }
  if close then s.newWindow (some 0)
  else { s with embm := { s.embm with window := s.embm.window.map (· + 1) } }

/-! ## Refresh (R309) -/

/-- An owned row read now, as a FRESH lookup would read it (R309); none when it is poisoned or cannot be read. -/
def State.rowNow (s : State) (table r : Nat) : Option (List Byte) × State :=
  let d := s.table table
  let t := s.serving d r
  if s.isPoisoned table r then (none, s)
  else
    let s := if tbFmt d = 0 then s else s.bump (kEmbCount t 2) 1
    match s.rowRead t table r (s.home d r) with
    | (.ok, bs, s) =>
      let (_, out, s) := s.present t table r true bs
      (some out, s)
    | (_, _, s) => (none, s)

/-- Send each owned hot row to every module and write it into this module's Commons. -/
def State.refreshOwn (s : State) : List (Nat × Nat) → State
  | [] => s
  | (t, r) :: l =>
    match s.rowNow t r with
    | (some bs, s) => ((s.emit (.commonsRefresh t r bs)).commonsWrite t r bs).refreshOwn l
    | (none, s) => (s.emit (.commonsRefresh t r [])).refreshOwn l

/-- A refresh from another owner: the row goes into the Commons; without bytes its owner could not read it. -/
def State.takeRefresh (s : State) (x : Nat × Nat × List Byte) : State :=
  let s := if x.2.2 = [] then s
    else s.commonsWrite x.1 x.2.1 (slice x.2.2 0 (rowBytes16 (tbDim (s.table x.1))))
  { s with embm := { s.embm with awaited := s.embm.awaited.filter (· ≠ (x.1, x.2.1)) } }

def State.takeRefreshes (s : State) : List (Nat × Nat × List Byte) → State
  | [] => s
  | x :: xs => (s.takeRefresh x).takeRefreshes xs

/-- Order 6 begins (R309): this module's own hot rows go out, and those of other owners are awaited; refreshes that came
early are taken. -/
def State.refreshHot (s : State) : State :=
  let s := s.refreshOwn s.ownHot
  let others := s.hotRows.filter fun e => s.owner (s.table e.1) e.2 ≠ s.rank
  let early := s.embm.early
  ({ s with embm := { s.embm with awaited := others, early := [] } } : State).takeRefreshes early

end Sys2Proof.Machine
end

