-- ==== Sys2Proof/Machine/Arbiter.lean ====
section
/-!
DEFINITION. Machine/Arbiter.lean: the arbitration discipline shared by every bank, crossbar port and torus port
(R362, R365, R386).
-/
namespace Sys2Proof.Machine

open Sys2Proof

def State.arbOf (s : State) (k : Nat) : Arb := smGet Arb.init s.arb k
def State.setArb (s : State) (k : Nat) (a : Arb) : State := { s with arb := smSet Arb.init s.arb k a }

/-- CUR and WAIT of a requester. -/
def Arb.curWait (a : Arb) (base : Nat → Nat) (i : Nat) : Nat × Nat :=
  match a.losers.find? (·.1 = i) with
  | some e => e.2
  | none => (base i, 0)

/-- Distance of a requester from POINTER in index order. -/
def Arb.dist (a : Arb) (n i : Nat) : Nat := (i + n - a.ptr % n) % n

/-- The first member at or after POINTER. -/
def Arb.first (a : Arb) (n : Nat) : List Nat → Option Nat
  | [] => none
  | x :: xs => match a.first n xs with
    | none => some x
    | some y => if a.dist n x ≤ a.dist n y then some x else some y

/-- The pool of a round: the forced candidates, else those with the highest CUR. -/
def Arb.pool (a : Arb) (base : Nat → Nat) (limit : Nat) (cands : List Nat) : List Nat :=
  let forced := cands.filter fun i => (a.curWait base i).2 ≥ max 1 limit
  if forced ≠ [] then forced
  else
    let top := cands.foldl (fun m i => max m (a.curWait base i).1) 0
    cands.filter fun i => (a.curWait base i).1 = top

/-- A candidate that loses a round. -/
def Arb.lose (a : Arb) (base : Nat → Nat) (i : Nat) : Nat × Nat × Nat :=
  let (c, w) := a.curWait base i
  (i, min (c + 1) 15, min (w + 1) 255)

/-- One round among n requesters: the winner and the arbiter after it (R362). -/
def Arb.round (a : Arb) (base : Nat → Nat) (limit n : Nat) (cands : List Nat) : Option Nat × Arb :=
  match a.first n (a.pool base limit cands) with
  | none => (none, { a with losers := [] })
  | some w => (some w, ⟨(w + 1) % n, (cands.filter (· ≠ w)).map (a.lose base)⟩)

/-- A round whose winner withdraws after the grant (R365). -/
def Arb.withdraw (a : Arb) (base : Nat → Nat) (w : Nat) (cands : List Nat) : Arb :=
  { a with losers := ((cands.filter (· ≠ w)).map (a.lose base)) ++ (a.losers.filter (·.1 = w)) }

/-- Arbiters by number: a torus port's, a core SRAM bank's, a Studio SRAM bank's, a crossbar port's. -/
def arbPort (p : Nat) : Nat := p
def arbCore (c bank : Nat) : Nat := 0x10000 + 16 * c + bank
def arbStudio (t bank : Nat) : Nat := 0x20000 + 256 * t + bank
def arbXbar (t port : Nat) : Nat := 0x30000 + 65536 * t + port

end Sys2Proof.Machine
end

