-- ==== Sys2Proof/Machine/Torus.lean ====
section
/-!
DEFINITION. Machine/Torus.lean: sending on the torus: routing (R398, R399), messages and segments (R377, R378), link
blocks (R376, R379, R387), credits and class arbitration (R385, R386), ring maps (R400), and a link going down (R396,
R397).
-/
namespace Sys2Proof.Machine

open Sys2Proof

def State.port (s : State) (p : Nat) : PortState := smGet PortState.init s.net.ports p
def State.setPort (s : State) (p : Nat) (x : PortState) : State :=
  { s with net := { s.net with ports := smSet PortState.init s.net.ports p x } }

def kLnk (p o : Nat) : Nat := portBase p + o
def kLnkStatus (p : Nat) : Nat := kLnk p 4
def kLnkCount (p k : Nat) : Nat := kLnk p (0x20 + 8 * k)
/-- LNK_STATUS.STATE (R389). -/
def State.linkSt (s : State) (p : Nat) : Nat := s.rdf (kLnkStatus p) 0 4
/-- LNK_STATUS.COORD_OK (R401). -/
def State.coordOk (s : State) (p : Nat) : Bool := bit (s.rd (kLnkStatus p)) 8
/-- The port's tile and the link layer run, and the package is powered. -/
def State.portOn (s : State) (p : Nat) : Bool := s.fabOn (p / 2) && !s.gated 16

/-! ## Ring maps -/

/-- The link of its ring that a port stands at: c for the + port, c − 1 for the − port (R400). -/
def State.ringLink (s : State) (p : Nat) : Nat :=
  let c := coordOf s.node (p / 2)
  let l := max 1 (s.layoutLen (p / 2))
  if p % 2 = 0 then c else (c + l - 1) % l

/-- Key of an end of a ring link: 1 for the end at its + port (R400). -/
def endKey (a c : Nat) (plusEnd : Bool) : Nat := 64 * a + 2 * c + b2n plusEnd

/-- An end of link c of axis a is known to be UP with COORD_OK or not; the map shows the links of which both are. -/
def State.setEnd (s : State) (a c : Nat) (plusEnd up : Bool) : State :=
  let e := smSet false s.net.ends (endKey a c plusEnd) up
  ({ s with net := { s.net with ends := e } } : State).wrf (netKey (8 + 4 * a)) c 1
    (b2n (smGet false e (endKey a c true) && smGet false e (endKey a c false)))

/-- A port carries messages: its link is UP with COORD_OK (R401). -/
def State.portUp (s : State) (p : Nat) : Bool := s.linkSt p = 4 && s.coordOk p

/-- Send a link-state message on through a port. -/
def State.sendState (s : State) (q c : Nat) (plusEnd up : Bool) : State :=
  if s.portUp q then s.emit (.linkState q c plusEnd up) else s

/-- The ring map takes the state of a port, and the ring is told of it in both directions (R400). -/
def State.tellRing (s : State) (p : Nat) : State :=
  let a := p / 2
  let c := s.ringLink p
  let e : Bool := p % 2 = 0
  let s := s.setEnd a c e (s.portUp p)
  (s.sendState (2 * a) c e (s.portUp p)).sendState (2 * a + 1) c e (s.portUp p)

/-- The same when COORD_OK alone may have changed. -/
def State.ringFollow (s : State) (p : Nat) : State :=
  if smGet false s.net.ends (endKey (p / 2) (s.ringLink p) (p % 2 = 0)) = s.portUp p then s else s.tellRing p

/-- The port towards the parent; none for the root (R402). -/
def State.parentPort (s : State) : Option Nat :=
  if coordOf s.node 3 > 0 then some 7 else if coordOf s.node 2 > 0 then some 5 else if coordOf s.node 1 > 0 then some 3
  else if coordOf s.node 0 > 0 then some 1 else none

def kTimeStatus : Nat := netKey 0x38

/-- SYNC_LOST is set while the parent link is not UP (R404). -/
def State.timeFollow (s : State) (p : Nat) : State :=
  if s.parentPort = some p && s.linkSt p ≠ 4 then s.wrf kTimeStatus 1 1 1 else s

/-- A port changes state (R389, R400). -/
def State.setLinkSt (s : State) (p v : Nat) : State :=
  if s.linkSt p = v then s else ((s.wrf (kLnkStatus p) 0 4 v).tellRing p).timeFollow p

/-! ## Blocks -/

/-- Bytes leave on a port's fibre unless open-fibre control blocks its transmit path (R425). -/
def State.emitBlock (s : State) (p : Nat) (lane : Option Nat) (b : List Byte) : State :=
  if (s.port p).dark then s else s.emit (.block p lane b)

/-- The nonce of R387 as 12 bytes, its first bit the most significant (DEDUCED, log 42). -/
def gcmNonce (node port kind counter : Nat) : List Byte :=
  (leBytes 12 (counter + kind * 2 ^ 71 + port * 2 ^ 73 + node * 2 ^ 76)).reverse

/-- Our key of the link: bytes 0 to 31 of K from the + port (R522). -/
def txKey (p : Nat) (k : List Byte) : List Byte := if p % 2 = 0 then slice k 0 32 else slice k 32 32

/-- AES-256-GCM turns bytes from the i-th on into ciphertext, and back (R387, R472). -/
def gcmCrypt (key nonce : List Byte) : Nat → List Byte → List Byte
  | _, [] => []
  | i, b :: bs => (b ^^^ Config.gcmStream key nonce i) :: gcmCrypt key nonce (i + 1) bs

def gcmTag (key nonce aad cipher : List Byte) : List Byte := (List.range 16).map (Config.gcmTag key nonce aad cipher)

/-- Ciphertext and tag. -/
def gcmSeal (key nonce aad plain : List Byte) : List Byte :=
  let c := gcmCrypt key nonce 0 plain
  c ++ gcmTag key nonce aad c

/-- The plaintext of what is sealed, when its tag verifies. -/
def gcmOpen (key nonce aad b : List Byte) : Option (List Byte) :=
  let c := b.take (b.length - 16)
  if b.drop (b.length - 16) = gcmTag key nonce aad c then some (gcmCrypt key nonce 0 c) else none

/-- A block's bytes (R376). enc: PAYLOAD is encrypted. -/
def State.blockBytes (s : State) (p seq kind vc credit counter : Nat) (nak enc : Bool) (payload : List Byte) : List Byte :=
  let x := s.port p
  let ack := if nak then x.rxSeq else (x.rxSeq + 65535) % 65536
  let h := leBytes 2 seq ++ leBytes 2 ack ++ leBytes 1 kind ++ leBytes 1 (1 + b2n nak * 2 + b2n enc * 4) ++
    leBytes 1 vc ++ leBytes 1 credit
  let body := if enc then slice (gcmSeal (txKey p x.keyK) (gcmNonce s.node p kind counter) h (slice payload 0 484)) 0 500
    else slice payload 0 500
  let b := h ++ body
  b ++ leBytes 4 (crc32 b)

/-- Send a LINK block (R405). -/
def State.sendLink (s : State) (p : Nat) (content : List Byte) : State :=
  let x := s.port p
  let b := s.blockBytes p (x.linkCount % 65536) 2 0 0xFF x.linkCount false (s.linkSt p ≥ 4) content
  (s.setPort p { x with linkCount := x.linkCount + 1 }).emitBlock p none b

/-- Send an IDLE block with the latest ACK or NAK, and a credit to return (R376, R380, R385). -/
def State.sendIdle (s : State) (p credit : Nat) (nak : Bool) : State :=
  s.emitBlock p none (s.blockBytes p 0 0 0 credit 0 nak false [])

/-! ## First sending -/

/-- Segments of a message: one per block (DESIGN CHOICE, log 42). -/
def segments : Nat → Bool → List Byte → List (List Byte)
  | 0, _, _ => []
  | n + 1, first, b =>
    let d := b.take 480
    let last : Bool := b.length ≤ 480
    slice (leBytes 4 (d.length + b2n first * 2 ^ 13 + b2n last * 2 ^ 14) ++ d) 0 484 ::
      (if last then [] else segments n false (b.drop 480))

/-- A credit for a virtual channel is held (R385). -/
def PortState.hasCredit (x : PortState) (vc : Nat) : Bool := smGet 0 x.resv vc < 32 || x.sharedUse < 1024
def PortState.takeCredit (x : PortState) (vc : Nat) : PortState :=
  if smGet 0 x.resv vc < 32 then { x with resv := smSet 0 x.resv vc (smGet 0 x.resv vc + 1) }
  else { x with sharedUse := x.sharedUse + 1 }

/-- The virtual channel of a class whose head block may be sent; VC1 wins (R386). -/
def PortState.ready (x : PortState) (cls : Nat) : Option Nat :=
  [2 * cls + 1, 2 * cls].find? fun vc => x.queue.any (·.1 = vc) && x.hasCredit vc

def removeFirst {α : Type} (p : α → Bool) : List α → List α
  | [] => []
  | x :: xs => if p x then xs else x :: removeFirst p xs

/-- BASE of class c (R386). -/
def State.classBase (s : State) (c : Nat) : Nat := s.rdf (netKey 0x20) (4 * c) 4

/-- Send queued blocks while credits and the retry buffer allow, class by class as the arbiter chooses (R379, R386). A
link without COORD_OK carries none (R401, R431). -/
def State.pump (s : State) (p : Nat) : Nat → State
  | 0 => s
  | fuel + 1 =>
    let x := s.port p
    if !s.portUp p || x.retry.length ≥ 1024 then s
    else
      let cands := (List.range 5).filter fun c => (x.ready c).isSome
      let (w, a) := (s.arbOf (arbPort p)).round s.classBase (s.rdf (netKey 0x20) 24 8) 5 cands
      match w.bind x.ready with
      | none => s
      | some vc =>
        match x.queue.find? (·.1 = vc) with
        | none => s
        | some (_, m, pl) =>
          let b := s.blockBytes p x.txSeq 1 (vc / 2 + vc % 2 * 8) 0xFF x.txCount false true pl
          let y := (x.takeCredit vc)
          let y := { y with queue := removeFirst (·.1 = vc) y.queue, txSeq := (x.txSeq + 1) % 65536,
                            txCount := x.txCount + 1, retry := x.retry ++ [⟨x.txSeq, m, b, 0⟩] }
          ((((s.setArb (arbPort p) a).setPort p y).bump (kLnkCount p 0) 1).emitBlock p none b).pump p fuel

def State.pumpAll (s : State) (p : Nat) : State := s.pump p ((s.port p).queue.length + 1)

/-! ## Routing -/

/-- What becomes of a message at this module. -/
inductive Route where
  | deliver
  | out (port vc dirs : Nat)
  | unreachable
  deriving DecidableEq, Repr

/-- The direction on axis a from c to e (R398): true for +; none when neither path is usable. -/
def State.direction (s : State) (a c e : Nat) : Option Bool :=
  let l := s.layoutLen a
  let dp := (e + l - c) % l
  let dm := l - dp
  let okp := s.pathOk a c l true dp
  let okm := s.pathOk a c l false dm
  let q := fun p => (s.port p).queue.length
  if okp && okm then
    (if dp - dm + (dm - dp) ≤ s.rdf (netKey 0) 0 4 then some (decide (q (2 * a) ≤ q (2 * a + 1))) else some (dp < dm))
  else if okp then some true
  else if okm then some false
  else none

/-- Route a message with its DEST word, arriving on a port and virtual channel or starting here (R398, R399). -/
def State.route (s : State) (dest : Nat) (from' : Option (Nat × Nat)) : Route :=
  let node := fld dest 0 20
  match s.axisTo node with
  | none => .deliver
  | some a =>
    let c := coordOf s.node a
    let l := s.layoutLen a
    let kept : Option (Bool × Nat) := match from' with
      | some (p, vc) => if p / 2 = a then some (!bit dest (23 + a), vc % 2) else none
      | none => none
    let go := fun (plus : Bool) (vc : Nat) =>
      let cross : Bool := if plus then c + 1 = l else c = 0
      Route.out (2 * a + b2n (!plus)) (if cross then 1 else vc) (setFld dest (23 + a) 1 (b2n (!plus)))
    match kept with
    | some (plus, vc) => go plus vc
    | none => match s.direction a c (coordOf node a) with
      | some plus => go plus 0
      | none => .unreachable

/-- Messages are lost: LNK_LOST_MSGS of the port, and a fault when a step is in progress (R397). -/
def State.loseMsgs (s : State) (p n : Nat) : State :=
  if n = 0 then s
  else
    let s := s.bump (kLnkCount p 8) n
    if s.quiet then s else s.faultAtOnce .podTimeout

/-- A port still holds a message: unsent, or not acknowledged. -/
def State.onPort (s : State) (m : Nat) : Bool :=
  s.net.ports.any fun p => p.2.queue.any (fun q => q.2.1 = m) || p.2.retry.any fun b => b.msg = m

/-- Note the generation of a COLLECTIVE message given to a port (R434, R442). -/
def State.noteGen (s : State) (vc m : Nat) (bytes : List Byte) : State :=
  if vc / 2 ≠ 3 then s
  else { s with net := { s.net with colGens := s.net.colGens.filter (fun x => s.onPort x.1) ++ [(m, leAt bytes 16 2)] } }

/-- Queue a message's bytes on a port and send what may be sent. -/
def State.queueMsg (s : State) (p vc : Nat) (bytes : List Byte) : State :=
  let m := s.net.nextMsg
  let s := ({ s with net := { s.net with nextMsg := m + 1 } } : State).noteGen vc m bytes
  let x := s.port p
  let segs := segments (bytes.length / 480 + 1) true bytes
  (s.setPort p { x with queue := x.queue ++ segs.map fun g => (vc, m, g) }).pumpAll p

/-- The 16-byte header (R378). -/
def msgHeader (dest src hops len typ tag : Nat) : List Byte :=
  leBytes 4 dest ++ leBytes 4 (src + hops * 2 ^ 20) ++ leBytes 2 len ++ leBytes 2 typ ++ leBytes 4 tag

/-- Give a message to the torus. One that cannot be routed goes nowhere: its sender asks first whether the node is reached
(R398). -/
def State.sendMsg (s : State) (cls typ node tag : Nat) (body : List Byte) : State :=
  match s.route (node + cls * 2 ^ 20) none with
  | .out p vc dest =>
    s.queueMsg p (2 * cls + vc) (msgHeader dest s.node 0 body.length typ tag ++ body)
  | _ => s

/-! ## A link going down -/

def distinct : List Nat → List Nat
  | [] => []
  | x :: xs => if xs.contains x then distinct xs else x :: distinct xs

/-- A port goes DOWN, or DISABLED, with a cause (R390, R396). -/
def State.linkDown (s : State) (p cause : Nat) (disabled : Bool) : State :=
  let was := s.linkSt p
  let live : Bool := was = 4 || was = 5
  let x := s.port p
  let gone := distinct (x.queue.map (·.2.1) ++ x.retry.map (·.msg))
  let lost := gone.length
  let s := { s with net := { s.net with lost := s.net.lost ++ gone.filter fun m => s.net.colGens.any (·.1 = m) } }
  let s := if was = 4 then s.sendLink p (leBytes 1 6 ++ leBytes 1 cause) else s
  let s := (s.wrf (kLnkStatus p) 0 11 (b2n (!disabled) + cause * 16)).orBits (kLnk p 0x1C) (2 ^ cause)
  let s := (s.wrf (kLnk p 0x10) 63 1 0).setPort p { PortState.init with dark := x.dark }
  let s := (s.tellRing p).timeFollow p
  if live then (s.raise 0x0302 3 p (p + cause * 256)).loseMsgs p lost else s

end Sys2Proof.Machine
end

