-- ==== Sys2Proof/Machine/Links.lean ====
section
/-!
DEFINITION. Machine/Links.lean: what a torus port does on what it receives and meets: blocks, retry, training, keying,
lane sparing, retrains, coordinates and pod time (R379 to R404, R522), and the port commands of LNK_CTRL (R408).
-/
namespace Sys2Proof.Machine

open Sys2Proof

/-! ## Receiving: header fields -/

/-- Drop the blocks that an ACK covers. -/
def PortState.ackTo (x : PortState) (ack : Nat) : PortState :=
  { x with retry := x.retry.filter fun b => serialLater 16 b.seq ack }

/-- Return a credit (R385). -/
def PortState.giveCredit (x : PortState) (c : Nat) : PortState :=
  if c = 0xFF then x
  else
    let n := fld c 5 3 + 1
    if bit c 4 then { x with sharedUse := x.sharedUse - n }
    else let vc := fld c 0 4; { x with resv := smSet 0 x.resv vc (smGet 0 x.resv vc - n) }

def emitBlocks (s : State) (p : Nat) : List TxBlock → State
  | [] => s
  | b :: bs => emitBlocks ((s.emitBlock p none b.bytes).bump (kLnkCount p 3) 1) p bs

/-- Re-send every unacknowledged block from a SEQ on; a block re-sent RETRY_LIMIT times takes the link DOWN (R381). -/
def State.resend (s : State) (p seq : Nat) : State :=
  let x := s.port p
  let again := fun (b : TxBlock) => b.seq = seq || serialLater 16 b.seq seq
  let bs := x.retry.filter again
  if bs.any fun b => b.resent ≥ max 1 (s.rdf (netKey 0x24) 16 8) then s.linkDown p 6 false
  else
    let x := { x with retry := x.retry.map fun b => if again b then { b with resent := b.resent + 1 } else b }
    emitBlocks (s.setPort p x) p bs

/-- ACK, NAK and credit of a block (R379, R381, R385). -/
def State.takeHeader (s : State) (p : Nat) (b : RxBlock) : State :=
  let x := s.port p
  let x := if b.kind = 2 then { x with authLink := x.authLink.filter (· ≠ b.seq.toNat) } else x
  let ack := b.ack.toNat
  let x := if b.nak then x.ackTo ((ack + 65535) % 65536) else if b.ackValid then x.ackTo ack else x
  let s := s.setPort p (x.giveCredit b.credit.toNat)
  (if b.nak then s.resend p ack else s).pumpAll p

/-! ## DATA and IDLE blocks -/

/-- A segment's message when it ends: the parts by virtual channel, and the messages completed (R377). -/
def takeSegments (vc : Nat) : Nat → List Byte → SMap (List Byte) → List (List Byte) → SMap (List Byte) × List (List Byte)
  | 0, _, part, done => (part, done)
  | n + 1, b, part, done =>
    let h := leAt b 0 4
    let len := fld h 0 13
    if len = 0 || b = [] then (part, done)
    else
      let d := slice b 4 len
      let m := (if bit h 13 then [] else smGet [] part vc) ++ d
      let rest := b.drop (4 + (len + 3) / 4 * 4)
      if bit h 14 then takeSegments vc n rest (smDel part vc) (done ++ [m])
      else takeSegments vc n rest (smPut part vc m) done

/-- Discard a DATA block: NAK on the first discard after an accepted one (R380). -/
def State.discard (s : State) (p : Nat) : State :=
  let x := s.port p
  if x.nak then s else (s.setPort p { x with nak := true }).sendIdle p 0xFF true

/-- A block whose CRC fails is counted, and the uncorrectable codewords behind it (R382). -/
def State.crcFail (s : State) (p : Nat) (b : RxBlock) : State :=
  (s.bump (kLnkCount p 5) b.uncorr.toNat).bump (kLnkCount p 2) 1

/-- Receive buffers that the messages ending in a block free: those of the blocks since the last message ended, for the
first of them, and the block itself for the last, unless a message goes on in it. -/
def blockShares (before : Nat) (goesOn : Bool) (n : Nat) : List Nat :=
  (List.range n).map fun i => (if i = 0 then before else 0) + (if i + 1 = n && !goesOn then 1 else 0)

/-- A DATA block in order: its segments, and the buffer it takes (R377, R385). -/
def State.acceptBlock (s : State) (p : Nat) (b : RxBlock) : State :=
  let x := s.port p
  let vc := fld b.vc.toNat 0 3 * 2 + fld b.vc.toNat 3 1
  let (part, done) := takeSegments vc 121 b.payload x.part []
  let before := smGet 0 x.partBlocks vc
  let goesOn : Bool := part.any (·.1 = vc)
  let now := if done = [] then before + 1 else b2n goesOn
  let msgs := (withIdx done 0).map fun m => (p * 16 + vc, (blockShares before goesOn done.length).getD m.1 0, m.2)
  let s := (s.setPort p { x with
    rxSeq := (x.rxSeq + 1) % 65536, nak := false, part := part, partBlocks := smSet 0 x.partBlocks vc now,
    held := smSet 0 x.held vc (smGet 0 x.held vc + 1), authSeq := x.authSeq.filter (· ≠ b.seq.toNat) }).bump (kLnkCount p 1) 1
  ({ s with net := { s.net with assembled := s.net.assembled ++ msgs } } : State).sendIdle p 0xFF false

/-- DATA_BLOCK (R376, R380, R382, R388, R401). A KIND that R376 does not list makes a bad block. -/
def execDataBlock (p : PortId) (b : RxBlock) (s : State) : Host.Outcome State Fault Refusal :=
  .next <|
    if !s.portOn p || s.linkSt p ≠ 4 then s
    else if !b.crcOk then (s.crcFail p b).discard p
    else if b.kind.toNat > 2 then s.discard p
    else if b.kind ≠ 1 then s
    else if !b.tagOk then
      let x := s.port p
      let s := (s.bump (kLnkCount p 6) 1).raise 0x0304 3 p b.seq.toNat
      if x.authSeq.contains b.seq.toNat then s.linkDown p 8 false
      else (s.setPort p { x with authSeq := b.seq.toNat :: x.authSeq }).discard p
    else
      let s := s.takeHeader p b
      if s.linkSt p ≠ 4 then s
      else if b.seq.toNat ≠ (s.port p).rxSeq || !s.coordOk p then s.discard p
      else s.acceptBlock p b

/-- Return n credits of a virtual channel's reserved part, or of the shared part, at most 8 in a block (R376). -/
def State.sendCredits (s : State) (p vc : Nat) (shared : Bool) : Nat → Nat → State
  | 0, _ => s
  | fuel + 1, n =>
    if n = 0 then s
    else (s.sendIdle p (vc + b2n shared * 16 + (min 8 n - 1) * 32) false).sendCredits p vc shared fuel (n - min 8 n)

/-- The buffers of n blocks of a virtual channel are freed, those beyond its reserved 32 first (R385). -/
def State.freeBuffers (s : State) (p vc n : Nat) : State :=
  let x := s.port p
  let h := smGet 0 x.held vc
  let k := min n h
  let sh := min k (h - 32)
  let s := s.setPort p { x with held := smSet 0 x.held vc (h - k) }
  if s.linkSt p = 4 then (s.sendCredits p vc true sh sh).sendCredits p vc false (k - sh) (k - sh) else s

/-- IDLE_BLOCK. -/
def execIdleBlock (p : PortId) (b : RxBlock) (s : State) : Host.Outcome State Fault Refusal :=
  .next <|
    if !s.portOn p || s.linkSt p ≠ 4 then s
    else if !b.crcOk then s.crcFail p b
    else if b.kind ≠ 0 then s
    else s.takeHeader p b

/-- NAK_TIMER (R380). -/
def execNakTimer (p : PortId) (s : State) : Host.Outcome State Fault Refusal :=
  .next <| if s.portOn p && s.linkSt p = 4 && (s.port p).nak then s.sendIdle p 0xFF true else s

/-- REPLAY_TIMEOUT (R381). -/
def execReplayTimeout (p : PortId) (s : State) : Host.Outcome State Fault Refusal :=
  .next <|
    match (s.port p).retry with
    | [] => s
    | b :: _ => if s.portOn p && s.linkSt p = 4 then s.resend p b.seq else s

/-- A LINK block whose CRC or tag fails is counted and discarded; a second tag failure on its SEQ takes the link DOWN
(R382, R388). -/
def State.badLink (s : State) (p : Nat) (b : RxBlock) : State :=
  if !b.crcOk then s.crcFail p b
  else
    let x := s.port p
    let s := (s.bump (kLnkCount p 6) 1).raise 0x0304 3 p b.seq.toNat
    if x.authLink.contains b.seq.toNat then s.linkDown p 8 false
    else s.setPort p { x with authLink := b.seq.toNat :: x.authLink }

/-- A LINK block that is not taken: its CRC or tag fails, or it has another KIND. -/
def badBlock (b : RxBlock) : Bool := !b.crcOk || !b.tagOk || b.kind ≠ 2
def State.refuseLink (s : State) (p : Nat) (b : RxBlock) : State := if b.crcOk && b.kind ≠ 2 then s else s.badLink p b

/-! ## Coordinates and IDENT -/

/-- The change that a layout fence in progress is making (R452). -/
def State.fenceChange (s : State) : Option (List Byte) :=
  if bit (s.rd kLayoutStatus) 17 then s.lay.change.map (·.2) else none

/-- The node field this module reports (R401, R452). -/
def State.reportNode (s : State) : Nat :=
  match s.fenceChange with
  | some b => leAt b 4 4 % 2 ^ 20
  | none => if bit (s.rd kLayoutStatus) 29 then s.node else 0xFFFFF

def State.judgeLen (s : State) (a : Nat) : Nat :=
  match s.fenceChange with
  | some b => leAt b a 1
  | none => s.layoutLen a

/-- IDENT content (R405). -/
def State.identContent (s : State) (p lane : Nat) : List Byte :=
  [1, BitVec.ofNat 8 p, BitVec.ofNat 8 lane, 0] ++ leBytes 4 s.reportNode ++ slice s.flash.serial 0 12 ++
  leBytes 2 (s.rdf kLayoutStatus 0 16)

/-- The node field expected at the other end of a port. -/
def State.peerNode (s : State) (p : Nat) : Nat :=
  let a := p / 2
  let l := max 1 (s.judgeLen a)
  let me := s.reportNode
  let c := coordOf me a
  setFld me (15 - 5 * a) 5 (if p % 2 = 0 then (c + 1) % l else (c + l - 1) % l)

/-- Judge COORD_OK from the peer's last IDENT, noting a disagreement once (R401). -/
def State.judgeCoord (s : State) (p : Nat) : State :=
  let k := s.rd (kLnk p 0x10)
  let peer := fld k 0 20
  let mine := s.reportNode
  let ok : Bool := bit k 63 && mine ≠ 0xFFFFF && peer ≠ 0xFFFFF && peer = s.peerNode p
  let s := s.wrf (kLnkStatus p) 8 1 (b2n ok)
  let x := s.port p
  let s :=
    if s.linkSt p = 4 && bit k 63 && !ok && mine ≠ 0xFFFFF && peer ≠ 0xFFFFF && !x.coordNoted then
      (s.setPort p { x with coordNoted := true }).raise 0x0305 3 p peer
    else s
  s.ringFollow p

/-- Send IDENT on every UP port and judge every port again (R401). -/
def State.reIdent (s : State) : State :=
  (List.range 8).foldl (fun s p => if s.linkSt p = 4 then (s.sendLink p (s.identContent p 0)).judgeCoord p else s) s

/-- The preset sweep begins: each locked lane reports that its result is pending (R390, R405). -/
def State.sendPending (s : State) (p : Nat) : State :=
  ((List.range 18).filter (bit (s.port p).locked)).foldl
    (fun s l => s.emitBlock p (some l) ([2, BitVec.ofNat 8 l, 0, 0] ++ leBytes 4 0)) s

/-- IDENT: in a lane marker during training, or in a LINK block of an UP link. -/
def execIdentBlock (p : PortId) (lane : Option (Fin 18)) (b : RxBlock) (s : State) : Host.Outcome State Fault Refusal :=
  .next <|
    let c := b.payload
    let port := leAt c 1 1
    let x := s.port p
    if !s.portOn p then s
    else match lane with
    | some l =>
      if s.linkSt p ≠ 2 || x.step < 2 then s
      else if port ≠ Nat.xor p 1 || leAt c 2 1 ≠ l then s.linkDown p 3 false
      else
        let i := Nat.lor x.idented (2 ^ (l : Nat))
        let s := s.wr (kLnk p 0x10) (2 ^ 63 + port % 8 * 2 ^ 20 + leAt c 4 4 % 2 ^ 20)
        let swept : Bool := Nat.land i x.locked = x.locked && x.step < 3
        let s := s.setPort p { x with idented := i, step := if swept then 3 else x.step }
        if swept then s.sendPending p else s
    | none =>
      if s.linkSt p ≠ 4 then s
      else if badBlock b then s.refuseLink p b
      else
        let s := s.takeHeader p b
        (s.wr (kLnk p 0x10) (2 ^ 63 + port % 8 * 2 ^ 20 + leAt c 4 4 % 2 ^ 20)).judgeCoord p

/-! ## Training (R390 to R392) -/

def kLamp (k o : Nat) : Nat := 0x8000 + 0x100 * k + o
/-- A lamp is LIT at a level that it has ramped to. -/
def State.lampLit (s : State) (k : Nat) : Bool := s.rdf (kLamp k 0) 0 3 = 4 && s.rdf (kLamp k 0) 4 2 ≠ 0
/-- A port's pair is lit at rated power: both lamps LIT, or one LIT at RAISED (R22, R412). -/
def State.pairLit (s : State) (k : Nat) : Bool :=
  (s.lampLit (2 * k) && s.lampLit (2 * k + 1)) ||
  (s.lampLit (2 * k) && s.rdf (kLamp (2 * k) 0) 4 2 = 2) || (s.lampLit (2 * k + 1) && s.rdf (kLamp (2 * k + 1) 0) 4 2 = 2)

/-- A port stays DISABLED: ENABLE is 0, or its axis has length 1 in a committed layout (R373). -/
def State.portOff (s : State) (p : Nat) : Bool :=
  !bit (s.rd (kLnk p 0)) 0 || (bit (s.rd kLayoutStatus) 29 && s.layoutLen (p / 2) = 1)

/-- TRAINING_START: each transmit lane sends IDENT in its lane markers. On INT the link layer carries no training
(R539). -/
def execTrainingStart (p : PortId) (s : State) : Host.Outcome State Fault Refusal :=
  .next <|
    if !s.portOn p || s.linkSt p ≠ 1 || s.portOff p || !s.pairLit (p / 2) || bit (s.rd kClkDomains) 16 then s
    else
      let s := (s.setLinkSt p 2).setPort p { PortState.init with step := 1, dark := (s.port p).dark }
      (List.range 18).foldl (fun s l => s.emitBlock p (some l) (s.identContent p l)) s

/-- LANE_LOCK. -/
def execLaneLock (p : PortId) (lanes : BitVec 18) (s : State) : Host.Outcome State Fault Refusal :=
  .next <|
    let x := s.port p
    if s.portOn p && s.linkSt p = 2 && x.step = 1 && lanes ≠ 0 then s.setPort p { x with locked := lanes.toNat, step := 2 }
    else s

/-- TRAIN: the peer's result for one of our transmit lanes. -/
def execTrainMarker (p : PortId) (b : RxBlock) (s : State) : Host.Outcome State Fault Refusal :=
  .next <|
    let x := s.port p
    let l := leAt b.payload 1 1
    let r := leAt b.payload 3 1
    if !s.portOn p || s.linkSt p ≠ 2 || l ≥ 18 then s
    else if r = 1 then s.setPort p { x with txPass := Nat.lor x.txPass (2 ^ l) }
    else if r = 2 then s.setPort p { x with txPass := setFld x.txPass l 1 0 }
    else s

def tap (v lo : Nat) : Nat := (sext (fld v lo 6) 6).natAbs
/-- A table entry that the sweep uses (R392). -/
def presetOk (v : Nat) : Bool := bit v 31 && tap v 0 + tap v 6 + tap v 12 ≤ 48

/-- m × 10^−e of LNK_BER_CTRL in units of 10^−15. -/
def berOf (v : Nat) : Nat := fld v 0 4 * 10 ^ (15 - fld v 4 4)

/-- The preset with the fewest errors among the usable ones. -/
def bestPreset (use : Nat → Bool) : List (Nat × Nat × Nat) → Option (Nat × Nat × Nat)
  | [] => none
  | e :: es => match bestPreset use es with
    | none => if use e.1 then some e else none
    | some y => if use e.1 && e.2.1 ≤ y.2.1 then some e else some y

def lanesMask (l : List Nat) : Nat := l.foldl (fun m i => Nat.lor m (2 ^ i)) 0

/-- A lane takes a role with a preset (R391). -/
def State.laneRole (s : State) (p l r i : Nat) : State :=
  (s.wrf (kLnk p (0x100 + 8 * l)) 0 4 i).wrf (kLnk p (0x100 + 8 * l)) 4 2 r

/-- The active, spare and failed lanes, given the lanes that pass with their presets (R391). -/
def State.chooseLanes (s : State) (p : Nat) (pass : List (Nat × Nat)) : State :=
  let act := pass.take 16
  let spare := pass.drop 16
  let fail := (List.range 18).filter fun l => !pass.any (·.1 = l)
  let s := (s.wrf (kLnk p 8) 18 18 (lanesMask (act.map (·.1)))).wrf (kLnk p 8) 36 18 (lanesMask fail)
  let s := s.wrf (kLnkStatus p) 11 2 spare.length
  let s := act.foldl (fun s e => s.laneRole p e.1 1 e.2) s
  let s := spare.foldl (fun s e => s.laneRole p e.1 2 e.2) s
  fail.foldl (fun s l => s.wrf (kLnk p (0x100 + 8 * l)) 4 2 0) s

/-- The lane markers that tell the peer each lane's best preset, its errors and whether it is within the limit (R390). -/
def State.sendPresets (s : State) (p lim : Nat) (best : List (Nat × Option (Nat × Nat × Nat))) : State :=
  best.foldl (fun s e => match e.2 with
    | some (i, errs, ber) =>
      s.emitBlock p (some e.1) ([2, BitVec.ofNat 8 e.1, BitVec.ofNat 8 i, if ber ≤ lim then 1 else 2] ++ leBytes 4 errs)
    | none => s) s

/-- PRESET_SWEEP_END (R391). meas: for each receive lane and each table entry, the corrected symbol errors and the
pre-FEC bit error ratio in units of 10^−15. -/
def execPresetSweepEnd (p : PortId) (meas : List (List (Nat × Nat))) (s : State) : Host.Outcome State Fault Refusal :=
  .next <|
    let x := s.port p
    if !s.portOn p || s.linkSt p ≠ 2 || x.step ≠ 3 then s
    else
      let use := fun i => presetOk (s.rd (netKey (0x100 + 4 * i)))
      let lim := berOf (s.rdf (netKey 0x28) 0 8)
      let best := (withIdx meas 0).map fun e =>
        (e.1, if bit x.locked e.1 then bestPreset use ((withIdx e.2 0).map fun q => (q.1, q.2)) else none)
      let pass := best.filterMap fun e => match e.2 with
        | some (i, _, ber) => if ber ≤ lim then some (e.1, i) else none
        | none => none
      let s := (s.chooseLanes p pass).sendPresets p lim best
      if pass.length < 16 then s.linkDown p 4 false else s.setPort p { x with step := 4 }

/-- Draw n random bytes (R504). -/
def State.random (s : State) (n : Nat) : List Byte × State :=
  ((List.range n).map (Config.random s.free), { s with free := s.free + 1 })

/-- SEC_POD_KEY_ID (R521). -/
def kPodKeyId : Nat := 0xC008

/-- Content of a KEY block (R522). -/
def State.keyContent (s : State) (role : Nat) (share nonce confirm : List Byte) : List Byte :=
  [3, BitVec.ofNat 8 role, 0, 0] ++ leBytes 4 s.reportNode ++ leBytes 8 (s.rd kPodKeyId) ++ slice share 0 56 ++
  slice nonce 0 32 ++ slice confirm 0 32

/-- The RNG's health tests hold (R504): SEC_STATUS.RNG_FAIL is 0. -/
def State.rngOk (s : State) : Bool := !bit (s.rd 0xC000) 4

/-- Enter KEYING: SHARE is sent; without a pod secret, or with the random generator failed, none is and the link fails
(R504, R522). -/
def State.startKeying (s : State) (p : Nat) : State :=
  let s := s.setLinkSt p 3
  if s.boot.podSecret.isNone || !s.rngOk then s.linkDown p 5 false
  else
    let (sec, s) := s.random 56
    let (non, s) := s.random 32
    let sh := Config.x448 sec []
    let x := s.port p
    (s.setPort p { x with secret := sec, share := sh, nonce := non, shared := false }).sendLink p (s.keyContent 0 sh non [])

/-- ALIGNMENT_DONE (R383, R390): the transmit lanes are those the peer passed. -/
def execAlignmentDone (p : PortId) (rttNs : BitVec 16) (s : State) : Host.Outcome State Fault Refusal :=
  .next <|
    let x := s.port p
    if !s.portOn p || s.linkSt p ≠ 2 || x.step ≠ 4 then s
    else
      let pass := (List.range 18).filter (bit x.txPass)
      let act := pass.take 16
      let s := (s.wrf (kLnk p 8) 0 18 (lanesMask act)).wrf (kLnkStatus p) 13 2 (pass.drop 16).length
      let s := (List.range 18).foldl (fun s l =>
        s.wrf (kLnk p (0x100 + 8 * l)) 6 2 (if act.contains l then 1 else if pass.contains l then 2 else 0)) s
      let s := (s.wr (kLnk p 0x18) rttNs.toNat).wrf (kLnkStatus p) 9 1 (b2n (decide (rttNs.toNat > 1310)))
      if act.length < 16 then s.linkDown p 4 false else s.startKeying p

/-- TRAINING_TIMEOUT (R390): the cause is that of the step that missed its bound; the preset sweep counts with lane
selection (DEDUCED, log 42). -/
def execTrainingTimeout (p : PortId) (s : State) : Host.Outcome State Fault Refusal :=
  .next <|
    let x := s.port p
    if !s.portOn p then s
    else if s.linkSt p = 2 then s.linkDown p (if x.step ≤ 1 then 2 else if x.step = 2 then 3 else 4) false
    else if s.linkSt p = 3 then s.linkDown p 5 false
    else s

/-! ## Keying (R522) -/

/-- The link comes UP: new keys, counters from 0, full credits; IDENT is sent and the ring told. -/
def State.linkUp (s : State) (p : Nat) : State :=
  let x := s.port p
  let s := (s.setLinkSt p 4).setPort p { x with
    txSeq := 0, rxSeq := 0, txCount := 0, linkCount := 0, retry := [], queue := [], resv := [], sharedUse := 0, nak := false,
    authSeq := [], authLink := [], part := [], partBlocks := [], held := [], overs := [], coordNoted := false, secret := [],
    lackLane := false }
  (s.sendLink p (s.identContent p 0)).judgeCoord p

/-- The CONFIRM of the link's + end, or of its − end (R522). -/
def confirmOf (k : List Byte) (plus : Bool) : List Byte :=
  slice (Config.shake256 32 (asciiPad "ZLD-LCNF" 8 ++ k ++ [if plus then 0 else 1])) 0 32

/-- KEY. confirm: the block's CONFIRM field, bytes 104 to 135 of its content. -/
def execKeyBlock (p : PortId) (b : RxBlock) (confirm : List Byte) (s : State) : Host.Outcome State Fault Refusal :=
  .next <|
    let c := b.payload
    let x := s.port p
    let fail := fun (s : State) => ((s.linkDown p 5 false).orBits 0xC034 4).raise 0x0306 3 p p
    if !s.portOn p || s.linkSt p ≠ 3 then s
    else if !b.crcOk then s.badLink p b
    else if leAt c 8 8 ≠ s.rd kPodKeyId then fail s
    else if leAt c 1 1 = 0 then
      let sec := s.boot.podSecret.getD []
      let sh := slice c 16 56
      let no := slice c 72 32
      let z := Config.x448 x.secret sh
      let plus : Bool := p.val % 2 = 0
      let k := Config.shake256 64 (asciiPad "ZLD-LINK" 8 ++ sec ++ z ++
        (if plus then slice x.share 0 56 ++ sh ++ slice x.nonce 0 32 ++ no else sh ++ slice x.share 0 56 ++ no ++ slice x.nonce 0 32))
      (s.setPort p { x with keyK := k, shared := true }).sendLink p (s.keyContent 1 [] [] (confirmOf k plus))
    else if !x.shared || confirm ≠ confirmOf x.keyK (p.val % 2 = 1) then fail s
    else s.linkUp p

/-! ## Lane sparing (R393, R394) -/

/-- The lowest lane with a role: 0 receive roles at bit 4, transmit roles at bit 6. -/
def State.spareLane (s : State) (p lo : Nat) : Option Nat :=
  (List.range 18).find? fun l => s.rdf (kLnk p (0x100 + 8 * l)) lo 2 = 2

def State.swapLane (s : State) (p lo l n : Nat) : State :=
  let a := if lo = 4 then 18 else 0
  let m := s.rdf (kLnk p 8) a 18
  let s := (s.wrf (kLnk p (0x100 + 8 * l)) lo 2 0).wrf (kLnk p (0x100 + 8 * n)) lo 2 1
  let s := s.wrf (kLnk p 8) a 18 (setFld (setFld m l 1 0) n 1 1)
  let k := if lo = 4 then 11 else 13
  s.wrf (kLnkStatus p) k 2 (s.rdf (kLnkStatus p) k 2 - 1)

/-- Start a fast retrain (R395). -/
def State.startRetrain (s : State) (p : Nat) : State :=
  if s.linkSt p = 4 then (s.setLinkSt p 5).bump (kLnkCount p 7) 1 else s

/-- A failed receive lane is spared. Without a spare it is marked marginal while it holds lock, and else a retrain begins
that fails for lack of lanes (R393, R394). The codeword index of the swap is a free value (log 42). -/
def State.failLane (s : State) (p l : Nat) (lock : Bool) : State :=
  match s.spareLane p 4 with
  | some n =>
    let (x, s) := s.freeNat
    let at' := x % 2 ^ 32
    let s := (s.swapLane p 4 l n).wrf (kLnk p 8) (36 + l) 1 1
    let s := s.setPort p { s.port p with swapAt := at' }
    let s := s.sendLink p ([4, 0, BitVec.ofNat 8 l, BitVec.ofNat 8 n] ++ leBytes 4 at')
    (s.bump (kLnkCount p 9) 1).raise 0x0301 3 p (p + l * 2 ^ 8 + n * 2 ^ 16)
  | none =>
    if lock then s.wrf (kLnkStatus p) 10 1 1
    else (s.setPort p { s.port p with lackLane := true }).startRetrain p

def State.judgeLanes (s : State) (p : Nat) : List (Nat × Nat × Nat × Bool) → State
  | [] => s
  | (l, errs, ber, lock) :: rest =>
    if s.rdf (kLnk p (0x100 + 8 * l)) 4 2 ≠ 1 then s.judgeLanes p rest
    else
      let s := (s.wrf (kLnk p (0x100 + 8 * l)) 16 32 (min errs (2 ^ 32 - 1))).bump (kLnkCount p 4) errs
      let x := s.port p
      let past : Bool := ber > berOf (s.rdf (netKey 0x28) 8 8)
      let n := if past then smGet 0 x.overs l + 1 else 0
      let bad : Bool := !lock || n ≥ max 1 (s.rdf (netKey 0x28) 16 4)
      let s := s.setPort p { x with overs := smSet 0 x.overs l (if bad then 0 else n) }
      let s := if bad || (past && (s.spareLane p 4).isNone) then s.failLane p l lock else s
      s.judgeLanes p rest

/-- LANE_WINDOW. meas: for each lane the corrected symbols, the pre-FEC bit error ratio in units of 10^−15, and
whether it holds lock. -/
def execLaneWindow (p : PortId) (meas : List (Nat × Nat × Bool)) (s : State) : Host.Outcome State Fault Refusal :=
  .next <|
    if s.portOn p && s.linkSt p = 4 then
      s.judgeLanes p (((withIdx meas 0).take 18).map fun e => (e.1, e.2.1, e.2.2.1, e.2.2.2))
    else s

/-- LANE_SWAP: a lane of the peer's failed, in its receive direction (0) or its transmit direction (1), and this end
switches the lane at its other end at the same codeword index (R393, R405). -/
def execLaneSwap (p : PortId) (b : RxBlock) (s : State) : Host.Outcome State Fault Refusal :=
  .next <|
    let dir := leAt b.payload 1 1
    let l := leAt b.payload 2 1
    let n := leAt b.payload 3 1
    if !s.portOn p || s.linkSt p ≠ 4 then s
    else if badBlock b then s.refuseLink p b
    else if dir > 1 || l ≥ 18 || n ≥ 18 then s.takeHeader p b
    else
      let s := s.takeHeader p b
      let s := s.setPort p { s.port p with swapAt := leAt b.payload 4 4 }
      ((s.swapLane p (if dir = 0 then 6 else 4) l n).bump (kLnkCount p 9) 1).raise 0x0301 3 p
        (p + (if dir = 0 then 8 else 0) + l * 2 ^ 8 + n * 2 ^ 16)

/-! ## Losing a link (R395, R396) -/

/-- ALIGNMENT_LOST. -/
def execAlignmentLost (p : PortId) (s : State) : Host.Outcome State Fault Refusal :=
  .next <| if s.portOn p then s.startRetrain p else s

/-- RETRAIN_DONE: EV_LINK_RETRAIN is recorded when the link is back (log 42). A retrain that lacks a lane fails (R394). -/
def execRetrainDone (p : PortId) (s : State) : Host.Outcome State Fault Refusal :=
  .next <|
    if s.portOn p && s.linkSt p = 5 && (s.port p).lackLane then s.linkDown p 7 false
    else if s.portOn p && s.linkSt p = 5 then
      let s := (s.setLinkSt p 4).raise 0x0303 3 p p
      let s := match (s.port p).retry with | [] => s | b :: _ => s.resend p b.seq
      s.pumpAll p
    else s

/-- RETRAIN_TIMEOUT. -/
def execRetrainTimeout (p : PortId) (s : State) : Host.Outcome State Fault Refusal :=
  .next <| if s.portOn p && s.linkSt p = 5 then s.linkDown p 7 false else s

/-- DOWN. -/
def execDownBlock (p : PortId) (b : RxBlock) (s : State) : Host.Outcome State Fault Refusal :=
  .next <|
    if !s.portOn p || (s.linkSt p ≠ 4 && s.linkSt p ≠ 5) then s
    else if badBlock b then s.refuseLink p b
    else (s.setLinkSt p 5).linkDown p 9 false

/-- LINK_STATE_MESSAGE: the state of an end of a link, come through port p, goes into the map and on round the ring until
it is back at the module that sent it (R400). -/
def execLinkStateMessage (p : PortId) (e : LinkEnd) (up : Bool) (s : State) : Host.Outcome State Fault Refusal :=
  .next <|
    let a := p.val / 2
    let l := max 1 (s.layoutLen a)
    let src := if e.plusEnd then e.link.val else (e.link.val + 1) % l
    if !s.hubOn || !s.portUp p || coordOf s.node a = src then s
    else (s.setEnd a e.link e.plusEnd up).sendState (Nat.xor p 1) e.link e.plusEnd up

/-! ## LNK_CTRL (R408) -/

/-- The effect of writing ENABLE. -/
def State.lnkEnable (s : State) (p : Nat) (on : Bool) : State :=
  if on then
    let s := s.wrf (kLnk p 0) 0 1 1
    if s.linkSt p = 0 && !s.portOff p then s.setLinkSt p 1 else s
  else if !s.quiet then s
  else
    let s := s.wrf (kLnk p 0) 0 1 0
    if s.linkSt p = 0 then s else s.linkDown p 1 true

def State.lnkRetrain (s : State) (p : Nat) : State := s.startRetrain p

/-- The effect of writing FULL_TRAIN. -/
def State.lnkFullTrain (s : State) (p : Nat) : State := if s.linkSt p = 0 then s else s.linkDown p 1 false

def execLnkEnable (p : PortId) (on : Bool) (s : State) : Host.Outcome State Fault Refusal :=
  .next <| if s.portOn p then s.lnkEnable p on else s
def execLnkRetrain (p : PortId) (s : State) : Host.Outcome State Fault Refusal :=
  .next <| if s.portOn p then s.lnkRetrain p else s
def execLnkFullTrain (p : PortId) (s : State) : Host.Outcome State Fault Refusal :=
  .next <| if s.portOn p then s.lnkFullTrain p else s

/-! ## Pod time (R402 to R404) -/

def kPodTime : Nat := netKey 0x30
def kTimeOffset : Nat := netKey 0x40

/-- TIME_PERIOD: ask the parent (R403), or run free while its link is not UP (R404). -/
def execTimePeriod (s : State) : Host.Outcome State Fault Refusal :=
  .next <|
    if !s.hubOn then s
    else match s.parentPort with
      | none => s
      | some p =>
        if s.linkSt p = 4 then
          let t := s.rd kPodTime
          (s.setPort p { s.port p with t1 := some t }).sendLink p ([5, 0, 0, 0, 0, 0, 0, 0] ++ leBytes 8 t)
        else s.wrf kTimeStatus 1 1 1

/-- TIME: a request is answered; a reply gives the offset (R403). -/
def execTimeBlock (p : PortId) (b : RxBlock) (s : State) : Host.Outcome State Fault Refusal :=
  .next <|
    if !s.portOn p || s.linkSt p ≠ 4 then s
    else if badBlock b then s.refuseLink p b
    else
      let s := s.takeHeader p b
      let now := s.rd kPodTime
      if leAt b.payload 1 1 = 0 then
        s.sendLink p ([5, 1, 0, 0, 0, 0, 0, 0] ++ slice b.payload 8 8 ++ leBytes 8 now ++ leBytes 8 now)
      else if s.parentPort ≠ some p || (s.port p).t1.isNone then s
      else
        let t1 := leAt b.payload 8 8
        let t2 := leAt b.payload 16 8
        let t3 := leAt b.payload 24 8
        let off : Int := (((t2 : Int) - t1) - ((now : Int) - t3)) / 2
        let s := (s.setPort p { s.port p with t1 := none }).wr kTimeOffset (wrapInt off 64)
        let s := { s with net := { s.net with slew := off } }
        (s.wrf kTimeStatus 0 1 (b2n (decide (off.natAbs < 20)))).wrf kTimeStatus 1 1 0

/-- Root and depth for the current layout, and the step of pod time at a commit (R404). The parent's value is own pod
time plus the offset last measured. -/
def State.timeCommit (s : State) : State :=
  let d := coordOf s.node 0 + coordOf s.node 1 + coordOf s.node 2 + coordOf s.node 3
  let s := (s.wrf kTimeStatus 2 1 (b2n (decide (d = 0)))).wrf kTimeStatus 8 8 (min d 255)
  let off := sext (s.rd kTimeOffset) 64
  if d ≠ 0 && off.natAbs > 1000000 then
    let s := { s with net := { s.net with slew := 0 } }
    (s.wr kPodTime (wrapInt ((s.rd kPodTime : Int) + off) 64)).raise 0x0307 0 0 (wrapInt off 64)
  else s

/-! ## Resets (R409, R410) -/

/-- A port is reset: DOWN with cause RESET, registers at their reset values, ready to train afresh. -/
def State.portReset (s : State) (p : Nat) : State :=
  let s := if s.linkSt p = 4 || s.linkSt p = 5 then s.linkDown p 10 false else s
  let s := s.resetRegs fun k => kLnk p 0 ≤ k && k < kLnk p 0x1000
  let s := s.setPort p { PortState.init with dark := (s.port p).dark }
  let s := if s.portOff p then s.setLinkSt p 0 else s
  (s.ringFollow p).timeFollow p

def State.loadTrainTable (s : State) : State :=
  (List.range 16).foldl (fun s i => s.wr (netKey (0x100 + 4 * i)) (smGet 0 s.flash.train i).toNat) s

/-- Power-on and RESET_MODULE (R409). -/
def State.linksReset (s : State) : State :=
  let s := (List.range 8).foldl (fun s p => s.portReset p) s
  let s := s.resetRegs fun k => 0xA00000 ≤ k && k < 0xA09000
  let dark := (List.range 8).filter fun p => (s.port p).dark
  let s := { s with net := { NetState.init with nextMsg := s.net.nextMsg } }
  let s := dark.foldl (fun s p => s.setPort p { s.port p with dark := true }) s
  s.loadTrainTable.wr kPodTime s.time

/-- Messages that have come through a port and are still in transit here are lost (R396, R410). -/
def State.loseInTransit (s : State) (p : Nat) : State :=
  let here := fun (m : Nat × Nat × List Byte) => m.1 / 16 = p
  let n := s.net.assembled.countP here + (s.port p).part.length
  ({ s with net := { s.net with assembled := s.net.assembled.filter fun m => !here m } } : State).loseMsgs p n

/-- RESET_TILE (R410). -/
def State.linksResetTile (s : State) (t : Nat) : State :=
  (((s.loseInTransit (2 * t)).portReset (2 * t)).loseInTransit (2 * t + 1)).portReset (2 * t + 1)

end Sys2Proof.Machine
end

