-- ==== Sys2Proof/Machine/Lamps.lean ====
section
/-!
DEFINITION. Machine/Lamps.lean: the laser-source cartridges (R412 to R429): authentication, levels and ramps, ageing,
prediction, failure, and open-fibre control. What a cartridge signs and a sensor reads comes as operands.
-/
namespace Sys2Proof.Machine

open Sys2Proof

def State.lamp (s : State) (k : Nat) : LampState := smGet LampState.init s.lamps k
def State.setLamp (s : State) (k : Nat) (x : LampState) : State := { s with lamps := smSet LampState.init s.lamps k x }

def State.lampSt (s : State) (k : Nat) : Nat := s.rdf (kLamp k 0) 0 3
def State.setLampSt (s : State) (k v : Nat) : State := s.wrf (kLamp k 0) 0 3 v
def State.lampLevel (s : State) (k : Nat) : Nat := s.rdf (kLamp k 0) 4 2
def State.setLevel (s : State) (k v : Nat) : State := s.wrf (kLamp k 0) 4 2 v
def State.ramping (s : State) (k : Nat) : Bool := bit (s.rd (kLamp k 0)) 8
def partner (k : Nat) : Nat := Nat.xor k 1
def kLampSticky : Nat := 0x8808

/-- The lamp controllers run on FAB of their tile (R576). -/
def State.lampOn (s : State) (k : Nat) : Bool := s.fabOn (k / 2)

/-- Set ALERT_SOURCE bits (R34). -/
def State.alert (s : State) (i : Nat) : State :=
  { s with pwr := { s.pwr with alertSource := s.pwr.alertSource ||| BitVec.ofNat 5 (2 ^ i) } }

/-- The ports of a pair that has lost its light go DOWN with cause NO_LIGHT (R420). -/
def State.pairDark (s : State) (pair : Nat) : State :=
  [2 * pair, 2 * pair + 1].foldl (fun s p => if s.linkSt p ≥ 2 then s.linkDown p 2 false else s) s

/-- Start a ramp of a lamp towards a level (R413). A lamp that ramps up gives light, and is LIT, from the start of its
ramp (DESIGN CHOICE, log 59). -/
def State.ramp (s : State) (k level : Nat) (retire : Bool) : State :=
  let s := if level = 0 then s else s.setLampSt k 4
  (s.wrf (kLamp k 0) 8 1 1).setLamp k { s.lamp k with target := level, retiring := retire }

/-- Light a DARK lamp under R423. -/
def State.lightLamp (s : State) (k : Nat) : State :=
  let q := partner k
  if s.lampSt k ≠ 3 || s.ramping k then s
  else if s.lampSt q = 4 then (s.ramp k 1 false).ramp q 1 false
  else s.ramp k 2 false

/-- Module flash records a lamp (R416, R417). -/
def Flash.setLampRec (f : Flash) (k : Nat) (r : List Byte × Nat × Nat) : Flash := { f with lampRec := smPut f.lampRec k r }
def State.keepLampRec (s : State) (k : Nat) (r : List Byte × Nat × Nat) : State := { s with flash := s.flash.setLampRec k r }

/-- A ramp ends: levels take their targets; a retiring lamp goes dark as RETIRED with its counters written (R417, R421). -/
def State.endRamp (s : State) (k : Nat) : State :=
  if !s.ramping k then s
  else
    let x := s.lamp k
    let s := (s.wrf (kLamp k 0) 8 1 0).setLevel k x.target
    if x.retiring then
      let lit := s.rd (kLamp k 8)
      let aged := s.rd (kLamp k 4)
      let ser := leBytes 8 (s.rd (kLamp k 0x20)) ++ leBytes 4 (s.rd (kLamp k 0x28))
      let s := s.keepLampRec k (ser, lit, aged)
      (s.setLampSt k 5).setLamp k { x with retiring := false, target := 0, cartLit := lit, cartAged := aged }
    else if x.target = 0 then s.setLampSt k 3
    else s

def State.endRamps (s : State) (pair : Nat) : State := (s.endRamp (2 * pair)).endRamp (2 * pair + 1)

/-! ## Authentication (R414, R415, R524) -/

/-- Begin authentication with a fresh challenge. -/
def State.challengeLamp (s : State) (k : Nat) : State :=
  let (c, s) := s.random 32
  ((s.setLampSt k 1).setLamp k { s.lamp k with challenge := c }).emit (.lampChallenge k c)

/-- Registers of a slot read 0 while it is EMPTY (R428). -/
def State.clearSlot (s : State) (k : Nat) : State := s.resetRegs fun a => kLamp k 0 ≤ a && a < kLamp k 0x100

/-- LAMP_INSERTED. -/
def execLampInserted (k : LampId) (s : State) : Host.Outcome State Fault Refusal :=
  .next <|
    if (s.lamp k).seated then s
    else
      let s := (s.clearSlot k).setLamp k { LampState.init with seated := true }
      if s.lampOn k then s.challengeLamp k else s

def State.refuseLamp (s : State) (k : Nat) : State := ((s.setLampSt k 2).orBits kLampSticky (2 ^ k)).raise 0x0203 4 k k

/-- Point i of a curve: hours and bias. -/
def curveAt (b : List Byte) (i : Nat) : Nat × Nat := (leAt b (4 * i) 2, leAt b (4 * i + 2) 2)

/-- Hours rise strictly and bias does not fall. -/
def curveOk (b : List Byte) : Bool :=
  (curveAt b 0).1 = 0 && (List.range 15).all fun i =>
    (curveAt b i).1 < (curveAt b (i + 1)).1 && (curveAt b i).2 ≤ (curveAt b (i + 1)).2

/-- A record that R415 and R524 accept. -/
def lampRecordOk (r : List Byte) : Bool :=
  r.length = 442 && leAt r 0 4 = 0x504D414C && zeroAt r 73 3 && zeroAt r 205 3 && zeroAt r 322 6 && zeroAt r 81 3 &&
  leAt r 76 2 = 35000 && curveOk (r.drop 84)

/-- LOW and EOL of a lamp after its prediction changed (R419). -/
def State.judgeLamp (s : State) (k : Nat) (eolNow : Bool) : State :=
  let pred := s.rd (kLamp k 0xC)
  let arg := k + pred % 2 ^ 32 * 2 ^ 32
  let s :=
    if pred < s.rdf 0x8804 0 16 then
      let x := s.lamp k
      let s := (s.wrf (kLamp k 0) 6 1 1).alert 4
      if x.lowNoted then s else (s.raise 0x0201 4 k arg).setLamp k { x with lowNoted := true }
    else s
  if eolNow || pred = 0 then
    let x := s.lamp k
    let s := (s.wrf (kLamp k 0) 7 1 1).alert 4
    if x.eolNoted then s else (s.raise 0x0202 4 k arg).setLamp k { x with eolNoted := true }
  else s

/-- LAMP_AUTH_RESPONSE. lit, aged: the cartridge's counters; verified: all three signatures verify (R524). -/
def execLampAuthResponse (k : LampId) (rec : List Byte) (lit aged : W32) (verified : Bool) (s : State) :
    Host.Outcome State Fault Refusal :=
  .next <|
    if !s.lampOn k || s.lampSt k ≠ 1 then s
    else if !verified || !lampRecordOk rec then s.refuseLamp k
    else
      let ser := slice rec 4 12
      let (l0, a0) := match smGet none (s.flash.lampRec.map fun e => (e.1, some e.2)) k with
        | some (ser', l, a) => if ser' = ser then (l, a) else (0, 0)
        | none => (0, 0)
      let l := max lit.toNat l0
      let a := max aged.toNat a0
      let s := s.keepLampRec k (ser, l, a)
      let s := ((s.wr (kLamp k 8) l).wr (kLamp k 4) a).wr (kLamp k 0x18) (leAt rec 76 5)
      let s := (s.wr (kLamp k 0x20) (leAt rec 4 8)).wr (kLamp k 0x28) (leAt rec 12 4)
      let s := (List.range 16).foldl (fun s i => s.wr (kLamp k (0x40 + 4 * i)) (leAt rec (84 + 4 * i) 4)) s
      let s := s.wr (kLamp k 0xC) ((2100000 - a) / 60)
      let s := (s.setLampSt k 3).setLamp k { s.lamp k with predicted := false, cartLit := lit.toNat, cartAged := aged.toNat, challenge := [] }
      let s := s.judgeLamp k false
      if s.pwr.lampsDone && bit (s.rd 0x8800) 0 then s.lightLamp k else s

/-- LAMP_AUTH_TIMEOUT. -/
def execLampAuthTimeout (k : LampId) (s : State) : Host.Outcome State Fault Refusal :=
  .next <| if s.lampOn k && s.lampSt k = 1 then s.refuseLamp k else s

/-! ## Failing and pulling (R420, R422, R425) -/

/-- A lit lamp fails. -/
def State.failLamp (s : State) (k : Nat) : State :=
  let q := partner k
  let s := (((s.setLampSt k 6).setLevel k 0).wrf (kLamp k 0) 8 1 0).orBits kLampSticky (2 ^ (8 + k))
  let s := (s.setLamp k { s.lamp k with target := 0, retiring := false }).raise 0x0204 4 k k
  if s.lampSt q = 4 then
    ((s.setLevel q 2).wrf (kLamp q 0) 8 1 0).setLamp q { s.lamp q with target := 2, retiring := false }
  else s.pairDark (k / 2)

/-- LAMP_FAIL. -/
def execLampFail (k : LampId) (s : State) : Host.Outcome State Fault Refusal :=
  .next <| if s.lampOn k && s.lampSt k = 4 then s.failLamp k else s

/-- LAMP_PULLED (R422): a lit lamp counts as failed; every pull sets the slot's FAILED bit (R428). -/
def execLampPulled (k : LampId) (s : State) : Host.Outcome State Fault Refusal :=
  .next <|
    let x := s.lamp k
    if !x.seated then s
    else if s.lampOn k && s.lampSt k = 4 then
      let s := (s.failLamp k).raise 0x0205 4 k k
      s.setLamp k { s.lamp k with seated := false }
    else
      let s := (s.clearSlot k).setLamp k LampState.init
      if s.lampOn k then s.orBits kLampSticky (2 ^ (8 + k.val)) else s

/-- LAMP_INTERLOCK: the cartridge cuts its laser bias. -/
def execLampInterlock (k : LampId) (s : State) : Host.Outcome State Fault Refusal :=
  .next <| if s.lampOn k then ((s.wr (kLamp k 0x10) 0).wr (kLamp k 0x14) 0).setLevel k 0 else s

/-! ## Ageing (R416 to R419) -/

/-- RATED_HOURS less the age: the prediction before the first full hour at NOMINAL (R418). -/
def State.hoursLeft (s : State) (k : Nat) : Nat := (60 * s.rdf (kLamp k 0x18) 0 16 - s.rd (kLamp k 4)) / 60

/-- LAMP_MINUTE. -/
def execLampMinute (k : LampId) (s : State) : Host.Outcome State Fault Refusal :=
  .next <|
    let lvl := s.lampLevel k
    let x := s.lamp k
    let x := if x.minutes ≥ 60 then { x with minutes := 0, nominal := 0 } else x
    let x := { x with minutes := x.minutes + 1 }
    if !s.lampOn k then s
    else if s.lampSt k ≠ 4 then s.setLamp k x
    else
      let x := { x with nominal := if lvl = 1 then x.nominal + 1 else x.nominal }
      let f := x.frac + (if lvl = 2 then s.rdf (kLamp k 0x18) 32 8 else 16)
      let lit := satAdd 32 (s.rd (kLamp k 8)) 1
      let aged := satAdd 32 (s.rd (kLamp k 4)) (f / 16)
      let s := (s.wr (kLamp k 8) lit).wr (kLamp k 4) aged
      let x := { x with frac := f % 16 }
      let x := if lit % 10 = 0 then { x with cartLit := lit, cartAged := aged } else x
      let s := s.setLamp k x
      let s := if x.predicted then s else (s.wr (kLamp k 0xC) (s.hoursLeft k)).judgeLamp k false
      if lit % 60 = 0 then
        let ser := leBytes 8 (s.rd (kLamp k 0x20)) ++ leBytes 4 (s.rd (kLamp k 0x28))
        s.keepLampRec k (ser, lit, aged)
      else s

/-- The curve of a slot: hours and bias of each point. -/
def State.lampCurve (s : State) (k : Nat) : List (Nat × Nat) :=
  (List.range 16).map fun i => (s.rdf (kLamp k (0x40 + 4 * i)) 0 16, s.rdf (kLamp k (0x40 + 4 * i)) 16 16)

/-- The segment of the curve on which an age of a minutes lies: the last one reaches on without end. -/
def segmentOf (a : Nat) : List (Nat × Nat) → (Nat × Nat) × (Nat × Nat)
  | p :: q :: rest => if rest = [] || a < 60 * q.1 then (p, q) else segmentOf a (q :: rest)
  | _ => ((0, 0), (1, 0))

/-- The smallest age x at or after a minutes where the curve reaches tN / tD, as a fraction of hours (R418). -/
def reach (a tN tD : Nat) : List (Nat × Nat) → Option (Nat × Nat)
  | p :: q :: rest =>
    let last : Bool := rest = []
    if (!last && a ≥ 60 * q.1) || (!last && q.2 * tD < tN) then reach a tN tD (q :: rest)
    else if q.2 ≤ p.2 then none
    else some (p.1 * tD * (q.2 - p.2) + (tN - p.2 * tD) * (q.1 - p.1), tD * (q.2 - p.2))
  | _ => none

/-- LMP_EOL_PRED from a mean bias in µA (R418). -/
def State.predict (s : State) (k meanUa : Nat) : Nat :=
  let a := s.rd (kLamp k 4)
  let rated := s.rdf (kLamp k 0x18) 0 16
  let ieol := s.rdf (kLamp k 0x18) 16 16
  let cv := s.lampCurve k
  let ((h0, b0), (h1, b1)) := segmentOf a cv
  let cD := 60 * (h1 - h0)
  let cN := b0 * cD + (a - 60 * h0) * (b1 - b0)
  let tN := ieol * 10 * cN
  let tD := cD * meanUa
  let left := fun (n d : Nat) => (60 * n - a * d) / (60 * d)
  if meanUa = 0 then left rated 1
  else if meanUa ≥ ieol * 10 then 0
  else match reach a tN tD cv with
    | some (n, d) => min (left n d) (left rated 1)
    | none => left rated 1

/-- LAMP_HOUR. meanUa: the mean bias over the hour. -/
def execLampHour (k : LampId) (meanUa : Nat) (s : State) : Host.Outcome State Fault Refusal :=
  .next <|
    if s.lampOn k && s.lampSt k = 4 && (s.lamp k).nominal = 60 then
      ((s.wr (kLamp k 0xC) (s.predict k meanUa)).setLamp k { s.lamp k with predicted := true }).judgeLamp k false
    else s

/-- LAMP_BIAS_SAMPLE. -/
def execLampBiasSample (k : LampId) (ua uw : BitVec 20) (s : State) : Host.Outcome State Fault Refusal :=
  .next <|
    if !s.lampOn k then s
    else
      let s := (s.wr (kLamp k 0x10) ua.toNat).wr (kLamp k 0x14) uw.toNat
      let ieol := s.rdf (kLamp k 0x18) 16 16
      if s.lampSt k = 4 && ua.toNat ≥ ieol * 10 then s.judgeLamp k true else s

/-! ## AUTO_LIGHT and open fibre -/

/-- The effect of writing LMP_CTRL.AUTO_LIGHT (R423). -/
def State.autoLight (s : State) (on : Bool) : State :=
  let s := s.wrf 0x8800 0 1 (b2n on)
  if on && s.pwr.lampsDone then (List.range 8).foldl (fun s k => if s.lampOn k then s.lightLamp k else s) s else s

/-- AUTO_LIGHT. -/
def execAutoLight (s : State) : Host.Outcome State Fault Refusal :=
  .next <| if s.hubOn then s.autoLight true else s

/-- OPEN_FIBRE_BLOCK. -/
def execOpenFibreBlock (p : PortId) (s : State) : Host.Outcome State Fault Refusal :=
  .next <| if s.portOn p then s.setPort p { s.port p with dark := true } else s

/-- OPEN_FIBRE_PROBE. peer: the peer's probe has been received. -/
def execOpenFibreProbe (p : PortId) (peer : Bool) (s : State) : Host.Outcome State Fault Refusal :=
  .next <|
    if s.portOn p && (s.port p).dark then
      (s.emit (.probe p)).setPort p { s.port p with dark := !peer }
    else s

/-- Pairs lit at the end of authentication at power-on, by ramps (R413, R577). -/
def State.lightPairs (s : State) : State :=
  (List.range 4).foldl (fun s i =>
    let a : Bool := s.lampSt (2 * i) = 3
    let b : Bool := s.lampSt (2 * i + 1) = 3
    if a && b then (s.ramp (2 * i) 1 false).ramp (2 * i + 1) 1 false
    else if a then s.ramp (2 * i) 2 false
    else if b then s.ramp (2 * i + 1) 2 false
    else s) s

end Sys2Proof.Machine
end

