-- ==== Sys2Proof/Machine/Power.lean ====
section
/-!
DEFINITION. Machine/Power.lean: the 52 V input, the sideband pins, self-trips and the off-cause latch, SMBus telemetry
and boundary scan (chapter 1); what power-on resets.
-/
namespace Sys2Proof.Machine

open Sys2Proof

/-! ## Power-on and power-off -/

/-- Load the effective enable masks: the birth record's with the overlay applied (R78, R112). -/
def State.loadMasks (s : State) : State :=
  let s := s.resetRegs fun k => 0x6000 ≤ k && k < 0x6100
  s.repair.overlay.foldl (fun s e => match e.2 with
    | some sl => s.wrf (0x6000 + 8 * (e.1 / 4)) (16 * (e.1 % 4)) 16 (0xFFFF - 2 ^ sl)
    | none => s) s

/-- What flash holds of an image's copy, B when b. -/
def Flash.setImage (f : Flash) (k : Nat) (bytes : List Byte) : Flash := { f with images := smSet [] f.images k bytes }
def State.setImage (s : State) (img : List Byte) (b : Bool) (bytes : List Byte) : State :=
  { s with flash := s.flash.setImage (2 * leAt img 6 1 + b2n b) bytes }

/-- Power was lost during an update: what flash holds of the copy being written is undefined (R588). -/
def State.tornCopy (s : State) : State :=
  match s.boot.update with
  | some (img, b, _) => let (junk, s) := s.takeFree img.length; s.setImage img b junk
  | none => s

/-- What stays in a seated cartridge across power-off: its counters (R416). -/
def LampState.seatedOnly (x : LampState) : LampState :=
  { LampState.init with seated := x.seated, cartLit := x.cartLit, cartAged := x.cartAged }

/-- Module power-on reset: everything in the package takes its reset value; module flash, the cartridges, the standby
domain and the model's own fields stay (R40, R574, R580, R585). Studio SRAM is not cleared: what it held is undefined
(R369, log 6). -/
def State.powerOn (s : State) : State :=
  let s := s.tornCopy
  let r := State.reset
  let r := { r with
    pending := s.pending, wall := s.wall, offAt := s.offAt, free := s.free, out := s.out, flash := s.flash,
    repair := { r.repair with overlay := s.repair.overlay, spared := s.repair.spared, retired := s.repair.retired },
    lamps := s.lamps.map fun (e : Nat × LampState) => (e.1, e.2.seatedOnly),
    pwr := { s.pwr with phase := .on, lampsDone := false, scanIr := [], scanCells := [] } }
  let r := (s.mem.filter fun e => regionOf e.1 = .studio).foldl (fun (r : State) (e : Nat × Byte) => r.undef e.1 1) r
  r.loadMasks.loadTrainTable

/-- Bits of the off-cause latch are set; RAIL_ID with RAIL_FAULT (R37), that of the later of two faults (log 87). -/
def State.latchCause (s : State) (bits rail : Nat) : State :=
  let v := Nat.lor s.pwr.offCause.toNat bits
  let v := if bit bits 5 then setFld v 8 8 rail else v
  { s with pwr := { s.pwr with offCause := BitVec.ofNat 16 v } }

/-- Conversion stops (R28 to R31). A cause within the 50 µs after the first trigger is recorded as well; a self-trip later
than that has no effect (log 87). -/
def State.powerOff (s : State) (bits rail : Nat) (trip : Bool) : State :=
  if s.pwr.phase ≠ .off then
    let s := s.latchCause bits rail
    { s with pwr := { s.pwr with phase := .off, emergTrip := s.pwr.emergTrip || trip }, offAt := s.wall }
  else if s.wall - s.offAt ≤ 50000 then
    let s := s.latchCause bits rail
    { s with pwr := { s.pwr with emergTrip := s.pwr.emergTrip || (trip && s.pwr.pwrEn) } }
  else s

/-- INPUT_POWER_APPLIED. -/
def execInputPowerApplied (addr : Fin 8) (s : State) : Host.Outcome State Fault Refusal :=
  .next <| if s.pwr.standby then s else { s with pwr := { s.pwr with standby := true, smbAddr := addr.val } }

/-- INPUT_POWER_LOST (R40): the latch and the ALERT_SOURCE bits clear. The sample of BSCAN_EN stays (R39, log 87). -/
def execInputPowerLost (s : State) : Host.Outcome State Fault Refusal :=
  .next <| { s with
    pwr := { s.pwr with standby := false, phase := .off, emergTrip := false, offCause := 0, alertSource := 0,
                        inputOut := false }
    offAt := s.wall }

/-- PWR_EN_RISE (R30). quietNs: for how long PWR_EN has been low with EMERG_OFF_N high. -/
def execPwrEnRise (quietNs : Nat) (bscanEn : Bool) (s : State) : Host.Outcome State Fault Refusal :=
  .next <|
    let p := s.pwr
    if !p.standby || p.pwrEn then s
    else if p.phase = .off && !p.emergExt && !p.emergTrip && quietNs ≥ 100000000 then
      { s with pwr := { p with pwrEn := true, phase := .charging, bscan := bscanEn } }
    else { s with pwr := { p with pwrEn := true } }

/-- PWR_GOOD_RELEASE. -/
def execPwrGoodRelease (s : State) : Host.Outcome State Fault Refusal :=
  .next <| if s.pwr.phase = .charging then s.powerOn else s

/-- PWR_EN_FALL: EMERG_OFF_N is no longer driven (R28). -/
def execPwrEnFall (s : State) : Host.Outcome State Fault Refusal :=
  .next <|
    if s.pwr.pwrEn then
      let s := if s.pwr.standby then s.powerOff 1 0 false else s
      { s with pwr := { s.pwr with pwrEn := false, emergTrip := false } }
    else s

/-- EMERG_OFF_EXTERNAL: recorded even while the module is off (R32). -/
def execEmergOffExternal (s : State) : Host.Outcome State Fault Refusal :=
  .next <|
    if s.pwr.standby then
      let s := (s.powerOff 2 0 false).latchCause 2 0
      { s with pwr := { s.pwr with emergExt := true } }
    else s

/-- EMERG_OFF_RELEASE. -/
def execEmergOffRelease (s : State) : Host.Outcome State Fault Refusal :=
  .next <| { s with pwr := { s.pwr with emergExt := false } }

/-- INPUT_OVERVOLTAGE. -/
def execInputOvervoltage (s : State) : Host.Outcome State Fault Refusal :=
  .next <| if s.pwr.standby then s.powerOff 16 0 true else s

/-- INPUT_UNDERVOLTAGE. -/
def execInputUndervoltage (s : State) : Host.Outcome State Fault Refusal :=
  .next <| if s.pwr.standby then s.powerOff 8 0 true else s

/-- RAIL_FAULT (R541): rails are numbered 1 to 15. -/
def execRailFault (rail : Fin 16) (s : State) : Host.Outcome State Fault Refusal :=
  .next <| if s.pwr.standby && rail.val ≠ 0 then s.powerOff 32 rail true else s

/-- THERMAL_TRIP. -/
def execThermalTrip (s : State) : Host.Outcome State Fault Refusal :=
  .next <| if s.pwr.standby then s.powerOff 4 0 true else s

/-- RAIL_WARN (R541). -/
def execRailWarn (rail : Fin 16) (s : State) : Host.Outcome State Fault Refusal :=
  .next <| if s.hubOn && rail.val ≠ 0 then (s.orBits 0x410C 4).raise 0x0104 0 0 rail else s

/-! ## ALERT_SOURCE (R34, R35) -/

/-- The condition of each ALERT_SOURCE bit holds now: bit [3] follows the latch. -/
def State.alertCondition (s : State) (i : Nat) : Bool :=
  let cap := s.rdf 0x4104 0 4
  let th := s.rdf 0x4104 4 4
  if i = 0 then s.pwr.inputOut
  else if i = 1 then s.powered && decide (th < cap)
  else if i = 2 then s.powered && decide (s.rdf 0x4104 8 4 < min cap th)
  else if i = 3 then decide (s.pwr.offCause ≠ 0)
  else s.powered && (List.range 8).any fun k => s.rdf (kLamp k 0) 6 2 ≠ 0

/-- ALERT_SOURCE[4:0]. -/
def State.alertBits (s : State) : Nat := setFld s.pwr.alertSource.toNat 3 1 (b2n (s.alertCondition 3))

/-- ALERT_N is asserted. -/
def State.alertN (s : State) : Bool := s.alertBits ≠ 0

/-- INPUT_OUT_OF_RANGE (R15). -/
def execInputOutOfRange (s : State) : Host.Outcome State Fault Refusal :=
  .next <| if s.pwr.standby then ({ s with pwr := { s.pwr with inputOut := true } } : State).alert 0 else s

/-- INPUT_RETURNS_TO_RANGE. -/
def execInputReturnsToRange (s : State) : Host.Outcome State Fault Refusal :=
  .next <| { s with pwr := { s.pwr with inputOut := false } }

/-! ## SMBus (R33, R34) -/

/-- One step of the SMBus packet error code: CRC-8 with the polynomial x^8 + x^2 + x + 1 (PRESUMED, log 43). -/
def pecBit (c : Byte) : Byte := if c.getLsbD 7 then (c <<< 1) ^^^ 0x07#8 else c <<< 1
def pecByte (c b : Byte) : Byte :=
  pecBit (pecBit (pecBit (pecBit (pecBit (pecBit (pecBit (pecBit (c ^^^ b))))))))
def pec (b : List Byte) : Byte := b.foldl pecByte 0

/-- The 7-bit SMBus address (R33). -/
def State.smbAddress (s : State) : Nat := 0x38 + s.pwr.smbAddr
def State.addrByte (s : State) (rd : Bool) : Byte := BitVec.ofNat 8 (2 * s.smbAddress + b2n rd)

/-- A read of a command code is answered with its data and PEC, while the standby domain runs. -/
def State.smbRead (s : State) (code : Nat) (data : List Byte) : State :=
  if s.pwr.standby then
    s.emit (.smb (data ++ [pec ([s.addrByte false, BitVec.ofNat 8 code, s.addrByte true] ++ data)]))
  else s

/-- STATUS. -/
def execSmbStatus (s : State) : Host.Outcome State Fault Refusal :=
  .next <|
    s.smbRead 0 (leBytes 1 (b2n s.powered + 2 * b2n s.alertN + 4 * b2n (s.alertCondition 3) + 8 * b2n s.pwr.bscan))
def execSmbInputVoltage (reading : BitVec 16) (s : State) : Host.Outcome State Fault Refusal :=
  .next <| s.smbRead 1 (leBytes 2 reading.toNat)
def execSmbInputCurrent (reading : BitVec 16) (s : State) : Host.Outcome State Fault Refusal :=
  .next <| s.smbRead 2 (leBytes 2 reading.toNat)
def execSmbInputPower (reading : BitVec 16) (s : State) : Host.Outcome State Fault Refusal :=
  .next <| s.smbRead 3 (leBytes 2 reading.toNat)

def kTemp (g : Nat) : Nat := 0x4300 + 4 * g

/-- HOTTEST_JUNCTION: the largest PWR_TEMPg for g = 0 to 8 (R545); 0x8000 while PWR_GOOD is low. -/
def State.hottest (s : State) : Nat :=
  if s.powered then
    wrapInt ((List.range 9).foldl (fun m g => max m (sext (s.rdf (kTemp g) 0 16) 16)) (-32768)) 16
  else 0x8000

def execSmbHottest (s : State) : Host.Outcome State Fault Refusal := .next <| s.smbRead 4 (leBytes 2 s.hottest)
def execSmbInlet (reading : BitVec 16) (s : State) : Host.Outcome State Fault Refusal :=
  .next <| s.smbRead 5 (leBytes 2 reading.toNat)
def execSmbOutlet (reading : BitVec 16) (s : State) : Host.Outcome State Fault Refusal :=
  .next <| s.smbRead 6 (leBytes 2 reading.toNat)
def execSmbOffCause (s : State) : Host.Outcome State Fault Refusal :=
  .next <| s.smbRead 7 (leBytes 2 s.pwr.offCause.toNat)
def execSmbAlertSource (s : State) : Host.Outcome State Fault Refusal := .next <| s.smbRead 8 (leBytes 2 s.alertBits)

/-- ALERT_CLEAR, by a Write Word of a command code: a bit whose condition holds stays set. A write with a wrong PEC and a
code that R34's table does not list are not acknowledged; a listed code of a read is left alone (log 73). -/
def execSmbAlertClear (w : SmbWord) (pe : Option Byte) (s : State) : Host.Outcome State Fault Refusal :=
  .next <|
    let good : Bool := match pe with
      | some x => x = pec ([s.addrByte false, w.code] ++ leBytes 2 w.data.toNat)
      | none => true
    if !s.pwr.standby then s
    else if !good || w.code.toNat > 0x0A then s.emit .smbNack
    else if w.code ≠ 9 then s
    else
      let keep := (List.range 5).filter fun i => bit s.pwr.alertSource.toNat i && (!bit w.data.toNat i || s.alertCondition i)
      { s with pwr := { s.pwr with alertSource := BitVec.ofNat 5 (keep.foldl (fun v i => v + 2 ^ i) 0) } }

/-- Part number, stepping and serial number (R34). -/
def State.identity (s : State) : List Byte := asciiPad "ZTX4-SHN" 16 ++ asciiPad "A1" 4 ++ slice s.flash.serial 0 12

def execSmbIdentity (s : State) : Host.Outcome State Fault Refusal := .next <| s.smbRead 0x0A (32 :: s.identity)

/-- ALERT_RESPONSE: the device's address in the upper seven bits, the lowest 0 (PRESUMED, log 43). -/
def execSmbAlertResponse (s : State) : Host.Outcome State Fault Refusal :=
  .next <|
    if s.pwr.standby && s.alertN then s.emit (.smb [s.addrByte false, pec [0x19, s.addrByte false]]) else s

/-- W1C of PWR_OFF_CAUSE (R37). -/
def State.clearOffCause (s : State) (bits : Nat) : State :=
  let v := s.pwr.offCause.toNat
  let low := (List.range 6).foldl (fun a i => if bit v i && !bit bits i then a + 2 ^ i else a) 0
  let v := if bit low 5 then low + fld v 8 8 * 256 else low
  { s with pwr := { s.pwr with offCause := BitVec.ofNat 16 v } }

def execPwrOffCauseClear (bits : W32) (s : State) : Host.Outcome State Fault Refusal :=
  .next <| if s.hubOn then s.clearOffCause bits.toNat else s

/-! ## Boundary scan (R38, R39) -/

def State.setScan (s : State) (die : Nat) (i : ScanIr) : State :=
  { s with pwr := { s.pwr with scanIr := smSet .bypass s.pwr.scanIr die i } }

def execScanBypass (die : Fin 5) (s : State) : Host.Outcome State Fault Refusal :=
  .next <| if s.powered then s.setScan die .bypass else s

def execScanIdcode (die : Fin 5) (s : State) : Host.Outcome State Fault Refusal :=
  .next <| if s.powered then (s.setScan die .idcode).emit (.scan die (leBytes 4 0x1D51E0D3)) else s

/-- SAMPLE_PRELOAD: the pins' levels are shifted out, which the spec does not give (log 4), and new cells are
preloaded. -/
def execScanSample (die : Fin 5) (cells : List Byte) (s : State) : Host.Outcome State Fault Refusal :=
  .next <|
    if s.powered then
      let (pins, s) := s.takeFree cells.length
      let s := (s.setScan die .sample).emit (.scan die pins)
      { s with pwr := { s.pwr with scanCells := smSet [] s.pwr.scanCells die cells } }
    else s

/-- EXTEST, CLAMP and HIGHZ outside boundary-scan mode act as BYPASS (R39). -/
def State.scanDrive (s : State) (die : Nat) (i : ScanIr) : State :=
  if s.powered then s.setScan die (if s.pwr.bscan then i else .bypass) else s

def execScanExtest (die : Fin 5) (s : State) : Host.Outcome State Fault Refusal := .next <| s.scanDrive die .extest
def execScanClamp (die : Fin 5) (s : State) : Host.Outcome State Fault Refusal := .next <| s.scanDrive die .clamp
def execScanHighz (die : Fin 5) (s : State) : Host.Outcome State Fault Refusal := .next <| s.scanDrive die .highz

end Sys2Proof.Machine
end

