-- ==== Sys2Proof/Machine/Clocks.lean ====
section
/-!
DEFINITION. Machine/Clocks.lean: judging the clock sources, clock failures and switching (R530 to R539), curve points,
temperature and power caps (R542 to R549), and the load limiter (R550, R551). Counts, temperatures and powers measured
come as operands.
-/
namespace Sys2Proof.Machine

open Sys2Proof

def kClkStatus : Nat := 0x2000
def kClkSticky : Nat := 0x2004
def kPwrCtrl : Nat := 0x4100
def kPwrPerf : Nat := 0x4104
def kPwrInput : Nat := 0x4108
def kPwrSticky : Nat := 0x410C
def kPwrCount (k : Nat) : Nat := 0x4110 + 8 * k

/-- READY and FAILED of a source: 0 REF, 1 MON, 2 INT, 3 ROOT (R530). -/
def State.srcReady (s : State) (n : Nat) : Bool := bit (s.rd kClkStatus) n
def State.srcFailed (s : State) (n : Nat) : Bool := bit (s.rd kClkStatus) (8 + n)

/-! ## Failures (R535, R536) -/

/-- What INT's failure does to a domain that runs on INT. -/
def State.intLostFor (s : State) (d : Nat) : State :=
  if !bit (s.rd kClkDomains) d then s
  else if s.srcReady 3 then s.wrf kClkDomains d 1 0
  else s.wrf kClkDomains (32 + d) 1 1
/-- The two domains that can run on INT. -/
def State.intLost (s : State) : State := (s.intLostFor 16).intLostFor 17

/-- CORE, FAB, HBM and GRN domains are gated; HUB and LINK go to INT, and stop there if it has failed too (DEDUCED, log
44); ports and feed ports go down. -/
def State.gateForRoot (s : State) : State :=
  let s := (List.range 8).foldl (fun s p => if s.linkSt p ≥ 2 then s.linkDown p 10 false else s) s
  let s := (s.wrf kClkDomains 32 16 0xFFFF).wrf kClkDomains 16 2 3
  let s := if s.srcFailed 2 then s.intLost else s
  { s with
    boot := { s.boot with eth := s.boot.eth.filter fun e => e.2 ≠ 1 || e.1 > 1 }
    clk := { s.clk with loads := [] } }

/-- The account of one source's failure: READY, FAILED, the stickies, CLK_FAIL_TIME and the event. -/
def State.noteClkFail (s : State) (n : Nat) : State :=
  let first : Bool := !bit (s.rd kClkSticky) 0
  let s := (s.wrf kClkStatus n 1 0).wrf kClkStatus (8 + n) 1 1
  let s := s.orBits kClkSticky (1 + 2 ^ (1 + n))
  let s := if first then s.wr 0x2018 s.time else s
  let s := { s with clk := { s.clk with good := smSet 0 s.clk.good n 0, bad := smSet 0 s.clk.bad n 0 } }
  s.raise 0x0101 0 0 n

/-- A source fails. -/
def State.clkFail (s : State) (n : Nat) : State :=
  if s.srcFailed n then s
  else
    let s := s.noteClkFail n
    if n = 0 then (if s.srcFailed 3 then s else s.noteClkFail 3).gateForRoot
    else if n = 3 then s.gateForRoot
    else if n = 2 then s.intLost
    else s.wrf kClkStatus 12 1 1

/-! ## Windows (R532 to R535) -/

/-- A count lies within ±500 ppm of its expectation, given in hundredths. -/
def inTolerance (count exp100 : Nat) : Bool :=
  let d := if count * 100 ≥ exp100 then count * 100 - exp100 else exp100 - count * 100
  d * 1000000 ≤ 500 * exp100

/-- The signed error in ppm, saturating at ±32,767; the fraction is dropped (log 44). -/
def ppmOf (count exp100 : Nat) : Nat :=
  let e := ((count * 100 : Int) - exp100) * 1000000 / exp100
  wrapInt (max (-32767) (min 32767 e)) 16

/-- Judge a source's window: good or bad; counted: a bad window counts towards a failure. -/
def State.judgeSource (s : State) (n : Nat) (good counted : Bool) : State :=
  if good then
    let g := min 8 (smGet 0 s.clk.good n + 1)
    let s := { s with clk := { s.clk with good := smSet 0 s.clk.good n g, bad := smSet 0 s.clk.bad n 0 } }
    if g ≥ 8 then (s.wrf kClkStatus n 1 1).wrf kClkStatus (8 + n) 1 0 else s
  else
    let b := if counted then smGet 0 s.clk.bad n + 1 else 0
    let s := { s with clk := { s.clk with good := smSet 0 s.clk.good n 0, bad := smSet 0 s.clk.bad n (min b 2) } }
    if b ≥ 2 then s.clkFail n else s

/-- The hub moves the trim of INT toward the expected count, by a step that the spec does not give (R534, log 74). -/
def State.trimInt (s : State) (int : Nat) : State :=
  let (k, s) := s.freeNat
  let t := s.clk.trim
  { s with clk := { s.clk with
    trim := if int * 100 > 12582912 then t - k else if int * 100 < 12582912 then t + k else t } }

/-- CLOCK_WINDOW. mon: the window's length in INT cycles; ref, int and root: the counts of R532; locked: the PLL held
lock through the window. -/
def execClockWindow (mon ref int root : Nat) (locked : Bool) (s : State) : Host.Outcome State Fault Refusal :=
  .next <|
    if !s.powered then s
    else
      let before := s.srcReady 1
      let refOk := s.srcReady 0
      let monGood : Bool := (if mon ≥ 125829 then mon - 125829 else 125829 - mon) * 100 ≤ 5 * 125829
      let s := s.judgeSource 1 monGood true
      let s := s.wrf kClkStatus 12 1 (b2n (!s.srcReady 1))
      let s :=
        if !before || !s.srcReady 1 then s
        else
          let s := ((s.wrf 0x2010 0 16 (ppmOf ref 26214400)).wrf 0x2010 16 16 (ppmOf int 12582912)).wrf 0x2010 32 16
            (ppmOf root 6553600)
          let s := s.judgeSource 0 (inTolerance ref 26214400) true
          let s := (s.trimInt int).judgeSource 2 (inTolerance int 12582912) true
          s.judgeSource 3 (refOk && locked && inTolerance root 6553600) (locked || s.srcReady 3)
      if s.time ≥ 80000000 && !s.srcReady 3 && !s.clk.rootLate && !bit (s.rd kStartStatus) 0 then
        ({ s with clk := { s.clk with rootLate := true } } : State).raise 0x0101 0 0 3
      else s

/-- EDGE_LOSS. -/
def execEdgeLoss (src : Fin 4) (s : State) : Host.Outcome State Fault Refusal :=
  .next <| if s.powered then s.clkFail src else s

/-! ## Switching a domain (R539) -/

/-- Switch a domain: 0 to ROOT, 1 to INT. LINK on INT takes every port DOWN with cause RESET. -/
def State.switchDomain (s : State) (d src : Nat) : State :=
  let s := if d = 16 && src = 1 && !bit (s.rd kClkDomains) 16 then
      (List.range 8).foldl (fun s p => if s.linkSt p ≥ 2 then s.linkDown p 10 false else s) s
    else s
  s.wrf kClkDomains d 1 src

/-! ## Curve points (R542, R543) -/

/-- Entry i of domain d's curve table: the birth record's, and where State names none the typical ones of chapter 16
(log 41). -/
def curveTypical (d i : Nat) : Nat :=
  let pt := fun (dv mv tmax : Nat) => 2 ^ 31 + tmax * 2 ^ 16 + mv * 2 ^ 5 + dv
  if d < 4 then
    (if i = 15 then pt 8 850 98 else if i = 14 then pt 9 810 100 else if i = 12 then pt 11 740 103
     else if i = 8 then pt 15 660 105 else if i = 0 then pt 23 600 255 else 0)
  else if i = 15 then pt (if d < 8 then 12 else if d < 12 then 14 else if d < 17 then 16 else 24) 750 255
  else 0

def State.curve (s : State) (d i : Nat) : Nat := (smGet (BitVec.ofNat 32 (curveTypical d i)) s.flash.curves (16 * d + i)).toNat

/-- The point is VALID in every CORE table. -/
def State.pointOk (s : State) (i : Nat) : Bool := (List.range 4).all fun d => bit (s.curve d i) 31

/-- The highest point at or below n with VALID 1; point 0 has it always. -/
def State.lowerTo (s : State) : Nat → Nat
  | 0 => 0
  | n + 1 => if s.pointOk (n + 1) then n + 1 else s.lowerTo n

/-- The lowest point above n with VALID 1, within fuel. -/
def State.raiseFrom (s : State) (n : Nat) : Nat → Nat
  | 0 => n
  | k + 1 => if s.pointOk (n + 1) then n + 1 else s.raiseFrom (n + 1) k

def State.targetPoint (s : State) : Nat :=
  let p := s.rd kPwrPerf
  s.lowerTo (min (fld p 0 4) (min (fld p 4 4) (fld p 8 4)))

/-- POINT_CHANGE: one point towards the target. -/
def execPointChange (s : State) : Host.Outcome State Fault Refusal :=
  .next <|
    let p := s.rdf kPwrPerf 12 4
    let t := s.targetPoint
    if !s.hubOn then s
    else if t < p then s.wrf kPwrPerf 12 4 (max t (s.lowerTo (p - 1)))
    else if p < t then s.wrf kPwrPerf 12 4 (s.raiseFrom p (t - p))
    else s

/-- ALERT_SOURCE bits [1] and [2] follow their conditions up (R546, R548). -/
def State.capAlerts (s : State) : State :=
  let s := if s.alertCondition 1 then s.alert 1 else s
  if s.alertCondition 2 then s.alert 2 else s

/-- A new CAP (R549). -/
def State.setCap (s : State) (c : Nat) : State := (s.wrf kPwrPerf 0 4 c).capAlerts
def State.askCap (s : State) (c : Nat) : State :=
  if s.quiet then ({ s with clk := { s.clk with newCap := none } } : State).setCap c
  else { s with clk := { s.clk with newCap := some c } }

/-- A step begins: a waiting CAP takes effect. -/
def State.takeCap (s : State) : State :=
  match s.clk.newCap with
  | some c => ({ s with clk := { s.clk with newCap := none } } : State).setCap c
  | none => s

/-! ## Temperature (R545, R546) -/

/-- The highest point that die d allows at a temperature in 0.1 °C, from its present limit. -/
def State.dieLimit (s : State) (d : Nat) (temp : Int) (cur : Nat) : Nat → Nat
  | 0 => 0
  | n + 1 =>
    let e := s.curve d (n + 1)
    let tmax : Int := fld e 16 8 * 10
    let ok : Bool := bit e 31 && (fld e 16 8 = 255 || (if n + 1 ≤ cur then temp < tmax else temp + 20 ≤ tmax))
    if ok then n + 1 else s.dieLimit d temp cur n

/-- Throttle temperature of component g, in 0.1 °C. -/
def throttleAt (g : Nat) : Int := if g ≤ 8 then 1050 else if g ≤ 16 then 950 else if g ≤ 32 then 900 else 800

/-- The component reported by EV_THERMAL_THROTTLE: the first die at the limit, else the first component at its throttle
temperature, else the hub die (log 44). -/
def throttleSource (caps : List (Nat × Nat)) (cap : Nat) (overs : List Nat) : Nat :=
  match caps.find? (·.2 = cap) with
  | some e => e.1
  | none => overs.headD 8

/-- TEMP_SAMPLE. temps: the hottest sensor of each of the 43 components, in 0.1 °C; 0x8000 when unread. -/
def execTempSample (temps : List (BitVec 16)) (s : State) : Host.Outcome State Fault Refusal :=
  .next <|
    if !s.hubOn then s
    else
      let s := (List.range 43).foldl (fun s g => s.wrf (kTemp g) 0 16 (temps.getD g 0x8000#16).toNat) s
      let t := fun g => sext (s.rdf (kTemp g) 0 16) 16
      let caps := (List.range 4).map fun d => (d, s.dieLimit d (t d) (smGet 15 s.clk.dieCap d) 15)
      let other := (List.range 37).map (· + 4)
      let overs := other.filter fun g => t g ≥ throttleAt g
      let cool : Bool := other.all fun g => t g + 20 ≤ throttleAt g
      let age : Int := if overs ≠ [] then max s.clk.downAge 0 + 1 else if cool then min s.clk.downAge 0 - 1 else 0
      let down := if age ≥ 10 then min 15 (s.clk.down + 1) else if age ≤ -100 then s.clk.down - 1 else s.clk.down
      let age : Int := if age ≥ 10 || age ≤ -100 then 0 else age
      let cap := caps.foldl (fun m e => min m e.2) (15 - down)
      let was : Bool := s.rdf kPwrPerf 4 4 < s.rdf kPwrPerf 0 4
      let s := { s with clk := { s.clk with
        dieCap := caps.foldl (fun (m : SMap Nat) (e : Nat × Nat) => smSet 15 m e.1 e.2) s.clk.dieCap, down := down, downAge := age } }
      let s := s.wrf kPwrPerf 4 4 cap
      let s :=
        if !was && cap < s.rdf kPwrPerf 0 4 then
          let g := throttleSource caps cap overs
          (s.orBits kPwrSticky 1).raise 0x0102 0 0 (g + s.rdf (kTemp g) 0 16 * 2 ^ 16)
        else s
      s.capAlerts

/-! ## Power limit (R548) -/

/-- POWER_WINDOW. meanW: mean input power over 1 ms, in W; mv10: the input voltage in 10 mV units; rails: voltage and
current of rails 1 to 15, in mV and 0.1 A. -/
def execPowerWindow (meanW : Nat) (mv10 : BitVec 16) (rails : List (BitVec 16 × BitVec 16)) (s : State) :
    Host.Outcome State Fault Refusal :=
  .next <|
    if !s.hubOn then s
    else
      let s := ((withIdx rails 1).take 15).foldl
        (fun s e => s.wr (0x4200 + 4 * e.1) (e.2.1.toNat + e.2.2.toNat * 2 ^ 16)) s
      let s := (s.wrf kPwrInput 0 12 (min meanW 0xFFF)).wrf kPwrInput 16 16 mv10.toNat
      let lim := s.rdf kPwrCtrl 0 12
      let pc := s.rdf kPwrPerf 8 4
      let base := min (s.rdf kPwrPerf 0 4) (s.rdf kPwrPerf 4 4)
      let calm := if meanW + 50 < lim then s.clk.calm + 1 else 0
      let pc' := if meanW > lim then pc - 1 else if calm ≥ 10 then min 15 (pc + 1) else pc
      let s := { s with clk := { s.clk with calm := if calm ≥ 10 then 0 else calm } }
      let s := s.wrf kPwrPerf 8 4 pc'
      let s := if pc ≥ base && pc' < base then (s.orBits kPwrSticky 2).raise 0x0103 0 0 meanW else s
      s.capAlerts

/-! ## Load limiter (R550, R551) -/

/-- Bounds of the next estimate, mW: within 46 W of every estimate of the last 1 µs, within 1,150 W of every one of the
last 1 ms, and at most 1,900 W. -/
def loadBounds (loads : List Nat) : Nat × Nat :=
  let l := if loads = [] then [0] else loads
  let near := l.take 10
  let mx := fun (x : List Nat) => x.foldl max 0
  let mn := fun (x : List Nat) => x.foldl min 1900000
  (max (mx near - 46000) (mx l - 1150000), min (min (mn near + 46000) (mn l + 1150000)) 1900000)

/-- LOAD_ESTIMATE. demand: what the tiles would draw unshaped, in mW. -/
def execLoadEstimate (demand : Nat) (s : State) : Host.Outcome State Fault Refusal :=
  .next <|
    if !s.hubOn then s
    else
      -- at the gating of R536 the load falls at once to that of the blocks that keep running, and nothing shapes it
      if s.gated 0 then { s with clk := { s.clk with loads := demand :: s.clk.loads.take 9999 } } else
      let floor := if s.quiet then 0 else min (s.rdf kPwrCtrl 16 12) (s.rdf kPwrCtrl 0 12) * 1000
      let (lo, hi) := loadBounds s.clk.loads
      let load := max lo (min hi (max demand floor))
      let held : Bool := load < demand
      let b := s.clk.ballast + (load - demand)
      let s := { s with clk := { s.clk with loads := load :: s.clk.loads.take 9999, ballast := b % 10000000 } }
      let s := s.bump (kPwrCount 3) (b / 10000000)
      if held then (s.bump (kPwrCount 2) 100).orBits kPwrSticky 8 else s

/-- One nanosecond of the caps' counters (R554). -/
def State.capTick (s : State) : State :=
  if !s.hubOn then s
  else
    let p := s.rd kPwrPerf
    let s := if fld p 4 4 < fld p 0 4 then s.bump (kPwrCount 0) 1 else s
    if fld p 8 4 < min (fld p 0 4) (fld p 4 4) then s.bump (kPwrCount 1) 1 else s

/-! ## Resets -/

/-- RESET_MODULE: every domain returns to ROOT, ungated, at the point the caps allow (R556). -/
def State.clocksReset (s : State) : State :=
  let s := s.wr kClkDomains 0
  s.wrf kPwrPerf 12 4 s.targetPoint

/-- RNG_HEALTH_FAIL and RNG_HEALTH_RESTORED (R504). -/
def execRngHealthFail (s : State) : Host.Outcome State Fault Refusal :=
  .next <| if s.powered then s.wrf 0xC000 4 1 1 else s
def execRngHealthRestored (s : State) : Host.Outcome State Fault Refusal :=
  .next <| if s.powered then s.wrf 0xC000 4 1 0 else s

end Sys2Proof.Machine
end

