-- ==== Sys2Proof/Machine/Records.lean ====
section
/-!
DEFINITION. Machine/Records.lean: the event recorder (R561 to R566), sticky registers (R559, R560) and the monitor
channels (R568 to R571).
-/
namespace Sys2Proof.Machine

open Sys2Proof

/-! ## The ring -/

/-- SEVERITY of an event code without LOST and SATURATED (R561, R567). -/
def severityOf (code : Nat) : Nat :=
  if code = 0x0101 then 4 + 32
  else if code = 0x0603 then 4
  else if [0x0202, 0x0203, 0x0204, 0x0302, 0x0304, 0x0305, 0x0306, 0x0402, 0x0405, 0x0407, 0x0408, 0x0502, 0x0503,
      0x0601, 0x0602, 0x0801, 0x0901, 0x0903].contains code then 3
  else if [0x0102, 0x0104, 0x0201, 0x0205, 0x0307, 0x0409, 0x0605, 0x0703, 0x0704, 0x0802, 0x0805, 0x0902,
      0x0904].contains code then 2
  else if [0x0401, 0x0404, 0x0406, 0x0701].contains code then 0
  else 1

/-- The 28 bytes of a record before its CRC, with the CRC (R561). -/
def recordBytes (seq time src code rep sev arg : Nat) : List Byte :=
  let b := leBytes 4 seq ++ leBytes 8 time ++ leBytes 2 src ++ leBytes 2 code ++ leBytes 2 rep ++ leBytes 2 sev ++ leBytes 8 arg
  b ++ leBytes 4 (crc32 b)

def kRing (slot j : Nat) : Nat := 0x20000 + 32 * slot + 8 * j
/-- The ring slot at an offset of CSR space. -/
def ringSlotAt (off : Nat) : Option Nat := if kRing 0 0 ≤ off && off < kRing 4096 0 then some ((off - kRing 0 0) / 32) else none
/-- The ring word at an offset holds an uncorrectable error: a read of it completes with UE (R573). -/
def State.badRing (s : State) (off : Nat) : Bool := (ringSlotAt off).any s.erec.badSlots.contains

/-- The record in a ring slot. -/
def State.ringSlot (s : State) (k : Nat) : List Byte := (List.range 4).flatMap fun j => leBytes 8 (s.rd (kRing k j))

/-- Write a record to a slot: new check bits. -/
def State.putRing (s : State) (k : Nat) (b : List Byte) : State :=
  let s := (List.range 4).foldl (fun s j => s.wr (kRing k j) (leAt b (8 * j) 8)) s
  { s with erec := { s.erec with badSlots := s.erec.badSlots.filter (· ≠ k) } }

/-- The recorder accepts an event: a fold or a new record (R564). -/
def State.record (s : State) (e : Ev) : State :=
  let src := e.cls * 4096 + e.inst
  let head := s.rd kRecHead
  let fold := s.rdf kRecCtrl 0 16
  let joins : Bool := match s.erec.last with
    | some (src', code', t) => !e.lost && src' = src && code' = e.code && (fold = 0 || e.time < t + fold * 1000000)
    | none => false
  if joins then
    let k := (head + 2 ^ 32 - 1) % 4096
    let b := s.ringSlot k
    let rep := leAt b 16 2
    let sev := leAt b 18 2
    let mk := fun (rep sev : Nat) => recordBytes (leAt b 0 4) (leAt b 4 8) (leAt b 12 2) (leAt b 14 2) rep sev (leAt b 20 8)
    if rep = 0xFFFF then (s.putRing k (mk rep (setFld sev 4 1 1))).bump kRecSaturated 1
    else s.putRing k (mk (rep + 1) sev)
  else
    let s := s.putRing (head % 4096)
      (recordBytes head e.time src e.code 0 (severityOf e.code + 8 * b2n e.lost) e.arg)
    let next := (head + 1) % 2 ^ 32
    let full : Bool := (head + 2 ^ 32 - s.rd kRecOldest) % 2 ^ 32 ≥ 4096
    let s := s.wr kRecHead next
    let s := if full then s.wr kRecOldest ((s.rd kRecOldest + 1) % 2 ^ 32) else s
    { s with erec := { s.erec with last := some (src, e.code, e.time) } }

/-- EVENT: the oldest queued event reaches the ring, or is dropped while FREEZE is 1 (R565). -/
def execEventReached (s : State) : Host.Outcome State Fault Refusal :=
  .next <|
    match s.erec.queue with
    | [] => s
    | e :: q =>
      let s := { s with erec := { s.erec with queue := q } }
      if !s.hubOn then { s with erec := { s.erec with queue := e :: q } }
      else if bit (s.rd kRecCtrl) 16 then
        let s := (s.bump kRecDropped 1).orBits kRecSticky 1
        { s with erec := { s.erec with
            dropped := s.erec.dropped || q = []
            queue := match q with | [] => [] | f :: r => { f with lost := true } :: r } }
      else s.record e

/-- Records from sequence number q up to REC_HEAD, at most n of them; a slot with an uncorrectable error is skipped. -/
def State.readRing (s : State) (head : Nat) : Nat → Nat → Nat → List Byte → List Byte × State
  | 0, _, _, acc => (acc, s)
  | fuel + 1, q, n, acc =>
    if n = 0 || q = head then (acc, s)
    else
      let k := q % 4096
      if s.erec.badSlots.contains k then
        (s.orBits kRecSticky 2).readRing head fuel ((q + 1) % 2 ^ 32) n acc
      else s.readRing head fuel ((q + 1) % 2 ^ 32) (n - 1) (acc ++ s.ringSlot k)

/-- READ_RECORDS (R566). -/
def State.cmdReadRecords (s : State) (b : List Byte) : Ans :=
  let f := leAt b 0 4
  let n := leAt b 4 2
  if n = 0 || n > 127 || !zeroAt b 6 2 then s.no stBadParam
  else
    let head := s.rd kRecHead
    let old := s.rd kRecOldest
    let start := if serialLater 32 old f then old else f
    if f = head || serialLater 32 f head then (stOk, leBytes 4 0, s)
    else
      let (d, s) := s.readRing head 4096 start n []
      (stOk, leBytes 4 (d.length / 32) ++ d, s)

/-! ## Sticky registers (R7, R559, R560) -/

/-- A W1C write of v to the register with a key (R6), under the rules that keep bits set and those that clear more. -/
def State.w1c (s : State) (key o v : Nat) (row : RegRow) : State :=
  let old := s.rd key
  let new := Nat.xor old (Nat.land old (Nat.land v row.w1c))
  if key = kClkSticky then
    let keep := (List.range 4).foldl (fun a n => if s.srcFailed n && bit old (1 + n) then a + 2 ^ (1 + n) else a) 0
    s.wr key (Nat.lor new (if keep = 0 then 0 else keep + 1))
  else if key = kOffCause then s.clearOffCause v
  else if csrBlock key = 5 && (o = 0x84 || o = 0x10C) then s.wr key (if bit new 31 then new else 0)
  else s.wr key new

/-- The register is one of R559. -/
def isSticky (key o : Nat) : Bool :=
  let b := csrBlock key
  if b = 0 then [0x2004, 0x410C, 0x8808, 0xA008, 0xC034, 0xE004].contains o
  else if b = 5 then [0x28, 0x110, 0x114].contains o
  else if b ≤ 4 then
    [0x100040, 0x110020, 0x120024, 0x1200A0, 0x120128, 0x120228, 0x120230, 0x130050, 0x130214, 0x140018, 0x140110,
      0x140F80].contains o || (0x144000 ≤ o && o < 0x144200 && o % 8 = 0)
  else b = 6 && o = 0x1C

/-- CLEAR_STICKY (R560). -/
def State.cmdClearSticky (s : State) (b : List Byte) : Ans :=
  let a := leAt b 0 8
  if a = 0 then
    (s.csr.foldl (fun s e => match regFind e.1 with
      | some r => if isSticky r.key r.o then s.w1c r.key r.o all64 r.row else s
      | none => s) s).yes
  else if a < csrBase || a ≥ csrBase + 2 ^ 24 then s.no stBadParam
  else match regFind (a - csrBase) with
    | some r => if isSticky r.key r.o then (s.w1c r.key r.o all64 r.row).yes else s.no stBadParam
    | none => s.no stBadParam

/-! ## Monitor channels (R568 to R571) -/

def kHist (n o : Nat) : Nat := 0x10000 + 0x100 * n + o

/-- The number of instances of a source, from 0, and whether it is a level; RAIL_IDs start at 1 (R569). -/
def monSource (src inst : Nat) : Option Bool :=
  let ok := fun (n : Nat) (level : Bool) => if inst < n then some level else none
  match src with
  | 0x01 | 0x02 | 0x03 | 0x04 | 0x07 => ok 4 false
  | 0x05 | 0x06 | 0x08 => ok 1 false
  | 0x10 => ok 43 true
  | 0x11 | 0x12 => if inst = 0 then none else ok 16 true
  | 0x13 => ok 1 true
  | 0x14 | 0x15 => ok 8 true
  | _ => none

/-- A configuration that R568 accepts. -/
def monConfigOk (c : List Byte) : Bool :=
  let src := leAt c 0 2
  let mode := leAt c 4 1
  let period := leAt c 6 2
  let linear := bit mode 1
  mode / 4 = 0 &&
  (if linear then leAt c 5 1 = 0 && leAt c 16 8 ≥ 1 else leAt c 5 1 ≤ 33 && zeroAt c 8 16) &&
  (src = 0 || match monSource src (leAt c 2 2) with
    | none => false
    | some level => if level then period ≥ 1 else period = 0)

/-- MONITOR_CONFIG (R568). -/
def State.cmdMonitorConfig (s : State) (b : List Byte) : Ans :=
  let n := leAt b 0 1
  let c := slice b 8 24
  if n > 31 || !zeroAt b 1 7 || !monConfigOk c then s.no stBadParam
  else
    let s := s.resetRegs fun k => kHist n 0 ≤ k && k < kHist n 0x100
    ((List.range 3).foldl (fun s j => s.wr (kHist n (8 * j)) (leAt c (8 * j) 8)) s).yes

/-- The bin of a sample (R570). -/
def monBin (linear : Bool) (base : Nat) (low : Int) (width : Nat) (v : Int) : Nat :=
  if linear then (max 0 (min 31 ((v - low) / width))).toNat
  else match (List.range 31).find? fun b => v < (2 ^ (base + b) : Nat) with
    | some b => b
    | none => 31

/-- Capture a sample (R570). -/
def State.capture (s : State) (n : Nat) (v : Int) : State :=
  let v := max (-2147483648) (min 2147483647 v)
  let mode := s.rdf (kHist n 0) 32 8
  let bin := monBin (bit mode 1) (s.rdf (kHist n 0) 40 8) (sext (s.rd (kHist n 8)) 64) (s.rd (kHist n 16)) v
  let sum := max (-(2 ^ 63 : Nat) : Int) (min ((2 ^ 63 - 1 : Nat) : Int) (sext (s.rd (kHist n 0x28)) 64 + v))
  let mn := min (sext (s.rdf (kHist n 0x30) 0 32) 32) v
  let mx := max (sext (s.rdf (kHist n 0x30) 32 32) 32) v
  let s := (s.bump (kHist n 0x20) 1).wr (kHist n 0x28) (wrapInt sum 64)
  (s.wr (kHist n 0x30) (wrapInt mn 32 + wrapInt mx 32 * 2 ^ 32)).bumpW 32 (kHist n (0x40 + 4 * bin)) 1

/-- What a level source reads now; none while it gives no sample (R569). -/
def State.levelOf (s : State) (src inst : Nat) : Option Int :=
  match src with
  | 0x10 => let t := s.rdf (kTemp inst) 0 16; if t = 0x8000 then none else some (sext t 16)
  | 0x11 => some (s.rdf (0x4200 + 4 * inst) 0 16)
  | 0x12 => some (s.rdf (0x4200 + 4 * inst) 16 16)
  | 0x13 => some (s.rdf kPwrInput 0 12)
  | 0x14 => if s.lampSt inst = 4 then some (s.rd (kLamp inst 0x14)) else none
  | 0x15 => if s.lampSt inst = 4 then some (s.rd (kLamp inst 0x10)) else none
  | _ => none

/-- A latency source gives a sample to every channel that captures it (R569). -/
def State.sample (s : State) (src inst v : Nat) : State :=
  (List.range 32).foldl (fun s n =>
    if s.rdf (kHist n 0) 0 16 = src && s.rdf (kHist n 0) 16 16 = inst && bit (s.rd (kHist n 0)) 32 then s.capture n v else s) s

/-- The latency sources whose ends are events of this model: it captures them itself. -/
def ownSource (src : Nat) : Bool := src = 1 || (4 ≤ src && src ≤ 8)

/-- MONITOR_SAMPLE: a channel's source gives a sample; lat: the latency, for a source of memory reads. -/
def execMonitorSample (ch : Fin 32) (lat : Int) (s : State) : Host.Outcome State Fault Refusal :=
  .next <|
    let src := s.rdf (kHist ch 0) 0 16
    if !s.hubOn || src = 0 || ownSource src || !bit (s.rd (kHist ch 0)) 32 then s
    else if src < 0x10 then s.capture ch lat
    else match s.levelOf src (s.rdf (kHist ch 0) 16 16) with
      | some v => s.capture ch v
      | none => s

/-- The 160-byte record of a channel (R571). -/
def State.monRecord (s : State) (n : Nat) : List Byte :=
  leBytes 1 n ++ leBytes 1 (s.rdf (kHist n 0) 32 8) ++ leBytes 2 (s.rdf (kHist n 0) 0 16) ++
  leBytes 2 (s.rdf (kHist n 0) 16 16) ++ leBytes 2 0 ++ leBytes 8 (s.rd (kHist n 0x20)) ++ leBytes 8 (s.rd (kHist n 0x28)) ++
  leBytes 8 (s.rd (kHist n 0x30)) ++ (List.range 32).flatMap fun b => leBytes 4 (s.rd (kHist n (0x40 + 4 * b)))

/-- MONITOR_READ (R571). -/
def State.cmdMonitorRead (s : State) (b : List Byte) : Ans :=
  let chans := (List.range 32).filter (bit (leAt b 0 4))
  if chans = [] || chans.length > 25 || !zeroAt b 4 4 then s.no stBadParam
  else (stOk, chans.flatMap s.monRecord, s)

end Sys2Proof.Machine
end

