-- ==== Sys2Proof/Machine/Operands.lean ====
section
/-!
DEFINITION. Machine/Operands.lean: the fields of a VE instruction and their legality (R180, R182), the VE's registers
and lanes (R176, R184), and its accesses to local SRAM (R185, R186, R194).
-/
namespace Sys2Proof.Machine

open Sys2Proof

/-! ## Instruction fields (R180) -/

def vOp (w : Nat) : Nat := fld w 56 8
def vMask (w : Nat) : Nat := fld w 53 3
def vMz (w : Nat) : Bool := bit w 52
def vD (w : Nat) : Nat := fld w 47 5
def vA (w : Nat) : Nat := fld w 42 5
def vB (w : Nat) : Nat := fld w 37 5
def vC (w : Nat) : Nat := fld w 32 5
def vImm (w : Nat) : Nat := fld w 0 32

/-- What a register field names. -/
inductive RegKind where
  | none | v | x | m
  deriving DecidableEq, Repr

/-- The field rules of one operation: what D, A, B and C name, whether MASK and MZ may be used, and the mask of the
IMM bits it uses (R180, R182). -/
structure VeForm where
  d : RegKind
  a : RegKind
  b : RegKind
  c : RegKind
  mask : Bool
  mz : Bool
  imm : Nat
  deriving DecidableEq, Repr

/-- The operation table (R182). An operation that names a sub-field of IMM has the bits above it 0 (log 90). -/
def veForm (op : Nat) : Option VeForm :=
  let full := 0xFFFFFFFF
  let sc := fun (d a b : RegKind) (imm : Nat) => some (VeForm.mk d a b .none false false imm)
  let vv := fun (d a b c : RegKind) (imm : Nat) => some (VeForm.mk d a b c true true imm)
  let mm := fun (d a b c : RegKind) (imm : Nat) => some (VeForm.mk d a b c true false imm)
  match op with
  | 0x00 | 0x01 => sc .none .none .none 0
  | 0x02 => sc .none .none .none full
  | 0x03 | 0x04 => sc .none .x .none full
  | 0x05 => sc .x .none .none full
  | 0x06 => sc .none .none .none 0x1F
  | 0x10 => sc .x .none .none full
  | 0x11 => sc .x .x .none full
  | 0x12 => sc .x .x .x full
  | 0x13 | 0x14 | 0x15 | 0x16 | 0x17 => sc .x .x .x 0
  | 0x18 | 0x19 => sc .x .x .x full
  | 0x1A | 0x1B => sc .x .x .x 0
  | 0x1C => sc .x .x .none full
  | 0x1D => sc .none .x .x full
  | 0x1E => sc .x .none .none full
  | 0x20 | 0x22 | 0x24 | 0x26 => vv .v .x .none .none full
  | 0x21 | 0x23 | 0x25 | 0x27 => mm .v .x .none .none full
  | 0x28 => vv .v .x .v .none 0
  | 0x29 => mm .v .x .v .none 0
  | 0x2A => vv .v .x .none .none 0
  | 0x2B => sc .v .x .none 0
  | 0x30 | 0x31 | 0x32 | 0x34 | 0x36 | 0x37 => vv .v .v .v .none 0
  | 0x33 => vv .v .v .v .v 0
  | 0x35 | 0x38 | 0x39 | 0x3A | 0x3B | 0x3C => vv .v .v .none .none 0
  | 0x3D | 0x3E | 0x3F => mm .m .v .v .none 0
  | 0x40 | 0x41 | 0x42 | 0x43 | 0x44 | 0x45 | 0x46 | 0x47 | 0x48 | 0x49 | 0x4A | 0x4B => vv .v .v .v .none 0
  | 0x4C | 0x4D => mm .m .v .v .none 0
  | 0x4E => vv .v .v .none .none full
  | 0x50 => vv .v .v .none .none 0xFF
  | 0x51 => vv .v .v .v .none 0xFF
  | 0x52 | 0x53 => vv .v .v .none .none 0
  | 0x58 => mm .v .v .v .none 0
  | 0x59 => vv .v .v .v .none 0
  | 0x5A => vv .v .v .x .none 0
  | 0x5B => sc .x .v .none 0x3F
  | 0x5C => sc .v .x .none 0x3F
  | 0x5D => vv .v .v .none .none 0
  | 0x60 | 0x61 | 0x62 | 0x63 | 0x64 | 0x65 => mm .x .v .none .none 0
  | 0x68 | 0x69 | 0x6A => sc .m .m .m 0
  | 0x6B => sc .m .m .none 0
  | 0x6C => sc .m .x .none 0
  | 0x6D | 0x6E => sc .x .m .none 0
  | 0x70 => vv .v .x .none .x 3
  | 0x71 => mm .m .x .x .x 0
  | 0x78 | 0x79 => some ⟨.none, .x, .x, .x, false, false, 0⟩
  | _ => none

def RegKind.ok (k : RegKind) (n : Nat) : Bool :=
  match k with
  | .none => n = 0
  | .m => n < 8
  | _ => true

/-- The instruction keeps the field rules of its operation. -/
def veLegal (w : Nat) : Bool :=
  match veForm (vOp w) with
  | none => false
  | some f =>
    f.d.ok (vD w) && f.a.ok (vA w) && f.b.ok (vB w) && f.c.ok (vC w) && (f.mask || vMask w = 0) && (f.mz || !vMz w) &&
    Nat.land (vImm w) f.imm = vImm w

/-- Sext(IMM) modulo 2^64. -/
def vSext (w : Nat) : W64 := BitVec.ofInt 64 (sext (vImm w) 32)

/-! ## Registers -/

def VeState.xr (v : VeState) (n : Nat) : W64 := smGet 0 v.x n
def VeState.setX (v : VeState) (n : Nat) (x : W64) : VeState := { v with x := smSet 0 v.x n x }
/-- A mask register; M0 reads as all ones and ignores writes (R176). -/
def VeState.mr (v : VeState) (n : Nat) : W64 := if n = 0 then BitVec.allOnes 64 else smGet 0 v.m n
def VeState.setM (v : VeState) (n : Nat) (x : W64) : VeState := if n = 0 then v else { v with m := smSet 0 v.m n x }
def VeState.lane (v : VeState) (n l : Nat) : W32 := smGet 0 v.v (64 * n + l)
def VeState.setLane (v : VeState) (n l : Nat) (x : W32) : VeState := { v with v := smSet 0 v.v (64 * n + l) x }

/-- The active lanes of an instruction. -/
def VeState.active (v : VeState) (w : Nat) : List Nat := (List.range 64).filter fun l => (v.mr (vMask w)).getLsbD l

def VeState.setLanes (v : VeState) (n : Nat) : List (Nat × W32) → VeState
  | [] => v
  | (l, x) :: r => (v.setLane n l x).setLanes n r

/-- Write the active lanes of Vd; inactive lanes are kept, or zeroed under MZ (R184). -/
def VeState.writeV (v : VeState) (w : Nat) (vals : List (Nat × W32)) : VeState :=
  let v := if vMz w then
      v.setLanes (vD w) (((List.range 64).filter fun l => !(v.mr (vMask w)).getLsbD l).map fun l => (l, 0))
    else v
  v.setLanes (vD w) vals

/-- A mask from a list of lanes. -/
def maskOf (ls : List Nat) : W64 := ls.foldl (fun m l => m ||| BitVec.ofNat 64 (2 ^ l)) 0

/-! ## Local accesses -/

/-- Where a lane reads or writes: byte offset, bytes, bit shift within them, bit width. -/
structure Span where
  off : Nat
  n : Nat
  sh : Nat
  w : Nat
  deriving DecidableEq, Repr

/-- Inside the 1 MiB and aligned (R185). -/
def Span.ok (x : Span) (al : Nat) : Bool := x.off % al = 0 && x.off + x.n ≤ 0x100000

/-- A transfer whose range holds a local byte. -/
def DmaXfer.has (x : DmaXfer) (o : Nat) : Bool := x.laddr ≤ o && o < x.laddr + x.len

/-- Bytes a load must not trust: the destinations of DMAGETs that no DMAWAIT has seen complete (R194). -/
def VeState.stale (v : VeState) (o : Nat) : Bool :=
  (v.dma.any fun x => !x.put && x.has o) || (v.unseen.any fun x => !x.put && x.has o)

/-- Bytes a store must not touch: the ranges of every transfer that no DMAWAIT has seen complete (R194). -/
def VeState.locked (v : VeState) (o : Nat) : Bool := (v.dma.any (·.has o)) || (v.unseen.any (·.has o))

/-- Replace by free bytes those whose offsets satisfy p. -/
def blur (p : Nat → Bool) : Nat → Nat → List Byte → List Byte
  | _, _, [] => []
  | k, o, b :: bs => (if p o then Config.freeByte k else b) :: blur p (k + 1) (o + 1) bs

/-- A VE read of its own SRAM: bytes read in breach of R194 are undefined. -/
def State.veRead (s : State) (c o n : Nat) : Rd (List Byte) :=
  match s.coreRead c o n with
  | (.error e, s) => (.error e, s)
  | (.ok bs, s) =>
    let v := s.ve c
    if v.dma = [] && v.unseen = [] then (.ok bs, s)
    else (.ok (blur v.stale s.free o bs), { s with free := s.free + n })

/-- A VE write of its own SRAM: bytes written in breach of R194 are undefined, and a DMAGET's destination stays so
when it completes. -/
def State.veWrite (s : State) (c o : Nat) (bs : List Byte) : State :=
  let v := s.ve c
  if v.dma = [] && v.unseen = [] then s.poke (coreAddr c o) bs
  else
    let hit := fun (x : DmaXfer) => x.laddr < o + bs.length && o < x.laddr + x.len
    let s := s.setVe c { v with dma := v.dma.map fun x => if hit x then { x with tainted := true } else x }
    { s with free := s.free + bs.length }.poke (coreAddr c o) (blur v.locked s.free o bs)

/-- Read the spans of the active lanes, in lane order. -/
def State.veLoad (s : State) (c : Nat) : List (Nat × Span) → Rd (List (Nat × W32))
  | [] => (.ok [], s)
  | (l, x) :: r =>
    match s.veRead c x.off x.n with
    | (.error e, s) => (.error e, s)
    | (.ok bs, s) =>
      match s.veLoad c r with
      | (.error e, s) => (.error e, s)
      | (.ok vs, s) => (.ok ((l, BitVec.ofNat 32 (fld (leNat bs) x.sh x.w)) :: vs), s)

/-- Write the spans of the active lanes, in lane order, so the higher lane wins (R186); bits outside an element are
left as they were (R184). -/
def State.veStore (s : State) (c : Nat) : List (Nat × Span × W32) → Except Bool Unit × State
  | [] => (.ok (), s)
  | (_, x, v) :: r =>
    if x.sh = 0 && x.w = 8 * x.n then (s.veWrite c x.off (leBytes x.n v.toNat)).veStore c r
    else
      match s.veRead c x.off x.n with
      | (.error e, s) => (.error e, s)
      | (.ok bs, s) => (s.veWrite c x.off (leBytes x.n (setFld (leNat bs) x.sh x.w v.toNat))).veStore c r

/-- Spans of the plain vector accesses: n bytes per lane from a base (modulo 2^64). -/
def plainSpans (base : W64) (n : Nat) (ls : List Nat) : List (Nat × Span) :=
  ls.map fun l => (l, ⟨(base + BitVec.ofNat 64 (n * l)).toNat, n, 0, 8 * n⟩)

/-- Spans of a packed run of width-bit elements (R135). -/
def packedSpans (base : W64) (width : Nat) (ls : List Nat) : List (Nat × Span) :=
  ls.map fun l =>
    (l, ⟨(base + BitVec.ofNat 64 (width * l / 8)).toNat, (width * l + width + 7) / 8 - width * l / 8, width * l % 8,
      width⟩)

/-- Spans of gather and scatter: a signed 32-bit offset per lane. -/
def offsetSpans (base : W64) (v : VeState) (b : Nat) (ls : List Nat) : List (Nat × Span) :=
  ls.map fun l => (l, ⟨(base + (v.lane b l).signExtend 64).toNat, 4, 0, 32⟩)

end Sys2Proof.Machine
end

