-- ==== Sys2Proof/Machine/Flags.lean ====
section
/-!
DEFINITION. Machine/Flags.lean: what the VE's flags and counters take from an instruction (R203, R204, R207).
-/
namespace Sys2Proof.Machine

open Sys2Proof

def kVeFlags (c : Nat) : Nat := coreBase c + 0x108
def kVeFirst (c : Nat) : Nat := coreBase c + 0x10C
def kVeFault (c : Nat) : Nat := coreBase c + 0x110
def kVeFaultPc (c : Nat) : Nat := coreBase c + 0x114

/-- VE_FAULT_STICKY bits (R207). -/
def vfProg : Nat := 1
def vfIllegal : Nat := 2
def vfAddr : Nat := 4
def vfPcRange : Nat := 8
def vfDma : Nat := 16
def vfLimit : Nat := 32
def vfMemUe : Nat := 64

/-- The flag sets of the active lanes, or of one reduction result, of the instruction at PC (R203, R204). -/
def State.veFlags (s : State) (c : Nat) (fs : List NFlags) : State :=
  let all := fs.foldl (· ||| ·) 0
  if all = 0 then s
  else
    let ovf := fs.countP fun f => f &&& fOvf ≠ 0
    let inv := fs.countP fun f => f &&& (fInv ||| fTern) ≠ 0
    let v := s.ve c
    let s := s.orBits (kVeFlags c) all.toNat
    let s := s.bump (coreBase c + 0x120) ovf
    let s := s.bump (coreBase c + 0x128) inv
    let s := if (ovf ≠ 0 || inv ≠ 0) && !bit (s.rd (kVeFirst c)) 31 then
        s.wr (kVeFirst c) (2 ^ 31 + b2n (inv ≠ 0) * 2 ^ 16 + v.pc)
      else s
    match v.run with
    | some sh => if sh.countFlags then s.countFor sh.src ovf inv else s
    | none => s

end Sys2Proof.Machine
end

