-- ==== Sys2Proof/Machine/VeCore.lean ====
section
/-!
DEFINITION. Machine/VeCore.lean: how the VE runs one instruction: which one is due, retirement, branches, waits and
faults (R180 to R182, R205). An instruction command acts when the instruction at PC of the core's running share has
its opcode.
-/
namespace Sys2Proof.Machine

open Sys2Proof

/-- What an operation does: go on to the next instruction or to a target, wait, fault with its VE_FAULT_STICKY bit
(and whether UE caused it), or end the share. -/
inductive VeRes where
  | next (s : State)
  | jump (s : State) (target : Int)
  | wait (k : VeWait)
  | fault (bits : Nat) (ue : Bool) (s : State)
  | halt
  deriving DecidableEq, Repr

/-- The instruction due on a core. -/
def State.veInsn (s : State) (c : Nat) : Option Nat :=
  let v := s.ve c
  if s.coreOn c && v.run.isSome && v.started && !v.ended then (v.insns[v.pc]?).map (·.toNat) else none

/-- The limit of R205 has been reached. -/
def State.veLimit (s : State) (c : Nat) : Bool :=
  let l := s.rdf (coreBase c + 0x118) 0 24
  l ≠ 0 && (s.ve c).retired ≥ l * 1024

/-- A fault ends the share at the instruction (R179, R205). -/
def State.veFault (s : State) (c bits pc op : Nat) (ue : Bool) : State :=
  let s := s.orBits (kVeFault c) bits
  let s := if bit (s.rd (kVeFaultPc c)) 31 then s else s.wr (kVeFaultPc c) (2 ^ 31 + op * 2 ^ 16 + pc)
  s.setVe c { s.ve c with ended := true, err := some ue, wait := .none }

/-- An instruction retires and PC moves to its target, or the share faults with PC_RANGE (R205). -/
def State.veRetire (s : State) (c op : Nat) (target : Int) : State :=
  let s := s.bump (coreBase c + 0x130) 1
  let v := s.ve c
  let s := s.setVe c { v with retired := v.retired + 1, wait := .none }
  if target < 0 || target ≥ v.insns.length then s.veFault c vfPcRange v.pc op false
  else s.setVe c { s.ve c with pc := target.toNat }

/-- A wait that has ended is counted: a pop in ME_STALL_EMPTY, the DMA waits in VE_STALL_DMA (R102, R207). -/
def State.veUnwait (s : State) (c clocks : Nat) : State :=
  match (s.ve c).wait with
  | .popt => s.bump (kStallEmpty c) clocks
  | .dmaFull => s.bump (coreBase c + 0x138) clocks
  | .dmaWait => s.bump (coreBase c + 0x138) clocks
  | _ => s

/-- HALT ends the share; it retires. -/
def State.veHalt (s : State) (c : Nat) : State :=
  let s := s.bump (coreBase c + 0x130) 1
  s.setVe c { s.ve c with ended := true, retired := (s.ve c).retired + 1, wait := .none }

/-- Operations that access memory: loads and stores, and the core DMA's transfers. -/
def veAccesses (op : Nat) : Bool := op = 0x1C || op = 0x1D || (0x20 ≤ op && op < 0x2A) || op = 0x78 || op = 0x79

/-- Run the operation op on a core when it is due; an access waits for an order command in force (R361). The body gets
the instruction word. -/
def State.veRun (s : State) (c op waited : Nat) (body : Nat → State → VeRes) : State :=
  match s.veInsn c with
  | none => s
  | some w =>
    if vOp w ≠ op || s.veLimit c || (veAccesses op && s.fencedCore c) then s
    else if !veLegal w then s.veFault c vfIllegal (s.ve c).pc op false
    else match body w s with
      | .next s => (s.veUnwait c waited).veRetire c op ((s.ve c).pc + 1)
      | .jump s t => s.veRetire c op t
      | .wait k => s.setVe c { s.ve c with wait := k }
      | .fault b ue s => (s.veUnwait c waited).veFault c b (s.ve c).pc op ue
      | .halt => s.veHalt c

/-- An operation that only changes the VE's registers. -/
def veRegs (c : Nat) (f : VeState → VeState) (s : State) : VeRes := .next (s.setVe c (f (s.ve c)))

/-- A branch to PC + Sext(IMM), or on to the next instruction. -/
def veBranch (c w : Nat) (taken : Bool) (s : State) : VeRes :=
  .jump s (if taken then ((s.ve c).pc : Int) + sext (vImm w) 32 else (s.ve c).pc + 1)

/-- Xd := f Xa Xb. -/
def veScalar (c : Nat) (f : W64 → W64 → W64) (w : Nat) (s : State) : VeRes :=
  veRegs c (fun v => v.setX (vD w) (f (v.xr (vA w)) (v.xr (vB w)))) s

/-- Vd[l] := f l on the active lanes, with the flags of each. -/
def veLanes (c w : Nat) (f : VeState → Nat → W32 × NFlags) (s : State) : VeRes :=
  let v := s.ve c
  let out := (v.active w).map fun l => (l, f v l)
  .next ((s.setVe c (v.writeV w (out.map fun e => (e.1, e.2.1)))).veFlags c (out.map fun e => e.2.2))

/-- Lane-wise operations of one, two and three vector sources. -/
def veLane1 (c : Nat) (f : W32 → W32 × NFlags) (w : Nat) (s : State) : VeRes :=
  veLanes c w (fun v l => f (v.lane (vA w) l)) s
def veLane2 (c : Nat) (f : W32 → W32 → W32 × NFlags) (w : Nat) (s : State) : VeRes :=
  veLanes c w (fun v l => f (v.lane (vA w) l) (v.lane (vB w) l)) s
def veLane3 (c : Nat) (f : W32 → W32 → W32 → W32 × NFlags) (w : Nat) (s : State) : VeRes :=
  veLanes c w (fun v l => f (v.lane (vA w) l) (v.lane (vB w) l) (v.lane (vC w) l)) s

/-- An integer operation, which sets no flag. -/
def noFlag (f : W32 → W32 → W32) (a b : W32) : W32 × NFlags := (f a b, 0)

/-- A compare: Md bit l on the active lanes, 0 on the others (R182). -/
def veCompare (c : Nat) (f : W32 → W32 → Bool) (w : Nat) (s : State) : VeRes :=
  veRegs c (fun v => v.setM (vD w) (maskOf ((v.active w).filter fun l => f (v.lane (vA w) l) (v.lane (vB w) l)))) s

/-- Xd := a reduction of the active lanes of Va, with its flags. -/
def veReduce (c : Nat) (f : List (Option W32) → W64 × NFlags) (w : Nat) (s : State) : VeRes :=
  let v := s.ve c
  let m := v.mr (vMask w)
  let (x, fl) := f ((List.range 64).map fun l => if m.getLsbD l then some (v.lane (vA w) l) else none)
  .next ((s.setVe c (v.setX (vD w) x)).veFlags c [fl])

/-- Md := f Ma Mb. -/
def veMask (c : Nat) (f : W64 → W64 → W64) (w : Nat) (s : State) : VeRes :=
  veRegs c (fun v => v.setM (vD w) (f (v.mr (vA w)) (v.mr (vB w)))) s

/-- The base address Xa + Sext(IMM). -/
def veBase (v : VeState) (w : Nat) : W64 := v.xr (vA w) + vSext w

/-- A vector load from spans; a fault in any active lane faults the whole instruction (R185). -/
def veLoadV (c w al : Nat) (spans : List (Nat × Span)) (s : State) : VeRes :=
  if !spans.all fun e => e.2.ok al then .fault vfAddr false s
  else match s.veLoad c spans with
    | (.error ue, s) => .fault (if ue then vfMemUe else vfAddr) ue s
    | (.ok vs, s) => .next (s.setVe c ((s.ve c).writeV w vs))

/-- A vector store of Vd to spans. -/
def veStoreV (c w al : Nat) (spans : List (Nat × Span)) (s : State) : VeRes :=
  if !spans.all fun e => e.2.ok al then .fault vfAddr false s
  else match s.veStore c (spans.map fun e => (e.1, e.2, (s.ve c).lane (vD w) e.1)) with
    | (.error ue, s) => .fault (if ue then vfMemUe else vfAddr) ue s
    | (.ok _, s) => .next s

end Sys2Proof.Machine
end

