-- ==== Sys2Proof/Machine/VeShare.lean ====
section
/-!
DEFINITION. Machine/VeShare.lean: shares of VE programs: their start, end and limits (R177 to R179, R205), the core DMA
instructions (R193 to R195), unknown opcodes (R181), and the queue watchdog (R102, R103).
-/
namespace Sys2Proof.Machine

open Sys2Proof

/-- Put the waiting share of a VE into its running slot when that is free (R87). -/
def State.vePromote (s : State) (c : Nat) : State :=
  let v := s.ve c
  match v.run, v.pend with
  | none, some p => s.setVe c { v with run := some p, pend := none, started := false, ended := false, err := none }
  | _, _ => s

/-- The header of a program image keeps R177. -/
def veHeaderOk (h : List Byte) : Bool :=
  leAt h 0 4 = 0x56455052 && leAt h 4 2 = 1 && 1 ≤ leAt h 6 2 && leAt h 6 2 ≤ 2048 && leAt h 8 1 ≤ 32 &&
  zeroAt h 9 3 && zeroAt h 16 16

/-- 8-byte words of a byte list. -/
def words8 : Nat → List Byte → List W64
  | 0, _ => []
  | n + 1, bs => BitVec.ofNat 64 (leAt bs 0 8) :: words8 n (bs.drop 8)

/-- The share ends with PROG_INVALID (R178). -/
def State.veBadProg (s : State) (c : Nat) (ue : Bool) : State :=
  (s.orBits (kVeFault c) vfProg).setVe c { s.ve c with started := true, ended := true, err := some ue }

/-- The four steps of R178. -/
def State.veStart (s : State) (c : Nat) (sh : VeShare) : State :=
  let s := s.wr (coreBase c + 0x140) sh.prog
  if sh.prog % 8 ≠ 0 then s.veBadProg c false
  else match s.gRead sh.prog 32 with
    | (.ok, h, s) =>
      let n := leAt h 6 2
      let np := leAt h 8 1
      if !veHeaderOk h then s.veBadProg c false
      else match s.gRead (sh.prog + 32) (8 * n) with
        | (.ok, is, s) =>
          if crc32 is ≠ leAt h 12 4 || (np ≠ 0 && sh.param % 8 ≠ 0) then s.veBadProg c false
          else match (if np = 0 then (.ok, [], s) else s.gRead sh.param (8 * np)) with
            | (.ok, ps, s) =>
              let v := s.ve c
              let v := { v with
                started := true, insns := words8 n is, pc := 0, retired := 0, v := [], x := [], m := [], dmaErrs := [],
                unseen := [], wait := .none, noted := false }
              s.setVe c ((withIdx (words8 np ps) 0).foldl (fun v e => v.setX e.1 e.2) v)
            | (code, _, s) => s.veBadProg c (code = .ue)
        | (code, _, s) => s.veBadProg c (code = .ue)
    | (code, _, s) => s.veBadProg c (code = .ue)

/-- VE_SHARE_START (R178). -/
def execVeShareStart (c : CoreId) (s : State) : Host.Outcome State Fault Refusal :=
  .next <|
    let s1 := s.vePromote c
    match (s1.ve c).run with
    | none => s
    | some sh => if s.coreOn c && !s.fencedCore c && !(s1.ve c).started then s1.veStart c sh else s

/-- EV_CORE_FAULT of a core (R102, R179). -/
def State.coreFault (s : State) (c : Nat) : State := s.raise 0x0503 2 c c

/-- VE_SHARE_COMPLETE: an ended share completes once its transfers have (R179). Errors of both causes raise both (R597). -/
def execVeShareComplete (c : CoreId) (s : State) : Host.Outcome State Fault Refusal :=
  .next <|
    let v := s.ve c
    match v.run with
    | none => s
    | some sh =>
      if !s.coreOn c || !v.ended || v.dma ≠ [] then s
      else
        let err := orErr v.err v.dmaErrs.head?
        let both : Bool := err.isSome && v.dmaErrs.any fun e => some e ≠ err
        let s := if err.isSome && !v.noted then s.coreFault c else s
        let s := s.setVe c { v with run := none, started := false, ended := false, err := none, dmaErrs := [],
                                    unseen := [], noted := false }
        let s := s.shareDone sh.src err
        (if both then s.strayError sh.src (err = some false) else s).vePromote c

/-- VE_INSN_LIMIT_EXPIRY (R205). -/
def execVeInsnLimitExpiry (c : CoreId) (s : State) : Host.Outcome State Fault Refusal :=
  .next <| match s.veInsn c with
    | none => s
    | some w => if s.veLimit c then s.veFault c vfLimit (s.ve c).pc (vOp w) false else s

/-- ILLEGAL_OPCODE (R181). -/
def execIllegalOpcode (c : CoreId) (s : State) : Host.Outcome State Fault Refusal :=
  .next <| match s.veInsn c with
    | none => s
    | some w =>
      if (veForm (vOp w)).isNone && !s.veLimit c then s.veFault c vfIllegal (s.ve c).pc (vOp w) false else s

/-- ME_WATCHDOG_EXPIRY: the queue wait of the ME (ofVe = false) or the VE has lasted the clocks given (R102, R103). -/
def execMeWatchdogExpiry (c : CoreId) (ofVe : Bool) (clocks : Nat) (s : State) : Host.Outcome State Fault Refusal :=
  .next <|
    let l := s.rdf (coreBase c + 0x18) 0 24
    if !s.coreOn c || l = 0 || clocks ≤ l * 1024 then s
    else if ofVe then
      let v := s.ve c
      if v.wait ≠ .popt || (s.veInsn c).isNone || ((s.me c).entry (s.me c).head).state = 3 then s
      else
        let s := ((s.bump (kStallEmpty c) clocks).orBits (kMeFault c) mfEmpty).coreFault c
        s.setVe c { v with ended := true, err := some false, wait := .none, noted := true }
    else
      let m := s.me c
      if m.wait ≠ .full || (m.entry m.tail).state = 0 then s
      else ((s.meUnwait c clocks).coreFault c).meFail c mfFull false none

/-- Issue a core DMA transfer: Xc bytes between global Xa and local Xb (R193). -/
def veDma (c : Nat) (put : Bool) (w : Nat) (s : State) : VeRes :=
  let v := s.ve c
  let g := (v.xr (vA w)).toNat
  let l := (v.xr (vB w)).toNat
  let n := (v.xr (vC w)).toNat
  match v.run with
  | none => .fault vfAddr false s
  | some sh =>
    if n = 0 || n % 4 ≠ 0 || n > 0x1000000 || g % 4 ≠ 0 || l % 4 ≠ 0 || l + n > 0x100000 then .fault vfAddr false s
    else if v.dma.length ≥ 16 then .wait .dmaFull
    else .next (s.setVe c { v with dma := v.dma ++ [⟨put, g, l, n, sh.src, false⟩] })

/-- DMAGET (R193). -/
def execDmaget (c : CoreId) (waited : Nat) (s : State) : Host.Outcome State Fault Refusal :=
  .next (s.veRun c 0x78 waited (veDma c false))

/-- DMAPUT (R193). -/
def execDmaput (c : CoreId) (waited : Nat) (s : State) : Host.Outcome State Fault Refusal :=
  .next (s.veRun c 0x79 waited (veDma c true))

/-- DMAWAIT (R195). -/
def execDmawait (c : CoreId) (waited : Nat) (s : State) : Host.Outcome State Fault Refusal :=
  .next (s.veRun c 0x06 waited fun w s =>
    let v := s.ve c
    if v.dma.length > vImm w % 32 then .wait .dmaWait
    else match v.dmaErrs.head? with
      | some ue => .fault vfDma ue s
      | none => .next (s.setVe c { v with unseen := [] }))

end Sys2Proof.Machine
end

