-- ==== Sys2Proof/Machine/Emb.lean ====
section
/-!
DEFINITION. Machine/Emb.lean: lookups, prefetch and row service (R289 to R299, R316 to R318): lists, fragments, pooling
shares, answers and what the requester makes of them.
-/
namespace Sys2Proof.Machine

open Sys2Proof

/-! ## Lists (R290, R292) -/

/-- A bag entry of a lookup list. -/
structure BagEntry where
  i : Nat
  first : Nat
  n : Nat
  mode : Nat
  fp32 : Bool
  off : Nat
  deriving DecidableEq, Repr

def vecStride (d : Nat) : Nat := (2 * d + 63) / 64 * 64

def bagEntries : Nat → Nat → List Byte → List BagEntry
  | 0, _, _ => []
  | k + 1, i, b =>
    ⟨i, leAt b 0 4, leAt b 4 2, leAt b 6 1, bit (leAt b 7 1) 0, leAt b 8 4⟩ :: bagEntries k (i + 1) (b.drop 16)

def bagsReserved : Nat → List Byte → Bool
  | 0, _ => true
  | k + 1, b => fld (leAt b 7 1) 1 7 = 0 && zeroAt b 12 4 && bagsReserved k (b.drop 16)

/-- Output bytes of a bag. -/
def BagEntry.size (d : Nat) (e : BagEntry) : Nat :=
  if e.mode = 3 then e.n * vecStride d else d * (if e.fp32 then 4 else 2)

/-- No two bags' outputs overlap. -/
def bagsApart (d : Nat) : List BagEntry → Bool
  | [] => true
  | e :: es =>
    es.all (fun f => e.size d = 0 || f.size d = 0 || e.off + e.size d ≤ f.off || f.off + f.size d ≤ e.off) && bagsApart d es

/-- A list that has been accepted. -/
structure EmbList where
  status : Nat
  bags : List BagEntry
  keys : List Nat
  deriving DecidableEq, Repr

/-- What reading a list gives: the list; or EMB_FAULT_STICKY bits to set and whether UE caused the error. -/
inductive EmbParse where
  | ok (l : EmbList)
  | bad (sticky : Nat) (ue : Bool)
  deriving DecidableEq, Repr

/-- Read and check a list of n bags at an address (R290, R292, R311). -/
def State.embParse (s : State) (grad : Bool) (table n addr : Nat) : EmbParse × State :=
  let d := tbDim (s.table table)
  if !s.tableOk table || addr % 8 ≠ 0 || (grad && 10 * d > s.rdf (wideKey 0x100024) 0 13) then (.bad 1 false, s)
  else match s.gRead addr 32 with
    | (.ok, h, s) =>
      match s.gRead (addr + 32) (16 * n) with
      | (.ok, b, s) =>
        let es := bagEntries n 0 b
        let ka := leAt h 0 8
        let kc := leAt h 8 4
        if ka % 8 ≠ 0 || leAt h 16 8 % 8 ≠ 0 || !zeroAt h 12 4 || !zeroAt h 24 8 || kc = 0 || kc > 16777216 ||
            !bagsReserved n b || es.any (fun e => e.mode > 3 || e.off % 64 ≠ 0 || e.first + e.n > kc) || !bagsApart d es
        then (.bad 1 false, s)
        else if grad && es.any (·.mode = 2) then (.bad 3 false, s)
        else
          let top := es.foldl (fun m e => max m (if e.n = 0 then 0 else e.first + e.n)) 0
          match s.gRead ka (8 * top) with
          | (.ok, k, s) => (.ok ⟨leAt h 16 8, es, nums top 8 k⟩, s)
          | (c, _, s) => (.bad 0 (c = .ue), s)
      | (c, _, s) => (.bad 0 (c = .ue), s)
    | (c, _, s) => (.bad 0 (c = .ue), s)

/-! ## Shares -/

def chunks {α : Type} (n : Nat) : Nat → List α → List (List α)
  | 0, _ => []
  | fuel + 1, l => if l = [] then [] else l.take n :: chunks n fuel (l.drop n)

/-- Rows of one ROWS answer (R294). -/
def rowsPerBody (d : Nat) : Nat := min 64 (8176 / (2 * d))

def shareSize (mode d : Nat) : Nat := if mode = 3 then rowsPerBody d else if mode = 4 then 1022 else 256

/-- The next pooling core of a tile, in rotation (R295). -/
def State.poolCore (s : State) (t : Nat) : Nat × State :=
  let k := kEmb t 0x1C
  let n := max 1 (s.rdf k 16 9)
  let x := s.embt t
  (t * 300 + (s.rdf k 0 9 + x.rot % n) % 300, s.setEmbt t { x with rot := (x.rot + 1) % n })

/-- Form the shares of a fragment on a tile. -/
def State.addShares (s : State) (t node tag table mode : Nat) : List (List (Nat × Nat × RowRes)) → State
  | [] => s
  | items :: rest =>
    let (c, s) := if mode ≤ 2 then s.poolCore t else (0, s)
    let x := s.embt t
    let sh : EmbShare := ⟨s.embm.nextId, node, tag, table, mode, items, .gather, c, 0⟩
    let s := s.setEmbt t { x with shares := x.shares ++ [sh] }
    ({ s with embm := { s.embm with nextId := s.embm.nextId + 1 } }).addShares t node tag table mode rest

/-- What is known at once of a row asked of this module as owner: a poisoned row is answered without a read (R317); a
row already staged for the next step needs none (R299). -/
def State.itemNow (s : State) (table mode pos r : Nat) : (Nat × Nat × RowRes) × State :=
  let t := s.serving (s.table table) r
  let s := if mode = 4 then s else s.bump (kEmbCount t 0) 1
  if s.isPoisoned table r then ((pos, r, .bad), if mode = 4 then s else s.bump (kEmbCount t 4) 1)
  else if mode = 4 then
    match s.stageFind t ((s.step + 1) % 2) table r with
    | some (.inl _) => ((pos, r, .got false []), s)
    | _ => ((pos, r, .wait), s)
  else ((pos, r, .wait), s)

def State.itemsNow (s : State) (table mode : Nat) : List (Nat × Nat) → List (Nat × Nat × RowRes) × State
  | [] => ([], s)
  | (p, r) :: l =>
    let (i, s) := s.itemNow table mode p r
    let (is, s) := s.itemsNow table mode l
    (i :: is, s)

/-- The shares of a fragment of rows: the rows of each serving tile by themselves when they are pooled (R289, R295), else
all rows in key order (R294, R296); with the tile of each. -/
def State.shareParts (s : State) (table mode : Nat) (rows : List (Nat × Nat)) : List (Nat × List (Nat × Nat)) :=
  let d := s.table table
  let cut := fun (l : List (Nat × Nat)) => chunks (shareSize mode (tbDim d)) l.length l
  if mode ≤ 2 then (List.range 4).flatMap fun t => (cut (rows.filter fun e => s.serving d e.2 = t)).map fun p => (t, p)
  else (cut rows).map fun p => (s.serving d (p.headD (0, 0)).2, p)

/-- Answers that a fragment of rows brings: one for each share, or the rows themselves (R294, R295). -/
def State.answers (s : State) (table mode : Nat) (rows : List (Nat × Nat)) : Nat :=
  if mode = 3 then rows.length else (s.shareParts table mode rows).length

/-- Serve a fragment of rows owned here (R293, R295, R299). -/
def State.serveRows (s : State) (node tag table mode : Nat) (rows : List (Nat × Nat)) : State :=
  (s.shareParts table mode rows).foldl (fun s p =>
    let (items, s) := s.itemsNow table mode p.2
    s.addShares p.1 node tag table mode [items]) s

/-! ## The requester (R291, R294, R297) -/

/-- The tile, job and bag that a tag names. -/
def State.bagOf (s : State) (tag : Nat) : Option (Nat × EmbJob × EmbBag) :=
  (List.range 4).findSome? fun t => (s.embt t).jobs.findSome? fun j =>
    (j.bags.find? (·.tag = tag)).map fun b => (t, j, b)

def State.jobOf (s : State) (tag : Nat) : Option (Nat × EmbJob) :=
  (List.range 4).findSome? fun t => ((s.embt t).jobs.find? fun j => j.bags = [] && j.tag = tag).map fun j => (t, j)

def State.putJob (s : State) (t : Nat) (j : EmbJob) : State :=
  let x := s.embt t
  s.setEmbt t { x with jobs := x.jobs.map fun k => if k.idx = j.idx then j else k }

def State.putBag (s : State) (t : Nat) (j : EmbJob) (b : EmbBag) : State :=
  s.putJob t { j with bags := j.bags.map fun c => if c.i = b.i then b else c }

/-- The larger of two partial elements, −0 below +0, NaN winning (R297). -/
def maxElem (a b : Num) : Num :=
  if a.isNan || b.isNan then .nan
  else if a.lt b then b
  else if b.lt a then a
  else if a.sign then b else a

def maxAll : List Num → List Num → List Num
  | x :: xs, y :: ys => maxElem x y :: maxAll xs ys
  | _, _ => []

/-- Combine the partials of a pooled bag (R297). A MAX bag with no partial gives −infinity, as the pooling program
gives for one with no included row (DEDUCED, log 38). -/
def combine (d : Nat) (b : EmbBag) : List Num :=
  let ps := b.parts.map fun p => p.map fun c => (decodeCode bf16 c).1
  if b.mode = 2 then ps.foldl maxAll (List.replicate d (.inf true))
  else
    let w := ps.foldl wPlusAll (List.replicate d (.fin false 0 0))
    if b.mode = 1 then w.map fun x => if b.inc = 0 then .fin false 0 0 else wDiv x b.inc else w

/-- The status word of a bag (R291). -/
def statusWord (b : EmbBag) : List Byte :=
  leBytes 2 (min b.inc 65535) ++ leBytes 2 (min b.pois 65535) ++ leBytes 2 (min b.range 65535) ++ leBytes 2 b.firstEx

/-- Write at a global address for a job; an error stays with it. -/
def State.jobWrite (s : State) (t : Nat) (j : EmbJob) (g : Nat) (bs : List Byte) : EmbJob × State :=
  match s.gWrite false g bs with
  | (.ok, s) => (j, s)
  | (c, s) => let j := { j with err := orErr j.err (some (c = .ue)) }; (j, s.putJob t j)

/-- The vectors of a ROWS bag; the vector of an out-of-range key is +0 as a poisoned row's is (DEDUCED, log 38). -/
def State.writeRows (s : State) (t : Nat) (j : EmbJob) (b : EmbBag) : List Nat → EmbJob × State
  | [] => (j, s)
  | k :: ks =>
    let cs := smGet (List.replicate j.d 0) b.rows k
    let (j, s) := s.jobWrite t j (b.dst + k * vecStride j.d) (cs.flatMap fun c => leBytes 2 c)
    s.writeRows t j b ks

/-- The output of a complete bag (R290, R297). -/
def State.bagOutput (s : State) (t : Nat) (j : EmbJob) (b : EmbBag) : EmbJob × State :=
  if j.err.isSome then (j, s)
  else if b.mode = 3 then s.writeRows t j b (List.range b.keys)
  else
    let f := if b.fp32 then fp32 else bf16
    let xs := combine j.d b
    let (cs, fl) := toCodes f xs
    let s := s.orBits (kEmb t 0x44) (fl.toNat % 16)
    let ovf := xs.countP fun x => (convert f none x).2 &&& fOvf ≠ 0
    let s := if j.countFlags then s.countStep t ovf (xs.countP Num.isNan) else s
    s.jobWrite t j b.dst (cs.flatMap fun c => leBytes (if b.fp32 then 4 else 2) c)

/-- A bag is complete: its output and its status word are written (R291), and the latency of its lookup is a sample
(R569). -/
def State.bagDone (s : State) (t : Nat) (j : EmbJob) (b : EmbBag) : State :=
  let (j, s) := s.bagOutput t j b
  let (j, s) := s.jobWrite t j (j.statusAddr + 8 * b.i) (statusWord b)
  let s := s.sample 1 t (s.time - j.since)
  let j := { j with bags := j.bags.filter fun c => c.i ≠ b.i }
  if j.bags = [] then
    let x := s.embt t
    (s.setEmbt t { x with jobs := x.jobs.filter fun k => k.idx ≠ j.idx }).partDone t j.idx j.err
  else s.putJob t j

def State.bagStep (s : State) (t : Nat) (j : EmbJob) (b : EmbBag) : State :=
  if b.wait = 0 then s.bagDone t j b else s.putBag t j b

/-- A partial arrives for a bag. -/
def State.takePartial (s : State) (tag inc pois fe : Nat) (cs : List Nat) : State :=
  match s.bagOf tag with
  | none => s
  | some (t, j, b) =>
    s.bagStep t j { b with wait := b.wait - 1, inc := b.inc + inc, pois := b.pois + pois, firstEx := min b.firstEx fe,
                           parts := b.parts ++ [cs] }

/-- Rows arrive for a ROWS bag: position and, unless the row is poisoned, its elements. -/
def State.takeRows (s : State) (tag : Nat) (rows : List (Nat × Option (List Nat))) : State :=
  match s.bagOf tag with
  | none => s
  | some (t, j, b) =>
    let b := rows.foldl (fun b e => match e.2 with
      | some cs => { b with wait := b.wait - 1, inc := b.inc + 1, rows := smPut b.rows e.1 cs }
      | none => { b with wait := b.wait - 1, pois := b.pois + 1, firstEx := min b.firstEx e.1 }) b
    s.bagStep t j b

/-- An answer to a PREFETCH, or the summing of an EMB_GRAD's contribution, arrives. -/
def State.takeAck (s : State) (tag : Nat) : State :=
  match s.jobOf tag with
  | none => s
  | some (t, j) =>
    if j.wait ≤ 1 then
      let x := s.embt t
      (s.setEmbt t { x with jobs := x.jobs.filter fun k => k.idx ≠ j.idx }).partDone t j.idx j.err
    else s.putJob t { j with wait := j.wait - 1 }

/-- A local share failed: its descriptor completes with an error and without the share's rows. -/
def State.takeFailure (s : State) (tag : Nat) (err : Bool) : State :=
  match s.bagOf tag with
  | none => s
  | some (t, j, b) =>
    s.bagStep t { j with err := orErr j.err (some err) } { b with wait := b.wait - 1 }

/-! ## Answers (R294, R296) -/

/-- BF16 elements of a row for a ROWS answer, and the flags of the conversion (R296). -/
def rowCodes (g8 : Bool) (d : Nat) (bs : List Byte) : List Nat × NFlags :=
  if g8 then toCodes bf16 (decodeRow true d bs).2 else (nums d 2 (slice bs 4 (2 * d)), 0)

def itemCodes (d : Nat) : List (Nat × Nat × RowRes) → List (Nat × Option (List Nat)) × NFlags
  | [] => ([], 0)
  | (p, _, .got g8 bs) :: l =>
    let (c, f) := rowCodes g8 d bs
    let (r, g) := itemCodes d l
    ((p, some c) :: r, f ||| g)
  | (p, _, _) :: l => let (r, g) := itemCodes d l; ((p, none) :: r, g)

/-- Bit j for each poisoned row j. -/
def poisonMask : List (Nat × Option (List Nat)) → Nat → Nat
  | [], _ => 0
  | (_, x) :: l, j => b2n x.isNone * 2 ^ j + poisonMask l (j + 1)

/-- Body of TYPE 0x0402. -/
def partialBody (inc pois fe : Nat) (cs : List Nat) : List Byte :=
  leBytes 4 inc ++ leBytes 2 pois ++ leBytes 2 fe ++ leBytes 8 0 ++ cs.flatMap fun c => leBytes 2 c

/-- Body of TYPE 0x0403. -/
def rowsBody (d : Nat) (rows : List (Nat × Option (List Nat))) : List Byte :=
  leBytes 4 (rows.headD (0, none)).1 ++ leBytes 2 rows.length ++ leBytes 2 0 ++ leBytes 8 (poisonMask rows 0) ++
  rows.flatMap fun e => (e.2.getD (List.replicate d 0)).flatMap fun c => leBytes 2 c

def State.respond (s : State) (node typ tag : Nat) (body : List Byte) : State := s.sendMsg 2 typ node tag body

/-- Rows of a PREFETCH share that were staged; a row asked for twice is staged once (R294, R299). -/
def EmbShare.staged (sh : EmbShare) : Nat := ((sh.items.filter fun e => e.2.2 ≠ .bad).map (·.2.1)).eraseDups.length

/-- Answer a ROWS or PREFETCH share whose rows are all known. -/
def State.answerShare (s : State) (t : Nat) (sh : EmbShare) : State :=
  let d := tbDim (s.table sh.table)
  let own : Bool := sh.node = s.node
  if sh.mode = 4 then
    if own then s.takeAck sh.tag
    else s.respond sh.node 0x0402 sh.tag (partialBody sh.staged 0 0xFFFF [])
  else
    let (rows, f) := itemCodes d sh.items
    let s := s.orBits (kEmb t 0x44) (f.toNat % 16)
    if own then s.takeRows sh.tag rows else s.respond sh.node 0x0403 sh.tag (rowsBody d rows)

def EmbShare.known (sh : EmbShare) : Bool := sh.items.all fun e => e.2.2 ≠ .wait

/-- The share's program has ended, well or not. -/
def EmbShare.ended (sh : EmbShare) : Bool := match sh.phase with | .ended _ => true | _ => false

/-- Answer every ROWS and PREFETCH share of a tile whose rows are all known. -/
def State.answerShares (s : State) (t : Nat) : List EmbShare → State
  | [] => s
  | sh :: l =>
    if sh.mode ≥ 3 && sh.known then
      let x := s.embt t
      ((s.setEmbt t { x with shares := x.shares.filter fun y => y.id ≠ sh.id }).answerShare t sh).answerShares t l
    else s.answerShares t l

/-- Answers go out on every tile that no order command holds (R361). -/
def State.embPump (s : State) : State :=
  s.eachTile fun s t => if s.fencedTile t then s else s.answerShares t (s.embt t).shares

/-! ## Lookup and prefetch descriptors (R293, R298, R299) -/

/-- How the keys of a bag resolve: rows of the Commons, rows owned here, rows of other owners by rank. -/
structure Resolved where
  com : List (Nat × Nat × RowRes)
  loc : List (Nat × Nat)
  rem : SMap (List (Nat × Nat))
  range : Nat
  firstEx : Nat
  deriving DecidableEq, Repr

/-- Resolve one key of a lookup on tile t (R293). -/
def State.resolveKey (s : State) (t table : Nat) (r : Resolved) (j key : Nat) : Resolved × State :=
  let d := s.table table
  match rowOfKey d key with
  | none => ({ r with range := r.range + 1, firstEx := min r.firstEx j }, s.bump (kEmbCount t 3) 1)
  | some row =>
    let owned := fun (s : State) =>
      let o := s.owner d row
      if o = s.rank then ({ r with loc := r.loc ++ [(j, row)] }, s)
      else ({ r with rem := smPut r.rem o (smGet [] r.rem o ++ [(j, row)]) }, s)
    match s.hotFind table row with
    | some e =>
      match s.commonsRead t e table row with
      | (.ok, bs, s) => ({ r with com := r.com ++ [(j, row, .got false bs)] }, s.bump (kEmbCount t 1) 1)
      | (_, _, s) => owned (s.bump (kEmbCount t 11) 1)
    | none => owned s

def State.resolveKeys (s : State) (t table : Nat) (r : Resolved) : Nat → List Nat → Resolved × State
  | _, [] => (r, s)
  | j, k :: ks =>
    let (r, s) := s.resolveKey t table r j k
    s.resolveKeys t table r (j + 1) ks

/-- Body of a request (TYPE 0x0401). -/
def requestBody (table mode gen first : Nat) (rows : List Nat) : List Byte :=
  leBytes 2 table ++ leBytes 1 mode ++ leBytes 1 0 ++ leBytes 2 gen ++ leBytes 2 rows.length ++ leBytes 4 first ++
  leBytes 4 0 ++ rows.flatMap fun r => leBytes 8 r

/-- n answers that a tag awaits will not come, since no path reaches their owner: the descriptor completes with an error
(R332, R398, R597). -/
def State.answersLost (s : State) (tag n : Nat) : State :=
  match s.bagOf tag with
  | some (t, j, b) => s.bagStep t { j with err := orErr j.err (some false) } { b with wait := b.wait - n }
  | none =>
    match s.jobOf tag with
    | some (t, j) => (s.putJob t { j with err := orErr j.err (some false) }).takeAck tag
    | none => s

/-- The request messages of a fragment for one owner (R294). -/
def State.sendRequests (s : State) (owner tag table mode : Nat) : List (List (Nat × Nat)) → State
  | [] => s
  | part :: rest =>
    if !s.reaches (s.nodeOf owner) then (s.answersLost tag (s.answers table mode part)).sendRequests owner tag table mode rest
    else
    let b := requestBody table mode s.dirGen (part.headD (0, 0)).1 (part.map (·.2))
    (s.sendMsg 1 0x0401 (s.nodeOf owner) tag b).sendRequests owner tag table mode rest

def State.sendRemote (s : State) (tag table mode : Nat) : SMap (List (Nat × Nat)) → State
  | [] => s
  | (o, l) :: rest => (s.sendRequests o tag table mode (chunks 1022 l.length l)).sendRemote tag table mode rest

/-- Answers expected of other owners, each request message a fragment of its own (R294). -/
def State.remoteAnswers (s : State) (table mode : Nat) (rem : SMap (List (Nat × Nat))) : Nat :=
  rem.foldl (fun n e => n + (chunks 1022 e.2.length e.2).foldl (fun m c => m + s.answers table mode c) 0) 0

def State.newTag (s : State) : Nat × State :=
  (s.embm.nextTag, { s with embm := { s.embm with nextTag := (s.embm.nextTag + 1) % 2 ^ 32 } })

/-- Start one bag of a lookup: its fragments go out, and the job remembers what it awaits. -/
def State.startBag (s : State) (t idx table area : Nat) (keys : List Nat) (e : BagEntry) : State :=
  let d := tbDim (s.table table)
  let (tag, s) := s.newTag
  let (r, s) := s.resolveKeys t table ⟨[], [], [], 0, 0xFFFF⟩ 0 ((keys.drop e.first).take e.n)
  let b : EmbBag :=
    { tag := tag, i := e.i, mode := e.mode, fp32 := e.fp32, dst := area + e.off, keys := e.n,
      wait := (if e.mode = 3 then r.com.length else (r.com.length + 255) / 256) + s.answers table e.mode r.loc +
        s.remoteAnswers table e.mode r.rem,
      inc := 0, pois := 0, range := r.range, firstEx := r.firstEx, parts := [],
      sent := r.rem.map fun x => (x.1, x.2.map (·.1)), rows := [] }
  match (s.embt t).jobs.find? (·.idx = idx) with
  | none => s
  | some j =>
    let s := s.putJob t { j with bags := j.bags ++ [b] }
    let s := s.addShares t s.node tag table e.mode (chunks (shareSize e.mode d) r.com.length r.com)
    (s.serveRows s.node tag table e.mode r.loc).sendRemote tag table e.mode r.rem

/-- Bags with nothing to await are complete at once. -/
def State.emptyBags (s : State) (t idx : Nat) : List Nat → State
  | [] => s
  | i :: is =>
    match (s.embt t).jobs.find? (·.idx = idx) with
    | none => s
    | some j =>
      match j.bags.find? (·.i = i) with
      | some b => (if b.wait = 0 then s.bagDone t j b else s).emptyBags t idx is
      | none => s.emptyBags t idx is

/-- A refused list (R292), or one that cannot be read. -/
def State.embRefuse (s : State) (t idx sticky : Nat) (ue : Bool) : State :=
  (if sticky = 0 then s else s.orBits (kEmb t 0x40) sticky).partDone t idx (some ue)

/-- EMB_LOOKUP at issue. -/
def State.lookupIssue (s : State) (t idx table n list area : Nat) (count : Bool) : State :=
  match s.embParse false table n list with
  | (.bad k ue, s) => s.embRefuse t idx k ue
  | (.ok l, s) =>
    if l.bags = [] then s.partDone t idx none
    else
      let x := s.embt t
      let j : EmbJob := ⟨idx, table, tbDim (s.table table), count, l.status, [], 0, 0, none, s.time⟩
      let s := s.setEmbt t { x with jobs := x.jobs ++ [j] }
      let s := l.bags.foldl (fun s e => s.startBag t idx table area l.keys e) s
      (s.emptyBags t idx (l.bags.map (·.i))).embPump

/-- The rows of a bag that PREFETCH sends to their owners: by rank, this module's own among them (R299). -/
def State.prefetchRows (s : State) (table : Nat) : Nat → List Nat → SMap (List (Nat × Nat))
  | _, [] => []
  | j, k :: ks =>
    let rest := s.prefetchRows table (j + 1) ks
    match rowOfKey (s.table table) k with
    | none => rest
    | some r =>
      if s.isHot table r || s.isPoisoned table r then rest
      else let o := s.owner (s.table table) r; smPut rest o ((j, r) :: smGet [] rest o)

/-- PREFETCH at issue. -/
def State.prefetchIssue (s : State) (t idx table n list : Nat) : State :=
  if s.tableOk table && tbFmt (s.table table) = 0 then s.partDone t idx none
  else match s.embParse false table n list with
    | (.bad k ue, s) => s.embRefuse t idx k ue
    | (.ok l, s) =>
      let frs := l.bags.map fun e => s.prefetchRows table 0 ((l.keys.drop e.first).take e.n)
      let wait := frs.foldl (fun w f => w + f.foldl (fun m x => m + (chunks 1022 x.2.length x.2).length) 0) 0
      if wait = 0 then s.partDone t idx none
      else
        let (tag, s) := s.newTag
        let x := s.embt t
        let j : EmbJob := ⟨idx, table, tbDim (s.table table), false, 0, [], tag, wait, none, s.time⟩
        let s := s.setEmbt t { x with jobs := x.jobs ++ [j] }
        let s := frs.foldl (fun s f => f.foldl (fun s x =>
          if x.1 = s.rank then s.serveRows s.node tag table 4 x.2
          else s.sendRequests x.1 tag table 4 (chunks 1022 x.2.length x.2)) s) s
        s.embPump

/-! ## Messages -/

/-- Take the first message in the inbox with a TYPE. -/
def State.takeMsg (s : State) (typ : Nat) : Option (InMsg × State) :=
  (s.inbox.find? (·.typ = typ)).map fun m => (m, { s with inbox := s.inbox.erase m })

/-- EMB_REQUEST (R294, R295): a request the owner cannot read (a table it does not have, a bad count) has no stated
answer and is dropped (log 38). -/
def execEmbRequest (s : State) : Host.Outcome State Fault Refusal :=
  .next <|
    match s.takeMsg 0x0401 with
    | none => s
    | some (m, s1) =>
      if !s.hubOn || s.fencedAll then s
      else
        let table := leAt m.body 0 2
        let mode := leAt m.body 2 1
        let n := leAt m.body 6 2
        if !s1.tableOk table || mode > 4 || n = 0 || n > 1022 || m.body.length ≠ 16 + 8 * n then s1
        else
          let first := leAt m.body 8 4
          let rows := (nums n 8 (m.body.drop 16)).map (· % 2 ^ 40)
          (s1.serveRows m.src m.tag table mode (withIdx rows first)).embPump

/-- The bag position that an owner's FIRST + k stands for: key k of the request that FIRST began (DEDUCED, log 38). -/
def posOf (sent : List Nat) (v : Nat) : Nat :=
  match ((chunks 1022 sent.length sent).filter fun c => c.headD 0 ≤ v).getLast? with
  | some c => c.getD (v - c.headD 0) v
  | none => v

/-- Positions sent to the owner at a node for the bag of a tag. -/
def State.sentTo (s : State) (tag node : Nat) : List Nat :=
  match s.bagOf tag with
  | some (_, _, b) => smGet [] b.sent (s.rankOf node)
  | none => []

/-- The bag of a tag lies on a tile that an order command holds: what completes it would write (R361). -/
def State.bagHeld (s : State) (tag : Nat) : Bool :=
  match s.bagOf tag with
  | some (t, _, _) => s.fencedTile t
  | none => false

/-- POOLED_RESPONSE. -/
def execPooledResponse (s : State) : Host.Outcome State Fault Refusal :=
  .next <|
    match s.takeMsg 0x0402 with
    | none => s
    | some (m, s1) =>
      if !s.hubOn || s.bagHeld m.tag then s
      else match s1.bagOf m.tag with
        | none => s1.takeAck m.tag
        | some (_, j, _) =>
          let fe := leAt m.body 6 2
          s1.takePartial m.tag (leAt m.body 0 4) (leAt m.body 4 2)
            (if fe = 0xFFFF then fe else posOf (s1.sentTo m.tag m.src) fe) (nums j.d 2 (m.body.drop 16))

/-- The rows of a TYPE 0x0403 body. -/
def rowsOf (d first mask : Nat) (sent : List Nat) : Nat → Nat → List Byte → List (Nat × Option (List Nat))
  | 0, _, _ => []
  | n + 1, k, b =>
    (posOf sent (first + k), if bit mask k then none else some (nums d 2 b)) ::
      rowsOf d first mask sent n (k + 1) (b.drop (2 * d))

/-- ROWS_RESPONSE. -/
def execRowsResponse (s : State) : Host.Outcome State Fault Refusal :=
  .next <|
    match s.takeMsg 0x0403 with
    | none => s
    | some (m, s1) =>
      if !s.hubOn || s.bagHeld m.tag then s
      else match s1.bagOf m.tag with
        | none => s1
        | some (_, j, _) =>
          s1.takeRows m.tag (rowsOf j.d (leAt m.body 0 4) (leAt m.body 8 8) (s1.sentTo m.tag m.src)
            (leAt m.body 4 2) 0 (m.body.drop 16))

/-! ## Row reads (R316 to R318) -/

def EmbShare.needs (sh : EmbShare) (table r : Nat) : Bool :=
  sh.table = table && sh.items.any fun e => e.2.1 = r && e.2.2 = .wait

/-- Give a row's result to every item that waits for it; pf: to the prefetch items (else to the others). -/
def State.giveRow (s : State) (table r : Nat) (pf : Bool) (res : RowRes) : State :=
  s.eachTile fun s t =>
    let x := s.embt t
    s.setEmbt t { x with shares := x.shares.map fun sh =>
      if sh.table = table && decide ((sh.mode = 4) = pf) then
        { sh with items := sh.items.map fun e => if e.2.1 = r && e.2.2 = .wait then (e.1, r, res) else e }
      else sh }

/-- Items waiting for a row, apart from prefetch. -/
def State.waiters (s : State) (table r : Nat) (pf : Bool) : Nat :=
  (List.range 4).foldl (fun n t => (s.embt t).shares.foldl (fun n sh =>
    if sh.table = table && decide ((sh.mode = 4) = pf) then n + sh.items.countP (fun e => e.2.1 = r && e.2.2 = .wait)
    else n) n) 0

/-- ROW_READ_DONE. A row wanted by prefetches alone is read from its home (R299). -/
def execRowReadDone (t : TileId) (table : BitVec 12) (row : BitVec 40) (res : RowRead) (s : State) :
    Host.Outcome State Fault Refusal :=
  .next <|
    let n := table.toNat
    let r := row.toNat
    let d := s.table n
    let look := s.waiters n r false
    let pf := s.waiters n r true
    if !s.fabOn t || look + pf = 0 || s.serving d r ≠ t then s
    else
      let (src, staged) := if look = 0 then (s.home d r, false) else s.rowSource t n r
      let s := if tbFmt d = 0 || staged then s else s.bump (kEmbCount t 2) 1
      let code := s.accessCode src (tbRowBytes d)
      let ue : Bool := code = .ok && (res = .failed || (s.ueAt src (tbRowBytes d)).isSome)
      let s := if res = .good || ue then s else s.bump (kEmbCount t 12) 1
      if ue then
        let s := (s.rowFailed t n r src).bump (kEmbCount t 4) look
        ((s.giveRow n r false .bad).giveRow n r true .bad).embPump
      else if code ≠ .ok then
        let s := (s.bump (kEmbCount t 4) look).fault t .descError
        ((s.giveRow n r false .bad).giveRow n r true .bad).embPump
      else
        let bs := s.bytes src (tbRowBytes d)
        let s := if look = 0 then s else
          let (g8, out, s) := s.present t n r (tbFresh d) bs
          s.giveRow n r false (.got g8 out)
        let s := if pf = 0 then s else
          let h := (s.step + 1) % 2
          let s := s.stageRow t h n r bs
          s.giveRow n r true (match s.stageFind t h n r with | some (.inl _) => .got false [] | _ => .bad)
        s.embPump

/-! ## Pooling shares (R295) -/

/-- Layout of a share in its half of the pool area: rows from 0, then the status bytes, the result and the parameter
block (DESIGN CHOICE, log 38): offsets of the last three, and the bytes used. -/
def poolLayout (n stride d : Nat) : Nat × Nat × Nat × Nat :=
  let st := n * stride
  let rs := (st + n + 63) / 64 * 64
  let pb := (rs + 4 + 2 * d + 63) / 64 * 64
  (st, rs, pb, pb + 64)

/-- Row stride and format of a share's gathered rows: ROW_BYTES of the layout in which its rows stand; with every row
poisoned, of the layout in which the table's rows would. -/
def EmbShare.rowForm (sh : EmbShare) (d : List Byte) : Nat × Bool :=
  let g8 : Bool := sh.items.any (fun e => match e.2.2 with | .got g _ => g | _ => false) ||
    (sh.items.all (fun e => e.2.2 = .bad) && tbFmt d = 1 && !tbFresh d)
  (if g8 then tbRowBytes d else rowBytes16 (tbDim d), g8)

def poolHalf : Nat := 0x40000

/-- The half free for a share on a core: a share larger than a half needs the area to itself (log 38). -/
def State.poolArea (s : State) (t c bytes : Nat) : Option Nat :=
  let on := (s.embt t).shares.filter fun x => x.core = c && x.mode ≤ 2 && x.phase ≠ .gather
  let big : Bool := on.any fun x =>
    let d := s.table x.table
    (poolLayout x.items.length (x.rowForm d).1 (tbDim d)).2.2.2 > poolHalf
  if on = [] then some 0
  else if big || bytes > poolHalf then none
  else if !on.any (·.area = 0) then some 0
  else if !on.any (·.area = poolHalf) then some poolHalf
  else none

def State.putShare (s : State) (t : Nat) (sh : EmbShare) : State :=
  let x := s.embt t
  s.setEmbt t { x with shares := x.shares.map fun y => if y.id = sh.id then sh else y }

/-- Gathered rows at their stride; a poisoned row's place keeps what it held. -/
def State.gatherRows (s : State) (a stride : Nat) : List (Nat × Nat × RowRes) → State
  | [] => s
  | x :: l =>
    State.gatherRows (match x.2.2 with | .got _ bs => s.poke a (bs.take stride) | _ => s) (a + stride) stride l

/-- Start a pooling share in the waiting VE slot of its core. -/
def State.poolStart (s : State) (t : Nat) (sh : EmbShare) (area : Nat) : State :=
  let d := s.table sh.table
  let n := sh.items.length
  let (stride, g8) := sh.rowForm d
  let (st, rs, pb, _) := poolLayout n stride (tbDim d)
  let a := coreAddr sh.core (s.rdf (kEmb t 0x20) 0 20 + area)
  let s := s.gatherRows a stride sh.items
  let s := s.poke (a + st) (sh.items.map fun e => if e.2.2 = .bad then 1 else 0)
  let s := s.poke (a + pb) ([a, n, stride, tbDim d, a + st, sh.mode, a + rs, b2n g8].flatMap fun v => leBytes 8 v)
  let v := s.ve sh.core
  let vs : VeShare := ⟨.pool t sh.id, s.rd (wideKey 0x100048), 0xFFFFF * 2 ^ 44 + a + pb, 0, 1, false⟩
  (s.setVe sh.core { v with pend := some vs }).putShare t { sh with phase := .running, area := area }

/-- A pooling share whose rows are gathered enters its core's VE slot when one is free (R87, R295). -/
def State.poolDispatch (s : State) (t c : Nat) : State :=
  match (s.embt t).shares.find? fun sh => sh.core = c && sh.mode ≤ 2 && sh.phase = .gather && sh.known with
  | none => s
  | some sh =>
    let d := s.table sh.table
    let bytes := (poolLayout sh.items.length (sh.rowForm d).1 (tbDim d)).2.2.2
    if s.absent c then
      (s.putShare t { sh with phase := .ended (some false) }).fault t .descError
    else if (s.ve c).pend.isSome || s.fencedCore c then s
    else match s.poolArea t c bytes with
      | none => s
      | some a => (s.poolStart t sh a).vePromote c

/-- POOL_SHARE_COMPLETE: the partial of an ended share goes to its requester (R294). -/
def execPoolShareComplete (t : TileId) (s : State) : Host.Outcome State Fault Refusal :=
  .next <|
    match (s.embt t).shares.find? EmbShare.ended with
    | none => s
    | some sh =>
      if !s.fabOn t || s.fencedTile t || s.bagHeld sh.tag then s
      else
        let x := s.embt t
        let s := s.setEmbt t { x with shares := x.shares.filter fun y => y.id ≠ sh.id }
        match sh.phase with
        | .ended (some ue) => if sh.node = s.node then s.takeFailure sh.tag ue else s
        | _ =>
          let d := s.table sh.table
          let (_, rs, _, _) := poolLayout sh.items.length (sh.rowForm d).1 (tbDim d)
          let a := coreAddr sh.core (s.rdf (kEmb t 0x20) 0 20 + sh.area + rs)
          let inc := leNat (s.bytes a 4)
          let cs := nums (tbDim d) 2 (s.bytes (a + 4) (2 * tbDim d))
          let bad := sh.items.filter fun e => e.2.2 = .bad
          let fe := (bad.map (·.1)).headD 0xFFFF
          if sh.node = s.node then s.takePartial sh.tag inc bad.length fe cs
          else s.respond sh.node 0x0402 sh.tag (partialBody inc bad.length fe cs)

end Sys2Proof.Machine
end

