-- ==== Sys2Proof/Machine/Hcp.lean ====
section
/-!
DEFINITION. Machine/Hcp.lean: the Halaz Command Protocol: datagrams and their checks (R467 to R474), replies (R475 to
R477), the Reeve's queue (R478, R479) and sessions' ends (R520). What a command does is in Machine/Commands.lean.
-/
namespace Sys2Proof.Machine

open Sys2Proof

def kHcpCtrl : Nat := 0xA000
def kHcpSticky : Nat := 0xA008
def kHcpCount (k : Nat) : Nat := 0xA010 + 8 * k

def zeros (n : Nat) : List Byte := List.replicate n 0

/-! ## Sessions -/

def State.session? (s : State) (id : Nat) : Option (Nat × Session) := s.hcp.sessions.find? (·.2.id = id)
def State.setHcp (s : State) (f : HcpState → HcpState) : State := { s with hcp := f s.hcp }
def State.putSession (s : State) (n : Nat) (x : Session) : State :=
  s.setHcp fun h => { h with sessions := smPut h.sessions n x }

/-- A session ends: its keys are erased, and the replies still owed in it are discarded (R479, R520). -/
def State.endSession (s : State) (id : Nat) : State :=
  let s := s.setHcp fun h => { h with sessions := h.sessions.filter (·.2.id ≠ id) }
  { s with feed := { s.feed with
      last := match s.feed.last with | some (i, r) => if i = id then none else some (i, r) | none => none } }

/-! ## Sending -/

/-- The nonce of R472 and R486: direction code and SEQUENCE, most significant byte first (DEDUCED, log 45). -/
def sessNonce (dir seq : Nat) : List Byte := (leBytes 8 seq ++ leBytes 4 dir).reverse

/-- Key i of a session: K_CMD, K_REP, K_FIN, K_FOUT (R520). -/
def Session.key (x : Session) (i : Nat) : List Byte := slice x.keys (32 * i) 32

/-- Type of the torus messages that carry HCP packets (R469). -/
def hcpType : Nat := 1

/-- Send an HCP packet over the torus; to this module itself it comes in at once. -/
def State.sendHcp (s : State) (node tag : Nat) (body : List Byte) : State :=
  if node = s.node then { s with inbox := s.inbox ++ [⟨s.node, hcpType, tag, body⟩] }
  else s.sendMsg 0 hcpType node tag body

/-- Send a packet where its command came from; the management port fragments it (R467 to R469). -/
def State.sendVia (s : State) (v : Via) (b : List Byte) : State :=
  match v with
  | .udp eth addr port => s.emit (.udp eth addr port 50410 b (if eth.val = 2 then 1280 else 0))
  | .torus node tag => s.sendHcp node tag b

/-- The header of a reply (R471); flags: REPLY, with FINAL or not. -/
def replyHeader (flags opcode tag session status seq len retry : Nat) : List Byte :=
  leBytes 1 1 ++ leBytes 1 flags ++ leBytes 2 opcode ++ leBytes 4 tag ++ leBytes 4 session ++ leBytes 2 status ++
  leBytes 2 0 ++ leBytes 8 seq ++ leBytes 4 len ++ leBytes 4 retry

/-- Send a reply: in clear on SESSION 0, sealed under the session's keys otherwise, and not at all once the session has
ended (R472, R473, R479). The SEQUENCE of a reply on SESSION 0 is not stated: a free value (log 45). -/
def State.sendReply (s : State) (v : Via) (opcode tag session status retry : Nat) (final : Bool) (data : List Byte) : State :=
  let flags := 1 + 2 * b2n final
  if session = 0 then
    let (q, s) := s.takeFree 8
    s.sendVia v (replyHeader flags opcode tag 0 status (leNat q) data.length retry ++ data ++ zeros 16)
  else match s.session? session with
    | none => s
    | some (n, x) =>
      let seq := min (x.repSeq + 1) (2 ^ 64 - 1)
      let h := replyHeader flags opcode tag session status seq data.length retry
      (s.putSession n { x with repSeq := seq }).sendVia v
        (h ++ gcmSeal (x.key 1) (sessNonce 1 seq) h data)

/-! ## The queue's account -/

/-- SERVICE_US: the mean service time in whole µs (log 45). -/
def State.serviceUs (s : State) : Nat :=
  if s.hcp.service = [] then 0 else s.hcp.service.foldl (· + ·) 0 / (1000 * s.hcp.service.length)

/-- A command has had its final reply: its service time, which is also a monitor sample (R478, R479). -/
def State.served (s : State) (accepted : Nat) : State :=
  (s.setHcp fun h => { h with service := (s.time - accepted) :: h.service.take 1023 }).sample 6 0 (s.time - accepted)

/-- EV_REEVE_OVERLOAD when the occupancy reaches the threshold, having been below half of it since the last (R479). -/
def State.watchQueue (s : State) : State :=
  let n := s.hcp.queue.length
  let th := s.rdf kHcpCtrl 0 8
  if 2 * n < th then s.setHcp fun h => { h with armed := true }
  else if s.hcp.armed && n ≥ th then
    ((s.setHcp fun h => { h with armed := false }).orBits kHcpSticky 1).raise 0x0902 0 0 n
  else s

/-! ## Checking a packet (R474) -/

/-- The parameter block's size, and the least and most inline bytes, of an opcode; none: no such command. SET_LAYOUT and
RESHARD need their fixed fields here, R445 judging the rest (log 45). -/
def commandShape (opcode : Nat) (payload : List Byte) (inl : Nat) : Option (Bool × Nat × Nat) :=
  let blk := payload.length - inl
  let fixed := fun (n : Nat) => some (decide (blk = n), 0, 0)
  match opcode with
  | 0x0001 => fixed 0 | 0x0002 => fixed 32 | 0x0003 => fixed 600 | 0x0004 => fixed 0
  | 0x0101 => fixed 16 | 0x0102 => fixed 24 | 0x0103 => fixed 8
  | 0x0201 => fixed 16 | 0x0202 => some (decide (blk = 8), 1, 1024) | 0x0203 => fixed 24 | 0x0204 => fixed 8 | 0x0205 => fixed 8
  | 0x0301 => fixed 24 | 0x0302 => fixed 24 | 0x0303 => fixed 8 | 0x0304 => fixed 0 | 0x0305 => fixed 0
  | 0x0401 => fixed 72 | 0x0402 => fixed 8 | 0x0403 => some (decide (blk = 16), 0, 1024) | 0x0404 => fixed 16
  | 0x0405 => fixed 0
  | 0x0501 =>
    let n := if leAt payload 8 8 = 0 then 8 * leAt payload 2 2 else 0
    some (decide (blk = 16), n, n)
  | 0x0502 => fixed 8 | 0x0503 => fixed 8 | 0x0504 => fixed 8 | 0x0505 => fixed 24
  | 0x0601 => some (decide (blk ≥ 32), 0, 0) | 0x0602 => some (decide (blk ≥ 32), 0, 0) | 0x0603 => fixed 24 | 0x0604 => fixed 8
  | 0x0605 => fixed (24 + 16 * leAt payload 1 1)
  | 0x0701 => fixed 8 | 0x0702 => fixed 8 | 0x0703 => fixed 8 | 0x0704 => fixed 8
  | 0x0801 => fixed 8 | 0x0802 => fixed 8 | 0x0803 => fixed 32 | 0x0804 => fixed 8
  | 0x0901 => fixed 32 | 0x0902 => fixed 16 | 0x0903 => fixed 8 | 0x0904 => fixed 16
  | 0x0A01 => fixed 8 | 0x0A02 => fixed 0
  | _ => none

/-- The commands that may take a reserved entry (R478). -/
def mayReserve (opcode : Nat) : Bool := [0x0303, 0x0304, 0x0305, 0x0004, 0x0A01, 0x0A02].contains opcode

/-- Whether a queue entry can be taken: some true for a reserved one, some false for another (R478). -/
def State.freeEntry (s : State) (opcode : Nat) : Option Bool :=
  let r := (s.hcp.queue.filter (·.reserved)).length
  if s.hcp.queue.length - r < 240 then some false
  else if mayReserve opcode && r < 16 then some true
  else none

/-- A packet dropped, or refused, at orders 1 and 2. -/
def State.authFail (s : State) : State := (s.bump (kHcpCount 1) 1).orBits kHcpSticky 4

/-- AUTH_FAIL in clear on SESSION 0, at most 1,000 per second. -/
def State.replyAuthFail (s : State) (v : Via) (opcode tag : Nat) : State :=
  let l := s.hcp.authFails
  let may : Bool := l.length < 1000 || s.time ≥ l.getLastD 0 + 1000000000
  if may then
    (s.setHcp fun h => { h with authFails := s.time :: l.take 999 }).sendReply v opcode tag 0 stAuthFail 0 false []
  else s

/-- Orders 4 to 7. -/
def State.checkPacket (s : State) (v : Via) (p : List Byte) : State :=
  let opcode := leAt p 2 2
  let tag := leAt p 4 4
  let sess := leAt p 8 4
  let inl := leAt p 14 2
  let plen := leAt p 24 4
  let payload := slice p 32 (p.length - 48)
  let refuse := fun (st retry : Nat) (s : State) => s.sendReply v opcode tag sess st retry false []
  if leAt p 0 1 ≠ 1 || leAt p 1 1 ≠ 0 || leAt p 12 2 ≠ 0 || leAt p 28 4 ≠ 0 then refuse stBadParam 0 s
  else match commandShape opcode payload inl with
    | none => refuse stBadOpcode 0 s
    | some (blk, lo, hi) =>
      if plen > 4096 || inl > 1024 || inl > plen || p.length ≠ 48 + plen || !blk || inl < lo || inl > hi then
        refuse stBadLength 0 s
      else match s.freeEntry opcode with
        | none => refuse stQueueFull (max 10 (16 * s.serviceUs)) ((s.bump (kHcpCount 3) 1).orBits kHcpSticky 2)
        | some r =>
          let e : HcpEntry := ⟨v, opcode, tag, sess, slice payload 0 (plen - inl), payload.drop (plen - inl), s.time, r⟩
          ((s.setHcp fun h => { h with queue := h.queue ++ [e] }).bump (kHcpCount 0) 1).watchQueue

/-- Orders 1 to 3, then the rest, on a packet as it came. On SESSION 0 the tag field must be zeros (R472). -/
def State.takePacket (s : State) (v : Via) (p : List Byte) : State :=
  let opcode := leAt p 2 2
  let sess := leAt p 8 4
  if p.length < 48 then s.authFail
  else if sess = 0 then
    if !(([1, 2, 3] : List Nat).contains opcode) then s.authFail
    else if !zeroAt p (p.length - 16) 16 then s.authFail.replyAuthFail v opcode (leAt p 4 4)
    else s.checkPacket v p
  else match s.session? sess with
    | none => s.authFail
    | some (n, x) =>
      let q := leAt p 16 8
      match gcmOpen (x.key 0) (sessNonce 0 q) (p.take 32) (p.drop 32) with
      | none => s.authFail.replyAuthFail v opcode (leAt p 4 4)
      | some d =>
        if q ≤ x.cmdSeq || x.repSeq ≥ 2 ^ 64 - 1 then
          (s.bump (kHcpCount 2) 1).sendReply v opcode (leAt p 4 4) sess stStale 0 false []
        else (s.putSession n { x with cmdSeq := q, lastAt := s.time }).checkPacket v (p.take 32 ++ d ++ zeros 16)

/-! ## Datagrams -/

/-- An Ethernet port is up. -/
def State.ethUp (s : State) (e : Nat) : Bool := s.hubOn && s.boot.reeve && smGet 0 s.boot.eth e = 1

/-- The bytes from offset cur to total, when the pieces cover them. -/
def gather (pieces : List (Nat × List Byte)) (total : Nat) : Nat → Nat → Option (List Byte)
  | 0, _ => none
  | fuel + 1, cur =>
    if cur ≥ total then some []
    else match pieces.find? (fun x => x.1 = cur && x.2 ≠ []) with
      | none => none
      | some x => (gather pieces total fuel (cur + x.2.length)).map (x.2 ++ ·)

def sameFrag (addr : List Byte) (port ident : Nat) (f : Frag) : Bool := f.addr = addr && f.port = port && f.ident = ident

/-- A fragment comes in on the management port: the whole datagram when it is complete (R468). -/
def State.takeFrag (s : State) (addr : List Byte) (port : Nat) (f : FragInfo) (b : List Byte) : Option (List Byte) × State :=
  let old := (s.hcp.frags.find? (sameFrag addr port f.ident)).getD ⟨addr, port, f.ident, [], none⟩
  let rest := s.hcp.frags.filter fun x => !sameFrag addr port f.ident x
  if f.off + b.length > 4200 then (none, s.setHcp fun h => { h with frags := rest })
  else
    let x := { old with pieces := old.pieces ++ [(f.off, b)],
                        total := if f.more then old.total else some (f.off + b.length) }
    match x.total.bind fun n => gather x.pieces n (x.pieces.length + 1) 0 with
    | some d => (some d, s.setHcp fun h => { h with frags := rest })
    | none => (none, s.setHcp fun h => { h with frags := rest ++ [x] })

/-- HCP_PACKET: a packet to UDP port 50410, or a fragment of one; a datagram to another port is ignored (R467). A packet
that comes over the torus is in the inbox. -/
def execHcpPacket (v : Via) (frag : Option FragInfo) (p : List Byte) (dport : BitVec 16) (s : State) :
    Host.Outcome State Fault Refusal :=
  .next <|
    match v with
    | .udp eth addr port =>
      if !s.ethUp eth || dport ≠ 50410 || (eth.val = 2 && !bit (s.rd kHcpCtrl) 8) then s
      else match frag with
        | none => s.takePacket v p
        | some f =>
          if eth.val ≠ 2 then s
          else match s.takeFrag addr port f p with
            | (some d, s) => s.takePacket v d
            | (none, s) => s
    | .torus node tag =>
      let it := fun (m : InMsg) => m.src = node && m.typ = hcpType && m.tag = tag && m.body = p
      if s.hubOn && s.boot.reeve && s.inbox.any it then
        ({ s with inbox := removeFirst it s.inbox } : State).takePacket v p
      else s

/-- FRAGMENT_TIMEOUT. -/
def execFragmentTimeout (addr : List Byte) (port ident : Nat) (s : State) : Host.Outcome State Fault Refusal :=
  .next <| s.setHcp fun h => { h with frags := h.frags.filter fun x => !sameFrag addr port ident x }

/-- RELAY: forward a packet unopened (R470). -/
def execRelay (eth : EthId) (addr : List Byte) (port : Nat) (d : List Byte) (s : State) : Host.Outcome State Fault Refusal :=
  .next <|
    if !s.ethUp eth || !bit (s.rd kHcpCtrl) 9 || d.length < 8 || leAt d 0 4 ≥ 2 ^ 20 || !zeroAt d 4 4 then s
    else
      let t := s.hcp.nextTag
      let s := s.setHcp fun h => { h with nextTag := (t + 1) % 2 ^ 32, relays := h.relays ++ [⟨t, eth, addr, port⟩] }
      (s.bump (kHcpCount 4) 1).sendHcp (leAt d 0 4) t (d.drop 8)

/-- A reply that another one follows: PENDING, whose FINAL reply is still to come (R475). -/
def moreFollows (b : List Byte) : Bool := leAt b 12 2 = stPending && !bit (leAt b 1 1) 1

/-- A relayed packet's reply comes back: its prefix names the replying module (R470). The way back is kept until the
last reply. -/
def State.relayReply (s : State) (m : InMsg) : State :=
  match s.hcp.relays.find? (·.tag = m.tag) with
  | none => s
  | some r =>
    let s := if moreFollows m.body then s
      else s.setHcp fun h => { h with relays := removeFirst (·.tag = m.tag) h.relays }
    s.emit (.udp r.eth r.addr r.port 50412 (leBytes 8 m.src ++ m.body) (if r.eth = 2 then 1280 else 0))

/-! ## A port's own addresses (R467) -/

/-- The interface identifier of the ports. -/
def State.ifaceId (s : State) : List Byte := (List.range 8).map (Config.interfaceId s.flash.serial)

/-- The prefixes of a port's addresses: that of its link-local one, and those that routers have advertised. -/
def State.ethPrefixes (s : State) (eth : Nat) : List (List Byte) :=
  [0xFE, 0x80, 0, 0, 0, 0, 0, 0] :: smGet [] s.hcp.prefixes eth

/-- An address of a port. -/
def State.ownAddr (s : State) (eth : Nat) (a : List Byte) : Bool := (s.ethPrefixes eth).any fun p => p ++ s.ifaceId = a

/-- NEIGHBOUR_DISCOVERY: a solicitation for one of the port's addresses is answered; a router's advertisement of a prefix
gives the port an address in it. -/
def execNeighbourDiscovery (eth : EthId) (m : NdMsg) (s : State) : Host.Outcome State Fault Refusal :=
  .next <|
    if !s.ethUp eth then s
    else match m with
      | .solicit addr target => if s.ownAddr eth target then s.emit (.ndAnswer eth addr target) else s
      | .advert _ p =>
        let ps := smGet [] s.hcp.prefixes eth
        if ps.contains p then s else s.setHcp fun h => { h with prefixes := smPut h.prefixes eth (ps ++ [p]) }

/-- ECHO_REQUEST to one of the port's addresses, from which the answer comes. -/
def execEchoRequest (eth : EthId) (e : IpEnds) (data : List Byte) (s : State) : Host.Outcome State Fault Refusal :=
  .next <| if s.ethUp eth && s.ownAddr eth e.dst then s.emit (.echoReply eth e.src e.dst data) else s

/-! ## Running a command (R475, R478) -/

/-- Commands whose accesses the Reeve makes as master (R481). -/
def reeveAccesses (opcode : Nat) : Bool := opcode = 0x0201 || opcode = 0x0202 || opcode = 0x0203

/-- The command at the head of the queue, when it has an opcode and its block is of the row's kind. Replies to
OPEN_SESSION go out on SESSION 0 (R519). An access of the Reeve waits for an order command in force (R361). -/
def State.headIs (s : State) (opcode : Nat) (sub : List Byte → Bool) : Option (HcpEntry × State) :=
  match s.hcp.queue with
  | [] => none
  | e :: q =>
    if s.hubOn && s.boot.reeve && e.opcode = opcode && sub e.block && !(reeveAccesses opcode && s.fencedAll) then
      some (if opcode = 3 then { e with session := 0 } else e, (s.setHcp fun h => { h with queue := q }).watchQueue)
    else none

/-- A time the spec does not give, in µs (R475). -/
def State.retryTime (s : State) : Nat × State := let (n, s) := s.freeNat; (n % 2 ^ 32, s)

/-- Reply to a command that has come to an end. -/
def State.finish (s : State) (e : HcpEntry) (final : Bool) (status : Nat) (data : List Byte) : State :=
  let (r, s) := if status = stBusy then s.retryTime else (0, s)
  (s.sendReply e.via e.opcode e.tag e.session status r final data).served e.accepted

/-- Answer a command: at once, or PENDING when its status is PENDING or when it cannot finish within 1 ms; BUSY when
another one is PENDING, in the state s0 before it (R475). -/
def State.answer (s0 : State) (e : HcpEntry) (slow : Bool) (a : Ans) : State :=
  let (st, data, s) := a
  if st = stPending || slow then
    if s0.hcp.pend.isSome then s0.finish e false stBusy []
    else
      (s.sendReply e.via e.opcode e.tag e.session stPending 0 false []).setHcp fun h =>
        { h with pend := some ⟨e, if st = stPending then none else some (st, data)⟩ }
  else s.finish e false st data

/-- Only HELLO, ATTEST and GET_INFO are available with BOOT_DEGRADED (R508). -/
def State.mayRun (s : State) (opcode : Nat) : Bool := !bit (s.rd 0xC000) 3 || [1, 2, 0x0103].contains opcode

/-- Run the command at the head of the queue. -/
def State.runCommand (s : State) (opcode : Nat) (sub : List Byte → Bool) (slow : Bool) (body : HcpEntry → State → Ans) : State :=
  match s.headIs opcode sub with
  | none => s
  | some (e, s) => if s.mayRun opcode then s.answer e slow (body e s) else s.finish e false stNotReady []

/-- The PENDING command has finished. -/
def State.pendingEnds (s : State) (status : Nat) (data : List Byte) : State :=
  s.setHcp fun h => { h with pend := h.pend.map fun p => { p with result := some (status, data) } }

/-- The PENDING command has an opcode. -/
def State.pendIs (s : State) (opcode : Nat) : Bool :=
  match s.hcp.pend with | some p => p.entry.opcode = opcode && p.result.isNone | none => false

/-- A firmware fault (R476). -/
def State.internal (s : State) (opcode : Nat) : State := (s.orBits kHcpSticky 8).raise 0x0903 0 0 opcode

end Sys2Proof.Machine
end

