-- ==== Sys2Proof/Machine/EmbGrad.lean ====
section
/-!
DEFINITION. Machine/EmbGrad.lean: gradient contributions and their coalescing (R311 to R314), EMB_APPLY and its row
writes (R259, R269, R315, R318), change lists and refreshes from other modules, and the resets of the Embedding Engine
(R326 to R328).
-/
namespace Sys2Proof.Machine

open Sys2Proof

/-! ## EMB_GRAD -/

/-- Read count vectors of d BF16 elements at stride VS. -/
def State.readVecs (s : State) (d addr : Nat) : Nat → Except Bool (List (List Num)) × State
  | 0 => (.ok [], s)
  | n + 1 =>
    match s.gRead addr (2 * d) with
    | (.ok, bs, s) =>
      let v := (nums d 2 bs).map fun c => (decodeCode bf16 c).1
      match s.readVecs d (addr + vecStride d) n with
      | (.ok vs, s) => (.ok (v :: vs), s)
      | e => e
    | (c, _, s) => (.error (decide (c = .ue)), s)

/-- A row and a vector for each key of a bag that is in range (R312). -/
def keyContribs (d : List Byte) : List Nat → List (List Num) → List (Nat × List Num)
  | k :: ks, v :: vs =>
    match rowOfKey d k with
    | some r => (r, v) :: keyContribs d ks vs
    | none => keyContribs d ks vs
  | _, _ => []

/-- The contributions of one bag (R311, R312). -/
def State.bagContribs (s : State) (table area status : Nat) (keys : List Nat) (e : BagEntry) :
    Except Bool (List (Nat × List Num)) × State :=
  let d := s.table table
  let ks := (keys.drop e.first).take e.n
  if e.n = 0 then (.ok [], s)
  else
    let go := fun (s : State) (div : Nat) =>
      match s.readVecs (tbDim d) (area + e.off) (if e.mode = 3 then e.n else 1) with
      | (.ok vs, s) =>
        let vs := if e.mode = 3 then vs
          else List.replicate e.n (if e.mode = 1 then (vs.headD []).map (wDiv · div) else vs.headD [])
        (.ok (keyContribs d ks vs), s)
      | (.error u, s) => (.error u, s)
    if e.mode = 1 then
      match s.gRead (status + 8 * e.i) 8 with
      | (.ok, w, s) => if leAt w 0 2 = 0 then (.ok [], s) else go s (leAt w 0 2)
      | (c, _, s) => (.error (decide (c = .ue)), s)
    else go s 1

def State.allContribs (s : State) (table area status : Nat) (keys : List Nat) :
    List BagEntry → Except Bool (List (Nat × List Num)) × State
  | [] => (.ok [], s)
  | e :: es =>
    match s.bagContribs table area status keys e with
    | (.ok a, s) => (match s.allContribs table area status keys es with
      | (.ok b, s) => (.ok (a ++ b), s)
      | x => x)
    | x => x

/-- Send one contribution to its row's owner (R312). -/
def State.sendContrib (s : State) (tag table : Nat) (c : Nat × List Num) : State :=
  let d := s.table table
  let o := s.owner d c.1
  if o = s.rank then
    let t := s.serving d c.1
    let x := s.embt t
    s.setEmbt t { x with contribs := x.contribs ++ [⟨tag, table, c.1, c.2⟩] }
  else if !s.reaches (s.nodeOf o) then s.answersLost tag 1
  else s.emit (.contribution (s.nodeOf o) tag s.step table c.1 c.2)

/-- EMB_GRAD at issue. -/
def State.gradIssue (s : State) (t idx table n list area : Nat) : State :=
  match s.embParse true table n list with
  | (.bad k ue, s) => s.embRefuse t idx k ue
  | (.ok l, s) =>
    match s.allContribs table area l.status l.keys l.bags with
    | (.error ue, s) => s.partDone t idx (some ue)
    | (.ok cs, s) =>
      if cs = [] then s.partDone t idx none
      else
        let (tag, s) := s.newTag
        let x := s.embt t
        let j : EmbJob := ⟨idx, table, tbDim (s.table table), false, 0, [], tag, cs.length, none, s.time⟩
        cs.foldl (fun s c => s.sendContrib tag table c) (s.setEmbt t { x with jobs := x.jobs ++ [j] })

/-! ## Contributions -/

/-- A contribution is summed, in an entry in use or in a spill entry (R313). -/
def State.noteSum (s : State) (t : Nat) (spill : Bool) : State :=
  let s := s.bump (kEmbCount t 6) 1
  if spill then s.bump (kEmbCount t 13) 1 else s

/-- The W word of a sum, 10 bytes; one that is not finite has no such word, and the bytes are free (R150, log 81). -/
def State.wBytes (s : State) : List Num → List Byte × State
  | [] => ([], s)
  | x :: xs =>
    let (b, s) := match x with
      | .fin n m e => (leBytes 10 (WAcc.word ⟨n, m, e⟩), s)
      | _ => s.takeFree 10
    let (r, s) := s.wBytes xs
    (b ++ r, s)

/-- An entry's bytes, where EMB_COAL_BASE or EMB_SPILL_BASE places it in the tile's Studio SRAM or in HBM (R313, log
81). -/
def State.coalStore (s : State) (t : Nat) (e : CoalEntry) : State :=
  let a := s.rdf (kEmb t (if e.spill then 0x30 else 0x28)) 0 44 + e.place * s.rdf (wideKey 0x100024) 0 13
  if (if e.spill then regionOf a = .hbm else regionOf a = .studio && tileOf a = t) && s.accessCode a (10 * e.acc.length) = .ok
  then
    let (b, s) := s.wBytes e.acc
    s.put a b
  else s

/-- A new coalescing entry begins with a contribution, in the lowest free place. -/
def State.newCoal (s : State) (t table r : Nat) (vec : List Num) (spill : Bool) : State :=
  let x := s.embt t
  let z := List.replicate (tbDim (s.table table)) (Num.fin false 0 0)
  let used := (x.coal.filter fun e => e.spill = spill).map (·.place)
  let place := ((List.range (used.length + 1)).find? fun i => !used.contains i).getD 0
  let e : CoalEntry := ⟨table, r, spill, place, 1, wPlusAll z vec⟩
  ((s.setEmbt t { x with coal := x.coal ++ [e] }).coalStore t e).noteSum t spill

/-- Sum a contribution into its row's coalescing entry (R313, R318). -/
def State.contribute (s : State) (t table r : Nat) (vec : List Num) : State :=
  let x := (s.embt t).heat (s.isHot table r) table r
  let s := s.setEmbt t x
  if s.isPoisoned table r then s.bump (kEmbCount t 5) 1
  else
    match x.coal.find? fun e => e.table = table && e.row = r with
    | some c =>
      let c' := { c with count := c.count + 1, acc := wPlusAll c.acc vec }
      let s := s.setEmbt t { x with coal := x.coal.map fun e => if e.table = table && e.row = r then c' else e }
      (s.coalStore t c').noteSum t c.spill
    | none =>
      if x.coal.countP (fun e => !e.spill) < 16384 then s.newCoal t table r vec false
      else if x.coal.countP (·.spill) < s.rdf (kEmb t 0x38) 0 21 then s.newCoal t table r vec true
      else (s.orBits (kEmb t 0x40) 4).fault t .memUe

def WVal.num : WVal → Num
  | .fin n m e => .fin n m e
  | .inf n => .inf n
  | .nan => .nan

/-- CONTRIBUTION: the oldest one this module has under way to tile t, or one from another module. A contribution of
another step, or outside a step, has no effect (DEDUCED from R314 and R328, log 38). -/
def execContribution (t : TileId) (src : Option RemoteContrib) (s : State) : Host.Outcome State Fault Refusal :=
  .next <|
    if !s.fabOn t || s.fencedTile t then s
    else match src with
    | none =>
      match (s.embt t).contribs with
      | [] => s
      | c :: cs =>
        let s := s.setEmbt t { s.embt t with contribs := cs }
        (if s.quiet then s else s.contribute t c.table c.row c.vec).takeAck c.tag
    | some c =>
      let d := s.table c.table
      let s :=
        if s.tableOk c.table && c.row < tbRows d && c.step = s.step && !s.quiet && s.owner d c.row = s.rank &&
            s.serving d c.row = t
        then s.contribute t c.table c.row (c.vec.map WVal.num) else s
      s.emit (.contributionDone c.node c.tag)

/-! ## EMB_APPLY (R315, R269) -/

/-- A row recipe that exists (R254). -/
def State.rowRecipeOk (s : State) (table : Nat) : Bool :=
  let n := tbRecipe (s.table table)
  s.tableOk table && n < 32 && s.recValid n && s.recRow n

/-- Store what tile t's recipe made of a row for descriptor idx of tile i. A row that would store NaN or infinity stores
nothing (R259); true when the descriptor ends with an error. -/
def State.rowStore (s : State) (i t idx table r home : Nat) (el : List Num) (acc : Num) (o : UeOut) : Bool × State :=
  let d := s.table table
  let ws := o.weight.getD []
  let vals := ws ++ o.acc.toList
  if !vals.all finite32 then (bit (s.rd (wideKey 0x110000)) 1, s.nonfinite t home vals)
  else if tbFmt d = 0 then
    let sr := fun off => some (s.storeBits (home + off) (tbRecipe d) 1 s.step)
    let (bs, f) := encodeRow16 (tbRowBytes d) sr (f32 (o.acc.getD 0)) (ws.map f32)
    let s := (s.ueFlags t f).mapFlight i idx fun i => { i with parts := i.parts + 1 }
    let x := s.embt t
    (false, s.setEmbt t { x with writes := x.writes ++ [⟨i, idx, table, r, home, bs, false⟩] })
  else
    let delta := fun (x : W32) (y : Num) => fsub x (roundF32 y).1
    let de := (zipPairs ws el).map fun e => delta e.1 e.2
    let da := o.acc.map fun x => delta x acc
    let s := s.ueFlags t (orAll (de ++ da.toList))
    match s.journalAdd t table r (da.map (·.1)) (de.map (·.1)) with
    | some s => (false, (s.bump (kEmbCount t 7) 1).bump (kUe t 0x30) 1)
    | none => (false, (s.orBits (tileBase t + 0x120024) 1).fault t .memUe)

/-- Apply one coalesced entry of serving tile t. -/
def State.applyEntry (s : State) (i t idx : Nat) (c : CoalEntry) : Bool × State :=
  let d := s.table c.table
  let drop := fun (s : State) => s.bump (kEmbCount t 5) c.count
  if s.isPoisoned c.table c.row then (false, drop s)
  else
    let (src, staged) := s.rowSource t c.table c.row
    let s := if tbFmt d = 0 || staged then s else s.bump (kEmbCount t 2) 1
    match s.rowRead t c.table c.row src with
    | (.ok, bs, s) =>
      let (g8, bs, s) := s.present t c.table c.row (tbFresh d) bs
      let (acc, el) := decodeRow g8 (tbDim d) bs
      let (o, f) := s.runRecipe (tbRecipe d) (tbDim d) ⟨c.acc, el, [], (roundF32 acc).1⟩
      (s.ueFlags t f).rowStore i t idx c.table c.row (s.home d c.row) el acc o
    | (.ue, _, s) => (false, drop s)
    | (_, _, s) => (true, drop s)

def State.applyEntries (s : State) (i t idx : Nat) : List CoalEntry → Bool × State
  | [] => (false, s)
  | c :: cs =>
    let (e, s) := s.applyEntry i t idx c
    let (e', s) := s.applyEntries i t idx cs
    (e || e', s)

/-- Entries of tile t that an EMB_APPLY names. -/
def State.applyNamed (s : State) (t table : Nat) : List CoalEntry :=
  (s.embt t).coal.filter fun e => table = 0xFFFF || e.table = table

/-- The entries that an EMB_APPLY of tile i names on its serving tiles (R315). -/
def State.applyTiles (s : State) (i idx table : Nat) : List Nat → Bool × State
  | [] => (false, s)
  | t :: ts =>
    let named := s.applyNamed t table
    let x := s.embt t
    let s := s.setEmbt t { x with coal := x.coal.filter fun e => !(table = 0xFFFF || e.table = table) }
    let (e, s) := s.applyEntries i t idx named
    let (e', s) := s.applyTiles i idx table ts
    (e || e', s)

/-- EMB_APPLY at issue (R259, R315). -/
def State.applyIssue (s : State) (t idx table : Nat) : State :=
  let named := (List.range 4).flatMap fun u => s.applyNamed u table
  let ok := (if table = 0xFFFF then named.map (·.table) else [table]).all s.rowRecipeOk
  if !ok then (s.orBits (kUe t 0x20) 1).partDone t idx (some false)
  else
    let (e, s) := s.applyTiles t idx table (List.range 4)
    (s.mapFlight t idx fun i => { i with late := e }).partDone t idx none

/-- A journal area that this step builds in is still being cleared, so EMB_APPLY waits (R346). -/
def State.applyWaits (s : State) : Bool := (List.range 4).any fun t => (s.grn t).clearing.contains (s.step % 10)

/-- ROW_WRITE_DONE (R318): the oldest row write of the tile ends. -/
def execRowWriteDone (t : TileId) (err : Bool) (s : State) : Host.Outcome State Fault Refusal :=
  .next <|
    let x := s.embt t
    match x.writes with
    | [] => s
    | w :: ws =>
      if !s.fabOn t then s
      else match (if err then (Code.denied, s) else s.memWrite true w.addr w.bytes) with
        | (.ok, s) =>
          (((s.setEmbt t { s.embt t with writes := ws }).bump (kEmbCount t 7) 1).bump (kUe t 0x30) 1).partDone w.tile w.idx none
        | (_, s) =>
          if w.retried then
            ((s.setEmbt t { s.embt t with writes := ws }).poison t w.table w.row 1).partDone w.tile w.idx none
          else s.setEmbt t { s.embt t with writes := { w with retried := true } :: ws }

/-! ## The fence and other modules -/

/-- Empty the coalescing tables and spill areas. -/
def State.emptyCoal (s : State) : State := s.eachTile fun s t => s.setEmbt t { s.embt t with coal := [] }

/-! ## Resets -/

/-- Per-tile registers of R324 other than EMB_POISONi. -/
def embTileReg (o : Nat) : Bool :=
  o = 0x100010 || (0x10001C ≤ o && o < 0x100024) || (0x100028 ≤ o && o < 0x100048) || (0x100050 ≤ o && o < 0x100200)

/-- Stop a tile's engine: its jobs, shares, contributions and writes are gone. -/
def State.embStop (s : State) (t : Nat) : State :=
  s.setEmbt t { s.embt t with jobs := [], shares := [], contribs := [], writes := [], coal := [] }

/-- Copy n bytes within memory. -/
def State.copyBytes (s : State) (src dst n : Nat) : State :=
  let xs := s.mem.filter fun e => src ≤ e.1 && e.1 < src + n
  xs.foldl (fun s e => s.poke (dst + (e.1 - src)) [e.2]) (s.zero dst n)

/-- RESET_TILE (R327). Both tiles' Commons bases are as they stood before the registers reset; a base outside its tile's
Studio SRAM names no Commons (log 39). -/
def State.embResetTile (s : State) (t : Nat) : State :=
  let n := 262144 * s.rdf (wideKey 0x100018) 0 11
  let base := fun k => s.rdf (kEmb k 0x10) 0 44
  let inStudio := fun k => regionOf (base k) = .studio && tileOf (base k) = k
  let s := if inStudio t && inStudio ((t + 1) % 4) then s.copyBytes (base ((t + 1) % 4)) (base t) n else s
  let s := s.embStop t
  let s := s.setEmbt t { s.embt t with sketch := [], cand := [], exact := [], rot := 0 }
  s.resetRegs fun k => tileBase t ≤ k && k < tileBase t + 0x200000 && embTileReg (k - tileBase t)

/-- Power-on and RESET_MODULE (R326). -/
def State.embReset (s : State) : State :=
  ({ s with emb := [], embm := EmbModule.init }).resetRegs fun k =>
    0x200000 ≤ k && k < 0xA00000 && 0x100000 ≤ k % 0x200000 && k % 0x200000 < 0x110000

/-- ABORT_JOB (R328). -/
def State.embAbort (s : State) : State :=
  (s.eachTile fun s t => s.embStop t).newWindow none

end Sys2Proof.Machine
end

