-- ==== Sys2Proof/Machine/Writeback.lean ====
section
/-!
DEFINITION. Machine/Writeback.lean: write-back of journal segments (R346 to R351), and what commands and resets do to
the journal (R320, R341, R370 to R372).
-/
namespace Sys2Proof.Machine

open Sys2Proof

/-- The entries of a segment in order: row key and address; an entry whose KEY is not VALID has been discarded. -/
def State.segEntries (s : State) (a : Nat) : Nat → List (Nat × Nat)
  | 0 => []
  | n + 1 =>
    let h := s.bytes a 16
    let k := leAt h 0 8
    let rest := s.segEntries (a + entryBytes (leAt h 12 2)) n
    if bit k 63 then (k, a) :: rest else rest

def State.entriesOf (s : State) (t : Nat) (g : Segment) : List (Nat × Nat) :=
  s.segEntries (s.jnlArea t g.area + 64 * s.jnlBuckets t) g.count

/-- Addition in W precision with INEXACT when it rounds. -/
def wPlusF (x y : Num) : Num × NFlags :=
  match x, y with
  | .fin a m e, .fin b n g => let (w, ex) := wAdd ⟨a, m, e⟩ b n g; (w.num, flagIf (!ex) fInx)
  | x, y => (x.add y, 0)

def wSumF (xs ys : List Num) : List Num × NFlags :=
  let r := (zipPairs xs ys).map fun e => wPlusF e.1 e.2
  (r.map (·.1), r.foldl (fun f e => f ||| e.2) 0)

/-- Add the deltas of entries in order; the accumulator is kept only when an entry carries one (R143). -/
def State.addEntries (s : State) (acc : Num) (el : List Num) (has : Bool) (f : NFlags) :
    List Nat → Num × List Num × NFlags
  | [] => (if has then acc else .fin false 0 0, el, f)
  | a :: as =>
    let (da, de) := s.entryAt a
    let (el, g) := wSumF el (de.map f32)
    match da with
    | some x => let (acc, h) := wPlusF acc (f32 x); s.addEntries acc el true (f ||| g ||| h) as
    | none => s.addEntries acc el has (f ||| g) as

/-- A row that is also staged in a half takes its new bytes there (R300, R348). -/
def State.restage (s : State) (t half table r : Nat) (bs : List Byte) : State :=
  match s.stageFind t half table r with
  | some (.inl a) => s.put a bs
  | _ => s

/-- Write one row back with the step of the counter fields, and its staged copy in the half that the next step to run
uses: whether it was written (R348, R349). A row with a value that is not finite is not written (R142, R259). -/
def State.writeRow (s : State) (t step half key : Nat) (es : List Nat) : Bool × State :=
  let r := fld key 0 40
  let table := fld key 40 12
  let d := s.table table
  let home := s.home d r
  let drop := fun (s : State) => s.bump (kGrnCount t 5) es.length
  if s.isPoisoned table r then (false, drop s)
  else match s.rowRead t table r home with
    | (.ok, bs, s) =>
      let g8 : Bool := tbFmt d = 1
      let (acc, el) := decodeRow g8 (tbDim d) bs
      let (acc, el, f) := s.addEntries acc el false 0 es
      let sr := fun off => some (s.storeBits (home + off) (tbRecipe d) 3 step)
      if !(acc :: el).all Num.isFinite then (false, (s.ueFlags t f).nonfiniteNums t home (acc :: el))
      else
        let (out, g) := (if g8 then encodeRow8 else encodeRow16) (tbRowBytes d) sr acc el
        let s := s.ueFlags t (f ||| g)
        match s.memWrite true home out with
        | (.ok, s) => (true, (s.restage t half table r out).bump (kGrnCount t 4) 1)
        | (_, s) => (false, drop s)
    | (_, _, s) => (false, drop s)

/-- Rows named in the segments, in order of first entry, each with its entries in ascending step order. -/
def groupRows : List (Nat × Nat) → List (Nat × List Nat) → List (Nat × List Nat)
  | [], acc => acc
  | (k, a) :: l, acc =>
    groupRows l (if acc.any (·.1 = k) then acc.map fun e => if e.1 = k then (k, e.2 ++ [a]) else e else acc ++ [(k, [a])])

def State.writeRows' (s : State) (t step half n : Nat) : List (Nat × List Nat) → Nat × State
  | [] => (n, s)
  | (k, es) :: l =>
    let (ok, s) := s.writeRow t step half k es
    s.writeRows' t step half (if ok then n + 1 else n) l

def insertSeg (x : Segment) : List Segment → List Segment
  | [] => [x]
  | y :: ys => if x.step < y.step then x :: y :: ys else y :: insertSeg x ys

/-- Write back the sealed segments of a tile that p names (R348): the rows written. Their areas await clearing (R346). -/
def State.writeBackTile (s : State) (t step half : Nat) (p : Segment → Bool) : Nat × State :=
  let g := s.grn t
  let due := (g.sealedSegs.filter p).foldr insertSeg []
  let (n, s) := s.writeRows' t step half 0 (groupRows (due.flatMap (s.entriesOf t)) [])
  let g := s.grn t
  (n, s.setGrn t { g with sealedSegs := g.sealedSegs.filter fun x => !p x, clearing := g.clearing ++ due.map (·.area) })

/-- All four tiles. -/
def State.writeBack (s : State) (step half : Nat) (p : Segment → Bool) : Nat × State :=
  let (a, s) := s.writeBackTile 0 step half p
  let (b, s) := s.writeBackTile 1 step half p
  let (c, s) := s.writeBackTile 2 step half p
  let (d, s) := s.writeBackTile 3 step half p
  (a + b + c + d, s)

/-- Order 5 of the fence of a step (R348, R350). -/
def State.fenceWriteBack (s : State) : State :=
  (s.writeBack s.step (s.step + 1) fun g => g.stale || g.step + s.delayD ≤ s.step).2

/-- RUN_STEPS finds sealed segments whose step is not below its first (R350). -/
def State.markStale (s : State) (first : Nat) : State :=
  s.eachTile fun s t =>
    let g := s.grn t
    s.setGrn t { g with sealedSegs := g.sealedSegs.map fun x => { x with stale := x.stale || first ≤ x.step } }

/-- JOURNAL_AREA_CLEARED (R346). waited: FAB clocks an EMB_APPLY of the tile has waited for the area. -/
def execJournalAreaCleared (t : TileId) (waited : Nat) (s : State) : Host.Outcome State Fault Refusal :=
  .next <|
    match (s.grn t).clearing with
    | [] => s
    | k :: ks =>
      if !s.fabOn t then s
      else
        let s := if s.step % 10 = k then s.bump (kGrnCount t 8) waited else s
        (s.clearArea t k).setGrn t { (s.clearArea t k).grn t with clearing := ks }

/-- The journal of any tile holds a sealed segment. -/
def State.anySealed (s : State) : Bool := (List.range 4).any fun t => (s.grn t).sealedSegs ≠ []

/-- The effect of a write to GRN_CTRL.DELAY through tile t's block (R341): whether it was taken. -/
def State.delayWrite (s : State) (t v : Nat) : Bool × State :=
  let d := fld v 0 4
  if s.isIdle && !s.anySealed && 1 ≤ d && d ≤ 8 then (true, s.wrf kGrnCtrl 0 4 d)
  else (false, s.orBits (tileBase t + 0x120024) 4)

/-- DELAY_WRITE. -/
def execDelayWrite (t : TileId) (val : W32) (s : State) : Host.Outcome State Fault Refusal :=
  .next <| if s.fabOn t then (s.delayWrite t val.toNat).2 else s

/-! ## Discarding -/

/-- The journal holds deltas for a table (R286). -/
def State.journalHolds (s : State) (table : Nat) : Bool :=
  (List.range 4).any fun t => ((s.grn t).sealedSegs ++ (s.grn t).building.toList).any fun g =>
    (s.entriesOf t g).any fun e => fld e.1 40 12 = table

/-- Index the entries of a segment again (after one has been discarded). -/
def State.reindex (s : State) (t : Nat) (g : Segment) : List (Nat × Nat) → State
  | [] => s
  | (k, a) :: l =>
    let s := match s.probe t g.area (fld k 40 12) (fld k 0 40) with
      | .room w _ => s.put w (leBytes 8 k ++ leBytes 4 ((a - s.jnlArea t g.area) / 64) ++ leBytes 4 0)
      | _ => s
    s.reindex t g l

/-- Discard the deltas of a row in a segment: its entry is no longer VALID, in the index or in its own KEY. -/
def State.dropEntry (s : State) (t table r : Nat) (g : Segment) : State :=
  match s.probe t g.area table r with
  | .found e _ =>
    let s := s.put e (leBytes 8 (rowKey table r - 2 ^ 63))
    (s.clear (s.jnlArea t g.area) (64 * s.jnlBuckets t)).reindex t g (s.entriesOf t g)
  | _ => s

/-- RESTORE_ROW discards a row's journalled deltas (R320). -/
def State.dropDeltas (s : State) (table r : Nat) : State :=
  let t := s.serving (s.table table) r
  let g := s.grn t
  (g.sealedSegs ++ g.building.toList).foldl (fun s x => s.dropEntry t table r x) s

/-- Entries that every segment of a tile still holds. -/
def State.journalCount (s : State) (t : Nat) : Nat :=
  ((s.grn t).sealedSegs ++ (s.grn t).building.toList).foldl (fun n g => n + (s.entriesOf t g).length) 0

/-- Registers of R367 outside the module-wide ones, GRN_CTRL and the HBM repair fields. -/
def memReg (o : Nat) : Bool :=
  (0x120008 ≤ o && o < 0x120100) || (0x120118 ≤ o && o < 0x130000) || (0x130100 ≤ o && o < 0x130200)

/-- Posted writes still queued are discarded: their bytes are undefined (R370, R371). heal: the parity of the stripes
affected is recomputed (R465). -/
def State.dropPosted (s : State) (heal : Bool) (lost kept : List (Nat × Nat)) : State :=
  lost.foldl (fun (s : State) (e : Nat × Nat) =>
    if heal then s.undefStore e.1 e.2
    else s.undef e.1 e.2) { s with posted := kept }

/-- RESET_MODULE (R370). -/
def State.granResetModule (s : State) : State :=
  let n := fun t => s.journalCount t
  let s := s.dropPosted false s.posted []
  let s := s.resetRegs fun k => 0x200000 ≤ k && k < 0xA00000 && memReg (k % 0x200000)
  let s := s.eachTile fun s t => s.wrf (tileBase t + 0x120100) 0 2 0
  let s := s.wrf kGrnCtrl 0 4 2
  let s := (((s.bump (kGrnCount 0 6) (n 0)).bump (kGrnCount 1 6) (n 1)).bump (kGrnCount 2 6) (n 2)).bump (kGrnCount 3 6) (n 3)
  ({ s with gran := [] }).raise 0x0409 0 0 (n 0 + n 1 + n 2 + n 3)

/-- Counters and sticky registers of a tile that RESET_TILE sets to their reset values (R371). -/
def memTileReg (o : Nat) : Bool :=
  o = 0x120024 || (0x120048 ≤ o && o < 0x1200A8) || (0x120118 ≤ o && o < 0x120130) || (0x120228 ≤ o && o < 0x120248)

/-- The part of a posted write from a up to e. -/
def inRange (a e : Nat) (w : Nat × Nat) : List (Nat × Nat) :=
  let lo := max a w.1
  let hi := min e (w.1 + w.2)
  if lo < hi then [(lo, hi - lo)] else []

/-- The memories whose controllers tile t has: where each begins and ends (R329). -/
def tileMemories (t : Nat) : List (Nat × Nat) :=
  [(studioBase t, studioBase (t + 1)), (hbmBase t, hbmBase (t + 1)), (granBase t, granBase (t + 1))]

/-- RESET_TILE (R371): a posted write that runs into another tile's memory keeps its bytes there. -/
def State.granResetTile (s : State) (t : Nat) : State :=
  let lost := s.posted.flatMap fun w => (tileMemories t).flatMap fun m => inRange m.1 m.2 w
  let kept := (tileMemories t).foldl (fun l m => l.flatMap (cutRange m.1 m.2)) s.posted
  (s.dropPosted true lost kept).resetRegs fun k =>
    tileBase t ≤ k && k < tileBase t + 0x200000 && memTileReg (k - tileBase t)

/-- ABORT_JOB (R372). -/
def State.granAbort (s : State) : State :=
  s.eachTile fun s t => ((s.dropBuilding t).stageEmpty t 0).stageEmpty t 1

end Sys2Proof.Machine
end

