-- ==== Sys2Proof/Machine/Feed.lean ====
section
/-!
DEFINITION. Machine/Feed.lean: the sample feed (R486 to R494) and checkpoint streams (R270, R485, R495).
-/
namespace Sys2Proof.Machine

open Sys2Proof

def kFeed (t o : Nat) : Nat := tileBase t + 0x130400 + o
def kFeedCount (t k : Nat) : Nat := kFeed t (0x28 + 8 * k)

def State.feedT (s : State) (t : Nat) : FeedTile := smGet FeedTile.init s.feed.tiles t
def State.setFeedT (s : State) (t : Nat) (x : FeedTile) : State :=
  { s with feed := { s.feed with tiles := smSet FeedTile.init s.feed.tiles t x } }
def State.slot (s : State) (t k : Nat) : FeedSlot := smGet FeedSlot.init (s.feedT t).slots k
def State.setSlot (s : State) (t k : Nat) (x : FeedSlot) : State :=
  s.setFeedT t { s.feedT t with slots := smSet FeedSlot.init (s.feedT t).slots k x }

def State.feedSlots (s : State) (t : Nat) : Nat := s.rdf (kFeed t 0xC) 0 4
def State.slotBytes (s : State) (t : Nat) : Nat := s.rdf (kFeed t 8) 0 25
/-- Local address of slot k. -/
def State.slotAddr (s : State) (t k : Nat) : Nat := s.rdf (kFeed t 0) 0 44 + k * s.slotBytes t

/-! ## Messages from the device (R486, R487) -/

/-- Send a feed message in the session of the last feed message accepted, to where that came from. -/
def State.feedSend (s : State) (sess eth : Nat) (addr : List Byte) (port typ arg0 arg1 : Nat) (body : List Byte) : State :=
  match s.session? sess with
  | none => s
  | some (n, x) =>
    let q := x.feedOut + 1
    let h := leBytes 1 1 ++ leBytes 1 typ ++ leBytes 2 0 ++ leBytes 4 sess ++ leBytes 8 q ++ leBytes 8 arg0 ++
      leBytes 4 arg1 ++ leBytes 4 body.length
    (s.putSession n { x with feedOut := q }).emit
      (.udp eth addr port 50411 (h ++ gcmSeal (x.key 3) (sessNonce 3 q) h body) 0)

/-- The step that slot k of n serves: the one of the window from SEQ_STEP (R489). -/
def slotStep (step n k : Nat) : Nat := step + (k + n - step % n) % n

/-- The record of a slot in STATUS (R494). -/
def slotRecord (step n k : Nat) (x : FeedSlot) : List Byte :=
  leBytes 8 (slotStep step n k) ++ leBytes 1 x.state ++ leBytes 1 x.code ++ leBytes 2 0 ++
  leBytes 4 (if x.code = 1 then x.detail else x.covered.length)

/-- Send a tile's STATUS message with a body. -/
def State.statusBody (s : State) (t : Nat) (body : List Byte) : State :=
  match s.feed.last with
  | none => s
  | some (sess, eth, addr, port) => s.feedSend sess eth addr port 0x81 s.step t body

def State.sendStatus (s : State) (t : Nat) : State :=
  let n := s.feedSlots t
  s.statusBody t ((List.range n).flatMap fun k => slotRecord s.step n k (s.slot t k))

/-- A feed message to a tile is dropped and counted; STATUS at most once per 100 µs. For a ring of 0 slots it holds one
record with NOT_CONFIGURED (R489, R494; DEDUCED, log 46). -/
def State.feedDrop (s : State) (t x : Nat) : State :=
  let s := s.bump (kFeedCount t 1) 1
  let may : Bool := match (s.feedT t).dropAt with | some d => s.time ≥ d + 100000 | none => true
  if !may then s
  else
    let s := s.setFeedT t { s.feedT t with dropAt := some s.time }
    if s.feedSlots t = 0 then s.statusBody t (leBytes 8 x ++ [0, 6] ++ leBytes 6 0) else s.sendStatus t

/-! ## Accepting a message (R488) -/

/-- Move a session's feed window to a SEQUENCE. -/
def Session.feedTake (x : Session) (q : Nat) : Session :=
  let hi := max x.feedHigh q
  { x with feedHigh := hi, feedSeen := (q :: x.feedSeen).filter fun y => y + 4096 ≥ hi }

/-- The format of R486 and R487 for a TYPE. -/
def feedFormOk (m : List Byte) : Bool :=
  let typ := leAt m 1 1
  let len := leAt m 28 4
  leAt m 0 1 = 1 && leAt m 2 1 < 16 && len ≤ 8192 && m.length = 48 + len &&
  (if typ = 5 then leAt m 3 1 ≤ 1 else leAt m 3 1 = 0) &&
  (if typ ≤ 3 then leAt m 16 8 < 2 ^ 48 else leAt m 2 1 = 0) &&
  (match typ with
   | 1 => len ≥ 64 && len % 64 = 0
   | 2 => leAt m 24 4 = 0 && len = 8
   | 3 => leAt m 24 4 = 0 && len = 16 && zeroAt m 44 4
   | 4 => leAt m 24 4 = 0
   | 5 => len = (if leAt m 3 1 = 1 then 16 else 0)
   | _ => false)

/-- The message that a sealed one holds: its header, its body in clear, and zeros for its tag (R486). -/
def Session.feedOpen (x : Session) (m : List Byte) : Option (List Byte) :=
  (gcmOpen (x.key 2) (sessNonce 2 (leAt m 8 8)) (m.take 32) (m.drop 32)).map fun b => m.take 32 ++ b ++ zeros 16

/-- A message reaches the device on a feed port, or a fragment of a datagram: counted and dropped, or accepted and
deciphered (R467, R468, R488). -/
def State.feedAccept (s : State) (eth : Nat) (addr : List Byte) (port : Nat) (m : List Byte) (frag : Bool) :
    Option (List Byte) × State :=
  let drop := s.feedDrop 0 (leAt m 16 8)
  if eth > 1 || !s.ethUp eth || s.gated 4 then (none, s)
  else if frag || m.length < 48 then (none, drop)
  else match s.session? (leAt m 4 4) with
    | none => (none, drop)
    | some (n, x) =>
      let q := leAt m 8 8
      let fresh : Bool := q > x.feedHigh || (q + 4096 ≥ x.feedHigh && q < x.feedHigh && !x.feedSeen.contains q)
      match x.feedOpen m with
      | none => (none, drop)
      | some d =>
        if !feedFormOk d || !fresh then (none, drop)
        else
          let s := s.putSession n (x.feedTake q)
          (some d, { s with feed := { s.feed with last := some (x.id, eth, addr, port) } })

/-- Run f on a message that is accepted and has the row's TYPE; a message of another listed TYPE is not this row's. -/
def State.feedRow (s : State) (typ eth : Nat) (addr : List Byte) (port : Nat) (m : List Byte) (frag : Bool)
    (f : State → List Byte → State) : State :=
  let ty := leAt m 1 1
  if frag || ty = typ || (typ = 1 && !(1 ≤ ty && ty ≤ 5)) then
    match s.feedAccept eth addr port m frag with
    | (some d, s) => f s d
    | (none, s) => s
  else s

/-- The message for each tile of TILES whose FAB runs, in order. -/
def State.feedTiles (s : State) (m : List Byte) (f : State → Nat → State) : State :=
  (List.range 4).foldl (fun s t => if bit (leAt m 2 1) t && s.fabOn t then f s t else s) s

/-- The slot that a step uses, when the step is in the window (R489). -/
def State.slotFor (s : State) (t x : Nat) : Option Nat :=
  let n := s.feedSlots t
  if n ≠ 0 && s.step ≤ x && x < s.step + n then some (x % n) else none

/-- A message outside the window: CODE OUT_OF_WINDOW on the slot that the step would use (DEDUCED, log 46). -/
def State.outOfWindow (s : State) (t x : Nat) : State :=
  let n := s.feedSlots t
  let s := if n = 0 then s else s.setSlot t (x % n) { s.slot t (x % n) with code := 4 }
  s.feedDrop t x

/-! ## SAMPLE and the ENDs (R490) -/

def coverUnits (m : SMap Bool) (u : Nat) : Nat → SMap Bool
  | 0 => m
  | n + 1 => coverUnits (smSet false m u true) (u + 1) n

/-- A SAMPLE for a tile. -/
def State.sampleTile (s : State) (t x off : Nat) (b : List Byte) : State :=
  match s.slotFor t x with
  | none => s.outOfWindow t x
  | some k =>
    let y := s.slot t k
    if y.state = 3 || (y.state = 2 && off < y.indexBytes) then s.feedDrop t x
    else if off % 64 ≠ 0 || off + b.length > s.slotBytes t then
      (s.setSlot t k { y with code := 5 }).feedDrop t x
    else match s.memWrite false (s.slotAddr t k + off) b with
      | (.ok, s) =>
        let s := s.bump (kFeedCount t 0) b.length
        let z := { y with covered := coverUnits y.covered (off / 64) (b.length / 64), state := max 1 y.state }
        let s := s.setSlot t k z
        if y.state = 0 then s.sendStatus t else s
      | (_, s) => s.feedDrop t x

/-- The first unit below the end that is not covered. -/
def firstGap (m : SMap Bool) (u : Nat) : Nat → Option Nat
  | 0 => none
  | n + 1 => if smGet false m u then firstGap m (u + 1) n else some u

/-- An END that fails. -/
def State.endFails (s : State) (t k : Nat) (x : FeedSlot) : State := (s.setSlot t k x).sendStatus t

/-- INDEX_END or BATCH_END for a tile: n bytes, their CRC, and MAX_SEQ for a batch. -/
def State.endTile (s : State) (t x n crc : Nat) (batch : Option Nat) : State :=
  match s.slotFor t x with
  | none => s.outOfWindow t x
  | some k =>
    let y := s.slot t k
    let order : Bool := if batch.isSome then y.state ≠ 2 else y.state ≥ 2
    let size : Bool := n % 64 ≠ 0 ||
      (if batch.isSome then n < y.indexBytes || n > s.slotBytes t else n > s.rdf (kFeed t 0x20) 0 25)
    if order then s.endFails t k { y with code := 7 }
    else if size then s.endFails t k { y with code := 5 }
    else match firstGap y.covered 0 (n / 64) with
      | some u => s.endFails t k { y with code := 1, detail := u }
      | none =>
        let (c, b, s) := s.memRead (s.slotAddr t k) n
        if c ≠ .ok || crc32 b ≠ crc then s.endFails t k { FeedSlot.init with code := 2 }
        else match batch with
          | none => (s.setSlot t k { y with state := 2, indexBytes := n, code := 0 }).sendStatus t
          | some mx =>
            if mx > s.rdf (wideKey 0x13020C) 0 22 then
              ((s.bump (kFeedCount t 2) 1).raise 0x0904 1 t x).endFails t k { FeedSlot.init with code := 3 }
            else (s.setSlot t k { y with state := 3, bytes := n, code := 0 }).sendStatus t

/-- The body of a feed message. -/
def feedBody (m : List Byte) : List Byte := slice m 32 (leAt m 28 4)

/-- SAMPLE; a message of an unlisted TYPE also comes here, and is dropped. -/
def execFeedSample (eth : EthId) (addr : List Byte) (port : Nat) (m : List Byte) (frag : Bool) (s : State) :
    Host.Outcome State Fault Refusal :=
  .next <| s.feedRow 1 eth addr port m frag fun s m =>
    s.feedTiles m fun s t => s.sampleTile t (leAt m 16 6) (leAt m 24 4) (feedBody m)

/-- INDEX_END. -/
def execIndexEnd (eth : EthId) (addr : List Byte) (port : Nat) (m : List Byte) (frag : Bool) (s : State) :
    Host.Outcome State Fault Refusal :=
  .next <| s.feedRow 2 eth addr port m frag fun s m =>
    s.feedTiles m fun s t => s.endTile t (leAt m 16 6) (leAt m 32 4) (leAt m 36 4) none

/-- BATCH_END. -/
def execBatchEnd (eth : EthId) (addr : List Byte) (port : Nat) (m : List Byte) (frag : Bool) (s : State) :
    Host.Outcome State Fault Refusal :=
  .next <| s.feedRow 3 eth addr port m frag fun s m =>
    s.feedTiles m fun s t => s.endTile t (leAt m 16 6) (leAt m 32 4) (leAt m 36 4) (some (leAt m 40 4))

/-- STATE_IN: a write that does not complete with OK is dropped and counted (R488). -/
def execStateIn (eth : EthId) (addr : List Byte) (port : Nat) (m : List Byte) (frag : Bool) (s : State) :
    Host.Outcome State Fault Refusal :=
  .next <| s.feedRow 4 eth addr port m frag fun s m =>
    let a := leAt m 16 8
    let here : Bool := match regionOf a with | .hbm | .studio | .granary => true | _ => false
    if !here then s.feedDrop 0 s.step
    else match s.memWrite false a (feedBody m) with
      | (.ok, s) => s
      | (_, s) => s.feedDrop 0 s.step

/-- FEED_STATUS_TIMER (R494). -/
def execFeedStatusTimer (t : TileId) (s : State) : Host.Outcome State Fault Refusal :=
  .next <|
    if s.fabOn t && s.hubOn && (List.range (s.feedSlots t)).any (fun k => (s.slot t k).state ≠ 3) then s.sendStatus t else s

/-! ## Registers (R497) -/

/-- Write a feed base or size register of a tile: false when the value is one that WRITE_CSR refuses. -/
def State.feedRegWrite (s : State) (t o v mask : Nat) : Bool × State :=
  let v := Nat.land v mask
  if o = 0x13040C && (v = 1 || v ≥ 9) then (false, s)
  else if !s.isIdle then (true, s)
  else
    let s := s.wr (tileBase t + o) v
    (true, (s.setFeedT t { s.feedT t with slots := [] }).sendStatus t)

/-- The feed base and size registers. -/
def isFeedReg (o : Nat) : Bool := [0x130400, 0x130408, 0x13040C, 0x130410, 0x130418, 0x130420].contains o

/-- FEED_REGISTER_WRITE: r-th register of those. -/
def execFeedRegisterWrite (t : TileId) (r : Fin 6) (val : W64) (s : State) : Host.Outcome State Fault Refusal :=
  .next <|
    let o := [0x130400, 0x130408, 0x13040C, 0x130410, 0x130418, 0x130420].getD r 0
    match findRow tileRows o with
    | some row => if s.fabOn t then (s.feedRegWrite t o val.toNat row.rw).2 else s
    | none => s

/-! ## The step's side (R491 to R493) -/

/-- The feed holds the batch of the step and the indices of the next, on a tile (R491). -/
def State.feedReady (s : State) (t : Nat) : Bool :=
  let n := s.feedSlots t
  n ≠ 0 && (s.slot t (s.step % n)).state = 3 && (s.slot t ((s.step + 1) % n)).state ≥ 2

/-- Copy bytes within the module; a read that fails copies what it returned, nothing (log 46). -/
def State.feedMove (s : State) (src dst n : Nat) : State :=
  if n = 0 then s
  else
    let (_, b, s) := s.memRead src n
    (s.memWrite false dst b).2

/-- The copies into the CUR and NEXT windows (R492); their time in whole ns at 512 bytes per FAB clock. -/
def State.feedCopy (s : State) (t : Nat) : State :=
  let n := s.feedSlots t
  let k := s.step % n
  let j := (s.step + 1) % n
  let b := (s.slot t k).bytes
  let i := (s.slot t j).indexBytes
  let s := (s.feedMove (s.slotAddr t k) (s.rdf (kFeed t 0x10) 0 44) b).feedMove (s.slotAddr t j) (s.rdf (kFeed t 0x18) 0 44) i
  s.bump (kFeedCount t 3) (((b + i + 511) / 512) * 10 / 14)

/-- The slot of the step just committed becomes EMPTY (R493). -/
def State.feedRelease (s : State) (t step : Nat) : State :=
  let n := s.feedSlots t
  if n = 0 then s else (s.setSlot t (step % n) FeedSlot.init).sendStatus t

/-- Every slot of every ring becomes EMPTY. -/
def State.feedClear (s : State) : State := { s with feed := FeedState.init }

/-! ## Checkpoint streams (R270, R485, R495) -/

/-- The unit size, RECIPE byte and addresses of the units of an EXPORT_STATE block; none: refused with BAD_PARAM. -/
def State.exportUnits (s : State) (b : List Byte) : Option (Nat × Nat × List Nat) :=
  let count := leAt b 8 4
  let first := leAt b 16 8
  if leAt b 0 1 = 0 then
    let r := leAt b 1 1
    let n := s.recBytes r
    if r ≥ 32 || n = 0 || regionOf first ≠ .hbm || (count ≠ 0 && regionOf (first + count * n - 1) ≠ .hbm) then none
    else some (n, r, (List.range count).map fun k => first + k * n)
  else
    let tb := leAt b 4 2
    let d := s.table tb
    let slots := (tbRows d + s.modules - 1) / s.modules
    if !s.tableOk tb || first + count > slots then none
    else some (tbRowBytes d, tbRecipe d, (List.range count).map fun k => tbBase d + (first + k) * tbRowBytes d)

/-- Read the units one after another. -/
def State.readUnits (s : State) (n : Nat) : List Nat → List Byte → Code × List Byte × State
  | [], acc => (.ok, acc, s)
  | a :: as, acc =>
    match s.memRead a n with
    | (.ok, b, s) => s.readUnits n as (acc ++ b)
    | (c, _, s) => (c, acc, s)

/-- The stream: header and units (R270). -/
def State.exportStream (s : State) (b : List Byte) : Code × List Byte × State :=
  match s.exportUnits b with
  | none => (.unmapped, [], s)
  | some (n, r, as) =>
    match s.readUnits n as [] with
    | (.ok, u, s) =>
      (.ok, leBytes 4 0x53544558 ++ leBytes 2 1 ++ leBytes 1 (leAt b 0 1) ++ leBytes 1 r ++ leBytes 4 as.length ++
        leBytes 4 n ++ leBytes 8 s.step ++ leBytes 4 (crc32 u) ++ leBytes 2 (if leAt b 0 1 = 1 then leAt b 4 2 else 0) ++
        zeros 34 ++ u, s)
    | (c, _, s) => (c, [], s)

/-- Torn records among the units of an export. -/
def State.tornAmong (s : State) (b : List Byte) : Nat :=
  if leAt b 0 1 = 1 then 0
  else match s.exportUnits b with
    | none => 0
    | some (_, _, as) => (as.filter fun a => 2 ≤ fld (leNat (s.bytes a 8)) 16 2 ||
        (List.range 4).any fun t => (s.upt t).slots.any fun e => e.2.phase = .torn && e.2.record = a).length

def State.mapExport (s : State) (tag : Nat) (f : Export → Export) : State :=
  { s with feed := { s.feed with exports := s.feed.exports.map fun e => if e.entry.tag = tag then f e else e } }

/-- Where a stream's messages go: where its command came from, on the feed's UDP port of the sender. -/
def State.sendOut (s : State) (e : HcpEntry) (off : Nat) (b : List Byte) : State :=
  match e.via with
  | .udp eth addr port => s.feedSend e.session eth addr port 0x82 off e.tag b
  | .torus _ _ => match s.feed.last with
    | some (sess, eth, addr, port) => if sess = e.session then s.feedSend sess eth addr port 0x82 off e.tag b else s
    | none => s

/-- Send bytes [off, off + n) of a stream as STATE_OUT messages of up to 8,192 bytes. -/
def State.sendRange (s : State) (e : HcpEntry) (stream : List Byte) : Nat → Nat → Nat → State
  | 0, _, _ => s
  | fuel + 1, off, n =>
    let k := min n 8192
    if k = 0 then s else (s.sendOut e off (slice stream off k)).sendRange e stream fuel (off + k) (n - k)

/-- Send what a grant allows; the final reply follows the last message (R495). -/
def State.exportPump (s : State) (x : Export) : State :=
  let (c, st, s) := s.exportStream x.entry.block
  if c ≠ .ok then
    let s := { s with feed := { s.feed with exports := s.feed.exports.filter fun e => e.entry.tag ≠ x.entry.tag } }
    s.pendingEnds c.status []
  else
    let upTo := min x.granted st.length
    let n := upTo - x.sent
    let s := s.sendRange x.entry st (n / 8192 + 1) x.sent n
    let done : Bool := upTo ≥ st.length && x.ended.isNone
    let s := s.mapExport x.entry.tag fun e => { e with sent := max e.sent upTo, ended := if done then some s.time else e.ended }
    if done then s.pendingEnds stOk (leBytes 4 (leAt x.entry.block 8 4) ++ leBytes 4 (s.tornAmong x.entry.block)) else s

/-- STATE_CREDIT: a grant, or a request to send a range again, until 10 s after the final reply. -/
def execStateCredit (eth : EthId) (addr : List Byte) (port : Nat) (m : List Byte) (frag : Bool) (s : State) :
    Host.Outcome State Fault Refusal :=
  .next <| s.feedRow 5 eth addr port m frag fun s m =>
    match s.feed.exports.find? (fun e => e.entry.tag = leAt m 24 4 && e.entry.session = leAt m 4 4) with
    | none => s
    | some x =>
      let live : Bool := match x.ended with | some t => s.time ≤ t + 10000000000 | none => true
      let x := { x with granted := leAt m 16 8 }
      let s := s.mapExport x.entry.tag fun _ => x
      if bit (leAt m 3 1) 0 then
        if live then
          let (c, st, s) := s.exportStream x.entry.block
          let off := leAt m 32 8
          let n := min (leAt m 40 8) (min x.granted st.length - off)
          if c = .ok then s.sendRange x.entry st (n / 8192 + 1) off n else s
        else s
      else if x.ended.isNone then s.exportPump x
      else s

/-- EXPORT_CREDIT_TIMEOUT. -/
def execExportCreditTimeout (tag : W32) (s : State) : Host.Outcome State Fault Refusal :=
  .next <|
    if s.feed.exports.any (fun e => e.entry.tag = tag.toNat && e.ended.isNone) then
      let s := { s with feed := { s.feed with exports := s.feed.exports.filter fun e => e.entry.tag ≠ tag.toNat } }
      s.pendingEnds stNotReady []
    else s

end Sys2Proof.Machine
end

