-- ==== Sys2Proof/Machine/Startup.lean ====
section
/-!
DEFINITION. Machine/Startup.lean: the boot chain and measurement (R505 to R512), the pod secret (R521), power-up from T0
(R576 to R579), and the repair of cores (R78 to R82, R111).
-/
namespace Sys2Proof.Machine

open Sys2Proof

/-! ## Measurement registers (R509, R510) -/

def kMreg (i j : Nat) : Nat := 0xC100 + 64 * i + 8 * j
def State.mreg (s : State) (i : Nat) : List Byte := (List.range 8).flatMap fun j => leBytes 8 (s.rd (kMreg i j))
def State.setMreg (s : State) (i : Nat) (b : List Byte) : State :=
  (List.range 8).foldl (fun s j => s.wr (kMreg i j) (leAt b (8 * j) 8)) s

/-- Extend a measurement register with a digest. -/
def State.extend (s : State) (i : Nat) (d : List Byte) : State := s.setMreg i (Config.shake256 64 (s.mreg i ++ d))

/-- SEC_EXTEND_CTRL.GO: MREG7 takes the digest in SEC_EXTEND0 to SEC_EXTEND7. -/
def State.go (s : State) : State := s.extend 7 ((List.range 8).flatMap fun j => leBytes 8 (s.rd (0xC080 + 8 * j)))

/-- GO. -/
def execExtendGo (s : State) : Host.Outcome State Fault Refusal := .next <| if s.hubOn then s.go else s

/-! ## Pod secret (R521) -/

/-- CLEAR: no secret, and POD_SECRET_VALID and SEC_POD_KEY_ID 0. -/
def State.podForget (s : State) : State :=
  ({ s with boot := { s.boot with podSecret := none } }.wrf 0xC000 1 1 0).wr kPodKeyId 0

/-- INSTALL: the secret in SEC_POD_SECRET0 to SEC_POD_SECRET3; an all-zero one acts as CLEAR. -/
def State.podTake (s : State) : State :=
  let b := (List.range 4).flatMap fun j => leBytes 8 (s.rd (0xC010 + 8 * j))
  if b.all (· == 0) then s.podForget
  else
    ({ s with boot := { s.boot with podSecret := some b } }.wrf 0xC000 1 1 1).wr kPodKeyId
      (leAt (Config.shake256 8 (asciiPad "ZLD-PODID" 9 ++ b)) 0 8)

/-- INSTALL and CLEAR. -/
def execPodInstall (s : State) : Host.Outcome State Fault Refusal := .next <| if s.hubOn then s.podTake else s
def execPodClear (s : State) : Host.Outcome State Fault Refusal := .next <| if s.hubOn then s.podForget else s

/-! ## The boot chain (R505 to R512) -/

/-- The flash copy of an image: copy B when b. -/
def State.image (s : State) (kind : Nat) (b : Bool) : List Byte := smGet [] s.flash.images (2 * kind + b2n b)
def imgVersion (i : List Byte) : Nat := leAt i 8 4
def imgDigest (i : List Byte) : List Byte := slice i 16 64

def State.setVersion (s : State) (kind v : Nat) : State :=
  { s with boot := { s.boot with versions := smSet 0 s.boot.versions kind v } }

/-- The alias certificate (R512). -/
def State.makeAliasCert (s : State) (key identity : List Byte) : List Byte :=
  let b := leBytes 4 0x5341494C ++ leBytes 4 (smGet 0 s.boot.versions 1) ++ slice (Config.edPublic key) 0 57 ++ zeros 7 ++
    s.mreg 0 ++ slice s.flash.serial 0 12 ++ zeros 4
  b ++ slice (Config.edSign identity (asciiPad "ZLD-ALIAS" 9) b) 0 114 ++ zeros 6

/-- BOOT_ROM_DONE: orders 1 to 6 of R508 end. identityOk: the seed is reconstructed, the birth record verifies and the
identity key agrees; stage1: the copy of stage one that verified, true for B. ROM halts otherwise. -/
def execBootRomDone (identityOk : Bool) (stage1 : Option Bool) (s : State) : Host.Outcome State Fault Refusal :=
  .next <|
    if !s.powered || s.boot.rom ≠ .running then s
    else
      let halt := fun (s : State) => ({ s with boot := { s.boot with rom := .halted } } : State)
      if !identityOk then halt s
      else
        let s := (s.extend 1 s.flash.birthDigest).extend 1 (Config.shake256 64 (Config.overlayBytes s.repair.overlay))
        match stage1 with
        | none => halt s
        | some b =>
          let i := s.image 1 b
          let s := (s.extend 0 (imgDigest i)).setVersion 1 (imgVersion i)
          let s := if b then s.wrf 0xC000 2 1 1 else s
          let aliasPriv := Config.shake256 57 (asciiPad "ZLD-ALIAS" 9 ++ Config.pufSeed ++ s.mreg 0)
          let identity := Config.shake256 57 (asciiPad "ZLD-ID" 6 ++ Config.pufSeed)
          { s with boot := { s.boot with rom := .done, aliasKey := aliasPriv, aliasCert := s.makeAliasCert aliasPriv identity } }

/-- The register that an image of a kind extends (R509). -/
def mregOf (kind : Nat) : Nat := if kind = 5 then 6 else kind

/-- Load an image of kinds 2 to 5 from the copy that verified, or none (R508). -/
def State.loadImage (s : State) (kind : Nat) (copy : Option Bool) : State :=
  match copy with
  | none => s.wrf 0xC000 3 1 1
  | some b =>
    let i := s.image kind b
    let s := (s.extend (mregOf kind) (imgDigest i)).setVersion kind (imgVersion i)
    if b then s.wrf 0xC000 2 1 1 else s

/-- Orders 7 and 8 of R508. -/
def State.stageOne (s : State) (images : List (Option Bool)) : State :=
  let s := (List.range 4).foldl (fun s i => s.loadImage (i + 2) (images.getD i none)) s
  s.extend 5 (match s.flash.owner with
    | some (k, g) => Config.shake256 64 (Config.ownerBytes k g)
    | none => zeros 64)

/-- Ethernet ports come up: a feed port whose optic is accepted, while ROOT is READY; a refused one is held (R25, R26,
R536). -/
def State.openEth (s : State) (optics : List (Option Bool)) (mgmtOk : Bool) : State :=
  let feed := fun i => match optics.getD i none with
    | some true => if s.srcReady 3 && !s.gated 4 then 1 else 0
    | some false => 2
    | none => 0
  { s with boot := { s.boot with
      eth := smSet 0 (smSet 0 (smSet 0 s.boot.eth 0 (feed 0)) 1 (feed 1)) 2 (b2n mgmtOk) } }

/-- SEC_START_STATUS bit i. -/
def State.started (s : State) (i : Nat) : Bool := bit (s.rd kStartStatus) i
def State.setStarted (s : State) (i : Nat) : State := s.wrf kStartStatus i 1 1
/-- The last reset was RESET_MODULE. -/
def State.wasReset (s : State) : Bool := s.rdf kStartStatus 8 2 = 1

/-- REEVE_START (R508, R576, R582). images: the copy of kinds 2 to 5 that verified; optics: of feed 0 and feed 1, present
and accepted or not; mgmtOk: the management port's partner runs 1000BASE-T. After a RESET_MODULE the Reeve restarts from
the images already loaded. -/
def execReeveStart (images : List (Option Bool)) (optics : List (Option Bool)) (mgmtOk : Bool) (s : State) :
    Host.Outcome State Fault Refusal :=
  .next <|
    if !s.hubOn || s.boot.rom ≠ .done || s.pwr.bscan || s.boot.reeve then s
    else
      let s := if s.wasReset then s else s.stageOne images
      ({ s with boot := { s.boot with reeve := true } } : State).openEth optics mgmtOk

/-! ## Cores (R78 to R82, R111, R112) -/

def State.setMask (s : State) (g m : Nat) : State := s.wrf (0x6000 + 8 * (g / 4)) (16 * (g % 4)) 16 m
def State.setAbsent (s : State) (g m : Nat) : State := s.wrf (0x6100 + 8 * (g / 4)) (16 * (g % 4)) 16 m

/-- The disabled slot of a cluster. -/
def State.spareSlot (s : State) (g : Nat) : Nat := ((List.range 16).find? fun i => !bit (s.clusterMask g) i).getD 0
/-- A physical index names an enabled core. -/
def State.enabledPhys (s : State) (p : Nat) : Bool := p < 1280 && bit (s.clusterMask (p / 16)) (p % 16)
/-- Logical number of an enabled slot (R78). -/
def State.logicalOf (s : State) (g sl : Nat) : Nat := g * 15 + (List.range sl).countP (bit (s.clusterMask g))

/-- Slots of a cluster are absent, each with its event (R81). -/
def State.markAbsent (s : State) (g : Nat) (l : List Nat) : State :=
  l.foldl (fun s i => s.raise 0x0502 1 (g / 20) (s.logicalOf g i)) (s.setAbsent g (l.foldl (fun m i => m + 2 ^ i) 0))

/-- The field repair overlay disables slot i of cluster g, and the spare takes its place (R80). -/
def State.overlaySlot (s : State) (g i : Nat) : State :=
  { s with repair := { s.repair with
      overlay := smPut s.repair.overlay g (some i)
      spared := s.repair.spared ++ [16 * g + s.spareSlot g] } }

/-- The self-test results of one cluster take effect: the spare replaces the failed core of lowest slot, and any other
failed core is absent. -/
def State.repairCluster (s : State) (failed : List Nat) (g : Nat) : State :=
  let bad := (List.range 16).filter fun i => bit (s.clusterMask g) i && failed.contains (16 * g + i)
  let spOk : Bool := !failed.contains (16 * g + s.spareSlot g)
  match bad with
  | [] => s.setAbsent g 0
  | i :: is =>
    if spOk then
      (((s.overlaySlot g i).setMask g (0xFFFF - 2 ^ i)).raise 0x0501 1 (g / 20) (16 * g + i)).markAbsent g is
    else s.markAbsent g bad

/-- CORE_SELFTEST_END. failed: physical indices of the cores, spares among them, that failed; a core to be retired counts
as failed (R82). -/
def execCoreSelftestEnd (failed : List Nat) (s : State) : Host.Outcome State Fault Refusal :=
  .next <|
    if !s.powered || !s.started 0 || s.started 1 then s
    else
      let all := failed ++ s.repair.retired
      let spares := (List.range 80).filterMap fun g =>
        let p := 16 * g + s.spareSlot g
        if failed.contains p then some p else none
      let s := (List.range 80).foldl (fun s g => s.repairCluster all g) s
      let s := { s with repair := { s.repair with retired := [], badSpares := spares } }
      (s.zero 0 0x4B000000).setStarted 1

/-- SEC_SPARE_SELECT takes a PHYS. -/
def State.spareSelect (s : State) (p : Nat) : State := s.wrf 0x6200 0 11 p

/-- VALID: PHYS names a disabled spare (R111). -/
def State.spareValid (s : State) : Bool :=
  let p := s.rdf 0x6200 0 11
  p < 1280 && !s.enabledPhys p

/-- START. -/
def State.spareStart (s : State) : State :=
  if s.isIdle && s.spareValid then
    { s.wrf 0x6200 17 1 1 with repair := { s.repair with testing := some (s.rdf 0x6200 0 11) } }
  else s

/-- SPARE_SELFTEST_START: a write of SEC_SPARE_SELECT with START 1. -/
def execSpareSelftestStart (phys : BitVec 11) (s : State) : Host.Outcome State Fault Refusal :=
  .next <| if s.hubOn then (s.spareSelect phys.toNat).spareStart else s

/-- SPARE_SELFTEST_END. -/
def execSpareSelftestEnd (pass : Bool) (s : State) : Host.Outcome State Fault Refusal :=
  .next <|
    match s.repair.testing with
    | none => s
    | some p =>
      if !s.hubOn then s
      else
        let rest := s.repair.badSpares.filter (· ≠ p)
        { (s.wrf 0x6200 17 1 0).wrf 0x6200 18 1 (b2n pass) with
          repair := { s.repair with testing := none, badSpares := if pass then rest else rest ++ [p] } }

/-- COMMIT of SEC_REPAIR_REQUEST (R82, R111): the result, IDLE being judged first, then the core, then its spare. -/
def State.repairRequest (s : State) (p : Nat) : State :=
  let g := p / 16
  let r := if !s.isIdle then 3 else if !s.enabledPhys p then 4
    else if (smGet none s.repair.overlay g).isSome || s.repair.badSpares.contains (16 * g + s.spareSlot g) then 2 else 1
  let s := s.wrf 0x6208 16 8 r
  if r = 1 then { s with repair := { s.repair with retired := s.repair.retired ++ [p] } } else s

/-- REPAIR_REQUEST_COMMIT. -/
def execRepairRequestCommit (phys : BitVec 11) (s : State) : Host.Outcome State Fault Refusal :=
  .next <| if s.hubOn then s.repairRequest phys.toNat else s

/-! ## Power-up (R576 to R579) -/

/-- Begin the authentication of every seated lamp that has not been authenticated (R414, R582). -/
def State.challengeLamps (s : State) : State :=
  (List.range 8).foldl (fun s k => if (s.lamp k).seated && s.lampSt k = 0 then s.challengeLamp k else s) s

/-- DOMAINS_UNGATED: step 6. After a ROOT that was late it takes a RESET_MODULE (R578). -/
def execDomainsUngated (s : State) : Host.Outcome State Fault Refusal :=
  .next <|
    if !s.powered || s.boot.rom ≠ .done || s.pwr.bscan || s.started 0 || !s.srcReady 3 || s.clk.rootLate then s
    else ((s.wr kClkDomains 0).setStarted 0).challengeLamps

/-- One HBM stack's training (R335): all its fields are derived afresh (R370). -/
def State.trainStack (s : State) (k : Nat) (r : StackTrain) : State :=
  let b := tileBase (k / 2)
  let i := k % 2
  let spare := if r.trained then r.spared.map (·.val) else none
  let s := (s.wrf (b + 0x120100) i 1 (b2n r.trained)).wrf (b + 0x120100) (2 + i) 1 (b2n spare.isSome)
  let s := (s.wrf (b + 0x120100) (4 + 6 * i) 6 (spare.getD 0)).wr (b + 0x120108 + 8 * i)
    (if r.trained then r.failed.foldl (fun m x => Nat.lor m (2 ^ x.val)) 0 else all64)
  match spare with
  | none => s
  | some pc => s.raise 0x0403 6 k (k + pc * 256)

/-- HBM_TRAINED: step 8; HBM is zeroed at power-on, and kept by RESET_MODULE. hbm: results of hbm 0 to 7. -/
def execHbmTrained (hbm : List StackTrain) (s : State) : Host.Outcome State Fault Refusal :=
  .next <|
    if !s.powered || !s.started 0 || s.started 2 then s
    else
      let s := (List.range 8).foldl (fun s k => s.trainStack k (hbm.getD k ⟨true, none, []⟩)) s
      let s := if s.wasReset then s else s.zero 0x1000000000 0x8000000000
      s.setStarted 2

/-- A DIMM that R19 accepts. -/
def spdAccepted (d : SpdInfo) : Bool := (d.kind = 1 || d.kind = 2) && d.gib = 256 && d.by4 && d.mts ≥ 8400 && d.volt11

/-- A socket's record in GET_INFO section 1 (R483). -/
def dimmRecord : Option SpdInfo → List Byte
  | none => zeros 32
  | some d =>
    leBytes 1 (if spdAccepted d then 2 else 1) ++ leBytes 1 d.kind ++ leBytes 2 0 ++ leBytes 4 d.gib ++ leBytes 2 d.maker.toNat ++
    leBytes 4 d.serial.toNat ++ slice d.part 0 18

/-- All sixteen sockets hold accepted DIMMs of one kind (R20). -/
def State.dimmsOk (s : State) : Bool :=
  (List.range 16).all fun i =>
    let r := smGet (zeros 32) s.boot.dimms i
    leAt r 0 1 = 2 && leAt r 1 1 = leAt (smGet (zeros 32) s.boot.dimms 0) 1 1

/-- DIMMS_TRAINED: step 9. dimms: the SPD report of each socket. The Granary key is made once at each power-on,
and not while the random generator fails (R339, R370, R504). -/
def execDimmsTrained (dimms : List (Option SpdInfo)) (s : State) : Host.Outcome State Fault Refusal :=
  .next <|
    if !s.powered || !s.started 0 || s.started 3 then s
    else
      let recs := (List.range 16).foldl (fun (m : SMap (List Byte)) i => smSet (zeros 32) m i (dimmRecord (dimms.getD i none))) []
      let (key, s) := if s.boot.granKey ≠ [] then (s.boot.granKey, s) else if s.rngOk then s.random 64 else ([], s)
      ({ s with boot := { s.boot with dimms := recs, granKey := key } } : State).setStarted 3

/-- What the DIMMs hold of the 64-byte burst at a Granary address: its ciphertext, with the local address divided by 64
as tweak (R339). Nothing the device does shows it. -/
def State.granCipher (s : State) (a : Nat) : List Byte :=
  Config.aesXts s.boot.granKey (a / 64) (s.bytes (a / 64 * 64) 64)

/-- GRANARY_ZEROED: step 13 (R20, R369). -/
def execGranaryZeroed (s : State) : Host.Outcome State Fault Refusal :=
  .next <|
    if !s.powered || !s.started 3 || !s.dimmsOk || s.boot.granKey = [] || bit (s.rd kGrnCtrl) 4 then s
    else ((s.zero 0x40000000000 0x40000000000).wrf kGrnCtrl 4 1 1).setStarted 6

/-- LAMPS_LIT: authentication at power-on has ended, and pairs are lit (R577). -/
def execLampsLit (s : State) : Host.Outcome State Fault Refusal :=
  .next <|
    if !s.powered || !s.started 0 || s.started 5 || (List.range 8).any fun k => s.lampSt k = 1 then s
    else
      let s := if bit (s.rd 0x8800) 0 then s.lightPairs else s
      ({ s with pwr := { s.pwr with lampsDone := true } } : State).setStarted 5

/-- RAMP_END. -/
def execRampEnd (pair : Fin 4) (s : State) : Host.Outcome State Fault Refusal :=
  .next <| if s.lampOn (2 * pair) then s.endRamps pair else s

end Sys2Proof.Machine
end

