-- ==== Sys2Proof/Machine/CsrRead.lean ====
section
/-!
DEFINITION. Machine/CsrRead.lean: what a read of CSR space returns (R6, R10, R11, R593), and the registers that show an
engine's state, which are computed from it.
-/
namespace Sys2Proof.Machine

open Sys2Proof

def SeqMode.num : SeqMode → Nat
  | .idle => 0 | .waitFeed => 1 | .running => 2 | .fence => 3 | .faulted => 4 | .starting => 5

/-- FLAG_REDUCE has issued and its result has not come (R443). -/
def State.flagOpen (s : State) : Bool := s.seq.reduceIssued && s.seq.decision.isNone

/-- The collectives of a tile. -/
def State.cols (s : State) (t : Nat) : List ColJob := smGet [] s.col t
def State.setCols (s : State) (t : Nat) (l : List ColJob) : State := { s with col := smSet [] s.col t l }

/-- A reduction: REDUCE_SCATTER or ALL_REDUCE. -/
def ColJob.reduces (j : ColJob) : Bool := j.op = 1 || j.op = 2

/-- A message among those numbered from lo up to hi is not accepted: a port holds it, or its link lost it (R443; what
becomes of it beyond the first link does not show here, log 84). -/
def State.unaccepted (s : State) (lo hi : Nat) : Bool :=
  s.net.lost.any (fun m => lo ≤ m && m < hi) ||
  s.net.ports.any fun p =>
    p.2.queue.any (fun q => lo ≤ q.2.1 && q.2.1 < hi) || p.2.retry.any fun b => lo ≤ b.msg && b.msg < hi

/-- An open reduction: its result, or an acceptance of what it sent, is outstanding. -/
def State.redOpen (s : State) (o : OpenRed) : Bool := o.awaits || s.unaccepted o.lo o.hi

/-- A reduction stays open behind its engine for as long as that holds. -/
def State.keepOpen (s : State) (o : OpenRed) : State :=
  { s with seq := { s.seq with opens := (s.seq.opens ++ [o]).filter s.redOpen } }

/-- Open reductions of the module (R443). -/
def State.openCount (s : State) : Nat :=
  (List.range 4).foldl (fun n t => n + (s.cols t).countP (·.reduces)) (b2n s.flagOpen) + s.seq.opens.countP s.redOpen

/-- SEQ_STATUS through tile t's block (R71). -/
def State.seqStatus (s : State) (t : Nat) : Nat :=
  let x := s.tile t
  s.seq.mode.num + x.phase * 2 ^ 3 + b2n s.seq.active * 2 ^ 6 + b2n s.seq.mixed * 2 ^ 7 + b2n x.slot0.isSome * 2 ^ 8 +
  b2n x.slot1.isSome * 2 ^ 9 + b2n s.seq.haltPending * 2 ^ 10 + b2n s.seq.lastSkipped * 2 ^ 11

/-- ME_CORE_ID (R107). -/
def State.coreId (s : State) (c : Nat) : Nat :=
  c + s.physOf c * 2 ^ 16 + b2n (s.repair.spared.contains (s.physOf c)) * 2 ^ 27

/-- Queue entries that are not FREE. -/
def MeState.used (m : MeState) : Nat := (List.range 8).countP fun i => (m.entry i).state ≠ 0

/-- What a VE waits for now: a wait is over once its condition holds (R103, R193, R195). -/
def State.veWait (s : State) (c : Nat) : VeWait :=
  let v := s.ve c
  match v.wait with
  | .popt => if ((s.me c).entry (s.me c).head).state = 3 then .none else .popt
  | .dmaFull => if v.dma.length < 16 then .none else .dmaFull
  | .dmaWait => if v.dma.length > fld (v.insns.getD v.pc 0).toNat 0 5 then .dmaWait else .none
  | w => w

/-- ME_CORE_STATUS (R108). -/
def State.coreStatus (s : State) (c : Nat) : Nat :=
  let m := s.me c
  let v := s.ve c
  b2n m.run.isSome + b2n m.pend.isSome * 2 + b2n v.run.isSome * 4 + b2n v.pend.isSome * 8 + b2n (v.dma ≠ []) * 16 +
  m.used * 2 ^ 5 + m.head * 2 ^ 9 + b2n (m.wait = .full && (m.entry m.tail).state ≠ 0) * 2 ^ 12 +
  b2n (s.veWait c = .popt) * 2 ^ 13

def VeWait.num : VeWait → Nat
  | .none => 0 | .operand => 1 | .popt => 2 | .dmaFull => 3 | .dmaWait => 4

/-- VE_STATUS (R207). PC stays where the last share left it (R209, log 33). -/
def State.veStatus (s : State) (c : Nat) : Nat :=
  let v := s.ve c
  let on : Bool := v.run.isSome && v.started && !v.ended
  v.pc % 2 ^ 11 + b2n on * 2 ^ 11 + (s.veWait c).num * 2 ^ 12 + v.dma.length * 2 ^ 15

/-- A descriptor of one of some kinds is in flight on a tile. -/
def State.flying (s : State) (t : Nat) (kinds : List Nat) : Bool := (s.tile t).inflight.any fun i => kinds.contains i.kind

/-- EMB_STATUS (R325). -/
def State.embStatus (s : State) (t : Nat) : Nat :=
  (s.embt t).coal.countP (fun e => !e.spill) + (s.poisonList t).length * 2 ^ 15 + b2n (s.flying t [3, 4, 5, 6]) * 2 ^ 26

/-- UE_STATUS (R278). -/
def State.ueStatus (s : State) (t : Nat) : Nat :=
  let u := s.upt t
  b2n (u.jobs ≠ [] || s.flying t [5, 11]) + u.slots.length * 2 + u.slots.countP (fun e => e.2.phase = .torn) * 2 ^ 6

/-- GRN_STATUS (R368). A write-back is one step of the model, so WB_ACTIVE reads 0. -/
def State.grnStatus (s : State) (t : Nat) : Nat :=
  let g := s.grn t
  g.sealedSegs.length * 2 + b2n g.building.isSome * 2 ^ 5 + b2n (g.clearing ≠ []) * 2 ^ 6

/-- QZ_STATUS and TR_STATUS (R240). -/
def State.qzStatus (s : State) (t : Nat) : Nat :=
  match (s.qzt t).run with
  | none => 0
  | some r => 1 + b2n r.recon * 2 + jobTicket r.job * 2 ^ 2
def State.trStatus (s : State) (t : Nat) : Nat :=
  match (s.qzt t).sample with
  | none => 0
  | some x => 1 + b2n x.recomputing * 2

/-- SEQ_FEED_STATE (R497). -/
def State.feedStatus (s : State) (t : Nat) : Nat :=
  let n := s.feedSlots t
  (List.range 8).foldl (fun a k => a + (s.slot t k).state * 2 ^ (2 * k)) 0 + (if n = 0 then 0 else s.step % n) * 2 ^ 16

/-- SEQ_LAYOUT_STATUS (R463): PENDING and OPEN are computed. -/
def State.layoutStatus (s : State) : Nat :=
  let v := s.rd kLayoutStatus
  setFld (setFld v 16 1 (b2n (s.lay.change.isSome && !bit v 17))) 20 9 s.openCount

/-- SEC_HCP_STATUS (R497). -/
def State.hcpStatus (s : State) : Nat :=
  s.hcp.queue.length + s.hcp.sessions.length * 2 ^ 9 + b2n s.hcp.pend.isSome * 2 ^ 14 + min s.serviceUs 0xFFFF * 2 ^ 16

/-- A word of SEC_SESSIONn (R527). -/
def State.sessionWord (s : State) (n j : Nat) : Nat :=
  match s.hcp.sessions.find? (·.1 = n) with
  | none => 0
  | some (_, x) =>
    (x.id + x.certId * 2 ^ 32 + ((s.time - x.lastAt) / 1000000000) % 2 ^ 32 * 2 ^ 96) / 2 ^ (64 * j) % 2 ^ 64

/-- PWR_SIDEBAND (R36). -/
def State.sideband (s : State) : Nat :=
  b2n s.pwr.pwrEn + b2n (s.pwr.emergExt || s.pwr.emergTrip) * 2 + b2n s.alertN * 4 + b2n s.pwr.bscan * 8 +
  s.pwr.smbAddr % 8 * 2 ^ 4

/-- SEC_START_STATUS (R579): READY and GRANARY are computed. -/
def State.startStatus (s : State) : Nat :=
  let v := s.rd kStartStatus
  setFld (setFld v 4 1 (b2n (s.boot.reeve && fld v 0 3 = 7))) 6 1 (b2n (bit (s.rd kGrnCtrl) 4))

/-- A hub register. -/
def State.hubView (s : State) (o : Nat) : Nat :=
  if 0x2100 ≤ o && o < 0x2200 then s.curve ((o - 0x2100) / 64) ((o - 0x2100) % 64 / 4)
  else if o = 0x4000 then s.sideband
  else if o = 0x4008 then s.pwr.offCause.toNat
  else if o = 0x6200 then setFld (s.rd o) 19 1 (b2n s.spareValid)
  else if o = 0xA004 then s.hcpStatus
  else if o = 0xC000 then setFld (s.rd o) 0 1 (b2n s.flash.owner.isSome)
  else if o = 0xC004 then (match s.flash.owner with | some (_, g) => g | none => 0)
  else if (0xC010 ≤ o && o < 0xC030) || (0xC080 ≤ o && o < 0xC0C0) then 0
  else if 0xC040 ≤ o && o < 0xC054 then smGet 0 s.boot.versions ((o - 0xC040) / 4 + 1)
  else if 0xC400 ≤ o && o < 0xC500 then s.sessionWord ((o - 0xC400) / 16) ((o - 0xC400) % 16 / 8)
  else if o = kStartStatus then s.startStatus
  else s.rd o

/-- A register of a core's block. -/
def State.coreView (s : State) (key c o : Nat) : Nat :=
  if o = 0 then s.coreId c
  else if o = 8 then s.coreStatus c
  else if o = 0x20 then (List.range 8).foldl (fun a i => a + ((s.me c).entry i).state * 2 ^ (4 * i)) 0
  else if o = 0x100 then s.veStatus c
  else s.rd key

/-- A register of tile t's engines. -/
def State.tileView (s : State) (key t o : Nat) : Nat :=
  if o = 0x10003C then s.embStatus t
  else if o = 0x100110 then s.dirEntry (s.rdf (kEmb t 0x108) 0 16)
  else if 0x100140 ≤ o && o < 0x100180 then leAt (s.table (s.rdf (kEmb t 0x100) 0 12)) (o - 0x100140) 8
  else if o = 0x110018 then s.ueStatus t
  else if o = 0x120004 then s.grnStatus t
  else if o = 0x130008 then s.seqStatus t
  else if o = 0x130208 then s.layoutStatus
  else if o = 0x130424 then s.feedStatus t
  else if o = 0x140010 then s.qzStatus t
  else if o = 0x141014 then s.trStatus t
  else s.rd key

/-- What a register shows at an offset. -/
def State.csrView (s : State) (off : Nat) (r : RegAt) : Nat :=
  match csrBlock off with
  | 0 => s.hubView r.o
  | 5 => s.coreView r.key (coreOfCsr off) r.o
  | 6 => s.rd r.key
  | 7 => s.rd r.key
  | _ => s.tileView r.key (tileOfCsr off) r.o

/-- How an access of n bytes at an offset of CSR space completes (R10, R11, R81, R537), and the register it names. -/
def State.csrAccess (s : State) (off n : Nat) : Code × Option RegAt :=
  if off + n > 0x1000000 then (.unmapped, none)
  else match s.csrCode off n, regFind off with
    | .align, some r => if r.row.bytes = n && off % n = 0 then (.ok, some r) else (.align, none)
    | c, _ => (c, none)

/-- Read a register (R6, R11). -/
def State.csrRead (s : State) (off n : Nat) : Code × Nat :=
  match s.csrAccess off n with
  | (.ok, some r) => if s.badRing off then (.ue, 0) else (.ok, s.csrView off r)
  | (c, _) => (c, 0)

end Sys2Proof.Machine
end

