-- ==== Sys2Proof/Machine/CsrWrite.lean ====
section
/-!
DEFINITION. Machine/CsrWrite.lean: what a write of CSR space does (R6, R10, R11), register by register, and the status
WRITE_CSR gives for it.
-/
namespace Sys2Proof.Machine

open Sys2Proof

/-- The fields of mask take v's bits. -/
def masked (old mask v : Nat) : Nat := Nat.lor (old - Nat.land old mask) (Nat.land v mask)

/-- A plain write: RW fields take the value, W1C fields clear (R6). -/
def State.wrPlain (s : State) (r : RegAt) (v : Nat) : State :=
  let s := if r.row.rw = 0 then s else s.wr r.key (masked (s.rd r.key) r.row.rw v)
  if r.row.w1c = 0 then s else s.w1c r.key r.o v r.row

/-! ## The Palette (R125 to R128, R144) -/

def kPalette (n : Nat) : Nat := wideKey (0x140F00 + 8 * n)
def kPaletteSticky : Nat := wideKey 0x140F80

/-- A write of a user entry: the status WRITE_CSR gives. -/
def State.paletteWrite (s : State) (n v : Nat) : Nat × State :=
  let valid := bit v 31
  let busy := !s.isIdle
  let bad : Bool := valid && !paletteOk v
  if busy || bad then
    let k := Nat.lor (s.rd kPaletteSticky) (b2n busy + b2n bad * 2)
    (if busy then stBusy else stBadParam, s.wr kPaletteSticky (setFld k 4 4 n))
  else (stOk, s.wr (kPalette n) (if valid then v else 0))

/-- QZ_PALETTE_WRITE: entry 12 + n. -/
def execQzPaletteWrite (n : Fin 4) (val : W32) (s : State) : Host.Outcome State Fault Refusal :=
  .next <| if s.powered then (s.paletteWrite (12 + n) val.toNat).2 else s

/-! ## Recipes (R252, R253) -/

/-- RECIPE_WRITE and RECIPE_COMMIT. -/
def execRecipeWrite (n : Fin 32) (w : Fin 128) (val : W32) (s : State) : Host.Outcome State Fault Refusal :=
  .next <| if s.powered && w.val < 96 then s.writeRecipe n w val.toNat else s
def execRecipeCommit (val : W32) (s : State) : Host.Outcome State Fault Refusal :=
  .next <| if s.powered then s.commitRecipe val.toNat else s

/-! ## Step Sequencer registers (R66, R70, R72) -/

def State.clearMixed (s : State) : State := if s.quiet then { s with seq := { s.seq with mixed := false } } else s
def State.stepSet (s : State) (v : Nat) : State := if s.isIdle then s.wr kSeqStep (v % 2 ^ 48) else s

/-- CLEAR_MIXED and SEQ_STEP_SET. -/
def execClearMixed (s : State) : Host.Outcome State Fault Refusal := .next <| if s.powered then s.clearMixed else s
def execSeqStepSet (val : W64) (s : State) : Host.Outcome State Fault Refusal :=
  .next <| if s.powered then s.stepSet val.toNat else s

/-! ## By block -/

/-- A hub register. SEC_POD_CTRL's INSTALL acts before its CLEAR when both are 1 (DESIGN CHOICE, log 47). -/
def State.hubPut (s : State) (r : RegAt) (v : Nat) : State :=
  let o := r.o
  if o = 0x4100 then
    let s := s.wrPlain r v
    s.wrf kPwrCtrl 0 12 (max 600 (min 1900 (s.rdf kPwrCtrl 0 12)))
  else if o = kPwrPerf then s.askCap (v % 16)
  else if o = 0x6200 then
    let s := s.spareSelect (v % 2048)
    if bit v 16 then s.spareStart else s
  else if o = 0x6208 then (if bit v 31 then s.repairRequest (v % 2048) else s)
  else if o = 0x8800 then s.autoLight (bit v 0)
  else if (0xC010 ≤ o && o < 0xC030) || (0xC080 ≤ o && o < 0xC0C0) then s.wr r.key v
  else if o = 0xC030 then
    let s := if bit v 0 then s.podTake else s
    if bit v 1 then s.podForget else s
  else if o = 0xC0C0 then (if bit v 0 then s.go else s)
  else s.wrPlain r v

/-- A field whose value has a stated range in GRN_JNL_BUCKETS, GRN_FILTER_CTRL or GRN_STAGE_INDEX (R368). -/
def grnRange (o : Nat) : Option (Nat × Nat) :=
  if o = 0x120014 then some (10, 24) else if o = 0x120020 then some (20, 27) else if o = 0x120040 then some (10, 20) else none

/-- The Granary path's base, size and layout registers (R368). -/
def State.grnPut (s : State) (r : RegAt) (v : Nat) : Nat × State :=
  let bad : Bool := match grnRange r.o with
    | some (lo, hi) => v % 32 < lo || v % 32 > hi
    | none => false
  if bad then (stBadParam, s)
  else (stOk, if s.isIdle && !s.anySealed then s.wrPlain r v else s)

/-- The embedding registers that IDLE guards (R325). -/
def State.embPut (s : State) (r : RegAt) (v : Nat) : State :=
  if r.o = 0x100100 || r.o = 0x100108 || r.row.rw = 0 then s.wrPlain r v
  else if !s.isIdle then s
  else s.wrPlain r v

/-- A register of tile t's engines: the status WRITE_CSR gives. -/
def State.tilePut (s : State) (t : Nat) (r : RegAt) (v : Nat) : Nat × State :=
  let o := r.o
  if o < 0x110000 then (stOk, s.embPut r v)
  else if o = 0x110008 then (stOk, if s.isIdle then s.wrPlain r v else s)
  else if o = 0x110024 then (stOk, s.commitRecipe v)
  else if 0x111000 ≤ o && o < 0x115000 then (stOk, s.writeRecipe ((o - 0x111000) / 0x200) ((o - 0x111000) % 0x200 / 4) v)
  else if o = 0x120000 then
    (if 1 ≤ v % 16 && v % 16 ≤ 8 then stOk else stBadParam, (s.delayWrite t v).2)
  else if 0x120008 ≤ o && o < 0x120048 && o ≠ 0x120024 then s.grnPut r v
  else if o = 0x130000 then
    let s := s.wrPlain r v
    (stOk, if bit v 1 then s.clearMixed else s)
  else if o = 0x130018 then (stOk, s.stepSet v)
  else if o = 0x130100 || o = 0x130108 then (stOk, if s.isIdle then s.wrPlain r v else s)
  else if isFeedReg o then
    let (fine, s) := s.feedRegWrite t o v r.row.rw
    (if fine then stOk else stBadParam, s)
  else if 0x140F60 ≤ o && o < 0x140F80 then s.paletteWrite ((o - 0x140F00) / 8) v
  else if o = 0x141004 then
    let l := v % 1024
    (stOk, s.wr r.key (if l > 1000 then 1000 else l))
  else (stOk, s.wrPlain r v)

/-- A port's register. -/
def State.portPut (s : State) (p : Nat) (r : RegAt) (v : Nat) : State :=
  if r.o = 0 then
    let s := s.lnkEnable p (bit v 0)
    let s := if bit v 1 then s.lnkRetrain p else s
    if bit v 2 then s.lnkFullTrain p else s
  else s.wrPlain r v

/-- A module register of the network block; the training table only while every port is DISABLED (R392). -/
def State.netPut (s : State) (r : RegAt) (v : Nat) : State :=
  if 0x100 ≤ r.o && (List.range 8).any (fun p => s.linkSt p ≠ 0) then s else s.wrPlain r v

/-- Write v to a register at an offset of CSR space. -/
def State.csrPut (s : State) (off : Nat) (r : RegAt) (v : Nat) : Nat × State :=
  let v := v % 2 ^ (8 * r.row.bytes)
  match csrBlock off with
  | 0 => (stOk, s.hubPut r v)
  | 5 => (stOk, s.wrPlain r v)
  | 6 => (stOk, s.portPut ((off - 0xA00000) / 0x1000) r v)
  | 7 => (stOk, s.netPut r v)
  | _ => s.tilePut (tileOfCsr off) r v

/-- A write of n bytes at an offset: its completion code, the status WRITE_CSR gives, and the state. -/
def State.csrWrite (s : State) (off n v : Nat) : Code × Nat × State :=
  match s.csrAccess off n with
  | (.ok, some r) => let (st, s) := s.csrPut off r v; (.ok, st, s)
  | (c, _) => (c, c.status, s)

/-- REGISTER_WRITE: a master writes a register. -/
def execRegisterWrite (off bytes : Nat) (val : W64) (s : State) : Host.Outcome State Fault Refusal :=
  .next <| if s.powered then (s.csrWrite off bytes val.toNat).2.2 else s

end Sys2Proof.Machine
end

