-- ==== Sys2Proof/Machine/Bus.lean ====
section
/-!
DEFINITION. Machine/Bus.lean: accesses of a master to any address, CSR space among them (R329 to R332), copies, and the
core DMA's transfers (R104, R105, R193 to R195).
-/
namespace Sys2Proof.Machine

open Sys2Proof

/-- Read n bytes at a local address. -/
def State.busRead (s : State) (a n : Nat) : Code × List Byte × State :=
  if regionOf a = .csr then
    let r := s.csrRead (a - csrBase) n
    (r.1, if r.1 = .ok then leBytes n r.2 else [], s)
  else s.memRead a n

/-- A write's completion without the status that WRITE_CSR gives. -/
def noStatus (r : Code × Nat × State) : Code × State := (r.1, r.2.2)

/-- Write bytes at a local address. -/
def State.busWrite (s : State) (own : Bool) (a : Nat) (b : List Byte) : Code × State :=
  if regionOf a = .csr then
    noStatus (s.csrWrite (a - csrBase) b.length (leNat b))
  else s.memWrite own a b

/-- Read and write at a global address (R330). -/
def State.gReadAny (s : State) (g n : Nat) : Code × List Byte × State :=
  match s.serve g with
  | .here a => s.busRead a n
  | _ => s.gRead g n
def State.gWriteAny (s : State) (own : Bool) (g : Nat) (b : List Byte) : Code × State :=
  match s.serve g with
  | .here a => s.busWrite own a b
  | _ => s.gWrite own g b

/-- Copy n bytes between global addresses, 64 at a time, until an access fails: the code, the bytes copied, the state. -/
def State.move (s : State) (own : Bool) : Nat → Nat → Nat → Nat → Nat → Code × Nat × State
  | 0, _, _, _, done => (.ok, done, s)
  | fuel + 1, src, dst, n, done =>
    if n = 0 then (.ok, done, s)
    else
      let k := min n 64
      match s.gReadAny src k with
      | (.ok, b, s) =>
        (match s.gWriteAny own dst b with
        | (.ok, s) => s.move own fuel (src + k) (dst + k) (n - k) (done + k)
        | (c, s) => (c, done, s))
      | (c, _, s) => (c, done, s)

def State.copy (s : State) (own : Bool) (src dst n : Nat) : Code × Nat × State := s.move own (n / 64 + 1) src dst n 0

/-- A local address of this module as a global one (R4). -/
def ownGlobal (a : Nat) : Nat := 0xFFFFF * 2 ^ 44 + a

/-- A DMA transfer ends with a code: the account of an error (R105, R110). -/
def State.dmaEnd (s : State) (c : Nat) (x : DmaXfer) (code : Code) : State :=
  let s := if code = .ok then s else s.orBits (kMeFault c) mfDma
  let v := s.ve c
  s.setVe c { v with
    dma := v.dma.drop 1, unseen := v.unseen ++ [x],
    dmaErrs := if code = .ok then v.dmaErrs else v.dmaErrs ++ [decide (code = .ue)] }

/-- DMA_TRANSFER_COMPLETE: the oldest outstanding transfer of a core moves its bytes and completes. What a breach of
R194 has touched is undefined. -/
def execDmaTransferComplete (c : CoreId) (s : State) : Host.Outcome State Fault Refusal :=
  .next <|
    match (s.ve c).dma with
    | [] => s
    | x :: _ =>
      if !s.coreOn c then s
      else
        let l := ownGlobal (coreAddr c x.laddr)
        if x.put then
          let (code, _, s) := s.copy false l x.gaddr x.len
          s.dmaEnd c x code
        else
          let (code, n, s) := s.copy false x.gaddr l x.len
          let s := if x.tainted then s.undef (coreAddr c x.laddr) n else s
          s.dmaEnd c x code

end Sys2Proof.Machine
end

