-- ==== Sys2Proof/Machine/Collect.lean ====
section
/-!
DEFINITION. Machine/Collect.lean: the collective engine (R436 to R443): groups, descriptors, what each operation sends,
what it makes of the messages that come, and how reductions end.
-/
namespace Sys2Proof.Machine

open Sys2Proof

/-! ## Groups (R437) -/

/-- Size of the group that spans the axes of a mask. -/
def State.groupSize (s : State) (axes : Nat) : Nat :=
  (List.range 4).foldl (fun n a => if bit axes a then n * s.axis a else n) 1

/-- Member index of a node. -/
def State.memberOf (s : State) (axes node : Nat) : Nat :=
  (List.range 4).foldl (fun j a => if bit axes a then j * s.axis a + coordOf node a else j) 0

/-- The coordinates of member k, axis s first: what is left of k after each axis of the group is taken out. -/
def State.memberDigits (s : State) (axes k : Nat) : Nat × List Nat :=
  [3, 2, 1, 0].foldl (fun r a => if bit axes a then (r.1 / s.axis a, r.1 % s.axis a :: r.2) else (r.1, coordOf s.node a :: r.2))
    (k, [])

/-- The node field of member k. -/
def State.memberNode (s : State) (axes k : Nat) : Nat := (s.memberDigits axes k).2.foldl (fun n c => n * 32 + c) 0

/-- A node belongs to this module's group. -/
def State.inGroup (s : State) (axes node : Nat) : Bool :=
  (List.range 4).all fun a => bit axes a || coordOf node a = coordOf s.node a

/-! ## The descriptor (R436, R440) -/

def kEasel (t o : Nat) : Nat := tileBase t + 0x130100 + o

/-- A range lies wholly in the tile's Easel (R355). -/
def State.inEasel (s : State) (t a n : Nat) : Bool :=
  let b := s.rdf (kEasel t 0) 0 44
  b ≤ a && a + n ≤ b + s.rdf (kEasel t 8) 0 29

/-- A range that one access may cover (R331). -/
def oneRange (a n : Nat) : Bool :=
  regionOf a ≠ .none && regionOf a ≠ .csr && regionOf a = regionOf (a + max n 1 - 1)

/-- The bytes an operation reads at SRC, and writes at DST. -/
def colSrcBytes (op l n : Nat) : Nat := if op = 1 then l * n else n
def colDstBytes (op l n : Nat) : Nat := if op = 0 then l * n else n

/-- The checks of R440 on a descriptor. -/
def State.colOk (s : State) (t : Nat) (d : List Byte) : Bool :=
  let op := leAt d 0 1
  let axes := leAt d 1 1
  let fl := leAt d 2 1
  let n := leAt d 8 8
  let l := s.groupSize axes
  let along : Bool := op = 4 && axes = 8
  let src := leAt d 16 8
  let dst := leAt d 24 8
  let readsSrc : Bool := op ≠ 3 || s.memberOf axes s.node = leAt d 40 2
  op ≤ 4 && axes ≠ 0 && axes < 16 && fl < 4 && (if op = 1 || op = 2 then leAt d 3 1 ≤ 2 else leAt d 3 1 = 0) &&
  leAt d 4 2 = s.rdf kLayoutStatus 0 16 && (bit fl 0 || leAt d 6 2 = 0) &&
  n % 64 = 0 && 64 ≤ n && n ≤ 2 ^ 32 && src % 64 = 0 && dst % 64 = 0 &&
  (op ≠ 4 || [1, 2, 4, 8].contains axes) &&
  (along || zeroAt d 32 8) && (op = 3 || zeroAt d 40 2) && leAt d 40 2 < l && zeroAt d 42 22 &&
  (!along || (leAt d 36 4 ≠ 0 && leAt d 32 4 + leAt d 36 4 ≤ s.rdf (wideKey 0x13020C) 0 22)) &&
  (!readsSrc || oneRange src (colSrcBytes op l n)) && oneRange dst (colDstBytes op l n) &&
  (!bit fl 0 || s.inEasel t dst (colDstBytes op l n))

/-! ## Sending (R442) -/

/-- The prefix of a body. -/
def State.colPrefix (s : State) (op t ord off : Nat) : List Byte :=
  leBytes 2 (s.rdf kLayoutStatus 0 16) ++ leBytes 1 op ++ leBytes 1 t ++ leBytes 4 ord ++ leBytes 4 s.step ++ leBytes 4 off

/-- Send a piece to a node, 127 units of 64 bytes in a message (DESIGN CHOICE, log 48). -/
def State.sendPiece (s : State) (op t ord node : Nat) : Nat → Nat → List Byte → State
  | 0, _, _ => s
  | fuel + 1, off, b =>
    if b = [] then s
    else
      (s.sendMsg 3 (Config.collectiveType % 2 ^ 16) node 0 (s.colPrefix op t ord off ++ b.take 8128)).sendPiece op t ord node fuel
        (off + 127) (b.drop 8128)

def State.sendTo (s : State) (op t ord axes : Nat) (piece : List Byte) : List Nat → State
  | [] => s
  | k :: ks =>
    (s.sendPiece op t ord (s.memberNode axes k) (piece.length / 8128 + 1) 0 piece).sendTo op t ord axes piece ks

/-! ## Completion -/

/-- The members whose data a collective awaits. -/
def State.colAwaits (s : State) (j : ColJob) : List Nat :=
  let l := s.groupSize j.axes
  let me := s.memberOf j.axes s.node
  match j.op with
  | 3 => if me = j.root then [] else [j.root]
  | 4 => if l = 1 then [] else [if j.minus then (me + 1) % l else (me + l - 1) % l]
  | _ => (List.range l).filter (· ≠ me)

/-- Bytes that have come from a member. -/
def ColJob.have (j : ColJob) (k : Nat) : Nat := j.got.foldl (fun n g => if g.1 = k then n + g.2.2.length else n) 0

/-- A member's piece, put together. -/
def ColJob.piece (j : ColJob) (k : Nat) : List Byte :=
  (j.got.foldl (fun (m : SMap (List Byte)) g => if g.1 = k then smPut m g.2.1 g.2.2 else m) []).flatMap (·.2)

/-- The same collective, whatever has come for it. -/
def ColJob.same (x j : ColJob) : Bool := x.ordinal = j.ordinal && x.idx = j.idx

/-- Index held by a reduction that a faulted step left open, once the next run has begun: no descriptor has it. -/
def staleIdx : Nat := 0xFFFFFFFF

/-- The collective has ended: it leaves its engine, and its descriptor's one part is done. A reduction stays open until
what it sent is accepted (R443). -/
def State.colEnd (s : State) (t : Nat) (j : ColJob) (err : Option Bool) : State :=
  let s := if j.reduces then s.keepOpen ⟨t, j.msgs, j.sent.1, j.sent.2, false⟩ else s
  (s.setCols t ((s.cols t).filter fun x => !x.same j)).partDone t j.idx err

/-- The sums of a reduction over its members in ascending order, converted (R439): each element's code and flags. -/
def State.colSum (s : State) (j : ColJob) : List (Nat × NFlags) :=
  let f := s.fmt j.fmt
  let w := f.width / 8
  let n := j.bytes / w
  let z := (List.range (s.groupSize j.axes)).foldl
    (fun acc k => wPlusAll acc ((nums n w (j.piece k)).map fun c => (decodeCode f c).1))
    (List.replicate n (.fin false 0 0))
  z.map fun x => let (c, g) := convert f none x; (c, g ||| flagIf x.isNan fInv)

/-- A reduction whose pieces are all here: its result is written. -/
def State.colReduce (s : State) (t : Nat) (j : ColJob) : State :=
  let r := s.colSum j
  let f := s.fmt j.fmt
  let s := s.orBits (tileBase t + 0x130228) ((r.foldl (fun (g : NFlags) (e : Nat × NFlags) => g ||| e.2) 0).toNat % 16)
  let s := if j.countFlags then
      s.countStep t (r.countP fun e => e.2 &&& fOvf ≠ 0) (r.countP fun e => (decodeCode f e.1).1.isNan)
    else s
  match s.memWrite false j.dst (r.flatMap fun e => leBytes (f.width / 8) e.1) with
  | (.ok, s) => s.colEnd t j none
  | (c, s) => s.colEnd t j (some (c = .ue))

/-- Complete a collective when nothing more is awaited. -/
def State.colCheck (s : State) (t idx ord : Nat) : State :=
  match (s.cols t).find? fun j => j.ordinal = ord && j.idx = idx with
  | none => s
  | some j =>
    if (s.colAwaits j).all fun k => j.have k ≥ j.bytes then
      (if j.reduces then s.colReduce t j else s.colEnd t j none)
    else s

/-! ## Issue (R438) -/

/-- Where a member's data goes in DST, for an operation that only moves data. -/
def ColJob.place (j : ColJob) (k : Nat) : Nat := if j.op = 0 then j.dst + k * j.bytes else j.dst

/-- Write data that needs no sum; an error ends the collective. -/
def State.colPut (s : State) (t : Nat) (j : ColJob) (a : Nat) (b : List Byte) : State :=
  match s.memWrite false a b with
  | (.ok, s) => s
  | (c, s) => s.colEnd t j (some (c = .ue))

/-- Read and send the pieces of a REDUCE_SCATTER, one to each member; the own one is kept. -/
def State.colScatter (s : State) (t : Nat) (j : ColJob) (src : Nat) : List Nat → Except Bool (List Byte) × State
  | [] => (.ok [], s)
  | k :: ks =>
    match s.memRead (src + k * j.bytes) j.bytes with
    | (.ok, b, s) =>
      if k = s.memberOf j.axes s.node then
        (match s.colScatter t j src ks with
        | (.ok _, s) => (.ok b, s)
        | e => e)
      else (s.sendTo j.op t j.ordinal j.axes b [k]).colScatter t j src ks
    | (c, _, s) => (.error (c = .ue), s)

def State.addCol (s : State) (t : Nat) (j : ColJob) : State := s.setCols t (s.cols t ++ [j])

/-- Every member of a list is reached: a message to one that is not completes with UNREACHABLE (R398). -/
def State.reachesAll (s : State) (axes : Nat) (ks : List Nat) : Bool := ks.all fun k => s.reaches (s.memberNode axes k)

/-- A checked collective begins: it reads its source, sends, and keeps or stores its own piece. One that has a member no
path reaches completes with an error (R332, R597). -/
def State.colStart (s : State) (t : Nat) (j : ColJob) (src : Nat) : State :=
  let l := s.groupSize j.axes
  let me := s.memberOf j.axes s.node
  let s := s.addCol t j
  if j.op = 1 && !s.reachesAll j.axes ((List.range l).filter (· ≠ me)) then s.colEnd t j (some false)
  else if j.op = 1 then
    match s.colScatter t j src (List.range l) with
    | (.error ue, s) => s.colEnd t j (some ue)
    | (.ok own, s) =>
      (s.setCols t ((s.cols t).map fun x => if x.same j then { x with got := [(me, 0, own)] } else x)).colCheck t
        j.idx j.ordinal
  else if j.op = 3 && me ≠ j.root then s.colCheck t j.idx j.ordinal
  else match s.memRead src j.bytes with
    | (.ok, b, s) =>
      let others := (List.range l).filter (· ≠ me)
      let dest := if j.op = 4 then (if l = 1 then [] else [if j.minus then (me + l - 1) % l else (me + 1) % l]) else others
      if !s.reachesAll j.axes dest then s.colEnd t j (some false)
      else
      let s := s.sendTo j.op t j.ordinal j.axes b dest
      let s :=
        if j.op = 2 then
          s.setCols t ((s.cols t).map fun x => if x.same j then { x with got := [(me, 0, b)] } else x)
        else if j.op = 4 && l ≠ 1 then s
        else s.colPut t j (j.place me) b
      s.colCheck t j.idx j.ordinal
    | (c, _, s) => s.colEnd t j (some (c = .ue))

/-- A collective at work keeps the numbers of the messages it has sent. -/
def State.colSent (s : State) (t : Nat) (j : ColJob) (lo : Nat) : State :=
  s.setCols t ((s.cols t).map fun x => if x.same j then { x with sent := (lo, s.net.nextMsg) } else x)

/-- A COLLECTIVE descriptor has issued (R436, R440, R441). -/
def State.colIssue (s : State) (t idx addr : Nat) (count : Bool) : State :=
  let ord := (s.tile t).colOrd
  let s := s.setTile t { s.tile t with colOrd := ord + 1 }
  if addr % 64 ≠ 0 then s.partDone t idx (some false)
  else match s.gRead addr 64 with
    | (.ok, d, s) =>
      if !s.colOk t d then s.partDone t idx (some false)
      else
        let j : ColJob :=
          { idx := idx, ordinal := ord, op := leAt d 0 1, fmt := leAt d 3 1, bytes := leAt d 8 8, dst := leAt d 24 8,
            axes := leAt d 1 1, root := leAt d 40 2, minus := bit (leAt d 2 1) 1,
            layer := if bit (leAt d 2 1) 0 then some (leAt d 6 2) else none, countFlags := count, got := [], msgs := 0, sent := (0, 0),
            gen := leAt d 4 2 }
        ((s.mapFlight t idx fun i => { i with easel := j.layer }).colStart t j (leAt d 16 8)).colSent t j s.net.nextMsg
    | (c, _, s) => s.partDone t idx (some (c = .ue))

/-! ## Messages (R433, R441, R442) -/

/-- What becomes of a message: it waits, is dropped as stale, is dropped without a count, or belongs to the open
FLAG_REDUCE or to a collective. -/
inductive ColVerdict where
  | hold
  | stale
  | drop
  | flag
  | mine (t : Nat) (j : ColJob)
  deriving DecidableEq, Repr

/-- Mark of an inbox message of class COLLECTIVE. -/
def colClass : Nat := 0x10000

/-- A message of FLAG_REDUCE: held until this module has issued its own. -/
def State.flagJudge (s : State) : ColVerdict :=
  if s.seq.reduceIssued then (if s.flagOpen then .flag else .drop)
  else match s.seq.mode with
    | .starting => .hold
    | .waitFeed => .hold
    | .running => .hold
    | _ => .drop

def State.colJudge (s : State) (m : InMsg) : ColVerdict :=
  let b := m.body
  let gen := s.rdf kLayoutStatus 0 16
  let t := leAt b 3 1
  let ord := leAt b 4 4
  if serialLater 16 (leAt b 0 2) gen then .hold
  else if leAt b 0 2 ≠ gen || leAt b 8 4 ≠ s.step % 2 ^ 32 then .stale
  else if t > 3 then .drop
  else if leAt b 2 1 = 5 then s.flagJudge
  else match (s.cols t).find? fun j => j.ordinal = ord && j.idx ≠ staleIdx with
    | some j => if s.inGroup j.axes m.src then .mine t j else .drop
    | none =>
      let left : ColVerdict := match (s.cols t).find? (·.ordinal = ord) with
        | some j => if s.inGroup j.axes m.src then .mine t j else .drop
        | none => .drop
      match s.seq.mode with
      | .starting => .hold
      | .waitFeed => .hold
      | .running => if ord < (s.tile t).colOrd then left else .hold
      | _ => left

/-- Data of a collective comes in. -/
def State.colTake (s : State) (t : Nat) (j : ColJob) (m : InMsg) : State :=
  let k := s.memberOf j.axes m.src
  let off := leAt m.body 12 4
  let data := m.body.drop 16
  let keep := (k, off, data)
  let s := s.setCols t ((s.cols t).map fun x =>
    if x.same j then { x with got := x.got ++ [keep], msgs := x.msgs + 1 } else x)
  if leAt m.body 2 1 ≠ j.op then s.colEnd t j (some false)
  else
    let s := if j.reduces then s else s.colPut t j (j.place k + 64 * off) data
    s.colCheck t j.idx j.ordinal

/-- COLLECTIVE_MESSAGE: the first message that can be judged now is taken. -/
def execCollectiveMessage (s : State) : Host.Outcome State Fault Refusal :=
  .next <|
    match s.inbox.find? fun m => m.typ ≥ colClass && s.colJudge m ≠ .hold with
    | none => s
    | some m =>
      if !s.fabOn (leAt m.body 3 1 % 4) then s
      else
        let s1 := { s with inbox := s.inbox.erase m }
        match s.colJudge m with
        | .stale => s1.bump (wideKey 0x130230) 1
        | .flag => { s1 with seq := { s1.seq with flagMsgs := s1.seq.flagMsgs + 1 } }
        | .mine t j => s1.colTake t j m
        | _ => s1

/-! ## Discarding (R450, R464 to R466) -/

/-- Discard the collectives of a tile: the messages that its open reductions had received. -/
def State.colDiscard (s : State) (t : Nat) : Nat × State :=
  let n := ((s.cols t).filter (·.reduces)).foldl (fun n j => n + j.msgs) 0
  let gone := s.seq.opens.filter fun o => o.tile = t && s.redOpen o
  (gone.foldl (fun n o => n + o.msgs) n,
    ({ s with seq := { s.seq with opens := s.seq.opens.filter fun o => o.tile ≠ t } } : State).setCols t [])

/-- Discard the module's FLAG_REDUCEs, as tile 4. -/
def State.flagDiscard (s : State) : Nat × State :=
  let (n, s) := s.colDiscard 4
  (n + (if s.flagOpen then s.seq.flagMsgs else 0), { s with seq := { s.seq with reduceIssued := false, flagMsgs := 0 } })

/-- Discard every collective of the module. -/
def State.colDiscardAll (s : State) : Nat × State :=
  let (a, s) := s.colDiscard 0
  let (b, s) := s.colDiscard 1
  let (c, s) := s.colDiscard 2
  let (d, s) := s.colDiscard 3
  let (e, s) := s.flagDiscard
  (a + b + c + d + e, s)

end Sys2Proof.Machine
end

