-- ==== Sys2Proof/Machine/Seq.lean ====
section
/-!
DEFINITION. Machine/Seq.lean: the Step Sequencers (chapter 2): the start of a step, the issue and completion of
descriptors, and the pod-wide decision.
-/
namespace Sys2Proof.Machine

open Sys2Proof

/-! ## The program (R44, R45) -/

/-- The image of a slot. -/
def TileSeq.slotImage (x : TileSeq) (slot : Bool) : Option (List Byte) := if slot then x.slot1 else x.slot0

/-- The image that a tile runs. -/
def State.program (s : State) (t : Nat) : List Byte := ((s.tile t).slotImage s.seq.active).getD []

def progCount (p : List Byte) : Nat := leAt p 8 4
def progBackward (p : List Byte) : Nat := leAt p 12 4
def progReduce (p : List Byte) : Nat := leAt p 16 4
def progUpdate (p : List Byte) : Nat := leAt p 20 4
def progGen (p : List Byte) : Nat := leAt p 24 2
def progDesc (p : List Byte) (i : Nat) : List Byte := slice p (64 + 32 * i) 32

def dKind (d : List Byte) : Nat := leAt d 0 1
def dFlags (d : List Byte) : Nat := leAt d 1 1
def dWaitCtr (d : List Byte) : Nat := fld (leAt d 2 1) 0 4
def dSignal (d : List Byte) : Nat := fld (leAt d 2 1) 4 4
def dWaitValue (d : List Byte) : Nat := leAt d 4 2
/-- COUNT_FLAGS. -/
def dCount (d : List Byte) : Bool := bit (dFlags d) 1
/-- n bytes of the arguments from offset o. -/
def dArg (d : List Byte) (o n : Nat) : Nat := leAt d (8 + o) n

/-- SEQ_STATUS.PHASE while descriptor i is the last issued (R71; DEDUCED, log 49). -/
def phaseAt (p : List Byte) (i : Nat) : Nat :=
  if i < progBackward p then 1
  else if i < progReduce p then 2
  else if i < progUpdate p then 3
  else if i + 1 < progCount p then 4
  else 5

/-! ## Issue (R49 to R51) -/

/-- Kinds that access no memory: NOP, EASEL_FENCE, MEM_FENCE, FLAG_REDUCE, END. -/
def kindOrders (k : Nat) : Bool := k = 0 || k = 8 || k = 13 || k = 14 || k = 15

/-- The descriptor that a tile issues next, when its wait condition holds and it may issue now: one that accesses memory
waits for an order command in force (R361). -/
def State.due (s : State) (t : Nat) : Option (List Byte) :=
  let x := s.tile t
  let p := s.program t
  let d := progDesc p x.next
  if s.fabOn t && s.seq.mode = .running && !(s.feedT t).copying && x.next < progCount p &&
      (dWaitValue d = 0 || dWaitValue d ≤ smGet 0 x.ctr (dWaitCtr d)) && x.inflight.length < 64 &&
      x.inflight.all (fun i => i.waiting = []) && (kindOrders (dKind d) || !s.fencedTile t) then some d
  else none

/-- The work it waits for has failed (R65; DEDUCED, log 50). -/
def TileSeq.tainted (x : TileSeq) (d : List Byte) : Bool := dWaitValue d ≠ 0 && bit x.taint (dWaitCtr d)

/-- The next descriptor issues, with its parts and the cores that wait for a share. -/
def State.launch (s : State) (t : Nat) (d : List Byte) (parts : Nat) (waiting : List Nat) (err : Option Bool) : State :=
  let x := s.tile t
  let f : InFlight :=
    { idx := x.next, kind := dKind d, flags := dFlags d, signal := dSignal d, args := d.drop 8, parts := parts,
      waiting := waiting, err := err, late := false, easel := none }
  s.setTile t { x with next := x.next + 1, inflight := x.inflight ++ [f], phase := phaseAt (s.program t) x.next }

/-- A descriptor row: the descriptor due on the tile issues when it is of this kind and its gate is open. One that
depends on failed work has no effect and fails in turn, without a fault of its own. -/
def State.issue (s : State) (t kind : Nat) (gate : List Byte → Bool) (body : State → Nat → List Byte → State) : State :=
  match s.due t with
  | none => s
  | some d =>
    if dKind d ≠ kind || !gate d then s
    else if (s.tile t).tainted d then s.launch t d 0 [] (some false)
    else body (s.launch t d 1 [] none) (s.tile t).next d

/-- The update is applied, skipped, or not decided yet. -/
def State.updateApplies (s : State) : Bool := match s.seq.decision with | some d => d.apply | none => false

/-- NOP. -/
def execNopDesc (t : TileId) (s : State) : Host.Outcome State Fault Refusal :=
  .next <| s.issue t 0 (fun _ => true) fun s idx _ => s.partDone t idx none

/-- The cores of a MATMUL or VE_RUN (R87, R81): none for an error. -/
def State.coreRange (s : State) (d : List Byte) : Option (List Nat) :=
  let f := dArg d 0 2
  let n := dArg d 2 2
  if n = 0 then some []
  else if f + n > 1200 then none
  else
    let cs := (List.range n).map (f + ·)
    if cs.any s.absent then none else some cs

/-- A MATMUL or VE_RUN has issued: its shares wait to be handed out. -/
def State.shareOut (s : State) (t idx : Nat) (d : List Byte) : State :=
  match s.coreRange d with
  | none => s.partDone t idx (some false)
  | some cs => s.mapFlight t idx fun i => { i with parts := cs.length, waiting := cs }

/-- MATMUL (R86, R87). -/
def execMatmul (t : TileId) (s : State) : Host.Outcome State Fault Refusal :=
  .next <| s.issue t 1 (fun _ => true) fun s idx d => s.shareOut t idx d

/-- VE_RUN (R87). -/
def execVeRun (t : TileId) (s : State) : Host.Outcome State Fault Refusal :=
  .next <| s.issue t 2 (fun _ => true) fun s idx d => s.shareOut t idx d

/-- Hand the share of descriptor i to core c (R86, R87): the state with the share in the pending slot. -/
def State.handShare (s : State) (t c : Nat) (i : InFlight) : State :=
  let f := leAt i.args 0 2
  let n := leAt i.args 2 2
  let k := c - f
  let s := s.mapFlight t i.idx fun i => { i with waiting := i.waiting.erase c }
  if i.kind = 1 then
    let m := leAt i.args 16 4
    let sh : MeShare := ⟨.desc t i.idx, leAt i.args 8 8 + 64 * m * k, m, bit i.flags 1, 0, false, none⟩
    (s.setMe c { s.me c with pend := some sh }).meAdvance c
  else
    let sh : VeShare := ⟨.desc t i.idx, leAt i.args 8 8, leAt i.args 16 8, k, n, bit i.flags 1⟩
    (s.setVe c { s.ve c with pend := some sh }).vePromote c

/-- SHARE_DISPATCH (R87): to a core whose engine has a free pending slot; else a pooling share of the tile (R179). -/
def execShareDispatch (t : TileId) (c : CoreId) (s : State) : Host.Outcome State Fault Refusal :=
  .next <|
    if !s.coreOn c || !s.fabOn t then s
    else match (s.tile t).inflight.find? fun i => i.waiting.contains c.val with
      | some i =>
        let taken : Bool := if i.kind = 1 then (s.me c).pend.isSome else (s.ve c).pend.isSome
        if taken then s else s.handShare t c i
      | none => s.poolDispatch t c

/-- EMB_LOOKUP. -/
def execEmbLookup (t : TileId) (s : State) : Host.Outcome State Fault Refusal :=
  .next <| s.issue t 3 (fun _ => true) fun s idx d =>
    s.lookupIssue t idx (dArg d 0 2) (dArg d 4 4) (dArg d 8 8) (dArg d 16 8) (dCount d)

/-- EMB_GRAD. -/
def execEmbGrad (t : TileId) (s : State) : Host.Outcome State Fault Refusal :=
  .next <| s.issue t 4 (fun _ => true) fun s idx d =>
    s.gradIssue t idx (dArg d 0 2) (dArg d 4 4) (dArg d 8 8) (dArg d 16 8)

/-- EMB_APPLY: without effect when the update is skipped (R55). It waits for the outcome (DEDUCED, log 49), and for its
journal area (R346). -/
def execEmbApply (t : TileId) (s : State) : Host.Outcome State Fault Refusal :=
  .next <| s.issue t 5 (fun _ => s.seq.decision.isSome && !(s.updateApplies && s.applyWaits)) fun s idx d =>
    if s.updateApplies then s.applyIssue t idx (dArg d 0 2) else s.partDone t idx none

/-- PREFETCH. -/
def execPrefetch (t : TileId) (s : State) : Host.Outcome State Fault Refusal :=
  .next <| s.issue t 6 (fun _ => true) fun s idx d => s.prefetchIssue t idx (dArg d 0 2) (dArg d 4 4) (dArg d 8 8)

/-! ## The Easel (R355 to R357) -/

/-- EASEL_LOAD: the bytes are copied at issue; the descriptor stays in flight until DESCRIPTOR_COMPLETE. -/
def execEaselLoad (t : TileId) (s : State) : Host.Outcome State Fault Refusal :=
  .next <| s.issue t 7 (fun _ => true) fun s idx d =>
    let n := dArg d 4 4
    let src := dArg d 8 8
    let off := dArg d 16 4
    if n = 0 || n % 64 ≠ 0 || src % 64 ≠ 0 || off % 64 ≠ 0 || off + n > s.rdf (kEasel t 8) 0 29 then
      s.partDone t idx (some false)
    else match s.copy false src (ownGlobal (s.rdf (kEasel t 0) 0 44 + off)) n with
      | (.ok, _, s) => s.partDone t idx none
      | (c, _, s) => s.partDone t idx (some (c = .ue))

/-- EASEL_LOADs and Easel-bound COLLECTIVEs of a layer that a tile has issued in this step and that have not completed
(R356). -/
def State.easelBusy (s : State) (t layer : Nat) : Bool :=
  (s.tile t).inflight.any fun i => (i.kind = 7 && leAt i.args 0 2 = layer) || i.easel = some layer

/-- The account of an Easel wait of so many ns (R356). -/
def State.easelWaited (s : State) (t layer ns : Nat) : State :=
  ((s.bump (kEasel t 0x10) ns).wr (kEasel t 0x18) (layer + min ns 0xFFFFFFFF * 2 ^ 16)).sample 4 t ns

/-- EASEL_FENCE, waitNs after its own wait condition held. -/
def execEaselFence (t : TileId) (waitNs : Nat) (s : State) : Host.Outcome State Fault Refusal :=
  .next <| s.issue t 8 (fun d => !s.easelBusy t (dArg d 0 2)) fun s idx d =>
    ((s.easelWaited t (dArg d 0 2) waitNs).bump (kEasel t 0x20) 1).partDone t idx none

/-- WINDOW_TIMEOUT: the EASEL_FENCE that is due has waited SEQ_WINDOW_TIMEOUT µs and completes with the fault. -/
def execWindowTimeout (t : TileId) (s : State) : Host.Outcome State Fault Refusal :=
  .next <|
    let limit := s.rdf (wideKey 0x13010C) 0 24
    match s.due t with
    | none => s
    | some d =>
      let layer := dArg d 0 2
      if dKind d ≠ 8 || limit = 0 || !s.easelBusy t layer then s
      else
        let s := (s.launch t d 0 [] (some false)).easelWaited t layer (1000 * limit)
        ((s.bump (kEasel t 0x20) 1).raise 0x0602 1 t layer).fault t .windowLate

/-! ## Collectives, the Quantizer, the Update Engine, copies (R211, R247, R359, R361) -/

/-- The collective descriptor of a due descriptor names operation op; one that cannot be read or names none may issue
as any. -/
def State.colIs (s : State) (op : Nat) (d : List Byte) : Bool :=
  let a := dArg d 8 8
  if a % 64 ≠ 0 then true
  else match s.gRead a 64 with
    | (.ok, b, _) => leAt b 0 1 = op || leAt b 0 1 > 4
    | _ => true

/-- A COLLECTIVE row. One that depends on failed work still takes its ordinal (R441). -/
def State.colRow (s : State) (t op : Nat) : State :=
  match s.due t with
  | none => s
  | some d =>
    if dKind d ≠ 9 || !s.colIs op d then s
    else if (s.tile t).tainted d then
      let s := s.launch t d 0 [] (some false)
      s.setTile t { s.tile t with colOrd := (s.tile t).colOrd + 1 }
    else (s.launch t d 1 [] none).colIssue t (s.tile t).next (dArg d 8 8) (dCount d)

def execAllGather (t : TileId) (s : State) : Host.Outcome State Fault Refusal := .next <| s.colRow t 0
def execReduceScatter (t : TileId) (s : State) : Host.Outcome State Fault Refusal := .next <| s.colRow t 1
def execAllReduce (t : TileId) (s : State) : Host.Outcome State Fault Refusal := .next <| s.colRow t 2
def execColBroadcast (t : TileId) (s : State) : Host.Outcome State Fault Refusal := .next <| s.colRow t 3
def execColShift (t : TileId) (s : State) : Host.Outcome State Fault Refusal := .next <| s.colRow t 4

/-- QUANT: the job is queued on the tile. -/
def execQuantDesc (t : TileId) (s : State) : Host.Outcome State Fault Refusal :=
  .next <| s.issue t 10 (fun _ => true) fun s idx d =>
    s.setQzt t { s.qzt t with queue := (s.qzt t).queue ++ [(idx, dArg d 8 8, dCount d)] }

/-- UPDATE: without effect when the update is skipped (R55); it waits for the outcome (DEDUCED, log 49). -/
def execUpdateDesc (t : TileId) (s : State) : Host.Outcome State Fault Refusal :=
  .next <| s.issue t 11 (fun _ => s.seq.decision.isSome) fun s idx d =>
    if s.updateApplies then s.updateIssue t idx (dArg d 0 1) (dArg d 4 4) (dArg d 8 8) (dArg d 16 8)
    else s.partDone t idx none

/-- COPY (R359). -/
def State.copyIssue (s : State) (t idx n src dst : Nat) : State :=
  if n = 0 || n % 4 ≠ 0 || src % 4 ≠ 0 || dst % 4 ≠ 0 then s.partDone t idx (some false)
  else match s.copy false src dst n with
    | (.ok, _, s) => s.partDone t idx none
    | (c, _, s) => s.partDone t idx (some (c = .ue))

def execCopyDesc (t : TileId) (s : State) : Host.Outcome State Fault Refusal :=
  .next <| s.issue t 12 (fun _ => true) fun s idx d => s.copyIssue t idx (dArg d 0 4) (dArg d 8 8) (dArg d 16 8)

/-- Core DMA transfers outstanding in a scope: 0 the module, 1 tile k, 2 core k (R482). -/
def State.dmaBusy (s : State) (scope k : Nat) : Bool :=
  s.cores.any fun c => c.2.ve.dma ≠ [] && (scope = 0 || (scope = 1 && c.1 / 300 = k) || (scope = 2 && c.1 = k))

/-- Accesses of the engines of tile t under way: of the feed copies, a Quantizer job, a trace copy, an update block being
read or committed, the rows being read and written for the Embedding Engine, and a collective. -/
def State.enginesBusy (s : State) (t : Nat) : Bool :=
  let q := s.qzt t
  let e := s.embt t
  (s.feedT t).copying || q.run.isSome || (match q.sample with | some sm => sm.copy.isSome | none => false) ||
  (s.upt t).slots.any (fun x => x.2.phase ≠ .torn) || e.writes ≠ [] || e.shares.any (fun sh => !sh.known) ||
  (s.tile t).inflight.any fun i => i.kind = 9 && i.parts ≠ 0

/-- Accesses issued in a scope and not completed (R361, log 54). -/
def State.accessBusy (s : State) (scope k : Nat) : Bool :=
  s.dmaBusy scope k || (List.range 4).any fun t => (scope = 0 || (scope = 1 && t = k)) && s.enginesBusy t

/-- MEM_FENCE: it ends in DESCRIPTOR_COMPLETE, when no access of its scope is outstanding. -/
def execMemFence (t : TileId) (s : State) : Host.Outcome State Fault Refusal :=
  .next <| s.issue t 13 (fun _ => true) fun s idx d => s.partDone t idx (if dArg d 0 1 > 1 then some false else none)

/-! ## The decision (R51 to R55) -/

/-- Every descriptor before a tile's FLAG_REDUCE has completed. -/
def State.reduceReady (s : State) (u : Nat) : Bool :=
  let x := s.tile u
  let r := progReduce (s.program u)
  r ≤ x.next && x.inflight.all fun i => r ≤ i.idx

/-- A tile's FLAG_REDUCE has issued. -/
def State.reduceGone (s : State) (u : Nat) : Bool := progReduce (s.program u) < (s.tile u).next

/-- The module's flag word (R52). -/
def State.moduleFlags (s : State) : Nat :=
  Nat.lor (Nat.lor (s.rd (kLocalFlags 0)) (s.rd (kLocalFlags 1))) (Nat.lor (s.rd (kLocalFlags 2)) (s.rd (kLocalFlags 3)))

/-- Send the flag word to the other modules (R442, R443; its data is the model's own, log 48). -/
def State.sendFlags (s : State) (w : Nat) : List Nat → State
  | [] => s
  | r :: rs => (s.sendPiece 5 0 0xFFFFFFFF (s.nodeOf r) 1 0 (leBytes 8 w)).sendFlags w rs

/-- FLAG_REDUCE has issued on all four tiles: the module joins the reduction. -/
def State.reduceJoin (s : State) : State :=
  let s := s.reduceSamples
  let w := s.moduleFlags
  let lo := s.net.nextMsg
  let s := { s with seq := { s.seq with reduceIssued := true, sentFlags := w, flagMsgs := 0, joinAt := s.time } }
  let s := s.sendFlags w ((List.range s.modules).filter (· ≠ s.rank))
  { s with seq := { s.seq with flagSent := (lo, s.net.nextMsg) } }

/-- FLAG_REDUCE. -/
def execFlagReduce (t : TileId) (s : State) : Host.Outcome State Fault Refusal :=
  .next <|
    match s.due t with
    | none => s
    | some d =>
      if dKind d ≠ 14 || !(List.range 4).all s.reduceReady then s
      else
        let s := s.launch t d 1 [] none
        if (List.range 4).all s.reduceGone && !s.seq.reduceIssued then s.reduceJoin else s

/-- The outcome of a reduced word (R54). -/
def State.outcome (s : State) (w : Nat) : Decision :=
  let overs : Bool := fld w 0 24 ≠ 0
  let inv : Bool := fld w 24 24 ≠ 0
  let apply : Bool := !bit w 48 && (!overs || (bit (s.rd (wideKey 0x130000)) 0 && !inv)) && (overs || !inv)
  { faulted := bit w 48, apply := apply, halve := !bit w 48 && overs }

/-- The module's FLAG_REDUCE as an open reduction. -/
def State.flagRed (s : State) (awaits : Bool) : OpenRed := ⟨4, s.seq.flagMsgs, s.seq.flagSent.1, s.seq.flagSent.2, awaits⟩

/-- The result of the oldest FLAG_REDUCE that a faulted step left open has come. -/
def answerOld : List OpenRed → List OpenRed
  | [] => []
  | o :: l => if o.awaits then { o with awaits := false } :: l else o :: answerOld l

/-- FLAG_REDUCE_RESULT: peers is the OR of the other modules' words. A result that comes after the step has faulted only
closes the reduction, once what it sent is accepted (R443). -/
def execFlagReduceResult (peers : W64) (s : State) : Host.Outcome State Fault Refusal :=
  .next <|
    if !s.fabOn 0 then s
    else if !s.flagOpen then { s with seq := { s.seq with opens := answerOld s.seq.opens } }
    else
      let w := Nat.lor s.seq.sentFlags (if s.modules > 1 then peers.toNat else 0)
      let s := ((s.wr kPodFlags w).keepOpen (s.flagRed false)).sample 8 0 (s.time - s.seq.joinAt)
      if s.seq.mode ≠ .running then { s with seq := { s.seq with reduceIssued := false } }
      else
        let o := s.outcome w
        let s := { s with seq := { s.seq with decision := some o } }
        let s := s.eachTile fun s t => s.partDone t (progReduce (s.program t)) none
        if !o.faulted then s
        else if bit s.seq.sentFlags 48 then s.endStep (s.seq.firstFault.getD .peerFault) false
        else (s.noteCause .peerFault).endStep .peerFault false

/-- END: it issues when every earlier descriptor of its tile has completed. -/
def execEndStep (t : TileId) (s : State) : Host.Outcome State Fault Refusal :=
  .next <|
    match s.due t with
    | none => s
    | some d => if dKind d ≠ 15 || (s.tile t).inflight ≠ [] then s else s.launch t d 0 [] none

/-! ## Completion (R50, R65) -/

/-- A completed descriptor leaves flight and signals its counter. -/
def State.complete (s : State) (t : Nat) (i : InFlight) : State :=
  let x := s.tile t
  let x := { x with inflight := x.inflight.filter fun y => y.idx ≠ i.idx }
  if bit i.flags 0 then s.setTile t x
  else
    s.setTile t { x with
      ctr := smSet 0 x.ctr i.signal ((smGet 0 x.ctr i.signal + 1) % 2 ^ 16),
      taint := if i.err.isSome then Nat.lor x.taint (2 ^ i.signal) else x.taint }

/-- DESCRIPTOR_COMPLETE: descriptor idx, whose work has ended, completes; what waited for a MEM_FENCE goes on. -/
def execDescriptorComplete (t : TileId) (idx : Nat) (s : State) : Host.Outcome State Fault Refusal :=
  .next <|
    match s.flight t idx with
    | none => s
    | some i =>
      if !s.fabOn t || i.parts ≠ 0 || i.waiting ≠ [] || (i.fences && s.accessBusy (leAt i.args 0 1) t) then s
      else if i.fences then (s.complete t i).embPump
      else s.complete t i

/-! ## The start of a step (R41, R42, R50, R52) -/

/-- A share of an earlier step is still on a core. -/
def CoreState.desc (c : CoreState) : Bool :=
  let me := fun (x : Option MeShare) => match x with | some sh => (match sh.src with | .desc _ _ => true | _ => false) | none => false
  let ve := fun (x : Option VeShare) => match x with | some sh => (match sh.src with | .desc _ _ => true | _ => false) | none => false
  me c.me.run || me c.me.pend || ve c.ve.run || ve c.ve.pend

/-- What a faulted step left on a tile's engines is dropped, but for its open reductions (DEDUCED, log 51). -/
def State.dropLeft (s : State) (t : Nat) : State :=
  let s := s.ueStop t
  let e := s.embt t
  let s := s.setEmbt t { e with jobs := [], shares := e.shares.filter (fun x => x.node ≠ s.node), contribs := [], writes := [], coal := [] }
  let s := s.setQzt t { s.qzt t with queue := [], run := none }
  s.setCols t (((s.cols t).filter (·.reduces)).map fun j => { j with idx := staleIdx })

/-- A tile's own state for the step. -/
def State.startTile (s : State) (t : Nat) : State :=
  let s := s.dropLeft t
  let s := s.setTile t { s.tile t with next := 0, inflight := [], ctr := [], phase := 1, colOrd := 0, taint := 0 }
  let s := (s.wr (kLocalFlags t) 0).openSegment t
  let s := s.feedCopy t
  s.setFeedT t { s.feedT t with copying := true }

/-- STEP_START. -/
def execStepStart (s : State) : Host.Outcome State Fault Refusal :=
  .next <|
    if s.seq.mode = .waitFeed && (List.range 4).all (fun t => s.fabOn t && s.feedReady t) && !s.cores.any (fun c => c.2.desc) then
      let s := if s.flagOpen then s.keepOpen (s.flagRed true) else s
      let s := s.eachTile fun s t => s.sample 7 t (s.time - s.seq.barrierAt)
      let s := { s with seq := { s.seq with mode := .running, decision := none, reduceIssued := false, sentFlags := 0 } }
      let s := (s.quantStepStart.latchConsts).takeCap
      s.eachTile fun s t => s.startTile t
    else s

/-- FEED_COPY_END: the copies of a tile have ended (R492). -/
def execFeedCopyEnd (t : TileId) (s : State) : Host.Outcome State Fault Refusal :=
  .next <| if s.fabOn t then s.setFeedT t { s.feedT t with copying := false } else s

/-- FEED_TIMEOUT: the wait for the feed exceeds SEQ_FEED_TIMEOUT (R42). -/
def execFeedTimeout (s : State) : Host.Outcome State Fault Refusal :=
  .next <|
    if s.powered && s.seq.mode = .waitFeed && s.rdf (wideKey 0x130030) 0 24 ≠ 0 && !(List.range 4).all s.feedReady then
      s.faultAtOnce .feedLate
    else s

end Sys2Proof.Machine
end

