-- ==== Sys2Proof/Machine/Layout.lean ====
section
/-!
DEFINITION. Machine/Layout.lean: layout changes, their fences and commits (R444 to R452), the rebuild of a replaced module
(R460), and barrier messages (R57 to R59, R447).
-/
namespace Sys2Proof.Machine

open Sys2Proof

def State.gen (s : State) : Nat := s.rdf kLayoutStatus 0 16

/-! ## The parameter block (R444) -/

def lyLen (b : List Byte) (a : Nat) : Nat := leAt b a 1
def lyNode (b : List Byte) : Nat := leAt b 4 4 % 2 ^ 20
def lyGen (b : List Byte) : Nat := leAt b 8 2
def lyForce (b : List Byte) : Bool := bit (leAt b 10 2) 0
def lyMax (b : List Byte) : Nat := leAt b 12 4
def lyReplaced (b : List Byte) : List Nat := (List.range (leAt b 16 2)).map fun i => leAt b (32 + 4 * i) 4 % 2 ^ 20
def lyMoves (b : List Byte) : Nat := leAt b 18 2
def lyModules (b : List Byte) : Nat := lyLen b 0 * lyLen b 1 * lyLen b 2 * lyLen b 3

/-- The digest of a change: its block with NODE, MOVE_COUNT and MOVE_LIST taken as 0 (R447). -/
def changeDigest (b : List Byte) : Nat :=
  crc32 (slice b 0 4 ++ leBytes 4 0 ++ slice b 8 10 ++ leBytes 2 0 ++ slice b 20 4 ++ leBytes 8 0 ++ b.drop 32)

/-- The digest this module shows: 0 without a pending change. -/
def State.ownDigest (s : State) : Nat := match s.lay.change with | some (_, b) => changeDigest b | none => 0

/-- A node field lies within lengths. -/
def nodeIn (len : Nat → Nat) (node : Nat) : Bool := (List.range 4).all fun a => coordOf node a < len a

/-- First rank, size and own index of the parity group of a rank among m modules, for a K (R454). -/
def parityGroup (m k rank : Nat) : Nat × Nat :=
  let g := rank / (k + 1)
  let lone : Bool := m % (k + 1) = 1
  let last := m / (k + 1)
  if lone && g = last then ((last - 1) * (k + 1), k + 2)
  else if lone && g + 1 = last then (g * (k + 1), k + 2)
  else (g * (k + 1), min (k + 1) (m - g * (k + 1)))

/-- K for a pod of m modules (R453). -/
def parityK (m : Nat) : Nat := if m ≤ 64 then 0 else if m ≤ 512 then 16 else if m ≤ 2048 then 8 else 4

/-- No value occurs twice. -/
def noTwice : List Nat → Bool
  | [] => true
  | x :: xs => !xs.contains x && noTwice xs

/-- The parity groups, in the new layout, of the replaced modules. -/
def replacedGroups (b : List Byte) : List Nat :=
  let m := lyModules b
  (lyReplaced b).map fun node =>
    (parityGroup m (parityK m) ((List.range 4).foldl (fun r a => r * lyLen b a + coordOf node a) 0)).1

/-- A module named in REPLACED (R445, R460). -/
def ownReplaced (b : List Byte) : Bool := (lyReplaced b).contains (lyNode b)

/-- The first refusal of R445 that applies; OK for none. A module named in REPLACED has no layout of its own yet, so that
the lengths are not held against it (R452, R460; DEDUCED, log 57). -/
def State.layoutRefusal (s : State) (reshard : Bool) (b : List Byte) : Nat :=
  let n := leAt b 16 2
  let lens := (List.range 4).map (lyLen b)
  let badParam : Bool :=
    b.length ≠ 32 + 4 * n || leAt b 4 4 ≥ 2 ^ 20 || leAt b 10 2 > 1 || !zeroAt b 20 4 ||
    lens.any (fun l => l = 0 || l > 32) || !nodeIn (lyLen b) (lyNode b) ||
    (!reshard && (n ≠ 0 || lyMoves b ≠ 0)) || (reshard && !ownReplaced b && lens ≠ (List.range 4).map s.layoutLen) ||
    n > 512 || lyMoves b > 4096 || (lyMoves b = 0 && leAt b 24 8 ≠ 0) ||
    (List.range n).any (fun i => leAt b (32 + 4 * i) 4 ≥ 2 ^ 20) ||
    (lyReplaced b).any (fun x => !nodeIn (lyLen b) x) || !noTwice (lyReplaced b) || !noTwice (replacedGroups b) ||
    (n ≠ 0 && !ownReplaced b && !bit (s.rd kParityCtrl) 0)
  if badParam then stBadParam
  else if lyModules b > 8192 || lyMax b = 0 || lyMax b > 2 ^ 21 then stLimit
  else if !ownReplaced b && lyGen b ≠ (s.gen + 1) % 2 ^ 16 then stGeneration
  else if s.seq.mode = .fence || s.seq.mode = .starting || bit (s.rd kLayoutStatus) 17 || (lyForce b && !s.quiet) ||
      (!reshard && lyModules b ≠ s.modules && s.embm.tables.any fun e => tbValid e.2) then stBusy
  else if !lyForce b && s.openCount ≠ 0 then stBusyReducing
  else stOk

/-! ## Barrier messages -/

/-- Send a barrier message: 0 start, 1 arrival, 2 completion. -/
def State.barrierOut (s : State) (phase : Nat) : State :=
  s.emit (.podFence phase s.step s.gen s.dirGen (if phase = 1 then s.ownDigest else 0))

/-- The modules that take part in the barrier now: those of the new layout in a layout fence (R448, R452). -/
def State.barrierSize (s : State) : Nat := (List.range 4).foldl (fun n a => n * s.judgeLen a) 1

/-- Messages of a phase that have come. -/
def State.cameOf (s : State) (phase : Nat) : List BarrierMsg := s.seq.came.filter (·.phase = phase)

/-- Every other module has sent its message of a phase. -/
def State.allCame (s : State) (phase : Nat) : Bool := (s.cameOf phase).length + 1 ≥ s.barrierSize

def State.clearCame (s : State) (p : BarrierMsg → Bool) : State :=
  { s with seq := { s.seq with came := s.seq.came.filter fun m => !p m } }

/-! ## The commit (R449) -/

/-- Order 1 of a forced commit (R450). -/
def State.forceDiscard (s : State) : State :=
  let (n, s) := s.colDiscardAll
  let s := s.bump (wideKey 0x130238) n
  if n = 0 then s else s.raise 0x0802 0 0 n

/-- A message of class COLLECTIVE and of a generation older than this module's is in a retry buffer, a port's queues or a
collective engine (R434). -/
def State.holdsOld (s : State) : Bool :=
  let old := fun g => serialLater 16 s.gen g
  s.net.colGens.any (fun x => old x.2 && s.onPort x.1) ||
  s.net.assembled.any (fun x => fld (leAt x.2.2 0 4) 20 3 = 3 && old (leAt x.2.2 16 2)) ||
  s.inbox.any (fun m => m.typ ≥ colClass && old (leAt m.body 0 2)) ||
  (List.range 4).any fun t => (s.cols t).any fun j => j.msgs ≠ 0 && old j.gen

def State.setWaiting (s : State) (w : Bool) : State := { s with lay := { s.lay with waiting := w } }

/-- Order 3, and the beginning of order 4. -/
def State.commitOrder3 (s : State) (b : List Byte) : State :=
  let s := (s.writeBack s.step (if s.seq.mode = .fence then s.step + 1 else s.step) fun _ => true).2
  if ownReplaced b then s.wrf kLayoutStatus 18 1 1 else s

/-- A pending RESHARD that gives way to another change, or is cancelled, ends without its commit (log 57). -/
def State.changeGone (s : State) : State :=
  if s.lay.change.isSome && s.pendIs 0x0602 then s.pendingEnds stNotReady [] else s

/-- One entry of the move list: whether it was skipped. -/
def State.moveEntry (s : State) (e : List Byte) : Bool × State :=
  let src := leAt e 0 8
  let dst := leAt e 8 8
  let n := leAt e 16 8
  if n < 4 || n > 2 ^ 32 - 4 || n % 4 ≠ 0 || src % 4 ≠ 0 || dst % 4 ≠ 0 || !zeroAt e 24 8 then (true, s)
  else match s.copy true src dst n with
    | (.ok, _, s) => (false, s)
    | (_, _, s) => (true, s)

/-- The move list in entry order (order 5): entries skipped. An entry that cannot be read is skipped. -/
def State.moveAll (s : State) (list : Nat) : Nat → Nat → Nat × State
  | 0, skipped => (skipped, s)
  | n + 1, skipped =>
    match s.gRead list 32 with
    | (.ok, e, s) =>
      let (sk, s) := s.moveEntry e
      s.moveAll (list + 32) n (skipped + b2n sk)
    | (_, _, s) => s.moveAll (list + 32) n (skipped + 1)

/-- The ports of an axis whose length changes (R373, order 7). -/
def State.axisPorts (s : State) (old : List Nat) (p : Nat) : State :=
  let l := s.layoutLen (p / 2)
  if l = 1 then (if s.linkSt p = 0 then s else s.linkDown p 1 true)
  else if old.getD (p / 2) 1 = 1 && s.linkSt p = 0 && bit (s.rd (kLnk p 0)) 0 then s.setLinkSt p 1
  else s

/-- Orders 5 to 9. A replaced module had no layout of its own, so that M has not changed for it (log 57). -/
def State.commitEnd (s : State) (b : List Byte) : State :=
  let (skipped, s) := s.moveAll (leAt b 24 8) (lyMoves b) 0
  let s := (s.emptyDir).newWindow (some 0)
  let old := (List.range 4).map s.layoutLen
  let m := s.modules
  let s := { s with lay := { s.lay with change := none, skipped := skipped } }
  let s := (s.wr kLayout (leAt b 0 4 + lyNode b * 2 ^ 32)).wr (wideKey 0x13020C) (lyMax b)
  let s := ((s.wrf kLayoutStatus 0 16 (lyGen b)).wrf kLayoutStatus 29 1 1).wrf kLayoutStatus 18 1 0
  let s := if lyModules b = m || ownReplaced b then s else s.wrf kParityCtrl 0 1 0
  let s := (List.range 8).foldl (fun s p => s.axisPorts old p) s
  let s := (s.reIdent).timeCommit
  (s.bump (wideKey 0x130250) 1).raise 0x0803 0 0 (lyGen b + leAt b 16 2 * 2 ^ 16)

/-- The rank that a change gives this module. -/
def lyRank (b : List Byte) : Nat := (List.range 4).foldl (fun r a => r * lyLen b a + coordOf (lyNode b) a) 0

/-- Take the protected ranges and parity bases of the group of a rank among m modules, and set ENABLE (R456, R460). -/
def State.parityInstall (s : State) (m rank base gbase : Nat) (ranges : List (Nat × Nat)) : State :=
  let k := parityK m
  let (first, n) := parityGroup m k rank
  let s := (s.wr (wideKey 0x130218) base).wr (wideKey 0x130220) gbase
  let s := (List.range 32).foldl (fun s i =>
    let r := ranges.getD i (0, 0)
    (s.wr (wideKey (0x130600 + 16 * i)) r.1).wr (wideKey (0x130608 + 16 * i)) r.2) s
  s.wr kParityCtrl (1 + k * 2 + n * 2 ^ 8 + (rank - first) * 2 ^ 16 + ranges.length * 2 ^ 24)

/-! ## Layout fences (R446, R448) -/

/-- A layout fence begins. -/
def State.layFenceStart (s : State) : State :=
  (((s.setWaiting false).wrf kLayoutStatus 17 1 1).reIdent).barrierOut 1

/-- A layout fence ends: its command replies, and STATE is IDLE. -/
def State.layFenceEnd (s : State) (reshard : Bool) (status : Nat) : State :=
  let s := { s with lay := { s.lay with change := none }, seq := { s.seq with mode := .idle, came := [] } }
  let s := (s.wrf kLayoutStatus 17 1 0).wrf kLayoutStatus 18 1 0
  let s := (List.range 8).foldl (fun s p => s.judgeCoord p) s
  if s.pendIs (if reshard then 0x0602 else 0x0601) then
    s.pendingEnds status (if reshard && status = stOk then leBytes 4 s.lay.skipped else [])
  else s

/-- The commit of a layout fence is done: the completion barrier begins. -/
def State.layCommitted (s : State) (b : List Byte) : State := ((s.clearCame (·.phase = 1)).commitEnd b).barrierOut 2

/-- LAYOUT_COMPLETION_BARRIER. Which command is pending says which one it was. While a module reports a rebuild in
progress the wait has no limit. -/
def execLayoutCompletionBarrier (w : LayWait) (s : State) : Host.Outcome State Fault Refusal :=
  .next <|
    if !s.hubOn || !bit (s.rd kLayoutStatus) 17 || s.lay.change.isSome then s
    else if s.allCame 2 then s.layFenceEnd (s.pendIs 0x0602) stOk
    else if w = .late false then s.layFenceEnd (s.pendIs 0x0602) stNotReady
    else s

/-- Every read of a unit meets an error. -/
def State.markUnit (s : State) (a : Nat) : State := { s with ue := ueSet s.ue a 4096 true }

/-- A unit of a rebuild: stored, which releases the torn slots of its records (R267), or one whose reconstruction completes
with UE, which its reads then meet (R461; DEDUCED, log 57); the bytes stored. -/
def State.rebuildUnit (s : State) (a : Nat) : Recon → Nat × State
  | .bytes b => (b.length, (s.poke a b).releaseTorn a b.length false)
  | .doubleLoss => (0, (s.orBits (wideKey 0x130214) 1).markUnit a)
  | .stripeTorn => (0, (s.orBits (wideKey 0x130214) 2).markUnit a)

/-- The units of a rebuild, and the bytes stored. -/
def State.storeRebuilt (s : State) : List (Nat × Recon) → Nat × State
  | [] => (0, s)
  | u :: us =>
    let (n, s) := s.rebuildUnit u.1 u.2
    let (m, s) := s.storeRebuilt us
    (n + m, s)

end Sys2Proof.Machine
end

