-- ==== Sys2Proof/Machine/Resets.lean ====
section
/-!
DEFINITION. Machine/Resets.lean: what ABORT_JOB, RESET_TILE and RESET_MODULE do when they take effect (R62, R73 to R75,
R581 to R585, and the reset rules of every chapter).
-/
namespace Sys2Proof.Machine

open Sys2Proof

/-- The state a meaning answers, for use inside another one. -/
def State.after (s : State) (f : State → Host.Outcome State Fault Refusal) : State :=
  match f s with
  | .next t => t
  | _ => s

/-- Orders 3 to 9 of a fence are running, so that a reset or abort waits (R62, R581). -/
def State.inFence (s : State) : Bool := s.seq.mode = .fence && s.seq.fenceOrder ≥ 3

/-! ## ABORT_JOB on a core (R114, R175, R209) -/

/-- Chain ch of a core, which no chain before it holds up: a tile descriptor executing is finished (on a re-execution,
which fetches one at a time, the one under reduction), and a chain so reduced to its end is converted. Any other chain
leaves its flags alone behind. -/
def State.abortChain (s : State) (c : Nat) (ch : MeChain) : State :=
  let reduced := if ch.stage = .converting then (.ok ch, s)
    else s.redRun c (if ch.rerun then ch.leftNow else ch.left) ch
  match reduced with
  | (.error _, s) => s.orBits (kMeFault c) mfAccess
  | (.ok ch, s) =>
    if ch.stage = .fetching || (ch.stage = .reducing && ch.left ≠ 0) then s
    else match s.chainConvert c ch with
      | (.error _, s) => s.orBits (kMeFault c) mfAccess
      | (.ok ch, s) =>
        -- rows of a run that awaits a notice, or that a REPLAY has discarded, are not written (R175, R599)
        if ch.outMode && ch.unconfirmed = [] && !ch.again && !ch.replaced then
          (s.markLayer c ch).chainFinal c ch
        else s

def State.abortChains (s : State) (c : Nat) : List MeChain → State
  | [] => s
  | ch :: chs => (s.abortChain c ch).abortChains c chs

def State.endDma (s : State) (c : CoreId) : Nat → State
  | 0 => s
  | n + 1 => (s.after (execDmaTransferComplete c)).endDma c n

/-- A VE's wait ends with no operand to tell its clocks: a free value is counted (log 78). -/
def State.veRelease (s : State) (c : Nat) : State :=
  if (s.ve c).wait = .none then s
  else
    let (n, s) := s.freeNat
    s.veUnwait c n

/-- One core: each chain in order (R172), outstanding DMA transfers complete, waits end with their clocks counted, every
queue is FREE and every slot empty. The head stays, and the next entry to reserve is the head's; a chain whose REPLAY has
come writes no rows of the run that it discards (R599; log 78). -/
def State.abortCore (s : State) (c : CoreId) : State :=
  let s := s.abortChains c ((s.me c).chains.filter fun ch => ch.stage ≠ .held && ch.stage ≠ .replay)
  let s := s.endDma c (s.ve c).dma.length
  let m := s.me c
  let s := if m.stuck || m.wait ≠ .none then s.stallFull c else s
  let s := s.veRelease c
  let s := s.setMe c { m with
    run := none, pend := none, chains := [], entries := [], tail := m.head, wait := .none, stuck := false }
  let v := s.ve c
  s.setVe c { v with run := none, pend := none, started := false, ended := false, err := none, dma := [], dmaErrs := [],
                     unseen := [], wait := .none, noted := false }

def State.abortCores (s : State) : List Nat → State
  | [] => s
  | c :: cs => (if h : c < 1200 then s.abortCore ⟨c, h⟩ else s).abortCores cs

/-- Collectives under way are discarded and counted (R438). -/
def State.discardCols (s : State) : State :=
  let r := s.colDiscardAll
  r.2.bump (wideKey 0x130238) r.1

/-- The step ends without an outcome. -/
def State.abortSeq (s : State) : State :=
  { s with seq := { s.seq with mode := .idle, mixed := false, haltPending := false, decision := none, fenceOrder := 0,
                               came := [] } }

/-- Change lists that have come, and a pending layout change, are dropped (R62). -/
def State.abortPod (s : State) : State :=
  let s := { s with embm := { s.embm with lists := [], awaited := [], early := [] } }
  let s := if bit (s.rd kLayoutStatus) 17 then s else s.changeGone
  if bit (s.rd kLayoutStatus) 17 then s else { s with lay := { s.lay with change := none } }

/-- Each tile's feed copy and step program stop. -/
def State.abortTile (s : State) (t : Nat) : State :=
  let s := s.setFeedT t { s.feedT t with copying := false }
  s.setTile t { s.tile t with next := 0, inflight := [], ctr := [], phase := 0, taint := 0 }

/-- ABORT_JOB takes effect (R62, R75, R584). The cores finish what they execute as in the step it ends (R114): a put to
the Granary is still DENIED (R340). Then no step runs while the other engines stop. -/
def State.abort (s : State) : State :=
  let s := s.eachTile fun s t => s.quantAbortTile t
  let s := (s.abortCores (s.cores.map (·.1))).abortSeq
  let s := s.eachTile fun s t => s.ueStop t
  let s := ((s.embAbort).granAbort).discardCols
  (s.abortPod.eachTile fun s t => s.abortTile t).abortSeq.wr kSeqStepsLeft 0

/-! ## RESET_TILE (R113, R583) -/

/-- Output rows of an OUT_MODE = 1 chain that a reset stops are undefined (R113). -/
def State.blurRows (s : State) (c base pitch bytes : Nat) : Nat → State
  | 0 => s
  | n + 1 => (s.undef (coreAddr c base) bytes).blurRows c (base + pitch) pitch bytes n

/-- The FINAL descriptor of the open chain, among n list entries from a global address on that this module holds. -/
def State.finalOf (s : State) (g : Nat) : Nat → Option (List Byte)
  | 0 => none
  | n + 1 =>
    match s.serve g with
    | .here a =>
      let td := s.bytes a 64
      if tdOp td = 1 && tdFlag td 1 then some td else s.finalOf (g + 64) n
    | _ => none

def State.blurChain (s : State) (c : Nat) (ch : MeChain) : State :=
  if !ch.outMode then s
  else
    let last := if ch.stage = .fetching then
        (match (s.me c).run with | some sh => s.finalOf (sh.list + 64 * sh.pos) (sh.len - sh.pos) | none => none)
      else some (ch.tds.getLastD [])
    let w := if bit ch.fmt 20 then 32 else (s.fmt (fld ch.fmt 16 4)).width
    match last with
    | some td => s.blurRows c (tdW td 48) (tdW td 52) (4 * w) 32
    | none => s

/-- The destination of an outstanding DMA transfer, where it lies in this module (R113). -/
def State.blurDma (s : State) (c : Nat) (x : DmaXfer) : State :=
  if x.put then
    match s.serve x.gaddr with
    | .here a => s.undefStore a x.len
    | _ => s
  else s.undef (coreAddr c x.laddr) x.len

/-- A share of another tile's descriptor that ran on a stopped core completes with an error (R113). -/
def State.orphan (s : State) (t : Nat) (src : Option ShareSrc) : State :=
  match src with
  | some (.desc u idx) =>
    if u = t then s
    else
      let s := s.partDone u idx (some false)
      if s.seq.mode = .faulted then s.noteCause .descError else s
  | _ => s

def State.stopCore (s : State) (t c : Nat) : State :=
  let x := s.core c
  let s := x.me.chains.foldl (fun s ch => s.blurChain c ch) s
  let s := x.ve.dma.foldl (fun s d => s.blurDma c d) s
  let s := s.setCore c CoreState.init
  (((s.orphan t (x.me.run.map (·.src))).orphan t (x.me.pend.map (·.src))).orphan t (x.ve.run.map (·.src))).orphan t
    (x.ve.pend.map (·.src))

/-- The CUR and NEXT windows of a tile hold undefined bytes (R498, R499). -/
def State.undefWindows (s : State) (t : Nat) : State :=
  (s.undef (s.rdf (kFeed t 0x10) 0 44) (s.slotBytes t)).undef (s.rdf (kFeed t 0x18) 0 44) (s.rdf (kFeed t 0x20) 0 25)

/-- RESET_TILE takes effect, from order 3 on. -/
def State.resetTile (s : State) (t : Nat) : State :=
  let s := if s.quiet then s else s.faultAtOnce .tileReset
  let s := s.ueStop t
  let s := (s.coresOf t).foldl (fun s c => s.stopCore t c) s
  let (_, s) := s.colDiscard t
  let s := (s.granResetTile t).quantResetTile t
  let s := ((s.ueResetTile t).embResetTile t).setTile t TileSeq.init
  let base := tileBase t
  let s := s.resetRegs fun k => base ≤ k && k < base + 0x200000 &&
    (k - base < 0x4B000 || k - base = 0x130040 || k - base = 0x130228)
  let s := s.setFeedT t { s.feedT t with copying := false }
  (s.undefWindows t).linksResetTile t

/-! ## RESET_MODULE (R582) -/

/-- Registers of the tile blocks that no chapter's own reset operation covers: per-core, Step Sequencer, layout, feed and
Palette registers. -/
def wideReset (o : Nat) : Bool :=
  o < 0x4B000 || (0x130000 ≤ o && o < 0x130060) || (0x130200 ≤ o && o < 0x131000) || (0x140F00 ≤ o && o < 0x140F88)

/-- RESET_MODULE takes effect, from order 3 on. -/
def State.resetModule (s : State) : State :=
  let s := s.eachTile fun s t => (s.ueStop t).undefWindows t
  let dimms := s.started 3
  let s := s.linksReset
  let s := s.granResetModule
  let s := ((s.quantReset).ueReset).embReset
  let s := s.resetRegs fun k =>
    (0x200000 ≤ k && k < 0xA00000 && wideReset (k % 0x200000)) || (0x6100 ≤ k && k < 0x6300) || (0xA000 ≤ k && k < 0xA040)
  let s := (s.zero 0 0x4B000000).loadMasks
  let s := { s with
    seq := SeqState.reset, tseq := [], cores := [], col := [], lay := LayoutState.init, inbox := [], arb := []
    repair := { s.repair with testing := none }
    hcp := { HcpState.init with nextTag := s.hcp.nextTag }
    feed := FeedState.init
    boot := { s.boot with reeve := false, eth := [] }
    clk := { s.clk with rootLate := false } }
  let s := s.setMreg 7 (zeros 64)
  let s := s.wr kStartStatus (1 + b2n dimms * 2 ^ 3 + b2n s.pwr.lampsDone * 2 ^ 5 + 2 ^ 8)
  (s.clocksReset).challengeLamps

/-! ## One at a time (R581) -/

/-- An ABORT_JOB that was PENDING has finished. -/
def State.abortReplies (s : State) : State := if s.pendIs 0x0304 then s.pendingEnds stOk [] else s

/-- A reset or abort takes effect. -/
def State.applyDeferred (s : State) : Deferred → State
  | .resetModule => s.resetModule
  | .abort => (s.abort).abortReplies
  | .resetTile t => s.resetTile t

/-- What has waited for the end of a fence takes effect, in the order of acceptance; a RESET_MODULE absorbs the rest. -/
def State.runDeferred (s : State) : List Deferred → State
  | [] => s
  | d :: ds => if d = .resetModule then s.applyDeferred d else (s.applyDeferred d).runDeferred ds

/-- A reset or abort is accepted: it takes effect now, or after order 9 of the fence; a RESET_MODULE during a firmware
update once the copy being written is written, and nothing passes it (R588). -/
def State.take (s : State) (d : Deferred) : State :=
  if s.seq.deferred.contains .resetModule then s
  else if s.inFence || (d = .resetModule && s.boot.update.isSome) then
    { s with seq := { s.seq with deferred := if d = .resetModule then [.resetModule] else s.seq.deferred ++ [d] } }
  else s.runDeferred [d]

end Sys2Proof.Machine
end

