-- ==== Sys2Proof/Machine/Fence.lean ====
section
/-!
DEFINITION. Machine/Fence.lean: the start barrier, the step fence and its orders (R57 to R61), and the faults that come
from peers (R58, R64, R66).
-/
namespace Sys2Proof.Machine

open Sys2Proof

/-! ## Barrier messages (R57 to R59) -/

/-- A message disagrees with this module (R58). -/
def State.differs (s : State) (m : BarrierMsg) : Bool := m.step ≠ s.step || m.gen ≠ s.gen || m.dirGen ≠ s.dirGen

/-- Judge the messages that have come for a barrier. -/
def State.judgeCame (s : State) (phase : Nat) : State :=
  if (s.cameOf phase).any s.differs then s.faultAtOnce .stepMismatch else s

/-- The barrier whose messages are judged now: those of a layout fence are told apart by their digests only (R448). -/
def State.judgedPhase (s : State) : Option Nat :=
  if s.seq.mode = .starting then some 0
  else if s.seq.mode = .fence && s.seq.fenceOrder = 2 then some 1
  else none

/-- A barrier message has come. -/
def State.addCame (s : State) (m : BarrierMsg) : State := { s with seq := { s.seq with came := s.seq.came ++ [m] } }

/-- It is judged when this module judges its phase now. -/
def State.judgeDue (s : State) (phase : Nat) : State := if s.judgedPhase = some phase then s.judgeCame phase else s

/-- FENCE_MESSAGE: a barrier message of another module. It may come before this module reaches the barrier. -/
def execFenceMessage (phase : Fin 3) (node : BitVec 20) (step gen dirGen digest : Nat) (s : State) :
    Host.Outcome State Fault Refusal :=
  .next <|
    let n := node.toNat
    if !s.hubOn || n = s.reportNode || !nodeIn s.judgeLen n then s
    else
      let s := s.clearCame fun m => m.phase = phase.val && m.node = n
      (s.addCame ⟨phase.val, n, step, gen, dirGen, digest⟩).judgeDue phase.val

/-- Enter the start barrier of a run (R59). -/
def State.enterStart (s : State) : State :=
  (({ s with seq := { s.seq with mode := .starting } } : State).barrierOut 0).judgeCame 0

/-- START_BARRIER_COMPLETE. -/
def execStartBarrierComplete (s : State) : Host.Outcome State Fault Refusal :=
  .next <|
    if s.hubOn && s.seq.mode = .starting && s.allCame 0 then
      let s := s.clearCame (·.phase = 0)
      { s with seq := { s.seq with mode := .waitFeed, barrierAt := s.time } }
    else s

/-- Every tile has issued END, and no update block is at work (order 1). -/
def State.fenceReady (s : State) : Bool :=
  (List.range 4).all fun t => s.fabOn t && (s.tile t).phase = 5 && (s.upt t).jobs = [] &&
    (s.upt t).slots.all fun e => e.2.phase = .torn

/-- FENCE_BEGIN: the segments are sealed (order 1), and the arrival message goes out (order 2). -/
def execFenceBegin (s : State) : Host.Outcome State Fault Refusal :=
  .next <|
    if s.seq.mode = .running && s.fenceReady then
      let s := s.eachTile fun s t => s.sealSegment t
      (({ s with seq := { s.seq with mode := .fence, fenceOrder := 2 } } : State).barrierOut 1).judgeCame 1
    else s

/-! ## Orders 3 to 8 -/

def State.setOrder (s : State) (n : Nat) : State := { s with seq := { s.seq with fenceOrder := n } }

/-- The outcome of the step's FLAG_REDUCE. -/
def State.decided (s : State) : Decision := s.seq.decision.getD ⟨false, false, false⟩

/-- Order 7, with the quiet counters of R233, which precede order 8. -/
def State.order7 (s : State) : State :=
  let o := s.decided
  let s := s.quietFence.lossFence o.halve (!o.apply)
  let s := if !o.apply && !o.halve then s.raise 0x0604 0 0 s.step else s
  let n := s.step
  (s.eachTile fun s t => (s.feedRelease t n).stageEmpty t n).emptyCoal

/-- Order 8, with the counters that go with the committed step (R55, R251, R60). -/
def State.order8 (s : State) : State :=
  let o := s.decided
  let s := if o.apply then s.bumpW 48 (wideKey 0x110008) 1 else s.bumpW 32 kSkipCount 1
  let s := { s with seq := { s.seq with lastSkipped := !o.apply } }
  let left := s.rd kSeqStepsLeft
  let s := if left = 2 ^ 48 - 1 then s else s.wr kSeqStepsLeft (left - 1)
  s.wr kSeqStep ((s.step + 1) % 2 ^ 48)

/-- Orders 7 and 8 and the completion message, once every replica is refreshed (R57, orders 6 and 9). -/
def State.orders7to8 (s : State) : State :=
  if s.embm.awaited = [] then ((s.order7).order8.setOrder 8).barrierOut 2 else s.setOrder 6

/-- Orders 5 to 8, as far as the refreshes of other owners have come. -/
def State.orders5to8 (s : State) : State := (s.fenceWriteBack.refreshHot).orders7to8

/-- After a layout commit at this fence, the Step Sequencers switch slots when every tile's other program is built for the
new generation (R451). -/
def State.switchSlot (s : State) : State :=
  let ready := (List.range 4).all fun t => match (s.tile t).slotImage (!s.seq.active) with
    | some p => progGen p = s.gen
    | none => false
  if ready then { s with seq := { s.seq with active := !s.seq.active } } else s

/-- The pending change is the same on every module, and so commits at this fence (R447). -/
def State.sameChange (s : State) : Bool := s.ownDigest ≠ 0 && (s.cameOf 1).all fun m => m.digest = s.ownDigest

/-- A layout fence is in progress. -/
def State.inLayFence (s : State) : Bool := bit (s.rd kLayoutStatus) 17

/-- The RESHARD that waited for this step's commit has its answer (R444). -/
def State.reshardDone (s : State) : State :=
  if s.pendIs 0x0602 then s.pendingEnds stOk (leBytes 4 s.lay.skipped) else s

/-- A commit after its order 4: in a layout fence, or in a step's fence. -/
def State.commitRest (s : State) (b : List Byte) : State :=
  if s.inLayFence then s.layCommitted b else (s.commitEnd b).reshardDone.switchSlot.orders5to8

/-- A commit from its order 2 on (R434, R449), as far as nothing is waited for. -/
def State.commitGo (s : State) (b : List Byte) : State :=
  let hold := fun (s : State) => if s.inLayFence then s else s.setOrder 4
  if s.holdsOld then hold (s.setWaiting true)
  else
    let s := (s.setWaiting false).commitOrder3 b
    if bit (s.rd kLayoutStatus) 18 then hold s else s.commitRest b

/-- The commit of a change. -/
def State.commitBegin (s : State) (b : List Byte) : State := (if lyForce b then s.forceDiscard else s).commitGo b

/-- A commit that waits at order 2 goes on once its wait is over. -/
def State.commitOn (s : State) : State :=
  match s.lay.change with
  | some (_, b) =>
    if s.lay.waiting && (s.inLayFence || (s.seq.mode = .fence && s.seq.fenceOrder = 4)) then s.commitGo b else s
  | none => s

/-- Order 4, and the rest once no rebuild is under way. -/
def State.order4 (s : State) : State :=
  match s.lay.change with
  | some (_, b) =>
    if s.sameChange then (s.wrf kLayoutStatus 19 1 0).commitBegin b
    else ((s.wrf kLayoutStatus 19 1 1).raise 0x0804 0 0 s.step).orders5to8
  | none =>
    if (s.cameOf 1).any fun m => m.digest ≠ 0 then ((s.wrf kLayoutStatus 19 1 1).raise 0x0804 0 0 s.step).orders5to8
    else (s.wrf kLayoutStatus 19 1 0).orders5to8

/-- Order 3 ends: the change lists are applied, and the fence goes on. -/
def State.order3 (s : State) : State := s.applyChanges.order4

/-- A module's change list has come (R308). -/
def State.addList (s : State) (rank : Nat) (d p : List (Nat × Nat)) : State :=
  { s with embm := { s.embm with lists := insertRank (rank, d, p) s.embm.lists } }

/-- Order 3 runs once every module's list has come. -/
def State.listsDue (s : State) : State := if s.embm.lists.length ≥ s.modules then s.order3 else s.setOrder 3

/-- ARRIVAL_BARRIER_COMPLETE. Where change lists are exchanged, order 3 waits for those of every module (R308). -/
def execArrivalBarrierComplete (s : State) : Host.Outcome State Fault Refusal :=
  .next <|
    if s.hubOn && s.seq.mode = .fence && s.seq.fenceOrder = 2 && s.allCame 1 then
      if s.exchanges then
        let x := s.changes
        ((s.emit (.changeList x.1 x.2)).addList s.rank x.1 x.2).listsDue
      else s.order3
    else s

/-- CHANGE_LIST: another owner's list (R308). -/
def execChangeList (rank : Nat) (dem prom : List (Nat × Nat)) (s : State) : Host.Outcome State Fault Refusal :=
  .next <|
    if !s.hubOn || s.quiet || rank ≥ s.modules || rank = s.rank then s
    else
      let s := s.addList rank dem prom
      if s.seq.mode = .fence && s.seq.fenceOrder = 3 && s.embm.lists.length ≥ s.modules then s.order3 else s

/-- COMMONS_REFRESH from another owner: taken at order 6 of the fence, and kept until then when it comes before (R309).
-/
def execCommonsRefresh (table : BitVec 12) (row : BitVec 40) (bytes : List Byte) (s : State) :
    Host.Outcome State Fault Refusal :=
  .next <|
    let x := (table.toNat, row.toNat, bytes)
    if !s.hubOn || s.seq.mode ≠ .fence then s
    else if s.seq.fenceOrder = 6 then
      (if s.embm.awaited.contains (x.1, x.2.1) then (s.takeRefresh x).orders7to8 else s)
    else if s.seq.fenceOrder < 6 then { s with embm := { s.embm with early := s.embm.early ++ [x] } }
    else s

/-- LAYOUT_ARRIVAL_BARRIER: every module has arrived, or SEQ_POD_TIMEOUT has passed. -/
def execLayoutArrivalBarrier (timedOut : Bool) (s : State) : Host.Outcome State Fault Refusal :=
  .next <|
    match s.lay.change with
    | none => s
    | some (reshard, b) =>
      if !s.hubOn || !bit (s.rd kLayoutStatus) 17 || bit (s.rd kLayoutStatus) 18 || s.lay.waiting then s
      else if s.allCame 1 then
        if (s.cameOf 1).all fun m => m.digest = changeDigest b then s.commitBegin b
        else s.layFenceEnd reshard stNotReady
      else if timedOut then s.layFenceEnd reshard stNotReady
      else s

/-- REBUILD_END (R460): the bases and ranges that the peers hold, and every unit rebuilt or not reconstructed (R461). Order
4 of the commit ends with ENABLE set, and the rest goes on, in a layout fence or in a step's. -/
def execRebuildEnd (base gbase : Nat) (ranges : List (Nat × Nat)) (units : List (Nat × Recon)) (s : State) :
    Host.Outcome State Fault Refusal :=
  .next <|
    if !s.hubOn || !bit (s.rd kLayoutStatus) 18 then s
    else match s.lay.change with
      | none => s
      | some (_, b) =>
        let (n, s) := s.storeRebuilt units
        let s := s.bump (wideKey 0x130248) n
        (s.parityInstall (lyModules b) (lyRank b) base gbase ranges).commitRest b

/-! ## The end of the fence (R57, R60, R61) -/

/-- A RESET_MODULE waits for a firmware copy that is being written (R588). -/
def State.copyWrites (s : State) : Bool := s.boot.update.isSome && s.seq.deferred.contains .resetModule

/-- What has waited takes effect once neither the fence nor a firmware copy holds it (R62, R581, R588). -/
def State.lateDeferred (s : State) : State :=
  if s.inFence || s.copyWrites || s.seq.deferred = [] then s
  else
    let ds := s.seq.deferred
    ({ s with seq := { s.seq with deferred := [] } } : State).runDeferred ds

/-- The run ends with the step just committed. -/
def State.halts (s : State) : Bool :=
  let c := s.step - 1
  s.rd kSeqStepsLeft = 0 || (s.seq.haltPending && s.rd kSeqHaltAt ≤ c) || c ≥ 0xFFFFFFFFFFFE ||
  (List.range 4).any fun t => progGen (s.program t) ≠ s.gen

/-- COMPLETION_BARRIER_COMPLETE: the module waits for the next batch, or halts; then what waited for order 9 takes
effect. -/
def execCompletionBarrierComplete (s : State) : Host.Outcome State Fault Refusal :=
  .next <|
    if s.hubOn && s.seq.mode = .fence && s.seq.fenceOrder = 8 && s.allCame 2 then
      let h := s.halts
      let s := s.sample 5 0 (s.time - s.seq.barrierAt)
      let s := { s with seq := { s.seq with
        mode := if h then .idle else .waitFeed, haltPending := s.seq.haltPending && !h, fenceOrder := 0, decision := none,
        reduceIssued := false, came := s.seq.came.filter (·.phase = 0), barrierAt := s.time } }
      (s.eachTile fun s t => s.setTile t { s.tile t with phase := 0 }).lateDeferred
    else s

/-! ## Peers (R64, R66) -/

/-- A descriptor that waited for a peer completes with an error under POD_TIMEOUT. -/
def State.waitFails (s : State) (t idx : Nat) : State :=
  (s.mapFlight t idx fun i => { i with parts := 0, err := orErr i.err (some false) }).fault t .podTimeout

/-- The barrier that the module waits at. -/
def State.atBarrier (s : State) : Bool :=
  (s.seq.mode = .starting && !s.allCame 0) ||
  (s.seq.mode = .fence &&
    ((s.seq.fenceOrder = 2 && !s.allCame 1) || s.seq.fenceOrder = 3 || s.seq.fenceOrder = 6 || (s.seq.fenceOrder = 8 && !s.allCame 2)))

/-- POD_TIMEOUT: a wait for a peer exceeds SEQ_POD_TIMEOUT (R64, R298, R440). A reduction stays open (R443). -/
def execPodTimeout (w : PodWait) (s : State) : Host.Outcome State Fault Refusal :=
  .next <|
    if !s.hubOn then s
    else match w with
      | .collective t idx =>
        if s.seq.mode = .running && (s.cols t).any (fun j => j.idx = idx) && (s.flight t idx).isSome then
          (s.setCols t (((s.cols t).filter fun j => j.idx ≠ idx || j.reduces).map fun j =>
            if j.idx = idx then { j with idx := staleIdx } else j)).waitFails t idx
        else s
      | .embedding t idx =>
        if s.seq.mode = .running && (s.embt t).jobs.any (fun j => j.idx = idx) then
          (s.setEmbt t { s.embt t with jobs := (s.embt t).jobs.filter fun j => j.idx ≠ idx }).waitFails t idx
        else s
      | .flagReduce => if s.seq.mode = .running && s.flagOpen then s.faultAtOnce .podTimeout else s
      | .barrier => if s.atBarrier then (s.faultAtOnce .podTimeout).lateDeferred else s

/-- STEP_ABORT_NOTICE from another module; mixed: an outcome that applies the update was out (R66). -/
def execStepAbortNotice (mixed : Bool) (s : State) : Host.Outcome State Fault Refusal :=
  .next <|
    if !s.hubOn || s.isIdle then s
    else
      let s := s.faultAtOnce .peerFault
      ({ s with seq := { s.seq with mixed := s.seq.mixed || mixed } } : State).lateDeferred

end Sys2Proof.Machine
end

