-- ==== Sys2Proof/Machine/VeMem.lean ====
section
/-!
DEFINITION. Machine/VeMem.lean: loads, stores and the pop of the VE (R182 to R186, R192).
-/
namespace Sys2Proof.Machine

open Sys2Proof

/-- The base of a packed run: Xa + Sext(IMM[31:4]) bytes (R182). -/
def vePacked (v : VeState) (w : Nat) : W64 := v.xr (vA w) + BitVec.ofInt 64 (sext (vImm w / 16) 28)

/-- Containers into consecutive lanes, from the lane with key k. -/
def VeState.setFlat (v : VeState) (k : Nat) : List Nat → VeState
  | [] => v
  | x :: xs => { v with v := smSet 0 v.v k (BitVec.ofNat 32 x) }.setFlat (k + 1) xs

/-- R182: Xd := 8 bytes at local Xa + Sext(IMM), 8-byte aligned. -/
def execSld (c : CoreId) (s : State) : Host.Outcome State Fault Refusal :=
  .next (s.veRun c 0x1C 0 fun w s =>
    let o := (veBase (s.ve c) w).toNat
    if !(Span.mk o 8 0 64).ok 8 then .fault vfAddr false s
    else match s.veRead c o 8 with
      | (.error ue, s) => .fault (if ue then vfMemUe else vfAddr) ue s
      | (.ok bs, s) => veRegs c (fun v => v.setX (vD w) (BitVec.ofNat 64 (leNat bs))) s)

/-- R182: 8 bytes at local Xa + Sext(IMM) := Xb; no alignment is stated for it (log 32). -/
def execSst (c : CoreId) (s : State) : Host.Outcome State Fault Refusal :=
  .next (s.veRun c 0x1D 0 fun w s =>
    let o := (veBase (s.ve c) w).toNat
    if !(Span.mk o 8 0 64).ok 1 then .fault vfAddr false s
    else .next (s.veWrite c o (leBytes 8 ((s.ve c).xr (vB w)).toNat)))

/-- R182, R185: 4 bytes per active lane. -/
def execVld (c : CoreId) (s : State) : Host.Outcome State Fault Refusal :=
  .next (s.veRun c 0x20 0 fun w s =>
    veLoadV c w 4 (plainSpans (veBase (s.ve c) w) 4 ((s.ve c).active w)) s)

/-- R182, R185: 4 bytes per active lane. -/
def execVst (c : CoreId) (s : State) : Host.Outcome State Fault Refusal :=
  .next (s.veRun c 0x21 0 fun w s =>
    veStoreV c w 4 (plainSpans (veBase (s.ve c) w) 4 ((s.ve c).active w)) s)

/-- R182, R185: 2 bytes per active lane, zero-extended. -/
def execVld16 (c : CoreId) (s : State) : Host.Outcome State Fault Refusal :=
  .next (s.veRun c 0x22 0 fun w s =>
    veLoadV c w 1 (plainSpans (veBase (s.ve c) w) 2 ((s.ve c).active w)) s)

/-- R182, R185: the low 2 bytes of each active lane. -/
def execVst16 (c : CoreId) (s : State) : Host.Outcome State Fault Refusal :=
  .next (s.veRun c 0x23 0 fun w s =>
    veStoreV c w 1 (plainSpans (veBase (s.ve c) w) 2 ((s.ve c).active w)) s)

/-- R182, R185: a byte per active lane, zero-extended. -/
def execVld8 (c : CoreId) (s : State) : Host.Outcome State Fault Refusal :=
  .next (s.veRun c 0x24 0 fun w s =>
    veLoadV c w 1 (plainSpans (veBase (s.ve c) w) 1 ((s.ve c).active w)) s)

/-- R182, R185: the low byte of each active lane. -/
def execVst8 (c : CoreId) (s : State) : Host.Outcome State Fault Refusal :=
  .next (s.veRun c 0x25 0 fun w s =>
    veStoreV c w 1 (plainSpans (veBase (s.ve c) w) 1 ((s.ve c).active w)) s)

/-- R182, R183: a packed run of codes of entry IMM[3:0], zero-extended. -/
def execVldp (c : CoreId) (s : State) : Host.Outcome State Fault Refusal :=
  .next (s.veRun c 0x26 0 fun w s =>
    let f := s.fmt (vImm w % 16)
    if !f.valid then .fault vfIllegal false s
    else veLoadV c w 1 (packedSpans (vePacked (s.ve c) w) f.width ((s.ve c).active w)) s)

/-- R182 to R184: a packed run of codes; the bits of inactive elements are left unchanged. -/
def execVstp (c : CoreId) (s : State) : Host.Outcome State Fault Refusal :=
  .next (s.veRun c 0x27 0 fun w s =>
    let f := s.fmt (vImm w % 16)
    if !f.valid then .fault vfIllegal false s
    else veStoreV c w 1 (packedSpans (vePacked (s.ve c) w) f.width ((s.ve c).active w)) s)

/-- R182: each active lane from local Xa + Sext(Vb[l]). -/
def execVgather (c : CoreId) (s : State) : Host.Outcome State Fault Refusal :=
  .next (s.veRun c 0x28 0 fun w s =>
    veLoadV c w 4 (offsetSpans ((s.ve c).xr (vA w)) (s.ve c) (vB w) ((s.ve c).active w)) s)

/-- R182, R186: each active lane to local Xa + Sext(Vb[l]). -/
def execVscatter (c : CoreId) (s : State) : Host.Outcome State Fault Refusal :=
  .next (s.veRun c 0x29 0 fun w s =>
    veStoreV c w 4 (offsetSpans ((s.ve c).xr (vA w)) (s.ve c) (vB w) ((s.ve c).active w)) s)

/-- The spans that a store instruction writes, lane by lane, with their alignment; none for another instruction or one
that R185 faults. -/
def storeSpans (v : VeState) (w : Nat) (fmt : Nat → Fmt) : Option (List (Nat × Span)) :=
  let al := fun (k : Nat) (l : List (Nat × Span)) => if l.all fun e => e.2.ok k then some l else none
  match vOp w with
  | 0x1D => al 1 [(0, ⟨(veBase v w).toNat, 8, 0, 64⟩)]
  | 0x21 => al 4 (plainSpans (veBase v w) 4 (v.active w))
  | 0x23 => al 1 (plainSpans (veBase v w) 2 (v.active w))
  | 0x25 => al 1 (plainSpans (veBase v w) 1 (v.active w))
  | 0x27 => if (fmt (vImm w % 16)).valid then
      al 1 (packedSpans (vePacked v w) (fmt (vImm w % 16)).width (v.active w)) else none
  | 0x29 => al 4 (offsetSpans (v.xr (vA w)) v (vB w) (v.active w))
  | _ => none

/-- The store due on a core meets an access that completes with UE once the first lanes have been written: it faults, and
they stay written (R205). -/
def State.veStoreFails (s : State) (c lanes : Nat) : State :=
  match s.veInsn c with
  | none => s
  | some w =>
    if s.veLimit c || !veLegal w || s.fencedCore c then s
    else match storeSpans (s.ve c) w s.fmt with
      | none => s
      | some l =>
        let one := fun (e : Nat × Span) => (e.1, e.2, (s.ve c).lane (vD w) e.1)
        let s := if vOp w = 0x1D then s else (s.veStore c ((l.take lanes).map one)).2
        s.veFault c vfMemUe (s.ve c).pc (vOp w) true

/-- The POPT due on a core meets an uncorrectable error in a word of the queue head: it faults and writes no register
(R205, R557). -/
def State.veQueueFails (s : State) (c : Nat) : State :=
  match s.veInsn c with
  | none => s
  | some w =>
    if s.veLimit c || !veLegal w || vOp w ≠ 0x2B || (vD w ≠ 0 && vD w ≠ 16) || ((s.me c).entry (s.me c).head).state ≠ 3 then s
    else s.veFault c vfMemUe (s.ve c).pc 0x2B true

/-- R192: pop the queue head into 16 vector registers; wait while it is not READY (R101). -/
def execPopt (c : CoreId) (waited : Nat) (s : State) : Host.Outcome State Fault Refusal :=
  .next (s.veRun c 0x2B waited fun w s =>
    let m := s.me c
    let e := m.entry m.head
    if vD w ≠ 0 && vD w ≠ 16 then .fault vfIllegal false s
    else if e.state ≠ 3 then .wait .popt
    else
      let v := (s.ve c).setFlat (64 * vD w) e.codes
      let v := v.setX (vA w) (BitVec.ofNat 64 (e.tag + e.fmt * 2 ^ 16))
      .next ((s.setVe c v).setMe c { m.setEntry m.head QEntry.free with head := (m.head + 1) % 8 }))

end Sys2Proof.Machine
end

