-- ==== Sys2Proof/Machine/Memory.lean ====
section
/-!
DEFINITION. Machine/Memory.lean: accesses of masters and other modules (R329 to R332), the arbiters (R362 to R366), errors
found by reads and scrubs (R336 to R338, R557, R558, R596), and the parity units held for other modules (R455 to R458).
-/
namespace Sys2Proof.Machine

open Sys2Proof

/-! ## Arbitration (R362, R366) -/

/-- Nibble i of a priority register: BASE of requester i. -/
def State.baseOf (s : State) (key i : Nat) : Nat := s.rdf key (4 * i) 4

/-- BASE at a crossbar port: requester 16 has INBOUND. -/
def State.xbarBase (s : State) (t i : Nat) : Nat :=
  if i = 16 then s.rdf (tileBase t + 0x120220) 8 4 else s.baseOf (tileBase t + 0x120218) i

/-- Bank of a core SRAM address (R83), and of a Studio SRAM address (R333). -/
def coreBank (a : Nat) : Nat := fld a 6 4
def studioBank (a : Nat) : Nat := let o := (a - 0x100000000) % 0x18000000; Nat.xor (fld o 6 8) (fld o 14 8)

/-- A round at the bank that serves a local address: whether the requester wins it, and the arbiters after it. Other
memories have no bank arbiter. -/
def State.bankRound (s : State) (a req : Nat) (rivals : List Nat) : Bool × State :=
  let t := tileBase (tileOf a)
  match regionOf a with
  | .core =>
    let k := arbCore (a / 0x100000) (coreBank a)
    let (w, x) := (s.arbOf k).round (s.baseOf (t + 0x120200)) (s.rdf (t + 0x120204) 0 8) 6
      (distinct ((req :: rivals).filter (· < 6)))
    (w = some req, s.setArb k x)
  | .studio =>
    let k := arbStudio (tileOf a) (studioBank a)
    let (w, x) := (s.arbOf k).round (s.baseOf (t + 0x120208)) (s.rdf (t + 0x120210) 0 8) 11 (distinct (req :: rivals))
    (w = some req, s.setArb k x)
  | _ => (true, s)

/-- A round at a crossbar port. -/
def State.xbarRound (s : State) (x : XbarReq) : Bool × State :=
  let t := x.tile.val
  let k := arbXbar t x.port.val
  let (w, y) := (s.arbOf k).round (s.xbarBase t) (s.rdf (tileBase t + 0x120220) 0 8) 17
    (distinct (x.slot.val :: x.rivals.map (·.val)))
  (w = some x.slot.val, s.setArb k y)

/-! ## Accesses (R329 to R332, R340, R596) -/

/-- Serve an access at a local address. -/
def State.serveLocal (s : State) (a : Nat) (op : MemOp) : Code × List Byte × State :=
  match op with
  | .read n => s.busRead a n
  | .write b lost =>
    match s.busWrite false a b with
    | (.ok, s') =>
      if lost && regionOf a = .granary && b ≠ [] then
        (.ue, [], (s.undef (a / 64 * 64) (((a + b.length - 1) / 64 + 1 - a / 64) * 64)).noteUe (a / 64 * 64))
      else (.ok, [], s')
    | (c, s') => (c, [], s')

/-- Serve an access at a global address. -/
def State.serveGlobal (s : State) (g : Nat) (op : MemOp) : Code × List Byte × State :=
  match s.serve g, op with
  | .here a, _ => s.serveLocal a op
  | _, .read n => s.gRead g n
  | _, .write b _ => let (c, s) := s.gWrite false g b; (c, [], s)

/-- MEMORY_ACCESS. The requester first wins its crossbar port, if it comes through one, then the bank; one that loses a
round is not served by this command. -/
def execMemoryAccess (req : Fin 11) (gaddr : W64) (op : MemOp) (rivals : List (Fin 11)) (via : Option XbarReq) (s : State) :
    Host.Outcome State Fault Refusal :=
  .next <|
    if !s.powered || s.fencedAll || (match via with | some x => s.fencedTile x.tile.val | none => false) then s
    else
      let (go, s) := match via with
        | some x => s.xbarRound x
        | none => (true, s)
      if !go then s
      else
        let (go, s) := match s.serve gaddr.toNat with
          | .here a => s.bankRound a req (rivals.map (·.val))
          | _ => (true, s)
        if !go then s
        else
          let (c, b, s) := s.serveGlobal gaddr.toNat op
          s.emit (.access req c b)

/-- REMOTE_ACCESS: an access of another module, served as a local one (R330). -/
def execRemoteAccess (a : BitVec 44) (op : MemOp) (s : State) : Host.Outcome State Fault Refusal :=
  .next <|
    if !s.hubOn || s.fencedAll then s
    else
      let (c, b, s) := s.serveLocal a.toNat op
      s.emit (.access 255 c b)

/-- The oldest job of an Embedding Engine will complete with an error. -/
def State.embCut (s : State) (t : Nat) : State :=
  match (s.embt t).jobs with
  | [] => s
  | j :: _ => s.putJob t { j with err := orErr j.err (some false) }

/-- The Reeve's access for the command at the head of the queue: the command replies BUSY (R332). -/
def State.reeveCut (s : State) : State :=
  match s.hcp.queue with
  | [] => s
  | e :: q =>
    if s.hubOn && s.boot.reeve && reeveAccesses e.opcode then
      (s.setHcp fun h => { h with queue := q }).watchQueue.finish e false stBusy []
    else s

/-- The access of a requester at core c's SRAM has completed with CUTOFF: its engine handles the error (R105, R205, R598). -/
def State.coreCut (s : State) (c req : Nat) : State :=
  if req ≤ 1 then
    match (s.me c).reducing? with
    | some ch => s.chainFail c false ch
    | none => s
  else if req = 2 then
    match (s.me c).chains.find? (·.stage = .converting) with
    | some ch => if ch.outMode then s.chainFail c false ch else s
    | none => s
  else if req = 3 then
    match s.veInsn c with
    | some w => if veAccesses (vOp w) then s.veFault c vfAddr (s.ve c).pc (vOp w) false else s
    | none => s
  else if req = 4 then
    match (s.ve c).dma with
    | x :: _ => s.dmaEnd c x .cutoff
    | [] => s
  else s

/-- The same at the Studio SRAM of tile t (R601, R597). Of the requesters left out the spec gives no access that
stays under way between commands here, or no effect of its error (log 82). -/
def State.studioCut (s : State) (t req : Nat) : State :=
  if req = 0 then s.embCut t
  else if req = 1 then
    match (s.upt t).jobs with
    | j :: _ => (s.jobError t j.idx false).ueAdvance t
    | [] => s
  else if req = 2 then
    match (s.qzt t).run with
    | some r => s.qzFail t r ⟨false, 0, 0, ⟨0, 0, 0⟩⟩
    | none => s
  else if req = 4 then
    match s.cols t with
    | j :: _ => s.colEnd t j (some false)
    | [] => s
  else if req = 10 then s.reeveCut
  else s

/-- HOLD_CUTOFF: the grant that a requester holds at the bank of an address is cut off (R364), and the access completes
with CUTOFF (R332). -/
def execHoldCutoff (a : BitVec 44) (req : Fin 11) (s : State) : Host.Outcome State Fault Refusal :=
  .next <|
    let x := a.toNat
    let t := tileOf x
    let b := tileBase t
    let core : Bool := regionOf x = .core
    let live : Bool := (core && req.val < 6 && s.rdf (b + 0x120204) 8 16 ≠ 0) ||
      (regionOf x = .studio && s.rdf (b + 0x120210) 8 16 ≠ 0)
    if !live || !s.fabOn t then s
    else
      let v := (if core then x / 0x100000 else 0x7FF) + (if core then coreBank x else studioBank x) * 2 ^ 16 +
        req.val * 2 ^ 24 + 2 ^ 63
      let s := (s.orBits (b + 0x120228) (2 ^ (if core then req.val else 16 + req.val))).wr (b + 0x120230) v
      let s := ((s.bump (b + 0x120238) 1).raise 0x0901 1 t v).emit (.access req .cutoff [])
      if core then s.coreCut (x / 0x100000) req.val else s.studioCut t req.val

/-- WITHDRAW: the winner of a round at a crossbar port withdraws (R365). -/
def execWithdraw (x : XbarReq) (s : State) : Host.Outcome State Fault Refusal :=
  .next <|
    let t := x.tile.val
    let (won, _) := s.xbarRound x
    if !won || !s.fabOn t then s
    else
      let k := arbXbar t x.port.val
      let arb := (s.arbOf k).withdraw (s.xbarBase t) x.slot.val (distinct (x.slot.val :: x.rivals.map (·.val)))
      (s.setArb k arb).bump (tileBase t + 0x120240) 1

/-! ## Parity units held here (R455, R457) -/

/-- The memory array takes new bytes at a place that no protected range covers. -/
def State.pokeXor (s : State) (a : Nat) (x : List Byte) : State := s.poke a (xorBytes (s.bytes a x.length) x)

/-- PARITY_DELTA: a delta from another member goes into the unit (R457). -/
def execParityDelta (gran : Bool) (j off : Nat) (x : List Byte) (s : State) : Host.Outcome State Fault Refusal :=
  .next <|
    if !s.hubOn || !bit (s.rd kParityCtrl) 0 || j ≥ s.parityUnits gran || off + x.length > 4096 then s
    else s.pokeXor (s.parityAddr gran j + off) x

/-! ## Errors met by reads (R336, R337, R458, R461, R557) -/

/-- A corrected error at a local address (R336). -/
def State.noteCe (s : State) (a : Nat) : State :=
  let t := tileOf a
  let b := tileBase t
  match regionOf a with
  | .hbm => (s.bump (b + 0x120118) 1).raise 0x0401 1 t a
  | .granary => (s.bump (b + 0x120098) 1).raise 0x0404 1 t a
  | .core => s.raise 0x0406 2 (a / 0x100000) a
  | .studio => s.raise 0x0406 1 t a
  | .csr => if (ringSlotAt (a - csrBase)).isSome then s.raise 0x0406 0 0 a else s
  | .none => s

/-- The 64-byte line of an address holds an uncorrectable error: the reads that meet it complete with UE (R337, R338). -/
def State.markUe (s : State) (a : Nat) : State := { s with ue := ueSet s.ue (a / 64 * 64) 64 true }

/-- An uncorrectable read of memory: reconstructed where parity covers it, or an error that its readers meet. -/
def State.readFails (s : State) (a : Nat) (recon : Recon) : State :=
  let line := a / 64 * 64
  if s.isProtected a then
    match recon with
    | .bytes b =>
      ((s.noteUe a).poke line (slice b 0 64)).repaired a
    | .doubleLoss => (s.orBits (wideKey 0x130214) 1).markUe a
    | .stripeTorn => (s.orBits (wideKey 0x130214) 2).markUe a
  else if s.inParity a then
    match recon with
    | .bytes b => ((s.noteUe a).orBits (wideKey 0x130214) 4).poke line (slice b 0 64)
    | _ => (s.orBits (wideKey 0x130214) 4).markUe a
  else s.markUe a

/-- A read of hub SRAM fails: a slot of the event ring is marked (R557, R573). -/
def State.ringFails (s : State) (a : Nat) : Option Nat → State
  | some k =>
    let s := { s with erec := { s.erec with badSlots := k :: s.erec.badSlots.filter (· ≠ k) } }
    (s.orBits kRecSticky 2).raise 0x0407 0 0 a
  | none => s

/-- READ_COMPLETION. An uncorrectable memory error is accounted for by the reads that meet it (log 53). -/
def execReadCompletion (site : ReadSite) (e : ReadEnd) (s : State) : Host.Outcome State Fault Refusal :=
  .next <|
    if !s.powered then s
    else match site, e with
      | _, .retried => s
      | .mem a, .corrected => s.noteCe a.toNat
      | .mem a, .failed r =>
        (match regionOf a.toNat with
        | .none => s
        | .csr => s.ringFails a.toNat (ringSlotAt (a.toNat - csrBase))
        | _ => s.readFails a.toNat r)
      | .veRegs c, .corrected => s.raise 0x0406 2 c 0
      | .veRegs c, .failed _ =>
        let s := s.raise 0x0407 2 c 0
        let v := s.ve c
        (match v.run with
        | none => s
        | some _ => if v.ended then s else s.veFault c vfMemUe v.pc ((s.veInsn c).elim 0 vOp) true)
      | .meBuffer c, .corrected => s.raise 0x0406 2 c 0
      | .meBuffer c, .failed _ =>
        let s := s.raise 0x0407 2 c 0
        (match (s.me c).chains with
        | [] => s
        | ch :: _ => s.chainFail c true ch)
      | .dmaBuffer c, .corrected => s.raise 0x0406 2 c 0
      | .dmaBuffer c, .failed _ =>
        let s := s.raise 0x0407 2 c 0
        (match (s.ve c).dma with
        | [] => s
        | x :: _ => s.dmaEnd c x .ue)
      | .veStore c _, .corrected => s.raise 0x0406 2 c 0
      | .veStore c k, .failed _ => (s.raise 0x0407 2 c 0).veStoreFails c k
      | .queue c, .corrected => s.raise 0x0406 2 c 0
      | .queue c, .failed _ => (s.raise 0x0407 2 c 0).veQueueFails c
      | .table t, .corrected => s.raise 0x0406 1 t 0
      | .table t, .failed _ => (s.raise 0x0407 1 t 0).fault t .memUe

/-- PATROL_SCRUB: a scrub finds a correctable or an uncorrectable error (R558). -/
def execPatrolScrub (a : BitVec 44) (correctable : Bool) (s : State) : Host.Outcome State Fault Refusal :=
  .next <|
    let x := a.toNat
    let t := tileOf x
    let b := tileBase t
    if !s.powered || !(regionOf x = .hbm || regionOf x = .granary) then s
    else if correctable then s.noteCe x
    else if regionOf x = .hbm then ((s.wr (b + 0x120128) (2 ^ 63 + x)).raise 0x0402 1 t x).markUe x
    else
      let n := s.rdf (b + 0x1200A0) 48 15
      ((s.wr (b + 0x1200A0) (2 ^ 63 + n * 2 ^ 48 + x)).raise 0x0405 1 t x).markUe x

/-! ## Messages (R378, R397, R398) -/

/-- A whole message at this module: delivered to its engine, sent on, or lost. -/
def State.takeMessage (s : State) (p vc : Nat) (m : List Byte) : State :=
  let dest := leAt m 0 4
  let src := leAt m 4 4
  let hops := fld src 20 8 + 1
  let cls := fld dest 20 3
  match s.route dest (some (p, vc)) with
  | .deliver =>
    let i : InMsg := ⟨src % 2 ^ 20, leAt m 10 2 + (if cls = 3 then colClass else 0), leAt m 12 4, slice m 16 (leAt m 8 2)⟩
    if cls = 0 && i.typ = hcpType && bit (leAt i.body 1 1) 0 then s.relayReply i
    else { s with inbox := s.inbox ++ [i] }
  | .out q qvc d =>
    if hops ≥ 128 then s.loseMsgs p 1
    else if s.linkSt q = 4 || s.linkSt q = 5 then
      s.queueMsg q (2 * cls + qvc) (leBytes 4 d ++ leBytes 4 (src % 2 ^ 20 + hops * 2 ^ 20) ++ m.drop 8)
    else s.loseMsgs p 1
  | .unreachable => s.loseMsgs p 1

/-- MESSAGE_RECEIVED: the oldest message assembled. A reply of this module to a packet that it relayed to itself comes
back without the torus. -/
def execMessageReceived (s : State) : Host.Outcome State Fault Refusal :=
  .next <|
    if !s.hubOn then s
    else match s.net.assembled with
      | (k, n, m) :: rest =>
        (({ s with net := { s.net with assembled := rest } } : State).freeBuffers (k / 16) (k % 16) n).takeMessage (k / 16)
          (k % 16) m
      | [] =>
        match s.inbox.find? fun i => i.typ = hcpType && i.src = s.node && bit (leAt i.body 1 1) 0 with
        | some i => ({ s with inbox := s.inbox.erase i } : State).relayReply i
        | none => s

end Sys2Proof.Machine
end

