-- ==== Sys2Proof/Machine/Sessions.lean ====
section
/-!
DEFINITION. Machine/Sessions.lean: HELLO, ATTEST, the four modes of OPEN_SESSION and CLOSE_SESSION (R479, R480, R513 to
R520), and the commands that read and write registers and memory and that order accesses (R10, R480 to R483).
Signatures and the X448 check of R518 come as operands (log 40).
-/
namespace Sys2Proof.Machine

open Sys2Proof

/-- Every row of one opcode. -/
def anyBlock : List Byte → Bool := fun _ => true

/-- No domain of a list is gated (R537). -/
def State.domainsUp (s : State) (ds : List Nat) : Bool := ds.all fun d => !s.gated d
def fabDomains : List Nat := [4, 5, 6, 7]
/-- CORE, FAB, HBM and GRN of a tile. -/
def tileDomains (t : Nat) : List Nat := [t, 4 + t, 8 + t, 12 + t]
/-- FAB, HBM and GRN of every tile. -/
def memDomains : List Nat := fabDomains ++ [8, 9, 10, 11, 12, 13, 14, 15]

/-- A command that needs blocks of some domains (R537). -/
def State.needs (s : State) (ds : List Nat) (f : State → Ans) : Ans := if s.domainsUp ds then f s else s.no stNotReady

/-! ## Identity (R480, R513) -/

def State.helloData (s : State) : List Byte :=
  s.identity ++ leBytes 4 (smGet 0 s.boot.versions 2) ++ leBytes 2 1 ++ zeros 26

/-- HELLO. -/
def execHello (slow : Bool) (s : State) : Host.Outcome State Fault Refusal :=
  .next <| s.runCommand 0x0001 anyBlock slow fun _ s => (stOk, s.helloData, s)

/-- A lamp slot's 16 bytes in a report. -/
def State.lampReport (s : State) (k : Nat) : List Byte :=
  leBytes 8 (s.rd (kLamp k 0x20)) ++ leBytes 4 (s.rd (kLamp k 0x28)) ++ leBytes 1 (s.lampSt k) ++ zeros 3

/-- The DIMM records, in socket order (R483). -/
def State.dimmData (s : State) : List Byte := (List.range 16).flatMap fun i => slice (smGet (zeros 32) s.boot.dimms i) 0 32

/-- Bytes 0 to 1,935 of a report (R513). -/
def State.reportBody (s : State) (nonce : List Byte) : List Byte :=
  let v := fun k => leBytes 4 (smGet 0 s.boot.versions k)
  let fp := match s.flash.owner with | some (k, _) => slice (Config.shake256 32 k) 0 32 | none => zeros 32
  let gen := match s.flash.owner with | some (_, g) => g | none => 0
  let st := s.rd 0xC000
  let flags := b2n s.flash.owner.isSome + b2n s.boot.podSecret.isSome * 2 + fld st 2 2 * 4 +
    b2n (decide (s.repair.overlay ≠ [])) * 16
  leBytes 4 0x54525441 ++ leBytes 2 1 ++ leBytes 2 2056 ++ slice nonce 0 32 ++ slice s.flash.serial 0 12 ++ v 1 ++ v 2 ++ v 3 ++
  leBytes 8 s.time ++ (List.range 8).flatMap s.mreg ++ (List.range 8).flatMap s.lampReport ++ s.dimmData ++ fp ++
  leBytes 4 gen ++ leBytes 8 (s.rd kPodKeyId) ++ leBytes 4 flags ++ zeros 8 ++ slice s.flash.cert 0 384 ++
  slice s.boot.aliasCert 0 272

/-- ATTEST. -/
def execAttest (slow : Bool) (s : State) : Host.Outcome State Fault Refusal :=
  .next <| s.runCommand 0x0002 anyBlock slow fun e s =>
    let b := s.reportBody e.block
    (stOk, b ++ slice (Config.edSign s.boot.aliasKey (asciiPad "ZLD-ATTEST" 10) b) 0 114 ++ zeros 6, s)

/-! ## OPEN_SESSION (R515 to R520) -/

/-- The first BAD_PARAM of R518. -/
def State.openBad (s : State) (b : List Byte) : Bool :=
  let mode := leAt b 0 1
  mode > 3 || !zeroAt b 1 7 || !zeroAt b 153 7 || !zeroAt b 172 4 || !zeroAt b 290 6 || !zeroAt b 410 6 ||
  !zeroAt b 473 7 || !zeroAt b 594 6 || (if mode = 1 then s.flash.owner.isSome else s.flash.owner.isNone) ||
  ((mode = 0 || mode = 3) && !zeroAt b 416 57) || (mode ≤ 1 && !zeroAt b 480 114)

/-- The owner record after a mode (R515). -/
def State.ownerAfter (s : State) (b : List Byte) : Option (List Byte × Nat) :=
  match leAt b 0 1 with
  | 1 => some (slice b 416 57, 1)
  | 2 => some (slice b 416 57, (match s.flash.owner with | some (_, g) => (g + 1) % 2 ^ 32 | none => 1))
  | 3 => none
  | _ => s.flash.owner

/-- The owner generation in force after a mode; 0 with no owner (R516, R527). -/
def State.genAfter (s : State) (b : List Byte) : Nat := match s.ownerAfter b with | some (_, g) => g | none => 0

/-- The session idle longest, when it has been idle for 60 s. -/
def State.idlest (s : State) : Option (Nat × Session) :=
  let f := fun (a : Option (Nat × Session)) (e : Nat × Session) =>
    match a with
    | some x => if e.2.lastAt < x.2.lastAt then some e else a
    | none => some e
  match s.hcp.sessions.foldl f none with
  | some e => if s.time ≥ e.2.lastAt + 60000000000 then some e else none
  | none => none

/-- A refusal under R518. -/
def State.openRefuse (s : State) (st : Nat) : Ans :=
  let s := (s.orBits 0xC034 1).bump 0xC038 1
  (st, [], if st = stInternal then s.internal 0x0003 else s)

/-- A session id: random, not 0, and not that of an open session. -/
def State.newSessionId (s : State) (r : Nat) : Nat :=
  (((List.range 17).map fun i => (r + i) % 2 ^ 32).find? fun x => x ≠ 0 && (s.session? x).isNone).getD 1

/-- The owner record in module flash becomes o (R515). -/
def Flash.setOwner (f : Flash) (o : Option (List Byte × Nat)) : Flash := { f with owner := o }
def State.setOwner (s : State) (o : Option (List Byte × Nat)) : State := { s with flash := s.flash.setOwner o }

/-- The session opens: owner record, closed sessions, keys and reply (R515, R518 to R520). -/
def State.openGo (s : State) (b : List Byte) : Ans :=
  let mode := leAt b 0 1
  let s := if s.hcp.sessions.length ≥ 16 then
      match s.idlest with
      | some (_, x) => ((s.endSession x.id).orBits 0xC034 2).raise 0x0905 0 0 x.id
      | none => s
    else s
  let s := s.setOwner (s.ownerAfter b)
  let s := if mode ≥ 2 then s.hcp.sessions.foldl (fun s e => s.endSession e.2.id) s else s
  let (r, s) := s.random 4
  let id := s.newSessionId (leNat r)
  let (sec, s) := s.random 56
  let (nonce, s) := s.random 32
  let head := leBytes 4 id ++ zeros 4 ++ slice (Config.x448 sec []) 0 56 ++ nonce ++ slice s.flash.cert 0 384 ++
    slice s.boot.aliasCert 0 272
  let reply := head ++ slice (Config.edSign s.boot.aliasKey (asciiPad "ZLD-OPEN-R" 10) (b ++ head)) 0 114
  let z := Config.x448 sec (slice b 8 56)
  let keys := Config.shake256 128 (asciiPad "ZLD-SESS" 8 ++ z ++ Config.shake256 64 (b ++ reply))
  let n := ((List.range 16).find? fun i => s.hcp.sessions.all fun e => e.1 ≠ i).getD 0
  let x : Session :=
    { id := id, certId := leAt b 160 8, keys := keys, cmdSeq := 0, repSeq := 0, feedHigh := 0, feedSeen := [], feedOut := 0,
      lastAt := s.time }
  (stOk, reply ++ zeros 6, s.putSession n x)

/-- OPEN_SESSION in the modes that p names. cSig, cert, owner: C_SIG, CERT_SIG and OWNER_SIG verify; zOk: the X448 result
is not all zeros; flashOk: the owner record can be written. -/
def State.openSession (s : State) (p : Nat → Bool) (cSig cert owner zOk flashOk slow : Bool) : State :=
  s.runCommand 0x0003 (fun b => p (leAt b 0 1)) slow fun e s =>
    let b := e.block
    let mode := leAt b 0 1
    if s.openBad b then s.openRefuse stBadParam
    else if !cSig || !cert || (mode ≥ 2 && !owner) || leAt b 168 4 ≠ s.genAfter b || !zOk then s.openRefuse stAuthFail
    else if s.hcp.sessions.length ≥ 16 && s.idlest.isNone then s.openRefuse stLimit
    else if bit (s.rd 0xC000) 4 || (mode ≠ 0 && !flashOk) then s.openRefuse stInternal
    else s.openGo b

/-- OPEN; a MODE above 3 is refused here. -/
def execOpenSession (cSig cert owner zOk flashOk slow : Bool) (s : State) : Host.Outcome State Fault Refusal :=
  .next <| s.openSession (fun m => m = 0 || m > 3) cSig cert owner zOk flashOk slow
/-- CLAIM. -/
def execClaimSession (cSig cert owner zOk flashOk slow : Bool) (s : State) : Host.Outcome State Fault Refusal :=
  .next <| s.openSession (· = 1) cSig cert owner zOk flashOk slow
/-- TRANSFER. -/
def execTransferSession (cSig cert owner zOk flashOk slow : Bool) (s : State) : Host.Outcome State Fault Refusal :=
  .next <| s.openSession (· = 2) cSig cert owner zOk flashOk slow
/-- RELEASE. -/
def execReleaseSession (cSig cert owner zOk flashOk slow : Bool) (s : State) : Host.Outcome State Fault Refusal :=
  .next <| s.openSession (· = 3) cSig cert owner zOk flashOk slow

/-- CLOSE_SESSION: its own reply, then the end of the session with every other reply still owed in it (R479, R520). -/
def execCloseSession (s : State) : Host.Outcome State Fault Refusal :=
  .next <|
    match s.headIs 0x0004 anyBlock with
    | none => s
    | some (e, s) =>
      if s.mayRun 0x0004 then (s.finish e false stOk []).endSession e.session else s.finish e false stNotReady []

/-! ## Registers (R10, R11) -/

/-- A READ_CSR or WRITE_CSR block that names no register of CSR space. -/
def csrBlockBad (b : List Byte) : Bool :=
  let a := leAt b 0 8
  let w := leAt b 8 1
  (w ≠ 4 && w ≠ 8) || !zeroAt b 9 7 || a < csrBase || a ≥ csrBase + 2 ^ 24

/-- READ_CSR. -/
def execReadCsr (slow : Bool) (s : State) : Host.Outcome State Fault Refusal :=
  .next <| s.runCommand 0x0101 anyBlock slow fun e s =>
    let b := e.block
    if csrBlockBad b then s.no stBadParam
    else match s.csrRead (leAt b 0 8 - csrBase) (leAt b 8 1) with
      | (.ok, v) => (stOk, leBytes 8 v, s)
      | (c, _) => s.no c.status

/-- A register write's status as an answer. -/
def csrAns (r : Code × Nat × State) : Ans := (r.2.1, [], r.2.2)

/-- WRITE_CSR: the status that the register's rule gives. -/
def execWriteCsr (slow : Bool) (s : State) : Host.Outcome State Fault Refusal :=
  .next <| s.runCommand 0x0102 anyBlock slow fun e s =>
    let b := e.block
    if csrBlockBad b then s.no stBadParam
    else csrAns (s.csrWrite (leAt b 0 8 - csrBase) (leAt b 8 1) (leAt b 16 8))

/-- A section of GET_INFO (R483). -/
def State.infoSection (s : State) (n : Nat) : Option (List Byte) :=
  match n with
  | 0 => some s.helloData
  | 1 => some s.dimmData
  | 2 =>
    let l := (List.range 1200).filter s.absent
    some (leBytes 4 l.length ++ l.flatMap fun c => leBytes 2 c)
  | 3 => some ((List.range 3).flatMap fun i =>
      leBytes 1 (smGet 0 s.boot.eth i) ++ zeros 1 ++ slice (smGet [] s.flash.macs i) 0 6)
  | 4 => some ((List.range 8).flatMap fun k => leBytes 8 (s.rd (tileBase (k / 2) + 0x120108 + 8 * (k % 2))))
  | 5 => some (leBytes 8 (s.rd kLayout) ++ leBytes 4 s.layoutStatus ++ leBytes 4 (s.rd (wideKey 0x13020C)))
  | _ => none

/-- GET_INFO. -/
def execGetInfo (slow : Bool) (s : State) : Host.Outcome State Fault Refusal :=
  .next <| s.runCommand 0x0103 anyBlock slow fun e s =>
    match s.infoSection (leAt e.block 0 2) with
    | some d => if zeroAt e.block 2 6 then (stOk, d, s) else s.no stBadParam
    | none => s.no stBadParam

/-! ## Memory (R481) -/

/-- READ_MEM. -/
def execReadMem (slow : Bool) (s : State) : Host.Outcome State Fault Refusal :=
  .next <| s.runCommand 0x0201 anyBlock slow fun e s =>
    let n := leAt e.block 8 4
    if n = 0 || n > 4096 || !zeroAt e.block 12 4 then s.no stBadParam
    else match s.gReadAny (leAt e.block 0 8) n with
      | (.ok, d, s) => (stOk, d, s)
      | (c, _, s) => (c.status, [], s)

/-- WRITE_MEM. -/
def execWriteMem (slow : Bool) (s : State) : Host.Outcome State Fault Refusal :=
  .next <| s.runCommand 0x0202 anyBlock slow fun e s =>
    let (c, s) := s.gWriteAny false (leAt e.block 0 8) e.inline
    (c.status, [], s)

/-- COPY_MEM: the bytes copied, also when an access fails on the way (R359). -/
def execCopyMem (slow : Bool) (s : State) : Host.Outcome State Fault Refusal :=
  .next <| s.runCommand 0x0203 anyBlock slow fun e s =>
    let src := leAt e.block 0 8
    let dst := leAt e.block 8 8
    let n := leAt e.block 16 8
    if n < 4 || n > 2 ^ 32 - 4 || n % 4 ≠ 0 || src % 4 ≠ 0 || dst % 4 ≠ 0 then s.no stBadParam
    else
      let (c, done, s) := s.copy false src dst n
      (c.status, leBytes 8 done, s)

/-! ## Order (R361, R482) -/

/-- A scope and target of R482. -/
def scopeBad (b : List Byte) : Bool :=
  let sc := leAt b 0 1
  let tg := leAt b 2 2
  !zeroAt b 1 1 || !zeroAt b 4 4 ||
  !(if sc = 0 || sc = 3 then tg = 0 else if sc = 1 then tg < 4 else if sc = 2 then tg < 1200 else false)

/-- Every posted write is drained into the arrays (log 54). -/
def State.drain (s : State) : State := { s with posted := [] }

/-- FENCE or FLUSH has nothing more to wait for. -/
def State.orderDone (s : State) (flush : Bool) : State := if flush then s.drain else s

def State.orderCmd (s : State) (opcode : Nat) (flush slow : Bool) : State :=
  s.runCommand opcode anyBlock slow fun e s =>
    let b := e.block
    if scopeBad b then s.no stBadParam
    else if s.accessBusy (leAt b 0 1) (leAt b 2 2) then (stPending, [], s)
    else (s.orderDone flush).yes

/-- FLUSH. -/
def execFlush (slow : Bool) (s : State) : Host.Outcome State Fault Refusal := .next <| s.orderCmd 0x0204 true slow
/-- FENCE. -/
def execFence (slow : Bool) (s : State) : Host.Outcome State Fault Refusal := .next <| s.orderCmd 0x0205 false slow

end Sys2Proof.Machine
end

