-- ==== Sys2Proof/Machine/CmdStep.lean ====
section
/-!
DEFINITION. Machine/CmdStep.lean: the commands of groups 0x03 to 0x05: step programs and runs (R44 to R48, R59 to R64),
tables and rows (R283 to R286, R320, R321, R351), calibration, the loss scale, numeric flags and tracing (R217, R237,
R240, R484).
-/
namespace Sys2Proof.Machine

open Sys2Proof

/-! ## LOAD_PROGRAM (R44 to R48) -/

/-- Argument bytes of a kind that are reserved: offset and length (R46). -/
def argGaps : Nat → List (Nat × Nat)
  | 0x01 => [(4, 4), (20, 4)]
  | 0x02 => [(4, 4)]
  | 0x03 | 0x04 => [(2, 2)]
  | 0x05 => [(2, 22)]
  | 0x06 => [(2, 2), (16, 8)]
  | 0x07 => [(2, 2), (20, 4)]
  | 0x08 => [(2, 22)]
  | 0x09 | 0x0A => [(0, 8), (16, 8)]
  | 0x0B => [(1, 3)]
  | 0x0C => [(4, 4)]
  | 0x0D => [(1, 23)]
  | _ => [(0, 24)]

/-- A descriptor's own fields keep R45 and R46. -/
def descOk (d : List Byte) : Bool :=
  dKind d ≤ 15 && dFlags d < 4 && zeroAt d 3 1 && zeroAt d 6 2 && (argGaps (dKind d)).all fun g => zeroAt d (8 + g.1) g.2

/-- A kind may stand at index i of a program of n descriptors with its FLAG_REDUCE at r (R47). -/
def placeOk (n r i k : Nat) : Bool :=
  decide (k = 15 ↔ i + 1 = n) && decide (k = 14 ↔ i = r) && !([5, 11].contains k && i < r) &&
  !([1, 2, 3, 4, 6, 10].contains k && r < i)

/-- The descriptors from index i on keep R45 to R47; ctr: signals given to each counter so far. -/
def descsOk (n r : Nat) : Nat → SMap Nat → List (List Byte) → Bool
  | _, ctr, [] => ctr.all fun e => e.2 ≤ 65535
  | i, ctr, d :: ds =>
    descOk d && placeOk n r i (dKind d) && dWaitValue d ≤ smGet 0 ctr (dWaitCtr d) &&
    descsOk n r (i + 1) (if bit (dFlags d) 0 then ctr else smSet 0 ctr (dSignal d) (smGet 0 ctr (dSignal d) + 1)) ds

/-- An image that R47 accepts. -/
def progOk (p : List Byte) : Bool :=
  let n := progCount p
  let body := p.drop 64
  leAt p 0 4 = 0x53455153 && leAt p 4 2 = 1 && 3 ≤ n && n ≤ 262142 && p.length = 64 + 32 * n && crc32 body = leAt p 32 4 &&
  zeroAt p 6 2 && zeroAt p 26 2 && zeroAt p 36 28 && 0 < progBackward p && progBackward p ≤ progReduce p &&
  progReduce p < progUpdate p && progUpdate p ≤ n - 1 && descsOk n (progReduce p) 0 [] (chunks 32 n body)

/-- Put an image in a slot of a tile. -/
def State.putProgram (s : State) (t : Nat) (slot : Bool) (p : List Byte) : State :=
  s.setTile t (if slot then { s.tile t with slot1 := some p } else { s.tile t with slot0 := some p })

/-- LOAD_PROGRAM. -/
def execLoadProgram (slow : Bool) (s : State) : Host.Outcome State Fault Refusal :=
  .next <| s.runCommand 0x0301 anyBlock slow fun e s =>
    let b := e.block
    let slot : Bool := leAt b 0 1 = 1
    let mask := leAt b 1 1
    let n := leAt b 16 4
    if leAt b 0 1 > 1 || mask = 0 || mask > 15 || !zeroAt b 2 6 || !zeroAt b 20 4 || n < 64 || n > 64 + 32 * 262142 then
      s.no stBadParam
    else s.needs fabDomains fun s =>
      if slot = s.seq.active && !s.isIdle then s.no stBusy
      else match s.gRead (leAt b 8 8) n with
        | (.ok, p, s) =>
          if progOk p then (s.eachTile fun s t => if bit mask t then s.putProgram t slot p else s).yes else s.no stBadParam
        | (c, _, s) => (c.status, [], s)

/-! ## Runs (R59 to R63) -/

/-- A program names a Granary table (R59). -/
def State.namesGranary (s : State) (p : List Byte) : Bool :=
  let gran := fun (d : List Byte) => tbValid d && tbFmt d ≠ 0
  (chunks 32 (progCount p) (p.drop 64)).any fun d =>
    let t := dArg d 0 2
    if dKind d = 5 && t = 0xFFFF then s.embm.tables.any fun e => gran e.2
    else [3, 4, 5, 6].contains (dKind d) && gran (s.table t)

/-- The refusal of RUN_STEPS (R59). While FAULTED with STATE_MIXED it is STEP_FAULT, as R67 says (DEDUCED, log 55).
The loaded programs that may name a Granary table are those of the named slot (log 89). -/
def State.runRefusal (s : State) (slot : Bool) (first count : Nat) : Nat :=
  let ps := (List.range 4).map fun t => (s.tile t).slotImage slot
  if s.seq.mode = .faulted && s.seq.mixed then stStepFault
  else if !s.isIdle then stBusy
  else if ps.any (·.isNone) || (!bit (s.rd kGrnCtrl) 4 && ps.any fun p => s.namesGranary (p.getD [])) then stNotReady
  else if s.seq.mixed then stStepFault
  else if ps.any fun p => progGen (p.getD []) ≠ s.gen then stGeneration
  else if first ≠ s.step then stBadParam
  else if first + count > 0xFFFFFFFFFFFF then stLimit
  else stOk

/-- RUN_STEPS is accepted: the slot is active, and the start barrier begins (R59, R72, R306, R350). -/
def State.runGo (s : State) (slot : Bool) (first count : Nat) : State :=
  let s := s.markStale first
  let s := if s.embm.window.isNone then s.newWindow (some 0) else s
  let s := { s with seq := { s.seq with active := slot, haltPending := false, firstFault := none, fenceOrder := 0, decision := none } }
  (s.wr kSeqStepsLeft (if count = 0 then 2 ^ 48 - 1 else count)).enterStart

/-- RUN_STEPS. -/
def execRunSteps (slow : Bool) (s : State) : Host.Outcome State Fault Refusal :=
  .next <| s.runCommand 0x0302 anyBlock slow fun e s =>
    let b := e.block
    let slot : Bool := leAt b 0 1 = 1
    let first := leAt b 8 8
    let count := leAt b 16 8
    if leAt b 0 1 > 1 || !zeroAt b 1 7 then s.no stBadParam
    else s.needs fabDomains fun s =>
      let st := s.runRefusal slot first count
      if st = stOk then (s.runGo slot first count).yes else s.no st

/-- HALT_STEPS: a step number is 48 bits wide (log 55). -/
def execHaltSteps (slow : Bool) (s : State) : Host.Outcome State Fault Refusal :=
  .next <| s.runCommand 0x0303 anyBlock slow fun e s =>
    if s.isIdle then s.yes
    else ({ s with seq := { s.seq with haltPending := true } }.wr kSeqHaltAt (leAt e.block 0 8 % 2 ^ 48)).yes

/-- ABORT_JOB: one that waits for the end of a fence is PENDING (R62, R475). -/
def execAbortJob (s : State) : Host.Outcome State Fault Refusal :=
  .next <| s.runCommand 0x0304 anyBlock false fun _ s =>
    if s.inFence then (stPending, [], s.take .abort) else (s.take .abort).yes

/-- The status that a fault cause maps to (R64). -/
def Cause.status : Cause → Nat
  | .windowLate => stWindowLate
  | .torn => stTornBlock
  | _ => stStepFault

/-- Reply data of STEP_STATUS; SEQ_STATUS and PROGRAM_ID are those of tile 0 (log 55). -/
def State.statusData (s : State) : List Byte :=
  leBytes 4 (s.seqStatus 0) ++ leBytes 4 (leAt (s.program 0) 28 4) ++ leBytes 8 s.step ++ leBytes 8 (s.rd kSeqStepsLeft) ++
  leBytes 8 (s.rd kPodFlags) ++ leBytes 4 (s.rd kSeqFault) ++ leBytes 4 (s.rd kSkipCount)

/-- STEP_STATUS. -/
def execStepStatus (slow : Bool) (s : State) : Host.Outcome State Fault Refusal :=
  .next <| s.runCommand 0x0305 anyBlock slow fun _ s =>
    ((match s.seq.firstFault with | none => stOk | some c => c.status), s.statusData, s)

/-! ## Tables and rows (R283 to R286, R320, R321, R351) -/

/-- DIM and ROW_BYTES agree with the format (R141, R143, R284). -/
def rowShapeOk (fmt d bytes : Nat) : Bool :=
  if fmt = 1 then 1 ≤ d && d ≤ 1020 && bytes = rowBytes8 d else 1 ≤ d && d ≤ 510 && bytes = rowBytes16 d

/-- A descriptor that R285 accepts for a table that is not valid. -/
def State.tableFits (s : State) (d : List Byte) : Bool :=
  let n := tbRows d
  let bytes := (n + s.modules - 1) / s.modules * tbRowBytes d
  let home := if tbFmt d = 0 then Region.hbm else Region.granary
  tbValid d && leAt d 0 2 < 16 && zeroAt d 48 16 && tbFmt d ≤ 2 && rowShapeOk (tbFmt d) (tbDim d) (tbRowBytes d) &&
  1 ≤ n && n ≤ 2 ^ 40 && (tbKeying d || tbHashA d % 2 = 1) && tbOwnMul d < n && Nat.gcd (tbOwnMul d) n = 1 &&
  !(tbFresh d && tbFmt d = 0) && tbBase d % 64 = 0 && regionOf (tbBase d) = home && regionOf (tbBase d + bytes - 1) = home

def State.setTable (s : State) (n : Nat) (d : List Byte) : State :=
  { s with embm := { s.embm with tables := smPut s.embm.tables n d } }

/-- DEFINE_TABLE. -/
def execDefineTable (slow : Bool) (s : State) : Host.Outcome State Fault Refusal :=
  .next <| s.runCommand 0x0401 anyBlock slow fun e s =>
    let n := leAt e.block 0 2
    let d := slice e.block 8 64
    if n ≥ 4096 || !zeroAt e.block 2 6 then s.no stBadParam
    else s.needs fabDomains fun s =>
      if !s.isIdle then s.no stBusy
      else if tbValid (s.table n) || !s.tableFits d then s.no stBadParam
      else if tbFmt d ≠ 0 && !bit (s.rd kGrnCtrl) 4 then s.no stNotReady
      else (s.setTable n d).yes

/-- DROP_TABLE: VALID is cleared, and the rows leave the directory and the Poison List. -/
def State.dropTable (s : State) (n : Nat) : State :=
  let d := s.table n
  let s := if d = [] then s else s.setTable n (leBytes 2 (setFld (leAt d 0 2) 0 1 0) ++ d.drop 2)
  (s.dirDrop n).unpoison fun t _ => t = n

/-- DROP_TABLE. -/
def execDropTable (slow : Bool) (s : State) : Host.Outcome State Fault Refusal :=
  .next <| s.runCommand 0x0402 anyBlock slow fun e s =>
    let n := leAt e.block 0 2
    if n ≥ 4096 || !zeroAt e.block 2 6 then s.no stBadParam
    else s.needs fabDomains fun s =>
      if !s.isIdle then s.no stBusy
      else if s.journalHolds n then s.no stNotReady
      else (s.dropTable n).yes

/-- RESTORE_ROW. -/
def execRestoreRow (slow : Bool) (s : State) : Host.Outcome State Fault Refusal :=
  .next <| s.runCommand 0x0403 anyBlock slow fun e s =>
    let n := leAt e.block 0 2
    let r := leAt e.block 8 8
    let d := s.table n
    if !zeroAt e.block 2 6 then s.no stBadParam
    else s.needs fabDomains fun s =>
      if !s.quiet then s.no stBusy
      else if !s.tableOk n || r ≥ tbRows d || s.owner d r ≠ s.rank || e.inline.length ≠ tbRowBytes d then s.no stBadParam
      else match s.memWrite true (s.home d r) e.inline with
        | (.ok, s) =>
          let was := s.isPoisoned n r
          let t := s.serving d r
          let s := (s.restage t 0 n r e.inline).restage t 1 n r e.inline
          (stOk, leBytes 4 (b2n was), (s.dropDeltas n r).unpoison fun t x => t = n && x = r)
        | (c, s) => (c.status, [], s)

/-- HOTROW_POLICY (R321). -/
def State.hotPolicy (s : State) (en window promote demote slot : Nat) : State :=
  let old := s.rd (wideKey 0x100018)
  let s := ((s.wrf (wideKey 0x100000) 0 1 en).wr (wideKey 0x100004) window).wr (wideKey 0x100008) (promote + demote * 2 ^ 16)
  let s := s.wr (wideKey 0x100018) slot
  let s := if en = 0 || slot ≠ old then s.emptyDir else s
  s.newWindow (some 0)

/-- HOTROW_POLICY. -/
def execHotrowPolicy (slow : Bool) (s : State) : Host.Outcome State Fault Refusal :=
  .next <| s.runCommand 0x0404 anyBlock slow fun e s =>
    let b := e.block
    let en := leAt b 0 1
    let slot := leAt b 8 2
    if en > 1 || !zeroAt b 1 1 || !zeroAt b 10 6 then s.no stBadParam
    else s.needs fabDomains fun s =>
      if !s.isIdle then s.no stBusy
      else if leAt b 2 2 = 0 || slot % 64 ≠ 0 || slot < 64 || slot > 1024 then s.no stBadParam
      else (s.hotPolicy en (leAt b 2 2) (leAt b 4 2) (leAt b 6 2) slot).yes

/-- FLUSH_JOURNAL. -/
def execFlushJournal (slow : Bool) (s : State) : Host.Outcome State Fault Refusal :=
  .next <| s.runCommand 0x0405 anyBlock slow fun _ s => s.needs memDomains fun s =>
    if !s.quiet then s.no stBusy
    else
      let (n, s) := s.writeBack s.step s.step fun _ => true
      (stOk, leBytes 8 n, s)

/-! ## Calibration, loss scale, numeric flags, tracing -/

/-- The 8-byte entries of LOAD_CALIBRATION's data. -/
def calEntries (b : List Byte) (n : Nat) : List W64 := (chunks 8 n b).map fun x => BitVec.ofNat 64 (leNat x)

/-- LOAD_CALIBRATION (R217). -/
def execLoadCalibration (slow : Bool) (s : State) : Host.Outcome State Fault Refusal :=
  .next <| s.runCommand 0x0501 anyBlock slow fun e s =>
    let b := e.block
    let first := leAt b 0 2
    let n := leAt b 2 2
    let src := leAt b 8 8
    if !zeroAt b 4 4 then s.no stBadParam
    else s.needs fabDomains fun s =>
      if !s.isIdle then s.no stBusy
      else if first + n > 16384 then s.no stBadParam
      else match (if src = 0 then (.ok, e.inline, s) else s.gRead src (8 * n) : Code × List Byte × State) with
        | (.ok, d, s) =>
          let l := calEntries d n
          if l.all fun x => x.toNat < 2 ^ 33 then (s.putCal first l).yes else s.no stBadParam
        | (c, _, s) => (c.status, [], s)

/-- SET_LOSS_SCALE (R237). -/
def execSetLossScale (slow : Bool) (s : State) : Host.Outcome State Fault Refusal :=
  .next <| s.runCommand 0x0502 anyBlock slow fun e s =>
    let b := e.block
    let x := sext (leAt b 0 1) 8
    let lo := sext (leAt b 1 1) 8
    let hi := sext (leAt b 2 1) 8
    if !zeroAt b 3 1 then s.no stBadParam
    else s.needs fabDomains fun s =>
      if !s.isIdle then s.no stBusy
      else if -126 ≤ lo && lo ≤ x && x ≤ hi then (s.setLoss x lo hi (leAt b 4 4)).yes
      else s.no stBadParam

/-- A scope and target of R484. -/
def flagScopeBad (b : List Byte) : Bool :=
  let sc := leAt b 0 1
  let tg := leAt b 2 2
  !zeroAt b 1 1 || !zeroAt b 4 4 || !(if sc = 0 then tg < 1200 else if sc = 1 then tg < 4 else sc = 2 && tg = 0)

/-- Cores and tiles in a scope of R484. -/
def flagCores (sc tg : Nat) : List Nat := if sc = 0 then [tg] else if sc = 1 then (List.range 300).map (300 * tg + ·) else List.range 1200
def flagTiles (sc tg : Nat) : List Nat := if sc = 0 then [] else if sc = 1 then [tg] else [0, 1, 2, 3]

/-- OR of a register over units. -/
def State.orOver (s : State) (key : Nat → Nat) (l : List Nat) : Nat := l.foldl (fun a i => Nat.lor a (s.rd (key i))) 0

/-- The 32 bytes of READ_NUMERIC_FLAGS (R484). -/
def State.flagData (s : State) (sc tg : Nat) : List Byte :=
  let cs := flagCores sc tg
  let ts := flagTiles sc tg
  let tile := fun o => leBytes 4 (s.orOver (fun t => tileBase t + o) ts)
  leBytes 4 (s.orOver (fun c => coreBase c + 0x80) cs) ++ leBytes 4 (s.orOver (fun c => coreBase c + 0x108) cs) ++
  tile 0x140014 ++ tile 0x11001C ++ tile 0x100044 ++ tile 0x130228 ++
  leBytes 4 (if sc = 0 then 0 else s.rd (wideKey 0x140110)) ++ zeros 4

/-- The blocks that a scope needs; a core that is absent has none (R81). -/
def State.scopeStatus (s : State) (sc tg : Nat) : Nat :=
  if sc = 0 && s.absent tg then stBadParam
  else if s.domainsUp (if sc = 0 then [4 + tg / 300] else if sc = 1 then [4 + tg] else fabDomains) then stOk
  else stNotReady

/-- READ_NUMERIC_FLAGS. -/
def execReadNumericFlags (slow : Bool) (s : State) : Host.Outcome State Fault Refusal :=
  .next <| s.runCommand 0x0503 anyBlock slow fun e s =>
    let sc := leAt e.block 0 1
    let tg := leAt e.block 2 2
    if flagScopeBad e.block then s.no stBadParam
    else if s.scopeStatus sc tg ≠ stOk then s.no (s.scopeStatus sc tg)
    else (stOk, s.flagData sc tg, s)

/-- ME_NUM_FIRST forgets its chain with its register (R167). -/
def State.clearFirst (s : State) (c : Nat) : State :=
  ((s.wr (coreBase c + 0x84) 0).wr (coreBase c + 0x10C) 0).setMe c { s.me c with firstBy := none }

/-- CLEAR_NUMERIC_FLAGS (R484). -/
def State.clearFlags (s : State) (sc tg : Nat) : State :=
  let s := (flagCores sc tg).foldl (fun s c => (s.wr (coreBase c + 0x80) 0).wr (coreBase c + 0x108) 0) s
  let s := (flagTiles sc tg).foldl (fun s t =>
    (((s.wr (tileBase t + 0x140014) 0).wr (tileBase t + 0x11001C) 0).wr (tileBase t + 0x100044) 0).wr (tileBase t + 0x130228) 0) s
  if sc = 0 then s.clearFirst tg else s.wr (wideKey 0x140110) 0

/-- CLEAR_NUMERIC_FLAGS. -/
def execClearNumericFlags (slow : Bool) (s : State) : Host.Outcome State Fault Refusal :=
  .next <| s.runCommand 0x0504 anyBlock slow fun e s =>
    let sc := leAt e.block 0 1
    let tg := leAt e.block 2 2
    if flagScopeBad e.block then s.no stBadParam
    else if s.scopeStatus sc tg ≠ stOk then s.no (s.scopeStatus sc tg)
    else (s.clearFlags sc tg).yes

/-- A write of the register at an offset of CSR space, if there is one. -/
def State.putReg (s : State) (off v : Nat) : State :=
  match regFind off with
  | some r => (s.csrPut off r v).2
  | none => s

/-- TRACE_CONFIG: the four registers of every tile (R240). -/
def execTraceConfig (slow : Bool) (s : State) : Host.Outcome State Fault Refusal :=
  .next <| s.runCommand 0x0505 anyBlock slow fun e s =>
    let b := e.block
    if !zeroAt b 20 4 then s.no stBadParam
    else s.needs fabDomains fun s =>
      let s := (s.putReg (tileBase 0 + 0x141000) (leAt b 0 4)).putReg (tileBase 0 + 0x141004) (leAt b 4 4)
      (s.eachTile fun s t =>
        (s.putReg (tileBase t + 0x141008) (leAt b 8 8)).putReg (tileBase t + 0x141010) (leAt b 16 4)).yes

end Sys2Proof.Machine
end

