-- ==== Sys2Proof/Machine/CmdState.lean ====
section
/-!
DEFINITION. Machine/CmdState.lean: the commands of groups 0x08 and 0x09: records and monitors (R560 to R571), checkpoint
streams (R270 to R272, R485), torn blocks (R268) and firmware (R586 to R589).
-/
namespace Sys2Proof.Machine

open Sys2Proof

/-! ## Records and monitors -/

/-- READ_RECORDS. -/
def execReadRecords (slow : Bool) (s : State) : Host.Outcome State Fault Refusal :=
  .next <| s.runCommand 0x0801 anyBlock slow fun e s => s.cmdReadRecords e.block
/-- CLEAR_STICKY. -/
def execClearSticky (slow : Bool) (s : State) : Host.Outcome State Fault Refusal :=
  .next <| s.runCommand 0x0802 anyBlock slow fun e s => s.cmdClearSticky e.block
/-- MONITOR_CONFIG. -/
def execMonitorConfig (slow : Bool) (s : State) : Host.Outcome State Fault Refusal :=
  .next <| s.runCommand 0x0803 anyBlock slow fun e s => s.cmdMonitorConfig e.block
/-- MONITOR_READ. -/
def execMonitorRead (slow : Bool) (s : State) : Host.Outcome State Fault Refusal :=
  .next <| s.runCommand 0x0804 anyBlock slow fun e s => s.cmdMonitorRead e.block

/-! ## EXPORT_STATE (R270, R271, R485) -/

/-- A block that R485 refuses with BAD_PARAM. -/
def State.exportBad (s : State) (b : List Byte) : Bool :=
  leAt b 0 1 > 1 || leAt b 2 1 > 1 || !zeroAt b 3 1 || (leAt b 0 1 = 0 && leAt b 4 2 ≠ 0) || !zeroAt b 6 2 || !zeroAt b 12 4 ||
  (leAt b 2 1 = 0 && leAt b 24 8 ≠ 0) || (s.exportUnits b).isNone

/-- Reply data: units exported, and torn records among them. -/
def State.exportData (s : State) (b : List Byte) : List Byte := leBytes 4 (leAt b 8 4) ++ leBytes 4 (s.tornAmong b)

/-- Write a stream to memory, 64 bytes at a time. -/
def State.putStream (s : State) (g : Nat) : List (List Byte) → Code × State
  | [] => (.ok, s)
  | b :: bs =>
    match s.gWriteAny false g b with
    | (.ok, s) => s.putStream (g + b.length) bs
    | (c, s) => (c, s)

/-- EXPORT_STATE: to memory at once, or to the feed as credits come (R495). -/
def execExportState (slow : Bool) (s : State) : Host.Outcome State Fault Refusal :=
  .next <| s.runCommand 0x0901 anyBlock slow fun e s => s.needs fabDomains fun s =>
    let b := e.block
    let tb := leAt b 4 2
    if !s.quiet then s.no stBusy
    else if s.exportBad b then s.no stBadParam
    else if leAt b 0 1 = 1 && tbFmt (s.table tb) ≠ 0 && s.journalHolds tb then s.no stNotReady
    else if leAt b 2 1 = 0 then
      let old := s.feed.exports.filter fun x => x.entry.tag ≠ e.tag
      (stPending, [], { s with feed := { s.feed with exports := old ++ [⟨e, 0, 0, none⟩] } })
    else match s.exportStream b with
      | (.ok, st, s) =>
        (match s.putStream (leAt b 24 8) (chunks 64 (st.length / 64 + 1) st) with
        | (.ok, s) => (stOk, s.exportData b, s)
        | (c, s) => (c.status, [], s))
      | (c, _, s) => (c.status, [], s)

/-! ## IMPORT_STATE (R272) -/

/-- Where the units of a stream go: its header h and the address or slot named; none: refused. A stream of rows must fit
its table (DEDUCED, log 56). -/
def State.importPlan (s : State) (h : List Byte) (first : Nat) : Option (List Nat) :=
  let n := leAt h 8 4
  let bytes := leAt h 12 4
  let r := leAt h 7 1
  let tb := leAt h 28 2
  if leAt h 0 4 ≠ 0x53544558 || leAt h 4 2 ≠ 1 || !zeroAt h 30 34 then none
  else if leAt h 6 1 = 0 then
    (if tb ≠ 0 || r ≥ 32 || !s.recValid r || s.recBytes r ≠ bytes || bytes = 0 then none
     else some ((List.range n).map fun k => first + k * bytes))
  else if leAt h 6 1 = 1 then
    let d := s.table tb
    (if !s.tableOk tb || tbRowBytes d ≠ bytes || first + n > (tbRows d + s.modules - 1) / s.modules then none
     else some ((List.range n).map fun k => tbBase d + (first + k) * bytes))
  else none

/-- Record tags of a stream that R272 refuses. -/
def tagsBad (units : List (List Byte)) : Bool := units.any fun u => 2 ≤ fld (leAt u 0 8) 16 2

/-- Store the units; records release their torn slots. -/
def State.putUnits (s : State) (records : Bool) : List (Nat × List Byte) → State
  | [] => s
  | (a, u) :: us =>
    let s := if records then s.releaseTorn a u.length true else s
    (s.store a u).putUnits records us

/-- The first access code other than OK of the places units go to. -/
def State.placesCode (s : State) (n : Nat) : List Nat → Code
  | [] => .ok
  | a :: as => if s.accessCode a n = .ok then s.placesCode n as else s.accessCode a n

/-- IMPORT_STATE. -/
def execImportState (slow : Bool) (s : State) : Host.Outcome State Fault Refusal :=
  .next <| s.runCommand 0x0902 anyBlock slow fun e s => s.needs fabDomains fun s =>
    let g := leAt e.block 0 8
    if !s.quiet then s.no stBusy
    else match s.gRead g 64 with
      | (.ok, h, s) =>
        let n := leAt h 8 4
        let bytes := leAt h 12 4
        (match s.importPlan h (leAt e.block 8 8) with
        | none => s.no stBadParam
        | some as =>
          match s.gRead (g + 64) (n * bytes) with
          | (.ok, d, s) =>
            let units := chunks bytes n d
            if crc32 d ≠ leAt h 24 4 || (leAt h 6 1 = 0 && tagsBad units) then s.no stBadParam
            else if s.placesCode bytes as ≠ .ok then s.no (s.placesCode bytes as).status
            else (stOk, leBytes 4 n, s.putUnits (leAt h 6 1 = 0) (as.zip units))
          | (c, _, s) => (c.status, [], s))
      | (c, _, s) => (c.status, [], s)

/-! ## ACCEPT_TORN (R268) -/

/-- Torn blocks of the module: tile, staging slot and block. -/
def State.tornBlocks (s : State) : List (Nat × Nat × UeSlot) :=
  (List.range 4).flatMap fun t => ((s.upt t).slots.filter fun e => e.2.phase = .torn).map fun e => (t, e.1, e.2)

/-- Accept them one after another: blocks accepted, and the address of the first that stays torn. -/
def State.acceptAll (s : State) : List (Nat × Nat × UeSlot) → Nat × Option Nat × State
  | [] => (0, none, s)
  | (t, i, x) :: l =>
    match s.acceptTorn t i x with
    | (true, s) => let (n, f, s) := s.acceptAll l; (n + 1, f, s)
    | (false, s) => let (n, _, s) := s.acceptAll l; (n, some x.record, s)

/-- ACCEPT_TORN. -/
def execAcceptTorn (slow : Bool) (s : State) : Host.Outcome State Fault Refusal :=
  .next <| s.runCommand 0x0903 anyBlock slow fun e s => s.needs fabDomains fun s =>
    let a := leAt e.block 0 8
    let l := s.tornBlocks.filter fun x => a = 2 ^ 64 - 1 || x.2.2.record = a
    if !s.quiet then s.no stBusy
    else if l = [] then s.no stBadParam
    else
      let (n, left, s) := s.acceptAll l
      ((if left.isSome then stTornBlock else stOk), leBytes 4 n ++ zeros 4 ++ leBytes 8 (left.getD 0), s)

/-! ## UPDATE_FIRMWARE (R586 to R589) -/

def kFwUpdate : Nat := 0xC608

/-- Largest body of a kind (R587). -/
def flashArea (kind : Nat) : Nat := (if kind = 2 then 16 else if kind = 3 || kind = 4 then 8 else 1) * 2 ^ 20

/-- An image header that R507 allows. -/
def imageOk (h : List Byte) : Bool :=
  leAt h 0 4 = 0x4D524946 && leAt h 4 2 = 1 && 1 ≤ leAt h 6 1 && leAt h 6 1 ≤ 5 && zeroAt h 7 1 && zeroAt h 137 7 &&
  zeroAt h 258 6 && zeroAt h 378 6

/-- UPDATE_FIRMWARE: always PENDING once accepted. verified: both signatures verify and DIGEST agrees. -/
def execUpdateFirmware (verified : Bool) (s : State) : Host.Outcome State Fault Refusal :=
  .next <| s.runCommand 0x0904 anyBlock false fun e s =>
    let n := leAt e.block 8 4
    if !zeroAt e.block 12 4 then s.no stBadParam
    else if !s.quiet then s.no stBusy
    else if n < 384 then s.no stBadLength
    else match s.gRead (leAt e.block 0 8) 384 with
      | (.ok, h, s) =>
        if !imageOk h then s.no stBadParam
        else if n ≠ 384 + leAt h 12 4 then s.no stBadLength
        else if leAt h 12 4 > flashArea (leAt h 6 1) then s.no stLimit
        else
          (match s.gRead (leAt e.block 0 8) n with
          | (.ok, img, s) =>
            if !verified then s.no stAuthFail
            else
              let s := s.wr kFwUpdate (1 + leAt h 6 1 * 2 ^ 4 + leAt h 8 4 * 2 ^ 32)
              (stPending, [], { s with boot := { s.boot with update := some (img, true, false) } })
          | (c, _, s) => (c.status, [], s))
      | (c, _, s) => (c.status, [], s)

def State.setUpdate (s : State) (u : Option (List Byte × Bool × Bool)) : State := { s with boot := { s.boot with update := u } }

/-- A copy is written and verified: copy A follows copy B, unless a RESET_MODULE waits (R588). -/
def State.copyGood (s : State) (img : List Byte) (b : Bool) : State :=
  let s := (s.setImage img b img).wrf kFwUpdate (if b then 2 else 3) 1 1
  if s.seq.deferred.contains .resetModule then ((s.setUpdate none).wrf kFwUpdate 0 2 (if b then 3 else 2)).lateDeferred
  else if b then s.setUpdate (some (img, false, false))
  else ((s.setUpdate none).wrf kFwUpdate 0 2 2).pendingEnds stOk []

/-- A copy does not verify after writing: once more, and then INTERNAL. What flash then holds is undefined. -/
def State.copyBad (s : State) (img : List Byte) (b again : Bool) : State :=
  let (junk, s) := s.takeFree img.length
  let s := s.setImage img b junk
  if !again then s.setUpdate (some (img, b, true))
  else
    let s := ((s.setUpdate none).wrf kFwUpdate 0 2 3).internal 0x0904
    (if s.pendIs 0x0904 then s.pendingEnds stInternal [] else s).lateDeferred

/-- FIRMWARE_COPY_WRITTEN. ok: the copy verifies. -/
def execFirmwareCopyWritten (ok : Bool) (s : State) : Host.Outcome State Fault Refusal :=
  .next <|
    match s.boot.update with
    | none => s
    | some (img, b, again) => if !s.hubOn then s else if ok then s.copyGood img b else s.copyBad img b again

end Sys2Proof.Machine
end

