-- ==== Sys2Proof/Machine/CmdPod.lean ====
section
/-!
DEFINITION. Machine/CmdPod.lean: the commands of groups 0x06, 0x07 and 0x0A: layout changes (R444 to R448), memory digests
(R273 to R276), links (R406), parity (R456 to R461), clocks and power (R539, R549), lamps (R421, R426), resets (R582,
R583), and the end of a PENDING command (R475).
-/
namespace Sys2Proof.Machine

open Sys2Proof

/-! ## SET_LAYOUT and RESHARD (R444 to R448) -/

/-- A change is accepted: a layout fence begins, or the change is pending (R446). A module named in REPLACED takes
TARGET_GEN − 1 as its generation (R445). One that becomes pending replies at once, but for a RESHARD with moves: its answer counts
those skipped at the commit (log 57). -/
def State.takeChange (s : State) (reshard : Bool) (b : List Byte) : Ans :=
  let s := if reshard && ownReplaced b then s.wrf kLayoutStatus 0 16 ((lyGen b + 2 ^ 16 - 1) % 2 ^ 16) else s
  let s := s.changeGone
  let s := { s with lay := { s.lay with change := some (reshard, b) } }
  if s.quiet then (stPending, [], s.layFenceStart)
  else if reshard && lyMoves b ≠ 0 then (stPending, [], s)
  else (stOk, if reshard then zeros 4 else [], s)

def State.layoutCmd (s : State) (reshard : Bool) : State :=
  s.runCommand (if reshard then 0x0602 else 0x0601) anyBlock false fun e s => s.needs fabDomains fun s =>
    let st := s.layoutRefusal reshard e.block
    if st = stOk then s.takeChange reshard e.block
    else (st, if st = stBusyReducing then leBytes 4 s.openCount else [], s)

/-- SET_LAYOUT. -/
def execSetLayout (s : State) : Host.Outcome State Fault Refusal := .next <| s.layoutCmd false
/-- RESHARD. -/
def execReshard (s : State) : Host.Outcome State Fault Refusal := .next <| s.layoutCmd true

/-! ## DIGEST_CHECK (R273 to R276) -/

/-- Digests of the 4 KiB blocks of a range's bytes. -/
def blockDigests (b : List Byte) : List (List Byte) := (chunks 4096 (b.length / 4096) b).map fun x => slice (Config.shake256 8 x) 0 8

/-- A module's coordinate on an axis. -/
def State.coord (s : State) (axis : Nat) : Nat := coordOf s.node axis

/-- The digest of a chunk, over its block digests. -/
def chunkDigest (d : List (List Byte)) : List Byte := slice (Config.shake256 8 d.flatten) 0 8

def State.putChunks (s : State) (c : Nat) (d : List (List Byte)) : State :=
  { s with lay := { s.lay with digests := smPut s.lay.digests c d } }
def State.putBlocks (s : State) (c k : Nat) (d : List (List Byte)) : State :=
  { s with lay := { s.lay with blocks := smPut s.lay.blocks (65536 * c + k) d } }
def State.dropDigests (s : State) : State := { s with lay := { s.lay with digests := [], blocks := [], sent := false } }

/-- Every module of a line has joined: its chunk digests are here. -/
def State.allJoined (s : State) (axis : Nat) : Bool :=
  (List.range (s.layoutLen axis)).all fun c => s.lay.digests.any fun e => e.1 = c

/-- The chunks of n blocks that differ somewhere on a line of l modules. -/
def State.badChunks (s : State) (l n : Nat) : List Nat :=
  (List.range ((n + 255) / 256)).filter fun k =>
    let d := (List.range l).map fun c => (smGet [] s.lay.digests c).getD k []
    d.any fun x => x ≠ d.headD []

/-- The block digests of every differing chunk are here too. -/
def State.digestsReady (s : State) (axis n : Nat) : Bool :=
  let l := s.layoutLen axis
  s.allJoined axis && (s.badChunks l n).all fun k => (List.range l).all fun c => s.lay.blocks.any fun e => e.1 = 65536 * c + k

/-- Once every module has joined, this one sends its block digests of the chunks that differ. -/
def State.digestTurn (s : State) (axis n : Nat) : State :=
  if s.lay.sent || !s.allJoined axis then s
  else
    (s.badChunks (s.layoutLen axis) n).foldl
      (fun s k => s.emit (.digests axis (some k) (smGet [] s.lay.blocks (65536 * s.coord axis + k))))
      { s with lay := { s.lay with sent := true } }

/-- This module joins with the digests of its blocks, and sends those of their chunks. -/
def State.digestJoin (s : State) (axis : Nat) (d : List (List Byte)) : State :=
  let ks := chunks 256 d.length d
  let s := (withIdx ks 0).foldl (fun s e => s.putBlocks (s.coord axis) e.1 e.2) s
  ((s.putChunks (s.coord axis) (ks.map chunkDigest)).emit (.digests axis none (ks.map chunkDigest))).digestTurn axis d.length

/-- DIGEST_CHECK: the module joins; the reply comes when the digests that the line exchanges are here. -/
def execDigestCheck (s : State) : Host.Outcome State Fault Refusal :=
  .next <| s.runCommand 0x0603 anyBlock false fun e s =>
    let b := e.block
    let axis := leAt b 0 1
    let base := leAt b 8 8
    let n := leAt b 16 8
    if !zeroAt b 1 7 then s.no stBadParam
    else if !s.quiet then s.no stBusy
    else if axis > 3 || s.layoutLen axis = 1 || base % 4096 ≠ 0 || n % 4096 ≠ 0 || n > 2 ^ 36 then s.no stBadParam
    else match s.memRead base n with
      | (.ok, d, s) => (stPending, [], s.digestJoin axis (blockDigests d))
      | (c, _, s) => (c.status, [], s)

/-- DIGEST_MESSAGE: the digests of the chunks, or of the blocks of one chunk, of the peer at a coordinate of the line. It
may come before the command. -/
def execDigestMessage (coord : Fin 32) (m : DigestMsg) (s : State) :
    Host.Outcome State Fault Refusal :=
  .next <|
    if !s.hubOn then s
    else
      match m with
      | .blocks k d => s.putBlocks coord k (d.map fun x => slice x 0 8)
      | .chunks d =>
        let s := s.putChunks coord (d.map fun x => slice x 0 8)
        match s.hcp.pend with
        | some ⟨e, none⟩ =>
          if e.opcode = 0x0603 then s.digestTurn (leAt e.block 0 1) (leAt e.block 16 8 / 4096) else s
        | _ => s

/-- Block i's digest on each module of a line. -/
def State.digestsOf (s : State) (l i : Nat) : List (List Byte) :=
  (List.range l).map fun c => (smGet [] s.lay.blocks (65536 * c + i / 256)).getD (i % 256) []

/-- DISSENT and FLAGS of a differing block (R275). -/
def dissent (ds : List (List Byte)) : Nat × Nat :=
  let l := ds.length
  let mask := fun (good : List Byte) => (withIdx ds 0).foldl (fun m e => if e.2 ≠ good then m + 2 ^ e.1 else m) 0
  if l = 2 then (2, 2)
  else match ds.find? fun x => 2 * ds.count x > l with
    | some x => (mask x, 0)
    | none => (mask (ds.headD []), 1)

/-- The differing blocks of a check of n blocks, in ascending order. -/
def State.differing (s : State) (l n : Nat) : List Nat :=
  ((s.badChunks l n).flatMap fun k => (List.range (min 256 (n - 256 * k))).map (256 * k + ·)).filter fun i =>
    (s.digestsOf l i).any fun x => x ≠ (s.digestsOf l i).headD []

/-- The check ends: an event for each differing block, and the reply (R275, R276). -/
def State.digestDone (s : State) (axis base n : Nat) : State :=
  let l := s.layoutLen axis
  let bad := s.differing l (n / 4096)
  let entry := fun (i : Nat) =>
    let (m, f) := dissent (s.digestsOf l i)
    leBytes 8 (base + 4096 * i) ++ leBytes 4 m ++ leBytes 2 f ++ zeros 2
  let data := leBytes 4 bad.length ++ (bad.take 64).flatMap entry
  let s := bad.foldl (fun s i => s.raise 0x0801 0 0 (base + 4096 * i)) s
  s.dropDigests.pendingEnds stOk data

/-- DIGEST_JOIN_TIMEOUT. -/
def execDigestJoinTimeout (s : State) : Host.Outcome State Fault Refusal :=
  .next <|
    match s.hcp.pend with
    | some ⟨e, none⟩ =>
      if s.hubOn && e.opcode = 0x0603 && !s.allJoined (leAt e.block 0 1) then
        s.dropDigests.pendingEnds stNotReady []
      else s
    | _ => s

/-! ## LINK_STATUS (R406) -/

/-- A port's 64-byte record. -/
def State.linkRecord (s : State) (p : Nat) : List Byte :=
  leBytes 1 p ++ zeros 3 ++ leBytes 4 (s.rd (kLnkStatus p)) ++ leBytes 8 (s.rd (kLnk p 8)) ++ leBytes 8 (s.rd (kLnk p 0x10)) ++
  leBytes 4 (s.rd (kLnk p 0x18)) ++ leBytes 4 (s.rd (kLnk p 0x1C)) ++ leBytes 8 (s.rd (kLnkCount p 2)) ++
  leBytes 8 (s.rd (kLnkCount p 3)) ++ leBytes 8 (s.rd (kLnkCount p 5)) ++ leBytes 8 (s.rd (kLnkCount p 8))

/-- The port by which a command came: the one that leads back to its sender (DEDUCED, log 57). -/
def State.cameBy (s : State) (v : Via) : Option Nat :=
  match v with
  | .udp _ _ _ => none
  | .torus node _ => match s.route node none with | .out p _ _ => some p | _ => none

/-- The action on one port. -/
def State.linkAct (s : State) (act p : Nat) : State :=
  if act = 1 then s.lnkRetrain p else if act = 2 then s.lnkEnable p false else if act = 3 then s.lnkEnable p true else s

def maskPorts (b : List Byte) : List Nat := (List.range 8).filter (bit (leAt b 0 1))

/-- The refusal of LINK_STATUS. -/
def State.linkRefusal (s : State) (b : List Byte) : Nat :=
  let act := leAt b 1 1
  if leAt b 0 1 = 0 || act > 3 || !zeroAt b 2 6 then stBadParam
  else if s.gated 16 || (act ≠ 0 && (maskPorts b).any fun p => !s.portOn p) then stNotReady
  else if act = 2 && !s.quiet then stBusy
  else stOk

/-- LINK_STATUS of one action: the port by which the command came acts after the reply. -/
def State.linkCmd (s : State) (p : Nat → Bool) : State :=
  match s.headIs 0x0604 fun b => p (leAt b 1 1) with
  | none => s
  | some (e, s) =>
    let act := leAt e.block 1 1
    let st := if s.mayRun 0x0604 then s.linkRefusal e.block else stNotReady
    if st ≠ stOk then s.finish e false st []
    else
      let late := s.cameBy e.via
      let ps := maskPorts e.block
      let s := (ps.filter fun p => late ≠ some p).foldl (fun s p => s.linkAct act p) s
      let s := s.finish e false stOk (ps.flatMap s.linkRecord)
      (ps.filter fun p => late = some p).foldl (fun s p => s.linkAct act p) s

/-- LINK_STATUS with ACTION 0; an ACTION above 3 is refused here. -/
def execLinkStatus (s : State) : Host.Outcome State Fault Refusal := .next <| s.linkCmd fun a => a = 0 || a > 3
/-- LINK_STATUS with ACTION 1. -/
def execLinkStatusRetrain (s : State) : Host.Outcome State Fault Refusal := .next <| s.linkCmd (· = 1)
/-- LINK_STATUS with ACTION 2. -/
def execLinkStatusDisable (s : State) : Host.Outcome State Fault Refusal := .next <| s.linkCmd (· = 2)
/-- LINK_STATUS with ACTION 3. -/
def execLinkStatusEnable (s : State) : Host.Outcome State Fault Refusal := .next <| s.linkCmd (· = 3)

/-! ## PARITY_CONFIG (R453 to R461) -/

def pcRanges (b : List Byte) : List (Nat × Nat) := (List.range (leAt b 1 1)).map fun i => (leAt b (24 + 16 * i) 8, leAt b (32 + 16 * i) 8)

/-- Two ranges of bytes share one. -/
def meet (x y : Nat × Nat) : Bool := x.1 < y.1 + y.2 && y.1 < x.1 + x.2

def noMeet : List (Nat × Nat) → Bool
  | [] => true
  | x :: xs => !xs.any (meet x) && noMeet xs

/-- A range of R456. -/
def rangeOk (r : Nat × Nat) : Bool :=
  r.1 % 4096 = 0 && r.2 % 4096 = 0 && r.2 > 0 && (regionOf r.1 = .hbm || regionOf r.1 = .granary) &&
  regionOf (r.1 + r.2 - 1) = regionOf r.1

/-- 4 KiB units of the ranges in one memory. -/
def unitsIn (gran : Bool) (rs : List (Nat × Nat)) : Nat :=
  rs.foldl (fun n r => if decide (regionOf r.1 = .granary) = gran then n + r.2 / 4096 else n) 0

/-- The parity areas of a CONFIGURE: base and bytes. -/
def State.parityAreas (s : State) (b : List Byte) : List (Nat × Nat) :=
  let n := (parityGroup s.modules (parityK s.modules) s.rank).2
  let area := fun (gran : Bool) (base : Nat) =>
    let u := unitsIn gran (pcRanges b)
    if u = 0 then [] else [(base, (u + n - 2) / (n - 1) * 4096)]
  area false (leAt b 8 8) ++ area true (leAt b 16 8)

/-- The BAD_PARAM of a CONFIGURE. -/
def State.configureBad (s : State) (b : List Byte) : Bool :=
  let rs := pcRanges b
  let g := unitsIn true rs
  leAt b 1 1 = 0 || leAt b 1 1 > 32 || s.modules ≤ 64 || !rs.all rangeOk ||
  leAt b 8 8 % 65536 ≠ 0 || regionOf (leAt b 8 8) ≠ .hbm ||
  (if g = 0 then leAt b 16 8 ≠ 0 else leAt b 16 8 % 65536 ≠ 0 || regionOf (leAt b 16 8) ≠ .granary) ||
  (s.parityAreas b).any (fun a => regionOf (a.1 + a.2 - 1) ≠ regionOf a.1) || !noMeet (rs ++ s.parityAreas b)

/-- A row of PARITY_CONFIG. -/
def State.parityCmd (s : State) (p : Nat → Bool) (slow : Bool) (f : List Byte → State → Ans) : State :=
  s.runCommand 0x0605 (fun b => p (leAt b 0 1)) slow fun e s =>
    if leAt e.block 0 1 > 2 || !zeroAt e.block 2 6 then s.no stBadParam
    else s.needs fabDomains fun s => f e.block s

/-- CONFIGURE: PENDING until the parity units are complete. An ACTION above 2 is refused here. -/
def execParityConfigure (s : State) : Host.Outcome State Fault Refusal :=
  .next <| s.parityCmd (fun a => a = 0 || a > 2) false fun b s =>
    if s.configureBad b then s.no stBadParam
    else if !s.isIdle then s.no stBusy
    else if unitsIn true (pcRanges b) ≠ 0 && !bit (s.rd kGrnCtrl) 4 then s.no stNotReady
    else (stPending, [], s)

/-- A range lies wholly in the protected ranges. -/
def State.allProtected (s : State) (a : Nat) : Nat → Bool
  | 0 => true
  | n + 1 => s.isProtected a && s.allProtected (a + 4096) n

/-- Reconstruct a protected range (R459): its units, torn slots and poisoned rows. -/
def State.parityRepair (s : State) (base len : Nat) (units : List (List Byte)) : State :=
  let n := len / 4096
  let s := (List.range n).foldl (fun s i => s.poke (base + 4096 * i) (slice (units.getD i []) 0 4096)) s
  let torn := s.tornBlocks.filter fun x =>
    base ≤ x.2.2.record && x.2.2.record + s.recBytes x.2.2.recipe ≤ base + len
  let s := torn.foldl (fun s x => s.releaseTorn x.2.2.record 1 false) s
  let s := s.bump (wideKey 0x130240) n
  s.unpoison fun t r => let h := s.home (s.table t) r; base ≤ h && h < base + len

/-- REPAIR. units: the reconstructed units; lost: reconstruction fails, on a double loss or (true) on a torn stripe. A
range that parity does not cover is refused with BAD_PARAM (log 58). -/
def execParityRepair (units : List (List Byte)) (lost : Option Bool) (slow : Bool) (s : State) :
    Host.Outcome State Fault Refusal :=
  .next <| s.parityCmd (· = 1) slow fun b s =>
    let (base, len) := (pcRanges b).headD (0, 0)
    if leAt b 1 1 ≠ 1 || !rangeOk (base, len) || !s.allProtected base (len / 4096) then s.no stBadParam
    else if !s.quiet then s.no stBusy
    else if regionOf base = .granary && !bit (s.rd kGrnCtrl) 4 then s.no stNotReady
    else match lost with
      | some torn => (stPoisoned, [], s.orBits (wideKey 0x130214) (if torn then 2 else 1))
      | none => (stOk, leBytes 8 (len / 4096), s.parityRepair base len units)

/-- DISABLE. -/
def execParityDisable (slow : Bool) (s : State) : Host.Outcome State Fault Refusal :=
  .next <| s.parityCmd (· = 2) slow fun b s =>
    if leAt b 1 1 ≠ 0 then s.no stBadParam
    else if !s.isIdle then s.no stBusy
    else (s.wrf kParityCtrl 0 1 0).yes

/-- PARITY_JOIN_TIMEOUT. -/
def execParityJoinTimeout (s : State) : Host.Outcome State Fault Refusal :=
  .next <| if s.hubOn && s.pendIs 0x0605 then s.pendingEnds stNotReady [] else s

/-! ## SET_CLOCK_SOURCE and SET_PERF_POINT (R539, R549) -/

/-- The refusal of SET_CLOCK_SOURCE. -/
def State.clockRefusal (s : State) (b : List Byte) : Nat :=
  let d := leAt b 0 1
  let src := leAt b 1 1
  if d > 17 || src > 1 || (src = 1 && d < 16) || !zeroAt b 2 6 then stBadParam
  else if !s.srcReady (if src = 0 then 3 else 2) || !s.srcReady 1 then stClockNotReady
  else if src = 0 && s.gated d then stNotReady
  else if d = 16 && !s.quiet then stBusy
  else stOk

/-- SET_CLOCK_SOURCE. -/
def execSetClockSource (slow : Bool) (s : State) : Host.Outcome State Fault Refusal :=
  .next <| s.runCommand 0x0701 anyBlock slow fun e s =>
    let st := s.clockRefusal e.block
    if st = stOk then (s.switchDomain (leAt e.block 0 1) (leAt e.block 1 1)).yes else s.no st

/-- SET_PERF_POINT. -/
def execSetPerfPoint (slow : Bool) (s : State) : Host.Outcome State Fault Refusal :=
  .next <| s.runCommand 0x0702 anyBlock slow fun e s =>
    let lim := leAt e.block 0 2
    let pt := leAt e.block 2 1
    if (lim ≠ 0 && (lim < 600 || lim > 1900)) || (pt ≠ 0xFF && pt > 15) || !zeroAt e.block 3 5 then s.no stBadParam
    else
      let s := if lim = 0 then s else s.wrf kPwrCtrl 0 12 lim
      (if pt = 0xFF then s else s.askCap pt).yes

/-! ## Lamps (R421, R426) -/

/-- A slot's 64-byte record. -/
def State.lampRecord (s : State) (k : Nat) : List Byte :=
  let w := fun o => leBytes 4 (s.rd (kLamp k o))
  leBytes 1 k ++ zeros 3 ++ w 0 ++ w 4 ++ w 8 ++ w 0xC ++ w 0x10 ++ w 0x14 ++ zeros 4 ++ leBytes 8 (s.rd (kLamp k 0x18)) ++
  leBytes 8 (s.rd (kLamp k 0x20)) ++ w 0x28 ++ zeros 12

/-- LAMP_STATUS. -/
def execLampStatus (slow : Bool) (s : State) : Host.Outcome State Fault Refusal :=
  .next <| s.runCommand 0x0703 anyBlock slow fun e s =>
    let ks := (List.range 8).filter (bit (leAt e.block 0 1))
    if ks = [] || !zeroAt e.block 1 7 then s.no stBadParam else (stOk, ks.flatMap s.lampRecord, s)

/-- FORCE: the lamp goes dark at once, and a lit partner to RAISED (R421; DEDUCED, log 59). -/
def State.forceDark (s : State) (k : Nat) : State :=
  let q := partner k
  let s := (s.ramp k 0 true).endRamp k
  if s.lampSt q = 4 then s.ramp q 2 false else s.pairDark (k / 2)

/-- A LAMP_RETIRE block that is refused before any other check. -/
def State.retireBad (s : State) (b : List Byte) : Bool :=
  let k := leAt b 0 1
  k > 7 || leAt b 1 1 > 1 || !zeroAt b 2 6 || [0, 2, 5].contains (s.lampSt k)

/-- LAMP_RETIRE: it waits while its pair is ramping; without FORCE it is PENDING until its own ramp ends. -/
def execLampRetire (s : State) : Host.Outcome State Fault Refusal :=
  .next <|
    match s.headIs 0x0704 anyBlock with
    | none => s
    | some (e, _) =>
      let k := leAt e.block 0 1
      if !s.retireBad e.block && (s.ramping k || s.ramping (partner k)) then s
      else s.runCommand 0x0704 anyBlock false fun e s =>
        let b := e.block
        if s.retireBad b then s.no stBadParam
        else if !s.lampOn k then s.no stNotReady
        else if bit (leAt b 1 1) 0 then (if s.quiet then (s.forceDark k).yes else s.no stBusy)
        else if s.lampSt k = 4 && s.lampSt (partner k) = 4 then
          (stPending, [], (s.ramp (partner k) 2 false).ramp k 0 true)
        else s.no stNotReady

/-! ## Resets (R582, R583) -/

/-- RESET_TILE: the reply first. -/
def execResetTile (s : State) : Host.Outcome State Fault Refusal :=
  .next <|
    match s.headIs 0x0A01 anyBlock with
    | none => s
    | some (e, s) =>
      let t := leAt e.block 0 1
      if !s.mayRun 0x0A01 then s.finish e false stNotReady []
      else if t > 3 || !zeroAt e.block 1 7 then s.finish e false stBadParam []
      else if !s.domainsUp (tileDomains t) then s.finish e false stNotReady []
      else (s.finish e false stOk []).take (.resetTile t)

/-- RESET_MODULE: the reply first; queued commands are dropped and sessions close on acceptance. -/
def execResetModule (s : State) : Host.Outcome State Fault Refusal :=
  .next <|
    match s.headIs 0x0A02 anyBlock with
    | none => s
    | some (e, s) =>
      if !s.mayRun 0x0A02 then s.finish e false stNotReady []
      else if !s.srcReady 3 then s.finish e false stClockNotReady []
      else
        let s := s.finish e false stOk []
        ({ s with hcp := { HcpState.init with nextTag := s.hcp.nextTag }, feed := { s.feed with last := none, exports := [] } }
          : State).take .resetModule

/-! ## PENDING_COMMAND_COMPLETE (R475) -/

/-- CONFIGURE has its parity units: held, one after another, those in HBM first; the units come from other members'
data. -/
def State.parityReady (s : State) (b : List Byte) (held : List (List Byte)) : Option State :=
  let t := s.parityInstall s.modules s.rank (leAt b 8 8) (leAt b 16 8) (pcRanges b)
  let n := t.parityUnits false
  if held.length = n + t.parityUnits true && held.all (fun u => u.length = 4096) then
    some ((withIdx held 0).foldl (fun (t : State) (e : Nat × List Byte) =>
      t.poke (if e.1 < n then t.parityAddr false e.1 else t.parityAddr true (e.1 - n)) e.2) t)
  else none

/-- The PENDING command has come to its end, if it has: its final status, data and state. -/
def State.pendingResult (s : State) (p : PendCmd) (held : List (List Byte)) : Option Ans :=
  let b := p.entry.block
  match p.result with
  | some (st, d) => some (st, d, s)
  | none =>
    match p.entry.opcode with
    | 0x0204 => if s.accessBusy (leAt b 0 1) (leAt b 2 2) then none else some (s.orderDone true).yes
    | 0x0205 => if s.accessBusy (leAt b 0 1) (leAt b 2 2) then none else some s.yes
    | 0x0603 => if s.digestsReady (leAt b 0 1) (leAt b 16 8 / 4096) then
        (let t := s.digestDone (leAt b 0 1) (leAt b 8 8) (leAt b 16 8)
         match t.hcp.pend with
         | some ⟨_, some (st, d)⟩ => some (st, d, t)
         | _ => none)
      else none
    | 0x0605 => (s.parityReady b held).map fun t => t.yes
    | 0x0704 => let k := leAt b 0 1
      if s.ramping k then none else some (if s.lampSt k = 5 then s.yes else s.no stNotReady)
    | _ => none

/-- PENDING_COMMAND_COMPLETE: the FINAL reply of the PENDING command once it has finished. -/
def execPendingCommandComplete (held : List (List Byte)) (s : State) : Host.Outcome State Fault Refusal :=
  .next <|
    match s.hcp.pend with
    | none => s
    | some p =>
      if !s.hubOn then s
      else match s.pendingResult p held with
        | none => s
        | some (st, d, s) => ((s.setHcp fun h => { h with pend := none }).finish p.entry true st d).embPump

end Sys2Proof.Machine
end

