-- ==== Sys2Proof/Machine/VeFloat.lean ====
section
/-!
DEFINITION. Machine/VeFloat.lean: FP32 arithmetic, conversions and reductions of the VE (R183, R187 to R191).
-/
namespace Sys2Proof.Machine

open Sys2Proof

/-- One level of the tree of R190. -/
def treeLevel : List W32 → List W32 × NFlags
  | a :: b :: r =>
    let (x, f) := fadd a b
    let (xs, g) := treeLevel r
    (x :: xs, f ||| g)
  | r => (r, 0)

def treeSum : Nat → List W32 → NFlags → W32 × NFlags
  | 0, xs, f => (xs.headD 0, f)
  | n + 1, xs, f => let (ys, g) := treeLevel xs; treeSum n ys (f ||| g)

/-- FREDSUM: an inactive lane enters as −0; with no active lane the result is +0 (R190). -/
def fredsum (xs : List (Option W32)) : W64 × NFlags :=
  if xs.all (·.isNone) then (0, 0)
  else let (x, f) := treeSum 6 (xs.map fun x => x.getD 0x80000000#32) 0; (x.setWidth 64, f)

/-- FREDMIN (lo = true) and FREDMAX (R191). -/
def fredext (lo : Bool) (xs : List (Option W32)) : W64 × NFlags :=
  match xs.filterMap id with
  | [] => ((inf32 (!lo)).setWidth 64, 0)
  | y :: ys =>
    let (x, f) := ys.foldl (fun (a : W32 × NFlags) b => let (z, g) := fminmax lo a.1 b; (z, a.2 ||| g))
      (if (f32 y).isNan then nan32 else (y, 0))
    (x.setWidth 64, f)

/-- R187: Vd := Va + Vb. -/
def execFadd (c : CoreId) (s : State) : Host.Outcome State Fault Refusal :=
  .next (s.veRun c 0x30 0 (veLane2 c fadd))

/-- R187: Vd := Va − Vb. -/
def execFsub (c : CoreId) (s : State) : Host.Outcome State Fault Refusal :=
  .next (s.veRun c 0x31 0 (veLane2 c fsub))

/-- R187: Vd := Va × Vb. -/
def execFmul (c : CoreId) (s : State) : Host.Outcome State Fault Refusal :=
  .next (s.veRun c 0x32 0 (veLane2 c fmul))

/-- R187: Vd := Va × Vb + Vc, rounded once. -/
def execFfma (c : CoreId) (s : State) : Host.Outcome State Fault Refusal :=
  .next (s.veRun c 0x33 0 (veLane3 c ffma))

/-- R187, R188: Vd := Va / Vb. -/
def execFdiv (c : CoreId) (s : State) : Host.Outcome State Fault Refusal :=
  .next (s.veRun c 0x34 0 (veLane2 c fdiv))

/-- R187, R188: Vd := √Va. -/
def execFsqrt (c : CoreId) (s : State) : Host.Outcome State Fault Refusal :=
  .next (s.veRun c 0x35 0 (veLane1 c fsqrt))

/-- R182, R188: the smaller of Va and Vb. -/
def execFmin (c : CoreId) (s : State) : Host.Outcome State Fault Refusal :=
  .next (s.veRun c 0x36 0 (veLane2 c (fminmax true)))

/-- R182, R188: the larger of Va and Vb. -/
def execFmax (c : CoreId) (s : State) : Host.Outcome State Fault Refusal :=
  .next (s.veRun c 0x37 0 (veLane2 c (fminmax false)))

/-- R182: bit [31] of Va cleared; no flag. -/
def execFabs (c : CoreId) (s : State) : Host.Outcome State Fault Refusal :=
  .next (s.veRun c 0x38 0 (veLane1 c fun a => (a &&& 0x7FFFFFFF#32, 0)))

/-- R182: bit [31] of Va inverted; no flag. -/
def execFneg (c : CoreId) (s : State) : Host.Outcome State Fault Refusal :=
  .next (s.veRun c 0x39 0 (veLane1 c fun a => (a ^^^ 0x80000000#32, 0)))

/-- R187: 2^Va within 1 ulp. -/
def execFexp2 (c : CoreId) (s : State) : Host.Outcome State Fault Refusal :=
  .next (s.veRun c 0x3A 0 (veLane1 c fexp2))

/-- R187, R188: log2 Va within 1 ulp. -/
def execFlog2 (c : CoreId) (s : State) : Host.Outcome State Fault Refusal :=
  .next (s.veRun c 0x3B 0 (veLane1 c flog2))

/-- R187, R188: 1 / √Va within 1 ulp. -/
def execFrsqrt (c : CoreId) (s : State) : Host.Outcome State Fault Refusal :=
  .next (s.veRun c 0x3C 0 (veLane1 c frsqrt))

/-- R182: Md bit l := Va[l] = Vb[l]. -/
def execFcmpeq (c : CoreId) (s : State) : Host.Outcome State Fault Refusal :=
  .next (s.veRun c 0x3D 0 (veCompare c fcmpeq))

/-- R182: Md bit l := Va[l] < Vb[l]. -/
def execFcmplt (c : CoreId) (s : State) : Host.Outcome State Fault Refusal :=
  .next (s.veRun c 0x3E 0 (veCompare c fcmplt))

/-- R182: Md bit l := Va[l] ≤ Vb[l]. -/
def execFcmple (c : CoreId) (s : State) : Host.Outcome State Fault Refusal :=
  .next (s.veRun c 0x3F 0 (veCompare c fcmple))

/-- R183: from Palette entry IMM[3:0] to entry IMM[7:4]. -/
def execCvt (c : CoreId) (s : State) : Host.Outcome State Fault Refusal :=
  .next (s.veRun c 0x50 0 fun w s =>
    let f := s.fmt (vImm w % 16)
    let g := s.fmt (vImm w / 16 % 16)
    if vImm w / 16 % 16 = 10 || !f.valid || !g.valid then .fault vfIllegal false s
    else veLane1 c (fun a =>
      let (x, fl) := decodeCode f a.toNat
      let (y, gl) := convert g none x
      (BitVec.ofNat 32 y, fl ||| gl)) w s)

/-- R183: the FP32 product, formed exactly, converted once to entry IMM[7:4]. -/
def execCvts (c : CoreId) (s : State) : Host.Outcome State Fault Refusal :=
  .next (s.veRun c 0x51 0 fun w s =>
    let g := s.fmt (vImm w / 16 % 16)
    if vImm w % 16 ≠ 0 || vImm w / 16 % 16 = 10 || !g.valid then .fault vfIllegal false s
    else veLane2 c (fun a b =>
      let p := (f32 a).mul (f32 b)
      let (y, gl) := convert g none p
      (BitVec.ofNat 32 y, gl ||| flagIf p.isNan fInv)) w s)

/-- R189: FP32 to INT32. -/
def execFcvti (c : CoreId) (s : State) : Host.Outcome State Fault Refusal :=
  .next (s.veRun c 0x52 0 (veLane1 c fcvti))

/-- R187: INT32 to FP32. -/
def execIcvtf (c : CoreId) (s : State) : Host.Outcome State Fault Refusal :=
  .next (s.veRun c 0x53 0 (veLane1 c icvtf))

/-- R190: the sum of the active lanes by the six-level tree. -/
def execFredsum (c : CoreId) (s : State) : Host.Outcome State Fault Refusal :=
  .next (s.veRun c 0x60 0 (veReduce c fredsum))

/-- R191: the largest active lane. -/
def execFredmax (c : CoreId) (s : State) : Host.Outcome State Fault Refusal :=
  .next (s.veRun c 0x61 0 (veReduce c (fredext false)))

/-- R191: the smallest active lane. -/
def execFredmin (c : CoreId) (s : State) : Host.Outcome State Fault Refusal :=
  .next (s.veRun c 0x62 0 (veReduce c (fredext true)))

end Sys2Proof.Machine
end

