-- ==== Sys2Proof/Machine/VeInt.lean ====
section
/-!
DEFINITION. Machine/VeInt.lean: integer lane operations, compares and reductions of the VE (R182, R189, R191).
-/
namespace Sys2Proof.Machine

open Sys2Proof

/-- IADDS: saturation sets INT_SATURATE and OVERFLOW (R189). -/
def iadds (a b : W32) : W32 × NFlags :=
  let z := a.toInt + b.toInt
  if z > 2147483647 then (0x7FFFFFFF#32, fIsat ||| fOvf)
  else if z < -2147483648 then (0x80000000#32, fIsat ||| fOvf)
  else (BitVec.ofInt 32 z, 0)

/-- R189: Va + Vb modulo 2^32. -/
def execIadd (c : CoreId) (s : State) : Host.Outcome State Fault Refusal :=
  .next (s.veRun c 0x40 0 (veLane2 c (noFlag fun a b => a + b)))

/-- R189: Va − Vb modulo 2^32. -/
def execIsub (c : CoreId) (s : State) : Host.Outcome State Fault Refusal :=
  .next (s.veRun c 0x41 0 (veLane2 c (noFlag fun a b => a - b)))

/-- R189: Va × Vb modulo 2^32. -/
def execImul (c : CoreId) (s : State) : Host.Outcome State Fault Refusal :=
  .next (s.veRun c 0x42 0 (veLane2 c (noFlag fun a b => a * b)))

/-- R189: Va + Vb saturated. -/
def execIadds (c : CoreId) (s : State) : Host.Outcome State Fault Refusal :=
  .next (s.veRun c 0x43 0 (veLane2 c iadds))

/-- R182: signed minimum. -/
def execImin (c : CoreId) (s : State) : Host.Outcome State Fault Refusal :=
  .next (s.veRun c 0x44 0 (veLane2 c (noFlag fun a b => if b.slt a then b else a)))

/-- R182: signed maximum. -/
def execImax (c : CoreId) (s : State) : Host.Outcome State Fault Refusal :=
  .next (s.veRun c 0x45 0 (veLane2 c (noFlag fun a b => if a.slt b then b else a)))

/-- R182: Va and Vb. -/
def execVand (c : CoreId) (s : State) : Host.Outcome State Fault Refusal :=
  .next (s.veRun c 0x46 0 (veLane2 c (noFlag fun a b => a &&& b)))

/-- R182: Va or Vb. -/
def execVor (c : CoreId) (s : State) : Host.Outcome State Fault Refusal :=
  .next (s.veRun c 0x47 0 (veLane2 c (noFlag fun a b => a ||| b)))

/-- R182: Va exclusive-or Vb. -/
def execVxor (c : CoreId) (s : State) : Host.Outcome State Fault Refusal :=
  .next (s.veRun c 0x48 0 (veLane2 c (noFlag fun a b => a ^^^ b)))

/-- R182: Va shifted left by Vb[l] mod 32. -/
def execVshl (c : CoreId) (s : State) : Host.Outcome State Fault Refusal :=
  .next (s.veRun c 0x49 0 (veLane2 c (noFlag fun a b => a <<< (b.toNat % 32))))

/-- R182: Va shifted right logically by Vb[l] mod 32. -/
def execVshr (c : CoreId) (s : State) : Host.Outcome State Fault Refusal :=
  .next (s.veRun c 0x4A 0 (veLane2 c (noFlag fun a b => a >>> (b.toNat % 32))))

/-- R182: Va shifted right arithmetically by Vb[l] mod 32. -/
def execVsra (c : CoreId) (s : State) : Host.Outcome State Fault Refusal :=
  .next (s.veRun c 0x4B 0 (veLane2 c (noFlag fun a b => a.sshiftRight (b.toNat % 32))))

/-- R182: Md bit l := Va[l] = Vb[l]. -/
def execIcmpeq (c : CoreId) (s : State) : Host.Outcome State Fault Refusal :=
  .next (s.veRun c 0x4C 0 (veCompare c fun a b => a = b))

/-- R182: Md bit l := Va[l] < Vb[l], signed. -/
def execIcmplt (c : CoreId) (s : State) : Host.Outcome State Fault Refusal :=
  .next (s.veRun c 0x4D 0 (veCompare c fun a b => a.slt b))

/-- R189: Va + IMM modulo 2^32. -/
def execIaddi (c : CoreId) (s : State) : Host.Outcome State Fault Refusal :=
  .next (s.veRun c 0x4E 0 fun w s => veLane1 c (fun a => (a + BitVec.ofNat 32 (vImm w), 0)) w s)

/-- R182: the exact signed 64-bit sum of the active lanes. -/
def execIredsum (c : CoreId) (s : State) : Host.Outcome State Fault Refusal :=
  .next (s.veRun c 0x63 0 (veReduce c fun xs =>
    (BitVec.ofInt 64 ((xs.filterMap id).foldl (fun z x => z + x.toInt) 0), 0)))

/-- R191: the signed maximum of the active lanes. -/
def execIredmax (c : CoreId) (s : State) : Host.Outcome State Fault Refusal :=
  .next (s.veRun c 0x64 0 (veReduce c fun xs =>
    (((xs.filterMap id).foldl (fun z x => if z.slt x then x else z) 0x80000000#32).signExtend 64, 0)))

/-- R191: the signed minimum of the active lanes. -/
def execIredmin (c : CoreId) (s : State) : Host.Outcome State Fault Refusal :=
  .next (s.veRun c 0x65 0 (veReduce c fun xs =>
    (((xs.filterMap id).foldl (fun z x => if x.slt z then x else z) 0x7FFFFFFF#32).signExtend 64, 0)))

end Sys2Proof.Machine
end

