-- ==== Sys2Proof/Machine/VePerm.lean ====
section
/-!
DEFINITION. Machine/VePerm.lean: selection, permutation, mask registers and the counter generator of the VE (R182, R198 to R201).
-/
namespace Sys2Proof.Machine

open Sys2Proof

/-- Word i of lane l's counter (R198, R200). -/
def laneWord (s : State) (v : VeState) (w l purpose i : Nat) : W32 :=
  let xc := (v.xr (vC w)).toNat
  BitVec.ofNat 32 (counterWord (s.rd kJobSeed) (((v.xr (vA w)).toNat + l) % 2 ^ 48) (fld xc 0 16) s.step purpose
    (fld xc 16 12) i)

/-- R182: Va[l] where the mask bit is 1, else Vb[l]; all lanes are written. -/
def execVsel (c : CoreId) (s : State) : Host.Outcome State Fault Refusal :=
  .next (s.veRun c 0x58 0 fun w s =>
    veRegs c (fun v => v.setLanes (vD w) ((List.range 64).map fun l =>
      (l, if (v.mr (vMask w)).getLsbD l then v.lane (vA w) l else v.lane (vB w) l))) s)

/-- R182: Vd[l] := Va[Vb[l] mod 64]. -/
def execVperm (c : CoreId) (s : State) : Host.Outcome State Fault Refusal :=
  .next (s.veRun c 0x59 0 fun w s =>
    veLanes c w (fun v l => (v.lane (vA w) ((v.lane (vB w) l).toNat % 64), 0)) s)

/-- R182: Vd[l] := Va[(l + Xb) mod 64]. -/
def execVrot (c : CoreId) (s : State) : Host.Outcome State Fault Refusal :=
  .next (s.veRun c 0x5A 0 fun w s =>
    veLanes c w (fun v l => (v.lane (vA w) ((l + (v.xr (vB w)).toNat) % 64), 0)) s)

/-- R182: Xd := Va[IMM[5:0]], zero-extended. -/
def execVgetl (c : CoreId) (s : State) : Host.Outcome State Fault Refusal :=
  .next (s.veRun c 0x5B 0 fun w s =>
    veRegs c (fun v => v.setX (vD w) ((v.lane (vA w) (vImm w % 64)).setWidth 64)) s)

/-- R182: Vd[IMM[5:0]] := Xa[31:0]. -/
def execVsetl (c : CoreId) (s : State) : Host.Outcome State Fault Refusal :=
  .next (s.veRun c 0x5C 0 fun w s =>
    veRegs c (fun v => v.setLane (vD w) (vImm w % 64) ((v.xr (vA w)).setWidth 32)) s)

/-- R182: Vd := Va. -/
def execVmov (c : CoreId) (s : State) : Host.Outcome State Fault Refusal :=
  .next (s.veRun c 0x5D 0 (veLane1 c fun a => (a, 0)))

/-- R182: Md := Ma and Mb. -/
def execMand (c : CoreId) (s : State) : Host.Outcome State Fault Refusal :=
  .next (s.veRun c 0x68 0 (veMask c fun a b => a &&& b))

/-- R182: Md := Ma or Mb. -/
def execMor (c : CoreId) (s : State) : Host.Outcome State Fault Refusal :=
  .next (s.veRun c 0x69 0 (veMask c fun a b => a ||| b))

/-- R182: Md := Ma exclusive-or Mb. -/
def execMxor (c : CoreId) (s : State) : Host.Outcome State Fault Refusal :=
  .next (s.veRun c 0x6A 0 (veMask c fun a b => a ^^^ b))

/-- R182: Md := not Ma. -/
def execMnot (c : CoreId) (s : State) : Host.Outcome State Fault Refusal :=
  .next (s.veRun c 0x6B 0 (veMask c fun a _ => ~~~a))

/-- R182: Md := Xa. -/
def execMset (c : CoreId) (s : State) : Host.Outcome State Fault Refusal :=
  .next (s.veRun c 0x6C 0 fun w s => veRegs c (fun v => v.setM (vD w) (v.xr (vA w))) s)

/-- R182: Xd := Ma. -/
def execMget (c : CoreId) (s : State) : Host.Outcome State Fault Refusal :=
  .next (s.veRun c 0x6D 0 fun w s => veRegs c (fun v => v.setX (vD w) (v.mr (vA w))) s)

/-- R182: Xd := the number of 1 bits in Ma. -/
def execMpop (c : CoreId) (s : State) : Host.Outcome State Fault Refusal :=
  .next (s.veRun c 0x6E 0 fun w s =>
    veRegs c (fun v => v.setX (vD w) (BitVec.ofNat 64 ((List.range 64).countP fun l => (v.mr (vA w)).getLsbD l))) s)

/-- R200: word IMM[1:0] of each active lane's counter. -/
def execRand (c : CoreId) (s : State) : Host.Outcome State Fault Refusal :=
  .next (s.veRun c 0x70 0 fun w s =>
    veLanes c w (fun v l => (laneWord s v w l (fld (v.xr (vC w)).toNat 28 4) (vImm w % 4), 0)) s)

/-- R201: the drop-out keep mask. -/
def execMaskgen (c : CoreId) (s : State) : Host.Outcome State Fault Refusal :=
  .next (s.veRun c 0x71 0 fun w s =>
    let t := ((s.ve c).xr (vB w)).toNat
    if t > 2 ^ 32 then .fault vfIllegal false s
    else veRegs c (fun v => v.setM (vD w) (maskOf ((v.active w).filter fun l => (laneWord s v w l 0 0).toNat ≥ t))) s)

end Sys2Proof.Machine
end

