-- ==== Sys2Proof/Machine/VeScalar.lean ====
section
/-!
DEFINITION. Machine/VeScalar.lean: scalar, branch and broadcast instructions of the VE (R182).
-/
namespace Sys2Proof.Machine

open Sys2Proof

/-- R182: no effect. -/
def execVeNop (c : CoreId) (s : State) : Host.Outcome State Fault Refusal :=
  .next (s.veRun c 0x00 0 fun _ s => .next s)

/-- R179: the share ends. -/
def execHalt (c : CoreId) (s : State) : Host.Outcome State Fault Refusal :=
  .next (s.veRun c 0x01 0 fun _ _ => .halt)

/-- R182: PC := PC + Sext(IMM). -/
def execJmp (c : CoreId) (s : State) : Host.Outcome State Fault Refusal :=
  .next (s.veRun c 0x02 0 fun w s => veBranch c w true s)

/-- R182: branch when Xa is zero. -/
def execBz (c : CoreId) (s : State) : Host.Outcome State Fault Refusal :=
  .next (s.veRun c 0x03 0 fun w s => veBranch c w ((s.ve c).xr (vA w) = 0) s)

/-- R182: branch when Xa is not zero. -/
def execBnz (c : CoreId) (s : State) : Host.Outcome State Fault Refusal :=
  .next (s.veRun c 0x04 0 fun w s => veBranch c w ((s.ve c).xr (vA w) ≠ 0) s)

/-- R182: Xd := Xd − 1, and branch while it is not zero. -/
def execLoop (c : CoreId) (s : State) : Host.Outcome State Fault Refusal :=
  .next (s.veRun c 0x05 0 fun w s =>
    let v := s.ve c
    let x := v.xr (vD w) - 1
    veBranch c w (x ≠ 0) (s.setVe c (v.setX (vD w) x)))

/-- R182: Xd := Sext(IMM). -/
def execSli (c : CoreId) (s : State) : Host.Outcome State Fault Refusal :=
  .next (s.veRun c 0x10 0 fun w s => veScalar c (fun _ _ => vSext w) w s)

/-- R182: Xd := IMM ‖ Xa[31:0]. -/
def execSlui (c : CoreId) (s : State) : Host.Outcome State Fault Refusal :=
  .next (s.veRun c 0x11 0 fun w s =>
    veScalar c (fun a _ => BitVec.ofNat 64 (vImm w * 2 ^ 32 + a.toNat % 2 ^ 32)) w s)

/-- R182: Xd := Xa + Xb + Sext(IMM). -/
def execSadd (c : CoreId) (s : State) : Host.Outcome State Fault Refusal :=
  .next (s.veRun c 0x12 0 fun w s => veScalar c (fun a b => a + b + vSext w) w s)

/-- R182: Xd := Xa − Xb. -/
def execSsub (c : CoreId) (s : State) : Host.Outcome State Fault Refusal :=
  .next (s.veRun c 0x13 0 (veScalar c fun a b => a - b))

/-- R182: Xd := Xa × Xb. -/
def execSmul (c : CoreId) (s : State) : Host.Outcome State Fault Refusal :=
  .next (s.veRun c 0x14 0 (veScalar c fun a b => a * b))

/-- R182: Xd := Xa and Xb. -/
def execSand (c : CoreId) (s : State) : Host.Outcome State Fault Refusal :=
  .next (s.veRun c 0x15 0 (veScalar c fun a b => a &&& b))

/-- R182: Xd := Xa or Xb. -/
def execSor (c : CoreId) (s : State) : Host.Outcome State Fault Refusal :=
  .next (s.veRun c 0x16 0 (veScalar c fun a b => a ||| b))

/-- R182: Xd := Xa exclusive-or Xb. -/
def execSxor (c : CoreId) (s : State) : Host.Outcome State Fault Refusal :=
  .next (s.veRun c 0x17 0 (veScalar c fun a b => a ^^^ b))

/-- R182: Xd := Xa shifted left by (Xb + IMM) mod 64. -/
def execSshl (c : CoreId) (s : State) : Host.Outcome State Fault Refusal :=
  .next (s.veRun c 0x18 0 fun w s => veScalar c (fun a b => a <<< ((b.toNat + vImm w) % 64)) w s)

/-- R182: Xd := Xa shifted right logically by (Xb + IMM) mod 64. -/
def execSshr (c : CoreId) (s : State) : Host.Outcome State Fault Refusal :=
  .next (s.veRun c 0x19 0 fun w s => veScalar c (fun a b => a >>> ((b.toNat + vImm w) % 64)) w s)

/-- R182: Xd := 1 when Xa < Xb, signed, else 0. -/
def execScmplt (c : CoreId) (s : State) : Host.Outcome State Fault Refusal :=
  .next (s.veRun c 0x1A 0 (veScalar c fun a b => if a.slt b then 1 else 0))

/-- R182: Xd := 1 when Xa = Xb, else 0. -/
def execScmpeq (c : CoreId) (s : State) : Host.Outcome State Fault Refusal :=
  .next (s.veRun c 0x1B 0 (veScalar c fun a b => if a = b then 1 else 0))

/-- R182: Xd := a value of the share, the step, the tile or the device time. -/
def execSget (c : CoreId) (s : State) : Host.Outcome State Fault Refusal :=
  .next (s.veRun c 0x1E 0 fun w s =>
    let v := s.ve c
    let get : Option Nat := match vImm w, v.run with
      | 0, _ => some c
      | 1, some sh => some sh.idx
      | 2, some sh => some sh.n
      | 3, _ => some s.step
      | 4, _ => some (c / 300)
      | 5, _ => some s.time
      | _, _ => none
    match get with
    | some x => veRegs c (fun v => v.setX (vD w) (BitVec.ofNat 64 x)) s
    | none => .fault vfIllegal false s)

/-- R182: Vd[l] := Xa[31:0]. -/
def execVbcast (c : CoreId) (s : State) : Host.Outcome State Fault Refusal :=
  .next (s.veRun c 0x2A 0 fun w s => veLanes c w (fun v _ => ((v.xr (vA w)).setWidth 32, 0)) s)

end Sys2Proof.Machine
end

