-- ==== Sys2Proof/Machine/Dispatch.lean ====
section
/-!
DEFINITION. Machine/Dispatch.lean: which meaning each command has.
-/
namespace Sys2Proof.Machine

open Sys2Proof

def exec (i : Instr) (s : State) : Host.Outcome State Fault Refusal :=
  match i with
  | .registerWrite off bytes val => Sys2Proof.Machine.execRegisterWrite off bytes val s
  | .inputPowerApplied addr => Sys2Proof.Machine.execInputPowerApplied addr s
  | .inputPowerLost => Sys2Proof.Machine.execInputPowerLost s
  | .pwrEnRise quietNs bscanEn => Sys2Proof.Machine.execPwrEnRise quietNs bscanEn s
  | .pwrGoodRelease => Sys2Proof.Machine.execPwrGoodRelease s
  | .pwrEnFall => Sys2Proof.Machine.execPwrEnFall s
  | .emergOffExternal => Sys2Proof.Machine.execEmergOffExternal s
  | .inputOvervoltage => Sys2Proof.Machine.execInputOvervoltage s
  | .inputUndervoltage => Sys2Proof.Machine.execInputUndervoltage s
  | .inputOutOfRange => Sys2Proof.Machine.execInputOutOfRange s
  | .railFault rail => Sys2Proof.Machine.execRailFault rail s
  | .railWarn rail => Sys2Proof.Machine.execRailWarn rail s
  | .thermalTrip => Sys2Proof.Machine.execThermalTrip s
  | .smbStatus => Sys2Proof.Machine.execSmbStatus s
  | .smbInputVoltage reading => Sys2Proof.Machine.execSmbInputVoltage reading s
  | .smbInputCurrent reading => Sys2Proof.Machine.execSmbInputCurrent reading s
  | .smbInputPower reading => Sys2Proof.Machine.execSmbInputPower reading s
  | .smbHottest => Sys2Proof.Machine.execSmbHottest s
  | .smbInlet reading => Sys2Proof.Machine.execSmbInlet reading s
  | .smbOutlet reading => Sys2Proof.Machine.execSmbOutlet reading s
  | .smbOffCause => Sys2Proof.Machine.execSmbOffCause s
  | .smbAlertSource => Sys2Proof.Machine.execSmbAlertSource s
  | .smbAlertClear w pec => Sys2Proof.Machine.execSmbAlertClear w pec s
  | .smbIdentity => Sys2Proof.Machine.execSmbIdentity s
  | .smbAlertResponse => Sys2Proof.Machine.execSmbAlertResponse s
  | .pwrOffCauseClear bits => Sys2Proof.Machine.execPwrOffCauseClear bits s
  | .scanBypass die => Sys2Proof.Machine.execScanBypass die s
  | .scanIdcode die => Sys2Proof.Machine.execScanIdcode die s
  | .scanSample die cells => Sys2Proof.Machine.execScanSample die cells s
  | .scanExtest die => Sys2Proof.Machine.execScanExtest die s
  | .scanClamp die => Sys2Proof.Machine.execScanClamp die s
  | .scanHighz die => Sys2Proof.Machine.execScanHighz die s
  | .hcpPacket via frag pkt dport => Sys2Proof.Machine.execHcpPacket via frag pkt dport s
  | .relay eth addr port dg => Sys2Proof.Machine.execRelay eth addr port dg s
  | .fragmentTimeout addr port ident => Sys2Proof.Machine.execFragmentTimeout addr port ident s
  | .neighbourDiscovery eth msg => Sys2Proof.Machine.execNeighbourDiscovery eth msg s
  | .echoRequest eth ends data => Sys2Proof.Machine.execEchoRequest eth ends data s
  | .pendingCommandComplete held => Sys2Proof.Machine.execPendingCommandComplete held s
  | .hello slow => Sys2Proof.Machine.execHello slow s
  | .attest slow => Sys2Proof.Machine.execAttest slow s
  | .openSession cSig cert owner zOk flashOk slow => Sys2Proof.Machine.execOpenSession cSig cert owner zOk flashOk slow s
  | .claimSession cSig cert owner zOk flashOk slow => Sys2Proof.Machine.execClaimSession cSig cert owner zOk flashOk slow s
  | .transferSession cSig cert owner zOk flashOk slow => Sys2Proof.Machine.execTransferSession cSig cert owner zOk flashOk slow s
  | .releaseSession cSig cert owner zOk flashOk slow => Sys2Proof.Machine.execReleaseSession cSig cert owner zOk flashOk slow s
  | .closeSession => Sys2Proof.Machine.execCloseSession s
  | .readCsr slow => Sys2Proof.Machine.execReadCsr slow s
  | .writeCsr slow => Sys2Proof.Machine.execWriteCsr slow s
  | .getInfo slow => Sys2Proof.Machine.execGetInfo slow s
  | .readMem slow => Sys2Proof.Machine.execReadMem slow s
  | .writeMem slow => Sys2Proof.Machine.execWriteMem slow s
  | .copyMem slow => Sys2Proof.Machine.execCopyMem slow s
  | .flush slow => Sys2Proof.Machine.execFlush slow s
  | .fence slow => Sys2Proof.Machine.execFence slow s
  | .loadProgram slow => Sys2Proof.Machine.execLoadProgram slow s
  | .runSteps slow => Sys2Proof.Machine.execRunSteps slow s
  | .haltSteps slow => Sys2Proof.Machine.execHaltSteps slow s
  | .abortJob => Sys2Proof.Machine.execAbortJob s
  | .stepStatus slow => Sys2Proof.Machine.execStepStatus slow s
  | .defineTable slow => Sys2Proof.Machine.execDefineTable slow s
  | .dropTable slow => Sys2Proof.Machine.execDropTable slow s
  | .restoreRow slow => Sys2Proof.Machine.execRestoreRow slow s
  | .hotrowPolicy slow => Sys2Proof.Machine.execHotrowPolicy slow s
  | .flushJournal slow => Sys2Proof.Machine.execFlushJournal slow s
  | .loadCalibration slow => Sys2Proof.Machine.execLoadCalibration slow s
  | .setLossScale slow => Sys2Proof.Machine.execSetLossScale slow s
  | .readNumericFlags slow => Sys2Proof.Machine.execReadNumericFlags slow s
  | .clearNumericFlags slow => Sys2Proof.Machine.execClearNumericFlags slow s
  | .traceConfig slow => Sys2Proof.Machine.execTraceConfig slow s
  | .setLayout => Sys2Proof.Machine.execSetLayout s
  | .reshard => Sys2Proof.Machine.execReshard s
  | .digestCheck => Sys2Proof.Machine.execDigestCheck s
  | .digestMessage coord msg => Sys2Proof.Machine.execDigestMessage coord msg s
  | .linkStatus => Sys2Proof.Machine.execLinkStatus s
  | .linkStatusRetrain => Sys2Proof.Machine.execLinkStatusRetrain s
  | .linkStatusDisable => Sys2Proof.Machine.execLinkStatusDisable s
  | .linkStatusEnable => Sys2Proof.Machine.execLinkStatusEnable s
  | .parityConfigure => Sys2Proof.Machine.execParityConfigure s
  | .parityRepair units lost slow => Sys2Proof.Machine.execParityRepair units lost slow s
  | .parityDisable slow => Sys2Proof.Machine.execParityDisable slow s
  | .setClockSource slow => Sys2Proof.Machine.execSetClockSource slow s
  | .setPerfPoint slow => Sys2Proof.Machine.execSetPerfPoint slow s
  | .lampStatus slow => Sys2Proof.Machine.execLampStatus slow s
  | .lampRetire => Sys2Proof.Machine.execLampRetire s
  | .readRecords slow => Sys2Proof.Machine.execReadRecords slow s
  | .clearSticky slow => Sys2Proof.Machine.execClearSticky slow s
  | .monitorConfig slow => Sys2Proof.Machine.execMonitorConfig slow s
  | .monitorRead slow => Sys2Proof.Machine.execMonitorRead slow s
  | .exportState slow => Sys2Proof.Machine.execExportState slow s
  | .importState slow => Sys2Proof.Machine.execImportState slow s
  | .acceptTorn slow => Sys2Proof.Machine.execAcceptTorn slow s
  | .updateFirmware verified => Sys2Proof.Machine.execUpdateFirmware verified s
  | .firmwareCopyWritten ok => Sys2Proof.Machine.execFirmwareCopyWritten ok s
  | .resetTile => Sys2Proof.Machine.execResetTile s
  | .resetModule => Sys2Proof.Machine.execResetModule s
  | .feedSample eth addr port msg frag => Sys2Proof.Machine.execFeedSample eth addr port msg frag s
  | .indexEnd eth addr port msg frag => Sys2Proof.Machine.execIndexEnd eth addr port msg frag s
  | .batchEnd eth addr port msg frag => Sys2Proof.Machine.execBatchEnd eth addr port msg frag s
  | .stateIn eth addr port msg frag => Sys2Proof.Machine.execStateIn eth addr port msg frag s
  | .stateCredit eth addr port msg frag => Sys2Proof.Machine.execStateCredit eth addr port msg frag s
  | .exportCreditTimeout tag => Sys2Proof.Machine.execExportCreditTimeout tag s
  | .feedStatusTimer t => Sys2Proof.Machine.execFeedStatusTimer t s
  | .feedRegisterWrite t r val => Sys2Proof.Machine.execFeedRegisterWrite t r val s
  | .stepStart => Sys2Proof.Machine.execStepStart s
  | .feedCopyEnd t => Sys2Proof.Machine.execFeedCopyEnd t s
  | .feedTimeout => Sys2Proof.Machine.execFeedTimeout s
  | .nopDesc t => Sys2Proof.Machine.execNopDesc t s
  | .matmul t => Sys2Proof.Machine.execMatmul t s
  | .veRun t => Sys2Proof.Machine.execVeRun t s
  | .shareDispatch t c => Sys2Proof.Machine.execShareDispatch t c s
  | .embLookup t => Sys2Proof.Machine.execEmbLookup t s
  | .embGrad t => Sys2Proof.Machine.execEmbGrad t s
  | .embApply t => Sys2Proof.Machine.execEmbApply t s
  | .prefetch t => Sys2Proof.Machine.execPrefetch t s
  | .easelLoad t => Sys2Proof.Machine.execEaselLoad t s
  | .easelFence t waitNs => Sys2Proof.Machine.execEaselFence t waitNs s
  | .windowTimeout t => Sys2Proof.Machine.execWindowTimeout t s
  | .allGather t => Sys2Proof.Machine.execAllGather t s
  | .reduceScatter t => Sys2Proof.Machine.execReduceScatter t s
  | .allReduce t => Sys2Proof.Machine.execAllReduce t s
  | .colBroadcast t => Sys2Proof.Machine.execColBroadcast t s
  | .colShift t => Sys2Proof.Machine.execColShift t s
  | .collectiveMessage => Sys2Proof.Machine.execCollectiveMessage s
  | .quantDesc t => Sys2Proof.Machine.execQuantDesc t s
  | .updateDesc t => Sys2Proof.Machine.execUpdateDesc t s
  | .copyDesc t => Sys2Proof.Machine.execCopyDesc t s
  | .memFence t => Sys2Proof.Machine.execMemFence t s
  | .flagReduce t => Sys2Proof.Machine.execFlagReduce t s
  | .flagReduceResult peers => Sys2Proof.Machine.execFlagReduceResult peers s
  | .endStep t => Sys2Proof.Machine.execEndStep t s
  | .descriptorComplete t idx => Sys2Proof.Machine.execDescriptorComplete t idx s
  | .fenceBegin => Sys2Proof.Machine.execFenceBegin s
  | .fenceMessage phase node step gen dirGen digest => Sys2Proof.Machine.execFenceMessage phase node step gen dirGen digest s
  | .arrivalBarrierComplete => Sys2Proof.Machine.execArrivalBarrierComplete s
  | .completionBarrierComplete => Sys2Proof.Machine.execCompletionBarrierComplete s
  | .startBarrierComplete => Sys2Proof.Machine.execStartBarrierComplete s
  | .podTimeout w => Sys2Proof.Machine.execPodTimeout w s
  | .stepAbortNotice mixed => Sys2Proof.Machine.execStepAbortNotice mixed s
  | .clearMixed => Sys2Proof.Machine.execClearMixed s
  | .seqStepSet val => Sys2Proof.Machine.execSeqStepSet val s
  | .mma c waited => Sys2Proof.Machine.execMma c waited s
  | .tileNop c => Sys2Proof.Machine.execTileNop c s
  | .chainReductionEnd c stall => Sys2Proof.Machine.execChainReductionEnd c stall s
  | .chainConversionEnd c stall => Sys2Proof.Machine.execChainConversionEnd c stall s
  | .confirm t ticket => Sys2Proof.Machine.execConfirm t ticket s
  | .replay t ticket => Sys2Proof.Machine.execReplay t ticket s
  | .meWatchdogExpiry c ofVe clocks => Sys2Proof.Machine.execMeWatchdogExpiry c ofVe clocks s
  | .dmaTransferComplete c => Sys2Proof.Machine.execDmaTransferComplete c s
  | .spareSelftestStart phys => Sys2Proof.Machine.execSpareSelftestStart phys s
  | .spareSelftestEnd pass => Sys2Proof.Machine.execSpareSelftestEnd pass s
  | .repairRequestCommit phys => Sys2Proof.Machine.execRepairRequestCommit phys s
  | .qzPaletteWrite n val => Sys2Proof.Machine.execQzPaletteWrite n val s
  | .veShareStart c => Sys2Proof.Machine.execVeShareStart c s
  | .veShareComplete c => Sys2Proof.Machine.execVeShareComplete c s
  | .veInsnLimitExpiry c => Sys2Proof.Machine.execVeInsnLimitExpiry c s
  | .veNop c => Sys2Proof.Machine.execVeNop c s
  | .halt c => Sys2Proof.Machine.execHalt c s
  | .jmp c => Sys2Proof.Machine.execJmp c s
  | .bz c => Sys2Proof.Machine.execBz c s
  | .bnz c => Sys2Proof.Machine.execBnz c s
  | .loop c => Sys2Proof.Machine.execLoop c s
  | .dmawait c waited => Sys2Proof.Machine.execDmawait c waited s
  | .sli c => Sys2Proof.Machine.execSli c s
  | .slui c => Sys2Proof.Machine.execSlui c s
  | .sadd c => Sys2Proof.Machine.execSadd c s
  | .ssub c => Sys2Proof.Machine.execSsub c s
  | .smul c => Sys2Proof.Machine.execSmul c s
  | .sand c => Sys2Proof.Machine.execSand c s
  | .sor c => Sys2Proof.Machine.execSor c s
  | .sxor c => Sys2Proof.Machine.execSxor c s
  | .sshl c => Sys2Proof.Machine.execSshl c s
  | .sshr c => Sys2Proof.Machine.execSshr c s
  | .scmplt c => Sys2Proof.Machine.execScmplt c s
  | .scmpeq c => Sys2Proof.Machine.execScmpeq c s
  | .sld c => Sys2Proof.Machine.execSld c s
  | .sst c => Sys2Proof.Machine.execSst c s
  | .sget c => Sys2Proof.Machine.execSget c s
  | .vld c => Sys2Proof.Machine.execVld c s
  | .vst c => Sys2Proof.Machine.execVst c s
  | .vld16 c => Sys2Proof.Machine.execVld16 c s
  | .vst16 c => Sys2Proof.Machine.execVst16 c s
  | .vld8 c => Sys2Proof.Machine.execVld8 c s
  | .vst8 c => Sys2Proof.Machine.execVst8 c s
  | .vldp c => Sys2Proof.Machine.execVldp c s
  | .vstp c => Sys2Proof.Machine.execVstp c s
  | .vgather c => Sys2Proof.Machine.execVgather c s
  | .vscatter c => Sys2Proof.Machine.execVscatter c s
  | .vbcast c => Sys2Proof.Machine.execVbcast c s
  | .popt c waited => Sys2Proof.Machine.execPopt c waited s
  | .fadd c => Sys2Proof.Machine.execFadd c s
  | .fsub c => Sys2Proof.Machine.execFsub c s
  | .fmul c => Sys2Proof.Machine.execFmul c s
  | .ffma c => Sys2Proof.Machine.execFfma c s
  | .fdiv c => Sys2Proof.Machine.execFdiv c s
  | .fsqrt c => Sys2Proof.Machine.execFsqrt c s
  | .fmin c => Sys2Proof.Machine.execFmin c s
  | .fmax c => Sys2Proof.Machine.execFmax c s
  | .fabs c => Sys2Proof.Machine.execFabs c s
  | .fneg c => Sys2Proof.Machine.execFneg c s
  | .fexp2 c => Sys2Proof.Machine.execFexp2 c s
  | .flog2 c => Sys2Proof.Machine.execFlog2 c s
  | .frsqrt c => Sys2Proof.Machine.execFrsqrt c s
  | .fcmpeq c => Sys2Proof.Machine.execFcmpeq c s
  | .fcmplt c => Sys2Proof.Machine.execFcmplt c s
  | .fcmple c => Sys2Proof.Machine.execFcmple c s
  | .iadd c => Sys2Proof.Machine.execIadd c s
  | .isub c => Sys2Proof.Machine.execIsub c s
  | .imul c => Sys2Proof.Machine.execImul c s
  | .iadds c => Sys2Proof.Machine.execIadds c s
  | .imin c => Sys2Proof.Machine.execImin c s
  | .imax c => Sys2Proof.Machine.execImax c s
  | .vand c => Sys2Proof.Machine.execVand c s
  | .vor c => Sys2Proof.Machine.execVor c s
  | .vxor c => Sys2Proof.Machine.execVxor c s
  | .vshl c => Sys2Proof.Machine.execVshl c s
  | .vshr c => Sys2Proof.Machine.execVshr c s
  | .vsra c => Sys2Proof.Machine.execVsra c s
  | .icmpeq c => Sys2Proof.Machine.execIcmpeq c s
  | .icmplt c => Sys2Proof.Machine.execIcmplt c s
  | .iaddi c => Sys2Proof.Machine.execIaddi c s
  | .cvt c => Sys2Proof.Machine.execCvt c s
  | .cvts c => Sys2Proof.Machine.execCvts c s
  | .fcvti c => Sys2Proof.Machine.execFcvti c s
  | .icvtf c => Sys2Proof.Machine.execIcvtf c s
  | .vsel c => Sys2Proof.Machine.execVsel c s
  | .vperm c => Sys2Proof.Machine.execVperm c s
  | .vrot c => Sys2Proof.Machine.execVrot c s
  | .vgetl c => Sys2Proof.Machine.execVgetl c s
  | .vsetl c => Sys2Proof.Machine.execVsetl c s
  | .vmov c => Sys2Proof.Machine.execVmov c s
  | .fredsum c => Sys2Proof.Machine.execFredsum c s
  | .fredmax c => Sys2Proof.Machine.execFredmax c s
  | .fredmin c => Sys2Proof.Machine.execFredmin c s
  | .iredsum c => Sys2Proof.Machine.execIredsum c s
  | .iredmax c => Sys2Proof.Machine.execIredmax c s
  | .iredmin c => Sys2Proof.Machine.execIredmin c s
  | .mand c => Sys2Proof.Machine.execMand c s
  | .mor c => Sys2Proof.Machine.execMor c s
  | .mxor c => Sys2Proof.Machine.execMxor c s
  | .mnot c => Sys2Proof.Machine.execMnot c s
  | .mset c => Sys2Proof.Machine.execMset c s
  | .mget c => Sys2Proof.Machine.execMget c s
  | .mpop c => Sys2Proof.Machine.execMpop c s
  | .rand c => Sys2Proof.Machine.execRand c s
  | .maskgen c => Sys2Proof.Machine.execMaskgen c s
  | .dmaget c waited => Sys2Proof.Machine.execDmaget c waited s
  | .dmaput c waited => Sys2Proof.Machine.execDmaput c waited s
  | .quantJobStart t => Sys2Proof.Machine.execQuantJobStart t s
  | .quantConversionEnd t => Sys2Proof.Machine.execQuantConversionEnd t s
  | .quantReconversionEnd t => Sys2Proof.Machine.execQuantReconversionEnd t s
  | .traceCopyEnd t => Sys2Proof.Machine.execTraceCopyEnd t s
  | .traceRecomputeEnd t => Sys2Proof.Machine.execTraceRecomputeEnd t s
  | .blockStageStart t => Sys2Proof.Machine.execBlockStageStart t s
  | .blockStaged t slot => Sys2Proof.Machine.execBlockStaged t slot s
  | .blockCommitWriteDone t slot res tagOk => Sys2Proof.Machine.execBlockCommitWriteDone t slot res tagOk s
  | .recipeWrite n w val => Sys2Proof.Machine.execRecipeWrite n w val s
  | .recipeCommit val => Sys2Proof.Machine.execRecipeCommit val s
  | .rowWriteDone t err => Sys2Proof.Machine.execRowWriteDone t err s
  | .embRequest => Sys2Proof.Machine.execEmbRequest s
  | .rowReadDone t table row res => Sys2Proof.Machine.execRowReadDone t table row res s
  | .poolShareComplete t => Sys2Proof.Machine.execPoolShareComplete t s
  | .pooledResponse => Sys2Proof.Machine.execPooledResponse s
  | .rowsResponse => Sys2Proof.Machine.execRowsResponse s
  | .contribution t src => Sys2Proof.Machine.execContribution t src s
  | .changeList rank dem prom => Sys2Proof.Machine.execChangeList rank dem prom s
  | .commonsRefresh table row bytes => Sys2Proof.Machine.execCommonsRefresh table row bytes s
  | .memoryAccess req gaddr op rivals via => Sys2Proof.Machine.execMemoryAccess req gaddr op rivals via s
  | .remoteAccess a op => Sys2Proof.Machine.execRemoteAccess a op s
  | .readCompletion site e => Sys2Proof.Machine.execReadCompletion site e s
  | .parityDelta gran j off x => Sys2Proof.Machine.execParityDelta gran j off x s
  | .patrolScrub a correctable => Sys2Proof.Machine.execPatrolScrub a correctable s
  | .journalAreaCleared t waited => Sys2Proof.Machine.execJournalAreaCleared t waited s
  | .delayWrite t val => Sys2Proof.Machine.execDelayWrite t val s
  | .holdCutoff a req => Sys2Proof.Machine.execHoldCutoff a req s
  | .withdraw x => Sys2Proof.Machine.execWithdraw x s
  | .dataBlock p b => Sys2Proof.Machine.execDataBlock p b s
  | .idleBlock p b => Sys2Proof.Machine.execIdleBlock p b s
  | .nakTimer p => Sys2Proof.Machine.execNakTimer p s
  | .replayTimeout p => Sys2Proof.Machine.execReplayTimeout p s
  | .messageReceived => Sys2Proof.Machine.execMessageReceived s
  | .identBlock p lane b => Sys2Proof.Machine.execIdentBlock p lane b s
  | .trainMarker p b => Sys2Proof.Machine.execTrainMarker p b s
  | .keyBlock p b confirm => Sys2Proof.Machine.execKeyBlock p b confirm s
  | .laneSwap p b => Sys2Proof.Machine.execLaneSwap p b s
  | .timeBlock p b => Sys2Proof.Machine.execTimeBlock p b s
  | .downBlock p b => Sys2Proof.Machine.execDownBlock p b s
  | .trainingStart p => Sys2Proof.Machine.execTrainingStart p s
  | .laneLock p lanes => Sys2Proof.Machine.execLaneLock p lanes s
  | .presetSweepEnd p meas => Sys2Proof.Machine.execPresetSweepEnd p meas s
  | .alignmentDone p rttNs => Sys2Proof.Machine.execAlignmentDone p rttNs s
  | .trainingTimeout p => Sys2Proof.Machine.execTrainingTimeout p s
  | .laneWindow p meas => Sys2Proof.Machine.execLaneWindow p meas s
  | .alignmentLost p => Sys2Proof.Machine.execAlignmentLost p s
  | .retrainDone p => Sys2Proof.Machine.execRetrainDone p s
  | .retrainTimeout p => Sys2Proof.Machine.execRetrainTimeout p s
  | .linkStateMessage p lend up => Sys2Proof.Machine.execLinkStateMessage p lend up s
  | .timePeriod => Sys2Proof.Machine.execTimePeriod s
  | .lnkEnable p on => Sys2Proof.Machine.execLnkEnable p on s
  | .lnkRetrain p => Sys2Proof.Machine.execLnkRetrain p s
  | .lnkFullTrain p => Sys2Proof.Machine.execLnkFullTrain p s
  | .lampInserted k => Sys2Proof.Machine.execLampInserted k s
  | .lampAuthResponse k rec lit aged verified => Sys2Proof.Machine.execLampAuthResponse k rec lit aged verified s
  | .lampAuthTimeout k => Sys2Proof.Machine.execLampAuthTimeout k s
  | .lampPulled k => Sys2Proof.Machine.execLampPulled k s
  | .lampInterlock k => Sys2Proof.Machine.execLampInterlock k s
  | .lampFail k => Sys2Proof.Machine.execLampFail k s
  | .rampEnd pair => Sys2Proof.Machine.execRampEnd pair s
  | .lampMinute k => Sys2Proof.Machine.execLampMinute k s
  | .lampHour k meanUa => Sys2Proof.Machine.execLampHour k meanUa s
  | .lampBiasSample k ua uw => Sys2Proof.Machine.execLampBiasSample k ua uw s
  | .autoLight => Sys2Proof.Machine.execAutoLight s
  | .openFibreBlock p => Sys2Proof.Machine.execOpenFibreBlock p s
  | .openFibreProbe p peer => Sys2Proof.Machine.execOpenFibreProbe p peer s
  | .layoutArrivalBarrier timedOut => Sys2Proof.Machine.execLayoutArrivalBarrier timedOut s
  | .layoutCompletionBarrier w => Sys2Proof.Machine.execLayoutCompletionBarrier w s
  | .rebuildEnd base gbase ranges units => Sys2Proof.Machine.execRebuildEnd base gbase ranges units s
  | .podInstall => Sys2Proof.Machine.execPodInstall s
  | .podClear => Sys2Proof.Machine.execPodClear s
  | .extendGo => Sys2Proof.Machine.execExtendGo s
  | .rngHealthFail => Sys2Proof.Machine.execRngHealthFail s
  | .clockWindow mon ref int root locked => Sys2Proof.Machine.execClockWindow mon ref int root locked s
  | .edgeLoss src => Sys2Proof.Machine.execEdgeLoss src s
  | .tempSample temps => Sys2Proof.Machine.execTempSample temps s
  | .powerWindow meanW mv10 rails => Sys2Proof.Machine.execPowerWindow meanW mv10 rails s
  | .pointChange => Sys2Proof.Machine.execPointChange s
  | .loadEstimate demand => Sys2Proof.Machine.execLoadEstimate demand s
  | .eventReached => Sys2Proof.Machine.execEventReached s
  | .monitorSample ch lat => Sys2Proof.Machine.execMonitorSample ch lat s
  | .bootRomDone identityOk stage1 => Sys2Proof.Machine.execBootRomDone identityOk stage1 s
  | .domainsUngated => Sys2Proof.Machine.execDomainsUngated s
  | .coreSelftestEnd failed => Sys2Proof.Machine.execCoreSelftestEnd failed s
  | .hbmTrained hbm => Sys2Proof.Machine.execHbmTrained hbm s
  | .dimmsTrained dimms => Sys2Proof.Machine.execDimmsTrained dimms s
  | .reeveStart images optics mgmtOk => Sys2Proof.Machine.execReeveStart images optics mgmtOk s
  | .lampsLit => Sys2Proof.Machine.execLampsLit s
  | .granaryZeroed => Sys2Proof.Machine.execGranaryZeroed s
  | .emergOffRelease => Sys2Proof.Machine.execEmergOffRelease s
  | .inputReturnsToRange => Sys2Proof.Machine.execInputReturnsToRange s
  | .rngHealthRestored => Sys2Proof.Machine.execRngHealthRestored s
  | .digestJoinTimeout => Sys2Proof.Machine.execDigestJoinTimeout s
  | .parityJoinTimeout => Sys2Proof.Machine.execParityJoinTimeout s
  | .illegalOpcode c => Sys2Proof.Machine.execIllegalOpcode c s

end Sys2Proof.Machine
end

