-- ==== Sys2Proof/Machine/Tick.lean ====
section
/-!
DEFINITION. Machine/Tick.lean: what time alone does (log 60). Only what the spec counts in time with no command of its
own stands here: device time (R563), pod time and its slewing (R402 to R404), the counters of time under a cap (R554), the
groups that matrix engines reduce (R165), and what waits for an instant of the fence. Everything else that happens after
a time is a command.
-/
namespace Sys2Proof.Machine

open Sys2Proof

/-- Pod time advances 1 ns; while an offset is being removed it gains or loses one more in every 5,000 ns, which is
200 parts per million (R403). While the parent link is not UP it runs free (R404). -/
def State.podTick (s : State) : State :=
  let t := s.rd kPodTime
  let free : Bool := match s.parentPort with | some p => s.linkSt p ≠ 4 | none => true
  if s.net.slew = 0 || s.wall % 5000 ≠ 0 || free then s.wr kPodTime ((t + 1) % 2 ^ 64)
  else if s.net.slew > 0 then
    { s.wr kPodTime ((t + 2) % 2 ^ 64) with net := { s.net with slew := s.net.slew - 1 } }
  else { s with net := { s.net with slew := s.net.slew + 1 } }

/-- The matrix engines of the cores that run. -/
def State.coresTick (s : State) : State :=
  (s.cores.map (·.1)).foldl (fun s c => if s.coreOn c then s.meTick c else s) s

/-- Device time, and pod time beside it, while REF or INT runs (R563). -/
def State.timeTick (s : State) : State :=
  if !s.powered || (s.srcFailed 0 && s.srcFailed 2) then s
  else (s.wr kTime ((s.time + 1) % 2 ^ 64)).podTick

/-- The counters of the caps, and what waits in the fence. -/
def State.hubTick (s : State) : State := if s.hubOn then s.capTick.commitOn.lateDeferred else s

/-- One nanosecond without a command: step's answer on an empty queue. -/
def State.tick (s : State) : State := ({ s with wall := s.wall + 1 } : State).coresTick.timeTick.hubTick

end Sys2Proof.Machine
end

