-- ==== Sys2Proof/WellFormed.lean ====
section
/-!
DEFINITION. WellFormed.lean: the checks on a command's operands that their types do not make. A command that fails one
stands for nothing that could happen to the device; the meanings are total and answer a next state for it too.
-/
namespace Sys2Proof

/-- An IPv6 address and a UDP port (R467). -/
def addrOk (addr : List Byte) (port : Nat) : Bool := addr.length = 16 && port < 2 ^ 16

/-- The sender of an HCP packet (R467, R469): an address, or a module's node field (R3). -/
def Via.wf : Via → Bool
  | .udp _ addr port => addrOk addr port
  | .torus node _ => node < 2 ^ 20

/-- A fragment (R468): IPv6 counts offsets in units of 8 bytes. -/
def FragInfo.wf (f : FragInfo) : Bool := f.ident < 2 ^ 32 && f.off % 8 = 0 && f.off < 2 ^ 16

/-- A memory access carries 1 to 4,096 bytes (R359, R481). -/
def MemOp.wf : MemOp → Bool
  | .read n => 0 < n && n ≤ 4096
  | .write b _ => 0 < b.length && b.length ≤ 4096

/-- The payload of a link block (R376). -/
def RxBlock.wf (b : RxBlock) : Bool := b.payload.length ≤ 484

/-- What a lookup or a collective waits for (R64): an index into a step program (R44). -/
def PodWait.wf : PodWait → Bool
  | .collective _ idx | .embedding _ idx => idx < 65536
  | .flagReduce | .barrier => true

/-- Addresses of 16 bytes, prefixes of 8. -/
def NdMsg.wf : NdMsg → Bool
  | .solicit a t => a.length = 16 && t.length = 16
  | .advert a p => a.length = 16 && p.length = 8

/-- A digest message carries digests of 8 bytes (R274). -/
def DigestMsg.wf : DigestMsg → Bool
  | .chunks d | .blocks _ d => d.all fun b => b.length = 8

/-- A reconstruction gives one 64-byte line (R458). -/
def ReadEnd.wf : ReadEnd → Bool
  | .failed (.bytes b) => b.length = 64
  | _ => true

/-- The check of each command. -/
def Instr.wf : Instr → Bool
  | .registerWrite off bytes _ => off < 2 ^ 24 && (bytes = 4 || bytes = 8)
  | .recipeWrite _ w _ => w.val < 96
  | .hcpPacket via frag _ _ => via.wf && (frag.map FragInfo.wf).getD true
  | .relay _ addr port _ => addrOk addr port
  | .fragmentTimeout addr port _ => addrOk addr port
  | .neighbourDiscovery _ m => m.wf
  | .echoRequest _ e _ => e.src.length = 16 && e.dst.length = 16
  | .pendingCommandComplete held => held.all fun b => b.length = 4096
  | .keyBlock _ b conf => b.wf && conf = (b.payload.drop 104).take 32
  | .digestMessage _ m => m.wf
  | .parityRepair units _ _ => units.all fun b => b.length = 4096
  | .feedSample eth addr port _ _ => eth.val < 2 && addrOk addr port
  | .indexEnd eth addr port _ _ => eth.val < 2 && addrOk addr port
  | .batchEnd eth addr port _ _ => eth.val < 2 && addrOk addr port
  | .stateIn eth addr port _ _ => eth.val < 2 && addrOk addr port
  | .stateCredit eth addr port _ _ => eth.val < 2 && addrOk addr port
  | .descriptorComplete _ idx => idx < 65536
  | .fenceMessage _ _ step gen dirGen digest => step < 2 ^ 48 && gen < 2 ^ 32 && dirGen < 2 ^ 32 && digest < 2 ^ 64
  | .podTimeout w => w.wf
  | .contribution _ (some c) => c.node < 2 ^ 20 && c.step < 2 ^ 48 && c.table < 4096 && c.row < 2 ^ 40
  | .changeList rank dem prom => rank < 2 ^ 20 && (dem ++ prom).all fun e => e.1 < 4096 && e.2 < 2 ^ 40
  | .commonsRefresh _ _ bytes => bytes.length ≤ 8192
  | .memoryAccess _ _ op _ _ => op.wf
  | .remoteAccess _ op => op.wf
  | .readCompletion _ e => e.wf
  | .parityDelta _ _ off x => off + x.length ≤ 4096
  | .dataBlock _ b | .idleBlock _ b | .identBlock _ _ b | .trainMarker _ b | .laneSwap _ b
  | .timeBlock _ b | .downBlock _ b => b.wf
  | .presetSweepEnd _ meas => meas.length = 18 && meas.all fun l => l.length = 16
  | .laneWindow _ meas => meas.length = 18
  | .lampAuthResponse _ rec _ _ _ => rec.length = 442
  | .rebuildEnd _ _ ranges units => ranges.length ≤ 32 && units.all fun u => match u.2 with | .bytes b => b.length = 4096 | _ => true
  | .tempSample temps => temps.length = 43
  | .powerWindow _ _ rails => rails.length = 15
  | .coreSelftestEnd failed => failed.all fun c => c < 1280
  | .hbmTrained hbm => hbm.length = 8
  | .dimmsTrained dimms => dimms.length = 16
  | .reeveStart images optics _ => images.length = 4 && optics.length = 2
  | _ => true

end Sys2Proof
end

