-- ==== Sys2Proof/Safety.lean ====
section
/-!
DEFINITION. Safety.lean: the forms that a good state keeps, and the terms in which the statements speak of a command's
conditions and of its next state.
-/
namespace Sys2Proof.Machine

open Sys2Proof

/-- Memory is in its canonical form: addresses strictly rising, and no byte listed as 0, which an unlisted address
reads. -/
def Memory.wf (m : SMap Byte) : Bool := smWf (fun _ => 0) m

/-- The registers are in their canonical form: keys strictly rising, none listed at its reset value. -/
def Regs.wf (m : SMap W64) : Bool := smWf csrReset m

/-- A good state. -/
def State.good (s : State) : Bool := Memory.wf s.mem && Regs.wf s.csr

/-- A command or an idle step answers a next state: nothing stops this block. -/
def Answers (r : Host.Outcome State Fault Refusal) : Prop := ∃ t, r = .next t

/-- Every register but those of ks reads as before. -/
def RegsExcept (ks : List Nat) (s t : State) : Prop := ∀ k, k ∉ ks → t.rd k = s.rd k

/-- Every byte outside n from a reads as before. -/
def BytesExcept (a n : Nat) (s t : State) : Prop := ∀ x, ¬(a ≤ x ∧ x < a + n) → t.byte x = s.byte x

/-- Every byte of memory reads as before. -/
def SameBytes (s t : State) : Prop := ∀ x, t.byte x = s.byte x

/-! ## Commands of the Halaz Command Protocol -/

/-- Command e, with an opcode, is at the head of the queue, the Reeve answers and may run it; t is s with e taken out
(R478, R508). -/
abbrev State.cmdDue (s : State) (op : Nat) (e : HcpEntry) (t : State) : Prop :=
  s.headIs op anyBlock = some (e, t) ∧ t.mayRun op = true

/-- None of a list of clock domains is gated. -/
abbrev State.running (s : State) (ds : List Nat) : Prop := ∀ d ∈ ds, s.gated d = false

/-! ## The Vector Engine -/

/-- The VE of core c is due to execute the legal instruction w with opcode op: its share runs and its limit is not
reached (R180, R181, R205). -/
abbrev State.veReady (s : State) (c op w : Nat) : Prop :=
  s.veInsn c = some w ∧ vOp w = op ∧ s.veLimit c = false ∧ veLegal w = true

/-- The same, with nothing waited for. -/
abbrev State.veDue (s : State) (c op w : Nat) : Prop := s.veReady c op w ∧ (s.ve c).wait = .none

/-- The VE of core c has the registers v, and the instruction with opcode op has retired. -/
def State.veStep (s : State) (c op : Nat) (v : VeState) : State := (s.setVe c v).veRetire c op ((s.ve c).pc + 1)

/-- Xd := x, and on to the next instruction. -/
def State.veX (s : State) (c op w : Nat) (x : W64) : State := s.veStep c op ((s.ve c).setX (vD w) x)

/-- Md := x (M0 ignores writes), and on to the next instruction. -/
def State.veM (s : State) (c op w : Nat) (x : W64) : State := s.veStep c op ((s.ve c).setM (vD w) x)

/-- Vd[l] := f l on the active lanes, and on to the next instruction. -/
def State.veV (s : State) (c op w : Nat) (f : Nat → W32) : State :=
  s.veStep c op ((s.ve c).writeV w (((s.ve c).active w).map fun l => (l, f l)))

/-- The same with the flags of each active lane. -/
def State.veVF (s : State) (c op w : Nat) (f : Nat → W32 × NFlags) : State :=
  ((s.setVe c ((s.ve c).writeV w (((s.ve c).active w).map fun l => (l, (f l).1)))).veFlags c
    (((s.ve c).active w).map fun l => (f l).2)).veRetire c op ((s.ve c).pc + 1)

/-- Md bit l := f l on the active lanes, 0 on the others. -/
def State.veC (s : State) (c op w : Nat) (f : Nat → Bool) : State :=
  s.veM c op w (maskOf (((s.ve c).active w).filter f))

/-- Xd := a reduction, with its flags. -/
def State.veR (s : State) (c op w : Nat) (r : W64 × NFlags) : State :=
  ((s.setVe c ((s.ve c).setX (vD w) r.1)).veFlags c [r.2]).veRetire c op ((s.ve c).pc + 1)

/-- Source lanes and registers of an instruction. -/
def State.va (s : State) (c w l : Nat) : W32 := (s.ve c).lane (vA w) l
def State.vb (s : State) (c w l : Nat) : W32 := (s.ve c).lane (vB w) l
def State.vc (s : State) (c w l : Nat) : W32 := (s.ve c).lane (vC w) l
def State.xa (s : State) (c w : Nat) : W64 := (s.ve c).xr (vA w)
def State.xb (s : State) (c w : Nat) : W64 := (s.ve c).xr (vB w)
def State.xc (s : State) (c w : Nat) : W64 := (s.ve c).xr (vC w)
def State.ma (s : State) (c w : Nat) : W64 := (s.ve c).mr (vA w)
def State.mb (s : State) (c w : Nat) : W64 := (s.ve c).mr (vB w)

/-- Lane l of Va where it is active, none where it is not (what a reduction sees). -/
def State.vaActive (s : State) (c w : Nat) : List (Option W32) :=
  (List.range 64).map fun l => if ((s.ve c).mr (vMask w)).getLsbD l then some (s.va c w l) else none

/-- The element of a span as memory holds it. -/
def State.veElem (s : State) (c : Nat) (x : Span) : W32 :=
  BitVec.ofNat 32 (fld (leNat (s.bytes (coreAddr c x.off) x.n)) x.sh x.w)

/-- Nothing disturbs the local accesses of an instruction: no transfer is outstanding or unseen (R194), core c answers, no
order command holds its accesses back (R361), and its local SRAM holds no uncorrectable error. -/
abbrev State.veQuietMem (s : State) (c : Nat) : Prop :=
  (s.ve c).dma = [] ∧ (s.ve c).unseen = [] ∧ s.absent c = false ∧ s.gated (c / 300) = false ∧ s.fencedCore c = false ∧
    s.ueAt (coreAddr c 0) 0x100000 = none

/-- Put the element v of a span: the whole bytes of a plain one, the bits of a packed one (R184). -/
def State.putSpan (s : State) (c : Nat) (x : Span) (v : W32) : State :=
  s.poke (coreAddr c x.off)
    (if x.sh = 0 ∧ x.w = 8 * x.n then leBytes x.n v.toNat
     else leBytes x.n (setFld (leNat (s.bytes (coreAddr c x.off) x.n)) x.sh x.w v.toNat))

/-- The lanes of Vd stored in lane order, so that the higher lane wins (R186), and on to the next instruction. -/
def State.veStored (s : State) (c op w : Nat) (spans : List (Nat × Span)) : State :=
  (spans.foldl (fun t e => t.putSpan c e.2 ((s.ve c).lane (vD w) e.1)) s).veRetire c op ((s.ve c).pc + 1)

/-- The lanes of Vd loaded, and on to the next instruction. -/
def State.veLoaded (s : State) (c op w : Nat) (spans : List (Nat × Span)) : State :=
  s.veStep c op ((s.ve c).writeV w (spans.map fun e => (e.1, s.veElem c e.2)))

end Sys2Proof.Machine
end

