-- ==== Sys2Proof/Certificates/Slice0/Obligations.lean ====
section
/-!
DEFINITION. Certificates/Slice0/Obligations.lean: what the provers are asked to show of the model. Each statement says in
its docstring what it is about and which rules of spec/ its clauses follow.
-/

open Sys2Proof Sys2Proof.Machine

/-- A step runs the command at the front of the queue, with the rest of the queue, and nothing else. -/
def Obligations.StepTakesTheFront : Prop :=
  (∀ (c : Instr) (rest : List Instr) (s : State),
    step { s with pending := c :: rest } = exec c { s with pending := rest }) ∧
  (∀ s : State, s.pending = [] → step s = .next s.tick)

/-- Every command of the table completes, whatever the state and its operands. -/
def Obligations.EveryCommandCompletes : Prop :=
  ∀ (c : Instr) (s : State), Answers (exec c s)

/-- Every step from a good state, a command's or an idle one, leaves a good state: memory and the registers keep their
canonical forms. -/
def Obligations.GoodStatesStayGood : Prop :=
  ∀ s t : State, s.good = true → step s = .next t → t.good = true

/-- No command touches the queue of waiting commands, and what has been sent stays sent: messages are only added. -/
def Obligations.QueueAndMessages : Prop :=
  ∀ (c : Instr) (s t : State), exec c s = .next t → t.pending = s.pending ∧ s.out <+: t.out

/-- The module's identity and birth data never change, and its owner record changes only by CLAIM, TRANSFER and
RELEASE: no other command, and no time, removes or replaces an owner. -/
def Obligations.OwnerAndIdentity : Prop :=
  ∀ (c : Instr) (s t : State), exec c s = .next t →
    t.flash.serial = s.flash.serial ∧ t.flash.cert = s.flash.cert ∧ t.flash.birthDigest = s.flash.birthDigest ∧
    t.flash.train = s.flash.train ∧ t.flash.curves = s.flash.curves ∧ t.flash.macs = s.flash.macs ∧
    s.tick.flash.owner = s.flash.owner ∧
    (match c with
      | .claimSession _ _ _ _ _ _ | .transferSession _ _ _ _ _ _ | .releaseSession _ _ _ _ _ _ => True
      | _ => t.flash.owner = s.flash.owner)

/-- The module right after power-on reset: nothing waits, every register reads its reset value, memory lists nothing,
no session is open, no step runs, and the state is good. -/
def Obligations.ResetState : Prop :=
  State.reset.good = true ∧ State.reset.pending = [] ∧ State.reset.out = [] ∧ (∀ k, State.reset.rd k = (csrReset k).toNat) ∧
  (∀ a, State.reset.byte a = 0) ∧ State.reset.seq.mode = .idle ∧ State.reset.hcp.sessions = [] ∧
  State.reset.powered = true ∧ State.reset.boot.rom = .running ∧ State.reset.time = 0

/-- An idle nanosecond while no matrix engine reduces a chain: device time and pod time advance while the package is
powered and REF or INT runs (R563), and nothing but the registers of time and the counters of caps changes while
neither a reset nor a commit waits. Pod time slews only while the parent link is UP (R403, R404). The queue's idle
step is the model's choice (log 60). -/
def Obligations.IdleTime : Prop :=
  ∀ s : State, (∀ c ∈ s.cores, (s.me c.1).reducing? = none) →
    let runs := s.powered = true ∧ ¬(s.srcFailed 0 = true ∧ s.srcFailed 2 = true)
    (¬runs → s.hubOn = false → s.tick = { s with wall := s.wall + 1 }) ∧
    (runs → s.seq.deferred = [] → s.lay.waiting = false → ∀ t, t = s.tick →
      let synced := ∃ p, s.parentPort = some p ∧ s.linkSt p = 4
      t.time = (s.time + 1) % 2 ^ 64 ∧ t.wall = s.wall + 1 ∧
      (s.net.slew = 0 ∨ ¬synced → t.rd kPodTime = (s.rd kPodTime + 1) % 2 ^ 64 ∧ t.net = s.net) ∧
      (synced → 0 < s.net.slew → s.wall % 5000 = 4999 →
        t.rd kPodTime = (s.rd kPodTime + 2) % 2 ^ 64 ∧ t.net.slew = s.net.slew - 1) ∧
      (synced → s.net.slew < 0 → s.wall % 5000 = 4999 → t.rd kPodTime = s.rd kPodTime ∧ t.net.slew = s.net.slew + 1) ∧
      RegsExcept [kTime, kPodTime, kPwrCount 0, kPwrCount 1] s t ∧ t.mem = s.mem ∧ t.out = s.out ∧ t.cores = s.cores)

/-- Serial numbers are compared modulo their width, and a difference of exactly half orders neither (R5). -/
def Obligations.SerialNumbers : Prop :=
  ∀ n a b : Nat, 1 ≤ n → a < 2 ^ n → b < 2 ^ n →
    (serialLater n a b = true ↔ 1 ≤ ((a : Int) - b) % 2 ^ n ∧ ((a : Int) - b) % 2 ^ n ≤ 2 ^ (n - 1) - 1) ∧
    (((a : Int) - b) % 2 ^ n = 2 ^ (n - 1) → serialLater n a b = false ∧ serialLater n b a = false)

/-- A read of an unassigned offset of CSR space gives 0, and a write to one is ignored, without error where the block
answers (R11). -/
def Obligations.UnassignedOffsets : Prop :=
  ∀ (s : State) (off n : Nat) (v : W64), regFind off = none →
    (s.csrRead off n).2 = 0 ∧ exec (.registerWrite off n v) s = .next s ∧
    (s.csrGated off = false → (csrBlock off = 5 → s.absent (coreOfCsr off) = false) → off + n ≤ 0x1000000 →
      csrOverlaps off n = false → (s.csrRead off n).1 = .ok ∧ (s.csrWrite off n v.toNat).1 = .ok)

/-- A global address is served by this module, by the module that its node field names, or by none (R330); one that no
path reaches is UNREACHABLE (R398). -/
def Obligations.AddressedModules : Prop :=
  ∀ (s : State) (g : Nat), ∀ node, node = fld g 44 20 →
    (node = 0xFFFFF ∨ node = s.node → ∀ a, a = g % 2 ^ 44 →
      s.serve g = .here a ∧ (∀ op, s.serveGlobal g op = s.serveLocal a op)) ∧
    (node ≠ 0xFFFFF → node ≠ s.node → s.inLayout node = false →
      (∀ n, s.serveGlobal g (.read n) = (.unmapped, [], s)) ∧
      (∀ b lost, s.serveGlobal g (.write b lost) = (.unmapped, [], s))) ∧
    (node ≠ 0xFFFFF → node ≠ s.node → s.inLayout node = true → s.serve g = .there ∧
      (s.reaches node = false → ∀ n, s.serveGlobal g (.read n) = (.unreachable, [], { s with free := s.free + 1 })) ∧
      (s.reaches node = true → ∀ n, ∃ b, s.serveGlobal g (.read n) =
        (codeOf (Config.remoteCode s.free g n), b, { s with free := s.free + 1 }))) ∧
    (∀ (a : BitVec 44) op, s.hubOn = true → s.fencedAll = false → exec (.remoteAccess a op) s =
      .next ((s.serveLocal a.toNat op).2.2.emit (.access 255 (s.serveLocal a.toNat op).1 (s.serveLocal a.toNat op).2.1)))

/-- The values of the exponent-only scale format (R122). -/
def Obligations.ScaleCodes : Prop :=
  (∀ c, c < 255 → decodeCode (fmtOf (paletteReset 10)) c = (.fin false 1 ((c : Int) - 127), 0)) ∧
  (decodeCode (fmtOf (paletteReset 10)) 255).1 = .nan

/-- A store of memory is read back, and every other byte reads as before; one of several bytes to an unassigned place
of CSR space is ignored (R11, R329). A register holds what was last written and no other one changes (R6). -/
def Obligations.MemoryAndRegistersReadBack : Prop :=
  (∀ (s : State) (a : Nat) (b : List Byte),
     (∀ i (h : i < b.length), (s.poke a b).byte (a + i) = b[i]) ∧ BytesExcept a b.length s (s.poke a b) ∧
     (s.poke a b).bytes a b.length = b ∧ (s.poke a b).csr = s.csr ∧
     (∀ own u, s.memWrite own a b = (.ok, u) →
       (regionOf a = .csr → u = s) ∧
       (regionOf a ≠ .csr → bit (s.rd kParityCtrl) 0 = false →
         u.bytes a b.length = b ∧ BytesExcept a b.length s u ∧ u.csr = s.csr))) ∧
  (∀ (s : State) (k v : Nat),
     (s.wr k v).rd k = v % 2 ^ 64 ∧ RegsExcept [k] s (s.wr k v) ∧ (s.wr k v).mem = s.mem ∧
     (∀ lo w x, lo + w ≤ 64 → (s.wrf k lo w x).rdf k lo w = x % 2 ^ w ∧
       (∀ lo' w', lo' + w' ≤ lo ∨ lo + w ≤ lo' → (s.wrf k lo w x).rdf k lo' w' = s.rdf k lo' w')) ∧
     (∀ n, (s.bump k n).rd k = min (s.rd k + n) (2 ^ 64 - 1)))

/-- A master's write of a register: one of another width, at an offset that overlaps a register, of a gated domain or
of an absent core changes nothing, nor does one at an unassigned offset, which reads 0 whatever the width; any other
acts as its register says, a register of plain fields taking its RW bits and no other register changing (R6, R10,
R11). A write of a user entry of the Palette: while IDLE a good one is stored, one with VALID 0 stores 0, and any
other leaves the entry and notes why and where (R125 to R128, R144). Recipes: constants may be written at any time,
any other word of a user recipe ends its VALID, and a commit checks in R252's order (R248, R252, R253). SEQ_STEP is
writable while IDLE alone, and CLEAR_MIXED acts while no step runs (R66, R72). -/
def Obligations.RegisterWrites : Prop :=
  (∀ (s : State) (off n : Nat) (v : W64), s.powered = true →
     (∀ c, s.csrAccess off n = (c, none) → exec (.registerWrite off n v) s = .next s) ∧
     (off + n ≤ 0x1000000 → s.csrGated off = false → (csrBlock off = 5 → s.absent (coreOfCsr off) = false) →
       regFind off = none → csrOverlaps off n = false →
       s.csrRead off n = (.ok, 0) ∧ exec (.registerWrite off n v) s = .next s) ∧
     (∀ r, s.csrAccess off n = (.ok, some r) →
       exec (.registerWrite off n v) s = .next (s.csrPut off r v.toNat).2 ∧
       (csrBlock off = 5 ∨ (csrBlock off = 7 ∧ r.o < 0x100) → r.row.w1c = 0 → ∀ t, t = (s.csrPut off r v.toNat).2 →
         t.rd r.key = masked (s.rd r.key) r.row.rw (v.toNat % 2 ^ (8 * r.row.bytes)) ∧ RegsExcept [r.key] s t ∧
         t.out = s.out ∧ SameBytes s t))) ∧
  (∀ (s : State) (n : Fin 4) (v : W32), s.powered = true → ∃ t, exec (.qzPaletteWrite n v) s = .next t ∧
     SameBytes s t ∧
     (s.isIdle = true → bit v.toNat 31 = false → t.rd (kPalette (12 + n)) = 0 ∧ RegsExcept [kPalette (12 + n)] s t) ∧
     (s.isIdle = true → bit v.toNat 31 = true → paletteOk v.toNat = true →
       t.rd (kPalette (12 + n)) = v.toNat ∧ RegsExcept [kPalette (12 + n)] s t) ∧
     (s.isIdle = false ∨ (bit v.toNat 31 = true ∧ paletteOk v.toNat = false) → RegsExcept [kPaletteSticky] s t ∧
       fld (t.rd kPaletteSticky) 4 4 = 12 + n ∧
       (s.isIdle = false → bit (t.rd kPaletteSticky) 0 = true) ∧
       (s.isIdle = true → bit (t.rd kPaletteSticky) 1 = true))) ∧
  (∀ s : State, s.powered = true →
     (∀ (n : Fin 32) (w : Fin 128) (v : W32), ∃ t, exec (.recipeWrite n w v) s = .next t ∧ SameBytes s t ∧
       (16 ≤ w.val → w.val < 32 → t.rd (kRecipe n w) = v.toNat ∧ RegsExcept [kRecipe n w] s t) ∧
       (¬(16 ≤ w.val ∧ w.val < 32) → n.val < 3 → t = s) ∧
       (¬(16 ≤ w.val ∧ w.val < 32) → 3 ≤ n.val → w.val < 96 →
         bit (t.rd (kRecipe n 0)) 0 = false ∧ RegsExcept [kRecipe n 0, kRecipe n w] s t)) ∧
     (∀ v : W32, ∀ n, n = v.toNat % 32 → ∃ t, exec (.recipeCommit v) s = .next t ∧ SameBytes s t ∧
       (bit v.toNat 8 = false → t = s) ∧
       (bit v.toNat 8 = true → ∀ res, res = t.rdf (wideKey 0x110024) 16 8 →
         (n < 3 → res = 4 ∧ RegsExcept [wideKey 0x110024] s t) ∧
         (3 ≤ n → s.isIdle = false → res = 2 ∧ RegsExcept [wideKey 0x110024] s t) ∧
         (3 ≤ n → s.isIdle = true → s.recipeOk n = false → res = 3 ∧ RegsExcept [wideKey 0x110024] s t) ∧
         (3 ≤ n → s.isIdle = true → s.recipeOk n = true → res = 1 ∧ bit (t.rd (kRecipe n 0)) 0 = true ∧
           t.rd (kRecipe n 2) = s.slotOff n (s.recSlots n) % 2 ^ 64)))) ∧
  (∀ s : State, s.powered = true →
     (∀ v : W64, s.isIdle = true → exec (.seqStepSet v) s = .next (s.wr kSeqStep (v.toNat % 2 ^ 48)) ∧
       (s.wr kSeqStep (v.toNat % 2 ^ 48)).step = v.toNat % 2 ^ 48) ∧
     (∀ v : W64, s.isIdle = false → exec (.seqStepSet v) s = .next s) ∧
     (s.quiet = true → exec .clearMixed s = .next { s with seq := { s.seq with mixed := false } }) ∧
     (s.quiet = false → exec .clearMixed s = .next s))

/-- An access that wins its rounds, or one of another module, is served at its address with R332's completion code; an
access that loses a round is not served, nor does one begin that an order command holds (R330 to R332, R361, R362,
R366). A hold is cut off, and its access completes with CUTOFF for its engine, and a winner withdraws, only where the
arbiter counts (R332, R364, R365). -/
def Obligations.MemoryAccessesAndArbitration : Prop :=
  ((∀ (s : State) (req : Fin 11) (g : W64) (op : MemOp) (rv : List (Fin 11)) (via : Option XbarReq), s.powered = true →
     (s.fencedAll = true ∨ (∃ x, via = some x ∧ s.fencedTile x.tile.val = true) →
       exec (.memoryAccess req g op rv via) s = .next s) ∧
     (s.fencedAll = false → (∀ x, via = some x → s.fencedTile x.tile.val = false) →
     ∀ go u, (go, u) = (match via with | some x => s.xbarRound x | none => (true, s)) →
     (go = false → exec (.memoryAccess req g op rv via) s = .next u) ∧
     (go = true → ∀ a, u.serve g.toNat = .here a → ∀ won v, u.bankRound a req (rv.map (·.val)) = (won, v) →
       (won = false → exec (.memoryAccess req g op rv via) s = .next v) ∧
       (won = true → ∀ c b w, v.serveGlobal g.toNat op = (c, b, w) →
         exec (.memoryAccess req g op rv via) s = .next (w.emit (.access req c b)))) ∧
     (go = true → u.serve g.toNat = .nowhere →
       exec (.memoryAccess req g op rv via) s = .next (u.emit (.access req .unmapped []))))) ∧
   (∀ (s : State) (a : BitVec 44) (op : MemOp),
     (s.hubOn = false ∨ s.fencedAll = true → exec (.remoteAccess a op) s = .next s) ∧
     (s.hubOn = true → s.fencedAll = false → ∀ c b u, s.serveLocal a.toNat op = (c, b, u) →
       exec (.remoteAccess a op) s = .next (u.emit (.access 255 c b)))) ∧
   (∀ (s : State) (a n : Nat), regionOf a ≠ .csr → s.accessCode a n = .ok → s.ueAt a n = none →
     s.serveLocal a (.read n) = (.ok, s.bytes a n, s)) ∧
   (∀ (s : State) (a : Nat) (b : List Byte) c u, regionOf a ≠ .csr → s.serveLocal a (.write b false) = (c, [], u) →
     s.accessCode a b.length ≠ .ok ∨ (regionOf a = .granary ∧ s.quiet = false) → c ≠ .ok ∧ SameBytes s u)) ∧
  ((∀ (s : State) (a : BitVec 44) (req : Fin 11), s.fabOn (tileOf a.toNat) = true →
     ∀ b core, b = tileBase (tileOf a.toNat) → core = decide (regionOf a.toNat = .core) →
     ((core = true ∧ req.val < 6 ∧ s.rdf (b + 0x120204) 8 16 ≠ 0) ∨
       (regionOf a.toNat = .studio ∧ s.rdf (b + 0x120210) 8 16 ≠ 0) →
       ∀ v, v = (if core then a.toNat / 0x100000 else 0x7FF) +
         (if core then coreBank a.toNat else studioBank a.toNat) * 2 ^ 16 + req.val * 2 ^ 24 + 2 ^ 63 →
       ∀ u, u = (((((s.orBits (b + 0x120228) (2 ^ (if core then req.val else 16 + req.val))).wr
         (b + 0x120230) v).bump (b + 0x120238) 1).raise 0x0901 1 (tileOf a.toNat) v).emit (.access req .cutoff [])) →
       exec (.holdCutoff a req) s = .next (if core then u.coreCut (a.toNat / 0x100000) req.val
         else u.studioCut (tileOf a.toNat) req.val)) ∧
     (¬((core = true ∧ req.val < 6 ∧ s.rdf (b + 0x120204) 8 16 ≠ 0) ∨
       (regionOf a.toNat = .studio ∧ s.rdf (b + 0x120210) 8 16 ≠ 0)) → exec (.holdCutoff a req) s = .next s)) ∧
   (∀ (s : State) (x : XbarReq), s.fabOn x.tile = true → ∀ t, t = x.tile.val →
     ((s.xbarRound x).1 = true → exec (.withdraw x) s = .next
       ((s.setArb (arbXbar t x.port.val) ((s.arbOf (arbXbar t x.port.val)).withdraw (s.xbarBase t) x.slot.val
         (distinct (x.slot.val :: x.rivals.map (·.val))))).bump (tileBase t + 0x120240) 1)) ∧
     ((s.xbarRound x).1 = false → exec (.withdraw x) s = .next s)))

/-- What a read that ends corrected or failed does at its site: memory is reconstructed where parity covers it and
else marked, and a unit's own storage ends what it works at; what a scrub finds, a parity delta and a message (R336 to
R338, R397, R398, R457, R458, R461, R557, R558, R573). -/
def Obligations.MemoryErrors : Prop :=
  ∀ s : State, s.powered = true →
    (∀ site, exec (.readCompletion site .retried) s = .next s) ∧
    (∀ a : BitVec 44, exec (.readCompletion (.mem a) .corrected) s = .next (s.noteCe a.toNat)) ∧
    (∀ (a : BitVec 44) r, regionOf a.toNat = .none ∨ (regionOf a.toNat = .csr ∧ ringSlotAt (a.toNat - csrBase) = none) →
      exec (.readCompletion (.mem a) (.failed r)) s = .next s) ∧
    (∀ (a : BitVec 44) r k, regionOf a.toNat = .csr → ringSlotAt (a.toNat - csrBase) = some k →
      ∀ u : State, u = { s with erec := { s.erec with badSlots := k :: s.erec.badSlots.filter (· ≠ k) } } →
      exec (.readCompletion (.mem a) (.failed r)) s = .next ((u.orBits kRecSticky 2).raise 0x0407 0 0 a.toNat)) ∧
    (∀ off n r k, s.csrAccess off n = (.ok, some r) → ringSlotAt off = some k → k ∈ s.erec.badSlots →
      s.csrRead off n = (.ue, 0)) ∧
    (∀ (a : BitVec 44) r, regionOf a.toNat ≠ .none → regionOf a.toNat ≠ .csr → s.isProtected a.toNat = false →
      s.inParity a.toNat = false → exec (.readCompletion (.mem a) (.failed r)) s = .next (s.markUe a.toNat)) ∧
    (∀ a : BitVec 44, regionOf a.toNat ≠ .none → regionOf a.toNat ≠ .csr → s.isProtected a.toNat = true →
      (∀ b, exec (.readCompletion (.mem a) (.failed (.bytes b))) s = .next
        (((((s.noteUe a.toNat).poke (a.toNat / 64 * 64) (slice b 0 64)).bump (wideKey 0x130240) 1).raise 0x0805 1
          (tileOf a.toNat) (a.toNat / 4096 * 4096)))) ∧
      exec (.readCompletion (.mem a) (.failed .doubleLoss)) s = .next ((s.orBits (wideKey 0x130214) 1).markUe a.toNat) ∧
      exec (.readCompletion (.mem a) (.failed .stripeTorn)) s = .next ((s.orBits (wideKey 0x130214) 2).markUe a.toNat)) ∧
    (∀ a : BitVec 44, regionOf a.toNat ≠ .none → regionOf a.toNat ≠ .csr → s.isProtected a.toNat = false →
      s.inParity a.toNat = true →
      (∀ b, exec (.readCompletion (.mem a) (.failed (.bytes b))) s = .next
        (((s.noteUe a.toNat).orBits (wideKey 0x130214) 4).poke (a.toNat / 64 * 64) (slice b 0 64))) ∧
      exec (.readCompletion (.mem a) (.failed .doubleLoss)) s = .next ((s.orBits (wideKey 0x130214) 4).markUe a.toNat) ∧
      exec (.readCompletion (.mem a) (.failed .stripeTorn)) s = .next ((s.orBits (wideKey 0x130214) 4).markUe a.toNat)) ∧
    (∀ c, exec (.readCompletion (.veRegs c) .corrected) s = .next (s.raise 0x0406 2 c 0) ∧
      exec (.readCompletion (.meBuffer c) .corrected) s = .next (s.raise 0x0406 2 c 0) ∧
      exec (.readCompletion (.dmaBuffer c) .corrected) s = .next (s.raise 0x0406 2 c 0) ∧
      exec (.readCompletion (.queue c) .corrected) s = .next (s.raise 0x0406 2 c 0) ∧
      ∀ k, exec (.readCompletion (.veStore c k) .corrected) s = .next (s.raise 0x0406 2 c 0)) ∧
    (∀ (c : CoreId) r u, u = s.raise 0x0407 2 c 0 →
      (∀ sh, (u.ve c).run = some sh → (u.ve c).ended = false → exec (.readCompletion (.veRegs c) (.failed r)) s = .next
        (u.veFault c vfMemUe (u.ve c).pc ((u.veInsn c).elim 0 vOp) true)) ∧
      ((u.ve c).run = none ∨ (u.ve c).ended = true → exec (.readCompletion (.veRegs c) (.failed r)) s = .next u) ∧
      (∀ ch l, (u.me c).chains = ch :: l → exec (.readCompletion (.meBuffer c) (.failed r)) s = .next (u.chainFail c true ch)) ∧
      ((u.me c).chains = [] → exec (.readCompletion (.meBuffer c) (.failed r)) s = .next u) ∧
      (∀ x l, (u.ve c).dma = x :: l → exec (.readCompletion (.dmaBuffer c) (.failed r)) s = .next (u.dmaEnd c x .ue)) ∧
      ((u.ve c).dma = [] → exec (.readCompletion (.dmaBuffer c) (.failed r)) s = .next u) ∧
      (∀ k, exec (.readCompletion (.veStore c k) (.failed r)) s = .next (u.veStoreFails c k)) ∧
      exec (.readCompletion (.queue c) (.failed r)) s = .next (u.veQueueFails c)) ∧
    (∀ t, exec (.readCompletion (.table t) .corrected) s = .next (s.raise 0x0406 1 t 0)) ∧
    (∀ t r, exec (.readCompletion (.table t) (.failed r)) s = .next ((s.raise 0x0407 1 t 0).fault t .memUe)) ∧
    (∀ a : BitVec 44, ∀ t, t = tileOf a.toNat →
      (regionOf a.toNat = .hbm ∨ regionOf a.toNat = .granary → exec (.patrolScrub a true) s = .next (s.noteCe a.toNat)) ∧
      (regionOf a.toNat = .hbm → exec (.patrolScrub a false) s = .next
        (((s.wr (tileBase t + 0x120128) (2 ^ 63 + a.toNat)).raise 0x0402 1 t a.toNat).markUe a.toNat)) ∧
      (regionOf a.toNat = .granary → exec (.patrolScrub a false) s = .next
        (((s.wr (tileBase t + 0x1200A0) (2 ^ 63 + s.rdf (tileBase t + 0x1200A0) 48 15 * 2 ^ 48 + a.toNat)).raise 0x0405 1 t
          a.toNat).markUe a.toNat))) ∧
    (s.hubOn = true →
      (∀ gran j off x, bit (s.rd kParityCtrl) 0 = true → j < s.parityUnits gran → off + x.length ≤ 4096 →
        exec (.parityDelta gran j off x) s = .next (s.poke (s.parityAddr gran j + off)
          (xorBytes (s.bytes (s.parityAddr gran j + off) x.length) x))) ∧
      (∀ gran j off x, bit (s.rd kParityCtrl) 0 = false ∨ s.parityUnits gran ≤ j ∨ 4096 < off + x.length →
        exec (.parityDelta gran j off x) s = .next s) ∧
      (∀ k n m rest, s.net.assembled = (k, n, m) :: rest → exec .messageReceived s = .next
        ((({ s with net := { s.net with assembled := rest } } : State).freeBuffers (k / 16) (k % 16) n).takeMessage (k / 16)
          (k % 16) m)))

/-- Scalar instructions (R182). Instructions that decide the PC (R182, R179, R205). -/
def Obligations.VeScalarsAndControl : Prop :=
  (∀ (c : CoreId) (s : State) (w : Nat),
     (s.veDue c 0x10 w → exec (.sli c) s = .next (s.veX c 0x10 w (vSext w))) ∧
     (s.veDue c 0x11 w → exec (.slui c) s = .next (s.veX c 0x11 w
       (BitVec.ofNat 64 (vImm w * 2 ^ 32 + (s.xa c w).toNat % 2 ^ 32)))) ∧
     (s.veDue c 0x12 w → exec (.sadd c) s = .next (s.veX c 0x12 w (s.xa c w + s.xb c w + vSext w))) ∧
     (s.veDue c 0x13 w → exec (.ssub c) s = .next (s.veX c 0x13 w (s.xa c w - s.xb c w))) ∧
     (s.veDue c 0x14 w → exec (.smul c) s = .next (s.veX c 0x14 w (s.xa c w * s.xb c w))) ∧
     (s.veDue c 0x15 w → exec (.sand c) s = .next (s.veX c 0x15 w (s.xa c w &&& s.xb c w))) ∧
     (s.veDue c 0x16 w → exec (.sor c) s = .next (s.veX c 0x16 w (s.xa c w ||| s.xb c w))) ∧
     (s.veDue c 0x17 w → exec (.sxor c) s = .next (s.veX c 0x17 w (s.xa c w ^^^ s.xb c w))) ∧
     (s.veDue c 0x18 w → exec (.sshl c) s = .next (s.veX c 0x18 w
       (s.xa c w <<< (((s.xb c w).toNat + vImm w) % 64)))) ∧
     (s.veDue c 0x19 w → exec (.sshr c) s = .next (s.veX c 0x19 w
       (s.xa c w >>> (((s.xb c w).toNat + vImm w) % 64)))) ∧
     (s.veDue c 0x1A w → exec (.scmplt c) s = .next (s.veX c 0x1A w
       (if (s.xa c w).toInt < (s.xb c w).toInt then 1 else 0))) ∧
     (s.veDue c 0x1B w → exec (.scmpeq c) s = .next (s.veX c 0x1B w (if s.xa c w = s.xb c w then 1 else 0))) ∧
     (s.veDue c 0x1E w → vImm w = 0 → exec (.sget c) s = .next (s.veX c 0x1E w (BitVec.ofNat 64 c.val))) ∧
     (s.veDue c 0x1E w → ∀ sh, (s.ve c).run = some sh → vImm w = 1 →
       exec (.sget c) s = .next (s.veX c 0x1E w (BitVec.ofNat 64 sh.idx))) ∧
     (s.veDue c 0x1E w → ∀ sh, (s.ve c).run = some sh → vImm w = 2 →
       exec (.sget c) s = .next (s.veX c 0x1E w (BitVec.ofNat 64 sh.n))) ∧
     (s.veDue c 0x1E w → vImm w = 3 → exec (.sget c) s = .next (s.veX c 0x1E w (BitVec.ofNat 64 s.step))) ∧
     (s.veDue c 0x1E w → vImm w = 4 → exec (.sget c) s = .next (s.veX c 0x1E w (BitVec.ofNat 64 (c.val / 300)))) ∧
     (s.veDue c 0x1E w → vImm w = 5 → exec (.sget c) s = .next (s.veX c 0x1E w (BitVec.ofNat 64 s.time))) ∧
     (s.veDue c 0x1E w → vImm w > 5 → exec (.sget c) s = .next (s.veFault c vfIllegal (s.ve c).pc 0x1E false))) ∧
  (∀ (c : CoreId) (s : State) (w : Nat),
     (s.veDue c 0x00 w → exec (.veNop c) s = .next (s.veRetire c 0x00 ((s.ve c).pc + 1))) ∧
     (s.veDue c 0x01 w → exec (.halt c) s = .next ((s.bump (coreBase c + 0x130) 1).setVe c
       { s.ve c with ended := true, retired := (s.ve c).retired + 1, wait := .none })) ∧
     (s.veDue c 0x02 w → exec (.jmp c) s = .next (s.veRetire c 0x02 ((s.ve c).pc + sext (vImm w) 32))) ∧
     (s.veDue c 0x03 w → exec (.bz c) s = .next (s.veRetire c 0x03
       ((s.ve c).pc + if s.xa c w = 0 then sext (vImm w) 32 else 1))) ∧
     (s.veDue c 0x04 w → exec (.bnz c) s = .next (s.veRetire c 0x04
       ((s.ve c).pc + if s.xa c w = 0 then 1 else sext (vImm w) 32))) ∧
     (s.veDue c 0x05 w → exec (.loop c) s = .next ((s.setVe c ((s.ve c).setX (vD w) ((s.ve c).xr (vD w) - 1))).veRetire c 0x05
       ((s.ve c).pc + if (s.ve c).xr (vD w) = 1 then 1 else sext (vImm w) 32))))

/-- The VE's register files (R176, R184): M0 reads as all ones and ignores writes; a write is read back and changes no
other register; a vector write changes its active lanes and keeps or zeroes the others by MZ. What retirement does
(R205): VE_RETIRED counts, PC takes its target, and a target outside the program ends the share with PC_RANGE. -/
def Obligations.VeRegistersAndRetirement : Prop :=
  (∀ (v : VeState) (w n m : Nat) (x : W64),
     v.mr 0 = BitVec.allOnes 64 ∧ v.setM 0 x = v ∧
     ((v.setX n x).xr n = x ∧ (m ≠ n → (v.setX n x).xr m = v.xr m)) ∧
     (n ≠ 0 → (v.setM n x).mr n = x) ∧ (m ≠ n → (v.setM n x).mr m = v.mr m) ∧
     (∀ (f : Nat → W32) (l : Nat), l < 64 →
       (v.writeV w ((v.active w).map fun l => (l, f l))).lane (vD w) l =
         if (v.mr (vMask w)).getLsbD l then f l else if vMz w then 0 else v.lane (vD w) l) ∧
     (∀ (f : Nat → W32) (l : Nat), l < 64 → m ≠ vD w →
       (v.writeV w ((v.active w).map fun l => (l, f l))).lane m l = v.lane m l)) ∧
  (∀ (c op : Nat) (s : State) (target : Int),
     (0 ≤ target ∧ target < (s.ve c).insns.length →
       ((s.veRetire c op target).ve c).pc = target.toNat ∧ ((s.veRetire c op target).ve c).ended = (s.ve c).ended ∧
       RegsExcept [coreBase c + 0x130] s (s.veRetire c op target)) ∧
     (¬(0 ≤ target ∧ target < (s.ve c).insns.length) →
       ((s.veRetire c op target).ve c).pc = (s.ve c).pc ∧ ((s.veRetire c op target).ve c).ended = true ∧
       (s.veRetire c op target).rd (coreBase c + 0x110) = Nat.lor (s.rd (coreBase c + 0x110)) 8 % 2 ^ 64 ∧
       RegsExcept [coreBase c + 0x130, coreBase c + 0x110, coreBase c + 0x114] s (s.veRetire c op target)) ∧
     ((s.veRetire c op target).ve c).retired = (s.ve c).retired + 1 ∧
     (s.veRetire c op target).rd (coreBase c + 0x130) = min (s.rd (coreBase c + 0x130) + 1) (2 ^ 64 - 1) ∧
     ((s.veRetire c op target).ve c).x = (s.ve c).x ∧ ((s.veRetire c op target).ve c).v = (s.ve c).v ∧
     ((s.veRetire c op target).ve c).m = (s.ve c).m ∧ (s.veRetire c op target).me c = s.me c ∧
     (∀ d, d ≠ c → (s.veRetire c op target).core d = s.core d) ∧
     (s.veRetire c op target).mem = s.mem ∧ (s.veRetire c op target).out = s.out)

/-- Integer lane instructions set no flag (R182, R189). IADDS saturates and flags it (R189), and the integer
reductions (R182, R191). -/
def Obligations.VeIntegerOperations : Prop :=
  (∀ (c : CoreId) (s : State) (w : Nat),
     (s.veDue c 0x40 w → exec (.iadd c) s = .next (s.veV c 0x40 w fun l => s.va c w l + s.vb c w l)) ∧
     (s.veDue c 0x41 w → exec (.isub c) s = .next (s.veV c 0x41 w fun l => s.va c w l - s.vb c w l)) ∧
     (s.veDue c 0x42 w → exec (.imul c) s = .next (s.veV c 0x42 w fun l => s.va c w l * s.vb c w l)) ∧
     (s.veDue c 0x44 w → exec (.imin c) s = .next (s.veV c 0x44 w fun l =>
       if (s.va c w l).toInt ≤ (s.vb c w l).toInt then s.va c w l else s.vb c w l)) ∧
     (s.veDue c 0x45 w → exec (.imax c) s = .next (s.veV c 0x45 w fun l =>
       if (s.vb c w l).toInt ≤ (s.va c w l).toInt then s.va c w l else s.vb c w l)) ∧
     (s.veDue c 0x46 w → exec (.vand c) s = .next (s.veV c 0x46 w fun l => s.va c w l &&& s.vb c w l)) ∧
     (s.veDue c 0x47 w → exec (.vor c) s = .next (s.veV c 0x47 w fun l => s.va c w l ||| s.vb c w l)) ∧
     (s.veDue c 0x48 w → exec (.vxor c) s = .next (s.veV c 0x48 w fun l => s.va c w l ^^^ s.vb c w l)) ∧
     (s.veDue c 0x49 w → exec (.vshl c) s = .next (s.veV c 0x49 w fun l => s.va c w l <<< ((s.vb c w l).toNat % 32))) ∧
     (s.veDue c 0x4A w → exec (.vshr c) s = .next (s.veV c 0x4A w fun l => s.va c w l >>> ((s.vb c w l).toNat % 32))) ∧
     (s.veDue c 0x4B w → exec (.vsra c) s = .next (s.veV c 0x4B w fun l =>
       (s.va c w l).sshiftRight ((s.vb c w l).toNat % 32))) ∧
     (s.veDue c 0x4E w → exec (.iaddi c) s = .next (s.veV c 0x4E w fun l => s.va c w l + BitVec.ofNat 32 (vImm w))) ∧
     (s.veDue c 0x4C w → exec (.icmpeq c) s = .next (s.veC c 0x4C w fun l => s.va c w l = s.vb c w l)) ∧
     (s.veDue c 0x4D w → exec (.icmplt c) s = .next (s.veC c 0x4D w fun l => (s.va c w l).toInt < (s.vb c w l).toInt))) ∧
  (∀ (c : CoreId) (s : State) (w : Nat),
     (s.veDue c 0x43 w → exec (.iadds c) s = .next (s.veVF c 0x43 w fun l =>
       let z := (s.va c w l).toInt + (s.vb c w l).toInt
       (BitVec.ofInt 32 (max (-(2 ^ 31)) (min z (2 ^ 31 - 1))),
         if -(2 ^ 31) ≤ z ∧ z ≤ 2 ^ 31 - 1 then 0 else fIsat ||| fOvf))) ∧
     (s.veDue c 0x63 w → exec (.iredsum c) s = .next (s.veX c 0x63 w
       (BitVec.ofInt 64 ((((s.ve c).active w).map fun l => (s.va c w l).toInt).foldl (· + ·) 0)))) ∧
     (s.veDue c 0x64 w → ∃ m : Int,
       exec (.iredmax c) s = .next (s.veX c 0x64 w (BitVec.ofInt 64 m)) ∧
       (∀ l ∈ (s.ve c).active w, (s.va c w l).toInt ≤ m) ∧
       (m = -(2 ^ 31) ∨ ∃ l ∈ (s.ve c).active w, m = (s.va c w l).toInt)) ∧
     (s.veDue c 0x65 w → ∃ m : Int,
       exec (.iredmin c) s = .next (s.veX c 0x65 w (BitVec.ofInt 64 m)) ∧
       (∀ l ∈ (s.ve c).active w, m ≤ (s.va c w l).toInt) ∧
       (m = 2 ^ 31 - 1 ∨ ∃ l ∈ (s.ve c).active w, m = (s.va c w l).toInt)))

/-- FP32 lane instructions (R182, R187, R188). Conversions and FP32 reductions (R183, R187, R189, R190, R191). -/
def Obligations.VeFloatOperations : Prop :=
  (∀ (c : CoreId) (s : State) (w : Nat),
     (s.veDue c 0x30 w → exec (.fadd c) s = .next (s.veVF c 0x30 w fun l => fadd (s.va c w l) (s.vb c w l))) ∧
     (s.veDue c 0x31 w → exec (.fsub c) s = .next (s.veVF c 0x31 w fun l => fsub (s.va c w l) (s.vb c w l))) ∧
     (s.veDue c 0x32 w → exec (.fmul c) s = .next (s.veVF c 0x32 w fun l => fmul (s.va c w l) (s.vb c w l))) ∧
     (s.veDue c 0x33 w → exec (.ffma c) s = .next (s.veVF c 0x33 w fun l =>
       ffma (s.va c w l) (s.vb c w l) (s.vc c w l))) ∧
     (s.veDue c 0x34 w → exec (.fdiv c) s = .next (s.veVF c 0x34 w fun l => fdiv (s.va c w l) (s.vb c w l))) ∧
     (s.veDue c 0x35 w → exec (.fsqrt c) s = .next (s.veVF c 0x35 w fun l => fsqrt (s.va c w l))) ∧
     (s.veDue c 0x36 w → exec (.fmin c) s = .next (s.veVF c 0x36 w fun l => fminmax true (s.va c w l) (s.vb c w l))) ∧
     (s.veDue c 0x37 w → exec (.fmax c) s = .next (s.veVF c 0x37 w fun l => fminmax false (s.va c w l) (s.vb c w l))) ∧
     (s.veDue c 0x38 w → exec (.fabs c) s = .next (s.veV c 0x38 w fun l => s.va c w l &&& 0x7FFFFFFF)) ∧
     (s.veDue c 0x39 w → exec (.fneg c) s = .next (s.veV c 0x39 w fun l => s.va c w l ^^^ 0x80000000)) ∧
     (s.veDue c 0x3A w → exec (.fexp2 c) s = .next (s.veVF c 0x3A w fun l => fexp2 (s.va c w l))) ∧
     (s.veDue c 0x3B w → exec (.flog2 c) s = .next (s.veVF c 0x3B w fun l => flog2 (s.va c w l))) ∧
     (s.veDue c 0x3C w → exec (.frsqrt c) s = .next (s.veVF c 0x3C w fun l => frsqrt (s.va c w l))) ∧
     (s.veDue c 0x3D w → exec (.fcmpeq c) s = .next (s.veC c 0x3D w fun l => fcmpeq (s.va c w l) (s.vb c w l))) ∧
     (s.veDue c 0x3E w → exec (.fcmplt c) s = .next (s.veC c 0x3E w fun l => fcmplt (s.va c w l) (s.vb c w l))) ∧
     (s.veDue c 0x3F w → exec (.fcmple c) s = .next (s.veC c 0x3F w fun l => fcmple (s.va c w l) (s.vb c w l)))) ∧
  (∀ (c : CoreId) (s : State) (w : Nat),
     (s.veDue c 0x50 w → (s.fmt (vImm w % 16)).valid = true → (s.fmt (vImm w / 16 % 16)).valid = true →
       vImm w / 16 % 16 ≠ 10 → exec (.cvt c) s = .next (s.veVF c 0x50 w fun l =>
         let x := decodeCode (s.fmt (vImm w % 16)) (s.va c w l).toNat
         let y := convert (s.fmt (vImm w / 16 % 16)) none x.1
         (BitVec.ofNat 32 y.1, x.2 ||| y.2))) ∧
     (s.veDue c 0x51 w → vImm w % 16 = 0 → (s.fmt (vImm w / 16 % 16)).valid = true → vImm w / 16 % 16 ≠ 10 →
       exec (.cvts c) s = .next (s.veVF c 0x51 w fun l =>
         let p := (f32 (s.va c w l)).mul (f32 (s.vb c w l))
         let y := convert (s.fmt (vImm w / 16 % 16)) none p
         (BitVec.ofNat 32 y.1, y.2 ||| flagIf p.isNan fInv))) ∧
     (s.veDue c 0x52 w → exec (.fcvti c) s = .next (s.veVF c 0x52 w fun l => fcvti (s.va c w l))) ∧
     (s.veDue c 0x53 w → exec (.icvtf c) s = .next (s.veVF c 0x53 w fun l => icvtf (s.va c w l))) ∧
     (s.veDue c 0x60 w → exec (.fredsum c) s = .next (s.veR c 0x60 w (fredsum (s.vaActive c w)))) ∧
     (s.veDue c 0x61 w → exec (.fredmax c) s = .next (s.veR c 0x61 w (fredext false (s.vaActive c w)))) ∧
     (s.veDue c 0x62 w → exec (.fredmin c) s = .next (s.veR c 0x62 w (fredext true (s.vaActive c w)))))

/-- Selection, permutation, mask registers and the counter generator (R182, R198, R200, R201). -/
def Obligations.VePermutations : Prop :=
  ∀ (c : CoreId) (s : State) (w : Nat),
    (s.veDue c 0x2A w → exec (.vbcast c) s = .next (s.veV c 0x2A w fun _ => (s.xa c w).setWidth 32)) ∧
    (s.veDue c 0x58 w → exec (.vsel c) s = .next (s.veStep c 0x58 ((s.ve c).setLanes (vD w) ((List.range 64).map fun l =>
      (l, if ((s.ve c).mr (vMask w)).getLsbD l then s.va c w l else s.vb c w l))))) ∧
    (s.veDue c 0x59 w → exec (.vperm c) s = .next (s.veV c 0x59 w fun l => s.va c w ((s.vb c w l).toNat % 64))) ∧
    (s.veDue c 0x5A w → exec (.vrot c) s = .next (s.veV c 0x5A w fun l => s.va c w ((l + (s.xb c w).toNat) % 64))) ∧
    (s.veDue c 0x5B w → exec (.vgetl c) s = .next (s.veX c 0x5B w ((s.va c w (vImm w % 64)).setWidth 64))) ∧
    (s.veDue c 0x5C w → exec (.vsetl c) s = .next (s.veStep c 0x5C
      ((s.ve c).setLane (vD w) (vImm w % 64) ((s.xa c w).setWidth 32)))) ∧
    (s.veDue c 0x5D w → exec (.vmov c) s = .next (s.veV c 0x5D w fun l => s.va c w l)) ∧
    (s.veDue c 0x68 w → exec (.mand c) s = .next (s.veM c 0x68 w (s.ma c w &&& s.mb c w))) ∧
    (s.veDue c 0x69 w → exec (.mor c) s = .next (s.veM c 0x69 w (s.ma c w ||| s.mb c w))) ∧
    (s.veDue c 0x6A w → exec (.mxor c) s = .next (s.veM c 0x6A w (s.ma c w ^^^ s.mb c w))) ∧
    (s.veDue c 0x6B w → exec (.mnot c) s = .next (s.veM c 0x6B w (~~~(s.ma c w)))) ∧
    (s.veDue c 0x6C w → exec (.mset c) s = .next (s.veM c 0x6C w (s.xa c w))) ∧
    (s.veDue c 0x6D w → exec (.mget c) s = .next (s.veX c 0x6D w (s.ma c w))) ∧
    (s.veDue c 0x6E w → exec (.mpop c) s = .next (s.veX c 0x6E w
      (BitVec.ofNat 64 ((List.range 64).countP fun l => (s.ma c w).getLsbD l)))) ∧
    (s.veDue c 0x70 w → exec (.rand c) s = .next (s.veV c 0x70 w fun l =>
      BitVec.ofNat 32 (counterWord (s.rd kJobSeed) (((s.xa c w).toNat + l) % 2 ^ 48) (fld (s.xc c w).toNat 0 16) s.step
        (fld (s.xc c w).toNat 28 4) (fld (s.xc c w).toNat 16 12) (vImm w % 4)))) ∧
    (s.veDue c 0x71 w → (s.xb c w).toNat ≤ 2 ^ 32 → exec (.maskgen c) s = .next (s.veC c 0x71 w fun l =>
      (s.xb c w).toNat ≤ (BitVec.ofNat 32 (counterWord (s.rd kJobSeed) (((s.xa c w).toNat + l) % 2 ^ 48)
        (fld (s.xc c w).toNat 0 16) s.step 0 (fld (s.xc c w).toNat 16 12) 0)).toNat)) ∧
    (s.veDue c 0x71 w → (s.xb c w).toNat > 2 ^ 32 →
      exec (.maskgen c) s = .next (s.veFault c vfIllegal (s.ve c).pc 0x71 false))

/-- Loads (R182, R185). Stores (R182, R184, R186). -/
def Obligations.VeLoadsAndStores : Prop :=
  (∀ (c : CoreId) (s : State) (w : Nat), s.veQuietMem c →
     (s.veDue c 0x1C w → (veBase (s.ve c) w).toNat % 8 = 0 → (veBase (s.ve c) w).toNat + 8 ≤ 0x100000 →
       exec (.sld c) s = .next (s.veX c 0x1C w (BitVec.ofNat 64
         (leNat (s.bytes (coreAddr c (veBase (s.ve c) w).toNat) 8))))) ∧
     (s.veDue c 0x20 w → ∀ sp, sp = plainSpans (veBase (s.ve c) w) 4 ((s.ve c).active w) →
       (∀ e ∈ sp, e.2.ok 4 = true) → exec (.vld c) s = .next (s.veLoaded c 0x20 w sp)) ∧
     (s.veDue c 0x22 w → ∀ sp, sp = plainSpans (veBase (s.ve c) w) 2 ((s.ve c).active w) →
       (∀ e ∈ sp, e.2.ok 1 = true) → exec (.vld16 c) s = .next (s.veLoaded c 0x22 w sp)) ∧
     (s.veDue c 0x24 w → ∀ sp, sp = plainSpans (veBase (s.ve c) w) 1 ((s.ve c).active w) →
       (∀ e ∈ sp, e.2.ok 1 = true) → exec (.vld8 c) s = .next (s.veLoaded c 0x24 w sp)) ∧
     (s.veDue c 0x26 w → (s.fmt (vImm w % 16)).valid = true →
       ∀ sp, sp = packedSpans (vePacked (s.ve c) w) (s.fmt (vImm w % 16)).width ((s.ve c).active w) →
       (∀ e ∈ sp, e.2.ok 1 = true) → exec (.vldp c) s = .next (s.veLoaded c 0x26 w sp)) ∧
     (s.veDue c 0x28 w → ∀ sp, sp = offsetSpans (s.xa c w) (s.ve c) (vB w) ((s.ve c).active w) →
       (∀ e ∈ sp, e.2.ok 4 = true) → exec (.vgather c) s = .next (s.veLoaded c 0x28 w sp))) ∧
  (∀ (c : CoreId) (s : State) (w : Nat), s.veQuietMem c →
     (s.veDue c 0x1D w → (veBase (s.ve c) w).toNat + 8 ≤ 0x100000 →
       exec (.sst c) s = .next ((s.poke (coreAddr c (veBase (s.ve c) w).toNat) (leBytes 8 (s.xb c w).toNat)).veRetire c 0x1D
         ((s.ve c).pc + 1))) ∧
     (s.veDue c 0x21 w → ∀ sp, sp = plainSpans (veBase (s.ve c) w) 4 ((s.ve c).active w) →
       (∀ e ∈ sp, e.2.ok 4 = true) → exec (.vst c) s = .next (s.veStored c 0x21 w sp)) ∧
     (s.veDue c 0x23 w → ∀ sp, sp = plainSpans (veBase (s.ve c) w) 2 ((s.ve c).active w) →
       (∀ e ∈ sp, e.2.ok 1 = true) → exec (.vst16 c) s = .next (s.veStored c 0x23 w sp)) ∧
     (s.veDue c 0x25 w → ∀ sp, sp = plainSpans (veBase (s.ve c) w) 1 ((s.ve c).active w) →
       (∀ e ∈ sp, e.2.ok 1 = true) → exec (.vst8 c) s = .next (s.veStored c 0x25 w sp)) ∧
     (s.veDue c 0x27 w → (s.fmt (vImm w % 16)).valid = true →
       ∀ sp, sp = packedSpans (vePacked (s.ve c) w) (s.fmt (vImm w % 16)).width ((s.ve c).active w) →
       (∀ e ∈ sp, e.2.ok 1 = true) → exec (.vstp c) s = .next (s.veStored c 0x27 w sp)) ∧
     (s.veDue c 0x29 w → ∀ sp, sp = offsetSpans (s.xa c w) (s.ve c) (vB w) ((s.ve c).active w) →
       (∀ e ∈ sp, e.2.ok 4 = true) → exec (.vscatter c) s = .next (s.veStored c 0x29 w sp)))

/-- POPT pops the queue head into 16 vector registers, or waits for it (R192, R100, R101, R102). DMAGET, DMAPUT and
DMAWAIT (R193, R195); a transfer is not issued while an order command holds the core's accesses back (R361). A core
DMA transfer moves its bytes and completes; its error is kept for DMAWAIT, after those before it (R104, R105, R195).
-/
def Obligations.VePopsAndDma : Prop :=
  ((∀ (c : CoreId) (n w : Nat) (s : State) (e : QEntry), s.veReady c 0x2B w → (vD w = 0 ∨ vD w = 16) →
     (s.me c).entry (s.me c).head = e →
     (e.state = 3 →
       exec (.popt c n) s = .next ((((s.setVe c (((s.ve c).setFlat (64 * vD w) e.codes).setX (vA w)
         (BitVec.ofNat 64 (e.tag + e.fmt * 2 ^ 16)))).setMe c
           { (s.me c).setEntry (s.me c).head QEntry.free with head := ((s.me c).head + 1) % 8 }).veUnwait c n).veRetire c 0x2B
             ((s.ve c).pc + 1))) ∧
     (e.state ≠ 3 → exec (.popt c n) s = .next (s.setVe c { s.ve c with wait := .popt }))) ∧
   (∀ (c : CoreId) (n w : Nat) (s : State), s.veReady c 0x2B w → vD w ≠ 0 → vD w ≠ 16 →
     exec (.popt c n) s = .next ((s.veUnwait c n).veFault c vfIllegal (s.ve c).pc 0x2B false)) ∧
   (∀ (v : VeState) (k j : Nat) (xs : List Nat),
     smGet 0 (v.setFlat k xs).v j =
       if k ≤ j ∧ j < k + xs.length then BitVec.ofNat 32 (xs.getD (j - k) 0) else smGet 0 v.v j) ∧
   (∀ (c n : Nat) (s : State),
     ((s.ve c).wait = .popt → s.veUnwait c n = s.bump (coreBase c + 0x40) n) ∧
     ((s.ve c).wait = .dmaFull ∨ (s.ve c).wait = .dmaWait → s.veUnwait c n = s.bump (coreBase c + 0x138) n) ∧
     ((s.ve c).wait = .none → s.veUnwait c n = s))) ∧
  (∀ (c : CoreId) (n w : Nat) (s : State) (sh : VeShare), (s.ve c).run = some sh →
     (s.fencedCore c = true → s.veReady c 0x78 w → exec (.dmaget c n) s = .next s) ∧
     (s.fencedCore c = true → s.veReady c 0x79 w → exec (.dmaput c n) s = .next s) ∧
     (∀ put, s.fencedCore c = false → (put = false ∧ s.veReady c 0x78 w ∨ put = true ∧ s.veReady c 0x79 w) →
       let i := if put then Instr.dmaput c n else Instr.dmaget c n
       let op := if put then 0x79 else 0x78
       let g := (s.xa c w).toNat
       let l := (s.xb c w).toNat
       let k := (s.xc c w).toNat
       let good := k ≠ 0 ∧ k % 4 = 0 ∧ k ≤ 0x1000000 ∧ g % 4 = 0 ∧ l % 4 = 0 ∧ l + k ≤ 0x100000
       (good → (s.ve c).dma.length < 16 →
         exec i s = .next (((s.setVe c { s.ve c with dma := (s.ve c).dma ++ [⟨put, g, l, k, sh.src, false⟩] }).veUnwait c
           n).veRetire c op ((s.ve c).pc + 1))) ∧
       (good → (s.ve c).dma.length ≥ 16 → exec i s = .next (s.setVe c { s.ve c with wait := .dmaFull })) ∧
       (¬good → exec i s = .next ((s.veUnwait c n).veFault c vfAddr (s.ve c).pc op false))) ∧
     (s.veReady c 0x06 w →
       ((s.ve c).dma.length > vImm w % 32 →
         exec (.dmawait c n) s = .next (s.setVe c { s.ve c with wait := .dmaWait })) ∧
       ((s.ve c).dma.length ≤ vImm w % 32 → (s.ve c).dmaErrs = [] →
         exec (.dmawait c n) s = .next (((s.setVe c { s.ve c with unseen := [] }).veUnwait c n).veRetire c 0x06
           ((s.ve c).pc + 1))) ∧
       (∀ ue r, (s.ve c).dma.length ≤ vImm w % 32 → (s.ve c).dmaErrs = ue :: r →
         exec (.dmawait c n) s = .next ((s.veUnwait c n).veFault c vfDma (s.ve c).pc 0x06 ue)))) ∧
  ((∀ (c : CoreId) (s : State) (x : DmaXfer) (r : List DmaXfer), s.coreOn c = true → (s.ve c).dma = x :: r →
     (x.put = true → ∀ code k u, s.copy false (ownGlobal (coreAddr c x.laddr)) x.gaddr x.len = (code, k, u) →
       exec (.dmaTransferComplete c) s = .next (u.dmaEnd c x code)) ∧
     (x.put = false → x.tainted = false → ∀ code k u,
       s.copy false x.gaddr (ownGlobal (coreAddr c x.laddr)) x.len = (code, k, u) →
       exec (.dmaTransferComplete c) s = .next (u.dmaEnd c x code)) ∧
     (x.put = false → x.tainted = true → ∀ code k u,
       s.copy false x.gaddr (ownGlobal (coreAddr c x.laddr)) x.len = (code, k, u) →
       exec (.dmaTransferComplete c) s = .next ((u.undef (coreAddr c x.laddr) k).dmaEnd c x code))) ∧
   (∀ (c : Nat) (s : State) (x : DmaXfer) (code : Code),
     ((s.dmaEnd c x code).ve c).dma = (s.ve c).dma.drop 1 ∧
     ((s.dmaEnd c x code).ve c).dmaErrs =
       (s.ve c).dmaErrs ++ (if code = .ok then [] else [decide (code = .ue)]) ∧
     (s.dmaEnd c x code).rd (coreBase c + 0x28) =
       (if code = .ok then s.rd (coreBase c + 0x28) else Nat.lor (s.rd (coreBase c + 0x28)) 16 % 2 ^ 64) ∧
     RegsExcept [coreBase c + 0x28] s (s.dmaEnd c x code) ∧ SameBytes s (s.dmaEnd c x code)))

/-- The four steps of R178: the address is recorded; an image or parameter array that is misaligned, unreadable or not
as R177 says ends the share with PROG_INVALID; otherwise the share begins at instruction 0 with its registers zeroed
and its parameters in X0 on. An ended share completes once its transfers have, with its error or that of its first
failed transfer (R179); where its errors are of both causes, both raise their fault (R597); the share that waits takes
its place (R87). The limit of R205, opcodes that R182 does not list (R181), and what a fault records (R205). A queue
wait longer than the watchdog, and not ended, ends in a fault: of the share of the VE that pops, or of the ME that
pushes to a full queue (R102, R103). -/
def Obligations.CoreShares : Prop :=
  (∀ (c : CoreId) (s : State) (sh : VeShare), s.coreOn c = true → s.fencedCore c = false → (s.ve c).run = some sh → (s.ve c).started = false →
     let s1 := s.wr (coreBase c + 0x140) sh.prog
     (sh.prog % 8 ≠ 0 → exec (.veShareStart c) s = .next (s1.veBadProg c false)) ∧
     (sh.prog % 8 = 0 → ∀ code h u, s1.gRead sh.prog 32 = (code, h, u) →
       (code ≠ .ok → exec (.veShareStart c) s = .next (u.veBadProg c (code = .ue))) ∧
       (code = .ok → veHeaderOk h = false → exec (.veShareStart c) s = .next (u.veBadProg c false)) ∧
       (code = .ok → veHeaderOk h = true → ∀ code2 is t, u.gRead (sh.prog + 32) (8 * leAt h 6 2) = (code2, is, t) →
         (code2 ≠ .ok → exec (.veShareStart c) s = .next (t.veBadProg c (code2 = .ue))) ∧
         (code2 = .ok → crc32 is ≠ leAt h 12 4 → exec (.veShareStart c) s = .next (t.veBadProg c false)) ∧
         (code2 = .ok → crc32 is = leAt h 12 4 → leAt h 8 1 = 0 →
           exec (.veShareStart c) s = .next (t.setVe c { t.ve c with
             started := true, insns := words8 (leAt h 6 2) is, pc := 0, retired := 0, v := [], x := [], m := [],
             dmaErrs := [], unseen := [], wait := .none, noted := false })) ∧
         (code2 = .ok → crc32 is = leAt h 12 4 → leAt h 8 1 ≠ 0 → sh.param % 8 ≠ 0 →
           exec (.veShareStart c) s = .next (t.veBadProg c false)) ∧
         (code2 = .ok → crc32 is = leAt h 12 4 → leAt h 8 1 ≠ 0 → sh.param % 8 = 0 →
           ∀ ps q, t.gRead sh.param (8 * leAt h 8 1) = (.ok, ps, q) →
             ∃ r v, exec (.veShareStart c) s = .next r ∧ r = q.setVe c v ∧ v.started = true ∧ v.pc = 0 ∧ v.retired = 0 ∧
               v.insns = words8 (leAt h 6 2) is ∧ v.v = [] ∧ v.m = [] ∧
               ∀ k, v.xr k = if k < leAt h 8 1 then BitVec.ofNat 64 (leAt ps (8 * k) 8) else 0)))) ∧
  (∀ (c : CoreId) (s : State) (sh : VeShare) (v w : VeState) (err : Option Bool), v = s.ve c → v.run = some sh →
     s.coreOn c = true → v.ended = true → v.dma = [] → err = v.err.or v.dmaErrs.head? →
     w = { v with run := none, started := false, ended := false, err := none, dmaErrs := [], unseen := [], noted := false } →
     (err = none → exec (.veShareComplete c) s = .next (((s.setVe c w).shareDone sh.src none).vePromote c)) ∧
     (∀ ue u, err = some ue → u = (if v.noted = true then s else s.raise 0x0503 2 c c) →
       ((∀ e ∈ v.dmaErrs, e = ue) →
         exec (.veShareComplete c) s = .next (((u.setVe c w).shareDone sh.src (some ue)).vePromote c)) ∧
       ((∃ e ∈ v.dmaErrs, e ≠ ue) →
         exec (.veShareComplete c) s = .next ((((u.setVe c w).shareDone sh.src (some ue)).strayError sh.src (!ue)).vePromote c)))) ∧
  ((∀ (c : CoreId) (s : State) (w : Nat), s.veInsn c = some w → s.veLimit c = true →
     exec (.veInsnLimitExpiry c) s = .next (s.veFault c vfLimit (s.ve c).pc (vOp w) false)) ∧
   (∀ (c : CoreId) (s : State) (w : Nat), s.veInsn c = some w → s.veLimit c = false → veForm (vOp w) = none →
     exec (.illegalOpcode c) s = .next (s.veFault c vfIllegal (s.ve c).pc (vOp w) false)) ∧
   (∀ (c bits pc op : Nat) (ue : Bool) (s : State),
     let t := s.veFault c bits pc op ue
     (t.ve c).ended = true ∧ (t.ve c).err = some ue ∧
     t.rd (coreBase c + 0x110) = Nat.lor (s.rd (coreBase c + 0x110)) bits % 2 ^ 64 ∧
     t.rd (coreBase c + 0x114) =
       (if bit (s.rd (coreBase c + 0x114)) 31 then s.rd (coreBase c + 0x114) else (2 ^ 31 + op * 2 ^ 16 + pc) % 2 ^ 64) ∧
     RegsExcept [coreBase c + 0x110, coreBase c + 0x114] s t ∧ SameBytes s t ∧ (∀ d, d ≠ c → t.core d = s.core d) ∧
     t.me c = s.me c)) ∧
  (∀ (c : CoreId) (s : State) (n l : Nat), s.coreOn c = true → l = s.rdf (coreBase c + 0x18) 0 24 → l ≠ 0 →
     l * 1024 < n →
     ((s.ve c).wait = .popt → (s.veInsn c).isSome = true → ((s.me c).entry (s.me c).head).state ≠ 3 →
       exec (.meWatchdogExpiry c true n) s = .next
         ((((s.bump (coreBase c + 0x40) n).orBits (coreBase c + 0x28) 8).raise 0x0503 2 c c).setVe c
           { s.ve c with ended := true, err := some false, wait := .none, noted := true })) ∧
     ((s.ve c).wait = .popt → ((s.me c).entry (s.me c).head).state = 3 → exec (.meWatchdogExpiry c true n) s = .next s) ∧
     ((s.me c).wait = .full → ((s.me c).entry (s.me c).tail).state ≠ 0 →
       exec (.meWatchdogExpiry c false n) s = .next
         ((((s.setMe c { s.me c with wait := .none }).bump (coreBase c + 0x38) n).raise 0x0503 2 c c).meFail c 4 false none)) ∧
     ((s.me c).wait ≠ .full → exec (.meWatchdogExpiry c false n) s = .next s))

/-- An MMA entry begins a chain or goes on with the open one, waits for a queue entry or for a held accumulator set,
or is refused; a NOP entry is skipped (R88, R90, R91, R92, R96, R101, R598, R599). A chain that begins takes the next
accumulator set and, outside OUT_MODE, reserves the entry at the tail; it latches the core's format registers (R92,
R94, R96, R165). A group of a chain is reduced into its accumulators, the end of a chain's reduction runs those that
are left, and the end of its final conversion gives its results (R85, R149, R151, R154, R158, R165 to R167). A chain
that awaits no ticket and is not traced becomes final: its entry is READY with its codes, tag and format, and the
other entries stay (R94 to R97). A notice of the tile's Quantizer reaches its cores: the ticket is confirmed or
replayed (R97, R98, R222, R223). -/
def Obligations.MatrixChains : Prop :=
  (∀ (c : CoreId) (n : Nat) (s u : State) (sh : MeShare) (td : List Byte), s.coreOn c = true →
     s.fencedTile (c.val / 300) = false → (s.me c).run = some sh →
     sh.err = none → sh.pos < sh.len → s.gRead (sh.list + 64 * sh.pos) 64 = (.ok, td, u) →
     (tdOp td = 0 → tdReserved td = true →
       exec (.tileNop c) s = .next (((u.bumpTd c 1).setMe c { u.me c with run := some { sh with pos := sh.pos + 1 } }).meListEnd
         c)) ∧
     (tdOp td = 0 → tdReserved td = false → exec (.tileNop c) s = .next (u.meRefuse c 1 false)) ∧
     (sh.inChain = false → ∀ fw, fw = tdFw (u.rd (coreBase c + 0x10)) (u.rd (coreBase c + 0x14)) td →
       u.tdOk td fw = true → tdFlag td 0 = false →
       ((tdOutMode td = true ∨ ((u.me c).entry (u.me c).tail).state = 0) → (u.me c).setHeld (u.me c).nextSet = false →
         (u.me c).chains.any (·.stage = .replay) = false →
         exec (.mma c n) s = .next (((u.meUnwait c n).meBegin c sh td fw).meListEnd c)) ∧
       (tdOutMode td = false → ((u.me c).entry (u.me c).tail).state ≠ 0 →
         exec (.mma c n) s = .next (u.setMe c { u.me c with wait := .full })) ∧
       ((tdOutMode td = true ∨ ((u.me c).entry (u.me c).tail).state = 0) → (u.me c).setHeld (u.me c).nextSet = true →
         exec (.mma c n) s = .next (u.setMe c { u.me c with wait := .held }))) ∧
     (sh.inChain = true → ∀ ch fw, (u.me c).open? = some ch → fw = tdFw ch.fwd ch.bwd td → u.tdOk td fw = true →
       tdFlag td 0 = true → fw = ch.fmt → tdOutMode td = ch.outMode → (ticketsWith ch td).length ≤ 4 →
       exec (.mma c n) s = .next ((u.meContinue c sh td ch).meListEnd c)) ∧
     (sh.inChain = false → tdOp td ≠ 0 → u.tdOk td (tdFw (u.rd (coreBase c + 0x10)) (u.rd (coreBase c + 0x14)) td) = false →
       exec (.mma c n) s = .next (u.meRefuse c 1 false)) ∧
     (∀ fw, fw = tdFw (u.rd (coreBase c + 0x10)) (u.rd (coreBase c + 0x14)) td → sh.inChain = false → u.tdOk td fw = true →
       tdFlag td 0 = true → exec (.mma c n) s = .next (u.meRefuse c 2 false))) ∧
  (∀ (c fw : Nat) (s : State) (sh : MeShare) (td : List Byte), let t := s.meBegin c sh td fw
     (t.me c).run = some { sh with pos := sh.pos + 1, inChain := !tdFlag td 1 } ∧
     (t.me c).nextSet = !(s.me c).nextSet ∧ (t.me c).nextId = (s.me c).nextId + 1 ∧ (t.me c).head = (s.me c).head ∧
     (∃ ch, (t.me c).chains = (s.me c).chains ++ [ch] ∧ ch.id = (s.me c).nextId ∧ ch.set = (s.me c).nextSet ∧
       ch.tds = [td] ∧ ch.fmt = fw ∧ ch.fwd = s.rd (coreBase c + 0x10) ∧ ch.bwd = s.rd (coreBase c + 0x14) ∧
       ch.stage = (if tdFlag td 1 then .reducing else .fetching) ∧
       ch.entry = (if tdOutMode td then none else some (s.me c).tail) ∧ ch.pos = 0 ∧ ch.grp = 0 ∧ ch.acc = []) ∧
     (tdOutMode td = true → (t.me c).tail = (s.me c).tail ∧ ∀ i, (t.me c).entry i = (s.me c).entry i) ∧
     (tdOutMode td = false → (t.me c).tail = ((s.me c).tail + 1) % 8 ∧
       ∀ i, (t.me c).entry i = if i = (s.me c).tail then
         { QEntry.free with state := 1, src := some sh.src, chain := (s.me c).nextId } else (s.me c).entry i) ∧
     t.ve c = s.ve c ∧ (∀ d, d ≠ c → t.core d = s.core d) ∧ RegsExcept [] s t ∧ SameBytes s t) ∧
  ((∀ (c n : Nat) (s u v : State) (ch : MeChain) (td : List Byte) (rest : List (List Byte)) (r : Red),
     ch.tds.drop ch.pos = td :: rest → n = tdGroups ch.fmt td →
     s.redGroup c ch.fmt td (s.chainPath ch) (fwGroup ch.fmt / 32) n ch.grp
       ⟨if ch.acc = [] then List.replicate 1024 elemZero else ch.acc, 0, 0⟩ = (.ok r, u) → v = u.redFlags c ch r →
     (ch.grp + 1 < n → s.redStep c ch =
       (.ok { ch with acc := r.acc, rflags := ch.rflags ||| r.flags, grp := ch.grp + 1 }, v)) ∧
     (n ≤ ch.grp + 1 → s.redStep c ch =
       (.ok { ch with acc := r.acc, rflags := ch.rflags ||| r.flags, pos := ch.pos + 1, grp := 0 }, v.bumpTd c 1))) ∧
   (∀ (c : CoreId) (stall : Nat) (s u : State) (ch : MeChain), s.coreOn c = true → s.fencedTile (c.val / 300) = false →
     (s.me c).reducing? = some ch → ch.stage = .reducing →
     (∀ ch', (s.bump (coreBase c + 0x48) stall).redRun c ch.left ch = (.ok ch', u) →
       exec (.chainReductionEnd c stall) s = .next ((u.setMe c ((u.me c).reduced ch ch')).meAdvance c)) ∧
     (∀ ue, (s.bump (coreBase c + 0x48) stall).redRun c ch.left ch = (.error ue, u) →
       exec (.chainReductionEnd c stall) s = .next (u.chainFail c ue ch))) ∧
   (∀ (c : CoreId) (stall : Nat) (s u w : State) (ch : MeChain) (rs cs : List Machine.Num), s.coreOn c = true →
     s.fencedCore c = false → (s.me c).chains.find? (·.stage = .converting) = some ch →
     s.lineScales c (tdFlag (ch.tds.getLastD []) 4) (tdW (ch.tds.getLastD []) 40) = (.ok rs, u) →
     u.lineScales c (tdFlag (ch.tds.getLastD []) 5) (tdW (ch.tds.getLastD []) 44) = (.ok cs, w) →
     ∀ v, v = convTile (w.chainPath ch) (bit ch.fmt 20) (w.fmt (fld ch.fmt 16 4)) rs cs ch.acc →
     exec (.chainConversionEnd c stall) s = .next
       (((((((w.meFlags c ch v.flags).bump (coreBase c + 0x88) v.ovf).bump (coreBase c + 0x90) v.unf).bump
         (coreBase c + 0x98) v.nan).bump (coreBase c + 0xA8) (if ch.outMode = true then stall else 0)).chainDone c
           { ch with out := v.codes, loud := v.loud, ovf := v.ovf + ch.acc.countP (·.sat),
                     inv := v.nan + b2n (ch.rflags &&& mTern ≠ 0) }).meAdvance c))) ∧
  (∀ (c e : Nat) (s : State) (ch : MeChain), ch.entry = some e → ch.outMode = false → ch.countFlags = false →
     let t := s.chainFinal c ch
     (t.me c).entry e =
       { (s.me c).entry e with state := 3, codes := ch.out, tag := tdTag (ch.tds.getLastD []), fmt := fld ch.fmt 16 5 } ∧
     (∀ i, i ≠ e → (t.me c).entry i = (s.me c).entry i) ∧ (t.me c).head = (s.me c).head ∧
     (∀ x ∈ (t.me c).chains, x ∈ (s.me c).chains ∧ (x.id ≠ ch.id ∨ x.replaced = true)) ∧
     t.ve c = s.ve c ∧ RegsExcept [] s t ∧ SameBytes s t) ∧
  (∀ (t : TileId) (k : BitVec 16) (s : State), s.fabOn t = true →
     (∀ c ∈ s.coresOf t, s.fencedCore c = false) →
     ((s.qzt t).notices.contains (k.toNat, false) = true → exec (.confirm t k) s = .next (s.notice t k.toNat false)) ∧
     ((s.qzt t).notices.contains (k.toNat, true) = true → exec (.replay t k) s = .next (s.notice t k.toNat true)) ∧
     (∀ replay, s.cores = [] → ∀ u, u = s.notice t k.toNat replay →
       smGet 0 (u.qzt t).tickets k.toNat = (if replay then 3 else 2) ∧
       (∀ j, j ≠ k.toNat → smGet 0 (u.qzt t).tickets j = smGet 0 (s.qzt t).tickets j) ∧
       (u.qzt t).notices = (s.qzt t).notices.erase (k.toNat, replay) ∧ RegsExcept [] s u ∧ SameBytes s u))

/-- Module power-on reset returns the package to its reset state: every register reads its reset value, every memory
but Studio SRAM, whose contents are not defined, reads zero and no word holds an uncorrectable error; module flash but
for a firmware copy that was being written, the repair overlay, the standby domain and the queue stay (R40, R369,
R574, R580, R588). The 52 V input, PWR_EN and the EMERG_OFF_N pin (R28, R30, R32, R40). A self-trip stops conversion,
holds EMERG_OFF_N low and latches its cause, RAIL_ID with RAIL_FAULT; one within 50 µs of the first trigger is latched
as well (R16, R28, R31, R37, R541, R547). A W1C of PWR_OFF_CAUSE clears the same bits of the latch, and RAIL_ID with
RAIL_FAULT (R37). -/
def Obligations.PowerAndPins : Prop :=
  ((∀ s : State, s.pwr.phase = .charging → exec .pwrGoodRelease s = .next s.powerOn) ∧
   (∀ s : State, let t := s.powerOn
     (∀ a, regionOf a ≠ .studio → t.byte a = 0) ∧ t.ue = [] ∧ t.posted = [] ∧ t.cores = [] ∧ t.tseq = [] ∧ t.seq = SeqState.reset ∧ t.hcp = HcpState.init ∧
     t.feed = FeedState.init ∧ t.boot = BootState.init ∧ t.clk = ClkState.init ∧ t.erec = RecState.reset ∧
     t.emb = [] ∧ t.qz = [] ∧ t.upd = [] ∧ t.gran = [] ∧ t.col = [] ∧ t.pwr.phase = .on ∧ t.pwr.lampsDone = false ∧
     t.pwr.offCause = s.pwr.offCause ∧ t.pwr.alertSource = s.pwr.alertSource ∧
     (s.boot.update = none → t.flash = s.flash) ∧
     (∀ img b r, s.boot.update = some (img, b, r) → ∃ junk : List Byte, junk.length = img.length ∧
       t.flash = s.flash.setImage (2 * leAt img 6 1 + b2n b) junk) ∧
     t.repair.overlay = s.repair.overlay ∧ t.repair.spared = s.repair.spared ∧ t.repair.retired = s.repair.retired ∧ t.repair.testing = none ∧
     t.pending = s.pending ∧ t.out = s.out ∧
     ((∀ e ∈ s.repair.overlay, e.1 < 128) → ∀ k, ¬(0x6000 ≤ k ∧ k < 0x6100) → (∀ i, i < 16 → k ≠ netKey (0x100 + 4 * i)) →
       t.rd k = (csrReset k).toNat) ∧
     (∀ i, i < 16 → t.rd (netKey (0x100 + 4 * i)) = (smGet 0 s.flash.train i).toNat))) ∧
  (∀ s : State,
     (s.pwr.standby = false → ∀ a, exec (.inputPowerApplied a) s = .next { s with
       pwr := { s.pwr with standby := true, smbAddr := a.val } }) ∧
     exec .inputPowerLost s = .next { s with
       pwr := { s.pwr with standby := false, phase := .off, emergTrip := false, offCause := 0, alertSource := 0,
                           inputOut := false }
       offAt := s.wall } ∧
     (s.pwr.standby = true → s.pwr.pwrEn = false → ∀ n b,
       (s.pwr.phase = .off ∧ s.pwr.emergExt = false ∧ s.pwr.emergTrip = false ∧ n ≥ 100000000 →
         exec (.pwrEnRise n b) s = .next { s with pwr := { s.pwr with pwrEn := true, phase := .charging, bscan := b } }) ∧
       (¬(s.pwr.phase = .off ∧ s.pwr.emergExt = false ∧ s.pwr.emergTrip = false ∧ n ≥ 100000000) →
         exec (.pwrEnRise n b) s = .next { s with pwr := { s.pwr with pwrEn := true } })) ∧
     (s.pwr.standby = true → s.pwr.pwrEn = true → s.pwr.phase ≠ .off → exec .pwrEnFall s = .next { s with
       pwr := { s.pwr with pwrEn := false, phase := .off, emergTrip := false,
                           offCause := BitVec.ofNat 16 (Nat.lor s.pwr.offCause.toNat 1) }
       offAt := s.wall }) ∧
     (s.pwr.standby = false → s.pwr.pwrEn = true → exec .pwrEnFall s = .next { s with
       pwr := { s.pwr with pwrEn := false, emergTrip := false } }) ∧
     (s.pwr.standby = true → s.pwr.phase ≠ .off → exec .emergOffExternal s = .next { s with
       pwr := { s.pwr with phase := .off, emergExt := true, offCause := BitVec.ofNat 16 (Nat.lor s.pwr.offCause.toNat 2) }
       offAt := s.wall }) ∧
     (s.pwr.standby = true → s.pwr.phase = .off → exec .emergOffExternal s = .next { s with
       pwr := { s.pwr with emergExt := true, offCause := BitVec.ofNat 16 (Nat.lor s.pwr.offCause.toNat 2) } }) ∧
     exec .emergOffRelease s = .next { s with pwr := { s.pwr with emergExt := false } } ∧
     (s.pwr.standby = true → exec .inputOutOfRange s = .next { s with
       pwr := { s.pwr with inputOut := true, alertSource := s.pwr.alertSource ||| 1 } }) ∧
     exec .inputReturnsToRange s = .next { s with pwr := { s.pwr with inputOut := false } }) ∧
  ((∀ s : State, s.pwr.standby = true → s.pwr.phase ≠ .off →
     (∀ i bits, (i, bits) ∈ [(Instr.inputOvervoltage, 16), (Instr.inputUndervoltage, 8), (Instr.thermalTrip, 4)] →
       exec i s = .next { s with
         pwr := { s.pwr with phase := .off, emergTrip := true,
                             offCause := BitVec.ofNat 16 (Nat.lor s.pwr.offCause.toNat bits) }
         offAt := s.wall }) ∧
     (∀ r : Fin 16, r.val ≠ 0 → exec (.railFault r) s = .next { s with
       pwr := { s.pwr with phase := .off, emergTrip := true,
                           offCause := BitVec.ofNat 16 (setFld (Nat.lor s.pwr.offCause.toNat 32) 8 8 r.val) }
       offAt := s.wall }) ∧
     (s.hubOn = true → ∀ r : Fin 16, r.val ≠ 0 →
       exec (.railWarn r) s = .next ((s.orBits 0x410C 4).raise 0x0104 0 0 r.val))) ∧
   (∀ s : State, s.pwr.standby = true → s.pwr.phase = .off → ∀ i bits,
     (i, bits) ∈ [(Instr.inputOvervoltage, 16), (Instr.inputUndervoltage, 8), (Instr.thermalTrip, 4)] →
     (s.wall ≤ s.offAt + 50000 → exec i s = .next { s with
       pwr := { s.pwr with emergTrip := s.pwr.emergTrip || s.pwr.pwrEn,
                           offCause := BitVec.ofNat 16 (Nat.lor s.pwr.offCause.toNat bits) } }) ∧
     (s.offAt + 50000 < s.wall → exec i s = .next s))) ∧
  (∀ (s : State) (bits : W32), s.hubOn = true → ∃ c : BitVec 16,
     exec (.pwrOffCauseClear bits) s = .next { s with pwr := { s.pwr with offCause := c } } ∧
     (∀ i, i < 6 → c.getLsbD i = (s.pwr.offCause.getLsbD i && !bits.getLsbD i)) ∧
     c.toNat / 2 ^ 8 = (if s.pwr.offCause.getLsbD 5 && !bits.getLsbD 5 then s.pwr.offCause.toNat / 2 ^ 8 else 0))

/-- The SMBus commands: each read is answered with its data and PEC while the standby domain runs, and ALERT_CLEAR
keeps a bit whose condition holds; a code outside the table is not acknowledged (R33 to R35). The boundary-scan
instructions; EXTEST, CLAMP and HIGHZ act as BYPASS outside boundary-scan mode (R38, R39). -/
def Obligations.ServicePorts : Prop :=
  (∀ s : State, s.pwr.standby = true →
     let answer := fun (code : Nat) (d : List Byte) => s.emit (.smb (d ++
       [pec ([BitVec.ofNat 8 (2 * (0x38 + s.pwr.smbAddr)), BitVec.ofNat 8 code,
         BitVec.ofNat 8 (2 * (0x38 + s.pwr.smbAddr) + 1)] ++ d)]))
     (∀ (w : SmbWord) pe, w.code.toNat > 0x0A → exec (.smbAlertClear w pe) s = .next (s.emit .smbNack)) ∧
     exec .smbStatus s = .next (answer 0 [BitVec.ofNat 8 (b2n (decide (s.pwr.phase = .on)) + 2 * b2n (decide (s.alertBits ≠ 0)) +
       4 * b2n (decide (s.pwr.offCause ≠ 0)) + 8 * b2n s.pwr.bscan)]) ∧
     (∀ x, exec (.smbInputVoltage x) s = .next (answer 1 (leBytes 2 x.toNat))) ∧
     (∀ x, exec (.smbInputCurrent x) s = .next (answer 2 (leBytes 2 x.toNat))) ∧
     (∀ x, exec (.smbInputPower x) s = .next (answer 3 (leBytes 2 x.toNat))) ∧
     (s.pwr.phase = .on → exec .smbHottest s = .next (answer 4 (leBytes 2 s.hottest))) ∧
     (s.pwr.phase ≠ .on → exec .smbHottest s = .next (answer 4 [0x00, 0x80])) ∧
     (∀ x, exec (.smbInlet x) s = .next (answer 5 (leBytes 2 x.toNat))) ∧
     (∀ x, exec (.smbOutlet x) s = .next (answer 6 (leBytes 2 x.toNat))) ∧
     exec .smbOffCause s = .next (answer 7 (leBytes 2 s.pwr.offCause.toNat)) ∧
     exec .smbAlertSource s = .next (answer 8 (leBytes 2 s.alertBits)) ∧
     exec .smbIdentity s = .next (answer 10 (32 :: (asciiPad "ZTX4-SHN" 16 ++ asciiPad "A1" 4 ++ slice s.flash.serial 0 12))) ∧
     (s.alertBits ≠ 0 → exec .smbAlertResponse s = .next (s.emit (.smb [BitVec.ofNat 8 (2 * (0x38 + s.pwr.smbAddr)),
       pec [0x19, BitVec.ofNat 8 (2 * (0x38 + s.pwr.smbAddr))]]))) ∧
     (∀ bits : BitVec 16, ∃ a : BitVec 5,
       exec (.smbAlertClear ⟨9, bits⟩ none) s = .next { s with pwr := { s.pwr with alertSource := a } } ∧
       ∀ i, i < 5 → a.getLsbD i = (s.pwr.alertSource.getLsbD i && (!bits.getLsbD i || s.alertCondition i))) ∧
     (∀ (w : SmbWord) (x : Byte),
       x ≠ pec ([BitVec.ofNat 8 (2 * (0x38 + s.pwr.smbAddr)), w.code] ++ leBytes 2 w.data.toNat) →
       exec (.smbAlertClear w (some x)) s = .next (s.emit .smbNack)) ∧
     (∀ w : SmbWord, w.code.toNat < 9 ∨ w.code.toNat = 10 → exec (.smbAlertClear w none) s = .next s)) ∧
  (∀ (s : State) (d : Fin 5), s.pwr.phase = .on →
     exec (.scanBypass d) s = .next (s.setScan d .bypass) ∧
     exec (.scanIdcode d) s = .next ((s.setScan d .idcode).emit (.scan d (leBytes 4 0x1D51E0D3))) ∧
     (∀ cells, exec (.scanSample d cells) s = .next { s with
       pwr := { s.pwr with scanIr := smSet .bypass s.pwr.scanIr d.val .sample, scanCells := smSet [] s.pwr.scanCells d.val cells }
       free := s.free + cells.length
       out := s.out ++ [.scan d (freeBytes cells.length s.free)] }) ∧
     (s.pwr.bscan = true → exec (.scanExtest d) s = .next (s.setScan d .extest) ∧
       exec (.scanClamp d) s = .next (s.setScan d .clamp) ∧ exec (.scanHighz d) s = .next (s.setScan d .highz)) ∧
     (s.pwr.bscan = false → exec (.scanExtest d) s = .next (s.setScan d .bypass) ∧
       exec (.scanClamp d) s = .next (s.setScan d .bypass) ∧ exec (.scanHighz d) s = .next (s.setScan d .bypass)) ∧
     (∀ i k, smGet .bypass (s.setScan d i).pwr.scanIr k = if k = d.val then i else smGet .bypass s.pwr.scanIr k))

/-- Orders 1 to 3 of R474 for a datagram on a port that is up: its session, its seal (R472) and its SEQUENCE; what is
sealed for a session opens. Orders 4 to 7 of R474: the header, the opcode, the lengths and a queue entry; an accepted
command joins the queue (R478). Datagrams in fragments and to other UDP ports, packets from the torus, relays, whose
way back is kept until the last reply, and the IPv6 answers for the port's own addresses (R467 to R470). -/
def Obligations.Packets : Prop :=
  (∀ (s : State) (eth : EthId) (addr : List Byte) (port : Nat) (p : List Byte), s.ethUp eth.val = true →
     (eth.val = 2 → bit (s.rd 0xA000) 8 = true) →
     let v := Via.udp eth addr port
     let go := exec (.hcpPacket v none p 50410) s
     let op := leAt p 2 2
     let tag := leAt p 4 4
     let id := leAt p 8 4
     (p.length < 48 → go = .next s.authFail) ∧
     (p.length ≥ 48 → id = 0 →
       (op ≠ 1 ∧ op ≠ 2 ∧ op ≠ 3 → go = .next s.authFail) ∧
       (op = 1 ∨ op = 2 ∨ op = 3 →
         (zeroAt p (p.length - 16) 16 = false → go = .next (s.authFail.replyAuthFail v op tag)) ∧
         (zeroAt p (p.length - 16) 16 = true → go = .next (s.checkPacket v p)))) ∧
     (p.length ≥ 48 → id ≠ 0 →
       (s.session? id = none → go = .next s.authFail) ∧
       (∀ n x sealed, s.session? id = some (n, x) →
         sealed = gcmOpen (x.key 0) (sessNonce 0 (leAt p 16 8)) (p.take 32) (p.drop 32) →
         (sealed = none → go = .next (s.authFail.replyAuthFail v op tag)) ∧
         (∀ d, sealed = some d → leAt p 16 8 ≤ x.cmdSeq →
           go = .next ((s.bump 0xA020 1).sendReply v op tag id stStale 0 false [])) ∧
         (∀ d, sealed = some d → leAt p 16 8 > x.cmdSeq → x.repSeq < 2 ^ 64 - 1 →
           go = .next ((s.putSession n { x with cmdSeq := leAt p 16 8, lastAt := s.time }).checkPacket v
             (p.take 32 ++ d ++ zeros 16))))) ∧
     (∀ key nonce head d, gcmOpen key nonce head (gcmSeal key nonce head d) = some d) ∧
     (s.authFail.rd 0xA018 = min (s.rd 0xA018 + 1) (2 ^ 64 - 1) ∧ RegsExcept [0xA018, 0xA008] s s.authFail)) ∧
  (∀ (s : State) (v : Via) (p : List Byte),
     let op := leAt p 2 2
     let inl := leAt p 14 2
     let n := leAt p 24 4
     let payload := slice p 32 (p.length - 48)
     let refuse := fun (st : Nat) => s.sendReply v op (leAt p 4 4) (leAt p 8 4) st 0 false []
     let headed := leAt p 0 1 = 1 ∧ leAt p 1 1 = 0 ∧ leAt p 12 2 = 0 ∧ leAt p 28 4 = 0
     (¬headed → s.checkPacket v p = refuse stBadParam) ∧
     (headed → commandShape op payload inl = none → s.checkPacket v p = refuse stBadOpcode) ∧
     (∀ fits lo hi, headed → commandShape op payload inl = some (fits, lo, hi) →
       let sized := n ≤ 4096 ∧ inl ≤ 1024 ∧ inl ≤ n ∧ p.length = 48 + n ∧ fits = true ∧ lo ≤ inl ∧ inl ≤ hi
       (¬sized → s.checkPacket v p = refuse stBadLength) ∧
       (sized → s.freeEntry op = none → s.checkPacket v p =
         ((s.bump 0xA028 1).orBits 0xA008 2).sendReply v op (leAt p 4 4) (leAt p 8 4) stQueueFull
           (max 10 (16 * s.serviceUs)) false []) ∧
       (∀ r, sized → s.freeEntry op = some r →
         s.checkPacket v p = (({ s with hcp := { s.hcp with queue := s.hcp.queue ++
           [(⟨v, op, leAt p 4 4, leAt p 8 4, slice payload 0 (n - inl), payload.drop (n - inl), s.time, r⟩ : HcpEntry)] } }).bump 0xA010
             1).watchQueue)) ∧
     (let k := (s.hcp.queue.filter (·.reserved)).length
      s.freeEntry op = if s.hcp.queue.length - k < 240 then some false
        else if [0x0303, 0x0304, 0x0305, 0x0004, 0x0A01, 0x0A02].contains op ∧ k < 16 then some true else none)) ∧
  (∀ s : State,
     (∀ (eth : EthId) (addr : List Byte) (port : Nat) (f : FragInfo) (b : List Byte), eth.val = 2 →
       s.ethUp 2 = true → bit (s.rd 0xA000) 8 = true →
       (∀ u, s.takeFrag addr port f b = (none, u) → exec (.hcpPacket (.udp eth addr port) (some f) b 50410) s = .next u) ∧
       (∀ d u, s.takeFrag addr port f b = (some d, u) →
         exec (.hcpPacket (.udp eth addr port) (some f) b 50410) s = .next (u.takePacket (.udp eth addr port) d))) ∧
     (∀ eth addr port frag b (dport : BitVec 16), dport ≠ 50410 → exec (.hcpPacket (.udp eth addr port) frag b dport) s = .next s) ∧
     (∀ addr port ident, exec (.fragmentTimeout addr port ident) s = .next { s with hcp := { s.hcp with
       frags := s.hcp.frags.filter fun x => !(x.addr = addr && x.port = port && x.ident = ident) } }) ∧
     (∀ (node tag : Nat) (p : List Byte) dport, s.hubOn = true → s.boot.reeve = true →
       (∃ m ∈ s.inbox, m.src = node ∧ m.typ = 1 ∧ m.tag = tag ∧ m.body = p) →
       ∃ l : List InMsg, l.length + 1 = s.inbox.length ∧ (∀ m ∈ l, m ∈ s.inbox) ∧
         exec (.hcpPacket (.torus node tag) none p dport) s = .next (({ s with inbox := l }).takePacket (.torus node tag) p)) ∧
     (∀ (eth : EthId) addr port d, s.ethUp eth.val = true → bit (s.rd 0xA000) 9 = true → d.length ≥ 8 →
       leAt d 0 4 < 2 ^ 20 → zeroAt d 4 4 = true →
       exec (.relay eth addr port d) s = .next ((({ s with hcp := { s.hcp with
         nextTag := (s.hcp.nextTag + 1) % 2 ^ 32, relays := s.hcp.relays ++ [(⟨s.hcp.nextTag, eth.val, addr, port⟩ : RelayWait)] } }).bump
           0xA030 1).sendHcp (leAt d 0 4) s.hcp.nextTag (d.drop 8))) ∧
     (∀ (m : InMsg) (r : RelayWait), s.hcp.relays.find? (·.tag = m.tag) = some r →
       let last := ¬(leAt m.body 12 2 = 0x0001 ∧ bit (leAt m.body 1 1) 1 = false)
       ∃ l : List RelayWait, (last → l.length + 1 = s.hcp.relays.length) ∧ (¬last → l = s.hcp.relays) ∧
         s.relayReply m = ({ s with hcp := { s.hcp with relays := l } }).emit
           (.udp r.eth r.addr r.port 50412 (leBytes 8 m.src ++ m.body) (if r.eth = 2 then 1280 else 0))) ∧
     (∀ (eth : EthId) (addr dest data : List Byte), s.ethUp eth.val = true →
       (s.ownAddr eth.val dest = true →
         exec (.neighbourDiscovery eth (.solicit addr dest)) s = .next (s.emit (.ndAnswer eth.val addr dest)) ∧
         exec (.echoRequest eth ⟨addr, dest⟩ data) s = .next (s.emit (.echoReply eth.val addr dest data))) ∧
       (s.ownAddr eth.val dest = false →
         exec (.neighbourDiscovery eth (.solicit addr dest)) s = .next s ∧
         exec (.echoRequest eth ⟨addr, dest⟩ data) s = .next s)) ∧
     (∀ (eth : EthId) (addr pre : List Byte), s.ethUp eth.val = true →
       ∃ t, exec (.neighbourDiscovery eth (.advert addr pre)) s = .next t ∧ t.ownAddr eth.val (pre ++ t.ifaceId) = true ∧
         ∀ a, s.ownAddr eth.val a = true → t.ownAddr eth.val a = true))

/-- What a command's end does: one reply with its status and data, and its service time (R471, R473, R475, R478); a
command that cannot end at once replies PENDING, and another one meanwhile BUSY; after a FINAL reply what an order
command held back goes on (R361). HELLO, ATTEST and GET_INFO (R480, R483, R513). -/
def Obligations.AnswersAndIdentity : Prop :=
  ((∀ (s : State) (e : HcpEntry) (final : Bool) (st : Nat) (d : List Byte) (n : Nat) (x : Session),
     st ≠ stBusy → e.session ≠ 0 → s.session? e.session = some (n, x) → ∀ q, q = min (x.repSeq + 1) (2 ^ 64 - 1) →
       s.finish e final st d =
         (((s.putSession n { x with repSeq := q }).sendVia e.via
           (let h := replyHeader (1 + 2 * b2n final) e.opcode e.tag e.session st q d.length 0
            h ++ gcmSeal (x.key 1) (sessNonce 1 q) h d)).served e.accepted)) ∧
   (∀ (s : State) (e : HcpEntry) (st : Nat) (d : List Byte), st ≠ stBusy → e.session ≠ 0 → s.session? e.session = none →
     ∀ final, s.finish e final st d = s.served e.accepted) ∧
   (∀ (s0 s : State) (e : HcpEntry) (slow : Bool) (st : Nat) (d : List Byte),
     (st ≠ stPending → slow = false → s0.answer e slow (st, d, s) = s.finish e false st d) ∧
     (st = stPending ∨ slow = true →
       (s0.hcp.pend.isSome = true → s0.answer e slow (st, d, s) = s0.finish e false stBusy []) ∧
       (s0.hcp.pend = none → s0.answer e slow (st, d, s) =
         (s.sendReply e.via e.opcode e.tag e.session stPending 0 false []).setHcp fun h =>
           { h with pend := some ⟨e, if st = stPending then none else some (st, d)⟩ }))) ∧
   (∀ (s : State) (p : PendCmd) (held : List (List Byte)) (st : Nat) (d : List Byte) (u : State), s.hcp.pend = some p →
     s.hubOn = true → s.pendingResult p held = some (st, d, u) →
     exec (.pendingCommandComplete held) s = .next ((u.setHcp fun h => { h with pend := none }).finish p.entry true st d).embPump)) ∧
  (∀ (s t : State) (e : HcpEntry) (slow : Bool),
     (s.cmdDue 0x0001 e t → exec (.hello slow) s = .next (t.answer e slow (stOk,
       asciiPad "ZTX4-SHN" 16 ++ asciiPad "A1" 4 ++ slice t.flash.serial 0 12 ++ leBytes 4 (smGet 0 t.boot.versions 2) ++
         leBytes 2 1 ++ List.replicate 26 0, t))) ∧
     (s.cmdDue 0x0002 e t → exec (.attest slow) s = .next (t.answer e slow (stOk,
       t.reportBody e.block ++ slice (Config.edSign t.boot.aliasKey (asciiPad "ZLD-ATTEST" 10) (t.reportBody e.block)) 0 114 ++
         List.replicate 6 0, t))) ∧
     (s.cmdDue 0x0103 e t → ∀ d, t.infoSection (leAt e.block 0 2) = some d → zeroAt e.block 2 6 = true →
       exec (.getInfo slow) s = .next (t.answer e slow (stOk, d, t))) ∧
     (s.cmdDue 0x0103 e t → leAt e.block 0 2 > 5 →
       exec (.getInfo slow) s = .next (t.answer e slow (stBadParam, [], t))))

/-- The four modes of OPEN_SESSION in the order of R518's checks, and CLOSE_SESSION (R515 to R520, R479). Registers
and memory by command, and the commands that order accesses (R10, R359, R361, R481, R482). -/
def Obligations.SessionsAndAccesses : Prop :=
  ((∀ (s t : State) (e : HcpEntry) (cSig cert own z fl slow : Bool) (m : Nat) (a : Ans), s.cmdDue 0x0003 e t →
     leAt e.block 0 1 = m →
     (let proved := cSig = true ∧ cert = true ∧ (m ≥ 2 → own = true) ∧ leAt e.block 168 4 = t.genAfter e.block ∧ z = true
      let room := t.hcp.sessions.length < 16 ∨ t.idlest.isSome = true
      let sound := bit (t.rd 0xC000) 4 = false ∧ (m = 0 ∨ fl = true)
      (t.openBad e.block = true → a = t.openRefuse stBadParam) ∧
      (t.openBad e.block = false → ¬proved → a = t.openRefuse stAuthFail) ∧
      (t.openBad e.block = false → proved → ¬room → a = t.openRefuse stLimit) ∧
      (t.openBad e.block = false → proved → room → ¬sound → a = t.openRefuse stInternal) ∧
      (t.openBad e.block = false → proved → room → sound → a = t.openGo e.block)) →
     (m = 0 → exec (.openSession cSig cert own z fl slow) s = .next (t.answer e slow a)) ∧
     (m = 1 → exec (.claimSession cSig cert own z fl slow) s = .next (t.answer e slow a)) ∧
     (m = 2 → exec (.transferSession cSig cert own z fl slow) s = .next (t.answer e slow a)) ∧
     (m = 3 → exec (.releaseSession cSig cert own z fl slow) s = .next (t.answer e slow a))) ∧
   (∀ (s : State) (b : List Byte), s.hcp.sessions.length < 16 →
     ∃ reply u n x, s.openGo b = (stOk, reply, u) ∧ u.hcp.sessions =
       smPut (if leAt b 0 1 ≥ 2 then [] else s.hcp.sessions) n x ∧ x.certId = leAt b 160 8 ∧ x.cmdSeq = 0 ∧ x.repSeq = 0 ∧
       x.lastAt = s.time ∧
       u.flash.owner = (match leAt b 0 1 with
         | 1 => some (slice b 416 57, 1)
         | 2 => some (slice b 416 57, (match s.flash.owner with | some (_, g) => (g + 1) % 2 ^ 32 | none => 1))
         | 3 => none
         | _ => s.flash.owner) ∧ RegsExcept [] s u ∧ SameBytes s u) ∧
   (∀ (s t : State) (e : HcpEntry), s.cmdDue 0x0004 e t →
     exec .closeSession s = .next ((t.finish e false stOk []).endSession e.session)) ∧
   (∀ (s : State) (id : Nat), (s.endSession id).session? id = none)) ∧
  (∀ (s t : State) (e : HcpEntry) (slow : Bool),
     (s.cmdDue 0x0101 e t → csrBlockBad e.block = false →
       (∀ v, t.csrRead (leAt e.block 0 8 - csrBase) (leAt e.block 8 1) = (.ok, v) →
         exec (.readCsr slow) s = .next (t.answer e slow (stOk, leBytes 8 v, t))) ∧
       (∀ c v, t.csrRead (leAt e.block 0 8 - csrBase) (leAt e.block 8 1) = (c, v) → c ≠ .ok →
         exec (.readCsr slow) s = .next (t.answer e slow (c.status, [], t)))) ∧
     (s.cmdDue 0x0102 e t → csrBlockBad e.block = false → ∀ c st u,
       t.csrWrite (leAt e.block 0 8 - csrBase) (leAt e.block 8 1) (leAt e.block 16 8) = (c, st, u) →
       exec (.writeCsr slow) s = .next (t.answer e slow (st, [], u))) ∧
     (s.cmdDue 0x0201 e t → 1 ≤ leAt e.block 8 4 → leAt e.block 8 4 ≤ 4096 → zeroAt e.block 12 4 = true → ∀ c d u,
       t.gReadAny (leAt e.block 0 8) (leAt e.block 8 4) = (c, d, u) →
       exec (.readMem slow) s = .next (t.answer e slow (if c = .ok then (stOk, d, u) else (c.status, [], u)))) ∧
     (s.cmdDue 0x0202 e t → ∀ c u, t.gWriteAny false (leAt e.block 0 8) e.inline = (c, u) →
       exec (.writeMem slow) s = .next (t.answer e slow (c.status, [], u))) ∧
     (s.cmdDue 0x0203 e t → 4 ≤ leAt e.block 16 8 → leAt e.block 16 8 ≤ 2 ^ 32 - 4 →
       leAt e.block 16 8 % 4 = 0 → leAt e.block 0 8 % 4 = 0 → leAt e.block 8 8 % 4 = 0 → ∀ c n u,
       t.copy false (leAt e.block 0 8) (leAt e.block 8 8) (leAt e.block 16 8) = (c, n, u) →
       exec (.copyMem slow) s = .next (t.answer e slow (c.status, leBytes 8 n, u))) ∧
     (s.cmdDue 0x0204 e t → scopeBad e.block = false →
       (t.accessBusy (leAt e.block 0 1) (leAt e.block 2 2) = false →
         exec (.flush slow) s = .next (t.answer e slow (stOk, [], { t with posted := [] }))) ∧
       (t.accessBusy (leAt e.block 0 1) (leAt e.block 2 2) = true →
         exec (.flush slow) s = .next (t.answer e slow (stPending, [], t)))) ∧
     (s.cmdDue 0x0205 e t → scopeBad e.block = false →
       (t.accessBusy (leAt e.block 0 1) (leAt e.block 2 2) = false →
         exec (.fence slow) s = .next (t.answer e slow (stOk, [], t))) ∧
       (t.accessBusy (leAt e.block 0 1) (leAt e.block 2 2) = true →
         exec (.fence slow) s = .next (t.answer e slow (stPending, [], t)))))

/-- The commands of step programs and runs (R47, R59, R61 to R63). RUN_STEPS is refused in R59's order, and what it
starts (R59, R71). -/
def Obligations.StepCommands : Prop :=
  (∀ (s t : State) (e : HcpEntry) (slow : Bool), let b := e.block
     (s.cmdDue 0x0301 e t → t.running fabDomains → leAt b 0 1 ≤ 1 → 1 ≤ leAt b 1 1 → leAt b 1 1 ≤ 15 → zeroAt b 2 6 = true →
       zeroAt b 20 4 = true → 64 ≤ leAt b 16 4 → leAt b 16 4 ≤ 64 + 32 * 262142 →
       (t.seq.mode = .idle ∨ t.seq.active = !decide (leAt b 0 1 = 1)) →
       ∀ p u, t.gRead (leAt b 8 8) (leAt b 16 4) = (.ok, p, u) →
       (progOk p = true → ∃ v, exec (.loadProgram slow) s = .next (t.answer e slow (stOk, [], v)) ∧
         (∀ k, k < 4 → (v.tile k).slotImage (decide (leAt b 0 1 = 1)) =
           (if bit (leAt b 1 1) k then some p else (u.tile k).slotImage (decide (leAt b 0 1 = 1)))) ∧
         (∀ k, (v.tile k).slotImage (!decide (leAt b 0 1 = 1)) = (u.tile k).slotImage (!decide (leAt b 0 1 = 1))) ∧
         RegsExcept [] u v ∧ SameBytes u v) ∧
       (progOk p = false → exec (.loadProgram slow) s = .next (t.answer e slow (stBadParam, [], u)))) ∧
     (s.cmdDue 0x0302 e t → t.running fabDomains → leAt b 0 1 ≤ 1 → zeroAt b 1 7 = true →
       ∀ r, r = t.runRefusal (decide (leAt b 0 1 = 1)) (leAt b 8 8) (leAt b 16 8) →
       exec (.runSteps slow) s = .next (t.answer e slow (if r = stOk then
         (stOk, [], t.runGo (decide (leAt b 0 1 = 1)) (leAt b 8 8) (leAt b 16 8)) else (r, [], t)))) ∧
     (s.cmdDue 0x0303 e t →
       (t.seq.mode = .idle → exec (.haltSteps slow) s = .next (t.answer e slow (stOk, [], t))) ∧
       (t.seq.mode ≠ .idle → exec (.haltSteps slow) s = .next (t.answer e slow (stOk, [],
         ({ t with seq := { t.seq with haltPending := true } }).wr kSeqHaltAt (leAt b 0 8 % 2 ^ 48))))) ∧
     (s.cmdDue 0x0304 e t →
       (¬(t.seq.mode = .fence ∧ t.seq.fenceOrder ≥ 3) →
         exec .abortJob s = .next (t.answer e false (stOk, [], t.take .abort))) ∧
       (t.seq.mode = .fence ∧ t.seq.fenceOrder ≥ 3 →
         exec .abortJob s = .next (t.answer e false (stPending, [], t.take .abort)))) ∧
     (s.cmdDue 0x0305 e t → exec (.stepStatus slow) s = .next (t.answer e slow
       ((match t.seq.firstFault with
         | none => stOk | some .windowLate => stWindowLate | some .torn => stTornBlock | some _ => stStepFault),
         t.statusData, t)))) ∧
  ((∀ (s : State) (slot : Bool) (first count : Nat),
     (s.seq.mode = .faulted → s.seq.mixed = true → s.runRefusal slot first count = stStepFault) ∧
     (s.seq.mode ≠ .idle → ¬(s.seq.mode = .faulted ∧ s.seq.mixed = true) → s.runRefusal slot first count = stBusy) ∧
     (s.seq.mode = .idle → (∃ k, k < 4 ∧ (s.tile k).slotImage slot = none) → s.runRefusal slot first count = stNotReady) ∧
     (∀ p : Nat → List Byte, s.seq.mode = .idle → (∀ k, k < 4 → (s.tile k).slotImage slot = some (p k)) →
       bit (s.rd kGrnCtrl) 4 = true →
       s.runRefusal slot first count =
         if s.seq.mixed = true then stStepFault
         else if [0, 1, 2, 3].any (fun k => progGen (p k) ≠ s.gen) then stGeneration
         else if first ≠ s.step then stBadParam
         else if first + count > 2 ^ 48 - 1 then stLimit
         else stOk)) ∧
   (∀ (s : State) (slot : Bool) (first count : Nat), (∀ m ∈ s.seq.came, m.phase ≠ 0) → let t := s.runGo slot first count
     t.seq.mode = .starting ∧ t.seq.active = slot ∧ t.seq.haltPending = false ∧ t.seq.firstFault = none ∧
     (count < 2 ^ 48 → t.rd kSeqStepsLeft = if count = 0 then 2 ^ 48 - 1 else count) ∧
     t.out = s.out ++ [.podFence 0 s.step s.gen s.dirGen 0] ∧ RegsExcept [kSeqStepsLeft] s t ∧ SameBytes s t))

/-- The commands of tables and rows; a table in the Granary needs it online, and a restored row is also renewed where
it is staged (R20, R285, R286, R300, R320, R321, R351). -/
def Obligations.TableCommands : Prop :=
  ∀ (s t : State) (e : HcpEntry) (slow : Bool), let b := e.block
    (s.cmdDue 0x0401 e t → t.running fabDomains → leAt b 0 2 < 4096 → zeroAt b 2 6 = true → t.seq.mode = .idle →
      (tbValid (t.table (leAt b 0 2)) = false ∧ t.tableFits (slice b 8 64) = true →
        (tbFmt (slice b 8 64) ≠ 0 ∧ bit (t.rd kGrnCtrl) 4 = false →
          exec (.defineTable slow) s = .next (t.answer e slow (stNotReady, [], t))) ∧
        (tbFmt (slice b 8 64) = 0 ∨ bit (t.rd kGrnCtrl) 4 = true → ∃ u, exec (.defineTable slow) s = .next (t.answer e slow (stOk, [], u)) ∧
          u = { t with embm := { t.embm with tables := smPut t.embm.tables (leAt b 0 2) (slice b 8 64) } } ∧
          u.table (leAt b 0 2) = slice b 8 64)) ∧
      (¬(tbValid (t.table (leAt b 0 2)) = false ∧ t.tableFits (slice b 8 64) = true) →
        exec (.defineTable slow) s = .next (t.answer e slow (stBadParam, [], t)))) ∧
    (s.cmdDue 0x0402 e t → t.running fabDomains → leAt b 0 2 < 4096 → zeroAt b 2 6 = true → t.seq.mode = .idle →
      (t.journalHolds (leAt b 0 2) = true → exec (.dropTable slow) s = .next (t.answer e slow (stNotReady, [], t))) ∧
      (t.journalHolds (leAt b 0 2) = false →
        exec (.dropTable slow) s = .next (t.answer e slow (stOk, [], t.dropTable (leAt b 0 2))))) ∧
    (s.cmdDue 0x0403 e t → t.running fabDomains → zeroAt b 2 6 = true → t.quiet = true → t.tableOk (leAt b 0 2) = true →
      leAt b 8 8 < tbRows (t.table (leAt b 0 2)) → t.owner (t.table (leAt b 0 2)) (leAt b 8 8) = t.rank →
      e.inline.length = tbRowBytes (t.table (leAt b 0 2)) →
      ∀ u, t.memWrite true (t.home (t.table (leAt b 0 2)) (leAt b 8 8)) e.inline = (.ok, u) →
      ∀ k v, k = u.serving (u.table (leAt b 0 2)) (leAt b 8 8) →
        v = (u.restage k 0 (leAt b 0 2) (leAt b 8 8) e.inline).restage k 1 (leAt b 0 2) (leAt b 8 8) e.inline →
      exec (.restoreRow slow) s = .next (t.answer e slow
        (stOk, leBytes 4 (b2n (u.isPoisoned (leAt b 0 2) (leAt b 8 8))),
          (v.dropDeltas (leAt b 0 2) (leAt b 8 8)).unpoison fun x y => x = leAt b 0 2 && y = leAt b 8 8))) ∧
    (s.cmdDue 0x0404 e t → t.running fabDomains → leAt b 0 1 ≤ 1 → zeroAt b 1 1 = true → zeroAt b 10 6 = true →
      t.seq.mode = .idle → leAt b 2 2 ≠ 0 → leAt b 8 2 % 64 = 0 → 64 ≤ leAt b 8 2 → leAt b 8 2 ≤ 1024 →
      exec (.hotrowPolicy slow) s = .next (t.answer e slow
        (stOk, [], t.hotPolicy (leAt b 0 1) (leAt b 2 2) (leAt b 4 2) (leAt b 6 2) (leAt b 8 2)))) ∧
    (s.cmdDue 0x0405 e t → t.running memDomains → t.quiet = true → ∀ n u, t.writeBack t.step t.step (fun _ => true) = (n, u) →
      exec (.flushJournal slow) s = .next (t.answer e slow (stOk, leBytes 8 n, u)))

/-- Calibration, the loss scale, numeric flags, tracing (R217, R237, R240, R484). The commands of records and monitors
(R560, R566, R568, R571). -/
def Obligations.SettingsAndRecords : Prop :=
  (∀ (s t : State) (e : HcpEntry) (slow : Bool), let b := e.block
     (s.cmdDue 0x0501 e t → zeroAt b 4 4 = true → t.running fabDomains → t.seq.mode = .idle →
       leAt b 0 2 + leAt b 2 2 ≤ 16384 → ∀ d u,
       (leAt b 8 8 = 0 ∧ d = e.inline ∧ u = t ∨ leAt b 8 8 ≠ 0 ∧ t.gRead (leAt b 8 8) (8 * leAt b 2 2) = (.ok, d, u)) →
       ((calEntries d (leAt b 2 2)).all (fun x => x.toNat < 2 ^ 33) = true →
         exec (.loadCalibration slow) s = .next (t.answer e slow
           (stOk, [], u.putCal (leAt b 0 2) (calEntries d (leAt b 2 2))))) ∧
       ((calEntries d (leAt b 2 2)).all (fun x => x.toNat < 2 ^ 33) = false →
         exec (.loadCalibration slow) s = .next (t.answer e slow (stBadParam, [], u)))) ∧
     (s.cmdDue 0x0502 e t → zeroAt b 3 1 = true → t.running fabDomains → t.seq.mode = .idle →
       let x := sext (leAt b 0 1) 8
       let lo := sext (leAt b 1 1) 8
       let hi := sext (leAt b 2 1) 8
       (-126 ≤ lo ∧ lo ≤ x ∧ x ≤ hi →
         exec (.setLossScale slow) s = .next (t.answer e slow (stOk, [], t.setLoss x lo hi (leAt b 4 4)))) ∧
       (¬(-126 ≤ lo ∧ lo ≤ x ∧ x ≤ hi) → exec (.setLossScale slow) s = .next (t.answer e slow (stBadParam, [], t)))) ∧
     (s.cmdDue 0x0503 e t → flagScopeBad b = false → t.scopeStatus (leAt b 0 1) (leAt b 2 2) = stOk →
       exec (.readNumericFlags slow) s = .next (t.answer e slow (stOk, t.flagData (leAt b 0 1) (leAt b 2 2), t))) ∧
     (s.cmdDue 0x0504 e t → flagScopeBad b = false → t.scopeStatus (leAt b 0 1) (leAt b 2 2) = stOk →
       ∃ u, exec (.clearNumericFlags slow) s = .next (t.answer e slow (stOk, [], u)) ∧
         u = t.clearFlags (leAt b 0 1) (leAt b 2 2) ∧ SameBytes t u ∧
         (∀ c ∈ flagCores (leAt b 0 1) (leAt b 2 2), u.rd (coreBase c + 0x80) = 0 ∧ u.rd (coreBase c + 0x108) = 0) ∧
         (leAt b 0 1 = 0 → u.rd (coreBase (leAt b 2 2) + 0x84) = 0 ∧ u.rd (coreBase (leAt b 2 2) + 0x10C) = 0)) ∧
     (s.cmdDue 0x0505 e t → zeroAt b 20 4 = true → t.running fabDomains →
       exec (.traceConfig slow) s = .next (t.answer e slow (stOk, [],
         ((t.putReg (tileBase 0 + 0x141000) (leAt b 0 4)).putReg (tileBase 0 + 0x141004) (leAt b 4 4)).eachTile fun s k =>
           (s.putReg (tileBase k + 0x141008) (leAt b 8 8)).putReg (tileBase k + 0x141010) (leAt b 16 4))))) ∧
  (∀ (s t : State) (e : HcpEntry) (slow : Bool), let b := e.block
     (s.cmdDue 0x0801 e t → 1 ≤ leAt b 4 2 → leAt b 4 2 ≤ 127 → zeroAt b 6 2 = true →
       let head := t.rd kRecHead
       let f := leAt b 0 4
       (f = head ∨ serialLater 32 f head = true →
         exec (.readRecords slow) s = .next (t.answer e slow (stOk, leBytes 4 0, t))) ∧
       (f ≠ head → serialLater 32 f head = false → ∀ d u,
         t.readRing head 4096 (if serialLater 32 (t.rd kRecOldest) f then t.rd kRecOldest else f) (leAt b 4 2) [] = (d, u) →
         exec (.readRecords slow) s = .next (t.answer e slow (stOk, leBytes 4 (d.length / 32) ++ d, u)))) ∧
     (s.cmdDue 0x0802 e t → leAt b 0 8 = 0 → exec (.clearSticky slow) s = .next (t.answer e slow (stOk, [],
       t.csr.foldl (fun s x => match regFind x.1 with
         | some r => if isSticky r.key r.o then s.w1c r.key r.o all64 r.row else s
         | none => s) t))) ∧
     (s.cmdDue 0x0802 e t → csrBase ≤ leAt b 0 8 → leAt b 0 8 < csrBase + 2 ^ 24 → ∀ r, regFind (leAt b 0 8 - csrBase) = some r →
       (isSticky r.key r.o = true → exec (.clearSticky slow) s = .next (t.answer e slow
         (stOk, [], t.w1c r.key r.o all64 r.row))) ∧
       (isSticky r.key r.o = false → exec (.clearSticky slow) s = .next (t.answer e slow (stBadParam, [], t)))) ∧
     (s.cmdDue 0x0803 e t → leAt b 0 1 ≤ 31 → zeroAt b 1 7 = true →
       (monConfigOk (slice b 8 24) = false → exec (.monitorConfig slow) s = .next (t.answer e slow (stBadParam, [], t))) ∧
       (monConfigOk (slice b 8 24) = true → ∃ u, exec (.monitorConfig slow) s = .next (t.answer e slow (stOk, [], u)) ∧
         (∀ j, j < 3 → u.rd (kHist (leAt b 0 1) (8 * j)) = leAt (slice b 8 24) (8 * j) 8) ∧
         (∀ k, kHist (leAt b 0 1) 0x18 ≤ k → k < kHist (leAt b 0 1) 0x100 → u.rd k = (csrReset k).toNat) ∧
         (∀ k, k < kHist (leAt b 0 1) 0 ∨ kHist (leAt b 0 1) 0x100 ≤ k → u.rd k = t.rd k) ∧ SameBytes t u)) ∧
     (s.cmdDue 0x0804 e t → zeroAt b 4 4 = true → ∀ l, l = (List.range 32).filter (bit (leAt b 0 4)) → l ≠ [] →
       (l.length ≤ 25 → exec (.monitorRead slow) s = .next (t.answer e slow (stOk, l.flatMap t.monRecord, t))) ∧
       (25 < l.length → exec (.monitorRead slow) s = .next (t.answer e slow (stBadParam, [], t)))))

/-- Checkpoint streams, torn blocks and firmware (R268, R270 to R272, R485, R586 to R589). -/
def Obligations.StateCommands : Prop :=
  (∀ (s t : State) (e : HcpEntry) (slow : Bool), let b := e.block
    (s.cmdDue 0x0901 e t → t.running fabDomains → t.quiet = true → t.exportBad b = false →
      (leAt b 0 1 = 1 → tbFmt (t.table (leAt b 4 2)) ≠ 0 → t.journalHolds (leAt b 4 2) = false) →
      (leAt b 2 1 = 0 → exec (.exportState slow) s = .next (t.answer e slow (stPending, [],
        { t with feed := { t.feed with
          exports := (t.feed.exports.filter fun x => x.entry.tag ≠ e.tag) ++ [⟨e, 0, 0, none⟩] } }))) ∧
      (leAt b 2 1 = 1 → ∀ st u v, t.exportStream b = (.ok, st, u) →
        u.putStream (leAt b 24 8) (chunks 64 (st.length / 64 + 1) st) = (.ok, v) →
        exec (.exportState slow) s = .next (t.answer e slow (stOk, v.exportData b, v)))) ∧
    (s.cmdDue 0x0902 e t → t.running fabDomains → t.quiet = true → ∀ h u, t.gRead (leAt b 0 8) 64 = (.ok, h, u) →
      (u.importPlan h (leAt b 8 8) = none → exec (.importState slow) s = .next (t.answer e slow (stBadParam, [], u))) ∧
      (∀ as d v, u.importPlan h (leAt b 8 8) = some as → u.gRead (leAt b 0 8 + 64) (leAt h 8 4 * leAt h 12 4) = (.ok, d, v) →
        crc32 d = leAt h 24 4 → (leAt h 6 1 = 0 → tagsBad (chunks (leAt h 12 4) (leAt h 8 4) d) = false) →
        v.placesCode (leAt h 12 4) as = .ok →
        exec (.importState slow) s = .next (t.answer e slow (stOk, leBytes 4 (leAt h 8 4),
          v.putUnits (decide (leAt h 6 1 = 0)) (as.zip (chunks (leAt h 12 4) (leAt h 8 4) d)))))) ∧
    (s.cmdDue 0x0903 e t → t.running fabDomains → t.quiet = true →
      ∀ l, l = t.tornBlocks.filter (fun x => leAt b 0 8 = 2 ^ 64 - 1 || x.2.2.record = leAt b 0 8) →
      (l = [] → exec (.acceptTorn slow) s = .next (t.answer e slow (stBadParam, [], t))) ∧
      (l ≠ [] → ∀ n left u, t.acceptAll l = (n, left, u) →
        exec (.acceptTorn slow) s = .next (t.answer e slow
          ((if left.isSome then stTornBlock else stOk), leBytes 4 n ++ List.replicate 4 0 ++ leBytes 8 (left.getD 0), u))))) ∧
  (∀ (s t : State) (e : HcpEntry) (h img : List Byte) (u v : State), let b := e.block
    s.cmdDue 0x0904 e t → zeroAt b 12 4 = true → t.quiet = true → 384 ≤ leAt b 8 4 →
    t.gRead (leAt b 0 8) 384 = (.ok, h, u) → imageOk h = true → leAt b 8 4 = 384 + leAt h 12 4 →
    leAt h 12 4 ≤ flashArea (leAt h 6 1) → u.gRead (leAt b 0 8) (leAt b 8 4) = (.ok, img, v) →
    exec (.updateFirmware true) s = .next (t.answer e false (stPending, [],
      (v.wr 0xC608 (1 + leAt h 6 1 * 2 ^ 4 + leAt h 8 4 * 2 ^ 32)).setUpdate (some (img, true, false)))) ∧
    exec (.updateFirmware false) s = .next (t.answer e false (stAuthFail, [], v))) ∧
  (∀ (s : State) (img : List Byte) (b again : Bool), s.hubOn = true → s.boot.update = some (img, b, again) →
    exec (.firmwareCopyWritten true) s = .next (s.copyGood img b) ∧
    exec (.firmwareCopyWritten false) s = .next (s.copyBad img b again)) ∧
  (∀ (s : State) (img : List Byte), s.seq.deferred.contains .resetModule = false →
    (s.copyGood img true).boot.update = some (img, false, false) ∧ (s.copyGood img false).boot.update = none ∧
    smGet [] (s.copyGood img true).flash.images (2 * leAt img 6 1 + 1) = img ∧
    smGet [] (s.copyGood img false).flash.images (2 * leAt img 6 1) = img)

/-- SET_LAYOUT and RESHARD: a refusal of R445, a layout fence at once, or a change that waits for a step's fence; a
RESHARD with moves that waits is answered at its commit (R444, R445, R446). DIGEST_CHECK: the module joins with the
digests of its blocks and sends those of their chunks of 256; those of its peers are kept, and a line not all joined
in time ends it (R273 to R276). -/
def Obligations.LayoutAndDigests : Prop :=
  ((∀ (s t : State) (e : HcpEntry), s.cmdDue 0x0601 e t → t.running fabDomains →
     (∀ st, t.layoutRefusal false e.block = st → st ≠ stOk →
       exec .setLayout s = .next (t.answer e false (st, if st = stBusyReducing then leBytes 4 t.openCount else [], t))) ∧
     (∀ u, t.layoutRefusal false e.block = stOk →
       u = { t.changeGone with lay := { t.changeGone.lay with change := some (false, e.block) } } →
       (u.quiet = true → exec .setLayout s = .next (t.answer e false (stPending, [], u.layFenceStart))) ∧
       (u.quiet = false → exec .setLayout s = .next (t.answer e false (stOk, [], u))))) ∧
   (∀ (s t : State) (e : HcpEntry), s.cmdDue 0x0602 e t → t.running fabDomains →
     (∀ st, t.layoutRefusal true e.block = st → st ≠ stOk →
       exec .reshard s = .next (t.answer e false (st, if st = stBusyReducing then leBytes 4 t.openCount else [], t))) ∧
     (∀ r u, t.layoutRefusal true e.block = stOk →
       r = (if ownReplaced e.block = true then t.wrf kLayoutStatus 0 16 ((lyGen e.block + 2 ^ 16 - 1) % 2 ^ 16) else t) →
       u = { r.changeGone with lay := { r.changeGone.lay with change := some (true, e.block) } } →
       (u.quiet = true → exec .reshard s = .next (t.answer e false (stPending, [], u.layFenceStart))) ∧
       (u.quiet = false → lyMoves e.block ≠ 0 → exec .reshard s = .next (t.answer e false (stPending, [], u))) ∧
       (u.quiet = false → lyMoves e.block = 0 →
         exec .reshard s = .next (t.answer e false (stOk, List.replicate 4 0, u)))))) ∧
  ((∀ (s t : State) (e : HcpEntry), s.cmdDue 0x0603 e t → let b := e.block
     zeroAt b 1 7 = true → t.quiet = true → leAt b 0 1 ≤ 3 → t.layoutLen (leAt b 0 1) ≠ 1 → leAt b 8 8 % 4096 = 0 →
     leAt b 16 8 % 4096 = 0 → leAt b 16 8 ≤ 2 ^ 36 → ∀ d u, t.memRead (leAt b 8 8) (leAt b 16 8) = (.ok, d, u) →
     exec .digestCheck s = .next (t.answer e false (stPending, [], u.digestJoin (leAt b 0 1) (blockDigests d)))) ∧
   (∀ (s : State) (axis : Nat) (d ks : List (List Byte)), let t := s.digestJoin axis d
     ks = (chunks 256 d.length d).map chunkDigest →
     smGet [] t.lay.digests (s.coord axis) = ks ∧ (∃ more, t.out = s.out ++ .digests axis none ks :: more) ∧
     (∀ i, i < d.length → (smGet [] t.lay.blocks (65536 * s.coord axis + i / 256)).getD (i % 256) [] = d.getD i []) ∧
     RegsExcept [] s t ∧ SameBytes s t) ∧
   (∀ (s : State) (c : Fin 32) (l : List (List Byte)), s.hubOn = true →
     (∀ k : Fin 65536, exec (.digestMessage c (.blocks k l)) s = .next { s with
       lay := { s.lay with blocks := smPut s.lay.blocks (65536 * c.val + k.val) (l.map fun x => slice x 0 8) } }) ∧
     (s.hcp.pend = none → exec (.digestMessage c (.chunks l)) s = .next { s with
       lay := { s.lay with digests := smPut s.lay.digests c.val (l.map fun x => slice x 0 8) } }) ∧
     (∀ e u, s.hcp.pend = some ⟨e, none⟩ → e.opcode = 0x0603 →
       u = { s with lay := { s.lay with digests := smPut s.lay.digests c.val (l.map fun x => slice x 0 8) } } →
       exec (.digestMessage c (.chunks l)) s = .next (u.digestTurn (leAt e.block 0 1) (leAt e.block 16 8 / 4096)))) ∧
   (∀ (s : State) (e : HcpEntry), s.hubOn = true → s.hcp.pend = some ⟨e, none⟩ → e.opcode = 0x0603 →
     s.allJoined (leAt e.block 0 1) = false →
     exec .digestJoinTimeout s = .next { s with
       lay := { s.lay with digests := [], blocks := [], sent := false },
       hcp := { s.hcp with pend := some ⟨e, some (stNotReady, [])⟩ } }))

/-- LINK_STATUS: the refusals, and the action on each port named; the port by which the command came acts after the
reply (R406). PARITY_CONFIG (R456, R459, R461) and the end of its wait. -/
def Obligations.LinkAndParityCommands : Prop :=
  (∀ (s t u r : State) (e : HcpEntry) (act : Nat), s.cmdDue 0x0604 e t → leAt e.block 1 1 = act →
     (let one := fun (s : State) (p : Nat) =>
        if act = 1 then s.lnkRetrain p else if act = 2 then s.lnkEnable p false else if act = 3 then s.lnkEnable p true else s
      u = ((maskPorts e.block).filter (fun p => t.cameBy e.via ≠ some p)).foldl one t ∧
      (t.linkRefusal e.block ≠ stOk → r = t.finish e false (t.linkRefusal e.block) []) ∧
      (t.linkRefusal e.block = stOk → r = ((maskPorts e.block).filter (fun p => t.cameBy e.via = some p)).foldl one
        (u.finish e false stOk ((maskPorts e.block).flatMap u.linkRecord)))) →
     (act = 0 → exec .linkStatus s = .next r) ∧ (act = 1 → exec .linkStatusRetrain s = .next r) ∧
     (act = 2 → exec .linkStatusDisable s = .next r) ∧ (act = 3 → exec .linkStatusEnable s = .next r)) ∧
  ((∀ (s t : State) (e : HcpEntry), s.cmdDue 0x0605 e t → let b := e.block
     zeroAt b 2 6 = true → t.running fabDomains →
     (leAt b 0 1 = 0 → t.configureBad b = false → t.seq.mode = .idle →
       (unitsIn true (pcRanges b) ≠ 0 → bit (t.rd kGrnCtrl) 4 = true) →
       exec .parityConfigure s = .next (t.answer e false (stPending, [], t))) ∧
     (leAt b 0 1 = 0 → t.configureBad b = true → exec .parityConfigure s = .next (t.answer e false (stBadParam, [], t))) ∧
     (∀ slow, leAt b 0 1 = 2 → leAt b 1 1 = 0 → t.seq.mode = .idle → ∃ u,
       exec (.parityDisable slow) s = .next (t.answer e slow (stOk, [], u)) ∧ bit (u.rd kParityCtrl) 0 = false ∧
       u.rd kParityCtrl / 2 = t.rd kParityCtrl / 2 ∧ RegsExcept [kParityCtrl] t u ∧ SameBytes t u) ∧
     (∀ slow units lost base len, leAt b 0 1 = 1 → leAt b 1 1 = 1 → (pcRanges b).headD (0, 0) = (base, len) →
       rangeOk (base, len) = true → t.allProtected base (len / 4096) = true → t.quiet = true →
       (regionOf base = .granary → bit (t.rd kGrnCtrl) 4 = true) →
       (lost = none → exec (.parityRepair units lost slow) s = .next (t.answer e slow
         (stOk, leBytes 8 (len / 4096), t.parityRepair base len units))) ∧
       (∀ torn, lost = some torn → exec (.parityRepair units lost slow) s = .next (t.answer e slow
         (stPoisoned, [], t.orBits (wideKey 0x130214) (if torn then 2 else 1)))))) ∧
   (∀ (s : State) (p : PendCmd), s.hubOn = true → s.hcp.pend = some p → p.entry.opcode = 0x0605 → p.result = none →
     exec .parityJoinTimeout s = .next { s with hcp := { s.hcp with pend := some { p with result := some (stNotReady, []) } } }))

/-- Clock sources, performance points, lamps and resets by command (R421, R426, R539, R549, R582, R583). When a reset
or abort takes effect: at once, or after order 9 of the fence in progress (R62, R581, R588). -/
def Obligations.ModuleCommands : Prop :=
  (∀ (s t : State) (e : HcpEntry) (slow : Bool), let b := e.block
     (s.cmdDue 0x0701 e t →
       (t.clockRefusal b = stOk → exec (.setClockSource slow) s = .next (t.answer e slow
         (stOk, [], t.switchDomain (leAt b 0 1) (leAt b 1 1)))) ∧
       (t.clockRefusal b ≠ stOk → exec (.setClockSource slow) s = .next (t.answer e slow (t.clockRefusal b, [], t)))) ∧
     (s.cmdDue 0x0702 e t → zeroAt b 3 5 = true → (leAt b 2 1 = 0xFF ∨ leAt b 2 1 ≤ 15) →
       (leAt b 0 2 = 0 ∨ 600 ≤ leAt b 0 2 ∧ leAt b 0 2 ≤ 1900) → ∀ u, u = (if leAt b 0 2 = 0 then t
         else t.wr 0x4100 (setFld (t.rd 0x4100) 0 12 (leAt b 0 2))) →
       exec (.setPerfPoint slow) s = .next (t.answer e slow
         (stOk, [], if leAt b 2 1 = 0xFF then u else u.askCap (leAt b 2 1)))) ∧
     (s.cmdDue 0x0703 e t → zeroAt b 1 7 = true → ∀ l, l = (List.range 8).filter (bit (leAt b 0 1)) → l ≠ [] →
       exec (.lampStatus slow) s = .next (t.answer e slow (stOk, l.flatMap t.lampRecord, t))) ∧
     (s.cmdDue 0x0704 e t → s.retireBad b = false → s.ramping (leAt b 0 1) = false → s.ramping (partner (leAt b 0 1)) = false →
       t.retireBad b = false → t.lampOn (leAt b 0 1) = true →
       (leAt b 1 1 = 1 → t.quiet = true → exec .lampRetire s = .next (t.answer e false (stOk, [], t.forceDark (leAt b 0 1)))) ∧
       (leAt b 1 1 = 1 → t.quiet = false → exec .lampRetire s = .next (t.answer e false (stBusy, [], t))) ∧
       (leAt b 1 1 = 0 → t.lampSt (leAt b 0 1) = 4 → t.lampSt (partner (leAt b 0 1)) = 4 →
         exec .lampRetire s = .next (t.answer e false
           (stPending, [], (t.ramp (partner (leAt b 0 1)) 2 false).ramp (leAt b 0 1) 0 true)))) ∧
     (s.cmdDue 0x0A01 e t → leAt b 0 1 ≤ 3 → zeroAt b 1 7 = true → t.running (tileDomains (leAt b 0 1)) →
       exec .resetTile s = .next ((t.finish e false stOk []).take (.resetTile (leAt b 0 1)))) ∧
     (s.cmdDue 0x0A02 e t → t.srcReady 3 = true → ∀ u, u = t.finish e false stOk [] →
       exec .resetModule s = .next (({ u with
         hcp := { HcpState.init with nextTag := u.hcp.nextTag }, feed := { u.feed with last := none, exports := [] } } :
           State).take .resetModule)) ∧
     (s.cmdDue 0x0A02 e t → t.srcReady 3 = false → exec .resetModule s = .next (t.finish e false stClockNotReady []))) ∧
  (∀ (s : State) (d : Deferred),
     (s.seq.deferred.contains .resetModule = true → s.take d = s) ∧
     (s.seq.deferred.contains .resetModule = false → s.seq.mode = .fence → s.seq.fenceOrder ≥ 3 →
       s.take d = { s with seq := { s.seq with
         deferred := if d = .resetModule then [.resetModule] else s.seq.deferred ++ [d] } }) ∧
     (s.seq.deferred.contains .resetModule = false → ¬(s.seq.mode = .fence ∧ s.seq.fenceOrder ≥ 3) →
       (d = .resetModule → s.boot.update = none) →
       s.take d = match d with
         | .abort => s.abort.abortReplies
         | .resetTile t => s.resetTile t
         | .resetModule => s.resetModule) ∧
     (let t := s.resetModule
      t.seq = SeqState.reset ∧ t.tseq = [] ∧ t.cores = [] ∧ t.col = [] ∧ t.inbox = [] ∧ t.feed = FeedState.init ∧
      t.hcp.queue = [] ∧ t.hcp.sessions = [] ∧ t.hcp.pend = none ∧ t.boot.reeve = false ∧ t.pending = s.pending ∧
      t.flash.owner = s.flash.owner ∧ ∀ a, a < 0x4B000000 → t.byte a = 0) ∧
     (let t := s.abort
      t.seq.mode = .idle ∧ t.seq.mixed = false ∧ t.rd kSeqStepsLeft = 0 ∧ ∀ k, k < 4 → (t.tile k).inflight = [] ∧
        (t.tile k).next = 0 ∧ (t.tile k).ctr = [] ∧ (t.tile k).phase = 0))

/-- When a tile's next descriptor is due (one that accesses memory not while an order command holds the tile), what
its issue records, and the fate of one that depends on failed work (R49, R50, R65, R361). The descriptors whose work
the sequencer does itself or queues on its tile (R86, R87, R211, R355, R359, R361). -/
def Obligations.Descriptors : Prop :=
  ((∀ (s : State) (t : Nat), let x := s.tile t; let p := s.program t; let d := progDesc p x.next
     s.due t = if s.fabOn t = true ∧ s.seq.mode = .running ∧ (s.feedT t).copying = false ∧ x.next < progCount p ∧
         (dWaitValue d = 0 ∨ dWaitValue d ≤ smGet 0 x.ctr (dWaitCtr d)) ∧ x.inflight.length < 64 ∧
         (x.inflight.all fun i => decide (i.waiting = [])) = true ∧
         (dKind d = 0 ∨ dKind d = 8 ∨ dKind d = 13 ∨ dKind d = 14 ∨ dKind d = 15 ∨ s.fencedTile t = false) then some d
       else none) ∧
   (∀ (s : State) (t parts : Nat) (d : List Byte) (l : List Nat) (err : Option Bool), let x := s.tile t
     let u := s.launch t d parts l err
     u.tile t = { x with next := x.next + 1, phase := phaseAt (s.program t) x.next,
                         inflight := x.inflight ++ [⟨x.next, dKind d, dFlags d, dSignal d, d.drop 8, parts, l, err, false, none⟩] } ∧
     (∀ k, k ≠ t → u.tile k = s.tile k) ∧ u.cores = s.cores ∧ RegsExcept [] s u ∧ SameBytes s u) ∧
   (∀ (s r : State) (t : TileId) (d : List Byte), s.due t = some d → (s.tile t).tainted d = true →
     r = s.launch t d 0 [] (some false) →
     (dKind d = 0 → exec (.nopDesc t) s = .next r) ∧ (dKind d = 1 → exec (.matmul t) s = .next r) ∧
     (dKind d = 2 → exec (.veRun t) s = .next r) ∧ (dKind d = 3 → exec (.embLookup t) s = .next r) ∧
     (dKind d = 4 → exec (.embGrad t) s = .next r) ∧ (dKind d = 6 → exec (.prefetch t) s = .next r) ∧
     (dKind d = 7 → exec (.easelLoad t) s = .next r) ∧ (dKind d = 10 → exec (.quantDesc t) s = .next r) ∧
     (dKind d = 12 → exec (.copyDesc t) s = .next r) ∧ (dKind d = 13 → exec (.memFence t) s = .next r))) ∧
  (∀ (s : State) (t : TileId) (d : List Byte) (u : State) (n : Nat), s.due t = some d → (s.tile t).tainted d = false →
     u = s.launch t d 1 [] none → n = (s.tile t).next →
     (dKind d = 0 → exec (.nopDesc t) s = .next (u.partDone t n none)) ∧
     (u.coreRange d = none →
       (dKind d = 1 → exec (.matmul t) s = .next (u.partDone t n (some false))) ∧
       (dKind d = 2 → exec (.veRun t) s = .next (u.partDone t n (some false)))) ∧
     (∀ cs v, u.coreRange d = some cs → v = u.mapFlight t n (fun i => { i with parts := cs.length, waiting := cs }) →
       (dKind d = 1 → exec (.matmul t) s = .next v) ∧ (dKind d = 2 → exec (.veRun t) s = .next v)) ∧
     (dKind d = 7 →
       let src := dArg d 8 8
       let off := dArg d 16 4
       let size := dArg d 4 4
       let good := size ≠ 0 ∧ size % 64 = 0 ∧ src % 64 = 0 ∧ off % 64 = 0 ∧ off + size ≤ u.rdf (kEasel t 8) 0 29
       (¬good → exec (.easelLoad t) s = .next (u.partDone t n (some false))) ∧
       (good → ∀ c k v, u.copy false src (ownGlobal (u.rdf (kEasel t 0) 0 44 + off)) size = (c, k, v) →
         exec (.easelLoad t) s = .next (v.partDone t n (if c = .ok then none else some (decide (c = .ue)))))) ∧
     (dKind d = 10 → exec (.quantDesc t) s = .next
       (u.setQzt t { u.qzt t with queue := (u.qzt t).queue ++ [(n, dArg d 8 8, dCount d)] })) ∧
     (dKind d = 12 →
       let src := dArg d 8 8
       let dst := dArg d 16 8
       let size := dArg d 0 4
       let good := size ≠ 0 ∧ size % 4 = 0 ∧ src % 4 = 0 ∧ dst % 4 = 0
       (¬good → exec (.copyDesc t) s = .next (u.partDone t n (some false))) ∧
       (good → ∀ c k v, u.copy false src dst size = (c, k, v) →
         exec (.copyDesc t) s = .next (v.partDone t n (if c = .ok then none else some (decide (c = .ue)))))) ∧
     (dKind d = 13 →
       (dArg d 0 1 ≤ 1 → exec (.memFence t) s = .next (u.partDone t n none)) ∧
       (dArg d 0 1 > 1 → exec (.memFence t) s = .next (u.partDone t n (some false)))) ∧
     (dKind d = 3 → exec (.embLookup t) s = .next
       (u.lookupIssue t n (dArg d 0 2) (dArg d 4 4) (dArg d 8 8) (dArg d 16 8) (dCount d))) ∧
     (dKind d = 4 → exec (.embGrad t) s = .next (u.gradIssue t n (dArg d 0 2) (dArg d 4 4) (dArg d 8 8) (dArg d 16 8))) ∧
     (dKind d = 6 → exec (.prefetch t) s = .next (u.prefetchIssue t n (dArg d 0 2) (dArg d 4 4) (dArg d 8 8))))

/-- EMB_APPLY and UPDATE wait for the outcome, EMB_APPLY also for its journal areas; they have no effect when the
update is skipped, and none when they depend on failed work (R55, R65, R247, R346). A core whose engine has a free
pending slot takes the next share of a descriptor that waits for it, or else a pooling share whose rows are gathered
(R86, R87, R179, R295). EASEL_FENCE waits for its layer's loads and collectives, and WINDOW_TIMEOUT ends that wait
with WINDOW_LATE (R356, R357). What a monitor channel captures of the wait is R569's. -/
def Obligations.SharesAndFences : Prop :=
  (∀ (s : State) (t : TileId) (d : List Byte), s.due t = some d →
     (s.seq.decision = none → (dKind d = 5 → exec (.embApply t) s = .next s) ∧ (dKind d = 11 → exec (.updateDesc t) s = .next s)) ∧
     (∀ o, s.seq.decision = some o → (s.tile t).tainted d = false → ∀ u n, u = s.launch t d 1 [] none → n = (s.tile t).next →
       (dKind d = 5 → o.apply = false → exec (.embApply t) s = .next (u.partDone t n none)) ∧
       (dKind d = 5 → o.apply = true → s.applyWaits = false →
         exec (.embApply t) s = .next (u.applyIssue t n (dArg d 0 2))) ∧
       (dKind d = 5 → o.apply = true → s.applyWaits = true → exec (.embApply t) s = .next s) ∧
       (dKind d = 11 → o.apply = false → exec (.updateDesc t) s = .next (u.partDone t n none)) ∧
       (dKind d = 11 → o.apply = true → exec (.updateDesc t) s = .next
         (u.updateIssue t n (dArg d 0 1) (dArg d 4 4) (dArg d 8 8) (dArg d 16 8)))) ∧
     (∀ o, s.seq.decision = some o → (s.tile t).tainted d = true →
       (dKind d = 5 → (o.apply = false ∨ s.applyWaits = false) →
         exec (.embApply t) s = .next (s.launch t d 0 [] (some false))) ∧
       (dKind d = 11 → exec (.updateDesc t) s = .next (s.launch t d 0 [] (some false)))) ∧
     (s.applyWaits = true ↔ ∃ k, k < 4 ∧ s.step % 10 ∈ (s.grn k).clearing)) ∧
  ((∀ (s : State) (t : TileId) (c : CoreId) (i : InFlight), s.coreOn c = true → s.fabOn t = true →
     (s.tile t).inflight.find? (fun i => i.waiting.contains c.val) = some i →
     (i.kind = 1 → (s.me c).pend = none → exec (.shareDispatch t c) s = .next
       (let u := s.mapFlight t i.idx fun i => { i with waiting := i.waiting.erase c.val }
        (u.setMe c { u.me c with pend := some ⟨.desc t i.idx,
          leAt i.args 8 8 + 64 * leAt i.args 16 4 * (c.val - leAt i.args 0 2), leAt i.args 16 4, bit i.flags 1, 0, false,
          none⟩ }).meAdvance c)) ∧
     (i.kind ≠ 1 → (s.ve c).pend = none → exec (.shareDispatch t c) s = .next
       (let u := s.mapFlight t i.idx fun i => { i with waiting := i.waiting.erase c.val }
        (u.setVe c { u.ve c with pend := some ⟨.desc t i.idx, leAt i.args 8 8, leAt i.args 16 8, c.val - leAt i.args 0 2,
          leAt i.args 2 2, bit i.flags 1⟩ }).vePromote c)) ∧
     ((if i.kind = 1 then (s.me c).pend.isSome else (s.ve c).pend.isSome) = true → exec (.shareDispatch t c) s = .next s)) ∧
   (∀ (s : State) (t : TileId) (c : CoreId), s.coreOn c = true → s.fabOn t = true →
     (∀ i ∈ (s.tile t).inflight, c.val ∉ i.waiting) →
     ((∀ sh ∈ (s.embt t).shares, ¬(sh.core = c.val ∧ sh.mode ≤ 2 ∧ sh.phase = .gather ∧ sh.known = true)) →
       exec (.shareDispatch t c) s = .next s) ∧
     (∀ sh bytes, (s.embt t).shares.find? (fun sh => sh.core = c.val && sh.mode ≤ 2 && sh.phase = .gather && sh.known) = some sh →
       bytes = (poolLayout sh.items.length (sh.rowForm (s.table sh.table)).1 (tbDim (s.table sh.table))).2.2.2 →
       s.absent c = false →
       (∀ a, (s.ve c).pend = none → s.fencedCore c = false → s.poolArea t c bytes = some a →
         exec (.shareDispatch t c) s = .next ((s.poolStart t sh a).vePromote c)) ∧
       ((s.ve c).pend.isSome = true ∨ s.fencedCore c = true ∨ s.poolArea t c bytes = none →
         exec (.shareDispatch t c) s = .next s))) ∧
   (∀ (s : State) (c : Nat) (p : VeShare), (s.ve c).run = none → (s.ve c).pend = some p →
     s.vePromote c = s.setVe c { s.ve c with run := some p, pend := none, started := false, ended := false, err := none })) ∧
  (∀ (s : State) (t : TileId) (d : List Byte), s.due t = some d → dKind d = 8 →
     (∀ ns, s.easelBusy t (dArg d 0 2) = true → exec (.easelFence t ns) s = .next s) ∧
     (∀ ns, s.easelBusy t (dArg d 0 2) = false → (s.tile t).tainted d = true →
       exec (.easelFence t ns) s = .next (s.launch t d 0 [] (some false))) ∧
     (∀ ns, s.easelBusy t (dArg d 0 2) = false → (s.tile t).tainted d = false → exec (.easelFence t ns) s = .next
       ((((((s.launch t d 1 [] none).bump (kEasel t 0x10) ns).wr (kEasel t 0x18)
         (dArg d 0 2 + min ns 0xFFFFFFFF * 2 ^ 16)).sample 4 t ns).bump (kEasel t 0x20) 1).partDone t (s.tile t).next none)) ∧
     (∀ l, s.easelBusy t (dArg d 0 2) = true → l = s.rdf (wideKey 0x13010C) 0 24 → l ≠ 0 →
       exec (.windowTimeout t) s = .next
         (((((((s.launch t d 0 [] (some false)).bump (kEasel t 0x10) (1000 * l)).wr (kEasel t 0x18)
           (dArg d 0 2 + min (1000 * l) 0xFFFFFFFF * 2 ^ 16)).sample 4 t (1000 * l)).bump (kEasel t 0x20) 1).raise 0x0602 1 t (dArg d 0 2)).fault t
             .windowLate)) ∧
     (s.easelBusy t (dArg d 0 2) = false ∨ s.rdf (wideKey 0x13010C) 0 24 = 0 → exec (.windowTimeout t) s = .next s) ∧
     (s.easelBusy t (dArg d 0 2) = true ↔ ∃ i ∈ (s.tile t).inflight,
       (i.kind = 7 ∧ leAt i.args 0 2 = dArg d 0 2) ∨ i.easel = some (dArg d 0 2)))

/-- The five operations of COLLECTIVE issue with their ordinal; a descriptor that R440 refuses, or that cannot be
read, completes with an error, and one that depends on failed work still takes its ordinal (R65, R436, R440, R441).
The first collective message that can be judged is counted as stale, taken by its collective or by the open
FLAG_REDUCE, or dropped (R433, R441, R442, R443). -/
def Obligations.Collectives : Prop :=
  (∀ (s u r : State) (t : TileId) (d : List Byte) (op n o a : Nat), s.due t = some d → dKind d = 9 → n = (s.tile t).next →
     o = (s.tile t).colOrd → a = dArg d 8 8 →
     u = (s.launch t d 1 [] none).setTile t { (s.launch t d 1 [] none).tile t with colOrd := o + 1 } →
     ((s.tile t).tainted d = false ∧ a % 64 ≠ 0 ∧ r = u.partDone t n (some false) ∨
      (s.tile t).tainted d = false ∧ a % 64 = 0 ∧ (∃ c b w b' v, c ≠ .ok ∧ s.gRead a 64 = (c, b, w) ∧ u.gRead a 64 = (c, b', v) ∧
        r = v.partDone t n (some (decide (c = .ue)))) ∨
      (s.tile t).tainted d = false ∧ a % 64 = 0 ∧ (∃ b w v, s.gRead a 64 = (.ok, b, w) ∧ leAt b 0 1 = op ∧ u.gRead a 64 = (.ok, b, v) ∧
        (v.colOk t b = false → r = v.partDone t n (some false)) ∧
        (v.colOk t b = true → ∀ j : ColJob, j =
          { idx := n, ordinal := o, op := op, fmt := leAt b 3 1, bytes := leAt b 8 8, dst := leAt b 24 8,
            axes := leAt b 1 1, root := leAt b 40 2, minus := bit (leAt b 2 1) 1,
            layer := if bit (leAt b 2 1) 0 = true then some (leAt b 6 2) else none, countFlags := dCount d, got := [],
            msgs := 0, sent := (0, 0), gen := leAt b 4 2 } →
          r = ((v.mapFlight t n fun i => { i with easel := j.layer }).colStart t j (leAt b 16 8)).colSent t j v.net.nextMsg)) ∨
      (s.tile t).tainted d = true ∧ (∃ b w, a % 64 = 0 ∧ s.gRead a 64 = (.ok, b, w) ∧ leAt b 0 1 = op) ∧
        r = (s.launch t d 0 [] (some false)).setTile t
          { (s.launch t d 0 [] (some false)).tile t with colOrd := o + 1 }) →
     (op = 0 → exec (.allGather t) s = .next r) ∧ (op = 1 → exec (.reduceScatter t) s = .next r) ∧
     (op = 2 → exec (.allReduce t) s = .next r) ∧ (op = 3 → exec (.colBroadcast t) s = .next r) ∧
     (op = 4 → exec (.colShift t) s = .next r)) ∧
  (∀ (s : State) (m : InMsg), s.inbox.find? (fun m => m.typ ≥ colClass && s.colJudge m ≠ .hold) = some m →
     s.fabOn (leAt m.body 3 1 % 4) = true → let u : State := { s with inbox := s.inbox.erase m }
     (s.colJudge m = .stale → exec .collectiveMessage s = .next (u.bump (wideKey 0x130230) 1)) ∧
     (∀ t j, s.colJudge m = .mine t j → exec .collectiveMessage s = .next (u.colTake t j m)) ∧
     (s.colJudge m = .flag → exec .collectiveMessage s = .next
       { u with seq := { u.seq with flagMsgs := u.seq.flagMsgs + 1 } }) ∧
     (s.colJudge m = .drop → exec .collectiveMessage s = .next u) ∧
     (serialLater 16 (leAt m.body 0 2) s.gen = false →
       (leAt m.body 0 2 ≠ s.gen ∨ leAt m.body 8 4 ≠ s.step % 2 ^ 32) → s.colJudge m = .stale))

/-- FLAG_REDUCE issues once every tile has completed what precedes its own; with the last of them the module joins the
reduction; the result decides the update, and the reduction stays open until what it sent is accepted (R51 to R54,
R443). What a reduced flag word decides: a fault, an update applied or skipped, the loss scale halved (R54). -/
def Obligations.FlagOutcome : Prop :=
  ((∀ (s : State) (t : TileId) (d : List Byte), s.due t = some d → dKind d = 14 →
     (∀ k, k < 4 → s.reduceReady k = true) → ∀ u, u = s.launch t d 1 [] none →
     ((∀ k, k < 4 → u.reduceGone k = true) → u.seq.reduceIssued = false → exec (.flagReduce t) s = .next u.reduceJoin) ∧
     (¬((∀ k, k < 4 → u.reduceGone k = true) ∧ u.seq.reduceIssued = false) → exec (.flagReduce t) s = .next u)) ∧
   (∀ (s : State) (peers : W64), s.fabOn 0 = true → s.flagOpen = false →
     exec (.flagReduceResult peers) s = .next { s with seq := { s.seq with opens := answerOld s.seq.opens } }) ∧
   (∀ (s : State) (peers : W64), s.flagOpen = true → s.fabOn 0 = true → ∀ w u,
     w = (if s.modules > 1 then Nat.lor s.seq.sentFlags peers.toNat else s.seq.sentFlags) →
     u = ((s.wr kPodFlags w).keepOpen ⟨4, s.seq.flagMsgs, s.seq.flagSent.1, s.seq.flagSent.2, false⟩).sample 8 0
       (s.time - s.seq.joinAt) →
     (s.seq.mode ≠ .running →
       exec (.flagReduceResult peers) s = .next { u with seq := { u.seq with reduceIssued := false } }) ∧
     (∀ v, v = (({ u with seq := { u.seq with decision := some (u.outcome w) } } : State).eachTile fun s t =>
         s.partDone t (progReduce (s.program t)) none) → s.seq.mode = .running →
       ((u.outcome w).faulted = false → exec (.flagReduceResult peers) s = .next v) ∧
       ((u.outcome w).faulted = true → bit v.seq.sentFlags 48 = true →
         exec (.flagReduceResult peers) s = .next (v.endStep (v.seq.firstFault.getD .peerFault) false)) ∧
       ((u.outcome w).faulted = true → bit v.seq.sentFlags 48 = false →
         exec (.flagReduceResult peers) s = .next ((v.noteCause .peerFault).endStep .peerFault false)))) ∧
   (∀ (s : State) (o : OpenRed), let u := s.keepOpen o
     u.seq.opens = (s.seq.opens ++ [o]).filter s.redOpen ∧ u.csr = s.csr ∧ u.mem = s.mem ∧ u.net = s.net ∧
     (s.redOpen o = true ↔ o.awaits = true ∨ s.unaccepted o.lo o.hi = true))) ∧
  (∀ (s : State) (w : Nat), let above := w % 2 ^ 24 ≠ 0; let inv := w / 2 ^ 24 % 2 ^ 24 ≠ 0
     let faulted := w / 2 ^ 48 % 2 = 1
     let ignore := s.rd (wideKey 0x130000) % 2 = 1
     ((s.outcome w).faulted = true ↔ faulted) ∧
     ((s.outcome w).halve = true ↔ ¬faulted ∧ above) ∧
     ((s.outcome w).apply = true ↔ ¬faulted ∧ ¬inv ∧ (¬above ∨ ignore)))

/-- A part that ends, and a descriptor that completes and signals its counter; a MEM_FENCE first waits for the
accesses of its scope, and what it held back goes on; an update's non-finite error is raised with its last part (R50,
R64, R65, R259, R361, R597). A step starts when every tile's feed is ready, and leaves open a reduction of a faulted
step (R443); the wait for the feed can time out (R41, R42, R491, R492). -/
def Obligations.StepProgress : Prop :=
  ((∀ (s : State) (t : TileId) (idx : Nat) (i : InFlight), s.fabOn t = true → s.flight t idx = some i → i.parts = 0 →
     i.waiting = [] →
     (i.fences = true → s.accessBusy (leAt i.args 0 1) t = true → exec (.descriptorComplete t idx) s = .next s) ∧
     (i.fences = true → s.accessBusy (leAt i.args 0 1) t = false →
       exec (.descriptorComplete t idx) s = .next (s.complete t i).embPump) ∧
     (i.fences = false → exec (.descriptorComplete t idx) s = .next (s.complete t i)) ∧
     ∃ u, u = s.complete t i ∧ (∀ k, k ≠ t.val → u.tile k = s.tile k) ∧
       (u.tile t).inflight = (s.tile t).inflight.filter (fun y => y.idx ≠ i.idx) ∧
       (∀ c, smGet 0 (u.tile t).ctr c = if c = i.signal ∧ bit i.flags 0 = false then (smGet 0 (s.tile t).ctr c + 1) % 2 ^ 16
         else smGet 0 (s.tile t).ctr c) ∧
       (u.tile t).taint = (if bit i.flags 0 = false ∧ i.err.isSome = true then Nat.lor (s.tile t).taint (2 ^ i.signal)
         else (s.tile t).taint) ∧ (u.tile t).next = (s.tile t).next ∧ u.cores = s.cores ∧ RegsExcept [] s u ∧ SameBytes s u) ∧
   (∀ (s : State) (t idx : Nat) (i : InFlight), s.flight t idx = some i →
     (i.late = true → i.parts ≤ 1 → s.partDone t idx none = s.partDone t idx (some false)) ∧
     (i.late = false ∨ 1 < i.parts → s.partDone t idx none =
       s.mapFlight t idx fun i => { i with parts := i.parts - 1, err := orErr i.err none }) ∧
     (∀ ue, s.partDone t idx (some ue) =
       (s.mapFlight t idx fun i => { i with parts := i.parts - 1, err := orErr i.err (some ue) }).fault t
         (if ue then .memUe else .descError))) ∧
   (∀ (s : State) (t : TileId) (d : List Byte), s.due t = some d → dKind d = 15 →
     ((s.tile t).inflight = [] → exec (.endStep t) s = .next (s.launch t d 0 [] none)) ∧
     ((s.tile t).inflight ≠ [] → exec (.endStep t) s = .next s))) ∧
  (∀ s : State, s.seq.mode = .waitFeed →
     ((∀ t, t < 4 → s.fabOn t = true ∧ s.feedReady t = true) → s.cores.any (fun c => c.2.desc) = false →
       ∀ o u, o = (if s.flagOpen = true then
           s.keepOpen ⟨4, s.seq.flagMsgs, s.seq.flagSent.1, s.seq.flagSent.2, true⟩ else s) →
         u = o.eachTile (fun s t => s.sample 7 t (s.time - s.seq.barrierAt)) →
       exec .stepStart s = .next
         ((({ u with seq := { u.seq with mode := .running, decision := none, reduceIssued := false, sentFlags := 0 } }
           ).quantStepStart.latchConsts).takeCap.eachTile fun s t => s.startTile t)) ∧
     ((∃ t, t < 4 ∧ s.feedReady t = false) → exec .stepStart s = .next s) ∧
     (s.pwr.phase = .on → s.rdf (wideKey 0x130030) 0 24 ≠ 0 → (∃ t, t < 4 ∧ s.feedReady t = false) →
       exec .feedTimeout s = .next ((s.noteCause .feedLate).endStep .feedLate true)) ∧
     (∀ t : TileId, s.fabOn t = true → exec (.feedCopyEnd t) s = .next (s.setFeedT t { s.feedT t with copying := false })) ∧
     (∀ t, s.feedReady t = (decide (s.feedSlots t ≠ 0) && decide ((s.slot t (s.step % s.feedSlots t)).state = 3) &&
       decide (2 ≤ (s.slot t ((s.step + 1) % s.feedSlots t)).state))))

/-- A step fault: noted with its bit, also by work that ends after the step has faulted; before FLAG_REDUCE it waits
for the reduction unless it prevents it; afterwards it ends the step (R63, R64, R66, R67). A wait for a peer that
exceeds SEQ_POD_TIMEOUT, and a step-abort notice (R64, R66, R298, R440, R443). -/
def Obligations.StepFaults : Prop :=
  ((∀ (s : State) (t : Nat) (c : Cause),
     (s.seq.mode = .idle → s.fault t c = s ∧ s.faultAtOnce c = s) ∧
     (s.seq.mode = .faulted → s.fault t c = s.noteCause c ∧ s.faultAtOnce c = s.noteCause c) ∧
     (s.seq.mode = .running → s.seq.reduceIssued = false → c.prevents = false →
       s.fault t c = (s.noteCause c).orBits (kLocalFlags t) (2 ^ 48)) ∧
     (s.seq.mode ≠ .idle → s.seq.mode ≠ .faulted →
       ¬(s.seq.mode = .running ∧ s.seq.reduceIssued = false ∧ c.prevents = false) → s.fault t c = (s.noteCause c).endFaulted c) ∧
     (s.noteCause c).rd kSeqFault = Nat.lor (s.rd kSeqFault) (2 ^ c.bitNo) % 2 ^ 64 ∧
     (s.noteCause c).seq.firstFault = some (s.seq.firstFault.getD c) ∧ RegsExcept [kSeqFault] s (s.noteCause c)) ∧
   (∀ (s : State) (c : Cause) (n : Bool), let u := s.endStep c n
     u.seq.mode = .faulted ∧ u.seq.fenceOrder = 0 ∧ u.seq.came = [] ∧
     u.seq.mixed = (s.seq.mixed || (match s.seq.decision with | some d => d.apply | none => false)) ∧
     (n = true → ∃ m, u.out = s.out ++ [.stepAbort s.step m]) ∧ (n = false → u.out = s.out) ∧ u.cores = s.cores)) ∧
  (∀ s : State, s.hubOn = true →
     (∀ (t : TileId) idx i, s.seq.mode = .running → (s.cols t).any (fun j => j.idx = idx) = true → s.flight t idx = some i →
       exec (.podTimeout (.collective t idx)) s = .next
         ((s.setCols t (((s.cols t).filter fun j => j.idx ≠ idx || j.reduces).map fun j =>
           if j.idx = idx then { j with idx := staleIdx } else j)).waitFails t idx)) ∧
     (∀ (t : TileId) idx, s.seq.mode = .running → (s.embt t).jobs.any (fun j => j.idx = idx) = true →
       exec (.podTimeout (.embedding t idx)) s = .next
         ((s.setEmbt t { s.embt t with jobs := (s.embt t).jobs.filter fun j => j.idx ≠ idx }).waitFails t idx)) ∧
     (s.seq.mode = .running → s.flagOpen = true →
       exec (.podTimeout .flagReduce) s = .next ((s.noteCause .podTimeout).endStep .podTimeout true)) ∧
     (s.atBarrier = true → exec (.podTimeout .barrier) s = .next
       ((s.noteCause .podTimeout).endStep .podTimeout true).lateDeferred) ∧
     (∀ mixed u, s.seq.mode = .faulted → s.seq.deferred = [] → u = s.noteCause .peerFault →
       exec (.stepAbortNotice mixed) s = .next { u with seq := { u.seq with mixed := u.seq.mixed || mixed } }) ∧
     (∀ mixed, s.seq.mode = .idle → exec (.stepAbortNotice mixed) s = .next s) ∧
     (∀ mixed u, s.seq.mode ≠ .idle → s.seq.mode ≠ .faulted → s.seq.deferred = [] →
       u = (s.noteCause .peerFault).endStep .peerFault false →
       exec (.stepAbortNotice mixed) s = .next { u with seq := { u.seq with mixed := u.seq.mixed || mixed } }))

/-- Which feed messages are accepted: whole datagrams of an open session, with a tag that opens under the session's
key, a good form and a SEQUENCE that is new in the window; any other is dropped and counted (R467, R468, R486 to
R488). An accepted message acts on each tile that it names and that runs; any other only is dropped and counted, a
fragment and a message of an unlisted TYPE too (R468, R488 to R490, R495). -/
def Obligations.FeedMessages : Prop :=
  (∀ (s : State) (eth : Nat) (addr : List Byte) (port : Nat) (m : List Byte) (frag : Bool), eth ≤ 1 → s.ethUp eth = true →
     s.gated 4 = false →
     (frag = true ∨ m.length < 48 ∨ s.session? (leAt m 4 4) = none →
       s.feedAccept eth addr port m frag = (none, s.feedDrop 0 (leAt m 16 8))) ∧
     (∀ n x, frag = false → m.length ≥ 48 → s.session? (leAt m 4 4) = some (n, x) → ∀ q, q = leAt m 8 8 →
       let new := q > x.feedHigh ∨ q + 4096 ≥ x.feedHigh ∧ q < x.feedHigh ∧ x.feedSeen.contains q = false
       (gcmOpen (x.key 2) (sessNonce 2 q) (m.take 32) (m.drop 32) = none →
         s.feedAccept eth addr port m frag = (none, s.feedDrop 0 (leAt m 16 8))) ∧
       ∀ b, gcmOpen (x.key 2) (sessNonce 2 q) (m.take 32) (m.drop 32) = some b →
         ∀ d, d = m.take 32 ++ b ++ zeros 16 →
         (¬(feedFormOk d = true ∧ new) → s.feedAccept eth addr port m frag = (none, s.feedDrop 0 (leAt m 16 8))) ∧
         (feedFormOk d = true → new → ∃ u, s.feedAccept eth addr port m frag = (some d, u) ∧
           u.feed = { s.feed with last := some (x.id, eth, addr, port) } ∧
           u.hcp = { s.hcp with sessions := smPut s.hcp.sessions n { x with
             feedHigh := max x.feedHigh q
             feedSeen := (q :: x.feedSeen).filter fun y => y + 4096 ≥ max x.feedHigh q } } ∧ RegsExcept [] s u ∧ SameBytes s u))) ∧
  (∀ (s u : State) (eth : EthId) (addr : List Byte) (port : Nat) (m : List Byte) (frag : Bool),
     (s.feedAccept eth addr port m frag = (none, u) →
       (frag = true ∨ leAt m 1 1 = 1 ∨ leAt m 1 1 = 0 ∨ leAt m 1 1 > 5 → exec (.feedSample eth addr port m frag) s = .next u) ∧
       (frag = true ∨ leAt m 1 1 = 2 → exec (.indexEnd eth addr port m frag) s = .next u) ∧
       (frag = true ∨ leAt m 1 1 = 3 → exec (.batchEnd eth addr port m frag) s = .next u) ∧
       (frag = true ∨ leAt m 1 1 = 4 → exec (.stateIn eth addr port m frag) s = .next u) ∧
       (frag = true ∨ leAt m 1 1 = 5 → exec (.stateCredit eth addr port m frag) s = .next u)) ∧
     (∀ d, s.feedAccept eth addr port m frag = (some d, u) →
       (leAt m 1 1 = 1 → exec (.feedSample eth addr port m frag) s = .next (u.feedTiles d fun s t =>
         s.sampleTile t (leAt d 16 6) (leAt d 24 4) (slice d 32 (leAt d 28 4)))) ∧
       (leAt m 1 1 = 2 → exec (.indexEnd eth addr port m frag) s = .next (u.feedTiles d fun s t =>
         s.endTile t (leAt d 16 6) (leAt d 32 4) (leAt d 36 4) none)) ∧
       (leAt m 1 1 = 3 → exec (.batchEnd eth addr port m frag) s = .next (u.feedTiles d fun s t =>
         s.endTile t (leAt d 16 6) (leAt d 32 4) (leAt d 36 4) (some (leAt d 40 4)))) ∧
       (leAt m 1 1 = 4 →
         let a := leAt d 16 8
         let here := regionOf a = .hbm ∨ regionOf a = .studio ∨ regionOf a = .granary
         (¬here → exec (.stateIn eth addr port m frag) s = .next (u.feedDrop 0 u.step)) ∧
         (here → ∀ c v, u.memWrite false a (slice d 32 (leAt d 28 4)) = (c, v) →
           exec (.stateIn eth addr port m frag) s = .next (if c = .ok then v else v.feedDrop 0 v.step))) ∧
       (leAt m 1 1 = 5 →
         (u.feed.exports.find? (fun e => e.entry.tag = leAt d 24 4 && e.entry.session = leAt d 4 4) = none →
           exec (.stateCredit eth addr port m frag) s = .next u) ∧
         (∀ x, u.feed.exports.find? (fun e => e.entry.tag = leAt d 24 4 && e.entry.session = leAt d 4 4) = some x →
           ∀ y, y = { x with granted := leAt d 16 8 } → ∀ v, v = u.mapExport x.entry.tag (fun _ => y) →
           (bit (leAt d 3 1) 0 = false → exec (.stateCredit eth addr port m frag) s = .next
             (if x.ended = none then v.exportPump y else v)) ∧
           (bit (leAt d 3 1) 0 = true →
             (∀ e, x.ended = some e → v.time > e + 10000000000 → exec (.stateCredit eth addr port m frag) s = .next v) ∧
             ((∀ e, x.ended = some e → v.time ≤ e + 10000000000) → ∀ c st w, v.exportStream x.entry.block = (c, st, w) →
               let n := min (leAt d 40 8) (min y.granted st.length - leAt d 32 8)
               exec (.stateCredit eth addr port m frag) s = .next
                 (if c = .ok then w.sendRange x.entry st (n / 8192 + 1) (leAt d 32 8) n else w)))))))

/-- A SAMPLE fills the slot of its step within the window: the bytes are stored and their units covered, and the first
sends a STATUS; outside the window, over an ended part, misplaced, or where the write fails, it is dropped (R489,
R490). INDEX_END and BATCH_END judge their slot in R490's order: the window, the slot's state, the size, the first
unit missing, the CRC, and for a batch MAX_SEQ; each sends a STATUS. The feed's timer and registers, and an export
that gets no credit (R494, R495, R497): in each case the command completes: FEED_STATUS_TIMER sends a STATUS while a
slot waits; a write of a base or size register in IDLE empties the ring, and is refused outside IDLE and for a number
of slots out of range; EXPORT_CREDIT_TIMEOUT ends the export. -/
def Obligations.FeedSlots : Prop :=
  (∀ (s : State) (t x off : Nat) (b : List Byte),
     (s.slotFor t x = if s.feedSlots t ≠ 0 ∧ s.step ≤ x ∧ x < s.step + s.feedSlots t then some (x % s.feedSlots t) else none) ∧
     (s.slotFor t x = none → s.sampleTile t x off b = s.outOfWindow t x) ∧
     (∀ k, s.slotFor t x = some k → ∀ y, y = s.slot t k →
       (y.state = 3 ∨ y.state = 2 ∧ off < y.indexBytes → s.sampleTile t x off b = s.feedDrop t x) ∧
       (¬(y.state = 3 ∨ y.state = 2 ∧ off < y.indexBytes) →
         (off % 64 ≠ 0 ∨ off + b.length > s.slotBytes t →
           s.sampleTile t x off b = (s.setSlot t k { y with code := 5 }).feedDrop t x) ∧
         (off % 64 = 0 → off + b.length ≤ s.slotBytes t → ∀ c u, s.memWrite false (s.slotAddr t k + off) b = (c, u) →
           (c ≠ .ok → s.sampleTile t x off b = u.feedDrop t x) ∧
           (c = .ok → ∃ z,
             s.sampleTile t x off b = (if y.state = 0
               then ((u.bump (kFeedCount t 0) b.length).setSlot t k z).sendStatus t
               else (u.bump (kFeedCount t 0) b.length).setSlot t k z) ∧
             z = { y with covered := z.covered, state := max 1 y.state } ∧
             ∀ j, smGet false z.covered j =
               (decide (off / 64 ≤ j ∧ j < off / 64 + b.length / 64) || smGet false y.covered j)))))) ∧
  (∀ (s : State) (t x n crc : Nat) (batch : Option Nat),
     (s.slotFor t x = none → s.endTile t x n crc batch = s.outOfWindow t x) ∧
     (∀ k, s.slotFor t x = some k → ∀ y, y = s.slot t k →
       let order := if batch = none then y.state ≥ 2 else y.state ≠ 2
       let size := n % 64 ≠ 0 ∨ (if batch = none then n > s.rdf (kFeed t 0x20) 0 25
         else n < y.indexBytes ∨ n > s.slotBytes t)
       (order → s.endTile t x n crc batch = (s.setSlot t k { y with code := 7 }).sendStatus t) ∧
       (¬order → size → s.endTile t x n crc batch = (s.setSlot t k { y with code := 5 }).sendStatus t) ∧
       (¬order → ¬size →
         (∀ u, firstGap y.covered 0 (n / 64) = some u →
           s.endTile t x n crc batch = (s.setSlot t k { y with code := 1, detail := u }).sendStatus t) ∧
         (firstGap y.covered 0 (n / 64) = none → ∀ c b v, s.memRead (s.slotAddr t k) n = (c, b, v) →
           (c ≠ .ok ∨ crc32 b ≠ crc →
             s.endTile t x n crc batch = (v.setSlot t k { FeedSlot.init with code := 2 }).sendStatus t) ∧
           (c = .ok → crc32 b = crc →
             (batch = none → s.endTile t x n crc batch =
               (v.setSlot t k { y with state := 2, indexBytes := n, code := 0 }).sendStatus t) ∧
             ∀ mx, batch = some mx →
               (mx > v.rdf (wideKey 0x13020C) 0 22 → s.endTile t x n crc batch =
                 (((v.bump (kFeedCount t 2) 1).raise 0x0904 1 t x).setSlot t k { FeedSlot.init with code := 3 }).sendStatus t) ∧
               (mx ≤ v.rdf (wideKey 0x13020C) 0 22 → s.endTile t x n crc batch =
                 (v.setSlot t k { y with state := 3, bytes := n, code := 0 }).sendStatus t)))))) ∧
  (∀ s : State,
     (∀ t : TileId, exec (.feedStatusTimer t) s = .next
       (if s.fabOn t = true ∧ s.hubOn = true ∧ ∃ k, k < s.feedSlots t ∧ (s.slot t k).state ≠ 3 then s.sendStatus t else s)) ∧
     (∀ (t : TileId) (r : Fin 6) (v : W64) (o w : Nat),
       (o, w) = [(0x130400, 44), (0x130408, 25), (0x13040C, 4), (0x130410, 44), (0x130418, 44), (0x130420, 25)].getD r.val (0, 0) →
       ∃ row, findRow tileRows o = some row ∧ row.rw < 2 ^ w ∧ ∀ x, x = Nat.land v.toNat row.rw →
         (s.fabOn t = false ∨ s.seq.mode ≠ .idle ∨ o = 0x13040C ∧ (x = 1 ∨ x ≥ 9) →
           exec (.feedRegisterWrite t r v) s = .next s) ∧
         (s.fabOn t = true → s.seq.mode = .idle → ¬(o = 0x13040C ∧ (x = 1 ∨ x ≥ 9)) →
           ∀ u, u = s.wr (tileBase t + o) x → exec (.feedRegisterWrite t r v) s = .next
             ((u.setFeedT t { u.feedT t with slots := [] }).sendStatus t))) ∧
     (∀ tag : W32,
       ((∃ e ∈ s.feed.exports, e.entry.tag = tag.toNat ∧ e.ended = none) →
         exec (.exportCreditTimeout tag) s = .next
           (({ s with feed := { s.feed with exports := s.feed.exports.filter fun e => e.entry.tag ≠ tag.toNat } } :
             State).pendingEnds stNotReady [])) ∧
       ((∀ e ∈ s.feed.exports, e.entry.tag = tag.toNat → e.ended ≠ none) →
         exec (.exportCreditTimeout tag) s = .next s)))

/-- Barrier messages of other modules are kept, one per phase and module, and judged in their phase (R57, R58, R447).
The start barrier and the two barriers of a fence (R57, R59 to R61). Orders 7 and 8 of a fence: the counters,
SEQ_STEPS_LEFT and SEQ_STEP (R55, R57, R60). -/
def Obligations.StepBarriers : Prop :=
  (∀ (s : State) (ph : Fin 3) (node : BitVec 20) (step gen dir dig : Nat), s.hubOn = true → node.toNat ≠ s.reportNode →
     nodeIn s.judgeLen node.toNat = true → ∀ u : State,
     u = { s with seq := { s.seq with came := (s.seq.came.filter fun m => !(m.phase = ph.val && m.node = node.toNat)) ++
       [⟨ph.val, node.toNat, step, gen, dir, dig⟩] } } →
     (s.judgedPhase ≠ some ph.val → exec (.fenceMessage ph node step gen dir dig) s = .next u) ∧
     (s.judgedPhase = some ph.val →
       ((∀ m ∈ u.seq.came, m.phase = ph.val → m.step = s.step ∧ m.gen = s.gen ∧ m.dirGen = s.dirGen) →
         exec (.fenceMessage ph node step gen dir dig) s = .next u) ∧
       (¬(∀ m ∈ u.seq.came, m.phase = ph.val → m.step = s.step ∧ m.gen = s.gen ∧ m.dirGen = s.dirGen) →
         exec (.fenceMessage ph node step gen dir dig) s = .next ((u.noteCause .stepMismatch).endStep .stepMismatch true)))) ∧
  (∀ s : State,
     (s.hubOn = true → s.seq.mode = .starting → s.allCame 0 = true → exec .startBarrierComplete s = .next { s with
       seq := { s.seq with mode := .waitFeed, came := s.seq.came.filter (fun m => !decide (m.phase = 0)), barrierAt := s.time } }) ∧
     (s.seq.mode = .running → s.fenceReady = true → exec .fenceBegin s = .next
       (({ s.eachTile (fun s t => s.sealSegment t) with
         seq := { (s.eachTile fun s t => s.sealSegment t).seq with mode := .fence, fenceOrder := 2 } } : State).barrierOut
           1 |>.judgeCame 1)) ∧
     (s.hubOn = true → s.seq.mode = .fence → s.seq.fenceOrder = 2 → s.allCame 1 = true →
       (s.exchanges = false → exec .arrivalBarrierComplete s = .next s.order3) ∧
       (s.exchanges = true → exec .arrivalBarrierComplete s = .next
         (((s.emit (.changeList s.changes.1 s.changes.2)).addList s.rank s.changes.1 s.changes.2).listsDue))) ∧
     (∀ rank dem prom, s.hubOn = true → s.quiet = false → rank < s.modules → rank ≠ s.rank →
       ∀ u, u = s.addList rank dem prom →
       (u.seq.mode = .fence ∧ u.seq.fenceOrder = 3 ∧ u.embm.lists.length ≥ u.modules →
         exec (.changeList rank dem prom) s = .next u.order3) ∧
       (¬(u.seq.mode = .fence ∧ u.seq.fenceOrder = 3 ∧ u.embm.lists.length ≥ u.modules) →
         exec (.changeList rank dem prom) s = .next u)) ∧
     (s.hubOn = true → s.seq.mode = .fence → s.seq.fenceOrder = 8 → s.allCame 2 = true → s.seq.deferred = [] →
       ∀ o, o = s.sample 5 0 (s.time - s.seq.barrierAt) →
       ∃ u, exec .completionBarrierComplete s = .next u ∧ u.seq.mode = (if s.halts then .idle else .waitFeed) ∧
         u.seq.fenceOrder = 0 ∧ u.seq.decision = none ∧ u.seq.reduceIssued = false ∧ u.seq.barrierAt = o.time ∧
         (∀ k, k < 4 → (u.tile k).phase = 0) ∧ u.cores = o.cores ∧ RegsExcept [] o u ∧ SameBytes o u)) ∧
  (∀ s : State, let t := s.order8
     t.rd kSeqStep = (s.step + 1) % 2 ^ 48 ∧
     (s.rd kSeqStepsLeft = 2 ^ 48 - 1 → t.rd kSeqStepsLeft = 2 ^ 48 - 1) ∧
     (s.rd kSeqStepsLeft ≠ 2 ^ 48 - 1 → t.rd kSeqStepsLeft = s.rd kSeqStepsLeft - 1) ∧
     (s.decided.apply = true → t.rd (wideKey 0x110008) = min (s.rd (wideKey 0x110008) + 1) (2 ^ 48 - 1) ∧
       t.seq.lastSkipped = false ∧ t.rd kSkipCount = s.rd kSkipCount) ∧
     (s.decided.apply = false → t.rd kSkipCount = min (s.rd kSkipCount + 1) (2 ^ 32 - 1) ∧
       t.seq.lastSkipped = true ∧ t.rd (wideKey 0x110008) = s.rd (wideKey 0x110008)) ∧
     RegsExcept [kSeqStep, kSeqStepsLeft, wideKey 0x110008, kSkipCount] s t ∧ SameBytes s t ∧ t.out = s.out)

/-- The two barriers of a layout fence; the second waits without limit while a module reports a rebuild in progress
(R446 to R448). Order 4 of a fence, and a layout commit from its order 1: a change that is the same on every module is
committed, after a wait for every COLLECTIVE message of an older generation; where the modules differ it stays
pending, with EV_LAYOUT_MISMATCH (R434, R447, R449 to R451). What a layout commit leaves after its moves: the new
layout, generation and lengths, and the entries skipped (R444, R449). The rebuild of a replaced module ends: each unit
is stored, or completes with UE and its sticky bit; the parity of the group is installed, and the commit goes on
(R449, R456, R460, R461). -/
def Obligations.LayoutFences : Prop :=
  ((∀ (s : State) (q : Bool) (b : List Byte) (late : Bool), s.hubOn = true → s.lay.change = some (q, b) →
     bit (s.rd kLayoutStatus) 17 = true → bit (s.rd kLayoutStatus) 18 = false →
     (s.lay.waiting = true → exec (.layoutArrivalBarrier late) s = .next s) ∧
     (s.lay.waiting = false →
       (s.allCame 1 = true → (∀ m ∈ s.seq.came, m.phase = 1 → m.digest = changeDigest b) →
         exec (.layoutArrivalBarrier late) s = .next (s.commitBegin b)) ∧
       (s.allCame 1 = true → (∃ m ∈ s.seq.came, m.phase = 1 ∧ m.digest ≠ changeDigest b) →
         exec (.layoutArrivalBarrier late) s = .next (s.layFenceEnd q stNotReady)) ∧
       (s.allCame 1 = false → late = true → exec (.layoutArrivalBarrier late) s = .next (s.layFenceEnd q stNotReady)) ∧
       (s.allCame 1 = false → late = false → exec (.layoutArrivalBarrier late) s = .next s))) ∧
   (∀ (s : State) (w : LayWait), s.hubOn = true → s.lay.change = none → bit (s.rd kLayoutStatus) 17 = true →
     (s.allCame 2 = true →
       exec (.layoutCompletionBarrier w) s = .next (s.layFenceEnd (s.pendIs 0x0602) stOk)) ∧
     (s.allCame 2 = false → w = .late false →
       exec (.layoutCompletionBarrier w) s = .next (s.layFenceEnd (s.pendIs 0x0602) stNotReady)) ∧
     (s.allCame 2 = false → w ≠ .late false → exec (.layoutCompletionBarrier w) s = .next s))) ∧
  (∀ s : State,
     (∀ q b, s.lay.change = some (q, b) →
       (s.ownDigest ≠ 0 → (∀ m ∈ s.seq.came, m.phase = 1 → m.digest = s.ownDigest) →
         s.order4 = (s.wrf kLayoutStatus 19 1 0).commitBegin b) ∧
       ((∃ m ∈ s.seq.came, m.phase = 1 ∧ m.digest ≠ s.ownDigest) →
         s.order4 = ((s.wrf kLayoutStatus 19 1 1).raise 0x0804 0 0 s.step).orders5to8)) ∧
     (s.lay.change = none →
       ((∃ m ∈ s.seq.came, m.phase = 1 ∧ m.digest ≠ 0) →
         s.order4 = ((s.wrf kLayoutStatus 19 1 1).raise 0x0804 0 0 s.step).orders5to8) ∧
       ((∀ m ∈ s.seq.came, m.phase = 1 → m.digest = 0) → s.order4 = (s.wrf kLayoutStatus 19 1 0).orders5to8)) ∧
     (∀ b, s.commitBegin b = (if lyForce b then s.forceDiscard else s).commitGo b) ∧
     (∀ b,
       (s.holdsOld = true → s.commitGo b =
         if s.inLayFence then s.setWaiting true else (s.setWaiting true).setOrder 4) ∧
       (s.holdsOld = false → ∀ u, u = (s.setWaiting false).commitOrder3 b →
         (bit (u.rd kLayoutStatus) 18 = true → s.commitGo b = if u.inLayFence then u else u.setOrder 4) ∧
         (bit (u.rd kLayoutStatus) 18 = false → s.commitGo b = u.commitRest b))) ∧
     (∀ q b, s.lay.change = some (q, b) → s.lay.waiting = true → (s.inLayFence = true ∨ s.seq.mode = .fence ∧ s.seq.fenceOrder = 4) →
       s.commitOn = s.commitGo b)) ∧
  (∀ (r : State) (b : List Byte) (k : Nat) (s : State), r.moveAll (leAt b 24 8) (lyMoves b) 0 = (k, s) →
     (∀ p, p < 8 → s.linkSt p = 0 ∧ bit (s.rd (kLnk p 0)) 0 = false) → let t := r.commitEnd b
     t.lay.change = none ∧ t.lay.skipped = k ∧ t.rd kLayout = leAt b 0 4 + lyNode b * 2 ^ 32 ∧
     t.rd (wideKey 0x13020C) = lyMax b ∧ t.gen = lyGen b ∧ bit (t.rd kLayoutStatus) 18 = false ∧
     (lyModules b ≠ s.modules → ownReplaced b = false → bit (t.rd kParityCtrl) 0 = false) ∧ t.cores = s.cores ∧ SameBytes s t) ∧
  ((∀ (s : State) (base gbase : Nat) (r : List (Nat × Nat)) (l : List (Nat × Recon)),
     (s.hubOn = true → bit (s.rd kLayoutStatus) 18 = true → ∀ q b, s.lay.change = some (q, b) →
       ∀ n v, s.storeRebuilt l = (n, v) →
       ∀ u, u = (v.bump (wideKey 0x130248) n).parityInstall (lyModules b) (lyRank b) base gbase r →
       (u.inLayFence = true → exec (.rebuildEnd base gbase r l) s = .next (u.layCommitted b)) ∧
       (u.inLayFence = false →
         exec (.rebuildEnd base gbase r l) s = .next (u.commitEnd b).reshardDone.switchSlot.orders5to8)) ∧
     (s.hubOn = false ∨ bit (s.rd kLayoutStatus) 18 = false ∨ s.lay.change = none →
       exec (.rebuildEnd base gbase r l) s = .next s)) ∧
   (∀ (s : State) (a : Nat) (b : List Byte), s.rebuildUnit a (.bytes b) = (b.length, (s.poke a b).releaseTorn a b.length false)) ∧
   (∀ (s : State) (a : Nat) (r : Recon) (t : State), r = .doubleLoss ∨ r = .stripeTorn → t = (s.rebuildUnit a r).2 →
     (s.rebuildUnit a r).1 = 0 ∧ t.ue = ueSet s.ue a 4096 true ∧
     t.rd (wideKey 0x130214) = Nat.lor (s.rd (wideKey 0x130214)) (if r = .doubleLoss then 1 else 2) ∧
     RegsExcept [wideKey 0x130214] s t ∧ SameBytes s t))

/-- Messages of the Embedding Engine: a request is served by rows in order; a partial and a set of rows are given to
the bag that their tag names; one that names no bag of this module, and a request that cannot be read, change nothing
more. A message waits while an order command holds what it would access (R294 to R297, R361). An ended pooling share
gives its partial to its requester, here or by message; its rows that were poisoned are counted with the first of
them. It waits while an order command holds its tile or the bag (R294, R295, R361). A row read that some share awaits:
its bytes go to the waiting items of lookups, and into the staging half of the next step for a prefetch; an
uncorrectable error is recorded at the address read and poisons the row, and an error of its address ends them with
none. A read that none awaits changes nothing (R295, R299, R316, R317, R337). -/
def Obligations.EmbeddingLookups : Prop :=
  (∀ s : State,
     (s.takeMsg 0x0401 = none → exec .embRequest s = .next s) ∧
     (s.takeMsg 0x0402 = none → exec .pooledResponse s = .next s) ∧
     (s.takeMsg 0x0403 = none → exec .rowsResponse s = .next s) ∧
     ∀ (u : State) (m : InMsg), s.hubOn = true →
     (s.takeMsg 0x0401 = some (m, u) → s.fencedAll = true → exec .embRequest s = .next s) ∧
     (s.takeMsg 0x0401 = some (m, u) → s.fencedAll = false →
       let n := leAt m.body 6 2
       let good := u.tableOk (leAt m.body 0 2) = true ∧ leAt m.body 2 1 ≤ 4 ∧ 1 ≤ n ∧ n ≤ 1022 ∧ m.body.length = 16 + 8 * n
       (good → exec .embRequest s = .next (u.serveRows m.src m.tag (leAt m.body 0 2) (leAt m.body 2 1)
           (withIdx ((nums n 8 (m.body.drop 16)).map (· % 2 ^ 40)) (leAt m.body 8 4))).embPump) ∧
       (¬good → exec .embRequest s = .next u)) ∧
     (s.takeMsg 0x0402 = some (m, u) → s.bagHeld m.tag = true → exec .pooledResponse s = .next s) ∧
     (s.takeMsg 0x0403 = some (m, u) → s.bagHeld m.tag = true → exec .rowsResponse s = .next s) ∧
     (s.bagHeld m.tag = false →
       (∀ t j b, s.takeMsg 0x0402 = some (m, u) → u.bagOf m.tag = some (t, j, b) →
         ∀ fe, fe = (if leAt m.body 6 2 = 0xFFFF then 0xFFFF else posOf (u.sentTo m.tag m.src) (leAt m.body 6 2)) →
         exec .pooledResponse s = .next (u.bagStep t j { b with
           wait := b.wait - 1, inc := b.inc + leAt m.body 0 4, pois := b.pois + leAt m.body 4 2,
           firstEx := min b.firstEx fe, parts := b.parts ++ [nums j.d 2 (m.body.drop 16)] })) ∧
       (s.takeMsg 0x0402 = some (m, u) → u.bagOf m.tag = none →
         (u.jobOf m.tag = none → exec .pooledResponse s = .next u) ∧
         (∀ t j, u.jobOf m.tag = some (t, j) → 1 < j.wait →
           exec .pooledResponse s = .next (u.putJob t { j with wait := j.wait - 1 })) ∧
         (∀ t j, u.jobOf m.tag = some (t, j) → j.wait ≤ 1 →
           exec .pooledResponse s = .next ((u.setEmbt t { u.embt t with
             jobs := (u.embt t).jobs.filter fun k => k.idx ≠ j.idx }).partDone t j.idx j.err))) ∧
       (∀ t j b, s.takeMsg 0x0403 = some (m, u) → u.bagOf m.tag = some (t, j, b) →
         exec .rowsResponse s = .next (u.takeRows m.tag (rowsOf j.d (leAt m.body 0 4) (leAt m.body 8 8)
           (u.sentTo m.tag m.src) (leAt m.body 4 2) 0 (m.body.drop 16)))) ∧
       (s.takeMsg 0x0403 = some (m, u) → u.bagOf m.tag = none → exec .rowsResponse s = .next u))) ∧
  (∀ (s : State) (t : TileId),
     ((s.embt t).shares.find? EmbShare.ended = none → exec (.poolShareComplete t) s = .next s) ∧
     ∀ sh : EmbShare, (s.embt t).shares.find? EmbShare.ended = some sh →
     (s.fabOn t = false ∨ s.fencedTile t = true ∨ s.bagHeld sh.tag = true → exec (.poolShareComplete t) s = .next s) ∧
     (s.fabOn t = true → s.fencedTile t = false → s.bagHeld sh.tag = false →
       ∀ u : State, u = s.setEmbt t { s.embt t with shares := (s.embt t).shares.filter fun y => y.id ≠ sh.id } →
       (∀ ue, sh.phase = .ended (some ue) →
         (sh.node = s.node → exec (.poolShareComplete t) s = .next (u.takeFailure sh.tag ue)) ∧
         (sh.node ≠ s.node → exec (.poolShareComplete t) s = .next u)) ∧
       (sh.phase = .ended none → ∀ d, d = tbDim (s.table sh.table) →
         ∀ a, a = coreAddr sh.core (s.rdf (kEmb t 0x20) 0 20 + sh.area +
           (poolLayout sh.items.length (sh.rowForm (s.table sh.table)).1 d).2.1) →
         ∀ bad, bad = sh.items.filter (fun e => e.2.2 = .bad) →
         (sh.node = s.node → exec (.poolShareComplete t) s = .next (u.takePartial sh.tag (leNat (s.bytes a 4)) bad.length
           ((bad.map (·.1)).headD 0xFFFF) (nums d 2 (s.bytes (a + 4) (2 * d))))) ∧
         (sh.node ≠ s.node → exec (.poolShareComplete t) s = .next (u.respond sh.node 0x0402 sh.tag
           (partialBody (leNat (s.bytes a 4)) bad.length ((bad.map (·.1)).headD 0xFFFF) (nums d 2 (s.bytes (a + 4) (2 * d))))))))) ∧
  (∀ (s : State) (t : TileId) (table : BitVec 12) (row : BitVec 40) (res : RowRead),
     ∀ look pf, look = s.waiters table.toNat row.toNat false → pf = s.waiters table.toNat row.toNat true →
     ∀ d, d = s.table table.toNat →
     (s.fabOn t = false ∨ look + pf = 0 ∨ s.serving d row.toNat ≠ t → exec (.rowReadDone t table row res) s = .next s) ∧
     (s.fabOn t = true → s.serving d row.toNat = t → 0 < look + pf →
       ∀ src staged, (src, staged) = (if look = 0 then (s.home d row.toNat, false) else s.rowSource t table.toNat row.toNat) →
       ∀ u : State, u = (if tbFmt d = 0 ∨ staged = true then s else s.bump (kEmbCount t 2) 1) →
       ∀ n, n = tbRowBytes d →
       let ue := res = .failed ∨ (u.ueAt src n).isSome = true
       (u.accessCode src n = .ok → ue → ∀ v, v = (u.bump (kEmbCount t 12) 1).noteUe src →
         exec (.rowReadDone t table row res) s = .next
           ((((((if src = u.home (u.table table.toNat) row.toNat then v
             else v.raise 0x0405 1 t (u.home (u.table table.toNat) row.toNat)).poison t table.toNat row.toNat 0).bump
               (kEmbCount t 4) look).giveRow table.toNat row.toNat false .bad).giveRow table.toNat row.toNat true .bad)).embPump) ∧
       (∀ w : State, w = (if res = .good then u else u.bump (kEmbCount t 12) 1) →
         (u.accessCode src n ≠ .ok → exec (.rowReadDone t table row res) s = .next
           ((((w.bump (kEmbCount t 4) look).fault t .descError).giveRow table.toNat row.toNat false .bad).giveRow
             table.toNat row.toNat true .bad).embPump) ∧
         (u.accessCode src n = .ok → ¬ue →
           ∀ g out v, w.present t table.toNat row.toNat (tbFresh d) (w.bytes src n) = (g, out, v) →
           ∀ x : State, x = (if look = 0 then w else v.giveRow table.toNat row.toNat false (.got g out)) →
           ∀ z : State, z = x.stageRow t ((x.step + 1) % 2) table.toNat row.toNat (w.bytes src n) →
           exec (.rowReadDone t table row res) s = .next (if pf = 0 then x
             else z.giveRow table.toNat row.toNat true (match z.stageFind t ((x.step + 1) % 2) table.toNat row.toNat with
               | some (.inl _) => .got false [] | _ => .bad)).embPump))))

/-- Contributions of this module and of others, row writes and refreshes of the Commons: a contribution of this step
to a row served here is summed, any other has no effect, and each is acknowledged; a failed row write is tried once
more and then poisons the row; a refresh is taken at order 6 of the fence, and kept when it comes before (R309, R313,
R314, R318, R361). A journal area is cleared, and GRN_CTRL.DELAY changes only while IDLE with no sealed segment (R341,
R346). -/
def Obligations.EmbeddingGradients : Prop :=
  (∀ (s : State) (t : TileId), s.fabOn t = true →
     (s.fencedTile t = true → ∀ r, exec (.contribution t r) s = .next s) ∧
     (s.fencedTile t = false →
       ((s.embt t).contribs = [] → exec (.contribution t none) s = .next s) ∧
       (∀ c cs, (s.embt t).contribs = c :: cs → ∀ u, u = s.setEmbt t { s.embt t with contribs := cs } →
         (s.quiet = false → exec (.contribution t none) s = .next ((u.contribute t c.table c.row c.vec).takeAck c.tag)) ∧
         (s.quiet = true → exec (.contribution t none) s = .next (u.takeAck c.tag))) ∧
       (∀ c : RemoteContrib,
         let here := s.tableOk c.table = true ∧ c.row < tbRows (s.table c.table) ∧ c.step = s.step ∧ s.quiet = false ∧
           s.owner (s.table c.table) c.row = s.rank ∧ s.serving (s.table c.table) c.row = t
         (here → exec (.contribution t (some c)) s = .next
           ((s.contribute t c.table c.row (c.vec.map WVal.num)).emit (.contributionDone c.node c.tag))) ∧
         (¬here → exec (.contribution t (some c)) s = .next (s.emit (.contributionDone c.node c.tag))))) ∧
     (∀ err, (s.embt t).writes = [] → exec (.rowWriteDone t err) s = .next s) ∧
     (∀ w ws, (s.embt t).writes = w :: ws →
       (∀ c u, s.memWrite true w.addr w.bytes = (c, u) →
         (c = .ok → exec (.rowWriteDone t false) s = .next
           ((((u.setEmbt t { u.embt t with writes := ws }).bump (kEmbCount t 7) 1).bump (kUe t 0x30) 1).partDone w.tile w.idx none)) ∧
         (∀ err v, c ≠ .ok ∧ err = false ∧ v = u ∨ err = true ∧ v = s →
           (w.retried = false → exec (.rowWriteDone t err) s = .next
             (v.setEmbt t { v.embt t with writes := { w with retried := true } :: ws })) ∧
           (w.retried = true → exec (.rowWriteDone t err) s = .next
             (((v.setEmbt t { v.embt t with writes := ws }).poison t w.table w.row 1).partDone w.tile w.idx none))))) ∧
     (∀ (table : BitVec 12) (row : BitVec 40) (b : List Byte),
       (s.hubOn = false ∨ s.seq.mode ≠ .fence ∨ 6 < s.seq.fenceOrder → exec (.commonsRefresh table row b) s = .next s) ∧
       (s.hubOn = true → s.seq.mode = .fence →
         (s.seq.fenceOrder < 6 → exec (.commonsRefresh table row b) s = .next
           { s with embm := { s.embm with early := s.embm.early ++ [(table.toNat, row.toNat, b)] } }) ∧
         (s.seq.fenceOrder = 6 → (table.toNat, row.toNat) ∉ s.embm.awaited → exec (.commonsRefresh table row b) s = .next s) ∧
         (s.seq.fenceOrder = 6 → (table.toNat, row.toNat) ∈ s.embm.awaited →
           ∀ u : State, u = (match s.hotFind table.toNat row.toNat with
             | some e => if b = [] then s else s.eachTile fun v x => (v.memWrite true (v.commonsSlot x e (row.toNat % 4))
                 (slice b 0 (rowBytes16 (tbDim (s.table table.toNat))))).2
             | none => s) →
           exec (.commonsRefresh table row b) s = .next (State.orders7to8
             { u with embm := { u.embm with awaited := u.embm.awaited.filter (· ≠ (table.toNat, row.toNat)) } }))))) ∧
  (∀ (s : State) (t : TileId), s.fabOn t = true →
     (∀ waited, (s.grn t).clearing = [] → exec (.journalAreaCleared t waited) s = .next s) ∧
     (∀ k ks waited, (s.grn t).clearing = k :: ks → ∀ u : State,
       u = (if s.step % 10 = k then s.bump (kGrnCount t 8) waited else s).clearArea t k →
       exec (.journalAreaCleared t waited) s = .next (u.setGrn t { u.grn t with clearing := ks })) ∧
     (∀ v : W32, ∀ d, d = v.toNat % 16 →
       (s.isIdle = true → s.anySealed = false → 1 ≤ d → d ≤ 8 →
         exec (.delayWrite t v) s = .next (s.wrf kGrnCtrl 0 4 d)) ∧
       (s.isIdle = false ∨ s.anySealed = true ∨ d = 0 ∨ 8 < d →
         exec (.delayWrite t v) s = .next (s.orBits (tileBase t + 0x120024) 4))))

/-- A Quantizer job starts in the mode R213 resolves, is refused on its fields, its ticket or its read, and takes its
ticket; a sampled one takes the trace buffer of its step (R211 to R213, R218, R222, R228). A conversion ends: it
stands, or a calibrated one with too many saturated elements is converted again in PASS, whose end always stands; the
first conversion of a sampled job makes the wide copy in its first pass; an error stops the job and leaves the rest
undefined (R215, R219 to R222, R225 to R228, R601). The traced chain's copy ends, then its recompute: the bin counts,
the last trace is written, and a bin at the alarm alarms (R229 to R231). -/
def Obligations.Quantizer : Prop :=
  (∀ (s : State) (t : TileId),
     (s.fabOn t = false ∨ s.fencedTile t = true ∨ (s.qzt t).run ≠ none ∨ (s.qzt t).queue = [] →
       exec (.quantJobStart t) s = .next s) ∧
     ∀ idx addr cf rest, s.fabOn t = true → s.fencedTile t = false → (s.qzt t).run = none →
     (s.qzt t).queue = (idx, addr, cf) :: rest → ∀ u : State, u = s.setQzt t { s.qzt t with queue := rest } →
     (addr % 8 ≠ 0 → exec (.quantJobStart t) s = .next (u.partDone t idx (some false))) ∧
     (addr % 8 = 0 → ∀ c j v, u.gRead addr 64 = (c, j, v) → ∀ k, k = jobTicket j →
       (c ≠ .ok → exec (.quantJobStart t) s = .next (v.partDone t idx (some (c = .ue)))) ∧
       (c = .ok → k ≠ 0 ∧ smGet 0 (s.qzt t).tickets k ≠ 0 →
         exec (.quantJobStart t) s = .next ((v.orBits (kQz t 0x18) 2).partDone t idx (some false))) ∧
       (c = .ok → ¬(k ≠ 0 ∧ smGet 0 (s.qzt t).tickets k ≠ 0) → v.jobOk j = false →
         exec (.quantJobStart t) s = .next ((((v.orBits (kQz t 0x18) 1).setTicket t k (if k = 0 then 0 else 1)).postNotice t k
           false).partDone t idx (some false))) ∧
       (c = .ok → ¬(k ≠ 0 ∧ smGet 0 (s.qzt t).tickets k ≠ 0) → v.jobOk j = true → ∀ cal : Bool,
         cal = (v.wantsCal j && (v.calOf (jobTensor j)).isSome) → ∀ w : State,
         w = (if v.wantsCal j = true ∧ cal = false then (v.bump (kQz t 0x38) 1).raise 0x0702 1 t (jobTensor j) else v) →
         (k = 0 → exec (.quantJobStart t) s = .next (w.setRun t (some ⟨idx, cf, j, cal, false, false⟩))) ∧
         (k ≠ 0 → exec (.quantJobStart t) s = .next
           (((w.setTicket t k 1).sampleJob t j).setRun t (some ⟨idx, cf, j, cal, false, false⟩)))))) ∧
  (∀ (s : State) (t : TileId) (r : QzRun), s.fabOn t = true → (s.qzt t).run = some r →
     ∀ wide, wide = (match (s.qzt t).sample with
       | some sm => if sm.ticket = jobTicket r.job ∧ sm.copy = none then some sm.base else none
       | none => none) →
     (r.recon = true → exec (.quantConversionEnd t) s = .next s) ∧
     (r.recon = false → exec (.quantReconversionEnd t) s = .next s) ∧
     (r.recon = false →
       (∀ e v, s.qzConvert r.job (if r.cal then s.calOf (jobTensor r.job) else none) wide = (.error e, v) →
         exec (.quantConversionEnd t) s = .next (v.qzFail t r e)) ∧
       (∀ z v, s.qzConvert r.job (if r.cal then s.calOf (jobTensor r.job) else none) wide = (.ok z, v) →
         ∀ x : State, x = (v.orBits (kQz t 0x14) z.flags.toNat).clipStats t r.job z.sat →
         (r.cal = false ∨ z.sat ≤ x.rd kQzLimit → exec (.quantConversionEnd t) s = .next (x.qzStand t r z)) ∧
         (r.cal = true → x.rd kQzLimit < z.sat →
           ∀ y : State, y = (x.bump (kQz t 0x30) 1).raise 0x0701 1 t (jobTensor r.job + min z.sat 0xFFFFFFFF * 2 ^ 16) →
           (jobTicket r.job = 0 → exec (.quantConversionEnd t) s = .next
             (y.setRun t (some { r with recon := true, descDone := false }))) ∧
           (jobTicket r.job ≠ 0 → exec (.quantConversionEnd t) s = .next
             ((y.setRun t (some { r with recon := true, descDone := true })).partDone t r.idx none))))) ∧
     (r.recon = true →
       (∀ e v, s.qzConvert r.job none none = (.error e, v) →
         exec (.quantReconversionEnd t) s = .next (v.qzFail t r e)) ∧
       (∀ z v, s.qzConvert r.job none none = (.ok z, v) →
         exec (.quantReconversionEnd t) s = .next ((v.orBits (kQz t 0x14) z.flags.toNat).qzStand t r z)))) ∧
  (∀ (s : State) (t : TileId) (sm : Sample) (cp : TraceCopy), s.fabOn t = true → (s.qzt t).sample = some sm →
     sm.copy = some cp →
     (sm.recomputing = false → ∀ u, u = s.setSample t (some { sm with recomputing := true }) →
       ((u.me cp.core).chains.find? (fun ch => ch.id = cp.chain && ch.traced) = none →
         exec (.traceCopyEnd t) s = .next u) ∧
       (∀ ch, (u.me cp.core).chains.find? (fun ch => ch.id = cp.chain && ch.traced) = some ch →
         exec (.traceCopyEnd t) s = .next ((u.chainFinal cp.core ch).meAdvance cp.core))) ∧
     (sm.recomputing = true → ∀ b last, b = s.traceBin sm cp → last = jobTensor sm.job + b * 2 ^ 16 + cp.tag * 2 ^ 32 →
       ∀ u : State, u = ((((s.setSample t none).bump (kTrace t 0) 1).bump (tileBase t + 0x141100 + 8 * b) 1).wr
         (tileBase t + 0x141030) last) →
       (b < max 1 (fld s.qzm.trCtrl 16 5) → exec (.traceRecomputeEnd t) s = .next u) ∧
       (max 1 (fld s.qzm.trCtrl 16 5) ≤ b → exec (.traceRecomputeEnd t) s = .next
         ((u.bump (kTrace t 2) 1).raise 0x0703 1 t last))))

/-- The scale of a group: the smallest E8M0 power or UE4M3 code whose product with the format's largest magnitude is
not below the group's magnitude, and 1.0 for a group of zeros (R214). -/
def Obligations.GroupScales : Prop :=
  (∀ e8 (f : Fmt) x, scaleCode e8 f 0 x = if e8 then 0x7F else 0x38) ∧
  (∀ (f : Fmt) (am : Nat) (ae : Int), am ≠ 0 → ∀ c, c = scaleCode false f am ae → 1 ≤ c ∧ c ≤ 0x7E ∧
    (∀ d, 1 ≤ d → d < c → ∀ v x, (decodeCode (fmtOf (paletteReset 11)) d).1 = .fin false v x →
      geScaled ((largest f).1 * v) ((largest f).2 + x) am ae = false) ∧
    (c < 0x7E → ∀ v x, (decodeCode (fmtOf (paletteReset 11)) c).1 = .fin false v x →
      geScaled ((largest f).1 * v) ((largest f).2 + x) am ae = true)) ∧
  (∀ (f : Fmt) (am : Nat) (ae : Int), am ≠ 0 → scaleCode true f am ae ≤ 254)

/-- A block is staged into the lowest free slot in order, and its tag decides whether it is torn, refused, skipped or
computed; what is staged stands in Studio SRAM where UE_STAGE_BASE says; a block with a value that is not finite
stores nothing (R259, R260, R264, R265, R267, R278). The writes of a commit are done one by one; the last one ends the
block, with its one parity delta; a write that fails is tried once more, and then the block is torn, as it is when its
staged data meets an error at a state slot or the weights (R261, R266, R457). -/
def Obligations.UpdateBlocks : Prop :=
  (∀ (s : State) (t : TileId), s.fabOn t = true →
     (s.seq.mode ≠ .running ∨ s.fencedTile t = true ∨ (s.upt t).jobs.find? (fun j => j.next < j.count) = none →
       exec (.blockStageStart t) s = .next s) ∧
     (∀ j i, s.seq.mode = .running → s.fencedTile t = false → (s.upt t).jobs.find? (fun j => j.next < j.count) = some j →
       ((s.upt t).slots.filter fun e => e.2.phase = .torn).length ≠ 16 →
       (List.range 16).find? (fun i => ((s.upt t).slot i).isNone) = some i →
       ∃ x, exec (.blockStageStart t) s = .next (s.setUpt t { (s.upt t).setSlot i x with
           jobs := (s.upt t).jobs.map fun k => if k.idx = j.idx then { k with next := k.next + 1 } else k }) ∧
         x.phase = .reading ∧ x.idx = j.idx ∧ x.record = j.params + j.next * s.recBytes j.recipe ∧
         x.grad = j.grads + j.next * 4096 ∧ x.step = s.step % 2 ^ 16) ∧
     (∀ j, s.seq.mode = .running → s.fencedTile t = false → (s.upt t).jobs.find? (fun j => j.next < j.count) = some j →
       ((s.upt t).slots.filter fun e => e.2.phase = .torn).length = 16 →
       exec (.blockStageStart t) s = .next (((s.orBits (kUe t 0x20) 8).jobError t j.idx false).ueAdvance t)) ∧
     (∀ (slot : Fin 16) x, (s.upt t).slot slot = some x → x.phase = .reading →
       (∀ c rec u, s.memRead x.record (s.recBytes x.recipe) = (c, rec, u) → c ≠ .ok → exec (.blockStaged t slot) s = .next
         (((u.setUpt t ((u.upt t).free slot)).jobError t x.idx (c = .ue)).ueAdvance t)) ∧
       ∀ rec gr u v c, s.memRead x.record (s.recBytes x.recipe) = (.ok, rec, u) → u.memRead x.grad 4096 = (c, gr, v) →
       (c ≠ .ok → exec (.blockStaged t slot) s = .next
         (((v.setUpt t ((v.upt t).free slot)).jobError t x.idx (c = .ue)).ueAdvance t)) ∧
       (c = .ok →
         ∀ tag, tag = leAt rec 0 8 →
         ∀ p : State, p = ((v.stagePut t slot 0 rec).stagePut t slot 0x5000 (slice rec 64 4096)).stagePut t slot 0x6000 gr →
         ∀ w : State, w = p.setUpt t ((p.upt t).free slot) →
         (tagState tag = 2 → ∀ q : State, q = (if p.seq.mode = .idle then p else p.noteTwo .torn .descError) →
           exec (.blockStaged t slot) s = .next ((((q.orBits (kUe t 0x20) 2).tear t slot { x with
             tag := tag, undo := [], old := rec } true true).jobError t x.idx false).ueAdvance t)) ∧
         (tagState tag = 3 → exec (.blockStaged t slot) s = .next (((w.orBits (kUe t 0x20) 2).jobError t x.idx false).ueAdvance t)) ∧
         (tagState tag = 1 → tagRecipe tag ≠ x.recipe →
           exec (.blockStaged t slot) s = .next (((w.orBits (kUe t 0x20) 4).jobError t x.idx false).ueAdvance t)) ∧
         (tagState tag = 1 → tagRecipe tag = x.recipe → tagStep tag = p.step % 2 ^ 16 → bit (p.rd (wideKey 0x110000)) 0 = true →
           exec (.blockStaged t slot) s = .next ((w.bump (kUe t 0x40) 1).ueAdvance t)) ∧
         (tagState tag = 0 ∨ tagState tag = 1 ∧ tagRecipe tag = x.recipe ∧
             ¬(tagStep tag = p.step % 2 ^ 16 ∧ bit (p.rd (wideKey 0x110000)) 0 = true) →
           ∀ o f, p.runRecipe x.recipe 2048 (p.blockIn x.recipe rec gr) = (o, f) →
           ((o.weight.getD [] ++ o.slots.flatMap (·.2)).all finite32 = true →
             ∃ y z, exec (.blockStaged t slot) s = .next (z.setUpt t ((z.upt t).setSlot slot y)) ∧ y.phase = .committing ∧
               y.record = x.record ∧ y.tag = tag ∧ y.undo = slice rec 64 4096 ∧ y.old = rec ∧
               y.writes.head? = some (0, leBytes 8 (tagWord (tagStep tag) 2 (tagLag tag) (tagRecipe tag))) ∧
               y.writes.getLast? = some (0, leBytes 8 (tagWord v.step 1 0 x.recipe) ++ List.replicate 56 0) ∧
               z.upt t = v.upt t ∧ BytesExcept (v.rdf (kUe t 0x10) 0 44) 0x80000 v z) ∧
           ((o.weight.getD [] ++ o.slots.flatMap (·.2)).all finite32 = false →
             ∀ q : State, q = (p.ueFlags t f).setUpt t (((p.ueFlags t f).upt t).free slot) →
             ∀ y : State, y = q.nonfinite t x.record (o.weight.getD [] ++ o.slots.flatMap (·.2)) →
             exec (.blockStaged t slot) s = .next ((y.setUpt t { y.upt t with jobs := (y.upt t).jobs.map fun j =>
               if j.idx = x.idx then { j with bad := j.bad || bit (y.rd (wideKey 0x110000)) 1 } else j }).ueAdvance t)))))) ∧
  (∀ (s : State) (t : TileId) (slot : Fin 16) (x : UeSlot) (tagOk : Bool), s.fabOn t = true →
     (s.upt t).slot slot = some x → x.phase = .committing → ∀ off b rest, x.writes = (off, b) :: rest →
     (∀ u, s.memWriteBare (x.record + off) b = (.ok, u) →
       (rest ≠ [] → exec (.blockCommitWriteDone t slot .done tagOk) s = .next
         (u.setUpt t ((u.upt t).setSlot slot { x with writes := rest, retried := false }))) ∧
       (rest = [] → ∀ v : State, v = u.parityCatchUp x.record x.old → exec (.blockCommitWriteDone t slot .done tagOk) s = .next
         (((v.setUpt t ((u.upt t).free slot)).bump (kUe t 0x28) 1).ueAdvance t))) ∧
     (∀ c u res, (s.memWriteBare (x.record + off) b = (c, u) ∧ c ≠ .ok ∧ res = .done) ∨ res = .error ∧ u = s →
       (x.retried = false → exec (.blockCommitWriteDone t slot res tagOk) s = .next
         (u.setUpt t ((u.upt t).setSlot slot { x with retried := true }))) ∧
       (x.retried = true → exec (.blockCommitWriteDone t slot res tagOk) s = .next
         ((u.tear t slot x x.noUndo tagOk).ueAdvance t))) ∧
     (∀ lost,
       (1 < x.writes.length ∧ x.writes.length < x.slotWrites.length + 3 →
         exec (.blockCommitWriteDone t slot (.stagedUe lost) tagOk) s = .next ((s.tear t slot x lost tagOk).ueAdvance t)) ∧
       (¬(1 < x.writes.length ∧ x.writes.length < x.slotWrites.length + 3) →
         exec (.blockCommitWriteDone t slot (.stagedUe lost) tagOk) s = .next s)))

/-- A DATA block: a bad CRC, another KIND or a bad tag is counted and discarded, a second bad tag on one SEQ takes the
link DOWN, a block out of order or on a link without COORD_OK is discarded, and the one due is delivered, acknowledged
and counted, and holds a receive buffer; an IDLE block gives its header alone (R376, R377, R379 to R382, R385, R388,
R401). Timers of an UP link: NAK is repeated, and a replay timeout re-sends every unacknowledged block; a block
re-sent RETRY_LIMIT times takes the link DOWN (R380, R381). -/
def Obligations.LinkBlocks : Prop :=
  (∀ (s : State) (p : PortId) (b : RxBlock), s.portOn p = true → s.linkSt p = 4 →
     (b.crcOk = false → ∀ u, u = (s.bump (kLnkCount p 5) b.uncorr.toNat).bump (kLnkCount p 2) 1 →
       exec (.dataBlock p b) s = .next (u.discard p) ∧ exec (.idleBlock p b) s = .next u) ∧
     (b.crcOk = true →
       (b.kind = 0 → exec (.idleBlock p b) s = .next (s.takeHeader p b)) ∧
       (b.kind ≠ 0 → exec (.idleBlock p b) s = .next s) ∧
       (2 < b.kind.toNat → exec (.dataBlock p b) s = .next (s.discard p)) ∧
       (b.kind = 0 ∨ b.kind = 2 → exec (.dataBlock p b) s = .next s)) ∧
     (b.crcOk = true → b.kind = 1 → b.tagOk = false → ∀ u, u = (s.bump (kLnkCount p 6) 1).raise 0x0304 3 p b.seq.toNat →
       (b.seq.toNat ∈ (s.port p).authSeq → exec (.dataBlock p b) s = .next (u.linkDown p 8 false)) ∧
       (b.seq.toNat ∉ (s.port p).authSeq → exec (.dataBlock p b) s = .next
         ((u.setPort p { s.port p with authSeq := b.seq.toNat :: (s.port p).authSeq }).discard p))) ∧
     (b.crcOk = true → b.kind = 1 → b.tagOk = true → ∀ u, u = s.takeHeader p b →
       (u.linkSt p ≠ 4 → exec (.dataBlock p b) s = .next u) ∧
       (u.linkSt p = 4 → b.seq.toNat ≠ (u.port p).rxSeq ∨ u.coordOk p = false →
         exec (.dataBlock p b) s = .next (u.discard p)) ∧
       (u.linkSt p = 4 → b.seq.toNat = (u.port p).rxSeq → u.coordOk p = true →
         ∀ vc, vc = fld b.vc.toNat 0 3 * 2 + fld b.vc.toNat 3 1 →
         ∀ part done, takeSegments vc 121 b.payload (u.port p).part [] = (part, done) →
         ∃ v, exec (.dataBlock p b) s = .next (v.sendIdle p 0xFF false) ∧
           (v.port p).rxSeq = ((u.port p).rxSeq + 1) % 65536 ∧ (v.port p).nak = false ∧ (v.port p).part = part ∧
           smGet 0 (v.port p).held vc = smGet 0 (u.port p).held vc + 1 ∧ RegsExcept [kLnkCount p 1] u v ∧ SameBytes u v ∧
           ∃ new, v.net.assembled = u.net.assembled ++ new ∧
             new.map (fun m => (m.1, m.2.2)) = done.map fun m => ((p : Nat) * 16 + vc, m)))) ∧
  (∀ (s : State) (p : PortId), s.portOn p = true → s.linkSt p = 4 →
     ((s.port p).nak = true → exec (.nakTimer p) s = .next (s.sendIdle p 0xFF true)) ∧
     ((s.port p).nak = false → exec (.nakTimer p) s = .next s) ∧
     ((s.port p).retry = [] → exec (.replayTimeout p) s = .next s) ∧
     (∀ b bs, (s.port p).retry = b :: bs →
       (b.resent < max 1 (s.rdf (netKey 0x24) 16 8) →
         (∀ x ∈ bs, serialLater 16 x.seq b.seq = true ∧ x.resent < max 1 (s.rdf (netKey 0x24) 16 8)) →
         exec (.replayTimeout p) s = .next (emitBlocks (s.setPort p { s.port p with
           retry := (b :: bs).map fun x => { x with resent := x.resent + 1 } }) p (b :: bs))) ∧
       (max 1 (s.rdf (netKey 0x24) 16 8) ≤ b.resent → exec (.replayTimeout p) s = .next (s.linkDown p 6 false))))

/-- Training: from its start, through lane lock, IDENT, the markers (results pending first, R405) and the preset
sweep, to keying; open-fibre control lets nothing out (R425); a mistake of IDENT or too few lanes take the link DOWN,
as a step that misses its bound does (R373, R383, R390 to R392, R405, R522). Keying: the key and both confirmations
come from the pod secret, both shares and both nonces; a good confirmation brings the link UP with counters at 0, and
any fault fails it (R522). -/
def Obligations.LinkTraining : Prop :=
  (∀ (s : State) (p : PortId), s.portOn p = true →
     (s.linkSt p = 1 → s.portOff p = false → s.pairLit (p / 2) = true → bit (s.rd kClkDomains) 16 = false →
       ∃ t, exec (.trainingStart p) s = .next t ∧ t.linkSt p = 2 ∧
         t.port p = { PortState.init with step := 1, dark := (s.port p).dark } ∧ t.mem = s.mem ∧
         t.out = (s.setLinkSt p 2).out ++ if (s.port p).dark then [] else
           (List.range 18).map fun l => .block p (some l) (s.identContent p l)) ∧
     (s.linkSt p ≠ 1 ∨ s.portOff p = true ∨ s.pairLit (p / 2) = false ∨ bit (s.rd kClkDomains) 16 = true →
       exec (.trainingStart p) s = .next s) ∧
     (∀ lanes : BitVec 18, s.linkSt p = 2 → (s.port p).step = 1 → lanes ≠ 0 →
       exec (.laneLock p lanes) s = .next (s.setPort p { s.port p with locked := lanes.toNat, step := 2 })) ∧
     (∀ (l : Fin 18) b, s.linkSt p = 2 → 2 ≤ (s.port p).step →
       (leAt b.payload 1 1 ≠ Nat.xor p 1 ∨ leAt b.payload 2 1 ≠ l → exec (.identBlock p (some l) b) s = .next (s.linkDown p 3 false)) ∧
       (leAt b.payload 1 1 = Nat.xor p 1 → leAt b.payload 2 1 = l → ∀ i, i = Nat.lor (s.port p).idented (2 ^ (l : Nat)) →
         ∀ all, all = (Nat.land i (s.port p).locked = (s.port p).locked ∧ (s.port p).step = 2) →
         ∀ u, u = s.wr (kLnk p 0x10) (2 ^ 63 + leAt b.payload 1 1 % 8 * 2 ^ 20 + leAt b.payload 4 4 % 2 ^ 20) →
         (all → exec (.identBlock p (some l) b) s = .next
           ((u.setPort p { s.port p with idented := i, step := 3 }).sendPending p)) ∧
         (¬all → exec (.identBlock p (some l) b) s = .next (u.setPort p { s.port p with idented := i })))) ∧
     (∀ b, s.linkSt p = 2 → leAt b.payload 1 1 < 18 →
       (leAt b.payload 3 1 = 1 → exec (.trainMarker p b) s = .next (s.setPort p { s.port p with
         txPass := Nat.lor (s.port p).txPass (2 ^ leAt b.payload 1 1) })) ∧
       (leAt b.payload 3 1 = 2 → exec (.trainMarker p b) s = .next (s.setPort p { s.port p with
         txPass := setFld (s.port p).txPass (leAt b.payload 1 1) 1 0 })) ∧
       (leAt b.payload 3 1 = 0 → exec (.trainMarker p b) s = .next s)) ∧
     (∀ meas, s.linkSt p = 2 → (s.port p).step = 3 → ∀ lim, lim = berOf (s.rdf (netKey 0x28) 0 8) →
       ∀ best, best = (withIdx meas 0).map (fun e => (e.1, if bit (s.port p).locked e.1 then
         bestPreset (fun i => presetOk (s.rd (netKey (0x100 + 4 * i)))) ((withIdx e.2 0).map fun q => (q.1, q.2)) else none)) →
       ∀ pass, pass = best.filterMap (fun e => match e.2 with
         | some (i, _, ber) => if ber ≤ lim then some (e.1, i) else none
         | none => none) →
       (pass.length < 16 → exec (.presetSweepEnd p meas) s = .next
         (((s.chooseLanes p pass).sendPresets p lim best).linkDown p 4 false)) ∧
       (16 ≤ pass.length → exec (.presetSweepEnd p meas) s = .next
         (((s.chooseLanes p pass).sendPresets p lim best).setPort p { s.port p with step := 4 }))) ∧
     (∀ rtt : BitVec 16, s.linkSt p = 2 → (s.port p).step = 4 →
       ∃ u : State, u.rd (kLnk p 0x18) = rtt.toNat ∧ bit (u.rd (kLnkStatus p)) 9 = decide (rtt.toNat > 1310) ∧
         u.rdf (kLnk p 8) 0 18 = lanesMask (((List.range 18).filter (bit (s.port p).txPass)).take 16) ∧
         (((List.range 18).filter (bit (s.port p).txPass)).length < 16 →
           exec (.alignmentDone p rtt) s = .next (u.linkDown p 4 false)) ∧
         (16 ≤ ((List.range 18).filter (bit (s.port p).txPass)).length →
           exec (.alignmentDone p rtt) s = .next (u.startKeying p))) ∧
     (s.linkSt p = 2 → exec (.trainingTimeout p) s = .next
       (s.linkDown p (if (s.port p).step ≤ 1 then 2 else if (s.port p).step = 2 then 3 else 4) false)) ∧
     (s.linkSt p = 3 → exec (.trainingTimeout p) s = .next (s.linkDown p 5 false))) ∧
  ((∀ (s : State) (p : PortId) (b : RxBlock) conf, s.portOn p = true → s.linkSt p = 3 → b.crcOk = false →
     exec (.keyBlock p b conf) s = .next ((s.bump (kLnkCount p 5) b.uncorr.toNat).bump (kLnkCount p 2) 1)) ∧
   ∀ (s : State) (p : PortId) (b : RxBlock) (conf : List Byte), s.portOn p = true → s.linkSt p = 3 → b.crcOk = true →
     -- what the other end of the link confirms: N where this port is a + port, P where it is a − port
     let due := (Config.shake256 32 (asciiPad "ZLD-LCNF" 8 ++ (s.port p).keyK ++ [if p.val % 2 = 0 then 1 else 0]))
     let fails := exec (.keyBlock p b conf) s = .next (((s.linkDown p 5 false).orBits 0xC034 4).raise 0x0306 3 p p)
     (leAt b.payload 8 8 ≠ s.rd kPodKeyId → fails) ∧
     (leAt b.payload 8 8 = s.rd kPodKeyId → leAt b.payload 1 1 ≠ 0 → (s.port p).shared = false ∨ conf ≠ slice due 0 32 → fails) ∧
     (leAt b.payload 8 8 = s.rd kPodKeyId → leAt b.payload 1 1 ≠ 0 → (s.port p).shared = true → conf = slice due 0 32 →
       exec (.keyBlock p b conf) s = .next (s.linkUp p)) ∧
     (leAt b.payload 8 8 = s.rd kPodKeyId → leAt b.payload 1 1 = 0 → ∀ sh no x, sh = slice b.payload 16 56 →
       no = slice b.payload 72 32 → x = s.port p → ∀ k, k = Config.shake256 64 (asciiPad "ZLD-LINK" 8 ++ s.boot.podSecret.getD [] ++
         Config.x448 x.secret sh ++ (if p.val % 2 = 0 then slice x.share 0 56 ++ sh ++ slice x.nonce 0 32 ++ no
           else sh ++ slice x.share 0 56 ++ no ++ slice x.nonce 0 32)) →
       exec (.keyBlock p b conf) s = .next ((s.setPort p { x with keyK := k, shared := true }).sendLink p
         (s.keyContent 1 [] [] (slice (Config.shake256 32 (asciiPad "ZLD-LCNF" 8 ++ k ++ [if p.val % 2 = 0 then 0 else 1])) 0 32)))))

/-- Lane windows and swaps, retrains and losses of an UP link; a LINK block whose CRC or tag fails is counted and
discarded, and a second tag failure on its SEQ takes the link DOWN; the state of an end of a link goes on round its
ring (R376, R382, R388, R393 to R396, R400, R401, R405). LNK_CTRL: ENABLE trains a DISABLED port, is cleared only
while no step runs, and takes the link DOWN; RETRAIN and FULL_TRAIN (R408). Pod time: a module below the root asks its
parent, answers who asks it, and takes the offset of a reply; without its parent's link it runs free (R402 to R404).
-/
def Obligations.LinkUpkeep : Prop :=
  (∀ (s : State) (p : PortId), s.portOn p = true →
     (∀ meas, s.linkSt p = 4 → exec (.laneWindow p meas) s = .next
       (s.judgeLanes p (((withIdx meas 0).take 18).map fun e => (e.1, e.2.1, e.2.2.1, e.2.2.2)))) ∧
     (∀ l errs ber lock rest, s.rdf (kLnk p (0x100 + 8 * l)) 4 2 ≠ 1 →
       s.judgeLanes p ((l, errs, ber, lock) :: rest) = s.judgeLanes p rest) ∧
     (∀ l, s.spareLane p 4 = none → s.failLane p l true = s.wrf (kLnkStatus p) 10 1 1 ∧
       s.failLane p l false = (s.setPort p { s.port p with lackLane := true }).startRetrain p) ∧
     (∀ b : RxBlock, s.linkSt p = 4 → b.crcOk = true → b.tagOk = true → b.kind = 2 → ∀ dir l n u,
       dir = leAt b.payload 1 1 → l = leAt b.payload 2 1 → n = leAt b.payload 3 1 → u = s.takeHeader p b →
       (dir ≤ 1 → l < 18 → n < 18 → exec (.laneSwap p b) s = .next
         ((((u.setPort p { u.port p with swapAt := leAt b.payload 4 4 }).swapLane p (if dir = 0 then 6 else 4) l n).bump
           (kLnkCount p 9) 1).raise 0x0301 3 p (p + (if dir = 0 then 8 else 0) + l * 2 ^ 8 + n * 2 ^ 16))) ∧
       (1 < dir ∨ 18 ≤ l ∨ 18 ≤ n → exec (.laneSwap p b) s = .next u) ∧
       exec (.identBlock p none b) s = .next
         ((u.wr (kLnk p 0x10) (2 ^ 63 + leAt b.payload 1 1 % 8 * 2 ^ 20 + leAt b.payload 4 4 % 2 ^ 20)).judgeCoord p)) ∧
     (s.linkSt p = 4 → exec (.alignmentLost p) s = .next ((s.setLinkSt p 5).bump (kLnkCount p 7) 1)) ∧
     (s.linkSt p ≠ 4 → exec (.alignmentLost p) s = .next s) ∧
     (s.linkSt p = 5 → exec (.retrainTimeout p) s = .next (s.linkDown p 7 false) ∧
       ((s.port p).lackLane = true → exec (.retrainDone p) s = .next (s.linkDown p 7 false)) ∧
       ((s.port p).lackLane = false → ∀ u, u = (s.setLinkSt p 4).raise 0x0303 3 p p →
         ((u.port p).retry = [] → exec (.retrainDone p) s = .next (u.pumpAll p)) ∧
         (∀ x xs, (u.port p).retry = x :: xs → exec (.retrainDone p) s = .next ((u.resend p x.seq).pumpAll p)))) ∧
     (s.linkSt p ≠ 5 → exec (.retrainTimeout p) s = .next s ∧ exec (.retrainDone p) s = .next s) ∧
     (∀ b : RxBlock, s.linkSt p = 4 ∨ s.linkSt p = 5 → b.crcOk = true → b.tagOk = true → b.kind = 2 →
       exec (.downBlock p b) s = .next ((s.setLinkSt p 5).linkDown p 9 false)) ∧
     (∀ (b : RxBlock) u, s.linkSt p = 4 →
       ((b.crcOk = false ∧ u = (s.bump (kLnkCount p 5) b.uncorr.toNat).bump (kLnkCount p 2) 1) ∨
         (b.crcOk = true ∧ b.kind ≠ 2 ∧ u = s) ∨
         (b.crcOk = true ∧ b.kind = 2 ∧ b.tagOk = false ∧ ∀ v, v = (s.bump (kLnkCount p 6) 1).raise 0x0304 3 p b.seq.toNat →
           u = if b.seq.toNat ∈ (s.port p).authLink then v.linkDown p 8 false
             else v.setPort p { s.port p with authLink := b.seq.toNat :: (s.port p).authLink })) →
       exec (.laneSwap p b) s = .next u ∧ exec (.identBlock p none b) s = .next u ∧ exec (.downBlock p b) s = .next u ∧
       exec (.timeBlock p b) s = .next u) ∧
     (∀ (link : Fin 32) plusEnd up, s.hubOn = true → s.portUp p = true → ∀ a l, a = p.val / 2 → l = max 1 (s.layoutLen a) →
       ∀ src, src = (if plusEnd then link.val else (link.val + 1) % l) →
       (coordOf s.node a = src → exec (.linkStateMessage p ⟨link, plusEnd⟩ up) s = .next s) ∧
       (coordOf s.node a ≠ src → exec (.linkStateMessage p ⟨link, plusEnd⟩ up) s = .next
         ((s.setEnd a link plusEnd up).sendState (Nat.xor p 1) link plusEnd up))) ∧
     (∀ a (c : Fin 32) plusEnd up, (s.setEnd a c plusEnd up).rd (netKey (8 + 4 * a)) = setFld (s.ring a) c 1
       (b2n (up && smGet false s.net.ends (endKey a c !plusEnd))))) ∧
  (∀ (s : State) (p : PortId), s.portOn p = true →
     (∃ t, exec (.lnkEnable p true) s = .next t ∧ bit (t.rd (kLnk p 0)) 0 = true ∧
       (s.linkSt p = 0 → t.portOff p = false → t.linkSt p = 1) ∧ (s.linkSt p ≠ 0 → t.linkSt p = s.linkSt p) ∧
       RegsExcept [kLnk p 0, kLnkStatus p, netKey (8 + 4 * (p / 2)), kTimeStatus] s t ∧ SameBytes s t) ∧
     (s.quiet = false → exec (.lnkEnable p false) s = .next s) ∧
     (s.quiet = true → s.linkSt p = 0 → exec (.lnkEnable p false) s = .next (s.wrf (kLnk p 0) 0 1 0)) ∧
     (s.quiet = true → s.linkSt p ≠ 0 → exec (.lnkEnable p false) s = .next ((s.wrf (kLnk p 0) 0 1 0).linkDown p 1 true)) ∧
     (s.linkSt p = 4 → exec (.lnkRetrain p) s = .next ((s.setLinkSt p 5).bump (kLnkCount p 7) 1)) ∧
     (s.linkSt p ≠ 4 → exec (.lnkRetrain p) s = .next s) ∧
     (s.linkSt p ≠ 0 → exec (.lnkFullTrain p) s = .next (s.linkDown p 1 false)) ∧
     (s.linkSt p = 0 → exec (.lnkFullTrain p) s = .next s)) ∧
  ((∀ s : State, s.hubOn = true →
     (s.parentPort = none → exec .timePeriod s = .next s) ∧
     (∀ p, s.parentPort = some p →
       (s.linkSt p = 4 → exec .timePeriod s = .next ((s.setPort p { s.port p with t1 := some (s.rd kPodTime) }).sendLink p
         ([5, 0, 0, 0, 0, 0, 0, 0] ++ leBytes 8 (s.rd kPodTime)))) ∧
       (s.linkSt p ≠ 4 → exec .timePeriod s = .next (s.wrf kTimeStatus 1 1 1)))) ∧
   (∀ (s : State) (p : PortId) (b : RxBlock), s.portOn p = true → s.linkSt p = 4 → b.crcOk = true →
     b.tagOk = true → b.kind = 2 → ∀ u, u = s.takeHeader p b →
     (leAt b.payload 1 1 = 0 → exec (.timeBlock p b) s = .next (u.sendLink p ([5, 1, 0, 0, 0, 0, 0, 0] ++
       slice b.payload 8 8 ++ leBytes 8 (u.rd kPodTime) ++ leBytes 8 (u.rd kPodTime)))) ∧
     (leAt b.payload 1 1 ≠ 0 → u.parentPort ≠ some p.val ∨ (u.port p).t1 = none → exec (.timeBlock p b) s = .next u) ∧
     (leAt b.payload 1 1 ≠ 0 → u.parentPort = some p.val → (u.port p).t1.isSome = true →
       ∀ off : Int, off = (((leAt b.payload 16 8 : Int) - leAt b.payload 8 8) -
         ((u.rd kPodTime : Int) - leAt b.payload 24 8)) / 2 →
       ∃ t, exec (.timeBlock p b) s = .next t ∧ t.rd kTimeOffset = wrapInt off 64 % 2 ^ 64 ∧ t.net.slew = off ∧
         (t.port p).t1 = none ∧ bit (t.rd kTimeStatus) 0 = decide (off.natAbs < 20) ∧ bit (t.rd kTimeStatus) 1 = false ∧
         RegsExcept [kTimeOffset, kTimeStatus] u t ∧ SameBytes u t)))

/-- A cartridge is challenged when it is seated, accepted only on good signatures and a good record, and refused
otherwise or too late (R414, R415, R428, R524). A lit lamp that fails takes its level 0 and FAIL; a lit partner is
raised, and with none lit the pair's ports lose their light; a pulled lamp that is lit fails first, and every pull
sets the slot's FAILED bit (R420, R422, R425, R428). -/
def Obligations.Lamps : Prop :=
  (∀ (s : State) (k : LampId),
     ((s.lamp k).seated = true → exec (.lampInserted k) s = .next s) ∧
     ((s.lamp k).seated = false → s.lampOn k = false → ∃ t, exec (.lampInserted k) s = .next t ∧
       t.lamp k = { LampState.init with seated := true } ∧
       (∀ j, kLamp k 0 ≤ j → j < kLamp k 0x100 → t.rd j = (csrReset j).toNat) ∧
       (∀ j, ¬(kLamp k 0 ≤ j ∧ j < kLamp k 0x100) → t.rd j = s.rd j) ∧ t.out = s.out ∧ SameBytes s t) ∧
     ((s.lamp k).seated = false → s.lampOn k = true → ∃ t, exec (.lampInserted k) s = .next t ∧ (t.lamp k).seated = true ∧
       t.lampSt k = 1 ∧ (t.lamp k).challenge.length = 32 ∧ t.out = s.out ++ [.lampChallenge k (t.lamp k).challenge] ∧
       SameBytes s t) ∧
     (s.lampOn k = true → s.lampSt k = 1 →
       exec (.lampAuthTimeout k) s = .next (s.refuseLamp k) ∧
       (∀ rec lit aged verified, verified = false ∨ lampRecordOk rec = false →
         exec (.lampAuthResponse k rec lit aged verified) s = .next (s.refuseLamp k)) ∧
       (∀ (rec : List Byte) (lit aged : W32), lampRecordOk rec = true → ∀ l a, (l, a) =
         (match smGet none (s.flash.lampRec.map fun e => (e.1, some e.2)) k with
           | some (ser, l0, a0) => if ser = slice rec 4 12 then (max lit.toNat l0, max aged.toNat a0) else (lit.toNat, aged.toNat)
           | none => (lit.toNat, aged.toNat)) →
         ∃ u : State, u.lampSt k = 3 ∧ u.rd (kLamp k 8) = l % 2 ^ 64 ∧ u.rd (kLamp k 4) = a % 2 ^ 64 ∧ u.rd (kLamp k 0x18) = leAt rec 76 5 ∧
         u.rd (kLamp k 0x20) = leAt rec 4 8 ∧ u.rd (kLamp k 0x28) = leAt rec 12 4 ∧
         u.rd (kLamp k 0xC) = (2100000 - a) / 60 ∧ (u.lamp k).challenge = [] ∧ SameBytes s u ∧
         ∀ v, v = u.judgeLamp k false →
         exec (.lampAuthResponse k rec lit aged true) s = .next
           (if v.pwr.lampsDone = true ∧ bit (v.rd 0x8800) 0 = true then v.lightLamp k else v)))) ∧
  (∀ (s : State) (k : LampId), s.lampOn k = true →
     (s.lampSt k = 4 → exec (.lampFail k) s = .next (s.failLamp k)) ∧
     (s.lampSt k ≠ 4 → exec (.lampFail k) s = .next s) ∧
     (s.lampSt (partner k) = 4 → ∀ t, t = s.failLamp k → t.lampSt k = 6 ∧ t.lampLevel k = 0 ∧ t.ramping k = false ∧
       bit (t.rd kLampSticky) (8 + k) = true ∧ t.lampSt (partner k) = 4 ∧ t.lampLevel (partner k) = 2 ∧
       t.ramping (partner k) = false ∧ SameBytes s t) ∧
     (s.lampSt (partner k) ≠ 4 → ∃ v, s.failLamp k = v.pairDark (k / 2) ∧ v.lampSt k = 6 ∧ v.lampLevel k = 0 ∧
       v.ramping k = false ∧ bit (v.rd kLampSticky) (8 + k) = true ∧ SameBytes s v) ∧
     ((s.lamp k).seated = false → exec (.lampPulled k) s = .next s) ∧
     ((s.lamp k).seated = true → s.lampSt k ≠ 4 → ∃ t, exec (.lampPulled k) s = .next t ∧ t.lamp k = LampState.init ∧
       (∀ j, kLamp k 0 ≤ j → j < kLamp k 0x100 → t.rd j = (csrReset j).toNat) ∧ bit (t.rd kLampSticky) (8 + k) = true ∧
       t.out = s.out ∧ SameBytes s t) ∧
     ((s.lamp k).seated = true → s.lampSt k = 4 → ∃ t, exec (.lampPulled k) s = .next t ∧ (t.lamp k).seated = false ∧
       t = (((s.failLamp k).raise 0x0205 4 k k).setLamp k { ((s.failLamp k).raise 0x0205 4 k k).lamp k with seated := false })) ∧
     (∃ t, exec (.lampInterlock k) s = .next t ∧ t.rd (kLamp k 0x10) = 0 ∧ t.rd (kLamp k 0x14) = 0 ∧ t.lampLevel k = 0 ∧
       RegsExcept [kLamp k 0x10, kLamp k 0x14, kLamp k 0] s t ∧ t.lamps = s.lamps ∧ SameBytes s t) ∧
     (∀ pair : Fin 4, s.lampOn (2 * pair) = true → exec (.rampEnd pair) s = .next (s.endRamps pair)))

/-- A minute of light counts LIT and AGED, sixteenths of a minute carried, and until the first full hour at nominal
level the prediction follows the age; such an hour predicts the end of life; a bias at its end-of-life value ends it
at once (R416 to R419). AUTO_LIGHT lights every dark lamp of a running tile, and open-fibre control darkens a port
until a probe meets one (R423, R426, R427). -/
def Obligations.LampAgeing : Prop :=
  (∀ (s : State) (k : LampId), s.lampOn k = true →
     (s.lampSt k ≠ 4 → ∃ t, exec (.lampMinute k) s = .next t ∧ RegsExcept [] s t ∧ t.out = s.out ∧ SameBytes s t) ∧
     (s.lampSt k = 4 → ∃ u : State,
       u.rd (kLamp k 8) = min (s.rd (kLamp k 8) + 1) (2 ^ 32 - 1) ∧
       (∀ f, f = (s.lamp k).frac + (if s.lampLevel k = 2 then s.rdf (kLamp k 0x18) 32 8 else 16) →
         u.rd (kLamp k 4) = min (s.rd (kLamp k 4) + f / 16) (2 ^ 32 - 1) ∧ (u.lamp k).frac = f % 16) ∧
       RegsExcept [kLamp k 8, kLamp k 4] s u ∧ u.out = s.out ∧ SameBytes s u ∧
       ∀ v : State, v = (if (s.lamp k).predicted then u else (u.wr (kLamp k 0xC)
         ((60 * u.rdf (kLamp k 0x18) 0 16 - u.rd (kLamp k 4)) / 60)).judgeLamp k false) →
       exec (.lampMinute k) s = .next (if u.rd (kLamp k 8) % 60 = 0 then v.keepLampRec k
         (leBytes 8 (v.rd (kLamp k 0x20)) ++ leBytes 4 (v.rd (kLamp k 0x28)), u.rd (kLamp k 8), u.rd (kLamp k 4)) else v)) ∧
     (∀ mean, s.lampSt k = 4 → (s.lamp k).nominal = 60 →
       exec (.lampHour k mean) s = .next
         (((s.wr (kLamp k 0xC) (s.predict k mean)).setLamp k { s.lamp k with predicted := true }).judgeLamp k false)) ∧
     (∀ mean, s.lampSt k ≠ 4 ∨ (s.lamp k).nominal ≠ 60 → exec (.lampHour k mean) s = .next s) ∧
     (∀ ua uw : BitVec 20, ∀ u, u = (s.wr (kLamp k 0x10) ua.toNat).wr (kLamp k 0x14) uw.toNat →
       (s.lampSt k = 4 → s.rdf (kLamp k 0x18) 16 16 * 10 ≤ ua.toNat →
         exec (.lampBiasSample k ua uw) s = .next (u.judgeLamp k true)) ∧
       (s.lampSt k ≠ 4 ∨ ua.toNat < s.rdf (kLamp k 0x18) 16 16 * 10 → exec (.lampBiasSample k ua uw) s = .next u))) ∧
  (∀ s : State,
     (s.hubOn = true → ∀ u, u = s.wrf 0x8800 0 1 1 →
       (s.pwr.lampsDone = true → exec .autoLight s = .next
         ((List.range 8).foldl (fun s k => if s.lampOn k then s.lightLamp k else s) u)) ∧
       (s.pwr.lampsDone = false → exec .autoLight s = .next u)) ∧
     (∀ k, s.lampSt k = 3 → s.ramping k = false → s.lampSt (partner k) ≠ 4 → s.ramping (partner k) = false →
       ∀ t, t = s.lightLamp k → t.lampSt k = 4 ∧ t.ramping k = true ∧ (t.lamp k).target = 2 ∧ RegsExcept [kLamp k 0] s t) ∧
     (∀ k, s.lampSt k = 3 → s.ramping k = false → s.lampSt (partner k) = 4 →
       ∀ t, t = s.lightLamp k → t.lampSt k = 4 ∧ t.ramping k = true ∧ (t.lamp k).target = 1 ∧
         t.ramping (partner k) = true ∧ (t.lamp (partner k)).target = 1 ∧ RegsExcept [kLamp k 0, kLamp (partner k) 0] s t) ∧
     (∀ p : PortId, s.portOn p = true →
       exec (.openFibreBlock p) s = .next (s.setPort p { s.port p with dark := true }) ∧
       (∀ peer : Bool, (s.port p).dark = true → exec (.openFibreProbe p peer) s = .next
         ((s.emit (.probe p)).setPort p { s.port p with dark := !peer })) ∧
       (∀ peer : Bool, (s.port p).dark = false → exec (.openFibreProbe p peer) s = .next s)))

/-- A clock source that fails loses READY, sets FAILED and its stickies, and is accounted for once; REF and ROOT gate
the domains, take HUB and LINK to INT and the feed ports down; INT sends its domains to ROOT, or stops them while ROOT
is not READY; and MON marks its own failure (R530, R535, R536). A clock window: while MON is not READY the other
sources are not judged; eight good windows in a row make a source READY, and the trim of INT moves toward the expected
count (R532 to R534). -/
def Obligations.Clocks : Prop :=
  (∀ (s : State) (n : Fin 4), s.powered = true →
     (s.srcFailed n = true → exec (.edgeLoss n) s = .next s) ∧
     (s.srcFailed n = false → exec (.edgeLoss n) s = .next (
       if n.val = 0 then (if (s.noteClkFail 0).srcFailed 3 then s.noteClkFail 0 else (s.noteClkFail 0).noteClkFail 3).gateForRoot
       else if n.val = 3 then (s.noteClkFail 3).gateForRoot
       else if n.val = 2 then (s.noteClkFail 2).intLost
       else (s.noteClkFail 1).wrf kClkStatus 12 1 1)) ∧
     (∀ t, t = s.noteClkFail n → t.srcReady n = false ∧ t.srcFailed n = true ∧ bit (t.rd kClkSticky) 0 = true ∧
       bit (t.rd kClkSticky) (1 + n) = true ∧ (bit (s.rd kClkSticky) 0 = false → t.rd 0x2018 = s.time % 2 ^ 64) ∧
       (bit (s.rd kClkSticky) 0 = true → t.rd 0x2018 = s.rd 0x2018)) ∧
     (∀ d, d < 16 → s.gateForRoot.gated d = true) ∧
     (∀ d, d = 16 ∨ d = 17 → s.gateForRoot.srcFailed 2 = false → bit (s.gateForRoot.rd kClkDomains) d = true) ∧
     (∀ e ∈ s.gateForRoot.boot.eth, e.2 = 1 → 1 < e.1) ∧
     (∀ d, d = 16 ∨ d = 17 → bit (s.rd kClkDomains) d = true →
       (s.srcReady 3 = true → bit (s.intLost.rd kClkDomains) d = false) ∧ (s.srcReady 3 = false → s.intLost.gated d = true))) ∧
  ((∀ (s : State) mon ref int root locked, s.powered = true → ∃ t, exec (.clockWindow mon ref int root locked) s = .next t ∧
     (s.srcReady 1 = false → s.time < 80000000 → ∀ n, n < 4 → n ≠ 1 → t.srcReady n = s.srcReady n ∧ t.srcFailed n = s.srcFailed n) ∧
     SameBytes s t) ∧
   (∀ (s : State) n counted, n < 4 →
     (7 ≤ smGet 0 s.clk.good n → (s.judgeSource n true counted).srcReady n = true ∧
       (s.judgeSource n true counted).srcFailed n = false) ∧
     (smGet 0 s.clk.good n < 7 → RegsExcept [] s (s.judgeSource n true counted) ∧
       smGet 0 (s.judgeSource n true counted).clk.good n = smGet 0 s.clk.good n + 1 ∧
       smGet 0 (s.judgeSource n true counted).clk.bad n = 0) ∧
     (smGet 0 s.clk.bad n = 0 → RegsExcept [] s (s.judgeSource n false true) ∧
       smGet 0 (s.judgeSource n false true).clk.good n = 0 ∧ smGet 0 (s.judgeSource n false true).clk.bad n = 1) ∧
     (smGet 0 s.clk.bad n = 1 → s.srcFailed n = false → bit ((s.judgeSource n false true).rd kClkStatus) n = false)) ∧
   (∀ (s : State) int, ∀ t, t = s.trimInt int →
     (12582912 < int * 100 → t.clk.trim ≤ s.clk.trim) ∧ (int * 100 < 12582912 → s.clk.trim ≤ t.clk.trim) ∧
     (int * 100 = 12582912 → t.clk.trim = s.clk.trim) ∧ RegsExcept [] s t ∧ t.out = s.out ∧ SameBytes s t))

/-- A point change moves one valid point towards the target, and a new temperature or power sets its cap (R542, R543,
R545, R548). The load limiter: the estimate keeps R550's bounds, and what is held back and burnt is counted; with CORE
gated the load is that of the blocks that keep running (R17, R536, R550, R551). -/
def Obligations.PointsAndLoads : Prop :=
  (∀ s : State, s.hubOn = true →
     (∀ p g, p = s.rdf kPwrPerf 12 4 → g = s.targetPoint →
       (g = p → exec .pointChange s = .next s) ∧
       (g < p → exec .pointChange s = .next (s.wrf kPwrPerf 12 4 (max g (s.lowerTo (p - 1))))) ∧
       (p < g → exec .pointChange s = .next (s.wrf kPwrPerf 12 4 (s.raiseFrom p (g - p))))) ∧
     (∀ temps, ∃ t, exec (.tempSample temps) s = .next t ∧ SameBytes s t ∧ t.cores = s.cores ∧
       (∀ g, g < 43 → t.rdf (kTemp g) 0 16 = (temps.getD g 0x8000#16).toNat)) ∧
     (∀ mean (mv : BitVec 16) rails, ∃ t, exec (.powerWindow mean mv rails) s = .next t ∧ SameBytes s t ∧
       t.rdf kPwrInput 0 12 = min mean 0xFFF ∧ t.rdf kPwrInput 16 16 = mv.toNat ∧
       (mean > s.rdf kPwrCtrl 0 12 → t.rdf kPwrPerf 8 4 = s.rdf kPwrPerf 8 4 - 1) ∧
       (mean ≤ s.rdf kPwrCtrl 0 12 → s.rdf kPwrCtrl 0 12 ≤ mean + 50 → t.rdf kPwrPerf 8 4 = s.rdf kPwrPerf 8 4))) ∧
  (∀ (s : State) (demand : Nat), s.hubOn = true → ∃ t load, exec (.loadEstimate demand) s = .next t ∧
     t.clk.loads = load :: s.clk.loads.take 9999 ∧
     (s.gated 0 = true → load = demand ∧ t = { s with clk := { s.clk with loads := demand :: s.clk.loads.take 9999 } }) ∧
     (∀ lo hi, s.gated 0 = false → loadBounds s.clk.loads = (lo, hi) → lo ≤ hi → lo ≤ load ∧ load ≤ hi ∧ load ≤ 1900000 ∧
       (lo ≤ demand → demand ≤ hi → s.quiet = true → load = demand)) ∧
     (load < demand → bit (t.rd kPwrSticky) 3 = true) ∧
     RegsExcept [kPwrCount 2, kPwrCount 3, kPwrSticky] s t ∧ SameBytes s t)

/-- BOOT_ROM_DONE measures and loads stage one, or halts, once (R505 to R510, R512). The pod secret is installed or
cleared, an all-zero one clearing (R521), and RNG_FAIL follows the health tests (R504). -/
def Obligations.BootAndSecrets : Prop :=
  (∀ (s : State) (ok : Bool) (copy : Option Bool), s.powered = true →
     (s.boot.rom ≠ .running → exec (.bootRomDone ok copy) s = .next s) ∧
     (s.boot.rom = .running → ok = false → exec (.bootRomDone ok copy) s = .next
       { s with boot := { s.boot with rom := .halted } }) ∧
     (s.boot.rom = .running → ok = true → ∀ u, u = (s.extend 1 s.flash.birthDigest).extend 1
         (Config.shake256 64 (Config.overlayBytes s.repair.overlay)) →
       (copy = none → exec (.bootRomDone ok copy) s = .next { u with boot := { u.boot with rom := .halted } }) ∧
       (∀ b, copy = some b → ∃ t, exec (.bootRomDone ok copy) s = .next t ∧ t.boot.rom = .done ∧
         t.mreg 0 = (u.extend 0 (imgDigest (u.image 1 b))).mreg 0 ∧ t.mreg 1 = u.mreg 1 ∧
         smGet 0 t.boot.versions 1 = imgVersion (u.image 1 b) ∧ (b = true → bit (t.rd 0xC000) 2 = true) ∧
         t.boot.aliasKey = Config.shake256 57 (asciiPad "ZLD-ALIAS" 9 ++ Config.pufSeed ++ t.mreg 0) ∧ SameBytes s t)) ∧
     (∀ i d, i < 8 → (s.extend i d).mreg i = slice (Config.shake256 64 (s.mreg i ++ d)) 0 64 ∧
       (∀ j, j < 8 → j ≠ i → (s.extend i d).mreg j = s.mreg j)) ∧
     (s.hubOn = true → exec .extendGo s = .next (s.extend 7 ((List.range 8).flatMap fun j => leBytes 8 (s.rd (0xC080 + 8 * j)))))) ∧
  (∀ s : State, s.hubOn = true → ∀ b, b = (List.range 4).flatMap (fun j => leBytes 8 (s.rd (0xC010 + 8 * j))) →
     (∃ t, exec .podClear s = .next t ∧ t.boot.podSecret = none ∧ bit (t.rd 0xC000) 1 = false ∧ t.rd kPodKeyId = 0 ∧
       RegsExcept [0xC000, kPodKeyId] s t ∧ SameBytes s t) ∧
     (b.all (· == 0) = true → exec .podInstall s = exec .podClear s) ∧
     (b.all (· == 0) = false → ∃ t, exec .podInstall s = .next t ∧ t.boot.podSecret = some b ∧ bit (t.rd 0xC000) 1 = true ∧
       t.rd kPodKeyId = leAt (Config.shake256 8 (asciiPad "ZLD-PODID" 9 ++ b)) 0 8 ∧ RegsExcept [0xC000, kPodKeyId] s t ∧
       SameBytes s t) ∧
     (∃ t, exec .rngHealthFail s = .next t ∧ t.rngOk = false ∧ RegsExcept [0xC000] s t ∧ SameBytes s t) ∧
     (∃ t, exec .rngHealthRestored s = .next t ∧ t.rngOk = true ∧ RegsExcept [0xC000] s t ∧ SameBytes s t))

/-- The power-up steps: domains, cores, HBM, DIMMs, lamps, the Reeve and the Granary, each when those it needs are
done and once (R20, R335, R369, R508, R576 to R579). The self-tests of cores and spares, and repair requests in the
order of their refusals (R78, R80 to R82, R111). The oldest event reaches the ring, folded into the record before it
or as the record of the next sequence number, or is dropped while FREEZE is 1 (R561 to R565). A monitor channel
captures a sample of its source, saturating, in its bin; the latencies whose ends the model itself sees are captured
there (R569, R570). -/
def Obligations.PowerUpAndRepair : Prop :=
  (∀ s : State, s.powered = true →
     (s.boot.rom = .done → s.pwr.bscan = false → s.started 0 = false → s.srcReady 3 = true → s.clk.rootLate = false →
       exec .domainsUngated s = .next (((s.wr kClkDomains 0).setStarted 0).challengeLamps)) ∧
     (s.boot.rom ≠ .done → exec .domainsUngated s = .next s) ∧
     (∀ hbm, s.started 0 = true → s.started 2 = false → ∀ u, u = (List.range 8).foldl
         (fun s k => s.trainStack k (hbm.getD k ⟨true, none, []⟩)) s →
       exec (.hbmTrained hbm) s = .next ((if u.wasReset then u else u.zero 0x1000000000 0x8000000000).setStarted 2)) ∧
     (∀ hbm, s.started 2 = true → exec (.hbmTrained hbm) s = .next s) ∧
     (∀ dimms, s.started 0 = true → s.started 3 = false → ∃ t, exec (.dimmsTrained dimms) s = .next t ∧ t.started 3 = true ∧
       (s.boot.granKey ≠ [] → t.boot.granKey = s.boot.granKey) ∧
       (s.boot.granKey = [] → t.boot.granKey.length = if s.rngOk then 64 else 0) ∧
       (∀ i, i < 16 → smGet (zeros 32) t.boot.dimms i = dimmRecord (dimms.getD i none)) ∧ RegsExcept [kStartStatus] s t ∧
       SameBytes s t) ∧
     (s.started 3 = true → s.dimmsOk = true → s.boot.granKey ≠ [] → bit (s.rd kGrnCtrl) 4 = false →
       exec .granaryZeroed s = .next (((s.zero 0x40000000000 0x40000000000).wrf kGrnCtrl 4 1 1).setStarted 6)) ∧
     (s.dimmsOk = false ∨ s.boot.granKey = [] → exec .granaryZeroed s = .next s) ∧
     (s.started 0 = true → s.started 5 = false → (∀ k, k < 8 → s.lampSt k ≠ 1) →
       ∀ u, u = (if bit (s.rd 0x8800) 0 then s.lightPairs else s) → exec .lampsLit s = .next
         (({ u with pwr := { u.pwr with lampsDone := true } } : State).setStarted 5)) ∧
     (∀ images optics mgmt, s.hubOn = true → s.boot.rom = .done → s.pwr.bscan = false → s.boot.reeve = false →
       ∀ u, u = (if s.wasReset then s else s.stageOne images) → exec (.reeveStart images optics mgmt) s = .next
         (({ u with boot := { u.boot with reeve := true } } : State).openEth optics mgmt))) ∧
  (∀ s : State,
     (∀ failed, s.powered = true → s.started 0 = true → s.started 1 = false → ∃ t,
       exec (.coreSelftestEnd failed) s = .next t ∧ t.started 1 = true ∧ t.repair.retired = [] ∧
       (∀ x, t.byte x = if x < 0x4B000000 then 0 else s.byte x)) ∧
     (∀ failed g, g < 80 → (∀ i, i < 16 → bit (s.clusterMask g) i = true → failed.contains (16 * g + i) = false) →
       s.repairCluster failed g = s.setAbsent g 0) ∧
     (∀ failed g i, g < 80 → i < 16 → (∀ j, j < 16 → (bit (s.clusterMask g) j && failed.contains (16 * g + j)) = decide (j = i)) →
       failed.contains (16 * g + s.spareSlot g) = false →
       s.repairCluster failed g = ((((s.overlaySlot g i).setMask g (0xFFFF - 2 ^ i)).raise 0x0501 1 (g / 20) (16 * g + i)).setAbsent g 0)) ∧
     (∀ failed, s.started 1 = true → exec (.coreSelftestEnd failed) s = .next s) ∧
     (s.hubOn = true →
       (∀ phys : BitVec 11, ∃ t, exec (.spareSelftestStart phys) s = .next t ∧ RegsExcept [0x6200] s t ∧ SameBytes s t ∧
         t.rdf 0x6200 0 11 = phys.toNat ∧
         (phys.toNat < 1280 → s.enabledPhys phys.toNat = false → s.isIdle = true → t.repair.testing = some phys.toNat ∧
           bit (t.rd 0x6200) 17 = true)) ∧
       (∀ pass, s.repair.testing = none → exec (.spareSelftestEnd pass) s = .next s) ∧
       (∀ pass p, s.repair.testing = some p → ∃ t, exec (.spareSelftestEnd pass) s = .next t ∧ t.repair.testing = none ∧
         bit (t.rd 0x6200) 17 = false ∧ bit (t.rd 0x6200) 18 = pass ∧ (t.repair.badSpares.contains p = !pass) ∧
         RegsExcept [0x6200] s t ∧ SameBytes s t) ∧
       (∀ phys : BitVec 11, ∃ t, exec (.repairRequestCommit phys) s = .next t ∧ RegsExcept [0x6208] s t ∧ SameBytes s t ∧
         (s.isIdle = false → t.rdf 0x6208 16 8 = 3 ∧ t.repair = s.repair) ∧
         (s.isIdle = true → s.enabledPhys phys.toNat = false → t.rdf 0x6208 16 8 = 4 ∧ t.repair = s.repair) ∧
         (t.rdf 0x6208 16 8 = 1 → t.repair.retired = s.repair.retired ++ [phys.toNat])))) ∧
  (∀ s : State,
     (s.erec.queue = [] → exec .eventReached s = .next s) ∧
     (∀ e q, s.hubOn = true → s.erec.queue = e :: q → ∀ u : State, u = { s with erec := { s.erec with queue := q } } →
       (bit (s.rd kRecCtrl) 16 = false → exec .eventReached s = .next (u.record e)) ∧
       (bit (s.rd kRecCtrl) 16 = true → ∃ t, exec .eventReached s = .next t ∧
         t.rd kRecDropped = min (s.rd kRecDropped + 1) (2 ^ 64 - 1) ∧ bit (t.rd kRecSticky) 0 = true ∧
         RegsExcept [kRecDropped, kRecSticky] s t ∧ SameBytes s t)) ∧
     (∀ e, s.erec.last = none → ∀ t, t = s.record e →
       t.rd kRecHead = (s.rd kRecHead + 1) % 2 ^ 32 ∧
       t.ringSlot (s.rd kRecHead % 4096) = recordBytes (s.rd kRecHead) e.time (e.cls * 4096 + e.inst) e.code 0
         (severityOf e.code + 8 * b2n e.lost) e.arg ∧
       t.erec.last = some (e.cls * 4096 + e.inst, e.code, e.time) ∧
       (∀ k, k < 4096 → k ≠ s.rd kRecHead % 4096 → t.ringSlot k = s.ringSlot k))) ∧
  (∀ s : State, s.hubOn = true →
     (∀ (ch : Fin 32) (lat : Int), ∀ src, src = s.rdf (kHist ch 0) 0 16 →
       (src = 0 ∨ src = 1 ∨ (4 ≤ src ∧ src ≤ 8) ∨ bit (s.rd (kHist ch 0)) 32 = false → exec (.monitorSample ch lat) s = .next s) ∧
       (src ≠ 0 → src ≠ 1 → ¬(4 ≤ src ∧ src ≤ 8) → bit (s.rd (kHist ch 0)) 32 = true → src < 0x10 → exec (.monitorSample ch lat) s = .next (s.capture ch lat)) ∧
       (bit (s.rd (kHist ch 0)) 32 = true → 0x10 ≤ src →
         (∀ v, s.levelOf src (s.rdf (kHist ch 0) 16 16) = some v → exec (.monitorSample ch lat) s = .next (s.capture ch v)) ∧
         (s.levelOf src (s.rdf (kHist ch 0) 16 16) = none → exec (.monitorSample ch lat) s = .next s))) ∧
     (∀ src inst v, (∀ n, n < 32 → ¬(s.rdf (kHist n 0) 0 16 = src ∧ s.rdf (kHist n 0) 16 16 = inst ∧ bit (s.rd (kHist n 0)) 32 = true)) →
       s.sample src inst v = s) ∧
     (∀ n v, n < 32 → -2147483648 ≤ v → v ≤ 2147483647 → ∀ b, b = monBin (bit (s.rdf (kHist n 0) 32 8) 1) (s.rdf (kHist n 0) 40 8)
         (sext (s.rd (kHist n 8)) 64) (s.rd (kHist n 16)) v → b ≤ 31 ∧ ∀ t, t = s.capture n v →
       t.rd (kHist n 0x20) = min (s.rd (kHist n 0x20) + 1) (2 ^ 64 - 1) ∧
       t.rd (kHist n (0x40 + 4 * b)) = min (s.rd (kHist n (0x40 + 4 * b)) + 1) (2 ^ 32 - 1) ∧
       RegsExcept [kHist n 0x20, kHist n 0x28, kHist n 0x30, kHist n (0x40 + 4 * b)] s t ∧ SameBytes s t))
end

