-- ==== Sys2Proof/Laws/Keeps.lean ====
section
/-!
SUPPORT. Laws/Keeps.lean: what any function of the model can do to the state, said once. A property that is closed under
the few operations that write memory, registers and the list of messages, and under changes of every other field but the
queue and the parts of module flash that stay, is kept by every function (Laws/Keeps*.lean) and so by every command.
-/
namespace Sys2Proof.Machine

open Sys2Proof

/-- The parts of module flash that no function but the opening of a session writes. -/
abbrev Flash.fixed (f : Flash) : List Byte × List Byte × List Byte × SMap W32 × SMap W32 × SMap (List Byte) ×
    Option (List Byte × Nat) :=
  (f.serial, f.cert, f.birthDigest, f.train, f.curves, f.macs, f.owner)

/-- s with everything changed but the queue, the registers, memory and the messages sent. -/
def State.rest (s : State) (posted : List (Nat × Nat)) (ue : SMap Bool) (pwr : PowerState) (seq : SeqState)
    (tseq : SMap TileSeq) (cores : SMap CoreState) (repair : RepairState) (qz : SMap QzState) (qzm : QzModule)
    (upd : SMap UeState) (gran : SMap GranState) (emb : SMap EmbState) (embm : EmbModule) (inbox : List InMsg)
    (arb : SMap Arb) (net : NetState) (lamps : SMap LampState) (flash : Flash) (lay : LayoutState)
    (col : SMap (List ColJob)) (boot : BootState) (clk : ClkState) (hcp : HcpState) (feed : FeedState) (erec : RecState)
    (wall offAt free : Nat) : State :=
  ⟨s.pending, s.csr, s.mem, posted, ue, pwr, seq, tseq, cores, repair, qz, qzm, upd, gran, emb, embm, inbox, arb, net,
    lamps, flash, lay, col, boot, clk, hcp, feed, erec, wall, offAt, free, s.out⟩

/-- A record update of other fields, as State.rest. -/
theorem State.mk_rest (s : State) {posted ue pwr seq tseq cores repair qz qzm upd gran emb embm inbox arb net lamps flash
    lay col boot clk hcp feed erec wall offAt free} :
    State.mk s.pending s.csr s.mem posted ue pwr seq tseq cores repair qz qzm upd gran emb embm inbox arb net lamps flash
      lay col boot clk hcp feed erec wall offAt free s.out =
    s.rest posted ue pwr seq tseq cores repair qz qzm upd gran emb embm inbox arb net lamps flash lay col boot clk hcp feed
      erec wall offAt free := rfl

/-- P is kept by everything a function of the model does to the state. -/
structure Closed (P : State → Prop) : Prop where
  rest : ∀ {s : State} {posted ue pwr seq tseq cores repair qz qzm upd gran emb embm inbox arb net lamps flash lay col boot
    clk hcp feed erec wall offAt free}, P s → Flash.fixed flash = Flash.fixed s.flash →
    P (s.rest posted ue pwr seq tseq cores repair qz qzm upd gran emb embm inbox arb net lamps flash lay col boot clk hcp
      feed erec wall offAt free)
  wr : ∀ {s : State} {k v : Nat}, P s → P (s.wr k v)
  resetRegs : ∀ {s : State} {p : Nat → Bool}, P s → P (s.resetRegs p)
  poke : ∀ {s : State} {a : Nat} {bs : List Byte}, P s → P (s.poke a bs)
  zero : ∀ {s : State} {a n : Nat}, P s → P (s.zero a n)
  emit : ∀ {s : State} {o : Out}, P s → P (s.emit o)
  powerOn : ∀ {s : State}, P s → P s.powerOn

/-- P does not speak of the owner record, which the opening of a session writes. -/
structure OwnerFree (P : State → Prop) : Prop where
  setOwner : ∀ {s : State} {o : Option (List Byte × Nat)}, P s → P (s.setOwner o)

/-- P holds of the next state, if there is one. -/
def AllNext (P : State → Prop) (r : Host.Outcome State Fault Refusal) : Prop := ∀ t, r = .next t → P t

theorem AllNext.next {P : State → Prop} {t : State} (h : P t) : AllNext P (.next t) := by
  intro u hu
  cases hu
  exact h

/-- P holds of the state in an operation's result, if there is one. -/
def VeKeeps (P : State → Prop) : VeRes → Prop
  | .next s | .jump s _ | .fault _ _ s => P s
  | .wait _ | .halt => True

variable {P : State → Prop}

theorem VeKeeps.next {s : State} (h : P s) : VeKeeps P (.next s) := h
theorem VeKeeps.jump {s : State} {t : Int} (h : P s) : VeKeeps P (.jump s t) := h
theorem VeKeeps.fault {s : State} {b : Nat} {ue : Bool} (h : P s) : VeKeeps P (.fault b ue s) := h
theorem VeKeeps.wait {k : VeWait} : VeKeeps P (.wait k) := trivial
theorem VeKeeps.halt : VeKeeps P .halt := trivial

/-- P holds of the state, if there is one. -/
def SomeKeeps (P : State → Prop) (r : Option State) : Prop := ∀ t, r = some t → P t
def SomeKeeps2 {α : Type} (P : State → Prop) (r : Option (α × State)) : Prop := ∀ a t, r = some (a, t) → P t

theorem keeps_eq2 {α : Type} {r : α × State} {a : α} {t : State} (e : r = (a, t)) (h : P r.2) : P t := by
  rw [e] at h
  exact h

def SomeKeeps3 {α β : Type} (P : State → Prop) (r : Option (α × β × State)) : Prop :=
  ∀ a b t, r = some (a, b, t) → P t

theorem SomeKeeps.none : SomeKeeps P none := fun _ e => (Option.some_ne_none _ e.symm).elim
theorem SomeKeeps.some {s : State} (h : P s) : SomeKeeps P (some s) := fun _ e => Option.some.inj e ▸ h
theorem SomeKeeps2.none {α : Type} : SomeKeeps2 (α := α) P none := fun _ _ e =>
  (Option.some_ne_none _ e.symm).elim
theorem SomeKeeps2.some {α : Type} {a : α} {s : State} (h : P s) : SomeKeeps2 P (some (a, s)) := fun _ _ e =>
  (Prod.mk.inj (Option.some.inj e)).2 ▸ h

theorem SomeKeeps3.none {α β : Type} : SomeKeeps3 (α := α) (β := β) P none := fun _ _ _ e =>
  (Option.some_ne_none _ e.symm).elim
theorem SomeKeeps3.some {α β : Type} {r : α × β × State} (h : P r.2.2) : SomeKeeps3 P (some r) := fun _ _ _ e => by
  rw [Option.some.inj e] at h
  exact h

theorem SomeKeeps3.map {α β : Type} {o : Option State} {f : State → α × β × State} (hf : ∀ t, P t → P (f t).2.2)
    (h : SomeKeeps P o) : SomeKeeps3 P (o.map f) := by
  intro a b t e
  obtain ⟨m, hm, hf'⟩ := Option.map_eq_some_iff.1 e
  have hp := hf m (h m hm)
  rw [hf'] at hp
  exact hp

theorem SomeKeeps2.map {α β : Type} {o : Option β} {f : β → α × State} (hf : ∀ m, P (f m).2) :
    SomeKeeps2 P (o.map f) := by
  intro a t e
  obtain ⟨m, -, hm⟩ := Option.map_eq_some_iff.1 e
  exact keeps_eq2 hm (hf m)

theorem keeps_some {o : Option State} {t : State} (h : SomeKeeps P o) (e : o = some t) : P t := h t e
theorem keeps_some2 {α : Type} {o : Option (α × State)} {a : α} {t : State} (h : SomeKeeps2 P o) (e : o = some (a, t)) :
    P t := h a t e

theorem keeps_some3 {α β : Type} {o : Option (α × β × State)} {a : α} {b : β} {t : State} (h : SomeKeeps3 P o)
    (e : o = some (a, b, t)) : P t := h a b t e

theorem keeps_eq3 {α β : Type} {r : α × β × State} {a : α} {b : β} {t : State} (e : r = (a, b, t)) (h : P r.2.2) : P t := by
  rw [e] at h
  exact h

theorem keeps_eq4 {α β γ : Type} {r : α × β × γ × State} {a : α} {b : β} {c : γ} {t : State} (e : r = (a, b, c, t))
    (h : P r.2.2.2) : P t := by
  rw [e] at h
  exact h

theorem ite_keeps {c : Prop} [Decidable c] {x y : State} (hx : P x) (hy : P y) : P (if c then x else y) := by
  by_cases h : c
  · rw [if_pos h]
    exact hx
  · rw [if_neg h]
    exact hy

theorem ite_keeps2 {α : Type} {c : Prop} [Decidable c] {x y : α × State} (hx : P x.2) (hy : P y.2) :
    P (if c then x else y).2 := by
  by_cases h : c
  · rw [if_pos h]
    exact hx
  · rw [if_neg h]
    exact hy

theorem foldl_keeps {α : Type} {f : State → α → State} {l : List α} (hf : ∀ s x, P s → P (f s x)) :
    ∀ {s : State}, P s → P (l.foldl f s) := by
  induction l with
  | nil => exact fun h => h
  | cons x l ih => exact fun h => ih (hf _ _ h)

theorem foldl_keeps2 {α β : Type} {f : β × State → α → β × State} {l : List α} (hf : ∀ r x, P r.2 → P (f r x).2) :
    ∀ {r : β × State}, P r.2 → P (l.foldl f r).2 := by
  induction l with
  | nil => exact fun h => h
  | cons x l ih => exact fun h => ih (hf _ _ h)

end Sys2Proof.Machine
end

