-- ==== Sys2Proof/Laws/KeepsOps.lean ====
section
/-!
SUPPORT. Laws/KeepsOps.lean: every function of Machine/Ops.lean keeps a closed property (Laws/Keeps.lean).
-/
set_option linter.unusedVariables false
set_option linter.tactic.unusedName false

namespace Sys2Proof.Machine

open Sys2Proof

variable {P : State → Prop}

theorem State.wrf_keeps (hP : Closed P) {s : State} {key : Nat} {lo : Nat} {w : Nat} {x : Nat} (h : P s) : P
    (State.wrf s key lo w x) := by
  unfold State.wrf
  repeat' first
    | with_reducible assumption | with_reducible refine hP.wr ?_ | dsimp -zeta only

theorem State.orBits_keeps (hP : Closed P) {s : State} {key : Nat} {mask : Nat} (h : P s) : P (State.orBits s key
    mask) := by
  unfold State.orBits
  repeat' first
    | with_reducible assumption | with_reducible refine hP.wr ?_ | dsimp -zeta only

theorem State.bumpW_keeps (hP : Closed P) {s : State} {w : Nat} {key : Nat} {n : Nat} (h : P s) : P (State.bumpW s w
    key n) := by
  unfold State.bumpW
  repeat' first
    | with_reducible assumption | with_reducible refine hP.wr ?_ | dsimp -zeta only

theorem State.bump_keeps (hP : Closed P) {s : State} {key : Nat} {n : Nat} (h : P s) : P (State.bump s key n) := by
  unfold State.bump
  repeat' first
    | with_reducible assumption | with_reducible refine State.bumpW_keeps hP ?_ | dsimp -zeta only

theorem State.setCore_keeps (hP : Closed P) {s : State} {c : Nat} {x : CoreState} (h : P s) : P (State.setCore s c x)
    := by
  unfold State.setCore
  repeat' first
    | with_reducible assumption | exact rfl | (rw [State.mk_rest]; with_reducible refine hP.rest ?_ ?_)
    | dsimp -zeta only

theorem State.setMe_keeps (hP : Closed P) {s : State} {c : Nat} {x : MeState} (h : P s) : P (State.setMe s c x) := by
  unfold State.setMe
  repeat' first
    | with_reducible assumption | with_reducible refine State.setCore_keeps hP ?_
    | (extract_lets +onlyGivenNames x; try clear_value x) | dsimp -zeta only

theorem State.setVe_keeps (hP : Closed P) {s : State} {c : Nat} {x : VeState} (h : P s) : P (State.setVe s c x) := by
  unfold State.setVe
  repeat' first
    | with_reducible assumption | with_reducible refine State.setCore_keeps hP ?_
    | (extract_lets +onlyGivenNames x; try clear_value x) | dsimp -zeta only

theorem State.setTile_keeps (hP : Closed P) {s : State} {t : Nat} {x : TileSeq} (h : P s) : P (State.setTile s t x) :=
    by
  unfold State.setTile
  repeat' first
    | with_reducible assumption | exact rfl | (rw [State.mk_rest]; with_reducible refine hP.rest ?_ ?_)
    | dsimp -zeta only

theorem State.freeNat_keeps (hP : Closed P) {s : State} (h : P s) : P (State.freeNat s).2 := by
  unfold State.freeNat
  repeat' first
    | with_reducible assumption | exact rfl | (rw [State.mk_rest]; with_reducible refine hP.rest ?_ ?_)
    | dsimp -zeta only

theorem State.takeFree_keeps (hP : Closed P) {s : State} {n : Nat} (h : P s) : P (State.takeFree s n).2 := by
  unfold State.takeFree
  repeat' first
    | with_reducible assumption | exact rfl | (rw [State.mk_rest]; with_reducible refine hP.rest ?_ ?_)
    | dsimp -zeta only

theorem State.raise_keeps (hP : Closed P) {s : State} {code : Nat} {cls : Nat} {inst : Nat} {arg : Nat} (h : P s) : P
    (State.raise s code cls inst arg) := by
  unfold State.raise
  repeat' first
    | with_reducible assumption | exact rfl | with_reducible refine State.orBits_keeps hP ?_
    | with_reducible refine State.bump_keeps hP ?_ | (rw [State.mk_rest]; with_reducible refine hP.rest ?_ ?_)
    | (extract_lets +onlyGivenNames x; first | (refine (?_ : P x → _) ?_; rotate_left; unfold x; rotate_left; clear_value x; intro) | try clear_value x)
    | split | dsimp -zeta only

theorem State.noteUe_keeps (hP : Closed P) {s : State} {a : Nat} (h : P s) : P (State.noteUe s a) := by
  unfold State.noteUe
  repeat' first
    | with_reducible assumption | with_reducible refine hP.wr ?_ | with_reducible refine State.raise_keeps hP ?_
    | with_reducible refine State.bump_keeps hP ?_ | (extract_lets +onlyGivenNames x; try clear_value x) | split
    | dsimp -zeta only

theorem State.healLine_keeps (hP : Closed P) {s : State} {a : Nat} (h : P s) : P (State.healLine s a) := by
  unfold State.healLine
  repeat' first
    | with_reducible assumption | exact rfl | (rw [State.mk_rest]; with_reducible refine hP.rest ?_ ?_)
    | dsimp -zeta only

theorem State.repaired_keeps (hP : Closed P) {s : State} {a : Nat} (h : P s) : P (State.repaired s a) := by
  unfold State.repaired
  repeat' first
    | with_reducible assumption | with_reducible refine State.raise_keeps hP ?_
    | with_reducible refine State.bump_keeps hP ?_ | dsimp -zeta only

theorem State.rebuilt_keeps (hP : Closed P) {s : State} {a : Nat} (h : P s) : P (State.rebuilt s a).2 := by
  unfold State.rebuilt
  repeat' first
    | with_reducible assumption | with_reducible refine State.noteUe_keeps hP ?_
    | with_reducible refine State.freeNat_keeps hP ?_ | with_reducible refine State.repaired_keeps hP ?_
    | with_reducible refine State.healLine_keeps hP ?_ | with_reducible refine State.orBits_keeps hP ?_
    | with_reducible refine keeps_eq2 (by assumption) ?_
    | (extract_lets +onlyGivenNames x; first | (refine (?_ : P x → _) ?_; rotate_left; unfold x; rotate_left; clear_value x; intro) | try clear_value x)
    | split | dsimp -zeta only

theorem State.readGo_keeps (hP : Closed P) {s : State} {a : Nat} {n : Nat} {y4 : Nat} (h : P s) : P (State.readGo s a
    n y4).2.2 := by
  induction y4 generalizing s a n with
  | zero => exact h
  | succ n ih =>
    unfold State.readGo
    repeat' first
      | with_reducible assumption | with_reducible refine State.rebuilt_keeps hP ?_
      | with_reducible refine keeps_eq2 (by assumption) ?_ | with_reducible refine keeps_eq3 (by assumption) ?_
      | with_reducible apply ih | split | dsimp -zeta only

theorem State.memRead_keeps (hP : Closed P) {s : State} {a : Nat} {n : Nat} (h : P s) : P (State.memRead s a n).2.2 :=
    by
  unfold State.memRead
  repeat' first
    | with_reducible assumption | with_reducible refine State.readGo_keeps hP ?_
    | with_reducible refine keeps_eq3 (by assumption) ?_ | split | dsimp -zeta only

theorem State.parityXor_keeps (hP : Closed P) {s : State} {a : Nat} {x : List Byte} (h : P s) : P (State.parityXor s a
    x) := by
  unfold State.parityXor
  repeat' first
    | with_reducible assumption | with_reducible refine hP.emit ?_
    | (extract_lets +onlyGivenNames x; try clear_value x) | split | dsimp -zeta only

theorem State.parityDelta_keeps (hP : Closed P) {s : State} {a : Nat} {bs : List Byte} (h : P s) : P
    (State.parityDelta s a bs) := by
  unfold State.parityDelta
  repeat' first
    | with_reducible assumption | with_reducible refine State.parityXor_keeps hP ?_ | dsimp -zeta only

theorem State.parityXors_keeps (hP : Closed P) {s : State} {a : Nat} {x : List Byte} {y4 : Nat} (h : P s) : P
    (State.parityXors s a x y4) := by
  induction y4 generalizing s a x with
  | zero => exact h
  | succ n ih =>
    unfold State.parityXors
    repeat' first
      | with_reducible assumption | with_reducible refine State.parityXor_keeps hP ?_ | with_reducible apply ih
      | (extract_lets +onlyGivenNames x; try clear_value x) | split | dsimp -zeta only

theorem State.parityCatchUp_keeps (hP : Closed P) {s : State} {a : Nat} {old : List Byte} (h : P s) : P
    (State.parityCatchUp s a old) := by
  unfold State.parityCatchUp
  repeat' first
    | with_reducible assumption | with_reducible refine State.parityXors_keeps hP ?_ | dsimp -zeta only

theorem State.storeUnits_keeps (hP : Closed P) {s : State} {a : Nat} {bs : List Byte} {y4 : Nat} (h : P s) : P
    (State.storeUnits s a bs y4) := by
  induction y4 generalizing s a bs with
  | zero => exact h
  | succ n ih =>
    unfold State.storeUnits
    repeat' first
      | with_reducible assumption | with_reducible refine hP.poke ?_
      | with_reducible refine State.parityDelta_keeps hP ?_ | with_reducible apply ih
      | (extract_lets +onlyGivenNames x; try clear_value x) | split | dsimp -zeta only

theorem State.post_keeps (hP : Closed P) {s : State} {a : Nat} {n : Nat} (h : P s) : P (State.post s a n) := by
  unfold State.post
  repeat' first
    | with_reducible assumption | exact rfl | (rw [State.mk_rest]; with_reducible refine hP.rest ?_ ?_) | split
    | dsimp -zeta only

theorem State.store_keeps (hP : Closed P) {s : State} {a : Nat} {bs : List Byte} (h : P s) : P (State.store s a bs) :=
    by
  unfold State.store
  repeat' first
    | with_reducible assumption | with_reducible refine State.post_keeps hP ?_
    | with_reducible refine State.storeUnits_keeps hP ?_ | dsimp -zeta only

theorem State.memWriteBare_keeps (hP : Closed P) {s : State} {a : Nat} {bs : List Byte} (h : P s) : P
    (State.memWriteBare s a bs).2 := by
  unfold State.memWriteBare
  repeat' first
    | with_reducible assumption | with_reducible refine hP.poke ?_ | with_reducible refine State.post_keeps hP ?_
    | split | dsimp -zeta only

theorem State.memWrite_keeps (hP : Closed P) {s : State} {own : Bool} {a : Nat} {bs : List Byte} (h : P s) : P
    (State.memWrite s own a bs).2 := by
  unfold State.memWrite
  repeat' first
    | with_reducible assumption | with_reducible refine State.orBits_keeps hP ?_
    | with_reducible refine State.store_keeps hP ?_ | split | dsimp -zeta only

theorem State.gRead_keeps (hP : Closed P) {s : State} {g : Nat} {n : Nat} (h : P s) : P (State.gRead s g n).2.2 := by
  unfold State.gRead
  repeat' first
    | with_reducible assumption | exact rfl | with_reducible refine State.memRead_keeps hP ?_
    | (rw [State.mk_rest]; with_reducible refine hP.rest ?_ ?_) | with_reducible refine keeps_eq3 (by assumption) ?_
    | (extract_lets +onlyGivenNames x; try clear_value x) | split | dsimp -zeta only

theorem State.gWrite_keeps (hP : Closed P) {s : State} {own : Bool} {g : Nat} {bs : List Byte} (h : P s) : P
    (State.gWrite s own g bs).2 := by
  unfold State.gWrite
  repeat' first
    | with_reducible assumption | exact rfl | with_reducible refine hP.emit ?_
    | with_reducible refine State.memWrite_keeps hP ?_ | (rw [State.mk_rest]; with_reducible refine hP.rest ?_ ?_)
    | with_reducible refine keeps_eq2 (by assumption) ?_ | split | dsimp -zeta only

theorem State.unpost_keeps (hP : Closed P) {s : State} {a : Nat} {n : Nat} (h : P s) : P (State.unpost s a n) := by
  unfold State.unpost
  repeat' first
    | with_reducible assumption | exact rfl | (rw [State.mk_rest]; with_reducible refine hP.rest ?_ ?_) | split
    | dsimp -zeta only

theorem State.put_keeps (hP : Closed P) {s : State} {a : Nat} {bs : List Byte} (h : P s) : P (State.put s a bs) := by
  unfold State.put
  repeat' first
    | with_reducible assumption | with_reducible refine State.unpost_keeps hP ?_
    | with_reducible refine State.storeUnits_keeps hP ?_ | dsimp -zeta only

theorem State.clear_keeps (hP : Closed P) {s : State} {a : Nat} {n : Nat} (h : P s) : P (State.clear s a n) := by
  unfold State.clear
  repeat' first
    | with_reducible assumption | with_reducible refine hP.zero ?_
    | with_reducible refine State.parityXors_keeps hP ?_ | with_reducible refine State.unpost_keeps hP ?_
    | (extract_lets +onlyGivenNames x; first | (refine (?_ : P x → _) ?_; rotate_left; unfold x; rotate_left; clear_value x; intro) | try clear_value x)
    | split | dsimp -zeta only

theorem State.undef_keeps (hP : Closed P) {s : State} {a : Nat} {n : Nat} (h : P s) : P (State.undef s a n) := by
  unfold State.undef
  repeat' first
    | with_reducible assumption | with_reducible refine hP.poke ?_ | with_reducible refine State.takeFree_keeps hP ?_
    | with_reducible refine keeps_eq2 (by assumption) ?_ | split | dsimp -zeta only

theorem State.undefStore_keeps (hP : Closed P) {s : State} {a : Nat} {n : Nat} (h : P s) : P (State.undefStore s a n)
    := by
  unfold State.undefStore
  repeat' first
    | with_reducible assumption | with_reducible refine State.takeFree_keeps hP ?_
    | with_reducible refine State.storeUnits_keeps hP ?_ | with_reducible refine keeps_eq2 (by assumption) ?_ | split
    | dsimp -zeta only

theorem State.countStep_keeps (hP : Closed P) {s : State} {t : Nat} {ovf : Nat} {inv : Nat} (h : P s) : P
    (State.countStep s t ovf inv) := by
  unfold State.countStep
  repeat' first
    | with_reducible assumption | with_reducible refine hP.wr ?_ | (extract_lets +onlyGivenNames x; try clear_value x)
    | split | dsimp -zeta only

theorem State.no_keeps (hP : Closed P) {s : State} {status : Nat} (h : P s) : P (State.no s status).2.2 := by
  unfold State.no
  repeat' first
    | with_reducible assumption | dsimp -zeta only

theorem State.yes_keeps (hP : Closed P) {s : State} (h : P s) : P (State.yes s).2.2 := by
  unfold State.yes
  repeat' first
    | with_reducible assumption | dsimp -zeta only

end Sys2Proof.Machine
end

