-- ==== Sys2Proof/Laws/KeepsArbiter.lean ====
section
/-!
SUPPORT. Laws/KeepsArbiter.lean: every function of Machine/Arbiter.lean keeps a closed property (Laws/Keeps.lean).
-/
set_option linter.unusedVariables false
set_option linter.tactic.unusedName false

namespace Sys2Proof.Machine

open Sys2Proof

variable {P : State → Prop}

theorem State.setArb_keeps (hP : Closed P) {s : State} {k : Nat} {a : Arb} (h : P s) : P (State.setArb s k a) := by
  unfold State.setArb
  repeat' first
    | with_reducible assumption | exact rfl | (rw [State.mk_rest]; with_reducible refine hP.rest ?_ ?_)
    | dsimp -zeta only

end Sys2Proof.Machine
end

