-- ==== Sys2Proof/Laws/KeepsJournal.lean ====
section
/-!
SUPPORT. Laws/KeepsJournal.lean: every function of Machine/Journal.lean keeps a closed property (Laws/Keeps.lean).
-/
set_option linter.unusedVariables false
set_option linter.tactic.unusedName false

namespace Sys2Proof.Machine

open Sys2Proof

variable {P : State → Prop}

theorem State.setGrn_keeps (hP : Closed P) {s : State} {t : Nat} {x : GranState} (h : P s) : P (State.setGrn s t x) :=
    by
  unfold State.setGrn
  repeat' first
    | with_reducible assumption | exact rfl | (rw [State.mk_rest]; with_reducible refine hP.rest ?_ ?_)
    | dsimp -zeta only

theorem State.filterSet_keeps (hP : Closed P) {s : State} {t : Nat} {k : Nat} {table : Nat} {r : Nat} (h : P s) : P
    (State.filterSet s t k table r) := by
  unfold State.filterSet
  repeat' first
    | with_reducible assumption | with_reducible refine State.put_keeps hP ?_ | split | dsimp -zeta only

theorem State.journalAdd_keeps (hP : Closed P) {s : State} {t : Nat} {table : Nat} {r : Nat} {acc : Option W32} {delta
    : List W32} (h : P s) : SomeKeeps P (State.journalAdd s t table r acc delta) := by
  unfold State.journalAdd
  repeat' first
    | with_reducible assumption | with_reducible exact SomeKeeps.none | with_reducible refine SomeKeeps.some ?_
    | with_reducible refine State.put_keeps hP ?_ | with_reducible refine State.filterSet_keeps hP ?_
    | with_reducible refine State.bump_keeps hP ?_ | with_reducible refine State.setGrn_keeps hP ?_
    | (extract_lets +onlyGivenNames x; first | (refine (?_ : P x → _) ?_; rotate_left; unfold x; rotate_left; clear_value x; intro) | try clear_value x)
    | split | dsimp -zeta only

theorem State.clearArea_keeps (hP : Closed P) {s : State} {t : Nat} {k : Nat} (h : P s) : P (State.clearArea s t k) :=
    by
  unfold State.clearArea
  repeat' first
    | with_reducible assumption | with_reducible refine State.clear_keeps hP ?_ | split | dsimp -zeta only

theorem State.openSegment_keeps (hP : Closed P) {s : State} {t : Nat} (h : P s) : P (State.openSegment s t) := by
  unfold State.openSegment
  repeat' first
    | with_reducible assumption | with_reducible refine State.setGrn_keeps hP ?_
    | (extract_lets +onlyGivenNames x; try clear_value x) | dsimp -zeta only

theorem State.sealSegment_keeps (hP : Closed P) {s : State} {t : Nat} (h : P s) : P (State.sealSegment s t) := by
  unfold State.sealSegment
  repeat' first
    | with_reducible assumption | with_reducible refine State.setGrn_keeps hP ?_
    | (extract_lets +onlyGivenNames x; try clear_value x) | split | dsimp -zeta only

theorem State.dropBuilding_keeps (hP : Closed P) {s : State} {t : Nat} (h : P s) : P (State.dropBuilding s t) := by
  unfold State.dropBuilding
  repeat' first
    | with_reducible assumption | with_reducible refine State.setGrn_keeps hP ?_
    | with_reducible refine State.bump_keeps hP ?_ | with_reducible refine State.clearArea_keeps hP ?_
    | (extract_lets +onlyGivenNames x; try clear_value x) | split | dsimp -zeta only

theorem State.stageRow_keeps (hP : Closed P) {s : State} {t : Nat} {zh : Nat} {table : Nat} {r : Nat} {bs : List Byte}
    (h : P s) : P (State.stageRow s t zh table r bs) := by
  unfold State.stageRow
  repeat' first
    | with_reducible assumption | with_reducible refine State.bump_keeps hP ?_
    | with_reducible refine State.put_keeps hP ?_ | with_reducible refine State.setGrn_keeps hP ?_
    | (extract_lets +onlyGivenNames x; first | (refine (?_ : P x → _) ?_; rotate_left; unfold x; rotate_left; clear_value x; intro) | try clear_value x)
    | split | dsimp -zeta only

theorem State.stageEmpty_keeps (hP : Closed P) {s : State} {t : Nat} {zh : Nat} (h : P s) : P (State.stageEmpty s t
    zh) := by
  unfold State.stageEmpty
  repeat' first
    | with_reducible assumption | with_reducible refine State.clear_keeps hP ?_
    | with_reducible refine State.setGrn_keeps hP ?_
    | (extract_lets +onlyGivenNames x; first | (refine (?_ : P x → _) ?_; rotate_left; unfold x; rotate_left; clear_value x; intro) | try clear_value x)
    | split | dsimp -zeta only

end Sys2Proof.Machine
end

