-- ==== Sys2Proof/Laws/KeepsFault.lean ====
section
/-!
SUPPORT. Laws/KeepsFault.lean: every function of Machine/Fault.lean keeps a closed property (Laws/Keeps.lean).
-/
set_option linter.unusedVariables false
set_option linter.tactic.unusedName false

namespace Sys2Proof.Machine

open Sys2Proof

variable {P : State → Prop}

theorem State.eachTile_keeps {s : State} {f : State → Nat → State} (hf : ∀ s t, P s → P (f s t)) (h : P s) :
    P (s.eachTile f) := hf _ _ (hf _ _ (hf _ _ (hf _ _ h)))

theorem State.endStep_keeps (hP : Closed P) {s : State} {c : Cause} {notice : Bool} (h : P s) : P (State.endStep s c
    notice) := by
  unfold State.endStep
  repeat' first
    | with_reducible assumption | exact rfl | with_reducible refine hP.emit ?_
    | with_reducible refine State.raise_keeps hP ?_ | with_reducible refine State.eachTile_keeps (fun _ _ _ => ?_) ?_
    | with_reducible refine State.stageEmpty_keeps hP ?_ | with_reducible refine State.dropBuilding_keeps hP ?_
    | (rw [State.mk_rest]; with_reducible refine hP.rest ?_ ?_)
    | (extract_lets +onlyGivenNames x; first | (refine (?_ : P x → _) ?_; rotate_left; unfold x; rotate_left; clear_value x; intro) | try clear_value x)
    | split | intro _ | dsimp -zeta only

theorem State.endFaulted_keeps (hP : Closed P) {s : State} {c : Cause} (h : P s) : P (State.endFaulted s c) := by
  unfold State.endFaulted
  repeat' first
    | with_reducible assumption | with_reducible refine State.endStep_keeps hP ?_ | dsimp -zeta only

theorem State.noteCause_keeps (hP : Closed P) {s : State} {c : Cause} (h : P s) : P (State.noteCause s c) := by
  unfold State.noteCause
  repeat' first
    | with_reducible assumption | exact rfl | with_reducible refine State.orBits_keeps hP ?_
    | (rw [State.mk_rest]; with_reducible refine hP.rest ?_ ?_)
    | (extract_lets +onlyGivenNames x; first | (refine (?_ : P x → _) ?_; rotate_left; unfold x; rotate_left; clear_value x; intro) | try clear_value x)
    | split | dsimp -zeta only

theorem State.noteTwo_keeps (hP : Closed P) {s : State} {c : Cause} {d : Cause} (h : P s) : P (State.noteTwo s c d) :=
    by
  unfold State.noteTwo
  repeat' first
    | with_reducible assumption | with_reducible refine State.noteCause_keeps hP ?_ | dsimp -zeta only

theorem State.fault_keeps (hP : Closed P) {s : State} {t : Nat} {c : Cause} (h : P s) : P (State.fault s t c) := by
  unfold State.fault
  repeat' first
    | with_reducible assumption | with_reducible refine State.noteCause_keeps hP ?_
    | with_reducible refine State.orBits_keeps hP ?_ | with_reducible refine State.endFaulted_keeps hP ?_
    | (extract_lets +onlyGivenNames x; first | (refine (?_ : P x → _) ?_; rotate_left; unfold x; rotate_left; clear_value x; intro) | try clear_value x)
    | split | dsimp -zeta only

theorem State.faultAtOnce_keeps (hP : Closed P) {s : State} {c : Cause} (h : P s) : P (State.faultAtOnce s c) := by
  unfold State.faultAtOnce
  repeat' first
    | with_reducible assumption | with_reducible refine State.noteCause_keeps hP ?_
    | with_reducible refine State.endFaulted_keeps hP ?_ | split | dsimp -zeta only

end Sys2Proof.Machine
end

