-- ==== Sys2Proof/Laws/KeepsMeArith.lean ====
section
/-!
SUPPORT. Laws/KeepsMeArith.lean: every function of Machine/MeArith.lean keeps a closed property (Laws/Keeps.lean).
-/
set_option linter.unusedVariables false
set_option linter.tactic.unusedName false

namespace Sys2Proof.Machine

open Sys2Proof

variable {P : State → Prop}

theorem State.coreRead_keeps (hP : Closed P) {s : State} {c : Nat} {o : Nat} {n : Nat} (h : P s) : P (State.coreRead s
    c o n).2 := by
  unfold State.coreRead
  repeat' first
    | with_reducible assumption | with_reducible refine State.memRead_keeps hP ?_
    | with_reducible refine keeps_eq3 (by assumption) ?_ | split | dsimp -zeta only

theorem State.coreSegs_keeps (hP : Closed P) {s : State} {c : Nat} {base : Nat} {pitch : Nat} {n : Nat} {y6 : Nat} (h
    : P s) : P (State.coreSegs s c base pitch n y6).2 := by
  induction y6 generalizing s c base pitch n with
  | zero => exact h
  | succ n ih =>
    unfold State.coreSegs
    repeat' first
      | with_reducible assumption | with_reducible refine State.coreRead_keeps hP ?_
      | with_reducible refine keeps_eq2 (by assumption) ?_ | with_reducible apply ih | split | dsimp -zeta only

theorem State.opBlock_keeps (hP : Closed P) {s : State} {c : Nat} {base : Nat} {pitch : Nat} {width : Nat} {alongRow :
    Bool} {j : Nat} (h : P s) : P (State.opBlock s c base pitch width alongRow j).2 := by
  unfold State.opBlock
  repeat' first
    | with_reducible assumption | with_reducible refine State.coreSegs_keeps hP ?_
    | with_reducible refine keeps_eq2 (by assumption) ?_ | split | dsimp -zeta only

theorem State.opBlocks_keeps (hP : Closed P) {s : State} {c : Nat} {base : Nat} {pitch : Nat} {width : Nat} {alongRow
    : Bool} {y7 : Nat} {y8 : Nat} (h : P s) : P (State.opBlocks s c base pitch width alongRow y7 y8).2 := by
  induction y8 generalizing s c base pitch width alongRow y7 with
  | zero => exact h
  | succ n ih =>
    unfold State.opBlocks
    repeat' first
      | with_reducible assumption | with_reducible refine State.opBlock_keeps hP ?_
      | with_reducible refine keeps_eq2 (by assumption) ?_ | with_reducible apply ih | split | dsimp -zeta only

theorem State.groupScales_keeps (hP : Closed P) {s : State} {c : Nat} {base : Nat} {n : Nat} {g : Nat} {f : Fmt} (h :
    P s) : P (State.groupScales s c base n g f).2 := by
  unfold State.groupScales
  repeat' first
    | with_reducible assumption | with_reducible refine State.coreSegs_keeps hP ?_
    | with_reducible refine keeps_eq2 (by assumption) ?_ | split | dsimp -zeta only

theorem State.redGroup_keeps (hP : Closed P) {s : State} {c : Nat} {fw : Nat} {td : List Byte} {p : Path} {gb : Nat}
    {n : Nat} {g : Nat} {r : Red} (h : P s) : P (State.redGroup s c fw td p gb n g r).2 := by
  unfold State.redGroup
  repeat' first
    | with_reducible assumption | with_reducible refine State.opBlocks_keeps hP ?_
    | with_reducible refine State.groupScales_keeps hP ?_ | with_reducible refine keeps_eq2 (by assumption) ?_
    | (extract_lets +onlyGivenNames x; try clear_value x) | split | dsimp -zeta only

theorem State.lineScales_keeps (hP : Closed P) {s : State} {c : Nat} {used : Bool} {base : Nat} (h : P s) : P
    (State.lineScales s c used base).2 := by
  unfold State.lineScales
  repeat' first
    | with_reducible assumption | with_reducible refine State.coreSegs_keeps hP ?_
    | with_reducible refine keeps_eq2 (by assumption) ?_ | split | dsimp -zeta only

end Sys2Proof.Machine
end

