-- ==== Sys2Proof/Laws/KeepsTrace.lean ====
section
/-!
SUPPORT. Laws/KeepsTrace.lean: every function of Machine/Trace.lean keeps a closed property (Laws/Keeps.lean).
-/
set_option linter.unusedVariables false
set_option linter.tactic.unusedName false

namespace Sys2Proof.Machine

open Sys2Proof

variable {P : State → Prop}

theorem State.setQzt_keeps (hP : Closed P) {s : State} {t : Nat} {x : QzState} (h : P s) : P (State.setQzt s t x) :=
    by
  unfold State.setQzt
  repeat' first
    | with_reducible assumption | exact rfl | (rw [State.mk_rest]; with_reducible refine hP.rest ?_ ?_)
    | dsimp -zeta only

theorem State.setSample_keeps (hP : Closed P) {s : State} {t : Nat} {x : Option Sample} (h : P s) : P (State.setSample
    s t x) := by
  unfold State.setSample
  repeat' first
    | with_reducible assumption | with_reducible refine State.setQzt_keeps hP ?_
    | (extract_lets +onlyGivenNames x; try clear_value x) | dsimp -zeta only

theorem State.dropSample_keeps (hP : Closed P) {s : State} {t : Nat} (h : P s) : P (State.dropSample s t) := by
  unfold State.dropSample
  repeat' first
    | with_reducible assumption | with_reducible refine State.bump_keeps hP ?_
    | with_reducible refine State.setSample_keeps hP ?_ | split | dsimp -zeta only

theorem State.traceHook_keeps (hP : Closed P) {s : State} {c : Nat} {ch : MeChain} {codes : List Nat} (h : P s) : P
    (State.traceHook s c ch codes).2 := by
  unfold State.traceHook
  repeat' first
    | with_reducible assumption | with_reducible refine State.dropSample_keeps hP ?_
    | with_reducible refine State.undef_keeps hP ?_ | with_reducible refine State.setSample_keeps hP ?_
    | (extract_lets +onlyGivenNames x; try clear_value x) | split | dsimp -zeta only

end Sys2Proof.Machine
end

