-- ==== Sys2Proof/Laws/KeepsTorus.lean ====
section
/-!
SUPPORT. Laws/KeepsTorus.lean: every function of Machine/Torus.lean keeps a closed property (Laws/Keeps.lean).
-/
set_option linter.unusedVariables false
set_option linter.tactic.unusedName false

namespace Sys2Proof.Machine

open Sys2Proof

variable {P : State → Prop}

theorem State.setPort_keeps (hP : Closed P) {s : State} {p : Nat} {x : PortState} (h : P s) : P (State.setPort s p x)
    := by
  unfold State.setPort
  repeat' first
    | with_reducible assumption | exact rfl | (rw [State.mk_rest]; with_reducible refine hP.rest ?_ ?_)
    | (extract_lets +onlyGivenNames x; try clear_value x) | dsimp -zeta only

theorem State.setEnd_keeps (hP : Closed P) {s : State} {a : Nat} {c : Nat} {plusEnd : Bool} {up : Bool} (h : P s) : P
    (State.setEnd s a c plusEnd up) := by
  unfold State.setEnd
  repeat' first
    | with_reducible assumption | exact rfl | with_reducible refine State.wrf_keeps hP ?_
    | (rw [State.mk_rest]; with_reducible refine hP.rest ?_ ?_) | (extract_lets +onlyGivenNames x; try clear_value x)
    | dsimp -zeta only

theorem State.sendState_keeps (hP : Closed P) {s : State} {q : Nat} {c : Nat} {plusEnd : Bool} {up : Bool} (h : P s) :
    P (State.sendState s q c plusEnd up) := by
  unfold State.sendState
  repeat' first
    | with_reducible assumption | with_reducible refine hP.emit ?_ | split | dsimp -zeta only

theorem State.tellRing_keeps (hP : Closed P) {s : State} {p : Nat} (h : P s) : P (State.tellRing s p) := by
  unfold State.tellRing
  repeat' first
    | with_reducible assumption | with_reducible refine State.setEnd_keeps hP ?_
    | with_reducible refine State.sendState_keeps hP ?_
    | (extract_lets +onlyGivenNames x; first | (refine (?_ : P x → _) ?_; rotate_left; unfold x; rotate_left; clear_value x; intro) | try clear_value x)
    | dsimp -zeta only

theorem State.ringFollow_keeps (hP : Closed P) {s : State} {p : Nat} (h : P s) : P (State.ringFollow s p) := by
  unfold State.ringFollow
  repeat' first
    | with_reducible assumption | with_reducible refine State.tellRing_keeps hP ?_ | split | dsimp -zeta only

theorem State.timeFollow_keeps (hP : Closed P) {s : State} {p : Nat} (h : P s) : P (State.timeFollow s p) := by
  unfold State.timeFollow
  repeat' first
    | with_reducible assumption | with_reducible refine State.wrf_keeps hP ?_ | split | dsimp -zeta only

theorem State.setLinkSt_keeps (hP : Closed P) {s : State} {p : Nat} {v : Nat} (h : P s) : P (State.setLinkSt s p v) :=
    by
  unfold State.setLinkSt
  repeat' first
    | with_reducible assumption | with_reducible refine State.timeFollow_keeps hP ?_
    | with_reducible refine State.tellRing_keeps hP ?_ | with_reducible refine State.wrf_keeps hP ?_ | split
    | dsimp -zeta only

theorem State.emitBlock_keeps (hP : Closed P) {s : State} {p : Nat} {lane : Option Nat} {b : List Byte} (h : P s) : P
    (State.emitBlock s p lane b) := by
  unfold State.emitBlock
  repeat' first
    | with_reducible assumption | with_reducible refine hP.emit ?_ | split | dsimp -zeta only

theorem State.sendLink_keeps (hP : Closed P) {s : State} {p : Nat} {content : List Byte} (h : P s) : P (State.sendLink
    s p content) := by
  unfold State.sendLink
  repeat' first
    | with_reducible assumption | with_reducible refine State.emitBlock_keeps hP ?_
    | with_reducible refine State.setPort_keeps hP ?_ | (extract_lets +onlyGivenNames x; try clear_value x)
    | dsimp -zeta only

theorem State.sendIdle_keeps (hP : Closed P) {s : State} {p : Nat} {credit : Nat} {nak : Bool} (h : P s) : P
    (State.sendIdle s p credit nak) := by
  unfold State.sendIdle
  repeat' first
    | with_reducible assumption | with_reducible refine State.emitBlock_keeps hP ?_ | dsimp -zeta only

theorem State.pump_keeps (hP : Closed P) {s : State} {p : Nat} {y3 : Nat} (h : P s) : P (State.pump s p y3) := by
  induction y3 generalizing s p with
  | zero => exact h
  | succ n ih =>
    unfold State.pump
    repeat' first
      | with_reducible assumption | with_reducible refine State.emitBlock_keeps hP ?_
      | with_reducible refine State.bump_keeps hP ?_ | with_reducible refine State.setPort_keeps hP ?_
      | with_reducible refine State.setArb_keeps hP ?_ | with_reducible apply ih
      | (extract_lets +onlyGivenNames x; try clear_value x) | split | dsimp -zeta only

theorem State.pumpAll_keeps (hP : Closed P) {s : State} {p : Nat} (h : P s) : P (State.pumpAll s p) := by
  unfold State.pumpAll
  repeat' first
    | with_reducible assumption | with_reducible refine State.pump_keeps hP ?_ | dsimp -zeta only

theorem State.loseMsgs_keeps (hP : Closed P) {s : State} {p : Nat} {n : Nat} (h : P s) : P (State.loseMsgs s p n) :=
    by
  unfold State.loseMsgs
  repeat' first
    | with_reducible assumption | with_reducible refine State.bump_keeps hP ?_
    | with_reducible refine State.faultAtOnce_keeps hP ?_
    | (extract_lets +onlyGivenNames x; first | (refine (?_ : P x → _) ?_; rotate_left; unfold x; rotate_left; clear_value x; intro) | try clear_value x)
    | split | dsimp -zeta only

theorem State.noteGen_keeps (hP : Closed P) {s : State} {vc : Nat} {m : Nat} {bytes : List Byte} (h : P s) : P
    (State.noteGen s vc m bytes) := by
  unfold State.noteGen
  repeat' first
    | with_reducible assumption | exact rfl | (rw [State.mk_rest]; with_reducible refine hP.rest ?_ ?_)
    | (extract_lets +onlyGivenNames x; try clear_value x) | split | dsimp -zeta only

theorem State.queueMsg_keeps (hP : Closed P) {s : State} {p : Nat} {vc : Nat} {bytes : List Byte} (h : P s) : P
    (State.queueMsg s p vc bytes) := by
  unfold State.queueMsg
  repeat' first
    | with_reducible assumption | exact rfl | with_reducible refine State.noteGen_keeps hP ?_
    | with_reducible refine State.pumpAll_keeps hP ?_ | with_reducible refine State.setPort_keeps hP ?_
    | (rw [State.mk_rest]; with_reducible refine hP.rest ?_ ?_)
    | (extract_lets +onlyGivenNames x; first | (refine (?_ : P x → _) ?_; rotate_left; unfold x; rotate_left; clear_value x; intro) | try clear_value x)
    | dsimp -zeta only

theorem State.sendMsg_keeps (hP : Closed P) {s : State} {cls : Nat} {typ : Nat} {node : Nat} {tag : Nat} {body : List
    Byte} (h : P s) : P (State.sendMsg s cls typ node tag body) := by
  unfold State.sendMsg
  repeat' first
    | with_reducible assumption | with_reducible refine State.queueMsg_keeps hP ?_ | split | dsimp -zeta only

theorem State.linkDown_keeps (hP : Closed P) {s : State} {p : Nat} {cause : Nat} {disabled : Bool} (h : P s) : P
    (State.linkDown s p cause disabled) := by
  unfold State.linkDown
  repeat' first
    | with_reducible assumption | exact rfl | with_reducible refine State.sendLink_keeps hP ?_
    | with_reducible refine State.orBits_keeps hP ?_ | with_reducible refine State.wrf_keeps hP ?_
    | with_reducible refine State.setPort_keeps hP ?_ | with_reducible refine State.timeFollow_keeps hP ?_
    | with_reducible refine State.tellRing_keeps hP ?_ | with_reducible refine State.loseMsgs_keeps hP ?_
    | with_reducible refine State.raise_keeps hP ?_ | (rw [State.mk_rest]; with_reducible refine hP.rest ?_ ?_)
    | (extract_lets +onlyGivenNames x; first | (refine (?_ : P x → _) ?_; rotate_left; unfold x; rotate_left; clear_value x; intro) | try clear_value x)
    | split | dsimp -zeta only

end Sys2Proof.Machine
end

