-- ==== Sys2Proof/Laws/KeepsLinks.lean ====
section
/-!
SUPPORT. Laws/KeepsLinks.lean: every function of Machine/Links.lean keeps a closed property (Laws/Keeps.lean).
-/
set_option linter.unusedVariables false
set_option linter.tactic.unusedName false

namespace Sys2Proof.Machine

open Sys2Proof

variable {P : State → Prop}

theorem emitBlocks_keeps (hP : Closed P) {s : State} {p : Nat} {y3 : List TxBlock} (h : P s) : P (emitBlocks s p y3)
    := by
  induction y3 generalizing s p with
  | nil => exact h
  | cons x xs ih =>
    unfold emitBlocks
    repeat' first
      | with_reducible assumption | with_reducible refine State.bump_keeps hP ?_
      | with_reducible refine State.emitBlock_keeps hP ?_ | with_reducible apply ih | split | dsimp -zeta only

theorem State.resend_keeps (hP : Closed P) {s : State} {p : Nat} {seq : Nat} (h : P s) : P (State.resend s p seq) :=
    by
  unfold State.resend
  repeat' first
    | with_reducible assumption | with_reducible refine State.linkDown_keeps hP ?_
    | with_reducible refine emitBlocks_keeps hP ?_ | with_reducible refine State.setPort_keeps hP ?_
    | (extract_lets +onlyGivenNames x; try clear_value x) | split | dsimp -zeta only

theorem State.takeHeader_keeps (hP : Closed P) {s : State} {p : Nat} {b : RxBlock} (h : P s) : P (State.takeHeader s p
    b) := by
  unfold State.takeHeader
  repeat' first
    | with_reducible assumption | with_reducible refine State.setPort_keeps hP ?_
    | with_reducible refine State.pumpAll_keeps hP ?_ | with_reducible refine State.resend_keeps hP ?_
    | (extract_lets +onlyGivenNames x; first | (refine (?_ : P x → _) ?_; rotate_left; unfold x; rotate_left; clear_value x; intro) | try clear_value x)
    | split | dsimp -zeta only

theorem State.discard_keeps (hP : Closed P) {s : State} {p : Nat} (h : P s) : P (State.discard s p) := by
  unfold State.discard
  repeat' first
    | with_reducible assumption | with_reducible refine State.sendIdle_keeps hP ?_
    | with_reducible refine State.setPort_keeps hP ?_ | (extract_lets +onlyGivenNames x; try clear_value x) | split
    | dsimp -zeta only

theorem State.crcFail_keeps (hP : Closed P) {s : State} {p : Nat} {b : RxBlock} (h : P s) : P (State.crcFail s p b) :=
    by
  unfold State.crcFail
  repeat' first
    | with_reducible assumption | with_reducible refine State.bump_keeps hP ?_ | dsimp -zeta only

theorem State.acceptBlock_keeps (hP : Closed P) {s : State} {p : Nat} {b : RxBlock} (h : P s) : P (State.acceptBlock s
    p b) := by
  unfold State.acceptBlock
  repeat' first
    | with_reducible assumption | exact rfl | with_reducible refine State.bump_keeps hP ?_
    | with_reducible refine State.setPort_keeps hP ?_ | with_reducible refine State.sendIdle_keeps hP ?_
    | (rw [State.mk_rest]; with_reducible refine hP.rest ?_ ?_)
    | (extract_lets +onlyGivenNames x; first | (refine (?_ : P x → _) ?_; rotate_left; unfold x; rotate_left; clear_value x; intro) | try clear_value x)
    | split | dsimp -zeta only

theorem execDataBlock_keeps (hP : Closed P) {p : PortId} {b : RxBlock} {s : State} (h : P s) : AllNext P
    (execDataBlock p b s) := by
  unfold execDataBlock
  repeat' first
    | with_reducible assumption | with_reducible refine AllNext.next ?_
    | with_reducible refine State.discard_keeps hP ?_ | with_reducible refine State.crcFail_keeps hP ?_
    | with_reducible refine State.raise_keeps hP ?_ | with_reducible refine State.bump_keeps hP ?_
    | with_reducible refine State.linkDown_keeps hP ?_ | with_reducible refine State.setPort_keeps hP ?_
    | with_reducible refine State.takeHeader_keeps hP ?_ | with_reducible refine State.acceptBlock_keeps hP ?_
    | (extract_lets +onlyGivenNames x; first | (refine (?_ : P x → _) ?_; rotate_left; unfold x; rotate_left; clear_value x; intro) | try clear_value x)
    | split | dsimp -zeta only

theorem State.sendCredits_keeps (hP : Closed P) {s : State} {p : Nat} {vc : Nat} {shared : Bool} {y5 : Nat} {y6 : Nat}
    (h : P s) : P (State.sendCredits s p vc shared y5 y6) := by
  induction y5 generalizing s p vc shared y6 with
  | zero => exact h
  | succ n ih =>
    unfold State.sendCredits
    repeat' first
      | with_reducible assumption | with_reducible refine State.sendIdle_keeps hP ?_ | with_reducible apply ih | split
      | dsimp -zeta only

theorem State.freeBuffers_keeps (hP : Closed P) {s : State} {p : Nat} {vc : Nat} {n : Nat} (h : P s) : P
    (State.freeBuffers s p vc n) := by
  unfold State.freeBuffers
  repeat' first
    | with_reducible assumption | with_reducible refine State.setPort_keeps hP ?_
    | with_reducible refine State.sendCredits_keeps hP ?_
    | (extract_lets +onlyGivenNames x; first | (refine (?_ : P x → _) ?_; rotate_left; unfold x; rotate_left; clear_value x; intro) | try clear_value x)
    | split | dsimp -zeta only

theorem execIdleBlock_keeps (hP : Closed P) {p : PortId} {b : RxBlock} {s : State} (h : P s) : AllNext P
    (execIdleBlock p b s) := by
  unfold execIdleBlock
  repeat' first
    | with_reducible assumption | with_reducible refine AllNext.next ?_
    | with_reducible refine State.crcFail_keeps hP ?_ | with_reducible refine State.takeHeader_keeps hP ?_ | split
    | dsimp -zeta only

theorem execNakTimer_keeps (hP : Closed P) {p : PortId} {s : State} (h : P s) : AllNext P (execNakTimer p s) := by
  unfold execNakTimer
  repeat' first
    | with_reducible assumption | with_reducible refine AllNext.next ?_
    | with_reducible refine State.sendIdle_keeps hP ?_ | split | dsimp -zeta only

theorem execReplayTimeout_keeps (hP : Closed P) {p : PortId} {s : State} (h : P s) : AllNext P (execReplayTimeout p s)
    := by
  unfold execReplayTimeout
  repeat' first
    | with_reducible assumption | with_reducible refine AllNext.next ?_
    | with_reducible refine State.resend_keeps hP ?_ | split | dsimp -zeta only

theorem State.badLink_keeps (hP : Closed P) {s : State} {p : Nat} {b : RxBlock} (h : P s) : P (State.badLink s p b) :=
    by
  unfold State.badLink
  repeat' first
    | with_reducible assumption | with_reducible refine State.crcFail_keeps hP ?_
    | with_reducible refine State.raise_keeps hP ?_ | with_reducible refine State.bump_keeps hP ?_
    | with_reducible refine State.linkDown_keeps hP ?_ | with_reducible refine State.setPort_keeps hP ?_
    | (extract_lets +onlyGivenNames x; first | (refine (?_ : P x → _) ?_; rotate_left; unfold x; rotate_left; clear_value x; intro) | try clear_value x)
    | split | dsimp -zeta only

theorem State.refuseLink_keeps (hP : Closed P) {s : State} {p : Nat} {b : RxBlock} (h : P s) : P (State.refuseLink s p
    b) := by
  unfold State.refuseLink
  repeat' first
    | with_reducible assumption | with_reducible refine State.badLink_keeps hP ?_ | split | dsimp -zeta only

theorem State.judgeCoord_keeps (hP : Closed P) {s : State} {p : Nat} (h : P s) : P (State.judgeCoord s p) := by
  unfold State.judgeCoord
  repeat' first
    | with_reducible assumption | with_reducible refine State.wrf_keeps hP ?_
    | with_reducible refine State.raise_keeps hP ?_ | with_reducible refine State.setPort_keeps hP ?_
    | with_reducible refine State.ringFollow_keeps hP ?_
    | (extract_lets +onlyGivenNames x; first | (refine (?_ : P x → _) ?_; rotate_left; unfold x; rotate_left; clear_value x; intro) | try clear_value x)
    | split | dsimp -zeta only

theorem State.reIdent_keeps (hP : Closed P) {s : State} (h : P s) : P (State.reIdent s) := by
  unfold State.reIdent
  repeat' first
    | with_reducible assumption | with_reducible refine foldl_keeps (fun _ _ _ => ?_) ?_
    | with_reducible refine foldl_keeps2 (fun _ _ _ => ?_) ?_ | with_reducible refine State.judgeCoord_keeps hP ?_
    | with_reducible refine State.sendLink_keeps hP ?_ | split | intro _ | dsimp -zeta only

theorem State.sendPending_keeps (hP : Closed P) {s : State} {p : Nat} (h : P s) : P (State.sendPending s p) := by
  unfold State.sendPending
  repeat' first
    | with_reducible assumption | with_reducible refine foldl_keeps (fun _ _ _ => ?_) ?_
    | with_reducible refine foldl_keeps2 (fun _ _ _ => ?_) ?_ | with_reducible refine State.emitBlock_keeps hP ?_
    | intro _ | dsimp -zeta only

theorem execIdentBlock_keeps (hP : Closed P) {p : PortId} {lane : Option (Fin 18)} {b : RxBlock} {s : State} (h : P s)
    : AllNext P (execIdentBlock p lane b s) := by
  unfold execIdentBlock
  repeat' first
    | with_reducible assumption | with_reducible refine hP.wr ?_ | with_reducible refine AllNext.next ?_
    | with_reducible refine State.linkDown_keeps hP ?_ | with_reducible refine State.setPort_keeps hP ?_
    | with_reducible refine State.sendPending_keeps hP ?_ | with_reducible refine State.refuseLink_keeps hP ?_
    | with_reducible refine State.takeHeader_keeps hP ?_ | with_reducible refine State.judgeCoord_keeps hP ?_
    | (extract_lets +onlyGivenNames x; first | (refine (?_ : P x → _) ?_; rotate_left; unfold x; rotate_left; clear_value x; intro) | try clear_value x)
    | split | dsimp -zeta only

theorem execTrainingStart_keeps (hP : Closed P) {p : PortId} {s : State} (h : P s) : AllNext P (execTrainingStart p s)
    := by
  unfold execTrainingStart
  repeat' first
    | with_reducible assumption | with_reducible refine AllNext.next ?_
    | with_reducible refine foldl_keeps (fun _ _ _ => ?_) ?_ | with_reducible refine foldl_keeps2 (fun _ _ _ => ?_) ?_
    | with_reducible refine State.setPort_keeps hP ?_ | with_reducible refine State.setLinkSt_keeps hP ?_
    | with_reducible refine State.emitBlock_keeps hP ?_
    | (extract_lets +onlyGivenNames x; first | (refine (?_ : P x → _) ?_; rotate_left; unfold x; rotate_left; clear_value x; intro) | try clear_value x)
    | split | intro _ | dsimp -zeta only

theorem execLaneLock_keeps (hP : Closed P) {p : PortId} {lanes : BitVec 18} {s : State} (h : P s) : AllNext P
    (execLaneLock p lanes s) := by
  unfold execLaneLock
  repeat' first
    | with_reducible assumption | with_reducible refine AllNext.next ?_
    | with_reducible refine State.setPort_keeps hP ?_ | (extract_lets +onlyGivenNames x; try clear_value x) | split
    | dsimp -zeta only

theorem execTrainMarker_keeps (hP : Closed P) {p : PortId} {b : RxBlock} {s : State} (h : P s) : AllNext P
    (execTrainMarker p b s) := by
  unfold execTrainMarker
  repeat' first
    | with_reducible assumption | with_reducible refine AllNext.next ?_
    | with_reducible refine State.setPort_keeps hP ?_ | (extract_lets +onlyGivenNames x; try clear_value x) | split
    | dsimp -zeta only

theorem State.laneRole_keeps (hP : Closed P) {s : State} {p : Nat} {l : Nat} {r : Nat} {i : Nat} (h : P s) : P
    (State.laneRole s p l r i) := by
  unfold State.laneRole
  repeat' first
    | with_reducible assumption | with_reducible refine State.wrf_keeps hP ?_ | dsimp -zeta only

theorem State.chooseLanes_keeps (hP : Closed P) {s : State} {p : Nat} {pass : List (Nat × Nat)} (h : P s) : P
    (State.chooseLanes s p pass) := by
  unfold State.chooseLanes
  repeat' first
    | with_reducible assumption | with_reducible refine foldl_keeps (fun _ _ _ => ?_) ?_
    | with_reducible refine foldl_keeps2 (fun _ _ _ => ?_) ?_ | with_reducible refine State.wrf_keeps hP ?_
    | with_reducible refine State.laneRole_keeps hP ?_
    | (extract_lets +onlyGivenNames x; first | (refine (?_ : P x → _) ?_; rotate_left; unfold x; rotate_left; clear_value x; intro) | try clear_value x)
    | intro _ | dsimp -zeta only

theorem State.sendPresets_keeps (hP : Closed P) {s : State} {p : Nat} {lim : Nat} {best : List (Nat × Option (Nat ×
    Nat × Nat))} (h : P s) : P (State.sendPresets s p lim best) := by
  unfold State.sendPresets
  repeat' first
    | with_reducible assumption | with_reducible refine foldl_keeps (fun _ _ _ => ?_) ?_
    | with_reducible refine foldl_keeps2 (fun _ _ _ => ?_) ?_ | with_reducible refine State.emitBlock_keeps hP ?_
    | split | intro _ | dsimp -zeta only

theorem execPresetSweepEnd_keeps (hP : Closed P) {p : PortId} {meas : List (List (Nat × Nat))} {s : State} (h : P s) :
    AllNext P (execPresetSweepEnd p meas s) := by
  unfold execPresetSweepEnd
  repeat' first
    | with_reducible assumption | with_reducible refine AllNext.next ?_
    | with_reducible refine State.sendPresets_keeps hP ?_ | with_reducible refine State.chooseLanes_keeps hP ?_
    | with_reducible refine State.linkDown_keeps hP ?_ | with_reducible refine State.setPort_keeps hP ?_
    | (extract_lets +onlyGivenNames x; first | (refine (?_ : P x → _) ?_; rotate_left; unfold x; rotate_left; clear_value x; intro) | try clear_value x)
    | split | dsimp -zeta only

theorem State.random_keeps (hP : Closed P) {s : State} {n : Nat} (h : P s) : P (State.random s n).2 := by
  unfold State.random
  repeat' first
    | with_reducible assumption | exact rfl | (rw [State.mk_rest]; with_reducible refine hP.rest ?_ ?_)
    | dsimp -zeta only

theorem State.startKeying_keeps (hP : Closed P) {s : State} {p : Nat} (h : P s) : P (State.startKeying s p) := by
  unfold State.startKeying
  repeat' first
    | with_reducible assumption | with_reducible refine State.setLinkSt_keeps hP ?_
    | with_reducible refine State.linkDown_keeps hP ?_ | with_reducible refine State.random_keeps hP ?_
    | with_reducible refine State.sendLink_keeps hP ?_ | with_reducible refine State.setPort_keeps hP ?_
    | with_reducible refine keeps_eq2 (by assumption) ?_
    | (extract_lets +onlyGivenNames x; first | (refine (?_ : P x → _) ?_; rotate_left; unfold x; rotate_left; clear_value x; intro) | try clear_value x)
    | split | dsimp -zeta only

theorem execAlignmentDone_keeps (hP : Closed P) {p : PortId} {rttNs : BitVec 16} {s : State} (h : P s) : AllNext P
    (execAlignmentDone p rttNs s) := by
  unfold execAlignmentDone
  repeat' first
    | with_reducible assumption | with_reducible refine hP.wr ?_ | with_reducible refine AllNext.next ?_
    | with_reducible refine foldl_keeps (fun _ _ _ => ?_) ?_ | with_reducible refine foldl_keeps2 (fun _ _ _ => ?_) ?_
    | with_reducible refine State.wrf_keeps hP ?_ | with_reducible refine State.linkDown_keeps hP ?_
    | with_reducible refine State.startKeying_keeps hP ?_
    | (extract_lets +onlyGivenNames x; first | (refine (?_ : P x → _) ?_; rotate_left; unfold x; rotate_left; clear_value x; intro) | try clear_value x)
    | split | intro _ | dsimp -zeta only

theorem execTrainingTimeout_keeps (hP : Closed P) {p : PortId} {s : State} (h : P s) : AllNext P (execTrainingTimeout
    p s) := by
  unfold execTrainingTimeout
  repeat' first
    | with_reducible assumption | with_reducible refine AllNext.next ?_
    | with_reducible refine State.linkDown_keeps hP ?_ | (extract_lets +onlyGivenNames x; try clear_value x) | split
    | dsimp -zeta only

theorem State.linkUp_keeps (hP : Closed P) {s : State} {p : Nat} (h : P s) : P (State.linkUp s p) := by
  unfold State.linkUp
  repeat' first
    | with_reducible assumption | with_reducible refine State.setPort_keeps hP ?_
    | with_reducible refine State.setLinkSt_keeps hP ?_ | with_reducible refine State.judgeCoord_keeps hP ?_
    | with_reducible refine State.sendLink_keeps hP ?_
    | (extract_lets +onlyGivenNames x; first | (refine (?_ : P x → _) ?_; rotate_left; unfold x; rotate_left; clear_value x; intro) | try clear_value x)
    | dsimp -zeta only

theorem execKeyBlock_keeps (hP : Closed P) {p : PortId} {b : RxBlock} {confirm : List Byte} {s : State} (h : P s) :
    AllNext P (execKeyBlock p b confirm s) := by
  unfold execKeyBlock
  repeat' first
    | with_reducible assumption | with_reducible refine AllNext.next ?_
    | with_reducible refine State.raise_keeps hP ?_ | with_reducible refine State.orBits_keeps hP ?_
    | with_reducible refine State.linkDown_keeps hP ?_ | with_reducible refine State.badLink_keeps hP ?_
    | with_reducible refine State.sendLink_keeps hP ?_ | with_reducible refine State.setPort_keeps hP ?_
    | with_reducible refine State.linkUp_keeps hP ?_ | with_reducible refine hx _ ?_
    | (extract_lets +onlyGivenNames x; first | (refine (?_ : (∀ s, P s → P (x s)) → _) ?_; rotate_left; unfold x; rotate_left; clear_value x; intro hx) | try clear_value x)
    | split | intro _ | dsimp -zeta only

theorem State.swapLane_keeps (hP : Closed P) {s : State} {p : Nat} {lo : Nat} {l : Nat} {n : Nat} (h : P s) : P
    (State.swapLane s p lo l n) := by
  unfold State.swapLane
  repeat' first
    | with_reducible assumption | with_reducible refine State.wrf_keeps hP ?_
    | (extract_lets +onlyGivenNames x; first | (refine (?_ : P x → _) ?_; rotate_left; unfold x; rotate_left; clear_value x; intro) | try clear_value x)
    | split | dsimp -zeta only

theorem State.startRetrain_keeps (hP : Closed P) {s : State} {p : Nat} (h : P s) : P (State.startRetrain s p) := by
  unfold State.startRetrain
  repeat' first
    | with_reducible assumption | with_reducible refine State.bump_keeps hP ?_
    | with_reducible refine State.setLinkSt_keeps hP ?_ | split | dsimp -zeta only

theorem State.failLane_keeps (hP : Closed P) {s : State} {p : Nat} {l : Nat} {lock : Bool} (h : P s) : P
    (State.failLane s p l lock) := by
  unfold State.failLane
  repeat' first
    | with_reducible assumption | with_reducible refine State.freeNat_keeps hP ?_
    | with_reducible refine State.wrf_keeps hP ?_ | with_reducible refine State.swapLane_keeps hP ?_
    | with_reducible refine State.setPort_keeps hP ?_ | with_reducible refine State.sendLink_keeps hP ?_
    | with_reducible refine State.raise_keeps hP ?_ | with_reducible refine State.bump_keeps hP ?_
    | with_reducible refine State.startRetrain_keeps hP ?_ | with_reducible refine keeps_eq2 (by assumption) ?_
    | (extract_lets +onlyGivenNames x; first | (refine (?_ : P x → _) ?_; rotate_left; unfold x; rotate_left; clear_value x; intro) | try clear_value x)
    | split | dsimp -zeta only

theorem State.judgeLanes_keeps (hP : Closed P) {s : State} {p : Nat} {y3 : List (Nat × Nat × Nat × Bool)} (h : P s) :
    P (State.judgeLanes s p y3) := by
  induction y3 generalizing s p with
  | nil => exact h
  | cons x xs ih =>
    unfold State.judgeLanes
    repeat' first
      | with_reducible assumption | with_reducible refine State.bump_keeps hP ?_
      | with_reducible refine State.wrf_keeps hP ?_ | with_reducible refine State.setPort_keeps hP ?_
      | with_reducible refine State.failLane_keeps hP ?_ | with_reducible apply ih
      | (extract_lets +onlyGivenNames x; first | (refine (?_ : P x → _) ?_; rotate_left; unfold x; rotate_left; clear_value x; intro) | try clear_value x)
      | split | dsimp -zeta only

theorem execLaneWindow_keeps (hP : Closed P) {p : PortId} {meas : List (Nat × Nat × Bool)} {s : State} (h : P s) :
    AllNext P (execLaneWindow p meas s) := by
  unfold execLaneWindow
  repeat' first
    | with_reducible assumption | with_reducible refine AllNext.next ?_
    | with_reducible refine State.judgeLanes_keeps hP ?_ | split | dsimp -zeta only

theorem execLaneSwap_keeps (hP : Closed P) {p : PortId} {b : RxBlock} {s : State} (h : P s) : AllNext P (execLaneSwap
    p b s) := by
  unfold execLaneSwap
  repeat' first
    | with_reducible assumption | with_reducible refine AllNext.next ?_
    | with_reducible refine State.refuseLink_keeps hP ?_ | with_reducible refine State.takeHeader_keeps hP ?_
    | with_reducible refine State.setPort_keeps hP ?_ | with_reducible refine State.raise_keeps hP ?_
    | with_reducible refine State.bump_keeps hP ?_ | with_reducible refine State.swapLane_keeps hP ?_
    | (extract_lets +onlyGivenNames x; first | (refine (?_ : P x → _) ?_; rotate_left; unfold x; rotate_left; clear_value x; intro) | try clear_value x)
    | split | dsimp -zeta only

theorem execAlignmentLost_keeps (hP : Closed P) {p : PortId} {s : State} (h : P s) : AllNext P (execAlignmentLost p s)
    := by
  unfold execAlignmentLost
  repeat' first
    | with_reducible assumption | with_reducible refine AllNext.next ?_
    | with_reducible refine State.startRetrain_keeps hP ?_ | split | dsimp -zeta only

theorem execRetrainDone_keeps (hP : Closed P) {p : PortId} {s : State} (h : P s) : AllNext P (execRetrainDone p s) :=
    by
  unfold execRetrainDone
  repeat' first
    | with_reducible assumption | with_reducible refine AllNext.next ?_
    | with_reducible refine State.linkDown_keeps hP ?_ | with_reducible refine State.raise_keeps hP ?_
    | with_reducible refine State.setLinkSt_keeps hP ?_ | with_reducible refine State.resend_keeps hP ?_
    | with_reducible refine State.pumpAll_keeps hP ?_
    | (extract_lets +onlyGivenNames x; first | (refine (?_ : P x → _) ?_; rotate_left; unfold x; rotate_left; clear_value x; intro) | try clear_value x)
    | split | dsimp -zeta only

theorem execRetrainTimeout_keeps (hP : Closed P) {p : PortId} {s : State} (h : P s) : AllNext P (execRetrainTimeout p
    s) := by
  unfold execRetrainTimeout
  repeat' first
    | with_reducible assumption | with_reducible refine AllNext.next ?_
    | with_reducible refine State.linkDown_keeps hP ?_ | split | dsimp -zeta only

theorem execDownBlock_keeps (hP : Closed P) {p : PortId} {b : RxBlock} {s : State} (h : P s) : AllNext P
    (execDownBlock p b s) := by
  unfold execDownBlock
  repeat' first
    | with_reducible assumption | with_reducible refine AllNext.next ?_
    | with_reducible refine State.refuseLink_keeps hP ?_ | with_reducible refine State.linkDown_keeps hP ?_
    | with_reducible refine State.setLinkSt_keeps hP ?_ | split | dsimp -zeta only

theorem execLinkStateMessage_keeps (hP : Closed P) {p : PortId} {e : LinkEnd} {up : Bool} {s : State} (h : P s) :
    AllNext P (execLinkStateMessage p e up s) := by
  unfold execLinkStateMessage
  repeat' first
    | with_reducible assumption | with_reducible refine AllNext.next ?_
    | with_reducible refine State.sendState_keeps hP ?_ | with_reducible refine State.setEnd_keeps hP ?_
    | (extract_lets +onlyGivenNames x; try clear_value x) | split | dsimp -zeta only

theorem State.lnkEnable_keeps (hP : Closed P) {s : State} {p : Nat} {on : Bool} (h : P s) : P (State.lnkEnable s p on)
    := by
  unfold State.lnkEnable
  repeat' first
    | with_reducible assumption | with_reducible refine State.wrf_keeps hP ?_
    | with_reducible refine State.setLinkSt_keeps hP ?_ | with_reducible refine State.linkDown_keeps hP ?_
    | (extract_lets +onlyGivenNames x; first | (refine (?_ : P x → _) ?_; rotate_left; unfold x; rotate_left; clear_value x; intro) | try clear_value x)
    | split | dsimp -zeta only

theorem State.lnkRetrain_keeps (hP : Closed P) {s : State} {p : Nat} (h : P s) : P (State.lnkRetrain s p) := by
  unfold State.lnkRetrain
  repeat' first
    | with_reducible assumption | with_reducible refine State.startRetrain_keeps hP ?_ | dsimp -zeta only

theorem State.lnkFullTrain_keeps (hP : Closed P) {s : State} {p : Nat} (h : P s) : P (State.lnkFullTrain s p) := by
  unfold State.lnkFullTrain
  repeat' first
    | with_reducible assumption | with_reducible refine State.linkDown_keeps hP ?_ | split | dsimp -zeta only

theorem execLnkEnable_keeps (hP : Closed P) {p : PortId} {on : Bool} {s : State} (h : P s) : AllNext P (execLnkEnable
    p on s) := by
  unfold execLnkEnable
  repeat' first
    | with_reducible assumption | with_reducible refine AllNext.next ?_
    | with_reducible refine State.lnkEnable_keeps hP ?_ | split | dsimp -zeta only

theorem execLnkRetrain_keeps (hP : Closed P) {p : PortId} {s : State} (h : P s) : AllNext P (execLnkRetrain p s) := by
  unfold execLnkRetrain
  repeat' first
    | with_reducible assumption | with_reducible refine AllNext.next ?_
    | with_reducible refine State.lnkRetrain_keeps hP ?_ | split | dsimp -zeta only

theorem execLnkFullTrain_keeps (hP : Closed P) {p : PortId} {s : State} (h : P s) : AllNext P (execLnkFullTrain p s)
    := by
  unfold execLnkFullTrain
  repeat' first
    | with_reducible assumption | with_reducible refine AllNext.next ?_
    | with_reducible refine State.lnkFullTrain_keeps hP ?_ | split | dsimp -zeta only

theorem execTimePeriod_keeps (hP : Closed P) {s : State} (h : P s) : AllNext P (execTimePeriod s) := by
  unfold execTimePeriod
  repeat' first
    | with_reducible assumption | with_reducible refine AllNext.next ?_
    | with_reducible refine State.sendLink_keeps hP ?_ | with_reducible refine State.setPort_keeps hP ?_
    | with_reducible refine State.wrf_keeps hP ?_ | (extract_lets +onlyGivenNames x; try clear_value x) | split
    | dsimp -zeta only

theorem execTimeBlock_keeps (hP : Closed P) {p : PortId} {b : RxBlock} {s : State} (h : P s) : AllNext P
    (execTimeBlock p b s) := by
  unfold execTimeBlock
  repeat' first
    | with_reducible assumption | exact rfl | with_reducible refine hP.wr ?_ | with_reducible refine AllNext.next ?_
    | with_reducible refine State.refuseLink_keeps hP ?_ | with_reducible refine State.takeHeader_keeps hP ?_
    | with_reducible refine State.sendLink_keeps hP ?_ | with_reducible refine State.setPort_keeps hP ?_
    | with_reducible refine State.wrf_keeps hP ?_ | (rw [State.mk_rest]; with_reducible refine hP.rest ?_ ?_)
    | (extract_lets +onlyGivenNames x; first | (refine (?_ : P x → _) ?_; rotate_left; unfold x; rotate_left; clear_value x; intro) | try clear_value x)
    | split | dsimp -zeta only

theorem State.timeCommit_keeps (hP : Closed P) {s : State} (h : P s) : P (State.timeCommit s) := by
  unfold State.timeCommit
  repeat' first
    | with_reducible assumption | exact rfl | with_reducible refine hP.wr ?_
    | with_reducible refine State.wrf_keeps hP ?_ | with_reducible refine State.raise_keeps hP ?_
    | (rw [State.mk_rest]; with_reducible refine hP.rest ?_ ?_)
    | (extract_lets +onlyGivenNames x; first | (refine (?_ : P x → _) ?_; rotate_left; unfold x; rotate_left; clear_value x; intro) | try clear_value x)
    | split | dsimp -zeta only

theorem State.portReset_keeps (hP : Closed P) {s : State} {p : Nat} (h : P s) : P (State.portReset s p) := by
  unfold State.portReset
  repeat' first
    | with_reducible assumption | with_reducible refine hP.resetRegs ?_
    | with_reducible refine State.linkDown_keeps hP ?_ | with_reducible refine State.setPort_keeps hP ?_
    | with_reducible refine State.setLinkSt_keeps hP ?_ | with_reducible refine State.timeFollow_keeps hP ?_
    | with_reducible refine State.ringFollow_keeps hP ?_
    | (extract_lets +onlyGivenNames x; first | (refine (?_ : P x → _) ?_; rotate_left; unfold x; rotate_left; clear_value x; intro) | try clear_value x)
    | split | dsimp -zeta only

theorem State.loadTrainTable_keeps (hP : Closed P) {s : State} (h : P s) : P (State.loadTrainTable s) := by
  unfold State.loadTrainTable
  repeat' first
    | with_reducible assumption | with_reducible refine hP.wr ?_
    | with_reducible refine foldl_keeps (fun _ _ _ => ?_) ?_ | with_reducible refine foldl_keeps2 (fun _ _ _ => ?_) ?_
    | intro _ | dsimp -zeta only

theorem State.linksReset_keeps (hP : Closed P) {s : State} (h : P s) : P (State.linksReset s) := by
  unfold State.linksReset
  repeat' first
    | with_reducible assumption | exact rfl | with_reducible refine hP.wr ?_ | with_reducible refine hP.resetRegs ?_
    | with_reducible refine foldl_keeps (fun _ _ _ => ?_) ?_ | with_reducible refine foldl_keeps2 (fun _ _ _ => ?_) ?_
    | with_reducible refine State.portReset_keeps hP ?_ | with_reducible refine State.setPort_keeps hP ?_
    | with_reducible refine State.loadTrainTable_keeps hP ?_
    | (rw [State.mk_rest]; with_reducible refine hP.rest ?_ ?_)
    | (extract_lets +onlyGivenNames x; first | (refine (?_ : P x → _) ?_; rotate_left; unfold x; rotate_left; clear_value x; intro) | try clear_value x)
    | intro _ | dsimp -zeta only

theorem State.loseInTransit_keeps (hP : Closed P) {s : State} {p : Nat} (h : P s) : P (State.loseInTransit s p) := by
  unfold State.loseInTransit
  repeat' first
    | with_reducible assumption | exact rfl | with_reducible refine State.loseMsgs_keeps hP ?_
    | (rw [State.mk_rest]; with_reducible refine hP.rest ?_ ?_) | (extract_lets +onlyGivenNames x; try clear_value x)
    | dsimp -zeta only

theorem State.linksResetTile_keeps (hP : Closed P) {s : State} {t : Nat} (h : P s) : P (State.linksResetTile s t) :=
    by
  unfold State.linksResetTile
  repeat' first
    | with_reducible assumption | with_reducible refine State.portReset_keeps hP ?_
    | with_reducible refine State.loseInTransit_keeps hP ?_ | dsimp -zeta only

end Sys2Proof.Machine
end

