-- ==== Sys2Proof/Laws/KeepsLamps.lean ====
section
/-!
SUPPORT. Laws/KeepsLamps.lean: every function of Machine/Lamps.lean keeps a closed property (Laws/Keeps.lean).
-/
set_option linter.unusedVariables false
set_option linter.tactic.unusedName false

namespace Sys2Proof.Machine

open Sys2Proof

variable {P : State → Prop}

theorem State.setLamp_keeps (hP : Closed P) {s : State} {k : Nat} {x : LampState} (h : P s) : P (State.setLamp s k x)
    := by
  unfold State.setLamp
  repeat' first
    | with_reducible assumption | exact rfl | (rw [State.mk_rest]; with_reducible refine hP.rest ?_ ?_)
    | dsimp -zeta only

theorem State.setLampSt_keeps (hP : Closed P) {s : State} {k : Nat} {v : Nat} (h : P s) : P (State.setLampSt s k v) :=
    by
  unfold State.setLampSt
  repeat' first
    | with_reducible assumption | with_reducible refine State.wrf_keeps hP ?_ | dsimp -zeta only

theorem State.setLevel_keeps (hP : Closed P) {s : State} {k : Nat} {v : Nat} (h : P s) : P (State.setLevel s k v) :=
    by
  unfold State.setLevel
  repeat' first
    | with_reducible assumption | with_reducible refine State.wrf_keeps hP ?_ | dsimp -zeta only

theorem State.alert_keeps (hP : Closed P) {s : State} {i : Nat} (h : P s) : P (State.alert s i) := by
  unfold State.alert
  repeat' first
    | with_reducible assumption | exact rfl | (rw [State.mk_rest]; with_reducible refine hP.rest ?_ ?_)
    | (extract_lets +onlyGivenNames x; try clear_value x) | dsimp -zeta only

theorem State.pairDark_keeps (hP : Closed P) {s : State} {pair : Nat} (h : P s) : P (State.pairDark s pair) := by
  unfold State.pairDark
  repeat' first
    | with_reducible assumption | with_reducible refine foldl_keeps (fun _ _ _ => ?_) ?_
    | with_reducible refine foldl_keeps2 (fun _ _ _ => ?_) ?_ | with_reducible refine State.linkDown_keeps hP ?_
    | split | intro _ | dsimp -zeta only

theorem State.ramp_keeps (hP : Closed P) {s : State} {k : Nat} {level : Nat} {retire : Bool} (h : P s) : P (State.ramp
    s k level retire) := by
  unfold State.ramp
  repeat' first
    | with_reducible assumption | with_reducible refine State.setLampSt_keeps hP ?_
    | with_reducible refine State.setLamp_keeps hP ?_ | with_reducible refine State.wrf_keeps hP ?_
    | (extract_lets +onlyGivenNames x; first | (refine (?_ : P x → _) ?_; rotate_left; unfold x; rotate_left; clear_value x; intro) | try clear_value x)
    | split | dsimp -zeta only

theorem State.lightLamp_keeps (hP : Closed P) {s : State} {k : Nat} (h : P s) : P (State.lightLamp s k) := by
  unfold State.lightLamp
  repeat' first
    | with_reducible assumption | with_reducible refine State.ramp_keeps hP ?_
    | (extract_lets +onlyGivenNames x; try clear_value x) | split | dsimp -zeta only

theorem State.keepLampRec_keeps (hP : Closed P) {s : State} {k : Nat} {r : List Byte × Nat × Nat} (h : P s) : P
    (State.keepLampRec s k r) := by
  unfold State.keepLampRec
  repeat' first
    | with_reducible assumption | exact rfl | (rw [State.mk_rest]; with_reducible refine hP.rest ?_ ?_)
    | dsimp -zeta only

theorem State.endRamp_keeps (hP : Closed P) {s : State} {k : Nat} (h : P s) : P (State.endRamp s k) := by
  unfold State.endRamp
  repeat' first
    | with_reducible assumption | with_reducible refine State.setLevel_keeps hP ?_
    | with_reducible refine State.wrf_keeps hP ?_ | with_reducible refine State.keepLampRec_keeps hP ?_
    | with_reducible refine State.setLamp_keeps hP ?_ | with_reducible refine State.setLampSt_keeps hP ?_
    | (extract_lets +onlyGivenNames x; first | (refine (?_ : P x → _) ?_; rotate_left; unfold x; rotate_left; clear_value x; intro) | try clear_value x)
    | split | dsimp -zeta only

theorem State.endRamps_keeps (hP : Closed P) {s : State} {pair : Nat} (h : P s) : P (State.endRamps s pair) := by
  unfold State.endRamps
  repeat' first
    | with_reducible assumption | with_reducible refine State.endRamp_keeps hP ?_ | dsimp -zeta only

theorem State.challengeLamp_keeps (hP : Closed P) {s : State} {k : Nat} (h : P s) : P (State.challengeLamp s k) := by
  unfold State.challengeLamp
  repeat' first
    | with_reducible assumption | with_reducible refine hP.emit ?_ | with_reducible refine State.random_keeps hP ?_
    | with_reducible refine State.setLamp_keeps hP ?_ | with_reducible refine State.setLampSt_keeps hP ?_
    | with_reducible refine keeps_eq2 (by assumption) ?_ | (extract_lets +onlyGivenNames x; try clear_value x) | split
    | dsimp -zeta only

theorem State.clearSlot_keeps (hP : Closed P) {s : State} {k : Nat} (h : P s) : P (State.clearSlot s k) := by
  unfold State.clearSlot
  repeat' first
    | with_reducible assumption | with_reducible refine hP.resetRegs ?_ | dsimp -zeta only

theorem execLampInserted_keeps (hP : Closed P) {k : LampId} {s : State} (h : P s) : AllNext P (execLampInserted k s)
    := by
  unfold execLampInserted
  repeat' first
    | with_reducible assumption | with_reducible refine AllNext.next ?_
    | with_reducible refine State.setLamp_keeps hP ?_ | with_reducible refine State.clearSlot_keeps hP ?_
    | with_reducible refine State.challengeLamp_keeps hP ?_
    | (extract_lets +onlyGivenNames x; first | (refine (?_ : P x → _) ?_; rotate_left; unfold x; rotate_left; clear_value x; intro) | try clear_value x)
    | split | dsimp -zeta only

theorem State.refuseLamp_keeps (hP : Closed P) {s : State} {k : Nat} (h : P s) : P (State.refuseLamp s k) := by
  unfold State.refuseLamp
  repeat' first
    | with_reducible assumption | with_reducible refine State.raise_keeps hP ?_
    | with_reducible refine State.orBits_keeps hP ?_ | with_reducible refine State.setLampSt_keeps hP ?_
    | dsimp -zeta only

theorem State.judgeLamp_keeps (hP : Closed P) {s : State} {k : Nat} {eolNow : Bool} (h : P s) : P (State.judgeLamp s k
    eolNow) := by
  unfold State.judgeLamp
  repeat' first
    | with_reducible assumption | with_reducible refine State.alert_keeps hP ?_
    | with_reducible refine State.wrf_keeps hP ?_ | with_reducible refine State.setLamp_keeps hP ?_
    | with_reducible refine State.raise_keeps hP ?_
    | (extract_lets +onlyGivenNames x; first | (refine (?_ : P x → _) ?_; rotate_left; unfold x; rotate_left; clear_value x; intro) | try clear_value x)
    | split | dsimp -zeta only

theorem execLampAuthResponse_keeps (hP : Closed P) {k : LampId} {rec : List Byte} {lit : W32} {aged : W32} {verified :
    Bool} {s : State} (h : P s) : AllNext P (execLampAuthResponse k rec lit aged verified s) := by
  unfold execLampAuthResponse
  repeat' first
    | with_reducible assumption | with_reducible refine hP.wr ?_ | with_reducible refine AllNext.next ?_
    | with_reducible refine foldl_keeps (fun _ _ _ => ?_) ?_ | with_reducible refine foldl_keeps2 (fun _ _ _ => ?_) ?_
    | with_reducible refine State.refuseLamp_keeps hP ?_ | with_reducible refine State.keepLampRec_keeps hP ?_
    | with_reducible refine State.setLamp_keeps hP ?_ | with_reducible refine State.setLampSt_keeps hP ?_
    | with_reducible refine State.judgeLamp_keeps hP ?_ | with_reducible refine State.lightLamp_keeps hP ?_
    | (extract_lets +onlyGivenNames x; first | (refine (?_ : P x → _) ?_; rotate_left; unfold x; rotate_left; clear_value x; intro) | try clear_value x)
    | split | intro _ | dsimp -zeta only

theorem execLampAuthTimeout_keeps (hP : Closed P) {k : LampId} {s : State} (h : P s) : AllNext P (execLampAuthTimeout
    k s) := by
  unfold execLampAuthTimeout
  repeat' first
    | with_reducible assumption | with_reducible refine AllNext.next ?_
    | with_reducible refine State.refuseLamp_keeps hP ?_ | split | dsimp -zeta only

theorem State.failLamp_keeps (hP : Closed P) {s : State} {k : Nat} (h : P s) : P (State.failLamp s k) := by
  unfold State.failLamp
  repeat' first
    | with_reducible assumption | with_reducible refine State.orBits_keeps hP ?_
    | with_reducible refine State.wrf_keeps hP ?_ | with_reducible refine State.setLevel_keeps hP ?_
    | with_reducible refine State.setLampSt_keeps hP ?_ | with_reducible refine State.raise_keeps hP ?_
    | with_reducible refine State.setLamp_keeps hP ?_ | with_reducible refine State.pairDark_keeps hP ?_
    | (extract_lets +onlyGivenNames x; first | (refine (?_ : P x → _) ?_; rotate_left; unfold x; rotate_left; clear_value x; intro) | try clear_value x)
    | split | dsimp -zeta only

theorem execLampFail_keeps (hP : Closed P) {k : LampId} {s : State} (h : P s) : AllNext P (execLampFail k s) := by
  unfold execLampFail
  repeat' first
    | with_reducible assumption | with_reducible refine AllNext.next ?_
    | with_reducible refine State.failLamp_keeps hP ?_ | split | dsimp -zeta only

theorem execLampPulled_keeps (hP : Closed P) {k : LampId} {s : State} (h : P s) : AllNext P (execLampPulled k s) := by
  unfold execLampPulled
  repeat' first
    | with_reducible assumption | with_reducible refine AllNext.next ?_
    | with_reducible refine State.raise_keeps hP ?_ | with_reducible refine State.failLamp_keeps hP ?_
    | with_reducible refine State.setLamp_keeps hP ?_ | with_reducible refine State.clearSlot_keeps hP ?_
    | with_reducible refine State.orBits_keeps hP ?_
    | (extract_lets +onlyGivenNames x; first | (refine (?_ : P x → _) ?_; rotate_left; unfold x; rotate_left; clear_value x; intro) | try clear_value x)
    | split | dsimp -zeta only

theorem execLampInterlock_keeps (hP : Closed P) {k : LampId} {s : State} (h : P s) : AllNext P (execLampInterlock k s)
    := by
  unfold execLampInterlock
  repeat' first
    | with_reducible assumption | with_reducible refine hP.wr ?_ | with_reducible refine AllNext.next ?_
    | with_reducible refine State.setLevel_keeps hP ?_ | split | dsimp -zeta only

theorem execLampMinute_keeps (hP : Closed P) {k : LampId} {s : State} (h : P s) : AllNext P (execLampMinute k s) := by
  unfold execLampMinute
  repeat' first
    | with_reducible assumption | with_reducible refine hP.wr ?_ | with_reducible refine AllNext.next ?_
    | with_reducible refine State.setLamp_keeps hP ?_ | with_reducible refine State.judgeLamp_keeps hP ?_
    | with_reducible refine State.keepLampRec_keeps hP ?_
    | (extract_lets +onlyGivenNames x; first | (refine (?_ : P x → _) ?_; rotate_left; unfold x; rotate_left; clear_value x; intro) | try clear_value x)
    | split | dsimp -zeta only

theorem execLampHour_keeps (hP : Closed P) {k : LampId} {meanUa : Nat} {s : State} (h : P s) : AllNext P (execLampHour
    k meanUa s) := by
  unfold execLampHour
  repeat' first
    | with_reducible assumption | with_reducible refine hP.wr ?_ | with_reducible refine AllNext.next ?_
    | with_reducible refine State.judgeLamp_keeps hP ?_ | with_reducible refine State.setLamp_keeps hP ?_
    | (extract_lets +onlyGivenNames x; try clear_value x) | split | dsimp -zeta only

theorem execLampBiasSample_keeps (hP : Closed P) {k : LampId} {ua : BitVec 20} {uw : BitVec 20} {s : State} (h : P s)
    : AllNext P (execLampBiasSample k ua uw s) := by
  unfold execLampBiasSample
  repeat' first
    | with_reducible assumption | with_reducible refine hP.wr ?_ | with_reducible refine AllNext.next ?_
    | with_reducible refine State.judgeLamp_keeps hP ?_
    | (extract_lets +onlyGivenNames x; first | (refine (?_ : P x → _) ?_; rotate_left; unfold x; rotate_left; clear_value x; intro) | try clear_value x)
    | split | dsimp -zeta only

theorem State.autoLight_keeps (hP : Closed P) {s : State} {on : Bool} (h : P s) : P (State.autoLight s on) := by
  unfold State.autoLight
  repeat' first
    | with_reducible assumption | with_reducible refine foldl_keeps (fun _ _ _ => ?_) ?_
    | with_reducible refine foldl_keeps2 (fun _ _ _ => ?_) ?_ | with_reducible refine State.wrf_keeps hP ?_
    | with_reducible refine State.lightLamp_keeps hP ?_
    | (extract_lets +onlyGivenNames x; first | (refine (?_ : P x → _) ?_; rotate_left; unfold x; rotate_left; clear_value x; intro) | try clear_value x)
    | split | intro _ | dsimp -zeta only

theorem execAutoLight_keeps (hP : Closed P) {s : State} (h : P s) : AllNext P (execAutoLight s) := by
  unfold execAutoLight
  repeat' first
    | with_reducible assumption | with_reducible refine AllNext.next ?_
    | with_reducible refine State.autoLight_keeps hP ?_ | split | dsimp -zeta only

theorem execOpenFibreBlock_keeps (hP : Closed P) {p : PortId} {s : State} (h : P s) : AllNext P (execOpenFibreBlock p
    s) := by
  unfold execOpenFibreBlock
  repeat' first
    | with_reducible assumption | with_reducible refine AllNext.next ?_
    | with_reducible refine State.setPort_keeps hP ?_ | (extract_lets +onlyGivenNames x; try clear_value x) | split
    | dsimp -zeta only

theorem execOpenFibreProbe_keeps (hP : Closed P) {p : PortId} {peer : Bool} {s : State} (h : P s) : AllNext P
    (execOpenFibreProbe p peer s) := by
  unfold execOpenFibreProbe
  repeat' first
    | with_reducible assumption | with_reducible refine hP.emit ?_ | with_reducible refine AllNext.next ?_
    | with_reducible refine State.setPort_keeps hP ?_ | (extract_lets +onlyGivenNames x; try clear_value x) | split
    | dsimp -zeta only

theorem State.lightPairs_keeps (hP : Closed P) {s : State} (h : P s) : P (State.lightPairs s) := by
  unfold State.lightPairs
  repeat' first
    | with_reducible assumption | with_reducible refine foldl_keeps (fun _ _ _ => ?_) ?_
    | with_reducible refine foldl_keeps2 (fun _ _ _ => ?_) ?_ | with_reducible refine State.ramp_keeps hP ?_
    | (extract_lets +onlyGivenNames x; try clear_value x) | split | intro _ | dsimp -zeta only

end Sys2Proof.Machine
end

