-- ==== Sys2Proof/Laws/KeepsPower.lean ====
section
/-!
SUPPORT. Laws/KeepsPower.lean: every function of Machine/Power.lean keeps a closed property (Laws/Keeps.lean).
-/
set_option linter.unusedVariables false
set_option linter.tactic.unusedName false

namespace Sys2Proof.Machine

open Sys2Proof

variable {P : State → Prop}

theorem State.loadMasks_keeps (hP : Closed P) {s : State} (h : P s) : P (State.loadMasks s) := by
  unfold State.loadMasks
  repeat' first
    | with_reducible assumption | with_reducible refine hP.resetRegs ?_
    | with_reducible refine foldl_keeps (fun _ _ _ => ?_) ?_ | with_reducible refine foldl_keeps2 (fun _ _ _ => ?_) ?_
    | with_reducible refine State.wrf_keeps hP ?_
    | (extract_lets +onlyGivenNames x; first | (refine (?_ : P x → _) ?_; rotate_left; unfold x; rotate_left; clear_value x; intro) | try clear_value x)
    | split | intro _ | dsimp -zeta only

theorem State.setImage_keeps (hP : Closed P) {s : State} {img : List Byte} {b : Bool} {bytes : List Byte} (h : P s) :
    P (State.setImage s img b bytes) := by
  unfold State.setImage
  repeat' first
    | with_reducible assumption | exact rfl | (rw [State.mk_rest]; with_reducible refine hP.rest ?_ ?_)
    | dsimp -zeta only

theorem State.tornCopy_keeps (hP : Closed P) {s : State} (h : P s) : P (State.tornCopy s) := by
  unfold State.tornCopy
  repeat' first
    | with_reducible assumption | with_reducible refine State.takeFree_keeps hP ?_
    | with_reducible refine State.setImage_keeps hP ?_ | with_reducible refine keeps_eq2 (by assumption) ?_ | split
    | dsimp -zeta only

theorem State.latchCause_keeps (hP : Closed P) {s : State} {bits : Nat} {rail : Nat} (h : P s) : P (State.latchCause s
    bits rail) := by
  unfold State.latchCause
  repeat' first
    | with_reducible assumption | exact rfl | (rw [State.mk_rest]; with_reducible refine hP.rest ?_ ?_)
    | (extract_lets +onlyGivenNames x; try clear_value x) | split | dsimp -zeta only

theorem State.powerOff_keeps (hP : Closed P) {s : State} {bits : Nat} {rail : Nat} {trip : Bool} (h : P s) : P
    (State.powerOff s bits rail trip) := by
  unfold State.powerOff
  repeat' first
    | with_reducible assumption | exact rfl | with_reducible refine State.latchCause_keeps hP ?_
    | (rw [State.mk_rest]; with_reducible refine hP.rest ?_ ?_)
    | (extract_lets +onlyGivenNames x; first | (refine (?_ : P x → _) ?_; rotate_left; unfold x; rotate_left; clear_value x; intro) | try clear_value x)
    | split | dsimp -zeta only

theorem execInputPowerApplied_keeps (hP : Closed P) {addr : Fin 8} {s : State} (h : P s) : AllNext P
    (execInputPowerApplied addr s) := by
  unfold execInputPowerApplied
  repeat' first
    | with_reducible assumption | exact rfl | with_reducible refine AllNext.next ?_
    | (rw [State.mk_rest]; with_reducible refine hP.rest ?_ ?_) | (extract_lets +onlyGivenNames x; try clear_value x)
    | split | dsimp -zeta only

theorem execInputPowerLost_keeps (hP : Closed P) {s : State} (h : P s) : AllNext P (execInputPowerLost s) := by
  unfold execInputPowerLost
  repeat' first
    | with_reducible assumption | exact rfl | with_reducible refine AllNext.next ?_
    | (rw [State.mk_rest]; with_reducible refine hP.rest ?_ ?_) | (extract_lets +onlyGivenNames x; try clear_value x)
    | dsimp -zeta only

theorem execPwrEnRise_keeps (hP : Closed P) {quietNs : Nat} {bscanEn : Bool} {s : State} (h : P s) : AllNext P
    (execPwrEnRise quietNs bscanEn s) := by
  unfold execPwrEnRise
  repeat' first
    | with_reducible assumption | exact rfl | with_reducible refine AllNext.next ?_
    | (rw [State.mk_rest]; with_reducible refine hP.rest ?_ ?_) | (extract_lets +onlyGivenNames x; try clear_value x)
    | split | dsimp -zeta only

theorem execPwrGoodRelease_keeps (hP : Closed P) {s : State} (h : P s) : AllNext P (execPwrGoodRelease s) := by
  unfold execPwrGoodRelease
  repeat' first
    | with_reducible assumption | with_reducible refine hP.powerOn ?_ | with_reducible refine AllNext.next ?_ | split
    | dsimp -zeta only

theorem execPwrEnFall_keeps (hP : Closed P) {s : State} (h : P s) : AllNext P (execPwrEnFall s) := by
  unfold execPwrEnFall
  repeat' first
    | with_reducible assumption | exact rfl | with_reducible refine AllNext.next ?_
    | with_reducible refine State.powerOff_keeps hP ?_ | (rw [State.mk_rest]; with_reducible refine hP.rest ?_ ?_)
    | (extract_lets +onlyGivenNames x; first | (refine (?_ : P x → _) ?_; rotate_left; unfold x; rotate_left; clear_value x; intro) | try clear_value x)
    | split | dsimp -zeta only

theorem execEmergOffExternal_keeps (hP : Closed P) {s : State} (h : P s) : AllNext P (execEmergOffExternal s) := by
  unfold execEmergOffExternal
  repeat' first
    | with_reducible assumption | exact rfl | with_reducible refine AllNext.next ?_
    | with_reducible refine State.latchCause_keeps hP ?_ | with_reducible refine State.powerOff_keeps hP ?_
    | (rw [State.mk_rest]; with_reducible refine hP.rest ?_ ?_)
    | (extract_lets +onlyGivenNames x; first | (refine (?_ : P x → _) ?_; rotate_left; unfold x; rotate_left; clear_value x; intro) | try clear_value x)
    | split | dsimp -zeta only

theorem execEmergOffRelease_keeps (hP : Closed P) {s : State} (h : P s) : AllNext P (execEmergOffRelease s) := by
  unfold execEmergOffRelease
  repeat' first
    | with_reducible assumption | exact rfl | with_reducible refine AllNext.next ?_
    | (rw [State.mk_rest]; with_reducible refine hP.rest ?_ ?_) | (extract_lets +onlyGivenNames x; try clear_value x)
    | dsimp -zeta only

theorem execInputOvervoltage_keeps (hP : Closed P) {s : State} (h : P s) : AllNext P (execInputOvervoltage s) := by
  unfold execInputOvervoltage
  repeat' first
    | with_reducible assumption | with_reducible refine AllNext.next ?_
    | with_reducible refine State.powerOff_keeps hP ?_ | split | dsimp -zeta only

theorem execInputUndervoltage_keeps (hP : Closed P) {s : State} (h : P s) : AllNext P (execInputUndervoltage s) := by
  unfold execInputUndervoltage
  repeat' first
    | with_reducible assumption | with_reducible refine AllNext.next ?_
    | with_reducible refine State.powerOff_keeps hP ?_ | split | dsimp -zeta only

theorem execRailFault_keeps (hP : Closed P) {rail : Fin 16} {s : State} (h : P s) : AllNext P (execRailFault rail s)
    := by
  unfold execRailFault
  repeat' first
    | with_reducible assumption | with_reducible refine AllNext.next ?_
    | with_reducible refine State.powerOff_keeps hP ?_ | split | dsimp -zeta only

theorem execThermalTrip_keeps (hP : Closed P) {s : State} (h : P s) : AllNext P (execThermalTrip s) := by
  unfold execThermalTrip
  repeat' first
    | with_reducible assumption | with_reducible refine AllNext.next ?_
    | with_reducible refine State.powerOff_keeps hP ?_ | split | dsimp -zeta only

theorem execRailWarn_keeps (hP : Closed P) {rail : Fin 16} {s : State} (h : P s) : AllNext P (execRailWarn rail s) :=
    by
  unfold execRailWarn
  repeat' first
    | with_reducible assumption | with_reducible refine AllNext.next ?_
    | with_reducible refine State.raise_keeps hP ?_ | with_reducible refine State.orBits_keeps hP ?_ | split
    | dsimp -zeta only

theorem execInputOutOfRange_keeps (hP : Closed P) {s : State} (h : P s) : AllNext P (execInputOutOfRange s) := by
  unfold execInputOutOfRange
  repeat' first
    | with_reducible assumption | exact rfl | with_reducible refine AllNext.next ?_
    | with_reducible refine State.alert_keeps hP ?_ | (rw [State.mk_rest]; with_reducible refine hP.rest ?_ ?_)
    | (extract_lets +onlyGivenNames x; try clear_value x) | split | dsimp -zeta only

theorem execInputReturnsToRange_keeps (hP : Closed P) {s : State} (h : P s) : AllNext P (execInputReturnsToRange s) :=
    by
  unfold execInputReturnsToRange
  repeat' first
    | with_reducible assumption | exact rfl | with_reducible refine AllNext.next ?_
    | (rw [State.mk_rest]; with_reducible refine hP.rest ?_ ?_) | (extract_lets +onlyGivenNames x; try clear_value x)
    | dsimp -zeta only

theorem State.smbRead_keeps (hP : Closed P) {s : State} {code : Nat} {data : List Byte} (h : P s) : P (State.smbRead s
    code data) := by
  unfold State.smbRead
  repeat' first
    | with_reducible assumption | with_reducible refine hP.emit ?_ | split | dsimp -zeta only

theorem execSmbStatus_keeps (hP : Closed P) {s : State} (h : P s) : AllNext P (execSmbStatus s) := by
  unfold execSmbStatus
  repeat' first
    | with_reducible assumption | with_reducible refine AllNext.next ?_
    | with_reducible refine State.smbRead_keeps hP ?_ | dsimp -zeta only

theorem execSmbInputVoltage_keeps (hP : Closed P) {reading : BitVec 16} {s : State} (h : P s) : AllNext P
    (execSmbInputVoltage reading s) := by
  unfold execSmbInputVoltage
  repeat' first
    | with_reducible assumption | with_reducible refine AllNext.next ?_
    | with_reducible refine State.smbRead_keeps hP ?_ | dsimp -zeta only

theorem execSmbInputCurrent_keeps (hP : Closed P) {reading : BitVec 16} {s : State} (h : P s) : AllNext P
    (execSmbInputCurrent reading s) := by
  unfold execSmbInputCurrent
  repeat' first
    | with_reducible assumption | with_reducible refine AllNext.next ?_
    | with_reducible refine State.smbRead_keeps hP ?_ | dsimp -zeta only

theorem execSmbInputPower_keeps (hP : Closed P) {reading : BitVec 16} {s : State} (h : P s) : AllNext P
    (execSmbInputPower reading s) := by
  unfold execSmbInputPower
  repeat' first
    | with_reducible assumption | with_reducible refine AllNext.next ?_
    | with_reducible refine State.smbRead_keeps hP ?_ | dsimp -zeta only

theorem execSmbHottest_keeps (hP : Closed P) {s : State} (h : P s) : AllNext P (execSmbHottest s) := by
  unfold execSmbHottest
  repeat' first
    | with_reducible assumption | with_reducible refine AllNext.next ?_
    | with_reducible refine State.smbRead_keeps hP ?_ | dsimp -zeta only

theorem execSmbInlet_keeps (hP : Closed P) {reading : BitVec 16} {s : State} (h : P s) : AllNext P (execSmbInlet
    reading s) := by
  unfold execSmbInlet
  repeat' first
    | with_reducible assumption | with_reducible refine AllNext.next ?_
    | with_reducible refine State.smbRead_keeps hP ?_ | dsimp -zeta only

theorem execSmbOutlet_keeps (hP : Closed P) {reading : BitVec 16} {s : State} (h : P s) : AllNext P (execSmbOutlet
    reading s) := by
  unfold execSmbOutlet
  repeat' first
    | with_reducible assumption | with_reducible refine AllNext.next ?_
    | with_reducible refine State.smbRead_keeps hP ?_ | dsimp -zeta only

theorem execSmbOffCause_keeps (hP : Closed P) {s : State} (h : P s) : AllNext P (execSmbOffCause s) := by
  unfold execSmbOffCause
  repeat' first
    | with_reducible assumption | with_reducible refine AllNext.next ?_
    | with_reducible refine State.smbRead_keeps hP ?_ | dsimp -zeta only

theorem execSmbAlertSource_keeps (hP : Closed P) {s : State} (h : P s) : AllNext P (execSmbAlertSource s) := by
  unfold execSmbAlertSource
  repeat' first
    | with_reducible assumption | with_reducible refine AllNext.next ?_
    | with_reducible refine State.smbRead_keeps hP ?_ | dsimp -zeta only

theorem execSmbAlertClear_keeps (hP : Closed P) {w : SmbWord} {pe : Option Byte} {s : State} (h : P s) : AllNext P
    (execSmbAlertClear w pe s) := by
  unfold execSmbAlertClear
  repeat' first
    | with_reducible assumption | exact rfl | with_reducible refine hP.emit ?_ | with_reducible refine AllNext.next ?_
    | with_reducible refine foldl_keeps (fun _ _ _ => ?_) ?_ | with_reducible refine foldl_keeps2 (fun _ _ _ => ?_) ?_
    | (rw [State.mk_rest]; with_reducible refine hP.rest ?_ ?_) | (extract_lets +onlyGivenNames x; try clear_value x)
    | split | intro _ | dsimp -zeta only

theorem execSmbIdentity_keeps (hP : Closed P) {s : State} (h : P s) : AllNext P (execSmbIdentity s) := by
  unfold execSmbIdentity
  repeat' first
    | with_reducible assumption | with_reducible refine AllNext.next ?_
    | with_reducible refine State.smbRead_keeps hP ?_ | dsimp -zeta only

theorem execSmbAlertResponse_keeps (hP : Closed P) {s : State} (h : P s) : AllNext P (execSmbAlertResponse s) := by
  unfold execSmbAlertResponse
  repeat' first
    | with_reducible assumption | with_reducible refine hP.emit ?_ | with_reducible refine AllNext.next ?_ | split
    | dsimp -zeta only

theorem State.clearOffCause_keeps (hP : Closed P) {s : State} {bits : Nat} (h : P s) : P (State.clearOffCause s bits)
    := by
  unfold State.clearOffCause
  repeat' first
    | with_reducible assumption | exact rfl | with_reducible refine foldl_keeps (fun _ _ _ => ?_) ?_
    | with_reducible refine foldl_keeps2 (fun _ _ _ => ?_) ?_
    | (rw [State.mk_rest]; with_reducible refine hP.rest ?_ ?_) | (extract_lets +onlyGivenNames x; try clear_value x)
    | split | intro _ | dsimp -zeta only

theorem execPwrOffCauseClear_keeps (hP : Closed P) {bits : W32} {s : State} (h : P s) : AllNext P
    (execPwrOffCauseClear bits s) := by
  unfold execPwrOffCauseClear
  repeat' first
    | with_reducible assumption | with_reducible refine AllNext.next ?_
    | with_reducible refine State.clearOffCause_keeps hP ?_ | split | dsimp -zeta only

theorem State.setScan_keeps (hP : Closed P) {s : State} {die : Nat} {i : ScanIr} (h : P s) : P (State.setScan s die i)
    := by
  unfold State.setScan
  repeat' first
    | with_reducible assumption | exact rfl | (rw [State.mk_rest]; with_reducible refine hP.rest ?_ ?_)
    | (extract_lets +onlyGivenNames x; try clear_value x) | dsimp -zeta only

theorem execScanBypass_keeps (hP : Closed P) {die : Fin 5} {s : State} (h : P s) : AllNext P (execScanBypass die s) :=
    by
  unfold execScanBypass
  repeat' first
    | with_reducible assumption | with_reducible refine AllNext.next ?_
    | with_reducible refine State.setScan_keeps hP ?_ | split | dsimp -zeta only

theorem execScanIdcode_keeps (hP : Closed P) {die : Fin 5} {s : State} (h : P s) : AllNext P (execScanIdcode die s) :=
    by
  unfold execScanIdcode
  repeat' first
    | with_reducible assumption | with_reducible refine hP.emit ?_ | with_reducible refine AllNext.next ?_
    | with_reducible refine State.setScan_keeps hP ?_ | split | dsimp -zeta only

theorem execScanSample_keeps (hP : Closed P) {die : Fin 5} {cells : List Byte} {s : State} (h : P s) : AllNext P
    (execScanSample die cells s) := by
  unfold execScanSample
  repeat' first
    | with_reducible assumption | exact rfl | with_reducible refine hP.emit ?_ | with_reducible refine AllNext.next ?_
    | with_reducible refine State.takeFree_keeps hP ?_ | with_reducible refine State.setScan_keeps hP ?_
    | (rw [State.mk_rest]; with_reducible refine hP.rest ?_ ?_) | with_reducible refine keeps_eq2 (by assumption) ?_
    | (extract_lets +onlyGivenNames x; first | (refine (?_ : P x → _) ?_; rotate_left; unfold x; rotate_left; clear_value x; intro) | try clear_value x)
    | split | dsimp -zeta only

theorem State.scanDrive_keeps (hP : Closed P) {s : State} {die : Nat} {i : ScanIr} (h : P s) : P (State.scanDrive s
    die i) := by
  unfold State.scanDrive
  repeat' first
    | with_reducible assumption | with_reducible refine State.setScan_keeps hP ?_ | split | dsimp -zeta only

theorem execScanExtest_keeps (hP : Closed P) {die : Fin 5} {s : State} (h : P s) : AllNext P (execScanExtest die s) :=
    by
  unfold execScanExtest
  repeat' first
    | with_reducible assumption | with_reducible refine AllNext.next ?_
    | with_reducible refine State.scanDrive_keeps hP ?_ | dsimp -zeta only

theorem execScanClamp_keeps (hP : Closed P) {die : Fin 5} {s : State} (h : P s) : AllNext P (execScanClamp die s) :=
    by
  unfold execScanClamp
  repeat' first
    | with_reducible assumption | with_reducible refine AllNext.next ?_
    | with_reducible refine State.scanDrive_keeps hP ?_ | dsimp -zeta only

theorem execScanHighz_keeps (hP : Closed P) {die : Fin 5} {s : State} (h : P s) : AllNext P (execScanHighz die s) :=
    by
  unfold execScanHighz
  repeat' first
    | with_reducible assumption | with_reducible refine AllNext.next ?_
    | with_reducible refine State.scanDrive_keeps hP ?_ | dsimp -zeta only

end Sys2Proof.Machine
end

