-- ==== Sys2Proof/Laws/KeepsClocks.lean ====
section
/-!
SUPPORT. Laws/KeepsClocks.lean: every function of Machine/Clocks.lean keeps a closed property (Laws/Keeps.lean).
-/
set_option linter.unusedVariables false
set_option linter.tactic.unusedName false

namespace Sys2Proof.Machine

open Sys2Proof

variable {P : State → Prop}

theorem State.intLostFor_keeps (hP : Closed P) {s : State} {d : Nat} (h : P s) : P (State.intLostFor s d) := by
  unfold State.intLostFor
  repeat' first
    | with_reducible assumption | with_reducible refine State.wrf_keeps hP ?_ | split | dsimp -zeta only

theorem State.intLost_keeps (hP : Closed P) {s : State} (h : P s) : P (State.intLost s) := by
  unfold State.intLost
  repeat' first
    | with_reducible assumption | with_reducible refine State.intLostFor_keeps hP ?_ | dsimp -zeta only

theorem State.gateForRoot_keeps (hP : Closed P) {s : State} (h : P s) : P (State.gateForRoot s) := by
  unfold State.gateForRoot
  repeat' first
    | with_reducible assumption | exact rfl | with_reducible refine foldl_keeps (fun _ _ _ => ?_) ?_
    | with_reducible refine foldl_keeps2 (fun _ _ _ => ?_) ?_ | with_reducible refine State.linkDown_keeps hP ?_
    | with_reducible refine State.wrf_keeps hP ?_ | with_reducible refine State.intLost_keeps hP ?_
    | (rw [State.mk_rest]; with_reducible refine hP.rest ?_ ?_)
    | (extract_lets +onlyGivenNames x; first | (refine (?_ : P x → _) ?_; rotate_left; unfold x; rotate_left; clear_value x; intro) | try clear_value x)
    | split | intro _ | dsimp -zeta only

theorem State.noteClkFail_keeps (hP : Closed P) {s : State} {n : Nat} (h : P s) : P (State.noteClkFail s n) := by
  unfold State.noteClkFail
  repeat' first
    | with_reducible assumption | exact rfl | with_reducible refine hP.wr ?_
    | with_reducible refine State.wrf_keeps hP ?_ | with_reducible refine State.orBits_keeps hP ?_
    | with_reducible refine State.raise_keeps hP ?_ | (rw [State.mk_rest]; with_reducible refine hP.rest ?_ ?_)
    | (extract_lets +onlyGivenNames x; first | (refine (?_ : P x → _) ?_; rotate_left; unfold x; rotate_left; clear_value x; intro) | try clear_value x)
    | split | dsimp -zeta only

theorem State.clkFail_keeps (hP : Closed P) {s : State} {n : Nat} (h : P s) : P (State.clkFail s n) := by
  unfold State.clkFail
  repeat' first
    | with_reducible assumption | with_reducible refine State.noteClkFail_keeps hP ?_
    | with_reducible refine State.gateForRoot_keeps hP ?_ | with_reducible refine State.intLost_keeps hP ?_
    | with_reducible refine State.wrf_keeps hP ?_
    | (extract_lets +onlyGivenNames x; first | (refine (?_ : P x → _) ?_; rotate_left; unfold x; rotate_left; clear_value x; intro) | try clear_value x)
    | split | dsimp -zeta only

theorem State.judgeSource_keeps (hP : Closed P) {s : State} {n : Nat} {good : Bool} {counted : Bool} (h : P s) : P
    (State.judgeSource s n good counted) := by
  unfold State.judgeSource
  repeat' first
    | with_reducible assumption | exact rfl | with_reducible refine State.wrf_keeps hP ?_
    | with_reducible refine State.clkFail_keeps hP ?_ | (rw [State.mk_rest]; with_reducible refine hP.rest ?_ ?_)
    | (extract_lets +onlyGivenNames x; first | (refine (?_ : P x → _) ?_; rotate_left; unfold x; rotate_left; clear_value x; intro) | try clear_value x)
    | split | dsimp -zeta only

theorem State.trimInt_keeps (hP : Closed P) {s : State} {int : Nat} (h : P s) : P (State.trimInt s int) := by
  unfold State.trimInt
  repeat' first
    | with_reducible assumption | exact rfl | with_reducible refine State.freeNat_keeps hP ?_
    | (rw [State.mk_rest]; with_reducible refine hP.rest ?_ ?_) | with_reducible refine keeps_eq2 (by assumption) ?_
    | (extract_lets +onlyGivenNames x; try clear_value x) | split | dsimp -zeta only

theorem execClockWindow_keeps (hP : Closed P) {mon : Nat} {ref : Nat} {int : Nat} {root : Nat} {locked : Bool} {s :
    State} (h : P s) : AllNext P (execClockWindow mon ref int root locked s) := by
  unfold execClockWindow
  repeat' first
    | with_reducible assumption | exact rfl | with_reducible refine AllNext.next ?_
    | with_reducible refine State.judgeSource_keeps hP ?_ | with_reducible refine State.wrf_keeps hP ?_
    | with_reducible refine State.trimInt_keeps hP ?_ | with_reducible refine State.raise_keeps hP ?_
    | (rw [State.mk_rest]; with_reducible refine hP.rest ?_ ?_)
    | (extract_lets +onlyGivenNames x; first | (refine (?_ : P x → _) ?_; rotate_left; unfold x; rotate_left; clear_value x; intro) | try clear_value x)
    | split | dsimp -zeta only

theorem execEdgeLoss_keeps (hP : Closed P) {src : Fin 4} {s : State} (h : P s) : AllNext P (execEdgeLoss src s) := by
  unfold execEdgeLoss
  repeat' first
    | with_reducible assumption | with_reducible refine AllNext.next ?_
    | with_reducible refine State.clkFail_keeps hP ?_ | split | dsimp -zeta only

theorem State.switchDomain_keeps (hP : Closed P) {s : State} {d : Nat} {src : Nat} (h : P s) : P (State.switchDomain s
    d src) := by
  unfold State.switchDomain
  repeat' first
    | with_reducible assumption | with_reducible refine foldl_keeps (fun _ _ _ => ?_) ?_
    | with_reducible refine foldl_keeps2 (fun _ _ _ => ?_) ?_ | with_reducible refine State.linkDown_keeps hP ?_
    | with_reducible refine State.wrf_keeps hP ?_
    | (extract_lets +onlyGivenNames x; first | (refine (?_ : P x → _) ?_; rotate_left; unfold x; rotate_left; clear_value x; intro) | try clear_value x)
    | split | intro _ | dsimp -zeta only

theorem execPointChange_keeps (hP : Closed P) {s : State} (h : P s) : AllNext P (execPointChange s) := by
  unfold execPointChange
  repeat' first
    | with_reducible assumption | with_reducible refine AllNext.next ?_ | with_reducible refine State.wrf_keeps hP ?_
    | (extract_lets +onlyGivenNames x; try clear_value x) | split | dsimp -zeta only

theorem State.capAlerts_keeps (hP : Closed P) {s : State} (h : P s) : P (State.capAlerts s) := by
  unfold State.capAlerts
  repeat' first
    | with_reducible assumption | with_reducible refine State.alert_keeps hP ?_
    | (extract_lets +onlyGivenNames x; first | (refine (?_ : P x → _) ?_; rotate_left; unfold x; rotate_left; clear_value x; intro) | try clear_value x)
    | split | dsimp -zeta only

theorem State.setCap_keeps (hP : Closed P) {s : State} {c : Nat} (h : P s) : P (State.setCap s c) := by
  unfold State.setCap
  repeat' first
    | with_reducible assumption | with_reducible refine State.capAlerts_keeps hP ?_
    | with_reducible refine State.wrf_keeps hP ?_ | dsimp -zeta only

theorem State.askCap_keeps (hP : Closed P) {s : State} {c : Nat} (h : P s) : P (State.askCap s c) := by
  unfold State.askCap
  repeat' first
    | with_reducible assumption | exact rfl | with_reducible refine State.setCap_keeps hP ?_
    | (rw [State.mk_rest]; with_reducible refine hP.rest ?_ ?_) | (extract_lets +onlyGivenNames x; try clear_value x)
    | split | dsimp -zeta only

theorem State.takeCap_keeps (hP : Closed P) {s : State} (h : P s) : P (State.takeCap s) := by
  unfold State.takeCap
  repeat' first
    | with_reducible assumption | exact rfl | with_reducible refine State.setCap_keeps hP ?_
    | (rw [State.mk_rest]; with_reducible refine hP.rest ?_ ?_) | (extract_lets +onlyGivenNames x; try clear_value x)
    | split | dsimp -zeta only

theorem execTempSample_keeps (hP : Closed P) {temps : List (BitVec 16)} {s : State} (h : P s) : AllNext P
    (execTempSample temps s) := by
  unfold execTempSample
  repeat' first
    | with_reducible assumption | exact rfl | with_reducible refine AllNext.next ?_
    | with_reducible refine foldl_keeps (fun _ _ _ => ?_) ?_ | with_reducible refine foldl_keeps2 (fun _ _ _ => ?_) ?_
    | with_reducible refine State.wrf_keeps hP ?_ | with_reducible refine State.raise_keeps hP ?_
    | with_reducible refine State.orBits_keeps hP ?_ | with_reducible refine State.capAlerts_keeps hP ?_
    | (rw [State.mk_rest]; with_reducible refine hP.rest ?_ ?_)
    | (extract_lets +onlyGivenNames x; first | (refine (?_ : P x → _) ?_; rotate_left; unfold x; rotate_left; clear_value x; intro) | try clear_value x)
    | split | intro _ | dsimp -zeta only

theorem execPowerWindow_keeps (hP : Closed P) {meanW : Nat} {mv10 : BitVec 16} {rails : List (BitVec 16 × BitVec 16)}
    {s : State} (h : P s) : AllNext P (execPowerWindow meanW mv10 rails s) := by
  unfold execPowerWindow
  repeat' first
    | with_reducible assumption | exact rfl | with_reducible refine hP.wr ?_ | with_reducible refine AllNext.next ?_
    | with_reducible refine foldl_keeps (fun _ _ _ => ?_) ?_ | with_reducible refine foldl_keeps2 (fun _ _ _ => ?_) ?_
    | with_reducible refine State.wrf_keeps hP ?_ | with_reducible refine State.raise_keeps hP ?_
    | with_reducible refine State.orBits_keeps hP ?_ | with_reducible refine State.capAlerts_keeps hP ?_
    | (rw [State.mk_rest]; with_reducible refine hP.rest ?_ ?_)
    | (extract_lets +onlyGivenNames x; first | (refine (?_ : P x → _) ?_; rotate_left; unfold x; rotate_left; clear_value x; intro) | try clear_value x)
    | split | intro _ | dsimp -zeta only

theorem execLoadEstimate_keeps (hP : Closed P) {demand : Nat} {s : State} (h : P s) : AllNext P (execLoadEstimate
    demand s) := by
  unfold execLoadEstimate
  repeat' first
    | with_reducible assumption | exact rfl | with_reducible refine AllNext.next ?_
    | with_reducible refine State.bump_keeps hP ?_ | with_reducible refine State.orBits_keeps hP ?_
    | (rw [State.mk_rest]; with_reducible refine hP.rest ?_ ?_)
    | (extract_lets +onlyGivenNames x; first | (refine (?_ : P x → _) ?_; rotate_left; unfold x; rotate_left; clear_value x; intro) | try clear_value x)
    | split | dsimp -zeta only

theorem State.capTick_keeps (hP : Closed P) {s : State} (h : P s) : P (State.capTick s) := by
  unfold State.capTick
  repeat' first
    | with_reducible assumption | with_reducible refine State.bump_keeps hP ?_
    | (extract_lets +onlyGivenNames x; first | (refine (?_ : P x → _) ?_; rotate_left; unfold x; rotate_left; clear_value x; intro) | try clear_value x)
    | split | dsimp -zeta only

theorem State.clocksReset_keeps (hP : Closed P) {s : State} (h : P s) : P (State.clocksReset s) := by
  unfold State.clocksReset
  repeat' first
    | with_reducible assumption | with_reducible refine hP.wr ?_ | with_reducible refine State.wrf_keeps hP ?_
    | (extract_lets +onlyGivenNames x; first | (refine (?_ : P x → _) ?_; rotate_left; unfold x; rotate_left; clear_value x; intro) | try clear_value x)
    | dsimp -zeta only

theorem execRngHealthFail_keeps (hP : Closed P) {s : State} (h : P s) : AllNext P (execRngHealthFail s) := by
  unfold execRngHealthFail
  repeat' first
    | with_reducible assumption | with_reducible refine AllNext.next ?_ | with_reducible refine State.wrf_keeps hP ?_
    | split | dsimp -zeta only

theorem execRngHealthRestored_keeps (hP : Closed P) {s : State} (h : P s) : AllNext P (execRngHealthRestored s) := by
  unfold execRngHealthRestored
  repeat' first
    | with_reducible assumption | with_reducible refine AllNext.next ?_ | with_reducible refine State.wrf_keeps hP ?_
    | split | dsimp -zeta only

end Sys2Proof.Machine
end

