-- ==== Sys2Proof/Laws/KeepsRecords.lean ====
section
/-!
SUPPORT. Laws/KeepsRecords.lean: every function of Machine/Records.lean keeps a closed property (Laws/Keeps.lean).
-/
set_option linter.unusedVariables false
set_option linter.tactic.unusedName false

namespace Sys2Proof.Machine

open Sys2Proof

variable {P : State → Prop}

theorem State.putRing_keeps (hP : Closed P) {s : State} {k : Nat} {b : List Byte} (h : P s) : P (State.putRing s k b)
    := by
  unfold State.putRing
  repeat' first
    | with_reducible assumption | exact rfl | with_reducible refine hP.wr ?_
    | with_reducible refine foldl_keeps (fun _ _ _ => ?_) ?_ | with_reducible refine foldl_keeps2 (fun _ _ _ => ?_) ?_
    | (rw [State.mk_rest]; with_reducible refine hP.rest ?_ ?_)
    | (extract_lets +onlyGivenNames x; first | (refine (?_ : P x → _) ?_; rotate_left; unfold x; rotate_left; clear_value x; intro) | try clear_value x)
    | intro _ | dsimp -zeta only

theorem State.record_keeps (hP : Closed P) {s : State} {e : Ev} (h : P s) : P (State.record s e) := by
  unfold State.record
  repeat' first
    | with_reducible assumption | exact rfl | with_reducible refine hP.wr ?_
    | with_reducible refine State.bump_keeps hP ?_ | with_reducible refine State.putRing_keeps hP ?_
    | (rw [State.mk_rest]; with_reducible refine hP.rest ?_ ?_)
    | (extract_lets +onlyGivenNames x; first | (refine (?_ : P x → _) ?_; rotate_left; unfold x; rotate_left; clear_value x; intro) | try clear_value x)
    | split | dsimp -zeta only

theorem execEventReached_keeps (hP : Closed P) {s : State} (h : P s) : AllNext P (execEventReached s) := by
  unfold execEventReached
  repeat' first
    | with_reducible assumption | exact rfl | with_reducible refine AllNext.next ?_
    | with_reducible refine State.orBits_keeps hP ?_ | with_reducible refine State.bump_keeps hP ?_
    | with_reducible refine State.record_keeps hP ?_ | (rw [State.mk_rest]; with_reducible refine hP.rest ?_ ?_)
    | (extract_lets +onlyGivenNames x; first | (refine (?_ : P x → _) ?_; rotate_left; unfold x; rotate_left; clear_value x; intro) | try clear_value x)
    | split | dsimp -zeta only

theorem State.readRing_keeps (hP : Closed P) {s : State} {head : Nat} {y3 : Nat} {y4 : Nat} {y5 : Nat} {y6 : List
    Byte} (h : P s) : P (State.readRing s head y3 y4 y5 y6).2 := by
  induction y3 generalizing s head y4 y5 y6 with
  | zero => exact h
  | succ n ih =>
    unfold State.readRing
    repeat' first
      | with_reducible assumption | with_reducible refine State.orBits_keeps hP ?_
      | with_reducible refine keeps_eq2 (by assumption) ?_ | with_reducible apply ih
      | (extract_lets +onlyGivenNames x; try clear_value x) | split | dsimp -zeta only

theorem State.cmdReadRecords_keeps (hP : Closed P) {s : State} {b : List Byte} (h : P s) : P (State.cmdReadRecords s
    b).2.2 := by
  unfold State.cmdReadRecords
  repeat' first
    | with_reducible assumption | with_reducible refine State.no_keeps hP ?_
    | with_reducible refine State.readRing_keeps hP ?_ | with_reducible refine keeps_eq2 (by assumption) ?_
    | with_reducible refine keeps_eq3 (by assumption) ?_ | (extract_lets +onlyGivenNames x; try clear_value x) | split
    | dsimp -zeta only

theorem State.w1c_keeps (hP : Closed P) {s : State} {key : Nat} {o : Nat} {v : Nat} {row : RegRow} (h : P s) : P
    (State.w1c s key o v row) := by
  unfold State.w1c
  repeat' first
    | with_reducible assumption | with_reducible refine hP.wr ?_
    | with_reducible refine foldl_keeps (fun _ _ _ => ?_) ?_ | with_reducible refine foldl_keeps2 (fun _ _ _ => ?_) ?_
    | with_reducible refine State.clearOffCause_keeps hP ?_ | (extract_lets +onlyGivenNames x; try clear_value x)
    | split | intro _ | dsimp -zeta only

theorem State.cmdClearSticky_keeps (hP : Closed P) {s : State} {b : List Byte} (h : P s) : P (State.cmdClearSticky s
    b).2.2 := by
  unfold State.cmdClearSticky
  repeat' first
    | with_reducible assumption | with_reducible refine foldl_keeps (fun _ _ _ => ?_) ?_
    | with_reducible refine foldl_keeps2 (fun _ _ _ => ?_) ?_ | with_reducible refine State.yes_keeps hP ?_
    | with_reducible refine State.w1c_keeps hP ?_ | with_reducible refine State.no_keeps hP ?_
    | with_reducible refine keeps_eq3 (by assumption) ?_ | (extract_lets +onlyGivenNames x; try clear_value x) | split
    | intro _ | dsimp -zeta only

theorem State.cmdMonitorConfig_keeps (hP : Closed P) {s : State} {b : List Byte} (h : P s) : P (State.cmdMonitorConfig
    s b).2.2 := by
  unfold State.cmdMonitorConfig
  repeat' first
    | with_reducible assumption | with_reducible refine hP.wr ?_ | with_reducible refine hP.resetRegs ?_
    | with_reducible refine foldl_keeps (fun _ _ _ => ?_) ?_ | with_reducible refine foldl_keeps2 (fun _ _ _ => ?_) ?_
    | with_reducible refine State.no_keeps hP ?_ | with_reducible refine State.yes_keeps hP ?_
    | with_reducible refine keeps_eq3 (by assumption) ?_
    | (extract_lets +onlyGivenNames x; first | (refine (?_ : P x → _) ?_; rotate_left; unfold x; rotate_left; clear_value x; intro) | try clear_value x)
    | split | intro _ | dsimp -zeta only

theorem State.capture_keeps (hP : Closed P) {s : State} {n : Nat} {v : Int} (h : P s) : P (State.capture s n v) := by
  unfold State.capture
  repeat' first
    | with_reducible assumption | with_reducible refine hP.wr ?_ | with_reducible refine State.bump_keeps hP ?_
    | with_reducible refine State.bumpW_keeps hP ?_
    | (extract_lets +onlyGivenNames x; first | (refine (?_ : P x → _) ?_; rotate_left; unfold x; rotate_left; clear_value x; intro) | try clear_value x)
    | dsimp -zeta only

theorem State.sample_keeps (hP : Closed P) {s : State} {src : Nat} {inst : Nat} {v : Nat} (h : P s) : P (State.sample
    s src inst v) := by
  unfold State.sample
  repeat' first
    | with_reducible assumption | with_reducible refine foldl_keeps (fun _ _ _ => ?_) ?_
    | with_reducible refine foldl_keeps2 (fun _ _ _ => ?_) ?_ | with_reducible refine State.capture_keeps hP ?_
    | split | intro _ | dsimp -zeta only

theorem execMonitorSample_keeps (hP : Closed P) {ch : Fin 32} {lat : Int} {s : State} (h : P s) : AllNext P
    (execMonitorSample ch lat s) := by
  unfold execMonitorSample
  repeat' first
    | with_reducible assumption | with_reducible refine AllNext.next ?_
    | with_reducible refine State.capture_keeps hP ?_ | (extract_lets +onlyGivenNames x; try clear_value x) | split
    | dsimp -zeta only

theorem State.cmdMonitorRead_keeps (hP : Closed P) {s : State} {b : List Byte} (h : P s) : P (State.cmdMonitorRead s
    b).2.2 := by
  unfold State.cmdMonitorRead
  repeat' first
    | with_reducible assumption | with_reducible refine State.no_keeps hP ?_
    | with_reducible refine keeps_eq3 (by assumption) ?_ | (extract_lets +onlyGivenNames x; try clear_value x) | split
    | dsimp -zeta only

end Sys2Proof.Machine
end

