-- ==== Sys2Proof/Laws/KeepsHcp.lean ====
section
/-!
SUPPORT. Laws/KeepsHcp.lean: every function of Machine/Hcp.lean keeps a closed property (Laws/Keeps.lean).
-/
set_option linter.unusedVariables false
set_option linter.tactic.unusedName false

namespace Sys2Proof.Machine

open Sys2Proof

variable {P : State → Prop}

theorem State.setHcp_keeps (hP : Closed P) {s : State} {f : HcpState → HcpState} (h : P s) : P (State.setHcp s f) :=
    by
  unfold State.setHcp
  repeat' first
    | with_reducible assumption | exact rfl | (rw [State.mk_rest]; with_reducible refine hP.rest ?_ ?_)
    | dsimp -zeta only

theorem State.putSession_keeps (hP : Closed P) {s : State} {n : Nat} {x : Session} (h : P s) : P (State.putSession s n
    x) := by
  unfold State.putSession
  repeat' first
    | with_reducible assumption | with_reducible refine State.setHcp_keeps hP ?_ | dsimp -zeta only

theorem State.endSession_keeps (hP : Closed P) {s : State} {id : Nat} (h : P s) : P (State.endSession s id) := by
  unfold State.endSession
  repeat' first
    | with_reducible assumption | exact rfl | with_reducible refine State.setHcp_keeps hP ?_
    | (rw [State.mk_rest]; with_reducible refine hP.rest ?_ ?_)
    | (extract_lets +onlyGivenNames x; first | (refine (?_ : P x → _) ?_; rotate_left; unfold x; rotate_left; clear_value x; intro) | try clear_value x)
    | split | dsimp -zeta only

theorem State.sendHcp_keeps (hP : Closed P) {s : State} {node : Nat} {tag : Nat} {body : List Byte} (h : P s) : P
    (State.sendHcp s node tag body) := by
  unfold State.sendHcp
  repeat' first
    | with_reducible assumption | exact rfl | with_reducible refine State.sendMsg_keeps hP ?_
    | (rw [State.mk_rest]; with_reducible refine hP.rest ?_ ?_) | split | dsimp -zeta only

theorem State.sendVia_keeps (hP : Closed P) {s : State} {v : Via} {b : List Byte} (h : P s) : P (State.sendVia s v b)
    := by
  unfold State.sendVia
  repeat' first
    | with_reducible assumption | with_reducible refine hP.emit ?_ | with_reducible refine State.sendHcp_keeps hP ?_
    | split | dsimp -zeta only

theorem State.sendReply_keeps (hP : Closed P) {s : State} {v : Via} {opcode : Nat} {tag : Nat} {session : Nat} {status
    : Nat} {retry : Nat} {final : Bool} {data : List Byte} (h : P s) : P (State.sendReply s v opcode tag session
    status retry final data) := by
  unfold State.sendReply
  repeat' first
    | with_reducible assumption | with_reducible refine State.takeFree_keeps hP ?_
    | with_reducible refine State.sendVia_keeps hP ?_ | with_reducible refine State.putSession_keeps hP ?_
    | with_reducible refine keeps_eq2 (by assumption) ?_ | (extract_lets +onlyGivenNames x; try clear_value x) | split
    | dsimp -zeta only

theorem State.served_keeps (hP : Closed P) {s : State} {accepted : Nat} (h : P s) : P (State.served s accepted) := by
  unfold State.served
  repeat' first
    | with_reducible assumption | with_reducible refine State.sample_keeps hP ?_
    | with_reducible refine State.setHcp_keeps hP ?_ | dsimp -zeta only

theorem State.watchQueue_keeps (hP : Closed P) {s : State} (h : P s) : P (State.watchQueue s) := by
  unfold State.watchQueue
  repeat' first
    | with_reducible assumption | with_reducible refine State.setHcp_keeps hP ?_
    | with_reducible refine State.raise_keeps hP ?_ | with_reducible refine State.orBits_keeps hP ?_
    | (extract_lets +onlyGivenNames x; try clear_value x) | split | dsimp -zeta only

theorem State.authFail_keeps (hP : Closed P) {s : State} (h : P s) : P (State.authFail s) := by
  unfold State.authFail
  repeat' first
    | with_reducible assumption | with_reducible refine State.orBits_keeps hP ?_
    | with_reducible refine State.bump_keeps hP ?_ | dsimp -zeta only

theorem State.replyAuthFail_keeps (hP : Closed P) {s : State} {v : Via} {opcode : Nat} {tag : Nat} (h : P s) : P
    (State.replyAuthFail s v opcode tag) := by
  unfold State.replyAuthFail
  repeat' first
    | with_reducible assumption | with_reducible refine State.sendReply_keeps hP ?_
    | with_reducible refine State.setHcp_keeps hP ?_ | (extract_lets +onlyGivenNames x; try clear_value x) | split
    | dsimp -zeta only

theorem State.checkPacket_keeps (hP : Closed P) {s : State} {v : Via} {p : List Byte} (h : P s) : P (State.checkPacket
    s v p) := by
  unfold State.checkPacket
  repeat' first
    | with_reducible assumption | with_reducible refine State.sendReply_keeps hP ?_
    | with_reducible refine State.orBits_keeps hP ?_ | with_reducible refine State.bump_keeps hP ?_
    | with_reducible refine State.watchQueue_keeps hP ?_ | with_reducible refine State.setHcp_keeps hP ?_
    | with_reducible refine hx _ _ _ ?_
    | (extract_lets +onlyGivenNames x; first | (refine (?_ : (∀ a b s, P s → P (x a b s)) → _) ?_; rotate_left; unfold x; rotate_left; clear_value x; intro hx) | try clear_value x)
    | split | intro _ | dsimp -zeta only

theorem State.takePacket_keeps (hP : Closed P) {s : State} {v : Via} {p : List Byte} (h : P s) : P (State.takePacket s
    v p) := by
  unfold State.takePacket
  repeat' first
    | with_reducible assumption | with_reducible refine State.authFail_keeps hP ?_
    | with_reducible refine State.replyAuthFail_keeps hP ?_ | with_reducible refine State.checkPacket_keeps hP ?_
    | with_reducible refine State.sendReply_keeps hP ?_ | with_reducible refine State.bump_keeps hP ?_
    | with_reducible refine State.putSession_keeps hP ?_ | (extract_lets +onlyGivenNames x; try clear_value x) | split
    | dsimp -zeta only

theorem State.takeFrag_keeps (hP : Closed P) {s : State} {addr : List Byte} {port : Nat} {f : FragInfo} {b : List
    Byte} (h : P s) : P (State.takeFrag s addr port f b).2 := by
  unfold State.takeFrag
  repeat' first
    | with_reducible assumption | with_reducible refine State.setHcp_keeps hP ?_
    | (extract_lets +onlyGivenNames x; try clear_value x) | split | dsimp -zeta only

theorem execHcpPacket_keeps (hP : Closed P) {v : Via} {frag : Option FragInfo} {p : List Byte} {dport : BitVec 16} {s
    : State} (h : P s) : AllNext P (execHcpPacket v frag p dport s) := by
  unfold execHcpPacket
  repeat' first
    | with_reducible assumption | exact rfl | with_reducible refine AllNext.next ?_
    | with_reducible refine State.takePacket_keeps hP ?_ | with_reducible refine State.takeFrag_keeps hP ?_
    | (rw [State.mk_rest]; with_reducible refine hP.rest ?_ ?_) | with_reducible refine keeps_eq2 (by assumption) ?_
    | (extract_lets +onlyGivenNames x; try clear_value x) | split | dsimp -zeta only

theorem execFragmentTimeout_keeps (hP : Closed P) {addr : List Byte} {port : Nat} {ident : Nat} {s : State} (h : P s)
    : AllNext P (execFragmentTimeout addr port ident s) := by
  unfold execFragmentTimeout
  repeat' first
    | with_reducible assumption | with_reducible refine AllNext.next ?_
    | with_reducible refine State.setHcp_keeps hP ?_ | dsimp -zeta only

theorem execRelay_keeps (hP : Closed P) {eth : EthId} {addr : List Byte} {port : Nat} {d : List Byte} {s : State} (h :
    P s) : AllNext P (execRelay eth addr port d s) := by
  unfold execRelay
  repeat' first
    | with_reducible assumption | with_reducible refine AllNext.next ?_
    | with_reducible refine State.setHcp_keeps hP ?_ | with_reducible refine State.sendHcp_keeps hP ?_
    | with_reducible refine State.bump_keeps hP ?_
    | (extract_lets +onlyGivenNames x; first | (refine (?_ : P x → _) ?_; rotate_left; unfold x; rotate_left; clear_value x; intro) | try clear_value x)
    | split | dsimp -zeta only

theorem State.relayReply_keeps (hP : Closed P) {s : State} {m : InMsg} (h : P s) : P (State.relayReply s m) := by
  unfold State.relayReply
  repeat' first
    | with_reducible assumption | with_reducible refine hP.emit ?_ | with_reducible refine State.setHcp_keeps hP ?_
    | (extract_lets +onlyGivenNames x; first | (refine (?_ : P x → _) ?_; rotate_left; unfold x; rotate_left; clear_value x; intro) | try clear_value x)
    | split | dsimp -zeta only

theorem execNeighbourDiscovery_keeps (hP : Closed P) {eth : EthId} {m : NdMsg} {s : State} (h : P s) : AllNext P
    (execNeighbourDiscovery eth m s) := by
  unfold execNeighbourDiscovery
  repeat' first
    | with_reducible assumption | with_reducible refine hP.emit ?_ | with_reducible refine AllNext.next ?_
    | with_reducible refine State.setHcp_keeps hP ?_ | (extract_lets +onlyGivenNames x; try clear_value x) | split
    | dsimp -zeta only

theorem execEchoRequest_keeps (hP : Closed P) {eth : EthId} {e : IpEnds} {data : List Byte} {s : State} (h : P s) :
    AllNext P (execEchoRequest eth e data s) := by
  unfold execEchoRequest
  repeat' first
    | with_reducible assumption | with_reducible refine hP.emit ?_ | with_reducible refine AllNext.next ?_ | split
    | dsimp -zeta only

theorem State.headIs_keeps (hP : Closed P) {s : State} {opcode : Nat} {sub : List Byte → Bool} (h : P s) : SomeKeeps2
    P (State.headIs s opcode sub) := by
  unfold State.headIs
  repeat' first
    | with_reducible assumption | with_reducible exact SomeKeeps2.none | with_reducible refine SomeKeeps2.some ?_
    | with_reducible refine State.watchQueue_keeps hP ?_ | with_reducible refine State.setHcp_keeps hP ?_ | split
    | dsimp -zeta only

theorem State.retryTime_keeps (hP : Closed P) {s : State} (h : P s) : P (State.retryTime s).2 := by
  unfold State.retryTime
  repeat' first
    | with_reducible assumption | with_reducible refine State.freeNat_keeps hP ?_
    | with_reducible refine keeps_eq2 (by assumption) ?_ | split | dsimp -zeta only

theorem State.finish_keeps (hP : Closed P) {s : State} {e : HcpEntry} {final : Bool} {status : Nat} {data : List Byte}
    (h : P s) : P (State.finish s e final status data) := by
  unfold State.finish
  repeat' first
    | with_reducible assumption | with_reducible refine State.retryTime_keeps hP ?_
    | with_reducible refine State.served_keeps hP ?_ | with_reducible refine State.sendReply_keeps hP ?_
    | with_reducible refine keeps_eq2 (by assumption) ?_ | split | dsimp -zeta only

theorem State.answer_keeps (hP : Closed P) {s0 : State} {e : HcpEntry} {slow : Bool} {a : Ans} (h0 : P s0)
    (h : P a.2.2) : P (s0.answer e slow a) := by
  unfold State.answer
  repeat' first
    | with_reducible assumption | with_reducible refine State.finish_keeps hP ?_
    | with_reducible refine State.setHcp_keeps hP ?_ | with_reducible refine State.sendReply_keeps hP ?_ | split
    | dsimp -zeta only

theorem State.runCommand_keeps (hP : Closed P) {s : State} {opcode : Nat} {sub : List Byte → Bool} {slow : Bool}
    {body : HcpEntry → State → Ans} (hb : ∀ e s, P s → P (body e s).2.2) (h : P s) :
    P (s.runCommand opcode sub slow body) := by
  unfold State.runCommand
  split
  · exact h
  · have h1 := State.headIs_keeps hP h _ _ (by assumption)
    split
    · exact State.answer_keeps hP h1 (hb _ _ h1)
    · exact State.finish_keeps hP h1

theorem State.pendingEnds_keeps (hP : Closed P) {s : State} {status : Nat} {data : List Byte} (h : P s) : P
    (State.pendingEnds s status data) := by
  unfold State.pendingEnds
  repeat' first
    | with_reducible assumption | with_reducible refine State.setHcp_keeps hP ?_ | dsimp -zeta only

theorem State.internal_keeps (hP : Closed P) {s : State} {opcode : Nat} (h : P s) : P (State.internal s opcode) := by
  unfold State.internal
  repeat' first
    | with_reducible assumption | with_reducible refine State.raise_keeps hP ?_
    | with_reducible refine State.orBits_keeps hP ?_ | dsimp -zeta only

end Sys2Proof.Machine
end

