-- ==== Sys2Proof/Laws/KeepsWork.lean ====
section
/-!
SUPPORT. Laws/KeepsWork.lean: every function of Machine/Work.lean keeps a closed property (Laws/Keeps.lean).
-/
set_option linter.unusedVariables false
set_option linter.tactic.unusedName false

namespace Sys2Proof.Machine

open Sys2Proof

variable {P : State → Prop}

theorem State.mapFlight_keeps (hP : Closed P) {s : State} {t : Nat} {idx : Nat} {f : InFlight → InFlight} (h : P s) :
    P (State.mapFlight s t idx f) := by
  unfold State.mapFlight
  repeat' first
    | with_reducible assumption | with_reducible refine State.setTile_keeps hP ?_
    | (extract_lets +onlyGivenNames x; try clear_value x) | split | dsimp -zeta only

theorem State.partDone_keeps (hP : Closed P) {s : State} {t : Nat} {idx : Nat} {err : Option Bool} (h : P s) : P
    (State.partDone s t idx err) := by
  unfold State.partDone
  repeat' first
    | with_reducible assumption | with_reducible refine State.mapFlight_keeps hP ?_
    | with_reducible refine State.fault_keeps hP ?_
    | (extract_lets +onlyGivenNames x; first | (refine (?_ : P x → _) ?_; rotate_left; unfold x; rotate_left; clear_value x; intro) | try clear_value x)
    | split | dsimp -zeta only

theorem State.countFor_keeps (hP : Closed P) {s : State} {src : ShareSrc} {ovf : Nat} {inv : Nat} (h : P s) : P
    (State.countFor s src ovf inv) := by
  unfold State.countFor
  repeat' first
    | with_reducible assumption | with_reducible refine State.countStep_keeps hP ?_ | split | dsimp -zeta only

theorem State.setEmbt_keeps (hP : Closed P) {s : State} {t : Nat} {x : EmbState} (h : P s) : P (State.setEmbt s t x)
    := by
  unfold State.setEmbt
  repeat' first
    | with_reducible assumption | exact rfl | (rw [State.mk_rest]; with_reducible refine hP.rest ?_ ?_)
    | dsimp -zeta only

theorem State.poolEnd_keeps (hP : Closed P) {s : State} {t : Nat} {id : Nat} {err : Option Bool} (h : P s) : P
    (State.poolEnd s t id err) := by
  unfold State.poolEnd
  repeat' first
    | with_reducible assumption | with_reducible refine State.setEmbt_keeps hP ?_
    | with_reducible refine State.fault_keeps hP ?_
    | (extract_lets +onlyGivenNames x; first | (refine (?_ : P x → _) ?_; rotate_left; unfold x; rotate_left; clear_value x; intro) | try clear_value x)
    | split | dsimp -zeta only

theorem State.shareDone_keeps (hP : Closed P) {s : State} {src : ShareSrc} {err : Option Bool} (h : P s) : P
    (State.shareDone s src err) := by
  unfold State.shareDone
  repeat' first
    | with_reducible assumption | with_reducible refine State.partDone_keeps hP ?_
    | with_reducible refine State.poolEnd_keeps hP ?_ | split | dsimp -zeta only

theorem State.strayError_keeps (hP : Closed P) {s : State} {src : ShareSrc} {ue : Bool} (h : P s) : P
    (State.strayError s src ue) := by
  unfold State.strayError
  repeat' first
    | with_reducible assumption | with_reducible refine State.fault_keeps hP ?_ | split | dsimp -zeta only

end Sys2Proof.Machine
end

