-- ==== Sys2Proof/Laws/KeepsMe.lean ====
section
/-!
SUPPORT. Laws/KeepsMe.lean: every function of Machine/Me.lean keeps a closed property (Laws/Keeps.lean).
-/
set_option linter.unusedVariables false
set_option linter.tactic.unusedName false

namespace Sys2Proof.Machine

open Sys2Proof

variable {P : State → Prop}

theorem State.meEndShare_keeps (hP : Closed P) {s : State} {c : Nat} {y3 : Nat} (h : P s) : P (State.meEndShare s c
    y3) := by
  induction y3 generalizing s c with
  | zero => exact h
  | succ n ih =>
    unfold State.meEndShare
    repeat' first
      | with_reducible assumption | with_reducible refine State.setMe_keeps hP ?_
      | with_reducible refine State.shareDone_keeps hP ?_ | with_reducible apply ih
      | (extract_lets +onlyGivenNames x; try clear_value x) | split | dsimp -zeta only

theorem State.stallFull_keeps (hP : Closed P) {s : State} {c : Nat} (h : P s) : P (State.stallFull s c) := by
  unfold State.stallFull
  repeat' first
    | with_reducible assumption | with_reducible refine State.freeNat_keeps hP ?_
    | with_reducible refine State.bump_keeps hP ?_ | with_reducible refine keeps_eq2 (by assumption) ?_ | split
    | dsimp -zeta only

theorem State.meStuck_keeps (hP : Closed P) {s : State} {c : Nat} (h : P s) : P (State.meStuck s c) := by
  unfold State.meStuck
  repeat' first
    | with_reducible assumption | with_reducible refine State.setMe_keeps hP ?_
    | with_reducible refine State.stallFull_keeps hP ?_
    | (extract_lets +onlyGivenNames x; first | (refine (?_ : P x → _) ?_; rotate_left; unfold x; rotate_left; clear_value x; intro) | try clear_value x)
    | split | dsimp -zeta only

theorem State.meAdvance_keeps (hP : Closed P) {s : State} {c : Nat} (h : P s) : P (State.meAdvance s c) := by
  unfold State.meAdvance
  repeat' first
    | with_reducible assumption | with_reducible refine State.meStuck_keeps hP ?_
    | with_reducible refine State.meEndShare_keeps hP ?_ | with_reducible refine State.setMe_keeps hP ?_
    | dsimp -zeta only

theorem State.meRelease_keeps (hP : Closed P) {s : State} {c : Nat} (h : P s) : P (State.meRelease s c) := by
  unfold State.meRelease
  repeat' first
    | with_reducible assumption | with_reducible refine State.stallFull_keeps hP ?_
    | with_reducible refine State.setMe_keeps hP ?_ | (extract_lets +onlyGivenNames x; try clear_value x) | split
    | dsimp -zeta only

theorem State.meFail_keeps (hP : Closed P) {s : State} {c : Nat} {bits : Nat} {ue : Bool} {chain : Option Nat} (h : P
    s) : P (State.meFail s c bits ue chain) := by
  unfold State.meFail
  repeat' first
    | with_reducible assumption | with_reducible refine State.meRelease_keeps hP ?_
    | with_reducible refine State.orBits_keeps hP ?_ | with_reducible refine State.meAdvance_keeps hP ?_
    | with_reducible refine State.setMe_keeps hP ?_
    | (extract_lets +onlyGivenNames x; first | (refine (?_ : P x → _) ?_; rotate_left; unfold x; rotate_left; clear_value x; intro) | try clear_value x)
    | split | dsimp -zeta only

theorem State.chainFail_keeps (hP : Closed P) {s : State} {c : Nat} {ue : Bool} {ch : MeChain} (h : P s) : P
    (State.chainFail s c ue ch) := by
  unfold State.chainFail
  repeat' first
    | with_reducible assumption | with_reducible refine State.meFail_keeps hP ?_
    | with_reducible refine State.meAdvance_keeps hP ?_ | with_reducible refine State.strayError_keeps hP ?_
    | with_reducible refine State.setMe_keeps hP ?_ | with_reducible refine State.orBits_keeps hP ?_
    | (extract_lets +onlyGivenNames x; try clear_value x) | split | dsimp -zeta only

theorem State.bumpTd_keeps (hP : Closed P) {s : State} {c : Nat} {n : Nat} (h : P s) : P (State.bumpTd s c n) := by
  unfold State.bumpTd
  repeat' first
    | with_reducible assumption | with_reducible refine hP.wr ?_ | dsimp -zeta only

theorem State.firstTag_keeps (hP : Closed P) {s : State} {ch : MeChain} (h : P s) : P (State.firstTag s ch).2 := by
  unfold State.firstTag
  repeat' first
    | with_reducible assumption | with_reducible refine State.freeNat_keeps hP ?_
    | with_reducible refine keeps_eq2 (by assumption) ?_ | split | dsimp -zeta only

theorem State.meFlags_keeps (hP : Closed P) {s : State} {c : Nat} {ch : MeChain} {f : NFlags} (h : P s) : P
    (State.meFlags s c ch f) := by
  unfold State.meFlags
  repeat' first
    | with_reducible assumption | with_reducible refine hP.wr ?_ | with_reducible refine State.orBits_keeps hP ?_
    | with_reducible refine State.firstTag_keeps hP ?_ | with_reducible refine State.setMe_keeps hP ?_
    | with_reducible refine keeps_eq2 (by assumption) ?_
    | (extract_lets +onlyGivenNames x; first | (refine (?_ : P x → _) ?_; rotate_left; unfold x; rotate_left; clear_value x; intro) | try clear_value x)
    | split | dsimp -zeta only

theorem State.redFlags_keeps (hP : Closed P) {s : State} {c : Nat} {ch : MeChain} {r : Red} (h : P s) : P
    (State.redFlags s c ch r) := by
  unfold State.redFlags
  repeat' first
    | with_reducible assumption | with_reducible refine State.meFlags_keeps hP ?_
    | with_reducible refine State.bump_keeps hP ?_
    | (extract_lets +onlyGivenNames x; first | (refine (?_ : P x → _) ?_; rotate_left; unfold x; rotate_left; clear_value x; intro) | try clear_value x)
    | dsimp -zeta only

theorem State.redStep_keeps (hP : Closed P) {s : State} {c : Nat} {ch : MeChain} (h : P s) : P (State.redStep s c
    ch).2 := by
  unfold State.redStep
  repeat' first
    | with_reducible assumption | with_reducible refine State.redGroup_keeps hP ?_
    | with_reducible refine State.redFlags_keeps hP ?_ | with_reducible refine State.bumpTd_keeps hP ?_
    | with_reducible refine keeps_eq2 (by assumption) ?_
    | (extract_lets +onlyGivenNames x; first | (refine (?_ : P x → _) ?_; rotate_left; unfold x; rotate_left; clear_value x; intro) | try clear_value x)
    | split | dsimp -zeta only

theorem State.redRun_keeps (hP : Closed P) {s : State} {c : Nat} {y3 : Nat} {y4 : MeChain} (h : P s) : P (State.redRun
    s c y3 y4).2 := by
  induction y3 generalizing s c y4 with
  | zero => exact h
  | succ n ih =>
    unfold State.redRun
    repeat' first
      | with_reducible assumption | with_reducible refine State.redStep_keeps hP ?_
      | with_reducible refine keeps_eq2 (by assumption) ?_ | with_reducible apply ih | split | dsimp -zeta only

theorem State.meRefuse_keeps (hP : Closed P) {s : State} {c : Nat} {bits : Nat} {ue : Bool} (h : P s) : P
    (State.meRefuse s c bits ue) := by
  unfold State.meRefuse
  repeat' first
    | with_reducible assumption | with_reducible refine State.meFail_keeps hP ?_
    | with_reducible refine State.redRun_keeps hP ?_ | with_reducible refine keeps_eq2 (by assumption) ?_
    | (extract_lets +onlyGivenNames x; try clear_value x) | split | dsimp -zeta only

theorem State.meListEnd_keeps (hP : Closed P) {s : State} {c : Nat} (h : P s) : P (State.meListEnd s c) := by
  unfold State.meListEnd
  repeat' first
    | with_reducible assumption | with_reducible refine State.meRefuse_keeps hP ?_
    | with_reducible refine State.meAdvance_keeps hP ?_ | (extract_lets +onlyGivenNames x; try clear_value x) | split
    | dsimp -zeta only

theorem State.meFetch_keeps (hP : Closed P) {s : State} {c : Nat} (h : P s) : P (State.meFetch s c).2 := by
  unfold State.meFetch
  repeat' first
    | with_reducible assumption | with_reducible refine State.gRead_keeps hP ?_
    | with_reducible refine keeps_eq3 (by assumption) ?_ | split | dsimp -zeta only

theorem State.meWait_keeps (hP : Closed P) {s : State} {c : Nat} {w : MeWait} (h : P s) : P (State.meWait s c w) := by
  unfold State.meWait
  repeat' first
    | with_reducible assumption | with_reducible refine State.setMe_keeps hP ?_
    | (extract_lets +onlyGivenNames x; try clear_value x) | dsimp -zeta only

theorem State.meUnwait_keeps (hP : Closed P) {s : State} {c : Nat} {clocks : Nat} (h : P s) : P (State.meUnwait s c
    clocks) := by
  unfold State.meUnwait
  repeat' first
    | with_reducible assumption | with_reducible refine State.bump_keeps hP ?_
    | with_reducible refine State.setMe_keeps hP ?_ | (extract_lets +onlyGivenNames x; try clear_value x) | split
    | dsimp -zeta only

theorem State.meBegin_keeps (hP : Closed P) {s : State} {c : Nat} {sh : MeShare} {td : List Byte} {fw : Nat} (h : P s)
    : P (State.meBegin s c sh td fw) := by
  unfold State.meBegin
  repeat' first
    | with_reducible assumption | with_reducible refine State.setMe_keeps hP ?_
    | (extract_lets +onlyGivenNames x; try clear_value x) | split | dsimp -zeta only

theorem State.meContinue_keeps (hP : Closed P) {s : State} {c : Nat} {sh : MeShare} {td : List Byte} {ch : MeChain} (h
    : P s) : P (State.meContinue s c sh td ch) := by
  unfold State.meContinue
  repeat' first
    | with_reducible assumption | with_reducible refine State.setMe_keeps hP ?_
    | with_reducible refine State.wrf_keeps hP ?_
    | (extract_lets +onlyGivenNames x; first | (refine (?_ : P x → _) ?_; rotate_left; unfold x; rotate_left; clear_value x; intro) | try clear_value x)
    | split | dsimp -zeta only

theorem State.meMma_keeps (hP : Closed P) {s : State} {c : Nat} {waited : Nat} {sh : MeShare} {td : List Byte} (h : P
    s) : P (State.meMma s c waited sh td) := by
  unfold State.meMma
  repeat' first
    | with_reducible assumption | with_reducible refine State.meRefuse_keeps hP ?_
    | with_reducible refine State.meListEnd_keeps hP ?_ | with_reducible refine State.meContinue_keeps hP ?_
    | with_reducible refine State.meWait_keeps hP ?_ | with_reducible refine State.meBegin_keeps hP ?_
    | with_reducible refine State.meUnwait_keeps hP ?_ | (extract_lets +onlyGivenNames x; try clear_value x) | split
    | dsimp -zeta only

theorem execMma_keeps (hP : Closed P) {c : CoreId} {waited : Nat} {s : State} (h : P s) : AllNext P (execMma c waited
    s) := by
  unfold execMma
  repeat' first
    | with_reducible assumption | with_reducible refine AllNext.next ?_
    | with_reducible refine State.meFetch_keeps hP ?_ | with_reducible refine State.meRefuse_keeps hP ?_
    | with_reducible refine State.meMma_keeps hP ?_ | with_reducible refine keeps_eq2 (by assumption) ?_ | split
    | dsimp -zeta only

theorem execTileNop_keeps (hP : Closed P) {c : CoreId} {s : State} (h : P s) : AllNext P (execTileNop c s) := by
  unfold execTileNop
  repeat' first
    | with_reducible assumption | with_reducible refine AllNext.next ?_
    | with_reducible refine State.meFetch_keeps hP ?_ | with_reducible refine State.meRefuse_keeps hP ?_
    | with_reducible refine State.meListEnd_keeps hP ?_ | with_reducible refine State.setMe_keeps hP ?_
    | with_reducible refine State.bumpTd_keeps hP ?_ | with_reducible refine keeps_eq2 (by assumption) ?_
    | (extract_lets +onlyGivenNames x; try clear_value x) | split | dsimp -zeta only

theorem execChainReductionEnd_keeps (hP : Closed P) {c : CoreId} {stall : Nat} {s : State} (h : P s) : AllNext P
    (execChainReductionEnd c stall s) := by
  unfold execChainReductionEnd
  repeat' first
    | with_reducible assumption | with_reducible refine AllNext.next ?_
    | with_reducible refine State.redRun_keeps hP ?_ | with_reducible refine State.bump_keeps hP ?_
    | with_reducible refine State.chainFail_keeps hP ?_ | with_reducible refine State.meAdvance_keeps hP ?_
    | with_reducible refine State.setMe_keeps hP ?_ | with_reducible refine keeps_eq2 (by assumption) ?_ | split
    | dsimp -zeta only

theorem State.meTick_keeps (hP : Closed P) {s : State} {c : Nat} (h : P s) : P (State.meTick s c) := by
  unfold State.meTick
  repeat' first
    | with_reducible assumption | with_reducible refine State.redStep_keeps hP ?_
    | with_reducible refine State.chainFail_keeps hP ?_ | with_reducible refine State.setMe_keeps hP ?_
    | with_reducible refine keeps_eq2 (by assumption) ?_ | split | dsimp -zeta only

theorem State.outRows_keeps (hP : Closed P) {s : State} {c : Nat} {base : Nat} {pitch : Nat} {width : Nat} {y6 : Nat}
    {y7 : List Nat} (h : P s) : P (State.outRows s c base pitch width y6 y7) := by
  induction y6 generalizing s c base pitch width y7 with
  | zero => exact h
  | succ n ih =>
    unfold State.outRows
    repeat' first
      | with_reducible assumption | with_reducible refine hP.poke ?_ | with_reducible apply ih | split
      | dsimp -zeta only

theorem State.chainFinal_keeps (hP : Closed P) {s : State} {c : Nat} {ch : MeChain} (h : P s) : P (State.chainFinal s
    c ch) := by
  unfold State.chainFinal
  repeat' first
    | with_reducible assumption | with_reducible refine State.setMe_keeps hP ?_
    | with_reducible refine State.outRows_keeps hP ?_ | with_reducible refine State.countFor_keeps hP ?_
    | (extract_lets +onlyGivenNames x; first | (refine (?_ : P x → _) ?_; rotate_left; unfold x; rotate_left; clear_value x; intro) | try clear_value x)
    | split | dsimp -zeta only

theorem State.chainReady_keeps (hP : Closed P) {s : State} {c : Nat} {ch : MeChain} (h : P s) : P (State.chainReady s
    c ch) := by
  unfold State.chainReady
  repeat' first
    | with_reducible assumption | with_reducible refine State.traceHook_keeps hP ?_
    | with_reducible refine State.setMe_keeps hP ?_ | with_reducible refine State.chainFinal_keeps hP ?_
    | with_reducible refine keeps_eq2 (by assumption) ?_ | (extract_lets +onlyGivenNames x; try clear_value x) | split
    | dsimp -zeta only

theorem State.markLayer_keeps (hP : Closed P) {s : State} {c : Nat} {ch : MeChain} (h : P s) : P (State.markLayer s c
    ch) := by
  unfold State.markLayer
  repeat' first
    | with_reducible assumption | with_reducible refine State.setQzt_keeps hP ?_
    | (extract_lets +onlyGivenNames x; try clear_value x) | split | dsimp -zeta only

theorem State.chainDone_keeps (hP : Closed P) {s : State} {c : Nat} {ch : MeChain} (h : P s) : P (State.chainDone s c
    ch) := by
  unfold State.chainDone
  repeat' first
    | with_reducible assumption | with_reducible refine State.setMe_keeps hP ?_
    | with_reducible refine State.chainReady_keeps hP ?_ | with_reducible refine State.markLayer_keeps hP ?_
    | (extract_lets +onlyGivenNames x; try clear_value x) | split | dsimp -zeta only

theorem State.chainConvert_keeps (hP : Closed P) {s : State} {c : Nat} {ch : MeChain} (h : P s) : P
    (State.chainConvert s c ch).2 := by
  unfold State.chainConvert
  repeat' first
    | with_reducible assumption | with_reducible refine State.lineScales_keeps hP ?_
    | with_reducible refine State.meFlags_keeps hP ?_ | with_reducible refine State.bump_keeps hP ?_
    | with_reducible refine keeps_eq2 (by assumption) ?_
    | (extract_lets +onlyGivenNames x; first | (refine (?_ : P x → _) ?_; rotate_left; unfold x; rotate_left; clear_value x; intro) | try clear_value x)
    | split | dsimp -zeta only

theorem execChainConversionEnd_keeps (hP : Closed P) {c : CoreId} {stall : Nat} {s : State} (h : P s) : AllNext P
    (execChainConversionEnd c stall s) := by
  unfold execChainConversionEnd
  repeat' first
    | with_reducible assumption | with_reducible refine AllNext.next ?_
    | with_reducible refine State.chainConvert_keeps hP ?_ | with_reducible refine State.chainFail_keeps hP ?_
    | with_reducible refine State.meAdvance_keeps hP ?_ | with_reducible refine State.chainDone_keeps hP ?_
    | with_reducible refine State.bump_keeps hP ?_ | with_reducible refine keeps_eq2 (by assumption) ?_ | split
    | dsimp -zeta only

theorem State.confirmChains_keeps (hP : Closed P) {s : State} {c : Nat} {ticket : Nat} {y4 : List MeChain} (h : P s) :
    P (State.confirmChains s c ticket y4) := by
  induction y4 generalizing s c ticket with
  | nil => exact h
  | cons x xs ih =>
    unfold State.confirmChains
    repeat' first
      | with_reducible assumption | with_reducible refine State.chainReady_keeps hP ?_
      | with_reducible refine State.markLayer_keeps hP ?_ | with_reducible refine State.setMe_keeps hP ?_
      | with_reducible apply ih
      | (extract_lets +onlyGivenNames x; first | (refine (?_ : P x → _) ?_; rotate_left; unfold x; rotate_left; clear_value x; intro) | try clear_value x)
      | split | dsimp -zeta only

theorem State.replayChains_keeps (hP : Closed P) {s : State} {c : Nat} {ticket : Nat} {y4 : List MeChain} (h : P s) :
    P (State.replayChains s c ticket y4) := by
  induction y4 generalizing s c ticket with
  | nil => exact h
  | cons x xs ih =>
    unfold State.replayChains
    repeat' first
      | with_reducible assumption | with_reducible refine State.setMe_keeps hP ?_ | with_reducible apply ih
      | (extract_lets +onlyGivenNames x; first | (refine (?_ : P x → _) ?_; rotate_left; unfold x; rotate_left; clear_value x; intro) | try clear_value x)
      | split | dsimp -zeta only

theorem State.notice_keeps (hP : Closed P) {s : State} {t : Nat} {ticket : Nat} {replay : Bool} (h : P s) : P
    (State.notice s t ticket replay) := by
  unfold State.notice
  repeat' first
    | with_reducible assumption | with_reducible refine foldl_keeps (fun _ _ _ => ?_) ?_
    | with_reducible refine foldl_keeps2 (fun _ _ _ => ?_) ?_ | with_reducible refine State.setQzt_keeps hP ?_
    | with_reducible refine State.meAdvance_keeps hP ?_ | with_reducible refine State.replayChains_keeps hP ?_
    | with_reducible refine State.confirmChains_keeps hP ?_
    | (extract_lets +onlyGivenNames x; first | (refine (?_ : P x → _) ?_; rotate_left; unfold x; rotate_left; clear_value x; intro) | try clear_value x)
    | split | intro _ | dsimp -zeta only

theorem execConfirm_keeps (hP : Closed P) {t : TileId} {ticket : BitVec 16} {s : State} (h : P s) : AllNext P
    (execConfirm t ticket s) := by
  unfold execConfirm
  repeat' first
    | with_reducible assumption | with_reducible refine AllNext.next ?_
    | with_reducible refine State.notice_keeps hP ?_ | split | dsimp -zeta only

theorem execReplay_keeps (hP : Closed P) {t : TileId} {ticket : BitVec 16} {s : State} (h : P s) : AllNext P
    (execReplay t ticket s) := by
  unfold execReplay
  repeat' first
    | with_reducible assumption | with_reducible refine AllNext.next ?_
    | with_reducible refine State.notice_keeps hP ?_ | split | dsimp -zeta only

end Sys2Proof.Machine
end

