-- ==== Sys2Proof/Laws/KeepsOperands.lean ====
section
/-!
SUPPORT. Laws/KeepsOperands.lean: every function of Machine/Operands.lean keeps a closed property (Laws/Keeps.lean).
-/
set_option linter.unusedVariables false
set_option linter.tactic.unusedName false

namespace Sys2Proof.Machine

open Sys2Proof

variable {P : State → Prop}

theorem State.veRead_keeps (hP : Closed P) {s : State} {c : Nat} {o : Nat} {n : Nat} (h : P s) : P (State.veRead s c o
    n).2 := by
  unfold State.veRead
  repeat' first
    | with_reducible assumption | exact rfl | with_reducible refine State.coreRead_keeps hP ?_
    | (rw [State.mk_rest]; with_reducible refine hP.rest ?_ ?_) | with_reducible refine keeps_eq2 (by assumption) ?_
    | (extract_lets +onlyGivenNames x; try clear_value x) | split | dsimp -zeta only

theorem State.veWrite_keeps (hP : Closed P) {s : State} {c : Nat} {o : Nat} {bs : List Byte} (h : P s) : P
    (State.veWrite s c o bs) := by
  unfold State.veWrite
  repeat' first
    | with_reducible assumption | exact rfl | with_reducible refine hP.poke ?_
    | with_reducible refine State.setVe_keeps hP ?_ | (rw [State.mk_rest]; with_reducible refine hP.rest ?_ ?_)
    | (extract_lets +onlyGivenNames x; first | (refine (?_ : P x → _) ?_; rotate_left; unfold x; rotate_left; clear_value x; intro) | try clear_value x)
    | split | dsimp -zeta only

theorem State.veLoad_keeps (hP : Closed P) {s : State} {c : Nat} {y3 : List (Nat × Span)} (h : P s) : P (State.veLoad
    s c y3).2 := by
  induction y3 generalizing s c with
  | nil => exact h
  | cons x xs ih =>
    unfold State.veLoad
    repeat' first
      | with_reducible assumption | with_reducible refine State.veRead_keeps hP ?_
      | with_reducible refine keeps_eq2 (by assumption) ?_ | with_reducible apply ih | split | dsimp -zeta only

theorem State.veStore_keeps (hP : Closed P) {s : State} {c : Nat} {y3 : List (Nat × Span × W32)} (h : P s) : P
    (State.veStore s c y3).2 := by
  induction y3 generalizing s c with
  | nil => exact h
  | cons x xs ih =>
    unfold State.veStore
    repeat' first
      | with_reducible assumption | with_reducible refine State.veWrite_keeps hP ?_
      | with_reducible refine State.veRead_keeps hP ?_ | with_reducible refine keeps_eq2 (by assumption) ?_
      | with_reducible apply ih | split | dsimp -zeta only

end Sys2Proof.Machine
end

