-- ==== Sys2Proof/Laws/KeepsFlags.lean ====
section
/-!
SUPPORT. Laws/KeepsFlags.lean: every function of Machine/Flags.lean keeps a closed property (Laws/Keeps.lean).
-/
set_option linter.unusedVariables false
set_option linter.tactic.unusedName false

namespace Sys2Proof.Machine

open Sys2Proof

variable {P : State → Prop}

theorem State.veFlags_keeps (hP : Closed P) {s : State} {c : Nat} {fs : List NFlags} (h : P s) : P (State.veFlags s c
    fs) := by
  unfold State.veFlags
  repeat' first
    | with_reducible assumption | with_reducible refine hP.wr ?_
    | with_reducible refine foldl_keeps (fun _ _ _ => ?_) ?_ | with_reducible refine foldl_keeps2 (fun _ _ _ => ?_) ?_
    | with_reducible refine State.orBits_keeps hP ?_ | with_reducible refine State.bump_keeps hP ?_
    | with_reducible refine State.countFor_keeps hP ?_
    | (extract_lets +onlyGivenNames x; first | (refine (?_ : P x → _) ?_; rotate_left; unfold x; rotate_left; clear_value x; intro) | try clear_value x)
    | split | intro _ | dsimp -zeta only

end Sys2Proof.Machine
end

