-- ==== Sys2Proof/Laws/KeepsVeCore.lean ====
section
/-!
SUPPORT. Laws/KeepsVeCore.lean: every function of Machine/VeCore.lean keeps a closed property (Laws/Keeps.lean).
-/
set_option linter.unusedVariables false
set_option linter.tactic.unusedName false

namespace Sys2Proof.Machine

open Sys2Proof

variable {P : State → Prop}

theorem State.veFault_keeps (hP : Closed P) {s : State} {c : Nat} {bits : Nat} {pc : Nat} {op : Nat} {ue : Bool} (h :
    P s) : P (State.veFault s c bits pc op ue) := by
  unfold State.veFault
  repeat' first
    | with_reducible assumption | with_reducible refine hP.wr ?_ | with_reducible refine State.orBits_keeps hP ?_
    | with_reducible refine State.setVe_keeps hP ?_
    | (extract_lets +onlyGivenNames x; first | (refine (?_ : P x → _) ?_; rotate_left; unfold x; rotate_left; clear_value x; intro) | try clear_value x)
    | split | dsimp -zeta only

theorem State.veRetire_keeps (hP : Closed P) {s : State} {c : Nat} {op : Nat} {target : Int} (h : P s) : P
    (State.veRetire s c op target) := by
  unfold State.veRetire
  repeat' first
    | with_reducible assumption | with_reducible refine State.bump_keeps hP ?_
    | with_reducible refine State.setVe_keeps hP ?_ | with_reducible refine State.veFault_keeps hP ?_
    | (extract_lets +onlyGivenNames x; first | (refine (?_ : P x → _) ?_; rotate_left; unfold x; rotate_left; clear_value x; intro) | try clear_value x)
    | split | dsimp -zeta only

theorem State.veUnwait_keeps (hP : Closed P) {s : State} {c : Nat} {clocks : Nat} (h : P s) : P (State.veUnwait s c
    clocks) := by
  unfold State.veUnwait
  repeat' first
    | with_reducible assumption | with_reducible refine State.bump_keeps hP ?_ | split | dsimp -zeta only

theorem State.veHalt_keeps (hP : Closed P) {s : State} {c : Nat} (h : P s) : P (State.veHalt s c) := by
  unfold State.veHalt
  repeat' first
    | with_reducible assumption | with_reducible refine State.bump_keeps hP ?_
    | with_reducible refine State.setVe_keeps hP ?_
    | (extract_lets +onlyGivenNames x; first | (refine (?_ : P x → _) ?_; rotate_left; unfold x; rotate_left; clear_value x; intro) | try clear_value x)
    | dsimp -zeta only

theorem State.veRun_keeps (hP : Closed P) {s : State} {c op waited : Nat} {body : Nat → State → VeRes}
    (hb : ∀ w s, P s → VeKeeps P (body w s)) (h : P s) : P (s.veRun c op waited body) := by
  unfold State.veRun
  split
  · exact h
  · rename_i w _
    have hw := hb w s h
    repeat' first
      | with_reducible assumption | with_reducible refine State.veFault_keeps hP ?_
      | with_reducible refine State.veRetire_keeps hP ?_ | with_reducible refine State.veUnwait_keeps hP ?_
      | with_reducible refine State.setVe_keeps hP ?_ | with_reducible refine State.veHalt_keeps hP ?_ | split
      | (rename_i e; rw [e] at hw; exact hw)

theorem veRegs_keeps (hP : Closed P) {c : Nat} {f : VeState → VeState} {s : State} (h : P s) : VeKeeps P (veRegs c f
    s) := by
  unfold veRegs
  repeat' first
    | with_reducible assumption | with_reducible refine VeKeeps.next ?_
    | with_reducible refine State.setVe_keeps hP ?_ | dsimp -zeta only

theorem veBranch_keeps (hP : Closed P) {c : Nat} {w : Nat} {taken : Bool} {s : State} (h : P s) : VeKeeps P (veBranch
    c w taken s) := by
  unfold veBranch
  repeat' first
    | with_reducible assumption | with_reducible refine VeKeeps.jump ?_ | split | dsimp -zeta only

theorem veScalar_keeps (hP : Closed P) {c : Nat} {f : W64 → W64 → W64} {w : Nat} {s : State} (h : P s) : VeKeeps P
    (veScalar c f w s) := by
  unfold veScalar
  repeat' first
    | with_reducible assumption | with_reducible refine veRegs_keeps hP ?_ | dsimp -zeta only

theorem veLanes_keeps (hP : Closed P) {c : Nat} {w : Nat} {f : VeState → Nat → W32 × NFlags} {s : State} (h : P s) :
    VeKeeps P (veLanes c w f s) := by
  unfold veLanes
  repeat' first
    | with_reducible assumption | with_reducible refine VeKeeps.next ?_
    | with_reducible refine State.veFlags_keeps hP ?_ | with_reducible refine State.setVe_keeps hP ?_
    | (extract_lets +onlyGivenNames x; try clear_value x) | dsimp -zeta only

theorem veLane1_keeps (hP : Closed P) {c : Nat} {f : W32 → W32 × NFlags} {w : Nat} {s : State} (h : P s) : VeKeeps P
    (veLane1 c f w s) := by
  unfold veLane1
  repeat' first
    | with_reducible assumption | with_reducible refine veLanes_keeps hP ?_ | dsimp -zeta only

theorem veLane2_keeps (hP : Closed P) {c : Nat} {f : W32 → W32 → W32 × NFlags} {w : Nat} {s : State} (h : P s) :
    VeKeeps P (veLane2 c f w s) := by
  unfold veLane2
  repeat' first
    | with_reducible assumption | with_reducible refine veLanes_keeps hP ?_ | dsimp -zeta only

theorem veLane3_keeps (hP : Closed P) {c : Nat} {f : W32 → W32 → W32 → W32 × NFlags} {w : Nat} {s : State} (h : P s) :
    VeKeeps P (veLane3 c f w s) := by
  unfold veLane3
  repeat' first
    | with_reducible assumption | with_reducible refine veLanes_keeps hP ?_ | dsimp -zeta only

theorem veCompare_keeps (hP : Closed P) {c : Nat} {f : W32 → W32 → Bool} {w : Nat} {s : State} (h : P s) : VeKeeps P
    (veCompare c f w s) := by
  unfold veCompare
  repeat' first
    | with_reducible assumption | with_reducible refine veRegs_keeps hP ?_ | dsimp -zeta only

theorem veReduce_keeps (hP : Closed P) {c : Nat} {f : List (Option W32) → W64 × NFlags} {w : Nat} {s : State} (h : P
    s) : VeKeeps P (veReduce c f w s) := by
  unfold veReduce
  repeat' first
    | with_reducible assumption | with_reducible refine VeKeeps.next ?_
    | with_reducible refine State.veFlags_keeps hP ?_ | with_reducible refine State.setVe_keeps hP ?_
    | (extract_lets +onlyGivenNames x; try clear_value x) | split | dsimp -zeta only

theorem veMask_keeps (hP : Closed P) {c : Nat} {f : W64 → W64 → W64} {w : Nat} {s : State} (h : P s) : VeKeeps P
    (veMask c f w s) := by
  unfold veMask
  repeat' first
    | with_reducible assumption | with_reducible refine veRegs_keeps hP ?_ | dsimp -zeta only

theorem veLoadV_keeps (hP : Closed P) {c : Nat} {w : Nat} {al : Nat} {spans : List (Nat × Span)} {s : State} (h : P s)
    : VeKeeps P (veLoadV c w al spans s) := by
  unfold veLoadV
  repeat' first
    | with_reducible assumption | with_reducible refine VeKeeps.next ?_ | with_reducible refine VeKeeps.fault ?_
    | with_reducible refine State.veLoad_keeps hP ?_ | with_reducible refine State.setVe_keeps hP ?_
    | with_reducible refine keeps_eq2 (by assumption) ?_ | split | dsimp -zeta only

theorem veStoreV_keeps (hP : Closed P) {c : Nat} {w : Nat} {al : Nat} {spans : List (Nat × Span)} {s : State} (h : P
    s) : VeKeeps P (veStoreV c w al spans s) := by
  unfold veStoreV
  repeat' first
    | with_reducible assumption | with_reducible refine VeKeeps.next ?_ | with_reducible refine VeKeeps.fault ?_
    | with_reducible refine State.veStore_keeps hP ?_ | with_reducible refine keeps_eq2 (by assumption) ?_ | split
    | dsimp -zeta only

end Sys2Proof.Machine
end

