-- ==== Sys2Proof/Laws/KeepsVeScalar.lean ====
section
/-!
SUPPORT. Laws/KeepsVeScalar.lean: every function of Machine/VeScalar.lean keeps a closed property (Laws/Keeps.lean).
-/
set_option linter.unusedVariables false
set_option linter.tactic.unusedName false

namespace Sys2Proof.Machine

open Sys2Proof

variable {P : State → Prop}

theorem execVeNop_keeps (hP : Closed P) {c : CoreId} {s : State} (h : P s) : AllNext P (execVeNop c s) := by
  unfold execVeNop
  repeat' first
    | with_reducible assumption | with_reducible refine AllNext.next ?_ | with_reducible refine VeKeeps.next ?_
    | with_reducible refine State.veRun_keeps hP (fun _ _ _ => ?_) ?_ | intro _ | dsimp -zeta only

theorem execHalt_keeps (hP : Closed P) {c : CoreId} {s : State} (h : P s) : AllNext P (execHalt c s) := by
  unfold execHalt
  repeat' first
    | with_reducible assumption | with_reducible refine AllNext.next ?_ | with_reducible exact VeKeeps.halt
    | with_reducible refine State.veRun_keeps hP (fun _ _ _ => ?_) ?_ | intro _ | dsimp -zeta only

theorem execJmp_keeps (hP : Closed P) {c : CoreId} {s : State} (h : P s) : AllNext P (execJmp c s) := by
  unfold execJmp
  repeat' first
    | with_reducible assumption | with_reducible refine AllNext.next ?_
    | with_reducible refine State.veRun_keeps hP (fun _ _ _ => ?_) ?_ | with_reducible refine veBranch_keeps hP ?_
    | intro _ | dsimp -zeta only

theorem execBz_keeps (hP : Closed P) {c : CoreId} {s : State} (h : P s) : AllNext P (execBz c s) := by
  unfold execBz
  repeat' first
    | with_reducible assumption | with_reducible refine AllNext.next ?_
    | with_reducible refine State.veRun_keeps hP (fun _ _ _ => ?_) ?_ | with_reducible refine veBranch_keeps hP ?_
    | intro _ | dsimp -zeta only

theorem execBnz_keeps (hP : Closed P) {c : CoreId} {s : State} (h : P s) : AllNext P (execBnz c s) := by
  unfold execBnz
  repeat' first
    | with_reducible assumption | with_reducible refine AllNext.next ?_
    | with_reducible refine State.veRun_keeps hP (fun _ _ _ => ?_) ?_ | with_reducible refine veBranch_keeps hP ?_
    | intro _ | dsimp -zeta only

theorem execLoop_keeps (hP : Closed P) {c : CoreId} {s : State} (h : P s) : AllNext P (execLoop c s) := by
  unfold execLoop
  repeat' first
    | with_reducible assumption | with_reducible refine AllNext.next ?_
    | with_reducible refine State.veRun_keeps hP (fun _ _ _ => ?_) ?_ | with_reducible refine veBranch_keeps hP ?_
    | with_reducible refine State.setVe_keeps hP ?_ | (extract_lets +onlyGivenNames x; try clear_value x) | intro _
    | dsimp -zeta only

theorem execSli_keeps (hP : Closed P) {c : CoreId} {s : State} (h : P s) : AllNext P (execSli c s) := by
  unfold execSli
  repeat' first
    | with_reducible assumption | with_reducible refine AllNext.next ?_
    | with_reducible refine State.veRun_keeps hP (fun _ _ _ => ?_) ?_ | with_reducible refine veScalar_keeps hP ?_
    | intro _ | dsimp -zeta only

theorem execSlui_keeps (hP : Closed P) {c : CoreId} {s : State} (h : P s) : AllNext P (execSlui c s) := by
  unfold execSlui
  repeat' first
    | with_reducible assumption | with_reducible refine AllNext.next ?_
    | with_reducible refine State.veRun_keeps hP (fun _ _ _ => ?_) ?_ | with_reducible refine veScalar_keeps hP ?_
    | intro _ | dsimp -zeta only

theorem execSadd_keeps (hP : Closed P) {c : CoreId} {s : State} (h : P s) : AllNext P (execSadd c s) := by
  unfold execSadd
  repeat' first
    | with_reducible assumption | with_reducible refine AllNext.next ?_
    | with_reducible refine State.veRun_keeps hP (fun _ _ _ => ?_) ?_ | with_reducible refine veScalar_keeps hP ?_
    | intro _ | dsimp -zeta only

theorem execSsub_keeps (hP : Closed P) {c : CoreId} {s : State} (h : P s) : AllNext P (execSsub c s) := by
  unfold execSsub
  repeat' first
    | with_reducible assumption | with_reducible refine AllNext.next ?_
    | with_reducible refine State.veRun_keeps hP (fun _ _ _ => ?_) ?_ | with_reducible refine veScalar_keeps hP ?_
    | intro _ | dsimp -zeta only

theorem execSmul_keeps (hP : Closed P) {c : CoreId} {s : State} (h : P s) : AllNext P (execSmul c s) := by
  unfold execSmul
  repeat' first
    | with_reducible assumption | with_reducible refine AllNext.next ?_
    | with_reducible refine State.veRun_keeps hP (fun _ _ _ => ?_) ?_ | with_reducible refine veScalar_keeps hP ?_
    | intro _ | dsimp -zeta only

theorem execSand_keeps (hP : Closed P) {c : CoreId} {s : State} (h : P s) : AllNext P (execSand c s) := by
  unfold execSand
  repeat' first
    | with_reducible assumption | with_reducible refine AllNext.next ?_
    | with_reducible refine State.veRun_keeps hP (fun _ _ _ => ?_) ?_ | with_reducible refine veScalar_keeps hP ?_
    | intro _ | dsimp -zeta only

theorem execSor_keeps (hP : Closed P) {c : CoreId} {s : State} (h : P s) : AllNext P (execSor c s) := by
  unfold execSor
  repeat' first
    | with_reducible assumption | with_reducible refine AllNext.next ?_
    | with_reducible refine State.veRun_keeps hP (fun _ _ _ => ?_) ?_ | with_reducible refine veScalar_keeps hP ?_
    | intro _ | dsimp -zeta only

theorem execSxor_keeps (hP : Closed P) {c : CoreId} {s : State} (h : P s) : AllNext P (execSxor c s) := by
  unfold execSxor
  repeat' first
    | with_reducible assumption | with_reducible refine AllNext.next ?_
    | with_reducible refine State.veRun_keeps hP (fun _ _ _ => ?_) ?_ | with_reducible refine veScalar_keeps hP ?_
    | intro _ | dsimp -zeta only

theorem execSshl_keeps (hP : Closed P) {c : CoreId} {s : State} (h : P s) : AllNext P (execSshl c s) := by
  unfold execSshl
  repeat' first
    | with_reducible assumption | with_reducible refine AllNext.next ?_
    | with_reducible refine State.veRun_keeps hP (fun _ _ _ => ?_) ?_ | with_reducible refine veScalar_keeps hP ?_
    | intro _ | dsimp -zeta only

theorem execSshr_keeps (hP : Closed P) {c : CoreId} {s : State} (h : P s) : AllNext P (execSshr c s) := by
  unfold execSshr
  repeat' first
    | with_reducible assumption | with_reducible refine AllNext.next ?_
    | with_reducible refine State.veRun_keeps hP (fun _ _ _ => ?_) ?_ | with_reducible refine veScalar_keeps hP ?_
    | intro _ | dsimp -zeta only

theorem execScmplt_keeps (hP : Closed P) {c : CoreId} {s : State} (h : P s) : AllNext P (execScmplt c s) := by
  unfold execScmplt
  repeat' first
    | with_reducible assumption | with_reducible refine AllNext.next ?_
    | with_reducible refine State.veRun_keeps hP (fun _ _ _ => ?_) ?_ | with_reducible refine veScalar_keeps hP ?_
    | split | intro _ | dsimp -zeta only

theorem execScmpeq_keeps (hP : Closed P) {c : CoreId} {s : State} (h : P s) : AllNext P (execScmpeq c s) := by
  unfold execScmpeq
  repeat' first
    | with_reducible assumption | with_reducible refine AllNext.next ?_
    | with_reducible refine State.veRun_keeps hP (fun _ _ _ => ?_) ?_ | with_reducible refine veScalar_keeps hP ?_
    | split | intro _ | dsimp -zeta only

theorem execSget_keeps (hP : Closed P) {c : CoreId} {s : State} (h : P s) : AllNext P (execSget c s) := by
  unfold execSget
  repeat' first
    | with_reducible assumption | with_reducible refine AllNext.next ?_ | with_reducible refine VeKeeps.fault ?_
    | with_reducible refine State.veRun_keeps hP (fun _ _ _ => ?_) ?_ | with_reducible refine veRegs_keeps hP ?_
    | (extract_lets +onlyGivenNames x; try clear_value x) | split | intro _ | dsimp -zeta only

theorem execVbcast_keeps (hP : Closed P) {c : CoreId} {s : State} (h : P s) : AllNext P (execVbcast c s) := by
  unfold execVbcast
  repeat' first
    | with_reducible assumption | with_reducible refine AllNext.next ?_
    | with_reducible refine State.veRun_keeps hP (fun _ _ _ => ?_) ?_ | with_reducible refine veLanes_keeps hP ?_
    | intro _ | dsimp -zeta only

end Sys2Proof.Machine
end

