-- ==== Sys2Proof/Laws/KeepsVeMem.lean ====
section
/-!
SUPPORT. Laws/KeepsVeMem.lean: every function of Machine/VeMem.lean keeps a closed property (Laws/Keeps.lean).
-/
set_option linter.unusedVariables false
set_option linter.tactic.unusedName false

namespace Sys2Proof.Machine

open Sys2Proof

variable {P : State → Prop}

theorem execSld_keeps (hP : Closed P) {c : CoreId} {s : State} (h : P s) : AllNext P (execSld c s) := by
  unfold execSld
  repeat' first
    | with_reducible assumption | with_reducible refine AllNext.next ?_ | with_reducible refine VeKeeps.fault ?_
    | with_reducible refine State.veRun_keeps hP (fun _ _ _ => ?_) ?_ | with_reducible refine State.veRead_keeps hP ?_
    | with_reducible refine veRegs_keeps hP ?_ | with_reducible refine keeps_eq2 (by assumption) ?_
    | (extract_lets +onlyGivenNames x; try clear_value x) | split | intro _ | dsimp -zeta only

theorem execSst_keeps (hP : Closed P) {c : CoreId} {s : State} (h : P s) : AllNext P (execSst c s) := by
  unfold execSst
  repeat' first
    | with_reducible assumption | with_reducible refine AllNext.next ?_ | with_reducible refine VeKeeps.next ?_
    | with_reducible refine VeKeeps.fault ?_ | with_reducible refine State.veRun_keeps hP (fun _ _ _ => ?_) ?_
    | with_reducible refine State.veWrite_keeps hP ?_ | (extract_lets +onlyGivenNames x; try clear_value x) | split
    | intro _ | dsimp -zeta only

theorem execVld_keeps (hP : Closed P) {c : CoreId} {s : State} (h : P s) : AllNext P (execVld c s) := by
  unfold execVld
  repeat' first
    | with_reducible assumption | with_reducible refine AllNext.next ?_
    | with_reducible refine State.veRun_keeps hP (fun _ _ _ => ?_) ?_ | with_reducible refine veLoadV_keeps hP ?_
    | intro _ | dsimp -zeta only

theorem execVst_keeps (hP : Closed P) {c : CoreId} {s : State} (h : P s) : AllNext P (execVst c s) := by
  unfold execVst
  repeat' first
    | with_reducible assumption | with_reducible refine AllNext.next ?_
    | with_reducible refine State.veRun_keeps hP (fun _ _ _ => ?_) ?_ | with_reducible refine veStoreV_keeps hP ?_
    | intro _ | dsimp -zeta only

theorem execVld16_keeps (hP : Closed P) {c : CoreId} {s : State} (h : P s) : AllNext P (execVld16 c s) := by
  unfold execVld16
  repeat' first
    | with_reducible assumption | with_reducible refine AllNext.next ?_
    | with_reducible refine State.veRun_keeps hP (fun _ _ _ => ?_) ?_ | with_reducible refine veLoadV_keeps hP ?_
    | intro _ | dsimp -zeta only

theorem execVst16_keeps (hP : Closed P) {c : CoreId} {s : State} (h : P s) : AllNext P (execVst16 c s) := by
  unfold execVst16
  repeat' first
    | with_reducible assumption | with_reducible refine AllNext.next ?_
    | with_reducible refine State.veRun_keeps hP (fun _ _ _ => ?_) ?_ | with_reducible refine veStoreV_keeps hP ?_
    | intro _ | dsimp -zeta only

theorem execVld8_keeps (hP : Closed P) {c : CoreId} {s : State} (h : P s) : AllNext P (execVld8 c s) := by
  unfold execVld8
  repeat' first
    | with_reducible assumption | with_reducible refine AllNext.next ?_
    | with_reducible refine State.veRun_keeps hP (fun _ _ _ => ?_) ?_ | with_reducible refine veLoadV_keeps hP ?_
    | intro _ | dsimp -zeta only

theorem execVst8_keeps (hP : Closed P) {c : CoreId} {s : State} (h : P s) : AllNext P (execVst8 c s) := by
  unfold execVst8
  repeat' first
    | with_reducible assumption | with_reducible refine AllNext.next ?_
    | with_reducible refine State.veRun_keeps hP (fun _ _ _ => ?_) ?_ | with_reducible refine veStoreV_keeps hP ?_
    | intro _ | dsimp -zeta only

theorem execVldp_keeps (hP : Closed P) {c : CoreId} {s : State} (h : P s) : AllNext P (execVldp c s) := by
  unfold execVldp
  repeat' first
    | with_reducible assumption | with_reducible refine AllNext.next ?_ | with_reducible refine VeKeeps.fault ?_
    | with_reducible refine State.veRun_keeps hP (fun _ _ _ => ?_) ?_ | with_reducible refine veLoadV_keeps hP ?_
    | (extract_lets +onlyGivenNames x; try clear_value x) | split | intro _ | dsimp -zeta only

theorem execVstp_keeps (hP : Closed P) {c : CoreId} {s : State} (h : P s) : AllNext P (execVstp c s) := by
  unfold execVstp
  repeat' first
    | with_reducible assumption | with_reducible refine AllNext.next ?_ | with_reducible refine VeKeeps.fault ?_
    | with_reducible refine State.veRun_keeps hP (fun _ _ _ => ?_) ?_ | with_reducible refine veStoreV_keeps hP ?_
    | (extract_lets +onlyGivenNames x; try clear_value x) | split | intro _ | dsimp -zeta only

theorem execVgather_keeps (hP : Closed P) {c : CoreId} {s : State} (h : P s) : AllNext P (execVgather c s) := by
  unfold execVgather
  repeat' first
    | with_reducible assumption | with_reducible refine AllNext.next ?_
    | with_reducible refine State.veRun_keeps hP (fun _ _ _ => ?_) ?_ | with_reducible refine veLoadV_keeps hP ?_
    | intro _ | dsimp -zeta only

theorem execVscatter_keeps (hP : Closed P) {c : CoreId} {s : State} (h : P s) : AllNext P (execVscatter c s) := by
  unfold execVscatter
  repeat' first
    | with_reducible assumption | with_reducible refine AllNext.next ?_
    | with_reducible refine State.veRun_keeps hP (fun _ _ _ => ?_) ?_ | with_reducible refine veStoreV_keeps hP ?_
    | intro _ | dsimp -zeta only

theorem State.veStoreFails_keeps (hP : Closed P) {s : State} {c : Nat} {lanes : Nat} (h : P s) : P (State.veStoreFails
    s c lanes) := by
  unfold State.veStoreFails
  repeat' first
    | with_reducible assumption | with_reducible refine State.veStore_keeps hP ?_
    | with_reducible refine State.veFault_keeps hP ?_ | with_reducible refine keeps_eq2 (by assumption) ?_
    | (extract_lets +onlyGivenNames x; first | (refine (?_ : P x → _) ?_; rotate_left; unfold x; rotate_left; clear_value x; intro) | try clear_value x)
    | split | dsimp -zeta only

theorem State.veQueueFails_keeps (hP : Closed P) {s : State} {c : Nat} (h : P s) : P (State.veQueueFails s c) := by
  unfold State.veQueueFails
  repeat' first
    | with_reducible assumption | with_reducible refine State.veFault_keeps hP ?_ | split | dsimp -zeta only

theorem execPopt_keeps (hP : Closed P) {c : CoreId} {waited : Nat} {s : State} (h : P s) : AllNext P (execPopt c
    waited s) := by
  unfold execPopt
  repeat' first
    | with_reducible assumption | with_reducible refine AllNext.next ?_ | with_reducible refine VeKeeps.next ?_
    | with_reducible refine VeKeeps.fault ?_ | with_reducible exact VeKeeps.wait
    | with_reducible refine State.veRun_keeps hP (fun _ _ _ => ?_) ?_ | with_reducible refine State.setMe_keeps hP ?_
    | with_reducible refine State.setVe_keeps hP ?_ | (extract_lets +onlyGivenNames x; try clear_value x) | split
    | intro _ | dsimp -zeta only

end Sys2Proof.Machine
end

