-- ==== Sys2Proof/Laws/KeepsVeFloat.lean ====
section
/-!
SUPPORT. Laws/KeepsVeFloat.lean: every function of Machine/VeFloat.lean keeps a closed property (Laws/Keeps.lean).
-/
set_option linter.unusedVariables false
set_option linter.tactic.unusedName false

namespace Sys2Proof.Machine

open Sys2Proof

variable {P : State → Prop}

theorem execFadd_keeps (hP : Closed P) {c : CoreId} {s : State} (h : P s) : AllNext P (execFadd c s) := by
  unfold execFadd
  repeat' first
    | with_reducible assumption | with_reducible refine AllNext.next ?_
    | with_reducible refine State.veRun_keeps hP (fun _ _ _ => ?_) ?_ | with_reducible refine veLane2_keeps hP ?_
    | intro _ | dsimp -zeta only

theorem execFsub_keeps (hP : Closed P) {c : CoreId} {s : State} (h : P s) : AllNext P (execFsub c s) := by
  unfold execFsub
  repeat' first
    | with_reducible assumption | with_reducible refine AllNext.next ?_
    | with_reducible refine State.veRun_keeps hP (fun _ _ _ => ?_) ?_ | with_reducible refine veLane2_keeps hP ?_
    | intro _ | dsimp -zeta only

theorem execFmul_keeps (hP : Closed P) {c : CoreId} {s : State} (h : P s) : AllNext P (execFmul c s) := by
  unfold execFmul
  repeat' first
    | with_reducible assumption | with_reducible refine AllNext.next ?_
    | with_reducible refine State.veRun_keeps hP (fun _ _ _ => ?_) ?_ | with_reducible refine veLane2_keeps hP ?_
    | intro _ | dsimp -zeta only

theorem execFfma_keeps (hP : Closed P) {c : CoreId} {s : State} (h : P s) : AllNext P (execFfma c s) := by
  unfold execFfma
  repeat' first
    | with_reducible assumption | with_reducible refine AllNext.next ?_
    | with_reducible refine State.veRun_keeps hP (fun _ _ _ => ?_) ?_ | with_reducible refine veLane3_keeps hP ?_
    | intro _ | dsimp -zeta only

theorem execFdiv_keeps (hP : Closed P) {c : CoreId} {s : State} (h : P s) : AllNext P (execFdiv c s) := by
  unfold execFdiv
  repeat' first
    | with_reducible assumption | with_reducible refine AllNext.next ?_
    | with_reducible refine State.veRun_keeps hP (fun _ _ _ => ?_) ?_ | with_reducible refine veLane2_keeps hP ?_
    | intro _ | dsimp -zeta only

theorem execFsqrt_keeps (hP : Closed P) {c : CoreId} {s : State} (h : P s) : AllNext P (execFsqrt c s) := by
  unfold execFsqrt
  repeat' first
    | with_reducible assumption | with_reducible refine AllNext.next ?_
    | with_reducible refine State.veRun_keeps hP (fun _ _ _ => ?_) ?_ | with_reducible refine veLane1_keeps hP ?_
    | intro _ | dsimp -zeta only

theorem execFmin_keeps (hP : Closed P) {c : CoreId} {s : State} (h : P s) : AllNext P (execFmin c s) := by
  unfold execFmin
  repeat' first
    | with_reducible assumption | with_reducible refine AllNext.next ?_
    | with_reducible refine State.veRun_keeps hP (fun _ _ _ => ?_) ?_ | with_reducible refine veLane2_keeps hP ?_
    | intro _ | dsimp -zeta only

theorem execFmax_keeps (hP : Closed P) {c : CoreId} {s : State} (h : P s) : AllNext P (execFmax c s) := by
  unfold execFmax
  repeat' first
    | with_reducible assumption | with_reducible refine AllNext.next ?_
    | with_reducible refine State.veRun_keeps hP (fun _ _ _ => ?_) ?_ | with_reducible refine veLane2_keeps hP ?_
    | intro _ | dsimp -zeta only

theorem execFabs_keeps (hP : Closed P) {c : CoreId} {s : State} (h : P s) : AllNext P (execFabs c s) := by
  unfold execFabs
  repeat' first
    | with_reducible assumption | with_reducible refine AllNext.next ?_
    | with_reducible refine State.veRun_keeps hP (fun _ _ _ => ?_) ?_ | with_reducible refine veLane1_keeps hP ?_
    | intro _ | dsimp -zeta only

theorem execFneg_keeps (hP : Closed P) {c : CoreId} {s : State} (h : P s) : AllNext P (execFneg c s) := by
  unfold execFneg
  repeat' first
    | with_reducible assumption | with_reducible refine AllNext.next ?_
    | with_reducible refine State.veRun_keeps hP (fun _ _ _ => ?_) ?_ | with_reducible refine veLane1_keeps hP ?_
    | intro _ | dsimp -zeta only

theorem execFexp2_keeps (hP : Closed P) {c : CoreId} {s : State} (h : P s) : AllNext P (execFexp2 c s) := by
  unfold execFexp2
  repeat' first
    | with_reducible assumption | with_reducible refine AllNext.next ?_
    | with_reducible refine State.veRun_keeps hP (fun _ _ _ => ?_) ?_ | with_reducible refine veLane1_keeps hP ?_
    | intro _ | dsimp -zeta only

theorem execFlog2_keeps (hP : Closed P) {c : CoreId} {s : State} (h : P s) : AllNext P (execFlog2 c s) := by
  unfold execFlog2
  repeat' first
    | with_reducible assumption | with_reducible refine AllNext.next ?_
    | with_reducible refine State.veRun_keeps hP (fun _ _ _ => ?_) ?_ | with_reducible refine veLane1_keeps hP ?_
    | intro _ | dsimp -zeta only

theorem execFrsqrt_keeps (hP : Closed P) {c : CoreId} {s : State} (h : P s) : AllNext P (execFrsqrt c s) := by
  unfold execFrsqrt
  repeat' first
    | with_reducible assumption | with_reducible refine AllNext.next ?_
    | with_reducible refine State.veRun_keeps hP (fun _ _ _ => ?_) ?_ | with_reducible refine veLane1_keeps hP ?_
    | intro _ | dsimp -zeta only

theorem execFcmpeq_keeps (hP : Closed P) {c : CoreId} {s : State} (h : P s) : AllNext P (execFcmpeq c s) := by
  unfold execFcmpeq
  repeat' first
    | with_reducible assumption | with_reducible refine AllNext.next ?_
    | with_reducible refine State.veRun_keeps hP (fun _ _ _ => ?_) ?_ | with_reducible refine veCompare_keeps hP ?_
    | intro _ | dsimp -zeta only

theorem execFcmplt_keeps (hP : Closed P) {c : CoreId} {s : State} (h : P s) : AllNext P (execFcmplt c s) := by
  unfold execFcmplt
  repeat' first
    | with_reducible assumption | with_reducible refine AllNext.next ?_
    | with_reducible refine State.veRun_keeps hP (fun _ _ _ => ?_) ?_ | with_reducible refine veCompare_keeps hP ?_
    | intro _ | dsimp -zeta only

theorem execFcmple_keeps (hP : Closed P) {c : CoreId} {s : State} (h : P s) : AllNext P (execFcmple c s) := by
  unfold execFcmple
  repeat' first
    | with_reducible assumption | with_reducible refine AllNext.next ?_
    | with_reducible refine State.veRun_keeps hP (fun _ _ _ => ?_) ?_ | with_reducible refine veCompare_keeps hP ?_
    | intro _ | dsimp -zeta only

theorem execCvt_keeps (hP : Closed P) {c : CoreId} {s : State} (h : P s) : AllNext P (execCvt c s) := by
  unfold execCvt
  repeat' first
    | with_reducible assumption | with_reducible refine AllNext.next ?_ | with_reducible refine VeKeeps.fault ?_
    | with_reducible refine State.veRun_keeps hP (fun _ _ _ => ?_) ?_ | with_reducible refine veLane1_keeps hP ?_
    | (extract_lets +onlyGivenNames x; try clear_value x) | split | intro _ | dsimp -zeta only

theorem execCvts_keeps (hP : Closed P) {c : CoreId} {s : State} (h : P s) : AllNext P (execCvts c s) := by
  unfold execCvts
  repeat' first
    | with_reducible assumption | with_reducible refine AllNext.next ?_ | with_reducible refine VeKeeps.fault ?_
    | with_reducible refine State.veRun_keeps hP (fun _ _ _ => ?_) ?_ | with_reducible refine veLane2_keeps hP ?_
    | (extract_lets +onlyGivenNames x; try clear_value x) | split | intro _ | dsimp -zeta only

theorem execFcvti_keeps (hP : Closed P) {c : CoreId} {s : State} (h : P s) : AllNext P (execFcvti c s) := by
  unfold execFcvti
  repeat' first
    | with_reducible assumption | with_reducible refine AllNext.next ?_
    | with_reducible refine State.veRun_keeps hP (fun _ _ _ => ?_) ?_ | with_reducible refine veLane1_keeps hP ?_
    | intro _ | dsimp -zeta only

theorem execIcvtf_keeps (hP : Closed P) {c : CoreId} {s : State} (h : P s) : AllNext P (execIcvtf c s) := by
  unfold execIcvtf
  repeat' first
    | with_reducible assumption | with_reducible refine AllNext.next ?_
    | with_reducible refine State.veRun_keeps hP (fun _ _ _ => ?_) ?_ | with_reducible refine veLane1_keeps hP ?_
    | intro _ | dsimp -zeta only

theorem execFredsum_keeps (hP : Closed P) {c : CoreId} {s : State} (h : P s) : AllNext P (execFredsum c s) := by
  unfold execFredsum
  repeat' first
    | with_reducible assumption | with_reducible refine AllNext.next ?_
    | with_reducible refine State.veRun_keeps hP (fun _ _ _ => ?_) ?_ | with_reducible refine veReduce_keeps hP ?_
    | intro _ | dsimp -zeta only

theorem execFredmax_keeps (hP : Closed P) {c : CoreId} {s : State} (h : P s) : AllNext P (execFredmax c s) := by
  unfold execFredmax
  repeat' first
    | with_reducible assumption | with_reducible refine AllNext.next ?_
    | with_reducible refine State.veRun_keeps hP (fun _ _ _ => ?_) ?_ | with_reducible refine veReduce_keeps hP ?_
    | intro _ | dsimp -zeta only

theorem execFredmin_keeps (hP : Closed P) {c : CoreId} {s : State} (h : P s) : AllNext P (execFredmin c s) := by
  unfold execFredmin
  repeat' first
    | with_reducible assumption | with_reducible refine AllNext.next ?_
    | with_reducible refine State.veRun_keeps hP (fun _ _ _ => ?_) ?_ | with_reducible refine veReduce_keeps hP ?_
    | intro _ | dsimp -zeta only

end Sys2Proof.Machine
end

