-- ==== Sys2Proof/Laws/KeepsVeInt.lean ====
section
/-!
SUPPORT. Laws/KeepsVeInt.lean: every function of Machine/VeInt.lean keeps a closed property (Laws/Keeps.lean).
-/
set_option linter.unusedVariables false
set_option linter.tactic.unusedName false

namespace Sys2Proof.Machine

open Sys2Proof

variable {P : State → Prop}

theorem execIadd_keeps (hP : Closed P) {c : CoreId} {s : State} (h : P s) : AllNext P (execIadd c s) := by
  unfold execIadd
  repeat' first
    | with_reducible assumption | with_reducible refine AllNext.next ?_
    | with_reducible refine State.veRun_keeps hP (fun _ _ _ => ?_) ?_ | with_reducible refine veLane2_keeps hP ?_
    | intro _ | dsimp -zeta only

theorem execIsub_keeps (hP : Closed P) {c : CoreId} {s : State} (h : P s) : AllNext P (execIsub c s) := by
  unfold execIsub
  repeat' first
    | with_reducible assumption | with_reducible refine AllNext.next ?_
    | with_reducible refine State.veRun_keeps hP (fun _ _ _ => ?_) ?_ | with_reducible refine veLane2_keeps hP ?_
    | intro _ | dsimp -zeta only

theorem execImul_keeps (hP : Closed P) {c : CoreId} {s : State} (h : P s) : AllNext P (execImul c s) := by
  unfold execImul
  repeat' first
    | with_reducible assumption | with_reducible refine AllNext.next ?_
    | with_reducible refine State.veRun_keeps hP (fun _ _ _ => ?_) ?_ | with_reducible refine veLane2_keeps hP ?_
    | intro _ | dsimp -zeta only

theorem execIadds_keeps (hP : Closed P) {c : CoreId} {s : State} (h : P s) : AllNext P (execIadds c s) := by
  unfold execIadds
  repeat' first
    | with_reducible assumption | with_reducible refine AllNext.next ?_
    | with_reducible refine State.veRun_keeps hP (fun _ _ _ => ?_) ?_ | with_reducible refine veLane2_keeps hP ?_
    | intro _ | dsimp -zeta only

theorem execImin_keeps (hP : Closed P) {c : CoreId} {s : State} (h : P s) : AllNext P (execImin c s) := by
  unfold execImin
  repeat' first
    | with_reducible assumption | with_reducible refine AllNext.next ?_
    | with_reducible refine State.veRun_keeps hP (fun _ _ _ => ?_) ?_ | with_reducible refine veLane2_keeps hP ?_
    | split | intro _ | dsimp -zeta only

theorem execImax_keeps (hP : Closed P) {c : CoreId} {s : State} (h : P s) : AllNext P (execImax c s) := by
  unfold execImax
  repeat' first
    | with_reducible assumption | with_reducible refine AllNext.next ?_
    | with_reducible refine State.veRun_keeps hP (fun _ _ _ => ?_) ?_ | with_reducible refine veLane2_keeps hP ?_
    | split | intro _ | dsimp -zeta only

theorem execVand_keeps (hP : Closed P) {c : CoreId} {s : State} (h : P s) : AllNext P (execVand c s) := by
  unfold execVand
  repeat' first
    | with_reducible assumption | with_reducible refine AllNext.next ?_
    | with_reducible refine State.veRun_keeps hP (fun _ _ _ => ?_) ?_ | with_reducible refine veLane2_keeps hP ?_
    | intro _ | dsimp -zeta only

theorem execVor_keeps (hP : Closed P) {c : CoreId} {s : State} (h : P s) : AllNext P (execVor c s) := by
  unfold execVor
  repeat' first
    | with_reducible assumption | with_reducible refine AllNext.next ?_
    | with_reducible refine State.veRun_keeps hP (fun _ _ _ => ?_) ?_ | with_reducible refine veLane2_keeps hP ?_
    | intro _ | dsimp -zeta only

theorem execVxor_keeps (hP : Closed P) {c : CoreId} {s : State} (h : P s) : AllNext P (execVxor c s) := by
  unfold execVxor
  repeat' first
    | with_reducible assumption | with_reducible refine AllNext.next ?_
    | with_reducible refine State.veRun_keeps hP (fun _ _ _ => ?_) ?_ | with_reducible refine veLane2_keeps hP ?_
    | intro _ | dsimp -zeta only

theorem execVshl_keeps (hP : Closed P) {c : CoreId} {s : State} (h : P s) : AllNext P (execVshl c s) := by
  unfold execVshl
  repeat' first
    | with_reducible assumption | with_reducible refine AllNext.next ?_
    | with_reducible refine State.veRun_keeps hP (fun _ _ _ => ?_) ?_ | with_reducible refine veLane2_keeps hP ?_
    | intro _ | dsimp -zeta only

theorem execVshr_keeps (hP : Closed P) {c : CoreId} {s : State} (h : P s) : AllNext P (execVshr c s) := by
  unfold execVshr
  repeat' first
    | with_reducible assumption | with_reducible refine AllNext.next ?_
    | with_reducible refine State.veRun_keeps hP (fun _ _ _ => ?_) ?_ | with_reducible refine veLane2_keeps hP ?_
    | intro _ | dsimp -zeta only

theorem execVsra_keeps (hP : Closed P) {c : CoreId} {s : State} (h : P s) : AllNext P (execVsra c s) := by
  unfold execVsra
  repeat' first
    | with_reducible assumption | with_reducible refine AllNext.next ?_
    | with_reducible refine State.veRun_keeps hP (fun _ _ _ => ?_) ?_ | with_reducible refine veLane2_keeps hP ?_
    | intro _ | dsimp -zeta only

theorem execIcmpeq_keeps (hP : Closed P) {c : CoreId} {s : State} (h : P s) : AllNext P (execIcmpeq c s) := by
  unfold execIcmpeq
  repeat' first
    | with_reducible assumption | with_reducible refine AllNext.next ?_
    | with_reducible refine State.veRun_keeps hP (fun _ _ _ => ?_) ?_ | with_reducible refine veCompare_keeps hP ?_
    | intro _ | dsimp -zeta only

theorem execIcmplt_keeps (hP : Closed P) {c : CoreId} {s : State} (h : P s) : AllNext P (execIcmplt c s) := by
  unfold execIcmplt
  repeat' first
    | with_reducible assumption | with_reducible refine AllNext.next ?_
    | with_reducible refine State.veRun_keeps hP (fun _ _ _ => ?_) ?_ | with_reducible refine veCompare_keeps hP ?_
    | intro _ | dsimp -zeta only

theorem execIaddi_keeps (hP : Closed P) {c : CoreId} {s : State} (h : P s) : AllNext P (execIaddi c s) := by
  unfold execIaddi
  repeat' first
    | with_reducible assumption | with_reducible refine AllNext.next ?_
    | with_reducible refine State.veRun_keeps hP (fun _ _ _ => ?_) ?_ | with_reducible refine veLane1_keeps hP ?_
    | intro _ | dsimp -zeta only

theorem execIredsum_keeps (hP : Closed P) {c : CoreId} {s : State} (h : P s) : AllNext P (execIredsum c s) := by
  unfold execIredsum
  repeat' first
    | with_reducible assumption | with_reducible refine AllNext.next ?_
    | with_reducible refine foldl_keeps (fun _ _ _ => ?_) ?_ | with_reducible refine foldl_keeps2 (fun _ _ _ => ?_) ?_
    | with_reducible refine State.veRun_keeps hP (fun _ _ _ => ?_) ?_ | with_reducible refine veReduce_keeps hP ?_
    | intro _ | dsimp -zeta only

theorem execIredmax_keeps (hP : Closed P) {c : CoreId} {s : State} (h : P s) : AllNext P (execIredmax c s) := by
  unfold execIredmax
  repeat' first
    | with_reducible assumption | with_reducible refine AllNext.next ?_
    | with_reducible refine foldl_keeps (fun _ _ _ => ?_) ?_ | with_reducible refine foldl_keeps2 (fun _ _ _ => ?_) ?_
    | with_reducible refine State.veRun_keeps hP (fun _ _ _ => ?_) ?_ | with_reducible refine veReduce_keeps hP ?_
    | split | intro _ | dsimp -zeta only

theorem execIredmin_keeps (hP : Closed P) {c : CoreId} {s : State} (h : P s) : AllNext P (execIredmin c s) := by
  unfold execIredmin
  repeat' first
    | with_reducible assumption | with_reducible refine AllNext.next ?_
    | with_reducible refine foldl_keeps (fun _ _ _ => ?_) ?_ | with_reducible refine foldl_keeps2 (fun _ _ _ => ?_) ?_
    | with_reducible refine State.veRun_keeps hP (fun _ _ _ => ?_) ?_ | with_reducible refine veReduce_keeps hP ?_
    | split | intro _ | dsimp -zeta only

end Sys2Proof.Machine
end

