-- ==== Sys2Proof/Laws/KeepsVePerm.lean ====
section
/-!
SUPPORT. Laws/KeepsVePerm.lean: every function of Machine/VePerm.lean keeps a closed property (Laws/Keeps.lean).
-/
set_option linter.unusedVariables false
set_option linter.tactic.unusedName false

namespace Sys2Proof.Machine

open Sys2Proof

variable {P : State → Prop}

theorem execVsel_keeps (hP : Closed P) {c : CoreId} {s : State} (h : P s) : AllNext P (execVsel c s) := by
  unfold execVsel
  repeat' first
    | with_reducible assumption | with_reducible refine AllNext.next ?_
    | with_reducible refine State.veRun_keeps hP (fun _ _ _ => ?_) ?_ | with_reducible refine veRegs_keeps hP ?_
    | split | intro _ | dsimp -zeta only

theorem execVperm_keeps (hP : Closed P) {c : CoreId} {s : State} (h : P s) : AllNext P (execVperm c s) := by
  unfold execVperm
  repeat' first
    | with_reducible assumption | with_reducible refine AllNext.next ?_
    | with_reducible refine State.veRun_keeps hP (fun _ _ _ => ?_) ?_ | with_reducible refine veLanes_keeps hP ?_
    | intro _ | dsimp -zeta only

theorem execVrot_keeps (hP : Closed P) {c : CoreId} {s : State} (h : P s) : AllNext P (execVrot c s) := by
  unfold execVrot
  repeat' first
    | with_reducible assumption | with_reducible refine AllNext.next ?_
    | with_reducible refine State.veRun_keeps hP (fun _ _ _ => ?_) ?_ | with_reducible refine veLanes_keeps hP ?_
    | intro _ | dsimp -zeta only

theorem execVgetl_keeps (hP : Closed P) {c : CoreId} {s : State} (h : P s) : AllNext P (execVgetl c s) := by
  unfold execVgetl
  repeat' first
    | with_reducible assumption | with_reducible refine AllNext.next ?_
    | with_reducible refine State.veRun_keeps hP (fun _ _ _ => ?_) ?_ | with_reducible refine veRegs_keeps hP ?_
    | intro _ | dsimp -zeta only

theorem execVsetl_keeps (hP : Closed P) {c : CoreId} {s : State} (h : P s) : AllNext P (execVsetl c s) := by
  unfold execVsetl
  repeat' first
    | with_reducible assumption | with_reducible refine AllNext.next ?_
    | with_reducible refine State.veRun_keeps hP (fun _ _ _ => ?_) ?_ | with_reducible refine veRegs_keeps hP ?_
    | intro _ | dsimp -zeta only

theorem execVmov_keeps (hP : Closed P) {c : CoreId} {s : State} (h : P s) : AllNext P (execVmov c s) := by
  unfold execVmov
  repeat' first
    | with_reducible assumption | with_reducible refine AllNext.next ?_
    | with_reducible refine State.veRun_keeps hP (fun _ _ _ => ?_) ?_ | with_reducible refine veLane1_keeps hP ?_
    | intro _ | dsimp -zeta only

theorem execMand_keeps (hP : Closed P) {c : CoreId} {s : State} (h : P s) : AllNext P (execMand c s) := by
  unfold execMand
  repeat' first
    | with_reducible assumption | with_reducible refine AllNext.next ?_
    | with_reducible refine State.veRun_keeps hP (fun _ _ _ => ?_) ?_ | with_reducible refine veMask_keeps hP ?_
    | intro _ | dsimp -zeta only

theorem execMor_keeps (hP : Closed P) {c : CoreId} {s : State} (h : P s) : AllNext P (execMor c s) := by
  unfold execMor
  repeat' first
    | with_reducible assumption | with_reducible refine AllNext.next ?_
    | with_reducible refine State.veRun_keeps hP (fun _ _ _ => ?_) ?_ | with_reducible refine veMask_keeps hP ?_
    | intro _ | dsimp -zeta only

theorem execMxor_keeps (hP : Closed P) {c : CoreId} {s : State} (h : P s) : AllNext P (execMxor c s) := by
  unfold execMxor
  repeat' first
    | with_reducible assumption | with_reducible refine AllNext.next ?_
    | with_reducible refine State.veRun_keeps hP (fun _ _ _ => ?_) ?_ | with_reducible refine veMask_keeps hP ?_
    | intro _ | dsimp -zeta only

theorem execMnot_keeps (hP : Closed P) {c : CoreId} {s : State} (h : P s) : AllNext P (execMnot c s) := by
  unfold execMnot
  repeat' first
    | with_reducible assumption | with_reducible refine AllNext.next ?_
    | with_reducible refine State.veRun_keeps hP (fun _ _ _ => ?_) ?_ | with_reducible refine veMask_keeps hP ?_
    | intro _ | dsimp -zeta only

theorem execMset_keeps (hP : Closed P) {c : CoreId} {s : State} (h : P s) : AllNext P (execMset c s) := by
  unfold execMset
  repeat' first
    | with_reducible assumption | with_reducible refine AllNext.next ?_
    | with_reducible refine State.veRun_keeps hP (fun _ _ _ => ?_) ?_ | with_reducible refine veRegs_keeps hP ?_
    | intro _ | dsimp -zeta only

theorem execMget_keeps (hP : Closed P) {c : CoreId} {s : State} (h : P s) : AllNext P (execMget c s) := by
  unfold execMget
  repeat' first
    | with_reducible assumption | with_reducible refine AllNext.next ?_
    | with_reducible refine State.veRun_keeps hP (fun _ _ _ => ?_) ?_ | with_reducible refine veRegs_keeps hP ?_
    | intro _ | dsimp -zeta only

theorem execMpop_keeps (hP : Closed P) {c : CoreId} {s : State} (h : P s) : AllNext P (execMpop c s) := by
  unfold execMpop
  repeat' first
    | with_reducible assumption | with_reducible refine AllNext.next ?_
    | with_reducible refine State.veRun_keeps hP (fun _ _ _ => ?_) ?_ | with_reducible refine veRegs_keeps hP ?_
    | intro _ | dsimp -zeta only

theorem execRand_keeps (hP : Closed P) {c : CoreId} {s : State} (h : P s) : AllNext P (execRand c s) := by
  unfold execRand
  repeat' first
    | with_reducible assumption | with_reducible refine AllNext.next ?_
    | with_reducible refine State.veRun_keeps hP (fun _ _ _ => ?_) ?_ | with_reducible refine veLanes_keeps hP ?_
    | intro _ | dsimp -zeta only

theorem execMaskgen_keeps (hP : Closed P) {c : CoreId} {s : State} (h : P s) : AllNext P (execMaskgen c s) := by
  unfold execMaskgen
  repeat' first
    | with_reducible assumption | with_reducible refine AllNext.next ?_ | with_reducible refine VeKeeps.fault ?_
    | with_reducible refine State.veRun_keeps hP (fun _ _ _ => ?_) ?_ | with_reducible refine veRegs_keeps hP ?_
    | (extract_lets +onlyGivenNames x; try clear_value x) | split | intro _ | dsimp -zeta only

end Sys2Proof.Machine
end

