-- ==== Sys2Proof/Laws/KeepsVeShare.lean ====
section
/-!
SUPPORT. Laws/KeepsVeShare.lean: every function of Machine/VeShare.lean keeps a closed property (Laws/Keeps.lean).
-/
set_option linter.unusedVariables false
set_option linter.tactic.unusedName false

namespace Sys2Proof.Machine

open Sys2Proof

variable {P : State → Prop}

theorem State.vePromote_keeps (hP : Closed P) {s : State} {c : Nat} (h : P s) : P (State.vePromote s c) := by
  unfold State.vePromote
  repeat' first
    | with_reducible assumption | with_reducible refine State.setVe_keeps hP ?_
    | (extract_lets +onlyGivenNames x; try clear_value x) | split | dsimp -zeta only

theorem State.veBadProg_keeps (hP : Closed P) {s : State} {c : Nat} {ue : Bool} (h : P s) : P (State.veBadProg s c ue)
    := by
  unfold State.veBadProg
  repeat' first
    | with_reducible assumption | with_reducible refine State.setVe_keeps hP ?_
    | with_reducible refine State.orBits_keeps hP ?_ | (extract_lets +onlyGivenNames x; try clear_value x)
    | dsimp -zeta only

theorem State.veStart_keeps (hP : Closed P) {s : State} {c : Nat} {sh : VeShare} (h : P s) : P (State.veStart s c sh)
    := by
  unfold State.veStart
  repeat' first
    | with_reducible assumption | with_reducible refine hP.wr ?_
    | with_reducible refine foldl_keeps (fun _ _ _ => ?_) ?_ | with_reducible refine foldl_keeps2 (fun _ _ _ => ?_) ?_
    | with_reducible refine State.veBadProg_keeps hP ?_ | with_reducible refine State.gRead_keeps hP ?_
    | with_reducible refine State.setVe_keeps hP ?_ | with_reducible refine keeps_eq3 (by assumption) ?_
    | (extract_lets +onlyGivenNames x; first | (refine (?_ : P x → _) ?_; rotate_left; unfold x; rotate_left; clear_value x; intro) | try clear_value x)
    | split | intro _ | dsimp -zeta only

theorem execVeShareStart_keeps (hP : Closed P) {c : CoreId} {s : State} (h : P s) : AllNext P (execVeShareStart c s)
    := by
  unfold execVeShareStart
  repeat' first
    | with_reducible assumption | with_reducible refine AllNext.next ?_
    | with_reducible refine State.vePromote_keeps hP ?_ | with_reducible refine State.veStart_keeps hP ?_
    | (extract_lets +onlyGivenNames x; first | (refine (?_ : P x → _) ?_; rotate_left; unfold x; rotate_left; clear_value x; intro) | try clear_value x)
    | split | dsimp -zeta only

theorem State.coreFault_keeps (hP : Closed P) {s : State} {c : Nat} (h : P s) : P (State.coreFault s c) := by
  unfold State.coreFault
  repeat' first
    | with_reducible assumption | with_reducible refine State.raise_keeps hP ?_ | dsimp -zeta only

theorem execVeShareComplete_keeps (hP : Closed P) {c : CoreId} {s : State} (h : P s) : AllNext P (execVeShareComplete
    c s) := by
  unfold execVeShareComplete
  repeat' first
    | with_reducible assumption | with_reducible refine AllNext.next ?_
    | with_reducible refine State.coreFault_keeps hP ?_ | with_reducible refine State.setVe_keeps hP ?_
    | with_reducible refine State.shareDone_keeps hP ?_ | with_reducible refine State.vePromote_keeps hP ?_
    | with_reducible refine State.strayError_keeps hP ?_
    | (extract_lets +onlyGivenNames x; first | (refine (?_ : P x → _) ?_; rotate_left; unfold x; rotate_left; clear_value x; intro) | try clear_value x)
    | split | dsimp -zeta only

theorem execVeInsnLimitExpiry_keeps (hP : Closed P) {c : CoreId} {s : State} (h : P s) : AllNext P
    (execVeInsnLimitExpiry c s) := by
  unfold execVeInsnLimitExpiry
  repeat' first
    | with_reducible assumption | with_reducible refine AllNext.next ?_
    | with_reducible refine State.veFault_keeps hP ?_ | split | dsimp -zeta only

theorem execIllegalOpcode_keeps (hP : Closed P) {c : CoreId} {s : State} (h : P s) : AllNext P (execIllegalOpcode c s)
    := by
  unfold execIllegalOpcode
  repeat' first
    | with_reducible assumption | with_reducible refine AllNext.next ?_
    | with_reducible refine State.veFault_keeps hP ?_ | split | dsimp -zeta only

theorem execMeWatchdogExpiry_keeps (hP : Closed P) {c : CoreId} {ofVe : Bool} {clocks : Nat} {s : State} (h : P s) :
    AllNext P (execMeWatchdogExpiry c ofVe clocks s) := by
  unfold execMeWatchdogExpiry
  repeat' first
    | with_reducible assumption | with_reducible refine AllNext.next ?_
    | with_reducible refine State.coreFault_keeps hP ?_ | with_reducible refine State.orBits_keeps hP ?_
    | with_reducible refine State.bump_keeps hP ?_ | with_reducible refine State.setVe_keeps hP ?_
    | with_reducible refine State.meFail_keeps hP ?_ | with_reducible refine State.meUnwait_keeps hP ?_
    | (extract_lets +onlyGivenNames x; first | (refine (?_ : P x → _) ?_; rotate_left; unfold x; rotate_left; clear_value x; intro) | try clear_value x)
    | split | dsimp -zeta only

theorem veDma_keeps (hP : Closed P) {c : Nat} {put : Bool} {w : Nat} {s : State} (h : P s) : VeKeeps P (veDma c put w
    s) := by
  unfold veDma
  repeat' first
    | with_reducible assumption | with_reducible refine VeKeeps.next ?_ | with_reducible refine VeKeeps.fault ?_
    | with_reducible exact VeKeeps.wait | with_reducible refine State.setVe_keeps hP ?_
    | (extract_lets +onlyGivenNames x; try clear_value x) | split | dsimp -zeta only

theorem execDmaget_keeps (hP : Closed P) {c : CoreId} {waited : Nat} {s : State} (h : P s) : AllNext P (execDmaget c
    waited s) := by
  unfold execDmaget
  repeat' first
    | with_reducible assumption | with_reducible refine AllNext.next ?_
    | with_reducible refine State.veRun_keeps hP (fun _ _ _ => ?_) ?_ | with_reducible refine veDma_keeps hP ?_
    | intro _ | dsimp -zeta only

theorem execDmaput_keeps (hP : Closed P) {c : CoreId} {waited : Nat} {s : State} (h : P s) : AllNext P (execDmaput c
    waited s) := by
  unfold execDmaput
  repeat' first
    | with_reducible assumption | with_reducible refine AllNext.next ?_
    | with_reducible refine State.veRun_keeps hP (fun _ _ _ => ?_) ?_ | with_reducible refine veDma_keeps hP ?_
    | intro _ | dsimp -zeta only

theorem execDmawait_keeps (hP : Closed P) {c : CoreId} {waited : Nat} {s : State} (h : P s) : AllNext P (execDmawait c
    waited s) := by
  unfold execDmawait
  repeat' first
    | with_reducible assumption | with_reducible refine AllNext.next ?_ | with_reducible refine VeKeeps.next ?_
    | with_reducible refine VeKeeps.fault ?_ | with_reducible exact VeKeeps.wait
    | with_reducible refine State.veRun_keeps hP (fun _ _ _ => ?_) ?_ | with_reducible refine State.setVe_keeps hP ?_
    | (extract_lets +onlyGivenNames x; try clear_value x) | split | intro _ | dsimp -zeta only

end Sys2Proof.Machine
end

