-- ==== Sys2Proof/Laws/KeepsQuant.lean ====
section
/-!
SUPPORT. Laws/KeepsQuant.lean: every function of Machine/Quant.lean keeps a closed property (Laws/Keeps.lean).
-/
set_option linter.unusedVariables false
set_option linter.tactic.unusedName false

namespace Sys2Proof.Machine

open Sys2Proof

variable {P : State → Prop}

theorem State.wideCopy_keeps (hP : Closed P) {s : State} {j : List Byte} {wide : Option Nat} {r : Nat} {c : Nat} {code
    : Nat} (h : P s) : P (State.wideCopy s j wide r c code) := by
  unfold State.wideCopy
  repeat' first
    | with_reducible assumption | with_reducible refine State.put_keeps hP ?_ | split | dsimp -zeta only

theorem State.groupSrc_keeps (hP : Closed P) {s : State} {j : List Byte} {wide : Option Nat} {i : Nat} {y5 : Nat} {y6
    : Nat} (h : P s) : P (State.groupSrc s j wide i y5 y6).2 := by
  induction y6 generalizing s j wide i y5 with
  | zero => exact h
  | succ n ih =>
    unfold State.groupSrc
    repeat' first
      | with_reducible assumption | with_reducible refine State.gRead_keeps hP ?_
      | with_reducible refine State.wideCopy_keeps hP ?_ | with_reducible refine keeps_eq2 (by assumption) ?_
      | with_reducible refine keeps_eq3 (by assumption) ?_ | with_reducible apply ih | split | dsimp -zeta only

theorem State.around_keeps (hP : Closed P) {s : State} {a : Nat} {n : Nat} (h : P s) : P (State.around s a n).2 := by
  unfold State.around
  repeat' first
    | with_reducible assumption | with_reducible refine State.takeFree_keeps hP ?_
    | with_reducible refine State.gRead_keeps hP ?_ | with_reducible refine keeps_eq2 (by assumption) ?_
    | with_reducible refine keeps_eq3 (by assumption) ?_ | split | dsimp -zeta only

theorem State.putElem_keeps (hP : Closed P) {s : State} {j : List Byte} {w : Nat} {r : Nat} {c : Nat} {code : Nat} (h
    : P s) : P (State.putElem s j w r c code).2 := by
  unfold State.putElem
  repeat' first
    | with_reducible assumption | with_reducible refine State.gWrite_keeps hP ?_
    | with_reducible refine State.around_keeps hP ?_ | with_reducible refine keeps_eq2 (by assumption) ?_
    | (extract_lets +onlyGivenNames x; try clear_value x) | split | dsimp -zeta only

theorem State.putColumn_keeps (hP : Closed P) {s : State} {j : List Byte} {w : Nat} {i : Nat} {y5 : Nat} {y6 : List
    Nat} (h : P s) : P (State.putColumn s j w i y5 y6).2.2 := by
  induction y6 generalizing s j w i y5 with
  | nil => exact h
  | cons x xs ih =>
    unfold State.putColumn
    repeat' first
      | with_reducible assumption | with_reducible refine State.putElem_keeps hP ?_
      | with_reducible refine keeps_eq2 (by assumption) ?_ | with_reducible refine keeps_eq3 (by assumption) ?_
      | with_reducible apply ih | split | dsimp -zeta only

theorem State.putGroup_keeps (hP : Closed P) {s : State} {j : List Byte} {w : Nat} {i : Nat} {codes : List Nat} (h : P
    s) : P (State.putGroup s j w i codes).2.2 := by
  unfold State.putGroup
  repeat' first
    | with_reducible assumption | with_reducible refine State.putColumn_keeps hP ?_
    | with_reducible refine State.gWrite_keeps hP ?_ | with_reducible refine keeps_eq2 (by assumption) ?_
    | with_reducible refine keeps_eq3 (by assumption) ?_ | split | dsimp -zeta only

theorem State.qzGroup_keeps (hP : Closed P) {s : State} {j : List Byte} {mag : Option (Nat × Int)} {wide : Option Nat}
    {i : Nat} {z : QzSum} (h : P s) : P (State.qzGroup s j mag wide i z).2 := by
  unfold State.qzGroup
  repeat' first
    | with_reducible assumption | with_reducible refine foldl_keeps (fun _ _ _ => ?_) ?_
    | with_reducible refine foldl_keeps2 (fun _ _ _ => ?_) ?_ | with_reducible refine State.groupSrc_keeps hP ?_
    | with_reducible refine State.putGroup_keeps hP ?_ | with_reducible refine State.gWrite_keeps hP ?_
    | with_reducible refine keeps_eq2 (by assumption) ?_ | with_reducible refine keeps_eq3 (by assumption) ?_
    | (extract_lets +onlyGivenNames x; try clear_value x) | split | intro _ | dsimp -zeta only

theorem State.qzGroups_keeps (hP : Closed P) {s : State} {j : List Byte} {mag : Nat → Option (Nat × Int)} {wide :
    Option Nat} {y5 : Nat} {y6 : Nat} {y7 : QzSum} (h : P s) : P (State.qzGroups s j mag wide y5 y6 y7).2 := by
  induction y6 generalizing s j mag wide y5 y7 with
  | zero => exact h
  | succ n ih =>
    unfold State.qzGroups
    repeat' first
      | with_reducible assumption | with_reducible refine State.qzGroup_keeps hP ?_
      | with_reducible refine keeps_eq2 (by assumption) ?_ | with_reducible apply ih | split | dsimp -zeta only

theorem State.qzScan_keeps (hP : Closed P) {s : State} {j : List Byte} {wide : Option Nat} {y4 : Nat} {y5 : Nat} (h :
    P s) : P (State.qzScan s j wide y4 y5).2 := by
  induction y5 generalizing s j wide y4 with
  | zero => exact h
  | succ n ih =>
    unfold State.qzScan
    repeat' first
      | with_reducible assumption | with_reducible refine State.groupSrc_keeps hP ?_
      | with_reducible refine keeps_eq2 (by assumption) ?_ | with_reducible apply ih
      | (extract_lets +onlyGivenNames x; try clear_value x) | split | dsimp -zeta only

theorem State.blurAt_keeps (hP : Closed P) {s : State} {a : Nat} {sh : Nat} {w : Nat} (h : P s) : P (State.blurAt s a
    sh w) := by
  unfold State.blurAt
  repeat' first
    | with_reducible assumption | with_reducible refine State.freeNat_keeps hP ?_
    | with_reducible refine State.storeUnits_keeps hP ?_ | with_reducible refine keeps_eq2 (by assumption) ?_
    | (extract_lets +onlyGivenNames x; try clear_value x) | split | dsimp -zeta only

theorem State.blurGroup_keeps (hP : Closed P) {s : State} {j : List Byte} {i : Nat} {k : Nat} (h : P s) : P
    (State.blurGroup s j i k) := by
  unfold State.blurGroup
  repeat' first
    | with_reducible assumption | with_reducible refine foldl_keeps (fun _ _ _ => ?_) ?_
    | with_reducible refine foldl_keeps2 (fun _ _ _ => ?_) ?_ | with_reducible refine State.blurAt_keeps hP ?_
    | (extract_lets +onlyGivenNames x; first | (refine (?_ : P x → _) ?_; rotate_left; unfold x; rotate_left; clear_value x; intro) | try clear_value x)
    | split | intro _ | dsimp -zeta only

theorem State.blurGroups_keeps (hP : Closed P) {s : State} {j : List Byte} {y3 : Nat} {y4 : Nat} {y5 : Nat} (h : P s)
    : P (State.blurGroups s j y3 y4 y5) := by
  induction y5 generalizing s j y3 y4 with
  | zero => exact h
  | succ n ih =>
    unfold State.blurGroups
    repeat' first
      | with_reducible assumption | with_reducible refine State.blurGroup_keeps hP ?_ | with_reducible apply ih | split
      | dsimp -zeta only

theorem State.qzConvertTo_keeps (hP : Closed P) {s : State} {j : List Byte} {cal : Option Num} {wide : Option Nat} {n
    : Nat} (h : P s) : P (State.qzConvertTo s j cal wide n).2 := by
  unfold State.qzConvertTo
  repeat' first
    | with_reducible assumption | with_reducible refine State.qzGroups_keeps hP ?_
    | with_reducible refine State.qzScan_keeps hP ?_ | with_reducible refine keeps_eq2 (by assumption) ?_
    | (extract_lets +onlyGivenNames x; try clear_value x) | split | dsimp -zeta only

theorem State.qzConvert_keeps (hP : Closed P) {s : State} {j : List Byte} {cal : Option Num} {wide : Option Nat} (h :
    P s) : P (State.qzConvert s j cal wide).2 := by
  unfold State.qzConvert
  repeat' first
    | with_reducible assumption | with_reducible refine State.qzConvertTo_keeps hP ?_ | dsimp -zeta only

theorem State.setRun_keeps (hP : Closed P) {s : State} {t : Nat} {r : Option QzRun} (h : P s) : P (State.setRun s t r)
    := by
  unfold State.setRun
  repeat' first
    | with_reducible assumption | with_reducible refine State.setQzt_keeps hP ?_
    | (extract_lets +onlyGivenNames x; try clear_value x) | dsimp -zeta only

theorem State.setTicket_keeps (hP : Closed P) {s : State} {t : Nat} {ticket : Nat} {v : Nat} (h : P s) : P
    (State.setTicket s t ticket v) := by
  unfold State.setTicket
  repeat' first
    | with_reducible assumption | with_reducible refine State.setQzt_keeps hP ?_
    | (extract_lets +onlyGivenNames x; try clear_value x) | dsimp -zeta only

theorem State.postNotice_keeps (hP : Closed P) {s : State} {t : Nat} {ticket : Nat} {replay : Bool} (h : P s) : P
    (State.postNotice s t ticket replay) := by
  unfold State.postNotice
  repeat' first
    | with_reducible assumption | with_reducible refine State.setQzt_keeps hP ?_
    | (extract_lets +onlyGivenNames x; try clear_value x) | split | dsimp -zeta only

theorem State.sampleJob_keeps (hP : Closed P) {s : State} {t : Nat} {j : List Byte} (h : P s) : P (State.sampleJob s t
    j) := by
  unfold State.sampleJob
  repeat' first
    | with_reducible assumption | with_reducible refine State.setQzt_keeps hP ?_
    | with_reducible refine State.setSample_keeps hP ?_ | with_reducible refine State.bump_keeps hP ?_
    | (extract_lets +onlyGivenNames x; first | (refine (?_ : P x → _) ?_; rotate_left; unfold x; rotate_left; clear_value x; intro) | try clear_value x)
    | split | dsimp -zeta only

theorem execQuantJobStart_keeps (hP : Closed P) {t : TileId} {s : State} (h : P s) : AllNext P (execQuantJobStart t s)
    := by
  unfold execQuantJobStart
  repeat' first
    | with_reducible assumption | with_reducible refine AllNext.next ?_
    | with_reducible refine State.setQzt_keeps hP ?_ | with_reducible refine State.partDone_keeps hP ?_
    | with_reducible refine State.gRead_keeps hP ?_ | with_reducible refine State.orBits_keeps hP ?_
    | with_reducible refine State.postNotice_keeps hP ?_ | with_reducible refine State.setTicket_keeps hP ?_
    | with_reducible refine State.raise_keeps hP ?_ | with_reducible refine State.bump_keeps hP ?_
    | with_reducible refine State.setRun_keeps hP ?_ | with_reducible refine State.sampleJob_keeps hP ?_
    | with_reducible refine keeps_eq3 (by assumption) ?_
    | (extract_lets +onlyGivenNames x; first | (refine (?_ : P x → _) ?_; rotate_left; unfold x; rotate_left; clear_value x; intro) | try clear_value x)
    | split | dsimp -zeta only

theorem State.clipStats_keeps (hP : Closed P) {s : State} {t : Nat} {j : List Byte} {sat : Nat} (h : P s) : P
    (State.clipStats s t j sat) := by
  unfold State.clipStats
  repeat' first
    | with_reducible assumption | with_reducible refine State.put_keeps hP ?_
    | (extract_lets +onlyGivenNames x; try clear_value x) | split | dsimp -zeta only

theorem State.qzFail_keeps (hP : Closed P) {s : State} {t : Nat} {r : QzRun} {e : QzStop} (h : P s) : P (State.qzFail
    s t r e) := by
  unfold State.qzFail
  repeat' first
    | with_reducible assumption | with_reducible refine State.blurGroups_keeps hP ?_
    | with_reducible refine State.orBits_keeps hP ?_ | with_reducible refine State.postNotice_keeps hP ?_
    | with_reducible refine State.setRun_keeps hP ?_ | with_reducible refine State.fault_keeps hP ?_
    | with_reducible refine State.partDone_keeps hP ?_
    | (extract_lets +onlyGivenNames x; first | (refine (?_ : P x → _) ?_; rotate_left; unfold x; rotate_left; clear_value x; intro) | try clear_value x)
    | split | dsimp -zeta only

theorem State.qzStand_keeps (hP : Closed P) {s : State} {t : Nat} {r : QzRun} {z : QzSum} (h : P s) : P (State.qzStand
    s t r z) := by
  unfold State.qzStand
  repeat' first
    | with_reducible assumption | with_reducible refine State.bump_keeps hP ?_
    | with_reducible refine State.countStep_keeps hP ?_ | with_reducible refine State.postNotice_keeps hP ?_
    | with_reducible refine State.setRun_keeps hP ?_ | with_reducible refine State.partDone_keeps hP ?_
    | (extract_lets +onlyGivenNames x; first | (refine (?_ : P x → _) ?_; rotate_left; unfold x; rotate_left; clear_value x; intro) | try clear_value x)
    | split | dsimp -zeta only

theorem execQuantConversionEnd_keeps (hP : Closed P) {t : TileId} {s : State} (h : P s) : AllNext P
    (execQuantConversionEnd t s) := by
  unfold execQuantConversionEnd
  repeat' first
    | with_reducible assumption | with_reducible refine AllNext.next ?_
    | with_reducible refine State.qzConvert_keeps hP ?_ | with_reducible refine State.qzFail_keeps hP ?_
    | with_reducible refine State.orBits_keeps hP ?_ | with_reducible refine State.clipStats_keeps hP ?_
    | with_reducible refine State.bump_keeps hP ?_ | with_reducible refine State.raise_keeps hP ?_
    | with_reducible refine State.setRun_keeps hP ?_ | with_reducible refine State.partDone_keeps hP ?_
    | with_reducible refine State.qzStand_keeps hP ?_ | with_reducible refine keeps_eq2 (by assumption) ?_
    | (extract_lets +onlyGivenNames x; first | (refine (?_ : P x → _) ?_; rotate_left; unfold x; rotate_left; clear_value x; intro) | try clear_value x)
    | split | dsimp -zeta only

theorem execQuantReconversionEnd_keeps (hP : Closed P) {t : TileId} {s : State} (h : P s) : AllNext P
    (execQuantReconversionEnd t s) := by
  unfold execQuantReconversionEnd
  repeat' first
    | with_reducible assumption | with_reducible refine AllNext.next ?_
    | with_reducible refine State.qzConvert_keeps hP ?_ | with_reducible refine State.qzFail_keeps hP ?_
    | with_reducible refine State.qzStand_keeps hP ?_ | with_reducible refine State.orBits_keeps hP ?_
    | with_reducible refine keeps_eq2 (by assumption) ?_ | split | dsimp -zeta only

theorem execTraceCopyEnd_keeps (hP : Closed P) {t : TileId} {s : State} (h : P s) : AllNext P (execTraceCopyEnd t s)
    := by
  unfold execTraceCopyEnd
  repeat' first
    | with_reducible assumption | with_reducible refine AllNext.next ?_
    | with_reducible refine State.setSample_keeps hP ?_ | with_reducible refine State.meAdvance_keeps hP ?_
    | with_reducible refine State.chainFinal_keeps hP ?_
    | (extract_lets +onlyGivenNames x; first | (refine (?_ : P x → _) ?_; rotate_left; unfold x; rotate_left; clear_value x; intro) | try clear_value x)
    | split | dsimp -zeta only

theorem execTraceRecomputeEnd_keeps (hP : Closed P) {t : TileId} {s : State} (h : P s) : AllNext P
    (execTraceRecomputeEnd t s) := by
  unfold execTraceRecomputeEnd
  repeat' first
    | with_reducible assumption | with_reducible refine hP.wr ?_ | with_reducible refine AllNext.next ?_
    | with_reducible refine State.bump_keeps hP ?_ | with_reducible refine State.setSample_keeps hP ?_
    | with_reducible refine State.raise_keeps hP ?_
    | (extract_lets +onlyGivenNames x; first | (refine (?_ : P x → _) ?_; rotate_left; unfold x; rotate_left; clear_value x; intro) | try clear_value x)
    | split | dsimp -zeta only

theorem State.quantStepStart_keeps (hP : Closed P) {s : State} (h : P s) : P (State.quantStepStart s) := by
  unfold State.quantStepStart
  repeat' first
    | with_reducible assumption | exact rfl | with_reducible refine State.wrf_keeps hP ?_
    | with_reducible refine State.eachTile_keeps (fun _ _ _ => ?_) ?_ | with_reducible refine State.setQzt_keeps hP ?_
    | (rw [State.mk_rest]; with_reducible refine hP.rest ?_ ?_)
    | (extract_lets +onlyGivenNames x; first | (refine (?_ : P x → _) ?_; rotate_left; unfold x; rotate_left; clear_value x; intro) | try clear_value x)
    | intro _ | dsimp -zeta only

theorem State.reduceSamples_keeps (hP : Closed P) {s : State} (h : P s) : P (State.reduceSamples s) := by
  unfold State.reduceSamples
  repeat' first
    | with_reducible assumption | with_reducible refine State.eachTile_keeps (fun _ _ _ => ?_) ?_
    | with_reducible refine State.dropSample_keeps hP ?_ | split | intro _ | dsimp -zeta only

theorem State.quietLayer_keeps (hP : Closed P) {s : State} {t : Nat} {l : Nat} {loud : Bool} (h : P s) : P
    (State.quietLayer s t l loud) := by
  unfold State.quietLayer
  repeat' first
    | with_reducible assumption | with_reducible refine State.wrf_keeps hP ?_
    | with_reducible refine State.raise_keeps hP ?_ | with_reducible refine State.orBits_keeps hP ?_
    | (extract_lets +onlyGivenNames x; first | (refine (?_ : P x → _) ?_; rotate_left; unfold x; rotate_left; clear_value x; intro) | try clear_value x)
    | split | dsimp -zeta only

theorem State.quietFence_keeps (hP : Closed P) {s : State} (h : P s) : P (State.quietFence s) := by
  unfold State.quietFence
  repeat' first
    | with_reducible assumption | with_reducible refine foldl_keeps (fun _ _ _ => ?_) ?_
    | with_reducible refine foldl_keeps2 (fun _ _ _ => ?_) ?_
    | with_reducible refine State.eachTile_keeps (fun _ _ _ => ?_) ?_
    | with_reducible refine State.quietLayer_keeps hP ?_ | split | intro _ | dsimp -zeta only

theorem State.lossChange_keeps (hP : Closed P) {s : State} {new : Int} {hit : Nat} (h : P s) : P (State.lossChange s
    new hit) := by
  unfold State.lossChange
  repeat' first
    | with_reducible assumption | with_reducible refine hP.wr ?_ | with_reducible refine State.wrf_keeps hP ?_
    | with_reducible refine State.bump_keeps hP ?_ | with_reducible refine State.orBits_keeps hP ?_
    | with_reducible refine State.raise_keeps hP ?_
    | (extract_lets +onlyGivenNames x; first | (refine (?_ : P x → _) ?_; rotate_left; unfold x; rotate_left; clear_value x; intro) | try clear_value x)
    | split | dsimp -zeta only

theorem State.lossFence_keeps (hP : Closed P) {s : State} {halve : Bool} {skipped : Bool} (h : P s) : P
    (State.lossFence s halve skipped) := by
  unfold State.lossFence
  repeat' first
    | with_reducible assumption | with_reducible refine hP.wr ?_ | with_reducible refine State.lossChange_keeps hP ?_
    | (extract_lets +onlyGivenNames x; try clear_value x) | split | dsimp -zeta only

theorem State.setLoss_keeps (hP : Closed P) {s : State} {exp : Int} {lo : Int} {hi : Int} {growth : Nat} (h : P s) : P
    (State.setLoss s exp lo hi growth) := by
  unfold State.setLoss
  repeat' first
    | with_reducible assumption | with_reducible refine hP.wr ?_
    | (extract_lets +onlyGivenNames x; first | (refine (?_ : P x → _) ?_; rotate_left; unfold x; rotate_left; clear_value x; intro) | try clear_value x)
    | dsimp -zeta only

theorem State.putCal_keeps (hP : Closed P) {s : State} {id : Nat} {y3 : List W64} (h : P s) : P (State.putCal s id y3)
    := by
  induction y3 generalizing s id with
  | nil =>
    unfold State.putCal
    repeat' first
      | with_reducible assumption | exact rfl | with_reducible refine hP.wr ?_
      | (rw [State.mk_rest]; with_reducible refine hP.rest ?_ ?_) | with_reducible apply ih
      | (extract_lets +onlyGivenNames x; try clear_value x) | split | dsimp -zeta only
  | cons x xs ih =>
    unfold State.putCal
    repeat' first
      | with_reducible assumption | exact rfl | with_reducible refine hP.wr ?_
      | (rw [State.mk_rest]; with_reducible refine hP.rest ?_ ?_) | with_reducible apply ih
      | (extract_lets +onlyGivenNames x; try clear_value x) | split | dsimp -zeta only

theorem State.quantResetTile_keeps (hP : Closed P) {s : State} {t : Nat} (h : P s) : P (State.quantResetTile s t) :=
    by
  unfold State.quantResetTile
  repeat' first
    | with_reducible assumption | with_reducible refine hP.resetRegs ?_
    | with_reducible refine State.blurGroups_keeps hP ?_ | with_reducible refine State.setQzt_keeps hP ?_
    | (extract_lets +onlyGivenNames x; first | (refine (?_ : P x → _) ?_; rotate_left; unfold x; rotate_left; clear_value x; intro) | try clear_value x)
    | split | dsimp -zeta only

theorem State.quantReset_keeps (hP : Closed P) {s : State} (h : P s) : P (State.quantReset s) := by
  unfold State.quantReset
  repeat' first
    | with_reducible assumption | exact rfl | with_reducible refine hP.resetRegs ?_
    | (rw [State.mk_rest]; with_reducible refine hP.rest ?_ ?_) | dsimp -zeta only

theorem State.quantAbortTile_keeps (hP : Closed P) {s : State} {t : Nat} (h : P s) : P (State.quantAbortTile s t) :=
    by
  unfold State.quantAbortTile
  repeat' first
    | with_reducible assumption | with_reducible refine State.freeNat_keeps hP ?_
    | with_reducible refine State.qzConvertTo_keeps hP ?_ | with_reducible refine State.orBits_keeps hP ?_
    | with_reducible refine State.dropSample_keeps hP ?_ | with_reducible refine State.setQzt_keeps hP ?_
    | with_reducible refine keeps_eq2 (by assumption) ?_
    | (extract_lets +onlyGivenNames x; first | (refine (?_ : P x → _) ?_; rotate_left; unfold x; rotate_left; clear_value x; intro) | try clear_value x)
    | split | dsimp -zeta only

end Sys2Proof.Machine
end

