-- ==== Sys2Proof/Laws/KeepsUeRecipe.lean ====
section
/-!
SUPPORT. Laws/KeepsUeRecipe.lean: every function of Machine/UeRecipe.lean keeps a closed property (Laws/Keeps.lean).
-/
set_option linter.unusedVariables false
set_option linter.tactic.unusedName false

namespace Sys2Proof.Machine

open Sys2Proof

variable {P : State → Prop}

theorem State.latchConsts_keeps (hP : Closed P) {s : State} (h : P s) : P (State.latchConsts s) := by
  unfold State.latchConsts
  repeat' first
    | with_reducible assumption | exact rfl | (rw [State.mk_rest]; with_reducible refine hP.rest ?_ ?_)
    | (extract_lets +onlyGivenNames x; try clear_value x) | dsimp -zeta only

theorem State.commitRecipe_keeps (hP : Closed P) {s : State} {val : Nat} (h : P s) : P (State.commitRecipe s val) :=
    by
  unfold State.commitRecipe
  repeat' first
    | with_reducible assumption | with_reducible refine hP.wr ?_ | with_reducible refine State.wrf_keeps hP ?_
    | (extract_lets +onlyGivenNames x; try clear_value x) | split | dsimp -zeta only

theorem State.writeRecipe_keeps (hP : Closed P) {s : State} {n : Nat} {w : Nat} {val : Nat} (h : P s) : P
    (State.writeRecipe s n w val) := by
  unfold State.writeRecipe
  repeat' first
    | with_reducible assumption | with_reducible refine hP.wr ?_ | with_reducible refine State.wrf_keeps hP ?_
    | (extract_lets +onlyGivenNames x; try clear_value x) | split | dsimp -zeta only

theorem State.ueFlags_keeps (hP : Closed P) {s : State} {t : Nat} {f : NFlags} (h : P s) : P (State.ueFlags s t f) :=
    by
  unfold State.ueFlags
  repeat' first
    | with_reducible assumption | with_reducible refine State.orBits_keeps hP ?_ | split | dsimp -zeta only

end Sys2Proof.Machine
end

