-- ==== Sys2Proof/Laws/KeepsUeBlocks.lean ====
section
/-!
SUPPORT. Laws/KeepsUeBlocks.lean: every function of Machine/UeBlocks.lean keeps a closed property (Laws/Keeps.lean).
-/
set_option linter.unusedVariables false
set_option linter.tactic.unusedName false

namespace Sys2Proof.Machine

open Sys2Proof

variable {P : State → Prop}

theorem State.setUpt_keeps (hP : Closed P) {s : State} {t : Nat} {x : UeState} (h : P s) : P (State.setUpt s t x) :=
    by
  unfold State.setUpt
  repeat' first
    | with_reducible assumption | exact rfl | (rw [State.mk_rest]; with_reducible refine hP.rest ?_ ?_)
    | dsimp -zeta only

theorem State.updateIssue_keeps (hP : Closed P) {s : State} {t : Nat} {idx : Nat} {recipe : Nat} {count : Nat} {p :
    Nat} {g : Nat} (h : P s) : P (State.updateIssue s t idx recipe count p g) := by
  unfold State.updateIssue
  repeat' first
    | with_reducible assumption | with_reducible refine State.partDone_keeps hP ?_
    | with_reducible refine State.orBits_keeps hP ?_ | with_reducible refine State.setUpt_keeps hP ?_
    | (extract_lets +onlyGivenNames x; first | (refine (?_ : P x → _) ?_; rotate_left; unfold x; rotate_left; clear_value x; intro) | try clear_value x)
    | split | dsimp -zeta only

theorem State.ueJobs_keeps (hP : Closed P) {s : State} {t : Nat} {y3 : List UeJob} (h : P s) : P (State.ueJobs s t y3)
    := by
  induction y3 generalizing s t with
  | nil => exact h
  | cons x xs ih =>
    unfold State.ueJobs
    repeat' first
      | with_reducible assumption | with_reducible refine State.partDone_keeps hP ?_
      | with_reducible refine State.setUpt_keeps hP ?_ | with_reducible apply ih
      | (extract_lets +onlyGivenNames x; first | (refine (?_ : P x → _) ?_; rotate_left; unfold x; rotate_left; clear_value x; intro) | try clear_value x)
      | split | dsimp -zeta only

theorem State.ueAdvance_keeps (hP : Closed P) {s : State} {t : Nat} (h : P s) : P (State.ueAdvance s t) := by
  unfold State.ueAdvance
  repeat' first
    | with_reducible assumption | with_reducible refine State.ueJobs_keeps hP ?_ | dsimp -zeta only

theorem State.stopJob_keeps (hP : Closed P) {s : State} {t : Nat} {idx : Nat} (h : P s) : P (State.stopJob s t idx) :=
    by
  unfold State.stopJob
  repeat' first
    | with_reducible assumption | with_reducible refine State.setUpt_keeps hP ?_
    | (extract_lets +onlyGivenNames x; try clear_value x) | split | dsimp -zeta only

theorem State.jobError_keeps (hP : Closed P) {s : State} {t : Nat} {idx : Nat} {ue : Bool} (h : P s) : P
    (State.jobError s t idx ue) := by
  unfold State.jobError
  repeat' first
    | with_reducible assumption | with_reducible refine State.fault_keeps hP ?_
    | with_reducible refine State.mapFlight_keeps hP ?_ | with_reducible refine State.stopJob_keeps hP ?_
    | dsimp -zeta only

theorem execBlockStageStart_keeps (hP : Closed P) {t : TileId} {s : State} (h : P s) : AllNext P (execBlockStageStart
    t s) := by
  unfold execBlockStageStart
  repeat' first
    | with_reducible assumption | with_reducible refine AllNext.next ?_
    | with_reducible refine State.ueAdvance_keeps hP ?_ | with_reducible refine State.jobError_keeps hP ?_
    | with_reducible refine State.orBits_keeps hP ?_ | with_reducible refine State.setUpt_keeps hP ?_
    | (extract_lets +onlyGivenNames x; try clear_value x) | split | dsimp -zeta only

theorem State.nonfiniteNums_keeps (hP : Closed P) {s : State} {t : Nat} {addr : Nat} {vals : List Num} (h : P s) : P
    (State.nonfiniteNums s t addr vals) := by
  unfold State.nonfiniteNums
  repeat' first
    | with_reducible assumption | with_reducible refine State.raise_keeps hP ?_
    | with_reducible refine State.bump_keeps hP ?_ | with_reducible refine State.ueFlags_keeps hP ?_
    | (extract_lets +onlyGivenNames x; try clear_value x) | split | dsimp -zeta only

theorem State.nonfinite_keeps (hP : Closed P) {s : State} {t : Nat} {addr : Nat} {vals : List W32} (h : P s) : P
    (State.nonfinite s t addr vals) := by
  unfold State.nonfinite
  repeat' first
    | with_reducible assumption | with_reducible refine State.nonfiniteNums_keeps hP ?_ | dsimp -zeta only

theorem State.stagePut_keeps (hP : Closed P) {s : State} {t : Nat} {i : Nat} {off : Nat} {bs : List Byte} (h : P s) :
    P (State.stagePut s t i off bs) := by
  unfold State.stagePut
  repeat' first
    | with_reducible assumption | with_reducible refine hP.poke ?_
    | (extract_lets +onlyGivenNames x; try clear_value x) | split | dsimp -zeta only

theorem State.tear_keeps (hP : Closed P) {s : State} {t : Nat} {i : Nat} {x : UeSlot} {noUndo : Bool} {tagOk : Bool}
    (h : P s) : P (State.tear s t i x noUndo tagOk) := by
  unfold State.tear
  repeat' first
    | with_reducible assumption | with_reducible refine hP.wr ?_
    | with_reducible refine State.memWriteBare_keeps hP ?_ | with_reducible refine State.setUpt_keeps hP ?_
    | with_reducible refine State.raise_keeps hP ?_ | with_reducible refine State.bump_keeps hP ?_
    | with_reducible refine State.fault_keeps hP ?_ | with_reducible refine keeps_eq2 (by assumption) ?_
    | (extract_lets +onlyGivenNames x; first | (refine (?_ : P x → _) ?_; rotate_left; unfold x; rotate_left; clear_value x; intro) | try clear_value x)
    | split | dsimp -zeta only

theorem execBlockStaged_keeps (hP : Closed P) {t : TileId} {slot : Fin 16} {s : State} (h : P s) : AllNext P
    (execBlockStaged t slot s) := by
  unfold execBlockStaged
  repeat' first
    | with_reducible assumption | with_reducible refine AllNext.next ?_
    | with_reducible refine foldl_keeps (fun _ _ _ => ?_) ?_ | with_reducible refine foldl_keeps2 (fun _ _ _ => ?_) ?_
    | with_reducible refine State.setUpt_keeps hP ?_ | with_reducible refine State.memRead_keeps hP ?_
    | with_reducible refine State.stagePut_keeps hP ?_ | with_reducible refine State.noteTwo_keeps hP ?_
    | with_reducible refine State.ueAdvance_keeps hP ?_ | with_reducible refine State.jobError_keeps hP ?_
    | with_reducible refine State.tear_keeps hP ?_ | with_reducible refine State.orBits_keeps hP ?_
    | with_reducible refine State.bump_keeps hP ?_ | with_reducible refine State.ueFlags_keeps hP ?_
    | with_reducible refine State.nonfinite_keeps hP ?_ | with_reducible refine keeps_eq3 (by assumption) ?_
    | with_reducible refine hx _ ?_
    | (extract_lets +onlyGivenNames x; first | (refine (?_ : (∀ s, P s → P (x s)) → _) ?_; rotate_left; unfold x; rotate_left; clear_value x; intro hx) | (refine (?_ : P x → _) ?_; rotate_left; unfold x; rotate_left; clear_value x; intro) | try clear_value x)
    | split | intro _ | dsimp -zeta only

theorem State.commitWrite_keeps (hP : Closed P) {s : State} {t : Nat} {i : Nat} {x : UeSlot} {err : Bool} {tagOk :
    Bool} (h : P s) : P (State.commitWrite s t i x err tagOk) := by
  unfold State.commitWrite
  repeat' first
    | with_reducible assumption | with_reducible refine State.memWriteBare_keeps hP ?_
    | with_reducible refine State.ueAdvance_keeps hP ?_ | with_reducible refine State.bump_keeps hP ?_
    | with_reducible refine State.setUpt_keeps hP ?_ | with_reducible refine State.parityCatchUp_keeps hP ?_
    | with_reducible refine State.tear_keeps hP ?_ | with_reducible refine keeps_eq2 (by assumption) ?_ | split
    | dsimp -zeta only

theorem execBlockCommitWriteDone_keeps (hP : Closed P) {t : TileId} {slot : Fin 16} {res : CommitResult} {tagOk :
    Bool} {s : State} (h : P s) : AllNext P (execBlockCommitWriteDone t slot res tagOk s) := by
  unfold execBlockCommitWriteDone
  repeat' first
    | with_reducible assumption | with_reducible refine AllNext.next ?_
    | with_reducible refine State.commitWrite_keeps hP ?_ | with_reducible refine State.ueAdvance_keeps hP ?_
    | with_reducible refine State.tear_keeps hP ?_ | split | dsimp -zeta only

theorem State.finishBlock_keeps (hP : Closed P) {s : State} {t : Nat} {i : Nat} {y4 : Nat} (h : P s) : P
    (State.finishBlock s t i y4) := by
  induction y4 generalizing s t i with
  | zero => exact h
  | succ n ih =>
    unfold State.finishBlock
    repeat' first
      | with_reducible assumption | with_reducible refine State.commitWrite_keeps hP ?_ | with_reducible apply ih
      | split | dsimp -zeta only

theorem State.ueStop_keeps (hP : Closed P) {s : State} {t : Nat} (h : P s) : P (State.ueStop s t) := by
  unfold State.ueStop
  repeat' first
    | with_reducible assumption | with_reducible refine foldl_keeps (fun _ _ _ => ?_) ?_
    | with_reducible refine foldl_keeps2 (fun _ _ _ => ?_) ?_ | with_reducible refine State.finishBlock_keeps hP ?_
    | with_reducible refine State.setUpt_keeps hP ?_
    | (extract_lets +onlyGivenNames x; first | (refine (?_ : P x → _) ?_; rotate_left; unfold x; rotate_left; clear_value x; intro) | try clear_value x)
    | intro _ | dsimp -zeta only

theorem State.releaseSlots_keeps (hP : Closed P) {s : State} {t : Nat} {a : Nat} {n : Nat} {catchUp : Bool} {y6 : List
    (Nat × UeSlot)} (h : P s) : P (State.releaseSlots s t a n catchUp y6) := by
  induction y6 generalizing s t a n catchUp with
  | nil => exact h
  | cons x xs ih =>
    unfold State.releaseSlots
    repeat' first
      | with_reducible assumption | with_reducible refine hP.wr ?_
      | with_reducible refine State.parityCatchUp_keeps hP ?_ | with_reducible refine State.setUpt_keeps hP ?_
      | with_reducible apply ih
      | (extract_lets +onlyGivenNames x; first | (refine (?_ : P x → _) ?_; rotate_left; unfold x; rotate_left; clear_value x; intro) | try clear_value x)
      | split | dsimp -zeta only

theorem State.releaseTorn_keeps (hP : Closed P) {s : State} {a : Nat} {n : Nat} {catchUp : Bool} (h : P s) : P
    (State.releaseTorn s a n catchUp) := by
  unfold State.releaseTorn
  repeat' first
    | with_reducible assumption | with_reducible refine State.eachTile_keeps (fun _ _ _ => ?_) ?_
    | with_reducible refine State.releaseSlots_keeps hP ?_ | intro _ | dsimp -zeta only

theorem State.ueResetTile_keeps (hP : Closed P) {s : State} {t : Nat} (h : P s) : P (State.ueResetTile s t) := by
  unfold State.ueResetTile
  repeat' first
    | with_reducible assumption | with_reducible refine hP.resetRegs ?_
    | with_reducible refine State.setUpt_keeps hP ?_ | with_reducible refine State.ueStop_keeps hP ?_
    | dsimp -zeta only

theorem State.ueReset_keeps (hP : Closed P) {s : State} (h : P s) : P (State.ueReset s) := by
  unfold State.ueReset
  repeat' first
    | with_reducible assumption | exact rfl | with_reducible refine hP.resetRegs ?_
    | (rw [State.mk_rest]; with_reducible refine hP.rest ?_ ?_) | dsimp -zeta only

theorem State.acceptWrites_keeps (hP : Closed P) {s : State} {x : UeSlot} {y3 : List (Nat × List Byte)} (h : P s) : P
    (State.acceptWrites s x y3).2 := by
  induction y3 generalizing s x with
  | nil => exact h
  | cons x xs ih =>
    unfold State.acceptWrites
    repeat' first
      | with_reducible assumption | with_reducible refine State.memWriteBare_keeps hP ?_
      | with_reducible refine keeps_eq2 (by assumption) ?_ | with_reducible apply ih | split | dsimp -zeta only

theorem State.acceptTorn_keeps (hP : Closed P) {s : State} {t : Nat} {i : Nat} {x : UeSlot} (h : P s) : P
    (State.acceptTorn s t i x).2 := by
  unfold State.acceptTorn
  repeat' first
    | with_reducible assumption | with_reducible refine hP.wr ?_
    | with_reducible refine State.acceptWrites_keeps hP ?_ | with_reducible refine State.setUpt_keeps hP ?_
    | with_reducible refine State.parityCatchUp_keeps hP ?_ | with_reducible refine keeps_eq2 (by assumption) ?_
    | split | dsimp -zeta only

end Sys2Proof.Machine
end

