-- ==== Sys2Proof/Laws/KeepsRows.lean ====
section
/-!
SUPPORT. Laws/KeepsRows.lean: every function of Machine/Rows.lean keeps a closed property (Laws/Keeps.lean).
-/
set_option linter.unusedVariables false
set_option linter.tactic.unusedName false

namespace Sys2Proof.Machine

open Sys2Proof

variable {P : State → Prop}

theorem State.freshOne_keeps (hP : Closed P) {s : State} {t : Nat} {table : Nat} {r : Nat} {acc : Num} {el : List Num}
    {g : Segment} (h : P s) : P (State.freshOne s t table r acc el g).2.2 := by
  unfold State.freshOne
  repeat' first
    | with_reducible assumption | with_reducible refine State.bump_keeps hP ?_ | split | dsimp -zeta only

theorem State.freshGo_keeps (hP : Closed P) {s : State} {t : Nat} {table : Nat} {r : Nat} {acc : Num} {el : List Num}
    {y7 : List Segment} (h : P s) : P (State.freshGo s t table r acc el y7).2.2 := by
  induction y7 generalizing s t table r acc el with
  | nil => exact h
  | cons x xs ih =>
    unfold State.freshGo
    repeat' first
      | with_reducible assumption | with_reducible refine State.freshOne_keeps hP ?_
      | with_reducible refine keeps_eq3 (by assumption) ?_ | with_reducible apply ih
      | (extract_lets +onlyGivenNames x; first | (refine (?_ : P x.2.2 → _) ?_; rotate_left; unfold x; rotate_left; clear_value x; intro) | (refine (?_ : P x → _) ?_; rotate_left; unfold x; rotate_left; clear_value x; intro) | try clear_value x)
      | split | dsimp -zeta only

theorem State.present_keeps (hP : Closed P) {s : State} {t : Nat} {table : Nat} {r : Nat} {fresh : Bool} {bs : List
    Byte} (h : P s) : P (State.present s t table r fresh bs).2.2 := by
  unfold State.present
  repeat' first
    | with_reducible assumption | with_reducible refine State.freshGo_keeps hP ?_
    | with_reducible refine State.orBits_keeps hP ?_ | with_reducible refine State.bump_keeps hP ?_
    | with_reducible refine keeps_eq3 (by assumption) ?_ | (extract_lets +onlyGivenNames x; try clear_value x) | split
    | dsimp -zeta only

theorem State.poison_keeps (hP : Closed P) {s : State} {t : Nat} {table : Nat} {r : Nat} {cause : Nat} (h : P s) : P
    (State.poison s t table r cause) := by
  unfold State.poison
  repeat' first
    | with_reducible assumption | with_reducible refine hP.wr ?_ | with_reducible refine State.raise_keeps hP ?_
    | with_reducible refine State.fault_keeps hP ?_ | with_reducible refine State.orBits_keeps hP ?_ | split
    | dsimp -zeta only

theorem State.rowFailed_keeps (hP : Closed P) {s : State} {t : Nat} {table : Nat} {r : Nat} {src : Nat} (h : P s) : P
    (State.rowFailed s t table r src) := by
  unfold State.rowFailed
  repeat' first
    | with_reducible assumption | with_reducible refine State.noteUe_keeps hP ?_
    | with_reducible refine State.bump_keeps hP ?_ | with_reducible refine State.poison_keeps hP ?_
    | with_reducible refine State.raise_keeps hP ?_
    | (extract_lets +onlyGivenNames x; first | (refine (?_ : P x → _) ?_; rotate_left; unfold x; rotate_left; clear_value x; intro) | try clear_value x)
    | split | dsimp -zeta only

theorem State.rowRead_keeps (hP : Closed P) {s : State} {t : Nat} {table : Nat} {r : Nat} {src : Nat} (h : P s) : P
    (State.rowRead s t table r src).2.2 := by
  unfold State.rowRead
  repeat' first
    | with_reducible assumption | with_reducible refine State.rowFailed_keeps hP ?_
    | (extract_lets +onlyGivenNames x; try clear_value x) | split | dsimp -zeta only

theorem State.unpoison_keeps (hP : Closed P) {s : State} {p : Nat → Nat → Bool} (h : P s) : P (State.unpoison s p) :=
    by
  unfold State.unpoison
  repeat' first
    | with_reducible assumption | with_reducible refine hP.wr ?_
    | with_reducible refine foldl_keeps (fun _ _ _ => ?_) ?_ | with_reducible refine foldl_keeps2 (fun _ _ _ => ?_) ?_
    | with_reducible refine State.eachTile_keeps (fun _ _ _ => ?_) ?_ | split | intro _ | dsimp -zeta only

end Sys2Proof.Machine
end

