-- ==== Sys2Proof/Laws/KeepsHotRow.lean ====
section
/-!
SUPPORT. Laws/KeepsHotRow.lean: every function of Machine/HotRow.lean keeps a closed property (Laws/Keeps.lean).
-/
set_option linter.unusedVariables false
set_option linter.tactic.unusedName false

namespace Sys2Proof.Machine

open Sys2Proof

variable {P : State → Prop}

theorem State.setDir_keeps (hP : Closed P) {s : State} {e : Nat} {v : Nat} (h : P s) : P (State.setDir s e v) := by
  unfold State.setDir
  repeat' first
    | with_reducible assumption | exact rfl | (rw [State.mk_rest]; with_reducible refine hP.rest ?_ ?_)
    | (extract_lets +onlyGivenNames x; try clear_value x) | dsimp -zeta only

theorem State.nextDirGen_keeps (hP : Closed P) {s : State} (h : P s) : P (State.nextDirGen s) := by
  unfold State.nextDirGen
  repeat' first
    | with_reducible assumption | with_reducible refine hP.wr ?_ | dsimp -zeta only

theorem State.bumpTiles_keeps (hP : Closed P) {s : State} {k : Nat} (h : P s) : P (State.bumpTiles s k) := by
  unfold State.bumpTiles
  repeat' first
    | with_reducible assumption | with_reducible refine State.eachTile_keeps (fun _ _ _ => ?_) ?_
    | with_reducible refine State.bump_keeps hP ?_ | intro _ | dsimp -zeta only

theorem State.coolRow_keeps (hP : Closed P) {s : State} {table : Nat} {r : Nat} (h : P s) : P (State.coolRow s table
    r).2 := by
  unfold State.coolRow
  repeat' first
    | with_reducible assumption | with_reducible refine State.setDir_keeps hP ?_
    | (extract_lets +onlyGivenNames x; try clear_value x) | split | dsimp -zeta only

theorem State.coolAll_keeps (hP : Closed P) {s : State} {y2 : List (Nat × Nat)} (h : P s) : P (State.coolAll s y2).2
    := by
  induction y2 generalizing s with
  | nil => exact h
  | cons x xs ih =>
    unfold State.coolAll
    repeat' first
      | with_reducible assumption | with_reducible refine State.coolRow_keeps hP ?_
      | with_reducible refine State.bumpTiles_keeps hP ?_ | with_reducible refine keeps_eq2 (by assumption) ?_
      | with_reducible apply ih
      | (extract_lets +onlyGivenNames x; first | (refine (?_ : P x → _) ?_; rotate_left; unfold x; rotate_left; clear_value x; intro) | try clear_value x)
      | split | dsimp -zeta only

theorem State.heatRow_keeps (hP : Closed P) {s : State} {table : Nat} {r : Nat} (h : P s) : P (State.heatRow s table
    r).2 := by
  unfold State.heatRow
  repeat' first
    | with_reducible assumption | with_reducible refine State.bumpTiles_keeps hP ?_
    | with_reducible refine State.setDir_keeps hP ?_ | with_reducible refine hx _
    | (extract_lets +onlyGivenNames x; first | (refine (?_ : (∀ e, P (x e).2) → _) ?_; rotate_left; unfold x; rotate_left; clear_value x; intro hx) | try clear_value x)
    | split | intro _ | dsimp -zeta only

theorem State.heatAll_keeps (hP : Closed P) {s : State} {y2 : List (Nat × Nat)} (h : P s) : P (State.heatAll s y2).2
    := by
  induction y2 generalizing s with
  | nil => exact h
  | cons x xs ih =>
    unfold State.heatAll
    repeat' first
      | with_reducible assumption | with_reducible refine State.heatRow_keeps hP ?_
      | with_reducible refine keeps_eq2 (by assumption) ?_ | with_reducible apply ih | split | dsimp -zeta only

theorem State.emptyDir_keeps (hP : Closed P) {s : State} (h : P s) : P (State.emptyDir s) := by
  unfold State.emptyDir
  repeat' first
    | with_reducible assumption | exact rfl | with_reducible refine State.nextDirGen_keeps hP ?_
    | (rw [State.mk_rest]; with_reducible refine hP.rest ?_ ?_) | (extract_lets +onlyGivenNames x; try clear_value x)
    | split | dsimp -zeta only

theorem State.dirDrop_keeps (hP : Closed P) {s : State} {table : Nat} (h : P s) : P (State.dirDrop s table) := by
  unfold State.dirDrop
  repeat' first
    | with_reducible assumption | exact rfl | with_reducible refine State.nextDirGen_keeps hP ?_
    | (rw [State.mk_rest]; with_reducible refine hP.rest ?_ ?_) | (extract_lets +onlyGivenNames x; try clear_value x)
    | split | dsimp -zeta only

theorem State.commonsWrite_keeps (hP : Closed P) {s : State} {table : Nat} {r : Nat} {bs : List Byte} (h : P s) : P
    (State.commonsWrite s table r bs) := by
  unfold State.commonsWrite
  repeat' first
    | with_reducible assumption | with_reducible refine State.eachTile_keeps (fun _ _ _ => ?_) ?_
    | with_reducible refine State.memWrite_keeps hP ?_ | with_reducible refine keeps_eq2 (by assumption) ?_ | split
    | intro _ | dsimp -zeta only

theorem State.commonsRead_keeps (hP : Closed P) {s : State} {t : Nat} {e : Nat} {table : Nat} {r : Nat} (h : P s) : P
    (State.commonsRead s t e table r).2.2 := by
  unfold State.commonsRead
  repeat' first
    | with_reducible assumption | with_reducible refine State.memRead_keeps hP ?_ | dsimp -zeta only

theorem State.clearHeat_keeps (hP : Closed P) {s : State} (h : P s) : P (State.clearHeat s) := by
  unfold State.clearHeat
  repeat' first
    | with_reducible assumption | with_reducible refine State.eachTile_keeps (fun _ _ _ => ?_) ?_
    | with_reducible refine State.setEmbt_keeps hP ?_ | (extract_lets +onlyGivenNames x; try clear_value x) | intro _
    | dsimp -zeta only

theorem State.newWindow_keeps (hP : Closed P) {s : State} {w : Option Nat} (h : P s) : P (State.newWindow s w) := by
  unfold State.newWindow
  repeat' first
    | with_reducible assumption | exact rfl | with_reducible refine State.clearHeat_keeps hP ?_
    | (rw [State.mk_rest]; with_reducible refine hP.rest ?_ ?_)
    | (extract_lets +onlyGivenNames x; first | (refine (?_ : P x → _) ?_; rotate_left; unfold x; rotate_left; clear_value x; intro) | try clear_value x)
    | dsimp -zeta only

theorem State.applyChanges_keeps (hP : Closed P) {s : State} (h : P s) : P (State.applyChanges s) := by
  unfold State.applyChanges
  repeat' first
    | with_reducible assumption | exact rfl | with_reducible refine State.coolAll_keeps hP ?_
    | with_reducible refine State.heatAll_keeps hP ?_ | with_reducible refine State.nextDirGen_keeps hP ?_
    | with_reducible refine State.newWindow_keeps hP ?_ | (rw [State.mk_rest]; with_reducible refine hP.rest ?_ ?_)
    | with_reducible refine keeps_eq2 (by assumption) ?_
    | (extract_lets +onlyGivenNames x; first | (refine (?_ : P x → _) ?_; rotate_left; unfold x; rotate_left; clear_value x; intro) | try clear_value x)
    | split | dsimp -zeta only

theorem State.rowNow_keeps (hP : Closed P) {s : State} {table : Nat} {r : Nat} (h : P s) : P (State.rowNow s table
    r).2 := by
  unfold State.rowNow
  repeat' first
    | with_reducible assumption | with_reducible refine State.bump_keeps hP ?_
    | with_reducible refine State.rowRead_keeps hP ?_ | with_reducible refine State.present_keeps hP ?_
    | with_reducible refine keeps_eq3 (by assumption) ?_
    | (extract_lets +onlyGivenNames x; first | (refine (?_ : P x → _) ?_; rotate_left; unfold x; rotate_left; clear_value x; intro) | try clear_value x)
    | split | dsimp -zeta only

theorem State.refreshOwn_keeps (hP : Closed P) {s : State} {y2 : List (Nat × Nat)} (h : P s) : P (State.refreshOwn s
    y2) := by
  induction y2 generalizing s with
  | nil => exact h
  | cons x xs ih =>
    unfold State.refreshOwn
    repeat' first
      | with_reducible assumption | with_reducible refine hP.emit ?_ | with_reducible refine State.rowNow_keeps hP ?_
      | with_reducible refine State.commonsWrite_keeps hP ?_ | with_reducible refine keeps_eq2 (by assumption) ?_
      | with_reducible apply ih | split | dsimp -zeta only

theorem State.takeRefresh_keeps (hP : Closed P) {s : State} {x : Nat × Nat × List Byte} (h : P s) : P
    (State.takeRefresh s x) := by
  unfold State.takeRefresh
  repeat' first
    | with_reducible assumption | exact rfl | with_reducible refine State.commonsWrite_keeps hP ?_
    | (rw [State.mk_rest]; with_reducible refine hP.rest ?_ ?_)
    | (extract_lets +onlyGivenNames x; first | (refine (?_ : P x → _) ?_; rotate_left; unfold x; rotate_left; clear_value x; intro) | try clear_value x)
    | split | dsimp -zeta only

theorem State.takeRefreshes_keeps (hP : Closed P) {s : State} {y2 : List (Nat × Nat × List Byte)} (h : P s) : P
    (State.takeRefreshes s y2) := by
  induction y2 generalizing s with
  | nil => exact h
  | cons x xs ih =>
    unfold State.takeRefreshes
    repeat' first
      | with_reducible assumption | with_reducible refine State.takeRefresh_keeps hP ?_ | with_reducible apply ih
      | split | dsimp -zeta only

theorem State.refreshHot_keeps (hP : Closed P) {s : State} (h : P s) : P (State.refreshHot s) := by
  unfold State.refreshHot
  repeat' first
    | with_reducible assumption | exact rfl | with_reducible refine State.refreshOwn_keeps hP ?_
    | with_reducible refine State.takeRefreshes_keeps hP ?_
    | (rw [State.mk_rest]; with_reducible refine hP.rest ?_ ?_)
    | (extract_lets +onlyGivenNames x; first | (refine (?_ : P x → _) ?_; rotate_left; unfold x; rotate_left; clear_value x; intro) | try clear_value x)
    | dsimp -zeta only

end Sys2Proof.Machine
end

