-- ==== Sys2Proof/Laws/KeepsEmb.lean ====
section
/-!
SUPPORT. Laws/KeepsEmb.lean: every function of Machine/Emb.lean keeps a closed property (Laws/Keeps.lean).
-/
set_option linter.unusedVariables false
set_option linter.tactic.unusedName false

namespace Sys2Proof.Machine

open Sys2Proof

variable {P : State → Prop}

theorem State.embParse_keeps (hP : Closed P) {s : State} {grad : Bool} {table : Nat} {n : Nat} {addr : Nat} (h : P s)
    : P (State.embParse s grad table n addr).2 := by
  unfold State.embParse
  repeat' first
    | with_reducible assumption | with_reducible refine foldl_keeps (fun _ _ _ => ?_) ?_
    | with_reducible refine foldl_keeps2 (fun _ _ _ => ?_) ?_ | with_reducible refine State.gRead_keeps hP ?_
    | with_reducible refine keeps_eq3 (by assumption) ?_ | (extract_lets +onlyGivenNames x; try clear_value x) | split
    | intro _ | dsimp -zeta only

theorem State.poolCore_keeps (hP : Closed P) {s : State} {t : Nat} (h : P s) : P (State.poolCore s t).2 := by
  unfold State.poolCore
  repeat' first
    | with_reducible assumption | with_reducible refine State.setEmbt_keeps hP ?_
    | (extract_lets +onlyGivenNames x; try clear_value x) | dsimp -zeta only

theorem State.addShares_keeps (hP : Closed P) {s : State} {t : Nat} {node : Nat} {tag : Nat} {table : Nat} {mode :
    Nat} {y7 : List (List (Nat × Nat × RowRes))} (h : P s) : P (State.addShares s t node tag table mode y7) := by
  induction y7 generalizing s t node tag table mode with
  | nil => exact h
  | cons x xs ih =>
    unfold State.addShares
    repeat' first
      | with_reducible assumption | exact rfl | with_reducible refine State.poolCore_keeps hP ?_
      | with_reducible refine State.setEmbt_keeps hP ?_ | (rw [State.mk_rest]; with_reducible refine hP.rest ?_ ?_)
      | with_reducible refine keeps_eq2 (by assumption) ?_ | with_reducible apply ih
      | (extract_lets +onlyGivenNames x; first | (refine (?_ : P x → _) ?_; rotate_left; unfold x; rotate_left; clear_value x; intro) | try clear_value x)
      | split | dsimp -zeta only

theorem State.itemNow_keeps (hP : Closed P) {s : State} {table : Nat} {mode : Nat} {pos : Nat} {r : Nat} (h : P s) : P
    (State.itemNow s table mode pos r).2 := by
  unfold State.itemNow
  repeat' first
    | with_reducible assumption | with_reducible refine State.bump_keeps hP ?_
    | (extract_lets +onlyGivenNames x; first | (refine (?_ : P x → _) ?_; rotate_left; unfold x; rotate_left; clear_value x; intro) | try clear_value x)
    | split | dsimp -zeta only

theorem State.itemsNow_keeps (hP : Closed P) {s : State} {table : Nat} {mode : Nat} {y4 : List (Nat × Nat)} (h : P s)
    : P (State.itemsNow s table mode y4).2 := by
  induction y4 generalizing s table mode with
  | nil => exact h
  | cons x xs ih =>
    unfold State.itemsNow
    repeat' first
      | with_reducible assumption | with_reducible refine State.itemNow_keeps hP ?_
      | with_reducible refine keeps_eq2 (by assumption) ?_ | with_reducible apply ih | split | dsimp -zeta only

theorem State.serveRows_keeps (hP : Closed P) {s : State} {node : Nat} {tag : Nat} {table : Nat} {mode : Nat} {rows :
    List (Nat × Nat)} (h : P s) : P (State.serveRows s node tag table mode rows) := by
  unfold State.serveRows
  repeat' first
    | with_reducible assumption | with_reducible refine foldl_keeps (fun _ _ _ => ?_) ?_
    | with_reducible refine foldl_keeps2 (fun _ _ _ => ?_) ?_ | with_reducible refine State.itemsNow_keeps hP ?_
    | with_reducible refine State.addShares_keeps hP ?_ | with_reducible refine keeps_eq2 (by assumption) ?_ | split
    | intro _ | dsimp -zeta only

theorem State.putJob_keeps (hP : Closed P) {s : State} {t : Nat} {j : EmbJob} (h : P s) : P (State.putJob s t j) := by
  unfold State.putJob
  repeat' first
    | with_reducible assumption | with_reducible refine State.setEmbt_keeps hP ?_
    | (extract_lets +onlyGivenNames x; try clear_value x) | split | dsimp -zeta only

theorem State.putBag_keeps (hP : Closed P) {s : State} {t : Nat} {j : EmbJob} {b : EmbBag} (h : P s) : P (State.putBag
    s t j b) := by
  unfold State.putBag
  repeat' first
    | with_reducible assumption | with_reducible refine State.putJob_keeps hP ?_ | split | dsimp -zeta only

theorem State.jobWrite_keeps (hP : Closed P) {s : State} {t : Nat} {j : EmbJob} {g : Nat} {bs : List Byte} (h : P s) :
    P (State.jobWrite s t j g bs).2 := by
  unfold State.jobWrite
  repeat' first
    | with_reducible assumption | with_reducible refine State.gWrite_keeps hP ?_
    | with_reducible refine State.putJob_keeps hP ?_ | with_reducible refine keeps_eq2 (by assumption) ?_
    | (extract_lets +onlyGivenNames x; try clear_value x) | split | dsimp -zeta only

theorem State.writeRows_keeps (hP : Closed P) {s : State} {t : Nat} {j : EmbJob} {b : EmbBag} {y5 : List Nat} (h : P
    s) : P (State.writeRows s t j b y5).2 := by
  induction y5 generalizing s t j b with
  | nil => exact h
  | cons x xs ih =>
    unfold State.writeRows
    repeat' first
      | with_reducible assumption | with_reducible refine State.jobWrite_keeps hP ?_
      | with_reducible refine keeps_eq2 (by assumption) ?_ | with_reducible apply ih
      | (extract_lets +onlyGivenNames x; try clear_value x) | split | dsimp -zeta only

theorem State.bagOutput_keeps (hP : Closed P) {s : State} {t : Nat} {j : EmbJob} {b : EmbBag} (h : P s) : P
    (State.bagOutput s t j b).2 := by
  unfold State.bagOutput
  repeat' first
    | with_reducible assumption | with_reducible refine State.writeRows_keeps hP ?_
    | with_reducible refine State.orBits_keeps hP ?_ | with_reducible refine State.countStep_keeps hP ?_
    | with_reducible refine State.jobWrite_keeps hP ?_ | with_reducible refine keeps_eq2 (by assumption) ?_
    | (extract_lets +onlyGivenNames x; first | (refine (?_ : P x → _) ?_; rotate_left; unfold x; rotate_left; clear_value x; intro) | try clear_value x)
    | split | dsimp -zeta only

theorem State.bagDone_keeps (hP : Closed P) {s : State} {t : Nat} {j : EmbJob} {b : EmbBag} (h : P s) : P
    (State.bagDone s t j b) := by
  unfold State.bagDone
  repeat' first
    | with_reducible assumption | with_reducible refine State.bagOutput_keeps hP ?_
    | with_reducible refine State.jobWrite_keeps hP ?_ | with_reducible refine State.sample_keeps hP ?_
    | with_reducible refine State.partDone_keeps hP ?_ | with_reducible refine State.setEmbt_keeps hP ?_
    | with_reducible refine State.putJob_keeps hP ?_ | with_reducible refine keeps_eq2 (by assumption) ?_
    | (extract_lets +onlyGivenNames x; first | (refine (?_ : P x → _) ?_; rotate_left; unfold x; rotate_left; clear_value x; intro) | try clear_value x)
    | split | dsimp -zeta only

theorem State.bagStep_keeps (hP : Closed P) {s : State} {t : Nat} {j : EmbJob} {b : EmbBag} (h : P s) : P
    (State.bagStep s t j b) := by
  unfold State.bagStep
  repeat' first
    | with_reducible assumption | with_reducible refine State.bagDone_keeps hP ?_
    | with_reducible refine State.putBag_keeps hP ?_ | split | dsimp -zeta only

theorem State.takePartial_keeps (hP : Closed P) {s : State} {tag : Nat} {inc : Nat} {pois : Nat} {fe : Nat} {cs : List
    Nat} (h : P s) : P (State.takePartial s tag inc pois fe cs) := by
  unfold State.takePartial
  repeat' first
    | with_reducible assumption | with_reducible refine State.bagStep_keeps hP ?_ | split | dsimp -zeta only

theorem State.takeRows_keeps (hP : Closed P) {s : State} {tag : Nat} {rows : List (Nat × Option (List Nat))} (h : P s)
    : P (State.takeRows s tag rows) := by
  unfold State.takeRows
  repeat' first
    | with_reducible assumption | with_reducible refine foldl_keeps (fun _ _ _ => ?_) ?_
    | with_reducible refine foldl_keeps2 (fun _ _ _ => ?_) ?_ | with_reducible refine State.bagStep_keeps hP ?_
    | (extract_lets +onlyGivenNames x; try clear_value x) | split | intro _ | dsimp -zeta only

theorem State.takeAck_keeps (hP : Closed P) {s : State} {tag : Nat} (h : P s) : P (State.takeAck s tag) := by
  unfold State.takeAck
  repeat' first
    | with_reducible assumption | with_reducible refine State.partDone_keeps hP ?_
    | with_reducible refine State.setEmbt_keeps hP ?_ | with_reducible refine State.putJob_keeps hP ?_
    | (extract_lets +onlyGivenNames x; try clear_value x) | split | dsimp -zeta only

theorem State.takeFailure_keeps (hP : Closed P) {s : State} {tag : Nat} {err : Bool} (h : P s) : P (State.takeFailure
    s tag err) := by
  unfold State.takeFailure
  repeat' first
    | with_reducible assumption | with_reducible refine State.bagStep_keeps hP ?_ | split | dsimp -zeta only

theorem State.respond_keeps (hP : Closed P) {s : State} {node : Nat} {typ : Nat} {tag : Nat} {body : List Byte} (h : P
    s) : P (State.respond s node typ tag body) := by
  unfold State.respond
  repeat' first
    | with_reducible assumption | with_reducible refine State.sendMsg_keeps hP ?_ | dsimp -zeta only

theorem State.answerShare_keeps (hP : Closed P) {s : State} {t : Nat} {sh : EmbShare} (h : P s) : P (State.answerShare
    s t sh) := by
  unfold State.answerShare
  repeat' first
    | with_reducible assumption | with_reducible refine State.takeAck_keeps hP ?_
    | with_reducible refine State.respond_keeps hP ?_ | with_reducible refine State.orBits_keeps hP ?_
    | with_reducible refine State.takeRows_keeps hP ?_
    | (extract_lets +onlyGivenNames x; first | (refine (?_ : P x → _) ?_; rotate_left; unfold x; rotate_left; clear_value x; intro) | try clear_value x)
    | split | dsimp -zeta only

theorem State.answerShares_keeps (hP : Closed P) {s : State} {t : Nat} {y3 : List EmbShare} (h : P s) : P
    (State.answerShares s t y3) := by
  induction y3 generalizing s t with
  | nil => exact h
  | cons x xs ih =>
    unfold State.answerShares
    repeat' first
      | with_reducible assumption | with_reducible refine State.answerShare_keeps hP ?_
      | with_reducible refine State.setEmbt_keeps hP ?_ | with_reducible apply ih
      | (extract_lets +onlyGivenNames x; try clear_value x) | split | dsimp -zeta only

theorem State.embPump_keeps (hP : Closed P) {s : State} (h : P s) : P (State.embPump s) := by
  unfold State.embPump
  repeat' first
    | with_reducible assumption | with_reducible refine State.eachTile_keeps (fun _ _ _ => ?_) ?_
    | with_reducible refine State.answerShares_keeps hP ?_ | split | intro _ | dsimp -zeta only

theorem State.resolveKey_keeps (hP : Closed P) {s : State} {t : Nat} {table : Nat} {r : Resolved} {j : Nat} {key :
    Nat} (h : P s) : P (State.resolveKey s t table r j key).2 := by
  unfold State.resolveKey
  repeat' first
    | with_reducible assumption | with_reducible refine State.bump_keeps hP ?_
    | with_reducible refine State.commonsRead_keeps hP ?_ | with_reducible refine keeps_eq3 (by assumption) ?_
    | with_reducible refine hx _ ?_
    | (extract_lets +onlyGivenNames x; first | (refine (?_ : (∀ s, P s → P (x s).2) → _) ?_; rotate_left; unfold x; rotate_left; clear_value x; intro hx) | try clear_value x)
    | split | intro _ | dsimp -zeta only

theorem State.resolveKeys_keeps (hP : Closed P) {s : State} {t : Nat} {table : Nat} {r : Resolved} {y5 : Nat} {y6 :
    List Nat} (h : P s) : P (State.resolveKeys s t table r y5 y6).2 := by
  induction y6 generalizing s t table r y5 with
  | nil => exact h
  | cons x xs ih =>
    unfold State.resolveKeys
    repeat' first
      | with_reducible assumption | with_reducible refine State.resolveKey_keeps hP ?_
      | with_reducible refine keeps_eq2 (by assumption) ?_ | with_reducible apply ih | split | dsimp -zeta only

theorem State.answersLost_keeps (hP : Closed P) {s : State} {tag : Nat} {n : Nat} (h : P s) : P (State.answersLost s
    tag n) := by
  unfold State.answersLost
  repeat' first
    | with_reducible assumption | with_reducible refine State.bagStep_keeps hP ?_
    | with_reducible refine State.takeAck_keeps hP ?_ | with_reducible refine State.putJob_keeps hP ?_ | split
    | dsimp -zeta only

theorem State.sendRequests_keeps (hP : Closed P) {s : State} {owner : Nat} {tag : Nat} {table : Nat} {mode : Nat} {y6
    : List (List (Nat × Nat))} (h : P s) : P (State.sendRequests s owner tag table mode y6) := by
  induction y6 generalizing s owner tag table mode with
  | nil => exact h
  | cons x xs ih =>
    unfold State.sendRequests
    repeat' first
      | with_reducible assumption | with_reducible refine State.answersLost_keeps hP ?_
      | with_reducible refine State.sendMsg_keeps hP ?_ | with_reducible apply ih
      | (extract_lets +onlyGivenNames x; try clear_value x) | split | dsimp -zeta only

theorem State.sendRemote_keeps (hP : Closed P) {s : State} {tag : Nat} {table : Nat} {mode : Nat} {y5 : SMap (List
    (Nat × Nat))} (h : P s) : P (State.sendRemote s tag table mode y5) := by
  induction y5 generalizing s tag table mode with
  | nil => exact h
  | cons x xs ih =>
    unfold State.sendRemote
    repeat' first
      | with_reducible assumption | with_reducible refine State.sendRequests_keeps hP ?_ | with_reducible apply ih
      | split | dsimp -zeta only

theorem State.newTag_keeps (hP : Closed P) {s : State} (h : P s) : P (State.newTag s).2 := by
  unfold State.newTag
  repeat' first
    | with_reducible assumption | exact rfl | (rw [State.mk_rest]; with_reducible refine hP.rest ?_ ?_)
    | (extract_lets +onlyGivenNames x; try clear_value x) | dsimp -zeta only

theorem State.startBag_keeps (hP : Closed P) {s : State} {t : Nat} {idx : Nat} {table : Nat} {area : Nat} {keys : List
    Nat} {e : BagEntry} (h : P s) : P (State.startBag s t idx table area keys e) := by
  unfold State.startBag
  repeat' first
    | with_reducible assumption | with_reducible refine State.newTag_keeps hP ?_
    | with_reducible refine State.resolveKeys_keeps hP ?_ | with_reducible refine State.putJob_keeps hP ?_
    | with_reducible refine State.addShares_keeps hP ?_ | with_reducible refine State.sendRemote_keeps hP ?_
    | with_reducible refine State.serveRows_keeps hP ?_ | with_reducible refine keeps_eq2 (by assumption) ?_
    | (extract_lets +onlyGivenNames x; first | (refine (?_ : P x → _) ?_; rotate_left; unfold x; rotate_left; clear_value x; intro) | try clear_value x)
    | split | dsimp -zeta only

theorem State.emptyBags_keeps (hP : Closed P) {s : State} {t : Nat} {idx : Nat} {y4 : List Nat} (h : P s) : P
    (State.emptyBags s t idx y4) := by
  induction y4 generalizing s t idx with
  | nil => exact h
  | cons x xs ih =>
    unfold State.emptyBags
    repeat' first
      | with_reducible assumption | with_reducible refine State.bagDone_keeps hP ?_ | with_reducible apply ih | split
      | dsimp -zeta only

theorem State.embRefuse_keeps (hP : Closed P) {s : State} {t : Nat} {idx : Nat} {sticky : Nat} {ue : Bool} (h : P s) :
    P (State.embRefuse s t idx sticky ue) := by
  unfold State.embRefuse
  repeat' first
    | with_reducible assumption | with_reducible refine State.partDone_keeps hP ?_
    | with_reducible refine State.orBits_keeps hP ?_ | split | dsimp -zeta only

theorem State.lookupIssue_keeps (hP : Closed P) {s : State} {t : Nat} {idx : Nat} {table : Nat} {n : Nat} {list : Nat}
    {area : Nat} {count : Bool} (h : P s) : P (State.lookupIssue s t idx table n list area count) := by
  unfold State.lookupIssue
  repeat' first
    | with_reducible assumption | with_reducible refine foldl_keeps (fun _ _ _ => ?_) ?_
    | with_reducible refine foldl_keeps2 (fun _ _ _ => ?_) ?_ | with_reducible refine State.embParse_keeps hP ?_
    | with_reducible refine State.embRefuse_keeps hP ?_ | with_reducible refine State.partDone_keeps hP ?_
    | with_reducible refine State.setEmbt_keeps hP ?_ | with_reducible refine State.startBag_keeps hP ?_
    | with_reducible refine State.embPump_keeps hP ?_ | with_reducible refine State.emptyBags_keeps hP ?_
    | with_reducible refine keeps_eq2 (by assumption) ?_
    | (extract_lets +onlyGivenNames x; first | (refine (?_ : P x → _) ?_; rotate_left; unfold x; rotate_left; clear_value x; intro) | try clear_value x)
    | split | intro _ | dsimp -zeta only

theorem State.prefetchIssue_keeps (hP : Closed P) {s : State} {t : Nat} {idx : Nat} {table : Nat} {n : Nat} {list :
    Nat} (h : P s) : P (State.prefetchIssue s t idx table n list) := by
  unfold State.prefetchIssue
  repeat' first
    | with_reducible assumption | with_reducible refine foldl_keeps (fun _ _ _ => ?_) ?_
    | with_reducible refine foldl_keeps2 (fun _ _ _ => ?_) ?_ | with_reducible refine State.partDone_keeps hP ?_
    | with_reducible refine State.embParse_keeps hP ?_ | with_reducible refine State.embRefuse_keeps hP ?_
    | with_reducible refine State.newTag_keeps hP ?_ | with_reducible refine State.setEmbt_keeps hP ?_
    | with_reducible refine State.serveRows_keeps hP ?_ | with_reducible refine State.sendRequests_keeps hP ?_
    | with_reducible refine State.embPump_keeps hP ?_ | with_reducible refine keeps_eq2 (by assumption) ?_
    | (extract_lets +onlyGivenNames x; first | (refine (?_ : P x → _) ?_; rotate_left; unfold x; rotate_left; clear_value x; intro) | try clear_value x)
    | split | intro _ | dsimp -zeta only

theorem State.takeMsg_keeps (hP : Closed P) {s : State} {typ : Nat} (h : P s) : SomeKeeps2 P (State.takeMsg s typ) :=
    by
  unfold State.takeMsg
  repeat' first
    | with_reducible assumption | exact rfl | with_reducible exact SomeKeeps2.none
    | with_reducible refine SomeKeeps2.some ?_ | with_reducible refine SomeKeeps2.map (fun _ => ?_)
    | (rw [State.mk_rest]; with_reducible refine hP.rest ?_ ?_) | dsimp -zeta only

theorem execEmbRequest_keeps (hP : Closed P) {s : State} (h : P s) : AllNext P (execEmbRequest s) := by
  unfold execEmbRequest
  repeat' first
    | with_reducible assumption | with_reducible refine AllNext.next ?_
    | with_reducible refine keeps_some2 (State.takeMsg_keeps hP ?_) (by assumption)
    | with_reducible refine State.embPump_keeps hP ?_ | with_reducible refine State.serveRows_keeps hP ?_
    | (extract_lets +onlyGivenNames x; try clear_value x) | split | dsimp -zeta only

theorem execPooledResponse_keeps (hP : Closed P) {s : State} (h : P s) : AllNext P (execPooledResponse s) := by
  unfold execPooledResponse
  repeat' first
    | with_reducible assumption | with_reducible refine AllNext.next ?_
    | with_reducible refine keeps_some2 (State.takeMsg_keeps hP ?_) (by assumption)
    | with_reducible refine State.takeAck_keeps hP ?_ | with_reducible refine State.takePartial_keeps hP ?_
    | (extract_lets +onlyGivenNames x; try clear_value x) | split | dsimp -zeta only

theorem execRowsResponse_keeps (hP : Closed P) {s : State} (h : P s) : AllNext P (execRowsResponse s) := by
  unfold execRowsResponse
  repeat' first
    | with_reducible assumption | with_reducible refine AllNext.next ?_
    | with_reducible refine keeps_some2 (State.takeMsg_keeps hP ?_) (by assumption)
    | with_reducible refine State.takeRows_keeps hP ?_ | split | dsimp -zeta only

theorem State.giveRow_keeps (hP : Closed P) {s : State} {table : Nat} {r : Nat} {pf : Bool} {res : RowRes} (h : P s) :
    P (State.giveRow s table r pf res) := by
  unfold State.giveRow
  repeat' first
    | with_reducible assumption | with_reducible refine State.eachTile_keeps (fun _ _ _ => ?_) ?_
    | with_reducible refine State.setEmbt_keeps hP ?_ | (extract_lets +onlyGivenNames x; try clear_value x) | split
    | intro _ | dsimp -zeta only

theorem execRowReadDone_keeps (hP : Closed P) {t : TileId} {table : BitVec 12} {row : BitVec 40} {res : RowRead} {s :
    State} (h : P s) : AllNext P (execRowReadDone t table row res s) := by
  unfold execRowReadDone
  repeat' first
    | with_reducible assumption | with_reducible refine AllNext.next ?_ | with_reducible refine State.bump_keeps hP ?_
    | with_reducible refine State.rowFailed_keeps hP ?_ | with_reducible refine State.embPump_keeps hP ?_
    | with_reducible refine State.giveRow_keeps hP ?_ | with_reducible refine State.fault_keeps hP ?_
    | with_reducible refine State.present_keeps hP ?_ | with_reducible refine State.stageRow_keeps hP ?_
    | with_reducible refine keeps_eq3 (by assumption) ?_
    | (extract_lets +onlyGivenNames x; first | (refine (?_ : P x → _) ?_; rotate_left; unfold x; rotate_left; clear_value x; intro) | try clear_value x)
    | split | dsimp -zeta only

theorem State.putShare_keeps (hP : Closed P) {s : State} {t : Nat} {sh : EmbShare} (h : P s) : P (State.putShare s t
    sh) := by
  unfold State.putShare
  repeat' first
    | with_reducible assumption | with_reducible refine State.setEmbt_keeps hP ?_
    | (extract_lets +onlyGivenNames x; try clear_value x) | split | dsimp -zeta only

theorem State.gatherRows_keeps (hP : Closed P) {s : State} {a : Nat} {stride : Nat} {y4 : List (Nat × Nat × RowRes)}
    (h : P s) : P (State.gatherRows s a stride y4) := by
  induction y4 generalizing s a stride with
  | nil => exact h
  | cons x xs ih =>
    unfold State.gatherRows
    repeat' first
      | with_reducible assumption | with_reducible refine hP.poke ?_ | with_reducible apply ih | split
      | dsimp -zeta only

theorem State.poolStart_keeps (hP : Closed P) {s : State} {t : Nat} {sh : EmbShare} {area : Nat} (h : P s) : P
    (State.poolStart s t sh area) := by
  unfold State.poolStart
  repeat' first
    | with_reducible assumption | with_reducible refine hP.poke ?_
    | with_reducible refine State.gatherRows_keeps hP ?_ | with_reducible refine State.putShare_keeps hP ?_
    | with_reducible refine State.setVe_keeps hP ?_
    | (extract_lets +onlyGivenNames x; first | (refine (?_ : P x → _) ?_; rotate_left; unfold x; rotate_left; clear_value x; intro) | try clear_value x)
    | split | dsimp -zeta only

theorem State.poolDispatch_keeps (hP : Closed P) {s : State} {t : Nat} {c : Nat} (h : P s) : P (State.poolDispatch s t
    c) := by
  unfold State.poolDispatch
  repeat' first
    | with_reducible assumption | with_reducible refine State.fault_keeps hP ?_
    | with_reducible refine State.putShare_keeps hP ?_ | with_reducible refine State.vePromote_keeps hP ?_
    | with_reducible refine State.poolStart_keeps hP ?_ | (extract_lets +onlyGivenNames x; try clear_value x) | split
    | dsimp -zeta only

theorem execPoolShareComplete_keeps (hP : Closed P) {t : TileId} {s : State} (h : P s) : AllNext P
    (execPoolShareComplete t s) := by
  unfold execPoolShareComplete
  repeat' first
    | with_reducible assumption | with_reducible refine AllNext.next ?_
    | with_reducible refine State.setEmbt_keeps hP ?_ | with_reducible refine State.takeFailure_keeps hP ?_
    | with_reducible refine State.takePartial_keeps hP ?_ | with_reducible refine State.respond_keeps hP ?_
    | (extract_lets +onlyGivenNames x; first | (refine (?_ : P x → _) ?_; rotate_left; unfold x; rotate_left; clear_value x; intro) | try clear_value x)
    | split | dsimp -zeta only

end Sys2Proof.Machine
end

