-- ==== Sys2Proof/Laws/KeepsEmbGrad.lean ====
section
/-!
SUPPORT. Laws/KeepsEmbGrad.lean: every function of Machine/EmbGrad.lean keeps a closed property (Laws/Keeps.lean).
-/
set_option linter.unusedVariables false
set_option linter.tactic.unusedName false

namespace Sys2Proof.Machine

open Sys2Proof

variable {P : State → Prop}

theorem State.readVecs_keeps (hP : Closed P) {s : State} {d : Nat} {addr : Nat} {y4 : Nat} (h : P s) : P
    (State.readVecs s d addr y4).2 := by
  induction y4 generalizing s d addr with
  | zero => exact h
  | succ n ih =>
    unfold State.readVecs
    repeat' first
      | with_reducible assumption | with_reducible refine State.gRead_keeps hP ?_
      | with_reducible refine keeps_eq2 (by assumption) ?_ | with_reducible refine keeps_eq3 (by assumption) ?_
      | with_reducible apply ih | (extract_lets +onlyGivenNames x; try clear_value x) | split | dsimp -zeta only

theorem State.bagContribs_keeps (hP : Closed P) {s : State} {table : Nat} {area : Nat} {status : Nat} {keys : List
    Nat} {e : BagEntry} (h : P s) : P (State.bagContribs s table area status keys e).2 := by
  unfold State.bagContribs
  repeat' first
    | with_reducible assumption | with_reducible refine State.readVecs_keeps hP ?_
    | with_reducible refine State.gRead_keeps hP ?_ | with_reducible refine keeps_eq2 (by assumption) ?_
    | with_reducible refine keeps_eq3 (by assumption) ?_ | with_reducible refine hx _ _ ?_
    | (extract_lets +onlyGivenNames x; first | (refine (?_ : (∀ s d, P s → P (x s d).2) → _) ?_; rotate_left; unfold x; rotate_left; clear_value x; intro hx) | try clear_value x)
    | split | intro _ | dsimp -zeta only

theorem State.allContribs_keeps (hP : Closed P) {s : State} {table : Nat} {area : Nat} {status : Nat} {keys : List
    Nat} {y6 : List BagEntry} (h : P s) : P (State.allContribs s table area status keys y6).2 := by
  induction y6 generalizing s table area status keys with
  | nil => exact h
  | cons x xs ih =>
    unfold State.allContribs
    repeat' first
      | with_reducible assumption | with_reducible refine State.bagContribs_keeps hP ?_
      | with_reducible refine keeps_eq2 (by assumption) ?_ | with_reducible apply ih | split | dsimp -zeta only

theorem State.sendContrib_keeps (hP : Closed P) {s : State} {tag : Nat} {table : Nat} {c : Nat × List Num} (h : P s) :
    P (State.sendContrib s tag table c) := by
  unfold State.sendContrib
  repeat' first
    | with_reducible assumption | with_reducible refine hP.emit ?_ | with_reducible refine State.setEmbt_keeps hP ?_
    | with_reducible refine State.answersLost_keeps hP ?_ | (extract_lets +onlyGivenNames x; try clear_value x)
    | split | dsimp -zeta only

theorem State.gradIssue_keeps (hP : Closed P) {s : State} {t : Nat} {idx : Nat} {table : Nat} {n : Nat} {list : Nat}
    {area : Nat} (h : P s) : P (State.gradIssue s t idx table n list area) := by
  unfold State.gradIssue
  repeat' first
    | with_reducible assumption | with_reducible refine foldl_keeps (fun _ _ _ => ?_) ?_
    | with_reducible refine foldl_keeps2 (fun _ _ _ => ?_) ?_ | with_reducible refine State.embParse_keeps hP ?_
    | with_reducible refine State.embRefuse_keeps hP ?_ | with_reducible refine State.allContribs_keeps hP ?_
    | with_reducible refine State.partDone_keeps hP ?_ | with_reducible refine State.newTag_keeps hP ?_
    | with_reducible refine State.sendContrib_keeps hP ?_ | with_reducible refine State.setEmbt_keeps hP ?_
    | with_reducible refine keeps_eq2 (by assumption) ?_ | (extract_lets +onlyGivenNames x; try clear_value x) | split
    | intro _ | dsimp -zeta only

theorem State.noteSum_keeps (hP : Closed P) {s : State} {t : Nat} {spill : Bool} (h : P s) : P (State.noteSum s t
    spill) := by
  unfold State.noteSum
  repeat' first
    | with_reducible assumption | with_reducible refine State.bump_keeps hP ?_
    | (extract_lets +onlyGivenNames x; first | (refine (?_ : P x → _) ?_; rotate_left; unfold x; rotate_left; clear_value x; intro) | try clear_value x)
    | split | dsimp -zeta only

theorem State.wBytes_keeps (hP : Closed P) {s : State} {y2 : List Num} (h : P s) : P (State.wBytes s y2).2 := by
  induction y2 generalizing s with
  | nil => exact h
  | cons x xs ih =>
    unfold State.wBytes
    repeat' first
      | with_reducible assumption | with_reducible refine State.takeFree_keeps hP ?_
      | with_reducible refine keeps_eq2 (by assumption) ?_ | with_reducible apply ih | split | dsimp -zeta only

theorem State.coalStore_keeps (hP : Closed P) {s : State} {t : Nat} {e : CoalEntry} (h : P s) : P (State.coalStore s t
    e) := by
  unfold State.coalStore
  repeat' first
    | with_reducible assumption | with_reducible refine State.wBytes_keeps hP ?_
    | with_reducible refine State.put_keeps hP ?_ | with_reducible refine keeps_eq2 (by assumption) ?_
    | (extract_lets +onlyGivenNames x; try clear_value x) | split | dsimp -zeta only

theorem State.newCoal_keeps (hP : Closed P) {s : State} {t : Nat} {table : Nat} {r : Nat} {vec : List Num} {spill :
    Bool} (h : P s) : P (State.newCoal s t table r vec spill) := by
  unfold State.newCoal
  repeat' first
    | with_reducible assumption | with_reducible refine State.noteSum_keeps hP ?_
    | with_reducible refine State.coalStore_keeps hP ?_ | with_reducible refine State.setEmbt_keeps hP ?_
    | (extract_lets +onlyGivenNames x; try clear_value x) | dsimp -zeta only

theorem State.contribute_keeps (hP : Closed P) {s : State} {t : Nat} {table : Nat} {r : Nat} {vec : List Num} (h : P
    s) : P (State.contribute s t table r vec) := by
  unfold State.contribute
  repeat' first
    | with_reducible assumption | with_reducible refine State.setEmbt_keeps hP ?_
    | with_reducible refine State.bump_keeps hP ?_ | with_reducible refine State.noteSum_keeps hP ?_
    | with_reducible refine State.coalStore_keeps hP ?_ | with_reducible refine State.newCoal_keeps hP ?_
    | with_reducible refine State.fault_keeps hP ?_ | with_reducible refine State.orBits_keeps hP ?_
    | (extract_lets +onlyGivenNames x; first | (refine (?_ : P x → _) ?_; rotate_left; unfold x; rotate_left; clear_value x; intro) | try clear_value x)
    | split | dsimp -zeta only

theorem execContribution_keeps (hP : Closed P) {t : TileId} {src : Option RemoteContrib} {s : State} (h : P s) :
    AllNext P (execContribution t src s) := by
  unfold execContribution
  repeat' first
    | with_reducible assumption | with_reducible refine hP.emit ?_ | with_reducible refine AllNext.next ?_
    | with_reducible refine State.setEmbt_keeps hP ?_ | with_reducible refine State.takeAck_keeps hP ?_
    | with_reducible refine State.contribute_keeps hP ?_
    | (extract_lets +onlyGivenNames x; first | (refine (?_ : P x → _) ?_; rotate_left; unfold x; rotate_left; clear_value x; intro) | try clear_value x)
    | split | dsimp -zeta only

theorem State.rowStore_keeps (hP : Closed P) {s : State} {i : Nat} {t : Nat} {idx : Nat} {table : Nat} {r : Nat} {home
    : Nat} {el : List Num} {acc : Num} {o : UeOut} (h : P s) : P (State.rowStore s i t idx table r home el acc o).2 :=
    by
  unfold State.rowStore
  repeat' first
    | with_reducible assumption | with_reducible refine State.nonfinite_keeps hP ?_
    | with_reducible refine State.mapFlight_keeps hP ?_ | with_reducible refine State.ueFlags_keeps hP ?_
    | with_reducible refine State.setEmbt_keeps hP ?_
    | with_reducible refine keeps_some (State.journalAdd_keeps hP ?_) (by assumption)
    | with_reducible refine State.bump_keeps hP ?_ | with_reducible refine State.fault_keeps hP ?_
    | with_reducible refine State.orBits_keeps hP ?_
    | (extract_lets +onlyGivenNames x; first | (refine (?_ : P x → _) ?_; rotate_left; unfold x; rotate_left; clear_value x; intro) | try clear_value x)
    | split | dsimp -zeta only

theorem State.applyEntry_keeps (hP : Closed P) {s : State} {i : Nat} {t : Nat} {idx : Nat} {c : CoalEntry} (h : P s) :
    P (State.applyEntry s i t idx c).2 := by
  unfold State.applyEntry
  repeat' first
    | with_reducible assumption | with_reducible refine State.bump_keeps hP ?_
    | with_reducible refine State.rowRead_keeps hP ?_ | with_reducible refine State.present_keeps hP ?_
    | with_reducible refine State.rowStore_keeps hP ?_ | with_reducible refine State.ueFlags_keeps hP ?_
    | with_reducible refine keeps_eq2 (by assumption) ?_ | with_reducible refine keeps_eq3 (by assumption) ?_
    | with_reducible refine hx _ ?_
    | (extract_lets +onlyGivenNames x; first | (refine (?_ : (∀ s, P s → P (x s)) → _) ?_; rotate_left; unfold x; rotate_left; clear_value x; intro hx) | (refine (?_ : P x → _) ?_; rotate_left; unfold x; rotate_left; clear_value x; intro) | try clear_value x)
    | split | intro _ | dsimp -zeta only

theorem State.applyEntries_keeps (hP : Closed P) {s : State} {i : Nat} {t : Nat} {idx : Nat} {y5 : List CoalEntry} (h
    : P s) : P (State.applyEntries s i t idx y5).2 := by
  induction y5 generalizing s i t idx with
  | nil => exact h
  | cons x xs ih =>
    unfold State.applyEntries
    repeat' first
      | with_reducible assumption | with_reducible refine State.applyEntry_keeps hP ?_
      | with_reducible refine keeps_eq2 (by assumption) ?_ | with_reducible apply ih | split | dsimp -zeta only

theorem State.applyTiles_keeps (hP : Closed P) {s : State} {i : Nat} {idx : Nat} {table : Nat} {y5 : List Nat} (h : P
    s) : P (State.applyTiles s i idx table y5).2 := by
  induction y5 generalizing s i idx table with
  | nil => exact h
  | cons x xs ih =>
    unfold State.applyTiles
    repeat' first
      | with_reducible assumption | with_reducible refine State.setEmbt_keeps hP ?_
      | with_reducible refine State.applyEntries_keeps hP ?_ | with_reducible refine keeps_eq2 (by assumption) ?_
      | with_reducible apply ih
      | (extract_lets +onlyGivenNames x; first | (refine (?_ : P x → _) ?_; rotate_left; unfold x; rotate_left; clear_value x; intro) | try clear_value x)
      | split | dsimp -zeta only

theorem State.applyIssue_keeps (hP : Closed P) {s : State} {t : Nat} {idx : Nat} {table : Nat} (h : P s) : P
    (State.applyIssue s t idx table) := by
  unfold State.applyIssue
  repeat' first
    | with_reducible assumption | with_reducible refine State.partDone_keeps hP ?_
    | with_reducible refine State.orBits_keeps hP ?_ | with_reducible refine State.applyTiles_keeps hP ?_
    | with_reducible refine State.mapFlight_keeps hP ?_ | with_reducible refine keeps_eq2 (by assumption) ?_
    | (extract_lets +onlyGivenNames x; try clear_value x) | split | dsimp -zeta only

theorem execRowWriteDone_keeps (hP : Closed P) {t : TileId} {err : Bool} {s : State} (h : P s) : AllNext P
    (execRowWriteDone t err s) := by
  unfold execRowWriteDone
  repeat' first
    | with_reducible assumption | with_reducible refine AllNext.next ?_
    | with_reducible refine State.memWrite_keeps hP ?_ | with_reducible refine State.partDone_keeps hP ?_
    | with_reducible refine State.bump_keeps hP ?_ | with_reducible refine State.setEmbt_keeps hP ?_
    | with_reducible refine State.poison_keeps hP ?_ | with_reducible refine keeps_eq2 (by assumption) ?_
    | (extract_lets +onlyGivenNames x; try clear_value x) | split | dsimp -zeta only

theorem State.emptyCoal_keeps (hP : Closed P) {s : State} (h : P s) : P (State.emptyCoal s) := by
  unfold State.emptyCoal
  repeat' first
    | with_reducible assumption | with_reducible refine State.eachTile_keeps (fun _ _ _ => ?_) ?_
    | with_reducible refine State.setEmbt_keeps hP ?_ | (extract_lets +onlyGivenNames x; try clear_value x) | intro _
    | dsimp -zeta only

theorem State.embStop_keeps (hP : Closed P) {s : State} {t : Nat} (h : P s) : P (State.embStop s t) := by
  unfold State.embStop
  repeat' first
    | with_reducible assumption | with_reducible refine State.setEmbt_keeps hP ?_
    | (extract_lets +onlyGivenNames x; try clear_value x) | dsimp -zeta only

theorem State.copyBytes_keeps (hP : Closed P) {s : State} {src : Nat} {dst : Nat} {n : Nat} (h : P s) : P
    (State.copyBytes s src dst n) := by
  unfold State.copyBytes
  repeat' first
    | with_reducible assumption | with_reducible refine hP.poke ?_ | with_reducible refine hP.zero ?_
    | with_reducible refine foldl_keeps (fun _ _ _ => ?_) ?_ | with_reducible refine foldl_keeps2 (fun _ _ _ => ?_) ?_
    | (extract_lets +onlyGivenNames x; try clear_value x) | intro _ | dsimp -zeta only

theorem State.embResetTile_keeps (hP : Closed P) {s : State} {t : Nat} (h : P s) : P (State.embResetTile s t) := by
  unfold State.embResetTile
  repeat' first
    | with_reducible assumption | with_reducible refine hP.resetRegs ?_
    | with_reducible refine State.copyBytes_keeps hP ?_ | with_reducible refine State.embStop_keeps hP ?_
    | with_reducible refine State.setEmbt_keeps hP ?_
    | (extract_lets +onlyGivenNames x; first | (refine (?_ : P x → _) ?_; rotate_left; unfold x; rotate_left; clear_value x; intro) | try clear_value x)
    | split | dsimp -zeta only

theorem State.embReset_keeps (hP : Closed P) {s : State} (h : P s) : P (State.embReset s) := by
  unfold State.embReset
  repeat' first
    | with_reducible assumption | exact rfl | with_reducible refine hP.resetRegs ?_
    | (rw [State.mk_rest]; with_reducible refine hP.rest ?_ ?_) | dsimp -zeta only

theorem State.embAbort_keeps (hP : Closed P) {s : State} (h : P s) : P (State.embAbort s) := by
  unfold State.embAbort
  repeat' first
    | with_reducible assumption | with_reducible refine State.newWindow_keeps hP ?_
    | with_reducible refine State.eachTile_keeps (fun _ _ _ => ?_) ?_
    | with_reducible refine State.embStop_keeps hP ?_ | intro _ | dsimp -zeta only

end Sys2Proof.Machine
end

