-- ==== Sys2Proof/Laws/KeepsWriteback.lean ====
section
/-!
SUPPORT. Laws/KeepsWriteback.lean: every function of Machine/Writeback.lean keeps a closed property (Laws/Keeps.lean).
-/
set_option linter.unusedVariables false
set_option linter.tactic.unusedName false

namespace Sys2Proof.Machine

open Sys2Proof

variable {P : State → Prop}

theorem State.restage_keeps (hP : Closed P) {s : State} {t : Nat} {half : Nat} {table : Nat} {r : Nat} {bs : List
    Byte} (h : P s) : P (State.restage s t half table r bs) := by
  unfold State.restage
  repeat' first
    | with_reducible assumption | with_reducible refine State.put_keeps hP ?_ | split | dsimp -zeta only

theorem State.writeRow_keeps (hP : Closed P) {s : State} {t : Nat} {step : Nat} {half : Nat} {key : Nat} {es : List
    Nat} (h : P s) : P (State.writeRow s t step half key es).2 := by
  unfold State.writeRow
  repeat' first
    | with_reducible assumption | with_reducible refine State.bump_keeps hP ?_
    | with_reducible refine State.rowRead_keeps hP ?_ | with_reducible refine State.nonfiniteNums_keeps hP ?_
    | with_reducible refine State.ueFlags_keeps hP ?_ | with_reducible refine State.memWrite_keeps hP ?_
    | with_reducible refine State.restage_keeps hP ?_ | with_reducible refine keeps_eq2 (by assumption) ?_
    | with_reducible refine keeps_eq3 (by assumption) ?_ | with_reducible refine hx _ ?_
    | (extract_lets +onlyGivenNames x; first | (refine (?_ : (∀ s, P s → P (x s)) → _) ?_; rotate_left; unfold x; rotate_left; clear_value x; intro hx) | (refine (?_ : P x → _) ?_; rotate_left; unfold x; rotate_left; clear_value x; intro) | try clear_value x)
    | split | intro _ | dsimp -zeta only

theorem State.writeRows'_keeps (hP : Closed P) {s : State} {t : Nat} {step : Nat} {half : Nat} {n : Nat} {y6 : List
    (Nat × List Nat)} (h : P s) : P (State.writeRows' s t step half n y6).2 := by
  induction y6 generalizing s t step half n with
  | nil => exact h
  | cons x xs ih =>
    unfold State.writeRows'
    repeat' first
      | with_reducible assumption | with_reducible refine State.writeRow_keeps hP ?_
      | with_reducible refine keeps_eq2 (by assumption) ?_ | with_reducible apply ih | split | dsimp -zeta only

theorem State.writeBackTile_keeps (hP : Closed P) {s : State} {t : Nat} {step : Nat} {half : Nat} {p : Segment → Bool}
    (h : P s) : P (State.writeBackTile s t step half p).2 := by
  unfold State.writeBackTile
  repeat' first
    | with_reducible assumption | with_reducible refine State.writeRows'_keeps hP ?_
    | with_reducible refine State.setGrn_keeps hP ?_ | with_reducible refine keeps_eq2 (by assumption) ?_
    | (extract_lets +onlyGivenNames x; try clear_value x) | split | dsimp -zeta only

theorem State.writeBack_keeps (hP : Closed P) {s : State} {step : Nat} {half : Nat} {p : Segment → Bool} (h : P s) : P
    (State.writeBack s step half p).2 := by
  unfold State.writeBack
  repeat' first
    | with_reducible assumption | with_reducible refine State.writeBackTile_keeps hP ?_
    | with_reducible refine keeps_eq2 (by assumption) ?_ | split | dsimp -zeta only

theorem State.fenceWriteBack_keeps (hP : Closed P) {s : State} (h : P s) : P (State.fenceWriteBack s) := by
  unfold State.fenceWriteBack
  repeat' first
    | with_reducible assumption | with_reducible refine State.writeBack_keeps hP ?_ | dsimp -zeta only

theorem State.markStale_keeps (hP : Closed P) {s : State} {first : Nat} (h : P s) : P (State.markStale s first) := by
  unfold State.markStale
  repeat' first
    | with_reducible assumption | with_reducible refine State.eachTile_keeps (fun _ _ _ => ?_) ?_
    | with_reducible refine State.setGrn_keeps hP ?_ | (extract_lets +onlyGivenNames x; try clear_value x) | intro _
    | dsimp -zeta only

theorem execJournalAreaCleared_keeps (hP : Closed P) {t : TileId} {waited : Nat} {s : State} (h : P s) : AllNext P
    (execJournalAreaCleared t waited s) := by
  unfold execJournalAreaCleared
  repeat' first
    | with_reducible assumption | with_reducible refine AllNext.next ?_ | with_reducible refine State.bump_keeps hP ?_
    | with_reducible refine State.setGrn_keeps hP ?_ | with_reducible refine State.clearArea_keeps hP ?_
    | (extract_lets +onlyGivenNames x; first | (refine (?_ : P x → _) ?_; rotate_left; unfold x; rotate_left; clear_value x; intro) | try clear_value x)
    | split | dsimp -zeta only

theorem State.delayWrite_keeps (hP : Closed P) {s : State} {t : Nat} {v : Nat} (h : P s) : P (State.delayWrite s t
    v).2 := by
  unfold State.delayWrite
  repeat' first
    | with_reducible assumption | with_reducible refine State.wrf_keeps hP ?_
    | with_reducible refine State.orBits_keeps hP ?_ | (extract_lets +onlyGivenNames x; try clear_value x) | split
    | dsimp -zeta only

theorem execDelayWrite_keeps (hP : Closed P) {t : TileId} {val : W32} {s : State} (h : P s) : AllNext P
    (execDelayWrite t val s) := by
  unfold execDelayWrite
  repeat' first
    | with_reducible assumption | with_reducible refine AllNext.next ?_
    | with_reducible refine State.delayWrite_keeps hP ?_ | with_reducible refine keeps_eq2 (by assumption) ?_ | split
    | dsimp -zeta only

theorem State.reindex_keeps (hP : Closed P) {s : State} {t : Nat} {g : Segment} {y4 : List (Nat × Nat)} (h : P s) : P
    (State.reindex s t g y4) := by
  induction y4 generalizing s t g with
  | nil => exact h
  | cons x xs ih =>
    unfold State.reindex
    repeat' first
      | with_reducible assumption | with_reducible refine State.put_keeps hP ?_ | with_reducible apply ih
      | (extract_lets +onlyGivenNames x; first | (refine (?_ : P x → _) ?_; rotate_left; unfold x; rotate_left; clear_value x; intro) | try clear_value x)
      | split | dsimp -zeta only

theorem State.dropEntry_keeps (hP : Closed P) {s : State} {t : Nat} {table : Nat} {r : Nat} {g : Segment} (h : P s) :
    P (State.dropEntry s t table r g) := by
  unfold State.dropEntry
  repeat' first
    | with_reducible assumption | with_reducible refine State.put_keeps hP ?_
    | with_reducible refine State.reindex_keeps hP ?_ | with_reducible refine State.clear_keeps hP ?_
    | (extract_lets +onlyGivenNames x; first | (refine (?_ : P x → _) ?_; rotate_left; unfold x; rotate_left; clear_value x; intro) | try clear_value x)
    | split | dsimp -zeta only

theorem State.dropDeltas_keeps (hP : Closed P) {s : State} {table : Nat} {r : Nat} (h : P s) : P (State.dropDeltas s
    table r) := by
  unfold State.dropDeltas
  repeat' first
    | with_reducible assumption | with_reducible refine foldl_keeps (fun _ _ _ => ?_) ?_
    | with_reducible refine foldl_keeps2 (fun _ _ _ => ?_) ?_ | with_reducible refine State.dropEntry_keeps hP ?_
    | (extract_lets +onlyGivenNames x; try clear_value x) | intro _ | dsimp -zeta only

theorem State.dropPosted_keeps (hP : Closed P) {s : State} {heal : Bool} {lost : List (Nat × Nat)} {kept : List (Nat ×
    Nat)} (h : P s) : P (State.dropPosted s heal lost kept) := by
  unfold State.dropPosted
  repeat' first
    | with_reducible assumption | exact rfl | with_reducible refine foldl_keeps (fun _ _ _ => ?_) ?_
    | with_reducible refine foldl_keeps2 (fun _ _ _ => ?_) ?_ | with_reducible refine State.undefStore_keeps hP ?_
    | with_reducible refine State.undef_keeps hP ?_ | (rw [State.mk_rest]; with_reducible refine hP.rest ?_ ?_)
    | split | intro _ | dsimp -zeta only

theorem State.granResetModule_keeps (hP : Closed P) {s : State} (h : P s) : P (State.granResetModule s) := by
  unfold State.granResetModule
  repeat' first
    | with_reducible assumption | exact rfl | with_reducible refine hP.resetRegs ?_
    | with_reducible refine State.dropPosted_keeps hP ?_
    | with_reducible refine State.eachTile_keeps (fun _ _ _ => ?_) ?_ | with_reducible refine State.wrf_keeps hP ?_
    | with_reducible refine State.bump_keeps hP ?_ | with_reducible refine State.raise_keeps hP ?_
    | (rw [State.mk_rest]; with_reducible refine hP.rest ?_ ?_)
    | (extract_lets +onlyGivenNames x; first | (refine (?_ : P x → _) ?_; rotate_left; unfold x; rotate_left; clear_value x; intro) | try clear_value x)
    | intro _ | dsimp -zeta only

theorem State.granResetTile_keeps (hP : Closed P) {s : State} {t : Nat} (h : P s) : P (State.granResetTile s t) := by
  unfold State.granResetTile
  repeat' first
    | with_reducible assumption | with_reducible refine hP.resetRegs ?_
    | with_reducible refine foldl_keeps (fun _ _ _ => ?_) ?_ | with_reducible refine foldl_keeps2 (fun _ _ _ => ?_) ?_
    | with_reducible refine State.dropPosted_keeps hP ?_ | (extract_lets +onlyGivenNames x; try clear_value x)
    | intro _ | dsimp -zeta only

theorem State.granAbort_keeps (hP : Closed P) {s : State} (h : P s) : P (State.granAbort s) := by
  unfold State.granAbort
  repeat' first
    | with_reducible assumption | with_reducible refine State.eachTile_keeps (fun _ _ _ => ?_) ?_
    | with_reducible refine State.stageEmpty_keeps hP ?_ | with_reducible refine State.dropBuilding_keeps hP ?_
    | intro _ | dsimp -zeta only

end Sys2Proof.Machine
end

