-- ==== Sys2Proof/Laws/KeepsFeed.lean ====
section
/-!
SUPPORT. Laws/KeepsFeed.lean: every function of Machine/Feed.lean keeps a closed property (Laws/Keeps.lean).
-/
set_option linter.unusedVariables false
set_option linter.tactic.unusedName false

namespace Sys2Proof.Machine

open Sys2Proof

variable {P : State → Prop}

theorem State.setFeedT_keeps (hP : Closed P) {s : State} {t : Nat} {x : FeedTile} (h : P s) : P (State.setFeedT s t x)
    := by
  unfold State.setFeedT
  repeat' first
    | with_reducible assumption | exact rfl | (rw [State.mk_rest]; with_reducible refine hP.rest ?_ ?_)
    | (extract_lets +onlyGivenNames x; try clear_value x) | dsimp -zeta only

theorem State.setSlot_keeps (hP : Closed P) {s : State} {t : Nat} {k : Nat} {x : FeedSlot} (h : P s) : P
    (State.setSlot s t k x) := by
  unfold State.setSlot
  repeat' first
    | with_reducible assumption | with_reducible refine State.setFeedT_keeps hP ?_
    | (extract_lets +onlyGivenNames x; try clear_value x) | dsimp -zeta only

theorem State.feedSend_keeps (hP : Closed P) {s : State} {sess : Nat} {eth : Nat} {addr : List Byte} {port : Nat} {typ
    : Nat} {arg0 : Nat} {arg1 : Nat} {body : List Byte} (h : P s) : P (State.feedSend s sess eth addr port typ arg0
    arg1 body) := by
  unfold State.feedSend
  repeat' first
    | with_reducible assumption | with_reducible refine hP.emit ?_
    | with_reducible refine State.putSession_keeps hP ?_ | (extract_lets +onlyGivenNames x; try clear_value x) | split
    | dsimp -zeta only

theorem State.statusBody_keeps (hP : Closed P) {s : State} {t : Nat} {body : List Byte} (h : P s) : P
    (State.statusBody s t body) := by
  unfold State.statusBody
  repeat' first
    | with_reducible assumption | with_reducible refine State.feedSend_keeps hP ?_ | split | dsimp -zeta only

theorem State.sendStatus_keeps (hP : Closed P) {s : State} {t : Nat} (h : P s) : P (State.sendStatus s t) := by
  unfold State.sendStatus
  repeat' first
    | with_reducible assumption | with_reducible refine State.statusBody_keeps hP ?_
    | (extract_lets +onlyGivenNames x; try clear_value x) | dsimp -zeta only

theorem State.feedDrop_keeps (hP : Closed P) {s : State} {t : Nat} {x : Nat} (h : P s) : P (State.feedDrop s t x) :=
    by
  unfold State.feedDrop
  repeat' first
    | with_reducible assumption | with_reducible refine State.bump_keeps hP ?_
    | with_reducible refine State.setFeedT_keeps hP ?_ | with_reducible refine State.statusBody_keeps hP ?_
    | with_reducible refine State.sendStatus_keeps hP ?_
    | (extract_lets +onlyGivenNames x; first | (refine (?_ : P x → _) ?_; rotate_left; unfold x; rotate_left; clear_value x; intro) | try clear_value x)
    | split | dsimp -zeta only

theorem State.feedAccept_keeps (hP : Closed P) {s : State} {eth : Nat} {addr : List Byte} {port : Nat} {m : List Byte}
    {frag : Bool} (h : P s) : P (State.feedAccept s eth addr port m frag).2 := by
  unfold State.feedAccept
  repeat' first
    | with_reducible assumption | exact rfl | with_reducible refine State.feedDrop_keeps hP ?_
    | with_reducible refine State.putSession_keeps hP ?_ | (rw [State.mk_rest]; with_reducible refine hP.rest ?_ ?_)
    | (extract_lets +onlyGivenNames x; first | (refine (?_ : P x → _) ?_; rotate_left; unfold x; rotate_left; clear_value x; intro) | try clear_value x)
    | split | dsimp -zeta only

theorem State.feedRow_keeps (hP : Closed P) {s : State} {typ eth : Nat} {addr : List Byte} {port : Nat} {m : List Byte}
    {frag : Bool} {f : State → List Byte → State} (hf : ∀ s m, P s → P (f s m)) (h : P s) :
    P (s.feedRow typ eth addr port m frag f) := by
  have hA := State.feedAccept_keeps hP (eth := eth) (addr := addr) (port := port) (m := m) (frag := frag) h
  unfold State.feedRow
  dsimp only
  split
  · split
    · exact hf _ _ (keeps_eq2 (by assumption) hA)
    · exact keeps_eq2 (by assumption) hA
  · exact h

theorem State.feedTiles_keeps {s : State} {m : List Byte} {f : State → Nat → State} (hf : ∀ s t, P s → P (f s t))
    (h : P s) : P (s.feedTiles m f) := by
  unfold State.feedTiles
  refine foldl_keeps (fun _ _ _ => ?_) h
  split
  · exact hf _ _ ‹_›
  · assumption

theorem State.outOfWindow_keeps (hP : Closed P) {s : State} {t : Nat} {x : Nat} (h : P s) : P (State.outOfWindow s t
    x) := by
  unfold State.outOfWindow
  repeat' first
    | with_reducible assumption | with_reducible refine State.setSlot_keeps hP ?_
    | with_reducible refine State.feedDrop_keeps hP ?_
    | (extract_lets +onlyGivenNames x; first | (refine (?_ : P x → _) ?_; rotate_left; unfold x; rotate_left; clear_value x; intro) | try clear_value x)
    | split | dsimp -zeta only

theorem State.sampleTile_keeps (hP : Closed P) {s : State} {t : Nat} {x : Nat} {off : Nat} {b : List Byte} (h : P s) :
    P (State.sampleTile s t x off b) := by
  unfold State.sampleTile
  repeat' first
    | with_reducible assumption | with_reducible refine State.outOfWindow_keeps hP ?_
    | with_reducible refine State.feedDrop_keeps hP ?_ | with_reducible refine State.setSlot_keeps hP ?_
    | with_reducible refine State.memWrite_keeps hP ?_ | with_reducible refine State.bump_keeps hP ?_
    | with_reducible refine State.sendStatus_keeps hP ?_ | with_reducible refine keeps_eq2 (by assumption) ?_
    | (extract_lets +onlyGivenNames x; first | (refine (?_ : P x → _) ?_; rotate_left; unfold x; rotate_left; clear_value x; intro) | try clear_value x)
    | split | dsimp -zeta only

theorem State.endFails_keeps (hP : Closed P) {s : State} {t : Nat} {k : Nat} {x : FeedSlot} (h : P s) : P
    (State.endFails s t k x) := by
  unfold State.endFails
  repeat' first
    | with_reducible assumption | with_reducible refine State.sendStatus_keeps hP ?_
    | with_reducible refine State.setSlot_keeps hP ?_ | dsimp -zeta only

theorem State.endTile_keeps (hP : Closed P) {s : State} {t : Nat} {x : Nat} {n : Nat} {crc : Nat} {batch : Option Nat}
    (h : P s) : P (State.endTile s t x n crc batch) := by
  unfold State.endTile
  repeat' first
    | with_reducible assumption | with_reducible refine State.outOfWindow_keeps hP ?_
    | with_reducible refine State.endFails_keeps hP ?_ | with_reducible refine State.memRead_keeps hP ?_
    | with_reducible refine State.sendStatus_keeps hP ?_ | with_reducible refine State.setSlot_keeps hP ?_
    | with_reducible refine State.raise_keeps hP ?_ | with_reducible refine State.bump_keeps hP ?_
    | with_reducible refine keeps_eq3 (by assumption) ?_ | (extract_lets +onlyGivenNames x; try clear_value x) | split
    | dsimp -zeta only

theorem execFeedSample_keeps (hP : Closed P) {eth : EthId} {addr : List Byte} {port : Nat} {m : List Byte} {frag :
    Bool} {s : State} (h : P s) : AllNext P (execFeedSample eth addr port m frag s) := by
  unfold execFeedSample
  repeat' first
    | with_reducible assumption | with_reducible refine AllNext.next ?_
    | with_reducible refine State.feedRow_keeps hP (fun _ _ _ => ?_) ?_
    | with_reducible refine State.feedTiles_keeps (fun _ _ _ => ?_) ?_
    | with_reducible refine State.sampleTile_keeps hP ?_ | intro _ | dsimp -zeta only

theorem execIndexEnd_keeps (hP : Closed P) {eth : EthId} {addr : List Byte} {port : Nat} {m : List Byte} {frag : Bool}
    {s : State} (h : P s) : AllNext P (execIndexEnd eth addr port m frag s) := by
  unfold execIndexEnd
  repeat' first
    | with_reducible assumption | with_reducible refine AllNext.next ?_
    | with_reducible refine State.feedRow_keeps hP (fun _ _ _ => ?_) ?_
    | with_reducible refine State.feedTiles_keeps (fun _ _ _ => ?_) ?_
    | with_reducible refine State.endTile_keeps hP ?_ | intro _ | dsimp -zeta only

theorem execBatchEnd_keeps (hP : Closed P) {eth : EthId} {addr : List Byte} {port : Nat} {m : List Byte} {frag : Bool}
    {s : State} (h : P s) : AllNext P (execBatchEnd eth addr port m frag s) := by
  unfold execBatchEnd
  repeat' first
    | with_reducible assumption | with_reducible refine AllNext.next ?_
    | with_reducible refine State.feedRow_keeps hP (fun _ _ _ => ?_) ?_
    | with_reducible refine State.feedTiles_keeps (fun _ _ _ => ?_) ?_
    | with_reducible refine State.endTile_keeps hP ?_ | intro _ | dsimp -zeta only

theorem execStateIn_keeps (hP : Closed P) {eth : EthId} {addr : List Byte} {port : Nat} {m : List Byte} {frag : Bool}
    {s : State} (h : P s) : AllNext P (execStateIn eth addr port m frag s) := by
  unfold execStateIn
  repeat' first
    | with_reducible assumption | with_reducible refine AllNext.next ?_
    | with_reducible refine State.feedRow_keeps hP (fun _ _ _ => ?_) ?_
    | with_reducible refine State.feedDrop_keeps hP ?_ | with_reducible refine State.memWrite_keeps hP ?_
    | with_reducible refine keeps_eq2 (by assumption) ?_ | (extract_lets +onlyGivenNames x; try clear_value x) | split
    | intro _ | dsimp -zeta only

theorem execFeedStatusTimer_keeps (hP : Closed P) {t : TileId} {s : State} (h : P s) : AllNext P (execFeedStatusTimer
    t s) := by
  unfold execFeedStatusTimer
  repeat' first
    | with_reducible assumption | with_reducible refine AllNext.next ?_
    | with_reducible refine State.sendStatus_keeps hP ?_ | split | dsimp -zeta only

theorem State.feedRegWrite_keeps (hP : Closed P) {s : State} {t : Nat} {o : Nat} {v : Nat} {mask : Nat} (h : P s) : P
    (State.feedRegWrite s t o v mask).2 := by
  unfold State.feedRegWrite
  repeat' first
    | with_reducible assumption | with_reducible refine hP.wr ?_ | with_reducible refine State.sendStatus_keeps hP ?_
    | with_reducible refine State.setFeedT_keeps hP ?_
    | (extract_lets +onlyGivenNames x; first | (refine (?_ : P x → _) ?_; rotate_left; unfold x; rotate_left; clear_value x; intro) | try clear_value x)
    | split | dsimp -zeta only

theorem execFeedRegisterWrite_keeps (hP : Closed P) {t : TileId} {r : Fin 6} {val : W64} {s : State} (h : P s) :
    AllNext P (execFeedRegisterWrite t r val s) := by
  unfold execFeedRegisterWrite
  repeat' first
    | with_reducible assumption | with_reducible refine AllNext.next ?_
    | with_reducible refine State.feedRegWrite_keeps hP ?_ | with_reducible refine keeps_eq2 (by assumption) ?_
    | (extract_lets +onlyGivenNames x; try clear_value x) | split | dsimp -zeta only

theorem State.feedMove_keeps (hP : Closed P) {s : State} {src : Nat} {dst : Nat} {n : Nat} (h : P s) : P
    (State.feedMove s src dst n) := by
  unfold State.feedMove
  repeat' first
    | with_reducible assumption | with_reducible refine State.memRead_keeps hP ?_
    | with_reducible refine State.memWrite_keeps hP ?_ | with_reducible refine keeps_eq2 (by assumption) ?_
    | with_reducible refine keeps_eq3 (by assumption) ?_ | split | dsimp -zeta only

theorem State.feedCopy_keeps (hP : Closed P) {s : State} {t : Nat} (h : P s) : P (State.feedCopy s t) := by
  unfold State.feedCopy
  repeat' first
    | with_reducible assumption | with_reducible refine State.feedMove_keeps hP ?_
    | with_reducible refine State.bump_keeps hP ?_
    | (extract_lets +onlyGivenNames x; first | (refine (?_ : P x → _) ?_; rotate_left; unfold x; rotate_left; clear_value x; intro) | try clear_value x)
    | dsimp -zeta only

theorem State.feedRelease_keeps (hP : Closed P) {s : State} {t : Nat} {step : Nat} (h : P s) : P (State.feedRelease s
    t step) := by
  unfold State.feedRelease
  repeat' first
    | with_reducible assumption | with_reducible refine State.sendStatus_keeps hP ?_
    | with_reducible refine State.setSlot_keeps hP ?_ | (extract_lets +onlyGivenNames x; try clear_value x) | split
    | dsimp -zeta only

theorem State.feedClear_keeps (hP : Closed P) {s : State} (h : P s) : P (State.feedClear s) := by
  unfold State.feedClear
  repeat' first
    | with_reducible assumption | exact rfl | (rw [State.mk_rest]; with_reducible refine hP.rest ?_ ?_)
    | dsimp -zeta only

theorem State.readUnits_keeps (hP : Closed P) {s : State} {n : Nat} {y3 : List Nat} {y4 : List Byte} (h : P s) : P
    (State.readUnits s n y3 y4).2.2 := by
  induction y3 generalizing s n y4 with
  | nil => exact h
  | cons x xs ih =>
    unfold State.readUnits
    repeat' first
      | with_reducible assumption | with_reducible refine State.memRead_keeps hP ?_
      | with_reducible refine keeps_eq3 (by assumption) ?_ | with_reducible apply ih | split | dsimp -zeta only

theorem State.exportStream_keeps (hP : Closed P) {s : State} {b : List Byte} (h : P s) : P (State.exportStream s
    b).2.2 := by
  unfold State.exportStream
  repeat' first
    | with_reducible assumption | with_reducible refine State.readUnits_keeps hP ?_
    | with_reducible refine keeps_eq3 (by assumption) ?_ | split | dsimp -zeta only

theorem State.mapExport_keeps (hP : Closed P) {s : State} {tag : Nat} {f : Export → Export} (h : P s) : P
    (State.mapExport s tag f) := by
  unfold State.mapExport
  repeat' first
    | with_reducible assumption | exact rfl | (rw [State.mk_rest]; with_reducible refine hP.rest ?_ ?_)
    | (extract_lets +onlyGivenNames x; try clear_value x) | split | dsimp -zeta only

theorem State.sendOut_keeps (hP : Closed P) {s : State} {e : HcpEntry} {off : Nat} {b : List Byte} (h : P s) : P
    (State.sendOut s e off b) := by
  unfold State.sendOut
  repeat' first
    | with_reducible assumption | with_reducible refine State.feedSend_keeps hP ?_ | split | dsimp -zeta only

theorem State.sendRange_keeps (hP : Closed P) {s : State} {e : HcpEntry} {stream : List Byte} {y4 : Nat} {y5 : Nat}
    {y6 : Nat} (h : P s) : P (State.sendRange s e stream y4 y5 y6) := by
  induction y4 generalizing s e stream y5 y6 with
  | zero => exact h
  | succ n ih =>
    unfold State.sendRange
    repeat' first
      | with_reducible assumption | with_reducible refine State.sendOut_keeps hP ?_ | with_reducible apply ih
      | (extract_lets +onlyGivenNames x; try clear_value x) | split | dsimp -zeta only

theorem State.exportPump_keeps (hP : Closed P) {s : State} {x : Export} (h : P s) : P (State.exportPump s x) := by
  unfold State.exportPump
  repeat' first
    | with_reducible assumption | exact rfl | with_reducible refine State.exportStream_keeps hP ?_
    | with_reducible refine State.pendingEnds_keeps hP ?_ | with_reducible refine State.sendRange_keeps hP ?_
    | with_reducible refine State.mapExport_keeps hP ?_ | (rw [State.mk_rest]; with_reducible refine hP.rest ?_ ?_)
    | with_reducible refine keeps_eq3 (by assumption) ?_
    | (extract_lets +onlyGivenNames x; first | (refine (?_ : P x → _) ?_; rotate_left; unfold x; rotate_left; clear_value x; intro) | try clear_value x)
    | split | dsimp -zeta only

theorem execStateCredit_keeps (hP : Closed P) {eth : EthId} {addr : List Byte} {port : Nat} {m : List Byte} {frag :
    Bool} {s : State} (h : P s) : AllNext P (execStateCredit eth addr port m frag s) := by
  unfold execStateCredit
  repeat' first
    | with_reducible assumption | with_reducible refine AllNext.next ?_
    | with_reducible refine State.feedRow_keeps hP (fun _ _ _ => ?_) ?_
    | with_reducible refine State.mapExport_keeps hP ?_ | with_reducible refine State.exportStream_keeps hP ?_
    | with_reducible refine State.sendRange_keeps hP ?_ | with_reducible refine State.exportPump_keeps hP ?_
    | with_reducible refine keeps_eq3 (by assumption) ?_
    | (extract_lets +onlyGivenNames x; first | (refine (?_ : P x → _) ?_; rotate_left; unfold x; rotate_left; clear_value x; intro) | try clear_value x)
    | split | intro _ | dsimp -zeta only

theorem execExportCreditTimeout_keeps (hP : Closed P) {tag : W32} {s : State} (h : P s) : AllNext P
    (execExportCreditTimeout tag s) := by
  unfold execExportCreditTimeout
  repeat' first
    | with_reducible assumption | exact rfl | with_reducible refine AllNext.next ?_
    | with_reducible refine State.pendingEnds_keeps hP ?_ | (rw [State.mk_rest]; with_reducible refine hP.rest ?_ ?_)
    | (extract_lets +onlyGivenNames x; first | (refine (?_ : P x → _) ?_; rotate_left; unfold x; rotate_left; clear_value x; intro) | try clear_value x)
    | split | dsimp -zeta only

end Sys2Proof.Machine
end

