-- ==== Sys2Proof/Laws/KeepsStartup.lean ====
section
/-!
SUPPORT. Laws/KeepsStartup.lean: every function of Machine/Startup.lean keeps a closed property (Laws/Keeps.lean).
-/
set_option linter.unusedVariables false
set_option linter.tactic.unusedName false

namespace Sys2Proof.Machine

open Sys2Proof

variable {P : State → Prop}

theorem State.setMreg_keeps (hP : Closed P) {s : State} {i : Nat} {b : List Byte} (h : P s) : P (State.setMreg s i b)
    := by
  unfold State.setMreg
  repeat' first
    | with_reducible assumption | with_reducible refine hP.wr ?_
    | with_reducible refine foldl_keeps (fun _ _ _ => ?_) ?_ | with_reducible refine foldl_keeps2 (fun _ _ _ => ?_) ?_
    | intro _ | dsimp -zeta only

theorem State.extend_keeps (hP : Closed P) {s : State} {i : Nat} {d : List Byte} (h : P s) : P (State.extend s i d) :=
    by
  unfold State.extend
  repeat' first
    | with_reducible assumption | with_reducible refine State.setMreg_keeps hP ?_ | dsimp -zeta only

theorem State.go_keeps (hP : Closed P) {s : State} (h : P s) : P (State.go s) := by
  unfold State.go
  repeat' first
    | with_reducible assumption | with_reducible refine State.extend_keeps hP ?_ | dsimp -zeta only

theorem execExtendGo_keeps (hP : Closed P) {s : State} (h : P s) : AllNext P (execExtendGo s) := by
  unfold execExtendGo
  repeat' first
    | with_reducible assumption | with_reducible refine AllNext.next ?_ | with_reducible refine State.go_keeps hP ?_
    | split | dsimp -zeta only

theorem State.podForget_keeps (hP : Closed P) {s : State} (h : P s) : P (State.podForget s) := by
  unfold State.podForget
  repeat' first
    | with_reducible assumption | exact rfl | with_reducible refine hP.wr ?_
    | with_reducible refine State.wrf_keeps hP ?_ | (rw [State.mk_rest]; with_reducible refine hP.rest ?_ ?_)
    | (extract_lets +onlyGivenNames x; try clear_value x) | dsimp -zeta only

theorem State.podTake_keeps (hP : Closed P) {s : State} (h : P s) : P (State.podTake s) := by
  unfold State.podTake
  repeat' first
    | with_reducible assumption | exact rfl | with_reducible refine hP.wr ?_
    | with_reducible refine State.podForget_keeps hP ?_ | with_reducible refine State.wrf_keeps hP ?_
    | (rw [State.mk_rest]; with_reducible refine hP.rest ?_ ?_) | (extract_lets +onlyGivenNames x; try clear_value x)
    | split | dsimp -zeta only

theorem execPodInstall_keeps (hP : Closed P) {s : State} (h : P s) : AllNext P (execPodInstall s) := by
  unfold execPodInstall
  repeat' first
    | with_reducible assumption | with_reducible refine AllNext.next ?_
    | with_reducible refine State.podTake_keeps hP ?_ | split | dsimp -zeta only

theorem execPodClear_keeps (hP : Closed P) {s : State} (h : P s) : AllNext P (execPodClear s) := by
  unfold execPodClear
  repeat' first
    | with_reducible assumption | with_reducible refine AllNext.next ?_
    | with_reducible refine State.podForget_keeps hP ?_ | split | dsimp -zeta only

theorem State.setVersion_keeps (hP : Closed P) {s : State} {kind : Nat} {v : Nat} (h : P s) : P (State.setVersion s
    kind v) := by
  unfold State.setVersion
  repeat' first
    | with_reducible assumption | exact rfl | (rw [State.mk_rest]; with_reducible refine hP.rest ?_ ?_)
    | (extract_lets +onlyGivenNames x; try clear_value x) | dsimp -zeta only

theorem execBootRomDone_keeps (hP : Closed P) {identityOk : Bool} {stage1 : Option Bool} {s : State} (h : P s) :
    AllNext P (execBootRomDone identityOk stage1 s) := by
  unfold execBootRomDone
  repeat' first
    | with_reducible assumption | exact rfl | with_reducible refine AllNext.next ?_
    | with_reducible refine State.extend_keeps hP ?_ | with_reducible refine State.setVersion_keeps hP ?_
    | with_reducible refine State.wrf_keeps hP ?_ | (rw [State.mk_rest]; with_reducible refine hP.rest ?_ ?_)
    | with_reducible refine hx _ ?_
    | (extract_lets +onlyGivenNames x; first | (refine (?_ : (∀ s, P s → P (x s)) → _) ?_; rotate_left; unfold x; rotate_left; clear_value x; intro hx) | (refine (?_ : P x → _) ?_; rotate_left; unfold x; rotate_left; clear_value x; intro) | try clear_value x)
    | split | intro _ | dsimp -zeta only

theorem State.loadImage_keeps (hP : Closed P) {s : State} {kind : Nat} {copy : Option Bool} (h : P s) : P
    (State.loadImage s kind copy) := by
  unfold State.loadImage
  repeat' first
    | with_reducible assumption | with_reducible refine State.wrf_keeps hP ?_
    | with_reducible refine State.setVersion_keeps hP ?_ | with_reducible refine State.extend_keeps hP ?_
    | (extract_lets +onlyGivenNames x; first | (refine (?_ : P x → _) ?_; rotate_left; unfold x; rotate_left; clear_value x; intro) | try clear_value x)
    | split | dsimp -zeta only

theorem State.stageOne_keeps (hP : Closed P) {s : State} {images : List (Option Bool)} (h : P s) : P (State.stageOne s
    images) := by
  unfold State.stageOne
  repeat' first
    | with_reducible assumption | with_reducible refine foldl_keeps (fun _ _ _ => ?_) ?_
    | with_reducible refine foldl_keeps2 (fun _ _ _ => ?_) ?_ | with_reducible refine State.loadImage_keeps hP ?_
    | with_reducible refine State.extend_keeps hP ?_
    | (extract_lets +onlyGivenNames x; first | (refine (?_ : P x → _) ?_; rotate_left; unfold x; rotate_left; clear_value x; intro) | try clear_value x)
    | split | intro _ | dsimp -zeta only

theorem State.openEth_keeps (hP : Closed P) {s : State} {optics : List (Option Bool)} {mgmtOk : Bool} (h : P s) : P
    (State.openEth s optics mgmtOk) := by
  unfold State.openEth
  repeat' first
    | with_reducible assumption | exact rfl | (rw [State.mk_rest]; with_reducible refine hP.rest ?_ ?_)
    | (extract_lets +onlyGivenNames x; try clear_value x) | split | dsimp -zeta only

theorem State.setStarted_keeps (hP : Closed P) {s : State} {i : Nat} (h : P s) : P (State.setStarted s i) := by
  unfold State.setStarted
  repeat' first
    | with_reducible assumption | with_reducible refine State.wrf_keeps hP ?_ | dsimp -zeta only

theorem execReeveStart_keeps (hP : Closed P) {images : List (Option Bool)} {optics : List (Option Bool)} {mgmtOk :
    Bool} {s : State} (h : P s) : AllNext P (execReeveStart images optics mgmtOk s) := by
  unfold execReeveStart
  repeat' first
    | with_reducible assumption | exact rfl | with_reducible refine AllNext.next ?_
    | with_reducible refine State.stageOne_keeps hP ?_ | with_reducible refine State.openEth_keeps hP ?_
    | (rw [State.mk_rest]; with_reducible refine hP.rest ?_ ?_)
    | (extract_lets +onlyGivenNames x; first | (refine (?_ : P x → _) ?_; rotate_left; unfold x; rotate_left; clear_value x; intro) | try clear_value x)
    | split | dsimp -zeta only

theorem State.setMask_keeps (hP : Closed P) {s : State} {g : Nat} {m : Nat} (h : P s) : P (State.setMask s g m) := by
  unfold State.setMask
  repeat' first
    | with_reducible assumption | with_reducible refine State.wrf_keeps hP ?_ | dsimp -zeta only

theorem State.setAbsent_keeps (hP : Closed P) {s : State} {g : Nat} {m : Nat} (h : P s) : P (State.setAbsent s g m) :=
    by
  unfold State.setAbsent
  repeat' first
    | with_reducible assumption | with_reducible refine State.wrf_keeps hP ?_ | dsimp -zeta only

theorem State.markAbsent_keeps (hP : Closed P) {s : State} {g : Nat} {l : List Nat} (h : P s) : P (State.markAbsent s
    g l) := by
  unfold State.markAbsent
  repeat' first
    | with_reducible assumption | with_reducible refine foldl_keeps (fun _ _ _ => ?_) ?_
    | with_reducible refine foldl_keeps2 (fun _ _ _ => ?_) ?_ | with_reducible refine State.raise_keeps hP ?_
    | with_reducible refine State.setAbsent_keeps hP ?_ | intro _ | dsimp -zeta only

theorem State.overlaySlot_keeps (hP : Closed P) {s : State} {g : Nat} {i : Nat} (h : P s) : P (State.overlaySlot s g
    i) := by
  unfold State.overlaySlot
  repeat' first
    | with_reducible assumption | exact rfl | (rw [State.mk_rest]; with_reducible refine hP.rest ?_ ?_)
    | (extract_lets +onlyGivenNames x; try clear_value x) | dsimp -zeta only

theorem State.repairCluster_keeps (hP : Closed P) {s : State} {failed : List Nat} {g : Nat} (h : P s) : P
    (State.repairCluster s failed g) := by
  unfold State.repairCluster
  repeat' first
    | with_reducible assumption | with_reducible refine State.setAbsent_keeps hP ?_
    | with_reducible refine State.markAbsent_keeps hP ?_ | with_reducible refine State.raise_keeps hP ?_
    | with_reducible refine State.setMask_keeps hP ?_ | with_reducible refine State.overlaySlot_keeps hP ?_
    | (extract_lets +onlyGivenNames x; try clear_value x) | split | dsimp -zeta only

theorem execCoreSelftestEnd_keeps (hP : Closed P) {failed : List Nat} {s : State} (h : P s) : AllNext P
    (execCoreSelftestEnd failed s) := by
  unfold execCoreSelftestEnd
  repeat' first
    | with_reducible assumption | exact rfl | with_reducible refine hP.zero ?_ | with_reducible refine AllNext.next ?_
    | with_reducible refine foldl_keeps (fun _ _ _ => ?_) ?_ | with_reducible refine foldl_keeps2 (fun _ _ _ => ?_) ?_
    | with_reducible refine State.repairCluster_keeps hP ?_ | with_reducible refine State.setStarted_keeps hP ?_
    | (rw [State.mk_rest]; with_reducible refine hP.rest ?_ ?_)
    | (extract_lets +onlyGivenNames x; first | (refine (?_ : P x → _) ?_; rotate_left; unfold x; rotate_left; clear_value x; intro) | try clear_value x)
    | split | intro _ | dsimp -zeta only

theorem State.spareSelect_keeps (hP : Closed P) {s : State} {p : Nat} (h : P s) : P (State.spareSelect s p) := by
  unfold State.spareSelect
  repeat' first
    | with_reducible assumption | with_reducible refine State.wrf_keeps hP ?_ | dsimp -zeta only

theorem State.spareStart_keeps (hP : Closed P) {s : State} (h : P s) : P (State.spareStart s) := by
  unfold State.spareStart
  repeat' first
    | with_reducible assumption | exact rfl | with_reducible refine State.wrf_keeps hP ?_
    | (rw [State.mk_rest]; with_reducible refine hP.rest ?_ ?_)
    | (extract_lets +onlyGivenNames x; first | (refine (?_ : P x → _) ?_; rotate_left; unfold x; rotate_left; clear_value x; intro) | try clear_value x)
    | split | dsimp -zeta only

theorem execSpareSelftestStart_keeps (hP : Closed P) {phys : BitVec 11} {s : State} (h : P s) : AllNext P
    (execSpareSelftestStart phys s) := by
  unfold execSpareSelftestStart
  repeat' first
    | with_reducible assumption | with_reducible refine AllNext.next ?_
    | with_reducible refine State.spareStart_keeps hP ?_ | with_reducible refine State.spareSelect_keeps hP ?_ | split
    | dsimp -zeta only

theorem execSpareSelftestEnd_keeps (hP : Closed P) {pass : Bool} {s : State} (h : P s) : AllNext P
    (execSpareSelftestEnd pass s) := by
  unfold execSpareSelftestEnd
  repeat' first
    | with_reducible assumption | exact rfl | with_reducible refine AllNext.next ?_
    | with_reducible refine State.wrf_keeps hP ?_ | (rw [State.mk_rest]; with_reducible refine hP.rest ?_ ?_)
    | (extract_lets +onlyGivenNames x; first | (refine (?_ : P x → _) ?_; rotate_left; unfold x; rotate_left; clear_value x; intro) | try clear_value x)
    | split | dsimp -zeta only

theorem State.repairRequest_keeps (hP : Closed P) {s : State} {p : Nat} (h : P s) : P (State.repairRequest s p) := by
  unfold State.repairRequest
  repeat' first
    | with_reducible assumption | exact rfl | with_reducible refine State.wrf_keeps hP ?_
    | (rw [State.mk_rest]; with_reducible refine hP.rest ?_ ?_)
    | (extract_lets +onlyGivenNames x; first | (refine (?_ : P x → _) ?_; rotate_left; unfold x; rotate_left; clear_value x; intro) | try clear_value x)
    | split | dsimp -zeta only

theorem execRepairRequestCommit_keeps (hP : Closed P) {phys : BitVec 11} {s : State} (h : P s) : AllNext P
    (execRepairRequestCommit phys s) := by
  unfold execRepairRequestCommit
  repeat' first
    | with_reducible assumption | with_reducible refine AllNext.next ?_
    | with_reducible refine State.repairRequest_keeps hP ?_ | split | dsimp -zeta only

theorem State.challengeLamps_keeps (hP : Closed P) {s : State} (h : P s) : P (State.challengeLamps s) := by
  unfold State.challengeLamps
  repeat' first
    | with_reducible assumption | with_reducible refine foldl_keeps (fun _ _ _ => ?_) ?_
    | with_reducible refine foldl_keeps2 (fun _ _ _ => ?_) ?_ | with_reducible refine State.challengeLamp_keeps hP ?_
    | split | intro _ | dsimp -zeta only

theorem execDomainsUngated_keeps (hP : Closed P) {s : State} (h : P s) : AllNext P (execDomainsUngated s) := by
  unfold execDomainsUngated
  repeat' first
    | with_reducible assumption | with_reducible refine hP.wr ?_ | with_reducible refine AllNext.next ?_
    | with_reducible refine State.challengeLamps_keeps hP ?_ | with_reducible refine State.setStarted_keeps hP ?_
    | split | dsimp -zeta only

theorem State.trainStack_keeps (hP : Closed P) {s : State} {k : Nat} {r : StackTrain} (h : P s) : P (State.trainStack
    s k r) := by
  unfold State.trainStack
  repeat' first
    | with_reducible assumption | with_reducible refine hP.wr ?_
    | with_reducible refine foldl_keeps (fun _ _ _ => ?_) ?_ | with_reducible refine foldl_keeps2 (fun _ _ _ => ?_) ?_
    | with_reducible refine State.wrf_keeps hP ?_ | with_reducible refine State.raise_keeps hP ?_
    | (extract_lets +onlyGivenNames x; first | (refine (?_ : P x → _) ?_; rotate_left; unfold x; rotate_left; clear_value x; intro) | try clear_value x)
    | split | intro _ | dsimp -zeta only

theorem execHbmTrained_keeps (hP : Closed P) {hbm : List StackTrain} {s : State} (h : P s) : AllNext P (execHbmTrained
    hbm s) := by
  unfold execHbmTrained
  repeat' first
    | with_reducible assumption | with_reducible refine hP.zero ?_ | with_reducible refine AllNext.next ?_
    | with_reducible refine foldl_keeps (fun _ _ _ => ?_) ?_ | with_reducible refine foldl_keeps2 (fun _ _ _ => ?_) ?_
    | with_reducible refine State.trainStack_keeps hP ?_ | with_reducible refine State.setStarted_keeps hP ?_
    | (extract_lets +onlyGivenNames x; first | (refine (?_ : P x → _) ?_; rotate_left; unfold x; rotate_left; clear_value x; intro) | try clear_value x)
    | split | intro _ | dsimp -zeta only

theorem execDimmsTrained_keeps (hP : Closed P) {dimms : List (Option SpdInfo)} {s : State} (h : P s) : AllNext P
    (execDimmsTrained dimms s) := by
  unfold execDimmsTrained
  repeat' first
    | with_reducible assumption | exact rfl | with_reducible refine AllNext.next ?_
    | with_reducible refine foldl_keeps (fun _ _ _ => ?_) ?_ | with_reducible refine foldl_keeps2 (fun _ _ _ => ?_) ?_
    | with_reducible refine State.random_keeps hP ?_ | with_reducible refine State.setStarted_keeps hP ?_
    | (rw [State.mk_rest]; with_reducible refine hP.rest ?_ ?_) | with_reducible refine keeps_eq2 (by assumption) ?_
    | (extract_lets +onlyGivenNames x; try clear_value x) | split | intro _ | dsimp -zeta only

theorem execGranaryZeroed_keeps (hP : Closed P) {s : State} (h : P s) : AllNext P (execGranaryZeroed s) := by
  unfold execGranaryZeroed
  repeat' first
    | with_reducible assumption | with_reducible refine hP.zero ?_ | with_reducible refine AllNext.next ?_
    | with_reducible refine State.setStarted_keeps hP ?_ | with_reducible refine State.wrf_keeps hP ?_ | split
    | dsimp -zeta only

theorem execLampsLit_keeps (hP : Closed P) {s : State} (h : P s) : AllNext P (execLampsLit s) := by
  unfold execLampsLit
  repeat' first
    | with_reducible assumption | exact rfl | with_reducible refine AllNext.next ?_
    | with_reducible refine State.lightPairs_keeps hP ?_ | with_reducible refine State.setStarted_keeps hP ?_
    | (rw [State.mk_rest]; with_reducible refine hP.rest ?_ ?_)
    | (extract_lets +onlyGivenNames x; first | (refine (?_ : P x → _) ?_; rotate_left; unfold x; rotate_left; clear_value x; intro) | try clear_value x)
    | split | dsimp -zeta only

theorem execRampEnd_keeps (hP : Closed P) {pair : Fin 4} {s : State} (h : P s) : AllNext P (execRampEnd pair s) := by
  unfold execRampEnd
  repeat' first
    | with_reducible assumption | with_reducible refine AllNext.next ?_
    | with_reducible refine State.endRamps_keeps hP ?_ | split | dsimp -zeta only

end Sys2Proof.Machine
end

