-- ==== Sys2Proof/Laws/KeepsCsrRead.lean ====
section
/-!
SUPPORT. Laws/KeepsCsrRead.lean: every function of Machine/CsrRead.lean keeps a closed property (Laws/Keeps.lean).
-/
set_option linter.unusedVariables false
set_option linter.tactic.unusedName false

namespace Sys2Proof.Machine

open Sys2Proof

variable {P : State → Prop}

theorem State.setCols_keeps (hP : Closed P) {s : State} {t : Nat} {l : List ColJob} (h : P s) : P (State.setCols s t
    l) := by
  unfold State.setCols
  repeat' first
    | with_reducible assumption | exact rfl | (rw [State.mk_rest]; with_reducible refine hP.rest ?_ ?_)
    | dsimp -zeta only

theorem State.keepOpen_keeps (hP : Closed P) {s : State} {o : OpenRed} (h : P s) : P (State.keepOpen s o) := by
  unfold State.keepOpen
  repeat' first
    | with_reducible assumption | exact rfl | (rw [State.mk_rest]; with_reducible refine hP.rest ?_ ?_)
    | (extract_lets +onlyGivenNames x; try clear_value x) | dsimp -zeta only

end Sys2Proof.Machine
end

