-- ==== Sys2Proof/Laws/KeepsCsrWrite.lean ====
section
/-!
SUPPORT. Laws/KeepsCsrWrite.lean: every function of Machine/CsrWrite.lean keeps a closed property (Laws/Keeps.lean).
-/
set_option linter.unusedVariables false
set_option linter.tactic.unusedName false

namespace Sys2Proof.Machine

open Sys2Proof

variable {P : State → Prop}

theorem State.wrPlain_keeps (hP : Closed P) {s : State} {r : RegAt} {v : Nat} (h : P s) : P (State.wrPlain s r v) :=
    by
  unfold State.wrPlain
  repeat' first
    | with_reducible assumption | with_reducible refine hP.wr ?_ | with_reducible refine State.w1c_keeps hP ?_
    | (extract_lets +onlyGivenNames x; first | (refine (?_ : P x → _) ?_; rotate_left; unfold x; rotate_left; clear_value x; intro) | try clear_value x)
    | split | dsimp -zeta only

theorem State.paletteWrite_keeps (hP : Closed P) {s : State} {n : Nat} {v : Nat} (h : P s) : P (State.paletteWrite s n
    v).2 := by
  unfold State.paletteWrite
  repeat' first
    | with_reducible assumption | with_reducible refine hP.wr ?_ | (extract_lets +onlyGivenNames x; try clear_value x)
    | split | dsimp -zeta only

theorem execQzPaletteWrite_keeps (hP : Closed P) {n : Fin 4} {val : W32} {s : State} (h : P s) : AllNext P
    (execQzPaletteWrite n val s) := by
  unfold execQzPaletteWrite
  repeat' first
    | with_reducible assumption | with_reducible refine AllNext.next ?_
    | with_reducible refine State.paletteWrite_keeps hP ?_ | with_reducible refine keeps_eq2 (by assumption) ?_
    | split | dsimp -zeta only

theorem execRecipeWrite_keeps (hP : Closed P) {n : Fin 32} {w : Fin 128} {val : W32} {s : State} (h : P s) : AllNext P
    (execRecipeWrite n w val s) := by
  unfold execRecipeWrite
  repeat' first
    | with_reducible assumption | with_reducible refine AllNext.next ?_
    | with_reducible refine State.writeRecipe_keeps hP ?_ | split | dsimp -zeta only

theorem execRecipeCommit_keeps (hP : Closed P) {val : W32} {s : State} (h : P s) : AllNext P (execRecipeCommit val s)
    := by
  unfold execRecipeCommit
  repeat' first
    | with_reducible assumption | with_reducible refine AllNext.next ?_
    | with_reducible refine State.commitRecipe_keeps hP ?_ | split | dsimp -zeta only

theorem State.clearMixed_keeps (hP : Closed P) {s : State} (h : P s) : P (State.clearMixed s) := by
  unfold State.clearMixed
  repeat' first
    | with_reducible assumption | exact rfl | (rw [State.mk_rest]; with_reducible refine hP.rest ?_ ?_)
    | (extract_lets +onlyGivenNames x; try clear_value x) | split | dsimp -zeta only

theorem State.stepSet_keeps (hP : Closed P) {s : State} {v : Nat} (h : P s) : P (State.stepSet s v) := by
  unfold State.stepSet
  repeat' first
    | with_reducible assumption | with_reducible refine hP.wr ?_ | split | dsimp -zeta only

theorem execClearMixed_keeps (hP : Closed P) {s : State} (h : P s) : AllNext P (execClearMixed s) := by
  unfold execClearMixed
  repeat' first
    | with_reducible assumption | with_reducible refine AllNext.next ?_
    | with_reducible refine State.clearMixed_keeps hP ?_ | split | dsimp -zeta only

theorem execSeqStepSet_keeps (hP : Closed P) {val : W64} {s : State} (h : P s) : AllNext P (execSeqStepSet val s) :=
    by
  unfold execSeqStepSet
  repeat' first
    | with_reducible assumption | with_reducible refine AllNext.next ?_
    | with_reducible refine State.stepSet_keeps hP ?_ | split | dsimp -zeta only

theorem State.hubPut_keeps (hP : Closed P) {s : State} {r : RegAt} {v : Nat} (h : P s) : P (State.hubPut s r v) := by
  unfold State.hubPut
  repeat' first
    | with_reducible assumption | with_reducible refine hP.wr ?_ | with_reducible refine State.wrPlain_keeps hP ?_
    | with_reducible refine State.wrf_keeps hP ?_ | with_reducible refine State.askCap_keeps hP ?_
    | with_reducible refine State.spareSelect_keeps hP ?_ | with_reducible refine State.spareStart_keeps hP ?_
    | with_reducible refine State.repairRequest_keeps hP ?_ | with_reducible refine State.autoLight_keeps hP ?_
    | with_reducible refine State.podTake_keeps hP ?_ | with_reducible refine State.podForget_keeps hP ?_
    | with_reducible refine State.go_keeps hP ?_
    | (extract_lets +onlyGivenNames x; first | (refine (?_ : P x → _) ?_; rotate_left; unfold x; rotate_left; clear_value x; intro) | try clear_value x)
    | split | dsimp -zeta only

theorem State.grnPut_keeps (hP : Closed P) {s : State} {r : RegAt} {v : Nat} (h : P s) : P (State.grnPut s r v).2 :=
    by
  unfold State.grnPut
  repeat' first
    | with_reducible assumption | with_reducible refine State.wrPlain_keeps hP ?_
    | (extract_lets +onlyGivenNames x; try clear_value x) | split | dsimp -zeta only

theorem State.embPut_keeps (hP : Closed P) {s : State} {r : RegAt} {v : Nat} (h : P s) : P (State.embPut s r v) := by
  unfold State.embPut
  repeat' first
    | with_reducible assumption | with_reducible refine State.wrPlain_keeps hP ?_ | split | dsimp -zeta only

theorem State.tilePut_keeps (hP : Closed P) {s : State} {t : Nat} {r : RegAt} {v : Nat} (h : P s) : P (State.tilePut s
    t r v).2 := by
  unfold State.tilePut
  repeat' first
    | with_reducible assumption | with_reducible refine hP.wr ?_ | with_reducible refine State.embPut_keeps hP ?_
    | with_reducible refine State.wrPlain_keeps hP ?_ | with_reducible refine State.commitRecipe_keeps hP ?_
    | with_reducible refine State.writeRecipe_keeps hP ?_ | with_reducible refine State.delayWrite_keeps hP ?_
    | with_reducible refine State.grnPut_keeps hP ?_ | with_reducible refine State.clearMixed_keeps hP ?_
    | with_reducible refine State.stepSet_keeps hP ?_ | with_reducible refine State.feedRegWrite_keeps hP ?_
    | with_reducible refine State.paletteWrite_keeps hP ?_ | with_reducible refine keeps_eq2 (by assumption) ?_
    | with_reducible refine ite_keeps2 ?_ ?_ | with_reducible refine ite_keeps ?_ ?_
    | (extract_lets +onlyGivenNames x; first | (refine (?_ : P x → _) ?_; rotate_left; unfold x; rotate_left; clear_value x; intro) | try clear_value x)
    | split | dsimp -zeta only

theorem State.portPut_keeps (hP : Closed P) {s : State} {p : Nat} {r : RegAt} {v : Nat} (h : P s) : P (State.portPut s
    p r v) := by
  unfold State.portPut
  repeat' first
    | with_reducible assumption | with_reducible refine State.lnkEnable_keeps hP ?_
    | with_reducible refine State.lnkRetrain_keeps hP ?_ | with_reducible refine State.lnkFullTrain_keeps hP ?_
    | with_reducible refine State.wrPlain_keeps hP ?_
    | (extract_lets +onlyGivenNames x; first | (refine (?_ : P x → _) ?_; rotate_left; unfold x; rotate_left; clear_value x; intro) | try clear_value x)
    | split | dsimp -zeta only

theorem State.netPut_keeps (hP : Closed P) {s : State} {r : RegAt} {v : Nat} (h : P s) : P (State.netPut s r v) := by
  unfold State.netPut
  repeat' first
    | with_reducible assumption | with_reducible refine State.wrPlain_keeps hP ?_ | split | dsimp -zeta only

theorem State.csrPut_keeps (hP : Closed P) {s : State} {off : Nat} {r : RegAt} {v : Nat} (h : P s) : P (State.csrPut s
    off r v).2 := by
  unfold State.csrPut
  repeat' first
    | with_reducible assumption | with_reducible refine State.hubPut_keeps hP ?_
    | with_reducible refine State.wrPlain_keeps hP ?_ | with_reducible refine State.portPut_keeps hP ?_
    | with_reducible refine State.netPut_keeps hP ?_ | with_reducible refine State.tilePut_keeps hP ?_
    | with_reducible refine keeps_eq2 (by assumption) ?_ | (extract_lets +onlyGivenNames x; try clear_value x) | split
    | dsimp -zeta only

theorem State.csrWrite_keeps (hP : Closed P) {s : State} {off : Nat} {n : Nat} {v : Nat} (h : P s) : P (State.csrWrite
    s off n v).2.2 := by
  unfold State.csrWrite
  repeat' first
    | with_reducible assumption | with_reducible refine State.csrPut_keeps hP ?_
    | with_reducible refine keeps_eq2 (by assumption) ?_ | split | dsimp -zeta only

theorem execRegisterWrite_keeps (hP : Closed P) {off : Nat} {bytes : Nat} {val : W64} {s : State} (h : P s) : AllNext
    P (execRegisterWrite off bytes val s) := by
  unfold execRegisterWrite
  repeat' first
    | with_reducible assumption | with_reducible refine AllNext.next ?_
    | with_reducible refine State.csrWrite_keeps hP ?_ | with_reducible refine keeps_eq3 (by assumption) ?_ | split
    | dsimp -zeta only

end Sys2Proof.Machine
end

