-- ==== Sys2Proof/Laws/KeepsBus.lean ====
section
/-!
SUPPORT. Laws/KeepsBus.lean: every function of Machine/Bus.lean keeps a closed property (Laws/Keeps.lean).
-/
set_option linter.unusedVariables false
set_option linter.tactic.unusedName false

namespace Sys2Proof.Machine

open Sys2Proof

variable {P : State → Prop}

theorem State.busRead_keeps (hP : Closed P) {s : State} {a : Nat} {n : Nat} (h : P s) : P (State.busRead s a n).2.2 :=
    by
  unfold State.busRead
  repeat' first
    | with_reducible assumption | with_reducible refine State.memRead_keeps hP ?_
    | with_reducible refine keeps_eq3 (by assumption) ?_ | (extract_lets +onlyGivenNames x; try clear_value x) | split
    | dsimp -zeta only

theorem noStatus_keeps {r : Code × Nat × State} (h : P r.2.2) : P (noStatus r).2 := h

theorem State.busWrite_keeps (hP : Closed P) {s : State} {own : Bool} {a : Nat} {b : List Byte} (h : P s) : P
    (State.busWrite s own a b).2 := by
  unfold State.busWrite
  repeat' first
    | with_reducible assumption | with_reducible refine noStatus_keeps ?_
    | with_reducible refine State.csrWrite_keeps hP ?_ | with_reducible refine State.memWrite_keeps hP ?_
    | with_reducible refine keeps_eq2 (by assumption) ?_ | with_reducible refine keeps_eq3 (by assumption) ?_ | split
    | dsimp -zeta only

theorem State.gReadAny_keeps (hP : Closed P) {s : State} {g : Nat} {n : Nat} (h : P s) : P (State.gReadAny s g n).2.2
    := by
  unfold State.gReadAny
  repeat' first
    | with_reducible assumption | with_reducible refine State.busRead_keeps hP ?_
    | with_reducible refine State.gRead_keeps hP ?_ | with_reducible refine keeps_eq3 (by assumption) ?_ | split
    | dsimp -zeta only

theorem State.gWriteAny_keeps (hP : Closed P) {s : State} {own : Bool} {g : Nat} {b : List Byte} (h : P s) : P
    (State.gWriteAny s own g b).2 := by
  unfold State.gWriteAny
  repeat' first
    | with_reducible assumption | with_reducible refine State.busWrite_keeps hP ?_
    | with_reducible refine State.gWrite_keeps hP ?_ | with_reducible refine keeps_eq2 (by assumption) ?_ | split
    | dsimp -zeta only

theorem State.move_keeps (hP : Closed P) {s : State} {own : Bool} {y3 : Nat} {y4 : Nat} {y5 : Nat} {y6 : Nat} {y7 :
    Nat} (h : P s) : P (State.move s own y3 y4 y5 y6 y7).2.2 := by
  induction y3 generalizing s own y4 y5 y6 y7 with
  | zero => exact h
  | succ n ih =>
    unfold State.move
    repeat' first
      | with_reducible assumption | with_reducible refine State.gReadAny_keeps hP ?_
      | with_reducible refine State.gWriteAny_keeps hP ?_ | with_reducible refine keeps_eq2 (by assumption) ?_
      | with_reducible refine keeps_eq3 (by assumption) ?_ | with_reducible apply ih
      | (extract_lets +onlyGivenNames x; try clear_value x) | split | dsimp -zeta only

theorem State.copy_keeps (hP : Closed P) {s : State} {own : Bool} {src : Nat} {dst : Nat} {n : Nat} (h : P s) : P
    (State.copy s own src dst n).2.2 := by
  unfold State.copy
  repeat' first
    | with_reducible assumption | with_reducible refine State.move_keeps hP ?_ | dsimp -zeta only

theorem State.dmaEnd_keeps (hP : Closed P) {s : State} {c : Nat} {x : DmaXfer} {code : Code} (h : P s) : P
    (State.dmaEnd s c x code) := by
  unfold State.dmaEnd
  repeat' first
    | with_reducible assumption | with_reducible refine State.orBits_keeps hP ?_
    | with_reducible refine State.setVe_keeps hP ?_
    | (extract_lets +onlyGivenNames x; first | (refine (?_ : P x → _) ?_; rotate_left; unfold x; rotate_left; clear_value x; intro) | try clear_value x)
    | split | dsimp -zeta only

theorem execDmaTransferComplete_keeps (hP : Closed P) {c : CoreId} {s : State} (h : P s) : AllNext P
    (execDmaTransferComplete c s) := by
  unfold execDmaTransferComplete
  repeat' first
    | with_reducible assumption | with_reducible refine AllNext.next ?_ | with_reducible refine State.copy_keeps hP ?_
    | with_reducible refine State.dmaEnd_keeps hP ?_ | with_reducible refine State.undef_keeps hP ?_
    | with_reducible refine keeps_eq3 (by assumption) ?_
    | (extract_lets +onlyGivenNames x; first | (refine (?_ : P x → _) ?_; rotate_left; unfold x; rotate_left; clear_value x; intro) | try clear_value x)
    | split | dsimp -zeta only

end Sys2Proof.Machine
end

