-- ==== Sys2Proof/Laws/KeepsCollect.lean ====
section
/-!
SUPPORT. Laws/KeepsCollect.lean: every function of Machine/Collect.lean keeps a closed property (Laws/Keeps.lean).
-/
set_option linter.unusedVariables false
set_option linter.tactic.unusedName false

namespace Sys2Proof.Machine

open Sys2Proof

variable {P : State → Prop}

theorem State.sendPiece_keeps (hP : Closed P) {s : State} {op : Nat} {t : Nat} {ord : Nat} {node : Nat} {y6 : Nat} {y7
    : Nat} {y8 : List Byte} (h : P s) : P (State.sendPiece s op t ord node y6 y7 y8) := by
  induction y6 generalizing s op t ord node y7 y8 with
  | zero => exact h
  | succ n ih =>
    unfold State.sendPiece
    repeat' first
      | with_reducible assumption | with_reducible refine State.sendMsg_keeps hP ?_ | with_reducible apply ih | split
      | dsimp -zeta only

theorem State.sendTo_keeps (hP : Closed P) {s : State} {op : Nat} {t : Nat} {ord : Nat} {axes : Nat} {piece : List
    Byte} {y7 : List Nat} (h : P s) : P (State.sendTo s op t ord axes piece y7) := by
  induction y7 generalizing s op t ord axes piece with
  | nil => exact h
  | cons x xs ih =>
    unfold State.sendTo
    repeat' first
      | with_reducible assumption | with_reducible refine State.sendPiece_keeps hP ?_ | with_reducible apply ih | split
      | dsimp -zeta only

theorem State.colEnd_keeps (hP : Closed P) {s : State} {t : Nat} {j : ColJob} {err : Option Bool} (h : P s) : P
    (State.colEnd s t j err) := by
  unfold State.colEnd
  repeat' first
    | with_reducible assumption | with_reducible refine State.keepOpen_keeps hP ?_
    | with_reducible refine State.partDone_keeps hP ?_ | with_reducible refine State.setCols_keeps hP ?_
    | (extract_lets +onlyGivenNames x; first | (refine (?_ : P x → _) ?_; rotate_left; unfold x; rotate_left; clear_value x; intro) | try clear_value x)
    | split | dsimp -zeta only

theorem State.colReduce_keeps (hP : Closed P) {s : State} {t : Nat} {j : ColJob} (h : P s) : P (State.colReduce s t j)
    := by
  unfold State.colReduce
  repeat' first
    | with_reducible assumption | with_reducible refine foldl_keeps (fun _ _ _ => ?_) ?_
    | with_reducible refine foldl_keeps2 (fun _ _ _ => ?_) ?_ | with_reducible refine State.orBits_keeps hP ?_
    | with_reducible refine State.countStep_keeps hP ?_ | with_reducible refine State.memWrite_keeps hP ?_
    | with_reducible refine State.colEnd_keeps hP ?_ | with_reducible refine keeps_eq2 (by assumption) ?_
    | (extract_lets +onlyGivenNames x; first | (refine (?_ : P x → _) ?_; rotate_left; unfold x; rotate_left; clear_value x; intro) | try clear_value x)
    | split | intro _ | dsimp -zeta only

theorem State.colCheck_keeps (hP : Closed P) {s : State} {t : Nat} {idx : Nat} {ord : Nat} (h : P s) : P
    (State.colCheck s t idx ord) := by
  unfold State.colCheck
  repeat' first
    | with_reducible assumption | with_reducible refine State.colReduce_keeps hP ?_
    | with_reducible refine State.colEnd_keeps hP ?_ | split | dsimp -zeta only

theorem State.colPut_keeps (hP : Closed P) {s : State} {t : Nat} {j : ColJob} {a : Nat} {b : List Byte} (h : P s) : P
    (State.colPut s t j a b) := by
  unfold State.colPut
  repeat' first
    | with_reducible assumption | with_reducible refine State.memWrite_keeps hP ?_
    | with_reducible refine State.colEnd_keeps hP ?_ | with_reducible refine keeps_eq2 (by assumption) ?_ | split
    | dsimp -zeta only

theorem State.colScatter_keeps (hP : Closed P) {s : State} {t : Nat} {j : ColJob} {src : Nat} {y5 : List Nat} (h : P
    s) : P (State.colScatter s t j src y5).2 := by
  induction y5 generalizing s t j src with
  | nil => exact h
  | cons x xs ih =>
    unfold State.colScatter
    repeat' first
      | with_reducible assumption | with_reducible refine State.memRead_keeps hP ?_
      | with_reducible refine State.sendTo_keeps hP ?_ | with_reducible refine keeps_eq2 (by assumption) ?_
      | with_reducible refine keeps_eq3 (by assumption) ?_ | with_reducible apply ih | split | dsimp -zeta only

theorem State.addCol_keeps (hP : Closed P) {s : State} {t : Nat} {j : ColJob} (h : P s) : P (State.addCol s t j) := by
  unfold State.addCol
  repeat' first
    | with_reducible assumption | with_reducible refine State.setCols_keeps hP ?_ | dsimp -zeta only

theorem State.colStart_keeps (hP : Closed P) {s : State} {t : Nat} {j : ColJob} {src : Nat} (h : P s) : P
    (State.colStart s t j src) := by
  unfold State.colStart
  repeat' first
    | with_reducible assumption | with_reducible refine State.addCol_keeps hP ?_
    | with_reducible refine State.colEnd_keeps hP ?_ | with_reducible refine State.colScatter_keeps hP ?_
    | with_reducible refine State.colCheck_keeps hP ?_ | with_reducible refine State.setCols_keeps hP ?_
    | with_reducible refine State.memRead_keeps hP ?_ | with_reducible refine State.sendTo_keeps hP ?_
    | with_reducible refine State.colPut_keeps hP ?_ | with_reducible refine keeps_eq2 (by assumption) ?_
    | with_reducible refine keeps_eq3 (by assumption) ?_
    | (extract_lets +onlyGivenNames x; first | (refine (?_ : P x → _) ?_; rotate_left; unfold x; rotate_left; clear_value x; intro) | try clear_value x)
    | split | dsimp -zeta only

theorem State.colSent_keeps (hP : Closed P) {s : State} {t : Nat} {j : ColJob} {lo : Nat} (h : P s) : P (State.colSent
    s t j lo) := by
  unfold State.colSent
  repeat' first
    | with_reducible assumption | with_reducible refine State.setCols_keeps hP ?_ | split | dsimp -zeta only

theorem State.colIssue_keeps (hP : Closed P) {s : State} {t : Nat} {idx : Nat} {addr : Nat} {count : Bool} (h : P s) :
    P (State.colIssue s t idx addr count) := by
  unfold State.colIssue
  repeat' first
    | with_reducible assumption | with_reducible refine State.setTile_keeps hP ?_
    | with_reducible refine State.partDone_keeps hP ?_ | with_reducible refine State.gRead_keeps hP ?_
    | with_reducible refine State.colSent_keeps hP ?_ | with_reducible refine State.colStart_keeps hP ?_
    | with_reducible refine State.mapFlight_keeps hP ?_ | with_reducible refine keeps_eq3 (by assumption) ?_
    | (extract_lets +onlyGivenNames x; first | (refine (?_ : P x → _) ?_; rotate_left; unfold x; rotate_left; clear_value x; intro) | try clear_value x)
    | split | dsimp -zeta only

theorem State.colTake_keeps (hP : Closed P) {s : State} {t : Nat} {j : ColJob} {m : InMsg} (h : P s) : P
    (State.colTake s t j m) := by
  unfold State.colTake
  repeat' first
    | with_reducible assumption | with_reducible refine State.setCols_keeps hP ?_
    | with_reducible refine State.colEnd_keeps hP ?_ | with_reducible refine State.colPut_keeps hP ?_
    | with_reducible refine State.colCheck_keeps hP ?_
    | (extract_lets +onlyGivenNames x; first | (refine (?_ : P x → _) ?_; rotate_left; unfold x; rotate_left; clear_value x; intro) | try clear_value x)
    | split | dsimp -zeta only

theorem execCollectiveMessage_keeps (hP : Closed P) {s : State} (h : P s) : AllNext P (execCollectiveMessage s) := by
  unfold execCollectiveMessage
  repeat' first
    | with_reducible assumption | exact rfl | with_reducible refine AllNext.next ?_
    | with_reducible refine State.bump_keeps hP ?_ | with_reducible refine State.colTake_keeps hP ?_
    | (rw [State.mk_rest]; with_reducible refine hP.rest ?_ ?_)
    | (extract_lets +onlyGivenNames x; first | (refine (?_ : P x → _) ?_; rotate_left; unfold x; rotate_left; clear_value x; intro) | try clear_value x)
    | split | dsimp -zeta only

theorem State.colDiscard_keeps (hP : Closed P) {s : State} {t : Nat} (h : P s) : P (State.colDiscard s t).2 := by
  unfold State.colDiscard
  repeat' first
    | with_reducible assumption | exact rfl | with_reducible refine foldl_keeps (fun _ _ _ => ?_) ?_
    | with_reducible refine foldl_keeps2 (fun _ _ _ => ?_) ?_ | with_reducible refine State.setCols_keeps hP ?_
    | (rw [State.mk_rest]; with_reducible refine hP.rest ?_ ?_) | (extract_lets +onlyGivenNames x; try clear_value x)
    | intro _ | dsimp -zeta only

theorem State.flagDiscard_keeps (hP : Closed P) {s : State} (h : P s) : P (State.flagDiscard s).2 := by
  unfold State.flagDiscard
  repeat' first
    | with_reducible assumption | exact rfl | with_reducible refine State.colDiscard_keeps hP ?_
    | (rw [State.mk_rest]; with_reducible refine hP.rest ?_ ?_) | with_reducible refine keeps_eq2 (by assumption) ?_
    | (extract_lets +onlyGivenNames x; try clear_value x) | split | dsimp -zeta only

theorem State.colDiscardAll_keeps (hP : Closed P) {s : State} (h : P s) : P (State.colDiscardAll s).2 := by
  unfold State.colDiscardAll
  repeat' first
    | with_reducible assumption | with_reducible refine State.colDiscard_keeps hP ?_
    | with_reducible refine State.flagDiscard_keeps hP ?_ | with_reducible refine keeps_eq2 (by assumption) ?_ | split
    | dsimp -zeta only

end Sys2Proof.Machine
end

