-- ==== Sys2Proof/Laws/KeepsSeq.lean ====
section
/-!
SUPPORT. Laws/KeepsSeq.lean: every function of Machine/Seq.lean keeps a closed property (Laws/Keeps.lean).
-/
set_option linter.unusedVariables false
set_option linter.tactic.unusedName false

namespace Sys2Proof.Machine

open Sys2Proof

variable {P : State → Prop}

theorem State.launch_keeps (hP : Closed P) {s : State} {t : Nat} {d : List Byte} {parts : Nat} {waiting : List Nat}
    {err : Option Bool} (h : P s) : P (State.launch s t d parts waiting err) := by
  unfold State.launch
  repeat' first
    | with_reducible assumption | with_reducible refine State.setTile_keeps hP ?_
    | (extract_lets +onlyGivenNames x; try clear_value x) | dsimp -zeta only

theorem State.issue_keeps (hP : Closed P) {s : State} {t kind : Nat} {gate : List Byte → Bool}
    {body : State → Nat → List Byte → State} (hb : ∀ s i d, P s → P (body s i d)) (h : P s) :
    P (s.issue t kind gate body) := by
  unfold State.issue
  repeat' first
    | with_reducible assumption | with_reducible refine hb _ _ _ ?_ | with_reducible refine State.launch_keeps hP ?_
    | split

theorem execNopDesc_keeps (hP : Closed P) {t : TileId} {s : State} (h : P s) : AllNext P (execNopDesc t s) := by
  unfold execNopDesc
  repeat' first
    | with_reducible assumption | with_reducible refine AllNext.next ?_
    | with_reducible refine State.issue_keeps hP (fun _ _ _ _ => ?_) ?_
    | with_reducible refine State.partDone_keeps hP ?_ | intro _ | dsimp -zeta only

theorem State.shareOut_keeps (hP : Closed P) {s : State} {t : Nat} {idx : Nat} {d : List Byte} (h : P s) : P
    (State.shareOut s t idx d) := by
  unfold State.shareOut
  repeat' first
    | with_reducible assumption | with_reducible refine State.partDone_keeps hP ?_
    | with_reducible refine State.mapFlight_keeps hP ?_ | split | dsimp -zeta only

theorem execMatmul_keeps (hP : Closed P) {t : TileId} {s : State} (h : P s) : AllNext P (execMatmul t s) := by
  unfold execMatmul
  repeat' first
    | with_reducible assumption | with_reducible refine AllNext.next ?_
    | with_reducible refine State.issue_keeps hP (fun _ _ _ _ => ?_) ?_
    | with_reducible refine State.shareOut_keeps hP ?_ | intro _ | dsimp -zeta only

theorem execVeRun_keeps (hP : Closed P) {t : TileId} {s : State} (h : P s) : AllNext P (execVeRun t s) := by
  unfold execVeRun
  repeat' first
    | with_reducible assumption | with_reducible refine AllNext.next ?_
    | with_reducible refine State.issue_keeps hP (fun _ _ _ _ => ?_) ?_
    | with_reducible refine State.shareOut_keeps hP ?_ | intro _ | dsimp -zeta only

theorem State.handShare_keeps (hP : Closed P) {s : State} {t : Nat} {c : Nat} {i : InFlight} (h : P s) : P
    (State.handShare s t c i) := by
  unfold State.handShare
  repeat' first
    | with_reducible assumption | with_reducible refine State.mapFlight_keeps hP ?_
    | with_reducible refine State.meAdvance_keeps hP ?_ | with_reducible refine State.setMe_keeps hP ?_
    | with_reducible refine State.vePromote_keeps hP ?_ | with_reducible refine State.setVe_keeps hP ?_
    | (extract_lets +onlyGivenNames x; first | (refine (?_ : P x → _) ?_; rotate_left; unfold x; rotate_left; clear_value x; intro) | try clear_value x)
    | split | dsimp -zeta only

theorem execShareDispatch_keeps (hP : Closed P) {t : TileId} {c : CoreId} {s : State} (h : P s) : AllNext P
    (execShareDispatch t c s) := by
  unfold execShareDispatch
  repeat' first
    | with_reducible assumption | with_reducible refine AllNext.next ?_
    | with_reducible refine State.handShare_keeps hP ?_ | with_reducible refine State.poolDispatch_keeps hP ?_
    | (extract_lets +onlyGivenNames x; try clear_value x) | split | dsimp -zeta only

theorem execEmbLookup_keeps (hP : Closed P) {t : TileId} {s : State} (h : P s) : AllNext P (execEmbLookup t s) := by
  unfold execEmbLookup
  repeat' first
    | with_reducible assumption | with_reducible refine AllNext.next ?_
    | with_reducible refine State.issue_keeps hP (fun _ _ _ _ => ?_) ?_
    | with_reducible refine State.lookupIssue_keeps hP ?_ | intro _ | dsimp -zeta only

theorem execEmbGrad_keeps (hP : Closed P) {t : TileId} {s : State} (h : P s) : AllNext P (execEmbGrad t s) := by
  unfold execEmbGrad
  repeat' first
    | with_reducible assumption | with_reducible refine AllNext.next ?_
    | with_reducible refine State.issue_keeps hP (fun _ _ _ _ => ?_) ?_
    | with_reducible refine State.gradIssue_keeps hP ?_ | intro _ | dsimp -zeta only

theorem execEmbApply_keeps (hP : Closed P) {t : TileId} {s : State} (h : P s) : AllNext P (execEmbApply t s) := by
  unfold execEmbApply
  repeat' first
    | with_reducible assumption | with_reducible refine AllNext.next ?_
    | with_reducible refine State.issue_keeps hP (fun _ _ _ _ => ?_) ?_
    | with_reducible refine State.applyIssue_keeps hP ?_ | with_reducible refine State.partDone_keeps hP ?_ | split
    | intro _ | dsimp -zeta only

theorem execPrefetch_keeps (hP : Closed P) {t : TileId} {s : State} (h : P s) : AllNext P (execPrefetch t s) := by
  unfold execPrefetch
  repeat' first
    | with_reducible assumption | with_reducible refine AllNext.next ?_
    | with_reducible refine State.issue_keeps hP (fun _ _ _ _ => ?_) ?_
    | with_reducible refine State.prefetchIssue_keeps hP ?_ | intro _ | dsimp -zeta only

theorem execEaselLoad_keeps (hP : Closed P) {t : TileId} {s : State} (h : P s) : AllNext P (execEaselLoad t s) := by
  unfold execEaselLoad
  repeat' first
    | with_reducible assumption | with_reducible refine AllNext.next ?_
    | with_reducible refine State.issue_keeps hP (fun _ _ _ _ => ?_) ?_
    | with_reducible refine State.partDone_keeps hP ?_ | with_reducible refine State.copy_keeps hP ?_
    | with_reducible refine keeps_eq3 (by assumption) ?_ | (extract_lets +onlyGivenNames x; try clear_value x) | split
    | intro _ | dsimp -zeta only

theorem State.easelWaited_keeps (hP : Closed P) {s : State} {t : Nat} {layer : Nat} {ns : Nat} (h : P s) : P
    (State.easelWaited s t layer ns) := by
  unfold State.easelWaited
  repeat' first
    | with_reducible assumption | with_reducible refine hP.wr ?_ | with_reducible refine State.sample_keeps hP ?_
    | with_reducible refine State.bump_keeps hP ?_ | dsimp -zeta only

theorem execEaselFence_keeps (hP : Closed P) {t : TileId} {waitNs : Nat} {s : State} (h : P s) : AllNext P
    (execEaselFence t waitNs s) := by
  unfold execEaselFence
  repeat' first
    | with_reducible assumption | with_reducible refine AllNext.next ?_
    | with_reducible refine State.issue_keeps hP (fun _ _ _ _ => ?_) ?_
    | with_reducible refine State.partDone_keeps hP ?_ | with_reducible refine State.bump_keeps hP ?_
    | with_reducible refine State.easelWaited_keeps hP ?_ | intro _ | dsimp -zeta only

theorem execWindowTimeout_keeps (hP : Closed P) {t : TileId} {s : State} (h : P s) : AllNext P (execWindowTimeout t s)
    := by
  unfold execWindowTimeout
  repeat' first
    | with_reducible assumption | with_reducible refine AllNext.next ?_
    | with_reducible refine State.easelWaited_keeps hP ?_ | with_reducible refine State.launch_keeps hP ?_
    | with_reducible refine State.fault_keeps hP ?_ | with_reducible refine State.raise_keeps hP ?_
    | with_reducible refine State.bump_keeps hP ?_
    | (extract_lets +onlyGivenNames x; first | (refine (?_ : P x → _) ?_; rotate_left; unfold x; rotate_left; clear_value x; intro) | try clear_value x)
    | split | dsimp -zeta only

theorem State.colRow_keeps (hP : Closed P) {s : State} {t : Nat} {op : Nat} (h : P s) : P (State.colRow s t op) := by
  unfold State.colRow
  repeat' first
    | with_reducible assumption | with_reducible refine State.launch_keeps hP ?_
    | with_reducible refine State.setTile_keeps hP ?_ | with_reducible refine State.colIssue_keeps hP ?_
    | (extract_lets +onlyGivenNames x; first | (refine (?_ : P x → _) ?_; rotate_left; unfold x; rotate_left; clear_value x; intro) | try clear_value x)
    | split | dsimp -zeta only

theorem execAllGather_keeps (hP : Closed P) {t : TileId} {s : State} (h : P s) : AllNext P (execAllGather t s) := by
  unfold execAllGather
  repeat' first
    | with_reducible assumption | with_reducible refine AllNext.next ?_
    | with_reducible refine State.colRow_keeps hP ?_ | dsimp -zeta only

theorem execReduceScatter_keeps (hP : Closed P) {t : TileId} {s : State} (h : P s) : AllNext P (execReduceScatter t s)
    := by
  unfold execReduceScatter
  repeat' first
    | with_reducible assumption | with_reducible refine AllNext.next ?_
    | with_reducible refine State.colRow_keeps hP ?_ | dsimp -zeta only

theorem execAllReduce_keeps (hP : Closed P) {t : TileId} {s : State} (h : P s) : AllNext P (execAllReduce t s) := by
  unfold execAllReduce
  repeat' first
    | with_reducible assumption | with_reducible refine AllNext.next ?_
    | with_reducible refine State.colRow_keeps hP ?_ | dsimp -zeta only

theorem execColBroadcast_keeps (hP : Closed P) {t : TileId} {s : State} (h : P s) : AllNext P (execColBroadcast t s)
    := by
  unfold execColBroadcast
  repeat' first
    | with_reducible assumption | with_reducible refine AllNext.next ?_
    | with_reducible refine State.colRow_keeps hP ?_ | dsimp -zeta only

theorem execColShift_keeps (hP : Closed P) {t : TileId} {s : State} (h : P s) : AllNext P (execColShift t s) := by
  unfold execColShift
  repeat' first
    | with_reducible assumption | with_reducible refine AllNext.next ?_
    | with_reducible refine State.colRow_keeps hP ?_ | dsimp -zeta only

theorem execQuantDesc_keeps (hP : Closed P) {t : TileId} {s : State} (h : P s) : AllNext P (execQuantDesc t s) := by
  unfold execQuantDesc
  repeat' first
    | with_reducible assumption | with_reducible refine AllNext.next ?_
    | with_reducible refine State.issue_keeps hP (fun _ _ _ _ => ?_) ?_
    | with_reducible refine State.setQzt_keeps hP ?_ | (extract_lets +onlyGivenNames x; try clear_value x) | intro _
    | dsimp -zeta only

theorem execUpdateDesc_keeps (hP : Closed P) {t : TileId} {s : State} (h : P s) : AllNext P (execUpdateDesc t s) := by
  unfold execUpdateDesc
  repeat' first
    | with_reducible assumption | with_reducible refine AllNext.next ?_
    | with_reducible refine State.issue_keeps hP (fun _ _ _ _ => ?_) ?_
    | with_reducible refine State.updateIssue_keeps hP ?_ | with_reducible refine State.partDone_keeps hP ?_ | split
    | intro _ | dsimp -zeta only

theorem State.copyIssue_keeps (hP : Closed P) {s : State} {t : Nat} {idx : Nat} {n : Nat} {src : Nat} {dst : Nat} (h :
    P s) : P (State.copyIssue s t idx n src dst) := by
  unfold State.copyIssue
  repeat' first
    | with_reducible assumption | with_reducible refine State.partDone_keeps hP ?_
    | with_reducible refine State.copy_keeps hP ?_ | with_reducible refine keeps_eq3 (by assumption) ?_ | split
    | dsimp -zeta only

theorem execCopyDesc_keeps (hP : Closed P) {t : TileId} {s : State} (h : P s) : AllNext P (execCopyDesc t s) := by
  unfold execCopyDesc
  repeat' first
    | with_reducible assumption | with_reducible refine AllNext.next ?_
    | with_reducible refine State.issue_keeps hP (fun _ _ _ _ => ?_) ?_
    | with_reducible refine State.copyIssue_keeps hP ?_ | intro _ | dsimp -zeta only

theorem execMemFence_keeps (hP : Closed P) {t : TileId} {s : State} (h : P s) : AllNext P (execMemFence t s) := by
  unfold execMemFence
  repeat' first
    | with_reducible assumption | with_reducible refine AllNext.next ?_
    | with_reducible refine State.issue_keeps hP (fun _ _ _ _ => ?_) ?_
    | with_reducible refine State.partDone_keeps hP ?_ | split | intro _ | dsimp -zeta only

theorem State.sendFlags_keeps (hP : Closed P) {s : State} {w : Nat} {y3 : List Nat} (h : P s) : P (State.sendFlags s w
    y3) := by
  induction y3 generalizing s w with
  | nil => exact h
  | cons x xs ih =>
    unfold State.sendFlags
    repeat' first
      | with_reducible assumption | with_reducible refine State.sendPiece_keeps hP ?_ | with_reducible apply ih | split
      | dsimp -zeta only

theorem State.reduceJoin_keeps (hP : Closed P) {s : State} (h : P s) : P (State.reduceJoin s) := by
  unfold State.reduceJoin
  repeat' first
    | with_reducible assumption | exact rfl | with_reducible refine State.reduceSamples_keeps hP ?_
    | with_reducible refine State.sendFlags_keeps hP ?_ | (rw [State.mk_rest]; with_reducible refine hP.rest ?_ ?_)
    | (extract_lets +onlyGivenNames x; first | (refine (?_ : P x → _) ?_; rotate_left; unfold x; rotate_left; clear_value x; intro) | try clear_value x)
    | dsimp -zeta only

theorem execFlagReduce_keeps (hP : Closed P) {t : TileId} {s : State} (h : P s) : AllNext P (execFlagReduce t s) := by
  unfold execFlagReduce
  repeat' first
    | with_reducible assumption | with_reducible refine AllNext.next ?_
    | with_reducible refine State.launch_keeps hP ?_ | with_reducible refine State.reduceJoin_keeps hP ?_
    | (extract_lets +onlyGivenNames x; first | (refine (?_ : P x → _) ?_; rotate_left; unfold x; rotate_left; clear_value x; intro) | try clear_value x)
    | split | dsimp -zeta only

theorem execFlagReduceResult_keeps (hP : Closed P) {peers : W64} {s : State} (h : P s) : AllNext P
    (execFlagReduceResult peers s) := by
  unfold execFlagReduceResult
  repeat' first
    | with_reducible assumption | exact rfl | with_reducible refine hP.wr ?_ | with_reducible refine AllNext.next ?_
    | with_reducible refine State.sample_keeps hP ?_ | with_reducible refine State.keepOpen_keeps hP ?_
    | with_reducible refine State.eachTile_keeps (fun _ _ _ => ?_) ?_
    | with_reducible refine State.partDone_keeps hP ?_ | with_reducible refine State.endStep_keeps hP ?_
    | with_reducible refine State.noteCause_keeps hP ?_ | (rw [State.mk_rest]; with_reducible refine hP.rest ?_ ?_)
    | (extract_lets +onlyGivenNames x; first | (refine (?_ : P x → _) ?_; rotate_left; unfold x; rotate_left; clear_value x; intro) | try clear_value x)
    | split | intro _ | dsimp -zeta only

theorem execEndStep_keeps (hP : Closed P) {t : TileId} {s : State} (h : P s) : AllNext P (execEndStep t s) := by
  unfold execEndStep
  repeat' first
    | with_reducible assumption | with_reducible refine AllNext.next ?_
    | with_reducible refine State.launch_keeps hP ?_ | split | dsimp -zeta only

theorem State.complete_keeps (hP : Closed P) {s : State} {t : Nat} {i : InFlight} (h : P s) : P (State.complete s t i)
    := by
  unfold State.complete
  repeat' first
    | with_reducible assumption | with_reducible refine State.setTile_keeps hP ?_
    | (extract_lets +onlyGivenNames x; try clear_value x) | split | dsimp -zeta only

theorem execDescriptorComplete_keeps (hP : Closed P) {t : TileId} {idx : Nat} {s : State} (h : P s) : AllNext P
    (execDescriptorComplete t idx s) := by
  unfold execDescriptorComplete
  repeat' first
    | with_reducible assumption | with_reducible refine AllNext.next ?_
    | with_reducible refine State.embPump_keeps hP ?_ | with_reducible refine State.complete_keeps hP ?_ | split
    | dsimp -zeta only

theorem State.dropLeft_keeps (hP : Closed P) {s : State} {t : Nat} (h : P s) : P (State.dropLeft s t) := by
  unfold State.dropLeft
  repeat' first
    | with_reducible assumption | with_reducible refine State.ueStop_keeps hP ?_
    | with_reducible refine State.setEmbt_keeps hP ?_ | with_reducible refine State.setQzt_keeps hP ?_
    | with_reducible refine State.setCols_keeps hP ?_
    | (extract_lets +onlyGivenNames x; first | (refine (?_ : P x → _) ?_; rotate_left; unfold x; rotate_left; clear_value x; intro) | try clear_value x)
    | dsimp -zeta only

theorem State.startTile_keeps (hP : Closed P) {s : State} {t : Nat} (h : P s) : P (State.startTile s t) := by
  unfold State.startTile
  repeat' first
    | with_reducible assumption | with_reducible refine hP.wr ?_ | with_reducible refine State.dropLeft_keeps hP ?_
    | with_reducible refine State.setTile_keeps hP ?_ | with_reducible refine State.openSegment_keeps hP ?_
    | with_reducible refine State.feedCopy_keeps hP ?_ | with_reducible refine State.setFeedT_keeps hP ?_
    | (extract_lets +onlyGivenNames x; first | (refine (?_ : P x → _) ?_; rotate_left; unfold x; rotate_left; clear_value x; intro) | try clear_value x)
    | dsimp -zeta only

theorem execStepStart_keeps (hP : Closed P) {s : State} (h : P s) : AllNext P (execStepStart s) := by
  unfold execStepStart
  repeat' first
    | with_reducible assumption | exact rfl | with_reducible refine AllNext.next ?_
    | with_reducible refine State.keepOpen_keeps hP ?_
    | with_reducible refine State.eachTile_keeps (fun _ _ _ => ?_) ?_ | with_reducible refine State.sample_keeps hP ?_
    | with_reducible refine State.takeCap_keeps hP ?_ | with_reducible refine State.latchConsts_keeps hP ?_
    | with_reducible refine State.quantStepStart_keeps hP ?_ | with_reducible refine State.startTile_keeps hP ?_
    | (rw [State.mk_rest]; with_reducible refine hP.rest ?_ ?_)
    | (extract_lets +onlyGivenNames x; first | (refine (?_ : P x → _) ?_; rotate_left; unfold x; rotate_left; clear_value x; intro) | try clear_value x)
    | split | intro _ | dsimp -zeta only

theorem execFeedCopyEnd_keeps (hP : Closed P) {t : TileId} {s : State} (h : P s) : AllNext P (execFeedCopyEnd t s) :=
    by
  unfold execFeedCopyEnd
  repeat' first
    | with_reducible assumption | with_reducible refine AllNext.next ?_
    | with_reducible refine State.setFeedT_keeps hP ?_ | (extract_lets +onlyGivenNames x; try clear_value x) | split
    | dsimp -zeta only

theorem execFeedTimeout_keeps (hP : Closed P) {s : State} (h : P s) : AllNext P (execFeedTimeout s) := by
  unfold execFeedTimeout
  repeat' first
    | with_reducible assumption | with_reducible refine AllNext.next ?_
    | with_reducible refine State.faultAtOnce_keeps hP ?_ | split | dsimp -zeta only

end Sys2Proof.Machine
end

