-- ==== Sys2Proof/Laws/KeepsLayout.lean ====
section
/-!
SUPPORT. Laws/KeepsLayout.lean: every function of Machine/Layout.lean keeps a closed property (Laws/Keeps.lean).
-/
set_option linter.unusedVariables false
set_option linter.tactic.unusedName false

namespace Sys2Proof.Machine

open Sys2Proof

variable {P : State → Prop}

theorem State.barrierOut_keeps (hP : Closed P) {s : State} {phase : Nat} (h : P s) : P (State.barrierOut s phase) :=
    by
  unfold State.barrierOut
  repeat' first
    | with_reducible assumption | with_reducible refine hP.emit ?_ | split | dsimp -zeta only

theorem State.clearCame_keeps (hP : Closed P) {s : State} {p : BarrierMsg → Bool} (h : P s) : P (State.clearCame s p)
    := by
  unfold State.clearCame
  repeat' first
    | with_reducible assumption | exact rfl | (rw [State.mk_rest]; with_reducible refine hP.rest ?_ ?_)
    | (extract_lets +onlyGivenNames x; try clear_value x) | dsimp -zeta only

theorem State.forceDiscard_keeps (hP : Closed P) {s : State} (h : P s) : P (State.forceDiscard s) := by
  unfold State.forceDiscard
  repeat' first
    | with_reducible assumption | with_reducible refine State.colDiscardAll_keeps hP ?_
    | with_reducible refine State.bump_keeps hP ?_ | with_reducible refine State.raise_keeps hP ?_
    | with_reducible refine keeps_eq2 (by assumption) ?_
    | (extract_lets +onlyGivenNames x; first | (refine (?_ : P x → _) ?_; rotate_left; unfold x; rotate_left; clear_value x; intro) | try clear_value x)
    | split | dsimp -zeta only

theorem State.setWaiting_keeps (hP : Closed P) {s : State} {w : Bool} (h : P s) : P (State.setWaiting s w) := by
  unfold State.setWaiting
  repeat' first
    | with_reducible assumption | exact rfl | (rw [State.mk_rest]; with_reducible refine hP.rest ?_ ?_)
    | (extract_lets +onlyGivenNames x; try clear_value x) | dsimp -zeta only

theorem State.commitOrder3_keeps (hP : Closed P) {s : State} {b : List Byte} (h : P s) : P (State.commitOrder3 s b) :=
    by
  unfold State.commitOrder3
  repeat' first
    | with_reducible assumption | with_reducible refine State.writeBack_keeps hP ?_
    | with_reducible refine State.wrf_keeps hP ?_ | with_reducible refine keeps_eq2 (by assumption) ?_
    | (extract_lets +onlyGivenNames x; first | (refine (?_ : P x → _) ?_; rotate_left; unfold x; rotate_left; clear_value x; intro) | try clear_value x)
    | split | dsimp -zeta only

theorem State.changeGone_keeps (hP : Closed P) {s : State} (h : P s) : P (State.changeGone s) := by
  unfold State.changeGone
  repeat' first
    | with_reducible assumption | with_reducible refine State.pendingEnds_keeps hP ?_ | split | dsimp -zeta only

theorem State.moveEntry_keeps (hP : Closed P) {s : State} {e : List Byte} (h : P s) : P (State.moveEntry s e).2 := by
  unfold State.moveEntry
  repeat' first
    | with_reducible assumption | with_reducible refine State.copy_keeps hP ?_
    | with_reducible refine keeps_eq3 (by assumption) ?_ | (extract_lets +onlyGivenNames x; try clear_value x) | split
    | dsimp -zeta only

theorem State.moveAll_keeps (hP : Closed P) {s : State} {list : Nat} {y3 : Nat} {y4 : Nat} (h : P s) : P
    (State.moveAll s list y3 y4).2 := by
  induction y3 generalizing s list y4 with
  | zero => exact h
  | succ n ih =>
    unfold State.moveAll
    repeat' first
      | with_reducible assumption | with_reducible refine State.gRead_keeps hP ?_
      | with_reducible refine State.moveEntry_keeps hP ?_ | with_reducible refine keeps_eq2 (by assumption) ?_
      | with_reducible refine keeps_eq3 (by assumption) ?_ | with_reducible apply ih | split | dsimp -zeta only

theorem State.axisPorts_keeps (hP : Closed P) {s : State} {old : List Nat} {p : Nat} (h : P s) : P (State.axisPorts s
    old p) := by
  unfold State.axisPorts
  repeat' first
    | with_reducible assumption | with_reducible refine State.linkDown_keeps hP ?_
    | with_reducible refine State.setLinkSt_keeps hP ?_ | (extract_lets +onlyGivenNames x; try clear_value x) | split
    | dsimp -zeta only

theorem State.commitEnd_keeps (hP : Closed P) {s : State} {b : List Byte} (h : P s) : P (State.commitEnd s b) := by
  unfold State.commitEnd
  repeat' first
    | with_reducible assumption | exact rfl | with_reducible refine hP.wr ?_
    | with_reducible refine foldl_keeps (fun _ _ _ => ?_) ?_ | with_reducible refine foldl_keeps2 (fun _ _ _ => ?_) ?_
    | with_reducible refine State.moveAll_keeps hP ?_ | with_reducible refine State.newWindow_keeps hP ?_
    | with_reducible refine State.emptyDir_keeps hP ?_ | with_reducible refine State.wrf_keeps hP ?_
    | with_reducible refine State.axisPorts_keeps hP ?_ | with_reducible refine State.timeCommit_keeps hP ?_
    | with_reducible refine State.reIdent_keeps hP ?_ | with_reducible refine State.raise_keeps hP ?_
    | with_reducible refine State.bump_keeps hP ?_ | (rw [State.mk_rest]; with_reducible refine hP.rest ?_ ?_)
    | with_reducible refine keeps_eq2 (by assumption) ?_
    | (extract_lets +onlyGivenNames x; first | (refine (?_ : P x → _) ?_; rotate_left; unfold x; rotate_left; clear_value x; intro) | try clear_value x)
    | split | intro _ | dsimp -zeta only

theorem State.parityInstall_keeps (hP : Closed P) {s : State} {m : Nat} {rank : Nat} {base : Nat} {gbase : Nat}
    {ranges : List (Nat × Nat)} (h : P s) : P (State.parityInstall s m rank base gbase ranges) := by
  unfold State.parityInstall
  repeat' first
    | with_reducible assumption | with_reducible refine hP.wr ?_
    | with_reducible refine foldl_keeps (fun _ _ _ => ?_) ?_ | with_reducible refine foldl_keeps2 (fun _ _ _ => ?_) ?_
    | (extract_lets +onlyGivenNames x; first | (refine (?_ : P x → _) ?_; rotate_left; unfold x; rotate_left; clear_value x; intro) | try clear_value x)
    | split | intro _ | dsimp -zeta only

theorem State.layFenceStart_keeps (hP : Closed P) {s : State} (h : P s) : P (State.layFenceStart s) := by
  unfold State.layFenceStart
  repeat' first
    | with_reducible assumption | with_reducible refine State.barrierOut_keeps hP ?_
    | with_reducible refine State.reIdent_keeps hP ?_ | with_reducible refine State.wrf_keeps hP ?_
    | with_reducible refine State.setWaiting_keeps hP ?_ | dsimp -zeta only

theorem State.layFenceEnd_keeps (hP : Closed P) {s : State} {reshard : Bool} {status : Nat} (h : P s) : P
    (State.layFenceEnd s reshard status) := by
  unfold State.layFenceEnd
  repeat' first
    | with_reducible assumption | exact rfl | with_reducible refine foldl_keeps (fun _ _ _ => ?_) ?_
    | with_reducible refine foldl_keeps2 (fun _ _ _ => ?_) ?_ | with_reducible refine State.wrf_keeps hP ?_
    | with_reducible refine State.judgeCoord_keeps hP ?_ | with_reducible refine State.pendingEnds_keeps hP ?_
    | (rw [State.mk_rest]; with_reducible refine hP.rest ?_ ?_)
    | (extract_lets +onlyGivenNames x; first | (refine (?_ : P x → _) ?_; rotate_left; unfold x; rotate_left; clear_value x; intro) | try clear_value x)
    | split | intro _ | dsimp -zeta only

theorem State.layCommitted_keeps (hP : Closed P) {s : State} {b : List Byte} (h : P s) : P (State.layCommitted s b) :=
    by
  unfold State.layCommitted
  repeat' first
    | with_reducible assumption | with_reducible refine State.barrierOut_keeps hP ?_
    | with_reducible refine State.commitEnd_keeps hP ?_ | with_reducible refine State.clearCame_keeps hP ?_
    | dsimp -zeta only

theorem execLayoutCompletionBarrier_keeps (hP : Closed P) {w : LayWait} {s : State} (h : P s) : AllNext P
    (execLayoutCompletionBarrier w s) := by
  unfold execLayoutCompletionBarrier
  repeat' first
    | with_reducible assumption | with_reducible refine AllNext.next ?_
    | with_reducible refine State.layFenceEnd_keeps hP ?_ | split | dsimp -zeta only

theorem State.markUnit_keeps (hP : Closed P) {s : State} {a : Nat} (h : P s) : P (State.markUnit s a) := by
  unfold State.markUnit
  repeat' first
    | with_reducible assumption | exact rfl | (rw [State.mk_rest]; with_reducible refine hP.rest ?_ ?_)
    | dsimp -zeta only

theorem State.rebuildUnit_keeps (hP : Closed P) {s : State} {a : Nat} {y3 : Recon} (h : P s) : P (State.rebuildUnit s
    a y3).2 := by
  unfold State.rebuildUnit
  repeat' first
    | with_reducible assumption | with_reducible refine hP.poke ?_
    | with_reducible refine State.releaseTorn_keeps hP ?_ | with_reducible refine State.markUnit_keeps hP ?_
    | with_reducible refine State.orBits_keeps hP ?_ | split | dsimp -zeta only

theorem State.storeRebuilt_keeps (hP : Closed P) {s : State} {y2 : List (Nat × Recon)} (h : P s) : P
    (State.storeRebuilt s y2).2 := by
  induction y2 generalizing s with
  | nil => exact h
  | cons x xs ih =>
    unfold State.storeRebuilt
    repeat' first
      | with_reducible assumption | with_reducible refine State.rebuildUnit_keeps hP ?_
      | with_reducible refine keeps_eq2 (by assumption) ?_ | with_reducible apply ih | split | dsimp -zeta only

end Sys2Proof.Machine
end

