-- ==== Sys2Proof/Laws/KeepsResets.lean ====
section
/-!
SUPPORT. Laws/KeepsResets.lean: every function of Machine/Resets.lean keeps a closed property (Laws/Keeps.lean).
-/
set_option linter.unusedVariables false
set_option linter.tactic.unusedName false

namespace Sys2Proof.Machine

open Sys2Proof

variable {P : State → Prop}

theorem State.after_keeps {s : State} {f : State → Host.Outcome State Fault Refusal} (hf : ∀ s, P s → AllNext P (f s))
    (h : P s) : P (s.after f) := by
  unfold State.after
  split
  · exact hf _ h _ (by assumption)
  · exact h

theorem State.abortChain_keeps (hP : Closed P) {s : State} {c : Nat} {ch : MeChain} (h : P s) : P (State.abortChain s
    c ch) := by
  unfold State.abortChain
  repeat' first
    | with_reducible assumption | with_reducible refine State.redRun_keeps hP ?_
    | with_reducible refine State.orBits_keeps hP ?_ | with_reducible refine State.chainConvert_keeps hP ?_
    | with_reducible refine State.chainFinal_keeps hP ?_ | with_reducible refine State.markLayer_keeps hP ?_
    | with_reducible refine keeps_eq2 (by assumption) ?_
    | (extract_lets +onlyGivenNames x; first | (refine (?_ : P x.2 → _) ?_; rotate_left; unfold x; rotate_left; clear_value x; intro) | (refine (?_ : P x → _) ?_; rotate_left; unfold x; rotate_left; clear_value x; intro) | try clear_value x)
    | split | dsimp -zeta only

theorem State.abortChains_keeps (hP : Closed P) {s : State} {c : Nat} {y3 : List MeChain} (h : P s) : P
    (State.abortChains s c y3) := by
  induction y3 generalizing s c with
  | nil => exact h
  | cons x xs ih =>
    unfold State.abortChains
    repeat' first
      | with_reducible assumption | with_reducible refine State.abortChain_keeps hP ?_ | with_reducible apply ih | split
      | dsimp -zeta only

theorem State.endDma_keeps (hP : Closed P) {s : State} {c : CoreId} {y3 : Nat} (h : P s) : P (State.endDma s c y3) :=
    by
  induction y3 generalizing s c with
  | zero => exact h
  | succ n ih =>
    unfold State.endDma
    repeat' first
      | with_reducible assumption | with_reducible refine State.after_keeps (fun _ _ => ?_) ?_
      | with_reducible refine execDmaTransferComplete_keeps hP ?_ | with_reducible apply ih | split | intro _
      | dsimp -zeta only

theorem State.veRelease_keeps (hP : Closed P) {s : State} {c : Nat} (h : P s) : P (State.veRelease s c) := by
  unfold State.veRelease
  repeat' first
    | with_reducible assumption | with_reducible refine State.freeNat_keeps hP ?_
    | with_reducible refine State.veUnwait_keeps hP ?_ | with_reducible refine keeps_eq2 (by assumption) ?_ | split
    | dsimp -zeta only

theorem State.abortCore_keeps (hP : Closed P) {s : State} {c : CoreId} (h : P s) : P (State.abortCore s c) := by
  unfold State.abortCore
  repeat' first
    | with_reducible assumption | with_reducible refine State.abortChains_keeps hP ?_
    | with_reducible refine State.endDma_keeps hP ?_ | with_reducible refine State.stallFull_keeps hP ?_
    | with_reducible refine State.veRelease_keeps hP ?_ | with_reducible refine State.setMe_keeps hP ?_
    | with_reducible refine State.setVe_keeps hP ?_
    | (extract_lets +onlyGivenNames x; first | (refine (?_ : P x → _) ?_; rotate_left; unfold x; rotate_left; clear_value x; intro) | try clear_value x)
    | split | dsimp -zeta only

theorem State.abortCores_keeps (hP : Closed P) {s : State} {y2 : List Nat} (h : P s) : P (State.abortCores s y2) := by
  induction y2 generalizing s with
  | nil => exact h
  | cons x xs ih =>
    unfold State.abortCores
    repeat' first
      | with_reducible assumption | with_reducible refine State.abortCore_keeps hP ?_ | with_reducible apply ih | split
      | dsimp -zeta only

theorem State.discardCols_keeps (hP : Closed P) {s : State} (h : P s) : P (State.discardCols s) := by
  unfold State.discardCols
  repeat' first
    | with_reducible assumption | with_reducible refine State.colDiscardAll_keeps hP ?_
    | with_reducible refine State.bump_keeps hP ?_
    | (extract_lets +onlyGivenNames x; first | (refine (?_ : P x.2 → _) ?_; rotate_left; unfold x; rotate_left; clear_value x; intro) | (refine (?_ : P x → _) ?_; rotate_left; unfold x; rotate_left; clear_value x; intro) | try clear_value x)
    | dsimp -zeta only

theorem State.abortSeq_keeps (hP : Closed P) {s : State} (h : P s) : P (State.abortSeq s) := by
  unfold State.abortSeq
  repeat' first
    | with_reducible assumption | exact rfl | (rw [State.mk_rest]; with_reducible refine hP.rest ?_ ?_)
    | (extract_lets +onlyGivenNames x; try clear_value x) | dsimp -zeta only

theorem State.abortPod_keeps (hP : Closed P) {s : State} (h : P s) : P (State.abortPod s) := by
  unfold State.abortPod
  repeat' first
    | with_reducible assumption | exact rfl | with_reducible refine State.changeGone_keeps hP ?_
    | (rw [State.mk_rest]; with_reducible refine hP.rest ?_ ?_)
    | (extract_lets +onlyGivenNames x; first | (refine (?_ : P x → _) ?_; rotate_left; unfold x; rotate_left; clear_value x; intro) | try clear_value x)
    | split | dsimp -zeta only

theorem State.abortTile_keeps (hP : Closed P) {s : State} {t : Nat} (h : P s) : P (State.abortTile s t) := by
  unfold State.abortTile
  repeat' first
    | with_reducible assumption | with_reducible refine State.setFeedT_keeps hP ?_
    | with_reducible refine State.setTile_keeps hP ?_
    | (extract_lets +onlyGivenNames x; first | (refine (?_ : P x → _) ?_; rotate_left; unfold x; rotate_left; clear_value x; intro) | try clear_value x)
    | dsimp -zeta only

theorem State.abort_keeps (hP : Closed P) {s : State} (h : P s) : P (State.abort s) := by
  unfold State.abort
  repeat' first
    | with_reducible assumption | with_reducible refine hP.wr ?_
    | with_reducible refine State.eachTile_keeps (fun _ _ _ => ?_) ?_
    | with_reducible refine State.quantAbortTile_keeps hP ?_ | with_reducible refine State.abortSeq_keeps hP ?_
    | with_reducible refine State.abortCores_keeps hP ?_ | with_reducible refine State.ueStop_keeps hP ?_
    | with_reducible refine State.discardCols_keeps hP ?_ | with_reducible refine State.granAbort_keeps hP ?_
    | with_reducible refine State.embAbort_keeps hP ?_ | with_reducible refine State.abortPod_keeps hP ?_
    | with_reducible refine State.abortTile_keeps hP ?_
    | (extract_lets +onlyGivenNames x; first | (refine (?_ : P x → _) ?_; rotate_left; unfold x; rotate_left; clear_value x; intro) | try clear_value x)
    | intro _ | dsimp -zeta only

theorem State.blurRows_keeps (hP : Closed P) {s : State} {c : Nat} {base : Nat} {pitch : Nat} {bytes : Nat} {y6 : Nat}
    (h : P s) : P (State.blurRows s c base pitch bytes y6) := by
  induction y6 generalizing s c base pitch bytes with
  | zero => exact h
  | succ n ih =>
    unfold State.blurRows
    repeat' first
      | with_reducible assumption | with_reducible refine State.undef_keeps hP ?_ | with_reducible apply ih | split
      | dsimp -zeta only

theorem State.blurChain_keeps (hP : Closed P) {s : State} {c : Nat} {ch : MeChain} (h : P s) : P (State.blurChain s c
    ch) := by
  unfold State.blurChain
  repeat' first
    | with_reducible assumption | with_reducible refine State.blurRows_keeps hP ?_
    | (extract_lets +onlyGivenNames x; try clear_value x) | split | dsimp -zeta only

theorem State.blurDma_keeps (hP : Closed P) {s : State} {c : Nat} {x : DmaXfer} (h : P s) : P (State.blurDma s c x) :=
    by
  unfold State.blurDma
  repeat' first
    | with_reducible assumption | with_reducible refine State.undefStore_keeps hP ?_
    | with_reducible refine State.undef_keeps hP ?_ | split | dsimp -zeta only

theorem State.orphan_keeps (hP : Closed P) {s : State} {t : Nat} {src : Option ShareSrc} (h : P s) : P (State.orphan s
    t src) := by
  unfold State.orphan
  repeat' first
    | with_reducible assumption | with_reducible refine State.partDone_keeps hP ?_
    | with_reducible refine State.noteCause_keeps hP ?_
    | (extract_lets +onlyGivenNames x; first | (refine (?_ : P x → _) ?_; rotate_left; unfold x; rotate_left; clear_value x; intro) | try clear_value x)
    | split | dsimp -zeta only

theorem State.stopCore_keeps (hP : Closed P) {s : State} {t : Nat} {c : Nat} (h : P s) : P (State.stopCore s t c) :=
    by
  unfold State.stopCore
  repeat' first
    | with_reducible assumption | with_reducible refine foldl_keeps (fun _ _ _ => ?_) ?_
    | with_reducible refine foldl_keeps2 (fun _ _ _ => ?_) ?_ | with_reducible refine State.blurChain_keeps hP ?_
    | with_reducible refine State.blurDma_keeps hP ?_ | with_reducible refine State.setCore_keeps hP ?_
    | with_reducible refine State.orphan_keeps hP ?_
    | (extract_lets +onlyGivenNames x; first | (refine (?_ : P x → _) ?_; rotate_left; unfold x; rotate_left; clear_value x; intro) | try clear_value x)
    | intro _ | dsimp -zeta only

theorem State.undefWindows_keeps (hP : Closed P) {s : State} {t : Nat} (h : P s) : P (State.undefWindows s t) := by
  unfold State.undefWindows
  repeat' first
    | with_reducible assumption | with_reducible refine State.undef_keeps hP ?_ | dsimp -zeta only

theorem State.resetTile_keeps (hP : Closed P) {s : State} {t : Nat} (h : P s) : P (State.resetTile s t) := by
  unfold State.resetTile
  repeat' first
    | with_reducible assumption | with_reducible refine hP.resetRegs ?_
    | with_reducible refine foldl_keeps (fun _ _ _ => ?_) ?_ | with_reducible refine foldl_keeps2 (fun _ _ _ => ?_) ?_
    | with_reducible refine State.faultAtOnce_keeps hP ?_ | with_reducible refine State.ueStop_keeps hP ?_
    | with_reducible refine State.stopCore_keeps hP ?_ | with_reducible refine State.colDiscard_keeps hP ?_
    | with_reducible refine State.quantResetTile_keeps hP ?_ | with_reducible refine State.granResetTile_keeps hP ?_
    | with_reducible refine State.setTile_keeps hP ?_ | with_reducible refine State.embResetTile_keeps hP ?_
    | with_reducible refine State.ueResetTile_keeps hP ?_ | with_reducible refine State.setFeedT_keeps hP ?_
    | with_reducible refine State.linksResetTile_keeps hP ?_ | with_reducible refine State.undefWindows_keeps hP ?_
    | with_reducible refine keeps_eq2 (by assumption) ?_
    | (extract_lets +onlyGivenNames x; first | (refine (?_ : P x → _) ?_; rotate_left; unfold x; rotate_left; clear_value x; intro) | try clear_value x)
    | split | intro _ | dsimp -zeta only

theorem State.resetModule_keeps (hP : Closed P) {s : State} (h : P s) : P (State.resetModule s) := by
  unfold State.resetModule
  repeat' first
    | with_reducible assumption | exact rfl | with_reducible refine hP.wr ?_ | with_reducible refine hP.zero ?_
    | with_reducible refine hP.resetRegs ?_ | with_reducible refine State.eachTile_keeps (fun _ _ _ => ?_) ?_
    | with_reducible refine State.undefWindows_keeps hP ?_ | with_reducible refine State.ueStop_keeps hP ?_
    | with_reducible refine State.linksReset_keeps hP ?_ | with_reducible refine State.granResetModule_keeps hP ?_
    | with_reducible refine State.embReset_keeps hP ?_ | with_reducible refine State.ueReset_keeps hP ?_
    | with_reducible refine State.quantReset_keeps hP ?_ | with_reducible refine State.loadMasks_keeps hP ?_
    | with_reducible refine State.setMreg_keeps hP ?_ | with_reducible refine State.challengeLamps_keeps hP ?_
    | with_reducible refine State.clocksReset_keeps hP ?_ | (rw [State.mk_rest]; with_reducible refine hP.rest ?_ ?_)
    | (extract_lets +onlyGivenNames x; first | (refine (?_ : P x → _) ?_; rotate_left; unfold x; rotate_left; clear_value x; intro) | try clear_value x)
    | intro _ | dsimp -zeta only

theorem State.abortReplies_keeps (hP : Closed P) {s : State} (h : P s) : P (State.abortReplies s) := by
  unfold State.abortReplies
  repeat' first
    | with_reducible assumption | with_reducible refine State.pendingEnds_keeps hP ?_ | split | dsimp -zeta only

theorem State.applyDeferred_keeps (hP : Closed P) {s : State} {y2 : Deferred} (h : P s) : P (State.applyDeferred s y2)
    := by
  unfold State.applyDeferred
  repeat' first
    | with_reducible assumption | with_reducible refine State.resetModule_keeps hP ?_
    | with_reducible refine State.abortReplies_keeps hP ?_ | with_reducible refine State.abort_keeps hP ?_
    | with_reducible refine State.resetTile_keeps hP ?_ | split | dsimp -zeta only

theorem State.runDeferred_keeps (hP : Closed P) {s : State} {y2 : List Deferred} (h : P s) : P (State.runDeferred s
    y2) := by
  induction y2 generalizing s with
  | nil => exact h
  | cons x xs ih =>
    unfold State.runDeferred
    repeat' first
      | with_reducible assumption | with_reducible refine State.applyDeferred_keeps hP ?_ | with_reducible apply ih
      | split | dsimp -zeta only

theorem State.take_keeps (hP : Closed P) {s : State} {d : Deferred} (h : P s) : P (State.take s d) := by
  unfold State.take
  repeat' first
    | with_reducible assumption | exact rfl | with_reducible refine State.runDeferred_keeps hP ?_
    | (rw [State.mk_rest]; with_reducible refine hP.rest ?_ ?_) | (extract_lets +onlyGivenNames x; try clear_value x)
    | split | dsimp -zeta only

end Sys2Proof.Machine
end

