-- ==== Sys2Proof/Laws/KeepsFence.lean ====
section
/-!
SUPPORT. Laws/KeepsFence.lean: every function of Machine/Fence.lean keeps a closed property (Laws/Keeps.lean).
-/
set_option linter.unusedVariables false
set_option linter.tactic.unusedName false

namespace Sys2Proof.Machine

open Sys2Proof

variable {P : State → Prop}

theorem State.judgeCame_keeps (hP : Closed P) {s : State} {phase : Nat} (h : P s) : P (State.judgeCame s phase) := by
  unfold State.judgeCame
  repeat' first
    | with_reducible assumption | with_reducible refine State.faultAtOnce_keeps hP ?_ | split | dsimp -zeta only

theorem State.addCame_keeps (hP : Closed P) {s : State} {m : BarrierMsg} (h : P s) : P (State.addCame s m) := by
  unfold State.addCame
  repeat' first
    | with_reducible assumption | exact rfl | (rw [State.mk_rest]; with_reducible refine hP.rest ?_ ?_)
    | (extract_lets +onlyGivenNames x; try clear_value x) | dsimp -zeta only

theorem State.judgeDue_keeps (hP : Closed P) {s : State} {phase : Nat} (h : P s) : P (State.judgeDue s phase) := by
  unfold State.judgeDue
  repeat' first
    | with_reducible assumption | with_reducible refine State.judgeCame_keeps hP ?_ | split | dsimp -zeta only

theorem execFenceMessage_keeps (hP : Closed P) {phase : Fin 3} {node : BitVec 20} {step : Nat} {gen : Nat} {dirGen :
    Nat} {digest : Nat} {s : State} (h : P s) : AllNext P (execFenceMessage phase node step gen dirGen digest s) := by
  unfold execFenceMessage
  repeat' first
    | with_reducible assumption | with_reducible refine AllNext.next ?_
    | with_reducible refine State.clearCame_keeps hP ?_ | with_reducible refine State.judgeDue_keeps hP ?_
    | with_reducible refine State.addCame_keeps hP ?_
    | (extract_lets +onlyGivenNames x; first | (refine (?_ : P x → _) ?_; rotate_left; unfold x; rotate_left; clear_value x; intro) | try clear_value x)
    | split | dsimp -zeta only

theorem State.enterStart_keeps (hP : Closed P) {s : State} (h : P s) : P (State.enterStart s) := by
  unfold State.enterStart
  repeat' first
    | with_reducible assumption | exact rfl | with_reducible refine State.judgeCame_keeps hP ?_
    | with_reducible refine State.barrierOut_keeps hP ?_ | (rw [State.mk_rest]; with_reducible refine hP.rest ?_ ?_)
    | (extract_lets +onlyGivenNames x; try clear_value x) | dsimp -zeta only

theorem execStartBarrierComplete_keeps (hP : Closed P) {s : State} (h : P s) : AllNext P (execStartBarrierComplete s)
    := by
  unfold execStartBarrierComplete
  repeat' first
    | with_reducible assumption | exact rfl | with_reducible refine AllNext.next ?_
    | with_reducible refine State.clearCame_keeps hP ?_ | (rw [State.mk_rest]; with_reducible refine hP.rest ?_ ?_)
    | (extract_lets +onlyGivenNames x; first | (refine (?_ : P x → _) ?_; rotate_left; unfold x; rotate_left; clear_value x; intro) | try clear_value x)
    | split | dsimp -zeta only

theorem execFenceBegin_keeps (hP : Closed P) {s : State} (h : P s) : AllNext P (execFenceBegin s) := by
  unfold execFenceBegin
  repeat' first
    | with_reducible assumption | exact rfl | with_reducible refine AllNext.next ?_
    | with_reducible refine State.eachTile_keeps (fun _ _ _ => ?_) ?_
    | with_reducible refine State.sealSegment_keeps hP ?_ | with_reducible refine State.judgeCame_keeps hP ?_
    | with_reducible refine State.barrierOut_keeps hP ?_ | (rw [State.mk_rest]; with_reducible refine hP.rest ?_ ?_)
    | (extract_lets +onlyGivenNames x; first | (refine (?_ : P x → _) ?_; rotate_left; unfold x; rotate_left; clear_value x; intro) | try clear_value x)
    | split | intro _ | dsimp -zeta only

theorem State.setOrder_keeps (hP : Closed P) {s : State} {n : Nat} (h : P s) : P (State.setOrder s n) := by
  unfold State.setOrder
  repeat' first
    | with_reducible assumption | exact rfl | (rw [State.mk_rest]; with_reducible refine hP.rest ?_ ?_)
    | (extract_lets +onlyGivenNames x; try clear_value x) | dsimp -zeta only

theorem State.order7_keeps (hP : Closed P) {s : State} (h : P s) : P (State.order7 s) := by
  unfold State.order7
  repeat' first
    | with_reducible assumption | with_reducible refine State.lossFence_keeps hP ?_
    | with_reducible refine State.quietFence_keeps hP ?_ | with_reducible refine State.raise_keeps hP ?_
    | with_reducible refine State.emptyCoal_keeps hP ?_
    | with_reducible refine State.eachTile_keeps (fun _ _ _ => ?_) ?_
    | with_reducible refine State.stageEmpty_keeps hP ?_ | with_reducible refine State.feedRelease_keeps hP ?_
    | (extract_lets +onlyGivenNames x; first | (refine (?_ : P x → _) ?_; rotate_left; unfold x; rotate_left; clear_value x; intro) | try clear_value x)
    | split | intro _ | dsimp -zeta only

theorem State.order8_keeps (hP : Closed P) {s : State} (h : P s) : P (State.order8 s) := by
  unfold State.order8
  repeat' first
    | with_reducible assumption | exact rfl | with_reducible refine hP.wr ?_
    | with_reducible refine State.bumpW_keeps hP ?_ | (rw [State.mk_rest]; with_reducible refine hP.rest ?_ ?_)
    | (extract_lets +onlyGivenNames x; first | (refine (?_ : P x → _) ?_; rotate_left; unfold x; rotate_left; clear_value x; intro) | try clear_value x)
    | split | dsimp -zeta only

theorem State.orders7to8_keeps (hP : Closed P) {s : State} (h : P s) : P (State.orders7to8 s) := by
  unfold State.orders7to8
  repeat' first
    | with_reducible assumption | with_reducible refine State.barrierOut_keeps hP ?_
    | with_reducible refine State.setOrder_keeps hP ?_ | with_reducible refine State.order8_keeps hP ?_
    | with_reducible refine State.order7_keeps hP ?_ | split | dsimp -zeta only

theorem State.orders5to8_keeps (hP : Closed P) {s : State} (h : P s) : P (State.orders5to8 s) := by
  unfold State.orders5to8
  repeat' first
    | with_reducible assumption | with_reducible refine State.orders7to8_keeps hP ?_
    | with_reducible refine State.refreshHot_keeps hP ?_ | with_reducible refine State.fenceWriteBack_keeps hP ?_
    | dsimp -zeta only

theorem State.switchSlot_keeps (hP : Closed P) {s : State} (h : P s) : P (State.switchSlot s) := by
  unfold State.switchSlot
  repeat' first
    | with_reducible assumption | exact rfl | (rw [State.mk_rest]; with_reducible refine hP.rest ?_ ?_)
    | (extract_lets +onlyGivenNames x; try clear_value x) | split | dsimp -zeta only

theorem State.reshardDone_keeps (hP : Closed P) {s : State} (h : P s) : P (State.reshardDone s) := by
  unfold State.reshardDone
  repeat' first
    | with_reducible assumption | with_reducible refine State.pendingEnds_keeps hP ?_ | split | dsimp -zeta only

theorem State.commitRest_keeps (hP : Closed P) {s : State} {b : List Byte} (h : P s) : P (State.commitRest s b) := by
  unfold State.commitRest
  repeat' first
    | with_reducible assumption | with_reducible refine State.layCommitted_keeps hP ?_
    | with_reducible refine State.orders5to8_keeps hP ?_ | with_reducible refine State.switchSlot_keeps hP ?_
    | with_reducible refine State.reshardDone_keeps hP ?_ | with_reducible refine State.commitEnd_keeps hP ?_ | split
    | dsimp -zeta only

theorem State.commitGo_keeps (hP : Closed P) {s : State} {b : List Byte} (h : P s) : P (State.commitGo s b) := by
  unfold State.commitGo
  repeat' first
    | with_reducible assumption | with_reducible refine State.setOrder_keeps hP ?_
    | with_reducible refine State.setWaiting_keeps hP ?_ | with_reducible refine State.commitOrder3_keeps hP ?_
    | with_reducible refine State.commitRest_keeps hP ?_ | with_reducible refine hx _ ?_
    | (extract_lets +onlyGivenNames x; first | (refine (?_ : (∀ s, P s → P (x s)) → _) ?_; rotate_left; unfold x; rotate_left; clear_value x; intro hx) | (refine (?_ : P x → _) ?_; rotate_left; unfold x; rotate_left; clear_value x; intro) | try clear_value x)
    | split | intro _ | dsimp -zeta only

theorem State.commitBegin_keeps (hP : Closed P) {s : State} {b : List Byte} (h : P s) : P (State.commitBegin s b) :=
    by
  unfold State.commitBegin
  repeat' first
    | with_reducible assumption | with_reducible refine State.commitGo_keeps hP ?_
    | with_reducible refine State.forceDiscard_keeps hP ?_ | split | dsimp -zeta only

theorem State.commitOn_keeps (hP : Closed P) {s : State} (h : P s) : P (State.commitOn s) := by
  unfold State.commitOn
  repeat' first
    | with_reducible assumption | with_reducible refine State.commitGo_keeps hP ?_ | split | dsimp -zeta only

theorem State.order4_keeps (hP : Closed P) {s : State} (h : P s) : P (State.order4 s) := by
  unfold State.order4
  repeat' first
    | with_reducible assumption | with_reducible refine State.commitBegin_keeps hP ?_
    | with_reducible refine State.wrf_keeps hP ?_ | with_reducible refine State.orders5to8_keeps hP ?_
    | with_reducible refine State.raise_keeps hP ?_ | split | dsimp -zeta only

theorem State.order3_keeps (hP : Closed P) {s : State} (h : P s) : P (State.order3 s) := by
  unfold State.order3
  repeat' first
    | with_reducible assumption | with_reducible refine State.order4_keeps hP ?_
    | with_reducible refine State.applyChanges_keeps hP ?_ | dsimp -zeta only

theorem State.addList_keeps (hP : Closed P) {s : State} {rank : Nat} {d : List (Nat × Nat)} {p : List (Nat × Nat)} (h
    : P s) : P (State.addList s rank d p) := by
  unfold State.addList
  repeat' first
    | with_reducible assumption | exact rfl | (rw [State.mk_rest]; with_reducible refine hP.rest ?_ ?_)
    | (extract_lets +onlyGivenNames x; try clear_value x) | dsimp -zeta only

theorem State.listsDue_keeps (hP : Closed P) {s : State} (h : P s) : P (State.listsDue s) := by
  unfold State.listsDue
  repeat' first
    | with_reducible assumption | with_reducible refine State.order3_keeps hP ?_
    | with_reducible refine State.setOrder_keeps hP ?_ | split | dsimp -zeta only

theorem execArrivalBarrierComplete_keeps (hP : Closed P) {s : State} (h : P s) : AllNext P (execArrivalBarrierComplete
    s) := by
  unfold execArrivalBarrierComplete
  repeat' first
    | with_reducible assumption | with_reducible refine hP.emit ?_ | with_reducible refine AllNext.next ?_
    | with_reducible refine State.listsDue_keeps hP ?_ | with_reducible refine State.addList_keeps hP ?_
    | with_reducible refine State.order3_keeps hP ?_ | (extract_lets +onlyGivenNames x; try clear_value x) | split
    | dsimp -zeta only

theorem execChangeList_keeps (hP : Closed P) {rank : Nat} {dem : List (Nat × Nat)} {prom : List (Nat × Nat)} {s :
    State} (h : P s) : AllNext P (execChangeList rank dem prom s) := by
  unfold execChangeList
  repeat' first
    | with_reducible assumption | with_reducible refine AllNext.next ?_
    | with_reducible refine State.addList_keeps hP ?_ | with_reducible refine State.order3_keeps hP ?_
    | (extract_lets +onlyGivenNames x; first | (refine (?_ : P x → _) ?_; rotate_left; unfold x; rotate_left; clear_value x; intro) | try clear_value x)
    | split | dsimp -zeta only

theorem execCommonsRefresh_keeps (hP : Closed P) {table : BitVec 12} {row : BitVec 40} {bytes : List Byte} {s : State}
    (h : P s) : AllNext P (execCommonsRefresh table row bytes s) := by
  unfold execCommonsRefresh
  repeat' first
    | with_reducible assumption | exact rfl | with_reducible refine AllNext.next ?_
    | with_reducible refine State.orders7to8_keeps hP ?_ | with_reducible refine State.takeRefresh_keeps hP ?_
    | (rw [State.mk_rest]; with_reducible refine hP.rest ?_ ?_) | (extract_lets +onlyGivenNames x; try clear_value x)
    | split | dsimp -zeta only

theorem execLayoutArrivalBarrier_keeps (hP : Closed P) {timedOut : Bool} {s : State} (h : P s) : AllNext P
    (execLayoutArrivalBarrier timedOut s) := by
  unfold execLayoutArrivalBarrier
  repeat' first
    | with_reducible assumption | with_reducible refine AllNext.next ?_
    | with_reducible refine State.commitBegin_keeps hP ?_ | with_reducible refine State.layFenceEnd_keeps hP ?_
    | split | dsimp -zeta only

theorem execRebuildEnd_keeps (hP : Closed P) {base : Nat} {gbase : Nat} {ranges : List (Nat × Nat)} {units : List (Nat
    × Recon)} {s : State} (h : P s) : AllNext P (execRebuildEnd base gbase ranges units s) := by
  unfold execRebuildEnd
  repeat' first
    | with_reducible assumption | with_reducible refine AllNext.next ?_
    | with_reducible refine State.storeRebuilt_keeps hP ?_ | with_reducible refine State.bump_keeps hP ?_
    | with_reducible refine State.commitRest_keeps hP ?_ | with_reducible refine State.parityInstall_keeps hP ?_
    | with_reducible refine keeps_eq2 (by assumption) ?_
    | (extract_lets +onlyGivenNames x; first | (refine (?_ : P x → _) ?_; rotate_left; unfold x; rotate_left; clear_value x; intro) | try clear_value x)
    | split | dsimp -zeta only

theorem State.lateDeferred_keeps (hP : Closed P) {s : State} (h : P s) : P (State.lateDeferred s) := by
  unfold State.lateDeferred
  repeat' first
    | with_reducible assumption | exact rfl | with_reducible refine State.runDeferred_keeps hP ?_
    | (rw [State.mk_rest]; with_reducible refine hP.rest ?_ ?_) | (extract_lets +onlyGivenNames x; try clear_value x)
    | split | dsimp -zeta only

theorem execCompletionBarrierComplete_keeps (hP : Closed P) {s : State} (h : P s) : AllNext P
    (execCompletionBarrierComplete s) := by
  unfold execCompletionBarrierComplete
  repeat' first
    | with_reducible assumption | exact rfl | with_reducible refine AllNext.next ?_
    | with_reducible refine State.sample_keeps hP ?_ | with_reducible refine State.lateDeferred_keeps hP ?_
    | with_reducible refine State.eachTile_keeps (fun _ _ _ => ?_) ?_
    | with_reducible refine State.setTile_keeps hP ?_ | (rw [State.mk_rest]; with_reducible refine hP.rest ?_ ?_)
    | (extract_lets +onlyGivenNames x; first | (refine (?_ : P x → _) ?_; rotate_left; unfold x; rotate_left; clear_value x; intro) | try clear_value x)
    | split | intro _ | dsimp -zeta only

theorem State.waitFails_keeps (hP : Closed P) {s : State} {t : Nat} {idx : Nat} (h : P s) : P (State.waitFails s t
    idx) := by
  unfold State.waitFails
  repeat' first
    | with_reducible assumption | with_reducible refine State.fault_keeps hP ?_
    | with_reducible refine State.mapFlight_keeps hP ?_ | dsimp -zeta only

theorem execPodTimeout_keeps (hP : Closed P) {w : PodWait} {s : State} (h : P s) : AllNext P (execPodTimeout w s) :=
    by
  unfold execPodTimeout
  repeat' first
    | with_reducible assumption | with_reducible refine AllNext.next ?_
    | with_reducible refine State.waitFails_keeps hP ?_ | with_reducible refine State.setCols_keeps hP ?_
    | with_reducible refine State.setEmbt_keeps hP ?_ | with_reducible refine State.faultAtOnce_keeps hP ?_
    | with_reducible refine State.lateDeferred_keeps hP ?_ | (extract_lets +onlyGivenNames x; try clear_value x)
    | split | dsimp -zeta only

theorem execStepAbortNotice_keeps (hP : Closed P) {mixed : Bool} {s : State} (h : P s) : AllNext P
    (execStepAbortNotice mixed s) := by
  unfold execStepAbortNotice
  repeat' first
    | with_reducible assumption | exact rfl | with_reducible refine AllNext.next ?_
    | with_reducible refine State.faultAtOnce_keeps hP ?_ | with_reducible refine State.lateDeferred_keeps hP ?_
    | (rw [State.mk_rest]; with_reducible refine hP.rest ?_ ?_)
    | (extract_lets +onlyGivenNames x; first | (refine (?_ : P x → _) ?_; rotate_left; unfold x; rotate_left; clear_value x; intro) | try clear_value x)
    | split | dsimp -zeta only

end Sys2Proof.Machine
end

