-- ==== Sys2Proof/Laws/KeepsMemory.lean ====
section
/-!
SUPPORT. Laws/KeepsMemory.lean: every function of Machine/Memory.lean keeps a closed property (Laws/Keeps.lean).
-/
set_option linter.unusedVariables false
set_option linter.tactic.unusedName false

namespace Sys2Proof.Machine

open Sys2Proof

variable {P : State → Prop}

theorem State.bankRound_keeps (hP : Closed P) {s : State} {a : Nat} {req : Nat} {rivals : List Nat} (h : P s) : P
    (State.bankRound s a req rivals).2 := by
  unfold State.bankRound
  repeat' first
    | with_reducible assumption | with_reducible refine State.setArb_keeps hP ?_
    | (extract_lets +onlyGivenNames x; try clear_value x) | split | dsimp -zeta only

theorem State.xbarRound_keeps (hP : Closed P) {s : State} {x : XbarReq} (h : P s) : P (State.xbarRound s x).2 := by
  unfold State.xbarRound
  repeat' first
    | with_reducible assumption | with_reducible refine State.setArb_keeps hP ?_
    | (extract_lets +onlyGivenNames x; try clear_value x) | split | dsimp -zeta only

theorem State.serveLocal_keeps (hP : Closed P) {s : State} {a : Nat} {op : MemOp} (h : P s) : P (State.serveLocal s a
    op).2.2 := by
  unfold State.serveLocal
  repeat' first
    | with_reducible assumption | with_reducible refine State.busRead_keeps hP ?_
    | with_reducible refine State.busWrite_keeps hP ?_ | with_reducible refine State.noteUe_keeps hP ?_
    | with_reducible refine State.undef_keeps hP ?_ | with_reducible refine keeps_eq2 (by assumption) ?_
    | with_reducible refine keeps_eq3 (by assumption) ?_ | split | dsimp -zeta only

theorem State.serveGlobal_keeps (hP : Closed P) {s : State} {g : Nat} {op : MemOp} (h : P s) : P (State.serveGlobal s
    g op).2.2 := by
  unfold State.serveGlobal
  repeat' first
    | with_reducible assumption | with_reducible refine State.serveLocal_keeps hP ?_
    | with_reducible refine State.gRead_keeps hP ?_ | with_reducible refine State.gWrite_keeps hP ?_
    | with_reducible refine keeps_eq2 (by assumption) ?_ | with_reducible refine keeps_eq3 (by assumption) ?_ | split
    | dsimp -zeta only

theorem execMemoryAccess_keeps (hP : Closed P) {req : Fin 11} {gaddr : W64} {op : MemOp} {rivals : List (Fin 11)} {via
    : Option XbarReq} {s : State} (h : P s) : AllNext P (execMemoryAccess req gaddr op rivals via s) := by
  unfold execMemoryAccess
  repeat' first
    | with_reducible assumption | with_reducible refine hP.emit ?_ | with_reducible refine AllNext.next ?_
    | with_reducible refine State.xbarRound_keeps hP ?_ | with_reducible refine State.bankRound_keeps hP ?_
    | with_reducible refine State.serveGlobal_keeps hP ?_ | with_reducible refine keeps_eq2 (by assumption) ?_
    | with_reducible refine keeps_eq3 (by assumption) ?_ | split | dsimp -zeta only

theorem execRemoteAccess_keeps (hP : Closed P) {a : BitVec 44} {op : MemOp} {s : State} (h : P s) : AllNext P
    (execRemoteAccess a op s) := by
  unfold execRemoteAccess
  repeat' first
    | with_reducible assumption | with_reducible refine hP.emit ?_ | with_reducible refine AllNext.next ?_
    | with_reducible refine State.serveLocal_keeps hP ?_ | with_reducible refine keeps_eq3 (by assumption) ?_ | split
    | dsimp -zeta only

theorem State.embCut_keeps (hP : Closed P) {s : State} {t : Nat} (h : P s) : P (State.embCut s t) := by
  unfold State.embCut
  repeat' first
    | with_reducible assumption | with_reducible refine State.putJob_keeps hP ?_ | split | dsimp -zeta only

theorem State.reeveCut_keeps (hP : Closed P) {s : State} (h : P s) : P (State.reeveCut s) := by
  unfold State.reeveCut
  repeat' first
    | with_reducible assumption | with_reducible refine State.finish_keeps hP ?_
    | with_reducible refine State.watchQueue_keeps hP ?_ | with_reducible refine State.setHcp_keeps hP ?_ | split
    | dsimp -zeta only

theorem State.coreCut_keeps (hP : Closed P) {s : State} {c : Nat} {req : Nat} (h : P s) : P (State.coreCut s c req) :=
    by
  unfold State.coreCut
  repeat' first
    | with_reducible assumption | with_reducible refine State.chainFail_keeps hP ?_
    | with_reducible refine State.veFault_keeps hP ?_ | with_reducible refine State.dmaEnd_keeps hP ?_ | split
    | dsimp -zeta only

theorem State.studioCut_keeps (hP : Closed P) {s : State} {t : Nat} {req : Nat} (h : P s) : P (State.studioCut s t
    req) := by
  unfold State.studioCut
  repeat' first
    | with_reducible assumption | with_reducible refine State.embCut_keeps hP ?_
    | with_reducible refine State.ueAdvance_keeps hP ?_ | with_reducible refine State.jobError_keeps hP ?_
    | with_reducible refine State.qzFail_keeps hP ?_ | with_reducible refine State.colEnd_keeps hP ?_
    | with_reducible refine State.reeveCut_keeps hP ?_ | split | dsimp -zeta only

theorem execHoldCutoff_keeps (hP : Closed P) {a : BitVec 44} {req : Fin 11} {s : State} (h : P s) : AllNext P
    (execHoldCutoff a req s) := by
  unfold execHoldCutoff
  repeat' first
    | with_reducible assumption | with_reducible refine hP.wr ?_ | with_reducible refine hP.emit ?_
    | with_reducible refine AllNext.next ?_ | with_reducible refine State.orBits_keeps hP ?_
    | with_reducible refine State.raise_keeps hP ?_ | with_reducible refine State.bump_keeps hP ?_
    | with_reducible refine State.coreCut_keeps hP ?_ | with_reducible refine State.studioCut_keeps hP ?_
    | (extract_lets +onlyGivenNames x; first | (refine (?_ : P x → _) ?_; rotate_left; unfold x; rotate_left; clear_value x; intro) | try clear_value x)
    | split | dsimp -zeta only

theorem execWithdraw_keeps (hP : Closed P) {x : XbarReq} {s : State} (h : P s) : AllNext P (execWithdraw x s) := by
  unfold execWithdraw
  repeat' first
    | with_reducible assumption | with_reducible refine AllNext.next ?_
    | with_reducible refine State.xbarRound_keeps hP ?_ | with_reducible refine State.bump_keeps hP ?_
    | with_reducible refine State.setArb_keeps hP ?_ | with_reducible refine keeps_eq2 (by assumption) ?_
    | (extract_lets +onlyGivenNames x; try clear_value x) | split | dsimp -zeta only

theorem State.pokeXor_keeps (hP : Closed P) {s : State} {a : Nat} {x : List Byte} (h : P s) : P (State.pokeXor s a x)
    := by
  unfold State.pokeXor
  repeat' first
    | with_reducible assumption | with_reducible refine hP.poke ?_ | dsimp -zeta only

theorem execParityDelta_keeps (hP : Closed P) {gran : Bool} {j : Nat} {off : Nat} {x : List Byte} {s : State} (h : P
    s) : AllNext P (execParityDelta gran j off x s) := by
  unfold execParityDelta
  repeat' first
    | with_reducible assumption | with_reducible refine AllNext.next ?_
    | with_reducible refine State.pokeXor_keeps hP ?_ | split | dsimp -zeta only

theorem State.noteCe_keeps (hP : Closed P) {s : State} {a : Nat} (h : P s) : P (State.noteCe s a) := by
  unfold State.noteCe
  repeat' first
    | with_reducible assumption | with_reducible refine State.raise_keeps hP ?_
    | with_reducible refine State.bump_keeps hP ?_ | (extract_lets +onlyGivenNames x; try clear_value x) | split
    | dsimp -zeta only

theorem State.markUe_keeps (hP : Closed P) {s : State} {a : Nat} (h : P s) : P (State.markUe s a) := by
  unfold State.markUe
  repeat' first
    | with_reducible assumption | exact rfl | (rw [State.mk_rest]; with_reducible refine hP.rest ?_ ?_)
    | dsimp -zeta only

theorem State.readFails_keeps (hP : Closed P) {s : State} {a : Nat} {recon : Recon} (h : P s) : P (State.readFails s a
    recon) := by
  unfold State.readFails
  repeat' first
    | with_reducible assumption | with_reducible refine hP.poke ?_ | with_reducible refine State.repaired_keeps hP ?_
    | with_reducible refine State.noteUe_keeps hP ?_ | with_reducible refine State.markUe_keeps hP ?_
    | with_reducible refine State.orBits_keeps hP ?_ | (extract_lets +onlyGivenNames x; try clear_value x) | split
    | dsimp -zeta only

theorem State.ringFails_keeps (hP : Closed P) {s : State} {a : Nat} {y3 : Option Nat} (h : P s) : P (State.ringFails s
    a y3) := by
  unfold State.ringFails
  repeat' first
    | with_reducible assumption | exact rfl | with_reducible refine State.raise_keeps hP ?_
    | with_reducible refine State.orBits_keeps hP ?_ | (rw [State.mk_rest]; with_reducible refine hP.rest ?_ ?_)
    | (extract_lets +onlyGivenNames x; first | (refine (?_ : P x → _) ?_; rotate_left; unfold x; rotate_left; clear_value x; intro) | try clear_value x)
    | split | dsimp -zeta only

theorem execReadCompletion_keeps (hP : Closed P) {site : ReadSite} {e : ReadEnd} {s : State} (h : P s) : AllNext P
    (execReadCompletion site e s) := by
  unfold execReadCompletion
  repeat' first
    | with_reducible assumption | with_reducible refine AllNext.next ?_
    | with_reducible refine State.noteCe_keeps hP ?_ | with_reducible refine State.ringFails_keeps hP ?_
    | with_reducible refine State.readFails_keeps hP ?_ | with_reducible refine State.raise_keeps hP ?_
    | with_reducible refine State.veFault_keeps hP ?_ | with_reducible refine State.chainFail_keeps hP ?_
    | with_reducible refine State.dmaEnd_keeps hP ?_ | with_reducible refine State.veStoreFails_keeps hP ?_
    | with_reducible refine State.veQueueFails_keeps hP ?_ | with_reducible refine State.fault_keeps hP ?_
    | (extract_lets +onlyGivenNames x; first | (refine (?_ : P x → _) ?_; rotate_left; unfold x; rotate_left; clear_value x; intro) | try clear_value x)
    | split | dsimp -zeta only

theorem execPatrolScrub_keeps (hP : Closed P) {a : BitVec 44} {correctable : Bool} {s : State} (h : P s) : AllNext P
    (execPatrolScrub a correctable s) := by
  unfold execPatrolScrub
  repeat' first
    | with_reducible assumption | with_reducible refine hP.wr ?_ | with_reducible refine AllNext.next ?_
    | with_reducible refine State.noteCe_keeps hP ?_ | with_reducible refine State.markUe_keeps hP ?_
    | with_reducible refine State.raise_keeps hP ?_ | (extract_lets +onlyGivenNames x; try clear_value x) | split
    | dsimp -zeta only

theorem State.takeMessage_keeps (hP : Closed P) {s : State} {p : Nat} {vc : Nat} {m : List Byte} (h : P s) : P
    (State.takeMessage s p vc m) := by
  unfold State.takeMessage
  repeat' first
    | with_reducible assumption | exact rfl | with_reducible refine State.relayReply_keeps hP ?_
    | with_reducible refine State.loseMsgs_keeps hP ?_ | with_reducible refine State.queueMsg_keeps hP ?_
    | (rw [State.mk_rest]; with_reducible refine hP.rest ?_ ?_) | (extract_lets +onlyGivenNames x; try clear_value x)
    | split | dsimp -zeta only

theorem execMessageReceived_keeps (hP : Closed P) {s : State} (h : P s) : AllNext P (execMessageReceived s) := by
  unfold execMessageReceived
  repeat' first
    | with_reducible assumption | exact rfl | with_reducible refine AllNext.next ?_
    | with_reducible refine State.takeMessage_keeps hP ?_ | with_reducible refine State.freeBuffers_keeps hP ?_
    | with_reducible refine State.relayReply_keeps hP ?_ | (rw [State.mk_rest]; with_reducible refine hP.rest ?_ ?_)
    | (extract_lets +onlyGivenNames x; try clear_value x) | split | dsimp -zeta only

end Sys2Proof.Machine
end

