-- ==== Sys2Proof/Laws/KeepsSessions.lean ====
section
/-!
SUPPORT. Laws/KeepsSessions.lean: every function of Machine/Sessions.lean keeps a closed property (Laws/Keeps.lean).
-/
set_option linter.unusedVariables false
set_option linter.tactic.unusedName false

namespace Sys2Proof.Machine

open Sys2Proof

variable {P : State → Prop}

theorem State.needs_keeps {s : State} {ds : List Nat} {f : State → Ans} (hf : ∀ s, P s → P (f s).2.2) (h : P s) :
    P (s.needs ds f).2.2 := by
  unfold State.needs
  split
  · exact hf _ h
  · exact h

theorem execHello_keeps (hP : Closed P) {slow : Bool} {s : State} (h : P s) : AllNext P (execHello slow s) := by
  unfold execHello
  repeat' first
    | with_reducible assumption | with_reducible refine AllNext.next ?_
    | with_reducible refine State.runCommand_keeps hP (fun _ _ _ => ?_) ?_ | intro _ | dsimp -zeta only

theorem execAttest_keeps (hP : Closed P) {slow : Bool} {s : State} (h : P s) : AllNext P (execAttest slow s) := by
  unfold execAttest
  repeat' first
    | with_reducible assumption | with_reducible refine AllNext.next ?_
    | with_reducible refine State.runCommand_keeps hP (fun _ _ _ => ?_) ?_
    | (extract_lets +onlyGivenNames x; try clear_value x) | intro _ | dsimp -zeta only

theorem State.openRefuse_keeps (hP : Closed P) {s : State} {st : Nat} (h : P s) : P (State.openRefuse s st).2.2 := by
  unfold State.openRefuse
  repeat' first
    | with_reducible assumption | with_reducible refine State.bump_keeps hP ?_
    | with_reducible refine State.orBits_keeps hP ?_ | with_reducible refine State.internal_keeps hP ?_
    | (extract_lets +onlyGivenNames x; first | (refine (?_ : P x → _) ?_; rotate_left; unfold x; rotate_left; clear_value x; intro) | try clear_value x)
    | split | dsimp -zeta only


theorem State.openGo_keeps (hP : Closed P) (hO : OwnerFree P) {s : State} {b : List Byte} (h : P s) : P (State.openGo
    s b).2.2 := by
  unfold State.openGo
  repeat' first
    | with_reducible assumption | with_reducible refine foldl_keeps (fun _ _ _ => ?_) ?_
    | with_reducible refine foldl_keeps2 (fun _ _ _ => ?_) ?_ | with_reducible refine State.raise_keeps hP ?_
    | with_reducible refine State.orBits_keeps hP ?_ | with_reducible refine State.endSession_keeps hP ?_
    | with_reducible refine hO.setOwner ?_ | with_reducible refine State.random_keeps hP ?_
    | with_reducible refine State.putSession_keeps hP ?_ | with_reducible refine keeps_eq2 (by assumption) ?_
    | (extract_lets +onlyGivenNames x; first | (refine (?_ : P x → _) ?_; rotate_left; unfold x; rotate_left; clear_value x; intro) | try clear_value x)
    | split | intro _ | dsimp -zeta only

theorem State.openSession_keeps (hP : Closed P) (hO : OwnerFree P) {s : State} {p : Nat → Bool} {cSig : Bool} {cert :
    Bool} {owner : Bool} {zOk : Bool} {flashOk : Bool} {slow : Bool} (h : P s) : P (State.openSession s p cSig cert
    owner zOk flashOk slow) := by
  unfold State.openSession
  repeat' first
    | with_reducible assumption | with_reducible refine State.runCommand_keeps hP (fun _ _ _ => ?_) ?_
    | with_reducible refine State.openRefuse_keeps hP ?_ | with_reducible refine State.openGo_keeps hP hO ?_
    | with_reducible refine keeps_eq3 (by assumption) ?_ | (extract_lets +onlyGivenNames x; try clear_value x) | split
    | intro _ | dsimp -zeta only

theorem execOpenSession_keeps (hP : Closed P) (hO : OwnerFree P) {cSig : Bool} {cert : Bool} {owner : Bool} {zOk :
    Bool} {flashOk : Bool} {slow : Bool} {s : State} (h : P s) : AllNext P (execOpenSession cSig cert owner zOk
    flashOk slow s) := by
  unfold execOpenSession
  repeat' first
    | with_reducible assumption | with_reducible refine AllNext.next ?_
    | with_reducible refine State.openSession_keeps hP hO ?_ | dsimp -zeta only

theorem execClaimSession_keeps (hP : Closed P) (hO : OwnerFree P) {cSig : Bool} {cert : Bool} {owner : Bool} {zOk :
    Bool} {flashOk : Bool} {slow : Bool} {s : State} (h : P s) : AllNext P (execClaimSession cSig cert owner zOk
    flashOk slow s) := by
  unfold execClaimSession
  repeat' first
    | with_reducible assumption | with_reducible refine AllNext.next ?_
    | with_reducible refine State.openSession_keeps hP hO ?_ | dsimp -zeta only

theorem execTransferSession_keeps (hP : Closed P) (hO : OwnerFree P) {cSig : Bool} {cert : Bool} {owner : Bool} {zOk :
    Bool} {flashOk : Bool} {slow : Bool} {s : State} (h : P s) : AllNext P (execTransferSession cSig cert owner zOk
    flashOk slow s) := by
  unfold execTransferSession
  repeat' first
    | with_reducible assumption | with_reducible refine AllNext.next ?_
    | with_reducible refine State.openSession_keeps hP hO ?_ | dsimp -zeta only

theorem execReleaseSession_keeps (hP : Closed P) (hO : OwnerFree P) {cSig : Bool} {cert : Bool} {owner : Bool} {zOk :
    Bool} {flashOk : Bool} {slow : Bool} {s : State} (h : P s) : AllNext P (execReleaseSession cSig cert owner zOk
    flashOk slow s) := by
  unfold execReleaseSession
  repeat' first
    | with_reducible assumption | with_reducible refine AllNext.next ?_
    | with_reducible refine State.openSession_keeps hP hO ?_ | dsimp -zeta only

theorem execCloseSession_keeps (hP : Closed P) {s : State} (h : P s) : AllNext P (execCloseSession s) := by
  unfold execCloseSession
  repeat' first
    | with_reducible assumption | with_reducible refine AllNext.next ?_
    | with_reducible refine keeps_some2 (State.headIs_keeps hP ?_) (by assumption)
    | with_reducible refine State.endSession_keeps hP ?_ | with_reducible refine State.finish_keeps hP ?_ | split
    | dsimp -zeta only

theorem execReadCsr_keeps (hP : Closed P) {slow : Bool} {s : State} (h : P s) : AllNext P (execReadCsr slow s) := by
  unfold execReadCsr
  repeat' first
    | with_reducible assumption | with_reducible refine AllNext.next ?_
    | with_reducible refine State.runCommand_keeps hP (fun _ _ _ => ?_) ?_
    | with_reducible refine State.no_keeps hP ?_ | with_reducible refine keeps_eq3 (by assumption) ?_
    | (extract_lets +onlyGivenNames x; try clear_value x) | split | intro _ | dsimp -zeta only

theorem csrAns_keeps {r : Code × Nat × State} (h : P r.2.2) : P (csrAns r).2.2 := h

theorem execWriteCsr_keeps (hP : Closed P) {slow : Bool} {s : State} (h : P s) : AllNext P (execWriteCsr slow s) := by
  unfold execWriteCsr
  repeat' first
    | with_reducible assumption | with_reducible refine AllNext.next ?_
    | with_reducible refine State.runCommand_keeps hP (fun _ _ _ => ?_) ?_
    | with_reducible refine State.no_keeps hP ?_ | with_reducible refine csrAns_keeps ?_
    | with_reducible refine State.csrWrite_keeps hP ?_ | with_reducible refine keeps_eq3 (by assumption) ?_
    | (extract_lets +onlyGivenNames x; try clear_value x) | split | intro _ | dsimp -zeta only

theorem execGetInfo_keeps (hP : Closed P) {slow : Bool} {s : State} (h : P s) : AllNext P (execGetInfo slow s) := by
  unfold execGetInfo
  repeat' first
    | with_reducible assumption | with_reducible refine AllNext.next ?_
    | with_reducible refine State.runCommand_keeps hP (fun _ _ _ => ?_) ?_
    | with_reducible refine State.no_keeps hP ?_ | with_reducible refine keeps_eq3 (by assumption) ?_ | split
    | intro _ | dsimp -zeta only

theorem execReadMem_keeps (hP : Closed P) {slow : Bool} {s : State} (h : P s) : AllNext P (execReadMem slow s) := by
  unfold execReadMem
  repeat' first
    | with_reducible assumption | with_reducible refine AllNext.next ?_
    | with_reducible refine State.runCommand_keeps hP (fun _ _ _ => ?_) ?_
    | with_reducible refine State.no_keeps hP ?_ | with_reducible refine State.gReadAny_keeps hP ?_
    | with_reducible refine keeps_eq3 (by assumption) ?_ | (extract_lets +onlyGivenNames x; try clear_value x) | split
    | intro _ | dsimp -zeta only

theorem execWriteMem_keeps (hP : Closed P) {slow : Bool} {s : State} (h : P s) : AllNext P (execWriteMem slow s) := by
  unfold execWriteMem
  repeat' first
    | with_reducible assumption | with_reducible refine AllNext.next ?_
    | with_reducible refine State.runCommand_keeps hP (fun _ _ _ => ?_) ?_
    | with_reducible refine State.gWriteAny_keeps hP ?_ | with_reducible refine keeps_eq2 (by assumption) ?_ | split
    | intro _ | dsimp -zeta only

theorem execCopyMem_keeps (hP : Closed P) {slow : Bool} {s : State} (h : P s) : AllNext P (execCopyMem slow s) := by
  unfold execCopyMem
  repeat' first
    | with_reducible assumption | with_reducible refine AllNext.next ?_
    | with_reducible refine State.runCommand_keeps hP (fun _ _ _ => ?_) ?_
    | with_reducible refine State.no_keeps hP ?_ | with_reducible refine State.copy_keeps hP ?_
    | with_reducible refine keeps_eq3 (by assumption) ?_ | (extract_lets +onlyGivenNames x; try clear_value x) | split
    | intro _ | dsimp -zeta only

theorem State.drain_keeps (hP : Closed P) {s : State} (h : P s) : P (State.drain s) := by
  unfold State.drain
  repeat' first
    | with_reducible assumption | exact rfl | (rw [State.mk_rest]; with_reducible refine hP.rest ?_ ?_)
    | dsimp -zeta only

theorem State.orderDone_keeps (hP : Closed P) {s : State} {flush : Bool} (h : P s) : P (State.orderDone s flush) := by
  unfold State.orderDone
  repeat' first
    | with_reducible assumption | with_reducible refine State.drain_keeps hP ?_ | split | dsimp -zeta only

theorem State.orderCmd_keeps (hP : Closed P) {s : State} {opcode : Nat} {flush : Bool} {slow : Bool} (h : P s) : P
    (State.orderCmd s opcode flush slow) := by
  unfold State.orderCmd
  repeat' first
    | with_reducible assumption | with_reducible refine State.runCommand_keeps hP (fun _ _ _ => ?_) ?_
    | with_reducible refine State.no_keeps hP ?_ | with_reducible refine State.yes_keeps hP ?_
    | with_reducible refine State.orderDone_keeps hP ?_ | with_reducible refine keeps_eq3 (by assumption) ?_
    | (extract_lets +onlyGivenNames x; try clear_value x) | split | intro _ | dsimp -zeta only

theorem execFlush_keeps (hP : Closed P) {slow : Bool} {s : State} (h : P s) : AllNext P (execFlush slow s) := by
  unfold execFlush
  repeat' first
    | with_reducible assumption | with_reducible refine AllNext.next ?_
    | with_reducible refine State.orderCmd_keeps hP ?_ | dsimp -zeta only

theorem execFence_keeps (hP : Closed P) {slow : Bool} {s : State} (h : P s) : AllNext P (execFence slow s) := by
  unfold execFence
  repeat' first
    | with_reducible assumption | with_reducible refine AllNext.next ?_
    | with_reducible refine State.orderCmd_keeps hP ?_ | dsimp -zeta only

end Sys2Proof.Machine
end

