-- ==== Sys2Proof/Laws/KeepsCmdStep.lean ====
section
/-!
SUPPORT. Laws/KeepsCmdStep.lean: every function of Machine/CmdStep.lean keeps a closed property (Laws/Keeps.lean).
-/
set_option linter.unusedVariables false
set_option linter.tactic.unusedName false

namespace Sys2Proof.Machine

open Sys2Proof

variable {P : State → Prop}

theorem State.putProgram_keeps (hP : Closed P) {s : State} {t : Nat} {slot : Bool} {p : List Byte} (h : P s) : P
    (State.putProgram s t slot p) := by
  unfold State.putProgram
  repeat' first
    | with_reducible assumption | with_reducible refine State.setTile_keeps hP ?_
    | (extract_lets +onlyGivenNames x; try clear_value x) | split | dsimp -zeta only

theorem execLoadProgram_keeps (hP : Closed P) {slow : Bool} {s : State} (h : P s) : AllNext P (execLoadProgram slow s)
    := by
  unfold execLoadProgram
  repeat' first
    | with_reducible assumption | with_reducible refine AllNext.next ?_
    | with_reducible refine State.runCommand_keeps hP (fun _ _ _ => ?_) ?_
    | with_reducible refine State.no_keeps hP ?_ | with_reducible refine State.needs_keeps (fun _ _ => ?_) ?_
    | with_reducible refine State.gRead_keeps hP ?_ | with_reducible refine State.yes_keeps hP ?_
    | with_reducible refine State.eachTile_keeps (fun _ _ _ => ?_) ?_
    | with_reducible refine State.putProgram_keeps hP ?_ | with_reducible refine keeps_eq3 (by assumption) ?_
    | (extract_lets +onlyGivenNames x; try clear_value x) | split | intro _ | dsimp -zeta only

theorem State.runGo_keeps (hP : Closed P) {s : State} {slot : Bool} {first : Nat} {count : Nat} (h : P s) : P
    (State.runGo s slot first count) := by
  unfold State.runGo
  repeat' first
    | with_reducible assumption | exact rfl | with_reducible refine hP.wr ?_
    | with_reducible refine State.markStale_keeps hP ?_ | with_reducible refine State.newWindow_keeps hP ?_
    | with_reducible refine State.enterStart_keeps hP ?_ | (rw [State.mk_rest]; with_reducible refine hP.rest ?_ ?_)
    | (extract_lets +onlyGivenNames x; first | (refine (?_ : P x → _) ?_; rotate_left; unfold x; rotate_left; clear_value x; intro) | try clear_value x)
    | split | dsimp -zeta only

theorem execRunSteps_keeps (hP : Closed P) {slow : Bool} {s : State} (h : P s) : AllNext P (execRunSteps slow s) := by
  unfold execRunSteps
  repeat' first
    | with_reducible assumption | with_reducible refine AllNext.next ?_
    | with_reducible refine State.runCommand_keeps hP (fun _ _ _ => ?_) ?_
    | with_reducible refine State.no_keeps hP ?_ | with_reducible refine State.needs_keeps (fun _ _ => ?_) ?_
    | with_reducible refine State.yes_keeps hP ?_ | with_reducible refine State.runGo_keeps hP ?_
    | with_reducible refine keeps_eq3 (by assumption) ?_ | (extract_lets +onlyGivenNames x; try clear_value x) | split
    | intro _ | dsimp -zeta only

theorem execHaltSteps_keeps (hP : Closed P) {slow : Bool} {s : State} (h : P s) : AllNext P (execHaltSteps slow s) :=
    by
  unfold execHaltSteps
  repeat' first
    | with_reducible assumption | exact rfl | with_reducible refine hP.wr ?_ | with_reducible refine AllNext.next ?_
    | with_reducible refine State.runCommand_keeps hP (fun _ _ _ => ?_) ?_
    | with_reducible refine State.yes_keeps hP ?_ | (rw [State.mk_rest]; with_reducible refine hP.rest ?_ ?_)
    | with_reducible refine keeps_eq3 (by assumption) ?_ | (extract_lets +onlyGivenNames x; try clear_value x) | split
    | intro _ | dsimp -zeta only

theorem execAbortJob_keeps (hP : Closed P) {s : State} (h : P s) : AllNext P (execAbortJob s) := by
  unfold execAbortJob
  repeat' first
    | with_reducible assumption | with_reducible refine AllNext.next ?_
    | with_reducible refine State.runCommand_keeps hP (fun _ _ _ => ?_) ?_
    | with_reducible refine State.take_keeps hP ?_ | with_reducible refine State.yes_keeps hP ?_
    | with_reducible refine keeps_eq3 (by assumption) ?_ | split | intro _ | dsimp -zeta only

theorem execStepStatus_keeps (hP : Closed P) {slow : Bool} {s : State} (h : P s) : AllNext P (execStepStatus slow s)
    := by
  unfold execStepStatus
  repeat' first
    | with_reducible assumption | with_reducible refine AllNext.next ?_
    | with_reducible refine State.runCommand_keeps hP (fun _ _ _ => ?_) ?_ | split | intro _ | dsimp -zeta only

theorem State.setTable_keeps (hP : Closed P) {s : State} {n : Nat} {d : List Byte} (h : P s) : P (State.setTable s n
    d) := by
  unfold State.setTable
  repeat' first
    | with_reducible assumption | exact rfl | (rw [State.mk_rest]; with_reducible refine hP.rest ?_ ?_)
    | (extract_lets +onlyGivenNames x; try clear_value x) | dsimp -zeta only

theorem execDefineTable_keeps (hP : Closed P) {slow : Bool} {s : State} (h : P s) : AllNext P (execDefineTable slow s)
    := by
  unfold execDefineTable
  repeat' first
    | with_reducible assumption | with_reducible refine AllNext.next ?_
    | with_reducible refine State.runCommand_keeps hP (fun _ _ _ => ?_) ?_
    | with_reducible refine State.no_keeps hP ?_ | with_reducible refine State.needs_keeps (fun _ _ => ?_) ?_
    | with_reducible refine State.yes_keeps hP ?_ | with_reducible refine State.setTable_keeps hP ?_
    | with_reducible refine keeps_eq3 (by assumption) ?_ | (extract_lets +onlyGivenNames x; try clear_value x) | split
    | intro _ | dsimp -zeta only

theorem State.dropTable_keeps (hP : Closed P) {s : State} {n : Nat} (h : P s) : P (State.dropTable s n) := by
  unfold State.dropTable
  repeat' first
    | with_reducible assumption | with_reducible refine State.setTable_keeps hP ?_
    | with_reducible refine State.unpoison_keeps hP ?_ | with_reducible refine State.dirDrop_keeps hP ?_
    | (extract_lets +onlyGivenNames x; first | (refine (?_ : P x → _) ?_; rotate_left; unfold x; rotate_left; clear_value x; intro) | try clear_value x)
    | split | dsimp -zeta only

theorem execDropTable_keeps (hP : Closed P) {slow : Bool} {s : State} (h : P s) : AllNext P (execDropTable slow s) :=
    by
  unfold execDropTable
  repeat' first
    | with_reducible assumption | with_reducible refine AllNext.next ?_
    | with_reducible refine State.runCommand_keeps hP (fun _ _ _ => ?_) ?_
    | with_reducible refine State.no_keeps hP ?_ | with_reducible refine State.needs_keeps (fun _ _ => ?_) ?_
    | with_reducible refine State.yes_keeps hP ?_ | with_reducible refine State.dropTable_keeps hP ?_
    | with_reducible refine keeps_eq3 (by assumption) ?_ | (extract_lets +onlyGivenNames x; try clear_value x) | split
    | intro _ | dsimp -zeta only

theorem execRestoreRow_keeps (hP : Closed P) {slow : Bool} {s : State} (h : P s) : AllNext P (execRestoreRow slow s)
    := by
  unfold execRestoreRow
  repeat' first
    | with_reducible assumption | with_reducible refine AllNext.next ?_
    | with_reducible refine State.runCommand_keeps hP (fun _ _ _ => ?_) ?_
    | with_reducible refine State.no_keeps hP ?_ | with_reducible refine State.needs_keeps (fun _ _ => ?_) ?_
    | with_reducible refine State.memWrite_keeps hP ?_ | with_reducible refine State.restage_keeps hP ?_
    | with_reducible refine State.unpoison_keeps hP ?_ | with_reducible refine State.dropDeltas_keeps hP ?_
    | with_reducible refine keeps_eq2 (by assumption) ?_ | with_reducible refine keeps_eq3 (by assumption) ?_
    | (extract_lets +onlyGivenNames x; first | (refine (?_ : P x → _) ?_; rotate_left; unfold x; rotate_left; clear_value x; intro) | try clear_value x)
    | split | intro _ | dsimp -zeta only

theorem State.hotPolicy_keeps (hP : Closed P) {s : State} {en : Nat} {window : Nat} {promote : Nat} {demote : Nat}
    {slot : Nat} (h : P s) : P (State.hotPolicy s en window promote demote slot) := by
  unfold State.hotPolicy
  repeat' first
    | with_reducible assumption | with_reducible refine hP.wr ?_ | with_reducible refine State.wrf_keeps hP ?_
    | with_reducible refine State.emptyDir_keeps hP ?_ | with_reducible refine State.newWindow_keeps hP ?_
    | (extract_lets +onlyGivenNames x; first | (refine (?_ : P x → _) ?_; rotate_left; unfold x; rotate_left; clear_value x; intro) | try clear_value x)
    | split | dsimp -zeta only

theorem execHotrowPolicy_keeps (hP : Closed P) {slow : Bool} {s : State} (h : P s) : AllNext P (execHotrowPolicy slow
    s) := by
  unfold execHotrowPolicy
  repeat' first
    | with_reducible assumption | with_reducible refine AllNext.next ?_
    | with_reducible refine State.runCommand_keeps hP (fun _ _ _ => ?_) ?_
    | with_reducible refine State.no_keeps hP ?_ | with_reducible refine State.needs_keeps (fun _ _ => ?_) ?_
    | with_reducible refine State.yes_keeps hP ?_ | with_reducible refine State.hotPolicy_keeps hP ?_
    | with_reducible refine keeps_eq3 (by assumption) ?_ | (extract_lets +onlyGivenNames x; try clear_value x) | split
    | intro _ | dsimp -zeta only

theorem execFlushJournal_keeps (hP : Closed P) {slow : Bool} {s : State} (h : P s) : AllNext P (execFlushJournal slow
    s) := by
  unfold execFlushJournal
  repeat' first
    | with_reducible assumption | with_reducible refine AllNext.next ?_
    | with_reducible refine State.runCommand_keeps hP (fun _ _ _ => ?_) ?_
    | with_reducible refine State.needs_keeps (fun _ _ => ?_) ?_ | with_reducible refine State.no_keeps hP ?_
    | with_reducible refine State.writeBack_keeps hP ?_ | with_reducible refine keeps_eq2 (by assumption) ?_
    | with_reducible refine keeps_eq3 (by assumption) ?_ | split | intro _ | dsimp -zeta only

theorem execLoadCalibration_keeps (hP : Closed P) {slow : Bool} {s : State} (h : P s) : AllNext P (execLoadCalibration
    slow s) := by
  unfold execLoadCalibration
  repeat' first
    | with_reducible assumption | with_reducible refine AllNext.next ?_
    | with_reducible refine State.runCommand_keeps hP (fun _ _ _ => ?_) ?_
    | with_reducible refine State.no_keeps hP ?_ | with_reducible refine State.needs_keeps (fun _ _ => ?_) ?_
    | with_reducible refine State.gRead_keeps hP ?_ | with_reducible refine State.yes_keeps hP ?_
    | with_reducible refine State.putCal_keeps hP ?_ | with_reducible refine keeps_eq3 (by assumption) ?_
    | (extract_lets +onlyGivenNames x; try clear_value x) | split | intro _ | dsimp -zeta only

theorem execSetLossScale_keeps (hP : Closed P) {slow : Bool} {s : State} (h : P s) : AllNext P (execSetLossScale slow
    s) := by
  unfold execSetLossScale
  repeat' first
    | with_reducible assumption | with_reducible refine AllNext.next ?_
    | with_reducible refine State.runCommand_keeps hP (fun _ _ _ => ?_) ?_
    | with_reducible refine State.no_keeps hP ?_ | with_reducible refine State.needs_keeps (fun _ _ => ?_) ?_
    | with_reducible refine State.yes_keeps hP ?_ | with_reducible refine State.setLoss_keeps hP ?_
    | with_reducible refine keeps_eq3 (by assumption) ?_ | (extract_lets +onlyGivenNames x; try clear_value x) | split
    | intro _ | dsimp -zeta only

theorem execReadNumericFlags_keeps (hP : Closed P) {slow : Bool} {s : State} (h : P s) : AllNext P
    (execReadNumericFlags slow s) := by
  unfold execReadNumericFlags
  repeat' first
    | with_reducible assumption | with_reducible refine AllNext.next ?_
    | with_reducible refine State.runCommand_keeps hP (fun _ _ _ => ?_) ?_
    | with_reducible refine State.no_keeps hP ?_ | with_reducible refine keeps_eq3 (by assumption) ?_
    | (extract_lets +onlyGivenNames x; try clear_value x) | split | intro _ | dsimp -zeta only

theorem State.clearFirst_keeps (hP : Closed P) {s : State} {c : Nat} (h : P s) : P (State.clearFirst s c) := by
  unfold State.clearFirst
  repeat' first
    | with_reducible assumption | with_reducible refine hP.wr ?_ | with_reducible refine State.setMe_keeps hP ?_
    | (extract_lets +onlyGivenNames x; try clear_value x) | dsimp -zeta only

theorem State.clearFlags_keeps (hP : Closed P) {s : State} {sc : Nat} {tg : Nat} (h : P s) : P (State.clearFlags s sc
    tg) := by
  unfold State.clearFlags
  repeat' first
    | with_reducible assumption | with_reducible refine hP.wr ?_
    | with_reducible refine foldl_keeps (fun _ _ _ => ?_) ?_ | with_reducible refine foldl_keeps2 (fun _ _ _ => ?_) ?_
    | with_reducible refine State.clearFirst_keeps hP ?_
    | (extract_lets +onlyGivenNames x; first | (refine (?_ : P x → _) ?_; rotate_left; unfold x; rotate_left; clear_value x; intro) | try clear_value x)
    | split | intro _ | dsimp -zeta only

theorem execClearNumericFlags_keeps (hP : Closed P) {slow : Bool} {s : State} (h : P s) : AllNext P
    (execClearNumericFlags slow s) := by
  unfold execClearNumericFlags
  repeat' first
    | with_reducible assumption | with_reducible refine AllNext.next ?_
    | with_reducible refine State.runCommand_keeps hP (fun _ _ _ => ?_) ?_
    | with_reducible refine State.no_keeps hP ?_ | with_reducible refine State.yes_keeps hP ?_
    | with_reducible refine State.clearFlags_keeps hP ?_ | with_reducible refine keeps_eq3 (by assumption) ?_
    | (extract_lets +onlyGivenNames x; try clear_value x) | split | intro _ | dsimp -zeta only

theorem State.putReg_keeps (hP : Closed P) {s : State} {off : Nat} {v : Nat} (h : P s) : P (State.putReg s off v) :=
    by
  unfold State.putReg
  repeat' first
    | with_reducible assumption | with_reducible refine State.csrPut_keeps hP ?_
    | with_reducible refine keeps_eq2 (by assumption) ?_ | split | dsimp -zeta only

theorem execTraceConfig_keeps (hP : Closed P) {slow : Bool} {s : State} (h : P s) : AllNext P (execTraceConfig slow s)
    := by
  unfold execTraceConfig
  repeat' first
    | with_reducible assumption | with_reducible refine AllNext.next ?_
    | with_reducible refine State.runCommand_keeps hP (fun _ _ _ => ?_) ?_
    | with_reducible refine State.no_keeps hP ?_ | with_reducible refine State.needs_keeps (fun _ _ => ?_) ?_
    | with_reducible refine State.putReg_keeps hP ?_ | with_reducible refine State.yes_keeps hP ?_
    | with_reducible refine State.eachTile_keeps (fun _ _ _ => ?_) ?_
    | with_reducible refine keeps_eq3 (by assumption) ?_
    | (extract_lets +onlyGivenNames x; first | (refine (?_ : P x → _) ?_; rotate_left; unfold x; rotate_left; clear_value x; intro) | try clear_value x)
    | split | intro _ | dsimp -zeta only

end Sys2Proof.Machine
end

