-- ==== Sys2Proof/Laws/KeepsCmdState.lean ====
section
/-!
SUPPORT. Laws/KeepsCmdState.lean: every function of Machine/CmdState.lean keeps a closed property (Laws/Keeps.lean).
-/
set_option linter.unusedVariables false
set_option linter.tactic.unusedName false

namespace Sys2Proof.Machine

open Sys2Proof

variable {P : State → Prop}

theorem execReadRecords_keeps (hP : Closed P) {slow : Bool} {s : State} (h : P s) : AllNext P (execReadRecords slow s)
    := by
  unfold execReadRecords
  repeat' first
    | with_reducible assumption | with_reducible refine AllNext.next ?_
    | with_reducible refine State.runCommand_keeps hP (fun _ _ _ => ?_) ?_
    | with_reducible refine State.cmdReadRecords_keeps hP ?_ | intro _ | dsimp -zeta only

theorem execClearSticky_keeps (hP : Closed P) {slow : Bool} {s : State} (h : P s) : AllNext P (execClearSticky slow s)
    := by
  unfold execClearSticky
  repeat' first
    | with_reducible assumption | with_reducible refine AllNext.next ?_
    | with_reducible refine State.runCommand_keeps hP (fun _ _ _ => ?_) ?_
    | with_reducible refine State.cmdClearSticky_keeps hP ?_ | intro _ | dsimp -zeta only

theorem execMonitorConfig_keeps (hP : Closed P) {slow : Bool} {s : State} (h : P s) : AllNext P (execMonitorConfig
    slow s) := by
  unfold execMonitorConfig
  repeat' first
    | with_reducible assumption | with_reducible refine AllNext.next ?_
    | with_reducible refine State.runCommand_keeps hP (fun _ _ _ => ?_) ?_
    | with_reducible refine State.cmdMonitorConfig_keeps hP ?_ | intro _ | dsimp -zeta only

theorem execMonitorRead_keeps (hP : Closed P) {slow : Bool} {s : State} (h : P s) : AllNext P (execMonitorRead slow s)
    := by
  unfold execMonitorRead
  repeat' first
    | with_reducible assumption | with_reducible refine AllNext.next ?_
    | with_reducible refine State.runCommand_keeps hP (fun _ _ _ => ?_) ?_
    | with_reducible refine State.cmdMonitorRead_keeps hP ?_ | intro _ | dsimp -zeta only

theorem State.putStream_keeps (hP : Closed P) {s : State} {g : Nat} {y3 : List (List Byte)} (h : P s) : P
    (State.putStream s g y3).2 := by
  induction y3 generalizing s g with
  | nil => exact h
  | cons x xs ih =>
    unfold State.putStream
    repeat' first
      | with_reducible assumption | with_reducible refine State.gWriteAny_keeps hP ?_
      | with_reducible refine keeps_eq2 (by assumption) ?_ | with_reducible apply ih | split | dsimp -zeta only

theorem execExportState_keeps (hP : Closed P) {slow : Bool} {s : State} (h : P s) : AllNext P (execExportState slow s)
    := by
  unfold execExportState
  repeat' first
    | with_reducible assumption | exact rfl | with_reducible refine AllNext.next ?_
    | with_reducible refine State.runCommand_keeps hP (fun _ _ _ => ?_) ?_
    | with_reducible refine State.needs_keeps (fun _ _ => ?_) ?_ | with_reducible refine State.no_keeps hP ?_
    | with_reducible refine State.exportStream_keeps hP ?_ | with_reducible refine State.putStream_keeps hP ?_
    | (rw [State.mk_rest]; with_reducible refine hP.rest ?_ ?_) | with_reducible refine keeps_eq2 (by assumption) ?_
    | with_reducible refine keeps_eq3 (by assumption) ?_ | (extract_lets +onlyGivenNames x; try clear_value x) | split
    | intro _ | dsimp -zeta only

theorem State.putUnits_keeps (hP : Closed P) {s : State} {records : Bool} {y3 : List (Nat × List Byte)} (h : P s) : P
    (State.putUnits s records y3) := by
  induction y3 generalizing s records with
  | nil => exact h
  | cons x xs ih =>
    unfold State.putUnits
    repeat' first
      | with_reducible assumption | with_reducible refine State.releaseTorn_keeps hP ?_
      | with_reducible refine State.store_keeps hP ?_ | with_reducible apply ih
      | (extract_lets +onlyGivenNames x; first | (refine (?_ : P x → _) ?_; rotate_left; unfold x; rotate_left; clear_value x; intro) | try clear_value x)
      | split | dsimp -zeta only

theorem execImportState_keeps (hP : Closed P) {slow : Bool} {s : State} (h : P s) : AllNext P (execImportState slow s)
    := by
  unfold execImportState
  repeat' first
    | with_reducible assumption | with_reducible refine AllNext.next ?_
    | with_reducible refine State.runCommand_keeps hP (fun _ _ _ => ?_) ?_
    | with_reducible refine State.needs_keeps (fun _ _ => ?_) ?_ | with_reducible refine State.no_keeps hP ?_
    | with_reducible refine State.gRead_keeps hP ?_ | with_reducible refine State.putUnits_keeps hP ?_
    | with_reducible refine keeps_eq3 (by assumption) ?_ | (extract_lets +onlyGivenNames x; try clear_value x) | split
    | intro _ | dsimp -zeta only

theorem State.acceptAll_keeps (hP : Closed P) {s : State} {y2 : List (Nat × Nat × UeSlot)} (h : P s) : P
    (State.acceptAll s y2).2.2 := by
  induction y2 generalizing s with
  | nil => exact h
  | cons x xs ih =>
    unfold State.acceptAll
    repeat' first
      | with_reducible assumption | with_reducible refine State.acceptTorn_keeps hP ?_
      | with_reducible refine keeps_eq2 (by assumption) ?_ | with_reducible refine keeps_eq3 (by assumption) ?_
      | with_reducible apply ih | split | dsimp -zeta only

theorem execAcceptTorn_keeps (hP : Closed P) {slow : Bool} {s : State} (h : P s) : AllNext P (execAcceptTorn slow s)
    := by
  unfold execAcceptTorn
  repeat' first
    | with_reducible assumption | with_reducible refine AllNext.next ?_
    | with_reducible refine State.runCommand_keeps hP (fun _ _ _ => ?_) ?_
    | with_reducible refine State.needs_keeps (fun _ _ => ?_) ?_ | with_reducible refine State.no_keeps hP ?_
    | with_reducible refine State.acceptAll_keeps hP ?_ | with_reducible refine keeps_eq3 (by assumption) ?_
    | (extract_lets +onlyGivenNames x; try clear_value x) | split | intro _ | dsimp -zeta only

theorem execUpdateFirmware_keeps (hP : Closed P) {verified : Bool} {s : State} (h : P s) : AllNext P
    (execUpdateFirmware verified s) := by
  unfold execUpdateFirmware
  repeat' first
    | with_reducible assumption | exact rfl | with_reducible refine hP.wr ?_ | with_reducible refine AllNext.next ?_
    | with_reducible refine State.runCommand_keeps hP (fun _ _ _ => ?_) ?_
    | with_reducible refine State.no_keeps hP ?_ | with_reducible refine State.gRead_keeps hP ?_
    | (rw [State.mk_rest]; with_reducible refine hP.rest ?_ ?_) | with_reducible refine keeps_eq3 (by assumption) ?_
    | (extract_lets +onlyGivenNames x; first | (refine (?_ : P x → _) ?_; rotate_left; unfold x; rotate_left; clear_value x; intro) | try clear_value x)
    | split | intro _ | dsimp -zeta only

theorem State.setUpdate_keeps (hP : Closed P) {s : State} {u : Option (List Byte × Bool × Bool)} (h : P s) : P
    (State.setUpdate s u) := by
  unfold State.setUpdate
  repeat' first
    | with_reducible assumption | exact rfl | (rw [State.mk_rest]; with_reducible refine hP.rest ?_ ?_)
    | (extract_lets +onlyGivenNames x; try clear_value x) | dsimp -zeta only

theorem State.copyGood_keeps (hP : Closed P) {s : State} {img : List Byte} {b : Bool} (h : P s) : P (State.copyGood s
    img b) := by
  unfold State.copyGood
  repeat' first
    | with_reducible assumption | with_reducible refine State.wrf_keeps hP ?_
    | with_reducible refine State.setImage_keeps hP ?_ | with_reducible refine State.lateDeferred_keeps hP ?_
    | with_reducible refine State.setUpdate_keeps hP ?_ | with_reducible refine State.pendingEnds_keeps hP ?_
    | (extract_lets +onlyGivenNames x; first | (refine (?_ : P x → _) ?_; rotate_left; unfold x; rotate_left; clear_value x; intro) | try clear_value x)
    | split | dsimp -zeta only

theorem State.copyBad_keeps (hP : Closed P) {s : State} {img : List Byte} {b : Bool} {again : Bool} (h : P s) : P
    (State.copyBad s img b again) := by
  unfold State.copyBad
  repeat' first
    | with_reducible assumption | with_reducible refine State.takeFree_keeps hP ?_
    | with_reducible refine State.setImage_keeps hP ?_ | with_reducible refine State.setUpdate_keeps hP ?_
    | with_reducible refine State.internal_keeps hP ?_ | with_reducible refine State.wrf_keeps hP ?_
    | with_reducible refine State.lateDeferred_keeps hP ?_ | with_reducible refine State.pendingEnds_keeps hP ?_
    | with_reducible refine keeps_eq2 (by assumption) ?_
    | (extract_lets +onlyGivenNames x; first | (refine (?_ : P x → _) ?_; rotate_left; unfold x; rotate_left; clear_value x; intro) | try clear_value x)
    | split | dsimp -zeta only

theorem execFirmwareCopyWritten_keeps (hP : Closed P) {ok : Bool} {s : State} (h : P s) : AllNext P
    (execFirmwareCopyWritten ok s) := by
  unfold execFirmwareCopyWritten
  repeat' first
    | with_reducible assumption | with_reducible refine AllNext.next ?_
    | with_reducible refine State.copyGood_keeps hP ?_ | with_reducible refine State.copyBad_keeps hP ?_ | split
    | dsimp -zeta only

end Sys2Proof.Machine
end

