-- ==== Sys2Proof/Laws/KeepsCmdPod.lean ====
section
/-!
SUPPORT. Laws/KeepsCmdPod.lean: every function of Machine/CmdPod.lean keeps a closed property (Laws/Keeps.lean).
-/
set_option linter.unusedVariables false
set_option linter.tactic.unusedName false

namespace Sys2Proof.Machine

open Sys2Proof

variable {P : State → Prop}

theorem State.takeChange_keeps (hP : Closed P) {s : State} {reshard : Bool} {b : List Byte} (h : P s) : P
    (State.takeChange s reshard b).2.2 := by
  unfold State.takeChange
  repeat' first
    | with_reducible assumption | exact rfl | with_reducible refine State.wrf_keeps hP ?_
    | with_reducible refine State.changeGone_keeps hP ?_ | with_reducible refine State.layFenceStart_keeps hP ?_
    | (rw [State.mk_rest]; with_reducible refine hP.rest ?_ ?_)
    | (extract_lets +onlyGivenNames x; first | (refine (?_ : P x → _) ?_; rotate_left; unfold x; rotate_left; clear_value x; intro) | try clear_value x)
    | split | dsimp -zeta only

theorem State.layoutCmd_keeps (hP : Closed P) {s : State} {reshard : Bool} (h : P s) : P (State.layoutCmd s reshard)
    := by
  unfold State.layoutCmd
  repeat' first
    | with_reducible assumption | with_reducible refine State.runCommand_keeps hP (fun _ _ _ => ?_) ?_
    | with_reducible refine State.needs_keeps (fun _ _ => ?_) ?_ | with_reducible refine State.takeChange_keeps hP ?_
    | with_reducible refine keeps_eq3 (by assumption) ?_ | (extract_lets +onlyGivenNames x; try clear_value x) | split
    | intro _ | dsimp -zeta only

theorem execSetLayout_keeps (hP : Closed P) {s : State} (h : P s) : AllNext P (execSetLayout s) := by
  unfold execSetLayout
  repeat' first
    | with_reducible assumption | with_reducible refine AllNext.next ?_
    | with_reducible refine State.layoutCmd_keeps hP ?_ | dsimp -zeta only

theorem execReshard_keeps (hP : Closed P) {s : State} (h : P s) : AllNext P (execReshard s) := by
  unfold execReshard
  repeat' first
    | with_reducible assumption | with_reducible refine AllNext.next ?_
    | with_reducible refine State.layoutCmd_keeps hP ?_ | dsimp -zeta only

theorem State.putChunks_keeps (hP : Closed P) {s : State} {c : Nat} {d : List (List Byte)} (h : P s) : P
    (State.putChunks s c d) := by
  unfold State.putChunks
  repeat' first
    | with_reducible assumption | exact rfl | (rw [State.mk_rest]; with_reducible refine hP.rest ?_ ?_)
    | (extract_lets +onlyGivenNames x; try clear_value x) | dsimp -zeta only

theorem State.putBlocks_keeps (hP : Closed P) {s : State} {c : Nat} {k : Nat} {d : List (List Byte)} (h : P s) : P
    (State.putBlocks s c k d) := by
  unfold State.putBlocks
  repeat' first
    | with_reducible assumption | exact rfl | (rw [State.mk_rest]; with_reducible refine hP.rest ?_ ?_)
    | (extract_lets +onlyGivenNames x; try clear_value x) | dsimp -zeta only

theorem State.dropDigests_keeps (hP : Closed P) {s : State} (h : P s) : P (State.dropDigests s) := by
  unfold State.dropDigests
  repeat' first
    | with_reducible assumption | exact rfl | (rw [State.mk_rest]; with_reducible refine hP.rest ?_ ?_)
    | (extract_lets +onlyGivenNames x; try clear_value x) | dsimp -zeta only

theorem State.digestTurn_keeps (hP : Closed P) {s : State} {axis : Nat} {n : Nat} (h : P s) : P (State.digestTurn s
    axis n) := by
  unfold State.digestTurn
  repeat' first
    | with_reducible assumption | exact rfl | with_reducible refine hP.emit ?_
    | with_reducible refine foldl_keeps (fun _ _ _ => ?_) ?_ | with_reducible refine foldl_keeps2 (fun _ _ _ => ?_) ?_
    | (rw [State.mk_rest]; with_reducible refine hP.rest ?_ ?_) | (extract_lets +onlyGivenNames x; try clear_value x)
    | split | intro _ | dsimp -zeta only

theorem State.digestJoin_keeps (hP : Closed P) {s : State} {axis : Nat} {d : List (List Byte)} (h : P s) : P
    (State.digestJoin s axis d) := by
  unfold State.digestJoin
  repeat' first
    | with_reducible assumption | with_reducible refine hP.emit ?_
    | with_reducible refine foldl_keeps (fun _ _ _ => ?_) ?_ | with_reducible refine foldl_keeps2 (fun _ _ _ => ?_) ?_
    | with_reducible refine State.putBlocks_keeps hP ?_ | with_reducible refine State.digestTurn_keeps hP ?_
    | with_reducible refine State.putChunks_keeps hP ?_
    | (extract_lets +onlyGivenNames x; first | (refine (?_ : P x → _) ?_; rotate_left; unfold x; rotate_left; clear_value x; intro) | try clear_value x)
    | intro _ | dsimp -zeta only

theorem execDigestCheck_keeps (hP : Closed P) {s : State} (h : P s) : AllNext P (execDigestCheck s) := by
  unfold execDigestCheck
  repeat' first
    | with_reducible assumption | with_reducible refine AllNext.next ?_
    | with_reducible refine State.runCommand_keeps hP (fun _ _ _ => ?_) ?_
    | with_reducible refine State.no_keeps hP ?_ | with_reducible refine State.memRead_keeps hP ?_
    | with_reducible refine State.digestJoin_keeps hP ?_ | with_reducible refine keeps_eq3 (by assumption) ?_
    | (extract_lets +onlyGivenNames x; try clear_value x) | split | intro _ | dsimp -zeta only

theorem execDigestMessage_keeps (hP : Closed P) {coord : Fin 32} {m : DigestMsg} {s : State} (h : P s) : AllNext P
    (execDigestMessage coord m s) := by
  unfold execDigestMessage
  repeat' first
    | with_reducible assumption | with_reducible refine AllNext.next ?_
    | with_reducible refine State.putBlocks_keeps hP ?_ | with_reducible refine State.putChunks_keeps hP ?_
    | with_reducible refine State.digestTurn_keeps hP ?_
    | (extract_lets +onlyGivenNames x; first | (refine (?_ : P x → _) ?_; rotate_left; unfold x; rotate_left; clear_value x; intro) | try clear_value x)
    | split | dsimp -zeta only

theorem State.digestDone_keeps (hP : Closed P) {s : State} {axis : Nat} {base : Nat} {n : Nat} (h : P s) : P
    (State.digestDone s axis base n) := by
  unfold State.digestDone
  repeat' first
    | with_reducible assumption | with_reducible refine foldl_keeps (fun _ _ _ => ?_) ?_
    | with_reducible refine foldl_keeps2 (fun _ _ _ => ?_) ?_ | with_reducible refine State.raise_keeps hP ?_
    | with_reducible refine State.pendingEnds_keeps hP ?_ | with_reducible refine State.dropDigests_keeps hP ?_
    | (extract_lets +onlyGivenNames x; first | (refine (?_ : P x → _) ?_; rotate_left; unfold x; rotate_left; clear_value x; intro) | try clear_value x)
    | split | intro _ | dsimp -zeta only

theorem execDigestJoinTimeout_keeps (hP : Closed P) {s : State} (h : P s) : AllNext P (execDigestJoinTimeout s) := by
  unfold execDigestJoinTimeout
  repeat' first
    | with_reducible assumption | with_reducible refine AllNext.next ?_
    | with_reducible refine State.pendingEnds_keeps hP ?_ | with_reducible refine State.dropDigests_keeps hP ?_
    | split | dsimp -zeta only

theorem State.linkAct_keeps (hP : Closed P) {s : State} {act : Nat} {p : Nat} (h : P s) : P (State.linkAct s act p) :=
    by
  unfold State.linkAct
  repeat' first
    | with_reducible assumption | with_reducible refine State.lnkRetrain_keeps hP ?_
    | with_reducible refine State.lnkEnable_keeps hP ?_ | split | dsimp -zeta only

theorem State.linkCmd_keeps (hP : Closed P) {s : State} {p : Nat → Bool} (h : P s) : P (State.linkCmd s p) := by
  unfold State.linkCmd
  repeat' first
    | with_reducible assumption | with_reducible refine foldl_keeps (fun _ _ _ => ?_) ?_
    | with_reducible refine foldl_keeps2 (fun _ _ _ => ?_) ?_
    | with_reducible refine keeps_some2 (State.headIs_keeps hP ?_) (by assumption)
    | with_reducible refine State.finish_keeps hP ?_ | with_reducible refine State.linkAct_keeps hP ?_
    | (extract_lets +onlyGivenNames x; first | (refine (?_ : P x → _) ?_; rotate_left; unfold x; rotate_left; clear_value x; intro) | try clear_value x)
    | split | intro _ | dsimp -zeta only

theorem execLinkStatus_keeps (hP : Closed P) {s : State} (h : P s) : AllNext P (execLinkStatus s) := by
  unfold execLinkStatus
  repeat' first
    | with_reducible assumption | with_reducible refine AllNext.next ?_
    | with_reducible refine State.linkCmd_keeps hP ?_ | dsimp -zeta only

theorem execLinkStatusRetrain_keeps (hP : Closed P) {s : State} (h : P s) : AllNext P (execLinkStatusRetrain s) := by
  unfold execLinkStatusRetrain
  repeat' first
    | with_reducible assumption | with_reducible refine AllNext.next ?_
    | with_reducible refine State.linkCmd_keeps hP ?_ | dsimp -zeta only

theorem execLinkStatusDisable_keeps (hP : Closed P) {s : State} (h : P s) : AllNext P (execLinkStatusDisable s) := by
  unfold execLinkStatusDisable
  repeat' first
    | with_reducible assumption | with_reducible refine AllNext.next ?_
    | with_reducible refine State.linkCmd_keeps hP ?_ | dsimp -zeta only

theorem execLinkStatusEnable_keeps (hP : Closed P) {s : State} (h : P s) : AllNext P (execLinkStatusEnable s) := by
  unfold execLinkStatusEnable
  repeat' first
    | with_reducible assumption | with_reducible refine AllNext.next ?_
    | with_reducible refine State.linkCmd_keeps hP ?_ | dsimp -zeta only

theorem State.parityCmd_keeps (hP : Closed P) {s : State} {p : Nat → Bool} {slow : Bool} {f : List Byte → State → Ans}
    (hf : ∀ b s, P s → P (f b s).2.2) (h : P s) : P (s.parityCmd p slow f) := by
  unfold State.parityCmd
  refine State.runCommand_keeps hP (fun e s h => ?_) h
  split
  · exact h
  · exact State.needs_keeps (hf _) h

theorem execParityConfigure_keeps (hP : Closed P) {s : State} (h : P s) : AllNext P (execParityConfigure s) := by
  unfold execParityConfigure
  repeat' first
    | with_reducible assumption | with_reducible refine AllNext.next ?_
    | with_reducible refine State.parityCmd_keeps hP (fun _ _ _ => ?_) ?_ | with_reducible refine State.no_keeps hP ?_
    | with_reducible refine keeps_eq3 (by assumption) ?_ | split | intro _ | dsimp -zeta only

theorem State.parityRepair_keeps (hP : Closed P) {s : State} {base : Nat} {len : Nat} {units : List (List Byte)} (h :
    P s) : P (State.parityRepair s base len units) := by
  unfold State.parityRepair
  repeat' first
    | with_reducible assumption | with_reducible refine hP.poke ?_
    | with_reducible refine foldl_keeps (fun _ _ _ => ?_) ?_ | with_reducible refine foldl_keeps2 (fun _ _ _ => ?_) ?_
    | with_reducible refine State.releaseTorn_keeps hP ?_ | with_reducible refine State.bump_keeps hP ?_
    | with_reducible refine State.unpoison_keeps hP ?_
    | (extract_lets +onlyGivenNames x; first | (refine (?_ : P x → _) ?_; rotate_left; unfold x; rotate_left; clear_value x; intro) | try clear_value x)
    | intro _ | dsimp -zeta only

theorem execParityRepair_keeps (hP : Closed P) {units : List (List Byte)} {lost : Option Bool} {slow : Bool} {s :
    State} (h : P s) : AllNext P (execParityRepair units lost slow s) := by
  unfold execParityRepair
  repeat' first
    | with_reducible assumption | with_reducible refine AllNext.next ?_
    | with_reducible refine State.parityCmd_keeps hP (fun _ _ _ => ?_) ?_ | with_reducible refine State.no_keeps hP ?_
    | with_reducible refine State.orBits_keeps hP ?_ | with_reducible refine State.parityRepair_keeps hP ?_
    | with_reducible refine keeps_eq3 (by assumption) ?_ | split | intro _ | dsimp -zeta only

theorem execParityDisable_keeps (hP : Closed P) {slow : Bool} {s : State} (h : P s) : AllNext P (execParityDisable
    slow s) := by
  unfold execParityDisable
  repeat' first
    | with_reducible assumption | with_reducible refine AllNext.next ?_
    | with_reducible refine State.parityCmd_keeps hP (fun _ _ _ => ?_) ?_ | with_reducible refine State.no_keeps hP ?_
    | with_reducible refine State.yes_keeps hP ?_ | with_reducible refine State.wrf_keeps hP ?_
    | with_reducible refine keeps_eq3 (by assumption) ?_ | split | intro _ | dsimp -zeta only

theorem execParityJoinTimeout_keeps (hP : Closed P) {s : State} (h : P s) : AllNext P (execParityJoinTimeout s) := by
  unfold execParityJoinTimeout
  repeat' first
    | with_reducible assumption | with_reducible refine AllNext.next ?_
    | with_reducible refine State.pendingEnds_keeps hP ?_ | split | dsimp -zeta only

theorem execSetClockSource_keeps (hP : Closed P) {slow : Bool} {s : State} (h : P s) : AllNext P (execSetClockSource
    slow s) := by
  unfold execSetClockSource
  repeat' first
    | with_reducible assumption | with_reducible refine AllNext.next ?_
    | with_reducible refine State.runCommand_keeps hP (fun _ _ _ => ?_) ?_
    | with_reducible refine State.yes_keeps hP ?_ | with_reducible refine State.switchDomain_keeps hP ?_
    | with_reducible refine State.no_keeps hP ?_ | with_reducible refine keeps_eq3 (by assumption) ?_
    | (extract_lets +onlyGivenNames x; try clear_value x) | split | intro _ | dsimp -zeta only

theorem execSetPerfPoint_keeps (hP : Closed P) {slow : Bool} {s : State} (h : P s) : AllNext P (execSetPerfPoint slow
    s) := by
  unfold execSetPerfPoint
  repeat' first
    | with_reducible assumption | with_reducible refine AllNext.next ?_
    | with_reducible refine State.runCommand_keeps hP (fun _ _ _ => ?_) ?_
    | with_reducible refine State.no_keeps hP ?_ | with_reducible refine State.wrf_keeps hP ?_
    | with_reducible refine State.yes_keeps hP ?_ | with_reducible refine State.askCap_keeps hP ?_
    | with_reducible refine keeps_eq3 (by assumption) ?_
    | (extract_lets +onlyGivenNames x; first | (refine (?_ : P x → _) ?_; rotate_left; unfold x; rotate_left; clear_value x; intro) | try clear_value x)
    | split | intro _ | dsimp -zeta only

theorem execLampStatus_keeps (hP : Closed P) {slow : Bool} {s : State} (h : P s) : AllNext P (execLampStatus slow s)
    := by
  unfold execLampStatus
  repeat' first
    | with_reducible assumption | with_reducible refine AllNext.next ?_
    | with_reducible refine State.runCommand_keeps hP (fun _ _ _ => ?_) ?_
    | with_reducible refine State.no_keeps hP ?_ | with_reducible refine keeps_eq3 (by assumption) ?_
    | (extract_lets +onlyGivenNames x; try clear_value x) | split | intro _ | dsimp -zeta only

theorem State.forceDark_keeps (hP : Closed P) {s : State} {k : Nat} (h : P s) : P (State.forceDark s k) := by
  unfold State.forceDark
  repeat' first
    | with_reducible assumption | with_reducible refine State.endRamp_keeps hP ?_
    | with_reducible refine State.ramp_keeps hP ?_ | with_reducible refine State.pairDark_keeps hP ?_
    | (extract_lets +onlyGivenNames x; first | (refine (?_ : P x → _) ?_; rotate_left; unfold x; rotate_left; clear_value x; intro) | try clear_value x)
    | split | dsimp -zeta only

theorem execLampRetire_keeps (hP : Closed P) {s : State} (h : P s) : AllNext P (execLampRetire s) := by
  unfold execLampRetire
  repeat' first
    | with_reducible assumption | with_reducible refine AllNext.next ?_
    | with_reducible refine keeps_some2 (State.headIs_keeps hP ?_) (by assumption)
    | with_reducible refine State.runCommand_keeps hP (fun _ _ _ => ?_) ?_
    | with_reducible refine State.no_keeps hP ?_ | with_reducible refine State.yes_keeps hP ?_
    | with_reducible refine State.forceDark_keeps hP ?_ | with_reducible refine State.ramp_keeps hP ?_
    | with_reducible refine keeps_eq3 (by assumption) ?_ | (extract_lets +onlyGivenNames x; try clear_value x) | split
    | intro _ | dsimp -zeta only

theorem execResetTile_keeps (hP : Closed P) {s : State} (h : P s) : AllNext P (execResetTile s) := by
  unfold execResetTile
  repeat' first
    | with_reducible assumption | with_reducible refine AllNext.next ?_
    | with_reducible refine keeps_some2 (State.headIs_keeps hP ?_) (by assumption)
    | with_reducible refine State.finish_keeps hP ?_ | with_reducible refine State.take_keeps hP ?_
    | (extract_lets +onlyGivenNames x; try clear_value x) | split | dsimp -zeta only

theorem execResetModule_keeps (hP : Closed P) {s : State} (h : P s) : AllNext P (execResetModule s) := by
  unfold execResetModule
  repeat' first
    | with_reducible assumption | exact rfl | with_reducible refine AllNext.next ?_
    | with_reducible refine keeps_some2 (State.headIs_keeps hP ?_) (by assumption)
    | with_reducible refine State.finish_keeps hP ?_ | with_reducible refine State.take_keeps hP ?_
    | (rw [State.mk_rest]; with_reducible refine hP.rest ?_ ?_)
    | (extract_lets +onlyGivenNames x; first | (refine (?_ : P x → _) ?_; rotate_left; unfold x; rotate_left; clear_value x; intro) | try clear_value x)
    | split | dsimp -zeta only

theorem State.parityReady_keeps (hP : Closed P) {s : State} {b : List Byte} {held : List (List Byte)} (h : P s) :
    SomeKeeps P (State.parityReady s b held) := by
  unfold State.parityReady
  repeat' first
    | with_reducible assumption | with_reducible refine hP.poke ?_
    | with_reducible refine foldl_keeps (fun _ _ _ => ?_) ?_ | with_reducible refine foldl_keeps2 (fun _ _ _ => ?_) ?_
    | with_reducible exact SomeKeeps.none | with_reducible refine SomeKeeps.some ?_
    | with_reducible refine State.parityInstall_keeps hP ?_
    | (extract_lets +onlyGivenNames x; first | (refine (?_ : P x → _) ?_; rotate_left; unfold x; rotate_left; clear_value x; intro) | try clear_value x)
    | split | intro _ | dsimp -zeta only

theorem State.pendingResult_keeps (hP : Closed P) {s : State} {p : PendCmd} {held : List (List Byte)} (h : P s) :
    SomeKeeps3 P (State.pendingResult s p held) := by
  unfold State.pendingResult
  repeat' first
    | with_reducible assumption | with_reducible exact SomeKeeps3.none | with_reducible refine SomeKeeps3.some ?_
    | with_reducible refine SomeKeeps2.map (fun _ => ?_) | with_reducible refine State.yes_keeps hP ?_
    | with_reducible refine State.orderDone_keeps hP ?_ | with_reducible refine State.digestDone_keeps hP ?_
    | with_reducible refine keeps_some (State.parityReady_keeps hP ?_) (by assumption)
    | with_reducible refine State.no_keeps hP ?_ | with_reducible refine keeps_eq3 (by assumption) ?_
    | with_reducible refine SomeKeeps3.map (fun _ _ => ?_) (State.parityReady_keeps hP ?_)
    | (extract_lets +onlyGivenNames x; first | (refine (?_ : P x → _) ?_; rotate_left; unfold x; rotate_left; clear_value x; intro) | try clear_value x)
    | split | dsimp -zeta only

theorem execPendingCommandComplete_keeps (hP : Closed P) {held : List (List Byte)} {s : State} (h : P s) : AllNext P
    (execPendingCommandComplete held s) := by
  unfold execPendingCommandComplete
  repeat' first
    | with_reducible assumption | with_reducible refine AllNext.next ?_
    | with_reducible refine keeps_some3 (State.pendingResult_keeps hP ?_) (by assumption)
    | with_reducible refine State.embPump_keeps hP ?_ | with_reducible refine State.finish_keeps hP ?_
    | with_reducible refine State.setHcp_keeps hP ?_ | split | dsimp -zeta only

end Sys2Proof.Machine
end

