-- ==== Sys2Proof/Laws/KeepsTick.lean ====
section
/-!
SUPPORT. Laws/KeepsTick.lean: every function of Machine/Tick.lean keeps a closed property (Laws/Keeps.lean).
-/
set_option linter.unusedVariables false
set_option linter.tactic.unusedName false

namespace Sys2Proof.Machine

open Sys2Proof

variable {P : State → Prop}

theorem State.podTick_keeps (hP : Closed P) {s : State} (h : P s) : P (State.podTick s) := by
  unfold State.podTick
  repeat' first
    | with_reducible assumption | exact rfl | with_reducible refine hP.wr ?_
    | (rw [State.mk_rest]; with_reducible refine hP.rest ?_ ?_)
    | (extract_lets +onlyGivenNames x; first | (refine (?_ : P x → _) ?_; rotate_left; unfold x; rotate_left; clear_value x; intro) | try clear_value x)
    | split | dsimp -zeta only

theorem State.coresTick_keeps (hP : Closed P) {s : State} (h : P s) : P (State.coresTick s) := by
  unfold State.coresTick
  repeat' first
    | with_reducible assumption | with_reducible refine foldl_keeps (fun _ _ _ => ?_) ?_
    | with_reducible refine foldl_keeps2 (fun _ _ _ => ?_) ?_ | with_reducible refine State.meTick_keeps hP ?_ | split
    | intro _ | dsimp -zeta only

theorem State.timeTick_keeps (hP : Closed P) {s : State} (h : P s) : P (State.timeTick s) := by
  unfold State.timeTick
  repeat' first
    | with_reducible assumption | with_reducible refine hP.wr ?_ | with_reducible refine State.podTick_keeps hP ?_
    | split | dsimp -zeta only

theorem State.hubTick_keeps (hP : Closed P) {s : State} (h : P s) : P (State.hubTick s) := by
  unfold State.hubTick
  repeat' first
    | with_reducible assumption | with_reducible refine State.lateDeferred_keeps hP ?_
    | with_reducible refine State.commitOn_keeps hP ?_ | with_reducible refine State.capTick_keeps hP ?_ | split
    | dsimp -zeta only

theorem State.tick_keeps (hP : Closed P) {s : State} (h : P s) : P (State.tick s) := by
  unfold State.tick
  repeat' first
    | with_reducible assumption | exact rfl | with_reducible refine State.hubTick_keeps hP ?_
    | with_reducible refine State.timeTick_keeps hP ?_ | with_reducible refine State.coresTick_keeps hP ?_
    | (rw [State.mk_rest]; with_reducible refine hP.rest ?_ ?_) | dsimp -zeta only

end Sys2Proof.Machine
end

