-- ==== Sys2Proof/Laws/Exec.lean ====
section
/-!
SUPPORT. Laws/Exec.lean: every command and every step keep a closed property.
-/
namespace Sys2Proof.Machine

open Sys2Proof

variable {P : State → Prop}

/-- A command keeps a closed property that does not speak of the owner record. -/
theorem exec_keeps (hP : Closed P) (hO : OwnerFree P) {s : State} (h : P s) (c : Instr) : AllNext P (exec c s) := by
  cases c with
  | registerWrite => exact execRegisterWrite_keeps hP h
  | inputPowerApplied => exact execInputPowerApplied_keeps hP h
  | inputPowerLost => exact execInputPowerLost_keeps hP h
  | pwrEnRise => exact execPwrEnRise_keeps hP h
  | pwrGoodRelease => exact execPwrGoodRelease_keeps hP h
  | pwrEnFall => exact execPwrEnFall_keeps hP h
  | emergOffExternal => exact execEmergOffExternal_keeps hP h
  | inputOvervoltage => exact execInputOvervoltage_keeps hP h
  | inputUndervoltage => exact execInputUndervoltage_keeps hP h
  | inputOutOfRange => exact execInputOutOfRange_keeps hP h
  | railFault => exact execRailFault_keeps hP h
  | railWarn => exact execRailWarn_keeps hP h
  | thermalTrip => exact execThermalTrip_keeps hP h
  | smbStatus => exact execSmbStatus_keeps hP h
  | smbInputVoltage => exact execSmbInputVoltage_keeps hP h
  | smbInputCurrent => exact execSmbInputCurrent_keeps hP h
  | smbInputPower => exact execSmbInputPower_keeps hP h
  | smbHottest => exact execSmbHottest_keeps hP h
  | smbInlet => exact execSmbInlet_keeps hP h
  | smbOutlet => exact execSmbOutlet_keeps hP h
  | smbOffCause => exact execSmbOffCause_keeps hP h
  | smbAlertSource => exact execSmbAlertSource_keeps hP h
  | smbAlertClear => exact execSmbAlertClear_keeps hP h
  | smbIdentity => exact execSmbIdentity_keeps hP h
  | smbAlertResponse => exact execSmbAlertResponse_keeps hP h
  | pwrOffCauseClear => exact execPwrOffCauseClear_keeps hP h
  | scanBypass => exact execScanBypass_keeps hP h
  | scanIdcode => exact execScanIdcode_keeps hP h
  | scanSample => exact execScanSample_keeps hP h
  | scanExtest => exact execScanExtest_keeps hP h
  | scanClamp => exact execScanClamp_keeps hP h
  | scanHighz => exact execScanHighz_keeps hP h
  | hcpPacket => exact execHcpPacket_keeps hP h
  | relay => exact execRelay_keeps hP h
  | fragmentTimeout => exact execFragmentTimeout_keeps hP h
  | neighbourDiscovery => exact execNeighbourDiscovery_keeps hP h
  | echoRequest => exact execEchoRequest_keeps hP h
  | pendingCommandComplete => exact execPendingCommandComplete_keeps hP h
  | hello => exact execHello_keeps hP h
  | attest => exact execAttest_keeps hP h
  | openSession => exact execOpenSession_keeps hP hO h
  | claimSession => exact execClaimSession_keeps hP hO h
  | transferSession => exact execTransferSession_keeps hP hO h
  | releaseSession => exact execReleaseSession_keeps hP hO h
  | closeSession => exact execCloseSession_keeps hP h
  | readCsr => exact execReadCsr_keeps hP h
  | writeCsr => exact execWriteCsr_keeps hP h
  | getInfo => exact execGetInfo_keeps hP h
  | readMem => exact execReadMem_keeps hP h
  | writeMem => exact execWriteMem_keeps hP h
  | copyMem => exact execCopyMem_keeps hP h
  | flush => exact execFlush_keeps hP h
  | fence => exact execFence_keeps hP h
  | loadProgram => exact execLoadProgram_keeps hP h
  | runSteps => exact execRunSteps_keeps hP h
  | haltSteps => exact execHaltSteps_keeps hP h
  | abortJob => exact execAbortJob_keeps hP h
  | stepStatus => exact execStepStatus_keeps hP h
  | defineTable => exact execDefineTable_keeps hP h
  | dropTable => exact execDropTable_keeps hP h
  | restoreRow => exact execRestoreRow_keeps hP h
  | hotrowPolicy => exact execHotrowPolicy_keeps hP h
  | flushJournal => exact execFlushJournal_keeps hP h
  | loadCalibration => exact execLoadCalibration_keeps hP h
  | setLossScale => exact execSetLossScale_keeps hP h
  | readNumericFlags => exact execReadNumericFlags_keeps hP h
  | clearNumericFlags => exact execClearNumericFlags_keeps hP h
  | traceConfig => exact execTraceConfig_keeps hP h
  | setLayout => exact execSetLayout_keeps hP h
  | reshard => exact execReshard_keeps hP h
  | digestCheck => exact execDigestCheck_keeps hP h
  | digestMessage => exact execDigestMessage_keeps hP h
  | linkStatus => exact execLinkStatus_keeps hP h
  | linkStatusRetrain => exact execLinkStatusRetrain_keeps hP h
  | linkStatusDisable => exact execLinkStatusDisable_keeps hP h
  | linkStatusEnable => exact execLinkStatusEnable_keeps hP h
  | parityConfigure => exact execParityConfigure_keeps hP h
  | parityRepair => exact execParityRepair_keeps hP h
  | parityDisable => exact execParityDisable_keeps hP h
  | setClockSource => exact execSetClockSource_keeps hP h
  | setPerfPoint => exact execSetPerfPoint_keeps hP h
  | lampStatus => exact execLampStatus_keeps hP h
  | lampRetire => exact execLampRetire_keeps hP h
  | readRecords => exact execReadRecords_keeps hP h
  | clearSticky => exact execClearSticky_keeps hP h
  | monitorConfig => exact execMonitorConfig_keeps hP h
  | monitorRead => exact execMonitorRead_keeps hP h
  | exportState => exact execExportState_keeps hP h
  | importState => exact execImportState_keeps hP h
  | acceptTorn => exact execAcceptTorn_keeps hP h
  | updateFirmware => exact execUpdateFirmware_keeps hP h
  | firmwareCopyWritten => exact execFirmwareCopyWritten_keeps hP h
  | resetTile => exact execResetTile_keeps hP h
  | resetModule => exact execResetModule_keeps hP h
  | feedSample => exact execFeedSample_keeps hP h
  | indexEnd => exact execIndexEnd_keeps hP h
  | batchEnd => exact execBatchEnd_keeps hP h
  | stateIn => exact execStateIn_keeps hP h
  | stateCredit => exact execStateCredit_keeps hP h
  | exportCreditTimeout => exact execExportCreditTimeout_keeps hP h
  | feedStatusTimer => exact execFeedStatusTimer_keeps hP h
  | feedRegisterWrite => exact execFeedRegisterWrite_keeps hP h
  | stepStart => exact execStepStart_keeps hP h
  | feedCopyEnd => exact execFeedCopyEnd_keeps hP h
  | feedTimeout => exact execFeedTimeout_keeps hP h
  | nopDesc => exact execNopDesc_keeps hP h
  | matmul => exact execMatmul_keeps hP h
  | veRun => exact execVeRun_keeps hP h
  | shareDispatch => exact execShareDispatch_keeps hP h
  | embLookup => exact execEmbLookup_keeps hP h
  | embGrad => exact execEmbGrad_keeps hP h
  | embApply => exact execEmbApply_keeps hP h
  | prefetch => exact execPrefetch_keeps hP h
  | easelLoad => exact execEaselLoad_keeps hP h
  | easelFence => exact execEaselFence_keeps hP h
  | windowTimeout => exact execWindowTimeout_keeps hP h
  | allGather => exact execAllGather_keeps hP h
  | reduceScatter => exact execReduceScatter_keeps hP h
  | allReduce => exact execAllReduce_keeps hP h
  | colBroadcast => exact execColBroadcast_keeps hP h
  | colShift => exact execColShift_keeps hP h
  | collectiveMessage => exact execCollectiveMessage_keeps hP h
  | quantDesc => exact execQuantDesc_keeps hP h
  | updateDesc => exact execUpdateDesc_keeps hP h
  | copyDesc => exact execCopyDesc_keeps hP h
  | memFence => exact execMemFence_keeps hP h
  | flagReduce => exact execFlagReduce_keeps hP h
  | flagReduceResult => exact execFlagReduceResult_keeps hP h
  | endStep => exact execEndStep_keeps hP h
  | descriptorComplete => exact execDescriptorComplete_keeps hP h
  | fenceBegin => exact execFenceBegin_keeps hP h
  | fenceMessage => exact execFenceMessage_keeps hP h
  | arrivalBarrierComplete => exact execArrivalBarrierComplete_keeps hP h
  | completionBarrierComplete => exact execCompletionBarrierComplete_keeps hP h
  | startBarrierComplete => exact execStartBarrierComplete_keeps hP h
  | podTimeout => exact execPodTimeout_keeps hP h
  | stepAbortNotice => exact execStepAbortNotice_keeps hP h
  | clearMixed => exact execClearMixed_keeps hP h
  | seqStepSet => exact execSeqStepSet_keeps hP h
  | mma => exact execMma_keeps hP h
  | tileNop => exact execTileNop_keeps hP h
  | chainReductionEnd => exact execChainReductionEnd_keeps hP h
  | chainConversionEnd => exact execChainConversionEnd_keeps hP h
  | confirm => exact execConfirm_keeps hP h
  | replay => exact execReplay_keeps hP h
  | meWatchdogExpiry => exact execMeWatchdogExpiry_keeps hP h
  | dmaTransferComplete => exact execDmaTransferComplete_keeps hP h
  | spareSelftestStart => exact execSpareSelftestStart_keeps hP h
  | spareSelftestEnd => exact execSpareSelftestEnd_keeps hP h
  | repairRequestCommit => exact execRepairRequestCommit_keeps hP h
  | qzPaletteWrite => exact execQzPaletteWrite_keeps hP h
  | veShareStart => exact execVeShareStart_keeps hP h
  | veShareComplete => exact execVeShareComplete_keeps hP h
  | veInsnLimitExpiry => exact execVeInsnLimitExpiry_keeps hP h
  | veNop => exact execVeNop_keeps hP h
  | halt => exact execHalt_keeps hP h
  | jmp => exact execJmp_keeps hP h
  | bz => exact execBz_keeps hP h
  | bnz => exact execBnz_keeps hP h
  | loop => exact execLoop_keeps hP h
  | dmawait => exact execDmawait_keeps hP h
  | sli => exact execSli_keeps hP h
  | slui => exact execSlui_keeps hP h
  | sadd => exact execSadd_keeps hP h
  | ssub => exact execSsub_keeps hP h
  | smul => exact execSmul_keeps hP h
  | sand => exact execSand_keeps hP h
  | sor => exact execSor_keeps hP h
  | sxor => exact execSxor_keeps hP h
  | sshl => exact execSshl_keeps hP h
  | sshr => exact execSshr_keeps hP h
  | scmplt => exact execScmplt_keeps hP h
  | scmpeq => exact execScmpeq_keeps hP h
  | sld => exact execSld_keeps hP h
  | sst => exact execSst_keeps hP h
  | sget => exact execSget_keeps hP h
  | vld => exact execVld_keeps hP h
  | vst => exact execVst_keeps hP h
  | vld16 => exact execVld16_keeps hP h
  | vst16 => exact execVst16_keeps hP h
  | vld8 => exact execVld8_keeps hP h
  | vst8 => exact execVst8_keeps hP h
  | vldp => exact execVldp_keeps hP h
  | vstp => exact execVstp_keeps hP h
  | vgather => exact execVgather_keeps hP h
  | vscatter => exact execVscatter_keeps hP h
  | vbcast => exact execVbcast_keeps hP h
  | popt => exact execPopt_keeps hP h
  | fadd => exact execFadd_keeps hP h
  | fsub => exact execFsub_keeps hP h
  | fmul => exact execFmul_keeps hP h
  | ffma => exact execFfma_keeps hP h
  | fdiv => exact execFdiv_keeps hP h
  | fsqrt => exact execFsqrt_keeps hP h
  | fmin => exact execFmin_keeps hP h
  | fmax => exact execFmax_keeps hP h
  | fabs => exact execFabs_keeps hP h
  | fneg => exact execFneg_keeps hP h
  | fexp2 => exact execFexp2_keeps hP h
  | flog2 => exact execFlog2_keeps hP h
  | frsqrt => exact execFrsqrt_keeps hP h
  | fcmpeq => exact execFcmpeq_keeps hP h
  | fcmplt => exact execFcmplt_keeps hP h
  | fcmple => exact execFcmple_keeps hP h
  | iadd => exact execIadd_keeps hP h
  | isub => exact execIsub_keeps hP h
  | imul => exact execImul_keeps hP h
  | iadds => exact execIadds_keeps hP h
  | imin => exact execImin_keeps hP h
  | imax => exact execImax_keeps hP h
  | vand => exact execVand_keeps hP h
  | vor => exact execVor_keeps hP h
  | vxor => exact execVxor_keeps hP h
  | vshl => exact execVshl_keeps hP h
  | vshr => exact execVshr_keeps hP h
  | vsra => exact execVsra_keeps hP h
  | icmpeq => exact execIcmpeq_keeps hP h
  | icmplt => exact execIcmplt_keeps hP h
  | iaddi => exact execIaddi_keeps hP h
  | cvt => exact execCvt_keeps hP h
  | cvts => exact execCvts_keeps hP h
  | fcvti => exact execFcvti_keeps hP h
  | icvtf => exact execIcvtf_keeps hP h
  | vsel => exact execVsel_keeps hP h
  | vperm => exact execVperm_keeps hP h
  | vrot => exact execVrot_keeps hP h
  | vgetl => exact execVgetl_keeps hP h
  | vsetl => exact execVsetl_keeps hP h
  | vmov => exact execVmov_keeps hP h
  | fredsum => exact execFredsum_keeps hP h
  | fredmax => exact execFredmax_keeps hP h
  | fredmin => exact execFredmin_keeps hP h
  | iredsum => exact execIredsum_keeps hP h
  | iredmax => exact execIredmax_keeps hP h
  | iredmin => exact execIredmin_keeps hP h
  | mand => exact execMand_keeps hP h
  | mor => exact execMor_keeps hP h
  | mxor => exact execMxor_keeps hP h
  | mnot => exact execMnot_keeps hP h
  | mset => exact execMset_keeps hP h
  | mget => exact execMget_keeps hP h
  | mpop => exact execMpop_keeps hP h
  | rand => exact execRand_keeps hP h
  | maskgen => exact execMaskgen_keeps hP h
  | dmaget => exact execDmaget_keeps hP h
  | dmaput => exact execDmaput_keeps hP h
  | quantJobStart => exact execQuantJobStart_keeps hP h
  | quantConversionEnd => exact execQuantConversionEnd_keeps hP h
  | quantReconversionEnd => exact execQuantReconversionEnd_keeps hP h
  | traceCopyEnd => exact execTraceCopyEnd_keeps hP h
  | traceRecomputeEnd => exact execTraceRecomputeEnd_keeps hP h
  | blockStageStart => exact execBlockStageStart_keeps hP h
  | blockStaged => exact execBlockStaged_keeps hP h
  | blockCommitWriteDone => exact execBlockCommitWriteDone_keeps hP h
  | recipeWrite => exact execRecipeWrite_keeps hP h
  | recipeCommit => exact execRecipeCommit_keeps hP h
  | rowWriteDone => exact execRowWriteDone_keeps hP h
  | embRequest => exact execEmbRequest_keeps hP h
  | rowReadDone => exact execRowReadDone_keeps hP h
  | poolShareComplete => exact execPoolShareComplete_keeps hP h
  | pooledResponse => exact execPooledResponse_keeps hP h
  | rowsResponse => exact execRowsResponse_keeps hP h
  | contribution => exact execContribution_keeps hP h
  | changeList => exact execChangeList_keeps hP h
  | commonsRefresh => exact execCommonsRefresh_keeps hP h
  | memoryAccess => exact execMemoryAccess_keeps hP h
  | remoteAccess => exact execRemoteAccess_keeps hP h
  | readCompletion => exact execReadCompletion_keeps hP h
  | parityDelta => exact execParityDelta_keeps hP h
  | patrolScrub => exact execPatrolScrub_keeps hP h
  | journalAreaCleared => exact execJournalAreaCleared_keeps hP h
  | delayWrite => exact execDelayWrite_keeps hP h
  | holdCutoff => exact execHoldCutoff_keeps hP h
  | withdraw => exact execWithdraw_keeps hP h
  | dataBlock => exact execDataBlock_keeps hP h
  | idleBlock => exact execIdleBlock_keeps hP h
  | nakTimer => exact execNakTimer_keeps hP h
  | replayTimeout => exact execReplayTimeout_keeps hP h
  | messageReceived => exact execMessageReceived_keeps hP h
  | identBlock => exact execIdentBlock_keeps hP h
  | trainMarker => exact execTrainMarker_keeps hP h
  | keyBlock => exact execKeyBlock_keeps hP h
  | laneSwap => exact execLaneSwap_keeps hP h
  | timeBlock => exact execTimeBlock_keeps hP h
  | downBlock => exact execDownBlock_keeps hP h
  | trainingStart => exact execTrainingStart_keeps hP h
  | laneLock => exact execLaneLock_keeps hP h
  | presetSweepEnd => exact execPresetSweepEnd_keeps hP h
  | alignmentDone => exact execAlignmentDone_keeps hP h
  | trainingTimeout => exact execTrainingTimeout_keeps hP h
  | laneWindow => exact execLaneWindow_keeps hP h
  | alignmentLost => exact execAlignmentLost_keeps hP h
  | retrainDone => exact execRetrainDone_keeps hP h
  | retrainTimeout => exact execRetrainTimeout_keeps hP h
  | linkStateMessage => exact execLinkStateMessage_keeps hP h
  | timePeriod => exact execTimePeriod_keeps hP h
  | lnkEnable => exact execLnkEnable_keeps hP h
  | lnkRetrain => exact execLnkRetrain_keeps hP h
  | lnkFullTrain => exact execLnkFullTrain_keeps hP h
  | lampInserted => exact execLampInserted_keeps hP h
  | lampAuthResponse => exact execLampAuthResponse_keeps hP h
  | lampAuthTimeout => exact execLampAuthTimeout_keeps hP h
  | lampPulled => exact execLampPulled_keeps hP h
  | lampInterlock => exact execLampInterlock_keeps hP h
  | lampFail => exact execLampFail_keeps hP h
  | rampEnd => exact execRampEnd_keeps hP h
  | lampMinute => exact execLampMinute_keeps hP h
  | lampHour => exact execLampHour_keeps hP h
  | lampBiasSample => exact execLampBiasSample_keeps hP h
  | autoLight => exact execAutoLight_keeps hP h
  | openFibreBlock => exact execOpenFibreBlock_keeps hP h
  | openFibreProbe => exact execOpenFibreProbe_keeps hP h
  | layoutArrivalBarrier => exact execLayoutArrivalBarrier_keeps hP h
  | layoutCompletionBarrier => exact execLayoutCompletionBarrier_keeps hP h
  | rebuildEnd => exact execRebuildEnd_keeps hP h
  | podInstall => exact execPodInstall_keeps hP h
  | podClear => exact execPodClear_keeps hP h
  | extendGo => exact execExtendGo_keeps hP h
  | rngHealthFail => exact execRngHealthFail_keeps hP h
  | clockWindow => exact execClockWindow_keeps hP h
  | edgeLoss => exact execEdgeLoss_keeps hP h
  | tempSample => exact execTempSample_keeps hP h
  | powerWindow => exact execPowerWindow_keeps hP h
  | pointChange => exact execPointChange_keeps hP h
  | loadEstimate => exact execLoadEstimate_keeps hP h
  | eventReached => exact execEventReached_keeps hP h
  | monitorSample => exact execMonitorSample_keeps hP h
  | bootRomDone => exact execBootRomDone_keeps hP h
  | domainsUngated => exact execDomainsUngated_keeps hP h
  | coreSelftestEnd => exact execCoreSelftestEnd_keeps hP h
  | hbmTrained => exact execHbmTrained_keeps hP h
  | dimmsTrained => exact execDimmsTrained_keeps hP h
  | reeveStart => exact execReeveStart_keeps hP h
  | lampsLit => exact execLampsLit_keeps hP h
  | granaryZeroed => exact execGranaryZeroed_keeps hP h
  | emergOffRelease => exact execEmergOffRelease_keeps hP h
  | inputReturnsToRange => exact execInputReturnsToRange_keeps hP h
  | rngHealthRestored => exact execRngHealthRestored_keeps hP h
  | digestJoinTimeout => exact execDigestJoinTimeout_keeps hP h
  | parityJoinTimeout => exact execParityJoinTimeout_keeps hP h
  | illegalOpcode => exact execIllegalOpcode_keeps hP h

end Sys2Proof.Machine
end

