-- ==== Sys2Proof/Laws/State.lean ====
section
/-!
SUPPORT. Laws/State.lean: what each plain update of the state leaves unchanged, field by field.
-/
namespace Sys2Proof.Machine

open Sys2Proof

/-! ### State.wr -/

@[simp] theorem State.wr_pending (s : State) (k v : Nat) : (s.wr k v).pending = s.pending := rfl
@[simp] theorem State.wr_mem (s : State) (k v : Nat) : (s.wr k v).mem = s.mem := rfl
@[simp] theorem State.wr_posted (s : State) (k v : Nat) : (s.wr k v).posted = s.posted := rfl
@[simp] theorem State.wr_ue (s : State) (k v : Nat) : (s.wr k v).ue = s.ue := rfl
@[simp] theorem State.wr_pwr (s : State) (k v : Nat) : (s.wr k v).pwr = s.pwr := rfl
@[simp] theorem State.wr_seq (s : State) (k v : Nat) : (s.wr k v).seq = s.seq := rfl
@[simp] theorem State.wr_tseq (s : State) (k v : Nat) : (s.wr k v).tseq = s.tseq := rfl
@[simp] theorem State.wr_cores (s : State) (k v : Nat) : (s.wr k v).cores = s.cores := rfl
@[simp] theorem State.wr_repair (s : State) (k v : Nat) : (s.wr k v).repair = s.repair := rfl
@[simp] theorem State.wr_qz (s : State) (k v : Nat) : (s.wr k v).qz = s.qz := rfl
@[simp] theorem State.wr_qzm (s : State) (k v : Nat) : (s.wr k v).qzm = s.qzm := rfl
@[simp] theorem State.wr_upd (s : State) (k v : Nat) : (s.wr k v).upd = s.upd := rfl
@[simp] theorem State.wr_gran (s : State) (k v : Nat) : (s.wr k v).gran = s.gran := rfl
@[simp] theorem State.wr_emb (s : State) (k v : Nat) : (s.wr k v).emb = s.emb := rfl
@[simp] theorem State.wr_embm (s : State) (k v : Nat) : (s.wr k v).embm = s.embm := rfl
@[simp] theorem State.wr_inbox (s : State) (k v : Nat) : (s.wr k v).inbox = s.inbox := rfl
@[simp] theorem State.wr_arb (s : State) (k v : Nat) : (s.wr k v).arb = s.arb := rfl
@[simp] theorem State.wr_net (s : State) (k v : Nat) : (s.wr k v).net = s.net := rfl
@[simp] theorem State.wr_lamps (s : State) (k v : Nat) : (s.wr k v).lamps = s.lamps := rfl
@[simp] theorem State.wr_flash (s : State) (k v : Nat) : (s.wr k v).flash = s.flash := rfl
@[simp] theorem State.wr_lay (s : State) (k v : Nat) : (s.wr k v).lay = s.lay := rfl
@[simp] theorem State.wr_col (s : State) (k v : Nat) : (s.wr k v).col = s.col := rfl
@[simp] theorem State.wr_boot (s : State) (k v : Nat) : (s.wr k v).boot = s.boot := rfl
@[simp] theorem State.wr_clk (s : State) (k v : Nat) : (s.wr k v).clk = s.clk := rfl
@[simp] theorem State.wr_hcp (s : State) (k v : Nat) : (s.wr k v).hcp = s.hcp := rfl
@[simp] theorem State.wr_feed (s : State) (k v : Nat) : (s.wr k v).feed = s.feed := rfl
@[simp] theorem State.wr_erec (s : State) (k v : Nat) : (s.wr k v).erec = s.erec := rfl
@[simp] theorem State.wr_wall (s : State) (k v : Nat) : (s.wr k v).wall = s.wall := rfl
@[simp] theorem State.wr_offAt (s : State) (k v : Nat) : (s.wr k v).offAt = s.offAt := rfl
@[simp] theorem State.wr_free (s : State) (k v : Nat) : (s.wr k v).free = s.free := rfl
@[simp] theorem State.wr_out (s : State) (k v : Nat) : (s.wr k v).out = s.out := rfl

/-! ### State.resetRegs -/

@[simp] theorem State.resetRegs_pending (s : State) (p : Nat → Bool) : (s.resetRegs p).pending = s.pending := rfl
@[simp] theorem State.resetRegs_mem (s : State) (p : Nat → Bool) : (s.resetRegs p).mem = s.mem := rfl
@[simp] theorem State.resetRegs_posted (s : State) (p : Nat → Bool) : (s.resetRegs p).posted = s.posted := rfl
@[simp] theorem State.resetRegs_ue (s : State) (p : Nat → Bool) : (s.resetRegs p).ue = s.ue := rfl
@[simp] theorem State.resetRegs_pwr (s : State) (p : Nat → Bool) : (s.resetRegs p).pwr = s.pwr := rfl
@[simp] theorem State.resetRegs_seq (s : State) (p : Nat → Bool) : (s.resetRegs p).seq = s.seq := rfl
@[simp] theorem State.resetRegs_tseq (s : State) (p : Nat → Bool) : (s.resetRegs p).tseq = s.tseq := rfl
@[simp] theorem State.resetRegs_cores (s : State) (p : Nat → Bool) : (s.resetRegs p).cores = s.cores := rfl
@[simp] theorem State.resetRegs_repair (s : State) (p : Nat → Bool) : (s.resetRegs p).repair = s.repair := rfl
@[simp] theorem State.resetRegs_qz (s : State) (p : Nat → Bool) : (s.resetRegs p).qz = s.qz := rfl
@[simp] theorem State.resetRegs_qzm (s : State) (p : Nat → Bool) : (s.resetRegs p).qzm = s.qzm := rfl
@[simp] theorem State.resetRegs_upd (s : State) (p : Nat → Bool) : (s.resetRegs p).upd = s.upd := rfl
@[simp] theorem State.resetRegs_gran (s : State) (p : Nat → Bool) : (s.resetRegs p).gran = s.gran := rfl
@[simp] theorem State.resetRegs_emb (s : State) (p : Nat → Bool) : (s.resetRegs p).emb = s.emb := rfl
@[simp] theorem State.resetRegs_embm (s : State) (p : Nat → Bool) : (s.resetRegs p).embm = s.embm := rfl
@[simp] theorem State.resetRegs_inbox (s : State) (p : Nat → Bool) : (s.resetRegs p).inbox = s.inbox := rfl
@[simp] theorem State.resetRegs_arb (s : State) (p : Nat → Bool) : (s.resetRegs p).arb = s.arb := rfl
@[simp] theorem State.resetRegs_net (s : State) (p : Nat → Bool) : (s.resetRegs p).net = s.net := rfl
@[simp] theorem State.resetRegs_lamps (s : State) (p : Nat → Bool) : (s.resetRegs p).lamps = s.lamps := rfl
@[simp] theorem State.resetRegs_flash (s : State) (p : Nat → Bool) : (s.resetRegs p).flash = s.flash := rfl
@[simp] theorem State.resetRegs_lay (s : State) (p : Nat → Bool) : (s.resetRegs p).lay = s.lay := rfl
@[simp] theorem State.resetRegs_col (s : State) (p : Nat → Bool) : (s.resetRegs p).col = s.col := rfl
@[simp] theorem State.resetRegs_boot (s : State) (p : Nat → Bool) : (s.resetRegs p).boot = s.boot := rfl
@[simp] theorem State.resetRegs_clk (s : State) (p : Nat → Bool) : (s.resetRegs p).clk = s.clk := rfl
@[simp] theorem State.resetRegs_hcp (s : State) (p : Nat → Bool) : (s.resetRegs p).hcp = s.hcp := rfl
@[simp] theorem State.resetRegs_feed (s : State) (p : Nat → Bool) : (s.resetRegs p).feed = s.feed := rfl
@[simp] theorem State.resetRegs_erec (s : State) (p : Nat → Bool) : (s.resetRegs p).erec = s.erec := rfl
@[simp] theorem State.resetRegs_wall (s : State) (p : Nat → Bool) : (s.resetRegs p).wall = s.wall := rfl
@[simp] theorem State.resetRegs_offAt (s : State) (p : Nat → Bool) : (s.resetRegs p).offAt = s.offAt := rfl
@[simp] theorem State.resetRegs_free (s : State) (p : Nat → Bool) : (s.resetRegs p).free = s.free := rfl
@[simp] theorem State.resetRegs_out (s : State) (p : Nat → Bool) : (s.resetRegs p).out = s.out := rfl

/-! ### State.emit -/

@[simp] theorem State.emit_pending (s : State) (o : Out) : (s.emit o).pending = s.pending := rfl
@[simp] theorem State.emit_csr (s : State) (o : Out) : (s.emit o).csr = s.csr := rfl
@[simp] theorem State.emit_mem (s : State) (o : Out) : (s.emit o).mem = s.mem := rfl
@[simp] theorem State.emit_posted (s : State) (o : Out) : (s.emit o).posted = s.posted := rfl
@[simp] theorem State.emit_ue (s : State) (o : Out) : (s.emit o).ue = s.ue := rfl
@[simp] theorem State.emit_pwr (s : State) (o : Out) : (s.emit o).pwr = s.pwr := rfl
@[simp] theorem State.emit_seq (s : State) (o : Out) : (s.emit o).seq = s.seq := rfl
@[simp] theorem State.emit_tseq (s : State) (o : Out) : (s.emit o).tseq = s.tseq := rfl
@[simp] theorem State.emit_cores (s : State) (o : Out) : (s.emit o).cores = s.cores := rfl
@[simp] theorem State.emit_repair (s : State) (o : Out) : (s.emit o).repair = s.repair := rfl
@[simp] theorem State.emit_qz (s : State) (o : Out) : (s.emit o).qz = s.qz := rfl
@[simp] theorem State.emit_qzm (s : State) (o : Out) : (s.emit o).qzm = s.qzm := rfl
@[simp] theorem State.emit_upd (s : State) (o : Out) : (s.emit o).upd = s.upd := rfl
@[simp] theorem State.emit_gran (s : State) (o : Out) : (s.emit o).gran = s.gran := rfl
@[simp] theorem State.emit_emb (s : State) (o : Out) : (s.emit o).emb = s.emb := rfl
@[simp] theorem State.emit_embm (s : State) (o : Out) : (s.emit o).embm = s.embm := rfl
@[simp] theorem State.emit_inbox (s : State) (o : Out) : (s.emit o).inbox = s.inbox := rfl
@[simp] theorem State.emit_arb (s : State) (o : Out) : (s.emit o).arb = s.arb := rfl
@[simp] theorem State.emit_net (s : State) (o : Out) : (s.emit o).net = s.net := rfl
@[simp] theorem State.emit_lamps (s : State) (o : Out) : (s.emit o).lamps = s.lamps := rfl
@[simp] theorem State.emit_flash (s : State) (o : Out) : (s.emit o).flash = s.flash := rfl
@[simp] theorem State.emit_lay (s : State) (o : Out) : (s.emit o).lay = s.lay := rfl
@[simp] theorem State.emit_col (s : State) (o : Out) : (s.emit o).col = s.col := rfl
@[simp] theorem State.emit_boot (s : State) (o : Out) : (s.emit o).boot = s.boot := rfl
@[simp] theorem State.emit_clk (s : State) (o : Out) : (s.emit o).clk = s.clk := rfl
@[simp] theorem State.emit_hcp (s : State) (o : Out) : (s.emit o).hcp = s.hcp := rfl
@[simp] theorem State.emit_feed (s : State) (o : Out) : (s.emit o).feed = s.feed := rfl
@[simp] theorem State.emit_erec (s : State) (o : Out) : (s.emit o).erec = s.erec := rfl
@[simp] theorem State.emit_wall (s : State) (o : Out) : (s.emit o).wall = s.wall := rfl
@[simp] theorem State.emit_offAt (s : State) (o : Out) : (s.emit o).offAt = s.offAt := rfl
@[simp] theorem State.emit_free (s : State) (o : Out) : (s.emit o).free = s.free := rfl

/-! ### State.poke -/

@[simp] theorem State.poke_pending (s : State) (a : Nat) (bs : List Byte) : (s.poke a bs).pending = s.pending := rfl
@[simp] theorem State.poke_csr (s : State) (a : Nat) (bs : List Byte) : (s.poke a bs).csr = s.csr := rfl
@[simp] theorem State.poke_posted (s : State) (a : Nat) (bs : List Byte) : (s.poke a bs).posted = s.posted := rfl
@[simp] theorem State.poke_pwr (s : State) (a : Nat) (bs : List Byte) : (s.poke a bs).pwr = s.pwr := rfl
@[simp] theorem State.poke_seq (s : State) (a : Nat) (bs : List Byte) : (s.poke a bs).seq = s.seq := rfl
@[simp] theorem State.poke_tseq (s : State) (a : Nat) (bs : List Byte) : (s.poke a bs).tseq = s.tseq := rfl
@[simp] theorem State.poke_cores (s : State) (a : Nat) (bs : List Byte) : (s.poke a bs).cores = s.cores := rfl
@[simp] theorem State.poke_repair (s : State) (a : Nat) (bs : List Byte) : (s.poke a bs).repair = s.repair := rfl
@[simp] theorem State.poke_qz (s : State) (a : Nat) (bs : List Byte) : (s.poke a bs).qz = s.qz := rfl
@[simp] theorem State.poke_qzm (s : State) (a : Nat) (bs : List Byte) : (s.poke a bs).qzm = s.qzm := rfl
@[simp] theorem State.poke_upd (s : State) (a : Nat) (bs : List Byte) : (s.poke a bs).upd = s.upd := rfl
@[simp] theorem State.poke_gran (s : State) (a : Nat) (bs : List Byte) : (s.poke a bs).gran = s.gran := rfl
@[simp] theorem State.poke_emb (s : State) (a : Nat) (bs : List Byte) : (s.poke a bs).emb = s.emb := rfl
@[simp] theorem State.poke_embm (s : State) (a : Nat) (bs : List Byte) : (s.poke a bs).embm = s.embm := rfl
@[simp] theorem State.poke_inbox (s : State) (a : Nat) (bs : List Byte) : (s.poke a bs).inbox = s.inbox := rfl
@[simp] theorem State.poke_arb (s : State) (a : Nat) (bs : List Byte) : (s.poke a bs).arb = s.arb := rfl
@[simp] theorem State.poke_net (s : State) (a : Nat) (bs : List Byte) : (s.poke a bs).net = s.net := rfl
@[simp] theorem State.poke_lamps (s : State) (a : Nat) (bs : List Byte) : (s.poke a bs).lamps = s.lamps := rfl
@[simp] theorem State.poke_flash (s : State) (a : Nat) (bs : List Byte) : (s.poke a bs).flash = s.flash := rfl
@[simp] theorem State.poke_lay (s : State) (a : Nat) (bs : List Byte) : (s.poke a bs).lay = s.lay := rfl
@[simp] theorem State.poke_col (s : State) (a : Nat) (bs : List Byte) : (s.poke a bs).col = s.col := rfl
@[simp] theorem State.poke_boot (s : State) (a : Nat) (bs : List Byte) : (s.poke a bs).boot = s.boot := rfl
@[simp] theorem State.poke_clk (s : State) (a : Nat) (bs : List Byte) : (s.poke a bs).clk = s.clk := rfl
@[simp] theorem State.poke_hcp (s : State) (a : Nat) (bs : List Byte) : (s.poke a bs).hcp = s.hcp := rfl
@[simp] theorem State.poke_feed (s : State) (a : Nat) (bs : List Byte) : (s.poke a bs).feed = s.feed := rfl
@[simp] theorem State.poke_erec (s : State) (a : Nat) (bs : List Byte) : (s.poke a bs).erec = s.erec := rfl
@[simp] theorem State.poke_wall (s : State) (a : Nat) (bs : List Byte) : (s.poke a bs).wall = s.wall := rfl
@[simp] theorem State.poke_offAt (s : State) (a : Nat) (bs : List Byte) : (s.poke a bs).offAt = s.offAt := rfl
@[simp] theorem State.poke_free (s : State) (a : Nat) (bs : List Byte) : (s.poke a bs).free = s.free := rfl
@[simp] theorem State.poke_out (s : State) (a : Nat) (bs : List Byte) : (s.poke a bs).out = s.out := rfl

/-! ### State.zero -/

@[simp] theorem State.zero_pending (s : State) (a n : Nat) : (s.zero a n).pending = s.pending := rfl
@[simp] theorem State.zero_csr (s : State) (a n : Nat) : (s.zero a n).csr = s.csr := rfl
@[simp] theorem State.zero_posted (s : State) (a n : Nat) : (s.zero a n).posted = s.posted := rfl
@[simp] theorem State.zero_pwr (s : State) (a n : Nat) : (s.zero a n).pwr = s.pwr := rfl
@[simp] theorem State.zero_seq (s : State) (a n : Nat) : (s.zero a n).seq = s.seq := rfl
@[simp] theorem State.zero_tseq (s : State) (a n : Nat) : (s.zero a n).tseq = s.tseq := rfl
@[simp] theorem State.zero_cores (s : State) (a n : Nat) : (s.zero a n).cores = s.cores := rfl
@[simp] theorem State.zero_repair (s : State) (a n : Nat) : (s.zero a n).repair = s.repair := rfl
@[simp] theorem State.zero_qz (s : State) (a n : Nat) : (s.zero a n).qz = s.qz := rfl
@[simp] theorem State.zero_qzm (s : State) (a n : Nat) : (s.zero a n).qzm = s.qzm := rfl
@[simp] theorem State.zero_upd (s : State) (a n : Nat) : (s.zero a n).upd = s.upd := rfl
@[simp] theorem State.zero_gran (s : State) (a n : Nat) : (s.zero a n).gran = s.gran := rfl
@[simp] theorem State.zero_emb (s : State) (a n : Nat) : (s.zero a n).emb = s.emb := rfl
@[simp] theorem State.zero_embm (s : State) (a n : Nat) : (s.zero a n).embm = s.embm := rfl
@[simp] theorem State.zero_inbox (s : State) (a n : Nat) : (s.zero a n).inbox = s.inbox := rfl
@[simp] theorem State.zero_arb (s : State) (a n : Nat) : (s.zero a n).arb = s.arb := rfl
@[simp] theorem State.zero_net (s : State) (a n : Nat) : (s.zero a n).net = s.net := rfl
@[simp] theorem State.zero_lamps (s : State) (a n : Nat) : (s.zero a n).lamps = s.lamps := rfl
@[simp] theorem State.zero_flash (s : State) (a n : Nat) : (s.zero a n).flash = s.flash := rfl
@[simp] theorem State.zero_lay (s : State) (a n : Nat) : (s.zero a n).lay = s.lay := rfl
@[simp] theorem State.zero_col (s : State) (a n : Nat) : (s.zero a n).col = s.col := rfl
@[simp] theorem State.zero_boot (s : State) (a n : Nat) : (s.zero a n).boot = s.boot := rfl
@[simp] theorem State.zero_clk (s : State) (a n : Nat) : (s.zero a n).clk = s.clk := rfl
@[simp] theorem State.zero_hcp (s : State) (a n : Nat) : (s.zero a n).hcp = s.hcp := rfl
@[simp] theorem State.zero_feed (s : State) (a n : Nat) : (s.zero a n).feed = s.feed := rfl
@[simp] theorem State.zero_erec (s : State) (a n : Nat) : (s.zero a n).erec = s.erec := rfl
@[simp] theorem State.zero_wall (s : State) (a n : Nat) : (s.zero a n).wall = s.wall := rfl
@[simp] theorem State.zero_offAt (s : State) (a n : Nat) : (s.zero a n).offAt = s.offAt := rfl
@[simp] theorem State.zero_free (s : State) (a n : Nat) : (s.zero a n).free = s.free := rfl
@[simp] theorem State.zero_out (s : State) (a n : Nat) : (s.zero a n).out = s.out := rfl

/-! ### State.setCore -/

@[simp] theorem State.setCore_pending (s : State) (c : Nat) (x : CoreState) : (s.setCore c x).pending = s.pending := rfl
@[simp] theorem State.setCore_csr (s : State) (c : Nat) (x : CoreState) : (s.setCore c x).csr = s.csr := rfl
@[simp] theorem State.setCore_mem (s : State) (c : Nat) (x : CoreState) : (s.setCore c x).mem = s.mem := rfl
@[simp] theorem State.setCore_posted (s : State) (c : Nat) (x : CoreState) : (s.setCore c x).posted = s.posted := rfl
@[simp] theorem State.setCore_ue (s : State) (c : Nat) (x : CoreState) : (s.setCore c x).ue = s.ue := rfl
@[simp] theorem State.setCore_pwr (s : State) (c : Nat) (x : CoreState) : (s.setCore c x).pwr = s.pwr := rfl
@[simp] theorem State.setCore_seq (s : State) (c : Nat) (x : CoreState) : (s.setCore c x).seq = s.seq := rfl
@[simp] theorem State.setCore_tseq (s : State) (c : Nat) (x : CoreState) : (s.setCore c x).tseq = s.tseq := rfl
@[simp] theorem State.setCore_repair (s : State) (c : Nat) (x : CoreState) : (s.setCore c x).repair = s.repair := rfl
@[simp] theorem State.setCore_qz (s : State) (c : Nat) (x : CoreState) : (s.setCore c x).qz = s.qz := rfl
@[simp] theorem State.setCore_qzm (s : State) (c : Nat) (x : CoreState) : (s.setCore c x).qzm = s.qzm := rfl
@[simp] theorem State.setCore_upd (s : State) (c : Nat) (x : CoreState) : (s.setCore c x).upd = s.upd := rfl
@[simp] theorem State.setCore_gran (s : State) (c : Nat) (x : CoreState) : (s.setCore c x).gran = s.gran := rfl
@[simp] theorem State.setCore_emb (s : State) (c : Nat) (x : CoreState) : (s.setCore c x).emb = s.emb := rfl
@[simp] theorem State.setCore_embm (s : State) (c : Nat) (x : CoreState) : (s.setCore c x).embm = s.embm := rfl
@[simp] theorem State.setCore_inbox (s : State) (c : Nat) (x : CoreState) : (s.setCore c x).inbox = s.inbox := rfl
@[simp] theorem State.setCore_arb (s : State) (c : Nat) (x : CoreState) : (s.setCore c x).arb = s.arb := rfl
@[simp] theorem State.setCore_net (s : State) (c : Nat) (x : CoreState) : (s.setCore c x).net = s.net := rfl
@[simp] theorem State.setCore_lamps (s : State) (c : Nat) (x : CoreState) : (s.setCore c x).lamps = s.lamps := rfl
@[simp] theorem State.setCore_flash (s : State) (c : Nat) (x : CoreState) : (s.setCore c x).flash = s.flash := rfl
@[simp] theorem State.setCore_lay (s : State) (c : Nat) (x : CoreState) : (s.setCore c x).lay = s.lay := rfl
@[simp] theorem State.setCore_col (s : State) (c : Nat) (x : CoreState) : (s.setCore c x).col = s.col := rfl
@[simp] theorem State.setCore_boot (s : State) (c : Nat) (x : CoreState) : (s.setCore c x).boot = s.boot := rfl
@[simp] theorem State.setCore_clk (s : State) (c : Nat) (x : CoreState) : (s.setCore c x).clk = s.clk := rfl
@[simp] theorem State.setCore_hcp (s : State) (c : Nat) (x : CoreState) : (s.setCore c x).hcp = s.hcp := rfl
@[simp] theorem State.setCore_feed (s : State) (c : Nat) (x : CoreState) : (s.setCore c x).feed = s.feed := rfl
@[simp] theorem State.setCore_erec (s : State) (c : Nat) (x : CoreState) : (s.setCore c x).erec = s.erec := rfl
@[simp] theorem State.setCore_wall (s : State) (c : Nat) (x : CoreState) : (s.setCore c x).wall = s.wall := rfl
@[simp] theorem State.setCore_offAt (s : State) (c : Nat) (x : CoreState) : (s.setCore c x).offAt = s.offAt := rfl
@[simp] theorem State.setCore_free (s : State) (c : Nat) (x : CoreState) : (s.setCore c x).free = s.free := rfl
@[simp] theorem State.setCore_out (s : State) (c : Nat) (x : CoreState) : (s.setCore c x).out = s.out := rfl

/-! ### State.setTile -/

@[simp] theorem State.setTile_pending (s : State) (t : Nat) (x : TileSeq) : (s.setTile t x).pending = s.pending := rfl
@[simp] theorem State.setTile_csr (s : State) (t : Nat) (x : TileSeq) : (s.setTile t x).csr = s.csr := rfl
@[simp] theorem State.setTile_mem (s : State) (t : Nat) (x : TileSeq) : (s.setTile t x).mem = s.mem := rfl
@[simp] theorem State.setTile_posted (s : State) (t : Nat) (x : TileSeq) : (s.setTile t x).posted = s.posted := rfl
@[simp] theorem State.setTile_ue (s : State) (t : Nat) (x : TileSeq) : (s.setTile t x).ue = s.ue := rfl
@[simp] theorem State.setTile_pwr (s : State) (t : Nat) (x : TileSeq) : (s.setTile t x).pwr = s.pwr := rfl
@[simp] theorem State.setTile_seq (s : State) (t : Nat) (x : TileSeq) : (s.setTile t x).seq = s.seq := rfl
@[simp] theorem State.setTile_cores (s : State) (t : Nat) (x : TileSeq) : (s.setTile t x).cores = s.cores := rfl
@[simp] theorem State.setTile_repair (s : State) (t : Nat) (x : TileSeq) : (s.setTile t x).repair = s.repair := rfl
@[simp] theorem State.setTile_qz (s : State) (t : Nat) (x : TileSeq) : (s.setTile t x).qz = s.qz := rfl
@[simp] theorem State.setTile_qzm (s : State) (t : Nat) (x : TileSeq) : (s.setTile t x).qzm = s.qzm := rfl
@[simp] theorem State.setTile_upd (s : State) (t : Nat) (x : TileSeq) : (s.setTile t x).upd = s.upd := rfl
@[simp] theorem State.setTile_gran (s : State) (t : Nat) (x : TileSeq) : (s.setTile t x).gran = s.gran := rfl
@[simp] theorem State.setTile_emb (s : State) (t : Nat) (x : TileSeq) : (s.setTile t x).emb = s.emb := rfl
@[simp] theorem State.setTile_embm (s : State) (t : Nat) (x : TileSeq) : (s.setTile t x).embm = s.embm := rfl
@[simp] theorem State.setTile_inbox (s : State) (t : Nat) (x : TileSeq) : (s.setTile t x).inbox = s.inbox := rfl
@[simp] theorem State.setTile_arb (s : State) (t : Nat) (x : TileSeq) : (s.setTile t x).arb = s.arb := rfl
@[simp] theorem State.setTile_net (s : State) (t : Nat) (x : TileSeq) : (s.setTile t x).net = s.net := rfl
@[simp] theorem State.setTile_lamps (s : State) (t : Nat) (x : TileSeq) : (s.setTile t x).lamps = s.lamps := rfl
@[simp] theorem State.setTile_flash (s : State) (t : Nat) (x : TileSeq) : (s.setTile t x).flash = s.flash := rfl
@[simp] theorem State.setTile_lay (s : State) (t : Nat) (x : TileSeq) : (s.setTile t x).lay = s.lay := rfl
@[simp] theorem State.setTile_col (s : State) (t : Nat) (x : TileSeq) : (s.setTile t x).col = s.col := rfl
@[simp] theorem State.setTile_boot (s : State) (t : Nat) (x : TileSeq) : (s.setTile t x).boot = s.boot := rfl
@[simp] theorem State.setTile_clk (s : State) (t : Nat) (x : TileSeq) : (s.setTile t x).clk = s.clk := rfl
@[simp] theorem State.setTile_hcp (s : State) (t : Nat) (x : TileSeq) : (s.setTile t x).hcp = s.hcp := rfl
@[simp] theorem State.setTile_feed (s : State) (t : Nat) (x : TileSeq) : (s.setTile t x).feed = s.feed := rfl
@[simp] theorem State.setTile_erec (s : State) (t : Nat) (x : TileSeq) : (s.setTile t x).erec = s.erec := rfl
@[simp] theorem State.setTile_wall (s : State) (t : Nat) (x : TileSeq) : (s.setTile t x).wall = s.wall := rfl
@[simp] theorem State.setTile_offAt (s : State) (t : Nat) (x : TileSeq) : (s.setTile t x).offAt = s.offAt := rfl
@[simp] theorem State.setTile_free (s : State) (t : Nat) (x : TileSeq) : (s.setTile t x).free = s.free := rfl
@[simp] theorem State.setTile_out (s : State) (t : Nat) (x : TileSeq) : (s.setTile t x).out = s.out := rfl

/-! ### State.setPort -/

@[simp] theorem State.setPort_pending (s : State) (p : Nat) (x : PortState) : (s.setPort p x).pending = s.pending := rfl
@[simp] theorem State.setPort_csr (s : State) (p : Nat) (x : PortState) : (s.setPort p x).csr = s.csr := rfl
@[simp] theorem State.setPort_mem (s : State) (p : Nat) (x : PortState) : (s.setPort p x).mem = s.mem := rfl
@[simp] theorem State.setPort_posted (s : State) (p : Nat) (x : PortState) : (s.setPort p x).posted = s.posted := rfl
@[simp] theorem State.setPort_ue (s : State) (p : Nat) (x : PortState) : (s.setPort p x).ue = s.ue := rfl
@[simp] theorem State.setPort_pwr (s : State) (p : Nat) (x : PortState) : (s.setPort p x).pwr = s.pwr := rfl
@[simp] theorem State.setPort_seq (s : State) (p : Nat) (x : PortState) : (s.setPort p x).seq = s.seq := rfl
@[simp] theorem State.setPort_tseq (s : State) (p : Nat) (x : PortState) : (s.setPort p x).tseq = s.tseq := rfl
@[simp] theorem State.setPort_cores (s : State) (p : Nat) (x : PortState) : (s.setPort p x).cores = s.cores := rfl
@[simp] theorem State.setPort_repair (s : State) (p : Nat) (x : PortState) : (s.setPort p x).repair = s.repair := rfl
@[simp] theorem State.setPort_qz (s : State) (p : Nat) (x : PortState) : (s.setPort p x).qz = s.qz := rfl
@[simp] theorem State.setPort_qzm (s : State) (p : Nat) (x : PortState) : (s.setPort p x).qzm = s.qzm := rfl
@[simp] theorem State.setPort_upd (s : State) (p : Nat) (x : PortState) : (s.setPort p x).upd = s.upd := rfl
@[simp] theorem State.setPort_gran (s : State) (p : Nat) (x : PortState) : (s.setPort p x).gran = s.gran := rfl
@[simp] theorem State.setPort_emb (s : State) (p : Nat) (x : PortState) : (s.setPort p x).emb = s.emb := rfl
@[simp] theorem State.setPort_embm (s : State) (p : Nat) (x : PortState) : (s.setPort p x).embm = s.embm := rfl
@[simp] theorem State.setPort_inbox (s : State) (p : Nat) (x : PortState) : (s.setPort p x).inbox = s.inbox := rfl
@[simp] theorem State.setPort_arb (s : State) (p : Nat) (x : PortState) : (s.setPort p x).arb = s.arb := rfl
@[simp] theorem State.setPort_lamps (s : State) (p : Nat) (x : PortState) : (s.setPort p x).lamps = s.lamps := rfl
@[simp] theorem State.setPort_flash (s : State) (p : Nat) (x : PortState) : (s.setPort p x).flash = s.flash := rfl
@[simp] theorem State.setPort_lay (s : State) (p : Nat) (x : PortState) : (s.setPort p x).lay = s.lay := rfl
@[simp] theorem State.setPort_col (s : State) (p : Nat) (x : PortState) : (s.setPort p x).col = s.col := rfl
@[simp] theorem State.setPort_boot (s : State) (p : Nat) (x : PortState) : (s.setPort p x).boot = s.boot := rfl
@[simp] theorem State.setPort_clk (s : State) (p : Nat) (x : PortState) : (s.setPort p x).clk = s.clk := rfl
@[simp] theorem State.setPort_hcp (s : State) (p : Nat) (x : PortState) : (s.setPort p x).hcp = s.hcp := rfl
@[simp] theorem State.setPort_feed (s : State) (p : Nat) (x : PortState) : (s.setPort p x).feed = s.feed := rfl
@[simp] theorem State.setPort_erec (s : State) (p : Nat) (x : PortState) : (s.setPort p x).erec = s.erec := rfl
@[simp] theorem State.setPort_wall (s : State) (p : Nat) (x : PortState) : (s.setPort p x).wall = s.wall := rfl
@[simp] theorem State.setPort_offAt (s : State) (p : Nat) (x : PortState) : (s.setPort p x).offAt = s.offAt := rfl
@[simp] theorem State.setPort_free (s : State) (p : Nat) (x : PortState) : (s.setPort p x).free = s.free := rfl
@[simp] theorem State.setPort_out (s : State) (p : Nat) (x : PortState) : (s.setPort p x).out = s.out := rfl

/-! ### State.setLamp -/

@[simp] theorem State.setLamp_pending (s : State) (k : Nat) (x : LampState) : (s.setLamp k x).pending = s.pending := rfl
@[simp] theorem State.setLamp_csr (s : State) (k : Nat) (x : LampState) : (s.setLamp k x).csr = s.csr := rfl
@[simp] theorem State.setLamp_mem (s : State) (k : Nat) (x : LampState) : (s.setLamp k x).mem = s.mem := rfl
@[simp] theorem State.setLamp_posted (s : State) (k : Nat) (x : LampState) : (s.setLamp k x).posted = s.posted := rfl
@[simp] theorem State.setLamp_ue (s : State) (k : Nat) (x : LampState) : (s.setLamp k x).ue = s.ue := rfl
@[simp] theorem State.setLamp_pwr (s : State) (k : Nat) (x : LampState) : (s.setLamp k x).pwr = s.pwr := rfl
@[simp] theorem State.setLamp_seq (s : State) (k : Nat) (x : LampState) : (s.setLamp k x).seq = s.seq := rfl
@[simp] theorem State.setLamp_tseq (s : State) (k : Nat) (x : LampState) : (s.setLamp k x).tseq = s.tseq := rfl
@[simp] theorem State.setLamp_cores (s : State) (k : Nat) (x : LampState) : (s.setLamp k x).cores = s.cores := rfl
@[simp] theorem State.setLamp_repair (s : State) (k : Nat) (x : LampState) : (s.setLamp k x).repair = s.repair := rfl
@[simp] theorem State.setLamp_qz (s : State) (k : Nat) (x : LampState) : (s.setLamp k x).qz = s.qz := rfl
@[simp] theorem State.setLamp_qzm (s : State) (k : Nat) (x : LampState) : (s.setLamp k x).qzm = s.qzm := rfl
@[simp] theorem State.setLamp_upd (s : State) (k : Nat) (x : LampState) : (s.setLamp k x).upd = s.upd := rfl
@[simp] theorem State.setLamp_gran (s : State) (k : Nat) (x : LampState) : (s.setLamp k x).gran = s.gran := rfl
@[simp] theorem State.setLamp_emb (s : State) (k : Nat) (x : LampState) : (s.setLamp k x).emb = s.emb := rfl
@[simp] theorem State.setLamp_embm (s : State) (k : Nat) (x : LampState) : (s.setLamp k x).embm = s.embm := rfl
@[simp] theorem State.setLamp_inbox (s : State) (k : Nat) (x : LampState) : (s.setLamp k x).inbox = s.inbox := rfl
@[simp] theorem State.setLamp_arb (s : State) (k : Nat) (x : LampState) : (s.setLamp k x).arb = s.arb := rfl
@[simp] theorem State.setLamp_net (s : State) (k : Nat) (x : LampState) : (s.setLamp k x).net = s.net := rfl
@[simp] theorem State.setLamp_flash (s : State) (k : Nat) (x : LampState) : (s.setLamp k x).flash = s.flash := rfl
@[simp] theorem State.setLamp_lay (s : State) (k : Nat) (x : LampState) : (s.setLamp k x).lay = s.lay := rfl
@[simp] theorem State.setLamp_col (s : State) (k : Nat) (x : LampState) : (s.setLamp k x).col = s.col := rfl
@[simp] theorem State.setLamp_boot (s : State) (k : Nat) (x : LampState) : (s.setLamp k x).boot = s.boot := rfl
@[simp] theorem State.setLamp_clk (s : State) (k : Nat) (x : LampState) : (s.setLamp k x).clk = s.clk := rfl
@[simp] theorem State.setLamp_hcp (s : State) (k : Nat) (x : LampState) : (s.setLamp k x).hcp = s.hcp := rfl
@[simp] theorem State.setLamp_feed (s : State) (k : Nat) (x : LampState) : (s.setLamp k x).feed = s.feed := rfl
@[simp] theorem State.setLamp_erec (s : State) (k : Nat) (x : LampState) : (s.setLamp k x).erec = s.erec := rfl
@[simp] theorem State.setLamp_wall (s : State) (k : Nat) (x : LampState) : (s.setLamp k x).wall = s.wall := rfl
@[simp] theorem State.setLamp_offAt (s : State) (k : Nat) (x : LampState) : (s.setLamp k x).offAt = s.offAt := rfl
@[simp] theorem State.setLamp_free (s : State) (k : Nat) (x : LampState) : (s.setLamp k x).free = s.free := rfl
@[simp] theorem State.setLamp_out (s : State) (k : Nat) (x : LampState) : (s.setLamp k x).out = s.out := rfl

/-! ### State.setHcp -/

@[simp] theorem State.setHcp_pending (s : State) (f : HcpState → HcpState) : (s.setHcp f).pending = s.pending := rfl
@[simp] theorem State.setHcp_csr (s : State) (f : HcpState → HcpState) : (s.setHcp f).csr = s.csr := rfl
@[simp] theorem State.setHcp_mem (s : State) (f : HcpState → HcpState) : (s.setHcp f).mem = s.mem := rfl
@[simp] theorem State.setHcp_posted (s : State) (f : HcpState → HcpState) : (s.setHcp f).posted = s.posted := rfl
@[simp] theorem State.setHcp_ue (s : State) (f : HcpState → HcpState) : (s.setHcp f).ue = s.ue := rfl
@[simp] theorem State.setHcp_pwr (s : State) (f : HcpState → HcpState) : (s.setHcp f).pwr = s.pwr := rfl
@[simp] theorem State.setHcp_seq (s : State) (f : HcpState → HcpState) : (s.setHcp f).seq = s.seq := rfl
@[simp] theorem State.setHcp_tseq (s : State) (f : HcpState → HcpState) : (s.setHcp f).tseq = s.tseq := rfl
@[simp] theorem State.setHcp_cores (s : State) (f : HcpState → HcpState) : (s.setHcp f).cores = s.cores := rfl
@[simp] theorem State.setHcp_repair (s : State) (f : HcpState → HcpState) : (s.setHcp f).repair = s.repair := rfl
@[simp] theorem State.setHcp_qz (s : State) (f : HcpState → HcpState) : (s.setHcp f).qz = s.qz := rfl
@[simp] theorem State.setHcp_qzm (s : State) (f : HcpState → HcpState) : (s.setHcp f).qzm = s.qzm := rfl
@[simp] theorem State.setHcp_upd (s : State) (f : HcpState → HcpState) : (s.setHcp f).upd = s.upd := rfl
@[simp] theorem State.setHcp_gran (s : State) (f : HcpState → HcpState) : (s.setHcp f).gran = s.gran := rfl
@[simp] theorem State.setHcp_emb (s : State) (f : HcpState → HcpState) : (s.setHcp f).emb = s.emb := rfl
@[simp] theorem State.setHcp_embm (s : State) (f : HcpState → HcpState) : (s.setHcp f).embm = s.embm := rfl
@[simp] theorem State.setHcp_inbox (s : State) (f : HcpState → HcpState) : (s.setHcp f).inbox = s.inbox := rfl
@[simp] theorem State.setHcp_arb (s : State) (f : HcpState → HcpState) : (s.setHcp f).arb = s.arb := rfl
@[simp] theorem State.setHcp_net (s : State) (f : HcpState → HcpState) : (s.setHcp f).net = s.net := rfl
@[simp] theorem State.setHcp_lamps (s : State) (f : HcpState → HcpState) : (s.setHcp f).lamps = s.lamps := rfl
@[simp] theorem State.setHcp_flash (s : State) (f : HcpState → HcpState) : (s.setHcp f).flash = s.flash := rfl
@[simp] theorem State.setHcp_lay (s : State) (f : HcpState → HcpState) : (s.setHcp f).lay = s.lay := rfl
@[simp] theorem State.setHcp_col (s : State) (f : HcpState → HcpState) : (s.setHcp f).col = s.col := rfl
@[simp] theorem State.setHcp_boot (s : State) (f : HcpState → HcpState) : (s.setHcp f).boot = s.boot := rfl
@[simp] theorem State.setHcp_clk (s : State) (f : HcpState → HcpState) : (s.setHcp f).clk = s.clk := rfl
@[simp] theorem State.setHcp_feed (s : State) (f : HcpState → HcpState) : (s.setHcp f).feed = s.feed := rfl
@[simp] theorem State.setHcp_erec (s : State) (f : HcpState → HcpState) : (s.setHcp f).erec = s.erec := rfl
@[simp] theorem State.setHcp_wall (s : State) (f : HcpState → HcpState) : (s.setHcp f).wall = s.wall := rfl
@[simp] theorem State.setHcp_offAt (s : State) (f : HcpState → HcpState) : (s.setHcp f).offAt = s.offAt := rfl
@[simp] theorem State.setHcp_free (s : State) (f : HcpState → HcpState) : (s.setHcp f).free = s.free := rfl
@[simp] theorem State.setHcp_out (s : State) (f : HcpState → HcpState) : (s.setHcp f).out = s.out := rfl

/-! ### State.setQzt -/

@[simp] theorem State.setQzt_pending (s : State) (t : Nat) (x : QzState) : (s.setQzt t x).pending = s.pending := rfl
@[simp] theorem State.setQzt_csr (s : State) (t : Nat) (x : QzState) : (s.setQzt t x).csr = s.csr := rfl
@[simp] theorem State.setQzt_mem (s : State) (t : Nat) (x : QzState) : (s.setQzt t x).mem = s.mem := rfl
@[simp] theorem State.setQzt_posted (s : State) (t : Nat) (x : QzState) : (s.setQzt t x).posted = s.posted := rfl
@[simp] theorem State.setQzt_ue (s : State) (t : Nat) (x : QzState) : (s.setQzt t x).ue = s.ue := rfl
@[simp] theorem State.setQzt_pwr (s : State) (t : Nat) (x : QzState) : (s.setQzt t x).pwr = s.pwr := rfl
@[simp] theorem State.setQzt_seq (s : State) (t : Nat) (x : QzState) : (s.setQzt t x).seq = s.seq := rfl
@[simp] theorem State.setQzt_tseq (s : State) (t : Nat) (x : QzState) : (s.setQzt t x).tseq = s.tseq := rfl
@[simp] theorem State.setQzt_cores (s : State) (t : Nat) (x : QzState) : (s.setQzt t x).cores = s.cores := rfl
@[simp] theorem State.setQzt_repair (s : State) (t : Nat) (x : QzState) : (s.setQzt t x).repair = s.repair := rfl
@[simp] theorem State.setQzt_qzm (s : State) (t : Nat) (x : QzState) : (s.setQzt t x).qzm = s.qzm := rfl
@[simp] theorem State.setQzt_upd (s : State) (t : Nat) (x : QzState) : (s.setQzt t x).upd = s.upd := rfl
@[simp] theorem State.setQzt_gran (s : State) (t : Nat) (x : QzState) : (s.setQzt t x).gran = s.gran := rfl
@[simp] theorem State.setQzt_emb (s : State) (t : Nat) (x : QzState) : (s.setQzt t x).emb = s.emb := rfl
@[simp] theorem State.setQzt_embm (s : State) (t : Nat) (x : QzState) : (s.setQzt t x).embm = s.embm := rfl
@[simp] theorem State.setQzt_inbox (s : State) (t : Nat) (x : QzState) : (s.setQzt t x).inbox = s.inbox := rfl
@[simp] theorem State.setQzt_arb (s : State) (t : Nat) (x : QzState) : (s.setQzt t x).arb = s.arb := rfl
@[simp] theorem State.setQzt_net (s : State) (t : Nat) (x : QzState) : (s.setQzt t x).net = s.net := rfl
@[simp] theorem State.setQzt_lamps (s : State) (t : Nat) (x : QzState) : (s.setQzt t x).lamps = s.lamps := rfl
@[simp] theorem State.setQzt_flash (s : State) (t : Nat) (x : QzState) : (s.setQzt t x).flash = s.flash := rfl
@[simp] theorem State.setQzt_lay (s : State) (t : Nat) (x : QzState) : (s.setQzt t x).lay = s.lay := rfl
@[simp] theorem State.setQzt_col (s : State) (t : Nat) (x : QzState) : (s.setQzt t x).col = s.col := rfl
@[simp] theorem State.setQzt_boot (s : State) (t : Nat) (x : QzState) : (s.setQzt t x).boot = s.boot := rfl
@[simp] theorem State.setQzt_clk (s : State) (t : Nat) (x : QzState) : (s.setQzt t x).clk = s.clk := rfl
@[simp] theorem State.setQzt_hcp (s : State) (t : Nat) (x : QzState) : (s.setQzt t x).hcp = s.hcp := rfl
@[simp] theorem State.setQzt_feed (s : State) (t : Nat) (x : QzState) : (s.setQzt t x).feed = s.feed := rfl
@[simp] theorem State.setQzt_erec (s : State) (t : Nat) (x : QzState) : (s.setQzt t x).erec = s.erec := rfl
@[simp] theorem State.setQzt_wall (s : State) (t : Nat) (x : QzState) : (s.setQzt t x).wall = s.wall := rfl
@[simp] theorem State.setQzt_offAt (s : State) (t : Nat) (x : QzState) : (s.setQzt t x).offAt = s.offAt := rfl
@[simp] theorem State.setQzt_free (s : State) (t : Nat) (x : QzState) : (s.setQzt t x).free = s.free := rfl
@[simp] theorem State.setQzt_out (s : State) (t : Nat) (x : QzState) : (s.setQzt t x).out = s.out := rfl

/-! ### State.setUpt -/

@[simp] theorem State.setUpt_pending (s : State) (t : Nat) (x : UeState) : (s.setUpt t x).pending = s.pending := rfl
@[simp] theorem State.setUpt_csr (s : State) (t : Nat) (x : UeState) : (s.setUpt t x).csr = s.csr := rfl
@[simp] theorem State.setUpt_mem (s : State) (t : Nat) (x : UeState) : (s.setUpt t x).mem = s.mem := rfl
@[simp] theorem State.setUpt_posted (s : State) (t : Nat) (x : UeState) : (s.setUpt t x).posted = s.posted := rfl
@[simp] theorem State.setUpt_ue (s : State) (t : Nat) (x : UeState) : (s.setUpt t x).ue = s.ue := rfl
@[simp] theorem State.setUpt_pwr (s : State) (t : Nat) (x : UeState) : (s.setUpt t x).pwr = s.pwr := rfl
@[simp] theorem State.setUpt_seq (s : State) (t : Nat) (x : UeState) : (s.setUpt t x).seq = s.seq := rfl
@[simp] theorem State.setUpt_tseq (s : State) (t : Nat) (x : UeState) : (s.setUpt t x).tseq = s.tseq := rfl
@[simp] theorem State.setUpt_cores (s : State) (t : Nat) (x : UeState) : (s.setUpt t x).cores = s.cores := rfl
@[simp] theorem State.setUpt_repair (s : State) (t : Nat) (x : UeState) : (s.setUpt t x).repair = s.repair := rfl
@[simp] theorem State.setUpt_qz (s : State) (t : Nat) (x : UeState) : (s.setUpt t x).qz = s.qz := rfl
@[simp] theorem State.setUpt_qzm (s : State) (t : Nat) (x : UeState) : (s.setUpt t x).qzm = s.qzm := rfl
@[simp] theorem State.setUpt_gran (s : State) (t : Nat) (x : UeState) : (s.setUpt t x).gran = s.gran := rfl
@[simp] theorem State.setUpt_emb (s : State) (t : Nat) (x : UeState) : (s.setUpt t x).emb = s.emb := rfl
@[simp] theorem State.setUpt_embm (s : State) (t : Nat) (x : UeState) : (s.setUpt t x).embm = s.embm := rfl
@[simp] theorem State.setUpt_inbox (s : State) (t : Nat) (x : UeState) : (s.setUpt t x).inbox = s.inbox := rfl
@[simp] theorem State.setUpt_arb (s : State) (t : Nat) (x : UeState) : (s.setUpt t x).arb = s.arb := rfl
@[simp] theorem State.setUpt_net (s : State) (t : Nat) (x : UeState) : (s.setUpt t x).net = s.net := rfl
@[simp] theorem State.setUpt_lamps (s : State) (t : Nat) (x : UeState) : (s.setUpt t x).lamps = s.lamps := rfl
@[simp] theorem State.setUpt_flash (s : State) (t : Nat) (x : UeState) : (s.setUpt t x).flash = s.flash := rfl
@[simp] theorem State.setUpt_lay (s : State) (t : Nat) (x : UeState) : (s.setUpt t x).lay = s.lay := rfl
@[simp] theorem State.setUpt_col (s : State) (t : Nat) (x : UeState) : (s.setUpt t x).col = s.col := rfl
@[simp] theorem State.setUpt_boot (s : State) (t : Nat) (x : UeState) : (s.setUpt t x).boot = s.boot := rfl
@[simp] theorem State.setUpt_clk (s : State) (t : Nat) (x : UeState) : (s.setUpt t x).clk = s.clk := rfl
@[simp] theorem State.setUpt_hcp (s : State) (t : Nat) (x : UeState) : (s.setUpt t x).hcp = s.hcp := rfl
@[simp] theorem State.setUpt_feed (s : State) (t : Nat) (x : UeState) : (s.setUpt t x).feed = s.feed := rfl
@[simp] theorem State.setUpt_erec (s : State) (t : Nat) (x : UeState) : (s.setUpt t x).erec = s.erec := rfl
@[simp] theorem State.setUpt_wall (s : State) (t : Nat) (x : UeState) : (s.setUpt t x).wall = s.wall := rfl
@[simp] theorem State.setUpt_offAt (s : State) (t : Nat) (x : UeState) : (s.setUpt t x).offAt = s.offAt := rfl
@[simp] theorem State.setUpt_free (s : State) (t : Nat) (x : UeState) : (s.setUpt t x).free = s.free := rfl
@[simp] theorem State.setUpt_out (s : State) (t : Nat) (x : UeState) : (s.setUpt t x).out = s.out := rfl

/-! ### State.setEmbt -/

@[simp] theorem State.setEmbt_pending (s : State) (t : Nat) (x : EmbState) : (s.setEmbt t x).pending = s.pending := rfl
@[simp] theorem State.setEmbt_csr (s : State) (t : Nat) (x : EmbState) : (s.setEmbt t x).csr = s.csr := rfl
@[simp] theorem State.setEmbt_mem (s : State) (t : Nat) (x : EmbState) : (s.setEmbt t x).mem = s.mem := rfl
@[simp] theorem State.setEmbt_posted (s : State) (t : Nat) (x : EmbState) : (s.setEmbt t x).posted = s.posted := rfl
@[simp] theorem State.setEmbt_ue (s : State) (t : Nat) (x : EmbState) : (s.setEmbt t x).ue = s.ue := rfl
@[simp] theorem State.setEmbt_pwr (s : State) (t : Nat) (x : EmbState) : (s.setEmbt t x).pwr = s.pwr := rfl
@[simp] theorem State.setEmbt_seq (s : State) (t : Nat) (x : EmbState) : (s.setEmbt t x).seq = s.seq := rfl
@[simp] theorem State.setEmbt_tseq (s : State) (t : Nat) (x : EmbState) : (s.setEmbt t x).tseq = s.tseq := rfl
@[simp] theorem State.setEmbt_cores (s : State) (t : Nat) (x : EmbState) : (s.setEmbt t x).cores = s.cores := rfl
@[simp] theorem State.setEmbt_repair (s : State) (t : Nat) (x : EmbState) : (s.setEmbt t x).repair = s.repair := rfl
@[simp] theorem State.setEmbt_qz (s : State) (t : Nat) (x : EmbState) : (s.setEmbt t x).qz = s.qz := rfl
@[simp] theorem State.setEmbt_qzm (s : State) (t : Nat) (x : EmbState) : (s.setEmbt t x).qzm = s.qzm := rfl
@[simp] theorem State.setEmbt_upd (s : State) (t : Nat) (x : EmbState) : (s.setEmbt t x).upd = s.upd := rfl
@[simp] theorem State.setEmbt_gran (s : State) (t : Nat) (x : EmbState) : (s.setEmbt t x).gran = s.gran := rfl
@[simp] theorem State.setEmbt_embm (s : State) (t : Nat) (x : EmbState) : (s.setEmbt t x).embm = s.embm := rfl
@[simp] theorem State.setEmbt_inbox (s : State) (t : Nat) (x : EmbState) : (s.setEmbt t x).inbox = s.inbox := rfl
@[simp] theorem State.setEmbt_arb (s : State) (t : Nat) (x : EmbState) : (s.setEmbt t x).arb = s.arb := rfl
@[simp] theorem State.setEmbt_net (s : State) (t : Nat) (x : EmbState) : (s.setEmbt t x).net = s.net := rfl
@[simp] theorem State.setEmbt_lamps (s : State) (t : Nat) (x : EmbState) : (s.setEmbt t x).lamps = s.lamps := rfl
@[simp] theorem State.setEmbt_flash (s : State) (t : Nat) (x : EmbState) : (s.setEmbt t x).flash = s.flash := rfl
@[simp] theorem State.setEmbt_lay (s : State) (t : Nat) (x : EmbState) : (s.setEmbt t x).lay = s.lay := rfl
@[simp] theorem State.setEmbt_col (s : State) (t : Nat) (x : EmbState) : (s.setEmbt t x).col = s.col := rfl
@[simp] theorem State.setEmbt_boot (s : State) (t : Nat) (x : EmbState) : (s.setEmbt t x).boot = s.boot := rfl
@[simp] theorem State.setEmbt_clk (s : State) (t : Nat) (x : EmbState) : (s.setEmbt t x).clk = s.clk := rfl
@[simp] theorem State.setEmbt_hcp (s : State) (t : Nat) (x : EmbState) : (s.setEmbt t x).hcp = s.hcp := rfl
@[simp] theorem State.setEmbt_feed (s : State) (t : Nat) (x : EmbState) : (s.setEmbt t x).feed = s.feed := rfl
@[simp] theorem State.setEmbt_erec (s : State) (t : Nat) (x : EmbState) : (s.setEmbt t x).erec = s.erec := rfl
@[simp] theorem State.setEmbt_wall (s : State) (t : Nat) (x : EmbState) : (s.setEmbt t x).wall = s.wall := rfl
@[simp] theorem State.setEmbt_offAt (s : State) (t : Nat) (x : EmbState) : (s.setEmbt t x).offAt = s.offAt := rfl
@[simp] theorem State.setEmbt_free (s : State) (t : Nat) (x : EmbState) : (s.setEmbt t x).free = s.free := rfl
@[simp] theorem State.setEmbt_out (s : State) (t : Nat) (x : EmbState) : (s.setEmbt t x).out = s.out := rfl

/-! ### State.setGrn -/

@[simp] theorem State.setGrn_pending (s : State) (t : Nat) (x : GranState) : (s.setGrn t x).pending = s.pending := rfl
@[simp] theorem State.setGrn_csr (s : State) (t : Nat) (x : GranState) : (s.setGrn t x).csr = s.csr := rfl
@[simp] theorem State.setGrn_mem (s : State) (t : Nat) (x : GranState) : (s.setGrn t x).mem = s.mem := rfl
@[simp] theorem State.setGrn_posted (s : State) (t : Nat) (x : GranState) : (s.setGrn t x).posted = s.posted := rfl
@[simp] theorem State.setGrn_ue (s : State) (t : Nat) (x : GranState) : (s.setGrn t x).ue = s.ue := rfl
@[simp] theorem State.setGrn_pwr (s : State) (t : Nat) (x : GranState) : (s.setGrn t x).pwr = s.pwr := rfl
@[simp] theorem State.setGrn_seq (s : State) (t : Nat) (x : GranState) : (s.setGrn t x).seq = s.seq := rfl
@[simp] theorem State.setGrn_tseq (s : State) (t : Nat) (x : GranState) : (s.setGrn t x).tseq = s.tseq := rfl
@[simp] theorem State.setGrn_cores (s : State) (t : Nat) (x : GranState) : (s.setGrn t x).cores = s.cores := rfl
@[simp] theorem State.setGrn_repair (s : State) (t : Nat) (x : GranState) : (s.setGrn t x).repair = s.repair := rfl
@[simp] theorem State.setGrn_qz (s : State) (t : Nat) (x : GranState) : (s.setGrn t x).qz = s.qz := rfl
@[simp] theorem State.setGrn_qzm (s : State) (t : Nat) (x : GranState) : (s.setGrn t x).qzm = s.qzm := rfl
@[simp] theorem State.setGrn_upd (s : State) (t : Nat) (x : GranState) : (s.setGrn t x).upd = s.upd := rfl
@[simp] theorem State.setGrn_emb (s : State) (t : Nat) (x : GranState) : (s.setGrn t x).emb = s.emb := rfl
@[simp] theorem State.setGrn_embm (s : State) (t : Nat) (x : GranState) : (s.setGrn t x).embm = s.embm := rfl
@[simp] theorem State.setGrn_inbox (s : State) (t : Nat) (x : GranState) : (s.setGrn t x).inbox = s.inbox := rfl
@[simp] theorem State.setGrn_arb (s : State) (t : Nat) (x : GranState) : (s.setGrn t x).arb = s.arb := rfl
@[simp] theorem State.setGrn_net (s : State) (t : Nat) (x : GranState) : (s.setGrn t x).net = s.net := rfl
@[simp] theorem State.setGrn_lamps (s : State) (t : Nat) (x : GranState) : (s.setGrn t x).lamps = s.lamps := rfl
@[simp] theorem State.setGrn_flash (s : State) (t : Nat) (x : GranState) : (s.setGrn t x).flash = s.flash := rfl
@[simp] theorem State.setGrn_lay (s : State) (t : Nat) (x : GranState) : (s.setGrn t x).lay = s.lay := rfl
@[simp] theorem State.setGrn_col (s : State) (t : Nat) (x : GranState) : (s.setGrn t x).col = s.col := rfl
@[simp] theorem State.setGrn_boot (s : State) (t : Nat) (x : GranState) : (s.setGrn t x).boot = s.boot := rfl
@[simp] theorem State.setGrn_clk (s : State) (t : Nat) (x : GranState) : (s.setGrn t x).clk = s.clk := rfl
@[simp] theorem State.setGrn_hcp (s : State) (t : Nat) (x : GranState) : (s.setGrn t x).hcp = s.hcp := rfl
@[simp] theorem State.setGrn_feed (s : State) (t : Nat) (x : GranState) : (s.setGrn t x).feed = s.feed := rfl
@[simp] theorem State.setGrn_erec (s : State) (t : Nat) (x : GranState) : (s.setGrn t x).erec = s.erec := rfl
@[simp] theorem State.setGrn_wall (s : State) (t : Nat) (x : GranState) : (s.setGrn t x).wall = s.wall := rfl
@[simp] theorem State.setGrn_offAt (s : State) (t : Nat) (x : GranState) : (s.setGrn t x).offAt = s.offAt := rfl
@[simp] theorem State.setGrn_free (s : State) (t : Nat) (x : GranState) : (s.setGrn t x).free = s.free := rfl
@[simp] theorem State.setGrn_out (s : State) (t : Nat) (x : GranState) : (s.setGrn t x).out = s.out := rfl

/-! ### State.setArb -/

@[simp] theorem State.setArb_pending (s : State) (k : Nat) (a : Arb) : (s.setArb k a).pending = s.pending := rfl
@[simp] theorem State.setArb_csr (s : State) (k : Nat) (a : Arb) : (s.setArb k a).csr = s.csr := rfl
@[simp] theorem State.setArb_mem (s : State) (k : Nat) (a : Arb) : (s.setArb k a).mem = s.mem := rfl
@[simp] theorem State.setArb_posted (s : State) (k : Nat) (a : Arb) : (s.setArb k a).posted = s.posted := rfl
@[simp] theorem State.setArb_ue (s : State) (k : Nat) (a : Arb) : (s.setArb k a).ue = s.ue := rfl
@[simp] theorem State.setArb_pwr (s : State) (k : Nat) (a : Arb) : (s.setArb k a).pwr = s.pwr := rfl
@[simp] theorem State.setArb_seq (s : State) (k : Nat) (a : Arb) : (s.setArb k a).seq = s.seq := rfl
@[simp] theorem State.setArb_tseq (s : State) (k : Nat) (a : Arb) : (s.setArb k a).tseq = s.tseq := rfl
@[simp] theorem State.setArb_cores (s : State) (k : Nat) (a : Arb) : (s.setArb k a).cores = s.cores := rfl
@[simp] theorem State.setArb_repair (s : State) (k : Nat) (a : Arb) : (s.setArb k a).repair = s.repair := rfl
@[simp] theorem State.setArb_qz (s : State) (k : Nat) (a : Arb) : (s.setArb k a).qz = s.qz := rfl
@[simp] theorem State.setArb_qzm (s : State) (k : Nat) (a : Arb) : (s.setArb k a).qzm = s.qzm := rfl
@[simp] theorem State.setArb_upd (s : State) (k : Nat) (a : Arb) : (s.setArb k a).upd = s.upd := rfl
@[simp] theorem State.setArb_gran (s : State) (k : Nat) (a : Arb) : (s.setArb k a).gran = s.gran := rfl
@[simp] theorem State.setArb_emb (s : State) (k : Nat) (a : Arb) : (s.setArb k a).emb = s.emb := rfl
@[simp] theorem State.setArb_embm (s : State) (k : Nat) (a : Arb) : (s.setArb k a).embm = s.embm := rfl
@[simp] theorem State.setArb_inbox (s : State) (k : Nat) (a : Arb) : (s.setArb k a).inbox = s.inbox := rfl
@[simp] theorem State.setArb_net (s : State) (k : Nat) (a : Arb) : (s.setArb k a).net = s.net := rfl
@[simp] theorem State.setArb_lamps (s : State) (k : Nat) (a : Arb) : (s.setArb k a).lamps = s.lamps := rfl
@[simp] theorem State.setArb_flash (s : State) (k : Nat) (a : Arb) : (s.setArb k a).flash = s.flash := rfl
@[simp] theorem State.setArb_lay (s : State) (k : Nat) (a : Arb) : (s.setArb k a).lay = s.lay := rfl
@[simp] theorem State.setArb_col (s : State) (k : Nat) (a : Arb) : (s.setArb k a).col = s.col := rfl
@[simp] theorem State.setArb_boot (s : State) (k : Nat) (a : Arb) : (s.setArb k a).boot = s.boot := rfl
@[simp] theorem State.setArb_clk (s : State) (k : Nat) (a : Arb) : (s.setArb k a).clk = s.clk := rfl
@[simp] theorem State.setArb_hcp (s : State) (k : Nat) (a : Arb) : (s.setArb k a).hcp = s.hcp := rfl
@[simp] theorem State.setArb_feed (s : State) (k : Nat) (a : Arb) : (s.setArb k a).feed = s.feed := rfl
@[simp] theorem State.setArb_erec (s : State) (k : Nat) (a : Arb) : (s.setArb k a).erec = s.erec := rfl
@[simp] theorem State.setArb_wall (s : State) (k : Nat) (a : Arb) : (s.setArb k a).wall = s.wall := rfl
@[simp] theorem State.setArb_offAt (s : State) (k : Nat) (a : Arb) : (s.setArb k a).offAt = s.offAt := rfl
@[simp] theorem State.setArb_free (s : State) (k : Nat) (a : Arb) : (s.setArb k a).free = s.free := rfl
@[simp] theorem State.setArb_out (s : State) (k : Nat) (a : Arb) : (s.setArb k a).out = s.out := rfl

/-! ### State.setFeedT -/

@[simp] theorem State.setFeedT_pending (s : State) (t : Nat) (x : FeedTile) : (s.setFeedT t x).pending = s.pending := rfl
@[simp] theorem State.setFeedT_csr (s : State) (t : Nat) (x : FeedTile) : (s.setFeedT t x).csr = s.csr := rfl
@[simp] theorem State.setFeedT_mem (s : State) (t : Nat) (x : FeedTile) : (s.setFeedT t x).mem = s.mem := rfl
@[simp] theorem State.setFeedT_posted (s : State) (t : Nat) (x : FeedTile) : (s.setFeedT t x).posted = s.posted := rfl
@[simp] theorem State.setFeedT_ue (s : State) (t : Nat) (x : FeedTile) : (s.setFeedT t x).ue = s.ue := rfl
@[simp] theorem State.setFeedT_pwr (s : State) (t : Nat) (x : FeedTile) : (s.setFeedT t x).pwr = s.pwr := rfl
@[simp] theorem State.setFeedT_seq (s : State) (t : Nat) (x : FeedTile) : (s.setFeedT t x).seq = s.seq := rfl
@[simp] theorem State.setFeedT_tseq (s : State) (t : Nat) (x : FeedTile) : (s.setFeedT t x).tseq = s.tseq := rfl
@[simp] theorem State.setFeedT_cores (s : State) (t : Nat) (x : FeedTile) : (s.setFeedT t x).cores = s.cores := rfl
@[simp] theorem State.setFeedT_repair (s : State) (t : Nat) (x : FeedTile) : (s.setFeedT t x).repair = s.repair := rfl
@[simp] theorem State.setFeedT_qz (s : State) (t : Nat) (x : FeedTile) : (s.setFeedT t x).qz = s.qz := rfl
@[simp] theorem State.setFeedT_qzm (s : State) (t : Nat) (x : FeedTile) : (s.setFeedT t x).qzm = s.qzm := rfl
@[simp] theorem State.setFeedT_upd (s : State) (t : Nat) (x : FeedTile) : (s.setFeedT t x).upd = s.upd := rfl
@[simp] theorem State.setFeedT_gran (s : State) (t : Nat) (x : FeedTile) : (s.setFeedT t x).gran = s.gran := rfl
@[simp] theorem State.setFeedT_emb (s : State) (t : Nat) (x : FeedTile) : (s.setFeedT t x).emb = s.emb := rfl
@[simp] theorem State.setFeedT_embm (s : State) (t : Nat) (x : FeedTile) : (s.setFeedT t x).embm = s.embm := rfl
@[simp] theorem State.setFeedT_inbox (s : State) (t : Nat) (x : FeedTile) : (s.setFeedT t x).inbox = s.inbox := rfl
@[simp] theorem State.setFeedT_arb (s : State) (t : Nat) (x : FeedTile) : (s.setFeedT t x).arb = s.arb := rfl
@[simp] theorem State.setFeedT_net (s : State) (t : Nat) (x : FeedTile) : (s.setFeedT t x).net = s.net := rfl
@[simp] theorem State.setFeedT_lamps (s : State) (t : Nat) (x : FeedTile) : (s.setFeedT t x).lamps = s.lamps := rfl
@[simp] theorem State.setFeedT_flash (s : State) (t : Nat) (x : FeedTile) : (s.setFeedT t x).flash = s.flash := rfl
@[simp] theorem State.setFeedT_lay (s : State) (t : Nat) (x : FeedTile) : (s.setFeedT t x).lay = s.lay := rfl
@[simp] theorem State.setFeedT_col (s : State) (t : Nat) (x : FeedTile) : (s.setFeedT t x).col = s.col := rfl
@[simp] theorem State.setFeedT_boot (s : State) (t : Nat) (x : FeedTile) : (s.setFeedT t x).boot = s.boot := rfl
@[simp] theorem State.setFeedT_clk (s : State) (t : Nat) (x : FeedTile) : (s.setFeedT t x).clk = s.clk := rfl
@[simp] theorem State.setFeedT_hcp (s : State) (t : Nat) (x : FeedTile) : (s.setFeedT t x).hcp = s.hcp := rfl
@[simp] theorem State.setFeedT_erec (s : State) (t : Nat) (x : FeedTile) : (s.setFeedT t x).erec = s.erec := rfl
@[simp] theorem State.setFeedT_wall (s : State) (t : Nat) (x : FeedTile) : (s.setFeedT t x).wall = s.wall := rfl
@[simp] theorem State.setFeedT_offAt (s : State) (t : Nat) (x : FeedTile) : (s.setFeedT t x).offAt = s.offAt := rfl
@[simp] theorem State.setFeedT_free (s : State) (t : Nat) (x : FeedTile) : (s.setFeedT t x).free = s.free := rfl
@[simp] theorem State.setFeedT_out (s : State) (t : Nat) (x : FeedTile) : (s.setFeedT t x).out = s.out := rfl

/-! ### State.setOwner -/

@[simp] theorem State.setOwner_pending (s : State) (o : Option (List Byte × Nat)) : (s.setOwner o).pending = s.pending := rfl
@[simp] theorem State.setOwner_csr (s : State) (o : Option (List Byte × Nat)) : (s.setOwner o).csr = s.csr := rfl
@[simp] theorem State.setOwner_mem (s : State) (o : Option (List Byte × Nat)) : (s.setOwner o).mem = s.mem := rfl
@[simp] theorem State.setOwner_posted (s : State) (o : Option (List Byte × Nat)) : (s.setOwner o).posted = s.posted := rfl
@[simp] theorem State.setOwner_ue (s : State) (o : Option (List Byte × Nat)) : (s.setOwner o).ue = s.ue := rfl
@[simp] theorem State.setOwner_pwr (s : State) (o : Option (List Byte × Nat)) : (s.setOwner o).pwr = s.pwr := rfl
@[simp] theorem State.setOwner_seq (s : State) (o : Option (List Byte × Nat)) : (s.setOwner o).seq = s.seq := rfl
@[simp] theorem State.setOwner_tseq (s : State) (o : Option (List Byte × Nat)) : (s.setOwner o).tseq = s.tseq := rfl
@[simp] theorem State.setOwner_cores (s : State) (o : Option (List Byte × Nat)) : (s.setOwner o).cores = s.cores := rfl
@[simp] theorem State.setOwner_repair (s : State) (o : Option (List Byte × Nat)) : (s.setOwner o).repair = s.repair := rfl
@[simp] theorem State.setOwner_qz (s : State) (o : Option (List Byte × Nat)) : (s.setOwner o).qz = s.qz := rfl
@[simp] theorem State.setOwner_qzm (s : State) (o : Option (List Byte × Nat)) : (s.setOwner o).qzm = s.qzm := rfl
@[simp] theorem State.setOwner_upd (s : State) (o : Option (List Byte × Nat)) : (s.setOwner o).upd = s.upd := rfl
@[simp] theorem State.setOwner_gran (s : State) (o : Option (List Byte × Nat)) : (s.setOwner o).gran = s.gran := rfl
@[simp] theorem State.setOwner_emb (s : State) (o : Option (List Byte × Nat)) : (s.setOwner o).emb = s.emb := rfl
@[simp] theorem State.setOwner_embm (s : State) (o : Option (List Byte × Nat)) : (s.setOwner o).embm = s.embm := rfl
@[simp] theorem State.setOwner_inbox (s : State) (o : Option (List Byte × Nat)) : (s.setOwner o).inbox = s.inbox := rfl
@[simp] theorem State.setOwner_arb (s : State) (o : Option (List Byte × Nat)) : (s.setOwner o).arb = s.arb := rfl
@[simp] theorem State.setOwner_net (s : State) (o : Option (List Byte × Nat)) : (s.setOwner o).net = s.net := rfl
@[simp] theorem State.setOwner_lamps (s : State) (o : Option (List Byte × Nat)) : (s.setOwner o).lamps = s.lamps := rfl
@[simp] theorem State.setOwner_lay (s : State) (o : Option (List Byte × Nat)) : (s.setOwner o).lay = s.lay := rfl
@[simp] theorem State.setOwner_col (s : State) (o : Option (List Byte × Nat)) : (s.setOwner o).col = s.col := rfl
@[simp] theorem State.setOwner_boot (s : State) (o : Option (List Byte × Nat)) : (s.setOwner o).boot = s.boot := rfl
@[simp] theorem State.setOwner_clk (s : State) (o : Option (List Byte × Nat)) : (s.setOwner o).clk = s.clk := rfl
@[simp] theorem State.setOwner_hcp (s : State) (o : Option (List Byte × Nat)) : (s.setOwner o).hcp = s.hcp := rfl
@[simp] theorem State.setOwner_feed (s : State) (o : Option (List Byte × Nat)) : (s.setOwner o).feed = s.feed := rfl
@[simp] theorem State.setOwner_erec (s : State) (o : Option (List Byte × Nat)) : (s.setOwner o).erec = s.erec := rfl
@[simp] theorem State.setOwner_wall (s : State) (o : Option (List Byte × Nat)) : (s.setOwner o).wall = s.wall := rfl
@[simp] theorem State.setOwner_offAt (s : State) (o : Option (List Byte × Nat)) : (s.setOwner o).offAt = s.offAt := rfl
@[simp] theorem State.setOwner_free (s : State) (o : Option (List Byte × Nat)) : (s.setOwner o).free = s.free := rfl
@[simp] theorem State.setOwner_out (s : State) (o : Option (List Byte × Nat)) : (s.setOwner o).out = s.out := rfl

end Sys2Proof.Machine
end

