-- ==== Sys2Proof/Laws/Maps.lean ====
section
/-!
SUPPORT. Laws/Maps.lean: sparse maps: reading after writing, and the canonical form kept by every operation; from them
the laws of registers and of memory.
-/
namespace Sys2Proof.Machine

open Sys2Proof

/-! ## Reading after writing -/

theorem smGet_smPut {α : Type} (d : α) (m : SMap α) (k j : Nat) (v : α) :
    smGet d (smPut m k v) j = if k = j then v else smGet d m j := by
  induction m with
  | nil => simp only [smPut, smGet]
  | cons e m ih =>
    obtain ⟨i, w⟩ := e
    simp only [smPut]
    by_cases h1 : k < i
    · simp only [h1, if_true, smGet]
    · simp only [h1, if_false]
      by_cases h2 : k = i
      · subst h2
        simp only [if_true, smGet]
        by_cases h3 : k = j
        · simp only [h3, if_true]
        · simp only [h3, if_false]
      · simp only [h2, if_false, smGet, ih]
        by_cases h3 : i = j
        · have h4 : ¬k = j := fun e => h2 (e.trans h3.symm)
          simp only [h3, h4, if_true, if_false]
        · simp only [h3, if_false]

theorem smGet_smDel {α : Type} (d : α) (m : SMap α) (k j : Nat) :
    smGet d (smDel m k) j = if k = j then d else smGet d m j := by
  induction m with
  | nil => simp only [smDel, smGet, ite_self]
  | cons e m ih =>
    simp only [smDel]
    by_cases h1 : e.1 = k
    · simp only [h1, if_true, ih, smGet]
      by_cases h2 : k = j
      · simp only [h2, if_true]
      · simp only [h2, if_false]
    · simp only [h1, if_false, smGet, ih]
      by_cases h2 : e.1 = j
      · have h3 : ¬k = j := fun e' => h1 (h2.trans e'.symm)
        simp only [h2, h3, if_true, if_false]
      · simp only [h2, if_false]

/-- Reading after a write. -/
theorem smGet_smSet {α : Type} [DecidableEq α] (d : α) (m : SMap α) (k j : Nat) (v : α) :
    smGet d (smSet d m k v) j = if k = j then v else smGet d m j := by
  unfold smSet
  by_cases h : v = d
  · simp only [h, if_true, smGet_smDel]
  · simp only [h, if_false, smGet_smPut]

/-! ## The canonical form -/

theorem smSortedFrom_weaken {α : Type} {m : SMap α} {a b : Nat} (hab : a ≤ b) (h : smSortedFrom b m = true) :
    smSortedFrom a m = true := by
  cases m with
  | nil => rfl
  | cons e m =>
    simp only [smSortedFrom, Bool.and_eq_true, decide_eq_true_eq] at h ⊢
    exact ⟨Nat.le_trans hab h.1, h.2⟩

theorem smSortedFrom_smPut {α : Type} {m : SMap α} {a k : Nat} (v : α) (hk : a ≤ k) (h : smSortedFrom a m = true) :
    smSortedFrom a (smPut m k v) = true := by
  induction m generalizing a with
  | nil => simp only [smPut, smSortedFrom, hk, decide_true, Bool.and_self]
  | cons e m ih =>
    simp only [smSortedFrom, Bool.and_eq_true, decide_eq_true_eq] at h
    simp only [smPut]
    by_cases h1 : k < e.1
    · simp only [h1, if_true, smSortedFrom, Bool.and_eq_true, decide_eq_true_eq]
      exact ⟨hk, by omega, h.2⟩
    · simp only [h1, if_false]
      by_cases h2 : k = e.1
      · simp only [h2, if_true, smSortedFrom, Bool.and_eq_true, decide_eq_true_eq]
        exact ⟨h.1, h.2⟩
      · simp only [h2, if_false, smSortedFrom, Bool.and_eq_true, decide_eq_true_eq]
        exact ⟨h.1, ih (by omega) h.2⟩

theorem smSortedFrom_smDel {α : Type} {m : SMap α} {a : Nat} (k : Nat) (h : smSortedFrom a m = true) :
    smSortedFrom a (smDel m k) = true := by
  induction m generalizing a with
  | nil => rfl
  | cons e m ih =>
    simp only [smSortedFrom, Bool.and_eq_true, decide_eq_true_eq] at h
    simp only [smDel]
    by_cases h1 : e.1 = k
    · simp only [h1, if_true]
      exact smSortedFrom_weaken (by omega) (ih h.2)
    · simp only [h1, if_false, smSortedFrom, Bool.and_eq_true, decide_eq_true_eq]
      exact ⟨h.1, ih h.2⟩

theorem smSortedFrom_filter {α : Type} {m : SMap α} {a : Nat} (p : Nat × α → Bool) (h : smSortedFrom a m = true) :
    smSortedFrom a (m.filter p) = true := by
  induction m generalizing a with
  | nil => rfl
  | cons e m ih =>
    simp only [smSortedFrom, Bool.and_eq_true, decide_eq_true_eq] at h
    by_cases hp : p e = true
    · rw [List.filter_cons_of_pos hp]
      simp only [smSortedFrom, Bool.and_eq_true, decide_eq_true_eq]
      exact ⟨h.1, ih h.2⟩
    · rw [List.filter_cons_of_neg hp]
      exact smSortedFrom_weaken (by omega) (ih h.2)

theorem mem_smPut {α : Type} {m : SMap α} {k : Nat} {v : α} {e : Nat × α} (h : e ∈ smPut m k v) : e = (k, v) ∨ e ∈ m := by
  induction m with
  | nil =>
    simp only [smPut, List.mem_singleton] at h
    exact .inl h
  | cons x m ih =>
    simp only [smPut] at h
    by_cases h1 : k < x.1
    · simp only [h1, if_true, List.mem_cons] at h
      simp only [List.mem_cons]
      exact h
    · simp only [h1, if_false] at h
      by_cases h2 : k = x.1
      · simp only [h2, if_true, List.mem_cons] at h
        simp only [List.mem_cons, h2]
        exact h.elim .inl fun q => .inr (.inr q)
      · simp only [h2, if_false, List.mem_cons] at h
        simp only [List.mem_cons]
        exact h.elim (fun q => .inr (.inl q)) fun q => (ih q).elim .inl fun r => .inr (.inr r)

theorem mem_smDel {α : Type} {m : SMap α} {k : Nat} {e : Nat × α} (h : e ∈ smDel m k) : e ∈ m := by
  induction m with
  | nil => exact h
  | cons x m ih =>
    simp only [smDel] at h
    by_cases h1 : x.1 = k
    · simp only [h1, if_true] at h
      exact List.mem_cons_of_mem _ (ih h)
    · simp only [h1, if_false, List.mem_cons] at h
      simp only [List.mem_cons]
      exact h.elim .inl fun q => .inr (ih q)

theorem smWf_iff {α : Type} [DecidableEq α] {d : Nat → α} {m : SMap α} :
    smWf d m = true ↔ smSortedFrom 0 m = true ∧ ∀ e ∈ m, e.2 ≠ d e.1 := by
  simp only [smWf, Bool.and_eq_true, List.all_eq_true, Bool.not_eq_true', decide_eq_false_iff_not, ne_eq]

theorem smWf_nil {α : Type} [DecidableEq α] {d : Nat → α} : smWf d ([] : SMap α) = true := rfl

/-- A write keeps the canonical form. -/
theorem smWf_smSet {α : Type} [DecidableEq α] {d : Nat → α} {m : SMap α} (h : smWf d m = true) (k : Nat) (v : α) :
    smWf d (smSet (d k) m k v) = true := by
  rw [smWf_iff] at h ⊢
  unfold smSet
  by_cases hv : v = d k
  · simp only [hv, if_true]
    exact ⟨smSortedFrom_smDel k h.1, fun e he => h.2 e (mem_smDel he)⟩
  · simp only [hv, if_false]
    refine ⟨smSortedFrom_smPut v (Nat.zero_le k) h.1, fun e he => ?_⟩
    rcases mem_smPut he with rfl | he
    · exact hv
    · exact h.2 e he

theorem smWf_filter {α : Type} [DecidableEq α] {d : Nat → α} {m : SMap α} (h : smWf d m = true) (p : Nat × α → Bool) :
    smWf d (m.filter p) = true := by
  rw [smWf_iff] at h ⊢
  exact ⟨smSortedFrom_filter p h.1, fun e he => h.2 e (List.mem_filter.1 he).1⟩

/-! ## Registers -/

theorem Regs.wf_wr {s : State} (h : Regs.wf s.csr = true) (k v : Nat) : Regs.wf (s.wr k v).csr = true :=
  smWf_smSet h k _

theorem Regs.wf_resetRegs {s : State} (h : Regs.wf s.csr = true) (p : Nat → Bool) : Regs.wf (s.resetRegs p).csr = true :=
  smWf_filter h _

/-- A register reads what was written to it, modulo 2^64; every other register is unchanged. -/
theorem State.rd_wr (s : State) (k v j : Nat) : (s.wr k v).rd j = if k = j then v % 2 ^ 64 else s.rd j := by
  unfold State.rd State.wr
  by_cases hk : k = j
  · subst hk
    simp only [smGet_smSet, if_true, BitVec.toNat_ofNat]
  · simp only [hk, if_false]
    unfold smSet
    split
    · rw [smGet_smDel]
      simp only [hk, if_false]
    · rw [smGet_smPut]
      simp only [hk, if_false]

/-! ## Memory -/

theorem Memory.wf_memPut {m : SMap Byte} (h : Memory.wf m = true) (a : Nat) (bs : List Byte) :
    Memory.wf (memPut m a bs) = true := by
  induction bs generalizing m a with
  | nil => exact h
  | cons b bs ih => exact ih (smWf_smSet (d := fun _ => 0) h a b) (a + 1)

/-- Every memory operation keeps the canonical form. -/
theorem Memory.wf_poke {s : State} (h : Memory.wf s.mem = true) (a : Nat) (bs : List Byte) :
    Memory.wf (s.poke a bs).mem = true := Memory.wf_memPut h a bs

theorem Memory.wf_zero {s : State} (h : Memory.wf s.mem = true) (a n : Nat) : Memory.wf (s.zero a n).mem = true :=
  smWf_filter h _

/-- What a stored run of bytes leaves: the bytes stored, and every other byte as it was. -/
theorem smGet_memPut (m : SMap Byte) (a : Nat) (bs : List Byte) (j : Nat) :
    smGet 0 (memPut m a bs) j = if a ≤ j ∧ j < a + bs.length then bs.getD (j - a) 0 else smGet 0 m j := by
  induction bs generalizing m a with
  | nil =>
    have h1 : ¬(a ≤ j ∧ j < a + 0) := by omega
    simp only [memPut, List.length_nil, h1, if_false]
  | cons b bs ih =>
    simp only [memPut, List.length_cons]
    rw [ih, smGet_smSet]
    by_cases h1 : a = j
    · subst h1
      have h2 : ¬(a + 1 ≤ a ∧ a < a + 1 + bs.length) := by omega
      have h3 : a ≤ a ∧ a < a + (bs.length + 1) := by omega
      simp only [h2, h3, if_true, if_false, Nat.sub_self, List.getD_cons_zero]
      rfl
    · by_cases h2 : a + 1 ≤ j ∧ j < a + 1 + bs.length
      · have h3 : a ≤ j ∧ j < a + (bs.length + 1) := by omega
        have h4 : j - a = (j - (a + 1)) + 1 := by omega
        rw [if_pos h2, if_pos h3, h4, List.getD_cons_succ]
      · have h3 : ¬(a ≤ j ∧ j < a + (bs.length + 1)) := by omega
        rw [if_neg h2, if_neg h3, if_neg h1]

theorem State.byte_poke (s : State) (a : Nat) (bs : List Byte) (j : Nat) :
    (s.poke a bs).byte j = if a ≤ j ∧ j < a + bs.length then bs.getD (j - a) 0 else s.byte j :=
  smGet_memPut s.mem a bs j

end Sys2Proof.Machine
end

