-- ==== Sys2Proof/Laws/Seal.lean ====
section
/-! SUPPORT. Laws/Seal.lean: what is sealed opens, and what a feed message that opens does (R387, R472,
R486, R488). -/
namespace Sys2Proof.Machine

open Sys2Proof

@[simp] theorem gcmCrypt_length (key nonce : List Byte) : ∀ (i : Nat) (b : List Byte), (gcmCrypt key nonce i b).length = b.length
  | _, [] => rfl
  | i, _ :: bs => congrArg (· + 1) (gcmCrypt_length key nonce (i + 1) bs)

/-- Crypting twice gives the bytes back. -/
@[simp] theorem gcmCrypt_gcmCrypt (key nonce : List Byte) : ∀ (i : Nat) (b : List Byte),
    gcmCrypt key nonce i (gcmCrypt key nonce i b) = b
  | _, [] => rfl
  | i, b :: bs => by
    simp only [gcmCrypt, gcmCrypt_gcmCrypt key nonce (i + 1) bs, BitVec.xor_assoc, BitVec.xor_self, BitVec.xor_zero]

@[simp] theorem gcmTag_length (key nonce aad cipher : List Byte) : (gcmTag key nonce aad cipher).length = 16 := by simp [gcmTag]

@[simp] theorem gcmSeal_length (key nonce aad plain : List Byte) : (gcmSeal key nonce aad plain).length = plain.length + 16 := by
  simp [gcmSeal]

@[simp] theorem gcmOpen_gcmSeal (key nonce aad plain : List Byte) :
    gcmOpen key nonce aad (gcmSeal key nonce aad plain) = some plain := by
  simp [gcmOpen, gcmSeal]

theorem leAt_append {a b : List Byte} {o n : Nat} (h : o + n ≤ a.length) : leAt (a ++ b) o n = leAt a o n := by
  rw [leAt, leAt, slice, slice, List.drop_append_of_le_length (by omega), List.take_append_of_le_length (by simp; omega)]

/-- A feed message sealed under K_FIN opens, to its header and body. -/
theorem Session.feedOpen_seal (x : Session) (h b : List Byte) (hl : h.length = 32) :
    x.feedOpen (h ++ gcmSeal (x.key 2) (sessNonce 2 (leAt h 8 8)) h b) = some (h ++ b ++ zeros 16) := by
  have ht : (h ++ gcmSeal (x.key 2) (sessNonce 2 (leAt h 8 8)) h b).take 32 = h := by simp [← hl]
  have hd : (h ++ gcmSeal (x.key 2) (sessNonce 2 (leAt h 8 8)) h b).drop 32 =
      gcmSeal (x.key 2) (sessNonce 2 (leAt h 8 8)) h b := by simp [← hl]
  rw [Session.feedOpen, leAt_append (by omega), ht, hd, gcmOpen_gcmSeal]
  rfl

/-- A whole message that opens is accepted when its form is right and its SEQUENCE new, and else dropped. -/
theorem State.feedAccept_opens {s : State} {eth n port : Nat} {addr m d : List Byte} {x : Session} (he : eth ≤ 1)
    (hu : s.ethUp eth = true) (hg : s.gated 4 = false) (hl : 48 ≤ m.length) (hs : s.session? (leAt m 4 4) = some (n, x))
    (ho : x.feedOpen m = some d) :
    (s.feedAccept eth addr port m false).1 =
      if feedFormOk d && (leAt m 8 8 > x.feedHigh || (leAt m 8 8 + 4096 ≥ x.feedHigh && leAt m 8 8 < x.feedHigh &&
        !x.feedSeen.contains (leAt m 8 8))) then some d else none := by
  have h1 : ¬eth > 1 := by omega
  have h2 : ¬m.length < 48 := by omega
  simp only [State.feedAccept, h1, hu, hg, h2, hs, ho, decide_false, Bool.not_true, Bool.or_self, Bool.false_eq_true, if_false]
  generalize (decide (leAt m 8 8 > x.feedHigh) || (decide (leAt m 8 8 + 4096 ≥ x.feedHigh) && decide (leAt m 8 8 < x.feedHigh) &&
    !x.feedSeen.contains (leAt m 8 8))) = new
  cases feedFormOk d <;> cases new <;> rfl

end Sys2Proof.Machine
end

