-- ==== Sys2Proof/Tests/Slice0.lean ====
section
/-! SUPPORT. Tests/Slice0.lean: ill-formed commands that each check of WellFormed refuses; and for each obligation with
hypotheses, theorems wit_<its name> with states and operands that meet them together, at boundary values, and what the
spec says of them there. -/

set_option Elab.async false
set_option maxRecDepth 20000

namespace Sys2Proof.Tests
open Sys2Proof Sys2Proof.Machine

/-- The answer r is the next state t. -/
def gives (r : Host.Outcome State Fault Refusal) (t : State) : Bool :=
  match r with
  | .next u => decide (u = t)
  | _ => false

/-- The next state of an answer. -/
def after (r : Host.Outcome State Fault Refusal) : State :=
  match r with
  | .next u => u
  | _ => State.reset

/-- The module with every clock domain running. -/
def live : State := State.reset.wr kClkDomains 0

/-- The module with its Reeve answering. -/
def liveReeve : State := { live with boot := { live.boot with rom := .done, reeve := true } }

/-! ## Well-formed commands: each check refuses one -/

def zeros16 : List Byte := List.replicate 16 0

theorem test_wf_register : (Instr.registerWrite 0x1000000 4 0).wf = false ∧ (Instr.registerWrite 0 2 0).wf = false ∧
    (Instr.registerWrite 0xFFFFF8 8 0).wf = true := by and_intros <;> decide +kernel
theorem test_wf_recipe : (Instr.recipeWrite 31 96 0).wf = false ∧ (Instr.recipeWrite 31 95 0).wf = true := by and_intros <;> decide +kernel
theorem test_wf_addresses : (Instr.hcpPacket (.udp 0 [] 0) none [] 0).wf = false ∧
    (Instr.hcpPacket (.torus (2 ^ 20) 0) none [] 0).wf = false ∧
    (Instr.hcpPacket (.torus 0xFFFFF 0) (some ⟨0, 4, true⟩) [] 0).wf = false ∧
    (Instr.relay 0 zeros16 (2 ^ 16) []).wf = false ∧ (Instr.fragmentTimeout [] 0 0).wf = false ∧
    (Instr.neighbourDiscovery 0 (.solicit [] zeros16)).wf = false ∧ (Instr.neighbourDiscovery 0 (.solicit zeros16 [])).wf = false ∧
    (Instr.neighbourDiscovery 0 (.advert zeros16 zeros16)).wf = false ∧ (Instr.echoRequest 0 ⟨[], zeros16⟩ []).wf = false ∧
    (Instr.echoRequest 0 ⟨zeros16, []⟩ []).wf = false ∧
    (Instr.relay 0 zeros16 0xFFFF []).wf = true := by and_intros <;> decide +kernel
theorem test_wf_lists : (Instr.pendingCommandComplete [[]]).wf = false ∧ (Instr.digestMessage 0 (.chunks [[]])).wf = false ∧ (Instr.digestMessage 0 (.blocks 0 [[]])).wf = false ∧
    (Instr.parityRepair [[]] none false).wf = false ∧ (Instr.changeList 0 [(4096, 0)] []).wf = false ∧
    (Instr.lampAuthResponse 0 [] 0 0 true).wf = false ∧ (Instr.rebuildEnd 0 0 [] [(0, .bytes [])]).wf = false ∧
    (Instr.tempSample []).wf = false ∧ (Instr.powerWindow 0 0 []).wf = false ∧ (Instr.coreSelftestEnd [1280]).wf = false ∧
    (Instr.hbmTrained []).wf = false ∧ (Instr.dimmsTrained []).wf = false ∧ (Instr.reeveStart [] [] true).wf = false ∧
    (Instr.presetSweepEnd 0 []).wf = false ∧ (Instr.laneWindow 0 []).wf = false := by and_intros <;> decide +kernel
theorem test_wf_feed : (Instr.feedSample 2 zeros16 0 [] true).wf = false ∧ (Instr.indexEnd 0 [] 0 [] true).wf = false ∧
    (Instr.batchEnd 2 zeros16 0 [] true).wf = false ∧ (Instr.stateIn 0 zeros16 (2 ^ 16) [] true).wf = false ∧
    (Instr.stateCredit 2 zeros16 0 [] true).wf = false ∧ (Instr.feedSample 1 zeros16 0 [] true).wf = true := by and_intros <;> decide +kernel
theorem test_wf_ranges : (Instr.descriptorComplete 0 65536).wf = false ∧ (Instr.fenceMessage 0 0 (2 ^ 48) 0 0 0).wf = false ∧
    (Instr.podTimeout (.collective 0 65536)).wf = false ∧ (Instr.contribution 0 (some ⟨0, 0, 0, 4096, 0, []⟩)).wf = false ∧
    (Instr.commonsRefresh 0 0 (List.replicate 8193 0)).wf = false ∧ (Instr.memoryAccess 0 0 (.read 4097) [] none).wf = false ∧
    (Instr.remoteAccess 0 (.read 0)).wf = false ∧ (Instr.readCompletion (.mem 0) (.failed (.bytes []))).wf = false ∧
    (Instr.parityDelta true 0 4096 [0]).wf = false ∧ (Instr.parityDelta true 0 4095 [0]).wf = true := by and_intros <;> decide +kernel
def block (b : List Byte) : RxBlock := ⟨0, 0, false, false, 1, 0, 0, b, true, true, 0⟩
theorem test_wf_blocks : (Instr.dataBlock 0 (block (List.replicate 485 0))).wf = false ∧
    (Instr.dataBlock 0 (block (List.replicate 484 0))).wf = true := by and_intros <;> decide +kernel
/-! ## The block: statements of the whole machine -/

def waiting : State := { live with pending := [.timePeriod, .autoLight] }

theorem test_step_front : gives (step waiting) (after (exec .timePeriod { live with pending := [.autoLight] })) = true ∧
    gives (step live) live.tick = true := by and_intros <;> decide +kernel
theorem wit_GoodStatesStayGood : live.good = true ∧ gives (step live) (after (step live)) = true ∧ (after (step live)).good = true := by
  decide +kernel
theorem wit_QueueAndMessages : gives (exec .smbStatus waiting) (after (exec .smbStatus waiting)) = true ∧
    (after (exec .smbStatus waiting)).pending = waiting.pending ∧ (after (exec .smbStatus waiting)).out.length = 1 := by
  decide +kernel
theorem wit_OwnerAndIdentity : gives (exec .autoLight live) (after (exec .autoLight live)) = true ∧
    (after (exec .autoLight live)).flash = live.flash := by and_intros <;> decide +kernel
/-- The clauses of IdleTime: the hub gated, and REF and INT lost as well; no slew; a slew each way at its next nanosecond. -/
def podChild : State := (live.wr kLayout (2 + 2 ^ 8 + 2 ^ 16 + 2 ^ 24 + 2 ^ 47)).wrf (kLnkStatus 1) 0 4 4
def slewing (n : Int) : State := { podChild with net := { live.net with slew := n }, wall := 4999 }
def hubGated : State := State.reset.wr kClkDomains (2 ^ 49)
def clocksLost : State := hubGated.wr kClkStatus (2 ^ 8 + 2 ^ 10)
theorem wit_IdleTime : hubGated.hubOn = false ∧ hubGated.tick.wall = 1 ∧ hubGated.tick.time = 1 ∧ hubGated.srcFailed 0 = false ∧
    clocksLost.hubOn = false ∧ clocksLost.srcFailed 0 = true ∧ clocksLost.srcFailed 2 = true ∧ clocksLost.tick.time = 0 ∧
    clocksLost.tick.wall = 1 ∧ live.powered = true ∧ live.hubOn = true ∧
    live.seq.deferred = [] ∧ live.net.slew = 0 ∧ live.tick.rd kPodTime = 1 ∧ live.tick.time = 1 ∧
    live.cores = [] ∧ live.lay.waiting = false ∧ podChild.parentPort = some 1 ∧ podChild.linkSt 1 = 4 ∧ live.parentPort = none ∧
    ({ slewing 1 with csr := live.csr } : State).tick.net.slew = 1 ∧
    0 < (slewing 1).net.slew ∧ (slewing 1).wall % 5000 = 4999 ∧ (slewing 1).tick.rd kPodTime = 2 ∧ (slewing 1).tick.net.slew = 0 ∧
    (slewing (-1)).net.slew < 0 ∧ (slewing (-1)).tick.rd kPodTime = 0 ∧ (slewing (-1)).tick.net.slew = 0 := by and_intros <;> decide +kernel
/-- Serial numbers of 16 bits at the edges of R5: 0x7FFF later, 0x8000 not ordered, 0x8001 earlier. -/
theorem wit_SerialNumbers : serialLater 16 0x7FFF 0 = true ∧ serialLater 16 0x8000 0 = false ∧ serialLater 16 0 0x8000 = false ∧
    serialLater 16 0x8001 0 = false ∧ serialLater 16 0 0x8001 = true ∧ serialLater 1 1 0 = false := by and_intros <;> decide +kernel
/-- Offset 0 of CSR space is assigned to nothing. -/
theorem wit_UnassignedOffsets : regFind 0 = none ∧ live.csrRead 0 8 = (.ok, 0) ∧ csrOverlaps 0 8 = false ∧
    live.csrGated 0 = false ∧ csrBlock 0 ≠ 5 ∧ gives (exec (.registerWrite 0 8 1) live) live = true ∧
    (live.csrWrite 0 4 1).1 = .ok := by and_intros <;> decide +kernel
/-- Node fields of R330: the module's own by 0xFFFFF and by name, one outside the layout, one inside. -/
def podOf2 : State := live.wr kLayout (2 + 2 ^ 8 + 2 ^ 16 + 2 ^ 24)
theorem wit_AddressedModules : live.serve (0xFFFFF * 2 ^ 44 + 64) = .here 64 ∧ live.node = 0 ∧ live.serve 64 = .here 64 ∧
    live.inLayout (2 ^ 15) = false ∧ live.serve (2 ^ 59) = .nowhere ∧ podOf2.inLayout (2 ^ 15) = true ∧ podOf2.node ≠ 2 ^ 15 ∧
    podOf2.serve (2 ^ 59) = .there ∧ live.hubOn = true := by and_intros <;> decide +kernel
/-- Scale codes 0, 127, 254 and 255 of R122. -/
theorem wit_ScaleCodes : decodeCode (fmtOf (paletteReset 10)) 0 = (.fin false 1 (-127), 0) ∧
    decodeCode (fmtOf (paletteReset 10)) 127 = (.fin false 1 0, 0) ∧
    decodeCode (fmtOf (paletteReset 10)) 254 = (.fin false 1 127, 0) ∧
    (decodeCode (fmtOf (paletteReset 10)) 255).1 = .nan := by and_intros <;> decide +kernel
/-- A store over the end of core 0's SRAM, one of 0 (which lists nothing), and one that completes. -/
theorem wit_MemoryAndRegistersReadBack : (live.poke 0xFFFFF [1, 2]).bytes 0xFFFFF 2 = [1, 2] ∧
    (live.poke 5 [0]).mem = [] ∧ (live.poke 5 [7]).byte 4 = 0 ∧
    (live.memWrite false 0x1000000000 [1, 2]).1 = .ok ∧ bit (live.rd kParityCtrl) 0 = false ∧
    (live.memWrite false 0x1000000000 [1, 2]).2.bytes 0x1000000000 2 = [1, 2] ∧
    ((live.wrf kSeqStep 60 4 0x1F).rdf kSeqStep 60 4 = 15) ∧ ((live.wr kSeqStep (2 ^ 64 - 1)).bump kSeqStep 1).rd kSeqStep = 2 ^ 64 - 1 := by
  decide +kernel

/-- A step is running. -/
def stepping : State := { live with seq := { live.seq with mode := .running } }
/-- User recipe 3 holds the operations of built-in recipe 0. -/
def recipe3 : State := (List.range 96).foldl (fun s w => s.wr (kRecipe 3 w) (live.recipe 0 w)) live

theorem wit_RegisterWrites_access : live.powered = true ∧
    live.csrAccess kSeqStep 3 = (.align, none) ∧
    (live.csrAccess (coreBase 0 + 0x18) 4).1 = .ok ∧ csrBlock (coreBase 0 + 0x18) = 5 ∧
    gives (exec (.registerWrite (coreBase 0 + 0x18) 4 0xFFFFFFFF) live) (live.wr (coreBase 0 + 0x18) 0xFFFFFF) = true := by
  decide +kernel
theorem wit_RegisterWrites_unassigned : live.csrGated 0x1000 = false ∧ csrBlock 0x1000 ≠ 5 ∧ regFind 0x1000 = none ∧
    csrOverlaps 0x1000 8 = false ∧ gives (exec (.registerWrite 0x1000 8 1) live) live = true := by and_intros <;> decide +kernel
theorem wit_RegisterWrites_palette : bit 0x7FFFFFFF 31 = false ∧
    gives (exec (.qzPaletteWrite 0 0x7FFFFFFF) live) (live.wr (kPalette 12) 0) = true ∧ bit (paletteReset 3) 31 = true ∧ paletteOk (paletteReset 3) = true ∧
    gives (exec (.qzPaletteWrite 3 (BitVec.ofNat 32 (paletteReset 3))) live) (live.wr (kPalette 15) (paletteReset 3)) = true ∧
    paletteOk 0xFFFFFFFF = false ∧ gives (exec (.qzPaletteWrite 1 0xFFFFFFFF) live) (live.wr kPaletteSticky 0xD2) = true ∧
    stepping.isIdle = false ∧ gives (exec (.qzPaletteWrite 2 0) stepping) (stepping.wr kPaletteSticky 0xE1) = true := by
  decide +kernel
theorem wit_RegisterWrites_recipe :
    gives (exec (.recipeWrite 0 31 7) live) (live.wr (kRecipe 0 31) 7) = true ∧ gives (exec (.recipeWrite 2 32 7) live) live = true ∧
    gives (exec (.recipeWrite 3 95 7) live) (live.wr (kRecipe 3 95) 7) = true ∧ live.isIdle = true ∧
    (after (exec (.recipeCommit 0x102) live)).rdf (wideKey 0x110024) 16 8 = 4 ∧ gives (exec (.recipeCommit 3) live) live = true ∧
    live.recipeOk 3 = false ∧ (after (exec (.recipeCommit 0x103) live)).rdf (wideKey 0x110024) 16 8 = 3 ∧
    (after (exec (.recipeCommit 0x103) stepping)).rdf (wideKey 0x110024) 16 8 = 2 ∧ recipe3.recipeOk 3 = true ∧
    (after (exec (.recipeCommit 0x103) recipe3)).rdf (wideKey 0x110024) 16 8 = 1 ∧
    bit ((after (exec (.recipeCommit 0x103) recipe3)).rd (kRecipe 3 0)) 0 = true := by and_intros <;> decide +kernel
theorem wit_RegisterWrites_step : gives (exec (.seqStepSet (2 ^ 48 + 5)) live) (live.wr kSeqStep 5) = true ∧
    gives (exec (.seqStepSet 5) stepping) stepping = true ∧ live.quiet = true ∧ gives (exec .clearMixed live) live = true ∧
    stepping.quiet = false ∧ gives (exec .clearMixed stepping) stepping = true := by and_intros <;> decide +kernel
/-- The first address of HBM, of tile 0. -/
def hbm0 : Nat := 0x1000000000
/-- The first address of Studio SRAM of tile 0. -/
def studio0 : Nat := 0x100000000
/-- A crossbar request of slot 3 with and without a rival before it, and to the fence of the layout. -/
def xreq (rivals : List (Fin 17)) : XbarReq := ⟨0, 7, 3, rivals⟩
/-- A FENCE of the whole module, and one of tile 0, is pending. -/
def orderPending (b : List Byte) : State :=
  live.setHcp fun h => { h with pend := some ⟨⟨.udp 0 zeros16 9, 0x0205, 1, 0, b, [], 0, false⟩, none⟩ }
def fenced0 : State := orderPending (List.replicate 8 0)
def fenced1 : State := orderPending (1 :: List.replicate 7 0)
theorem wit_MemoryAccesses_rounds : live.serve studio0 = .here studio0 ∧ (live.bankRound studio0 2 []).1 = true ∧
    (live.serveGlobal studio0 (.read 8)).2.1 = List.replicate 8 0 ∧
    gives (exec (.memoryAccess 2 0x100000000 (.read 8) [] none) live)
      (((live.bankRound studio0 2 []).2).emit (.access 2 .ok (List.replicate 8 0))) = true ∧
    (live.bankRound studio0 2 [5]).1 = false ∧
    gives (exec (.memoryAccess 2 0x100000000 (.read 8) [5] none) live) (live.bankRound studio0 2 [5]).2 = true ∧
    live.serve (2 ^ 59) = .nowhere ∧
    gives (exec (.memoryAccess 2 0x800000000000000 (.read 8) [] none) live) (live.emit (.access 2 .unmapped [])) = true ∧
    fenced0.fencedAll = true ∧ gives (exec (.memoryAccess 2 0x100000000 (.read 8) [] none) fenced0) fenced0 = true ∧
    fenced1.fencedAll = false ∧ fenced1.fencedTile 0 = true ∧
    gives (exec (.memoryAccess 2 0x100000000 (.read 8) [] (some (xreq []))) fenced1) fenced1 = true ∧
    (live.xbarRound (xreq [])).1 = true ∧ (live.xbarRound (xreq [2])).1 = false ∧
    gives (exec (.memoryAccess 2 0x100000000 (.read 8) [] (some (xreq [2]))) live) (live.xbarRound (xreq [2])).2 = true := by and_intros <;> decide +kernel
theorem wit_MemoryAccesses_codes : live.hubOn = true ∧ live.fencedAll = false ∧
    gives (exec (.remoteAccess 0x1000000000 (.read 1)) fenced0) fenced0 = true ∧ gives (exec (.remoteAccess 0x1000000000 (.read 1)) live)
      (live.emit (.access 255 .ok [0])) = true ∧ regionOf hbm0 ≠ .csr ∧ live.accessCode hbm0 8 = .ok ∧
    live.ueAt hbm0 8 = none ∧ live.accessCode 0x4AFFFFFF 2 ≠ .ok ∧
    (live.serveLocal 0x4AFFFFFF (.write [1, 2] false)).1 ≠ .ok ∧ regionOf 0x40000000000 = .granary ∧ stepping.quiet = false ∧
    (stepping.serveLocal 0x40000000000 (.write [1] false)).1 ≠ .ok := by and_intros <;> decide +kernel
/-- Arbiters that count (their limits are not 0), and the same with the limits at 0. -/
def uncounted : State := (live.wrf (tileBase 0 + 0x120204) 8 16 0).wrf (tileBase 0 + 0x120210) 8 16 0
theorem wit_MemoryAccesses_holds : live.fabOn 0 = true ∧ live.rdf (tileBase 0 + 0x120204) 8 16 ≠ 0 ∧ regionOf 0x4000 = .core ∧
    (after (exec (.holdCutoff 0x4000 5) live)).out = [.access 5 .cutoff []] ∧
    regionOf studio0 = .studio ∧ live.rdf (tileBase 0 + 0x120210) 8 16 ≠ 0 ∧
    (after (exec (.holdCutoff 0x100000000 10) live)).out = [.access 10 .cutoff []] ∧
    gives (exec (.holdCutoff 0x4000 6) live) live = true ∧
    gives (exec (.holdCutoff 0x4000 5) uncounted) uncounted = true ∧
    (after (exec (.withdraw (xreq [])) live)).rd (tileBase 0 + 0x120240) = 1 ∧
    gives (exec (.withdraw (xreq [2])) live) live = true := by and_intros <;> decide +kernel
/-- A parity group of two modules that protects the first 4 KiB of HBM; its parity lies a unit further. -/
def parityOn : State := (((live.wr kParityCtrl (1 + 2 * 2 ^ 8 + 2 ^ 24)).wr (wideKey 0x130600) hbm0).wr (wideKey 0x130608) 4096).wr
  (wideKey 0x130218) (hbm0 + 4096)
def line64 : List Byte := List.replicate 64 7
/-- Slot 1 of the event ring, at 0x20020 of CSR space, cannot be read. -/
def ringBad : State := live.ringFails 0x200020020 (some 1)
theorem wit_MemoryErrors_ring :
    gives (exec (.readCompletion (.mem 0x200020020) (.failed .doubleLoss)) live) ringBad = true ∧ regionOf 0x200020020 = .csr ∧ ringSlotAt (0x200020020 - csrBase) = some 1 ∧ ringBad.erec.badSlots = [1] ∧
    ringBad.rd kRecSticky = 2 ∧ ringBad.csrRead 0x20038 8 = (.ue, 0) ∧ (ringBad.csrRead 0x20040 8).1 = .ok ∧
    regionOf 0x200020000 = .csr ∧ ringSlotAt 0x1FFFF = none ∧ ringSlotAt 0x40000 = none ∧ ringSlotAt 0x3FFFF = some 4095 ∧
    gives (exec (.readCompletion (.mem 0x200040000) (.failed .doubleLoss)) live) live = true := by and_intros <;> decide +kernel
theorem wit_MemoryErrors_reads : gives (exec (.readCompletion (.mem 0) .retried) live) live = true ∧
    gives (exec (.readCompletion (.mem 0x1000000000) .corrected) live) (live.noteCe hbm0) = true ∧
    regionOf hbm0 ≠ .none ∧ regionOf hbm0 ≠ .csr ∧ live.isProtected hbm0 = false ∧ live.inParity hbm0 = false ∧
    regionOf 0x80000000000 = .none ∧ gives (exec (.readCompletion (.mem 0x80000000000) (.failed .doubleLoss)) live) live = true ∧
    gives (exec (.readCompletion (.mem 0x1000000000) (.failed .doubleLoss)) live) (live.markUe hbm0) = true ∧
    (after (exec (.readCompletion (.veRegs 3) .corrected) live)).erec.queue.map (·.code) = [0x0406] ∧
    (after (exec (.readCompletion (.table 2) (.failed .doubleLoss)) stepping)).rd kSeqFault = 16 ∧
    gives (exec (.patrolScrub 0x1000000000 true) live) (live.noteCe hbm0) = true ∧
    (after (exec (.patrolScrub 0x1000000000 false) live)).rd (tileBase 0 + 0x120128) = 2 ^ 63 + hbm0 ∧
    regionOf 0x40000000000 = .granary ∧
    (after (exec (.patrolScrub 0x40000000000 false) live)).rd (tileBase 0 + 0x1200A0) = 2 ^ 63 + 0x40000000000 := by and_intros <;> decide +kernel
/-- Core 0 pops a READY entry. -/
def popping (e : QEntry) : State :=
  let s := live.setVe 0 { VeState.init with
    run := some ⟨.desc 0 0, 0, 0, 0, 1, false⟩, started := true, insns := [BitVec.ofNat 64 (0x2B * 2 ^ 56 + 2 * 2 ^ 42)] }
  s.setMe 0 ((s.me 0).setEntry 0 e)
def oneXfer : State := live.setVe 0 { VeState.init with dma := [⟨true, hbm0, 0x100, 8, .desc 0 0, false⟩] }
theorem wit_MemoryErrors_sites :
    (((popping QEntry.free).raise 0x0407 2 0 0).ve 0).run.isSome = true ∧ ((popping QEntry.free).ve 0).ended = false ∧
    ((after (exec (.readCompletion (.veRegs 0) (.failed .doubleLoss)) (popping QEntry.free))).ve 0).err = some true ∧
    (live.ve 0).run = none ∧ (after (exec (.readCompletion (.veRegs 0) (.failed .doubleLoss)) live)).erec.queue.map (·.code) = [0x0407] ∧
    (live.me 0).chains = [] ∧ (live.ve 0).dma = [] ∧ (oneXfer.ve 0).dma.length = 1 ∧
    ((after (exec (.readCompletion (.dmaBuffer 0) (.failed .doubleLoss)) oneXfer)).ve 0).dmaErrs = [true] ∧
    ((after (exec (.readCompletion (.queue 0) (.failed .doubleLoss)) (popping ⟨3, [4], 7, 3, none, 0⟩))).ve 0).err = some true ∧
    ((after (exec (.readCompletion (.queue 0) (.failed .doubleLoss)) (popping QEntry.free))).ve 0).err = none := by and_intros <;> decide +kernel
theorem wit_MemoryErrors_parity : parityOn.isProtected (hbm0 + 70) = true ∧ parityOn.isProtected (hbm0 + 4096) = false ∧
    ((after (exec (.readCompletion (.mem 0x1000000046) (.failed (.bytes line64))) parityOn)).bytes (hbm0 + 63) 66 =
      [0] ++ line64 ++ [0]) ∧ bit (parityOn.rd kParityCtrl) 0 = true ∧ 0 < parityOn.parityUnits false ∧
    parityOn.hubOn = true ∧ gives (exec (.parityDelta false 0 4094 [1, 2]) parityOn) (parityOn.poke (hbm0 + 8190) [1, 2]) = true ∧
    gives (exec (.parityDelta false 0 4095 [1, 2]) parityOn) parityOn = true ∧ parityOn.inParity (hbm0 + 4096) = true ∧
    (after (exec (.readCompletion (.mem 0x1000000000) (.failed .stripeTorn)) parityOn)).rd (wideKey 0x130214) = 2 ∧
    (after (exec (.readCompletion (.mem 0x1000001000) (.failed .doubleLoss)) parityOn)).rd (wideKey 0x130214) = 4 := by
  decide +kernel
def oneMessage : State := { live with net := { live.net with assembled := [(16 * 3 + 2, 1, [1, 2])] } }
theorem wit_MemoryErrors_message : oneMessage.net.assembled = [(50, 1, [1, 2])] ∧
    gives (exec .messageReceived oneMessage) ((live.freeBuffers 3 2 1).takeMessage 3 2 [1, 2]) = true := by and_intros <;> decide +kernel
/-! ## The Vector Engine -/

/-- The word of an opcode with destination 1 and sources 2, 3 and 4 where its form has them. -/
def word (op imm : Nat) : Nat :=
  let reg := fun (k : RegKind) (n : Nat) => if k = .none then 0 else n
  match veForm op with
  | none => op * 2 ^ 56
  | some f => op * 2 ^ 56 + reg f.d 1 * 2 ^ 47 + reg f.a 2 * 2 ^ 42 + reg f.b 3 * 2 ^ 37 + reg f.c 4 * 2 ^ 32 + imm
/-- Core 0 is about to execute w, with the registers x and v, and all lanes active. -/
def veAt (w : Nat) (x : SMap W64) (v : SMap W32) : State :=
  live.setVe 0 { VeState.init with run := some ⟨.desc 0 0, 0, 0, 5, 9, false⟩, started := true, insns := [BitVec.ofNat 64 w, 0], x := x, v := v }
def opcodes : List Nat := [0x00, 0x01, 0x02, 0x03, 0x04, 0x05, 0x10, 0x11, 0x12, 0x13, 0x14, 0x15, 0x16, 0x17, 0x18, 0x19, 0x1A,
  0x1B, 0x1C, 0x1D, 0x1E, 0x20, 0x21, 0x22, 0x23, 0x24, 0x25, 0x26, 0x27, 0x28, 0x29, 0x2A, 0x30, 0x31, 0x32, 0x33, 0x34, 0x35, 0x36,
  0x37, 0x38, 0x39, 0x3A, 0x3B, 0x3C, 0x3D, 0x3E, 0x3F, 0x40, 0x41, 0x42, 0x43, 0x44, 0x45, 0x46, 0x47, 0x48, 0x49, 0x4A, 0x4B, 0x4C,
  0x4D, 0x4E, 0x50, 0x51, 0x52, 0x53, 0x58, 0x59, 0x5A, 0x5B, 0x5C, 0x5D, 0x60, 0x61, 0x62, 0x63, 0x64, 0x65, 0x68, 0x69, 0x6A, 0x6B,
  0x6C, 0x6D, 0x6E, 0x70, 0x71]

/-- Every opcode of the statements about the VE is due somewhere (the queue and the transfers have their own). -/
theorem wit_VeDue : ∀ op ∈ opcodes, (veAt (word op 0) [] []).veDue 0 op (word op 0) := by decide +kernel
/-- SGET of the last source and of the first that is none. -/
theorem wit_VeScalars_sget : (veAt (word 0x1E 5) [] []).veDue 0 0x1E (word 0x1E 5) ∧ vImm (word 0x1E 5) = 5 ∧
    (veAt (word 0x1E 6) [] []).veDue 0 0x1E (word 0x1E 6) ∧ vImm (word 0x1E 6) > 5 ∧
    (((after (exec (.sget 0) (veAt (word 0x1E 1) [] []))).ve 0).xr 1 = 5) ∧
    (((after (exec (.sget 0) (veAt (word 0x1E 2) [] []))).ve 0).xr 1 = 9) ∧
    (after (exec (.sget 0) (veAt (word 0x1E 6) [] []))).rd (coreBase 0 + 0x114) = 2 ^ 31 + 0x1E * 2 ^ 16 := by and_intros <;> decide +kernel
/-- ADD wraps, a comparison is of signed numbers, a shift takes its amount modulo 64, and a branch back leaves the program. -/
theorem test_ve_scalars :
    (((after (exec (.sadd 0) (veAt (word 0x12 0xFFFFFFFF) [(2, 0), (3, 0)] []))).ve 0).xr 1 = 0xFFFFFFFFFFFFFFFF) ∧
    (((after (exec (.scmplt 0) (veAt (word 0x1A 0) [(2, 0xFFFFFFFFFFFFFFFF), (3, 1)] []))).ve 0).xr 1 = 1) ∧
    (((after (exec (.sshl 0) (veAt (word 0x18 1) [(2, 1), (3, 64)] []))).ve 0).xr 1 = 2) ∧
    (((after (exec (.loop 0) (veAt (word 0x05 0xFFFFFFFF) [(1, 1)] []))).ve 0).pc = 1) ∧
    (((after (exec (.loop 0) (veAt (word 0x05 0xFFFFFFFF) [(1, 2)] []))).ve 0).err = some false) ∧
    (((after (exec (.jmp 0) (veAt (word 0x02 1) [] []))).ve 0).pc = 1) := by and_intros <;> decide +kernel
/-- IADDS saturates at both ends, one past each bound. -/
theorem test_ve_iadds : (((after (exec (.iadds 0) (veAt (word 0x43 0) [] [(128, 0x7FFFFFFF), (192, 1)]))).ve 0).lane 1 0 = 0x7FFFFFFF) ∧
    (((after (exec (.iadds 0) (veAt (word 0x43 0) [] [(128, 0x80000000), (192, 0xFFFFFFFF)]))).ve 0).lane 1 0 = 0x80000000) ∧
    (((after (exec (.iadds 0) (veAt (word 0x43 0) [] [(128, 0x7FFFFFFE), (192, 1)]))).ve 0).lane 1 0 = 0x7FFFFFFF) := by and_intros <;> decide +kernel
/-- 1.0 + 2.0, 3.0 × 2.0 and the square root of 4.0; the largest of −1.0 and 0. -/
theorem test_ve_floats : (((after (exec (.fadd 0) (veAt (word 0x30 0) [] [(128, 0x3F800000), (192, 0x40000000)]))).ve 0).lane 1 0 = 0x40400000) ∧
    (((after (exec (.fmul 0) (veAt (word 0x32 0) [] [(128, 0x40400000), (192, 0x40000000)]))).ve 0).lane 1 0 = 0x40C00000) ∧
    (((after (exec (.fsqrt 0) (veAt (word 0x35 0) [] [(128, 0x40800000)]))).ve 0).lane 1 0 = 0x40000000) ∧
    (((after (exec (.fredmax 0) (veAt (word 0x61 0) [] [(128, 0xBF800000)]))).ve 0).xr 1 = 0) := by and_intros <;> decide +kernel
/-- Registers at the ends of their files, retirement at the last instruction and past it. -/
theorem wit_VeRegisters : (VeState.init.setM 7 5).mr 7 = 5 ∧ (VeState.init.setM 0 5).mr 0 = 0xFFFFFFFFFFFFFFFF ∧
    (VeState.init.setX 31 5).xr 31 = 5 ∧ ((veAt 0 [] []).ve 0).insns.length = 2 ∧
    (((veAt 0 [] []).veRetire 0 0 1).ve 0).pc = 1 ∧ (((veAt 0 [] []).veRetire 0 0 2).ve 0).ended = true ∧
    (((veAt 0 [] []).veRetire 0 0 (-1)).ve 0).ended = true ∧ ((veAt 0 [] []).veRetire 0 0 2).rd (coreBase 0 + 0x110) = 8 := by and_intros <;> decide +kernel
/-- CVT and CVTS between formats that hold, and MASKGEN at its greatest threshold and past it. -/
theorem wit_VeConversions : (live.fmt 0).valid = true ∧ (live.fmt 5).valid = true ∧
    (veAt (word 0x50 0x50) [] []).veDue 0 0x50 (word 0x50 0x50) ∧ (veAt (word 0x51 0x50) [] []).veDue 0 0x51 (word 0x51 0x50) ∧
    (((after (exec (.cvt 0) (veAt (word 0x50 0) [] [(128, 0x3F800000)]))).ve 0).lane 1 0 = 0x3F800000) ∧
    (((after (exec (.maskgen 0) (veAt (word 0x71 0) [(3, 0x100000000)] []))).ve 0).mr 1 = 0) ∧
    (((after (exec (.maskgen 0) (veAt (word 0x71 0) [(3, 0x100000001)] []))).ve 0).err = some false) := by and_intros <;> decide +kernel
/-- Local accesses that reach the last bytes of the core's SRAM. -/
theorem wit_VeLoadsAndStores : (veAt (word 0x1C 0) [(2, 0xFFFF8)] []).veQuietMem 0 ∧
    (veBase ((veAt (word 0x1C 0) [(2, 0xFFFF8)] []).ve 0) (word 0x1C 0)).toNat = 0xFFFF8 ∧
    (∀ e ∈ plainSpans 0xFFF00 4 (((veAt (word 0x20 0) [] []).ve 0).active (word 0x20 0)), e.2.ok 4 = true) ∧
    (∀ e ∈ plainSpans 0xFFF80 2 (((veAt (word 0x22 0) [] []).ve 0).active (word 0x22 0)), e.2.ok 1 = true) ∧
    (∀ e ∈ plainSpans 0xFFFC0 1 (((veAt (word 0x24 0) [] []).ve 0).active (word 0x24 0)), e.2.ok 1 = true) ∧
    (∀ e ∈ packedSpans 0 (live.fmt 5).width (((veAt (word 0x26 5) [] []).ve 0).active (word 0x26 5)), e.2.ok 1 = true) ∧
    (∀ e ∈ offsetSpans 0xFFFFC ((veAt (word 0x28 0) [] []).ve 0) 3 (((veAt (word 0x28 0) [] []).ve 0).active (word 0x28 0)), e.2.ok 4 = true) ∧
    ((after (exec (.sst 0) (veAt (word 0x1D 0) [(2, 0xFFFF8), (3, 0x0102)] []))).bytes 0xFFFF8 8 = [2, 1, 0, 0, 0, 0, 0, 0]) ∧
    (((after (exec (.vld8 0) ((veAt (word 0x24 0) [(2, 0xFFFC0)] []).poke 0xFFFFF [9]))).ve 0).lane 1 63 = 9) ∧
    ((after (exec (.vst16 0) (veAt (word 0x23 0) [(2, 0xFFF80)] [(127, 0x10203)]))).bytes 0xFFFFE 2 = [3, 2]) := by and_intros <;> decide +kernel
/-! ## Cores -/

def popt (d : Nat) : Nat := 0x2B * 2 ^ 56 + d * 2 ^ 47 + 2 * 2 ^ 42
/-- The head of the queue is ready, or free; POPT is due. -/
def ready : QEntry := ⟨3, [4, 5], 7, 3, none, 0⟩
def queueAt (e : QEntry) (d : Nat) : State :=
  let s := veAt (popt d) [] []
  s.setMe 0 ((s.me 0).setEntry 7 e |> fun m => { m with head := 7 })
theorem wit_VePops : (queueAt ready 16).veReady 0 0x2B (popt 16) ∧ vD (popt 16) = 16 ∧
    ((queueAt ready 16).me 0).entry ((queueAt ready 16).me 0).head = ready ∧
    ((after (exec (.popt 0 0) (queueAt ready 16))).me 0).head = 0 ∧
    ((after (exec (.popt 0 0) (queueAt ready 16))).ve 0).lane 16 1 = 5 ∧
    ((after (exec (.popt 0 0) (queueAt ready 16))).ve 0).xr 2 = 0x30007 ∧
    (queueAt QEntry.free 0).veReady 0 0x2B (popt 0) ∧
    gives (exec (.popt 0 3) (queueAt QEntry.free 0))
      ((queueAt QEntry.free 0).setVe 0 { (queueAt QEntry.free 0).ve 0 with wait := .popt }) = true ∧
    (queueAt ready 1).veReady 0 0x2B (popt 1) ∧ ((after (exec (.popt 0 0) (queueAt ready 1))).ve 0).err = some false := by and_intros <;> decide +kernel
/-- The longest transfer that ends with the core's SRAM, one that does not fit, a full list of transfers, and DMAWAIT. -/
def dmaAt (op l k : Nat) (dma : List DmaXfer) (errs : List Bool) : State :=
  let s := veAt (word op 0) [(2, 0x1000000000), (3, BitVec.ofNat 64 l), (4, BitVec.ofNat 64 k)] []
  s.setVe 0 { s.ve 0 with dma := dma, dmaErrs := errs }
def xfer (put tainted : Bool) : DmaXfer := ⟨put, hbm0, 0x100, 8, .desc 0 0, tainted⟩
theorem wit_VeDma : (dmaAt 0x78 0xFFFFC 4 [] []).veReady 0 0x78 (word 0x78 0) ∧
    ((after (exec (.dmaget 0 0) (dmaAt 0x78 0xFFFFC 4 [] []))).ve 0).dma = [⟨false, hbm0, 0xFFFFC, 4, .desc 0 0, false⟩] ∧
    (dmaAt 0x79 0xFFFFC 8 [] []).veReady 0 0x79 (word 0x79 0) ∧
    ((after (exec (.dmaput 0 0) (dmaAt 0x79 0xFFFFC 8 [] []))).ve 0).err = some false ∧
    (dmaAt 0x79 0 4 (List.replicate 16 (xfer true false)) []).veReady 0 0x79 (word 0x79 0) ∧
    ((after (exec (.dmaput 0 0) (dmaAt 0x79 0 4 (List.replicate 16 (xfer true false)) []))).ve 0).wait = .dmaFull ∧
    (dmaAt 0x06 0 0 [xfer true false] []).veReady 0 0x06 (word 0x06 0) ∧
    ((after (exec (.dmawait 0 0) (dmaAt 0x06 0 0 [xfer true false] []))).ve 0).wait = .dmaWait ∧
    ((after (exec (.dmawait 0 0) (dmaAt 0x06 0 0 [] []))).ve 0).pc = 1 ∧
    ((after (exec (.dmawait 0 0) (dmaAt 0x06 0 0 [] [true, false]))).ve 0).err = some true := by and_intros <;> decide +kernel
/-- The same while a FENCE of the core is pending. -/
def dmaFenced (op : Nat) : State := (dmaAt op 0 4 [] []).setHcp fun _ => (orderPending ([2] ++ List.replicate 7 0)).hcp
theorem wit_VeDma_fenced : (dmaFenced 0x78).fencedCore 0 = true ∧ (dmaFenced 0x78).veReady 0 0x78 (word 0x78 0) ∧
    gives (exec (.dmaget 0 0) (dmaFenced 0x78)) (dmaFenced 0x78) = true ∧ (dmaFenced 0x79).veReady 0 0x79 (word 0x79 0) ∧
    gives (exec (.dmaput 0 0) (dmaFenced 0x79)) (dmaFenced 0x79) = true ∧ (dmaAt 0x78 0 4 [] []).fencedCore 0 = false := by and_intros <;> decide +kernel
theorem wit_VeTransfers : live.coreOn 0 = true ∧ ((dmaAt 0 0 0 [xfer true false] []).ve 0).dma = [xfer true false] ∧
    ((after (exec (.dmaTransferComplete 0) ((dmaAt 0 0 0 [xfer true false] []).poke 0x100 [1, 2]))).bytes hbm0 2 = [1, 2]) ∧
    ((after (exec (.dmaTransferComplete 0) ((dmaAt 0 0 0 [xfer false false] []).poke hbm0 [1, 2]))).bytes 0x100 2 = [1, 2]) ∧
    ((after (exec (.dmaTransferComplete 0) (dmaAt 0 0 0 [xfer false true] []))).free = 8) ∧
    ((live.dmaEnd 0 (xfer true false) .ue).ve 0).dmaErrs = [true] ∧
    (((dmaAt 0 0 0 [xfer true false] [false]).dmaEnd 0 (xfer true false) .ue).ve 0).dmaErrs = [false, true] ∧ (live.dmaEnd 0 (xfer true false) .ue).rd 0x200028 = 16 := by
  decide +kernel

/-- A VE program as R177 lays it out: its header over the instructions, with n parameters; shares of it at 0x1000. -/
def veImage (n : Nat) (insns : List Byte) : List Byte :=
  [0x52, 0x50, 0x45, 0x56] ++ leBytes 2 1 ++ leBytes 2 (insns.length / 8) ++ leBytes 1 n ++ [0, 0, 0] ++ leBytes 4 (crc32 insns) ++
    List.replicate 16 0 ++ insns
def haltWord : List Byte := leBytes 8 (2 ^ 56)
def veShare (prog param : Nat) : VeShare := ⟨.desc 0 0, prog, param, 0, 1, false⟩
def starting (prog param : Nat) (image : List Byte) : State :=
  (live.setVe 0 { VeState.init with run := some (veShare prog param) }).poke 0x1000 image
theorem wit_CoreShares_start : live.coreOn 0 = true ∧ live.fencedCore 0 = false ∧ ((starting 0x1000 0 []).ve 0).started = false ∧ 0x1004 % 8 ≠ 0 ∧
    ((after (exec (.veShareStart 0) (starting 0x1004 0 []))).ve 0).err = some false ∧
    ((starting 0x1000 0 []).gRead (2 ^ 62) 32).1 ≠ .ok ∧
    ((after (exec (.veShareStart 0) (starting (2 ^ 62) 0 []))).ve 0).ended = true ∧
    veHeaderOk (List.replicate 32 0) = false ∧ ((after (exec (.veShareStart 0) (starting 0x1000 0 []))).ve 0).ended = true ∧
    veHeaderOk ((veImage 0 haltWord).take 32) = true ∧
    ((after (exec (.veShareStart 0) (starting 0x1000 0 (veImage 0 haltWord)))).ve 0).insns = [0x0100000000000000] ∧
    ((after (exec (.veShareStart 0) (starting 0x1000 0 ((veImage 0 haltWord).take 39 ++ [2])))).ve 0).ended = true ∧
    ((after (exec (.veShareStart 0) (starting 0x1000 0x1001 (veImage 2 haltWord)))).ve 0).ended = true ∧
    ((after (exec (.veShareStart 0) (starting 0x1000 0x1020 (veImage 2 haltWord)))).ve 0).xr 0 = 0x0100000000000000 := by and_intros <;> decide +kernel
def endedShare (err : Option Bool) (errs : List Bool) (noted : Bool) : State :=
  live.setVe 0 { VeState.init with run := some (veShare 0 0), started := true, ended := true, err := err, dmaErrs := errs, noted := noted, pend := some (veShare 8 0) }
theorem wit_CoreShares_end : ((endedShare none [] false).ve 0).dma = [] ∧
    ((after (exec (.veShareComplete 0) (endedShare none [] false))).ve 0).run = some (veShare 8 0) ∧
    ((after (exec (.veShareComplete 0) (endedShare (some true) [true] true))).erec.queue) = [] ∧
    ((after (exec (.veShareComplete 0) (endedShare (some true) [] false))).erec.queue.map (·.code)) = [0x0503] ∧
    ((endedShare (some false) [false, true] true).ve 0).dmaErrs = [false, true] ∧
    ((after (exec (.veShareComplete 0) (endedShare none [true, false] true))).ve 0).dmaErrs = [] := by and_intros <;> decide +kernel
/-- The limit of R205 is 1024 instructions, and they have retired. -/
def limited (w : Nat) : State :=
  let s := (veAt w [] []).wr (coreBase 0 + 0x118) 1
  s.setVe 0 { s.ve 0 with retired := 1024 }
theorem wit_CoreShares_limits : (limited 0).veInsn 0 = some 0 ∧ (limited 0).veLimit 0 = true ∧
    (after (exec (.veInsnLimitExpiry 0) (limited 0))).rd (coreBase 0 + 0x114) = 2 ^ 31 ∧
    (veAt (0xFF * 2 ^ 56) [] []).veInsn 0 = some (0xFF * 2 ^ 56) ∧ (veAt (0xFF * 2 ^ 56) [] []).veLimit 0 = false ∧
    veForm (vOp (0xFF * 2 ^ 56)) = none ∧
    ((after (exec (.illegalOpcode 0) (veAt (0xFF * 2 ^ 56) [] []))).ve 0).err = some false := by and_intros <;> decide +kernel
/-- A wait for the queue of one element time more than 32768 × 1,024. -/
def popWait : State :=
  let s := veAt (popt 0) [] []
  s.setVe 0 { s.ve 0 with wait := .popt }
/-- The same once the entry has become READY. -/
def popReady : State := popWait.setMe 0 ((popWait.me 0).setEntry 0 ready)
def pushWait : State := live.setMe 0 { live.me 0 |>.setEntry 0 ready with wait := .full, run := some ⟨.desc 0 0, 0x2000, 1, false, 0, false, none⟩ }
theorem wit_CoreShares_watchdog : popWait.rdf (coreBase 0 + 0x18) 0 24 = 32768 ∧ (popWait.ve 0).wait = .popt ∧
    (popWait.veInsn 0).isSome = true ∧ ((after (exec (.meWatchdogExpiry 0 true 33554433) popWait)).ve 0).ended = true ∧
    gives (exec (.meWatchdogExpiry 0 true 33554432) popWait) popWait = true ∧
    ((popWait.me 0).entry (popWait.me 0).head).state ≠ 3 ∧ ((popReady.me 0).entry (popReady.me 0).head).state = 3 ∧
    (popReady.ve 0).wait = .popt ∧ gives (exec (.meWatchdogExpiry 0 true 33554433) popReady) popReady = true ∧
    (live.me 0).wait ≠ .full ∧ gives (exec (.meWatchdogExpiry 0 false 33554433) live) live = true ∧ (pushWait.me 0).wait = .full ∧ ((pushWait.me 0).entry (pushWait.me 0).tail).state ≠ 0 ∧
    (after (exec (.meWatchdogExpiry 0 false 33554433) pushWait)).rd (coreBase 0 + 0x38) = 33554433 := by and_intros <;> decide +kernel
/-- An MMA descriptor of one block of K with flags, FMT_SRC and OUT_MODE as given, its tag 9. -/
def mmaTd (flags src : Nat) : List Byte :=
  [1, BitVec.ofNat 8 flags, BitVec.ofNat 8 src, 0, 0, 0, 0, 0, 1, 0, 9, 0, 0, 0, 0, 0] ++ leBytes 4 0 ++ leBytes 4 32 ++ leBytes 4 0 ++ leBytes 4 32 ++
    leBytes 4 0xFFFFFFFF ++ leBytes 4 0xFFFFFFFF ++ List.replicate 24 0
def meAt (inChain : Bool) (td : List Byte) : State :=
  (live.setMe 0 { MeState.init with run := some ⟨.desc 0 0, 0x2000, 2, false, 0, inChain, none⟩ }).poke 0x2000 td
def chained (flags : Nat) : State :=
  let s := after (exec (.mma 0 0) (meAt false (mmaTd 0 0)))
  s.poke 0x2040 (mmaTd flags 0)
/-- A chain of core 0 at a stage, with the entries tds read. -/
def chainAt (stage : ChainStage) (tds : List (List Byte)) : MeChain :=
  { id := 0, src := .desc 0 0, countFlags := false, tds := tds, fmt := live.rd (coreBase 0 + 0x10), fwd := 0, bwd := 0, outMode := false,
    weightGrad := false, tickets := [], unconfirmed := [], set := false, entry := some 0, stage := stage, rerun := false, again := false,
    late := [], replaced := false, traced := false, pos := 0, grp := 0, acc := [], rflags := 0, out := [3, 4], ovf := 0, inv := 0, loud := false }
/-- The queue is full; and the next accumulator set holds an OUT_MODE chain. -/
def meFull : State :=
  let s := meAt false (mmaTd 0 0)
  s.setMe 0 ((s.me 0).setEntry 0 ready)
def meHeld : State :=
  let s := meAt false (mmaTd 0 0)
  s.setMe 0 { s.me 0 with chains := [{ chainAt .held [mmaTd 2 0] with outMode := true, entry := none }] }
theorem wit_MatrixChains_entries : live.coreOn 0 = true ∧ live.fencedTile 0 = false ∧ ((meAt false (List.replicate 64 0)).gRead 0x2000 64).1 = .ok ∧
    tdOp (List.replicate 64 0) = 0 ∧ tdReserved (List.replicate 64 0) = true ∧
    ((after (exec (.tileNop 0) (meAt false (List.replicate 64 0)))).me 0).run.map (·.pos) = some 1 ∧
    live.tdOk (mmaTd 0 0) (tdFw (live.rd (coreBase 0 + 0x10)) (live.rd (coreBase 0 + 0x14)) (mmaTd 0 0)) = true ∧
    tdFlag (mmaTd 0 0) 0 = false ∧ ((meAt false (mmaTd 0 0)).me 0).setHeld ((meAt false (mmaTd 0 0)).me 0).nextSet = false ∧
    ((meAt false (mmaTd 0 0)).me 0).chains = [] ∧ (meFull.me 0).wait = .none ∧
    ((after (exec (.mma 0 0) meFull)).me 0).wait = .full ∧ (meHeld.me 0).setHeld (meHeld.me 0).nextSet = true ∧
    ((after (exec (.mma 0 0) meHeld)).me 0).wait = .held ∧
    ((after (exec (.mma 0 0) (meAt false (mmaTd 0 0)))).me 0).chains.map (·.stage) = [.fetching] ∧
    ((after (exec (.mma 0 0) (meAt false (mmaTd 2 0)))).me 0).chains.map (·.stage) = [.reducing] ∧
    (((chained 3).me 0).run.map (·.inChain)) = some true ∧ ((chained 3).me 0).open?.isSome = true ∧
    ((after (exec (.mma 0 0) (chained 3))).me 0).chains.map (fun c => (c.stage, c.tds.length)) = [(.reducing, 2)] ∧
    live.tdOk ((mmaTd 0 0).set 8 0) (live.rd (coreBase 0 + 0x10)) = false ∧ tdFlag (mmaTd 1 0) 0 = true ∧
    ((after (exec (.mma 0 0) (meAt false ((mmaTd 0 0).set 8 0)))).me 0).run.map (·.err) ≠ some none ∧
    ((after (exec (.mma 0 0) (meAt false (mmaTd 1 0)))).me 0).run.map (·.err) ≠ some none := by and_intros <;> decide +kernel
def chainState (stage : ChainStage) (tds : List (List Byte)) : State :=
  live.setMe 0 { MeState.init with chains := [chainAt stage tds], nextId := 1, entries := [(0, ⟨1, [], 0, 0, some (.desc 0 0), 0⟩)], tail := 1 }
def isOk {ε α β : Type} (x : Except ε α × β) : Bool := match x.1 with | .ok _ => true | .error _ => false
/-- One block of K is one group of 32: the descriptor's first group is its last. -/
def onTd : MeChain := chainAt .reducing [mmaTd 2 0]
def red0 : Red := ⟨List.replicate 1024 elemZero, 0, 0⟩
theorem wit_MatrixChains_groups : onTd.tds.drop onTd.pos = [mmaTd 2 0] ∧ tdGroups onTd.fmt (mmaTd 2 0) = 1 ∧ onTd.acc = [] ∧ tdGroups onTd.fmt ((mmaTd 2 0).set 8 2) = 2 ∧
    isOk (live.redGroup 0 onTd.fmt (mmaTd 2 0) (live.chainPath onTd) (fwGroup onTd.fmt / 32) 1 0 red0) = true ∧
    (chainState .reducing [mmaTd 2 0]).fencedTile 0 = false ∧
    ((chainState .reducing [mmaTd 2 0]).me 0).reducing? = some onTd ∧ onTd.stage = .reducing ∧ onTd.left = 1 ∧
    isOk (((chainState .reducing [mmaTd 2 0]).bump (coreBase 0 + 0x48) 5).redRun 0 onTd.left onTd) = true ∧
    isOk ((((chainState .reducing [mmaTd 2 0]).markUe 0).bump (coreBase 0 + 0x48) 5).redRun 0 onTd.left onTd) = false := by and_intros <;> decide +kernel
theorem wit_MatrixChains_ends :
    ((after (exec (.chainReductionEnd 0 5) (chainState .reducing []))).rd (coreBase 0 + 0x48) = 5) ∧
    ((chainState .converting []).me 0).chains.find? (·.stage = .converting) = some (chainAt .converting []) ∧
    (chainState .converting []).fencedCore 0 = false ∧ isOk ((chainState .converting []).lineScales 0 false 0) = true ∧
    ((after (exec (.chainConversionEnd 0 5) (chainState .converting []))).rd (coreBase 0 + 0xA8) = 0) ∧
    (((live.chainFinal 0 (chainAt .held [mmaTd 2 0])).me 0).entry 0 =
      { QEntry.free with state := 3, codes := [3, 4], tag := 9, fmt := fld (chainAt .held []).fmt 16 5 }) := by and_intros <;> decide +kernel
/-- The Quantizer of tile 0 owes a notice of ticket 5. -/
def noticed (replay : Bool) : State := live.setQzt 0 { QzState.init with notices := [(5, replay)] }
theorem wit_MatrixChains_notices : live.fabOn 0 = true ∧ ((noticed false).qzt 0).notices.contains (5, false) = true ∧
    ((noticed true).qzt 0).notices.contains (5, true) = true ∧ (noticed true).cores = [] ∧ (∀ c ∈ (noticed true).coresOf 0, (noticed true).fencedCore c = false) ∧
    smGet 0 ((after (exec (.confirm 0 5) (noticed false))).qzt 0).tickets 5 = 2 ∧
    smGet 0 ((after (exec (.replay 0 5) (noticed true))).qzt 0).tickets 5 = 3 := by and_intros <;> decide +kernel
/-! ## Power and service ports -/

def poweredOff (pwrEn : Bool) : State := { live with pwr := { live.pwr with phase := .off, pwrEn := pwrEn } }
def charging : State := { live with pwr := { live.pwr with phase := .charging } }
def noInput : State := { live with pwr := { live.pwr with standby := false, phase := .off, pwrEn := false } }
def updatingB : State := { charging with boot := { charging.boot with update := some ([0, 0, 0, 0, 0, 0, 2, 0], true, false) } }
theorem wit_PowerAndPins_update : updatingB.boot.update = some ([0, 0, 0, 0, 0, 0, 2, 0], true, false) ∧ charging.boot.update = none ∧
    updatingB.powerOn.flash.images.map (·.1) = [5] := by and_intros <;> decide +kernel
theorem wit_PowerAndPins_on : charging.pwr.phase = .charging ∧ gives (exec .pwrGoodRelease charging) charging.powerOn = true ∧
    (∀ e ∈ charging.repair.overlay, e.1 < 128) ∧ noInput.pwr.standby = false ∧
    (after (exec (.inputPowerApplied 7) noInput)).pwr.smbAddr = 7 ∧ (after (exec .inputPowerLost live)).pwr.phase = .off ∧
    (poweredOff false).pwr.standby = true ∧ (poweredOff false).pwr.pwrEn = false ∧ (poweredOff false).pwr.phase = .off ∧
    (after (exec (.pwrEnRise 100000000 true) (poweredOff false))).pwr.phase = .charging ∧
    (after (exec (.pwrEnRise 99999999 true) (poweredOff false))).pwr.phase = .off ∧ live.pwr.pwrEn = true ∧
    ({ noInput with pwr := { noInput.pwr with pwrEn := true } } : State).pwr.standby = false ∧
    (after (exec .pwrEnFall { noInput with pwr := { noInput.pwr with pwrEn := true } })).pwr.offCause = 0 ∧
    (after (exec .pwrEnFall live)).pwr.offCause = 1 ∧ (after (exec .emergOffExternal live)).pwr.offCause = 2 ∧
    (after (exec .emergOffExternal (poweredOff true))).pwr.emergExt = true ∧
    (after (exec .emergOffRelease (after (exec .emergOffExternal live)))).pwr.emergExt = false ∧
    (after (exec .inputOutOfRange live)).pwr.alertSource = 1 ∧
    (after (exec .inputReturnsToRange live)).pwr.inputOut = false := by and_intros <;> decide +kernel
theorem wit_PowerAndPins_trips : live.pwr.standby = true ∧ live.pwr.phase ≠ .off ∧
    (after (exec .inputOvervoltage live)).pwr.offCause = 16 ∧ (after (exec .inputUndervoltage live)).pwr.offCause = 8 ∧
    (after (exec .thermalTrip live)).pwr.offCause = 4 ∧ (after (exec (.railFault 15) live)).pwr.offCause = 0xF20 ∧
    (after (exec .thermalTrip (after (exec .emergOffExternal live)))).pwr.offCause = 6 ∧
    (after (exec .thermalTrip (after (exec .emergOffExternal live)))).pwr.emergTrip = true ∧
    gives (exec .thermalTrip { after (exec .emergOffExternal live) with wall := live.wall + 50001 })
      { after (exec .emergOffExternal live) with wall := live.wall + 50001 } = true ∧
    (after (exec .thermalTrip { after (exec .emergOffExternal live) with wall := live.wall + 50000 })).pwr.offCause = 6 ∧
    (after (exec (.railFault 15) live)).pwr.emergTrip = true ∧ live.hubOn = true ∧ (after (exec (.railWarn 1) live)).rd 0x410C = 4 ∧
    (after (exec (.pwrOffCauseClear 0x20) { live with pwr := { live.pwr with offCause := 0xF21 } })).pwr.offCause = 1 ∧
    (after (exec (.pwrOffCauseClear 1) { live with pwr := { live.pwr with offCause := 0xF21 } })).pwr.offCause = 0xF20 := by and_intros <;> decide +kernel
def alerting : State := { live with pwr := { live.pwr with alertSource := 3, inputOut := true } }
def scanning : State := { live with pwr := { live.pwr with bscan := true } }
theorem wit_ServicePorts_smb : live.pwr.standby = true ∧ live.pwr.phase = .on ∧ (poweredOff true).pwr.phase ≠ .on ∧
    (after (exec .smbStatus live)).out.length = 1 ∧ gives (exec (.smbAlertClear ⟨11, 0⟩ none) live) (live.emit .smbNack) = true ∧ gives (exec (.smbAlertClear ⟨10, 0⟩ none) live) live = true ∧ (after (exec .smbHottest (poweredOff true))).out.length = 1 ∧
    alerting.alertBits ≠ 0 ∧ (after (exec .smbAlertResponse alerting)).out.length = 1 ∧
    (after (exec (.smbAlertClear ⟨9, 3⟩ none) alerting)).pwr.alertSource = 1 ∧
    (after (exec (.smbAlertClear ⟨9, 3⟩ (some (pec ([0x70, 9] ++ leBytes 2 3)))) alerting)).pwr.alertSource = 1 ∧
    (1 : Byte) ≠ pec ([BitVec.ofNat 8 (2 * (0x38 + alerting.pwr.smbAddr)), 9] ++ leBytes 2 3) ∧
    gives (exec (.smbAlertClear ⟨9, 3⟩ (some 1)) alerting) (alerting.emit .smbNack) = true := by and_intros <;> decide +kernel
theorem wit_ServicePorts_scan : (after (exec (.scanIdcode 4) live)).out = [.scan 4 [0xD3, 0xE0, 0x51, 0x1D]] ∧
    (after (exec (.scanSample 1 [1, 2, 3]) live)).free = 3 ∧ scanning.pwr.bscan = true ∧
    gives (exec (.scanExtest 2) scanning) (scanning.setScan 2 .extest) = true ∧ live.pwr.bscan = false ∧
    gives (exec (.scanHighz 2) live) (live.setScan 2 .bypass) = true := by and_intros <;> decide +kernel
/-! ## Commands of the Halaz Command Protocol -/

def via0 : Via := .udp 0 zeros16 9
/-- A command at the head of the queue, in clear, and the state with it taken out. -/
def entryOf (op : Nat) (b inl : List Byte) : HcpEntry := ⟨via0, op, 1, 0, b, inl, 0, false⟩
def withCmd (s : State) (op : Nat) (b inl : List Byte) : State := s.setHcp fun h => { h with queue := [entryOf op b inl] }
/-- What the module answered last: its status, and its data. -/
def status (s : State) : Nat :=
  match s.out.getLast? with
  | some (.udp _ _ _ _ b _) => leAt b 12 2
  | _ => 0xFFFF
def answered (s : State) (n : Nat) : List Byte :=
  match s.out.getLast? with
  | some (.udp _ _ _ _ b _) => slice b 32 n
  | _ => []
def run (i : Instr) (s : State) (op : Nat) (b inl : List Byte) : State := after (exec i (withCmd s op b inl))
def stat (i : Instr) (s : State) (op : Nat) (b inl : List Byte) : Nat := status (run i s op b inl)
def z (n : Nat) : List Byte := List.replicate n 0

/-- Every opcode of the protocol is due somewhere. -/
theorem wit_cmdDue : ∀ op ∈ [0x0001, 0x0002, 0x0003, 0x0004, 0x0101, 0x0102, 0x0103, 0x0201, 0x0202, 0x0203, 0x0204, 0x0205, 0x0301,
    0x0302, 0x0303, 0x0304, 0x0305, 0x0401, 0x0402, 0x0403, 0x0404, 0x0405, 0x0501, 0x0502, 0x0503, 0x0504, 0x0505, 0x0601, 0x0602,
    0x0603, 0x0604, 0x0605, 0x0701, 0x0702, 0x0703, 0x0704, 0x0801, 0x0802, 0x0803, 0x0804, 0x0901, 0x0902, 0x0903, 0x0904, 0x0A01,
    0x0A02], (withCmd liveReeve op [1] [2]).cmdDue op (entryOf op [1] [2]) liveReeve := by decide +kernel

/-- A session, and a module that has it open and whose Ethernet ports are up. -/
def sess : Session := ⟨5, 7, z 128, 3, 0, 10, [9], 0, 0⟩
def net : State := { liveReeve with boot := { liveReeve.boot with eth := [(0, 1), (1, 1), (2, 1)] }
                                    hcp := { liveReeve.hcp with sessions := [(0, sess)] } }
/-- A packet with an opcode, a session, a SEQUENCE and a payload. -/
def packet (op id seq : Nat) (payload : List Byte) : List Byte :=
  [1, 0] ++ leBytes 2 op ++ leBytes 4 1 ++ leBytes 4 id ++ z 4 ++ leBytes 8 seq ++ leBytes 4 payload.length ++ z 4 ++ payload ++ z 16
def send (s : State) (p : List Byte) : State := after (exec (.hcpPacket via0 none p 50410) s)
/-- A packet of session 5, and its 32 bytes of header, with its payload sealedPkt under the session's K_CMD (R472). -/
def head (op seq n : Nat) : List Byte := (packet op 5 seq (z n)).take 32
def sealedPkt (op seq n : Nat) : List Byte := head op seq n ++ gcmSeal (sess.key 0) (sessNonce 0 seq) (head op seq n) (z n)
theorem wit_Packets_seals : net.ethUp 0 = true ∧ bit (net.rd 0xA000) 8 = true ∧ (send net (z 47)).rd 0xA018 = 1 ∧
    (packet 4 0 1 []).length = 48 ∧ (send net (packet 4 0 1 [])).rd 0xA018 = 1 ∧
    zeroAt ((packet 1 0 1 []).set 47 1) ((packet 1 0 1 []).length - 16) 16 = false ∧
    status (send net ((packet 1 0 1 []).set 47 1)) = stAuthFail ∧
    (send net (packet 1 0 1 [])).hcp.queue.map (·.opcode) = [1] ∧
    net.session? 6 = none ∧ (send net (packet 4 6 1 [])).rd 0xA018 = 1 ∧ net.session? 5 = some (0, sess) ∧
    (sealedPkt 4 4 0).length = 48 ∧ leAt (sealedPkt 4 4 0) 8 4 = 5 ∧ leAt (sealedPkt 4 4 0) 16 8 > sess.cmdSeq ∧
    leAt (sealedPkt 4 3 0) 16 8 ≤ sess.cmdSeq ∧ sess.repSeq < 2 ^ 64 - 1 := by and_intros <;> decide +kernel
/-- What is sealed opens, to the packet that R474 goes on to check; a packet whose seal is cut off does not open. -/
theorem wit_Packets_opens : gcmOpen (sess.key 0) (sessNonce 0 4) ((sealedPkt 4 4 0).take 32) ((sealedPkt 4 4 0).drop 32) = some [] ∧
    (net.checkPacket via0 (packet 4 5 4 [])).hcp.queue.map (·.opcode) = [4] ∧
    gcmOpen (sess.key 0) (sessNonce 0 4) (head 4 4 0) [] = none := by
  refine ⟨?_, by decide +kernel, ?_⟩
  · have h : (sealedPkt 4 4 0).take 32 = head 4 4 0 := by
      rw [sealedPkt, List.take_append_of_le_length (by decide), List.take_of_length_le (by decide)]
    have h2 : (sealedPkt 4 4 0).drop 32 = gcmSeal (sess.key 0) (sessNonce 0 4) (head 4 4 0) (z 0) := by
      rw [sealedPkt, List.drop_append_of_le_length (by decide), List.drop_of_length_le (by decide), List.nil_append]
    rw [h, h2, gcmOpen_gcmSeal]; rfl
  · simp [gcmOpen, gcmTag]
def full : State := net.setHcp fun h => { h with queue := List.replicate 240 (entryOf 1 [] []) }
theorem wit_Packets_checks : status (net.checkPacket via0 ((packet 1 0 1 []).set 0 2)) = stBadParam ∧
    commandShape 0x0B00 [] 0 = none ∧ status (net.checkPacket via0 (packet 0x0B00 0 1 [])) = stBadOpcode ∧
    commandShape 1 [0] 0 = some (false, 0, 0) ∧ status (net.checkPacket via0 (packet 1 0 1 [0])) = stBadLength ∧
    full.freeEntry 1 = none ∧ status (full.checkPacket via0 (packet 1 0 1 [])) = stQueueFull ∧
    full.freeEntry 0x0304 = some true ∧ net.freeEntry 1 = some false ∧
    (net.checkPacket via0 (packet 1 0 1 [])).hcp.queue.length = 1 := by and_intros <;> decide +kernel
def half : State := after (exec (.hcpPacket (.udp 2 zeros16 9) (some ⟨1, 0, true⟩) ((packet 1 0 1 []).take 24) 50410) net)
def torusMsg : State := { net with inbox := [⟨4, 1, 8, packet 1 0 1 []⟩] }
theorem wit_Packets_ways : (50411 : BitVec 16) ≠ 50410 ∧ gives (exec (.hcpPacket via0 none [1] 50411) net) net = true ∧ half.hcp.frags.length = 1 ∧
    (after (exec (.hcpPacket (.udp 2 zeros16 9) (some ⟨1, 24, false⟩) ((packet 1 0 1 []).drop 24) 50410) half)).hcp.queue.length = 1 ∧
    (after (exec (.fragmentTimeout zeros16 9 1) half)).hcp.frags = [] ∧
    (after (exec (.hcpPacket (.torus 4 8) none (packet 1 0 1 []) 0) torusMsg)).hcp.queue.length = 1 ∧
    (after (exec (.hcpPacket (.torus 4 8) none (packet 1 0 1 []) 0) torusMsg)).inbox = [] ∧
    bit (net.rd 0xA000) 9 = true ∧ (after (exec (.relay 0 zeros16 9 (leBytes 4 3 ++ z 4 ++ [1])) net)).hcp.relays.length = 1 := by and_intros <;> decide +kernel
/-- The way back of a relay is kept by a PENDING reply and goes with the last one. -/
def relayed : State := net.setHcp fun h => { h with relays := [⟨8, 0, zeros16, 9⟩] }
def reply (flags st : Nat) : InMsg := ⟨3, 1, 8, (replyHeader flags 1 1 0 st 0 0 0)⟩
theorem wit_Packets_relays : relayed.hcp.relays.find? (·.tag = 8) = some ⟨8, 0, zeros16, 9⟩ ∧
    (relayed.relayReply (reply 1 stPending)).hcp.relays.length = 1 ∧ (relayed.relayReply (reply 3 stOk)).hcp.relays = [] ∧
    (relayed.relayReply (reply 1 stOk)).hcp.relays = [] := by and_intros <;> decide +kernel
/-- The link-local address of every port; a module that has had an advertisement has an address in its prefix too. -/
def ownLink (s : State) : List Byte := [0xFE, 0x80, 0, 0, 0, 0, 0, 0] ++ s.ifaceId
def advertised : State := after (exec (.neighbourDiscovery 0 (.advert zeros16 (z 8))) net)
theorem wit_Packets_addresses : net.ownAddr 1 (ownLink net) = true ∧ net.ownAddr 0 [] = false ∧
    advertised.ownAddr 0 (z 8 ++ net.ifaceId) = true := by
  refine ⟨by simp [State.ownAddr, State.ethPrefixes, ownLink], by decide +kernel, ?_⟩
  simp only [State.ownAddr, List.any_eq_true, decide_eq_true_eq]
  exact ⟨z 8, by decide +kernel, rfl⟩

def pendingHalt : State := net.setHcp fun h => { h with pend := some ⟨entryOf 0x0103 [] [], some (stOk, [8])⟩ }
theorem wit_Answers : (entryOf 1 [] []).session = 0 ∧ ((net.finish { entryOf 1 [] [] with session := 5 } false stOk []).session? 5).map
      (fun e => e.2.repSeq) = some 1 ∧ net.session? 6 = none ∧
    gives (.next (net.finish { entryOf 1 [] [] with session := 6 } false stOk [])) (net.served 0) = true ∧
    status (net.answer (entryOf 1 [] []) false (stOk, [], net)) = stOk ∧ status (net.answer (entryOf 1 [] []) true (stOk, [], net)) = stPending ∧
    pendingHalt.hcp.pend.isSome = true ∧ status (pendingHalt.answer (entryOf 1 [] []) true (stOk, [], net)) = stBusy ∧
    (pendingHalt.pendingResult ⟨entryOf 0x0103 [] [], some (stOk, [8])⟩ []).isSome = true ∧
    answered (after (exec (.pendingCommandComplete []) pendingHalt)) 1 = [8] ∧
    stat (.hello false) net 1 [] [] = stOk ∧ (answered (run (.hello false) net 1 [] []) 8 = [0x5A, 0x54, 0x58, 0x34, 0x2D, 0x53, 0x48, 0x4E]) ∧
    stat (.getInfo false) net 0x0103 (z 8) [] = stOk ∧ stat (.getInfo false) net 0x0103 (leBytes 2 5 ++ z 6) [] = stOk ∧
    stat (.getInfo false) net 0x0103 (leBytes 2 6 ++ z 6) [] = stBadParam := by and_intros <;> decide +kernel
/-! ### Sessions, registers and memory -/

/-- An OPEN_SESSION block of a mode; the generation it signs is gen. -/
def openBlock (mode gen : Nat) : List Byte := leBytes 1 mode ++ z 159 ++ leBytes 8 0x77 ++ leBytes 4 gen ++ z 428
def owned : State := { net with flash := { net.flash with owner := some (z 57, 3) } }
def crowd (at0 : Nat) : State := { owned.wr kTime 60000000000 with hcp := { owned.hcp with
  sessions := (List.range 16).map fun i => (i, { sess with id := i + 1, lastAt := at0 + i }) } }
theorem wit_Sessions : owned.openBad (openBlock 0 3) = false ∧ owned.openBad (openBlock 1 1) = true ∧ net.openBad (openBlock 1 1) = false ∧
    owned.openBad (openBlock 2 4) = false ∧ owned.openBad (openBlock 3 0) = false ∧ owned.openBad (openBlock 4 0) = true ∧
    stat (.openSession true true false true false false) owned 3 (openBlock 0 3) [] = stOk ∧
    stat (.openSession true true false true false false) owned 3 (openBlock 0 2) [] = stAuthFail ∧
    stat (.openSession true true false true false false) (crowd 1) 3 (openBlock 0 3) [] = stLimit ∧
    stat (.openSession true true false true false false) (crowd 0) 3 (openBlock 0 3) [] = stOk ∧
    stat (.openSession true true false true false false) (owned.wr 0xC000 16) 3 (openBlock 0 3) [] = stInternal ∧
    stat (.claimSession true true false true true false) net 3 (openBlock 1 1) [] = stOk ∧
    (run (.claimSession true true false true true false) net 3 (openBlock 1 1) []).flash.owner = some (z 57, 1) ∧
    stat (.transferSession true true false true true false) owned 3 (openBlock 2 4) [] = stAuthFail ∧
    (run (.transferSession true true true true true false) owned 3 (openBlock 2 4) []).flash.owner = some (z 57, 4) ∧
    (run (.releaseSession true true true true true false) owned 3 (openBlock 3 0) []).flash.owner = none ∧
    (run .closeSession (net.setHcp fun h => h) 4 [] []).hcp.sessions.length = 1 ∧ (net.endSession 5).session? 5 = none := by and_intros <;> decide +kernel
/-- A transfer of core 5 is outstanding. -/
def moving : State := net.setVe 5 { VeState.init with dma := [xfer true false] }
theorem wit_Accesses : csrBlockBad (leBytes 8 (csrBase + 0x2008) ++ [8] ++ z 7) = false ∧
    stat (.readCsr false) net 0x0101 (leBytes 8 (csrBase + 0x2000) ++ [4] ++ z 7) [] = stOk ∧
    answered (run (.readCsr false) net 0x0101 (leBytes 8 (csrBase + 0x2000) ++ [4] ++ z 7) []) 2 = [0, 0x10] ∧
    (net.csrRead 0x2002 4).1 ≠ .ok ∧ stat (.readCsr false) net 0x0101 (leBytes 8 (csrBase + 0x2002) ++ [4] ++ z 7) [] ≠ stOk ∧
    stat (.writeCsr false) net 0x0102 (leBytes 8 (csrBase + coreBase 0 + 0x18) ++ [4] ++ z 7 ++ leBytes 8 9) [] = stOk ∧
    (run (.writeCsr false) net 0x0102 (leBytes 8 (csrBase + coreBase 0 + 0x18) ++ [4] ++ z 7 ++ leBytes 8 9) []).rd (coreBase 0 + 0x18) = 9 ∧
    answered (run (.readMem false) (net.poke hbm0 [6]) 0x0201 (leBytes 8 hbm0 ++ leBytes 4 1 ++ z 4) []) 1 = [6] ∧
    stat (.readMem false) net 0x0201 (leBytes 8 hbm0 ++ leBytes 4 4096 ++ z 4) [] = stOk ∧
    (run (.writeMem false) net 0x0202 (leBytes 8 hbm0) [1, 2]).bytes hbm0 2 = [1, 2] ∧
    (run (.copyMem false) (net.poke hbm0 [1, 2, 3, 4]) 0x0203 (leBytes 8 hbm0 ++ leBytes 8 (hbm0 + 2 ^ 20) ++ leBytes 8 4) []).bytes (hbm0 + 2 ^ 20) 4 = [1, 2, 3, 4] ∧
    scopeBad ([2, 0] ++ leBytes 2 1199 ++ z 4) = false ∧ net.accessBusy 2 1199 = false ∧
    stat (.flush false) net 0x0204 ([2, 0] ++ leBytes 2 1199 ++ z 4) [] = stOk ∧ moving.accessBusy 2 5 = true ∧
    stat (.flush false) moving 0x0204 ([2, 0] ++ leBytes 2 5 ++ z 4) [] = stPending ∧ moving.accessBusy 2 4 = false ∧
    stat (.fence false) moving 0x0205 ([2, 0] ++ leBytes 2 4 ++ z 4) [] = stOk ∧
    stat (.fence false) moving 0x0205 (z 8) [] = stPending := by and_intros <;> decide +kernel
/-! ### Step programs -/

/-- A descriptor of a kind with its sync byte, wait value and arguments. -/
def desc (kind flags sync wait : Nat) (args : List Byte) : List Byte :=
  [BitVec.ofNat 8 kind, BitVec.ofNat 8 flags, BitVec.ofNat 8 sync, 0] ++ leBytes 2 wait ++ [0, 0] ++ args ++ z (24 - args.length)
/-- A step program of a given descriptor, FLAG_REDUCE and END_STEP, as R44 lays it out, of generation 0. -/
def progOf (first : List Byte) : List Byte :=
  let body := first ++ desc 14 0 0x20 0 [] ++ desc 15 0 0x30 0 []
  leBytes 4 0x53455153 ++ leBytes 2 1 ++ z 2 ++ leBytes 4 3 ++ leBytes 4 1 ++ leBytes 4 1 ++ leBytes 4 2 ++ z 8 ++ leBytes 4 (crc32 body) ++ z 28 ++ body
def nopProg : List Byte := progOf (desc 0 0 0x10 0 [])
/-- The program lies in HBM; and it is loaded in slot 0 of every tile. -/
def withProg : State := net.poke hbm0 nopProg
def loaded (p : List Byte) : State := net.eachTile fun s t => s.setTile t { s.tile t with slot0 := some p }
def loadBlock (mask : Nat) : List Byte := [0, BitVec.ofNat 8 mask] ++ z 6 ++ leBytes 8 hbm0 ++ leBytes 4 160 ++ z 4
def withMode (s : State) (m : SeqMode) (order : Nat) : State := { s with seq := { s.seq with mode := m, fenceOrder := order } }
theorem wit_StepCommands_load : net.running fabDomains ∧ progOk nopProg = true ∧ (withProg.gRead hbm0 160).2.1 = nopProg ∧
    stat (.loadProgram false) withProg 0x0301 (loadBlock 15) [] = stOk ∧
    ((run (.loadProgram false) withProg 0x0301 (loadBlock 5) []).tile 2).slot0 = some nopProg ∧
    ((run (.loadProgram false) withProg 0x0301 (loadBlock 5) []).tile 1).slot0 = none ∧
    progOk (z 160) = false ∧ stat (.loadProgram false) net 0x0301 (loadBlock 15) [] = stBadParam := by and_intros <;> decide +kernel
theorem wit_StepCommands_run : bit (((loaded nopProg).wr kGrnCtrl 16).rd kGrnCtrl) 4 = true ∧
    ((loaded nopProg).wr kGrnCtrl 16).runRefusal false 0 0 = stOk ∧
    stat (.runSteps false) ((loaded nopProg).wr kGrnCtrl 16) 0x0302 (z 24) [] = stOk ∧
    (run (.runSteps false) ((loaded nopProg).wr kGrnCtrl 16) 0x0302 (z 24) []).seq.mode = .starting ∧
    stat (.runSteps false) ((loaded nopProg).wr kGrnCtrl 16) 0x0302 (z 8 ++ [1] ++ z 15) [] = stBadParam ∧
    (withMode net .faulted 0).runRefusal false 0 0 = stBusy ∧
    ({ withMode net .faulted 0 with seq := { (withMode net .faulted 0).seq with mixed := true } } : State).runRefusal false 0 0 = stStepFault ∧
    net.runRefusal false 0 0 = stNotReady ∧ ((loaded nopProg).wr kGrnCtrl 16).runRefusal false 0 (2 ^ 48 - 1) = stOk ∧
    ((loaded nopProg).wr kGrnCtrl 16).runRefusal false 0 (2 ^ 48) = stLimit ∧
    ((loaded (nopProg.set 24 1)).wr kGrnCtrl 16).runRefusal false 0 0 = stGeneration ∧
    (((loaded nopProg).runGo false 0 0).rd kSeqStepsLeft = 2 ^ 48 - 1) ∧ (((loaded nopProg).runGo false 0 7).rd kSeqStepsLeft = 7) := by and_intros <;> decide +kernel
theorem wit_StepCommands_stops : stat (.haltSteps false) net 0x0303 (leBytes 8 9) [] = stOk ∧
    (run (.haltSteps false) (withMode net .running 0) 0x0303 (leBytes 8 9) []).rd kSeqHaltAt = 9 ∧
    stat .abortJob (withMode net .fence 2) 0x0304 [] [] = stOk ∧ stat .abortJob (withMode net .fence 3) 0x0304 [] [] = stPending ∧
    stat (.stepStatus false) net 0x0305 [] [] = stOk ∧
    stat (.stepStatus false) { net with seq := { net.seq with firstFault := some .torn } } 0x0305 [] [] = stTornBlock := by and_intros <;> decide +kernel
/-! ### Tables, settings and state -/

/-- A table of rows of one BF16 element at a home in HBM, keyed directly; and the module with it as table 7. -/
def tableDesc (fmt base : Nat) (rows : Nat) : List Byte :=
  leBytes 2 3 ++ leBytes 1 fmt ++ [0] ++ leBytes 2 1 ++ leBytes 2 (rowBytes16 1) ++ leBytes 8 rows ++ leBytes 8 base ++ z 16 ++ leBytes 8 1 ++ z 16
def table7 : State := net.setTable 7 (tableDesc 0 hbm0 4)
def defBlock : List Byte := leBytes 2 7 ++ z 6 ++ tableDesc 0 hbm0 4
/-- A table of row-scaled rows in the Granary. -/
def granTable : List Byte := leBytes 2 3 ++ [1, 0] ++ leBytes 2 32 ++ leBytes 2 (rowBytes8 32) ++ leBytes 8 4 ++ leBytes 8 0x40000000000 ++ z 16 ++ leBytes 8 1 ++ z 16
theorem wit_TableCommands_online : net.tableFits granTable = true ∧ tbFmt granTable ≠ 0 ∧ bit (net.rd kGrnCtrl) 4 = false ∧
    stat (.defineTable false) net 0x0401 (leBytes 2 7 ++ z 6 ++ granTable) [] = stNotReady ∧
    stat (.defineTable false) (net.wr kGrnCtrl 16) 0x0401 (leBytes 2 7 ++ z 6 ++ granTable) [] = stOk := by and_intros <;> decide +kernel
theorem wit_TableCommands : net.running fabDomains ∧ tbValid (net.table 7) = false ∧ net.tableFits (slice defBlock 8 64) = true ∧
    stat (.defineTable false) net 0x0401 defBlock [] = stOk ∧ (run (.defineTable false) net 0x0401 defBlock []).table 7 = tableDesc 0 hbm0 4 ∧
    tbValid (table7.table 7) = true ∧ stat (.defineTable false) table7 0x0401 defBlock [] = stBadParam ∧
    table7.journalHolds 7 = false ∧ tbValid ((run (.dropTable false) table7 0x0402 (leBytes 2 7 ++ z 6) []).table 7) = false ∧
    table7.tableOk 7 = true ∧ 3 < tbRows (table7.table 7) ∧ table7.owner (table7.table 7) 3 = table7.rank ∧
    stat (.restoreRow false) table7 0x0403 (leBytes 2 7 ++ z 6 ++ leBytes 8 3) (List.replicate (rowBytes16 1) 5) = stOk ∧
    (run (.restoreRow false) table7 0x0403 (leBytes 2 7 ++ z 6 ++ leBytes 8 3) (List.replicate (rowBytes16 1) 5)).byte
      (hbm0 + 3 * rowBytes16 1) = 5 ∧
    stat (.hotrowPolicy false) net 0x0404 ([1, 0, 1, 0] ++ z 4 ++ leBytes 2 1024 ++ z 6) [] = stOk ∧
    stat (.hotrowPolicy false) net 0x0404 ([1, 0, 1, 0] ++ z 4 ++ leBytes 2 1088 ++ z 6) [] ≠ stOk ∧
    net.running memDomains ∧ stat (.flushJournal false) net 0x0405 [] [] = stOk := by and_intros <;> decide +kernel
theorem wit_SettingsAndRecords_set : stat (.loadCalibration false) net 0x0501 (leBytes 2 16383 ++ leBytes 2 1 ++ z 12) (z 8) = stOk ∧
    (calEntries (leBytes 8 (2 ^ 33)) 1).all (fun x => x.toNat < 2 ^ 33) = false ∧
    stat (.loadCalibration false) net 0x0501 (leBytes 2 0 ++ leBytes 2 1 ++ z 12) (leBytes 8 (2 ^ 33)) = stBadParam ∧
    (net.poke hbm0 [1]).gRead hbm0 8 = (.ok, [1] ++ z 7, net.poke hbm0 [1]) ∧
    stat (.loadCalibration false) (net.poke hbm0 [1]) 0x0501 (leBytes 2 0 ++ leBytes 2 1 ++ z 4 ++ leBytes 8 hbm0) [] = stOk ∧
    stat (.setLossScale false) net 0x0502 ([0x82, 0x82, 0x7F, 0] ++ leBytes 4 9) [] = stOk ∧
    stat (.setLossScale false) net 0x0502 ([0x81, 0x81, 0x7F, 0] ++ leBytes 4 9) [] = stBadParam ∧
    flagScopeBad (z 8) = false ∧ net.scopeStatus 0 0 = stOk ∧ stat (.readNumericFlags false) net 0x0503 (z 8) [] = stOk ∧
    (run (.clearNumericFlags false) (net.wr (coreBase 0 + 0x80) 7) 0x0504 (z 8) []).rd (coreBase 0 + 0x80) = 0 ∧
    stat (.traceConfig false) net 0x0505 (z 24) [] = stOk := by and_intros <;> decide +kernel
def oneRecord : State := net.record ⟨0x0503, 2, 3, 0, 5, false⟩
theorem wit_SettingsAndRecords_read : net.rd kRecHead = 0 ∧ stat (.readRecords false) net 0x0801 (z 4 ++ [1, 0, 0, 0]) [] = stOk ∧
    answered (run (.readRecords false) net 0x0801 (z 4 ++ [1, 0, 0, 0]) []) 4 = z 4 ∧ oneRecord.rd kRecHead = 1 ∧
    serialLater 32 0 (oneRecord.rd kRecHead) = false ∧
    answered (run (.readRecords false) oneRecord 0x0801 (z 4 ++ [127, 0, 0, 0]) []) 4 = [1, 0, 0, 0] ∧
    (run (.clearSticky false) (net.wr kRecSticky 1) 0x0802 (z 8) []).rd kRecSticky = 0 ∧
    (regFind 0x2004).isSome = true ∧ isSticky 0x2004 0x2004 = true ∧
    (run (.clearSticky false) (net.wr 0x2004 3) 0x0802 (leBytes 8 (csrBase + 0x2004)) []).rd 0x2004 = 0 ∧
    isSticky 0x4100 0x4100 = false ∧ stat (.clearSticky false) net 0x0802 (leBytes 8 (csrBase + 0x4100)) [] = stBadParam ∧
    monConfigOk (z 24) = true ∧ stat (.monitorConfig false) net 0x0803 ([31] ++ z 31) [] = stOk ∧
    monConfigOk (List.replicate 24 0xFF) = false ∧
    stat (.monitorConfig false) net 0x0803 ([31] ++ z 7 ++ List.replicate 24 0xFF) [] = stBadParam ∧
    stat (.monitorRead false) net 0x0804 (leBytes 4 0x1FFFFFF ++ z 4) [] = stOk ∧
    stat (.monitorRead false) net 0x0804 (leBytes 4 0x3FFFFFF ++ z 4) [] = stBadParam := by and_intros <;> decide +kernel
/-- One unit of table 7 as a stream, and torn block in slot 4 of tile 1. -/
def exportBlock (kind target : Nat) (count : Nat) (dst : Nat) : List Byte :=
  [BitVec.ofNat 8 kind, 0, BitVec.ofNat 8 target, 0] ++ leBytes 2 (if kind = 1 then 7 else 0) ++ z 2 ++ leBytes 4 count ++ z 4 ++ leBytes 8 0 ++ leBytes 8 dst
def streamHead (n bytes : Nat) (d : List Byte) : List Byte :=
  leBytes 4 0x53544558 ++ leBytes 2 1 ++ [1, 0] ++ leBytes 4 n ++ leBytes 4 bytes ++ z 8 ++ leBytes 4 (crc32 d) ++ leBytes 2 7 ++ z 34
def unit7 : List Byte := List.replicate (rowBytes16 1) 9
def withStream : State := table7.poke (hbm0 + 4096) (streamHead 1 (rowBytes16 1) unit7 ++ unit7)
def tornSlot (noUndo : Bool) : UeSlot := ⟨0, 0, hbm0, hbm0 + 2 ^ 20, .torn, 0, [], [], [1], [], false, 4, 0, noUndo⟩
def torn (noUndo : Bool) : State := net.setUpt 1 ⟨[], [(4, tornSlot noUndo)]⟩
theorem wit_StateCommands_streams : table7.quiet = true ∧ table7.exportBad (exportBlock 1 0 1 0) = false ∧ tbFmt (table7.table 7) = 0 ∧
    stat (.exportState false) table7 0x0901 (exportBlock 1 0 1 0) [] = stPending ∧
    ((run (.exportState false) table7 0x0901 (exportBlock 1 0 1 0) []).feed.exports.length = 1) ∧
    table7.exportBad (exportBlock 1 1 1 (hbm0 + 4096)) = false ∧ stat (.exportState false) table7 0x0901 (exportBlock 1 1 1 (hbm0 + 4096)) [] = stOk ∧
    ((run (.exportState false) table7 0x0901 (exportBlock 1 1 1 (hbm0 + 4096)) []).bytes (hbm0 + 4096) 4 = leBytes 4 0x53544558) ∧
    (withStream.gRead (hbm0 + 4096) 64).1 = .ok ∧ withStream.importPlan (z 64) 0 = none ∧
    withStream.importPlan (streamHead 1 (rowBytes16 1) unit7) 3 = some [hbm0 + 3 * rowBytes16 1] ∧
    stat (.importState false) withStream 0x0902 (leBytes 8 (hbm0 + 4096) ++ leBytes 8 3) [] = stOk ∧
    (run (.importState false) withStream 0x0902 (leBytes 8 (hbm0 + 4096) ++ leBytes 8 3) []).byte (hbm0 + 3 * rowBytes16 1) = 9 ∧
    stat (.importState false) withStream 0x0902 (leBytes 8 hbm0 ++ leBytes 8 3) [] = stBadParam := by and_intros <;> decide +kernel
theorem wit_StateCommands_torn : net.tornBlocks = [] ∧ stat (.acceptTorn false) net 0x0903 (leBytes 8 (2 ^ 64 - 1)) [] = stBadParam ∧
    (torn false).tornBlocks = [(1, 4, tornSlot false)] ∧ stat (.acceptTorn false) (torn false) 0x0903 (leBytes 8 hbm0) [] = stOk ∧
    ((run (.acceptTorn false) (torn false) 0x0903 (leBytes 8 hbm0) []).upt 1).slots = [] ∧
    stat (.acceptTorn false) (torn true) 0x0903 (leBytes 8 hbm0) [] = stTornBlock := by and_intros <;> decide +kernel
/-- A firmware image of kind 2 without a body. -/
def imgHead : List Byte := leBytes 4 0x4D524946 ++ leBytes 2 1 ++ [2, 0] ++ leBytes 4 3 ++ z 372
def withImg : State := net.poke hbm0 imgHead
def updating (b again : Bool) : State := { net with boot := { net.boot with update := some (imgHead, b, again) } }
theorem wit_StateCommands_firmware : imageOk imgHead = true ∧ leAt imgHead 12 4 ≤ flashArea (leAt imgHead 6 1) ∧
    (withImg.gRead hbm0 384).2.1 = imgHead ∧
    stat (.updateFirmware true) withImg 0x0904 (leBytes 8 hbm0 ++ leBytes 4 384 ++ z 4) [] = stPending ∧
    (run (.updateFirmware true) withImg 0x0904 (leBytes 8 hbm0 ++ leBytes 4 384 ++ z 4) []).boot.update = some (imgHead, true, false) ∧
    stat (.updateFirmware false) withImg 0x0904 (leBytes 8 hbm0 ++ leBytes 4 384 ++ z 4) [] = stAuthFail ∧
    net.seq.deferred.contains .resetModule = false ∧
    (after (exec (.firmwareCopyWritten true) (updating true false))).boot.update = some (imgHead, false, false) ∧
    (after (exec (.firmwareCopyWritten true) (updating false false))).boot.update = none ∧
    (after (exec (.firmwareCopyWritten false) (updating true false))).boot.update = some (imgHead, true, true) ∧
    (after (exec (.firmwareCopyWritten false) (updating true true))).boot.update = none := by and_intros <;> decide +kernel
/-! ### Layouts, links, parity and the module -/

/-- A layout of given lengths and generation, with the modules replaced named. -/
def layout (len gen : Nat) (repl : List Nat) : List Byte :=
  [BitVec.ofNat 8 len, 1, 1, 1] ++ leBytes 4 0 ++ leBytes 2 gen ++ z 2 ++ leBytes 4 8 ++ leBytes 2 repl.length ++ z 14 ++ repl.flatMap (leBytes 4)
/-- A RESHARD that keeps the lengths, with a move list of one entry. -/
def moving1 : List Byte := [1, 1, 1, 1] ++ leBytes 4 0 ++ leBytes 2 1 ++ z 2 ++ leBytes 4 8 ++ z 2 ++ leBytes 2 1 ++ z 4 ++ leBytes 8 hbm0
theorem wit_LayoutAndDigests_waits : lyMoves moving1 = 1 ∧ ownReplaced moving1 = false ∧
    (withMode net .running 0).layoutRefusal true moving1 = stOk ∧ (withMode net .running 0).quiet = false ∧
    stat .reshard (withMode net .running 0) 0x0602 moving1 [] = stPending ∧
    stat .reshard (withMode net .running 0) 0x0602 (layout 1 1 []) [] = stOk ∧
    net.layoutRefusal true moving1 = stOk ∧ stat .reshard net 0x0602 moving1 [] = stPending := by and_intros <;> decide +kernel
theorem wit_LayoutAndDigests : net.running fabDomains ∧ net.layoutRefusal false (layout 2 2 []) = stGeneration ∧
    stat .setLayout net 0x0601 (layout 2 2 []) [] = stGeneration ∧ net.layoutRefusal false (layout 2 1 []) = stOk ∧
    stat .setLayout net 0x0601 (layout 2 1 []) [] = stPending ∧
    (run .setLayout net 0x0601 (layout 2 1 []) []).lay.change = some (false, layout 2 1 []) ∧ stepping.quiet = false ∧
    (withMode net .running 0).layoutRefusal false (layout 2 1 []) = stOk ∧
    stat .setLayout (withMode net .running 0) 0x0601 (layout 2 1 []) [] = stOk ∧ ownReplaced (layout 1 9 [0]) = true ∧
    net.layoutRefusal true (layout 1 9 [0]) = stOk ∧ stat .reshard net 0x0602 (layout 1 9 [0]) [] = stPending ∧
    (run .reshard net 0x0602 (layout 1 9 [0]) []).gen = 8 ∧ podOf2.layoutLen 0 ≠ 1 ∧
    (net.memRead hbm0 0).1 = .ok ∧ stat .digestCheck (net.wr kLayout (2 + 2 ^ 8 + 2 ^ 16 + 2 ^ 24)) 0x0603 (z 8 ++ leBytes 8 hbm0 ++ leBytes 8 0) [] = stPending ∧
    (after (exec (.digestMessage 31 (.chunks [z 8])) net)).lay.digests = [(31, [z 8])] := by and_intros <;> decide +kernel
def joining (op : Nat) (b : List Byte) : State :=
  { net.wr kLayout (2 + 2 ^ 8 + 2 ^ 16 + 2 ^ 24) with hcp := { net.hcp with pend := some ⟨entryOf op b [], none⟩ } }
theorem wit_LayoutAndDigests_messages : net.hcp.pend = none ∧
    (after (exec (.digestMessage 31 (.blocks 65535 [z 8])) net)).lay.blocks = [(65536 * 31 + 65535, [z 8])] ∧
    (joining 0x0603 (z 24)).hubOn = true ∧
    smGet [] (after (exec (.digestMessage 1 (.chunks [z 8])) (joining 0x0603 (z 24)))).lay.digests 1 = [z 8] := by and_intros <;> decide +kernel
theorem wit_LayoutAndDigests_late : (joining 0x0603 (z 24)).hcp.pend = some ⟨entryOf 0x0603 (z 24) [], none⟩ ∧
    (joining 0x0603 (z 24)).allJoined 0 = false ∧
    (after (exec .digestJoinTimeout (joining 0x0603 (z 24)))).hcp.pend = some ⟨entryOf 0x0603 (z 24) [], some (stNotReady, [])⟩ ∧
    (after (exec .parityJoinTimeout (joining 0x0605 (z 24)))).hcp.pend = some ⟨entryOf 0x0605 (z 24) [], some (stNotReady, [])⟩ := by and_intros <;> decide +kernel
def upPort : State := net.setLinkSt 7 4
theorem wit_LinkCommands : net.linkRefusal (z 8) = stBadParam ∧ stat .linkStatus net 0x0604 (z 8) [] = stBadParam ∧
    net.linkRefusal ([0x80, 0] ++ z 6) = stOk ∧ stat .linkStatus net 0x0604 ([0x80, 0] ++ z 6) [] = stOk ∧
    upPort.linkRefusal ([0x80, 1] ++ z 6) = stOk ∧ (run .linkStatusRetrain upPort 0x0604 ([0x80, 1] ++ z 6) []).linkSt 7 = 5 ∧
    (run .linkStatusDisable upPort 0x0604 ([0x80, 2] ++ z 6) []).linkSt 7 = 0 ∧
    bit ((run .linkStatusEnable net 0x0604 ([1, 3] ++ z 6) []).rd (kLnk 0 0)) 0 = true ∧
    (withMode net .running 0).linkRefusal ([0x80, 2] ++ z 6) = stBusy := by and_intros <;> decide +kernel
/-- A pod of 65 modules in a line of 13 by 5, the least that R456 takes. -/
def podOf65 : State := net.wr kLayout (13 + 5 * 2 ^ 8 + 2 ^ 16 + 2 ^ 24)
def confBlock : List Byte := [0, 1] ++ z 6 ++ leBytes 8 (hbm0 + 2 ^ 20) ++ z 8 ++ leBytes 8 hbm0 ++ leBytes 8 4096
def parityNet : State := { parityOn with boot := net.boot, hcp := net.hcp }
def repairBlock : List Byte := [1, 1] ++ z 22 ++ leBytes 8 hbm0 ++ leBytes 8 4096
theorem wit_ParityCommands : podOf65.configureBad confBlock = false ∧ unitsIn true (pcRanges confBlock) = 0 ∧
    stat .parityConfigure podOf65 0x0605 confBlock [] = stPending ∧ net.configureBad confBlock = true ∧
    stat .parityConfigure net 0x0605 confBlock [] = stBadParam ∧
    bit ((run (.parityDisable false) parityNet 0x0605 ([2] ++ z 23) []).rd kParityCtrl) 0 = false ∧
    (pcRanges repairBlock).headD (0, 0) = (hbm0, 4096) ∧ rangeOk (hbm0, 4096) = true ∧ parityNet.allProtected hbm0 1 = true ∧
    stat (.parityRepair [] (some true) false) parityNet 0x0605 repairBlock [] = stPoisoned ∧
    stat (.parityRepair [[7]] none false) parityNet 0x0605 repairBlock [] = stOk ∧
    (run (.parityRepair [[7]] none false) parityNet 0x0605 repairBlock []).byte hbm0 = 7 := by and_intros <;> decide +kernel
/-- Every clock source is READY. -/
def clocked : State := net.wr kClkStatus 0xF
def litLamps : State := (net.setLampSt 4 4).setLampSt 5 4
theorem wit_ModuleCommands : clocked.clockRefusal ([16, 1] ++ z 6) = stOk ∧ stat (.setClockSource false) clocked 0x0701 ([16, 1] ++ z 6) [] = stOk ∧
    net.clockRefusal ([16, 1] ++ z 6) ≠ stOk ∧ stat (.setClockSource false) net 0x0701 ([16, 1] ++ z 6) [] = stClockNotReady ∧
    (run (.setPerfPoint false) net 0x0702 (leBytes 2 600 ++ [0xFF] ++ z 5) []).rdf 0x4100 0 12 = 600 ∧
    (run (.setPerfPoint false) net 0x0702 (leBytes 2 1900 ++ [15] ++ z 5) []).rdf 0x4100 0 12 = 1900 ∧
    stat (.setPerfPoint false) net 0x0702 (leBytes 2 0 ++ [0] ++ z 5) [] = stOk ∧
    stat (.lampStatus false) net 0x0703 ([0x81] ++ z 7) [] = stOk ∧ litLamps.retireBad ([4, 0] ++ z 6) = false ∧
    litLamps.ramping 4 = false ∧ litLamps.ramping (partner 4) = false ∧ litLamps.lampOn 4 = true ∧
    stat .lampRetire litLamps 0x0704 ([4, 0] ++ z 6) [] = stPending ∧ stat .lampRetire litLamps 0x0704 ([4, 1] ++ z 6) [] = stOk ∧
    stat .lampRetire (withMode litLamps .running 0) 0x0704 ([4, 1] ++ z 6) [] = stBusy ∧
    net.running (tileDomains 3) ∧ stat .resetTile net 0x0A01 ([3] ++ z 7) [] = stOk ∧ clocked.srcReady 3 = true ∧
    stat .resetModule clocked 0x0A02 [] [] = stOk ∧ net.srcReady 3 = false ∧ stat .resetModule net 0x0A02 [] [] = stClockNotReady := by and_intros <;> decide +kernel
theorem wit_ModuleCommands_late : (withMode net .fence 3).take .abort =
      { withMode net .fence 3 with seq := { (withMode net .fence 3).seq with deferred := [.abort] } } ∧
    ((withMode net .fence 2).take .abort).seq.mode = .idle ∧
    ({ net with seq := { net.seq with deferred := [.resetModule] } } : State).take .abort =
      { net with seq := { net.seq with deferred := [.resetModule] } } ∧ net.boot.update = none ∧
    (net.take .resetModule).hcp.sessions = [] ∧ (net.take (.resetTile 3)).tile 3 = TileSeq.init := by and_intros <;> decide +kernel
/-! ## Steps -/

/-- A step runs the program of a first descriptor on every tile. -/
def stepOf (first : List Byte) : State := withMode (loaded (progOf first)) .running 0
def waitDesc (kind : Nat) : List Byte := desc kind 0 0x10 1 []
/-- The same with sync counter 0 at 1 on tile 0, which failed work has signalled. -/
def taintedStep (kind : Nat) : State :=
  let s := stepOf (waitDesc kind)
  s.setTile 0 { s.tile 0 with ctr := [(0, 1)], taint := 1 }
def kinds : List (Nat × Instr) := [(0, .nopDesc 0), (1, .matmul 0), (2, .veRun 0), (3, .embLookup 0), (4, .embGrad 0), (6, .prefetch 0),
  (7, .easelLoad 0), (10, .quantDesc 0), (12, .copyDesc 0), (13, .memFence 0)]
theorem wit_Descriptors_due : (stepOf (desc 0 0 0x10 0 [])).due 3 = some (desc 0 0 0x10 0 []) ∧ (stepOf (waitDesc 0)).due 0 = none ∧
    (∀ e ∈ kinds, (taintedStep e.1).due 0 = some (waitDesc e.1) ∧ dKind (waitDesc e.1) = e.1 ∧
      ((taintedStep e.1).tile 0).tainted (waitDesc e.1) = true ∧
      ((after (exec e.2 (taintedStep e.1))).tile 0).inflight.map (·.err) = [some false]) := by and_intros <;> decide +kernel
/-- What issuing a descriptor as the first of the step leaves on tile 0. -/
def issued (i : Instr) (d : List Byte) : State := after (exec i (stepOf d))
def partsOf (s : State) : List (Nat × List Nat × Option Bool) := (s.tile 0).inflight.map fun i => (i.parts, i.waiting, i.err)
def coresArg (first n : Nat) : List Byte := leBytes 2 first ++ leBytes 2 n ++ z 20
def copyArg (size src dst : Nat) : List Byte := leBytes 4 size ++ z 4 ++ leBytes 8 src ++ leBytes 8 dst
def easelArg (size off : Nat) : List Byte := z 4 ++ leBytes 4 size ++ leBytes 8 hbm0 ++ leBytes 4 off ++ z 4
/-- A FENCE of tile 0 is pending: a descriptor that accesses memory is not due there, a NOP is. -/
def heldStep (first : List Byte) : State := (stepOf first).setHcp fun _ => fenced1.hcp
theorem wit_Descriptors_held : (heldStep (desc 12 0 0x10 0 [])).due 0 = none ∧ (heldStep (desc 12 0 0x10 0 [])).fencedTile 0 = true ∧
    (heldStep (desc 12 0 0x10 0 [])).due 1 = some (desc 12 0 0x10 0 []) ∧
    (heldStep (desc 0 0 0x10 0 [])).due 0 = some (desc 0 0 0x10 0 []) := by and_intros <;> decide +kernel
theorem wit_Descriptors_work : partsOf (issued (.nopDesc 0) (desc 0 0 0x10 0 [])) = [(0, [], none)] ∧
    live.coreRange (desc 1 0 0x10 0 (coresArg 1199 1)) = some [1199] ∧ live.coreRange (desc 1 0 0x10 0 (coresArg 1199 2)) = none ∧
    partsOf (issued (.matmul 0) (desc 1 0 0x10 0 (coresArg 1199 1))) = [(1, [1199], none)] ∧
    partsOf (issued (.matmul 0) (desc 1 0 0x10 0 (coresArg 1199 2))) = [(0, [], some false)] ∧
    partsOf (issued (.veRun 0) (desc 2 0 0x10 0 (coresArg 0 0))) = [(0, [], none)] ∧
    partsOf (issued (.quantDesc 0) (desc 10 0 0x10 0 (z 8 ++ leBytes 8 hbm0))) = [(1, [], none)] ∧
    partsOf (issued (.copyDesc 0) (desc 12 0 0x10 0 (copyArg 4 hbm0 (hbm0 + 64)))) = [(0, [], none)] ∧
    partsOf (issued (.copyDesc 0) (desc 12 0 0x10 0 (copyArg 2 hbm0 (hbm0 + 64)))) = [(0, [], some false)] ∧
    partsOf (issued (.memFence 0) (desc 13 0 0x10 0 [1])) = [(0, [], none)] ∧
    partsOf (issued (.memFence 0) (desc 13 0 0x10 0 [2])) = [(0, [], some false)] ∧
    partsOf (issued (.easelLoad 0) (desc 7 0 0x10 0 (easelArg 0 0))) = [(0, [], some false)] ∧
    dKind (desc 3 0 0x10 0 []) = 3 ∧ (stepOf (desc 3 0 0x10 0 [])).due 0 = some (desc 3 0 0x10 0 []) ∧
    (stepOf (desc 4 0 0x10 0 [])).due 0 = some (desc 4 0 0x10 0 []) ∧ (stepOf (desc 6 0 0x10 0 [])).due 0 = some (desc 6 0 0x10 0 []) := by and_intros <;> decide +kernel
/-- An Easel of 4 KiB. -/
def easelStep : State := (stepOf (desc 7 0 0x10 0 (easelArg 64 4032))).wr (kEasel 0 8) 4096
theorem wit_Descriptors_easel : 4032 + 64 ≤ easelStep.rdf (kEasel 0 8) 0 29 ∧
    partsOf (after (exec (.easelLoad 0) easelStep)) = [(0, [], if (easelStep.copy false hbm0
      (ownGlobal (easelStep.rdf (kEasel 0 0) 0 44 + 4032)) 64).1 = .ok then none else some false)] := by and_intros <;> decide +kernel
/-- The outcome is out: the update is applied, or skipped. -/
def decidedStep (kind : Nat) (apply : Bool) : State :=
  let s := stepOf (desc kind 0 0x10 0 [])
  { s with seq := { s.seq with decision := some ⟨false, apply, false⟩ } }
def clearingStep : State := (decidedStep 5 true).setGrn 0 { GranState.init with clearing := [0] }
theorem wit_SharesAndFences_update : (decidedStep 5 false).due 0 = some (desc 5 0 0x10 0 []) ∧ (decidedStep 5 false).seq.decision = some ⟨false, false, false⟩ ∧
    partsOf (after (exec (.embApply 0) (decidedStep 5 false))) = [(0, [], none)] ∧ (decidedStep 5 true).applyWaits = false ∧
    clearingStep.applyWaits = true ∧ gives (exec (.embApply 0) clearingStep) clearingStep = true ∧
    partsOf (after (exec (.updateDesc 0) (decidedStep 11 false))) = [(0, [], none)] ∧
    (decidedStep 11 true).due 0 = some (desc 11 0 0x10 0 []) := by and_intros <;> decide +kernel
def flying (kind : Nat) (waiting : List Nat) : InFlight := ⟨0, kind, 0, 2, coresArg 3 2, 2, waiting, none, false, none⟩
def sharing (kind : Nat) : State := live.setTile 0 { TileSeq.init with inflight := [flying kind [3, 4]] }
def busyCore (kind : Nat) : State := (((sharing kind).setVe 3 { VeState.init with run := some (veShare 0 0), pend := some (veShare 8 0) }).setMe 3
  { (live.me 3) with pend := some ⟨.desc 0 0, 0, 1, false, 0, false, none⟩ })
theorem wit_SharesAndFences_dispatch : live.coreOn 3 = true ∧ ((sharing 1).tile 0).inflight.find? (fun i => i.waiting.contains 3) = some (flying 1 [3, 4]) ∧
    ((sharing 1).me 3).pend = none ∧ ((after (exec (.shareDispatch 0 3) (sharing 1))).tile 0).inflight.map (·.waiting) = [[4]] ∧
    ((sharing 2).ve 3).pend = none ∧
    ((after (exec (.shareDispatch 0 4) (sharing 2))).ve 4).run.map (·.idx) = some 1 ∧ ((busyCore 2).ve 3).pend.isSome = true ∧
    gives (exec (.shareDispatch 0 3) (busyCore 2)) (busyCore 2) = true ∧ ((busyCore 1).me 3).pend.isSome = true ∧
    gives (exec (.shareDispatch 0 3) (busyCore 1)) (busyCore 1) = true := by and_intros <;> decide +kernel
def fenceDesc : List Byte := desc 8 0 0x10 0 [5, 0]
def loading : State :=
  let s := stepOf fenceDesc
  (s.setTile 0 { s.tile 0 with inflight := [⟨9, 9, 0, 2, [], 1, [], none, false, some 5⟩] }).wr (wideKey 0x13010C) 3
/-- An EASEL_LOAD of the layer is in flight, and the wait has no limit. -/
def loading7 : State :=
  let s := stepOf fenceDesc
  s.setTile 0 { s.tile 0 with inflight := [⟨9, 7, 0, 2, [5, 0], 1, [], none, false, none⟩] }
/-- The fence of a layer waits on failed work. -/
def easelTaint : State :=
  let s := stepOf (desc 8 0 0x10 1 [5, 0])
  s.setTile 0 { s.tile 0 with ctr := [(0, 1)], taint := 1 }
/-- The update waits on failed work, or for the outcome. -/
def updateTaint (kind : Nat) : State :=
  let s := stepOf (waitDesc kind)
  ({ s with seq := { s.seq with decision := some ⟨false, true, false⟩ } } : State).setTile 0 { s.tile 0 with ctr := [(0, 1)], taint := 1 }
theorem wit_SharesAndFences_taint : easelTaint.due 0 = some (desc 8 0 0x10 1 [5, 0]) ∧ easelTaint.easelBusy 0 5 = false ∧
    (easelTaint.tile 0).tainted (desc 8 0 0x10 1 [5, 0]) = true ∧
    partsOf (after (exec (.easelFence 0 40) easelTaint)) = [(0, [], some false)] ∧
    (updateTaint 5).due 0 = some (waitDesc 5) ∧ (updateTaint 11).due 0 = some (waitDesc 11) ∧
    ((updateTaint 5).tile 0).tainted (waitDesc 5) = true ∧ (updateTaint 5).applyWaits = false ∧
    partsOf (after (exec (.embApply 0) (updateTaint 5))) = [(0, [], some false)] ∧
    partsOf (after (exec (.updateDesc 0) (updateTaint 11))) = [(0, [], some false)] ∧
    (stepOf (desc 5 0 0x10 0 [])).seq.decision = none ∧ (stepOf (desc 5 0 0x10 0 [])).due 0 = some (desc 5 0 0x10 0 []) ∧
    gives (exec (.embApply 0) (stepOf (desc 5 0 0x10 0 []))) (stepOf (desc 5 0 0x10 0 [])) = true ∧
    (stepOf (desc 11 0 0x10 0 [])).due 0 = some (desc 11 0 0x10 0 []) ∧
    gives (exec (.updateDesc 0) (stepOf (desc 11 0 0x10 0 []))) (stepOf (desc 11 0 0x10 0 [])) = true := by and_intros <;> decide +kernel
/-- A pooling share of tile 0 for core 3 whose rows are gathered; the core is free, or its pending slot is taken. -/
def poolShare3 (phase : PoolPhase) : EmbShare := ⟨0, 0, 5, 7, 0, [(0, 0, .bad)], phase, 3, 0⟩
def pooling (sh : EmbShare) : State := table7.setEmbt 0 { EmbState.init with shares := [sh] }
def poolFull : State := (pooling (poolShare3 .gather)).setVe 3 { VeState.init with run := some (veShare 0 0), pend := some (veShare 8 0) }
theorem wit_SharesAndFences_pools : table7.coreOn 3 = true ∧ table7.absent 3 = false ∧ ((pooling (poolShare3 .gather)).tile 0).inflight = [] ∧
    ((pooling (poolShare3 .gather)).embt 0).shares.find? (fun sh => sh.core = 3 && sh.mode ≤ 2 && sh.phase = .gather && sh.known) =
      some (poolShare3 .gather) ∧ (pooling (poolShare3 .gather)).poolArea 0 3 4096 = some 0 ∧
    (pooling (poolShare3 .gather)).fencedCore 3 = false ∧
    ((after (exec (.shareDispatch 0 3) (pooling (poolShare3 .gather)))).ve 3).run.isSome = true ∧
    (poolFull.ve 3).pend.isSome = true ∧ gives (exec (.shareDispatch 0 3) poolFull) poolFull = true ∧
    gives (exec (.shareDispatch 0 3) (pooling (poolShare3 .running))) (pooling (poolShare3 .running)) = true := by and_intros <;> decide +kernel
theorem wit_SharesAndFences_easel : (stepOf fenceDesc).due 0 = some fenceDesc ∧ (stepOf fenceDesc).easelBusy 0 5 = false ∧
    partsOf (after (exec (.easelFence 0 40) (stepOf fenceDesc))) = [(0, [], none)] ∧
    (after (exec (.easelFence 0 40) (stepOf fenceDesc))).rd (kEasel 0 0x10) = 40 ∧ loading.easelBusy 0 5 = true ∧
    gives (exec (.easelFence 0 40) loading) loading = true ∧ loading.rdf (wideKey 0x13010C) 0 24 = 3 ∧
    loading7.easelBusy 0 5 = true ∧ loading7.rdf (wideKey 0x13010C) 0 24 ≠ 0 ∧
    gives (exec (.windowTimeout 0) (stepOf fenceDesc)) (stepOf fenceDesc) = true ∧
    (loading7.wr (wideKey 0x13010C) 0).rdf (wideKey 0x13010C) 0 24 = 0 ∧
    gives (exec (.windowTimeout 0) (loading7.wr (wideKey 0x13010C) 0)) (loading7.wr (wideKey 0x13010C) 0) = true ∧
    (after (exec (.windowTimeout 0) loading)).rd kSeqFault = 8 ∧ (after (exec (.windowTimeout 0) loading)).rd (kEasel 0 0x10) = 3000 := by and_intros <;> decide +kernel
/-- A collective descriptor at hbm0 of an operation, and the step that issues it; axes 1, 64 bytes within HBM. -/
def colDesc (op bytes : Nat) : List Byte :=
  [BitVec.ofNat 8 op, 1, 0, 0] ++ z 4 ++ leBytes 8 bytes ++ leBytes 8 (hbm0 + 4096) ++ leBytes 8 (hbm0 + 8192) ++ z 32
def colProg (addr : Nat) : List Byte := desc 9 0 0x10 0 (z 8 ++ leBytes 8 addr)
def colStep (addr op bytes : Nat) : State := (stepOf (colProg addr)).poke hbm0 (colDesc op bytes)
def colOps : List (Nat × Instr) := [(0, .allGather 0), (1, .reduceScatter 0), (2, .allReduce 0), (3, .colBroadcast 0), (4, .colShift 0)]
/-- The collective waits on failed work. -/
def colTaint (op : Nat) : State :=
  let s := (stepOf (desc 9 0 0x10 1 (z 8 ++ leBytes 8 hbm0))).poke hbm0 (colDesc op 64)
  s.setTile 0 { s.tile 0 with ctr := [(0, 1)], taint := 1 }
theorem wit_Collectives_taint : (colTaint 0).due 0 = some (desc 9 0 0x10 1 (z 8 ++ leBytes 8 hbm0)) ∧
    ((colTaint 0).tile 0).tainted (desc 9 0 0x10 1 (z 8 ++ leBytes 8 hbm0)) = true ∧ ((colTaint 0).gRead hbm0 64).2.1 = colDesc 0 64 ∧
    partsOf (after (exec (.allGather 0) (colTaint 0))) = [(0, [], some false)] ∧
    ((after (exec (.allGather 0) (colTaint 0))).tile 0).colOrd = 1 := by and_intros <;> decide +kernel
theorem wit_Collectives_issue : (colStep hbm0 0 64).due 0 = some (colProg hbm0) ∧ dArg (colProg hbm0) 8 8 % 64 = 0 ∧
    dArg (colProg (hbm0 + 1)) 8 8 % 64 ≠ 0 ∧ ((colStep hbm0 0 64).gRead hbm0 64).2.1 = colDesc 0 64 ∧
    (∀ e ∈ colOps, leAt (colDesc e.1 64) 0 1 = e.1 ∧ (colStep hbm0 e.1 64).colOk 0 (colDesc e.1 64) = true ∧
      ((after (exec e.2 (colStep hbm0 e.1 64))).tile 0).colOrd = 1 ∧
      (colStep hbm0 e.1 32).colOk 0 (colDesc e.1 32) = false ∧ partsOf (after (exec e.2 (colStep hbm0 e.1 32))) = [(0, [], some false)]) ∧
    partsOf (after (exec (.allGather 0) (colStep (hbm0 + 1) 0 64))) = [(0, [], some false)] ∧
    ((colStep (2 ^ 43) 0 64).gRead (2 ^ 43) 64).1 ≠ .ok ∧
    partsOf (after (exec (.allGather 0) (colStep (2 ^ 43) 0 64))) = [(0, [], some false)] := by and_intros <;> decide +kernel
/-- A collective of the module's tile 0 waits for module 2 ^ 15, and a message of a step, ordinal and generation. -/
def colMsg (gen step ord : Nat) : InMsg := ⟨2 ^ 15, colClass, 0, leBytes 2 gen ++ [0, 0] ++ leBytes 4 ord ++ leBytes 4 step ++ z 4 ++ z 64⟩
def colJob : ColJob := ⟨0, 0, 0, 0, 64, hbm0, 1, 0, false, none, false, [], 0, (0, 0), 0⟩
def colWait (m : InMsg) : State := { (podOf2.setCols 0 [colJob]) with inbox := [m], seq := { live.seq with mode := .running } }
/-- A message of the FLAG_REDUCE that is open; and one of a later generation before a message that can be judged. -/
def flagMsg : InMsg := ⟨2 ^ 15, colClass, 0, leBytes 2 0 ++ [5, 0] ++ leBytes 4 0xFFFFFFFF ++ leBytes 4 0 ++ z 4 ++ z 64⟩
def flagOpenS : State := { (podOf2) with inbox := [flagMsg], seq := { live.seq with mode := .running, reduceIssued := true } }
theorem wit_Collectives_flag : flagOpenS.colJudge flagMsg = .flag ∧
    (after (exec .collectiveMessage flagOpenS)).seq.flagMsgs = 1 ∧ (after (exec .collectiveMessage flagOpenS)).inbox = [] ∧
    ({ colWait (colMsg 0 0 0) with inbox := [colMsg 1 0 0, colMsg 0 0 0] } : State).inbox.find?
      (fun m => m.typ ≥ colClass && ({ colWait (colMsg 0 0 0) with inbox := [colMsg 1 0 0, colMsg 0 0 0] } : State).colJudge m ≠ .hold) =
        some (colMsg 0 0 0) ∧
    (after (exec .collectiveMessage { colWait (colMsg 0 0 0) with inbox := [colMsg 1 0 0, colMsg 0 0 0] })).inbox = [colMsg 1 0 0] := by and_intros <;> decide +kernel
theorem wit_Collectives_messages : (colWait (colMsg 0 1 0)).colJudge (colMsg 0 1 0) = .stale ∧
    (after (exec .collectiveMessage (colWait (colMsg 0 1 0)))).rd (wideKey 0x130230) = 1 ∧
    (colWait (colMsg 0 0 0)).colJudge (colMsg 0 0 0) = .mine 0 colJob ∧
    (after (exec .collectiveMessage (colWait (colMsg 0 0 0)))).inbox = [] ∧
    (colWait ⟨2 ^ 15, colClass, 0, [0, 0, 0, 4] ++ z 80⟩).colJudge ⟨2 ^ 15, colClass, 0, [0, 0, 0, 4] ++ z 80⟩ = .drop ∧
    (colWait (colMsg 1 0 0)).colJudge (colMsg 1 0 0) = .hold ∧ serialLater 16 0x8000 0 = false ∧
    (colWait (colMsg 0x8000 0 0)).colJudge (colMsg 0x8000 0 0) = .stale := by and_intros <;> decide +kernel
/-- Every tile has completed what precedes FLAG_REDUCE; only tile 0 has. -/
def atReduce (n : Nat) : State :=
  (List.range n).foldl (fun s t => s.setTile t { s.tile t with next := 1 }) (stepOf (desc 0 0 0x10 0 []))
theorem wit_FlagOutcome_issue : (atReduce 4).due 0 = some (desc 14 0 0x20 0 []) ∧ (∀ k, k < 4 → (atReduce 4).reduceReady k = true) ∧
    (atReduce 1).reduceReady 1 = false ∧ (after (exec (.flagReduce 0) (atReduce 4))).seq.reduceIssued = false ∧
    (after (exec (.flagReduce 3) (after (exec (.flagReduce 2) (after (exec (.flagReduce 1) (after (exec (.flagReduce 0)
      (atReduce 4))))))))).seq.reduceIssued = true := by and_intros <;> decide +kernel
def flagWait (m : SeqMode) (sent : Nat) : State :=
  { live with seq := { live.seq with mode := m, reduceIssued := true, sentFlags := sent } }
/-- A FLAG_REDUCE that a faulted step left open, and one whose message has not been accepted. -/
def leftOpen : State := { live with seq := { live.seq with opens := [⟨4, 0, 0, 0, true⟩] } }
def unsent : State := { live with net := { live.net with lost := [3] } }
theorem wit_FlagOutcome_open : leftOpen.flagOpen = false ∧ leftOpen.fabOn 0 = true ∧
    (after (exec (.flagReduceResult 0) leftOpen)).seq.opens = [⟨4, 0, 0, 0, false⟩] ∧
    unsent.redOpen ⟨4, 0, 3, 4, false⟩ = true ∧ unsent.redOpen ⟨4, 0, 0, 3, false⟩ = false ∧ unsent.redOpen ⟨4, 0, 4, 9, false⟩ = false ∧
    (unsent.keepOpen ⟨4, 0, 3, 4, false⟩).seq.opens = [⟨4, 0, 3, 4, false⟩] ∧ (unsent.keepOpen ⟨4, 0, 4, 9, false⟩).seq.opens = [] := by and_intros <;> decide +kernel
theorem wit_FlagOutcome_result : (flagWait .running 0).flagOpen = true ∧ (live.outcome 0).faulted = false ∧
    ((after (exec (.flagReduceResult 0) (flagWait .running 0))).seq.decision = some ⟨false, true, false⟩) ∧
    (after (exec (.flagReduceResult 0) (flagWait .faulted 0))).seq.reduceIssued = false ∧ (live.outcome (2 ^ 48)).faulted = true ∧
    (after (exec (.flagReduceResult 0) (flagWait .running (2 ^ 48)))).seq.mode = .faulted ∧
    podOf2.modules = 2 ∧ (after (exec (.flagReduceResult 0x1000000000000) { flagWait .running 0 with csr := podOf2.csr })).rd kSeqFault = 4 ∧
    live.outcome 1 = ⟨false, false, true⟩ ∧ live.outcome (2 ^ 24) = ⟨false, false, false⟩ ∧
    (live.wr (wideKey 0x130000) 1).outcome 0xFFFFFF = ⟨false, true, true⟩ := by and_intros <;> decide +kernel
/-- A descriptor whose parts are done, with an error; and END_STEP with work in flight and without. -/
def doneFlight (err : Option Bool) : State := live.setTile 0 { TileSeq.init with inflight := [⟨0, 0, 0, 2, [], 0, [], err, false, none⟩] }
def atEnd (l : List InFlight) : State :=
  let s := stepOf (desc 0 0 0x10 0 [])
  s.setTile 0 { s.tile 0 with next := 2, inflight := l }
/-- A MEM_FENCE of the module whose parts are done, with and without a core DMA transfer outstanding. -/
def memFence (busy : Bool) : State :=
  let s := { stepping with boot := live.boot }.setTile 0 { TileSeq.init with inflight := [⟨0, 13, 0, 2, [0], 0, [], none, false, none⟩] }
  if busy then s.setVe 5 { VeState.init with dma := [xfer true false] } else s
/-- An update whose non-finite error waits for its last part. -/
def lateFlight (parts : Nat) : State :=
  stepping.setTile 0 { TileSeq.init with inflight := [⟨0, 5, 0, 2, [], parts, [], none, true, none⟩] }
theorem wit_StepProgress_fences : ((memFence true).flight 0 0).map (·.fences) = some true ∧ (memFence true).accessBusy 0 0 = true ∧
    gives (exec (.descriptorComplete 0 0) (memFence true)) (memFence true) = true ∧ (memFence false).accessBusy 0 0 = false ∧
    ((after (exec (.descriptorComplete 0 0) (memFence false))).tile 0).inflight = [] ∧
    (((lateFlight 2).partDone 0 0 none).tile 0).inflight.map (·.err) = [none] ∧
    (((lateFlight 1).partDone 0 0 none).tile 0).inflight.map (·.err) = [some false] := by and_intros <;> decide +kernel
theorem wit_StepProgress_ends : (doneFlight none).flight 0 0 = some ⟨0, 0, 0, 2, [], 0, [], none, false, none⟩ ∧
    smGet 0 ((after (exec (.descriptorComplete 0 0) (doneFlight none))).tile 0).ctr 2 = 1 ∧
    ((after (exec (.descriptorComplete 0 0) (doneFlight (some false)))).tile 0).taint = 4 ∧
    (sharing 2).flight 0 0 = some (flying 2 [3, 4]) ∧ (((sharing 2).partDone 0 0 none).tile 0).inflight.map (·.parts) = [1] ∧
    (((sharing 2).partDone 0 0 (some true)).tile 0).inflight.map (·.err) = [some true] ∧
    (atEnd []).due 0 = some (desc 15 0 0x30 0 []) ∧ ((after (exec (.endStep 0) (atEnd []))).tile 0).next = 3 ∧
    gives (exec (.endStep 0) (atEnd [⟨0, 0, 0, 2, [], 0, [], none, false, none⟩])) (atEnd [⟨0, 0, 0, 2, [], 0, [], none, false, none⟩]) = true := by and_intros <;> decide +kernel
/-- A step waits for the feed; every tile has two slots, the first COMPLETE and the second INDEXED, or none. -/
def fed : State := (List.range 4).foldl (fun s t => ((s.wr (kFeed t 0xC) 2).setSlot t 0 { FeedSlot.init with state := 3 }).setSlot t 1
  { FeedSlot.init with state := 2 }) (withMode net .waitFeed 0)
def unfed : State := (withMode net .waitFeed 0).wr (wideKey 0x130030) 1
theorem wit_StepProgress_start : fed.seq.mode = .waitFeed ∧ (∀ t, t < 4 → fed.fabOn t = true ∧ fed.feedReady t = true) ∧
    fed.cores.any (fun c => c.2.desc) = false ∧ (after (exec .stepStart fed)).seq.mode = .running ∧ fed.flagOpen = false ∧
    ({ fed with seq := { fed.seq with reduceIssued := true } } : State).flagOpen = true ∧
    (after (exec .stepStart { fed with seq := { fed.seq with reduceIssued := true } })).seq.opens = [⟨4, 0, 0, 0, true⟩] ∧ unfed.feedReady 0 = false ∧
    gives (exec .stepStart unfed) unfed = true ∧ unfed.pwr.phase = .on ∧ unfed.rdf (wideKey 0x130030) 0 24 ≠ 0 ∧
    (after (exec .feedTimeout unfed)).rd kSeqFault = 1 ∧
    ((after (exec (.feedCopyEnd 3) (net.setFeedT 3 { FeedTile.init with copying := true }))).feedT 3).copying = false := by and_intros <;> decide +kernel
theorem wit_StepFaults_causes : gives (.next (live.fault 0 .torn)) live = true ∧
    gives (.next ((withMode live .faulted 0).fault 0 .torn)) ((withMode live .faulted 0).noteCause .torn) = true ∧ (stepping.fault 1 .torn).rd (kLocalFlags 1) = 2 ^ 48 ∧
    Cause.prevents .torn = false ∧ (stepping.fault 1 .torn).seq.mode = .running ∧ Cause.prevents .peerFault = true ∧
    (stepping.fault 1 .peerFault).seq.mode = .faulted ∧ (flagWait .running 0).seq.reduceIssued = true ∧
    ((flagWait .running 0).fault 0 .torn).seq.mode = .faulted ∧ (stepping.noteCause .tileReset).rd kSeqFault = 256 ∧
    ((stepping.endStep .torn true).out.length = 1) ∧ ((decidedStep 5 true).endStep .torn false).seq.mixed = true := by and_intros <;> decide +kernel
def podJob : State :=
  let s := (colWait (colMsg 0 0 0)).setTile 0 { TileSeq.init with inflight := [⟨0, 9, 0, 2, [], 1, [], none, false, none⟩] }
  s.setEmbt 0 { EmbState.init with jobs := [⟨0, 0, 1, false, 0, [], 0, 1, none, 0⟩] }
def waiting2 (m : SeqMode) (order : Nat) : State := withMode podOf2 m order
theorem wit_StepFaults_pod : podJob.hubOn = true ∧ podJob.seq.mode = .running ∧ (podJob.cols 0).any (fun j => j.idx = 0) = true ∧
    (podJob.flight 0 0).isSome = true ∧ (after (exec (.podTimeout (.collective 0 0)) podJob)).rd kSeqFault = 2 ∧
    (podJob.embt 0).jobs.any (fun j => j.idx = 0) = true ∧ ((after (exec (.podTimeout (.embedding 0 0)) podJob)).embt 0).jobs = [] ∧
    (after (exec (.podTimeout .flagReduce) (flagWait .running 0))).seq.mode = .faulted ∧ (waiting2 .starting 0).atBarrier = true ∧
    (after (exec (.podTimeout .barrier) (waiting2 .starting 0))).seq.mode = .faulted ∧
    gives (exec (.stepAbortNotice true) live) live = true ∧ stepping.seq.deferred = [] ∧
    (after (exec (.stepAbortNotice true) stepping)).seq.mixed = true ∧
    (after (exec (.stepAbortNotice true) stepping)).rd kSeqFault = 4 := by and_intros <;> decide +kernel
/-! ## The feed -/

/-- A feed message of a type for tile 0 in the session of net. -/
def feedMsg (typ seq step a : Nat) (body : List Byte) : List Byte :=
  [1, BitVec.ofNat 8 typ, if typ ≤ 3 then 1 else 0, 0] ++ leBytes 4 5 ++ leBytes 8 seq ++ leBytes 8 step ++ leBytes 4 a ++ leBytes 4 body.length ++ body ++ z 16
def line : List Byte := List.replicate 64 3
/-- The same message sealed under the session's K_FIN, as it comes. -/
def feedHead (typ seq step a n : Nat) : List Byte := (feedMsg typ seq step a (z n)).take 32
def feedSealed (typ seq step a : Nat) (b : List Byte) : List Byte :=
  feedHead typ seq step a b.length ++
    gcmSeal (sess.key 2) (sessNonce 2 (leAt (feedHead typ seq step a b.length) 8 8)) (feedHead typ seq step a b.length) b
def accept (m : List Byte) : Option (List Byte) := (net.feedAccept 1 zeros16 9 m false).1
theorem wit_FeedMessages_drop : net.ethUp 1 = true ∧ net.gated 4 = false ∧ accept (z 47) = none ∧
    net.session? (leAt (z 48) 4 4) = none ∧ accept (z 48) = none ∧ (net.feedAccept 1 zeros16 9 (feedMsg 1 11 0 0 line) true).1 = none ∧
    (after (exec (.feedSample 1 zeros16 9 (z 47) false) net)).rd (kFeedCount 0 1) = 1 ∧
    (after (exec (.indexEnd 1 zeros16 9 (z 48) true) net)).rd (kFeedCount 0 1) = 1 := by and_intros <;> decide +kernel
/-- What the message opens to and what R488 asks of it: SEQUENCE 11 is above the highest, 8 is below it and new; 10 is the
highest and 9 has been seen; a body of 1 byte is of no SAMPLE. -/
theorem wit_FeedMessages_accept : accept (feedSealed 1 11 0 0 line) = some (feedMsg 1 11 0 0 line) ∧
    accept (feedSealed 1 8 0 0 line) = some (feedMsg 1 8 0 0 line) ∧ accept (feedSealed 1 10 0 0 line) = none ∧
    accept (feedSealed 1 9 0 0 line) = none ∧ accept (feedSealed 1 11 0 0 [1]) = none ∧
    accept (feedSealed 2 11 0 0 (z 8)) = some (feedMsg 2 11 0 0 (z 8)) ∧ accept (feedSealed 3 11 0 0 (z 16)) = some (feedMsg 3 11 0 0 (z 16)) ∧
    accept (feedSealed 4 11 hbm0 0 [7]) = some (feedMsg 4 11 hbm0 0 [7]) ∧ accept (feedSealed 5 11 0 7 []) = some (feedMsg 5 11 0 7 []) := by
  have go : ∀ typ seq step a b, (feedHead typ seq step a b.length).length = 32 → 48 ≤ (feedSealed typ seq step a b).length →
      net.session? (leAt (feedSealed typ seq step a b) 4 4) = some (0, sess) →
      accept (feedSealed typ seq step a b) = _ := fun typ seq step a b hh hl hs =>
    State.feedAccept_opens (by decide) (by decide +kernel) (by decide +kernel) hl hs (Session.feedOpen_seal sess _ b hh)
  and_intros <;> (rw [go _ _ _ _ _ (by decide +kernel) (by decide +kernel) (by decide +kernel)]; decide +kernel)
/-- Two slots of 4 KiB at hbm0 for tile 0, of steps 0 and 1, which slot 0 has as given. -/
def slotted (x : FeedSlot) : State := (((net.wr (kFeed 0 0) hbm0).wr (kFeed 0 8) 4096).wr (kFeed 0 0xC) 2).wr (kFeed 0 0x20) 64 |>.setSlot 0 0 x
def filling : FeedSlot := { FeedSlot.init with state := 1 }
def exporting : State := { net with feed := { net.feed with exports := [⟨{ entryOf 0x0901 [] [] with session := 5, tag := 6 }, 0, 0, none⟩] } }
theorem wit_FeedMessages_act : (slotted filling).slotFor 0 0 = some 0 ∧
    ((slotted filling).feedTiles (feedMsg 1 11 0 0 line) fun s t => s.sampleTile t 0 0 line).bytes hbm0 64 = line ∧
    ((((slotted filling).feedTiles (feedMsg 2 11 0 0 (z 8)) fun s t => s.endTile t 0 0 0 none)).slot 0 0).state = 2 ∧
    ((((slotted filling).feedTiles (feedMsg 3 11 0 0 (z 16)) fun s t => s.endTile t 0 0 0 (some 0))).slot 0 0).code = 7 ∧
    regionOf hbm0 = .hbm ∧ (net.memWrite false hbm0 [7]).1 = .ok ∧ regionOf 0 ≠ .hbm ∧ regionOf 0 ≠ .studio ∧ regionOf 0 ≠ .granary ∧
    (net.memWrite false 0x160000000 [7]).1 ≠ .ok ∧ net.feed.exports = [] ∧
    exporting.feed.exports.find? (fun e => e.entry.tag = leAt (feedMsg 5 11 0 6 []) 24 4 && e.entry.session = leAt (feedMsg 5 11 0 6 []) 4 4) =
      some ⟨{ entryOf 0x0901 [] [] with session := 5, tag := 6 }, 0, 0, none⟩ := by and_intros <;> decide +kernel
theorem wit_FeedSlots : (slotted filling).slotFor 0 1 = some 1 ∧ (slotted filling).slotFor 0 2 = none ∧
    ((slotted filling).sampleTile 0 2 0 line).rd (kFeedCount 0 1) = 1 ∧ ((slotted filling).slot 0 0).state = 1 ∧
    smGet false (((slotted filling).sampleTile 0 0 4032 line).slot 0 0).covered 63 = true ∧ 4032 + 64 ≤ (slotted filling).slotBytes 0 ∧
    (((slotted { filling with state := 2 }).endTile 0 0 0 0 none).slot 0 0).code = 7 ∧
    (((slotted filling).endTile 0 0 0 0 (some 0)).slot 0 0).code = 7 ∧ firstGap filling.covered 0 1 = some 0 ∧
    (((slotted filling).endTile 0 0 64 0 none).slot 0 0).code = 1 ∧ firstGap filling.covered 0 0 = none ∧
    (((slotted filling).endTile 0 0 0 1 none).slot 0 0).code = 2 ∧ (((slotted filling).endTile 0 0 0 0 none).slot 0 0).state = 2 ∧
    (((slotted { filling with state := 2 }).endTile 0 0 0 0 (some 0)).slot 0 0).state = 3 := by and_intros <;> decide +kernel
def complete : State := (slotted { filling with state := 3 }).setSlot 0 1 { filling with state := 3 }
theorem wit_FeedSlots_rest : (slotted filling).feedSlots 0 = 2 ∧ ((slotted filling).slot 0 1).state ≠ 3 ∧
    gives (exec (.feedStatusTimer 0) complete) complete = true ∧ (∀ k, k < complete.feedSlots 0 → (complete.slot 0 k).state = 3) ∧
    (findRow tileRows 0x13040C).isSome = true ∧ gives (exec (.feedRegisterWrite 0 2 8) net) net = false ∧
    (after (exec (.feedRegisterWrite 0 2 8) net)).feedSlots 0 = 8 ∧ (after (exec (.feedRegisterWrite 0 2 1) net)).feedSlots 0 = 0 ∧
    gives (exec (.feedRegisterWrite 0 2 9) net) net = true ∧ gives (exec (.feedRegisterWrite 0 2 8) stepping) stepping = true ∧
    (∃ e ∈ exporting.feed.exports, e.entry.tag = 6 ∧ e.ended = none) ∧
    (after (exec (.exportCreditTimeout 6) exporting)).feed.exports = [] ∧
    (∀ e ∈ exporting.feed.exports, e.entry.tag = 7 → e.ended ≠ none) ∧
    gives (exec (.exportCreditTimeout 7) exporting) exporting = true := by and_intros <;> decide +kernel
/-! ## Fences -/

def msg (phase step : Nat) (digest : Nat) : BarrierMsg := ⟨phase, 2 ^ 15, step, 0, 0, digest⟩
/-- A module of a pod of two that waits with messages of its peer. -/
def barrier (m : SeqMode) (order : Nat) (l : List BarrierMsg) : State :=
  { withMode podOf2 m order with seq := { (withMode podOf2 m order).seq with came := l } }
theorem wit_StepBarriers_messages : (0x8000 : BitVec 20).toNat ≠ podOf2.reportNode ∧ nodeIn podOf2.judgeLen 0x8000 = true ∧
    (barrier .running 0 []).judgedPhase ≠ some 1 ∧ (after (exec (.fenceMessage 1 0x8000 0 0 0 0) (barrier .running 0 []))).seq.came = [msg 1 0 0] ∧
    (barrier .starting 0 []).judgedPhase = some 0 ∧
    (after (exec (.fenceMessage 0 0x8000 0 0 0 0) (barrier .starting 0 []))).seq.mode = .starting ∧
    (after (exec (.fenceMessage 0 0x8000 1 0 0 0) (barrier .starting 0 []))).rd kSeqFault = 128 ∧
    (barrier .fence 2 []).judgedPhase = some 1 := by and_intros <;> decide +kernel
/-- Every tile has issued END_STEP. -/
def ended : State := (List.range 4).foldl (fun s t => s.setTile t { s.tile t with phase := 5 }) stepping
/-- The heat window closes with this step. -/
def closing : State := { barrier .fence 2 [msg 1 0 0] with embm := { live.embm with window := some 65535 } }
theorem wit_StepBarriers_orders : (barrier .starting 0 [msg 0 0 0]).allCame 0 = true ∧ (barrier .starting 0 []).allCame 0 = false ∧
    (after (exec .startBarrierComplete (barrier .starting 0 [msg 0 0 0]))).seq.mode = .waitFeed ∧ ended.fenceReady = true ∧
    (after (exec .fenceBegin ended)).seq.fenceOrder = 2 ∧ (barrier .fence 2 [msg 1 0 0]).allCame 1 = true ∧
    (barrier .fence 2 [msg 1 0 0]).exchanges = false ∧
    (after (exec .arrivalBarrierComplete (barrier .fence 2 [msg 1 0 0]))).rd kSeqStep = 1 ∧
    closing.exchanges = true ∧ (after (exec .arrivalBarrierComplete closing)).seq.fenceOrder = 3 ∧ closing.quiet = false ∧ 1 < closing.modules ∧
    closing.rank = 0 ∧ (after (exec (.changeList 1 [] []) closing)).embm.lists.length = 1 ∧
    (after (exec (.changeList 1 [] []) (after (exec .arrivalBarrierComplete closing)))).rd kSeqStep = 1 ∧
    (barrier .fence 8 [msg 2 0 0]).allCame 2 = true ∧ (barrier .fence 8 [msg 2 0 0]).seq.deferred = [] ∧
    (after (exec .completionBarrierComplete (barrier .fence 8 [msg 2 0 0]))).seq.mode = .idle := by and_intros <;> decide +kernel
theorem wit_StepBarriers_counters : live.rd kSeqStepsLeft ≠ 2 ^ 48 - 1 ∧ (live.wr kSeqStepsLeft (2 ^ 48 - 1)).rd kSeqStepsLeft = 2 ^ 48 - 1 ∧
    ((live.wr kSeqStepsLeft (2 ^ 48 - 1)).order8.rd kSeqStepsLeft = 2 ^ 48 - 1) ∧ ((live.wr kSeqStepsLeft 1).order8.rd kSeqStepsLeft = 0) ∧
    (decidedStep 5 true).decided.apply = true ∧ (decidedStep 5 true).order8.rd (wideKey 0x110008) = 1 ∧
    (decidedStep 5 false).decided.apply = false ∧ (decidedStep 5 false).order8.rd kSkipCount = 1 ∧
    (live.wr kSeqStep (2 ^ 48 - 1)).order8.rd kSeqStep = 0 := by and_intros <;> decide +kernel
/-- A layout fence of a module alone, or of a pod of two; after its commit; and while a replaced module is rebuilt. -/
def fencing (b : List Byte) (l : List BarrierMsg) (s : State) : State :=
  { (s.wrf kLayoutStatus 17 1 1) with lay := { s.lay with change := some (false, b) }, seq := { s.seq with came := l } }
def pairFence (l : List BarrierMsg) : State := fencing (layout 2 1 []) l podOf2
theorem wit_LayoutFences_arrival : bit ((pairFence []).rd kLayoutStatus) 17 = true ∧ bit ((pairFence []).rd kLayoutStatus) 18 = false ∧
    (pairFence []).allCame 1 = false ∧ gives (exec (.layoutArrivalBarrier false) (pairFence [])) (pairFence []) = true ∧
    (after (exec (.layoutArrivalBarrier true) (pairFence []))).lay.change = none ∧
    (pairFence [msg 1 0 (changeDigest (layout 2 1 []))]).allCame 1 = true ∧
    (after (exec (.layoutArrivalBarrier false) (pairFence [msg 1 0 (changeDigest (layout 2 1 []))]))).gen = 1 ∧
    (pairFence [msg 1 0 1]).allCame 1 = true ∧ 1 ≠ changeDigest (layout 2 1 []) ∧
    (after (exec (.layoutArrivalBarrier false) (pairFence [msg 1 0 1]))).gen = 0 ∧
    bit (((fencing (layout 1 9 [0]) [] live).commitBegin (layout 1 9 [0])).rd kLayoutStatus) 18 = true := by and_intros <;> decide +kernel
def committed (l : List BarrierMsg) : State := { pairFence l with lay := ⟨none, 0, false, [], [], false⟩ }
def rebuilding (st17 : Nat) : State := ((fencing (layout 1 9 [0]) [] live).wrf kLayoutStatus 18 1 1).wrf kLayoutStatus 17 1 st17
/-- Every port is DISABLED. -/
def portsOff : State := (List.range 8).foldl (fun s p => (s.setLinkSt p 0).wrf (kLnk p 0) 0 1 0) live
/-- The change waits at order 2 for a COLLECTIVE message of generation 65535, which a port has lost or which lies in the inbox. -/
def oldMsg : State := { pairFence [msg 1 0 (changeDigest (layout 2 1 []))] with inbox := [⟨2 ^ 15, colClass, 0, leBytes 2 0xFFFF ++ z 80⟩] }
def atOrder4 (l : List BarrierMsg) (q : Option (Bool × List Byte)) : State :=
  { barrier .fence 4 l with lay := { live.lay with change := q } }
theorem wit_LayoutFences_orders : oldMsg.holdsOld = true ∧ oldMsg.inLayFence = true ∧ oldMsg.lay.waiting = false ∧
    (after (exec (.layoutArrivalBarrier false) oldMsg)).lay.waiting = true ∧
    (oldMsg.setWaiting true).lay.waiting = true ∧
    gives (exec (.layoutArrivalBarrier false) (oldMsg.setWaiting true)) (oldMsg.setWaiting true) = true ∧
    (oldMsg.setWaiting true).commitOn.lay.waiting = true ∧
    (({ oldMsg with inbox := [] } : State).setWaiting true).holdsOld = false ∧
    (({ oldMsg with inbox := [] } : State).setWaiting true).commitOn.gen = 1 ∧
    (atOrder4 [msg 1 0 (changeDigest (layout 2 1 []))] (some (false, layout 2 1 []))).ownDigest = changeDigest (layout 2 1 []) ∧
    changeDigest (layout 2 1 []) ≠ 0 ∧
    (atOrder4 [msg 1 0 (changeDigest (layout 2 1 []))] (some (false, layout 2 1 []))).order4.gen = 1 ∧
    bit ((atOrder4 [msg 1 0 0] (some (false, layout 2 1 []))).order4.rd kLayoutStatus) 19 = true ∧
    bit ((atOrder4 [msg 1 0 7] none).order4.rd kLayoutStatus) 19 = true ∧
    bit ((atOrder4 [msg 1 0 0] none).order4.rd kLayoutStatus) 19 = false ∧
    lyForce (layout 2 1 []) = false ∧ lyForce ((layout 2 1 []).set 10 1) = true := by and_intros <;> decide +kernel
theorem wit_LayoutFences_rest : (committed []).lay.change = none ∧ (committed [msg 2 0 0]).allCame 2 = true ∧ (committed []).allCame 2 = false ∧
    gives (exec (.layoutCompletionBarrier (.late true)) (committed [])) (committed []) = true ∧
    gives (exec (.layoutCompletionBarrier .inTime) (committed [])) (committed []) = true ∧
    bit ((after (exec (.layoutCompletionBarrier .inTime) (committed [msg 2 0 0]))).rd kLayoutStatus) 17 = false ∧
    bit ((after (exec (.layoutCompletionBarrier (.late false)) (committed []))).rd kLayoutStatus) 17 = false ∧ lyMoves (layout 2 1 []) = 0 ∧
    (∀ p, p < 8 → portsOff.linkSt p = 0 ∧ bit (portsOff.rd (kLnk p 0)) 0 = false) ∧ (portsOff.commitEnd (layout 2 1 [])).rd kLayout = 0x01010102 ∧
    lyModules (layout 2 1 []) ≠ portsOff.modules ∧ bit ((rebuilding 1).rd kLayoutStatus) 18 = true ∧ bit ((rebuilding 1).rd kLayoutStatus) 17 = true ∧
    (after (exec (.rebuildEnd 0 0 [] [(hbm0, .bytes [7])]) (rebuilding 1))).byte hbm0 = 7 ∧ bit ((rebuilding 0).rd kLayoutStatus) 17 = false ∧
    (after (exec (.rebuildEnd 0 0 [] [(hbm0, .stripeTorn)]) (rebuilding 1))).rd (wideKey 0x130214) = 2 ∧
    ((live.rebuildUnit hbm0 .doubleLoss).2.ueAt hbm0 4096).isSome = true ∧
    gives (exec (.rebuildEnd 0 0 [] []) live) live = true ∧
    (after (exec (.rebuildEnd 0 0 [] [(hbm0, .bytes [7])]) (rebuilding 0))).byte hbm0 = 7 := by and_intros <;> decide +kernel
/-! ## Embeddings -/

/-- Table 7's rows lie in HBM. -/
def emb : State := { table7 with hcp := live.hcp }
def inMsg (typ tag : Nat) (body : List Byte) : InMsg := ⟨2 ^ 15, typ, tag, body⟩
def withMsg (s : State) (m : InMsg) : State := { s with inbox := [m] }
def reqMsg (table n : Nat) : InMsg := inMsg 0x0401 5 (leBytes 2 table ++ [0, 0, 0, 0] ++ leBytes 2 n ++ leBytes 4 0 ++ z 4 ++ leBytes 8 3)
/-- A bag of tile 0 waits for two partials under tag 5; a PREFETCH under tag 6 for one or two messages. -/
def bag (mode wait : Nat) : EmbBag := ⟨5, 0, mode, false, hbm0 + 8192, 2, wait, 0, 0, 0, 0xFFFF, [], [(2 ^ 15, [0])], []⟩
def job (b : List EmbBag) (wait : Nat) : EmbJob := ⟨0, 7, 1, false, 0, b, 6, wait, none, 0⟩
def withJob (b : List EmbBag) (wait : Nat) (m : InMsg) : State :=
  withMsg ((emb.setEmbt 0 { EmbState.init with jobs := [job b wait] }).setTile 0 { TileSeq.init with inflight := [⟨0, 3, 0, 2, [], 1, [], none, false, none⟩] }) m
def partialMsg (tag : Nat) (plain : Bool) : InMsg :=
  inMsg 0x0402 tag (leBytes 4 1 ++ z 2 ++ leBytes 2 (if plain then 0xFFFF else 0) ++ z 8 ++ [0x80, 0x3F])
theorem wit_EmbeddingLookups_messages : emb.hubOn = true ∧ emb.tableOk 7 = true ∧ emb.tableOk 8 = false ∧ (reqMsg 7 1).body.length = 16 + 8 ∧
    ((withMsg emb (reqMsg 7 1)).takeMsg 0x0401).isSome = true ∧
    ((List.range 4).map fun t => ((after (exec .embRequest (withMsg emb (reqMsg 7 1)))).embt t).shares.length).sum = 1 ∧
    gives (exec .embRequest (withMsg emb (reqMsg 8 1))) emb = true ∧
    ((withJob [bag 0 2] 0 (partialMsg 5 true)).bagOf 5).isSome = true ∧
    ((after (exec .pooledResponse (withJob [bag 0 2] 0 (partialMsg 5 true)))).embt 0).jobs.map (fun j => j.bags.map (·.wait)) = [[1]] ∧
    (withJob [] 2 (partialMsg 6 true)).bagOf 6 = none ∧ ((withJob [] 2 (partialMsg 6 true)).jobOf 6).isSome = true ∧
    ((after (exec .pooledResponse (withJob [] 2 (partialMsg 6 true)))).embt 0).jobs.map (·.wait) = [1] ∧
    ((after (exec .pooledResponse (withJob [] 1 (partialMsg 6 true)))).embt 0).jobs = [] ∧
    (withJob [] 2 (partialMsg 7 true)).jobOf 7 = none ∧
    ((withJob [bag 3 1] 0 (inMsg 0x0403 5 (z 16))).takeMsg 0x0403).isSome = true ∧
    ((after (exec .rowsResponse (withJob [bag 3 1] 0 (inMsg 0x0403 5 (z 16))))).inbox = []) ∧
    ((after (exec .rowsResponse (withJob [] 1 (inMsg 0x0403 5 (z 16))))).inbox = []) ∧
    (after (exec .pooledResponse ((withJob [bag 0 1] 0 (partialMsg 5 true)).wr (kHist 0 0) (1 + 2 ^ 32)))).rd (kHist 0 0x20) = 1 := by
  decide +kernel
/-- A share of tile 0 that ended, of this module or of another. -/
def share (mode : Nat) (res : RowRes) (phase : PoolPhase) (node : Nat) : EmbShare := ⟨0, node, 5, 7, mode, [(0, 0, res)], phase, 0, 0⟩
def withShare (sh : EmbShare) : State := emb.setEmbt 0 { EmbState.init with shares := [sh] }
/-- The same while a FENCE of the module is pending; no message has come. -/
def embHeld (s : State) : State := s.setHcp fun _ => fenced0.hcp
theorem wit_EmbeddingLookups_held : emb.takeMsg 0x0401 = none ∧ gives (exec .embRequest emb) emb = true ∧
    emb.takeMsg 0x0402 = none ∧ gives (exec .pooledResponse emb) emb = true ∧ emb.takeMsg 0x0403 = none ∧
    gives (exec .rowsResponse emb) emb = true ∧ (embHeld emb).fencedAll = true ∧
    gives (exec .embRequest (embHeld (withMsg emb (reqMsg 7 1)))) (embHeld (withMsg emb (reqMsg 7 1))) = true ∧
    (embHeld (withJob [bag 0 2] 0 (partialMsg 5 true))).bagHeld 5 = true ∧ (withJob [bag 0 2] 0 (partialMsg 5 true)).bagHeld 5 = false ∧
    gives (exec .pooledResponse (embHeld (withJob [bag 0 2] 0 (partialMsg 5 true)))) (embHeld (withJob [bag 0 2] 0 (partialMsg 5 true))) = true ∧
    gives (exec .rowsResponse (embHeld (withJob [bag 3 1] 0 (inMsg 0x0403 5 (z 16))))) (embHeld (withJob [bag 3 1] 0 (inMsg 0x0403 5 (z 16)))) = true ∧
    gives (exec (.poolShareComplete 0) emb) emb = true := by and_intros <;> decide +kernel
theorem wit_EmbeddingLookups_shares : ((withShare (share 0 .bad (.ended none) 0)).embt 0).shares.find? EmbShare.ended = some (share 0 .bad (.ended none) 0) ∧
    (share 0 .bad (.ended none) 0).node = emb.node ∧ (share 0 .bad (.ended none) (2 ^ 15)).node ≠ emb.node ∧
    ((after (exec (.poolShareComplete 0) (withShare (share 0 .bad (.ended none) 0)))).embt 0).shares = [] ∧
    ((after (exec (.poolShareComplete 0) (withShare (share 0 .bad (.ended none) (2 ^ 15))))).embt 0).shares = [] ∧
    ((after (exec (.poolShareComplete 0) (withShare (share 0 .bad (.ended (some true)) 0)))).embt 0).shares = [] ∧
    ((after (exec (.poolShareComplete 0) (withShare (share 0 .bad (.ended (some true)) (2 ^ 15))))).embt 0).shares = [] := by and_intros <;> decide +kernel
def reading (mode : Nat) : State := withShare (share mode .wait .gather 0)
theorem wit_EmbeddingLookups_reads : emb.fabOn 0 = true ∧ emb.waiters 7 0 false + emb.waiters 7 0 true = 0 ∧
    gives (exec (.rowReadDone 0 7 0 .good) emb) emb = true ∧ gives (exec (.rowReadDone 1 7 0 .good) (reading 3)) (reading 3) = true ∧
    (embHeld (withShare (share 0 .bad (.ended none) 0))).fencedTile 0 = true ∧
    gives (exec (.poolShareComplete 0) (embHeld (withShare (share 0 .bad (.ended none) 0)))) (embHeld (withShare (share 0 .bad (.ended none) 0))) = true ∧ emb.serving (emb.table 7) 0 = 0 ∧ (reading 3).waiters 7 0 false = 1 ∧ (reading 3).waiters 7 0 true = 0 ∧
    (reading 4).waiters 7 0 true = 1 ∧ ((reading 3).rowSource 0 7 0).2 = false ∧ emb.accessCode ((reading 3).rowSource 0 7 0).1 (tbRowBytes (emb.table 7)) = .ok ∧
    ((reading 3).rowSource 0 7 0).1 = hbm0 ∧ emb.ueAt hbm0 8 = none ∧
    ((after (exec (.rowReadDone 0 7 0 .good) (reading 3))).waiters 7 0 false = 0) ∧ emb.stageFind 0 1 7 0 = none ∧
    ((after (exec (.rowReadDone 0 7 0 .good) (reading 4))).waiters 7 0 true = 0) ∧
    (after (exec (.rowReadDone 0 7 0 .failed) (reading 3))).isPoisoned 7 0 = true ∧
    (after (exec (.rowReadDone 0 7 0 .failed) (reading 3))).rd (kEmbCount 0 12) = 1 := by and_intros <;> decide +kernel
/-- Table 7 has its rows at a home outside memory. -/
def lostTable : State := (reading 3).setTable 7 (tableDesc 0 0x9000000000 4)
theorem wit_EmbeddingLookups_lost : lostTable.accessCode (lostTable.rowSource 0 7 0).1 (tbRowBytes (lostTable.table 7)) ≠ .ok ∧
    (after (exec (.rowReadDone 0 7 0 .good) lostTable)).rd (kEmbCount 0 4) = 1 := by and_intros <;> decide +kernel
/-- Tile 0 has staging halves of 2 KiB. -/
def staging : State := (((reading 4).wr (tileBase 0 + 0x120028) (hbm0 + 2 ^ 24)).wr (tileBase 0 + 0x120030) 4096).wr (tileBase 0 + 0x120038) (hbm0 + 2 ^ 25)
theorem wit_EmbeddingLookups_staged : staging.waiters 7 0 true = 1 ∧ staging.waiters 7 0 false = 0 ∧
    (staging.stageRow 0 1 7 0 (z 8)).stageFind 0 1 7 0 = some (.inl (hbm0 + 2 ^ 24 + 2048)) ∧
    (after (exec (.rowReadDone 0 7 0 .good) staging)).stageFind 0 1 7 0 = some (.inl (hbm0 + 2 ^ 24 + 2048)) := by and_intros <;> decide +kernel
/-- Tile 0 has a contribution of its own, or a row write whose retry is as given. -/
def contrib : State := { emb with seq := { emb.seq with mode := .running } }.setEmbt 0 { EmbState.init with contribs := [⟨6, 7, 0, []⟩] }
def remote (step : Nat) : RemoteContrib := ⟨2 ^ 15, 9, step, 7, 0, []⟩
def rowWrite (retried : Bool) : RowWrite := ⟨0, 0, 7, 0, hbm0, [7, 7], retried⟩
def writingRow (retried : Bool) : State :=
  (emb.setEmbt 0 { EmbState.init with writes := [rowWrite retried] }).setTile 0 { TileSeq.init with inflight := [⟨0, 5, 0, 2, [], 1, [], none, false, none⟩] }
theorem wit_EmbeddingGradients_rows : contrib.fabOn 0 = true ∧ (contrib.embt 0).contribs = [⟨6, 7, 0, []⟩] ∧ contrib.quiet = false ∧
    ((after (exec (.contribution 0 none) contrib)).embt 0).contribs = [] ∧ (withMode contrib .idle 0).quiet = true ∧
    ((after (exec (.contribution 0 none) (withMode contrib .idle 0))).embt 0).coal = [] ∧ contrib.tableOk 7 = true ∧
    contrib.owner (contrib.table 7) 0 = contrib.rank ∧ contrib.serving (contrib.table 7) 0 = 0 ∧
    (after (exec (.contribution 0 (some (remote 0))) contrib)).out = [.contributionDone (2 ^ 15) 9] ∧
    (after (exec (.contribution 0 (some (remote 1))) contrib)).out = [.contributionDone (2 ^ 15) 9] ∧
    (contrib.memWrite true hbm0 [7, 7]).1 = .ok ∧ (after (exec (.rowWriteDone 0 false) (writingRow false))).byte hbm0 = 7 ∧
    ((after (exec (.rowWriteDone 0 true) (writingRow false))).embt 0).writes = [rowWrite true] ∧
    (after (exec (.rowWriteDone 0 true) (writingRow true))).isPoisoned 7 0 = true := by and_intros <;> decide +kernel
/-- Row 0 of table 7 is hot. -/
def hot : State := { emb with embm := { emb.embm with dir := [(0, dirKey 7 0 + 1)] } }
/-- Areas to clear, and a sealed segment. -/
def clearing : State := emb.setGrn 0 { GranState.init with clearing := [0, 4] }
def sealedSeg : State := emb.setGrn 2 { GranState.init with sealedSegs := [⟨0, 0, 0, 0, false⟩] }
/-- Order 6 of a fence, with a refresh of row 0 awaited; and what is earlier and later. -/
def atOrder (m : SeqMode) (n : Nat) : State :=
  let s := withMode hot m n
  { s with embm := { s.embm with awaited := [(7, 0)] } }
theorem wit_EmbeddingGradients_refresh : hot.hotFind 7 0 = some 0 ∧ hot.hotFind 7 1 = none ∧
    gives (exec (.commonsRefresh 7 0 [3]) (atOrder .running 0)) (atOrder .running 0) = true ∧
    gives (exec (.commonsRefresh 7 0 [3]) (atOrder .fence 7)) (atOrder .fence 7) = true ∧
    (after (exec (.commonsRefresh 7 0 [3]) (atOrder .fence 5))).embm.early = [(7, 0, [3])] ∧
    gives (exec (.commonsRefresh 7 1 [3]) (atOrder .fence 6)) (atOrder .fence 6) = true ∧
    (after (exec (.commonsRefresh 7 0 [3]) (atOrder .fence 6))).embm.awaited = [] ∧
    (after (exec (.commonsRefresh 7 0 [3]) (atOrder .fence 6))).byte (hot.commonsSlot 1 0 0) = 3 ∧
    gives (exec (.contribution 0 none) (embHeld contrib)) (embHeld contrib) = true ∧ (emb.embt 0).contribs = [] ∧
    gives (exec (.contribution 0 none) emb) emb = true ∧ (emb.embt 0).writes = [] ∧ gives (exec (.rowWriteDone 0 false) emb) emb = true ∧
    (emb.grn 0).clearing = [] ∧ gives (exec (.journalAreaCleared 0 5) emb) emb = true := by and_intros <;> decide +kernel
theorem wit_EmbeddingGradients_rest : ((after (exec (.journalAreaCleared 0 5) clearing)).grn 0).clearing = [4] ∧
    (after (exec (.journalAreaCleared 0 5) clearing)).rd (kGrnCount 0 8) = 5 ∧ emb.anySealed = false ∧
    (after (exec (.delayWrite 0 8) emb)).rdf kGrnCtrl 0 4 = 8 ∧ (after (exec (.delayWrite 0 1) emb)).rdf kGrnCtrl 0 4 = 1 ∧
    (after (exec (.delayWrite 0 9) emb)).rd (tileBase 0 + 0x120024) = 4 ∧ (after (exec (.delayWrite 0 16) emb)).rd (tileBase 0 + 0x120024) = 4 ∧
    sealedSeg.anySealed = true ∧ (after (exec (.delayWrite 0 8) sealedSeg)).rd (tileBase 0 + 0x120024) = 4 := by and_intros <;> decide +kernel
/-! ## The Quantizers -/

/-- A job of 1 row of 32 BF16 elements at hbm0 with a ticket and a mode. -/
def qjob (ticket mode dst : Nat) : List Byte :=
  leBytes 2 0 ++ leBytes 2 ticket ++ [1, BitVec.ofNat 8 dst, 10, BitVec.ofNat 8 mode] ++ leBytes 4 1 ++ leBytes 4 32 ++ leBytes 8 hbm0 ++ leBytes 4 64 ++
    leBytes 4 64 ++ leBytes 8 (hbm0 + 4096) ++ leBytes 8 (hbm0 + 8192) ++ z 16
def jobAt : Nat := hbm0 + 16384
def quanting (addr : Nat) (j : List Byte) (tickets : SMap Nat) : State :=
  ((emb.setQzt 0 { QzState.init with queue := [(0, addr, false)], tickets := tickets }).setTile 0 { TileSeq.init with
    inflight := [⟨0, 10, 0, 2, [], 1, [], none, false, none⟩] }).poke jobAt j
theorem wit_Quantizer_start : emb.fabOn 0 = true ∧ ((quanting jobAt [] []).qzt 0).run = none ∧ (jobAt + 4) % 8 ≠ 0 ∧
    ((after (exec (.quantJobStart 0) (quanting (jobAt + 4) [] []))).qzt 0).queue = [] ∧ (emb.gRead 0x9000000000 64).1 ≠ .ok ∧
    partsOf (after (exec (.quantJobStart 0) (quanting 0x9000000000 [] []))) = [(0, [], some false)] ∧
    (after (exec (.quantJobStart 0) (quanting jobAt (qjob 5 2 3) [(5, 1)]))).rd (kQz 0 0x18) = 2 ∧ emb.jobOk (qjob 0 2 2) = false ∧
    (after (exec (.quantJobStart 0) (quanting jobAt (qjob 0 2 2) []))).rd (kQz 0 0x18) = 1 ∧ emb.jobOk (qjob 0 2 3) = true ∧
    ((after (exec (.quantJobStart 0) (quanting jobAt (qjob 0 2 3) []))).qzt 0).run = some ⟨0, false, qjob 0 2 3, false, false, false⟩ ∧
    smGet 0 ((after (exec (.quantJobStart 0) (quanting jobAt (qjob 5 2 3) []))).qzt 0).tickets 5 = 1 ∧ emb.wantsCal (qjob 0 1 3) = true ∧
    emb.calOf 0 = none ∧ (after (exec (.quantJobStart 0) (quanting jobAt (qjob 0 1 3) []))).rd (kQz 0 0x38) = 1 := by and_intros <;> decide +kernel
/-- A run of a job of 64.0 and zeros; its tensor's calibrated magnitude is 2 to the −30. -/
def converting (j : List Byte) (cal recon : Bool) : State :=
  let s := ((quanting jobAt [] []).poke hbm0 [0x80, 0x42]).setQzt 0 { QzState.init with run := some ⟨0, false, j, cal, recon, false⟩ }
  { s with qzm := { s.qzm with cal := [(0, 2 ^ 32 + 97 * 2 ^ 23)] } }
def lost (j : List Byte) (recon : Bool) : State := (converting j false recon).markUe hbm0
def conv (s : State) : Bool := isOk (s.qzConvert (qjob 0 2 3) none none)
/-- A sampled job whose traced chain has not come. -/
def sampled : State := (converting (qjob 5 2 3) false false).setSample 0 (some ⟨5, qjob 5 2 3, none, false, hbm0 + 2 ^ 20, 4096⟩)
def quantHeld : State := (quanting jobAt (qjob 5 2 3) []).setHcp fun _ => fenced0.hcp
theorem wit_Quantizer_idle : quantHeld.fencedTile 0 = true ∧ gives (exec (.quantJobStart 0) quantHeld) quantHeld = true ∧
    (quanting jobAt (qjob 5 2 3) []).fencedTile 0 = false ∧ (emb.qzt 0).queue = [] ∧ gives (exec (.quantJobStart 0) emb) emb = true ∧
    gives (exec (.quantConversionEnd 0) (converting (qjob 0 2 3) false true)) (converting (qjob 0 2 3) false true) = true ∧
    gives (exec (.quantReconversionEnd 0) (converting (qjob 0 2 3) false false)) (converting (qjob 0 2 3) false false) = true ∧
    jobTicket (qjob 5 2 3) = 5 ∧ isOk (sampled.qzConvert (qjob 5 2 3) none (some (hbm0 + 2 ^ 20))) = true := by and_intros <;> decide +kernel
theorem wit_Quantizer_ends : conv (converting (qjob 0 2 3) false false) = true ∧ conv (lost (qjob 0 2 3) false) = false ∧
    ((after (exec (.quantConversionEnd 0) (lost (qjob 0 2 3) false))).qzt 0).run = none ∧
    ((after (exec (.quantConversionEnd 0) (converting (qjob 0 1 3) true false))).qzt 0).run.map (fun r => (r.recon, r.descDone)) = some (true, false) ∧
    ((after (exec (.quantConversionEnd 0) (converting (qjob 5 1 3) true false))).qzt 0).run.map (fun r => (r.recon, r.descDone)) = some (true, true) ∧
    ((after (exec (.quantReconversionEnd 0) (converting (qjob 5 1 3) true true))).qzt 0).notices = [(5, true)] ∧
    ((after (exec (.quantReconversionEnd 0) (lost (qjob 5 1 3) true))).qzt 0).run = none := by and_intros <;> decide +kernel
/-- A sample's copy has run, of a traced chain of core 0 or of one that is gone; or its recompute. -/
def copyOf : TraceCopy := ⟨0, 0, 9, true, [], [], [], [], [], 3⟩
def sampling (recomputing : Bool) (chains : List MeChain) : State :=
  (live.setMe 0 { MeState.init with chains := chains, entries := [(0, ⟨1, [], 0, 0, none, 0⟩)], tail := 1 }).setSample 0 (some ⟨5, qjob 5 2 3, some copyOf, recomputing, 0, 0⟩)
def traced : MeChain := { chainAt .held [mmaTd 2 0] with traced := true }
theorem wit_Quantizer_traces : ((sampling false []).qzt 0).sample = some ⟨5, qjob 5 2 3, some copyOf, false, 0, 0⟩ ∧
    (((after (exec (.traceCopyEnd 0) (sampling false []))).qzt 0).sample.map (·.recomputing)) = some true ∧
    ((sampling false [traced]).me 0).chains.find? (fun ch => ch.id = 0 && ch.traced) = some traced ∧
    ((after (exec (.traceCopyEnd 0) (sampling false [traced]))).me 0).entry 0 = ⟨3, [3, 4], 9, fld traced.fmt 16 5, none, 0⟩ ∧
    (sampling true []).traceBin ⟨5, qjob 5 2 3, some copyOf, true, 0, 0⟩ copyOf < 32 ∧
    ((after (exec (.traceRecomputeEnd 0) (sampling true []))).qzt 0).sample = none ∧
    (after (exec (.traceRecomputeEnd 0) (sampling true []))).rd (kTrace 0 0) = 1 := by and_intros <;> decide +kernel
/-- The same with outputs 0 and 1 where the recompute gives 0: bins 0 and 31. -/
def outs (l : List Nat) : State := (sampling true []).setSample 0 (some ⟨5, qjob 5 2 3, some { copyOf with out := l }, true, 0, 0⟩)
theorem wit_Quantizer_alarms : (outs [0]).traceBin ⟨5, qjob 5 2 3, some { copyOf with out := [0] }, true, 0, 0⟩ { copyOf with out := [0] } = 0 ∧
    (outs [1]).traceBin ⟨5, qjob 5 2 3, some { copyOf with out := [1] }, true, 0, 0⟩ { copyOf with out := [1] } = 31 ∧
    max 1 (fld live.qzm.trCtrl 16 5) = 1 ∧ (after (exec (.traceRecomputeEnd 0) (outs [0]))).erec.queue = [] ∧
    (after (exec (.traceRecomputeEnd 0) (outs [1]))).erec.queue.map (·.code) = [0x0703] := by and_intros <;> decide +kernel
/-- Scales of R214: of zeros; of a magnitude of 1.0 and of the greatest FP32 number. -/
theorem wit_GroupScales : scaleCode true (live.fmt 3) 0 0 = 0x7F ∧ scaleCode false (live.fmt 3) 0 0 = 0x38 ∧
    1 ≤ scaleCode false (live.fmt 3) 1 0 ∧ scaleCode false (live.fmt 3) 1 0 < 0x7E ∧ scaleCode false (live.fmt 3) 1 127 = 0x7E ∧
    scaleCode true (live.fmt 3) 1 (-149) ≤ 254 := by and_intros <;> decide +kernel
/-! ## The Update Engines -/

/-- An UPDATE of tile 0 with two blocks, with no torn slot or with sixteen. -/
def updJob : UeJob := ⟨0, 5, hbm0, hbm0 + 2 ^ 20, 2, 0, false⟩
def updating2 (slots : List (Nat × UeSlot)) : State :=
  (stepping.setUpt 0 ⟨[updJob], slots⟩).setTile 0 { TileSeq.init with inflight := [⟨0, 11, 0, 2, [], 1, [], none, false, none⟩] }
def sixteen : List (Nat × UeSlot) := (List.range 16).map fun i => (i, tornSlot false)
theorem wit_UpdateBlocks_stage : (updating2 []).fabOn 0 = true ∧ ((updating2 []).upt 0).jobs.find? (fun j => j.next < j.count) = some updJob ∧
    (List.range 16).find? (fun i => (((updating2 []).upt 0).slot i).isNone) = some 0 ∧
    ((after (exec (.blockStageStart 0) (updating2 []))).upt 0).jobs.map (·.next) = [1] ∧
    (((updating2 sixteen).upt 0).slots.filter fun e => e.2.phase = .torn).length = 16 ∧
    (after (exec (.blockStageStart 0) (updating2 sixteen))).rd (kUe 0 0x20) = 8 := by and_intros <;> decide +kernel
/-- A block in slot 15 whose record has a tag, for recipe 5 (which has no operations), or which commits the writes. -/
def inSlot (tag : Nat) (recBytes : Nat) : State :=
  ((updating2 [(15, { tornSlot false with phase := .reading, recipe := 5, reg := 0 })]).poke hbm0 (leBytes 8 tag)).wr (kRecipe 5 2) recBytes
def staged (i : Instr) (tag : Nat) : State := after (exec i ((inSlot tag 8).wr (wideKey 0x110000) 1))
theorem wit_UpdateBlocks_tags : ((inSlot 0 8).upt 0).slot 15 = some { tornSlot false with phase := .reading, recipe := 5, reg := 0 } ∧
    ((inSlot (tagWord 0 3 0 5) 8).memRead hbm0 ((inSlot 0 8).recBytes 5)).2.1 = leBytes 8 (tagWord 0 3 0 5) ∧ (inSlot 0 8).recBytes 5 = 8 ∧
    (staged (.blockStaged 0 15) (tagWord 0 3 0 5)).rd (kUe 0 0x20) = 2 ∧ (staged (.blockStaged 0 15) (tagWord 0 1 0 4)).rd (kUe 0 0x20) = 4 ∧
    (staged (.blockStaged 0 15) (tagWord 0 1 0 5)).rd (kUe 0 0x40) = 1 ∧ tagState (tagWord 0 0 0 5) = 0 ∧ stepping.fencedTile 0 = false ∧ (stepping.upt 0).jobs = [] ∧
    gives (exec (.blockStageStart 0) stepping) stepping = true ∧ tagState (tagWord 0 2 0 5) = 2 ∧
    (staged (.blockStaged 0 15) (tagWord 0 2 0 5)).rd (kUe 0 0x20) = 2 ∧
    (((staged (.blockStaged 0 15) (tagWord 0 2 0 5)).upt 0).slot 15).map (·.phase) = some .torn ∧
    ((((inSlot 0 8).markUe hbm0).memRead hbm0 8).1 ≠ .ok) ∧ (((inSlot 0 8).markUe (hbm0 + 2 ^ 20)).memRead (hbm0 + 2 ^ 20) 4096).1 ≠ .ok ∧
    ((after (exec (.blockStaged 0 15) ((inSlot 0 8).markUe hbm0))).upt 0).slots = [] ∧
    ((after (exec (.blockStaged 0 15) ((inSlot 0 8).markUe (hbm0 + 2 ^ 20)))).upt 0).slots = [] ∧
    ((inSlot 0 8).upt 0).jobs.map (·.bad) = [false] ∧
    (((staged (.blockStaged 0 15) (tagWord 7 0 0 5)).upt 0).slot 15).map (fun x => (x.phase, x.writes.map (·.1))) = some (.committing, [0, 64, 0]) := by and_intros <;> decide +kernel
def writing (retried : Bool) (l : List (Nat × List Byte)) : State :=
  updating2 [(15, { tornSlot false with phase := .committing, retried := retried, writes := l })]
theorem wit_UpdateBlocks_commit : (((writing false [(0, [1]), (64, [2])]).upt 0).slot 15).map (·.phase) = some .committing ∧
    ((stepping.memWriteBare hbm0 [1]).1 = .ok) ∧
    (((after (exec (.blockCommitWriteDone 0 15 .done true) (writing true [(0, [1]), (64, [2])]))).upt 0).slot 15).map (fun x => (x.writes, x.retried)) =
      some ([(64, [2])], false) ∧
    (after (exec (.blockCommitWriteDone 0 15 .done true) (writing false [(0, [1])]))).rd (kUe 0 0x28) = 1 ∧
    (((after (exec (.blockCommitWriteDone 0 15 .error true) (writing false [(0, [1])]))).upt 0).slot 15).map (·.retried) = some true ∧
    (((after (exec (.blockCommitWriteDone 0 15 .error true) (writing true [(0, [1])]))).upt 0).slot 15).map (·.phase) = some .torn ∧
    (((after (exec (.blockCommitWriteDone 0 15 (.stagedUe true) false) (writing false [(64, [1]), (0, [1])]))).upt 0).slot 15).map (·.noUndo) = some true ∧
    gives (exec (.blockCommitWriteDone 0 15 (.stagedUe true) false) (writing false [(0, [1])])) (writing false [(0, [1])]) = true := by and_intros <;> decide +kernel
/-! ## Links -/

/-- Port 6 in a state of its link; a block of a payload. -/
def linked (st : Nat) : State := live.setLinkSt 6 st
def bad (b : RxBlock) (crc tag : Bool) : RxBlock := { b with crcOk := crc, tagOk := tag }
/-- A DATA payload of one whole message of 2 bytes. -/
def oneSeg : List Byte := leBytes 4 (2 + 2 ^ 13 + 2 ^ 14) ++ [8, 9] ++ z 30
def twice : State := (linked 4).setPort 6 { PortState.init with authSeq := [0] }
def ofKind (k : Byte) (b : RxBlock) : RxBlock := { b with kind := k }
/-- Port 6 UP with COORD_OK. -/
def coordUp : State := (linked 4).wrf (kLnkStatus 6) 8 1 1
theorem wit_LinkBlocks_receive : live.portOn 6 = true ∧ (linked 4).linkSt 6 = 4 ∧ (after (exec (.dataBlock 6 (bad (block oneSeg) false true)) (linked 4))).rd (kLnkCount 6 2) = 1 ∧
    (after (exec (.dataBlock 6 { bad (block oneSeg) false true with uncorr := 3 }) (linked 4))).rd (kLnkCount 6 5) = 3 ∧
    ((after (exec (.dataBlock 6 (bad (block oneSeg) false true)) (linked 4))).port 6).nak = true ∧
    (after (exec (.idleBlock 6 (bad (block []) false true)) (linked 4))).rd (kLnkCount 6 2) = 1 ∧
    ((after (exec (.idleBlock 6 (ofKind 0 (block []))) (linked 4))).port 6) = PortState.init ∧
    gives (exec (.idleBlock 6 (block [])) (linked 4)) (linked 4) = true ∧
    ((after (exec (.dataBlock 6 (ofKind 3 (block oneSeg))) (linked 4))).port 6).nak = true ∧
    gives (exec (.dataBlock 6 (ofKind 2 (block oneSeg))) (linked 4)) (linked 4) = true ∧
    ((after (exec (.dataBlock 6 (bad (block oneSeg) true false)) (linked 4))).port 6).authSeq = [0] ∧ (block oneSeg).seq.toNat ∈ (twice.port 6).authSeq ∧
    (block oneSeg).seq.toNat ∉ ((linked 4).port 6).authSeq ∧ (after (exec (.dataBlock 6 (bad (block oneSeg) true false)) twice)).linkSt 6 ≠ 4 := by and_intros <;> decide +kernel
/-- The same after the peer has re-sent too often: its header's NAK takes the link down. -/
def refused : RxBlock := { block oneSeg with nak := true }
theorem wit_LinkBlocks_deliver : coordUp.linkSt 6 = 4 ∧ (coordUp.takeHeader 6 (block oneSeg)).linkSt 6 = 4 ∧ ((linked 4).takeHeader 6 (block oneSeg)).coordOk 6 = false ∧
    ((after (exec (.dataBlock 6 (block oneSeg)) (linked 4))).port 6).nak = true ∧ (coordUp.takeHeader 6 (block oneSeg)).coordOk 6 = true ∧
    ((after (exec (.dataBlock 6 { block oneSeg with seq := 1 }) coordUp)).port 6).rxSeq = 0 ∧ ((after (exec (.dataBlock 6 (block oneSeg)) coordUp)).port 6).rxSeq = 1 ∧
    takeSegments 0 121 oneSeg [] [] = ([], [[8, 9]]) ∧ smGet 0 ((after (exec (.dataBlock 6 (block oneSeg)) coordUp)).port 6).held 0 = 1 ∧
    (after (exec (.dataBlock 6 (block oneSeg)) coordUp)).net.assembled = [(96, 1, [8, 9])] := by and_intros <;> decide +kernel
def txBlock (seq resent : Nat) : TxBlock := ⟨seq, 0, [1], resent⟩
def unacked (n : Nat) : State := (linked 4).setPort 6 { PortState.init with retry := [txBlock 65535 n, txBlock 0 n], nak := true }
theorem wit_LinkBlocks_timers : ((unacked 0).port 6).nak = true ∧ (after (exec (.nakTimer 6) (unacked 0))).out.length = 1 ∧
    ((linked 4).port 6).nak = false ∧ ((linked 4).port 6).retry = [] ∧
    gives (exec (.nakTimer 6) (linked 4)) (linked 4) = true ∧ gives (exec (.replayTimeout 6) (linked 4)) (linked 4) = true ∧
    0 < max 1 (live.rdf (netKey 0x24) 16 8) ∧ serialLater 16 0 65535 = true ∧
    ((after (exec (.replayTimeout 6) (unacked 0))).port 6).retry.map (·.resent) = [1, 1] ∧ max 1 (live.rdf (netKey 0x24) 16 8) ≤ 255 ∧
    (after (exec (.replayTimeout 6) (unacked 255))).linkSt 6 ≠ 4 ∧ (after (exec (.dataBlock 6 refused) (unacked 255))).linkSt 6 ≠ 4 ∧
    ((unacked 255).takeHeader 6 refused).linkSt 6 ≠ 4 := by and_intros <;> decide +kernel
/-- Port 6's pair is lit and its link clock is not INT; a port in a step of its training. -/
def litPair : State := ((((linked 1).setLampSt 6 4).setLampSt 7 4).setLevel 6 1).setLevel 7 1
def inTraining (step locked pass : Nat) : State :=
  (linked 2).setPort 6 { PortState.init with step := step, locked := locked, txPass := pass }
/-- IDENT and marker payloads from the peer's port 7 for lane 5. -/
def ident (port lane : Nat) : List Byte := [0, BitVec.ofNat 8 port, BitVec.ofNat 8 lane, 0] ++ z 8
def marker (lane v : Nat) : List Byte := [0, BitVec.ofNat 8 lane, 0, BitVec.ofNat 8 v] ++ z 8
theorem wit_LinkTraining_steps : litPair.linkSt 6 = 1 ∧ litPair.portOff 6 = false ∧ litPair.pairLit 3 = true ∧ bit (litPair.rd kClkDomains) 16 = false ∧
    (after (exec (.trainingStart 6) litPair)).linkSt 6 = 2 ∧ (after (exec (.trainingStart 6) litPair)).out.length = 18 ∧
    ((after (exec (.trainingStart 6) (litPair.setPort 6 { PortState.init with dark := true }))).port 6).dark = true ∧
    (after (exec (.trainingStart 6) (litPair.setPort 6 { PortState.init with dark := true }))).out = [] ∧
    gives (exec (.trainingStart 6) (linked 1)) (linked 1) = true ∧ (linked 1).pairLit 3 = false ∧ (0x20 : BitVec 18) ≠ 0 ∧
    ((inTraining 1 0 0).port 6).step = 1 ∧ ((after (exec (.laneLock 6 0x20) (inTraining 1 0 0))).port 6).step = 2 ∧
    leAt (ident 6 5) 1 1 ≠ Nat.xor 6 1 ∧ (after (exec (.identBlock 6 (some 5) (block (ident 6 5))) (inTraining 2 0x20 0))).linkSt 6 ≠ 2 ∧
    leAt (ident 7 5) 1 1 = Nat.xor 6 1 ∧ ((after (exec (.identBlock 6 (some 5) (block (ident 7 5))) (inTraining 2 0x20 0))).port 6).step = 3 ∧
    (after (exec (.identBlock 6 (some 5) (block (ident 7 5))) (inTraining 2 0x20 0))).out.length = 1 ∧
    ((after (exec (.identBlock 6 (some 5) (block (ident 7 5))) (inTraining 2 0x21 0))).port 6).step = 2 ∧
    gives (exec (.trainMarker 6 (block (marker 17 0))) (inTraining 2 0 0)) (inTraining 2 0 0) = true ∧
    ((after (exec (.trainMarker 6 (block (marker 17 1))) (inTraining 2 0 0))).port 6).txPass = 2 ^ 17 ∧
    ((after (exec (.trainMarker 6 (block (marker 17 2))) (inTraining 2 0 (2 ^ 17)))).port 6).txPass = 0 := by and_intros <;> decide +kernel
/-- A sweep in which n lanes pass with preset 0. -/
def sweep (n : Nat) : List (List (Nat × Nat)) := (List.range 18).map fun l => [if l < n then (0, 0) else (9, 10 ^ 15)]
/-- Every preset of the training table is usable; all lanes have locked. -/
def sweeping : State := (List.range 16).foldl (fun s i => s.wr (netKey (0x100 + 4 * i)) 0x80000000) (inTraining 3 0x3FFFF 0xFFFF)
def aligning (pass : Nat) : State := inTraining 4 0x3FFFF pass
theorem wit_LinkTraining_ends : (sweeping.port 6).step = 3 ∧ (after (exec (.presetSweepEnd 6 (sweep 15)) sweeping)).linkSt 6 ≠ 2 ∧
    ((after (exec (.presetSweepEnd 6 (sweep 16)) sweeping)).port 6).step = 4 ∧
    (after (exec (.alignmentDone 6 1311) (aligning 0x7FFF))).linkSt 6 ≠ 3 ∧ ((List.range 18).filter (bit 0x7FFF)).length < 16 ∧
    16 ≤ ((List.range 18).filter (bit 0xFFFF)).length ∧ (after (exec (.alignmentDone 6 1311) (aligning 0xFFFF))).rdf (kLnk 6 8) 0 18 = 0xFFFF ∧
    (after (exec (.trainingTimeout 6) (inTraining 1 0 0))).linkSt 6 ≠ 2 ∧ (after (exec (.trainingTimeout 6) (linked 3))).linkSt 6 ≠ 3 := by and_intros <;> decide +kernel
/-- A key block of a pod key, of a step of keying; the port has the peer's share or not. -/
def keyPay (id step : Nat) : List Byte := [3, BitVec.ofNat 8 step] ++ z 6 ++ leBytes 8 id ++ z 88
def keying (shared : Bool) : State := (linked 3).setPort 6 { PortState.init with shared := shared }
theorem wit_LinkTraining_keys : (keying false).linkSt 6 = 3 ∧ live.rd kPodKeyId = 0 ∧ (after (exec (.keyBlock 6 (block (keyPay 1 0)) []) (keying false))).rd 0xC034 = 4 ∧
    (after (exec (.keyBlock 6 (block (keyPay 0 1)) []) (keying false))).rd 0xC034 = 4 ∧
    (after (exec (.keyBlock 6 (bad (block (keyPay 0 1)) false true) []) (keying true))).rd (kLnkCount 6 2) = 1 ∧
    (after (exec (.keyBlock 6 (bad (block (keyPay 0 1)) false true) []) (keying true))).linkSt 6 = 3 ∧ leAt (keyPay 0 0) 1 1 = 0 := by and_intros <;> decide +kernel
/-- A CONFIRM for the port's key: the other end's is right, an empty one is not. -/
theorem wit_LinkTraining_confirm : ((keying true).port 6).shared = true ∧ leAt (keyPay 0 1) 1 1 ≠ 0 ∧
    (Instr.keyBlock 6 (block (keyPay 0 1)) [1]).wf = false ∧ (∀ k plus, [] ≠ confirmOf k plus) ∧
    exec (.keyBlock 6 (block (keyPay 0 1)) (confirmOf ((keying true).port (6 : PortId)).keyK false)) (keying true) =
      .next ((keying true).linkUp (6 : PortId)) := by
  refine ⟨by decide +kernel, by decide +kernel, by decide +kernel, fun k plus h => ?_, ?_⟩
  · have hl : (confirmOf k plus).length = 32 := by
      unfold confirmOf slice
      first | (simp; done) | (simp; omega)
    rw [← h] at hl
    exact absurd hl (by decide)
  · have h1 : (keying true).portOn (6 : PortId) = true := by decide +kernel
    have h2 : (keying true).linkSt (6 : PortId) = 3 := by decide +kernel
    have h3 : leAt (keyPay 0 1) 8 8 = (keying true).rd kPodKeyId := by decide +kernel
    have h4 : leAt (keyPay 0 1) 1 1 = 1 := by decide +kernel
    have h5 : ((keying true).port (6 : PortId)).shared = true := by decide +kernel
    have h6 : (block (keyPay 0 1)).payload = keyPay 0 1 := rfl
    have h7 : (block (keyPay 0 1)).crcOk = true := rfl
    have h8 : decide ((6 : PortId).val % 2 = 1) = false := by decide
    simp only [exec, execKeyBlock, h1, h2, h3, h4, h5, h6, h7, h8, Bool.not_true, Bool.or_false, ne_eq,
      not_true_eq_false, decide_false, Bool.false_eq_true, if_false, Nat.one_ne_zero]

/-! ## Links in use -/

/-- Port 6 UP with lane 0 in use. -/
def laneUp : State := (linked 4).wrf (kLnk 6 0x100) 4 2 1
/-- A LINK block of a payload. -/
def linkBlock (b : List Byte) : RxBlock := ofKind 2 (block b)
/-- The codeword index of a LANE_SWAP is 9; its direction is d. -/
def swapDir (d a b : Nat) : List Byte := [4, BitVec.ofNat 8 d, BitVec.ofNat 8 a, BitVec.ofNat 8 b, 9] ++ z 7
theorem wit_LinkUpkeep_lanes : laneUp.portOn 6 = true ∧ laneUp.linkSt 6 = 4 ∧ laneUp.rdf (kLnk 6 0x100) 4 2 = 1 ∧
    laneUp.rdf (kLnk 6 0x108) 4 2 ≠ 1 ∧ (after (exec (.laneWindow 6 [(5, 0, true), (7, 0, true)]) laneUp)).rd (kLnkCount 6 4) = 5 ∧
    laneUp.spareLane 6 4 = none ∧ bit ((after (exec (.laneWindow 6 [(5, 10 ^ 15, true)]) laneUp)).rd (kLnkStatus 6)) 10 = true ∧
    ((after (exec (.laneWindow 6 [(5, 1, false)]) laneUp)).port 6).lackLane = true ∧ (after (exec (.laneWindow 6 [(5, 1, false)]) laneUp)).linkSt 6 = 5 ∧
    leAt (swapDir 1 17 0) 1 1 ≤ 1 ∧ leAt (swapDir 1 17 0) 2 1 < 18 ∧ leAt (swapDir 1 17 0) 3 1 < 18 ∧
    (after (exec (.laneSwap 6 (linkBlock (swapDir 0 17 0))) laneUp)).rd (kLnkCount 6 9) = 1 ∧
    ((after (exec (.laneSwap 6 (linkBlock (swapDir 0 17 0))) laneUp)).port 6).swapAt = 9 ∧
    (after (exec (.laneSwap 6 (linkBlock (swapDir 1 17 0))) laneUp)).rdf (kLnk 6 0x100) 4 2 = 1 ∧
    gives (exec (.laneSwap 6 (linkBlock (swapDir 2 17 0))) laneUp) (laneUp.takeHeader 6 (linkBlock (swapDir 2 17 0))) = true ∧
    gives (exec (.laneSwap 6 (linkBlock (swapDir 0 18 0))) laneUp) (laneUp.takeHeader 6 (linkBlock (swapDir 0 18 0))) = true ∧
    gives (exec (.laneSwap 6 (linkBlock (swapDir 0 0 18))) laneUp) (laneUp.takeHeader 6 (linkBlock (swapDir 0 0 18))) = true ∧
    (after (exec (.laneSwap 6 (bad (linkBlock (swapDir 0 17 0)) false true)) laneUp)).rd (kLnkCount 6 2) = 1 ∧
    gives (exec (.laneSwap 6 (block (swapDir 0 17 0))) laneUp) laneUp = true ∧
    (after (exec (.laneSwap 6 (bad (linkBlock (swapDir 0 17 0)) true false)) laneUp)).rd (kLnkCount 6 6) = 1 ∧
    ((after (exec (.laneSwap 6 (bad (linkBlock (swapDir 0 17 0)) true false)) laneUp)).port 6).authLink = [0] ∧
    (after (exec (.downBlock 6 (bad (linkBlock []) true false)) (laneUp.setPort 6 { PortState.init with authLink := [0] }))).linkSt 6 ≠ 4 ∧
    (after (exec (.identBlock 6 none (linkBlock (ident 7 5))) laneUp)).rd (kLnk 6 0x10) = 2 ^ 63 + 7 * 2 ^ 20 := by and_intros <;> decide +kernel
/-- Port 6 RETRAINING with a block still unacknowledged or none, and with a lane lacking. -/
def retraining (l : List TxBlock) : State := (linked 5).setPort 6 { PortState.init with retry := l }
def lacking : State := (linked 5).setPort 6 { PortState.init with lackLane := true }
theorem wit_LinkUpkeep_retrain : (after (exec (.alignmentLost 6) laneUp)).linkSt 6 = 5 ∧ gives (exec (.alignmentLost 6) (linked 3)) (linked 3) = true ∧
    (retraining []).linkSt 6 = 5 ∧ (after (exec (.retrainTimeout 6) (retraining []))).linkSt 6 = 1 ∧ ((retraining []).port 6).lackLane = false ∧
    (lacking.port 6).lackLane = true ∧ (after (exec (.retrainDone 6) lacking)).linkSt 6 = 1 ∧ (linked 3).linkSt 6 ≠ 5 ∧
    gives (exec (.retrainDone 6) (linked 3)) (linked 3) = true ∧
    (after (exec (.retrainDone 6) (retraining []))).linkSt 6 = 4 ∧ (after (exec (.retrainDone 6) (retraining []))).out.length ≤ 1 ∧
    ((after (exec (.retrainDone 6) (retraining [txBlock 0 0]))).port 6).retry.map (·.resent) = [1] ∧
    (after (exec (.downBlock 6 (linkBlock [])) (linked 5))).linkSt 6 = 1 ∧ (after (exec (.downBlock 6 (linkBlock [])) (linked 4))).linkSt 6 = 1 := by and_intros <;> decide +kernel
/-- The module at coordinate 1 of axis 3, in a ring of 4 committed; port 6 is UP with COORD_OK, and its other end is known. -/
def ringed : State := ((coordUp.wrf kLayout 32 20 1).wrf kLayout 24 8 4).setEnd 3 2 false true
theorem wit_LinkUpkeep_ring : ringed.hubOn = true ∧ ringed.portUp 6 = true ∧ coordOf ringed.node 3 = 1 ∧
    gives (exec (.linkStateMessage 6 ⟨1, true⟩ true) ringed) ringed = true ∧ gives (exec (.linkStateMessage 6 ⟨0, false⟩ true) ringed) ringed = true ∧
    bit ((after (exec (.linkStateMessage 6 ⟨2, true⟩ true) ringed)).rd (netKey 20)) 2 = true ∧
    bit ((after (exec (.linkStateMessage 6 ⟨31, true⟩ true) ringed)).rd (netKey 20)) 31 = false ∧
    (after (exec (.linkStateMessage 6 ⟨2, true⟩ true) (ringed.wrf (kLnkStatus 7) 0 4 4))).out = [] ∧
    (after (exec (.linkStateMessage 6 ⟨2, true⟩ true) ((ringed.wrf (kLnkStatus 7) 0 4 4).wrf (kLnkStatus 7) 8 1 1))).out.length = 1 := by and_intros <;> decide +kernel
/-- Port 6 enabled by software and in a state of its link, with a step in progress. -/
def atWork (s : State) : State := { s with seq := { s.seq with mode := .running } }
theorem wit_LinkUpkeep_enable : (linked 0).linkSt 6 = 0 ∧ (linked 0).quiet = true ∧ (atWork (linked 4)).quiet = false ∧
    (after (exec (.lnkEnable 6 true) (linked 0))).portOff 6 = false ∧ (after (exec (.lnkEnable 6 true) (linked 0))).linkSt 6 = 1 ∧
    (after (exec (.lnkEnable 6 true) (linked 4))).linkSt 6 = 4 ∧ gives (exec (.lnkEnable 6 false) (atWork (linked 4))) (atWork (linked 4)) = true ∧
    (after (exec (.lnkEnable 6 false) (linked 4))).linkSt 6 = 0 ∧ (after (exec (.lnkEnable 6 false) (linked 0))).linkSt 6 = 0 ∧
    (after (exec (.lnkRetrain 6) (linked 4))).linkSt 6 = 5 ∧ gives (exec (.lnkRetrain 6) (linked 0)) (linked 0) = true ∧
    (after (exec (.lnkFullTrain 6) (linked 4))).linkSt 6 = 1 ∧ gives (exec (.lnkFullTrain 6) (linked 0)) (linked 0) = true := by and_intros <;> decide +kernel
/-- The module at coordinate (1, 0, 0, 0); its parent's port is 1. -/
def timeChild (st : Nat) : State := ((live.wrf kLayout 32 20 (2 ^ 15)).setLinkSt 1 st).setPort 1 { PortState.init with t1 := some 0 }
def timePay (dir t1 t2 t4 : Nat) : List Byte := [5, BitVec.ofNat 8 dir] ++ z 6 ++ leBytes 8 t1 ++ leBytes 8 t2 ++ leBytes 8 t4
theorem wit_LinkUpkeep_time : live.parentPort = none ∧ gives (exec .timePeriod live) live = true ∧ (timeChild 4).parentPort = some 1 ∧
    (timeChild 4).portOn 1 = true ∧ (after (exec .timePeriod (timeChild 4))).out.length = 1 ∧ bit ((after (exec .timePeriod (timeChild 1))).rd kTimeStatus) 1 = true ∧
    (after (exec (.timeBlock 1 (linkBlock (timePay 0 0 0 0))) (timeChild 4))).out.length = 1 ∧
    (after (exec (.timeBlock 6 (linkBlock (timePay 1 0 40 0))) (linked 4))).rd kTimeOffset = 0 ∧
    ((timeChild 4).takeHeader 1 (linkBlock (timePay 1 0 40 0))).parentPort = some 1 ∧ (((timeChild 4).takeHeader 1 (linkBlock (timePay 1 0 40 0))).port 1).t1.isSome = true ∧
    (after (exec (.timeBlock 1 (linkBlock (timePay 1 0 38 0))) (timeChild 4))).rd kTimeOffset = 19 ∧
    bit ((after (exec (.timeBlock 1 (linkBlock (timePay 1 0 38 0))) (timeChild 4))).rd kTimeStatus) 0 = true ∧
    bit ((after (exec (.timeBlock 1 (linkBlock (timePay 1 0 40 0))) (timeChild 4))).rd kTimeStatus) 0 = false := by and_intros <;> decide +kernel
/-! ## Lamps -/

/-- Lamp 7 seated and in a state; a lit partner is lamp 6. -/
def lampAt (st : Nat) : State := (live.setLamp 7 { LampState.init with seated := true }).setLampSt 7 st
def lampPair (st : Nat) : State := (lampAt st).setLampSt 6 4
/-- A record whose curve has its points at 0 to 15 hours. -/
def lampRec : List Byte := leBytes 4 0x504D414C ++ z 72 ++ leBytes 2 35000 ++ z 6 ++ ((List.range 16).flatMap fun i => leBytes 2 i ++ leBytes 2 100) ++ z 294
theorem wit_Lamps_insert : gives (exec (.lampInserted 7) (lampAt 1)) (lampAt 1) = true ∧ live.lampOn 7 = true ∧ (live.lamp 7).seated = false ∧
    State.reset.lampOn 7 = false ∧ (State.reset.lamp 7).seated = false ∧ ((after (exec (.lampInserted 7) State.reset)).lamp 7).seated = true ∧
    (after (exec (.lampInserted 7) live)).lampSt 7 = 1 := by and_intros <;> decide +kernel
theorem wit_Lamps_auth : (lampAt 1).lampOn 7 = true ∧ (lampAt 1).lampSt 7 = 1 ∧ (after (exec (.lampAuthTimeout 7) (lampAt 1))).lampSt 7 = 2 ∧
    lampRecordOk lampRec = true ∧ lampRecordOk [] = false ∧ (after (exec (.lampAuthResponse 7 lampRec 1 60 false) (lampAt 1))).lampSt 7 = 2 ∧
    smGet none ((lampAt 1).flash.lampRec.map fun e => (e.1, some e.2)) 7 = none ∧
    (after (exec (.lampAuthResponse 7 lampRec 1 60 true) (lampAt 1))).lampSt 7 = 3 ∧
    (after (exec (.lampAuthResponse 7 lampRec 1 60 true) (lampAt 1))).rd (kLamp 7 0xC) = 34999 ∧
    (after (exec (.lampAuthResponse 7 lampRec 1 60 true) { lampAt 1 with pwr := { (lampAt 1).pwr with lampsDone := true } })).lampSt 7 = 4 ∧
    bit ((lampAt 1).rd 0x8800) 0 = true := by and_intros <;> decide +kernel
theorem wit_Lamps_fail : (lampPair 4).lampSt (partner 7) = 4 ∧ (after (exec (.lampFail 7) (lampPair 4))).lampSt 7 = 6 ∧
    (after (exec (.lampFail 7) (lampPair 4))).lampLevel 6 = 2 ∧ gives (exec (.lampFail 7) (lampAt 3)) (lampAt 3) = true ∧
    gives (exec (.lampPulled 7) live) live = true ∧ ((after (exec (.lampPulled 7) (lampAt 3))).lamp 7) = LampState.init ∧
    bit ((after (exec (.lampPulled 7) (lampAt 3))).rd kLampSticky) 15 = true ∧ (lampAt 4).lampSt (partner 7) ≠ 4 ∧ (after (exec (.lampFail 7) (lampAt 4))).lampSt 7 = 6 ∧
    bit ((after (exec (.lampFail 7) (lampPair 4))).rd kLampSticky) 15 = true ∧
    ((after (exec (.lampPulled 7) (lampAt 4))).lamp 7).seated = false ∧ (after (exec (.lampInterlock 7) (lampPair 4))).lampLevel 7 = 0 ∧
    live.lampOn (2 * (3 : Fin 4)) = true ∧ gives (exec (.rampEnd 3) (lampAt 4)) ((lampAt 4).endRamps 3) = true := by and_intros <;> decide +kernel
/-- Lamp 7 lit for the hour of its record's first curve point; rated power from bit 32 of its factors. -/
def aged : State := ((lampAt 4).setLamp 7 { LampState.init with seated := true, frac := 15, nominal := 60 }).setLevel 7 1
theorem wit_LampAgeing : (lampAt 3).lampSt 7 ≠ 4 ∧ (after (exec (.lampMinute 7) (lampAt 3))).rd (kLamp 7 8) = 0 ∧ aged.lampOn 7 = true ∧ aged.lampSt 7 = 4 ∧ aged.lampLevel 7 = 1 ∧
    (after (exec (.lampMinute 7) aged)).rd (kLamp 7 8) = 1 ∧ (after (exec (.lampMinute 7) aged)).rd (kLamp 7 4) = 1 ∧
    (aged.lamp 7).predicted = false ∧ ((after (exec (.lampHour 7 0) aged)).lamp 7).predicted = true ∧
    (after (exec (.lampMinute 7) (after (exec (.lampHour 7 0) aged)))).rd (kLamp 7 8) = 1 ∧
    ((after (exec (.lampMinute 7) aged)).lamp 7).frac = 15 ∧ (aged.lamp 7).nominal = 60 ∧ aged.predict 7 0 = 0 ∧
    bit ((after (exec (.lampHour 7 0) aged)).rd (kLamp 7 0)) 6 = true ∧ ((lampAt 4).lamp 7).nominal ≠ 60 ∧ gives (exec (.lampHour 7 0) (lampAt 4)) (lampAt 4) = true ∧
    aged.rdf (kLamp 7 0x18) 16 16 * 10 ≤ (0 : BitVec 20).toNat ∧
    (after (exec (.lampBiasSample 7 5 6) (lampAt 3))).rd (kLamp 7 0x10) = 5 ∧ (after (exec (.lampBiasSample 7 5 6) (lampAt 3))).rd (kLamp 7 0x14) = 6 := by and_intros <;> decide +kernel
/-- The same after power-up has lit the lamps. -/
def lampsDone : State := { lampAt 3 with pwr := { (lampAt 3).pwr with lampsDone := true } }
def darkPort : State := live.setPort 6 { PortState.init with dark := true }
theorem wit_LampAgeing_light : lampsDone.hubOn = true ∧ lampsDone.lampSt 7 = 3 ∧ lampsDone.ramping 7 = false ∧ lampsDone.lampSt (partner 7) ≠ 4 ∧
    lampsDone.ramping (partner 7) = false ∧ (after (exec .autoLight lampsDone)).ramping 7 = true ∧
    ((lampAt 3).lightLamp 7).lampSt 7 = 4 ∧ (((lampAt 3).lightLamp 7).lamp 7).target = 2 ∧ (lampPair 3).lampSt (partner 7) = 4 ∧
    (((lampPair 3).lightLamp 7).lamp 7).target = 1 ∧ (((lampPair 3).lightLamp 7).lamp (partner 7)).target = 1 ∧ live.pwr.lampsDone = false ∧
    ((after (exec (.openFibreBlock 6) live)).port 6).dark = true ∧ (darkPort.port 6).dark = true ∧
    ((after (exec (.openFibreProbe 6 true) darkPort)).port 6).dark = false ∧ (live.port 6).dark = false ∧
    gives (exec (.openFibreProbe 6 true) live) live = true := by and_intros <;> decide +kernel
/-! ## Clocks, power and temperature -/

def allReady : State := live.wr kClkStatus 0xF
theorem wit_Clocks_loss : live.powered = true ∧ allReady.srcFailed 3 = false ∧ bit (allReady.rd kClkSticky) 0 = false ∧
    (after (exec (.edgeLoss 3) allReady)).srcFailed 3 = true ∧ (after (exec (.edgeLoss 3) allReady)).gated 4 = true ∧
    (after (exec (.edgeLoss 0) allReady)).srcFailed 3 = true ∧ (after (exec (.edgeLoss 2) allReady)).srcReady 3 = true ∧
    (after (exec (.edgeLoss 1) allReady)).srcReady 1 = false ∧ (allReady.noteClkFail 3).srcFailed 3 = true ∧
    gives (exec (.edgeLoss 3) (allReady.noteClkFail 3)) (allReady.noteClkFail 3) = true ∧ bit ((allReady.noteClkFail 3).rd kClkSticky) 0 = true := by and_intros <;> decide +kernel
/-- HUB runs on INT. -/
def onInt (ready : Nat) : State := (live.wr kClkDomains (2 ^ 17)).wr kClkStatus ready
def feedUp : State := { allReady with boot := { allReady.boot with eth := [(0, 1), (1, 2), (2, 1)] } }
theorem wit_Clocks_domains : bit ((after (exec (.edgeLoss 3) allReady)).rd kClkDomains) 17 = true ∧ allReady.gateForRoot.srcFailed 2 = false ∧
    ((allReady.noteClkFail 2).noteClkFail 3).gateForRoot.gated 17 = true ∧ feedUp.gateForRoot.boot.eth = [(1, 2), (2, 1)] ∧
    bit ((onInt 15).rd kClkDomains) 17 = true ∧ (onInt 15).srcReady 3 = true ∧ bit ((onInt 15).intLost.rd kClkDomains) 17 = false ∧
    (onInt 7).srcReady 3 = false ∧ (onInt 7).intLost.gated 17 = true := by and_intros <;> decide +kernel
def windows (good bad : Nat) : State := { live.wr kClkStatus 0 with clk := { live.clk with good := [(3, good)], bad := [(3, bad)] } }
theorem wit_Clocks_windows : (windows 0 0).srcReady 1 = false ∧ (windows 0 0).time < 80000000 ∧
    (after (exec (.clockWindow 0 0 0 0 true) (windows 7 0))).srcReady 3 = false ∧ 7 ≤ smGet 0 (windows 7 0).clk.good 3 ∧
    ((windows 7 0).judgeSource 3 true true).srcReady 3 = true ∧ smGet 0 (windows 6 1).clk.good 3 < 7 ∧
    smGet 0 ((windows 6 1).judgeSource 3 true true).clk.good 3 = 7 ∧ smGet 0 (windows 6 0).clk.bad 3 = 0 ∧
    smGet 0 ((windows 6 0).judgeSource 3 false true).clk.bad 3 = 1 ∧ smGet 0 (windows 6 1).clk.bad 3 = 1 ∧ (windows 6 1).srcFailed 3 = false ∧
    ((windows 6 1).judgeSource 3 false true).srcFailed 3 = true ∧ 12582912 < 125830 * 100 ∧ 125829 * 100 < 12582912 := by and_intros <;> decide +kernel
/-- The first sixteen words of each die's curve are valid. -/
def valid : State := { live with flash := { live.flash with curves := (List.range 64).map fun i => (i, 0x80000000) } }
/-- The module at point p with a target of g, every point valid. -/
def pointed (p g : Nat) : State := (valid.wr kPwrPerf (g + 15 * 16 + 15 * 256 + p * 4096)).wrf kPwrCtrl 0 12 100
theorem wit_PointsAndLoads_points : (pointed 0 0).targetPoint = (pointed 0 0).rdf kPwrPerf 12 4 ∧ gives (exec .pointChange (pointed 0 0)) (pointed 0 0) = true ∧
    (pointed 7 0).targetPoint < (pointed 7 0).rdf kPwrPerf 12 4 ∧ (after (exec .pointChange (pointed 7 0))).rdf kPwrPerf 12 4 < 7 ∧
    (pointed 0 7).rdf kPwrPerf 12 4 < (pointed 0 7).targetPoint ∧ 0 < (after (exec .pointChange (pointed 0 7))).rdf kPwrPerf 12 4 ∧
    (after (exec (.tempSample [0x0A00]) live)).rdf (kTemp 0) 0 16 = 0x0A00 ∧ (after (exec (.tempSample [0x0A00]) live)).rdf (kTemp 42) 0 16 = 0x8000 ∧
    (after (exec (.powerWindow 101 48000 []) (pointed 7 7))).rdf kPwrPerf 8 4 = 14 ∧ (after (exec (.powerWindow 100 48000 []) (pointed 7 7))).rdf kPwrPerf 8 4 = 15 ∧
    (after (exec (.powerWindow 50 48000 []) (pointed 7 7))).rdf kPwrPerf 8 4 = 15 := by and_intros <;> decide +kernel
theorem wit_PointsAndLoads_loads : live.quiet = true ∧ loadBounds live.clk.loads = (0, 46000) ∧
    (after (exec (.loadEstimate 46000) live)).clk.loads = [46000] ∧ (after (exec (.loadEstimate 46001) live)).clk.loads = [46000] ∧
    bit ((after (exec (.loadEstimate 46001) live)).rd kPwrSticky) 3 = true ∧ live.gated 0 = false ∧ (live.wr kClkDomains (2 ^ 32)).gated 0 = true ∧
    (after (exec (.loadEstimate 99000) (live.wr kClkDomains (2 ^ 32)))).clk.loads = [99000] := by and_intros <;> decide +kernel
/-! ## Boot -/

def booting : State := { live with boot := { live.boot with rom := .running } }
theorem wit_BootAndSecrets_rom : booting.powered = true ∧ booting.boot.rom = .running ∧ liveReeve.boot.rom ≠ .running ∧
    gives (exec (.bootRomDone true (some false)) liveReeve) liveReeve = true ∧ (after (exec (.bootRomDone false (some false)) booting)).boot.rom = .halted ∧
    (after (exec (.bootRomDone true none) booting)).boot.rom = .halted ∧ (after (exec (.bootRomDone true (some true)) booting)).boot.rom = .done ∧
    smGet 0 (after (exec (.bootRomDone true (some true)) booting)).boot.versions 1 = imgVersion (booting.image 1 true) := by and_intros <;> decide +kernel
def keyed : State := live.wr 0xC028 1
theorem wit_BootAndSecrets_pod : keyed.hubOn = true ∧ ((List.range 4).flatMap (fun j => leBytes 8 (keyed.rd (0xC010 + 8 * j)))).all (· == 0) = false ∧
    ((after (exec .podInstall keyed)).boot.podSecret) = some (z 24 ++ leBytes 8 1) ∧
    ((List.range 4).flatMap (fun j => leBytes 8 (live.rd (0xC010 + 8 * j)))).all (· == 0) = true ∧ (after (exec .podInstall live)).boot.podSecret = none ∧
    (after (exec .rngHealthFail live)).rngOk = false ∧ (after (exec .rngHealthRestored live)).rngOk = true := by and_intros <;> decide +kernel
/-! ## Power-up and repair -/

/-- Start-up steps done, and the sources READY. -/
def startup (steps : List Nat) : State := steps.foldl (fun s i => s.setStarted i) { live.wr kClkStatus 0xF with boot := { live.boot with rom := .done } }
def goodDimm : List Byte := [2, 0] ++ z 30
def granary : State := { startup [0, 3] with boot := { (startup [0, 3]).boot with granKey := List.replicate 64 1, dimms := (List.range 16).map fun i => (i, goodDimm) } }
theorem wit_PowerUpAndRepair_start : (startup []).powered = true ∧ (startup []).boot.rom = .done ∧ (startup []).pwr.bscan = false ∧ (startup []).started 0 = false ∧
    (startup []).srcReady 3 = true ∧ (startup []).clk.rootLate = false ∧ (after (exec .domainsUngated (startup []))).started 0 = true ∧
    booting.boot.rom ≠ .done ∧ gives (exec .domainsUngated booting) booting = true ∧ (startup [0]).started 2 = false ∧
    (after (exec (.hbmTrained [⟨true, none, []⟩]) (startup [0]))).started 2 = true ∧ gives (exec (.hbmTrained []) (startup [0, 2])) (startup [0, 2]) = true ∧
    (after (exec (.dimmsTrained [none]) (startup [0]))).started 3 = true ∧ (startup [0]).rngOk = true ∧
    (after (exec (.dimmsTrained [none]) (startup [0]))).boot.granKey.length = 64 ∧
    (after (exec (.dimmsTrained [none]) ((startup [0]).wrf 0xC000 4 1 1))).boot.granKey = [] := by and_intros <;> decide +kernel
theorem wit_PowerUpAndRepair_more : granary.started 3 = true ∧ granary.dimmsOk = true ∧ granary.boot.granKey ≠ [] ∧ (startup [0, 3]).boot.granKey = [] ∧ bit (granary.rd kGrnCtrl) 4 = false ∧
    (after (exec .granaryZeroed granary)).started 6 = true ∧ (startup [0, 3]).dimmsOk = false ∧
    gives (exec .granaryZeroed (startup [0, 3])) (startup [0, 3]) = true ∧ (startup [0]).started 5 = false ∧
    ((List.range 8).all fun k => (startup [0]).lampSt k ≠ 1) = true ∧ (after (exec .lampsLit (startup [0]))).started 5 = true ∧
    (startup [0]).boot.reeve = false ∧ (after (exec (.reeveStart [] [] true) (startup [0]))).boot.reeve = true := by and_intros <;> decide +kernel
theorem wit_PowerUpAndRepair_cores : (startup [0]).started 1 = false ∧ (after (exec (.coreSelftestEnd [1279]) (startup [0]))).started 1 = true ∧
    (startup [0, 1]).started 1 = true ∧ gives (exec (.coreSelftestEnd []) (startup [0, 1])) (startup [0, 1]) = true ∧ live.spareSlot 79 = 15 ∧
    ((List.range 16).all fun j => (bit (live.clusterMask 79) j && [1278].contains (16 * 79 + j)) = decide (j = 14)) = true ∧
    [1278].contains (16 * 79 + live.spareSlot 79) = false ∧ (live.repairCluster [1278] 79).clusterMask 79 = 0xFFFF - 2 ^ 14 ∧
    ((List.range 16).all fun i => !bit (live.clusterMask 79) i || !([] : List Nat).contains (16 * 79 + i)) = true := by and_intros <;> decide +kernel
def spareTest : State := { liveReeve with repair := { liveReeve.repair with testing := some 15 } }
theorem wit_PowerUpAndRepair_spares : (15 : BitVec 11).toNat < 1280 ∧ live.enabledPhys 15 = false ∧ live.isIdle = true ∧
    (after (exec (.spareSelftestStart 15) live)).repair.testing = some 15 ∧ live.repair.testing = none ∧ gives (exec (.spareSelftestEnd true) live) live = true ∧
    spareTest.repair.testing = some 15 ∧ (after (exec (.spareSelftestEnd false) spareTest)).repair.badSpares = [15] ∧
    (atWork live).isIdle = false ∧ (after (exec (.repairRequestCommit 0) (atWork live))).rdf 0x6208 16 8 = 3 ∧
    (after (exec (.repairRequestCommit 15) live)).rdf 0x6208 16 8 = 4 := by and_intros <;> decide +kernel
/-- The spare of core 0's cluster has passed its self-test. -/
def sparePassed : State := after (exec (.spareSelftestEnd true) spareTest)
theorem wit_PowerUpAndRepair_retire : (after (exec (.repairRequestCommit 0) sparePassed)).rdf 0x6208 16 8 = 1 ∧
    (after (exec (.repairRequestCommit 0) sparePassed)).repair.retired = [0] := by and_intros <;> decide +kernel
def oneEvent : Ev := ⟨0x0501, 1, 3, 7, 9, false⟩
def eventful (freeze : Nat) : State := { live.wrf kRecCtrl 16 1 freeze with erec := { live.erec with queue := [oneEvent] } }
theorem wit_PowerUpAndRepair_records : live.erec.queue = [] ∧ gives (exec .eventReached live) live = true ∧ (eventful 0).hubOn = true ∧
    (eventful 0).erec.queue = [oneEvent] ∧ bit ((eventful 0).rd kRecCtrl) 16 = false ∧ bit ((eventful 1).rd kRecCtrl) 16 = true ∧
    (after (exec .eventReached (eventful 0))).rd kRecHead = 1 ∧ (after (exec .eventReached (eventful 1))).rd kRecDropped = 1 ∧
    live.erec.last = none ∧ leAt ((live.record oneEvent).ringSlot 0) 16 2 = 0 ∧ (live.record oneEvent).erec.last = some (4099, 0x0501, 9) := by and_intros <;> decide +kernel
/-- Monitor channel 31 on a source, linear from 0 in steps of 10. -/
def monitored (src mode : Nat) : State := ((live.wr (kHist 31 0) (src + mode * 2 ^ 32)).wr (kHist 31 16) 10).wr (kTemp 0) 0x100
theorem wit_PowerUpAndRepair_monitor : gives (exec (.monitorSample 31 5) (monitored 0 3)) (monitored 0 3) = true ∧
    gives (exec (.monitorSample 31 5) (monitored 1 3)) (monitored 1 3) = true ∧
    gives (exec (.monitorSample 31 5) (monitored 2 2)) (monitored 2 2) = true ∧
    (after (exec (.monitorSample 31 309) (monitored 2 3))).rd (kHist 31 (0x40 + 4 * 30)) = 1 ∧
    (after (exec (.monitorSample 31 310) (monitored 2 3))).rd (kHist 31 (0x40 + 4 * 31)) = 1 ∧
    (after (exec (.monitorSample 31 2147483647) (monitored 2 3))).rd (kHist 31 (0x40 + 4 * 31)) = 1 ∧
    (after (exec (.monitorSample 31 (-2147483648)) (monitored 2 3))).rd (kHist 31 0x40) = 1 ∧
    (monitored 0x10 3).levelOf 0x10 0 = some 256 ∧ (after (exec (.monitorSample 31 0) (monitored 0x10 3))).rd (kHist 31 (0x40 + 4 * 25)) = 1 ∧
    (monitored 0x14 3).levelOf 0x14 0 = none ∧ gives (exec (.monitorSample 31 0) (monitored 0x14 3)) (monitored 0x14 3) = true := by and_intros <;> decide +kernel
end Sys2Proof.Tests
end

section
/-! PROOFS of the scope family: serial numbers (R5) and unassigned offsets of CSR space (R11). -/

namespace Sys2Proof.Machine
open Sys2Proof

/-! ## Serial numbers -/

theorem natCast_two_pow (n : Nat) : ((2 ^ n : Nat) : Int) = 2 ^ n := Int.natCast_pow 2 n

/-- Below 2^n the model's truncated natural difference is the integer one modulo 2^n. -/
theorem serialDiff_eq_int_emod {n b : Nat} (a : Nat) (hb : b < 2 ^ n) :
    (((a + 2 ^ n - b % 2 ^ n) % 2 ^ n : Nat) : Int) = ((a : Int) - b) % 2 ^ n := by
  have shifted : ((a + 2 ^ n - b : Nat) : Int) = (a : Int) - b + (2 ^ n : Nat) := by
    generalize 2 ^ n = m at hb
    omega
  rw [Nat.mod_eq_of_lt hb, Int.natCast_emod, shifted, Int.add_emod_right, natCast_two_pow]

theorem serialLater_iff {n a b : Nat} (hb : b < 2 ^ n) :
    serialLater n a b = true ↔
      1 ≤ ((a : Int) - b) % 2 ^ n ∧ ((a : Int) - b) % 2 ^ n ≤ 2 ^ (n - 1) - 1 := by
  have half_pos : 0 < 2 ^ (n - 1) := Nat.two_pow_pos (n - 1)
  rw [← serialDiff_eq_int_emod a hb, ← natCast_two_pow (n - 1)]
  simp only [serialLater, Bool.and_eq_true, decide_eq_true_eq]
  generalize (a + 2 ^ n - b % 2 ^ n) % 2 ^ n = d
  generalize 2 ^ (n - 1) = half at half_pos
  omega

/-- The upper bound of R5 leaves out a difference of exactly half. -/
theorem serialLater_eq_false_of_half {n a b : Nat} (hb : b < 2 ^ n)
    (half : ((a : Int) - b) % 2 ^ n = 2 ^ (n - 1)) : serialLater n a b = false := by
  rw [Bool.eq_false_iff, Ne, serialLater_iff hb, half]
  omega

/-- Half of the modulus is its own negative. -/
theorem half_emod_symm {n : Nat} (hn : 1 ≤ n) {a b : Int} (half : (a - b) % 2 ^ n = 2 ^ (n - 1)) :
    (b - a) % 2 ^ n = 2 ^ (n - 1) := by
  have half_pos : (0 : Int) < 2 ^ (n - 1) := Int.pow_pos (by decide)
  have double : (2 : Int) ^ n = 2 ^ (n - 1) * 2 := by
    rw [← Int.pow_succ, Nat.succ_eq_add_one, Nat.sub_add_cancel hn]
  have quotient : (2 : Int) ^ n * ((a - b) / 2 ^ n) + 2 ^ (n - 1) = a - b :=
    half ▸ Int.mul_ediv_add_emod (a - b) (2 ^ n)
  have opposite : b - a = 2 ^ (n - 1) + 2 ^ n * (-((a - b) / 2 ^ n) - 1) := by
    rw [Int.mul_sub, Int.mul_neg]
    omega
  rw [opposite, Int.add_mul_emod_self_left, Int.emod_eq_of_lt (Int.le_of_lt half_pos) (by omega)]

/-- Settles O8: each comparison is R5's interval of the integer difference, and a difference of half, outside that
interval, is the same half in the other direction. -/
theorem serialNumbers : Obligations.SerialNumbers := by
  intro n a b hn ha hb
  exact ⟨serialLater_iff hb, fun half =>
    ⟨serialLater_eq_false_of_half hb half, serialLater_eq_false_of_half ha (half_emod_symm hn half)⟩⟩

/-! ## Unassigned offsets of CSR space -/

/-- An access names no register where none is assigned: it only completes. -/
theorem State.csrAccess_of_unassigned (s : State) {off : Nat} (n : Nat) (h : regFind off = none) :
    s.csrAccess off n = (if off + n > 0x1000000 then .unmapped else s.csrCode off n, none) := by
  unfold State.csrAccess
  split
  · rfl
  · rw [h]
    cases s.csrCode off n <;> rfl

theorem State.csrRead_of_noRegister {s : State} {off n : Nat} {c : Code} (h : s.csrAccess off n = (c, none)) :
    s.csrRead off n = (c, 0) := by
  simp only [State.csrRead, h]

theorem State.csrWrite_of_noRegister {s : State} {off n : Nat} {c : Code} (v : Nat)
    (h : s.csrAccess off n = (c, none)) : s.csrWrite off n v = (c, c.status, s) := by
  simp only [State.csrWrite, h]

theorem exec_registerWrite_of_noRegister {s : State} {off n : Nat} {c : Code} (v : W64)
    (h : s.csrAccess off n = (c, none)) : exec (.registerWrite off n v) s = .next s := by
  simp only [exec, execRegisterWrite, State.csrWrite_of_noRegister _ h, ite_self]

/-- The block answers: its domain runs, its core is present, and no register lies under the bytes. -/
theorem State.csrCode_eq_ok {s : State} {off n : Nat} (running : s.csrGated off = false)
    (present : csrBlock off = 5 → s.absent (coreOfCsr off) = false) (clear : csrOverlaps off n = false) :
    s.csrCode off n = .ok := by
  have served : (decide (csrBlock off = 5) && s.absent (coreOfCsr off)) = false := by
    by_cases core : csrBlock off = 5
    · rw [present core, Bool.and_false]
    · rw [decide_eq_false core, Bool.false_and]
  simp only [State.csrCode, running, served, clear, Bool.false_eq_true, if_false]

/-- Settles O9: an access to an unassigned offset names no register, whatever code it completes with, and that code is
the block's answer. -/
theorem unassignedOffsets : Obligations.UnassignedOffsets := by
  intro s off n v unassigned
  have access := s.csrAccess_of_unassigned n unassigned
  have read := State.csrRead_of_noRegister access
  have write := State.csrWrite_of_noRegister v.toNat access
  refine ⟨by rw [read], exec_registerWrite_of_noRegister v access, fun running present inSpace clear => ?_⟩
  have code : s.csrCode off n = .ok := State.csrCode_eq_ok running present clear
  rw [read, write, if_neg (by omega), code]
  exact ⟨rfl, rfl⟩

end Sys2Proof.Machine
end

section
/-! PROOFS of the number formats family: the values of E8M0 codes (R122). -/

namespace Sys2Proof.Machine
open Sys2Proof

theorem fld_zero_of_lt {v w : Nat} (h : v < 2 ^ w) : fld v 0 w = v := by
  rw [fld, Nat.pow_zero, Nat.div_one, Nat.mod_eq_of_lt h]

/-- A code of an exponent-only format whose byte holds nothing else is all exponent: the one of all ones is NaN, as
NAN_ONES has it (R118), and any other is a power of two, 0 among them (R122). -/
theorem decodeCode_of_isE8M0 {f : Fmt} {c : Nat} (scale : f.isE8M0 = true) (ones : f.specials = 1)
    (full : f.width = f.expBits) (h : c < 2 ^ f.expBits) :
    decodeCode f c =
      if c = 2 ^ f.expBits - 1 then (.nan, 0) else (.fin false 1 ((c : Int) - 127), 0) := by
  have ⟨cls, man⟩ : f.cls = 3 ∧ f.manBits = 0 := by simpa [Fmt.isE8M0] using scale
  have code : c % 2 ^ f.width = c := Nat.mod_eq_of_lt (full ▸ h)
  have noSpare : ¬ 2 ^ f.expBits ≤ c := Nat.not_le.mpr h
  have exponent : fld c 0 f.expBits = c := fld_zero_of_lt h
  have mantissa : fld c 0 0 = 0 := Nat.mod_one _
  simp [decodeCode, code, cls, man, noSpare, ones, exponent, mantissa, scale]

/-- The word of entry 10 describes an exponent-only byte with NAN_ONES (R120). -/
theorem fmtOf_paletteReset_ten : fmtOf (paletteReset 10) =
    { width := 8, signed := false, expBits := 8, manBits := 0, bias := 127, specials := 1, cls := 3,
      valid := true } := by
  decide

theorem decodeCode_paletteReset_ten {c : Nat} (h : c < 256) : decodeCode (fmtOf (paletteReset 10)) c =
    if c = 255 then (.nan, 0) else (.fin false 1 ((c : Int) - 127), 0) := by
  rw [fmtOf_paletteReset_ten]
  exact decodeCode_of_isE8M0 rfl rfl rfl h

/-- Settles O11: entry 10 is an exponent-only format of eight bits, and 255 is its code of all ones. -/
theorem scaleCodes : Obligations.ScaleCodes := by
  refine ⟨fun c h => ?_, ?_⟩
  · rw [decodeCode_paletteReset_ten (by omega), if_neg (by omega)]
  · rw [decodeCode_paletteReset_ten (by decide), if_pos rfl]

end Sys2Proof.Machine
end

section
/-! PROOFS of the memory tiers family: which module serves a global address (R330, R398). -/

namespace Sys2Proof.Machine
open Sys2Proof

/-! ## What the node field says -/

theorem State.serve_of_own {s : State} {g : Nat} (own : fld g 44 20 = 0xFFFFF ∨ fld g 44 20 = s.node) :
    s.serve g = .here (g % 2 ^ 44) := by
  simp only [State.serve, Bool.or_eq_true, decide_eq_true_eq, if_pos own]

/-- A node field of other coordinates: the layout alone decides. -/
theorem State.serve_of_other {s : State} {g : Nat} (named : fld g 44 20 ≠ 0xFFFFF) (other : fld g 44 20 ≠ s.node) :
    s.serve g = if s.inLayout (fld g 44 20) then .there else .nowhere := by
  have notOwn : ¬(fld g 44 20 = 0xFFFFF ∨ fld g 44 20 = s.node) := not_or_intro named other
  simp only [State.serve, Bool.or_eq_true, decide_eq_true_eq, if_neg notOwn]

/-! ## What an access answers, by where it is served -/

theorem State.serveGlobal_of_here {s : State} {g a : Nat} (h : s.serve g = .here a) (op : MemOp) :
    s.serveGlobal g op = s.serveLocal a op := by
  simp only [State.serveGlobal, h]

/-- No module has the address: the access completes and changes nothing. -/
theorem State.serveGlobal_of_nowhere {s : State} {g : Nat} (h : s.serve g = .nowhere) (op : MemOp) :
    s.serveGlobal g op = (.unmapped, [], s) := by
  cases op with
  | read n => simp only [State.serveGlobal, State.gRead, h]
  | write b lost => simp only [State.serveGlobal, State.gWrite, h]

/-- A read that another module serves has a code of its own only on a path, and takes one free answer either way
(log 5). -/
theorem State.serveGlobal_read_of_there {s : State} {g : Nat} (h : s.serve g = .there) (n : Nat) :
    ∃ b, s.serveGlobal g (.read n) =
      (if s.reaches (fld g 44 20) then codeOf (Config.remoteCode s.free g n) else .unreachable, b,
        { s with free := s.free + 1 }) := by
  simp only [State.serveGlobal, State.gRead, h]
  exact ⟨_, rfl⟩

/-- On no path there are no bytes to answer. -/
theorem State.serveGlobal_read_of_no_path {s : State} {g : Nat} (h : s.serve g = .there)
    (cut : s.reaches (fld g 44 20) = false) (n : Nat) :
    s.serveGlobal g (.read n) = (.unreachable, [], { s with free := s.free + 1 }) := by
  simp [State.serveGlobal, State.gRead, h, cut]

/-- An access of another module is served at its local address and joins no round (R330, log 23). -/
theorem exec_remoteAccess_of_served {s : State} (on : s.hubOn = true) (unfenced : s.fencedAll = false)
    (a : BitVec 44) (op : MemOp) :
    exec (.remoteAccess a op) s =
      .next ((s.serveLocal a.toNat op).2.2.emit (.access 255 (s.serveLocal a.toNat op).1 (s.serveLocal a.toNat op).2.1)) := by
  simp [exec, execRemoteAccess, on, unfenced]

/-- Settles O10: the node field and the layout say which module serves, and that says what the access answers; the
free answers of other modules (log 5) and an access of theirs outside arbitration (log 23) are the model's choices. -/
theorem addressedModules : Obligations.AddressedModules := by
  rintro s g _ rfl
  refine ⟨?own, ?outside, ?inside, fun a op on unfenced => exec_remoteAccess_of_served on unfenced a op⟩
  case own =>
    rintro own _ rfl
    have here := State.serve_of_own own
    exact ⟨here, State.serveGlobal_of_here here⟩
  case outside =>
    intro named other outside
    have nowhere : s.serve g = .nowhere := by simp [State.serve_of_other named other, outside]
    exact ⟨fun n => State.serveGlobal_of_nowhere nowhere _, fun b lost => State.serveGlobal_of_nowhere nowhere _⟩
  case inside =>
    intro named other inside
    have there : s.serve g = .there := by simp [State.serve_of_other named other, inside]
    refine ⟨there, State.serveGlobal_read_of_no_path there, fun path n => ?_⟩
    simpa only [path, if_true] using State.serveGlobal_read_of_there there n

end Sys2Proof.Machine
end

section
/-! PROOFS of the step family: what a step takes from the queue, that every command completes, and what every command
and every nanosecond keep. -/

namespace Sys2Proof.Machine
open Sys2Proof

/-! ## A step, and the end of a command -/

theorem step_of_idle {s : State} (h : s.pending = []) : step s = .next s.tick := by
  simp only [step, h]

theorem step_of_pending {s : State} {c : Instr} {rest : List Instr} (h : s.pending = c :: rest) :
    step s = exec c { s with pending := rest } := by
  simp only [step, h]

/-- Settles O1: the two cases of the queue. -/
theorem stepTakesTheFront : Obligations.StepTakesTheFront :=
  ⟨fun _ _ _ => step_of_pending rfl, fun _ => step_of_idle⟩

/-- Settles O2: the meaning of each command is written as a next state (log 1: a command never stops the machine). -/
theorem everyCommandCompletes : Obligations.EveryCommandCompletes := by
  intro c s
  cases c <;> exact ⟨_, rfl⟩

/-! ## Invariants of steps -/

variable {P : State → Prop}

theorem State.good_iff {s : State} : s.good = true ↔ Memory.wf s.mem = true ∧ Regs.wf s.csr = true := by
  simp only [State.good, Bool.and_eq_true]

/-- The reset state with what power-on leaves as it was in s. -/
def State.powerOnBase (s : State) : State :=
  { State.reset with
    pending := s.pending, wall := s.wall, offAt := s.offAt, free := s.free, out := s.out, flash := s.flash,
    repair := { State.reset.repair with overlay := s.repair.overlay, spared := s.repair.spared, retired := s.repair.retired },
    lamps := s.lamps.map fun (e : Nat × LampState) => (e.1, e.2.seatedOnly),
    pwr := { s.pwr with phase := .on, lampsDone := false, scanIr := [], scanCells := [] } }

/-- What power-on makes of the package: Studio SRAM, whose contents are not defined, then the start-up registers. -/
theorem State.powerOn_eq (s : State) :
    s.powerOn = ((s.tornCopy.mem.filter fun e => regionOf e.1 = .studio).foldl (fun r e => r.undef e.1 1)
      s.tornCopy.powerOnBase).loadMasks.loadTrainTable := rfl

/-- P survives power-on when it survives the writes of power-on and holds where they begin. -/
theorem State.powerOn_keeps_of (wr : ∀ {s : State} {k v : Nat}, P s → P (s.wr k v))
    (resetRegs : ∀ {s : State} {p : Nat → Bool}, P s → P (s.resetRegs p))
    (poke : ∀ {s : State} {a : Nat} {bs : List Byte}, P s → P (s.poke a bs))
    (free : ∀ {s : State} (n : Nat), P s → P { s with free := n })
    {s : State} (base : P s.tornCopy.powerOnBase) : P s.powerOn := by
  have undefined : ∀ (r : State) (e : Nat × Byte), P r → P (r.undef e.1 1) := fun r e h => poke (free _ h)
  rw [State.powerOn_eq]
  refine foldl_keeps (fun _ _ => wr) (foldl_keeps (fun r e h => ?_) (resetRegs (foldl_keeps undefined base)))
  split
  · exact wr h
  · exact h

theorem State.tornCopy_out (s : State) : s.tornCopy.out = s.out := by
  unfold State.tornCopy
  split <;> rfl

theorem State.tornCopy_pending (s : State) : s.tornCopy.pending = s.pending := by
  unfold State.tornCopy
  split <;> rfl

theorem State.tornCopy_fixed (s : State) : Flash.fixed s.tornCopy.flash = Flash.fixed s.flash := by
  unfold State.tornCopy
  split <;> rfl

/-- A property of the fixed parts of flash is closed. -/
theorem closed_fixed {α : Type} (f : List Byte × List Byte × List Byte × SMap W32 × SMap W32 × SMap (List Byte) ×
    Option (List Byte × Nat) → α) (x : α) : Closed fun t => f (Flash.fixed t.flash) = x where
  rest h same := (congrArg f same).trans h
  wr h := h
  resetRegs h := h
  poke h := h
  zero h := h
  emit h := h
  powerOn {s} h := State.powerOn_keeps_of (P := fun t => f (Flash.fixed t.flash) = x) (fun h => h) (fun h => h) (fun h => h)
    (fun _ h => h) ((congrArg f s.tornCopy_fixed).trans h)

theorem State.good_wr {s : State} (h : s.good = true) (k v : Nat) : (s.wr k v).good = true :=
  State.good_iff.2 ⟨(State.good_iff.1 h).1, Regs.wf_wr (State.good_iff.1 h).2 k v⟩

theorem State.good_resetRegs {s : State} (h : s.good = true) (p : Nat → Bool) : (s.resetRegs p).good = true :=
  State.good_iff.2 ⟨(State.good_iff.1 h).1, Regs.wf_resetRegs (State.good_iff.1 h).2 p⟩

theorem State.good_poke {s : State} (h : s.good = true) (a : Nat) (bs : List Byte) : (s.poke a bs).good = true :=
  State.good_iff.2 ⟨Memory.wf_poke (State.good_iff.1 h).1 a bs, (State.good_iff.1 h).2⟩

theorem State.good_zero {s : State} (h : s.good = true) (a n : Nat) : (s.zero a n).good = true :=
  State.good_iff.2 ⟨Memory.wf_zero (State.good_iff.1 h).1 a n, (State.good_iff.1 h).2⟩

/-- Memory and registers list nothing where power-on begins. -/
theorem State.good_powerOnBase (s : State) : s.powerOnBase.good = true := rfl

theorem closed_good : Closed fun s => s.good = true where
  rest h _ := h
  wr h := State.good_wr h _ _
  resetRegs h := State.good_resetRegs h _
  poke h := State.good_poke h _ _
  zero h := State.good_zero h _ _
  emit h := h
  powerOn _ := State.powerOn_keeps_of (P := fun s => s.good = true) (fun h => State.good_wr h _ _) (fun h => State.good_resetRegs h _)
    (fun h => State.good_poke h _ _) (fun _ h => h) (State.good_powerOnBase _)

/-- The queue stays as it is, and what has been sent stays sent. -/
theorem closed_queue (l : List Instr) (o : List Out) : Closed fun t => t.pending = l ∧ o <+: t.out where
  rest h _ := h
  wr h := h
  resetRegs h := h
  poke h := h
  zero h := h
  emit h := ⟨h.1, h.2.trans (List.prefix_append _ _)⟩
  powerOn {s} h := State.powerOn_keeps_of (P := fun t => t.pending = l ∧ o <+: t.out) (fun h => h) (fun h => h)
    (fun h => h) (fun _ h => h) ⟨s.tornCopy_pending.trans h.1, s.tornCopy_out ▸ h.2⟩

/-- A step keeps a closed property that does not speak of the queue or of the owner record. -/
theorem step_keeps (hP : Closed P) (hO : OwnerFree P) (queue : ∀ {s : State} (l : List Instr), P s → P { s with pending := l })
    {s t : State} (h : P s) (e : step s = .next t) : P t := by
  cases hq : s.pending with
  | nil =>
    rw [step_of_idle hq] at e
    cases e
    exact State.tick_keeps hP h
  | cons c rest =>
    rw [step_of_pending hq] at e
    exact exec_keeps hP hO (queue rest h) c t e

/-- Settles O3. -/
theorem goodStatesStayGood : Obligations.GoodStatesStayGood := fun _ _ good e =>
  step_keeps closed_good ⟨fun h => h⟩ (fun _ h => h) good e

/-- Settles O4. -/
theorem queueAndMessages : Obligations.QueueAndMessages := fun c s t e =>
  exec_keeps (closed_queue s.pending s.out) ⟨fun h => h⟩ ⟨rfl, List.prefix_refl _⟩ c t e

/-! ## The owner record -/

/-- The commands that write the owner record (R515). -/
def writesOwner : Instr → Bool
  | .claimSession _ _ _ _ _ _ | .transferSession _ _ _ _ _ _ | .releaseSession _ _ _ _ _ _ => true
  | _ => false

theorem State.headIs_sub {s t : State} {op : Nat} {sub : List Byte → Bool} {e : HcpEntry}
    (h : s.headIs op sub = some (e, t)) : sub e.block = true := by
  unfold State.headIs at h
  split at h
  · cases h
  · split at h
    case isTrue go =>
      simp only [Bool.and_eq_true] at go
      cases h
      split <;> exact go.1.2
    case isFalse => cases h

/-- OPEN leaves the owner record as it is. -/
theorem State.setOwner_ownerAfter_of_open (s : State) {b : List Byte} (h : leAt b 0 1 = 0) :
    s.setOwner (s.ownerAfter b) = s := by
  simp only [State.ownerAfter, h]
  rfl

/-- OPEN keeps a closed property, the owner record's among them. -/
theorem State.openGo_keeps_of_open (hP : Closed P) {s : State} {b : List Byte} (mode : leAt b 0 1 = 0) (h : P s) :
    P (s.openGo b).2.2 := by
  have closes : ¬ leAt b 0 1 ≥ 2 := by omega
  simp only [State.openGo, State.setOwner_ownerAfter_of_open _ mode, closes, if_false]
  refine State.putSession_keeps hP (State.random_keeps hP (State.random_keeps hP (State.random_keeps hP ?_)))
  split
  · split
    · exact State.raise_keeps hP (State.orBits_keeps hP (State.endSession_keeps hP h))
    · exact h
  · exact h

theorem State.openBad_of_mode {s : State} {b : List Byte} (h : leAt b 0 1 > 3) : s.openBad b = true := by
  simp [State.openBad, h]

theorem execOpenSession_keeps_owner (hP : Closed P) {cSig cert own z fl slow : Bool} {s : State} (h : P s) :
    AllNext P (execOpenSession cSig cert own z fl slow s) := by
  refine AllNext.next ?_
  unfold State.openSession State.runCommand
  split
  · exact h
  case h_2 e t head =>
    have ht : P t := State.headIs_keeps hP h _ _ head
    have mode : leAt e.block 0 1 = 0 ∨ leAt e.block 0 1 > 3 := by simpa using State.headIs_sub head
    split
    · refine State.answer_keeps hP ht ?_
      dsimp only
      split
      · exact State.openRefuse_keeps hP ht
      next sound =>
        have opens : leAt e.block 0 1 = 0 := mode.resolve_right fun big => sound (State.openBad_of_mode big)
        split
        · exact State.openRefuse_keeps hP ht
        · split
          · exact State.openRefuse_keeps hP ht
          · split
            · exact State.openRefuse_keeps hP ht
            · exact State.openGo_keeps_of_open hP opens ht
    · exact State.finish_keeps hP ht

/-- A command that does not write the owner record keeps a closed property, one of the owner record too. -/
theorem exec_keeps_of_not_writesOwner (hP : Closed P) {s : State} (h : P s) (c : Instr) (quiet : writesOwner c = false) :
    AllNext P (exec c s) := by
  cases c with
  | registerWrite => exact execRegisterWrite_keeps hP h
  | inputPowerApplied => exact execInputPowerApplied_keeps hP h
  | inputPowerLost => exact execInputPowerLost_keeps hP h
  | pwrEnRise => exact execPwrEnRise_keeps hP h
  | pwrGoodRelease => exact execPwrGoodRelease_keeps hP h
  | pwrEnFall => exact execPwrEnFall_keeps hP h
  | emergOffExternal => exact execEmergOffExternal_keeps hP h
  | inputOvervoltage => exact execInputOvervoltage_keeps hP h
  | inputUndervoltage => exact execInputUndervoltage_keeps hP h
  | inputOutOfRange => exact execInputOutOfRange_keeps hP h
  | railFault => exact execRailFault_keeps hP h
  | railWarn => exact execRailWarn_keeps hP h
  | thermalTrip => exact execThermalTrip_keeps hP h
  | smbStatus => exact execSmbStatus_keeps hP h
  | smbInputVoltage => exact execSmbInputVoltage_keeps hP h
  | smbInputCurrent => exact execSmbInputCurrent_keeps hP h
  | smbInputPower => exact execSmbInputPower_keeps hP h
  | smbHottest => exact execSmbHottest_keeps hP h
  | smbInlet => exact execSmbInlet_keeps hP h
  | smbOutlet => exact execSmbOutlet_keeps hP h
  | smbOffCause => exact execSmbOffCause_keeps hP h
  | smbAlertSource => exact execSmbAlertSource_keeps hP h
  | smbAlertClear => exact execSmbAlertClear_keeps hP h
  | smbIdentity => exact execSmbIdentity_keeps hP h
  | smbAlertResponse => exact execSmbAlertResponse_keeps hP h
  | pwrOffCauseClear => exact execPwrOffCauseClear_keeps hP h
  | scanBypass => exact execScanBypass_keeps hP h
  | scanIdcode => exact execScanIdcode_keeps hP h
  | scanSample => exact execScanSample_keeps hP h
  | scanExtest => exact execScanExtest_keeps hP h
  | scanClamp => exact execScanClamp_keeps hP h
  | scanHighz => exact execScanHighz_keeps hP h
  | hcpPacket => exact execHcpPacket_keeps hP h
  | relay => exact execRelay_keeps hP h
  | fragmentTimeout => exact execFragmentTimeout_keeps hP h
  | neighbourDiscovery => exact execNeighbourDiscovery_keeps hP h
  | echoRequest => exact execEchoRequest_keeps hP h
  | pendingCommandComplete => exact execPendingCommandComplete_keeps hP h
  | hello => exact execHello_keeps hP h
  | attest => exact execAttest_keeps hP h
  | openSession => exact execOpenSession_keeps_owner hP h
  | claimSession => exact Bool.noConfusion quiet
  | transferSession => exact Bool.noConfusion quiet
  | releaseSession => exact Bool.noConfusion quiet
  | closeSession => exact execCloseSession_keeps hP h
  | readCsr => exact execReadCsr_keeps hP h
  | writeCsr => exact execWriteCsr_keeps hP h
  | getInfo => exact execGetInfo_keeps hP h
  | readMem => exact execReadMem_keeps hP h
  | writeMem => exact execWriteMem_keeps hP h
  | copyMem => exact execCopyMem_keeps hP h
  | flush => exact execFlush_keeps hP h
  | fence => exact execFence_keeps hP h
  | loadProgram => exact execLoadProgram_keeps hP h
  | runSteps => exact execRunSteps_keeps hP h
  | haltSteps => exact execHaltSteps_keeps hP h
  | abortJob => exact execAbortJob_keeps hP h
  | stepStatus => exact execStepStatus_keeps hP h
  | defineTable => exact execDefineTable_keeps hP h
  | dropTable => exact execDropTable_keeps hP h
  | restoreRow => exact execRestoreRow_keeps hP h
  | hotrowPolicy => exact execHotrowPolicy_keeps hP h
  | flushJournal => exact execFlushJournal_keeps hP h
  | loadCalibration => exact execLoadCalibration_keeps hP h
  | setLossScale => exact execSetLossScale_keeps hP h
  | readNumericFlags => exact execReadNumericFlags_keeps hP h
  | clearNumericFlags => exact execClearNumericFlags_keeps hP h
  | traceConfig => exact execTraceConfig_keeps hP h
  | setLayout => exact execSetLayout_keeps hP h
  | reshard => exact execReshard_keeps hP h
  | digestCheck => exact execDigestCheck_keeps hP h
  | digestMessage => exact execDigestMessage_keeps hP h
  | linkStatus => exact execLinkStatus_keeps hP h
  | linkStatusRetrain => exact execLinkStatusRetrain_keeps hP h
  | linkStatusDisable => exact execLinkStatusDisable_keeps hP h
  | linkStatusEnable => exact execLinkStatusEnable_keeps hP h
  | parityConfigure => exact execParityConfigure_keeps hP h
  | parityRepair => exact execParityRepair_keeps hP h
  | parityDisable => exact execParityDisable_keeps hP h
  | setClockSource => exact execSetClockSource_keeps hP h
  | setPerfPoint => exact execSetPerfPoint_keeps hP h
  | lampStatus => exact execLampStatus_keeps hP h
  | lampRetire => exact execLampRetire_keeps hP h
  | readRecords => exact execReadRecords_keeps hP h
  | clearSticky => exact execClearSticky_keeps hP h
  | monitorConfig => exact execMonitorConfig_keeps hP h
  | monitorRead => exact execMonitorRead_keeps hP h
  | exportState => exact execExportState_keeps hP h
  | importState => exact execImportState_keeps hP h
  | acceptTorn => exact execAcceptTorn_keeps hP h
  | updateFirmware => exact execUpdateFirmware_keeps hP h
  | firmwareCopyWritten => exact execFirmwareCopyWritten_keeps hP h
  | resetTile => exact execResetTile_keeps hP h
  | resetModule => exact execResetModule_keeps hP h
  | feedSample => exact execFeedSample_keeps hP h
  | indexEnd => exact execIndexEnd_keeps hP h
  | batchEnd => exact execBatchEnd_keeps hP h
  | stateIn => exact execStateIn_keeps hP h
  | stateCredit => exact execStateCredit_keeps hP h
  | exportCreditTimeout => exact execExportCreditTimeout_keeps hP h
  | feedStatusTimer => exact execFeedStatusTimer_keeps hP h
  | feedRegisterWrite => exact execFeedRegisterWrite_keeps hP h
  | stepStart => exact execStepStart_keeps hP h
  | feedCopyEnd => exact execFeedCopyEnd_keeps hP h
  | feedTimeout => exact execFeedTimeout_keeps hP h
  | nopDesc => exact execNopDesc_keeps hP h
  | matmul => exact execMatmul_keeps hP h
  | veRun => exact execVeRun_keeps hP h
  | shareDispatch => exact execShareDispatch_keeps hP h
  | embLookup => exact execEmbLookup_keeps hP h
  | embGrad => exact execEmbGrad_keeps hP h
  | embApply => exact execEmbApply_keeps hP h
  | prefetch => exact execPrefetch_keeps hP h
  | easelLoad => exact execEaselLoad_keeps hP h
  | easelFence => exact execEaselFence_keeps hP h
  | windowTimeout => exact execWindowTimeout_keeps hP h
  | allGather => exact execAllGather_keeps hP h
  | reduceScatter => exact execReduceScatter_keeps hP h
  | allReduce => exact execAllReduce_keeps hP h
  | colBroadcast => exact execColBroadcast_keeps hP h
  | colShift => exact execColShift_keeps hP h
  | collectiveMessage => exact execCollectiveMessage_keeps hP h
  | quantDesc => exact execQuantDesc_keeps hP h
  | updateDesc => exact execUpdateDesc_keeps hP h
  | copyDesc => exact execCopyDesc_keeps hP h
  | memFence => exact execMemFence_keeps hP h
  | flagReduce => exact execFlagReduce_keeps hP h
  | flagReduceResult => exact execFlagReduceResult_keeps hP h
  | endStep => exact execEndStep_keeps hP h
  | descriptorComplete => exact execDescriptorComplete_keeps hP h
  | fenceBegin => exact execFenceBegin_keeps hP h
  | fenceMessage => exact execFenceMessage_keeps hP h
  | arrivalBarrierComplete => exact execArrivalBarrierComplete_keeps hP h
  | completionBarrierComplete => exact execCompletionBarrierComplete_keeps hP h
  | startBarrierComplete => exact execStartBarrierComplete_keeps hP h
  | podTimeout => exact execPodTimeout_keeps hP h
  | stepAbortNotice => exact execStepAbortNotice_keeps hP h
  | clearMixed => exact execClearMixed_keeps hP h
  | seqStepSet => exact execSeqStepSet_keeps hP h
  | mma => exact execMma_keeps hP h
  | tileNop => exact execTileNop_keeps hP h
  | chainReductionEnd => exact execChainReductionEnd_keeps hP h
  | chainConversionEnd => exact execChainConversionEnd_keeps hP h
  | confirm => exact execConfirm_keeps hP h
  | replay => exact execReplay_keeps hP h
  | meWatchdogExpiry => exact execMeWatchdogExpiry_keeps hP h
  | dmaTransferComplete => exact execDmaTransferComplete_keeps hP h
  | spareSelftestStart => exact execSpareSelftestStart_keeps hP h
  | spareSelftestEnd => exact execSpareSelftestEnd_keeps hP h
  | repairRequestCommit => exact execRepairRequestCommit_keeps hP h
  | qzPaletteWrite => exact execQzPaletteWrite_keeps hP h
  | veShareStart => exact execVeShareStart_keeps hP h
  | veShareComplete => exact execVeShareComplete_keeps hP h
  | veInsnLimitExpiry => exact execVeInsnLimitExpiry_keeps hP h
  | veNop => exact execVeNop_keeps hP h
  | halt => exact execHalt_keeps hP h
  | jmp => exact execJmp_keeps hP h
  | bz => exact execBz_keeps hP h
  | bnz => exact execBnz_keeps hP h
  | loop => exact execLoop_keeps hP h
  | dmawait => exact execDmawait_keeps hP h
  | sli => exact execSli_keeps hP h
  | slui => exact execSlui_keeps hP h
  | sadd => exact execSadd_keeps hP h
  | ssub => exact execSsub_keeps hP h
  | smul => exact execSmul_keeps hP h
  | sand => exact execSand_keeps hP h
  | sor => exact execSor_keeps hP h
  | sxor => exact execSxor_keeps hP h
  | sshl => exact execSshl_keeps hP h
  | sshr => exact execSshr_keeps hP h
  | scmplt => exact execScmplt_keeps hP h
  | scmpeq => exact execScmpeq_keeps hP h
  | sld => exact execSld_keeps hP h
  | sst => exact execSst_keeps hP h
  | sget => exact execSget_keeps hP h
  | vld => exact execVld_keeps hP h
  | vst => exact execVst_keeps hP h
  | vld16 => exact execVld16_keeps hP h
  | vst16 => exact execVst16_keeps hP h
  | vld8 => exact execVld8_keeps hP h
  | vst8 => exact execVst8_keeps hP h
  | vldp => exact execVldp_keeps hP h
  | vstp => exact execVstp_keeps hP h
  | vgather => exact execVgather_keeps hP h
  | vscatter => exact execVscatter_keeps hP h
  | vbcast => exact execVbcast_keeps hP h
  | popt => exact execPopt_keeps hP h
  | fadd => exact execFadd_keeps hP h
  | fsub => exact execFsub_keeps hP h
  | fmul => exact execFmul_keeps hP h
  | ffma => exact execFfma_keeps hP h
  | fdiv => exact execFdiv_keeps hP h
  | fsqrt => exact execFsqrt_keeps hP h
  | fmin => exact execFmin_keeps hP h
  | fmax => exact execFmax_keeps hP h
  | fabs => exact execFabs_keeps hP h
  | fneg => exact execFneg_keeps hP h
  | fexp2 => exact execFexp2_keeps hP h
  | flog2 => exact execFlog2_keeps hP h
  | frsqrt => exact execFrsqrt_keeps hP h
  | fcmpeq => exact execFcmpeq_keeps hP h
  | fcmplt => exact execFcmplt_keeps hP h
  | fcmple => exact execFcmple_keeps hP h
  | iadd => exact execIadd_keeps hP h
  | isub => exact execIsub_keeps hP h
  | imul => exact execImul_keeps hP h
  | iadds => exact execIadds_keeps hP h
  | imin => exact execImin_keeps hP h
  | imax => exact execImax_keeps hP h
  | vand => exact execVand_keeps hP h
  | vor => exact execVor_keeps hP h
  | vxor => exact execVxor_keeps hP h
  | vshl => exact execVshl_keeps hP h
  | vshr => exact execVshr_keeps hP h
  | vsra => exact execVsra_keeps hP h
  | icmpeq => exact execIcmpeq_keeps hP h
  | icmplt => exact execIcmplt_keeps hP h
  | iaddi => exact execIaddi_keeps hP h
  | cvt => exact execCvt_keeps hP h
  | cvts => exact execCvts_keeps hP h
  | fcvti => exact execFcvti_keeps hP h
  | icvtf => exact execIcvtf_keeps hP h
  | vsel => exact execVsel_keeps hP h
  | vperm => exact execVperm_keeps hP h
  | vrot => exact execVrot_keeps hP h
  | vgetl => exact execVgetl_keeps hP h
  | vsetl => exact execVsetl_keeps hP h
  | vmov => exact execVmov_keeps hP h
  | fredsum => exact execFredsum_keeps hP h
  | fredmax => exact execFredmax_keeps hP h
  | fredmin => exact execFredmin_keeps hP h
  | iredsum => exact execIredsum_keeps hP h
  | iredmax => exact execIredmax_keeps hP h
  | iredmin => exact execIredmin_keeps hP h
  | mand => exact execMand_keeps hP h
  | mor => exact execMor_keeps hP h
  | mxor => exact execMxor_keeps hP h
  | mnot => exact execMnot_keeps hP h
  | mset => exact execMset_keeps hP h
  | mget => exact execMget_keeps hP h
  | mpop => exact execMpop_keeps hP h
  | rand => exact execRand_keeps hP h
  | maskgen => exact execMaskgen_keeps hP h
  | dmaget => exact execDmaget_keeps hP h
  | dmaput => exact execDmaput_keeps hP h
  | quantJobStart => exact execQuantJobStart_keeps hP h
  | quantConversionEnd => exact execQuantConversionEnd_keeps hP h
  | quantReconversionEnd => exact execQuantReconversionEnd_keeps hP h
  | traceCopyEnd => exact execTraceCopyEnd_keeps hP h
  | traceRecomputeEnd => exact execTraceRecomputeEnd_keeps hP h
  | blockStageStart => exact execBlockStageStart_keeps hP h
  | blockStaged => exact execBlockStaged_keeps hP h
  | blockCommitWriteDone => exact execBlockCommitWriteDone_keeps hP h
  | recipeWrite => exact execRecipeWrite_keeps hP h
  | recipeCommit => exact execRecipeCommit_keeps hP h
  | rowWriteDone => exact execRowWriteDone_keeps hP h
  | embRequest => exact execEmbRequest_keeps hP h
  | rowReadDone => exact execRowReadDone_keeps hP h
  | poolShareComplete => exact execPoolShareComplete_keeps hP h
  | pooledResponse => exact execPooledResponse_keeps hP h
  | rowsResponse => exact execRowsResponse_keeps hP h
  | contribution => exact execContribution_keeps hP h
  | changeList => exact execChangeList_keeps hP h
  | commonsRefresh => exact execCommonsRefresh_keeps hP h
  | memoryAccess => exact execMemoryAccess_keeps hP h
  | remoteAccess => exact execRemoteAccess_keeps hP h
  | readCompletion => exact execReadCompletion_keeps hP h
  | parityDelta => exact execParityDelta_keeps hP h
  | patrolScrub => exact execPatrolScrub_keeps hP h
  | journalAreaCleared => exact execJournalAreaCleared_keeps hP h
  | delayWrite => exact execDelayWrite_keeps hP h
  | holdCutoff => exact execHoldCutoff_keeps hP h
  | withdraw => exact execWithdraw_keeps hP h
  | dataBlock => exact execDataBlock_keeps hP h
  | idleBlock => exact execIdleBlock_keeps hP h
  | nakTimer => exact execNakTimer_keeps hP h
  | replayTimeout => exact execReplayTimeout_keeps hP h
  | messageReceived => exact execMessageReceived_keeps hP h
  | identBlock => exact execIdentBlock_keeps hP h
  | trainMarker => exact execTrainMarker_keeps hP h
  | keyBlock => exact execKeyBlock_keeps hP h
  | laneSwap => exact execLaneSwap_keeps hP h
  | timeBlock => exact execTimeBlock_keeps hP h
  | downBlock => exact execDownBlock_keeps hP h
  | trainingStart => exact execTrainingStart_keeps hP h
  | laneLock => exact execLaneLock_keeps hP h
  | presetSweepEnd => exact execPresetSweepEnd_keeps hP h
  | alignmentDone => exact execAlignmentDone_keeps hP h
  | trainingTimeout => exact execTrainingTimeout_keeps hP h
  | laneWindow => exact execLaneWindow_keeps hP h
  | alignmentLost => exact execAlignmentLost_keeps hP h
  | retrainDone => exact execRetrainDone_keeps hP h
  | retrainTimeout => exact execRetrainTimeout_keeps hP h
  | linkStateMessage => exact execLinkStateMessage_keeps hP h
  | timePeriod => exact execTimePeriod_keeps hP h
  | lnkEnable => exact execLnkEnable_keeps hP h
  | lnkRetrain => exact execLnkRetrain_keeps hP h
  | lnkFullTrain => exact execLnkFullTrain_keeps hP h
  | lampInserted => exact execLampInserted_keeps hP h
  | lampAuthResponse => exact execLampAuthResponse_keeps hP h
  | lampAuthTimeout => exact execLampAuthTimeout_keeps hP h
  | lampPulled => exact execLampPulled_keeps hP h
  | lampInterlock => exact execLampInterlock_keeps hP h
  | lampFail => exact execLampFail_keeps hP h
  | rampEnd => exact execRampEnd_keeps hP h
  | lampMinute => exact execLampMinute_keeps hP h
  | lampHour => exact execLampHour_keeps hP h
  | lampBiasSample => exact execLampBiasSample_keeps hP h
  | autoLight => exact execAutoLight_keeps hP h
  | openFibreBlock => exact execOpenFibreBlock_keeps hP h
  | openFibreProbe => exact execOpenFibreProbe_keeps hP h
  | layoutArrivalBarrier => exact execLayoutArrivalBarrier_keeps hP h
  | layoutCompletionBarrier => exact execLayoutCompletionBarrier_keeps hP h
  | rebuildEnd => exact execRebuildEnd_keeps hP h
  | podInstall => exact execPodInstall_keeps hP h
  | podClear => exact execPodClear_keeps hP h
  | extendGo => exact execExtendGo_keeps hP h
  | rngHealthFail => exact execRngHealthFail_keeps hP h
  | clockWindow => exact execClockWindow_keeps hP h
  | edgeLoss => exact execEdgeLoss_keeps hP h
  | tempSample => exact execTempSample_keeps hP h
  | powerWindow => exact execPowerWindow_keeps hP h
  | pointChange => exact execPointChange_keeps hP h
  | loadEstimate => exact execLoadEstimate_keeps hP h
  | eventReached => exact execEventReached_keeps hP h
  | monitorSample => exact execMonitorSample_keeps hP h
  | bootRomDone => exact execBootRomDone_keeps hP h
  | domainsUngated => exact execDomainsUngated_keeps hP h
  | coreSelftestEnd => exact execCoreSelftestEnd_keeps hP h
  | hbmTrained => exact execHbmTrained_keeps hP h
  | dimmsTrained => exact execDimmsTrained_keeps hP h
  | reeveStart => exact execReeveStart_keeps hP h
  | lampsLit => exact execLampsLit_keeps hP h
  | granaryZeroed => exact execGranaryZeroed_keeps hP h
  | emergOffRelease => exact execEmergOffRelease_keeps hP h
  | inputReturnsToRange => exact execInputReturnsToRange_keeps hP h
  | rngHealthRestored => exact execRngHealthRestored_keeps hP h
  | digestJoinTimeout => exact execDigestJoinTimeout_keeps hP h
  | parityJoinTimeout => exact execParityJoinTimeout_keeps hP h
  | illegalOpcode => exact execIllegalOpcode_keeps hP h

/-- Settles O5. -/
theorem ownerAndIdentity : Obligations.OwnerAndIdentity := by
  intro c s t e
  have identity := exec_keeps (closed_fixed (fun f => (f.1, f.2.1, f.2.2.1, f.2.2.2.1, f.2.2.2.2.1, f.2.2.2.2.2.1)) _)
    ⟨fun h => h⟩ (s := s) rfl c t e
  have owner := closed_fixed (fun f => f.2.2.2.2.2.2) s.flash.owner
  have tick : s.tick.flash.owner = s.flash.owner := State.tick_keeps owner rfl
  simp only [Prod.mk.injEq] at identity
  obtain ⟨serial, cert, birth, train, curves, macs⟩ := identity
  refine ⟨serial, cert, birth, train, curves, macs, tick, ?_⟩
  split
  iterate 3 trivial
  case h_4 claim transfer release =>
    have quiet : writesOwner c = false := by
      unfold writesOwner
      split
      · exact (claim _ _ _ _ _ _ rfl).elim
      · exact (transfer _ _ _ _ _ _ rfl).elim
      · exact (release _ _ _ _ _ _ rfl).elim
      · rfl
    exact exec_keeps_of_not_writesOwner owner rfl c quiet t e

/-! ## The reset state -/

/-- Settles O6: the reset state lists nothing, so each register reads its reset value and each byte 0 (logs 6, 7, 64
and 65 choose those that the spec leaves open). -/
theorem resetState : Obligations.ResetState :=
  ⟨rfl, rfl, rfl, fun _ => rfl, fun _ => rfl, rfl, rfl, rfl, rfl, rfl⟩

end Sys2Proof.Machine
end

section
/-! PROOFS of the register and memory family: what bit fields, registers and stored bytes read after an update. -/

namespace Sys2Proof.Machine
open Sys2Proof

/-! ## Conditionals and lists -/

theorem ite_of_iff {α : Type} {p q : Prop} [Decidable p] [Decidable q] {a b c d : α} (h : p ↔ q) (yes : a = c)
    (no : b = d) : (if p then a else b) = if q then c else d := ite_congr (propext h) (fun _ => yes) fun _ => no

theorem getD_of_lt {α : Type} {l : List α} {i : Nat} (h : i < l.length) (d : α) : l.getD i d = l[i] := by
  rw [List.getD_eq_getElem?_getD, List.getElem?_eq_getElem h, Option.getD_some]

theorem foldl_range_succ {α : Type} (f : α → Nat → α) (a : α) (n : Nat) :
    (List.range (n + 1)).foldl f a = f ((List.range n).foldl f a) n := by
  rw [List.range_succ, List.foldl_append, List.foldl_cons, List.foldl_nil]

/-! ## Bit fields, bit by bit -/

theorem testBit_fld (v lo w i : Nat) : (fld v lo w).testBit i = (decide (i < w) && v.testBit (lo + i)) := by
  simp [fld, Nat.testBit_mod_two_pow, Nat.testBit_div_two_pow, Nat.add_comm]

theorem bit_eq_testBit (v i : Nat) : bit v i = v.testBit i := by
  rw [Nat.testBit_eq_decide_div_mod_eq]
  rfl

theorem fld_lt (v lo w : Nat) : fld v lo w < 2 ^ w := Nat.mod_lt _ (Nat.two_pow_pos w)

/-- The number with the field replaced, as its three parts. -/
theorem setFld_eq (v lo w x : Nat) :
    setFld v lo w x = 2 ^ lo * (2 ^ w * (v / 2 ^ lo / 2 ^ w) + x % 2 ^ w) + v % 2 ^ lo := by
  have low : v = 2 ^ lo * (v / 2 ^ lo) + v % 2 ^ lo := (Nat.div_add_mod v (2 ^ lo)).symm
  have high : 2 ^ lo * (v / 2 ^ lo) = 2 ^ lo * (2 ^ w * (v / 2 ^ lo / 2 ^ w)) + fld v lo w * 2 ^ lo := by
    rw [fld, Nat.mul_comm (_ % _), ← Nat.mul_add, Nat.div_add_mod]
  rw [setFld, Nat.mul_add, Nat.mul_comm (2 ^ lo) (x % 2 ^ w)]
  omega

theorem testBit_setFld (v lo w x i : Nat) :
    (setFld v lo w x).testBit i = if lo ≤ i ∧ i < lo + w then x.testBit (i - lo) else v.testBit i := by
  have xlt : x % 2 ^ w < 2 ^ w := Nat.mod_lt _ (Nat.two_pow_pos w)
  rw [setFld_eq, Nat.testBit_two_pow_mul_add _ (Nat.mod_lt _ (Nat.two_pow_pos lo))]
  by_cases below : i < lo
  · rw [if_pos below, if_neg (by omega), Nat.testBit_mod_two_pow, decide_eq_true below, Bool.true_and]
  · rw [if_neg below, Nat.testBit_two_pow_mul_add _ xlt]
    by_cases inside : i - lo < w
    · rw [if_pos inside, if_pos (by omega), Nat.testBit_mod_two_pow, decide_eq_true inside, Bool.true_and]
    · rw [if_neg inside, if_neg (by omega), Nat.testBit_div_two_pow, Nat.testBit_div_two_pow]
      congr 1
      omega

theorem setFld_lt {v lo w n : Nat} (hv : v < 2 ^ n) (hw : lo + w ≤ n) (x : Nat) : setFld v lo w x < 2 ^ n := by
  refine Nat.lt_pow_two_of_testBit _ fun i hi => ?_
  rw [testBit_setFld, if_neg (by omega)]
  exact Nat.testBit_lt_two_pow (Nat.lt_of_lt_of_le hv (Nat.pow_le_pow_right (by decide) hi))

/-- The field reads what was put in it. -/
theorem fld_setFld_same (v lo w x : Nat) : fld (setFld v lo w x) lo w = x % 2 ^ w := by
  refine Nat.eq_of_testBit_eq fun i => ?_
  rw [testBit_fld, testBit_setFld, Nat.testBit_mod_two_pow]
  by_cases hi : i < w
  · rw [if_pos (by omega), Nat.add_sub_cancel_left]
  · simp [hi]

/-- A field apart from it reads as before. -/
theorem fld_setFld_apart {lo w lo' w' : Nat} (h : lo' + w' ≤ lo ∨ lo + w ≤ lo') (v x : Nat) :
    fld (setFld v lo w x) lo' w' = fld v lo' w' := by
  refine Nat.eq_of_testBit_eq fun i => ?_
  rw [testBit_fld, testBit_fld, testBit_setFld]
  by_cases hi : i < w'
  · rw [if_neg (by omega)]
  · simp [hi]

theorem bit_setFld_apart {lo w i : Nat} (h : i < lo ∨ lo + w ≤ i) (v x : Nat) : bit (setFld v lo w x) i = bit v i := by
  rw [bit, fld_setFld_apart (by omega)]
  rfl

theorem bit_setFld_same (v i x : Nat) : bit (setFld v i 1 x) i = decide (x % 2 = 1) := by
  rw [bit, fld_setFld_same, Nat.pow_one]

/-! ## Registers -/

theorem State.rd_lt (s : State) (k : Nat) : s.rd k < 2 ^ 64 := BitVec.isLt _

@[simp] theorem State.rd_wr_same (s : State) (k v : Nat) : (s.wr k v).rd k = v % 2 ^ 64 := by
  rw [State.rd_wr, if_pos rfl]

theorem State.rd_wr_ne {k j : Nat} (h : k ≠ j) (s : State) (v : Nat) : (s.wr k v).rd j = s.rd j := by
  rw [State.rd_wr, if_neg h]

theorem State.rd_wr_of_lt {v : Nat} (h : v < 2 ^ 64) (s : State) (k : Nat) : (s.wr k v).rd k = v := by
  rw [State.rd_wr_same, Nat.mod_eq_of_lt h]

theorem State.rd_wrf_same {lo w : Nat} (h : lo + w ≤ 64) (s : State) (k x : Nat) :
    (s.wrf k lo w x).rd k = setFld (s.rd k) lo w x := State.rd_wr_of_lt (setFld_lt (s.rd_lt k) h x) s k

theorem State.rdf_wrf_same {lo w : Nat} (h : lo + w ≤ 64) (s : State) (k x : Nat) :
    (s.wrf k lo w x).rdf k lo w = x % 2 ^ w := by
  rw [State.rdf, State.rd_wrf_same h, fld_setFld_same]

theorem State.rdf_wrf_apart {lo w lo' w' : Nat} (h : lo + w ≤ 64) (apart : lo' + w' ≤ lo ∨ lo + w ≤ lo') (s : State)
    (k x : Nat) : (s.wrf k lo w x).rdf k lo' w' = s.rdf k lo' w' := by
  rw [State.rdf, State.rd_wrf_same h, fld_setFld_apart apart]
  rfl

theorem State.rd_wrf_ne {k j : Nat} (h : k ≠ j) (s : State) (lo w x : Nat) : (s.wrf k lo w x).rd j = s.rd j :=
  State.rd_wr_ne h s _

theorem State.rd_orBits_same {m : Nat} (h : m < 2 ^ 64) (s : State) (k : Nat) : (s.orBits k m).rd k = s.rd k ||| m :=
  State.rd_wr_of_lt (Nat.or_lt_two_pow (s.rd_lt k) h) s k

theorem State.rd_orBits_ne {k j : Nat} (h : k ≠ j) (s : State) (m : Nat) : (s.orBits k m).rd j = s.rd j :=
  State.rd_wr_ne h s _

/-- A counter of 64 bits saturates. -/
theorem State.rd_bump_same (s : State) (k n : Nat) : (s.bump k n).rd k = min (s.rd k + n) (2 ^ 64 - 1) :=
  State.rd_wr_of_lt (by simp only [satAdd]; omega) s k

theorem State.rd_bump_ne {k j : Nat} (h : k ≠ j) (s : State) (n : Nat) : (s.bump k n).rd j = s.rd j :=
  State.rd_wr_ne h s _

/-! ## Which registers a state leaves as they were -/

theorem RegsExcept.refl (ks : List Nat) (s : State) : RegsExcept ks s s := fun _ _ => rfl

theorem RegsExcept.trans {ks : List Nat} {s t u : State} (h : RegsExcept ks s t) (h' : RegsExcept ks t u) :
    RegsExcept ks s u := fun k hk => (h' k hk).trans (h k hk)

theorem RegsExcept.mono {ks ls : List Nat} {s t : State} (h : RegsExcept ks s t) (sub : ∀ k ∈ ks, k ∈ ls) :
    RegsExcept ls s t := fun k hk => h k fun hk' => hk (sub k hk')

/-- One more listed register is written. -/
theorem RegsExcept.wr {ks : List Nat} {s t : State} {k : Nat} (h : RegsExcept ks s t) (hk : k ∈ ks) (v : Nat) :
    RegsExcept ks s (t.wr k v) := fun j hj => by
  rw [State.rd_wr_ne (ne_of_mem_of_not_mem hk hj)]
  exact h j hj

theorem RegsExcept.wrf {ks : List Nat} {s t : State} {k : Nat} (h : RegsExcept ks s t) (hk : k ∈ ks) (lo w x : Nat) :
    RegsExcept ks s (t.wrf k lo w x) := h.wr hk _

theorem RegsExcept.orBits {ks : List Nat} {s t : State} {k : Nat} (h : RegsExcept ks s t) (hk : k ∈ ks) (m : Nat) :
    RegsExcept ks s (t.orBits k m) := h.wr hk _

theorem RegsExcept.bump {ks : List Nat} {s t : State} {k : Nat} (h : RegsExcept ks s t) (hk : k ∈ ks) (n : Nat) :
    RegsExcept ks s (t.bump k n) := h.wr hk _

/-- The same registers are held. -/
theorem RegsExcept.of_csr {ks : List Nat} {s t u : State} (h : RegsExcept ks s t) (e : u.csr = t.csr) :
    RegsExcept ks s u := fun k hk => by
  rw [State.rd, e]
  exact h k hk

theorem regsExcept_wr (s : State) (k v : Nat) : RegsExcept [k] s (s.wr k v) :=
  (RegsExcept.refl _ s).wr (List.mem_singleton_self k) v

/-- What does not write memory changes no byte. -/
theorem SameBytes.of_mem {s t : State} (e : t.mem = s.mem) : SameBytes s t := fun _ => by
  rw [State.byte, e]
  rfl

/-! ## Bytes -/

theorem State.bytes_eq_of_byte {s : State} {a : Nat} {b : List Byte} (h : ∀ i (hi : i < b.length), s.byte (a + i) = b[i]) :
    s.bytes a b.length = b := by
  induction b generalizing a with
  | nil => rfl
  | cons x b ih =>
    have rest : s.bytes (a + 1) b.length = b := ih fun i hi => by
      rw [Nat.add_assoc, Nat.add_comm 1]
      exact h (i + 1) (Nat.succ_lt_succ hi)
    rw [List.length_cons, State.bytes, rest]
    exact congrArg (· :: b) (h 0 (Nat.succ_pos _))

theorem State.byte_poke_inside (s : State) (a : Nat) (b : List Byte) {i : Nat} (hi : i < b.length) :
    (s.poke a b).byte (a + i) = b[i] := by
  rw [State.byte_poke, if_pos (by omega), Nat.add_sub_cancel_left, getD_of_lt hi]

theorem bytesExcept_poke (s : State) (a : Nat) (b : List Byte) : BytesExcept a b.length s (s.poke a b) := fun x hx => by
  rw [State.byte_poke, if_neg hx]

/-- A delta is only sent. -/
theorem State.parityXor_eq (s : State) (a : Nat) (x : List Byte) : s.parityXor a x = s ∨ ∃ o, s.parityXor a x = s.emit o := by
  unfold State.parityXor
  split
  · exact .inl rfl
  · dsimp only
    split
    · exact .inl rfl
    · exact .inr ⟨_, rfl⟩

theorem State.parityXor_mem (s : State) (a : Nat) (x : List Byte) : (s.parityXor a x).mem = s.mem := by
  rcases s.parityXor_eq a x with h | ⟨o, h⟩
  · rw [h]
  · rw [h, State.emit_mem]

theorem State.parityXor_csr (s : State) (a : Nat) (x : List Byte) : (s.parityXor a x).csr = s.csr := by
  rcases s.parityXor_eq a x with h | ⟨o, h⟩
  · rw [h]
  · rw [h, State.emit_csr]

/-- The pieces at 4 KiB boundaries, as many as the fuel lets, store the whole run of bytes. -/
theorem State.byte_storeUnits {f a : Nat} {bs : List Byte} (enough : bs.length + a % 4096 ≤ 4096 * f) (s : State) (x : Nat) :
    (s.storeUnits a bs f).byte x = if a ≤ x ∧ x < a + bs.length then bs.getD (x - a) 0 else s.byte x := by
  induction f generalizing s a bs with
  | zero =>
    rw [if_neg (by omega)]
    rfl
  | succ f ih =>
    unfold State.storeUnits
    by_cases none : bs = []
    · subst none
      simp only [if_true, List.length_nil]
      rw [if_neg (by omega)]
    · have stored : ∀ y, ((s.parityDelta a (bs.take (4096 - a % 4096))).poke a (bs.take (4096 - a % 4096))).byte y =
          if a ≤ y ∧ y < a + (bs.take (4096 - a % 4096)).length then (bs.take (4096 - a % 4096)).getD (y - a) 0
          else s.byte y := fun y => by
        rw [State.byte_poke]
        split
        · rfl
        · exact SameBytes.of_mem (s.parityXor_mem a _) y
      dsimp only
      rw [if_neg none, ih (by rw [List.length_drop]; omega), stored, List.length_drop, List.length_take]
      by_cases late : a + (4096 - a % 4096) ≤ x ∧ x < a + (4096 - a % 4096) + (bs.length - (4096 - a % 4096))
      · rw [if_pos late, if_pos (by omega), List.getD_eq_getElem?_getD, List.getElem?_drop, List.getD_eq_getElem?_getD]
        congr 2
        omega
      · rw [if_neg late]
        by_cases early : a ≤ x ∧ x < a + min (4096 - a % 4096) bs.length
        · rw [if_pos early, if_pos (by omega), List.getD_eq_getElem?_getD, List.getElem?_take_of_lt (by omega),
            ← List.getD_eq_getElem?_getD]
        · rw [if_neg early, if_neg (by omega)]

theorem State.storeUnits_csr (s : State) (a : Nat) (bs : List Byte) (f : Nat) : (s.storeUnits a bs f).csr = s.csr := by
  induction f generalizing s a bs with
  | zero => rfl
  | succ f ih =>
    unfold State.storeUnits
    split
    · rfl
    · rw [ih]
      exact s.parityXor_csr a _

theorem State.post_mem (s : State) (a n : Nat) : (s.post a n).mem = s.mem := by
  unfold State.post
  split <;> rfl

theorem State.post_csr (s : State) (a n : Nat) : (s.post a n).csr = s.csr := by
  unfold State.post
  split <;> rfl

/-- A store leaves its bytes, and every other byte as it was. -/
theorem State.byte_store (s : State) (a : Nat) (bs : List Byte) (x : Nat) :
    (s.store a bs).byte x = if a ≤ x ∧ x < a + bs.length then bs.getD (x - a) 0 else s.byte x := by
  have whole := s.byte_storeUnits (f := bs.length / 4096 + 2) (a := a) (bs := bs) (by omega) x
  exact (SameBytes.of_mem (State.post_mem _ a bs.length) x).trans whole

theorem State.store_csr (s : State) (a : Nat) (bs : List Byte) : (s.store a bs).csr = s.csr :=
  (State.post_csr _ _ _).trans (s.storeUnits_csr a bs _)

theorem State.bytes_store (s : State) (a : Nat) (bs : List Byte) : (s.store a bs).bytes a bs.length = bs :=
  State.bytes_eq_of_byte fun i hi => by
    rw [State.byte_store, if_pos (by omega), Nat.add_sub_cancel_left, getD_of_lt hi]

theorem bytesExcept_store (s : State) (a : Nat) (bs : List Byte) : BytesExcept a bs.length s (s.store a bs) := fun x hx => by
  rw [State.byte_store, if_neg hx]

/-- A write that completes with OK stores its bytes; in CSR space it is ignored. -/
theorem State.memWrite_ok {s u : State} {own : Bool} {a : Nat} {b : List Byte} (h : s.memWrite own a b = (.ok, u)) :
    u = if regionOf a = .csr then s else s.store a b := by
  unfold State.memWrite at h
  split at h
  · split at h
    · cases h
    · exact (Prod.mk.inj h).2.symm
  next code => exact (code (Prod.mk.inj h).1).elim

/-- Settles O12: a store is read back byte by byte, cut at 4 KiB boundaries or not, and a field bit by bit. -/
theorem memoryAndRegistersReadBack : Obligations.MemoryAndRegistersReadBack := by
  refine ⟨fun s a b => ⟨fun i hi => s.byte_poke_inside a b hi, bytesExcept_poke s a b,
    State.bytes_eq_of_byte fun i hi => s.byte_poke_inside a b hi, rfl, fun own u h => ?_⟩, fun s k v => ?_⟩
  · have stored := State.memWrite_ok h
    refine ⟨fun csr => by rw [stored, if_pos csr], fun memory _ => ?_⟩
    rw [if_neg memory] at stored
    rw [stored]
    exact ⟨s.bytes_store a b, bytesExcept_store s a b, s.store_csr a b⟩
  · exact ⟨s.rd_wr_same k v, regsExcept_wr s k v, rfl,
      fun lo w x h => ⟨State.rdf_wrf_same h s k x, fun lo' w' apart => State.rdf_wrf_apart h apart s k x⟩,
      s.rd_bump_same k⟩

end Sys2Proof.Machine
end

section
/-! PROOFS of the time family: what a nanosecond without a command changes. -/

namespace Sys2Proof.Machine
open Sys2Proof

theorem foldl_eq_self {α β : Type} {f : β → α → β} {b : β} {l : List α} (h : ∀ x ∈ l, f b x = b) : l.foldl f b = b := by
  induction l with
  | nil => rfl
  | cons x l ih =>
    rw [List.foldl_cons, h x List.mem_cons_self]
    exact ih fun y hy => h y (List.mem_cons_of_mem x hy)

/-- An engine with no chain to reduce does nothing. -/
theorem State.meTick_of_idle {s : State} {c : Nat} (h : (s.me c).reducing? = none) : s.meTick c = s := by
  simp only [State.meTick, h]

theorem State.coresTick_of_idle {s : State} (h : ∀ c ∈ s.cores, (s.me c.1).reducing? = none) : s.coresTick = s := by
  refine foldl_eq_self fun c hc => ?_
  obtain ⟨e, he, rfl⟩ := List.mem_map.1 hc
  rw [State.meTick_of_idle (h e he), ite_self]

/-! ## Device time and pod time -/

/-- Time runs while the package is powered and REF or INT works (R563). -/
abbrev State.timeRuns (s : State) : Prop := s.powered = true ∧ ¬(s.srcFailed 0 = true ∧ s.srcFailed 2 = true)

/-- The parent link is UP (R403). -/
abbrev State.synced (s : State) : Prop := ∃ p, s.parentPort = some p ∧ s.linkSt p = 4

theorem State.timeTick_of_stopped {s : State} (h : ¬s.timeRuns) : s.timeTick = s := by
  have stopped : (!s.powered || (s.srcFailed 0 && s.srcFailed 2)) = true := by
    simpa [State.timeRuns, Classical.or_iff_not_imp_left] using h
  simp only [State.timeTick, stopped, if_true]

theorem State.timeTick_of_runs {s : State} (h : s.timeRuns) :
    s.timeTick = (s.wr kTime ((s.time + 1) % 2 ^ 64)).podTick := by
  have running : (!s.powered || (s.srcFailed 0 && s.srcFailed 2)) = false := by
    simpa [State.timeRuns, Classical.or_iff_not_imp_left] using h
  simp only [State.timeTick, running, Bool.false_eq_true, if_false]

theorem State.podTick_of_steady {s : State} (h : s.net.slew = 0 ∨ s.wall % 5000 ≠ 0 ∨ ¬s.synced) :
    s.podTick = s.wr kPodTime ((s.rd kPodTime + 1) % 2 ^ 64) := by
  unfold State.podTick
  rcases h with still | early | alone
  · simp [still]
  · simp [early]
  · cases parent : s.parentPort with
    | none => simp
    | some p =>
      have down : s.linkSt p ≠ 4 := fun up => alone ⟨p, parent, up⟩
      simp [down]

theorem State.podTick_of_gain {s : State} (synced : s.synced) (slew : 0 < s.net.slew) (now : s.wall % 5000 = 0) :
    s.podTick = { s.wr kPodTime ((s.rd kPodTime + 2) % 2 ^ 64) with net := { s.net with slew := s.net.slew - 1 } } := by
  obtain ⟨p, parent, up⟩ := synced
  have moves : ¬s.net.slew = 0 := by omega
  simp [State.podTick, parent, up, moves, now, slew]

theorem State.podTick_of_loss {s : State} (synced : s.synced) (slew : s.net.slew < 0) (now : s.wall % 5000 = 0) :
    s.podTick = { s with net := { s.net with slew := s.net.slew + 1 } } := by
  obtain ⟨p, parent, up⟩ := synced
  have moves : ¬s.net.slew = 0 := by omega
  have down : ¬s.net.slew > 0 := by omega
  simp [State.podTick, parent, up, moves, now, down]

/-- Whatever the slew, only LNK_POD_TIME and what remains to slew change. -/
theorem State.podTick_frame (s : State) : RegsExcept [kPodTime] s s.podTick ∧ s.podTick.mem = s.mem ∧
    s.podTick.out = s.out ∧ s.podTick.cores = s.cores ∧ s.podTick.wall = s.wall ∧ s.podTick.seq = s.seq ∧
    s.podTick.lay = s.lay := by
  by_cases steady : s.net.slew = 0 ∨ s.wall % 5000 ≠ 0 ∨ ¬s.synced
  · rw [State.podTick_of_steady steady]
    exact ⟨regsExcept_wr _ _ _, rfl, rfl, rfl, rfl, rfl, rfl⟩
  · obtain ⟨moves, now, synced⟩ : ¬s.net.slew = 0 ∧ s.wall % 5000 = 0 ∧ s.synced := by
      simpa only [not_or, ne_eq, Classical.not_not] using steady
    rcases Int.lt_or_gt_of_ne moves with down | up
    · rw [State.podTick_of_loss synced down now]
      exact ⟨(RegsExcept.refl _ s).of_csr rfl, rfl, rfl, rfl, rfl, rfl, rfl⟩
    · rw [State.podTick_of_gain synced up now]
      exact ⟨(regsExcept_wr s kPodTime _).of_csr rfl, rfl, rfl, rfl, rfl, rfl, rfl⟩

/-! ## The counters of the caps -/

/-- Nothing but registers. -/
theorem State.capTick_eq (s : State) : s.capTick = { s with csr := s.capTick.csr } := by
  unfold State.capTick
  dsimp only
  repeat' split
  all_goals rfl

theorem State.capTick_regs (s : State) : RegsExcept [kPwrCount 0, kPwrCount 1] s s.capTick := by
  have kept := RegsExcept.refl [kPwrCount 0, kPwrCount 1] s
  have counted : RegsExcept [kPwrCount 0, kPwrCount 1] s (s.bump (kPwrCount 0) 1) := kept.bump (by simp) 1
  unfold State.capTick
  dsimp only
  split
  · exact kept
  · split <;> split
    · exact counted.bump (by simp) 1
    · exact kept.bump (by simp) 1
    · exact counted
    · exact kept

/-- No commit waits: order 2 has nothing to go on with. -/
theorem State.commitOn_of_not_waiting {s : State} (h : s.lay.waiting = false) : s.commitOn = s := by
  unfold State.commitOn
  split
  · simp [h]
  · rfl

theorem State.lateDeferred_of_none {s : State} (h : s.seq.deferred = []) : s.lateDeferred = s := by
  simp [State.lateDeferred, h]

/-- While neither a reset nor a commit waits, the hub counts under its caps and does nothing else. -/
theorem State.hubTick_of_quiet {s : State} (deferred : s.seq.deferred = []) (waiting : s.lay.waiting = false) :
    s.hubTick = if s.hubOn then s.capTick else s := by
  have lay : s.capTick.lay.waiting = false := by rw [s.capTick_eq]; exact waiting
  have seq : s.capTick.seq.deferred = [] := by rw [s.capTick_eq]; exact deferred
  unfold State.hubTick
  rw [State.commitOn_of_not_waiting lay, State.lateDeferred_of_none seq]

/-- A quiet hub leaves every field but its counters. -/
theorem State.hubTick_frame {s : State} (deferred : s.seq.deferred = []) (waiting : s.lay.waiting = false) :
    RegsExcept [kPwrCount 0, kPwrCount 1] s s.hubTick ∧ s.hubTick = { s with csr := s.hubTick.csr } := by
  rw [State.hubTick_of_quiet deferred waiting]
  split
  · exact ⟨s.capTick_regs, s.capTick_eq⟩
  · exact ⟨RegsExcept.refl _ s, rfl⟩

/-! ## A whole nanosecond -/

/-- A running nanosecond of a quiet module is the two times and the counters of the caps. -/
theorem State.tick_of_runs {s : State} (idle : ∀ c ∈ s.cores, (s.me c.1).reducing? = none) (runs : s.timeRuns) :
    s.tick = (({ s with wall := s.wall + 1 } : State).wr kTime ((s.time + 1) % 2 ^ 64)).podTick.hubTick := by
  have cores : ({ s with wall := s.wall + 1 } : State).coresTick = { s with wall := s.wall + 1 } :=
    State.coresTick_of_idle idle
  have time := State.timeTick_of_runs (s := { s with wall := s.wall + 1 }) runs
  rw [State.tick, cores, time]
  rfl

/-- Neither the layout nor a link's state is among the registers of time. -/
theorem State.synced_wr_time {s : State} (v : Nat) : (s.wr kTime v).synced ↔ s.synced := by
  have node : (s.wr kTime v).node = s.node := by
    rw [State.node, State.rdf, State.rd_wr_ne (by decide)]
    rfl
  have parent : (s.wr kTime v).parentPort = s.parentPort := by rw [State.parentPort, node, State.parentPort]
  have link : ∀ p, (s.wr kTime v).linkSt p = s.linkSt p := fun p => by
    rw [State.linkSt, State.rdf, State.rd_wr_ne (by simp only [kTime, kLnkStatus, kLnk, portBase]; omega)]
    rfl
  simp only [State.synced, parent, link]

/-- Settles O7: an idle nanosecond goes through the two times and the counters of the caps, each with its frame (the
idle step itself is the model's choice, log 60). -/
theorem idleTime : Obligations.IdleTime := by
  intro s idle
  refine ⟨fun stopped hub => ?_, fun runs deferred waiting t e => ?_⟩
  · have cores : ({ s with wall := s.wall + 1 } : State).coresTick = { s with wall := s.wall + 1 } :=
      State.coresTick_of_idle idle
    have time := State.timeTick_of_stopped (s := { s with wall := s.wall + 1 }) stopped
    have hubOff : ({ s with wall := s.wall + 1 } : State).hubOn = false := hub
    rw [State.tick, cores, time, State.hubTick, hubOff, if_neg Bool.false_ne_true]
  · rw [State.tick_of_runs idle runs] at e
    generalize hu : ({ s with wall := s.wall + 1 } : State).wr kTime ((s.time + 1) % 2 ^ 64) = u at e
    have regs : RegsExcept [kTime] s u := hu ▸ regsExcept_wr { s with wall := s.wall + 1 } kTime _
    have time : u.rd kTime = (s.time + 1) % 2 ^ 64 := by rw [← hu, State.rd_wr_same, Nat.mod_mod]
    have pod : u.rd kPodTime = s.rd kPodTime := regs _ (by decide)
    have synced : u.synced ↔ s.synced := by rw [← hu]; exact State.synced_wr_time _
    have wall : u.wall = s.wall + 1 := by rw [← hu]; rfl
    have net : u.net = s.net := by rw [← hu]; rfl
    obtain ⟨podRegs, podMem, podOut, podCores, podWall, podSeq, podLay⟩ := u.podTick_frame
    obtain ⟨hubRegs, hubEq⟩ := State.hubTick_frame (s := u.podTick) (by rw [podSeq, ← hu]; exact deferred)
      (by rw [podLay, ← hu]; exact waiting)
    rw [← e] at hubRegs hubEq
    have podTime : t.rd kPodTime = u.podTick.rd kPodTime := hubRegs _ (by decide)
    have podNet : t.net = u.podTick.net := by rw [hubEq]
    refine ⟨?_, ?_, ?_, ?_, ?_, ?_, ?_, ?_, ?_⟩
    · rw [State.time, hubRegs _ (by decide), podRegs _ (by decide), time]
    · rw [hubEq]
      exact podWall.trans wall
    · intro steady
      have step := State.podTick_of_steady (s := u) (by rw [net, synced]; exact steady.imp_right .inr)
      rw [podTime, podNet, step, State.rd_wr_same, Nat.mod_mod, pod]
      exact ⟨rfl, net⟩
    · intro sync up now
      have step := State.podTick_of_gain (synced.2 sync) (net ▸ up) (by omega)
      have value : u.podTick.rd kPodTime = (s.rd kPodTime + 2) % 2 ^ 64 := by
        rw [step, ← pod]
        exact (State.rd_wr_same u kPodTime _).trans (Nat.mod_mod _ _)
      exact ⟨podTime.trans value, by rw [podNet, step, net]⟩
    · intro sync down now
      have step := State.podTick_of_loss (synced.2 sync) (net ▸ down) (by omega)
      have value : u.podTick.rd kPodTime = s.rd kPodTime := by
        rw [step]
        exact pod
      exact ⟨podTime.trans value, by rw [podNet, step, net]⟩
    · exact ((regs.mono (by simp)).trans (podRegs.mono (by simp))).trans (hubRegs.mono (by simp))
    · rw [hubEq]
      exact podMem.trans (by rw [← hu]; rfl)
    · rw [hubEq]
      exact podOut.trans (by rw [← hu]; rfl)
    · rw [hubEq]
      exact podCores.trans (by rw [← hu]; rfl)

end Sys2Proof.Machine
end

section
/-! PROOFS of the register write family: plain registers, the Palette, recipes and the Step Sequencer's registers. -/

namespace Sys2Proof.Machine
open Sys2Proof

/-! ## Plain registers -/

theorem State.csrRead_of_unassigned_inSpace {s : State} {off n : Nat} (inSpace : off + n ≤ 0x1000000)
    (unassigned : regFind off = none) (answers : s.csrCode off n = .ok) : s.csrRead off n = (.ok, 0) := by
  have access := s.csrAccess_of_unassigned n unassigned
  rw [if_neg (by omega), answers] at access
  exact State.csrRead_of_noRegister access

theorem exec_registerWrite_of_register {s : State} {off n : Nat} {r : RegAt} (v : W64) (powered : s.powered = true)
    (h : s.csrAccess off n = (.ok, some r)) :
    exec (.registerWrite off n v) s = .next (s.csrPut off r v.toNat).2 := by
  simp only [exec, execRegisterWrite, powered, if_true, State.csrWrite, h]

theorem masked_lt {old v : Nat} (mask : Nat) (ho : old < 2 ^ 64) (hv : v < 2 ^ 64) : masked old mask v < 2 ^ 64 :=
  Nat.or_lt_two_pow (by omega) (Nat.lt_of_le_of_lt Nat.and_le_left hv)

theorem masked_zero (old v : Nat) : masked old 0 v = old := by
  simp [masked]

/-- A register of plain fields takes its RW bits, and nothing else changes. -/
theorem State.wrPlain_of_no_w1c {s : State} {r : RegAt} {v : Nat} (plain : r.row.w1c = 0) (hv : v < 2 ^ 64) :
    (s.wrPlain r v).rd r.key = masked (s.rd r.key) r.row.rw v ∧ RegsExcept [r.key] s (s.wrPlain r v) ∧
    (s.wrPlain r v).out = s.out ∧ SameBytes s (s.wrPlain r v) := by
  simp only [State.wrPlain, plain, if_true]
  split
  next none =>
    rw [none, masked_zero]
    exact ⟨rfl, RegsExcept.refl _ s, rfl, fun _ => rfl⟩
  · exact ⟨State.rd_wr_of_lt (masked_lt _ (s.rd_lt _) hv) _ _, regsExcept_wr _ _ _, rfl, fun _ => rfl⟩

/-- The registers of a core, and those of the network below the training table, are written plainly. -/
theorem State.csrPut_of_plain {off : Nat} {r : RegAt} (block : csrBlock off = 5 ∨ csrBlock off = 7 ∧ r.o < 0x100)
    (s : State) (v : Nat) : (s.csrPut off r v).2 = s.wrPlain r (v % 2 ^ (8 * r.row.bytes)) := by
  rcases block with core | ⟨net, low⟩
  · simp only [State.csrPut, core]
  · have table : decide (0x100 ≤ r.o) = false := decide_eq_false (by omega)
    simp only [State.csrPut, net, State.netPut, table, Bool.false_and, Bool.false_eq_true, if_false]

/-! ## The Palette -/

/-- A write that is stored: a good format, or 0 without VALID (R125). -/
theorem State.paletteWrite_stored {s : State} {v : Nat} (idle : s.isIdle = true)
    (good : bit v 31 = true → paletteOk v = true) (n : Nat) :
    (s.paletteWrite n v).2 = s.wr (kPalette n) (if bit v 31 then v else 0) := by
  have fine : (bit v 31 && !paletteOk v) = false := by
    cases valid : bit v 31
    · rfl
    · simp [good valid]
  simp [State.paletteWrite, idle, fine]

/-- A write that is refused notes why and where (R127). -/
theorem State.paletteWrite_refused {s : State} {v : Nat}
    (bad : s.isIdle = false ∨ bit v 31 = true ∧ paletteOk v = false) (n : Nat) :
    (s.paletteWrite n v).2 = s.wr kPaletteSticky (setFld (Nat.lor (s.rd kPaletteSticky)
      (b2n (!s.isIdle) + b2n (bit v 31 && !paletteOk v) * 2)) 4 4 n) := by
  have refused : (!s.isIdle || (bit v 31 && !paletteOk v)) = true := by
    rcases bad with busy | ⟨valid, wrong⟩
    · simp [busy]
    · simp [valid, wrong]
  simp only [State.paletteWrite, refused, if_true]

theorem b2n_le_one (b : Bool) : b2n b ≤ 1 := by
  cases b <;> decide

/-- The two causes of a refusal as bits. -/
theorem testBit_causes (a b : Bool) : (b2n a + b2n b * 2).testBit 0 = a ∧ (b2n a + b2n b * 2).testBit 1 = b := by
  revert a b
  decide

/-- What PALETTE_STICKY reads after a refusal. -/
theorem State.paletteWrite_refused_sticky {s : State} {v n : Nat}
    (bad : s.isIdle = false ∨ bit v 31 = true ∧ paletteOk v = false) (hn : n < 16) :
    let t := (s.paletteWrite n v).2
    fld (t.rd kPaletteSticky) 4 4 = n ∧ (s.isIdle = false → bit (t.rd kPaletteSticky) 0 = true) ∧
      (s.isIdle = true → bit (t.rd kPaletteSticky) 1 = true) := by
  intro t
  obtain ⟨low, high⟩ := testBit_causes (!s.isIdle) (bit v 31 && !paletteOk v)
  have causes := b2n_le_one (!s.isIdle)
  have causes' := b2n_le_one (bit v 31 && !paletteOk v)
  have sticky : t.rd kPaletteSticky = setFld (s.rd kPaletteSticky |||
      (b2n (!s.isIdle) + b2n (bit v 31 && !paletteOk v) * 2)) 4 4 n := by
    rw [show t = _ from State.paletteWrite_refused bad n]
    exact State.rd_wr_of_lt (setFld_lt (Nat.or_lt_two_pow (s.rd_lt _) (by omega)) (by decide) n) s _
  rw [sticky]
  refine ⟨by rw [fld_setFld_same]; omega, fun busy => ?_, fun idle => ?_⟩
  · rw [bit_setFld_apart (by decide), bit_eq_testBit, Nat.testBit_or, low, busy]
    simp
  · have wrong : (bit v 31 && !paletteOk v) = true := by
      obtain ⟨valid, wrong⟩ := bad.resolve_left (by simp [idle])
      simp [valid, wrong]
    rw [bit_setFld_apart (by decide), bit_eq_testBit, Nat.testBit_or, high, wrong]
    simp

theorem exec_qzPaletteWrite {s : State} (powered : s.powered = true) (n : Fin 4) (v : W32) :
    exec (.qzPaletteWrite n v) s = .next (s.paletteWrite (12 + n) v.toNat).2 := by
  simp only [exec, execQzPaletteWrite, powered, if_true]

/-- A write of a Palette entry changes no memory. -/
theorem State.paletteWrite_mem (s : State) (n v : Nat) : (s.paletteWrite n v).2.mem = s.mem := by
  unfold State.paletteWrite
  dsimp only
  split <;> rfl

/-! ## Recipes -/

theorem kRecipe_eq (n w : Nat) : kRecipe n w = 0x311000 + 0x200 * n + 4 * w := by
  rw [kRecipe, wideKey]
  omega

/-- A constant is written at any time (R253). -/
theorem State.writeRecipe_const {w : Nat} (const : 16 ≤ w ∧ w < 32) (s : State) (n v : Nat) :
    s.writeRecipe n w v = s.wr (kRecipe n w) v := by
  simp [State.writeRecipe, const]

/-- Any other word of a recipe of the device is fixed (R248). -/
theorem State.writeRecipe_builtin {n w : Nat} (other : ¬(16 ≤ w ∧ w < 32)) (fixed : n < 3) (s : State) (v : Nat) :
    s.writeRecipe n w v = s := by
  have const : (decide (16 ≤ w) && decide (w < 32)) = false := by simpa using other
  simp [State.writeRecipe, const, fixed]

/-- Any other word of a user recipe ends its VALID (R252). -/
theorem State.writeRecipe_user {n w : Nat} (other : ¬(16 ≤ w ∧ w < 32)) (user : 3 ≤ n) (s : State) (v : Nat) :
    bit ((s.writeRecipe n w v).rd (kRecipe n 0)) 0 = false ∧
    RegsExcept [kRecipe n 0, kRecipe n w] s (s.writeRecipe n w v) := by
  have const : (decide (16 ≤ w) && decide (w < 32)) = false := by simpa using other
  have builtin : ¬n < 3 := by omega
  simp only [State.writeRecipe, const, builtin, Bool.false_eq_true, if_false]
  refine ⟨?_, ((RegsExcept.refl _ s).wr (by simp) _).wrf (by simp) 0 1 0⟩
  rw [State.rd_wrf_same (by decide), bit_setFld_same]
  rfl

theorem State.writeRecipe_mem (s : State) (n w v : Nat) : (s.writeRecipe n w v).mem = s.mem := by
  unfold State.writeRecipe
  dsimp only
  split
  · rfl
  · split <;> rfl

theorem exec_recipeWrite {s : State} (powered : s.powered = true) (n : Fin 32) (w : Fin 128) (v : W32) :
    exec (.recipeWrite n w v) s = .next (if w.val < 96 then s.writeRecipe n w v.toNat else s) := by
  simp [exec, execRecipeWrite, powered]

theorem exec_recipeCommit {s : State} (powered : s.powered = true) (v : W32) :
    exec (.recipeCommit v) s = .next (s.commitRecipe v.toNat) := by
  simp only [exec, execRecipeCommit, powered, if_true]

theorem State.commitRecipe_mem (s : State) (v : Nat) : (s.commitRecipe v).mem = s.mem := by
  unfold State.commitRecipe
  dsimp only
  repeat' split
  all_goals rfl

/-- A refusal leaves its result alone (R252, log 71). -/
theorem State.commitResult (s : State) (k : Nat) (r : Nat) (hr : r < 2 ^ 8) :
    (s.wr k (r * 2 ^ 16)).rdf k 16 8 = r := by
  rw [State.rdf, State.rd_wr_of_lt (by omega), fld]
  omega

/-- R252's order of checks. -/
theorem State.commitRecipe_refused {s : State} {v : Nat} (go : bit v 8 = true) :
    (v % 32 < 3 → s.commitRecipe v = s.wr (wideKey 0x110024) (4 * 2 ^ 16)) ∧
    (3 ≤ v % 32 → s.isIdle = false → s.commitRecipe v = s.wr (wideKey 0x110024) (2 * 2 ^ 16)) ∧
    (3 ≤ v % 32 → s.isIdle = true → s.recipeOk (v % 32) = false →
      s.commitRecipe v = s.wr (wideKey 0x110024) (3 * 2 ^ 16)) := by
  have number : fld v 0 5 = v % 32 := by simp [fld]
  refine ⟨fun builtin => ?_, fun user busy => ?_, fun user idle wrong => ?_⟩
  · simp [State.commitRecipe, number, go, builtin]
  · simp [State.commitRecipe, number, go, Nat.not_lt.2 user, busy]
  · simp [State.commitRecipe, number, go, Nat.not_lt.2 user, idle, wrong]

/-- A commit that passes sets VALID and RECORD_BYTES (R252). -/
theorem State.commitRecipe_done {s : State} {v : Nat} (go : bit v 8 = true) (user : 3 ≤ v % 32) (idle : s.isIdle = true)
    (good : s.recipeOk (v % 32) = true) :
    let t := s.commitRecipe v
    t.rdf (wideKey 0x110024) 16 8 = 1 ∧ bit (t.rd (kRecipe (v % 32) 0)) 0 = true ∧
      t.rd (kRecipe (v % 32) 2) = s.slotOff (v % 32) (s.recSlots (v % 32)) % 2 ^ 64 := by
  have number : fld v 0 5 = v % 32 := by simp [fld]
  have commit : s.commitRecipe v = ((s.wrf (kRecipe (v % 32) 0) 0 1 1).wr (kRecipe (v % 32) 2)
      (s.slotOff (v % 32) (s.recSlots (v % 32)))).wr (wideKey 0x110024) (1 * 2 ^ 16) := by
    simp [State.commitRecipe, number, go, Nat.not_lt.2 user, idle, good]
  intro t
  rw [show t = _ from commit]
  refine ⟨State.commitResult _ _ 1 (by decide), ?_, ?_⟩
  · rw [State.rd_wr_ne (by rw [kRecipe_eq, wideKey]; omega), State.rd_wr_ne (by simp only [kRecipe_eq]; omega),
      State.rd_wrf_same (by decide), bit_setFld_same]
    rfl
  · rw [State.rd_wr_ne (by rw [kRecipe_eq, wideKey]; omega), State.rd_wr_same]

/-! ## The Step Sequencer's registers -/

theorem exec_seqStepSet {s : State} (powered : s.powered = true) (v : W64) :
    exec (.seqStepSet v) s = .next (if s.isIdle = true then s.wr kSeqStep (v.toNat % 2 ^ 48) else s) := by
  simp only [exec, execSeqStepSet, powered, if_true, State.stepSet]

theorem exec_clearMixed {s : State} (powered : s.powered = true) :
    exec .clearMixed s = .next (if s.quiet = true then { s with seq := { s.seq with mixed := false } } else s) := by
  simp only [exec, execClearMixed, powered, if_true, State.clearMixed]

theorem State.step_wr (s : State) (v : Nat) : (s.wr kSeqStep (v % 2 ^ 48)).step = v % 2 ^ 48 := by
  rw [State.step, State.rdf, State.rd_wr_of_lt (by omega), fld]
  omega

/-- Settles O13: each write is that of its register, with what that register's rule says; a refused commit leaves VALID
as it was (log 71), and an access that overlaps a register changes nothing (log 72). -/
theorem registerWrites : Obligations.RegisterWrites := by
  refine ⟨fun s off n v powered => ⟨fun c none => exec_registerWrite_of_noRegister v none,
      fun inSpace running present unassigned clear => ?_, fun r access => ⟨exec_registerWrite_of_register v powered access, ?_⟩⟩,
    fun s n v powered => ⟨_, exec_qzPaletteWrite powered n v, SameBytes.of_mem (s.paletteWrite_mem _ _), ?_, ?_, ?_⟩,
    fun s powered => ⟨fun n w v => ⟨_, exec_recipeWrite powered n w v, ?_, ?_, ?_, ?_⟩,
      fun v n hn => ⟨_, exec_recipeCommit powered v, SameBytes.of_mem (s.commitRecipe_mem _), ?_, ?_⟩⟩,
    fun s powered => ⟨fun v idle => ⟨?_, s.step_wr v.toNat⟩, fun v busy => ?_, fun quiet => ?_, fun busy => ?_⟩⟩
  · have answers : s.csrCode off n = .ok := State.csrCode_eq_ok running present clear
    have access := s.csrAccess_of_unassigned n unassigned
    exact ⟨State.csrRead_of_unassigned_inSpace inSpace unassigned answers, exec_registerWrite_of_noRegister v access⟩
  · rintro block plain t rfl
    rw [State.csrPut_of_plain block]
    exact State.wrPlain_of_no_w1c plain (Nat.lt_of_le_of_lt (Nat.mod_le _ _) v.isLt)
  · intro idle invalid
    rw [State.paletteWrite_stored idle (by simp [invalid]), invalid, if_neg Bool.false_ne_true]
    exact ⟨s.rd_wr_same _ 0, regsExcept_wr _ _ _⟩
  · intro idle valid good
    rw [State.paletteWrite_stored idle fun _ => good, valid, if_pos rfl]
    exact ⟨State.rd_wr_of_lt (Nat.lt_trans v.isLt (by decide)) s _, regsExcept_wr _ _ _⟩
  · intro bad
    obtain ⟨entry, busy, idle⟩ := State.paletteWrite_refused_sticky bad (n := 12 + n) (by omega)
    refine ⟨?_, entry, busy, idle⟩
    rw [State.paletteWrite_refused bad]
    exact regsExcept_wr _ _ _
  · split
    · exact SameBytes.of_mem (s.writeRecipe_mem _ _ _)
    · exact fun _ => rfl
  · intro low high
    rw [if_pos (by omega), State.writeRecipe_const ⟨low, high⟩]
    exact ⟨State.rd_wr_of_lt (Nat.lt_trans v.isLt (by decide)) s _, regsExcept_wr _ _ _⟩
  · intro other builtin
    rw [State.writeRecipe_builtin other builtin, ite_self]
  · intro other user inRange
    rw [if_pos inRange]
    exact State.writeRecipe_user other user s v.toNat
  · intro stay
    simp [State.commitRecipe, stay]
  · rintro go res rfl
    subst hn
    obtain ⟨builtin, busy, wrong⟩ := State.commitRecipe_refused (s := s) go
    refine ⟨fun h => ?_, fun h h' => ?_, fun h h' h'' => ?_, fun h h' h'' => State.commitRecipe_done go h h' h''⟩
    · rw [builtin h]
      exact ⟨State.commitResult s _ 4 (by decide), regsExcept_wr _ _ _⟩
    · rw [busy h h']
      exact ⟨State.commitResult s _ 2 (by decide), regsExcept_wr _ _ _⟩
    · rw [wrong h h' h'']
      exact ⟨State.commitResult s _ 3 (by decide), regsExcept_wr _ _ _⟩
  · rw [exec_seqStepSet powered, if_pos idle]
  · rw [exec_seqStepSet powered, busy, if_neg Bool.false_ne_true]
  · rw [exec_clearMixed powered, if_pos quiet]
  · rw [exec_clearMixed powered, busy, if_neg Bool.false_ne_true]

end Sys2Proof.Machine
end

section
/-! PROOFS of the vector engine family: the register files and what retirement changes (R176, R184, R205), and how the VE
runs an instruction that is due (R180, R181). -/

namespace Sys2Proof.Machine
open Sys2Proof

/-! ## One core among the cores -/

theorem State.core_setCore (s : State) (c d : Nat) (x : CoreState) :
    (s.setCore c x).core d = if c = d then x else s.core d := smGet_smSet _ _ _ _ _

@[simp] theorem State.core_setCore_same (s : State) (c : Nat) (x : CoreState) : (s.setCore c x).core c = x := by
  rw [State.core_setCore, if_pos rfl]

theorem State.core_setCore_ne {c d : Nat} (h : d ≠ c) (s : State) (x : CoreState) : (s.setCore c x).core d = s.core d := by
  rw [State.core_setCore, if_neg h.symm]

@[simp] theorem State.ve_setVe_same (s : State) (c : Nat) (x : VeState) : (s.setVe c x).ve c = x := by
  rw [State.ve, State.setVe, State.core_setCore_same]

@[simp] theorem State.me_setVe_same (s : State) (c : Nat) (x : VeState) : (s.setVe c x).me c = s.me c := by
  rw [State.me, State.setVe, State.core_setCore_same]
  rfl

@[simp] theorem State.me_setMe_same (s : State) (c : Nat) (x : MeState) : (s.setMe c x).me c = x := by
  rw [State.me, State.setMe, State.core_setCore_same]

@[simp] theorem State.ve_setMe_same (s : State) (c : Nat) (x : MeState) : (s.setMe c x).ve c = s.ve c := by
  rw [State.ve, State.setMe, State.core_setCore_same]
  rfl

theorem State.core_setVe_ne {c d : Nat} (h : d ≠ c) (s : State) (x : VeState) : (s.setVe c x).core d = s.core d :=
  State.core_setCore_ne h s _

theorem State.core_setMe_ne {c d : Nat} (h : d ≠ c) (s : State) (x : MeState) : (s.setMe c x).core d = s.core d :=
  State.core_setCore_ne h s _

theorem State.core_of_cores {s t : State} (h : t.cores = s.cores) (c : Nat) : t.core c = s.core c := by
  rw [State.core, h]
  rfl

theorem State.ve_of_cores {s t : State} (h : t.cores = s.cores) (c : Nat) : t.ve c = s.ve c := by
  rw [State.ve, State.core_of_cores h]
  rfl

/-! Registers are apart from the cores. -/

@[simp] theorem State.core_wr (s : State) (k v c : Nat) : (s.wr k v).core c = s.core c := (rfl)
@[simp] theorem State.core_bump (s : State) (k n c : Nat) : (s.bump k n).core c = s.core c := (rfl)
@[simp] theorem State.core_orBits (s : State) (k m c : Nat) : (s.orBits k m).core c = s.core c := (rfl)
@[simp] theorem State.ve_wr (s : State) (k v c : Nat) : (s.wr k v).ve c = s.ve c := (rfl)
@[simp] theorem State.ve_bump (s : State) (k n c : Nat) : (s.bump k n).ve c = s.ve c := (rfl)
@[simp] theorem State.ve_orBits (s : State) (k m c : Nat) : (s.orBits k m).ve c = s.ve c := (rfl)
@[simp] theorem State.me_wr (s : State) (k v c : Nat) : (s.wr k v).me c = s.me c := (rfl)
@[simp] theorem State.me_bump (s : State) (k n c : Nat) : (s.bump k n).me c = s.me c := (rfl)
@[simp] theorem State.me_orBits (s : State) (k m c : Nat) : (s.orBits k m).me c = s.me c := (rfl)
@[simp] theorem State.bump_mem (s : State) (k n : Nat) : (s.bump k n).mem = s.mem := (rfl)
@[simp] theorem State.bump_out (s : State) (k n : Nat) : (s.bump k n).out = s.out := (rfl)
@[simp] theorem State.orBits_mem (s : State) (k m : Nat) : (s.orBits k m).mem = s.mem := (rfl)
@[simp] theorem State.orBits_out (s : State) (k m : Nat) : (s.orBits k m).out = s.out := (rfl)
@[simp] theorem State.setVe_csr (s : State) (c : Nat) (x : VeState) : (s.setVe c x).csr = s.csr := (rfl)
@[simp] theorem State.setVe_mem (s : State) (c : Nat) (x : VeState) : (s.setVe c x).mem = s.mem := (rfl)
@[simp] theorem State.setVe_out (s : State) (c : Nat) (x : VeState) : (s.setVe c x).out = s.out := (rfl)
@[simp] theorem State.rd_setVe (s : State) (c : Nat) (x : VeState) (k : Nat) : (s.setVe c x).rd k = s.rd k := (rfl)

/-! ## The register files -/

/-- M0 reads as all ones. -/
theorem VeState.mr_zero (v : VeState) : v.mr 0 = BitVec.allOnes 64 := rfl

/-- Writes of M0 are ignored. -/
theorem VeState.setM_zero (v : VeState) (x : W64) : v.setM 0 x = v := rfl

theorem VeState.xr_setX (v : VeState) (n m : Nat) (x : W64) : (v.setX n x).xr m = if n = m then x else v.xr m :=
  smGet_smSet _ _ _ _ _

theorem VeState.mr_setM_same {n : Nat} (h : n ≠ 0) (v : VeState) (x : W64) : (v.setM n x).mr n = x := by
  simp only [VeState.setM, VeState.mr, h, if_false, smGet_smSet, if_true]

theorem VeState.mr_setM_ne {n m : Nat} (h : m ≠ n) (v : VeState) (x : W64) : (v.setM n x).mr m = v.mr m := by
  by_cases zero : n = 0
  · rw [zero, VeState.setM_zero]
  · simp only [VeState.setM, VeState.mr, zero, if_false, smGet_smSet, h.symm]

/-- The lanes of a list are written, each with its own value. -/
theorem VeState.lane_setLanes {n m l : Nat} {ls : List Nat} (hls : ∀ k ∈ ls, k < 64) (hl : l < 64) (v : VeState)
    (f : Nat → W32) :
    (v.setLanes n (ls.map fun k => (k, f k))).lane m l = if m = n ∧ l ∈ ls then f l else v.lane m l := by
  induction ls generalizing v with
  | nil => simp [VeState.setLanes]
  | cons k ls ih =>
    have hk : k < 64 := hls k List.mem_cons_self
    have one : (v.setLane n k (f k)).lane m l = if 64 * n + k = 64 * m + l then f k else v.lane m l :=
      smGet_smSet _ _ _ _ _
    rw [List.map_cons, VeState.setLanes, ih (fun j hj => hls j (List.mem_cons_of_mem k hj)), one]
    by_cases here : m = n ∧ l = k
    · obtain ⟨rfl, rfl⟩ := here
      simp
    · rw [if_neg (by omega : ¬64 * n + k = 64 * m + l)]
      exact ite_of_iff (by grind) rfl rfl

theorem VeState.mem_active {v : VeState} {w l : Nat} : l ∈ v.active w ↔ l < 64 ∧ (v.mr (vMask w)).getLsbD l = true := by
  rw [VeState.active, List.mem_filter, List.mem_range]

theorem VeState.lt_of_mem_active {v : VeState} {w l : Nat} (h : l ∈ v.active w) : l < 64 := (VeState.mem_active.1 h).1

/-- A vector write: the active lanes take their values; MZ zeroes the others or keeps them (R184). -/
theorem VeState.lane_writeV {l : Nat} (hl : l < 64) (v : VeState) (w m : Nat) (f : Nat → W32) :
    (v.writeV w ((v.active w).map fun k => (k, f k))).lane m l =
      if m = vD w then (if (v.mr (vMask w)).getLsbD l then f l else if vMz w then 0 else v.lane m l) else v.lane m l := by
  have others : ∀ k ∈ (List.range 64).filter fun k => !(v.mr (vMask w)).getLsbD k, k < 64 := fun k hk =>
    List.mem_range.1 (List.mem_filter.1 hk).1
  have zeroed := VeState.lane_setLanes (n := vD w) (m := m) others hl v fun _ => 0
  rw [VeState.writeV, VeState.lane_setLanes (fun k hk => VeState.lt_of_mem_active hk) hl]
  by_cases here : m = vD w
  · cases active : (v.mr (vMask w)).getLsbD l <;> cases vMz w <;>
      simp_all [VeState.mem_active]
  · cases vMz w <;> simp_all

/-! ## Retirement -/

/-- A retirement within the program, and one that leaves it, on a core's other state (R205). -/
theorem State.veRetire_inside {s : State} {c : Nat} {target : Int} (inside : 0 ≤ target ∧ target < (s.ve c).insns.length)
    (op : Nat) : s.veRetire c op target = ((s.bump (coreBase c + 0x130) 1).setVe c
      { s.ve c with retired := (s.ve c).retired + 1, wait := .none }).setVe c
      { s.ve c with retired := (s.ve c).retired + 1, wait := .none, pc := target.toNat } := by
  have bounds : (decide (target < 0) || decide (target ≥ (s.ve c).insns.length)) = false := by
    simp only [Bool.or_eq_false_iff, decide_eq_false_iff_not]
    omega
  unfold State.veRetire
  dsimp only
  rw [State.ve_bump, State.ve_setVe_same, bounds, if_neg Bool.false_ne_true]

theorem State.veRetire_outside {s : State} {c : Nat} {target : Int}
    (outside : ¬(0 ≤ target ∧ target < (s.ve c).insns.length)) (op : Nat) :
    s.veRetire c op target = ((s.bump (coreBase c + 0x130) 1).setVe c
      { s.ve c with retired := (s.ve c).retired + 1, wait := .none }).veFault c vfPcRange (s.ve c).pc op false := by
  have bounds : (decide (target < 0) || decide (target ≥ (s.ve c).insns.length)) = true := by
    simp only [Bool.or_eq_true, decide_eq_true_eq]
    omega
  unfold State.veRetire
  dsimp only
  rw [State.ve_bump, bounds, if_pos rfl]

/-- What a fault of the VE changes: its two registers, and the state of its share (R205). -/
theorem State.veFault_ve (s : State) (c bits pc op : Nat) (ue : Bool) :
    (s.veFault c bits pc op ue).ve c = { s.ve c with ended := true, err := some ue, wait := .none } := by
  unfold State.veFault
  generalize kVeFault c = k, kVeFaultPc c = k', 2 ^ 31 + op * 2 ^ 16 + pc = x
  dsimp only
  split <;> simp

theorem State.veFault_core_ne {c d : Nat} (h : d ≠ c) (s : State) (bits pc op : Nat) (ue : Bool) :
    (s.veFault c bits pc op ue).core d = s.core d := by
  unfold State.veFault
  generalize kVeFault c = k, kVeFaultPc c = k', 2 ^ 31 + op * 2 ^ 16 + pc = x
  dsimp only
  split <;> simp [State.core_setVe_ne h]

theorem State.veFault_frame (s : State) (c bits pc op : Nat) (ue : Bool) :
    (s.veFault c bits pc op ue).me c = s.me c ∧ (s.veFault c bits pc op ue).mem = s.mem ∧
    (s.veFault c bits pc op ue).out = s.out := by
  unfold State.veFault
  generalize kVeFault c = k, kVeFaultPc c = k', 2 ^ 31 + op * 2 ^ 16 + pc = x
  dsimp only
  split
  · rw [State.me_setVe_same, State.setVe_mem, State.setVe_out, State.me_orBits, State.orBits_mem, State.orBits_out]
    exact ⟨rfl, rfl, rfl⟩
  · rw [State.me_setVe_same, State.setVe_mem, State.setVe_out, State.me_wr, State.wr_mem, State.wr_out, State.me_orBits,
      State.orBits_mem, State.orBits_out]
    exact ⟨rfl, rfl, rfl⟩

theorem State.veFault_regs (s : State) (c bits pc op : Nat) (ue : Bool) :
    RegsExcept [kVeFault c, kVeFaultPc c] s (s.veFault c bits pc op ue) := by
  have noted : RegsExcept [kVeFault c, kVeFaultPc c] s (s.orBits (kVeFault c) bits) :=
    (RegsExcept.refl _ s).orBits (by simp) bits
  unfold State.veFault
  generalize kVeFault c = k at noted ⊢
  generalize kVeFaultPc c = k' at noted ⊢
  dsimp only
  split
  · exact noted.of_csr (State.setVe_csr _ _ _)
  · exact (noted.wr (by simp) _).of_csr (State.setVe_csr _ _ _)

theorem kVeFault_ne_kVeFaultPc (c : Nat) : kVeFaultPc c ≠ kVeFault c := by
  rw [kVeFault, kVeFaultPc]
  omega

theorem State.veFault_sticky {bits : Nat} (small : bits < 2 ^ 64) (s : State) (c pc op : Nat) (ue : Bool) :
    (s.veFault c bits pc op ue).rd (kVeFault c) = s.rd (kVeFault c) ||| bits := by
  have noted := s.rd_orBits_same small (kVeFault c)
  have apart := kVeFault_ne_kVeFaultPc c
  unfold State.veFault
  generalize kVeFault c = k at noted apart ⊢
  generalize kVeFaultPc c = k' at apart ⊢
  dsimp only
  split
  · rw [State.rd_setVe, noted]
  · rw [State.rd_setVe, State.rd_wr_ne apart, noted]

/-- The state in which a retirement is counted and its target not yet taken. -/
abbrev State.veCounted (s : State) (c : Nat) : State :=
  (s.bump (coreBase c + 0x130) 1).setVe c { s.ve c with retired := (s.ve c).retired + 1, wait := .none }

theorem State.veCounted_core_ne {c d : Nat} (h : d ≠ c) (s : State) : (s.veCounted c).core d = s.core d := by
  rw [State.core_setVe_ne h, State.core_bump]

theorem State.veCounted_rd (s : State) (c k : Nat) : (s.veCounted c).rd k = (s.bump (coreBase c + 0x130) 1).rd k :=
  State.rd_setVe _ _ _ _

/-- Settles O17: the registers are sparse maps read after a write, and a retirement goes to its target or faults. -/
theorem veRegistersAndRetirement : Obligations.VeRegistersAndRetirement := by
  refine ⟨fun v w n m x => ⟨v.mr_zero, v.setM_zero x, ⟨?_, fun ne => ?_⟩, fun some => VeState.mr_setM_same some v x,
    fun ne => VeState.mr_setM_ne ne v x, fun f l hl => ?_, fun f l hl ne => ?_⟩, fun c op s target => ?_⟩
  · rw [VeState.xr_setX, if_pos rfl]
  · rw [VeState.xr_setX, if_neg ne.symm]
  · rw [VeState.lane_writeV hl, if_pos rfl]
  · rw [VeState.lane_writeV hl, if_neg ne]
  · have counter : (s.veCounted c).rd (coreBase c + 0x130) = min (s.rd (coreBase c + 0x130) + 1) (2 ^ 64 - 1) := by
      rw [State.veCounted_rd, State.rd_bump_same]
    have first : RegsExcept [coreBase c + 0x130] s (s.veCounted c) :=
      ((RegsExcept.refl _ s).bump (by simp) 1).of_csr (State.setVe_csr _ _ _)
    have mem : (s.veCounted c).mem = s.mem := by simp
    have out : (s.veCounted c).out = s.out := by simp
    have me : (s.veCounted c).me c = s.me c := by simp
    by_cases inside : 0 ≤ target ∧ target < (s.ve c).insns.length
    · rw [State.veRetire_inside inside, State.ve_setVe_same, State.me_setVe_same, State.setVe_mem, State.setVe_out]
      exact ⟨fun _ => ⟨rfl, rfl, first.of_csr (State.setVe_csr _ _ _)⟩, fun outside => absurd inside outside, rfl,
        (State.rd_setVe _ _ _ _).trans counter, rfl, rfl, rfl, me, fun d ne => (State.core_setVe_ne ne _ _).trans (s.veCounted_core_ne ne), mem, out⟩
    · rw [State.veRetire_outside inside, State.veFault_ve, State.ve_setVe_same]
      obtain ⟨me', mem', out'⟩ := (s.veCounted c).veFault_frame c vfPcRange (s.ve c).pc op false
      have regs := (s.veCounted c).veFault_regs c vfPcRange (s.ve c).pc op false
      have apart : coreBase c + 0x130 ∉ [kVeFault c, kVeFaultPc c] := by simp [kVeFault, kVeFaultPc]
      have sticky := State.veFault_sticky (bits := vfPcRange) (by decide) (s.veCounted c) c (s.ve c).pc op false
      rw [State.veCounted_rd, State.rd_bump_ne (by rw [kVeFault]; omega)] at sticky
      refine ⟨fun h => absurd h inside, fun _ => ⟨rfl, rfl, sticky.trans ?_, ?_⟩, rfl, (regs _ apart).trans counter, rfl, rfl,
        rfl, me'.trans me, fun d ne => (State.veFault_core_ne ne _ _ _ _ _).trans (s.veCounted_core_ne ne), mem'.trans mem,
        out'.trans out⟩
      · exact (Nat.mod_eq_of_lt (Nat.or_lt_two_pow (s.rd_lt _) (by decide))).symm
      · exact (first.mono (by simp)).trans (regs.mono (by simp [kVeFault, kVeFaultPc]))

end Sys2Proof.Machine
end

section
/-! PROOFS of the vector engine family: its scalar, control, lane, mask and reduction instructions (R182, R187 to R191,
R198 to R201). -/

namespace Sys2Proof.Machine
open Sys2Proof

/-! ## An instruction that is due runs its operation -/

/-- How the VE goes on after an operation (R180, R205). -/
def State.veEnd (s : State) (c op waited : Nat) : VeRes → State
  | .next t => (t.veUnwait c waited).veRetire c op ((t.ve c).pc + 1)
  | .jump t target => t.veRetire c op target
  | .wait k => s.setVe c { s.ve c with wait := k }
  | .fault b ue t => (t.veUnwait c waited).veFault c b (t.ve c).pc op ue
  | .halt => s.veHalt c

section
variable {s : State} {c op w : Nat} {body : Nat → State → VeRes}

/-- An instruction that is ready runs its operation, an access while no order command holds it (R361). -/
theorem State.veRun_of_ready (h : s.veReady c op w) (unheld : (veAccesses op && s.fencedCore c) = false) (k : Nat) :
    s.veRun c op k body = s.veEnd c op k (body w s) := by
  obtain ⟨insn, opcode, limit, legal⟩ := h
  have goes : (decide (vOp w ≠ op) || s.veLimit c || (veAccesses op && s.fencedCore c)) = false := by
    simp [opcode, limit, unheld]
  simp only [State.veRun, insn, goes, legal, Bool.not_true, Bool.false_eq_true, if_false]
  cases body w s <;> rfl

theorem State.veUnwait_of_none {t : State} (h : (t.ve c).wait = .none) (k : Nat) : t.veUnwait c k = t := by
  simp only [State.veUnwait, h]

/-- An operation left the VE's place and its wait as they were. -/
def SameControl (v v' : VeState) : Prop := v'.pc = v.pc ∧ v'.wait = v.wait

/-- An operation of a due instruction goes on to the next one. -/
theorem State.veRun_next {t : State} (h : s.veDue c op w) (unheld : (veAccesses op && s.fencedCore c) = false)
    (hb : body w s = .next t) (same : SameControl (s.ve c) (t.ve c)) (k : Nat) :
    s.veRun c op k body = t.veRetire c op ((s.ve c).pc + 1) := by
  rw [State.veRun_of_ready h.1 unheld, hb, State.veEnd, State.veUnwait_of_none (same.2.trans h.2), same.1]

/-- A refused operation faults. -/
theorem State.veRun_fault {b : Nat} {ue : Bool} (h : s.veDue c op w)
    (unheld : (veAccesses op && s.fencedCore c) = false) (hb : body w s = .fault b ue s) (k : Nat) :
    s.veRun c op k body = s.veFault c b (s.ve c).pc op ue := by
  rw [State.veRun_of_ready h.1 unheld, hb, State.veEnd, State.veUnwait_of_none h.2]

/-- A branch retires at its target. -/
theorem State.veRun_jump {t : State} {target : Int} (h : s.veDue c op w) (free : veAccesses op = false)
    (hb : body w s = .jump t target) (k : Nat) : s.veRun c op k body = t.veRetire c op target := by
  rw [State.veRun_of_ready h.1 (by simp [free]), hb, State.veEnd]

/-! ## Operations on the registers alone -/

theorem SameControl.trans {a b v : VeState} (h : SameControl a b) (g : SameControl b v) : SameControl a v :=
  ⟨g.1.trans h.1, g.2.trans h.2⟩

theorem VeState.setX_control (v : VeState) (n : Nat) (x : W64) : SameControl v (v.setX n x) := ⟨rfl, rfl⟩

theorem VeState.setM_control (v : VeState) (n : Nat) (x : W64) : SameControl v (v.setM n x) := by
  unfold VeState.setM
  split <;> exact ⟨rfl, rfl⟩

theorem VeState.setLanes_control (v : VeState) (n : Nat) (vals : List (Nat × W32)) : SameControl v (v.setLanes n vals) := by
  induction vals generalizing v with
  | nil => exact ⟨rfl, rfl⟩
  | cons e vals ih => exact ih _

theorem VeState.writeV_control (v : VeState) (w : Nat) (vals : List (Nat × W32)) : SameControl v (v.writeV w vals) := by
  unfold VeState.writeV
  dsimp only
  split
  · exact (VeState.setLanes_control _ _ _).trans (VeState.setLanes_control _ _ _)
  · exact VeState.setLanes_control _ _ _

/-- An operation that writes registers of the VE alone. -/
theorem State.veRun_regs {f : VeState → VeState} (h : s.veDue c op w) (free : veAccesses op = false)
    (hb : body w s = veRegs c f s) (same : SameControl (s.ve c) (f (s.ve c))) (k : Nat) :
    s.veRun c op k body = s.veStep c op (f (s.ve c)) :=
  State.veRun_next h (by simp [free]) hb (by rwa [State.ve_setVe_same]) k

theorem State.veRun_setX (x : W64) (h : s.veDue c op w) (free : veAccesses op = false)
    (hb : body w s = veRegs c (fun v => v.setX (vD w) x) s) : s.veRun c op 0 body = s.veX c op w x :=
  State.veRun_regs h free hb (VeState.setX_control _ _ _) 0

theorem State.veRun_scalar (f : W64 → W64 → W64) (h : s.veDue c op w) (free : veAccesses op = false)
    (hb : body w s = veScalar c f w s) : s.veRun c op 0 body = s.veX c op w (f (s.xa c w) (s.xb c w)) :=
  State.veRun_regs h free hb (VeState.setX_control _ _ _) 0

theorem State.veRun_setM {f : VeState → W64} (h : s.veDue c op w) (free : veAccesses op = false)
    (hb : body w s = veRegs c (fun v => v.setM (vD w) (f v)) s) : s.veRun c op 0 body = s.veM c op w (f (s.ve c)) :=
  State.veRun_regs h free hb (VeState.setM_control _ _ _) 0

theorem State.veRun_mask (f : W64 → W64 → W64) (h : s.veDue c op w) (free : veAccesses op = false) :
    s.veRun c op 0 (veMask c f) = s.veM c op w (f (s.ma c w) (s.mb c w)) :=
  State.veRun_setM (f := fun v => f (v.mr (vA w)) (v.mr (vB w))) h free rfl

theorem State.veRun_compare (f : W32 → W32 → Bool) (h : s.veDue c op w) (free : veAccesses op = false) :
    s.veRun c op 0 (veCompare c f) = s.veC c op w fun l => f (s.va c w l) (s.vb c w l) :=
  State.veRun_setM (f := fun v => maskOf ((v.active w).filter fun l => f (v.lane (vA w) l) (v.lane (vB w) l))) h free rfl

/-! ## Operations that set flags -/

/-- Flags, counters of them and the first record are registers: the cores stay. -/
theorem State.cores_wr (t : State) (k v : Nat) : (t.wr k v).cores = t.cores := (rfl)

theorem State.orBits_cores (t : State) (k v : Nat) : (t.orBits k v).cores = t.cores := (rfl)

theorem State.bump_cores (t : State) (k n : Nat) : (t.bump k n).cores = t.cores := (rfl)

theorem State.countStep_cores (t : State) (tile ovf inv : Nat) : (t.countStep tile ovf inv).cores = t.cores := by
  unfold State.countStep
  generalize kLocalFlags tile = k
  dsimp only
  split
  · exact (rfl)
  · rw [State.cores_wr]

theorem State.countFor_cores (t : State) (src : ShareSrc) (ovf inv : Nat) : (t.countFor src ovf inv).cores = t.cores := by
  unfold State.countFor
  split
  · exact t.countStep_cores _ _ _
  · exact (rfl)

theorem State.veFlags_cores (t : State) (d : Nat) (fs : List NFlags) : (t.veFlags d fs).cores = t.cores := by
  unfold State.veFlags
  generalize kVeFlags d = k, coreBase d + 0x120 = k1, coreBase d + 0x128 = k2, kVeFirst d = k3
  dsimp only
  split
  · rfl
  · split
    · split
      · rw [State.countFor_cores, apply_ite State.cores]
        simp only [State.cores_wr, State.bump_cores, State.orBits_cores, ite_self]
      · rw [apply_ite State.cores]
        simp only [State.cores_wr, State.bump_cores, State.orBits_cores, ite_self]
    · rw [apply_ite State.cores]
      simp only [State.cores_wr, State.bump_cores, State.orBits_cores, ite_self]

/-- No flag of any lane, no effect. -/
theorem State.veFlags_of_none {t : State} {fs : List NFlags} (h : ∀ f ∈ fs, f = 0) (d : Nat) : t.veFlags d fs = t := by
  have none : fs.foldl (· ||| ·) 0 = 0 := foldl_eq_self fun f hf => by rw [h f hf]; rfl
  simp only [State.veFlags, none, if_true]

theorem veLanes_eq (t : State) (c w : Nat) (f : VeState → Nat → W32 × NFlags) :
    veLanes c w f t = .next ((t.setVe c ((t.ve c).writeV w (((t.ve c).active w).map fun l => (l, (f (t.ve c) l).1)))).veFlags
      c (((t.ve c).active w).map fun l => (f (t.ve c) l).2)) := by
  simp only [veLanes, List.map_map]
  rfl

theorem State.veRun_lanes (f : VeState → Nat → W32 × NFlags) (h : s.veDue c op w) (free : veAccesses op = false)
    (hb : body w s = veLanes c w f s) : s.veRun c op 0 body = s.veVF c op w (f (s.ve c)) := by
  refine State.veRun_next h (by simp [free]) (hb.trans (veLanes_eq s c w f)) ?_ 0
  rw [State.ve_of_cores (State.veFlags_cores _ c _), State.ve_setVe_same]
  exact VeState.writeV_control _ _ _

theorem State.veVF_of_no_flag (s : State) (c op w : Nat) (f : Nat → W32) :
    (s.veVF c op w fun l => (f l, 0)) = s.veV c op w f := by
  rw [State.veVF, State.veFlags_of_none (by simp)]
  rfl

theorem State.veRun_quiet (f : VeState → Nat → W32) (h : s.veDue c op w) (free : veAccesses op = false)
    (hb : body w s = veLanes c w (fun v l => (f v l, 0)) s) : s.veRun c op 0 body = s.veV c op w (f (s.ve c)) :=
  (State.veRun_lanes _ h free hb).trans (s.veVF_of_no_flag c op w _)

theorem State.veRun_lane1 (f : W32 → W32 × NFlags) (h : s.veDue c op w) (free : veAccesses op = false) :
    s.veRun c op 0 (veLane1 c f) = s.veVF c op w fun l => f (s.va c w l) :=
  State.veRun_lanes (fun v l => f (v.lane (vA w) l)) h free rfl

theorem State.veRun_lane2 (f : W32 → W32 → W32 × NFlags) (h : s.veDue c op w) (free : veAccesses op = false) :
    s.veRun c op 0 (veLane2 c f) = s.veVF c op w fun l => f (s.va c w l) (s.vb c w l) :=
  State.veRun_lanes (fun v l => f (v.lane (vA w) l) (v.lane (vB w) l)) h free rfl

theorem State.veRun_lane3 (f : W32 → W32 → W32 → W32 × NFlags) (h : s.veDue c op w) (free : veAccesses op = false) :
    s.veRun c op 0 (veLane3 c f) = s.veVF c op w fun l => f (s.va c w l) (s.vb c w l) (s.vc c w l) :=
  State.veRun_lanes (fun v l => f (v.lane (vA w) l) (v.lane (vB w) l) (v.lane (vC w) l)) h free rfl

/-- An integer operation of two sources, which sets no flag (R189). -/
theorem State.veRun_noFlag (f : W32 → W32 → W32) (h : s.veDue c op w) (free : veAccesses op = false) :
    s.veRun c op 0 (veLane2 c (noFlag f)) = s.veV c op w fun l => f (s.va c w l) (s.vb c w l) :=
  State.veRun_quiet (fun v l => f (v.lane (vA w) l) (v.lane (vB w) l)) h free rfl

theorem State.veRun_reduce (f : List (Option W32) → W64 × NFlags) (h : s.veDue c op w) (free : veAccesses op = false) :
    s.veRun c op 0 (veReduce c f) = s.veR c op w (f (s.vaActive c w)) := by
  refine State.veRun_next (t := (s.setVe c ((s.ve c).setX (vD w) (f (s.vaActive c w)).1)).veFlags c [(f (s.vaActive c w)).2])
    h (by simp [free]) rfl ?_ 0
  rw [State.ve_of_cores (State.veFlags_cores _ c _), State.ve_setVe_same]
  exact VeState.setX_control _ _ _

theorem State.veR_of_no_flag (s : State) (c op w : Nat) (x : W64) : s.veR c op w (x, 0) = s.veX c op w x := by
  rw [State.veR, State.veFlags_of_none (by simp)]
  rfl

theorem State.veRun_reduce_quiet (f : List (Option W32) → W64) (h : s.veDue c op w) (free : veAccesses op = false) :
    s.veRun c op 0 (veReduce c fun xs => (f xs, 0)) = s.veX c op w (f (s.vaActive c w)) :=
  (State.veRun_reduce (fun xs => (f xs, 0)) h free).trans (s.veR_of_no_flag c op w _)

end

/-! ## Scalar and control instructions -/

theorem ite_slt {α : Type} {n : Nat} (a b : BitVec n) (x y : α) :
    (if a.slt b then x else y) = if a.toInt < b.toInt then x else y :=
  ite_of_iff BitVec.slt_iff_toInt_lt rfl rfl

/-- Settles O16: each instruction's operation, with how the VE goes on after it. -/
theorem veScalarsAndControl : Obligations.VeScalarsAndControl := by
  refine ⟨fun c s w => ⟨fun h => ?_, fun h => ?_, fun h => ?_, fun h => ?_, fun h => ?_, fun h => ?_, fun h => ?_, fun h => ?_,
    fun h => ?_, fun h => ?_, fun h => ?_, fun h => ?_, fun h imm => ?_, fun h sh run imm => ?_, fun h sh run imm => ?_,
    fun h imm => ?_, fun h imm => ?_, fun h imm => ?_, fun h imm => ?_⟩,
    fun c s w => ⟨fun h => ?_, fun h => ?_, fun h => ?_, fun h => ?_, fun h => ?_, fun h => ?_⟩⟩
  · exact congrArg Host.Outcome.next (State.veRun_scalar (fun _ _ => vSext w) h rfl rfl)
  · exact congrArg Host.Outcome.next
      (State.veRun_scalar (fun a _ => BitVec.ofNat 64 (vImm w * 2 ^ 32 + a.toNat % 2 ^ 32)) h rfl rfl)
  · exact congrArg Host.Outcome.next (State.veRun_scalar (fun a b => a + b + vSext w) h rfl rfl)
  · exact congrArg Host.Outcome.next (State.veRun_scalar (fun a b => a - b) h rfl rfl)
  · exact congrArg Host.Outcome.next (State.veRun_scalar (fun a b => a * b) h rfl rfl)
  · exact congrArg Host.Outcome.next (State.veRun_scalar (fun a b => a &&& b) h rfl rfl)
  · exact congrArg Host.Outcome.next (State.veRun_scalar (fun a b => a ||| b) h rfl rfl)
  · exact congrArg Host.Outcome.next (State.veRun_scalar (fun a b => a ^^^ b) h rfl rfl)
  · exact congrArg Host.Outcome.next (State.veRun_scalar (fun a b => a <<< ((b.toNat + vImm w) % 64)) h rfl rfl)
  · exact congrArg Host.Outcome.next (State.veRun_scalar (fun a b => a >>> ((b.toNat + vImm w) % 64)) h rfl rfl)
  · rw [← ite_slt]
    exact congrArg Host.Outcome.next (State.veRun_scalar (fun a b => if a.slt b then 1 else 0) h rfl rfl)
  · exact congrArg Host.Outcome.next (State.veRun_scalar (fun a b => if a = b then 1 else 0) h rfl rfl)
  · exact congrArg Host.Outcome.next (State.veRun_setX _ h rfl (by dsimp only; rw [imm]; rfl))
  · exact congrArg Host.Outcome.next (State.veRun_setX _ h rfl (by dsimp only; rw [imm, run]; rfl))
  · exact congrArg Host.Outcome.next (State.veRun_setX _ h rfl (by dsimp only; rw [imm, run]; rfl))
  · exact congrArg Host.Outcome.next (State.veRun_setX _ h rfl (by dsimp only; rw [imm]; rfl))
  · exact congrArg Host.Outcome.next (State.veRun_setX _ h rfl (by dsimp only; rw [imm]; rfl))
  · exact congrArg Host.Outcome.next (State.veRun_setX _ h rfl (by dsimp only; rw [imm]; rfl))
  · refine congrArg Host.Outcome.next (State.veRun_fault h rfl ?_ 0)
    dsimp only
    split
    next found => split at found <;> first | omega | cases found
    next => rfl
  · exact congrArg Host.Outcome.next (State.veRun_next h rfl rfl ⟨rfl, rfl⟩ 0)
  · refine congrArg Host.Outcome.next ((State.veRun_of_ready h.1 rfl 0).trans ?_)
    rw [State.veEnd, State.veHalt, State.ve_bump]
  · exact congrArg Host.Outcome.next (State.veRun_jump h rfl rfl 0)
  · refine congrArg Host.Outcome.next ((State.veRun_jump h rfl rfl 0).trans (congrArg _ ?_))
    rw [apply_ite (fun d : Int => ((s.ve c).pc : Int) + d)]
    exact ite_of_iff decide_eq_true_iff rfl rfl
  · refine congrArg Host.Outcome.next ((State.veRun_jump h rfl rfl 0).trans (congrArg _ ?_))
    rw [apply_ite (fun d : Int => ((s.ve c).pc : Int) + d)]
    exact (ite_of_iff decide_eq_true_iff rfl rfl).trans (ite_not _ _ _)
  · refine congrArg Host.Outcome.next ((State.veRun_jump h rfl rfl 0).trans (congrArg _ ?_))
    have last : (s.ve c).xr (vD w) - 1 ≠ 0 ↔ ¬(s.ve c).xr (vD w) = 1 := by
      rw [ne_eq, BitVec.sub_eq_iff_eq_add]
      rfl
    rw [State.ve_setVe_same, apply_ite (fun d : Int => ((s.ve c).pc : Int) + d)]
    exact (ite_of_iff (decide_eq_true_iff.trans last) rfl rfl).trans (ite_not _ _ _)

end Sys2Proof.Machine
end

section
/-! PROOFS of the vector engine family: its lane, mask and reduction instructions (R182, R187 to R191, R198 to R201). -/

namespace Sys2Proof.Machine
open Sys2Proof

/-! ## Signed comparisons, and the greatest and the least of a list -/

theorem ite_slt_toInt_le {α : Type} (a b : W32) (x y : α) :
    (if b.slt a then x else y) = if a.toInt ≤ b.toInt then y else x :=
  (ite_of_iff (BitVec.slt_iff_toInt_lt.trans Int.not_le.symm) rfl rfl).trans (ite_not _ _ _)

/-- A fold that keeps one of two words, each in order `r` with the kept one, keeps one of all, in order with each. -/
theorem foldl_extreme {r : Int → Int → Prop} {f : W32 → W32 → W32} (refl : ∀ i, r i i) (trans : ∀ {i j k}, r i j → r j k → r i k)
    (keeps : ∀ z x, (f z x = z ∨ f z x = x) ∧ r z.toInt (f z x).toInt ∧ r x.toInt (f z x).toInt) (xs : List W32) (z : W32) :
    (∀ x ∈ z :: xs, r x.toInt (xs.foldl f z).toInt) ∧ xs.foldl f z ∈ z :: xs := by
  induction xs generalizing z with
  | nil => exact ⟨by simpa using refl _, by simp⟩
  | cons y ys ih =>
    obtain ⟨bound, mem⟩ := ih (f z y)
    obtain ⟨one, hz, hy⟩ := keeps z y
    have first := bound (f z y) (by simp)
    refine ⟨fun x hx => ?_, ?_⟩
    · rcases List.mem_cons.1 hx with rfl | hx
      · exact trans hz first
      · rcases List.mem_cons.1 hx with rfl | hx
        · exact trans hy first
        · exact bound x (List.mem_cons_of_mem _ hx)
    · rw [List.foldl_cons]
      rcases List.mem_cons.1 mem with h | h
      · rw [h]
        rcases one with h | h <;> simp [h]
      · simp [h]

theorem keeps_max (z x : W32) : ((if z.slt x then x else z) = z ∨ (if z.slt x then x else z) = x) ∧
    z.toInt ≤ (if z.slt x then x else z).toInt ∧ x.toInt ≤ (if z.slt x then x else z).toInt := by
  have less : z.slt x = true ↔ z.toInt < x.toInt := BitVec.slt_iff_toInt_lt
  split
  next h => exact ⟨.inr rfl, Int.le_of_lt (less.1 h), Int.le_refl _⟩
  next h => exact ⟨.inl rfl, Int.le_refl _, Int.not_lt.1 (mt less.2 h)⟩

theorem keeps_min (z x : W32) : ((if x.slt z then x else z) = z ∨ (if x.slt z then x else z) = x) ∧
    z.toInt ≥ (if x.slt z then x else z).toInt ∧ x.toInt ≥ (if x.slt z then x else z).toInt := by
  have less : x.slt z = true ↔ x.toInt < z.toInt := BitVec.slt_iff_toInt_lt
  split
  next h => exact ⟨.inr rfl, Int.le_of_lt (less.1 h), Int.le_refl _⟩
  next h => exact ⟨.inl rfl, Int.le_refl _, Int.not_lt.1 (mt less.2 h)⟩

/-- The words that a reduction takes are those of the active lanes, in order. -/
theorem State.vaActive_filterMap (s : State) (c w : Nat) :
    (s.vaActive c w).filterMap id = ((s.ve c).active w).map (s.va c w) := by
  rw [State.vaActive, VeState.active]
  induction List.range 64 with
  | nil => rfl
  | cons l ls ih =>
    cases on : ((s.ve c).mr (vMask w)).getLsbD l <;> simpa [on] using ih

/-! ## Integer instructions -/

/-- IADDS is exact within 32 bits, and beyond them saturates with its flags (R189). -/
theorem iadds_eq (a b : W32) : iadds a b = (BitVec.ofInt 32 (max (-(2 ^ 31)) (min (a.toInt + b.toInt) (2 ^ 31 - 1))),
    if -(2 ^ 31) ≤ a.toInt + b.toInt ∧ a.toInt + b.toInt ≤ 2 ^ 31 - 1 then 0 else fIsat ||| fOvf) := by
  unfold iadds
  generalize a.toInt + b.toInt = z
  dsimp only
  by_cases high : z > 2147483647
  · rw [if_pos high, if_neg (by omega), Int.min_eq_right (by omega), Int.max_eq_right (by decide)]
    rfl
  · rw [if_neg high]
    by_cases low : z < -2147483648
    · rw [if_pos low, if_neg (by omega), Int.min_eq_left (by omega), Int.max_eq_left (by omega)]
      rfl
    · rw [if_neg low, if_pos (by omega), Int.min_eq_left (by omega), Int.max_eq_right (by omega)]

/-- Settles O18: each integer instruction's operation, lane by lane; IREDMAX and IREDMIN keep the greatest and the least
of the active lanes. -/
theorem veIntegerOperations : Obligations.VeIntegerOperations := by
  refine ⟨fun c s w => ⟨fun h => ?_, fun h => ?_, fun h => ?_, fun h => ?_, fun h => ?_, fun h => ?_, fun h => ?_, fun h => ?_,
    fun h => ?_, fun h => ?_, fun h => ?_, fun h => ?_, fun h => ?_, fun h => ?_⟩,
    fun c s w => ⟨fun h => ?_, fun h => ?_, fun h => ?_, fun h => ?_⟩⟩
  · exact congrArg Host.Outcome.next (State.veRun_noFlag (fun a b => a + b) h rfl)
  · exact congrArg Host.Outcome.next (State.veRun_noFlag (fun a b => a - b) h rfl)
  · exact congrArg Host.Outcome.next (State.veRun_noFlag (fun a b => a * b) h rfl)
  · simp only [← ite_slt_toInt_le]
    exact congrArg Host.Outcome.next (State.veRun_noFlag (fun a b => if b.slt a then b else a) h rfl)
  · have run := State.veRun_noFlag (fun a b => if a.slt b then b else a) h rfl
    refine (congrArg Host.Outcome.next run).trans ?_
    simp only [ite_slt_toInt_le]
  · exact congrArg Host.Outcome.next (State.veRun_noFlag (fun a b => a &&& b) h rfl)
  · exact congrArg Host.Outcome.next (State.veRun_noFlag (fun a b => a ||| b) h rfl)
  · exact congrArg Host.Outcome.next (State.veRun_noFlag (fun a b => a ^^^ b) h rfl)
  · exact congrArg Host.Outcome.next (State.veRun_noFlag (fun a b => a <<< (b.toNat % 32)) h rfl)
  · exact congrArg Host.Outcome.next (State.veRun_noFlag (fun a b => a >>> (b.toNat % 32)) h rfl)
  · exact congrArg Host.Outcome.next (State.veRun_noFlag (fun a b => a.sshiftRight (b.toNat % 32)) h rfl)
  · exact congrArg Host.Outcome.next (State.veRun_quiet (fun v l => v.lane (vA w) l + BitVec.ofNat 32 (vImm w)) h rfl rfl)
  · exact congrArg Host.Outcome.next (State.veRun_compare (fun a b => a = b) h rfl)
  · have run := State.veRun_compare (fun a b => a.slt b) h rfl
    refine (congrArg Host.Outcome.next run).trans ?_
    simp only [BitVec.slt_eq_decide]
  · refine (congrArg Host.Outcome.next (State.veRun_lane2 iadds h rfl)).trans ?_
    simp only [iadds_eq]
  · have run := State.veRun_reduce_quiet
      (fun xs => BitVec.ofInt 64 ((xs.filterMap id).foldl (fun z x => z + x.toInt) 0)) h rfl
    rw [State.vaActive_filterMap, List.foldl_map] at run
    rw [List.foldl_map]
    exact congrArg Host.Outcome.next run
  · have run := State.veRun_reduce_quiet (fun xs =>
      (((xs.filterMap id).foldl (fun z x => if z.slt x then x else z) 0x80000000#32).signExtend 64)) h rfl
    rw [State.vaActive_filterMap] at run
    obtain ⟨bound, mem⟩ := foldl_extreme (r := (· ≤ ·)) Int.le_refl Int.le_trans keeps_max (((s.ve c).active w).map (s.va c w)) 0x80000000#32
    refine ⟨_, congrArg Host.Outcome.next run, fun l hl => bound _ (List.mem_cons_of_mem _ (List.mem_map_of_mem hl)), ?_⟩
    rcases List.mem_cons.1 mem with h | h
    · exact .inl (by rw [h]; rfl)
    · obtain ⟨l, hl, eq⟩ := List.mem_map.1 h
      exact .inr ⟨l, hl, by rw [eq]⟩
  · have run := State.veRun_reduce_quiet (fun xs =>
      (((xs.filterMap id).foldl (fun z x => if x.slt z then x else z) 0x7FFFFFFF#32).signExtend 64)) h rfl
    rw [State.vaActive_filterMap] at run
    obtain ⟨bound, mem⟩ := foldl_extreme (r := (· ≥ ·)) Int.le_refl (fun h h' => Int.le_trans h' h) keeps_min (((s.ve c).active w).map (s.va c w)) 0x7FFFFFFF#32
    refine ⟨_, congrArg Host.Outcome.next run, fun l hl => bound _ (List.mem_cons_of_mem _ (List.mem_map_of_mem hl)), ?_⟩
    rcases List.mem_cons.1 mem with h | h
    · exact .inl (by rw [h]; rfl)
    · obtain ⟨l, hl, eq⟩ := List.mem_map.1 h
      exact .inr ⟨l, hl, by rw [eq]⟩

/-! ## FP32 instructions -/

/-- Settles O19: each FP32 instruction applies its operation, lane by lane, with its flags. -/
theorem veFloatOperations : Obligations.VeFloatOperations := by
  refine ⟨fun c s w => ⟨fun h => ?_, fun h => ?_, fun h => ?_, fun h => ?_, fun h => ?_, fun h => ?_, fun h => ?_, fun h => ?_,
    fun h => ?_, fun h => ?_, fun h => ?_, fun h => ?_, fun h => ?_, fun h => ?_, fun h => ?_, fun h => ?_⟩,
    fun c s w => ⟨fun h src dst plain => ?_, fun h fp32 dst plain => ?_, fun h => ?_, fun h => ?_, fun h => ?_, fun h => ?_,
      fun h => ?_⟩⟩
  · exact congrArg Host.Outcome.next (State.veRun_lane2 fadd h rfl)
  · exact congrArg Host.Outcome.next (State.veRun_lane2 fsub h rfl)
  · exact congrArg Host.Outcome.next (State.veRun_lane2 fmul h rfl)
  · exact congrArg Host.Outcome.next (State.veRun_lane3 ffma h rfl)
  · exact congrArg Host.Outcome.next (State.veRun_lane2 fdiv h rfl)
  · exact congrArg Host.Outcome.next (State.veRun_lane1 fsqrt h rfl)
  · exact congrArg Host.Outcome.next (State.veRun_lane2 (fminmax true) h rfl)
  · exact congrArg Host.Outcome.next (State.veRun_lane2 (fminmax false) h rfl)
  · exact congrArg Host.Outcome.next (State.veRun_quiet (fun v l => v.lane (vA w) l &&& 0x7FFFFFFF) h rfl rfl)
  · exact congrArg Host.Outcome.next (State.veRun_quiet (fun v l => v.lane (vA w) l ^^^ 0x80000000) h rfl rfl)
  · exact congrArg Host.Outcome.next (State.veRun_lane1 fexp2 h rfl)
  · exact congrArg Host.Outcome.next (State.veRun_lane1 flog2 h rfl)
  · exact congrArg Host.Outcome.next (State.veRun_lane1 frsqrt h rfl)
  · exact congrArg Host.Outcome.next (State.veRun_compare fcmpeq h rfl)
  · exact congrArg Host.Outcome.next (State.veRun_compare fcmplt h rfl)
  · exact congrArg Host.Outcome.next (State.veRun_compare fcmple h rfl)
  · exact congrArg Host.Outcome.next (State.veRun_lanes (fun v l =>
      let x := decodeCode (s.fmt (vImm w % 16)) (v.lane (vA w) l).toNat
      let y := convert (s.fmt (vImm w / 16 % 16)) none x.1
      (BitVec.ofNat 32 y.1, x.2 ||| y.2)) h rfl (if_neg (by simp [src, dst, plain])))
  · exact congrArg Host.Outcome.next (State.veRun_lanes (fun v l =>
      let p := (f32 (v.lane (vA w) l)).mul (f32 (v.lane (vB w) l))
      let y := convert (s.fmt (vImm w / 16 % 16)) none p
      (BitVec.ofNat 32 y.1, y.2 ||| flagIf p.isNan fInv)) h rfl (if_neg (by simp [fp32, dst, plain])))
  · exact congrArg Host.Outcome.next (State.veRun_lane1 fcvti h rfl)
  · exact congrArg Host.Outcome.next (State.veRun_lane1 icvtf h rfl)
  · exact congrArg Host.Outcome.next (State.veRun_reduce fredsum h rfl)
  · exact congrArg Host.Outcome.next (State.veRun_reduce (fredext false) h rfl)
  · exact congrArg Host.Outcome.next (State.veRun_reduce (fredext true) h rfl)

/-! ## Permutations, masks and the counter generator -/

theorem VeState.setLane_control (v : VeState) (n l : Nat) (x : W32) : SameControl v (v.setLane n l x) := ⟨rfl, rfl⟩

/-- Settles O20: each instruction's operation, with how the VE goes on after it. -/
theorem vePermutations : Obligations.VePermutations := by
  refine fun c s w => ⟨fun h => ?_, fun h => ?_, fun h => ?_, fun h => ?_, fun h => ?_, fun h => ?_, fun h => ?_, fun h => ?_,
    fun h => ?_, fun h => ?_, fun h => ?_, fun h => ?_, fun h => ?_, fun h => ?_, fun h => ?_, fun h within => ?_,
    fun h beyond => ?_⟩
  · exact congrArg Host.Outcome.next (State.veRun_quiet (fun v _ => (v.xr (vA w)).setWidth 32) h rfl rfl)
  · exact congrArg Host.Outcome.next (State.veRun_regs (f := fun v => v.setLanes (vD w) ((List.range 64).map fun l =>
      (l, if (v.mr (vMask w)).getLsbD l then v.lane (vA w) l else v.lane (vB w) l))) h rfl rfl
      (VeState.setLanes_control _ _ _) 0)
  · exact congrArg Host.Outcome.next (State.veRun_quiet
      (fun v l => v.lane (vA w) ((v.lane (vB w) l).toNat % 64)) h rfl rfl)
  · exact congrArg Host.Outcome.next (State.veRun_quiet
      (fun v l => v.lane (vA w) ((l + (v.xr (vB w)).toNat) % 64)) h rfl rfl)
  · exact congrArg Host.Outcome.next (State.veRun_regs
      (f := fun v => v.setX (vD w) ((v.lane (vA w) (vImm w % 64)).setWidth 64)) h rfl rfl (VeState.setX_control _ _ _) 0)
  · exact congrArg Host.Outcome.next (State.veRun_regs
      (f := fun v => v.setLane (vD w) (vImm w % 64) ((v.xr (vA w)).setWidth 32)) h rfl rfl
      (VeState.setLane_control _ _ _ _) 0)
  · exact congrArg Host.Outcome.next (State.veRun_quiet (fun v l => v.lane (vA w) l) h rfl rfl)
  · exact congrArg Host.Outcome.next (State.veRun_mask (fun a b => a &&& b) h rfl)
  · exact congrArg Host.Outcome.next (State.veRun_mask (fun a b => a ||| b) h rfl)
  · exact congrArg Host.Outcome.next (State.veRun_mask (fun a b => a ^^^ b) h rfl)
  · exact congrArg Host.Outcome.next (State.veRun_mask (fun a _ => ~~~a) h rfl)
  · exact congrArg Host.Outcome.next (State.veRun_setM (f := fun v => v.xr (vA w)) h rfl rfl)
  · exact congrArg Host.Outcome.next (State.veRun_setX _ h rfl rfl)
  · exact congrArg Host.Outcome.next (State.veRun_regs (f := fun v => v.setX (vD w) (BitVec.ofNat 64
      ((List.range 64).countP fun l => (v.mr (vA w)).getLsbD l))) h rfl rfl (VeState.setX_control _ _ _) 0)
  · exact congrArg Host.Outcome.next (State.veRun_quiet
      (fun v l => laneWord s v w l (fld (v.xr (vC w)).toNat 28 4) (vImm w % 4)) h rfl rfl)
  · exact congrArg Host.Outcome.next (State.veRun_setM
      (f := fun v => maskOf ((v.active w).filter fun l => (laneWord s v w l 0 0).toNat ≥ ((s.ve c).xr (vB w)).toNat)) h rfl
      (if_neg (Nat.not_lt.2 within)))
  · exact congrArg Host.Outcome.next (State.veRun_fault h rfl (if_pos beyond) 0)

end Sys2Proof.Machine
end

section
/-! PROOFS of the vector engine family: its loads and stores of local SRAM (R182, R184 to R186). -/

namespace Sys2Proof.Machine
open Sys2Proof

/-! ## A core reads its own local SRAM -/

theorem regionOf_coreAddr {c o : Nat} (hc : c < 1200) (ho : o < 0x100000) : regionOf (coreAddr c o) = .core := by
  have low : coreAddr c o < 0x4B000000 := by unfold coreAddr; omega
  rw [regionOf, if_pos low]

theorem tileOf_of_core {a : Nat} (h : regionOf a = .core) : tileOf a = a / 0x100000 / 300 := by
  unfold tileOf
  rw [h]

theorem coreAddr_div {c o : Nat} (ho : o < 0x100000) : coreAddr c o / 0x100000 = c := by
  unfold coreAddr
  omega

theorem tileOf_coreAddr {c o : Nat} (hc : c < 1200) (ho : o < 0x100000) : tileOf (coreAddr c o) = c / 300 := by
  rw [tileOf_of_core (regionOf_coreAddr hc ho), coreAddr_div ho]

/-- A range without an uncorrectable error has none in any part of it. -/
theorem State.ueAt_of_sub {s : State} {a n b m : Nat} (h : s.ueAt a n = none) (low : a ≤ b) (high : b + m ≤ a + n) :
    s.ueAt b m = none := by
  unfold State.ueAt at h ⊢
  split at h
  next empty => exact if_pos empty
  next ne =>
    rw [if_neg ne]
    simp only [Option.map_eq_none_iff, List.find?_eq_none] at h ⊢
    intro e he
    have := h e he
    simp only [Bool.and_eq_true, decide_eq_true_eq] at this ⊢
    exact fun ⟨⟨from_b, to_b⟩, ue⟩ => this ⟨⟨by omega, by omega⟩, ue⟩

/-- A read that is granted and meets no error gives the bytes and changes nothing. -/
theorem State.memRead_of_no_ue {s : State} {a n : Nat} (granted : s.accessCode a n = .ok) (clean : s.ueAt a n = none)
    (plain : regionOf a ≠ .csr) : s.memRead a n = (.ok, s.bytes a n, s) := by
  simp only [State.memRead, granted, State.readGo, clean, if_neg plain]

/-- The local SRAM of a core that answers is served (R332). -/
theorem State.accessCode_coreAddr {s : State} {c o n : Nat} (hc : c < 1200) (within : o + n ≤ 0x100000)
    (present : s.absent c = false) (running : s.gated (c / 300) = false) : s.accessCode (coreAddr c o) n = .ok := by
  unfold State.accessCode
  dsimp only
  split
  · rfl
  next positive =>
    have last : coreAddr c o + n - 1 = coreAddr c (o + n - 1) := by unfold coreAddr; omega
    have first : regionOf (coreAddr c o) = .core := regionOf_coreAddr hc (by omega)
    rw [last, first, regionOf_coreAddr hc (by omega), if_neg (by simp), tileOf_coreAddr hc (by omega),
      tileOf_coreAddr hc (by omega), coreAddr_div (by omega), coreAddr_div (by omega)]
    simp [present, running, show c + 1 - c = 1 by omega]

section
variable {s : State} {c o n : Nat}

/-- What the local accesses of an instruction rest on (R194, R332, R337). -/
def State.LocalOk (s : State) (c : Nat) : Prop :=
  ((s.ve c).dma = [] ∧ (s.ve c).unseen = []) ∧ s.absent c = false ∧ s.gated (c / 300) = false ∧
    s.ueAt (coreAddr c 0) 0x100000 = none

theorem State.veRead_of_local (h : s.LocalOk c) (hc : c < 1200) (within : o + n ≤ 0x100000) :
    s.veRead c o n = (.ok (s.bytes (coreAddr c o) n), s) := by
  obtain ⟨⟨dma, unseen⟩, present, running, clean⟩ := h
  have plain : regionOf (coreAddr c o) ≠ .csr := by
    have low : coreAddr c o ≤ 0x4B000000 := by unfold coreAddr; omega
    unfold regionOf
    by_cases inside : coreAddr c o < 0x4B000000
    · rw [if_pos inside]
      decide
    · rw [if_neg inside, show coreAddr c o = 0x4B000000 by omega]
      decide
  have read : s.memRead (coreAddr c o) n = (.ok, s.bytes (coreAddr c o) n, s) :=
    State.memRead_of_no_ue (State.accessCode_coreAddr hc within present running)
      (State.ueAt_of_sub clean (by unfold coreAddr; omega) (by unfold coreAddr; omega)) plain
  simp only [State.veRead, State.coreRead, read, dma, unseen]
  rfl

theorem State.veWrite_of_local (h : s.LocalOk c) (o : Nat) (bs : List Byte) : s.veWrite c o bs = s.poke (coreAddr c o) bs := by
  obtain ⟨⟨dma, unseen⟩, -⟩ := h
  simp [State.veWrite, dma, unseen]

/-- A store marks no byte as erroneous. -/
theorem mem_ueSet_false {m : SMap Bool} {a n : Nat} {e : Nat × Bool} (h : e ∈ ueSet m a n false) : e ∈ m := by
  induction n generalizing m a with
  | zero => exact h
  | succ n ih =>
    have sub := ih h
    rw [smSet, if_pos rfl] at sub
    exact mem_smDel sub

theorem State.ueAt_poke {a : Nat} (h : s.ueAt a n = none) (b : Nat) (bs : List Byte) : (s.poke b bs).ueAt a n = none := by
  simp only [State.ueAt, State.poke] at h ⊢
  split at h
  next empty => simp [empty]
  next ne =>
    simp only [if_neg ne, ite_eq_left_iff, Option.map_eq_none_iff, List.find?_eq_none] at h ⊢
    exact fun _ e he => h e (mem_ueSet_false he)

theorem State.LocalOk.poke (h : s.LocalOk c) (a : Nat) (bs : List Byte) : (s.poke a bs).LocalOk c := by
  obtain ⟨free, present, running, clean⟩ := h
  exact ⟨free, present, running, State.ueAt_poke clean a bs⟩

theorem State.veLoad_of_local (h : s.LocalOk c) (hc : c < 1200) {spans : List (Nat × Span)}
    (within : ∀ e ∈ spans, e.2.off + e.2.n ≤ 0x100000) :
    s.veLoad c spans = (.ok (spans.map fun e => (e.1, s.veElem c e.2)), s) := by
  induction spans with
  | nil => rfl
  | cons e spans ih =>
    have read := State.veRead_of_local h hc (within e (by simp))
    have rest := ih fun e he => within e (List.mem_cons_of_mem _ he)
    simp only [State.veLoad, read, rest, List.map_cons, State.veElem]

/-- The stores of a list of spans, one after the other. -/
def State.putSpans (s : State) (c : Nat) (v : Nat → W32) (spans : List (Nat × Span)) : State :=
  spans.foldl (fun t e => t.putSpan c e.2 (v e.1)) s

theorem State.putSpans_cores (v : Nat → W32) (spans : List (Nat × Span)) : (s.putSpans c v spans).cores = s.cores := by
  induction spans generalizing s with
  | nil => rfl
  | cons e spans ih => exact ih

theorem State.veStore_of_local (h : s.LocalOk c) (hc : c < 1200) (v : Nat → W32) {spans : List (Nat × Span)}
    (within : ∀ e ∈ spans, e.2.off + e.2.n ≤ 0x100000) :
    s.veStore c (spans.map fun e => (e.1, e.2, v e.1)) = (.ok (), s.putSpans c v spans) := by
  induction spans generalizing s with
  | nil => rfl
  | cons e spans ih =>
    have read := State.veRead_of_local h hc (within e (by simp))
    have rest := fun bs => ih (h.poke (coreAddr c e.2.off) bs) fun e he => within e (List.mem_cons_of_mem _ he)
    rw [State.putSpans, List.foldl_cons, List.map_cons, State.putSpan]
    by_cases whole : e.2.sh = 0 ∧ e.2.w = 8 * e.2.n
    · rw [if_pos whole, State.veStore, if_pos (by simp [whole]), State.veWrite_of_local h]
      exact rest _
    · rw [if_neg whole, State.veStore, if_neg (by simpa using whole), read]
      dsimp only
      rw [State.veWrite_of_local h]
      exact rest _

end

/-! ## The instructions -/

theorem Span.ok_iff {x : Span} {al : Nat} : x.ok al = true ↔ x.off % al = 0 ∧ x.off + x.n ≤ 0x100000 := by
  simp [Span.ok]

theorem spans_within {spans : List (Nat × Span)} {al : Nat} (h : ∀ e ∈ spans, e.2.ok al = true) :
    ∀ e ∈ spans, e.2.off + e.2.n ≤ 0x100000 := fun e he => (Span.ok_iff.1 (h e he)).2

section
variable {s : State} {c op w al : Nat} {spans : List (Nat × Span)} {body : Nat → State → VeRes}

theorem State.veQuietMem_local (quiet : s.veQuietMem c) : s.LocalOk c := by
  obtain ⟨dma, unseen, present, running, -, clean⟩ := quiet
  exact ⟨⟨dma, unseen⟩, present, running, clean⟩

theorem State.veQuietMem_unheld (quiet : s.veQuietMem c) (op : Nat) : (veAccesses op && s.fencedCore c) = false := by
  obtain ⟨-, -, -, -, unheld, -⟩ := quiet
  rw [unheld, Bool.and_false]

theorem State.veRun_loadV (quiet : s.veQuietMem c) (hc : c < 1200) (h : s.veDue c op w)
    (hb : body w s = veLoadV c w al spans s) (ok : ∀ e ∈ spans, e.2.ok al = true) :
    s.veRun c op 0 body = s.veLoaded c op w spans := by
  have load : veLoadV c w al spans s = .next (s.setVe c ((s.ve c).writeV w (spans.map fun e => (e.1, s.veElem c e.2)))) := by
    simp only [veLoadV, List.all_eq_true.2 ok, Bool.not_true, Bool.false_eq_true, if_false,
      State.veLoad_of_local (State.veQuietMem_local quiet) hc (spans_within ok)]
  exact State.veRun_next h (State.veQuietMem_unheld quiet op) (hb.trans load)
    (by rw [State.ve_setVe_same]; exact VeState.writeV_control _ _ _) 0

theorem State.veRun_storeV (quiet : s.veQuietMem c) (hc : c < 1200) (h : s.veDue c op w)
    (hb : body w s = veStoreV c w al spans s) (ok : ∀ e ∈ spans, e.2.ok al = true) :
    s.veRun c op 0 body = s.veStored c op w spans := by
  have store : veStoreV c w al spans s = .next (s.putSpans c (fun l => (s.ve c).lane (vD w) l) spans) := by
    simp only [veStoreV, List.all_eq_true.2 ok, Bool.not_true, Bool.false_eq_true, if_false,
      State.veStore_of_local (State.veQuietMem_local quiet) hc (fun l => (s.ve c).lane (vD w) l) (spans_within ok)]
  exact State.veRun_next h (State.veQuietMem_unheld quiet op) (hb.trans store)
    (by rw [State.ve_of_cores (State.putSpans_cores _ _)]; exact ⟨rfl, rfl⟩) 0

end

/-- Settles O21: each instruction's spans lie in local SRAM, which serves them all. -/
theorem veLoadsAndStores : Obligations.VeLoadsAndStores := by
  refine ⟨fun c s w quiet => ⟨fun h aligned within => ?_, fun h sp hsp ok => ?_, fun h sp hsp ok => ?_, fun h sp hsp ok => ?_,
    fun h fmt sp hsp ok => ?_, fun h sp hsp ok => ?_⟩,
    fun c s w quiet => ⟨fun h within => ?_, fun h sp hsp ok => ?_, fun h sp hsp ok => ?_, fun h sp hsp ok => ?_,
    fun h fmt sp hsp ok => ?_, fun h sp hsp ok => ?_⟩⟩
  · refine congrArg Host.Outcome.next (State.veRun_next h (State.veQuietMem_unheld quiet _) ?_
      (by rw [State.ve_setVe_same]; exact VeState.setX_control _ _ _) 0)
    dsimp only
    rw [Span.ok_iff.2 ⟨aligned, within⟩, State.veRead_of_local (State.veQuietMem_local quiet) c.isLt within]
    rfl
  · subst hsp
    exact congrArg Host.Outcome.next (State.veRun_loadV quiet c.isLt h rfl ok)
  · subst hsp
    exact congrArg Host.Outcome.next (State.veRun_loadV quiet c.isLt h rfl ok)
  · subst hsp
    exact congrArg Host.Outcome.next (State.veRun_loadV quiet c.isLt h rfl ok)
  · subst hsp
    exact congrArg Host.Outcome.next (State.veRun_loadV quiet c.isLt h (if_neg (by simp [fmt])) ok)
  · subst hsp
    exact congrArg Host.Outcome.next (State.veRun_loadV quiet c.isLt h rfl ok)
  · refine congrArg Host.Outcome.next (State.veRun_next
      (t := s.poke (coreAddr c (veBase (s.ve c) w).toNat) (leBytes 8 (s.xb c w).toNat)) h
      (State.veQuietMem_unheld quiet _) ?_ ⟨rfl, rfl⟩ 0)
    dsimp only
    rw [Span.ok_iff.2 ⟨Nat.mod_one _, within⟩, State.veWrite_of_local (State.veQuietMem_local quiet)]
    rfl
  · subst hsp
    exact congrArg Host.Outcome.next (State.veRun_storeV quiet c.isLt h rfl ok)
  · subst hsp
    exact congrArg Host.Outcome.next (State.veRun_storeV quiet c.isLt h rfl ok)
  · subst hsp
    exact congrArg Host.Outcome.next (State.veRun_storeV quiet c.isLt h rfl ok)
  · subst hsp
    exact congrArg Host.Outcome.next (State.veRun_storeV quiet c.isLt h (if_neg (by simp [fmt])) ok)
  · subst hsp
    exact congrArg Host.Outcome.next (State.veRun_storeV quiet c.isLt h rfl ok)

end Sys2Proof.Machine
end

section
/-! PROOFS of the vector engine family: finished tiles popped, and core DMA (R100, R193 to R197). -/

namespace Sys2Proof.Machine
open Sys2Proof

/-- What a sticky register reads after bits were set. -/
theorem State.rd_orBits_lor (s : State) (k m : Nat) : (s.orBits k m).rd k = Nat.lor (s.rd k) m % 2 ^ 64 :=
  State.rd_wr_same _ _ _

section
variable {s : State} {c op w k : Nat} {body : Nat → State → VeRes}

/-- An operation that goes on, whatever wait it had. -/
theorem State.veRun_goes {t : State} (h : s.veReady c op w) (unheld : (veAccesses op && s.fencedCore c) = false)
    (hb : body w s = .next t) (pc : (t.ve c).pc = (s.ve c).pc) :
    s.veRun c op k body = (t.veUnwait c k).veRetire c op ((s.ve c).pc + 1) := by
  rw [State.veRun_of_ready h unheld, hb, State.veEnd, pc]

theorem State.veRun_waits {why : VeWait} (h : s.veReady c op w) (unheld : (veAccesses op && s.fencedCore c) = false)
    (hb : body w s = .wait why) : s.veRun c op k body = s.setVe c { s.ve c with wait := why } := by
  rw [State.veRun_of_ready h unheld, hb, State.veEnd]

theorem State.veRun_faults {b : Nat} {ue : Bool} (h : s.veReady c op w)
    (unheld : (veAccesses op && s.fencedCore c) = false) (hb : body w s = .fault b ue s) :
    s.veRun c op k body = (s.veUnwait c k).veFault c b (s.ve c).pc op ue := by
  rw [State.veRun_of_ready h unheld, hb, State.veEnd]

/-- An access waits while an order command holds it (R361). -/
theorem State.veRun_of_held (h : s.veReady c op w) (access : veAccesses op = true) (held : s.fencedCore c = true) :
    s.veRun c op k body = s := by
  simp [State.veRun, h.1, access, held]

end

/-! ## The finished-tile queue -/

theorem VeState.setFlat_control (v : VeState) (k : Nat) (xs : List Nat) : SameControl v (v.setFlat k xs) := by
  induction xs generalizing v k with
  | nil => exact ⟨rfl, rfl⟩
  | cons x xs ih => exact ih _ _

/-- The registers after a tile's codes are put from one place on. -/
theorem VeState.smGet_setFlat (v : VeState) (k j : Nat) (xs : List Nat) : smGet 0 (v.setFlat k xs).v j =
    if k ≤ j ∧ j < k + xs.length then BitVec.ofNat 32 (xs.getD (j - k) 0) else smGet 0 v.v j := by
  induction xs generalizing v k with
  | nil => exact (if_neg (by simp)).symm
  | cons x xs ih =>
    rw [VeState.setFlat, ih, smGet_smSet]
    rcases Nat.lt_trichotomy j k with less | rfl | more
    · rw [if_neg (by omega), if_neg (by omega), if_neg (by omega)]
    · rw [if_neg (by omega), if_pos rfl, if_pos ⟨Nat.le_refl _, by rw [List.length_cons]; omega⟩, Nat.sub_self,
        List.getD_cons_zero]
    · obtain ⟨i, rfl⟩ := Nat.exists_eq_add_of_lt more
      have first : k + i + 1 - k = i + 1 := by omega
      have rest : k + i + 1 - (k + 1) = i := by omega
      rw [first, rest, List.getD_cons_succ, List.length_cons, if_neg (show k ≠ k + i + 1 by omega)]
      exact ite_of_iff (by omega) rfl rfl

theorem State.veUnwait_cases (c n : Nat) (s : State) :
    ((s.ve c).wait = .popt → s.veUnwait c n = s.bump (coreBase c + 0x40) n) ∧
    ((s.ve c).wait = .dmaFull ∨ (s.ve c).wait = .dmaWait → s.veUnwait c n = s.bump (coreBase c + 0x138) n) ∧
    ((s.ve c).wait = .none → s.veUnwait c n = s) := by
  refine ⟨fun h => ?_, fun h => ?_, fun h => State.veUnwait_of_none h n⟩
  · simp only [State.veUnwait, h, kStallEmpty]
  · rcases h with h | h <;> simp only [State.veUnwait, h]

theorem exec_popt {c : CoreId} {n w : Nat} {s : State} {e : QEntry} (h : s.veReady c 0x2B w) (dest : vD w = 0 ∨ vD w = 16)
    (head : (s.me c).entry (s.me c).head = e) :
    (e.state = 3 →
      exec (.popt c n) s = .next ((((s.setVe c (((s.ve c).setFlat (64 * vD w) e.codes).setX (vA w)
        (BitVec.ofNat 64 (e.tag + e.fmt * 2 ^ 16)))).setMe c
          { (s.me c).setEntry (s.me c).head QEntry.free with head := ((s.me c).head + 1) % 8 }).veUnwait c n).veRetire c 0x2B
            ((s.ve c).pc + 1))) ∧
    (e.state ≠ 3 → exec (.popt c n) s = .next (s.setVe c { s.ve c with wait := .popt })) := by
  have listed : ¬(decide (vD w ≠ 0) && decide (vD w ≠ 16)) = true := by
    rcases dest with h | h <;> simp [h]
  subst head
  refine ⟨fun ready => ?_, fun waits => ?_⟩
  · refine congrArg Host.Outcome.next (State.veRun_goes h rfl ((if_neg listed).trans (if_neg (by simpa using ready))) ?_)
    rw [State.ve_setMe_same, State.ve_setVe_same]
    exact ((VeState.setFlat_control _ _ _).trans (VeState.setX_control _ _ _)).1
  · exact congrArg Host.Outcome.next (State.veRun_waits h rfl ((if_neg listed).trans (if_pos waits)))

/-! ## Transfers -/

/-- A transfer's place and length as R195 asks. -/
def DmaGood (g l k : Nat) : Prop := k ≠ 0 ∧ k % 4 = 0 ∧ k ≤ 0x1000000 ∧ g % 4 = 0 ∧ l % 4 = 0 ∧ l + k ≤ 0x100000

theorem veDma_eq {s : State} {c : Nat} {sh : VeShare} (run : (s.ve c).run = some sh) (put : Bool) (w : Nat) :
    let g := (s.xa c w).toNat
    let l := (s.xb c w).toNat
    let k := (s.xc c w).toNat
    (DmaGood g l k → (s.ve c).dma.length < 16 →
      veDma c put w s = .next (s.setVe c { s.ve c with dma := (s.ve c).dma ++ [⟨put, g, l, k, sh.src, false⟩] })) ∧
    (DmaGood g l k → (s.ve c).dma.length ≥ 16 → veDma c put w s = .wait .dmaFull) ∧
    (¬DmaGood g l k → veDma c put w s = .fault vfAddr false s) := by
  intro g l k
  have judge : (decide (k = 0) || decide (k % 4 ≠ 0) || decide (k > 0x1000000) || decide (g % 4 ≠ 0) ||
      decide (l % 4 ≠ 0) || decide (l + k > 0x100000)) = true ↔ ¬DmaGood g l k := by
    simp only [DmaGood, Bool.or_eq_true, decide_eq_true_eq]
    omega
  dsimp only [veDma]
  rw [run]
  refine ⟨fun good free => ?_, fun good full => ?_, fun bad => ?_⟩
  · exact (if_neg fun bad => judge.1 bad good).trans (if_neg (by omega))
  · exact (if_neg fun bad => judge.1 bad good).trans (if_pos full)
  · exact if_pos (judge.2 bad)

/-- A due DMAGET or DMAPUT queues its transfer, waits for a place, or faults (R193, R195). -/
theorem State.veRun_dma {s : State} {c op n w : Nat} {sh : VeShare} (run : (s.ve c).run = some sh) (put : Bool)
    (unheld : s.fencedCore c = false) (h : s.veReady c op w) :
    let g := (s.xa c w).toNat
    let l := (s.xb c w).toNat
    let k := (s.xc c w).toNat
    (DmaGood g l k → (s.ve c).dma.length < 16 → s.veRun c op n (veDma c put) =
      ((s.setVe c { s.ve c with dma := (s.ve c).dma ++ [⟨put, g, l, k, sh.src, false⟩] }).veUnwait c n).veRetire c op
        ((s.ve c).pc + 1)) ∧
    (DmaGood g l k → (s.ve c).dma.length ≥ 16 → s.veRun c op n (veDma c put) = s.setVe c { s.ve c with wait := .dmaFull }) ∧
    (¬DmaGood g l k → s.veRun c op n (veDma c put) = (s.veUnwait c n).veFault c vfAddr (s.ve c).pc op false) := by
  have free : (veAccesses op && s.fencedCore c) = false := by rw [unheld, Bool.and_false]
  obtain ⟨queued, full, bad⟩ := veDma_eq run put w
  exact ⟨fun good place => State.veRun_goes h free (queued good place) (by rw [State.ve_setVe_same]),
    fun good none => State.veRun_waits h free (full good none), fun ill => State.veRun_faults h free (bad ill)⟩

/-- A transfer that ends leaves the others, and notes its error (R196, R205). -/
theorem dmaEnd_effect (c : Nat) (s : State) (x : DmaXfer) (code : Code) :
    ((s.dmaEnd c x code).ve c).dma = (s.ve c).dma.drop 1 ∧
    ((s.dmaEnd c x code).ve c).dmaErrs = (s.ve c).dmaErrs ++ (if code = .ok then [] else [decide (code = .ue)]) ∧
    (s.dmaEnd c x code).rd (coreBase c + 0x28) =
      (if code = .ok then s.rd (coreBase c + 0x28) else Nat.lor (s.rd (coreBase c + 0x28)) 16 % 2 ^ 64) ∧
    RegsExcept [coreBase c + 0x28] s (s.dmaEnd c x code) ∧ SameBytes s (s.dmaEnd c x code) := by
  have noted : ∀ key, RegsExcept [key] s (if code = .ok then s else s.orBits key mfDma) ∧
      (if code = .ok then s else s.orBits key mfDma).rd key =
        (if code = .ok then s.rd key else Nat.lor (s.rd key) 16 % 2 ^ 64) ∧
      (if code = .ok then s else s.orBits key mfDma).ve c = s.ve c ∧
      (if code = .ok then s else s.orBits key mfDma).mem = s.mem := fun key => by
    split
    · exact ⟨.refl _ s, rfl, rfl, rfl⟩
    · exact ⟨(RegsExcept.refl _ s).orBits (by simp) _, s.rd_orBits_lor key 16, State.ve_orBits .., State.orBits_mem ..⟩
  unfold State.dmaEnd
  obtain ⟨regs, sticky, ve, mem⟩ := noted (kMeFault c)
  change RegsExcept [coreBase c + 0x28] s _ at regs
  generalize (if code = .ok then s else s.orBits (kMeFault c) mfDma) = t at regs sticky ve mem ⊢
  dsimp only
  rw [State.ve_setVe_same, State.rd_setVe, ve]
  refine ⟨rfl, ?_, sticky, regs.of_csr (State.setVe_csr _ _ _), SameBytes.of_mem ((State.setVe_mem _ _ _).trans mem)⟩
  split <;> simp

/-- Settles O22. -/
theorem vePopsAndDma : Obligations.VePopsAndDma := by
  refine ⟨⟨fun c n w s e h dest head => exec_popt h dest head, fun c n w s h zero sixteen => ?_, VeState.smGet_setFlat,
    State.veUnwait_cases⟩, fun c n w s sh run => ⟨fun held h => ?_, fun held h => ?_, fun put unheld h => ?_, fun h => ?_⟩,
    fun c s x r on dma => ⟨fun put code k u copy => ?_, fun put taint code k u copy => ?_, fun put taint code k u copy => ?_⟩,
    dmaEnd_effect⟩
  · exact congrArg Host.Outcome.next (State.veRun_faults h rfl (if_pos (by simp [zero, sixteen])))
  · exact congrArg Host.Outcome.next (State.veRun_of_held h rfl held)
  · exact congrArg Host.Outcome.next (State.veRun_of_held h rfl held)
  · intro i op g l k good
    rcases h with ⟨rfl, h⟩ | ⟨rfl, h⟩
    · obtain ⟨queued, full, bad⟩ := State.veRun_dma (n := n) run false unheld h
      exact ⟨fun a b => congrArg Host.Outcome.next (queued a b), fun a b => congrArg Host.Outcome.next (full a b),
        fun a => congrArg Host.Outcome.next (bad a)⟩
    · obtain ⟨queued, full, bad⟩ := State.veRun_dma (n := n) run true unheld h
      exact ⟨fun a b => congrArg Host.Outcome.next (queued a b), fun a b => congrArg Host.Outcome.next (full a b),
        fun a => congrArg Host.Outcome.next (bad a)⟩
  · refine ⟨fun more => ?_, fun few none => ?_, fun ue r few err => ?_⟩
    · exact congrArg Host.Outcome.next (State.veRun_waits h rfl (if_pos more))
    · refine congrArg Host.Outcome.next (State.veRun_goes (t := s.setVe c { s.ve c with unseen := [] }) h rfl
        ((if_neg (by omega)).trans ?_) (by rw [State.ve_setVe_same]))
      rw [List.head?_eq_none_iff.2 none]
    · refine congrArg Host.Outcome.next (State.veRun_faults h rfl ((if_neg (by omega)).trans ?_))
      rw [err]
      rfl
  · simp only [exec, execDmaTransferComplete, dma, on, put, copy]
    rfl
  · simp only [exec, execDmaTransferComplete, dma, on, put, copy, taint]
    rfl
  · simp only [exec, execDmaTransferComplete, dma, on, put, copy, taint]
    rfl

end Sys2Proof.Machine
end

section
/-! PROOFS of the vector engine family: how a share of a core starts, ends and faults (R177 to R180, R205). -/

namespace Sys2Proof.Machine
open Sys2Proof

/-! ## A share starts -/

theorem exec_veShareStart {c : CoreId} {s : State} {sh : VeShare} (on : s.coreOn c = true) (unheld : s.fencedCore c = false)
    (run : (s.ve c).run = some sh) (fresh : (s.ve c).started = false) : exec (.veShareStart c) s = .next (s.veStart c sh) := by
  have promoted : s.vePromote c = s := by simp only [State.vePromote, run]
  simp only [exec, execVeShareStart, promoted, run, on, unheld, fresh]
  rfl

/-- The parameters of a share, put in X0 on. -/
def VeState.withParams (v : VeState) (n : Nat) (bs : List Byte) (i : Nat) : VeState :=
  (withIdx (words8 n bs) i).foldl (fun v e => v.setX e.1 e.2) v

theorem VeState.withParams_eq (v : VeState) (n : Nat) (bs : List Byte) (i : Nat) :
    v.withParams n bs i = { v with x := (v.withParams n bs i).x } := by
  induction n generalizing v bs i with
  | zero => rfl
  | succ n ih => exact ih (v.setX i _) (bs.drop 8) (i + 1)

theorem leAt_drop (bs : List Byte) (k off n : Nat) : leAt (bs.drop k) off n = leAt bs (k + off) n := by
  simp only [leAt, slice, List.drop_drop]

theorem VeState.xr_withParams (v : VeState) (n : Nat) (bs : List Byte) (i k : Nat) : (v.withParams n bs i).xr k =
    if i ≤ k ∧ k < i + n then BitVec.ofNat 64 (leAt bs (8 * (k - i)) 8) else v.xr k := by
  induction n generalizing v bs i with
  | zero => exact (if_neg (by omega)).symm
  | succ n ih =>
    have step : (v.withParams (n + 1) bs i).xr k =
        ((v.setX i (BitVec.ofNat 64 (leAt bs 0 8))).withParams n (bs.drop 8) (i + 1)).xr k := rfl
    rw [step, ih, VeState.xr_setX, leAt_drop]
    rcases Nat.lt_trichotomy k i with less | rfl | more
    · rw [if_neg (by omega), if_neg (by omega), if_neg (by omega)]
    · rw [if_neg (by omega), if_pos rfl, if_pos ⟨Nat.le_refl _, by omega⟩, Nat.sub_self, Nat.mul_zero]
    · rw [show 8 + 8 * (k - (i + 1)) = 8 * (k - i) by omega, if_neg (show i ≠ k by omega)]
      exact ite_of_iff (by omega) rfl rfl

/-- The state of a share that begins (R178): instruction 0, registers zeroed. -/
def VeState.begun (v : VeState) (n : Nat) (is : List Byte) : VeState :=
  { v with started := true, insns := words8 n is, pc := 0, retired := 0, v := [], x := [], m := [], dmaErrs := [],
           unseen := [], wait := .none, noted := false }

section
variable {c : Nat} {s u t : State} {sh : VeShare} {code code2 : Code} {h is : List Byte}

theorem State.veStart_of_misaligned (bad : sh.prog % 8 ≠ 0) :
    s.veStart c sh = (s.wr (coreBase c + 0x140) sh.prog).veBadProg c false := by
  unfold State.veStart
  exact if_pos bad

theorem State.veStart_of_unread (even : sh.prog % 8 = 0)
    (read : (s.wr (coreBase c + 0x140) sh.prog).gRead sh.prog 32 = (code, h, u)) (bad : code ≠ .ok) :
    s.veStart c sh = u.veBadProg c (code = .ue) := by
  unfold State.veStart
  dsimp only
  rw [if_neg (Classical.not_not.2 even), read]
  cases code with
  | ok => contradiction
  | _ => rfl

theorem State.veStart_of_bad_header (even : sh.prog % 8 = 0)
    (read : (s.wr (coreBase c + 0x140) sh.prog).gRead sh.prog 32 = (.ok, h, u)) (bad : veHeaderOk h = false) :
    s.veStart c sh = u.veBadProg c false := by
  unfold State.veStart
  dsimp only
  rw [if_neg (Classical.not_not.2 even), read]
  simp only [bad]
  rfl

/-- Steps 2 to 4 of R178 once the header is good. -/
theorem State.veStart_of_header (even : sh.prog % 8 = 0)
    (read : (s.wr (coreBase c + 0x140) sh.prog).gRead sh.prog 32 = (.ok, h, u)) (good : veHeaderOk h = true)
    (read2 : u.gRead (sh.prog + 32) (8 * leAt h 6 2) = (code2, is, t)) :
    (code2 ≠ .ok → s.veStart c sh = t.veBadProg c (code2 = .ue)) ∧
    (code2 = .ok → crc32 is ≠ leAt h 12 4 ∨ leAt h 8 1 ≠ 0 ∧ sh.param % 8 ≠ 0 → s.veStart c sh = t.veBadProg c false) ∧
    (code2 = .ok → crc32 is = leAt h 12 4 → leAt h 8 1 = 0 →
      s.veStart c sh = t.setVe c ((t.ve c).begun (leAt h 6 2) is)) ∧
    (code2 = .ok → crc32 is = leAt h 12 4 → leAt h 8 1 ≠ 0 → sh.param % 8 = 0 → ∀ ps q,
      t.gRead sh.param (8 * leAt h 8 1) = (.ok, ps, q) →
      s.veStart c sh = q.setVe c (((q.ve c).begun (leAt h 6 2) is).withParams (leAt h 8 1) ps 0)) := by
  unfold State.veStart
  dsimp only
  rw [if_neg (Classical.not_not.2 even), read]
  simp only [good, read2]
  refine ⟨fun bad => ?_, fun ok bad => ?_, fun ok crc none => ?_, fun ok crc some aligned ps q read3 => ?_⟩
  · cases code2 with
    | ok => contradiction
    | _ => rfl
  · subst ok
    exact (if_neg (by simp)).trans (if_pos (by simpa using bad))
  · subst ok
    have empty : words8 (leAt h 8 1) [] = [] := by rw [none, words8]
    refine (if_neg (by simp)).trans ((if_neg (by simp [crc, none])).trans ?_)
    rw [if_pos none]
    dsimp only
    rw [empty]
    rfl
  · subst ok
    refine (if_neg (by simp)).trans ((if_neg (by simp [crc, aligned])).trans ?_)
    rw [if_neg some, read3]
    rfl

end

/-- What a running state's parameters hold (R178). -/
theorem VeState.begun_withParams (v : VeState) (n np : Nat) (is ps : List Byte) :
    let r := (v.begun n is).withParams np ps 0
    r.started = true ∧ r.pc = 0 ∧ r.retired = 0 ∧ r.insns = words8 n is ∧ r.v = [] ∧ r.m = [] ∧
      ∀ k, r.xr k = if k < np then BitVec.ofNat 64 (leAt ps (8 * k) 8) else 0 := by
  intro r
  refine ⟨?_, ?_, ?_, ?_, ?_, ?_, fun k => ?_⟩
  case refine_7 => exact (VeState.xr_withParams _ _ _ _ _).trans (ite_of_iff (by omega) rfl rfl)
  all_goals
    rw [show r = { v.begun n is with x := r.x } from VeState.withParams_eq _ _ _ _]
    rfl

/-! ## A share ends -/

theorem orErr_eq (a b : Option Bool) : orErr a b = a.or b := by cases a <;> rfl

/-- The state of the VE once its share has ended. -/
def VeState.done (v : VeState) : VeState :=
  { v with run := none, started := false, ended := false, err := none, dmaErrs := [], unseen := [], noted := false }

/-- What an ended share without outstanding transfers does (R102, R180). -/
theorem exec_veShareComplete {c : CoreId} {s : State} {sh : VeShare} (run : (s.ve c).run = some sh) (on : s.coreOn c = true)
    (ended : (s.ve c).ended = true) (dma : (s.ve c).dma = []) :
    ((s.ve c).err.or (s.ve c).dmaErrs.head? = none →
      exec (.veShareComplete c) s = .next (((s.setVe c (s.ve c).done).shareDone sh.src none).vePromote c)) ∧
    (∀ ue u, (s.ve c).err.or (s.ve c).dmaErrs.head? = some ue →
      u = (if (s.ve c).noted = true then s else s.raise 0x0503 2 c c) →
      ((∀ e ∈ (s.ve c).dmaErrs, e = ue) →
        exec (.veShareComplete c) s = .next (((u.setVe c (s.ve c).done).shareDone sh.src (some ue)).vePromote c)) ∧
      ((∃ e ∈ (s.ve c).dmaErrs, e ≠ ue) → exec (.veShareComplete c) s =
        .next ((((u.setVe c (s.ve c).done).shareDone sh.src (some ue)).strayError sh.src (!ue)).vePromote c))) := by
  have ready : (!s.coreOn c || !(s.ve c).ended || decide ((s.ve c).dma ≠ [])) = false := by simp [on, ended, dma]
  simp only [exec, execVeShareComplete, run, ready, Bool.false_eq_true, if_false, orErr_eq]
  refine ⟨fun err => ?_, fun ue u err hu => ⟨fun one => ?_, fun both => ?_⟩⟩
  · simp only [err, Option.isSome_none, Bool.false_and, Bool.false_eq_true, if_false]
    rfl
  all_goals
    have note : (if ((some ue).isSome && !(s.ve c).noted) = true then s.coreFault c else s) = u := by
      rw [hu]
      cases (s.ve c).noted <;> rfl
    simp only [err, note]
  · rw [if_neg (by simpa using one)]
    rfl
  · rw [if_pos (by simpa using both)]
    cases ue <;> rfl

/-! ## Limits, opcodes and faults -/

theorem State.veFault_bits (s : State) (c bits pc op : Nat) (ue : Bool) :
    (s.veFault c bits pc op ue).rd (kVeFault c) = Nat.lor (s.rd (kVeFault c)) bits % 2 ^ 64 := by
  have noted := s.rd_orBits_lor (kVeFault c) bits
  have apart := kVeFault_ne_kVeFaultPc c
  unfold State.veFault
  generalize kVeFault c = k at noted apart ⊢
  generalize kVeFaultPc c = k' at apart ⊢
  dsimp only
  split
  · rw [State.rd_setVe, noted]
  · rw [State.rd_setVe, State.rd_wr_ne apart, noted]

theorem State.veFault_pc (s : State) (c bits pc op : Nat) (ue : Bool) : (s.veFault c bits pc op ue).rd (kVeFaultPc c) =
    if bit (s.rd (kVeFaultPc c)) 31 then s.rd (kVeFaultPc c) else (2 ^ 31 + op * 2 ^ 16 + pc) % 2 ^ 64 := by
  have first := State.rd_orBits_ne (kVeFault_ne_kVeFaultPc c).symm s bits
  unfold State.veFault
  generalize kVeFault c = k at first ⊢
  generalize kVeFaultPc c = k' at first ⊢
  dsimp only
  rw [State.rd_setVe, first]
  split
  · exact first
  · rw [State.rd_wr_same]

/-- What the end of a queue wait beyond the watchdog does (R103). -/
theorem exec_meWatchdogExpiry {c : CoreId} {s : State} {n : Nat} (on : s.coreOn c = true)
    (set : s.rdf (coreBase c + 0x18) 0 24 ≠ 0) (late : s.rdf (coreBase c + 0x18) 0 24 * 1024 < n) :
    ((s.ve c).wait = .popt → (s.veInsn c).isSome = true → ((s.me c).entry (s.me c).head).state ≠ 3 →
      exec (.meWatchdogExpiry c true n) s = .next
        ((((s.bump (coreBase c + 0x40) n).orBits (coreBase c + 0x28) 8).raise 0x0503 2 c c).setVe c
          { s.ve c with ended := true, err := some false, wait := .none, noted := true })) ∧
    ((s.ve c).wait = .popt → ((s.me c).entry (s.me c).head).state = 3 → exec (.meWatchdogExpiry c true n) s = .next s) ∧
    ((s.me c).wait = .full → ((s.me c).entry (s.me c).tail).state ≠ 0 →
      exec (.meWatchdogExpiry c false n) s = .next
        ((((s.setMe c { s.me c with wait := .none }).bump (coreBase c + 0x38) n).raise 0x0503 2 c c).meFail c 4 false none)) ∧
    ((s.me c).wait ≠ .full → exec (.meWatchdogExpiry c false n) s = .next s) := by
  have due : (!s.coreOn c || decide (s.rdf (coreBase c + 0x18) 0 24 = 0) ||
      decide (n ≤ s.rdf (coreBase c + 0x18) 0 24 * 1024)) = false := by simp [on, set, late]
  refine ⟨fun wait runs empty => ?_, fun wait full => ?_, fun wait full => ?_, fun wait => ?_⟩ <;>
    simp only [exec, execMeWatchdogExpiry, due, Bool.false_eq_true, if_false, if_true]
  · rw [if_neg (by simp [wait, empty, Option.isSome_iff_ne_none.1 runs])]
    rfl
  · rw [if_pos (by simp [full])]
  · rw [if_neg (by simp [wait, full]), State.meUnwait, if_neg (by simp [wait])]
    rfl
  · rw [if_pos (by simp [wait])]

/-- Settles O23. -/
theorem coreShares : Obligations.CoreShares := by
  refine ⟨fun c s sh on unheld run fresh => ⟨fun odd => ?_, fun even code h u read => ⟨fun bad => ?_, fun ok bad => ?_,
      fun ok good code2 is t read2 => ?_⟩⟩,
    fun c s sh v w err hv run on ended dma herr hw => ?_,
    ⟨fun c s w insn limit => ?_, fun c s w insn limit form => ?_, fun c bits pc op ue s => ?_⟩,
    fun c s n l on hl set late => ?_⟩
  · rw [exec_veShareStart on unheld run fresh, State.veStart_of_misaligned odd]
  · rw [exec_veShareStart on unheld run fresh, State.veStart_of_unread even read bad]
  · subst ok
    rw [exec_veShareStart on unheld run fresh, State.veStart_of_bad_header even read bad]
  · subst ok
    obtain ⟨unread, bad, bare, params⟩ := State.veStart_of_header even read good read2
    rw [exec_veShareStart on unheld run fresh]
    refine ⟨fun b => by rw [unread b], fun ok crc => by rw [bad ok (.inl crc)], fun ok crc none => by rw [bare ok crc none]; rfl,
      fun ok _ some odd => by rw [bad ok (.inr ⟨some, odd⟩)], fun ok crc some aligned ps q read3 => ?_⟩
    obtain ⟨started, pc, retired, insns, regs, masks, xs⟩ := (q.ve c).begun_withParams (leAt h 6 2) (leAt h 8 1) is ps
    exact ⟨_, _, congrArg Host.Outcome.next (params ok crc some aligned ps q read3), rfl, started, pc, retired, insns, regs,
      masks, xs⟩
  · subst hv hw herr
    exact exec_veShareComplete run on ended dma
  · simp only [exec, execVeInsnLimitExpiry, insn, limit, if_true]
  · simp only [exec, execIllegalOpcode, insn, limit, form]
    rfl
  · intro t
    obtain ⟨me, mem, -⟩ := s.veFault_frame c bits pc op ue
    have ve := s.veFault_ve c bits pc op ue
    exact ⟨congrArg VeState.ended ve, congrArg VeState.err ve, s.veFault_bits c bits pc op ue, s.veFault_pc c bits pc op ue,
      s.veFault_regs c bits pc op ue, SameBytes.of_mem mem, fun d ne => State.veFault_core_ne ne s bits pc op ue, me⟩
  · subst hl
    exact exec_meWatchdogExpiry on set late

end Sys2Proof.Machine
end

section
/-! PROOFS of the matrix engine family: tile descriptors, chains and finished-tile entries (R87 to R101, R165, R599). -/

namespace Sys2Proof.Machine
open Sys2Proof

/-! ## Tile descriptors -/

section
variable {c : CoreId} {n : Nat} {s u : State} {sh : MeShare} {td : List Byte}

/-- The next entry of a running share, read. -/
theorem State.meFetch_entry (run : (s.me c).run = some sh) (fine : sh.err = none) (more : sh.pos < sh.len)
    (read : s.gRead (sh.list + 64 * sh.pos) 64 = (.ok, td, u)) : s.meFetch c = (.entry sh td, u) := by
  have left : (sh.err.isSome || decide (sh.pos ≥ sh.len)) = false := by simp [fine, more]
  simp only [State.meFetch, run, left, Bool.false_eq_true, if_false, read]

theorem exec_tileNop (on : s.coreOn c = true) (unheld : s.fencedTile (c.val / 300) = false)
    (fetch : s.meFetch c = (.entry sh td, u)) (nop : tdOp td = 0) :
    (tdReserved td = true → exec (.tileNop c) s =
      .next (((u.bumpTd c 1).setMe c { u.me c with run := some { sh with pos := sh.pos + 1 } }).meListEnd c)) ∧
    (tdReserved td = false → exec (.tileNop c) s = .next (u.meRefuse c 1 false)) := by
  have goes : (!s.coreOn c || s.fencedTile (c.val / 300)) = false := by simp [on, unheld]
  simp only [exec, execTileNop, goes, fetch, nop, Bool.false_eq_true, if_false, ne_eq, not_true_eq_false]
  exact ⟨fun good => by rw [good]; rfl, fun bad => by rw [bad]; rfl⟩

theorem exec_mma (on : s.coreOn c = true) (unheld : s.fencedTile (c.val / 300) = false)
    (fetch : s.meFetch c = (.entry sh td, u)) (mma : tdOp td ≠ 0) : exec (.mma c n) s = .next (u.meMma c n sh td) := by
  have goes : (!s.coreOn c || s.fencedTile (c.val / 300)) = false := by simp [on, unheld]
  simp only [exec, execMma, goes, fetch, Bool.false_eq_true, if_false, mma]

theorem State.tdOp_of_tdOk {fw : Nat} (h : u.tdOk td fw = true) : tdOp td ≠ 0 := by
  intro zero
  simp [State.tdOk, zero] at h

/-- An MMA entry outside a chain: refused, made to wait, or the first of a chain (R90, R165). -/
theorem State.meMma_first (out : sh.inChain = false) {fw : Nat}
    (hfw : fw = tdFw (u.rd (coreBase c + 0x10)) (u.rd (coreBase c + 0x14)) td) :
    (u.tdOk td fw = false → u.meMma c n sh td = u.meRefuse c 1 false) ∧
    (u.tdOk td fw = true → tdFlag td 0 = true → u.meMma c n sh td = u.meRefuse c 2 false) ∧
    (u.tdOk td fw = true → tdFlag td 0 = false →
      ((tdOutMode td = true ∨ ((u.me c).entry (u.me c).tail).state = 0) → (u.me c).setHeld (u.me c).nextSet = false →
        (u.me c).chains.any (·.stage = .replay) = false →
        u.meMma c n sh td = ((u.meUnwait c n).meBegin c sh td fw).meListEnd c) ∧
      (tdOutMode td = false → ((u.me c).entry (u.me c).tail).state ≠ 0 →
        u.meMma c n sh td = u.setMe c { u.me c with wait := .full }) ∧
      ((tdOutMode td = true ∨ ((u.me c).entry (u.me c).tail).state = 0) → (u.me c).setHeld (u.me c).nextSet = true →
        u.meMma c n sh td = u.setMe c { u.me c with wait := .held })) := by
  subst hfw
  have place : (tdOutMode td = true ∨ ((u.me c).entry (u.me c).tail).state = 0) →
      ¬(!tdOutMode td && decide (((u.me c).entry (u.me c).tail).state ≠ 0)) = true := by
    rintro (h | h) <;> simp [h]
  unfold State.meMma
  rw [out]
  dsimp only
  refine ⟨fun bad => ?_, fun good goesOn => ?_, fun good first => ⟨fun free unheld idle => ?_, fun entry full => ?_,
    fun free held => ?_⟩⟩
  · rw [if_neg (by simp), bad]
    rfl
  · rw [if_neg (by simp), good, goesOn]
    rfl
  all_goals rw [if_neg (by simp), good, first]
  · rw [if_neg (by simp), if_neg (by simp), if_neg (place free), unheld, if_neg (by simp), idle]
    rfl
  · rw [if_neg (by simp), if_neg (by simp), entry, if_pos (by simpa using full)]
    rfl
  · rw [if_neg (by simp), if_neg (by simp), if_neg (place free), held]
    rfl

/-- An MMA entry that goes on with the open chain (R90). -/
theorem State.meMma_next {ch : MeChain} {fw : Nat} (inside : sh.inChain = true) (opened : (u.me c).open? = some ch)
    (hfw : fw = tdFw ch.fwd ch.bwd td) (good : u.tdOk td fw = true) (goesOn : tdFlag td 0 = true) (fmt : fw = ch.fmt)
    (mode : tdOutMode td = ch.outMode) (tickets : (ticketsWith ch td).length ≤ 4) :
    u.meMma c n sh td = (u.meContinue c sh td ch).meListEnd c := by
  subst hfw
  unfold State.meMma
  rw [inside, if_pos rfl, opened]
  dsimp only
  rw [good, if_neg (by simp), if_neg (by simp [goesOn, fmt, mode, tickets])]

end

/-! ## A chain begins -/

theorem MeState.entry_setEntry (m : MeState) (i j : Nat) (e : QEntry) :
    (m.setEntry j e).entry i = if j = i then e else m.entry i := smGet_smSet _ _ _ _ _

theorem MeChain.take_fields (q : QzState) (ch : MeChain) (td : List Byte) :
    let x := ch.take q td
    x.id = ch.id ∧ x.set = ch.set ∧ x.tds = ch.tds ++ [td] ∧ x.fmt = ch.fmt ∧ x.fwd = ch.fwd ∧ x.bwd = ch.bwd ∧
      x.stage = (if tdFlag td 1 then .reducing else ch.stage) ∧ x.entry = ch.entry ∧ x.pos = ch.pos ∧ x.grp = ch.grp ∧
      x.acc = ch.acc := by
  unfold MeChain.take
  dsimp only
  cases tdFlag td 1 <;> cases tdFlag td 6 <;> exact ⟨rfl, rfl, rfl, rfl, rfl, rfl, rfl, rfl, rfl, rfl, rfl⟩

theorem State.setMe_csr (s : State) (c : Nat) (x : MeState) : (s.setMe c x).csr = s.csr := (rfl)

theorem State.setMe_mem (s : State) (c : Nat) (x : MeState) : (s.setMe c x).mem = s.mem := (rfl)

/-- The chain that an MMA entry begins (R90, R92, R165). -/
def State.newChain (s : State) (c : Nat) (sh : MeShare) (td : List Byte) (fw : Nat) : MeChain :=
  { id := (s.me c).nextId, src := sh.src, countFlags := sh.countFlags, tds := [], fmt := fw,
    fwd := s.rd (coreBase c + 0x10), bwd := s.rd (coreBase c + 0x14), outMode := tdOutMode td, weightGrad := tdSrc td = 3,
    tickets := [], unconfirmed := [], set := (s.me c).nextSet, entry := if tdOutMode td then none else some (s.me c).tail,
    stage := .fetching, rerun := false, again := false, late := [], replaced := false, traced := false, pos := 0,
    grp := 0, acc := [], rflags := 0, out := [], ovf := 0, inv := 0, loud := false }

/-- The queue once a chain has reserved its entry, outside OUT_MODE (R96). -/
def MeState.reserve (m : MeState) (sh : MeShare) (td : List Byte) : MeState :=
  if tdOutMode td then m else
    { m.setEntry m.tail { QEntry.free with state := 1, src := some sh.src, chain := m.nextId } with tail := (m.tail + 1) % 8 }

theorem State.meBegin_eq (s : State) (c : Nat) (sh : MeShare) (td : List Byte) (fw : Nat) :
    s.meBegin c sh td fw = s.setMe c { (s.me c).reserve sh td with
      chains := ((s.me c).reserve sh td).chains ++ [(s.newChain c sh td fw).take (s.qzt (c / 300)) td],
      nextId := ((s.me c).reserve sh td).nextId + 1, nextSet := !((s.me c).reserve sh td).nextSet,
      run := some { sh with pos := sh.pos + 1, inChain := !tdFlag td 1 } } := rfl

theorem MeState.reserve_fields (m : MeState) (sh : MeShare) (td : List Byte) :
    (m.reserve sh td).chains = m.chains ∧ (m.reserve sh td).nextId = m.nextId ∧ (m.reserve sh td).nextSet = m.nextSet ∧
    (m.reserve sh td).head = m.head ∧
    (tdOutMode td = true → (m.reserve sh td).tail = m.tail ∧ ∀ i, (m.reserve sh td).entry i = m.entry i) ∧
    (tdOutMode td = false → (m.reserve sh td).tail = (m.tail + 1) % 8 ∧ ∀ i, (m.reserve sh td).entry i =
      if i = m.tail then { QEntry.free with state := 1, src := some sh.src, chain := m.nextId } else m.entry i) := by
  unfold MeState.reserve
  cases tdOutMode td
  · have entry := fun i => (m.entry_setEntry i m.tail
      { QEntry.free with state := 1, src := some sh.src, chain := m.nextId }).trans (ite_of_iff eq_comm rfl rfl)
    exact ⟨rfl, rfl, rfl, rfl, nofun, fun _ => ⟨rfl, entry⟩⟩
  · exact ⟨rfl, rfl, rfl, rfl, fun _ => ⟨rfl, fun _ => rfl⟩, nofun⟩

theorem State.meBegin_effect (c fw : Nat) (s : State) (sh : MeShare) (td : List Byte) :
    let t := s.meBegin c sh td fw
    (t.me c).run = some { sh with pos := sh.pos + 1, inChain := !tdFlag td 1 } ∧
    (t.me c).nextSet = !(s.me c).nextSet ∧ (t.me c).nextId = (s.me c).nextId + 1 ∧ (t.me c).head = (s.me c).head ∧
    (∃ ch, (t.me c).chains = (s.me c).chains ++ [ch] ∧ ch.id = (s.me c).nextId ∧ ch.set = (s.me c).nextSet ∧
      ch.tds = [td] ∧ ch.fmt = fw ∧ ch.fwd = s.rd (coreBase c + 0x10) ∧ ch.bwd = s.rd (coreBase c + 0x14) ∧
      ch.stage = (if tdFlag td 1 then .reducing else .fetching) ∧
      ch.entry = (if tdOutMode td then none else some (s.me c).tail) ∧ ch.pos = 0 ∧ ch.grp = 0 ∧ ch.acc = []) ∧
    (tdOutMode td = true → (t.me c).tail = (s.me c).tail ∧ ∀ i, (t.me c).entry i = (s.me c).entry i) ∧
    (tdOutMode td = false → (t.me c).tail = ((s.me c).tail + 1) % 8 ∧
      ∀ i, (t.me c).entry i = if i = (s.me c).tail then
        { QEntry.free with state := 1, src := some sh.src, chain := (s.me c).nextId } else (s.me c).entry i) ∧
    t.ve c = s.ve c ∧ (∀ d, d ≠ c → t.core d = s.core d) ∧ RegsExcept [] s t ∧ SameBytes s t := by
  intro t
  obtain ⟨chains, nextId, nextSet, head, whole, queued⟩ := (s.me c).reserve_fields sh td
  obtain ⟨id, set, tds, fmt, fwd, bwd, stage, entry, pos, grp, acc⟩ :=
    (s.newChain c sh td fw).take_fields (s.qzt (c / 300)) td
  have ht : t = _ := s.meBegin_eq c sh td fw
  rw [ht, State.me_setMe_same, State.ve_setMe_same]
  exact ⟨rfl, congrArg (!·) nextSet, congrArg (· + 1) nextId, head,
    ⟨_, congrArg (· ++ _) chains, id, set, tds, fmt, fwd, bwd, stage, entry, pos, grp, acc⟩, whole, queued, rfl,
    fun d ne => State.core_setMe_ne ne _ _, (RegsExcept.refl [] s).of_csr (State.setMe_csr _ _ _),
    SameBytes.of_mem (State.setMe_mem _ _ _)⟩

/-! ## Reduction and conversion -/

theorem State.redStep_eq {c n : Nat} {s u v : State} {ch : MeChain} {td : List Byte} {rest : List (List Byte)} {r : Red}
    (next : ch.tds.drop ch.pos = td :: rest) (hn : n = tdGroups ch.fmt td)
    (group : s.redGroup c ch.fmt td (s.chainPath ch) (fwGroup ch.fmt / 32) n ch.grp
      ⟨if ch.acc = [] then List.replicate 1024 elemZero else ch.acc, 0, 0⟩ = (.ok r, u)) (hv : v = u.redFlags c ch r) :
    (ch.grp + 1 < n → s.redStep c ch =
      (.ok { ch with acc := r.acc, rflags := ch.rflags ||| r.flags, grp := ch.grp + 1 }, v)) ∧
    (n ≤ ch.grp + 1 → s.redStep c ch =
      (.ok { ch with acc := r.acc, rflags := ch.rflags ||| r.flags, pos := ch.pos + 1, grp := 0 }, v.bumpTd c 1)) := by
  subst hn hv
  unfold State.redStep
  rw [next]
  dsimp only
  rw [group]
  exact ⟨fun more => if_pos more, fun last => if_neg (by omega)⟩

theorem exec_chainReductionEnd {c : CoreId} {stall : Nat} {s u : State} {ch : MeChain} (on : s.coreOn c = true)
    (unheld : s.fencedTile (c.val / 300) = false) (next : (s.me c).reducing? = some ch) (whole : ch.stage = .reducing) :
    (∀ ch', (s.bump (coreBase c + 0x48) stall).redRun c ch.left ch = (.ok ch', u) →
      exec (.chainReductionEnd c stall) s = .next ((u.setMe c ((u.me c).reduced ch ch')).meAdvance c)) ∧
    (∀ ue, (s.bump (coreBase c + 0x48) stall).redRun c ch.left ch = (.error ue, u) →
      exec (.chainReductionEnd c stall) s = .next (u.chainFail c ue ch)) := by
  have goes : (!s.coreOn c || s.fencedTile (c.val / 300)) = false := by simp [on, unheld]
  have stage : ch.stage ≠ .fetching := by simp [whole]
  simp only [exec, execChainReductionEnd, goes, next, stage, Bool.false_eq_true, if_false]
  exact ⟨fun ch' run => by rw [run], fun ue run => by rw [run]⟩

theorem exec_chainConversionEnd {c : CoreId} {stall : Nat} {s u w : State} {ch : MeChain} {rs cs : List Machine.Num}
    (on : s.coreOn c = true) (unheld : s.fencedCore c = false)
    (next : (s.me c).chains.find? (·.stage = .converting) = some ch)
    (rows : s.lineScales c (tdFlag (ch.tds.getLastD []) 4) (tdW (ch.tds.getLastD []) 40) = (.ok rs, u))
    (columns : u.lineScales c (tdFlag (ch.tds.getLastD []) 5) (tdW (ch.tds.getLastD []) 44) = (.ok cs, w)) {v : Conv}
    (hv : v = convTile (w.chainPath ch) (bit ch.fmt 20) (w.fmt (fld ch.fmt 16 4)) rs cs ch.acc) :
    exec (.chainConversionEnd c stall) s = .next
      (((((((w.meFlags c ch v.flags).bump (coreBase c + 0x88) v.ovf).bump (coreBase c + 0x90) v.unf).bump
        (coreBase c + 0x98) v.nan).bump (coreBase c + 0xA8) (if ch.outMode = true then stall else 0)).chainDone c
          { ch with out := v.codes, loud := v.loud, ovf := v.ovf + ch.acc.countP (·.sat),
                    inv := v.nan + b2n (ch.rflags &&& mTern ≠ 0) }).meAdvance c) := by
  subst hv
  have goes : (!s.coreOn c || s.fencedCore c) = false := by simp [on, unheld]
  simp only [exec, execChainConversionEnd, goes, next, State.chainConvert, rows, columns, Bool.false_eq_true, if_false]

/-! ## A chain becomes final -/

theorem State.chainFinal_eq {c e : Nat} {s : State} {ch : MeChain} (entry : ch.entry = some e) (queued : ch.outMode = false)
    (uncounted : ch.countFlags = false) : s.chainFinal c ch =
      s.setMe c ({ s.me c with chains := (s.me c).chains.filter fun x => !decide (x.id = ch.id) || x.replaced }.setEntry e
        { (s.me c).entry e with state := 3, codes := ch.out, tag := tdTag (ch.tds.getLastD []), fmt := fld ch.fmt 16 5 }) := by
  unfold State.chainFinal
  rw [entry, queued, uncounted]
  rfl

theorem State.chainFinal_effect {c e : Nat} {s : State} {ch : MeChain} (entry : ch.entry = some e)
    (queued : ch.outMode = false) (uncounted : ch.countFlags = false) :
    let t := s.chainFinal c ch
    (t.me c).entry e =
      { (s.me c).entry e with state := 3, codes := ch.out, tag := tdTag (ch.tds.getLastD []), fmt := fld ch.fmt 16 5 } ∧
    (∀ i, i ≠ e → (t.me c).entry i = (s.me c).entry i) ∧ (t.me c).head = (s.me c).head ∧
    (∀ x ∈ (t.me c).chains, x ∈ (s.me c).chains ∧ (x.id ≠ ch.id ∨ x.replaced = true)) ∧
    t.ve c = s.ve c ∧ RegsExcept [] s t ∧ SameBytes s t := by
  intro t
  have ht : t = _ := State.chainFinal_eq entry queued uncounted
  rw [ht, State.me_setMe_same, State.ve_setMe_same]
  refine ⟨?_, fun i ne => ?_, rfl, fun x hx => ?_, rfl, (RegsExcept.refl [] s).of_csr (State.setMe_csr _ _ _),
    SameBytes.of_mem (State.setMe_mem _ _ _)⟩
  · rw [MeState.entry_setEntry, if_pos rfl]
  · rw [MeState.entry_setEntry, if_neg ne.symm]
    rfl
  · obtain ⟨mem, stays⟩ := List.mem_filter.1 hx
    exact ⟨mem, by simpa using stays⟩

/-! ## Notices of the Quantizer -/

theorem State.mayNotice_of_unheld {s : State} {t : Nat} (on : s.fabOn t = true)
    (unheld : ∀ c ∈ s.coresOf t, s.fencedCore c = false) : s.mayNotice t = true := by
  have none : (s.coresOf t).any (fun c => s.fencedCore c) = false := by
    rw [List.any_eq_false]
    exact fun c hc => by simp [unheld c hc]
  rw [State.mayNotice, on, none]
  rfl

theorem exec_confirm {t : TileId} {k : BitVec 16} {s : State} (may : s.mayNotice t = true)
    (due : (s.qzt t).notices.contains (k.toNat, false) = true) : exec (.confirm t k) s = .next (s.notice t k.toNat false) := by
  simp only [exec, execConfirm, may, due, Bool.and_self, if_true]

theorem exec_replay {t : TileId} {k : BitVec 16} {s : State} (may : s.mayNotice t = true)
    (due : (s.qzt t).notices.contains (k.toNat, true) = true) : exec (.replay t k) s = .next (s.notice t k.toNat true) := by
  simp only [exec, execReplay, may, due, Bool.and_self, if_true]

theorem State.qzt_setQzt_same (s : State) (t : Nat) (x : QzState) : (s.setQzt t x).qzt t = x := by
  rw [State.qzt, State.setQzt, smGet_smSet, if_pos rfl]

/-- A notice with no chain to tell changes its ticket alone (R97). -/
theorem State.notice_of_no_cores {s : State} (none : s.cores = []) (t k : Nat) (replay : Bool) :
    s.notice t k replay = s.setQzt t { s.qzt t with
      tickets := smSet 0 (s.qzt t).tickets k (if replay then 3 else 2), notices := (s.qzt t).notices.erase (k, replay) } := by
  simp only [State.notice, State.coresOf, State.setQzt_cores, none]
  rfl

/-- Settles O24. -/
theorem matrixChains : Obligations.MatrixChains := by
  refine ⟨fun c n s u sh td on unheld run fine more read => ?_, fun c fw s sh td => State.meBegin_effect c fw s sh td,
    ⟨fun c n s u v ch td rest r next hn group hv => State.redStep_eq next hn group hv,
      fun c stall s u ch on unheld next whole => exec_chainReductionEnd on unheld next whole,
      fun c stall s u w ch rs cs on unheld next rows columns v hv => exec_chainConversionEnd on unheld next rows columns hv⟩,
    fun c e s ch entry queued uncounted => State.chainFinal_effect entry queued uncounted,
    fun t k s on unheld => ⟨exec_confirm (State.mayNotice_of_unheld on unheld), exec_replay (State.mayNotice_of_unheld on unheld),
      fun replay none u hu => ?_⟩⟩
  · have fetch := State.meFetch_entry run fine more read
    have goes : ∀ fw, u.tdOk td fw = true → exec (.mma c n) s = .next (u.meMma c n sh td) := fun fw good =>
      exec_mma on unheld fetch (State.tdOp_of_tdOk good)
    refine ⟨fun nop => (exec_tileNop on unheld fetch nop).1, fun nop => (exec_tileNop on unheld fetch nop).2,
      fun out fw hfw good first => ?_, fun inside ch fw opened hfw good goesOn fmt mode tickets => ?_, fun out mma bad => ?_,
      fun fw hfw out good goesOn => ?_⟩
    · rw [goes fw good]
      obtain ⟨-, -, cases⟩ := State.meMma_first (c := c) (n := n) out hfw
      obtain ⟨begins, full, held⟩ := cases good first
      exact ⟨fun a b d => by rw [begins a b d], fun a b => by rw [full a b], fun a b => by rw [held a b]⟩
    · rw [goes fw good, State.meMma_next inside opened hfw good goesOn fmt mode tickets]
    · rw [exec_mma on unheld fetch mma, (State.meMma_first out rfl).1 bad]
    · rw [goes fw good, (State.meMma_first out hfw).2.1 good goesOn]
  · rw [State.notice_of_no_cores none] at hu
    rw [hu, State.qzt_setQzt_same]
    refine ⟨?_, fun j ne => ?_, rfl, (RegsExcept.refl [] s).of_csr (State.setQzt_csr _ _ _),
      SameBytes.of_mem (State.setQzt_mem _ _ _)⟩
    · rw [smGet_smSet, if_pos rfl]
    · rw [smGet_smSet, if_neg ne.symm]

end Sys2Proof.Machine
end

section
/-! PROOFS of the power family: power-on reset, the sideband pins and self-trips (R4 to R9, R16 to R20, R40, R574). -/

namespace Sys2Proof.Machine
open Sys2Proof

/-! ## Power-on reset -/

/-- Power-on writes memory, the counter of free values and registers on the state where it begins. -/
theorem State.powerOn_shape (s : State) :
    ∃ m f c, s.powerOn = { s.tornCopy.powerOnBase with mem := m, free := f, csr := c } := by
  have shape : ∃ m f c, s.powerOn = { s.tornCopy.powerOnBase with mem := m, free := f, csr := c } ∧ s.powerOn.ue = [] := by
    refine State.powerOn_keeps_of
      (P := fun t => ∃ m f c, t = { s.tornCopy.powerOnBase with mem := m, free := f, csr := c } ∧ t.ue = []) ?_ ?_ ?_ ?_ ?_
    · rintro t k v ⟨m, f, c, rfl, ue⟩
      exact ⟨m, f, _, rfl, ue⟩
    · rintro t p ⟨m, f, c, rfl, ue⟩
      exact ⟨m, f, _, rfl, ue⟩
    · rintro t a bs ⟨m, f, c, rfl, ue⟩
      exact ⟨_, f, c, rfl, rfl⟩
    · rintro t n ⟨m, f, c, rfl, ue⟩
      exact ⟨m, _, c, rfl, ue⟩
    · exact ⟨_, _, _, rfl, rfl⟩
  obtain ⟨m, f, c, eq, -⟩ := shape
  exact ⟨m, f, c, eq⟩

theorem freeBytes_length (n k : Nat) : (freeBytes n k).length = n := by
  induction n generalizing k with
  | zero => rfl
  | succ n ih => rw [freeBytes, List.length_cons, ih]

theorem State.tornCopy_of_none {s : State} (h : s.boot.update = none) : s.tornCopy = s := by
  simp only [State.tornCopy, h]

theorem State.tornCopy_flash_of_some {s : State} {img : List Byte} {b : Bool} {r : Bool}
    (h : s.boot.update = some (img, b, r)) :
    s.tornCopy.flash = s.flash.setImage (2 * leAt img 6 1 + b2n b) (freeBytes img.length s.free) := by
  simp only [State.tornCopy, h]
  rfl

/-- An interrupted update touches an image in flash and the free values alone. -/
theorem State.tornCopy_frame (s : State) : s.tornCopy.pwr = s.pwr ∧ s.tornCopy.repair = s.repair ∧
    s.tornCopy.flash.train = s.flash.train ∧ s.tornCopy.pending = s.pending ∧ s.tornCopy.out = s.out ∧
    s.tornCopy.mem = s.mem := by
  unfold State.tornCopy
  split <;> exact ⟨rfl, rfl, rfl, rfl, rfl, rfl⟩

/-- The state that power-on leaves but for its start-up registers. -/
def State.powerOnMem (s : State) : State :=
  (s.tornCopy.mem.filter fun e => regionOf e.1 = .studio).foldl (fun r e => r.undef e.1 1) s.tornCopy.powerOnBase

theorem State.powerOn_eq_mem (s : State) : s.powerOn = s.powerOnMem.loadMasks.loadTrainTable := rfl

theorem State.powerOnMem_csr (s : State) : s.powerOnMem.csr = [] :=
  List.foldlRecOn (motive := fun r : State => r.csr = []) _ _ rfl fun _ h _ _ => h

theorem State.powerOnMem_keeps (s : State) : s.powerOnMem.repair.overlay = s.repair.overlay ∧
    s.powerOnMem.flash.train = s.flash.train := by
  obtain ⟨-, repair, train, -⟩ := s.tornCopy_frame
  exact List.foldlRecOn (motive := fun r : State => r.repair.overlay = s.repair.overlay ∧ r.flash.train = s.flash.train)
    _ _ ⟨(congrArg RepairState.overlay repair :), train⟩ fun _ h _ _ => h

/-- Only Studio SRAM is left undefined: every other byte reads zero (R369, log 6). -/
theorem State.powerOnMem_byte (s : State) {a : Nat} (h : regionOf a ≠ .studio) : s.powerOnMem.byte a = 0 := by
  refine List.foldlRecOn (motive := fun r : State => r.byte a = 0) _ _ rfl fun r zero e he => ?_
  have studio : regionOf e.1 = .studio := by simpa using (List.mem_filter.1 he).2
  rw [State.undef, State.byte_poke, if_neg]
  · exact zero
  · intro inside
    have same : e.1 = a := by
      simp only [State.takeFree, freeBytes_length] at inside
      omega
    exact h (same ▸ studio)

/-! ## The start-up registers -/

theorem State.loadMasks_mem (s : State) : s.loadMasks.mem = s.mem := by
  refine List.foldlRecOn (motive := fun r : State => r.mem = s.mem) _ _ rfl fun r h e _ => ?_
  split <;> exact h

theorem State.loadTrainTable_mem (s : State) : s.loadTrainTable.mem = s.mem :=
  List.foldlRecOn (motive := fun r : State => r.mem = s.mem) _ _ rfl fun _ h _ _ => h

/-- The birth masks lie at their 32 registers. -/
theorem State.rd_loadMasks {s : State} (csr : s.csr = []) (clusters : ∀ e ∈ s.repair.overlay, e.1 < 128) {k : Nat}
    (h : ¬(0x6000 ≤ k ∧ k < 0x6100)) : s.loadMasks.rd k = (csrReset k).toNat := by
  refine List.foldlRecOn (motive := fun r : State => r.rd k = (csrReset k).toNat) _ _ ?_ fun r rd e he => ?_
  · rw [State.rd, State.resetRegs, csr]
    rfl
  · have low := clusters e he
    split
    · rw [State.rd_wrf_ne (by omega), rd]
    · exact rd

theorem netKey_inj {a b : Nat} : netKey a = netKey b ↔ a = b := by
  simp [netKey]

theorem State.loadMasks_train (s : State) : s.loadMasks.flash.train = s.flash.train := by
  refine List.foldlRecOn (motive := fun r : State => r.flash.train = s.flash.train) _ _ rfl fun r h e _ => ?_
  split <;> exact h

/-- The first n registers of the train table, loaded. -/
def State.loadTrain (s : State) (n : Nat) : State :=
  (List.range n).foldl (fun r i => r.wr (netKey (0x100 + 4 * i)) (smGet 0 r.flash.train i).toNat) s

theorem State.loadTrain_succ (s : State) (n : Nat) : s.loadTrain (n + 1) =
    (s.loadTrain n).wr (netKey (0x100 + 4 * n)) (smGet 0 (s.loadTrain n).flash.train n).toNat := by
  exact foldl_range_succ _ _ _

theorem State.loadTrain_flash (s : State) (n : Nat) : (s.loadTrain n).flash = s.flash :=
  List.foldlRecOn (motive := fun r : State => r.flash = s.flash) _ _ rfl fun _ h _ _ => h

theorem State.rd_loadTrain_out (s : State) {n k : Nat} (h : ∀ i < n, k ≠ netKey (0x100 + 4 * i)) :
    (s.loadTrain n).rd k = s.rd k := by
  induction n with
  | zero => rfl
  | succ n ih =>
    rw [State.loadTrain_succ, State.rd_wr_ne (h n (by omega)).symm]
    exact ih fun i hi => h i (by omega)

theorem State.rd_loadTrain_in (s : State) {n i : Nat} (h : i < n) :
    (s.loadTrain n).rd (netKey (0x100 + 4 * i)) = (smGet 0 s.flash.train i).toNat := by
  induction n with
  | zero => omega
  | succ n ih =>
    rw [State.loadTrain_succ, State.loadTrain_flash]
    rcases Nat.lt_succ_iff_lt_or_eq.1 h with less | rfl
    · rw [State.rd_wr_ne (fun e => by have := netKey_inj.1 e; omega), ih less]
    · rw [State.rd_wr_of_lt (Nat.lt_of_lt_of_le (BitVec.isLt _) (by decide))]

/-- What power-on leaves (R40, R369, R574, R588). -/
theorem powerOn_effect (s : State) : let t := s.powerOn
     (∀ a, regionOf a ≠ .studio → t.byte a = 0) ∧ t.ue = [] ∧ t.posted = [] ∧ t.cores = [] ∧ t.tseq = [] ∧ t.seq = SeqState.reset ∧ t.hcp = HcpState.init ∧
     t.feed = FeedState.init ∧ t.boot = BootState.init ∧ t.clk = ClkState.init ∧ t.erec = RecState.reset ∧
     t.emb = [] ∧ t.qz = [] ∧ t.upd = [] ∧ t.gran = [] ∧ t.col = [] ∧ t.pwr.phase = .on ∧ t.pwr.lampsDone = false ∧
     t.pwr.offCause = s.pwr.offCause ∧ t.pwr.alertSource = s.pwr.alertSource ∧
     (s.boot.update = none → t.flash = s.flash) ∧
     (∀ img b r, s.boot.update = some (img, b, r) → ∃ junk : List Byte, junk.length = img.length ∧
       t.flash = s.flash.setImage (2 * leAt img 6 1 + b2n b) junk) ∧
     t.repair.overlay = s.repair.overlay ∧ t.repair.spared = s.repair.spared ∧ t.repair.retired = s.repair.retired ∧ t.repair.testing = none ∧
     t.pending = s.pending ∧ t.out = s.out ∧
     ((∀ e ∈ s.repair.overlay, e.1 < 128) → ∀ k, ¬(0x6000 ≤ k ∧ k < 0x6100) → (∀ i, i < 16 → k ≠ netKey (0x100 + 4 * i)) →
       t.rd k = (csrReset k).toNat) ∧
     (∀ i, i < 16 → t.rd (netKey (0x100 + 4 * i)) = (smGet 0 s.flash.train i).toNat) := by
  intro t
  obtain ⟨pwr, repair, -, pending, out, -⟩ := s.tornCopy_frame
  obtain ⟨overlay, train⟩ := s.powerOnMem_keeps
  have bytes : ∀ a, regionOf a ≠ .studio → t.byte a = 0 := fun a h => by
    change s.powerOn.byte a = 0
    rw [State.byte, s.powerOn_eq_mem, State.loadTrainTable_mem, State.loadMasks_mem]
    exact s.powerOnMem_byte h
  have loaded : t = s.powerOnMem.loadMasks.loadTrain 16 := rfl
  have regs : (∀ e ∈ s.repair.overlay, e.1 < 128) → ∀ k, ¬(0x6000 ≤ k ∧ k < 0x6100) →
      (∀ i, i < 16 → k ≠ netKey (0x100 + 4 * i)) → t.rd k = (csrReset k).toNat := fun clusters k masks others => by
    rw [loaded, State.rd_loadTrain_out _ others, State.rd_loadMasks s.powerOnMem_csr (overlay ▸ clusters) masks]
  have trained : ∀ i, i < 16 → t.rd (netKey (0x100 + 4 * i)) = (smGet 0 s.flash.train i).toNat := fun i hi => by
    rw [loaded, State.rd_loadTrain_in _ hi, State.loadMasks_train, train]
  obtain ⟨m, f, c, shape⟩ := s.powerOn_shape
  have ht : t = _ := shape
  clear_value t
  have flash : t.flash = s.tornCopy.flash := by rw [ht]; rfl
  subst ht
  exact ⟨bytes, rfl, rfl, rfl, rfl, rfl, rfl, rfl, rfl, rfl, rfl, rfl, rfl, rfl, rfl, rfl, rfl, rfl,
    (congrArg PowerState.offCause pwr :), (congrArg PowerState.alertSource pwr :),
    fun none => by rw [flash, State.tornCopy_of_none none],
    fun img b r some => ⟨_, freeBytes_length _ _, flash.trans (State.tornCopy_flash_of_some some)⟩,
    (congrArg RepairState.overlay repair :), (congrArg RepairState.spared repair :), (congrArg RepairState.retired repair :),
    rfl, pending, out, regs, trained⟩

/-! ## Pins and self-trips -/

/-- A cause other than a rail's is latched beside those that stand (R16). -/
theorem State.latchCause_of_pin {bits : Nat} (h : bit bits 5 = false) (s : State) (rail : Nat) : s.latchCause bits rail =
    { s with pwr := { s.pwr with offCause := BitVec.ofNat 16 (Nat.lor s.pwr.offCause.toNat bits) } } := by
  rw [State.latchCause, h]
  rfl

/-- Power goes off for a first cause. -/
theorem State.powerOff_of_on {s : State} {bits : Nat} (on : s.pwr.phase ≠ .off) (h : bit bits 5 = false) (rail : Nat)
    (trip : Bool) : s.powerOff bits rail trip =
      { s with pwr := { s.pwr with phase := .off, emergTrip := s.pwr.emergTrip || trip,
                                   offCause := BitVec.ofNat 16 (Nat.lor s.pwr.offCause.toNat bits) }
               offAt := s.wall } := by
  rw [State.powerOff, if_pos on, State.latchCause_of_pin h]

/-- A later cause within 50 us is latched as well; after them nothing is (log 87). -/
theorem State.powerOff_of_off {s : State} {bits : Nat} (off : s.pwr.phase = .off) (h : bit bits 5 = false) (rail : Nat)
    (trip : Bool) :
    (s.wall ≤ s.offAt + 50000 → s.powerOff bits rail trip = { s with
      pwr := { s.pwr with emergTrip := s.pwr.emergTrip || (trip && s.pwr.pwrEn),
                          offCause := BitVec.ofNat 16 (Nat.lor s.pwr.offCause.toNat bits) } }) ∧
    (s.offAt + 50000 < s.wall → s.powerOff bits rail trip = s) := by
  rw [State.powerOff, if_neg (Classical.not_not.2 off)]
  refine ⟨fun soon => ?_, fun late => ?_⟩
  · rw [if_pos (by omega), State.latchCause_of_pin h]
  · rw [if_neg (by omega)]

theorem ofNat_lor (x : BitVec 16) (b : Nat) : BitVec.ofNat 16 (Nat.lor x.toNat b) = x ||| BitVec.ofNat 16 b := by
  refine BitVec.eq_of_getLsbD_eq fun i hi => ?_
  change (BitVec.ofNat 16 (x.toNat ||| b)).getLsbD i = _
  simp [hi]

/-- Latching a cause twice latches it once. -/
theorem ofNat_lor_twice (x : BitVec 16) (b : Nat) :
    BitVec.ofNat 16 (Nat.lor (BitVec.ofNat 16 (Nat.lor x.toNat b)).toNat b) = BitVec.ofNat 16 (Nat.lor x.toNat b) := by
  rw [ofNat_lor, ofNat_lor, BitVec.or_assoc, BitVec.or_self]

theorem exec_pwrEnRise {s : State} (standby : s.pwr.standby = true) (low : s.pwr.pwrEn = false) (n : Nat) (b : Bool) :
    (s.pwr.phase = .off ∧ s.pwr.emergExt = false ∧ s.pwr.emergTrip = false ∧ n ≥ 100000000 →
      exec (.pwrEnRise n b) s = .next { s with pwr := { s.pwr with pwrEn := true, phase := .charging, bscan := b } }) ∧
    (¬(s.pwr.phase = .off ∧ s.pwr.emergExt = false ∧ s.pwr.emergTrip = false ∧ n ≥ 100000000) →
      exec (.pwrEnRise n b) s = .next { s with pwr := { s.pwr with pwrEn := true } }) := by
  have due : (!s.pwr.standby || s.pwr.pwrEn) = false := by simp [standby, low]
  have may : (decide (s.pwr.phase = .off) && !s.pwr.emergExt && !s.pwr.emergTrip && decide (n ≥ 100000000)) = true ↔
      s.pwr.phase = .off ∧ s.pwr.emergExt = false ∧ s.pwr.emergTrip = false ∧ n ≥ 100000000 := by
    simp [and_assoc]
  simp only [exec, execPwrEnRise, due, Bool.false_eq_true, if_false]
  exact ⟨fun h => congrArg _ (if_pos (may.2 h)), fun h => congrArg _ (if_neg (mt may.1 h))⟩

theorem exec_emergOffExternal {s : State} (standby : s.pwr.standby = true) :
    exec .emergOffExternal s = .next { ((s.powerOff 2 0 false).latchCause 2 0) with
      pwr := { ((s.powerOff 2 0 false).latchCause 2 0).pwr with emergExt := true } } := by
  simp only [exec, execEmergOffExternal, standby, if_true]

/-- The bits below n that satisfy p. -/
def bitsWhere (p : Nat → Bool) (n : Nat) : Nat := (List.range n).foldl (fun a i => if p i then a + 2 ^ i else a) 0

theorem bitsWhere_succ (p : Nat → Bool) (n : Nat) :
    bitsWhere p (n + 1) = if p n then bitsWhere p n + 2 ^ n else bitsWhere p n := by
  exact foldl_range_succ _ _ _

theorem bitsWhere_lt (p : Nat → Bool) (n : Nat) : bitsWhere p n < 2 ^ n := by
  induction n with
  | zero => exact Nat.one_pos
  | succ n ih =>
    rw [bitsWhere_succ]
    split <;> omega

theorem testBit_bitsWhere (p : Nat → Bool) {n i : Nat} (h : i < n) : (bitsWhere p n).testBit i = p i := by
  induction n with
  | zero => omega
  | succ n ih =>
    have small := bitsWhere_lt p n
    have top : bitsWhere p n + 2 ^ n = 2 ^ n ||| bitsWhere p n := by
      simpa [Nat.add_comm] using Nat.two_pow_add_eq_or_of_lt small 1
    rw [bitsWhere_succ]
    rcases Nat.lt_succ_iff_lt_or_eq.1 h with less | rfl
    · split
      · rw [top, Nat.testBit_or, Nat.testBit_two_pow_of_ne (by omega), ih less, Bool.false_or]
      · exact ih less
    · split
      next on => rw [top, Nat.testBit_or, Nat.testBit_two_pow_self, on, Bool.true_or]
      next off => rw [Nat.testBit_lt_two_pow small, Bool.eq_false_iff.2 off]

/-- What a write of ones leaves of the latch (R16). -/
theorem State.clearOffCause_effect (s : State) (bits : W32) : ∃ c : BitVec 16,
    s.clearOffCause bits.toNat = { s with pwr := { s.pwr with offCause := c } } ∧
    (∀ i, i < 6 → c.getLsbD i = (s.pwr.offCause.getLsbD i && !bits.getLsbD i)) ∧
    c.toNat / 2 ^ 8 = (if s.pwr.offCause.getLsbD 5 && !bits.getLsbD 5 then s.pwr.offCause.toNat / 2 ^ 8 else 0) := by
  have small := s.pwr.offCause.isLt
  let p := fun i => bit s.pwr.offCause.toNat i && !bit bits.toNat i
  have hp : ∀ i, p i = (s.pwr.offCause.getLsbD i && !bits.getLsbD i) := fun i => by
    simp only [p, bit_eq_testBit, BitVec.testBit_toNat]
  have low : bitsWhere p 6 < 2 ^ 6 := bitsWhere_lt p 6
  have rail : fld s.pwr.offCause.toNat 8 8 = s.pwr.offCause.toNat / 2 ^ 8 := by
    unfold fld
    omega
  have keeps : bit (bitsWhere p 6) 5 = (s.pwr.offCause.getLsbD 5 && !bits.getLsbD 5) := by
    rw [bit_eq_testBit, testBit_bitsWhere p (by decide), hp]
  refine ⟨_, rfl, fun i hi => ?_, ?_⟩
  · change (BitVec.ofNat 16 (if bit (bitsWhere p 6) 5 = true then
      bitsWhere p 6 + fld s.pwr.offCause.toNat 8 8 * 256 else bitsWhere p 6)).getLsbD i = _
    rw [← hp, ← testBit_bitsWhere p hi, BitVec.getLsbD_ofNat, decide_eq_true (by omega), Bool.true_and]
    split
    · rw [show bitsWhere p 6 + fld s.pwr.offCause.toNat 8 8 * 256 =
        2 ^ 8 * fld s.pwr.offCause.toNat 8 8 + bitsWhere p 6 by omega, Nat.two_pow_add_eq_or_of_lt (by omega),
        Nat.testBit_or, Nat.testBit_two_pow_mul, decide_eq_false (by omega), Bool.false_and, Bool.false_or]
    · rfl
  · change (BitVec.ofNat 16 (if bit (bitsWhere p 6) 5 = true then
      bitsWhere p 6 + fld s.pwr.offCause.toNat 8 8 * 256 else bitsWhere p 6)).toNat / 2 ^ 8 = _
    rw [keeps, rail, BitVec.toNat_ofNat]
    split <;> omega

/-- Settles O25. -/
theorem powerAndPins : Obligations.PowerAndPins := by
  refine ⟨⟨fun s charging => ?_, powerOn_effect⟩,
    fun s => ⟨fun standby a => ?_, rfl, fun standby low n b => exec_pwrEnRise standby low n b, fun standby high on => ?_,
      fun standby high => ?_, fun standby on => ?_, fun standby off => ?_, rfl, fun standby => ?_, rfl⟩,
    ⟨fun s standby on => ⟨fun i bits h => ?_, fun r some => ?_, fun hub r some => ?_⟩,
      fun s standby off i bits h => ?_⟩,
    fun s bits hub => ?_⟩
  · simp only [exec, execPwrGoodRelease, charging, if_true]
  · simp only [exec, execInputPowerApplied, standby, Bool.false_eq_true, if_false]
  · simp only [exec, execPwrEnFall, standby, high, if_true, State.powerOff_of_on on (show bit 1 5 = false from rfl)]
  · simp only [exec, execPwrEnFall, standby, high, if_true, Bool.false_eq_true, if_false]
  · rw [exec_emergOffExternal standby, State.powerOff_of_on on (by decide), State.latchCause_of_pin (by decide)]
    simp only [ofNat_lor_twice, Bool.or_false]
  · rw [exec_emergOffExternal standby]
    obtain ⟨soon, late⟩ := State.powerOff_of_off off (show bit 2 5 = false by decide) 0 false
    rcases Nat.lt_or_ge (s.offAt + 50000) s.wall with later | sooner
    · rw [late later, State.latchCause_of_pin (by decide)]
    · rw [soon sooner, State.latchCause_of_pin (by decide)]
      simp only [ofNat_lor_twice, Bool.false_and, Bool.or_false]
  · simp only [exec, execInputOutOfRange, standby, if_true]
    rfl
  · have trip := fun b (pin : bit b 5 = false) => State.powerOff_of_on on pin 0 true
    simp only [Bool.or_true] at trip
    simp only [List.mem_cons, Prod.mk.injEq, List.not_mem_nil, or_false] at h
    rcases h with ⟨rfl, rfl⟩ | ⟨rfl, rfl⟩ | ⟨rfl, rfl⟩
    · simp only [exec, execInputOvervoltage, standby, if_true, trip 16 (by decide)]
    · simp only [exec, execInputUndervoltage, standby, if_true, trip 8 (by decide)]
    · simp only [exec, execThermalTrip, standby, if_true, trip 4 (by decide)]
  · have due : (s.pwr.standby && decide (r.val ≠ 0)) = true := by simp [standby, some]
    simp only [exec, execRailFault, due, if_true, State.powerOff, if_pos on, State.latchCause, Bool.or_true]
    rfl
  · have due : (s.hubOn && decide (r.val ≠ 0)) = true := by simp [hub, some]
    simp only [exec, execRailWarn, due, if_true]
  · have trip := fun b (pin : bit b 5 = false) => State.powerOff_of_off off pin 0 true
    simp only [Bool.true_and] at trip
    simp only [List.mem_cons, Prod.mk.injEq, List.not_mem_nil, or_false] at h
    have act : ∀ b, (if s.pwr.standby = true then s.powerOff b 0 true else s) = s.powerOff b 0 true :=
      fun b => if_pos standby
    rcases h with ⟨rfl, rfl⟩ | ⟨rfl, rfl⟩ | ⟨rfl, rfl⟩
    · obtain ⟨soon, late⟩ := trip 16 (by decide)
      exact ⟨fun h => congrArg _ ((act 16).trans (soon h)), fun h => congrArg _ ((act 16).trans (late h))⟩
    · obtain ⟨soon, late⟩ := trip 8 (by decide)
      exact ⟨fun h => congrArg _ ((act 8).trans (soon h)), fun h => congrArg _ ((act 8).trans (late h))⟩
    · obtain ⟨soon, late⟩ := trip 4 (by decide)
      exact ⟨fun h => congrArg _ ((act 4).trans (soon h)), fun h => congrArg _ ((act 4).trans (late h))⟩
  · obtain ⟨c, eq, bits, rail⟩ := s.clearOffCause_effect bits
    exact ⟨c, by simp only [exec, execPwrOffCauseClear, hub, if_true, eq], bits, rail⟩

end Sys2Proof.Machine
end

section
/-! PROOFS of the HCP family: packets, their checks, the queue and the transports (R466 to R477). -/

namespace Sys2Proof.Machine
open Sys2Proof

/-! ## Orders 1 to 3 of R474 -/

section
variable {s : State} {v : Via} {p : List Byte}

theorem State.takePacket_short (h : p.length < 48) : s.takePacket v p = s.authFail := by
  rw [State.takePacket, if_pos h]

theorem State.takePacket_no_session (h : p.length ≥ 48) (id : leAt p 8 4 = 0) :
    (leAt p 2 2 ≠ 1 ∧ leAt p 2 2 ≠ 2 ∧ leAt p 2 2 ≠ 3 → s.takePacket v p = s.authFail) ∧
    (leAt p 2 2 = 1 ∨ leAt p 2 2 = 2 ∨ leAt p 2 2 = 3 →
      (zeroAt p (p.length - 16) 16 = false → s.takePacket v p = s.authFail.replyAuthFail v (leAt p 2 2) (leAt p 4 4)) ∧
      (zeroAt p (p.length - 16) 16 = true → s.takePacket v p = s.checkPacket v p)) := by
  have unlisted : (!([1, 2, 3] : List Nat).contains (leAt p 2 2)) = true ↔
      ¬(leAt p 2 2 = 1 ∨ leAt p 2 2 = 2 ∨ leAt p 2 2 = 3) := by
    simp
  rw [State.takePacket, if_neg (by omega), if_pos id]
  refine ⟨fun other => if_pos (unlisted.2 (by omega)), fun opens => ?_⟩
  · rw [if_neg (fun h => unlisted.1 h opens)]
    exact ⟨fun some => if_pos (by simp [some]), fun none => if_neg (by simp [none])⟩

theorem State.takePacket_session (h : p.length ≥ 48) (id : leAt p 8 4 ≠ 0) :
    (s.session? (leAt p 8 4) = none → s.takePacket v p = s.authFail) ∧
    (∀ n x sealed, s.session? (leAt p 8 4) = some (n, x) →
      sealed = gcmOpen (x.key 0) (sessNonce 0 (leAt p 16 8)) (p.take 32) (p.drop 32) →
      (sealed = none → s.takePacket v p = s.authFail.replyAuthFail v (leAt p 2 2) (leAt p 4 4)) ∧
      (∀ d, sealed = some d → leAt p 16 8 ≤ x.cmdSeq → s.takePacket v p =
        (s.bump 0xA020 1).sendReply v (leAt p 2 2) (leAt p 4 4) (leAt p 8 4) stStale 0 false []) ∧
      (∀ d, sealed = some d → leAt p 16 8 > x.cmdSeq → x.repSeq < 2 ^ 64 - 1 → s.takePacket v p =
        (s.putSession n { x with cmdSeq := leAt p 16 8, lastAt := s.time }).checkPacket v (p.take 32 ++ d ++ zeros 16))) := by
  rw [State.takePacket, if_neg (by omega), if_neg id]
  refine ⟨fun none => by rw [none], fun n x sealed some hs => ?_⟩
  rw [some]
  dsimp only
  rw [← hs]
  refine ⟨fun h => by rw [h], fun d h old => ?_, fun d h new left => ?_⟩ <;> rw [h] <;> dsimp only
  · exact if_pos (by simp [old])
  · exact if_neg (by simp [new]; omega)

end

theorem State.authFail_regs (s : State) :
    s.authFail.rd 0xA018 = min (s.rd 0xA018 + 1) (2 ^ 64 - 1) ∧ RegsExcept [0xA018, 0xA008] s s.authFail := by
  have counter : kHcpCount 1 = 0xA018 := rfl
  rw [State.authFail, counter, kHcpSticky]
  refine ⟨?_, ((RegsExcept.refl _ s).bump (by simp) 1).orBits (by simp) 4⟩
  rw [State.rd_orBits_ne (by decide), State.rd_bump_same]

/-- A datagram on a port that is up (R466, R467). -/
theorem exec_hcpPacket_udp {s : State} {eth : EthId} (up : s.ethUp eth.val = true)
    (on : eth.val = 2 → bit (s.rd 0xA000) 8 = true) (addr : List Byte) (port : Nat) (p : List Byte) :
    exec (.hcpPacket (.udp eth addr port) none p 50410) s = .next (s.takePacket (.udp eth addr port) p) := by
  have goes : (!s.ethUp eth.val || decide ((50410 : BitVec 16) ≠ 50410) ||
      (decide (eth.val = 2) && !bit (s.rd kHcpCtrl) 8)) = false := by
    have : eth.val = 2 → bit (s.rd kHcpCtrl) 8 = true := on
    simpa [up] using this
  simp only [exec, execHcpPacket, goes, Bool.false_eq_true, if_false]

/-! ## Orders 4 to 7 of R474 -/

/-- A packet's sizes as its command's form asks (R472). -/
def Sized (p : List Byte) (fits : Bool) (lo hi : Nat) : Prop :=
  leAt p 24 4 ≤ 4096 ∧ leAt p 14 2 ≤ 1024 ∧ leAt p 14 2 ≤ leAt p 24 4 ∧ p.length = 48 + leAt p 24 4 ∧ fits = true ∧
    lo ≤ leAt p 14 2 ∧ leAt p 14 2 ≤ hi

section
variable {s : State} {v : Via} {p : List Byte}

theorem State.checkPacket_bad_head (h : ¬(leAt p 0 1 = 1 ∧ leAt p 1 1 = 0 ∧ leAt p 12 2 = 0 ∧ leAt p 28 4 = 0)) :
    s.checkPacket v p = s.sendReply v (leAt p 2 2) (leAt p 4 4) (leAt p 8 4) stBadParam 0 false [] := by
  rw [State.checkPacket]
  exact if_pos (by simp only [Bool.or_eq_true, decide_eq_true_eq]; omega)

theorem State.checkPacket_headed (h : leAt p 0 1 = 1 ∧ leAt p 1 1 = 0 ∧ leAt p 12 2 = 0 ∧ leAt p 28 4 = 0) :
    (commandShape (leAt p 2 2) (slice p 32 (p.length - 48)) (leAt p 14 2) = none →
      s.checkPacket v p = s.sendReply v (leAt p 2 2) (leAt p 4 4) (leAt p 8 4) stBadOpcode 0 false []) ∧
    (∀ fits lo hi, commandShape (leAt p 2 2) (slice p 32 (p.length - 48)) (leAt p 14 2) = some (fits, lo, hi) →
      (¬Sized p fits lo hi →
        s.checkPacket v p = s.sendReply v (leAt p 2 2) (leAt p 4 4) (leAt p 8 4) stBadLength 0 false []) ∧
      (Sized p fits lo hi → s.freeEntry (leAt p 2 2) = none → s.checkPacket v p =
        ((s.bump 0xA028 1).orBits 0xA008 2).sendReply v (leAt p 2 2) (leAt p 4 4) (leAt p 8 4) stQueueFull
          (max 10 (16 * s.serviceUs)) false []) ∧
      (∀ r, Sized p fits lo hi → s.freeEntry (leAt p 2 2) = some r → s.checkPacket v p =
        (({ s with hcp := { s.hcp with queue := s.hcp.queue ++ [(⟨v, leAt p 2 2, leAt p 4 4, leAt p 8 4,
          slice (slice p 32 (p.length - 48)) 0 (leAt p 24 4 - leAt p 14 2),
          (slice p 32 (p.length - 48)).drop (leAt p 24 4 - leAt p 14 2), s.time, r⟩ : HcpEntry)] } }).bump 0xA010 1).watchQueue)) := by
  have judge : ∀ fits lo hi, (decide (leAt p 24 4 > 4096) || decide (leAt p 14 2 > 1024) ||
      decide (leAt p 14 2 > leAt p 24 4) || decide (p.length ≠ 48 + leAt p 24 4) || !fits || decide (leAt p 14 2 < lo) ||
      decide (leAt p 14 2 > hi)) = true ↔ ¬Sized p fits lo hi := fun fits lo hi => by
    cases fits
    · simp [Sized]
    · simp only [Sized, Bool.or_eq_true, decide_eq_true_eq, Bool.not_true, Bool.false_eq_true, true_and, or_false]
      omega
  rw [State.checkPacket]
  dsimp only
  rw [if_neg (by simp [h])]
  refine ⟨fun none => by rw [none], fun fits lo hi some => ?_⟩
  rw [some]
  refine ⟨fun bad => if_pos ((judge ..).2 bad), fun good none => ?_, fun r good some => ?_⟩
  · refine (if_neg fun bad => (judge ..).1 bad good).trans ?_
    rw [none]
    rfl
  · refine (if_neg fun bad => (judge ..).1 bad good).trans ?_
    rw [some]
    rfl

end

theorem State.freeEntry_eq (s : State) (op : Nat) : let k := (s.hcp.queue.filter (·.reserved)).length
    s.freeEntry op = if s.hcp.queue.length - k < 240 then some false
      else if [0x0303, 0x0304, 0x0305, 0x0004, 0x0A01, 0x0A02].contains op ∧ k < 16 then some true else none := by
  intro k
  rw [State.freeEntry]
  exact ite_of_iff Iff.rfl rfl (ite_of_iff (by rw [Bool.and_eq_true, decide_eq_true_eq, mayReserve]) rfl rfl)

/-! ## Transports -/

/-- A fragment on the management port (R467). -/
theorem exec_hcpPacket_fragment {s : State} {eth : EthId} (mgmt : eth.val = 2) (up : s.ethUp 2 = true)
    (on : bit (s.rd 0xA000) 8 = true) (addr : List Byte) (port : Nat) (f : FragInfo) (b : List Byte) :
    (∀ u, s.takeFrag addr port f b = (none, u) → exec (.hcpPacket (.udp eth addr port) (some f) b 50410) s = .next u) ∧
    (∀ d u, s.takeFrag addr port f b = (some d, u) →
      exec (.hcpPacket (.udp eth addr port) (some f) b 50410) s = .next (u.takePacket (.udp eth addr port) d)) := by
  have goes : (!s.ethUp eth.val || decide ((50410 : BitVec 16) ≠ 50410) ||
      (decide (eth.val = 2) && !bit (s.rd kHcpCtrl) 8)) = false := by
    have : bit (s.rd kHcpCtrl) 8 = true := on
    simp [mgmt, up, this]
  have two : ¬eth.val ≠ 2 := Classical.not_not.2 mgmt
  simp only [exec, execHcpPacket, goes, Bool.false_eq_true, if_false, two]
  exact ⟨fun u gone => by rw [gone], fun d u whole => by rw [whole]⟩

theorem exec_hcpPacket_other_port (s : State) (eth : EthId) (addr : List Byte) (port : Nat) (frag : Option FragInfo)
    (b : List Byte) {dport : BitVec 16} (h : dport ≠ 50410) :
    exec (.hcpPacket (.udp eth addr port) frag b dport) s = .next s :=
  congrArg Host.Outcome.next (if_pos (by rw [decide_eq_true h, Bool.or_true, Bool.true_or]))

theorem mem_of_mem_removeFirst {α : Type} {q : α → Bool} {l : List α} {m : α} (h : m ∈ removeFirst q l) : m ∈ l := by
  induction l with
  | nil => exact h
  | cons x l ih =>
    rw [removeFirst] at h
    split at h
    · exact List.mem_cons_of_mem _ h
    · rcases List.mem_cons.1 h with rfl | h
      · exact List.mem_cons_self
      · exact List.mem_cons_of_mem _ (ih h)

theorem length_removeFirst {α : Type} {q : α → Bool} {l : List α} (h : ∃ m ∈ l, q m = true) :
    (removeFirst q l).length + 1 = l.length := by
  induction l with
  | nil => obtain ⟨m, hm, -⟩ := h; cases hm
  | cons x l ih =>
    rw [removeFirst]
    split
    · rfl
    next other =>
      obtain ⟨m, hm, hq⟩ := h
      rcases List.mem_cons.1 hm with rfl | hm
      · exact absurd hq other
      · exact congrArg (· + 1) (ih ⟨m, hm, hq⟩)

theorem exec_hcpPacket_torus {s : State} (on : s.hubOn = true) (reeve : s.boot.reeve = true) (node tag : Nat) (p : List Byte)
    (dport : BitVec 16) (some : ∃ m ∈ s.inbox, m.src = node ∧ m.typ = 1 ∧ m.tag = tag ∧ m.body = p) :
    ∃ l : List InMsg, l.length + 1 = s.inbox.length ∧ (∀ m ∈ l, m ∈ s.inbox) ∧
      exec (.hcpPacket (.torus node tag) none p dport) s = .next (({ s with inbox := l }).takePacket (.torus node tag) p) := by
  let it : InMsg → Bool := fun m => m.src = node && m.typ = hcpType && m.tag = tag && m.body = p
  obtain ⟨m, hm, src, typ, ht, body⟩ := some
  have found : ∃ m ∈ s.inbox, it m = true := ⟨m, hm, by simp [it, src, typ, ht, body, hcpType]⟩
  have due : (s.hubOn && s.boot.reeve && s.inbox.any it) = true := by
    rw [on, reeve, List.any_eq_true.2 found]
    rfl
  exact ⟨removeFirst it s.inbox, length_removeFirst found, fun m h => mem_of_mem_removeFirst h,
    congrArg Host.Outcome.next (if_pos due)⟩

theorem exec_relay {s : State} {eth : EthId} (up : s.ethUp eth.val = true) (on : bit (s.rd 0xA000) 9 = true)
    (addr : List Byte) (port : Nat) {d : List Byte} (long : d.length ≥ 8) (node : leAt d 0 4 < 2 ^ 20)
    (zero : zeroAt d 4 4 = true) : exec (.relay eth addr port d) s = .next ((({ s with hcp := { s.hcp with
      nextTag := (s.hcp.nextTag + 1) % 2 ^ 32,
      relays := s.hcp.relays ++ [(⟨s.hcp.nextTag, eth.val, addr, port⟩ : RelayWait)] } }).bump 0xA030 1).sendHcp
        (leAt d 0 4) s.hcp.nextTag (d.drop 8)) := by
  have on' : bit (s.rd kHcpCtrl) 9 = true := on
  exact congrArg Host.Outcome.next (if_neg (by simp [up, on', zero]; omega))

/-- The way back of a relay is kept until its last reply (R467). -/
theorem State.relayReply_effect {s : State} {m : InMsg} {r : RelayWait} (way : s.hcp.relays.find? (·.tag = m.tag) = some r) :
    let last := ¬(leAt m.body 12 2 = 0x0001 ∧ bit (leAt m.body 1 1) 1 = false)
    ∃ l : List RelayWait, (last → l.length + 1 = s.hcp.relays.length) ∧ (¬last → l = s.hcp.relays) ∧
      s.relayReply m = ({ s with hcp := { s.hcp with relays := l } }).emit
        (.udp r.eth r.addr r.port 50412 (leBytes 8 m.src ++ m.body) (if r.eth = 2 then 1280 else 0)) := by
  intro last
  have more : moreFollows m.body = true ↔ ¬last := by
    rw [moreFollows, Bool.and_eq_true, decide_eq_true_eq, Bool.not_eq_true', Classical.not_not, stPending]
  have found : ∃ x ∈ s.hcp.relays, decide (x.tag = m.tag) = true :=
    ⟨r, List.mem_of_find?_eq_some way, by simpa using List.find?_some way⟩
  rw [State.relayReply, way]
  dsimp only
  by_cases h : last
  · rw [if_neg (fun hm => more.1 hm h)]
    exact ⟨_, fun _ => length_removeFirst found, fun g => absurd h g, rfl⟩
  · rw [if_pos (more.2 h)]
    exact ⟨_, fun g => absurd g h, fun _ => rfl, rfl⟩

theorem exec_ipv6 {s : State} {eth : EthId} (up : s.ethUp eth.val = true) (addr dest data : List Byte) :
    (s.ownAddr eth.val dest = true →
      exec (.neighbourDiscovery eth (.solicit addr dest)) s = .next (s.emit (.ndAnswer eth.val addr dest)) ∧
      exec (.echoRequest eth ⟨addr, dest⟩ data) s = .next (s.emit (.echoReply eth.val addr dest data))) ∧
    (s.ownAddr eth.val dest = false →
      exec (.neighbourDiscovery eth (.solicit addr dest)) s = .next s ∧
      exec (.echoRequest eth ⟨addr, dest⟩ data) s = .next s) := by
  simp only [exec, execNeighbourDiscovery, execEchoRequest, up, Bool.not_true, Bool.false_eq_true, if_false, Bool.true_and]
  exact ⟨fun own => by simp [own], fun foreign => by simp [foreign]⟩

/-- An address is this port's own through one of its prefixes (R466, log 85). -/
theorem State.ownAddr_iff {s : State} {eth : Nat} {a : List Byte} :
    s.ownAddr eth a = true ↔ ∃ p ∈ s.ethPrefixes eth, p ++ s.ifaceId = a := by
  simp [State.ownAddr]

theorem exec_advert {s : State} {eth : EthId} (up : s.ethUp eth.val = true) (addr pre : List Byte) :
    ∃ t, exec (.neighbourDiscovery eth (.advert addr pre)) s = .next t ∧ t.ownAddr eth.val (pre ++ t.ifaceId) = true ∧
      ∀ a, s.ownAddr eth.val a = true → t.ownAddr eth.val a = true := by
  simp only [exec, execNeighbourDiscovery, up, Bool.not_true, Bool.false_eq_true, if_false, State.ownAddr_iff]
  split
  next known =>
    exact ⟨s, rfl, ⟨pre, List.mem_cons_of_mem _ (List.contains_iff_mem.1 known), rfl⟩, fun _ h => h⟩
  next new =>
    refine ⟨_, rfl, ⟨pre, ?_, rfl⟩, fun a ⟨p, hp, ha⟩ => ⟨p, ?_, ha⟩⟩ <;>
      simp only [State.ethPrefixes, State.setHcp, smGet_smPut, if_true] at *
    · simp
    · exact (List.mem_cons.1 hp).elim (fun h => h ▸ List.mem_cons_self)
        fun h => List.mem_cons_of_mem _ (List.mem_append_left _ h)

/-- Settles O27. -/
theorem packets : Obligations.Packets := by
  refine ⟨fun s eth addr port p up on => ?_, fun s v p => ⟨fun h => State.checkPacket_bad_head h, fun h none => ?_,
    fun fits lo hi h some => (State.checkPacket_headed h).2 fits lo hi some, s.freeEntry_eq _⟩,
    fun s => ⟨fun eth addr port f b mgmt up on => exec_hcpPacket_fragment mgmt up on addr port f b,
      fun eth addr port frag b dport h => exec_hcpPacket_other_port s eth addr port frag b h, fun _ _ _ => rfl,
      fun node tag p dport on reeve => exec_hcpPacket_torus on reeve node tag p dport,
      fun eth addr port d up on long node zero => exec_relay up on addr port long node zero,
      fun m r way => State.relayReply_effect way, fun eth addr dest data up => exec_ipv6 up addr dest data,
      fun eth addr pre up => exec_advert up addr pre⟩⟩
  · intro v go op tag id
    have hgo : go = _ := exec_hcpPacket_udp up on addr port p
    rw [hgo]
    refine ⟨fun short => by rw [State.takePacket_short short], fun long zero => ?_, fun long some => ?_, gcmOpen_gcmSeal,
      s.authFail_regs⟩
    · obtain ⟨closed, opens⟩ := State.takePacket_no_session (s := s) (v := .udp eth addr port) long zero
      exact ⟨fun h => by rw [closed h], fun h => ⟨fun z => by rw [(opens h).1 z], fun z => by rw [(opens h).2 z]⟩⟩
    · obtain ⟨none, some⟩ := State.takePacket_session (s := s) (v := .udp eth addr port) long some
      refine ⟨fun h => by rw [none h], fun n x sealed h hs => ?_⟩
      obtain ⟨bad, stale, good⟩ := some n x sealed h hs
      exact ⟨fun h => by rw [bad h], fun d h old => by rw [stale d h old], fun d h new left => by rw [good d h new left]⟩
  · exact (State.checkPacket_headed h).1 none

end Sys2Proof.Machine
end

section
/-! PROOFS of the HCP family: how commands are answered, identity, sessions and accesses by command (R478 to R490, R512
to R520). -/

namespace Sys2Proof.Machine
open Sys2Proof

/-! ## A command that is due runs -/

section
variable {s t : State} {e : HcpEntry} {op : Nat} {sub : List Byte → Bool}

/-- The command at the head is the one of its subcode. -/
theorem State.headIs_of_anyBlock (h : s.headIs op anyBlock = some (e, t)) (hs : sub e.block = true) :
    s.headIs op sub = some (e, t) := by
  unfold State.headIs at h ⊢
  split at h
  · cases h
  next head q _ =>
    split at h
    next go =>
      obtain ⟨rfl, rfl⟩ := Prod.mk.inj (Option.some.inj h)
      have block : sub head.block = true := by
        split at hs <;> exact hs
      rw [if_pos]
      simpa [anyBlock, block] using go
    next => cases h

theorem State.runCommand_of_due_sub (h : s.cmdDue op e t) (hs : sub e.block = true) (slow : Bool)
    (body : HcpEntry → State → Ans) : s.runCommand op sub slow body = t.answer e slow (body e t) := by
  obtain ⟨head, may⟩ := h
  simp only [State.runCommand, State.headIs_of_anyBlock head hs, may, if_true]

theorem State.runCommand_of_due (h : s.cmdDue op e t) (slow : Bool) (body : HcpEntry → State → Ans) :
    s.runCommand op anyBlock slow body = t.answer e slow (body e t) :=
  State.runCommand_of_due_sub h rfl slow body

/-- The same, with what its body answers. -/
theorem State.runCommand_answers (h : s.cmdDue op e t) {slow : Bool} {body : HcpEntry → State → Ans} {a : Ans}
    (ha : body e t = a) : s.runCommand op anyBlock slow body = t.answer e slow a := by
  rw [State.runCommand_of_due h, ha]

end

/-! ## Answers -/

section
variable {s s0 : State} {e : HcpEntry} {final slow : Bool} {st : Nat} {d : List Byte}

theorem State.finish_of_session (notBusy : st ≠ stBusy) (named : e.session ≠ 0) {n : Nat} {x : Session}
    (found : s.session? e.session = some (n, x)) {q : Nat} (hq : q = min (x.repSeq + 1) (2 ^ 64 - 1)) :
    s.finish e final st d = (((s.putSession n { x with repSeq := q }).sendVia e.via
      (let h := replyHeader (1 + 2 * b2n final) e.opcode e.tag e.session st q d.length 0
       h ++ gcmSeal (x.key 1) (sessNonce 1 q) h d)).served e.accepted) := by
  subst hq
  simp only [State.finish, if_neg notBusy, State.sendReply, if_neg named, found]

theorem State.finish_of_no_session (notBusy : st ≠ stBusy) (named : e.session ≠ 0) (gone : s.session? e.session = none)
    (final : Bool) : s.finish e final st d = s.served e.accepted := by
  simp only [State.finish, if_neg notBusy, State.sendReply, if_neg named, gone]

theorem State.answer_at_once (ended : st ≠ stPending) (quick : slow = false) :
    s0.answer e slow (st, d, s) = s.finish e false st d := by
  simp only [State.answer, ended, quick, decide_false, Bool.or_false, Bool.false_eq_true, if_false]

theorem State.answer_later (later : st = stPending ∨ slow = true) :
    (s0.hcp.pend.isSome = true → s0.answer e slow (st, d, s) = s0.finish e false stBusy []) ∧
    (s0.hcp.pend = none → s0.answer e slow (st, d, s) =
      (s.sendReply e.via e.opcode e.tag e.session stPending 0 false []).setHcp fun h =>
        { h with pend := some ⟨e, if st = stPending then none else some (st, d)⟩ }) := by
  have waits : (decide (st = stPending) || slow) = true := by simpa using later
  simp only [State.answer, waits, if_true]
  exact ⟨fun busy => if_pos busy, fun free => if_neg (by simp [free])⟩

end

/-- Settles O28. -/
theorem answersAndIdentity : Obligations.AnswersAndIdentity := by
  refine ⟨⟨fun s e final st d n x notBusy named found q hq => State.finish_of_session notBusy named found hq,
      fun s e st d notBusy named gone => State.finish_of_no_session notBusy named gone,
      fun s0 s e slow st d => ⟨State.answer_at_once, State.answer_later⟩, fun s p held st d u pend on result => ?_⟩,
    fun s t e slow => ⟨fun h => ?_, fun h => ?_, fun h d found zero => ?_, fun h beyond => ?_⟩⟩
  · simp only [exec, execPendingCommandComplete, pend, on, result, Bool.not_true, Bool.false_eq_true, if_false]
  · exact congrArg Host.Outcome.next (State.runCommand_of_due h slow _)
  · exact congrArg Host.Outcome.next (State.runCommand_of_due h slow _)
  · refine congrArg Host.Outcome.next (State.runCommand_answers h ?_)
    rw [found]
    exact if_pos zero
  · refine congrArg Host.Outcome.next (State.runCommand_answers h ?_)
    have none : t.infoSection (leAt e.block 0 2) = none := by
      unfold State.infoSection
      split <;> first | omega | rfl
    rw [none]
    rfl

/-! ## Sessions -/

theorem State.session?_endSession (s : State) (id : Nat) : (s.endSession id).session? id = none := by
  refine List.find?_eq_none.2 fun e he => ?_
  simpa using (List.mem_filter.1 he).2

/-- Sessions end one by one until none is left. -/
theorem foldl_endSession_sessions (l : SMap Session) (s : State) :
    (l.foldl (fun s e => s.endSession e.2.id) s).hcp.sessions =
      s.hcp.sessions.filter fun e => l.all fun x => decide (e.2.id ≠ x.2.id) := by
  induction l generalizing s with
  | nil => exact (List.filter_eq_self.2 fun _ _ => rfl).symm
  | cons x l ih =>
    rw [List.foldl_cons, ih]
    change (s.hcp.sessions.filter fun e => decide (e.2.id ≠ x.2.id)).filter _ = _
    rw [List.filter_filter]
    congr 1
    funext e
    rw [List.all_cons, Bool.and_comm]

theorem endSessions_sessions (s : State) :
    (s.hcp.sessions.foldl (fun s e => s.endSession e.2.id) s).hcp.sessions = [] := by
  rw [foldl_endSession_sessions, List.filter_eq_nil_iff]
  intro e he all
  exact absurd (List.all_eq_true.1 all e he) (by simp)

/-- The end of a session touches the sessions and the feed's last message alone. -/
theorem foldl_endSession_frame (l : SMap Session) (s : State) :
    let t := l.foldl (fun s e => s.endSession e.2.id) s
    t.csr = s.csr ∧ t.mem = s.mem ∧ t.flash = s.flash := by
  induction l generalizing s with
  | nil => exact ⟨rfl, rfl, rfl⟩
  | cons x l ih => exact ih (s.endSession x.2.id)

/-- The state in which a session begins: the owner as the mode says, and earlier sessions ended by a change of it
(R515, R518). -/
def State.opening (s : State) (b : List Byte) : State :=
  if leAt b 0 1 ≥ 2 then (s.setOwner (s.ownerAfter b)).hcp.sessions.foldl (fun s e => s.endSession e.2.id)
    (s.setOwner (s.ownerAfter b)) else s.setOwner (s.ownerAfter b)

theorem State.opening_effect (s : State) (b : List Byte) :
    (s.opening b).hcp.sessions = (if leAt b 0 1 ≥ 2 then [] else s.hcp.sessions) ∧
    (s.opening b).flash.owner = s.ownerAfter b ∧ (s.opening b).csr = s.csr ∧ (s.opening b).mem = s.mem := by
  unfold State.opening
  split
  · obtain ⟨csr, mem, flash⟩ := foldl_endSession_frame s.hcp.sessions (s.setOwner (s.ownerAfter b))
    exact ⟨endSessions_sessions _, congrArg Flash.owner flash, csr, mem⟩
  · exact ⟨rfl, rfl, rfl, rfl⟩

theorem State.openGo_effect {s : State} (room : s.hcp.sessions.length < 16) (b : List Byte) :
    ∃ reply u n x, s.openGo b = (stOk, reply, u) ∧ u.hcp.sessions =
      smPut (if leAt b 0 1 ≥ 2 then [] else s.hcp.sessions) n x ∧ x.certId = leAt b 160 8 ∧ x.cmdSeq = 0 ∧ x.repSeq = 0 ∧
      x.lastAt = s.time ∧ u.flash.owner = s.ownerAfter b ∧ RegsExcept [] s u ∧ SameBytes s u := by
  obtain ⟨sessions, owner, csr, mem⟩ := s.opening_effect b
  have go : ∃ reply n x f, s.openGo b = (stOk, reply, ({ s.opening b with free := f }).putSession n x) ∧
      x.certId = leAt b 160 8 ∧ x.cmdSeq = 0 ∧ x.repSeq = 0 ∧ x.lastAt = (s.opening b).time := by
    unfold State.openGo
    dsimp only
    rw [if_neg (show ¬s.hcp.sessions.length ≥ 16 by omega)]
    have opening : (if leAt b 0 1 ≥ 2 then (s.setOwner (s.ownerAfter b)).hcp.sessions.foldl
      (fun s e => s.endSession e.2.id) (s.setOwner (s.ownerAfter b)) else s.setOwner (s.ownerAfter b)) = s.opening b := rfl
    rw [opening]
    generalize s.opening b = t
    simp only [State.random]
    exact ⟨_, _, _, _, rfl, rfl, rfl, rfl, rfl⟩
  obtain ⟨reply, n, x, f, eq, cert, cmd, rep, last⟩ := go
  refine ⟨reply, _, n, x, eq, congrArg (smPut · n x) sessions, cert, cmd, rep, last.trans ?_, owner,
    (RegsExcept.refl [] s).of_csr csr, SameBytes.of_mem mem⟩
  rw [State.time, State.rd, csr]
  rfl

/-- The four modes of OPEN_SESSION in the order of R518's checks. -/
theorem State.openSession_of_due {s t : State} {e : HcpEntry} {cSig cert own z fl slow : Bool} {m : Nat} {a : Ans}
    {p : Nat → Bool} (due : s.cmdDue 0x0003 e t) (mode : leAt e.block 0 1 = m) (hp : p m = true)
    (ha : let proved := cSig = true ∧ cert = true ∧ (m ≥ 2 → own = true) ∧ leAt e.block 168 4 = t.genAfter e.block ∧ z = true
      let room := t.hcp.sessions.length < 16 ∨ t.idlest.isSome = true
      let sound := bit (t.rd 0xC000) 4 = false ∧ (m = 0 ∨ fl = true)
      (t.openBad e.block = true → a = t.openRefuse stBadParam) ∧
      (t.openBad e.block = false → ¬proved → a = t.openRefuse stAuthFail) ∧
      (t.openBad e.block = false → proved → ¬room → a = t.openRefuse stLimit) ∧
      (t.openBad e.block = false → proved → room → ¬sound → a = t.openRefuse stInternal) ∧
      (t.openBad e.block = false → proved → room → sound → a = t.openGo e.block)) :
    s.openSession p cSig cert own z fl slow = t.answer e slow a := by
  subst mode
  obtain ⟨bad, unproved, crowded, unsound, good⟩ := ha
  rw [State.openSession, State.runCommand_of_due_sub due hp]
  congr 1
  dsimp only
  have proof : (!cSig || !cert || (decide (leAt e.block 0 1 ≥ 2) && !own) ||
      decide (leAt e.block 168 4 ≠ t.genAfter e.block) || !z) = true ↔ ¬(cSig = true ∧ cert = true ∧
        (leAt e.block 0 1 ≥ 2 → own = true) ∧ leAt e.block 168 4 = t.genAfter e.block ∧ z = true) := by
    cases cSig <;> cases cert <;> cases own <;> cases z <;> simp; omega
  have crowd : (decide (t.hcp.sessions.length ≥ 16) && t.idlest.isNone) = true ↔
      ¬(t.hcp.sessions.length < 16 ∨ t.idlest.isSome = true) := by
    cases t.idlest <;> simp
  have unwell : (bit (t.rd 0xC000) 4 || (decide (leAt e.block 0 1 ≠ 0) && !fl)) = true ↔
      ¬(bit (t.rd 0xC000) 4 = false ∧ (leAt e.block 0 1 = 0 ∨ fl = true)) := by
    cases bit (t.rd 0xC000) 4 <;> cases fl <;> simp
  split
  next h => exact (bad h).symm
  next h =>
    have form := Bool.eq_false_iff.2 h
    split
    next h => exact (unproved form (proof.1 h)).symm
    next h =>
      have proved := Classical.not_not.1 (mt proof.2 h)
      split
      next h => exact (crowded form proved (crowd.1 h)).symm
      next h =>
        have room := Classical.not_not.1 (mt crowd.2 h)
        split
        next h => exact (unsound form proved room (unwell.1 h)).symm
        next h => exact (good form proved room (Classical.not_not.1 (mt unwell.2 h))).symm

theorem exec_closeSession {s t : State} {e : HcpEntry} (due : s.cmdDue 0x0004 e t) :
    exec .closeSession s = .next ((t.finish e false stOk []).endSession e.session) := by
  obtain ⟨head, may⟩ := due
  simp only [exec, execCloseSession, head, may, if_true]

/-! ## Registers and memory by command -/

/-- FLUSH and FENCE (R361). -/
theorem State.orderCmd_of_due {s t : State} {e : HcpEntry} {op : Nat} {flush slow : Bool} (due : s.cmdDue op e t)
    (scope : scopeBad e.block = false) :
    (t.accessBusy (leAt e.block 0 1) (leAt e.block 2 2) = false →
      s.orderCmd op flush slow = t.answer e slow (stOk, [], t.orderDone flush)) ∧
    (t.accessBusy (leAt e.block 0 1) (leAt e.block 2 2) = true →
      s.orderCmd op flush slow = t.answer e slow (stPending, [], t)) := by
  rw [State.orderCmd, State.runCommand_of_due due]
  dsimp only
  rw [scope]
  exact ⟨fun free => by rw [free]; rfl, fun busy => by rw [busy]; rfl⟩

/-- Settles O29. -/
theorem sessionsAndAccesses : Obligations.SessionsAndAccesses := by
  refine ⟨⟨fun s t e cSig cert own z fl slow m a due mode ha => ⟨fun h => ?_, fun h => ?_, fun h => ?_, fun h => ?_⟩,
      fun s b room => ?_, fun s t e => exec_closeSession, State.session?_endSession⟩,
    fun s t e slow => ⟨fun due good => ⟨fun v read => ?_, fun c v read bad => ?_⟩, fun due good c st u wrote => ?_,
      fun due low high zero c d u read => ?_, fun due c u wrote => ?_,
      fun due low high words src dst c n u copied => ?_, fun due good => ?_, fun due good => ?_⟩⟩
  · exact congrArg Host.Outcome.next (State.openSession_of_due due mode (by simp [h]) ha)
  · exact congrArg Host.Outcome.next (State.openSession_of_due due mode (by simp [h]) ha)
  · exact congrArg Host.Outcome.next (State.openSession_of_due due mode (by simp [h]) ha)
  · exact congrArg Host.Outcome.next (State.openSession_of_due due mode (by simp [h]) ha)
  · exact State.openGo_effect room b
  · refine congrArg Host.Outcome.next (State.runCommand_answers due ((if_neg (by simp [good])).trans ?_))
    rw [read]
  · refine congrArg Host.Outcome.next (State.runCommand_answers due ((if_neg (by simp [good])).trans ?_))
    rw [read]
    cases c with
    | ok => contradiction
    | _ => rfl
  · refine congrArg Host.Outcome.next (State.runCommand_answers due ((if_neg (by simp [good])).trans ?_))
    rw [wrote]
    rfl
  · refine congrArg Host.Outcome.next (State.runCommand_answers due ((if_neg (by simp [zero]; omega)).trans ?_))
    rw [read]
    cases c <;> rfl
  · refine congrArg Host.Outcome.next (State.runCommand_answers due ?_)
    rw [wrote]
  · refine congrArg Host.Outcome.next (State.runCommand_answers due ((if_neg (by simp [words, src, dst]; omega)).trans ?_))
    rw [copied]
  · obtain ⟨free, busy⟩ := State.orderCmd_of_due (flush := true) (slow := slow) due good
    exact ⟨fun h => congrArg Host.Outcome.next (free h), fun h => congrArg Host.Outcome.next (busy h)⟩
  · obtain ⟨free, busy⟩ := State.orderCmd_of_due (flush := false) (slow := slow) due good
    exact ⟨fun h => congrArg Host.Outcome.next (free h), fun h => congrArg Host.Outcome.next (busy h)⟩

end Sys2Proof.Machine
end

section
/-! PROOFS of the feed family: the slots of the ring, its timer and its registers (R489 to R497). -/

namespace Sys2Proof.Machine
open Sys2Proof

/-! ## SAMPLE -/

theorem State.slotFor_eq (s : State) (t x : Nat) : s.slotFor t x =
    if s.feedSlots t ≠ 0 ∧ s.step ≤ x ∧ x < s.step + s.feedSlots t then some (x % s.feedSlots t) else none := by
  rw [State.slotFor]
  exact ite_of_iff (by simp only [Bool.and_eq_true, decide_eq_true_eq, and_assoc]) rfl rfl

theorem smGet_coverUnits (m : SMap Bool) (u n j : Nat) :
    smGet false (coverUnits m u n) j = (decide (u ≤ j ∧ j < u + n) || smGet false m j) := by
  induction n generalizing m u with
  | zero =>
    have none : ¬(u ≤ j ∧ j < u + 0) := by omega
    rw [coverUnits, decide_eq_false none, Bool.false_or]
  | succ n ih =>
    rw [coverUnits, ih, smGet_smSet]
    rcases Nat.lt_trichotomy j u with less | rfl | more
    · rw [if_neg (by omega), decide_eq_false (by omega), decide_eq_false (by omega)]
    · simp
    · rw [if_neg (by omega)]
      exact congrArg (· || _) (decide_eq_decide.2 (by omega))

theorem State.sampleTile_effect (s : State) (t x off : Nat) (b : List Byte) {k : Nat} (slot : s.slotFor t x = some k)
    {y : FeedSlot} (hy : y = s.slot t k) :
    (y.state = 3 ∨ y.state = 2 ∧ off < y.indexBytes → s.sampleTile t x off b = s.feedDrop t x) ∧
    (¬(y.state = 3 ∨ y.state = 2 ∧ off < y.indexBytes) →
      (off % 64 ≠ 0 ∨ off + b.length > s.slotBytes t →
        s.sampleTile t x off b = (s.setSlot t k { y with code := 5 }).feedDrop t x) ∧
      (off % 64 = 0 → off + b.length ≤ s.slotBytes t → ∀ c u, s.memWrite false (s.slotAddr t k + off) b = (c, u) →
        (c ≠ .ok → s.sampleTile t x off b = u.feedDrop t x) ∧
        (c = .ok → ∃ z,
          s.sampleTile t x off b = (if y.state = 0
            then ((u.bump (kFeedCount t 0) b.length).setSlot t k z).sendStatus t
            else (u.bump (kFeedCount t 0) b.length).setSlot t k z) ∧
          z = { y with covered := z.covered, state := max 1 y.state } ∧
          ∀ j, smGet false z.covered j =
            (decide (off / 64 ≤ j ∧ j < off / 64 + b.length / 64) || smGet false y.covered j)))) := by
  subst hy
  rw [State.sampleTile, slot]
  dsimp only
  refine ⟨fun ended => if_pos (by simpa using ended), fun open_ => ?_⟩
  rw [if_neg (by simpa using open_)]
  refine ⟨fun bad => if_pos (by simpa using bad), fun aligned fits c u wrote => ?_⟩
  rw [if_neg (by simp [aligned, fits]), wrote]
  refine ⟨fun bad => ?_, fun ok => ?_⟩
  · cases c with
    | ok => contradiction
    | _ => rfl
  · subst ok
    exact ⟨_, rfl, rfl, fun j => smGet_coverUnits _ _ _ j⟩

/-! ## INDEX_END and BATCH_END -/

/-- Whether a part's end comes in its slot's order (R490). -/
def EndOutOfOrder (y : FeedSlot) (batch : Option Nat) : Prop := if batch = none then y.state ≥ 2 else y.state ≠ 2

/-- Whether a part's size does not fit (R490). -/
def State.EndMissized (s : State) (t n : Nat) (y : FeedSlot) (batch : Option Nat) : Prop :=
  n % 64 ≠ 0 ∨ (if batch = none then n > s.rdf (kFeed t 0x20) 0 25 else n < y.indexBytes ∨ n > s.slotBytes t)

theorem State.endTile_effect (s : State) (t x n crc : Nat) (batch : Option Nat) {k : Nat} (slot : s.slotFor t x = some k)
    {y : FeedSlot} (hy : y = s.slot t k) :
    (EndOutOfOrder y batch → s.endTile t x n crc batch = (s.setSlot t k { y with code := 7 }).sendStatus t) ∧
    (¬EndOutOfOrder y batch → s.EndMissized t n y batch →
      s.endTile t x n crc batch = (s.setSlot t k { y with code := 5 }).sendStatus t) ∧
    (¬EndOutOfOrder y batch → ¬s.EndMissized t n y batch →
      (∀ u, firstGap y.covered 0 (n / 64) = some u →
        s.endTile t x n crc batch = (s.setSlot t k { y with code := 1, detail := u }).sendStatus t) ∧
      (firstGap y.covered 0 (n / 64) = none → ∀ c b v, s.memRead (s.slotAddr t k) n = (c, b, v) →
        (c ≠ .ok ∨ crc32 b ≠ crc →
          s.endTile t x n crc batch = (v.setSlot t k { FeedSlot.init with code := 2 }).sendStatus t) ∧
        (c = .ok → crc32 b = crc →
          (batch = none → s.endTile t x n crc batch =
            (v.setSlot t k { y with state := 2, indexBytes := n, code := 0 }).sendStatus t) ∧
          ∀ mx, batch = some mx →
            (mx > v.rdf (wideKey 0x13020C) 0 22 → s.endTile t x n crc batch =
              (((v.bump (kFeedCount t 2) 1).raise 0x0904 1 t x).setSlot t k { FeedSlot.init with code := 3 }).sendStatus t) ∧
            (mx ≤ v.rdf (wideKey 0x13020C) 0 22 → s.endTile t x n crc batch =
              (v.setSlot t k { y with state := 3, bytes := n, code := 0 }).sendStatus t)))) := by
  subst hy
  have order : (if batch.isSome = true then decide ((s.slot t k).state ≠ 2) else decide ((s.slot t k).state ≥ 2)) = true ↔
      EndOutOfOrder (s.slot t k) batch := by
    cases batch <;> simp [EndOutOfOrder]
  have size : (decide (n % 64 ≠ 0) || (if batch.isSome = true then
      decide (n < (s.slot t k).indexBytes) || decide (n > s.slotBytes t) else decide (n > s.rdf (kFeed t 0x20) 0 25))) = true ↔
      s.EndMissized t n (s.slot t k) batch := by
    cases batch <;> simp [State.EndMissized]
  rw [State.endTile, slot]
  refine ⟨fun late => if_pos (order.2 late), fun due bad => (if_neg (mt order.1 due)).trans (if_pos (size.2 bad)),
    fun due good => ?_⟩
  dsimp only
  rw [if_neg (mt order.1 due), if_neg (mt size.1 good)]
  refine ⟨fun u gap => by rw [gap]; rfl, fun whole c b v read => ?_⟩
  rw [whole]
  dsimp only
  rw [read]
  dsimp only
  refine ⟨fun bad => if_pos (by simpa using bad), fun ok crc => ⟨fun index => ?_, fun mx part => ⟨fun beyond => ?_, fun fits => ?_⟩⟩⟩
  · rw [index, if_neg (by simp [ok, crc])]
  · rw [part, if_neg (by simp [ok, crc])]
    exact if_pos beyond
  · rw [part, if_neg (by simp [ok, crc])]
    exact if_neg (by omega)

/-! ## The timer, the registers and a stream without credit -/

theorem exec_feedStatusTimer (s : State) (t : TileId) : exec (.feedStatusTimer t) s = .next
    (if s.fabOn t = true ∧ s.hubOn = true ∧ ∃ k, k < s.feedSlots t ∧ (s.slot t k).state ≠ 3 then s.sendStatus t else s) :=
  congrArg Host.Outcome.next (ite_of_iff (by simp [and_assoc]) rfl rfl)

/-- The six base and size registers are in the table, each with the width of its field (R497). -/
theorem feedRegister_row : ∀ r : Fin 6,
    let e := [(0x130400, 44), (0x130408, 25), (0x13040C, 4), (0x130410, 44), (0x130418, 44), (0x130420, 25)].getD r.val (0, 0)
    [0x130400, 0x130408, 0x13040C, 0x130410, 0x130418, 0x130420].getD r.val 0 = e.1 ∧
      ∃ row, findRow tileRows e.1 = some row ∧ row.rw < 2 ^ e.2 := by
  have found : ∀ r : Fin 6,
      let e := [(0x130400, 44), (0x130408, 25), (0x13040C, 4), (0x130410, 44), (0x130418, 44), (0x130420, 25)].getD r.val (0, 0)
      [0x130400, 0x130408, 0x13040C, 0x130410, 0x130418, 0x130420].getD r.val 0 = e.1 ∧
        (findRow tileRows e.1).any (fun row => decide (row.rw < 2 ^ e.2)) = true := by
    decide +kernel
  intro r
  obtain ⟨offset, row⟩ := found r
  obtain ⟨x, listed, fits⟩ := Option.any_eq_true _ _ |>.1 row
  exact ⟨offset, x, listed, of_decide_eq_true fits⟩

theorem State.feedRegWrite_effect (s : State) (t o v mask : Nat) :
    (s.seq.mode ≠ .idle ∨ o = 0x13040C ∧ (Nat.land v mask = 1 ∨ Nat.land v mask ≥ 9) → (s.feedRegWrite t o v mask).2 = s) ∧
    (s.seq.mode = .idle → ¬(o = 0x13040C ∧ (Nat.land v mask = 1 ∨ Nat.land v mask ≥ 9)) →
      ∀ u, u = s.wr (tileBase t + o) (Nat.land v mask) →
        (s.feedRegWrite t o v mask).2 = (u.setFeedT t { u.feedT t with slots := [] }).sendStatus t) := by
  have refused : (decide (o = 0x13040C) && (decide (Nat.land v mask = 1) || decide (Nat.land v mask ≥ 9))) = true ↔
      o = 0x13040C ∧ (Nat.land v mask = 1 ∨ Nat.land v mask ≥ 9) := by
    simp only [Bool.and_eq_true, Bool.or_eq_true, decide_eq_true_eq]
  rw [State.feedRegWrite, State.isIdle]
  refine ⟨fun stays => ?_, fun idle good u hu => ?_⟩
  · dsimp only
    split
    · rfl
    next good =>
      rw [if_pos]
      simpa using stays.resolve_right (mt refused.2 good)
  · subst hu
    dsimp only
    rw [if_neg (mt refused.1 good), if_neg (by simp [idle])]

theorem exec_feedRegisterWrite (s : State) (t : TileId) (r : Fin 6) (v : W64) {o w : Nat}
    (h : (o, w) = [(0x130400, 44), (0x130408, 25), (0x13040C, 4), (0x130410, 44), (0x130418, 44), (0x130420, 25)].getD r.val
      (0, 0)) :
    ∃ row, findRow tileRows o = some row ∧ row.rw < 2 ^ w ∧ ∀ x, x = Nat.land v.toNat row.rw →
      (s.fabOn t = false ∨ s.seq.mode ≠ .idle ∨ o = 0x13040C ∧ (x = 1 ∨ x ≥ 9) →
        exec (.feedRegisterWrite t r v) s = .next s) ∧
      (s.fabOn t = true → s.seq.mode = .idle → ¬(o = 0x13040C ∧ (x = 1 ∨ x ≥ 9)) →
        ∀ u, u = s.wr (tileBase t + o) x → exec (.feedRegisterWrite t r v) s = .next
          ((u.setFeedT t { u.feedT t with slots := [] }).sendStatus t)) := by
  obtain ⟨place, row, found, width⟩ := feedRegister_row r
  rw [← h] at place found width
  refine ⟨row, found, width, fun x hx => ?_⟩
  subst hx
  obtain ⟨stays, acts⟩ := s.feedRegWrite_effect t o v.toNat row.rw
  simp only [exec, execFeedRegisterWrite, place, found]
  refine ⟨fun h => ?_, fun on idle good u hu => ?_⟩
  · cases on : s.fabOn t
    · rfl
    · exact congrArg Host.Outcome.next (stays (h.resolve_left (by simp [on])))
  · rw [if_pos on, acts idle good u hu]

theorem exec_exportCreditTimeout (s : State) (tag : W32) :
    ((∃ e ∈ s.feed.exports, e.entry.tag = tag.toNat ∧ e.ended = none) →
      exec (.exportCreditTimeout tag) s = .next
        (({ s with feed := { s.feed with exports := s.feed.exports.filter fun e => e.entry.tag ≠ tag.toNat } } :
          State).pendingEnds stNotReady [])) ∧
    ((∀ e ∈ s.feed.exports, e.entry.tag = tag.toNat → e.ended ≠ none) → exec (.exportCreditTimeout tag) s = .next s) := by
  refine ⟨fun waits => congrArg Host.Outcome.next (if_pos ?_), fun done => congrArg Host.Outcome.next (if_neg ?_)⟩
  · simpa using waits
  · simpa [Option.ne_none_iff_isSome] using done

/-- Settles O44. -/
theorem feedSlots : Obligations.FeedSlots :=
  ⟨fun s t x off b => ⟨s.slotFor_eq t x, fun out => by rw [State.sampleTile, out],
      fun _ slot _ hy => s.sampleTile_effect t x off b slot hy⟩,
    fun s t x n crc batch => ⟨fun out => by rw [State.endTile, out], fun _ slot _ hy => s.endTile_effect t x n crc batch slot hy⟩,
    fun s => ⟨exec_feedStatusTimer s, fun t r v _ _ h => exec_feedRegisterWrite s t r v h, exec_exportCreditTimeout s⟩⟩

end Sys2Proof.Machine
end

section
/-! PROOFS of the step fence family: barriers, orders and layout fences (R56 to R58, R66, R434, R445 to R448). -/

namespace Sys2Proof.Machine
open Sys2Proof

/-! ## Events and samples touch registers and the recorder alone -/

theorem State.raise_shape (s : State) (code cls inst arg : Nat) :
    ∃ c e, s.raise code cls inst arg = { s with csr := c, erec := e } := by
  unfold State.raise
  split <;> exact ⟨_, _, rfl⟩

theorem State.raise_regs (s : State) (code cls inst arg : Nat) :
    RegsExcept [kRecDropped, kRecSticky] s (s.raise code cls inst arg) := by
  unfold State.raise
  split
  · exact (((RegsExcept.refl _ s).bump (by simp) 1).orBits (by simp) 1).of_csr rfl
  · exact RegsExcept.of_csr (.refl _ s) rfl

theorem State.raise_mem (s : State) (code cls inst arg : Nat) : (s.raise code cls inst arg).mem = s.mem := by
  obtain ⟨c, e, eq⟩ := s.raise_shape code cls inst arg
  rw [eq]

theorem State.raise_cores (s : State) (code cls inst arg : Nat) : (s.raise code cls inst arg).cores = s.cores := by
  obtain ⟨c, e, eq⟩ := s.raise_shape code cls inst arg
  rw [eq]

theorem State.raise_lay (s : State) (code cls inst arg : Nat) : (s.raise code cls inst arg).lay = s.lay := by
  obtain ⟨c, e, eq⟩ := s.raise_shape code cls inst arg
  rw [eq]

/-- A state that differs in its registers alone. -/
def OnlyRegs (s t : State) : Prop := ∃ c, t = { s with csr := c }

theorem OnlyRegs.refl (s : State) : OnlyRegs s s := ⟨s.csr, rfl⟩

theorem OnlyRegs.wr {s t : State} (h : OnlyRegs s t) (k v : Nat) : OnlyRegs s (t.wr k v) := by
  obtain ⟨c, rfl⟩ := h
  exact ⟨_, rfl⟩

theorem OnlyRegs.wrf {s t : State} (h : OnlyRegs s t) (k lo w x : Nat) : OnlyRegs s (t.wrf k lo w x) := h.wr k _

theorem OnlyRegs.orBits {s t : State} (h : OnlyRegs s t) (k m : Nat) : OnlyRegs s (t.orBits k m) := h.wr k _

theorem OnlyRegs.bump {s t : State} (h : OnlyRegs s t) (k n : Nat) : OnlyRegs s (t.bump k n) := h.wr k _

theorem OnlyRegs.bumpW {s t : State} (h : OnlyRegs s t) (w k n : Nat) : OnlyRegs s (t.bumpW w k n) := h.wr k _

theorem State.sample_onlyRegs (s : State) (src inst v : Nat) : OnlyRegs s (s.sample src inst v) := by
  refine List.foldlRecOn (motive := fun t : State => OnlyRegs s t) _ _ (.refl s) fun t h n _ => ?_
  split
  · exact (((h.bump _ _).wr _ _).wr _ _).bumpW _ _ _
  · exact h

/-! ## Barrier messages -/

/-- The messages kept of a phase agree with this module (R58). -/
def State.CameAgree (s : State) (ph : Nat) : Prop :=
  ∀ m ∈ s.seq.came, m.phase = ph → m.step = s.step ∧ m.gen = s.gen ∧ m.dirGen = s.dirGen

theorem State.cameOf_differs {s : State} {ph : Nat} : (s.cameOf ph).any s.differs = true ↔ ¬s.CameAgree ph := by
  simp only [State.cameOf, State.CameAgree, List.any_filter, List.any_eq_true, State.differs, Bool.and_eq_true, Bool.or_eq_true,
    decide_eq_true_eq]
  grind

/-- A message that a phase under judgement keeps (R56, R58). -/
theorem State.judgeDue_effect {s : State} (ph : Nat) :
    (s.judgedPhase ≠ some ph → s.judgeDue ph = s) ∧
    (s.judgedPhase = some ph → (s.CameAgree ph → s.judgeDue ph = s) ∧
      (¬s.CameAgree ph → s.judgeDue ph = (s.noteCause .stepMismatch).endStep .stepMismatch true)) := by
  rw [State.judgeDue]
  refine ⟨fun other => if_neg other, fun due => ?_⟩
  rw [if_pos due, State.judgeCame]
  refine ⟨fun agree => if_neg fun h => cameOf_differs.1 h agree, fun disagree => ?_⟩
  have running : s.isIdle = false ∧ s.quiet = false := by
    unfold State.judgedPhase at due
    unfold State.isIdle State.quiet
    split at due
    next starting => simp [starting]
    next =>
      split at due
      next fence =>
        obtain ⟨mode, -⟩ := Bool.and_eq_true_iff.1 fence
        simp [of_decide_eq_true mode]
      next => cases due
  rw [if_pos (cameOf_differs.2 disagree), State.faultAtOnce, running.1, running.2]
  rfl

theorem exec_fenceMessage {s : State} {ph : Fin 3} {node : BitVec 20} (on : s.hubOn = true) (other : node.toNat ≠ s.reportNode)
    (inside : nodeIn s.judgeLen node.toNat = true) (step gen dir dig : Nat) :
    exec (.fenceMessage ph node step gen dir dig) s = .next (({ s with seq := { s.seq with
      came := (s.seq.came.filter fun m => !(m.phase = ph.val && m.node = node.toNat)) ++
        [⟨ph.val, node.toNat, step, gen, dir, dig⟩] } } : State).judgeDue ph.val) :=
  congrArg Host.Outcome.next (if_neg (by simp [on, other, inside]))

/-! ## Barriers and orders -/

theorem exec_startBarrierComplete {s : State} (on : s.hubOn = true) (mode : s.seq.mode = .starting) (all : s.allCame 0 = true) :
    exec .startBarrierComplete s = .next { s with seq := { s.seq with
      mode := .waitFeed, came := s.seq.came.filter (fun m => !decide (m.phase = 0)), barrierAt := s.time } } :=
  congrArg Host.Outcome.next (if_pos (by simp [on, mode, all]))

theorem exec_fenceBegin {s : State} (mode : s.seq.mode = .running) (ready : s.fenceReady = true) :
    exec .fenceBegin s = .next (({ s.eachTile (fun s t => s.sealSegment t) with
      seq := { (s.eachTile fun s t => s.sealSegment t).seq with mode := .fence, fenceOrder := 2 } } : State).barrierOut
        1 |>.judgeCame 1) :=
  congrArg Host.Outcome.next (if_pos (by simp [mode, ready]))

theorem exec_arrivalBarrierComplete {s : State} (on : s.hubOn = true) (mode : s.seq.mode = .fence)
    (order : s.seq.fenceOrder = 2) (all : s.allCame 1 = true) :
    (s.exchanges = false → exec .arrivalBarrierComplete s = .next s.order3) ∧
    (s.exchanges = true → exec .arrivalBarrierComplete s = .next
      (((s.emit (.changeList s.changes.1 s.changes.2)).addList s.rank s.changes.1 s.changes.2).listsDue)) := by
  have due : (s.hubOn && decide (s.seq.mode = .fence) && decide (s.seq.fenceOrder = 2) && s.allCame 1) = true := by
    simp [on, mode, order, all]
  simp only [exec, execArrivalBarrierComplete, due, if_true]
  exact ⟨fun alone => by rw [alone]; rfl, fun lists => by rw [lists]; rfl⟩

theorem exec_changeList {s : State} {rank : Nat} (on : s.hubOn = true) (steps : s.quiet = false) (member : rank < s.modules)
    (other : rank ≠ s.rank) (dem prom : List (Nat × Nat)) {u : State} (hu : u = s.addList rank dem prom) :
    (u.seq.mode = .fence ∧ u.seq.fenceOrder = 3 ∧ u.embm.lists.length ≥ u.modules →
      exec (.changeList rank dem prom) s = .next u.order3) ∧
    (¬(u.seq.mode = .fence ∧ u.seq.fenceOrder = 3 ∧ u.embm.lists.length ≥ u.modules) →
      exec (.changeList rank dem prom) s = .next u) := by
  subst hu
  have due : (!s.hubOn || s.quiet || decide (rank ≥ s.modules) || decide (rank = s.rank)) = false := by
    simp [on, steps, member, other]
  simp only [exec, execChangeList, due, Bool.false_eq_true, if_false]
  exact ⟨fun all => congrArg _ (if_pos (by simpa [and_assoc] using all)),
    fun some => congrArg _ (if_neg (by simpa [and_assoc] using some))⟩

/-! ## Order 9: the completion barrier -/

/-- Each tile put in its first phase. -/
theorem State.eachTile_phase (s : State) : let u := s.eachTile fun s t => s.setTile t { s.tile t with phase := 0 }
    (∀ k, k < 4 → (u.tile k).phase = 0) ∧ u.seq = s.seq ∧ u.cores = s.cores ∧ u.csr = s.csr ∧ u.mem = s.mem := by
  intro u
  refine ⟨fun k hk => ?_, rfl, rfl, rfl, rfl⟩
  simp only [u, State.eachTile, State.tile, State.setTile, smGet_smSet]
  obtain rfl | rfl | rfl | rfl : k = 0 ∨ k = 1 ∨ k = 2 ∨ k = 3 := by omega
  all_goals rfl

/-- The state in which every module's step has completed (R57). -/
def State.stepDone (s : State) (h : Bool) : State :=
  let t := { s with seq := { s.seq with
    mode := if h then .idle else .waitFeed, haltPending := s.seq.haltPending && !h, fenceOrder := 0, decision := none,
    reduceIssued := false, came := s.seq.came.filter (·.phase = 0), barrierAt := s.time } }
  t.eachTile fun s t => s.setTile t { s.tile t with phase := 0 }

theorem exec_completionBarrierComplete {s : State} (on : s.hubOn = true) (mode : s.seq.mode = .fence)
    (order : s.seq.fenceOrder = 8) (all : s.allCame 2 = true) (none : s.seq.deferred = []) :
    exec .completionBarrierComplete s = .next ((s.sample 5 0 (s.time - s.seq.barrierAt)).stepDone s.halts) := by
  have due : (s.hubOn && decide (s.seq.mode = .fence) && decide (s.seq.fenceOrder = 8) && s.allCame 2) = true := by
    simp [on, mode, order, all]
  obtain ⟨c, eq⟩ := s.sample_onlyRegs 5 0 (s.time - s.seq.barrierAt)
  have deferred : ((s.sample 5 0 (s.time - s.seq.barrierAt)).stepDone s.halts).seq.deferred = [] := by
    rw [eq]
    exact none
  exact (congrArg Host.Outcome.next (if_pos due)).trans (congrArg _ (State.lateDeferred_of_none deferred))

/-! ## Orders 7 and 8 -/

theorem order8_keys : kSeqStep ≠ kSeqStepsLeft ∧ kSeqStep ≠ wideKey 0x110008 ∧ kSeqStep ≠ kSkipCount ∧
    kSeqStepsLeft ≠ wideKey 0x110008 ∧ kSeqStepsLeft ≠ kSkipCount ∧ wideKey 0x110008 ≠ kSkipCount := by
  decide

theorem State.rd_bumpW_same {w : Nat} (h : w ≤ 64) (s : State) (k n : Nat) :
    (s.bumpW w k n).rd k = min (s.rd k + n) (2 ^ w - 1) := by
  have small : 2 ^ w ≤ 2 ^ 64 := Nat.pow_le_pow_right (by decide) h
  have pos : 0 < 2 ^ w := Nat.two_pow_pos w
  exact State.rd_wr_of_lt (by unfold satAdd; omega) s k

theorem State.rd_bumpW_ne {k j : Nat} (h : k ≠ j) (s : State) (w n : Nat) : (s.bumpW w k n).rd j = s.rd j :=
  State.rd_wr_ne h s _

/-- The counter of applied or of skipped updates (R57). -/
def State.countUpdate (s : State) : State :=
  { (if s.decided.apply then s.bumpW 48 (wideKey 0x110008) 1 else s.bumpW 32 kSkipCount 1) with
    seq := { s.seq with lastSkipped := !s.decided.apply } }

/-- SEQ_STEPS_LEFT counts down but where it stands for no end (R60). -/
def State.countLeft (s : State) : State :=
  if s.rd kSeqStepsLeft = 2 ^ 48 - 1 then s else s.wr kSeqStepsLeft (s.rd kSeqStepsLeft - 1)

theorem State.order8_eq (s : State) : s.order8 =
    s.countUpdate.countLeft.wr kSeqStep ((s.countUpdate.countLeft.step + 1) % 2 ^ 48) := by
  unfold State.order8 State.countUpdate State.countLeft
  generalize wideKey 0x110008 = k, kSkipCount = k', kSeqStepsLeft = k''
  dsimp only
  split <;> rfl

theorem State.countUpdate_effect (s : State) : let t := s.countUpdate
    RegsExcept [wideKey 0x110008, kSkipCount] s t ∧ t.mem = s.mem ∧ t.out = s.out ∧
    t.seq.lastSkipped = !s.decided.apply ∧
    t.rd (wideKey 0x110008) = (if s.decided.apply then min (s.rd (wideKey 0x110008) + 1) (2 ^ 48 - 1)
      else s.rd (wideKey 0x110008)) ∧
    t.rd kSkipCount = (if s.decided.apply then s.rd kSkipCount else min (s.rd kSkipCount + 1) (2 ^ 32 - 1)) := by
  obtain ⟨-, -, -, -, -, apart⟩ := order8_keys
  unfold State.countUpdate
  generalize wideKey 0x110008 = k at apart ⊢
  generalize kSkipCount = k' at apart ⊢
  cases s.decided.apply
  · exact ⟨((RegsExcept.refl [k, k'] s).wr (by simp) _).of_csr rfl, rfl, rfl, rfl, State.rd_bumpW_ne apart.symm s 32 1,
      State.rd_bumpW_same (by decide) s k' 1⟩
  · exact ⟨((RegsExcept.refl [k, k'] s).wr (by simp) _).of_csr rfl, rfl, rfl, rfl, State.rd_bumpW_same (by decide) s k 1,
      State.rd_bumpW_ne apart s 48 1⟩

theorem State.countLeft_effect (s : State) : RegsExcept [kSeqStepsLeft] s s.countLeft ∧
    s.countLeft = { s with csr := s.countLeft.csr } ∧ s.countLeft.rd kSeqStepsLeft =
      (if s.rd kSeqStepsLeft = 2 ^ 48 - 1 then 2 ^ 48 - 1 else s.rd kSeqStepsLeft - 1) := by
  unfold State.countLeft
  generalize kSeqStepsLeft = k
  split
  next all => exact ⟨.refl _ s, rfl, all⟩
  next => exact ⟨(RegsExcept.refl _ s).wr (by simp) _, rfl, State.rd_wr_of_lt (by have := s.rd_lt k; omega) s k⟩

/-- The counters of order 8 (R57, R66). -/
theorem State.order8_effect (s : State) : let t := s.order8
    t.rd kSeqStep = (s.step + 1) % 2 ^ 48 ∧
    (s.rd kSeqStepsLeft = 2 ^ 48 - 1 → t.rd kSeqStepsLeft = 2 ^ 48 - 1) ∧
    (s.rd kSeqStepsLeft ≠ 2 ^ 48 - 1 → t.rd kSeqStepsLeft = s.rd kSeqStepsLeft - 1) ∧
    (s.decided.apply = true → t.rd (wideKey 0x110008) = min (s.rd (wideKey 0x110008) + 1) (2 ^ 48 - 1) ∧
      t.seq.lastSkipped = false ∧ t.rd kSkipCount = s.rd kSkipCount) ∧
    (s.decided.apply = false → t.rd kSkipCount = min (s.rd kSkipCount + 1) (2 ^ 32 - 1) ∧
      t.seq.lastSkipped = true ∧ t.rd (wideKey 0x110008) = s.rd (wideKey 0x110008)) ∧
    RegsExcept [kSeqStep, kSeqStepsLeft, wideKey 0x110008, kSkipCount] s t ∧ SameBytes s t ∧ t.out = s.out := by
  obtain ⟨stepLeft, stepApplied, stepSkips, leftApplied, leftSkips, -⟩ := order8_keys
  obtain ⟨regs, mem, out, skipped, applied, skips⟩ := s.countUpdate_effect
  obtain ⟨regs', shape, left⟩ := s.countUpdate.countLeft_effect
  have stepSame : s.countUpdate.countLeft.step = s.step := by
    rw [State.step, State.rdf, regs' _ (by simpa using stepLeft), regs _ (by simp [stepApplied, stepSkips])]
    rfl
  have leftSame : s.countUpdate.rd kSeqStepsLeft = s.rd kSeqStepsLeft := regs _ (by simp [leftApplied, leftSkips])
  rw [leftSame] at left
  have mem' : s.countUpdate.countLeft.mem = s.mem := by rw [shape]; exact mem
  have out' : s.countUpdate.countLeft.out = s.out := by rw [shape]; exact out
  have skipped' : s.countUpdate.countLeft.seq.lastSkipped = !s.decided.apply := by rw [shape]; exact skipped
  have applied' := (regs' (wideKey 0x110008) (by simpa using leftApplied.symm)).trans applied
  have skips' := (regs' kSkipCount (by simpa using leftSkips.symm)).trans skips
  have regs2 := (regs.mono (ls := [kSeqStep, kSeqStepsLeft, wideKey 0x110008, kSkipCount]) (by simp)).trans
    (regs'.mono (by simp))
  rw [s.order8_eq, stepSame]
  generalize s.countUpdate.countLeft = t at *
  dsimp only
  rw [State.rd_wr_of_lt (by omega), State.rd_wr_ne stepLeft, State.rd_wr_ne stepApplied, State.rd_wr_ne stepSkips, left,
    applied', skips']
  refine ⟨rfl, fun all => if_pos all, fun some => if_neg some, fun yes => ⟨if_pos yes, ?_, if_pos yes⟩,
    fun no => ⟨if_neg (by simp [no]), ?_, if_neg (by simp [no])⟩, regs2.wr (by simp) _, SameBytes.of_mem mem', out'⟩
  · rw [State.wr_seq, skipped', yes]
    rfl
  · rw [State.wr_seq, skipped', no]
    rfl

/-- Settles O45. -/
theorem stepBarriers : Obligations.StepBarriers := by
  refine ⟨fun s ph node step gen dir dig on other inside u hu => ?_, fun s => ⟨exec_startBarrierComplete, exec_fenceBegin,
    exec_arrivalBarrierComplete, fun rank dem prom on steps member different u hu =>
      exec_changeList on steps member different dem prom hu, fun on mode order all idle o ho => ?_⟩, State.order8_effect⟩
  · rw [exec_fenceMessage on other inside, ← hu]
    obtain ⟨kept, judged⟩ := State.judgeDue_effect (s := u) ph.val
    have same : u.judgedPhase = s.judgedPhase := by rw [hu]; rfl
    have agree : u.CameAgree ph.val ↔
        ∀ m ∈ u.seq.came, m.phase = ph.val → m.step = s.step ∧ m.gen = s.gen ∧ m.dirGen = s.dirGen := by rw [hu]; rfl
    rw [same] at kept judged
    exact ⟨fun h => by rw [kept h], fun h => ⟨fun a => by rw [(judged h).1 (agree.2 a)],
      fun a => by rw [(judged h).2 (mt agree.1 a)]⟩⟩
  · subst ho
    rw [exec_completionBarrierComplete on mode order all idle]
    generalize s.sample 5 0 (s.time - s.seq.barrierAt) = o
    obtain ⟨phases, seq, cores, csr, mem⟩ := State.eachTile_phase { o with seq := { o.seq with
      mode := if s.halts then .idle else .waitFeed, haltPending := o.seq.haltPending && !s.halts, fenceOrder := 0,
      decision := none, reduceIssued := false, came := o.seq.came.filter (·.phase = 0), barrierAt := o.time } }
    refine ⟨_, rfl, ?_, ?_, ?_, ?_, ?_, phases, cores, (RegsExcept.refl [] o).of_csr csr, SameBytes.of_mem mem⟩ <;>
      exact (congrArg _ seq :)

end Sys2Proof.Machine
end

section
/-! PROOFS of the layout family: the barriers of a layout fence, the orders of a commit, and the rebuild of a replaced
module (R434, R445 to R448, R460). -/

namespace Sys2Proof.Machine
open Sys2Proof

/-! ## The barriers of a layout fence -/

theorem State.cameOf_all {s : State} {ph d : Nat} : ((s.cameOf ph).all fun m => m.digest = d) = true ↔
    ∀ m ∈ s.seq.came, m.phase = ph → m.digest = d := by
  simp only [State.cameOf, List.all_filter, List.all_eq_true, Bool.or_eq_true, Bool.not_eq_true', decide_eq_true_eq,
    decide_eq_false_iff_not]
  grind

theorem exec_layoutArrivalBarrier {s : State} {q : Bool} {b : List Byte} (late : Bool) (on : s.hubOn = true)
    (change : s.lay.change = some (q, b)) (fence : bit (s.rd kLayoutStatus) 17 = true)
    (built : bit (s.rd kLayoutStatus) 18 = false) :
    (s.lay.waiting = true → exec (.layoutArrivalBarrier late) s = .next s) ∧
    (s.lay.waiting = false →
      (s.allCame 1 = true → (∀ m ∈ s.seq.came, m.phase = 1 → m.digest = changeDigest b) →
        exec (.layoutArrivalBarrier late) s = .next (s.commitBegin b)) ∧
      (s.allCame 1 = true → (∃ m ∈ s.seq.came, m.phase = 1 ∧ m.digest ≠ changeDigest b) →
        exec (.layoutArrivalBarrier late) s = .next (s.layFenceEnd q stNotReady)) ∧
      (s.allCame 1 = false → late = true → exec (.layoutArrivalBarrier late) s = .next (s.layFenceEnd q stNotReady)) ∧
      (s.allCame 1 = false → late = false → exec (.layoutArrivalBarrier late) s = .next s)) := by
  have held : (!s.hubOn || !bit (s.rd kLayoutStatus) 17 || bit (s.rd kLayoutStatus) 18 || s.lay.waiting) = s.lay.waiting := by
    simp [on, fence, built]
  simp only [exec, execLayoutArrivalBarrier, change, held]
  refine ⟨fun waits => congrArg _ (if_pos waits), fun goes => ?_⟩
  rw [if_neg (by simp [goes])]
  refine ⟨fun all same => ?_, fun all differs => ?_, fun some late => ?_, fun some soon => ?_⟩
  · rw [if_pos all, if_pos (State.cameOf_all.2 same)]
  · obtain ⟨m, hm, phase, ne⟩ := differs
    rw [if_pos all, if_neg fun h => ne (State.cameOf_all.1 h m hm phase)]
  · rw [if_neg (by simp [some]), if_pos late]
  · rw [if_neg (by simp [some]), if_neg (by simp [soon])]

theorem exec_layoutCompletionBarrier {s : State} (w : LayWait) (on : s.hubOn = true) (done : s.lay.change = none)
    (fence : bit (s.rd kLayoutStatus) 17 = true) :
    (s.allCame 2 = true → exec (.layoutCompletionBarrier w) s = .next (s.layFenceEnd (s.pendIs 0x0602) stOk)) ∧
    (s.allCame 2 = false → w = .late false →
      exec (.layoutCompletionBarrier w) s = .next (s.layFenceEnd (s.pendIs 0x0602) stNotReady)) ∧
    (s.allCame 2 = false → w ≠ .late false → exec (.layoutCompletionBarrier w) s = .next s) := by
  have due : (!s.hubOn || !bit (s.rd kLayoutStatus) 17 || s.lay.change.isSome) = false := by simp [on, done, fence]
  simp only [exec, execLayoutCompletionBarrier, due, Bool.false_eq_true, if_false]
  exact ⟨fun all => congrArg _ (if_pos all), fun some late => congrArg _ ((if_neg (by simp [some])).trans (if_pos late)),
    fun some soon => congrArg _ ((if_neg (by simp [some])).trans (if_neg soon))⟩

/-! ## Order 4 -/

theorem State.order4_of_change {s : State} {q : Bool} {b : List Byte} (change : s.lay.change = some (q, b)) :
    (s.ownDigest ≠ 0 → (∀ m ∈ s.seq.came, m.phase = 1 → m.digest = s.ownDigest) →
      s.order4 = (s.wrf kLayoutStatus 19 1 0).commitBegin b) ∧
    ((∃ m ∈ s.seq.came, m.phase = 1 ∧ m.digest ≠ s.ownDigest) →
      s.order4 = ((s.wrf kLayoutStatus 19 1 1).raise 0x0804 0 0 s.step).orders5to8) := by
  rw [State.order4, change]
  dsimp only
  refine ⟨fun own same => if_pos ?_, fun ⟨m, hm, phase, ne⟩ => if_neg fun h => ?_⟩
  · rw [State.sameChange, State.cameOf_all.2 same, decide_eq_true own]
    rfl
  · rw [State.sameChange, Bool.and_eq_true] at h
    exact ne (State.cameOf_all.1 h.2 m hm phase)

theorem State.order4_of_none {s : State} (none : s.lay.change = none) :
    ((∃ m ∈ s.seq.came, m.phase = 1 ∧ m.digest ≠ 0) →
      s.order4 = ((s.wrf kLayoutStatus 19 1 1).raise 0x0804 0 0 s.step).orders5to8) ∧
    ((∀ m ∈ s.seq.came, m.phase = 1 → m.digest = 0) → s.order4 = (s.wrf kLayoutStatus 19 1 0).orders5to8) := by
  rw [State.order4, none]
  refine ⟨fun ⟨m, hm, phase, ne⟩ => if_pos ?_, fun zero => if_neg ?_⟩
  · exact List.any_eq_true.2 ⟨m, List.mem_filter.2 ⟨hm, by simpa using phase⟩, by simpa using ne⟩
  · simpa [State.cameOf] using zero

theorem State.commitGo_effect (s : State) (b : List Byte) :
    (s.holdsOld = true → s.commitGo b =
      if s.inLayFence then s.setWaiting true else (s.setWaiting true).setOrder 4) ∧
    (s.holdsOld = false → ∀ u, u = (s.setWaiting false).commitOrder3 b →
      (bit (u.rd kLayoutStatus) 18 = true → s.commitGo b = if u.inLayFence then u else u.setOrder 4) ∧
      (bit (u.rd kLayoutStatus) 18 = false → s.commitGo b = u.commitRest b)) := by
  rw [State.commitGo]
  refine ⟨fun old => if_pos old, fun fresh u hu => ?_⟩
  subst hu
  rw [if_neg (by simp [fresh])]
  exact ⟨fun built => if_pos built, fun plain => if_neg (by simp [plain])⟩

theorem State.commitOn_of_waiting {s : State} {q : Bool} {b : List Byte} (change : s.lay.change = some (q, b))
    (waits : s.lay.waiting = true) (fence : s.inLayFence = true ∨ s.seq.mode = .fence ∧ s.seq.fenceOrder = 4) :
    s.commitOn = s.commitGo b := by
  rw [State.commitOn, change]
  exact if_pos (by simpa [waits] using fence)

/-! ## The rebuild of a replaced module -/

theorem exec_rebuildEnd {s : State} {base gbase : Nat} {r : List (Nat × Nat)} {l : List (Nat × Recon)} :
    (s.hubOn = true → bit (s.rd kLayoutStatus) 18 = true → ∀ q b, s.lay.change = some (q, b) →
      ∀ n v, s.storeRebuilt l = (n, v) →
      ∀ u, u = (v.bump (wideKey 0x130248) n).parityInstall (lyModules b) (lyRank b) base gbase r →
      (u.inLayFence = true → exec (.rebuildEnd base gbase r l) s = .next (u.layCommitted b)) ∧
      (u.inLayFence = false →
        exec (.rebuildEnd base gbase r l) s = .next (u.commitEnd b).reshardDone.switchSlot.orders5to8)) ∧
    (s.hubOn = false ∨ bit (s.rd kLayoutStatus) 18 = false ∨ s.lay.change = none →
      exec (.rebuildEnd base gbase r l) s = .next s) := by
  refine ⟨fun on built q b change n v stored u hu => ?_, fun idle => ?_⟩
  · have due : (!s.hubOn || !bit (s.rd kLayoutStatus) 18) = false := by simp [on, built]
    simp only [exec, execRebuildEnd, due, change, stored, Bool.false_eq_true, if_false, ← hu]
    exact ⟨fun fence => congrArg _ (if_pos fence), fun step => congrArg _ (if_neg (by simp [step]))⟩
  · simp only [exec, execRebuildEnd]
    split
    · rfl
    next due =>
      have none : s.lay.change = none := by
        rcases idle with h | h | h
        · simp [h] at due
        · simp [h] at due
        · exact h
      rw [none]

theorem State.markUnit_ue (s : State) (a : Nat) : (s.markUnit a).ue = ueSet s.ue a 4096 true := by rw [State.markUnit]

theorem State.markUnit_csr (s : State) (a : Nat) : (s.markUnit a).csr = s.csr := by rw [State.markUnit]

theorem State.markUnit_mem (s : State) (a : Nat) : (s.markUnit a).mem = s.mem := by rw [State.markUnit]

theorem State.rd_markUnit (s : State) (a k : Nat) : (s.markUnit a).rd k = s.rd k := by
  rw [State.rd, State.markUnit_csr, State.rd]

theorem State.rebuildUnit_lost (s : State) (a : Nat) {r : Recon} {t : State} (lost : r = .doubleLoss ∨ r = .stripeTorn)
    (ht : t = (s.rebuildUnit a r).2) :
    (s.rebuildUnit a r).1 = 0 ∧ t.ue = ueSet s.ue a 4096 true ∧
    t.rd (wideKey 0x130214) = Nat.lor (s.rd (wideKey 0x130214)) (if r = .doubleLoss then 1 else 2) ∧
    RegsExcept [wideKey 0x130214] s t ∧ SameBytes s t := by
  have marked : ∀ m < 2 ^ 64, ∀ t : State, t = (s.orBits (wideKey 0x130214) m).markUnit a → t.ue = ueSet s.ue a 4096 true ∧
      t.rd (wideKey 0x130214) = Nat.lor (s.rd (wideKey 0x130214)) m ∧ RegsExcept [wideKey 0x130214] s t ∧ SameBytes s t := by
    rintro m small t rfl
    generalize wideKey 0x130214 = k
    exact ⟨(s.orBits k m).markUnit_ue a, (State.rd_markUnit _ a k).trans (State.rd_orBits_same small s k),
      ((RegsExcept.refl [k] s).orBits (by simp) m).of_csr (State.markUnit_csr _ a),
      SameBytes.of_mem (State.markUnit_mem _ a)⟩
  rcases lost with rfl | rfl
  · rw [if_pos rfl]
    exact ⟨rfl, marked 1 (by decide) t ht⟩
  · rw [if_neg (by decide)]
    exact ⟨rfl, marked 2 (by decide) t ht⟩

/-! ## What a commit leaves -/

theorem leNat_lt (bs : List Byte) : leNat bs < 256 ^ bs.length := by
  induction bs with
  | nil => exact Nat.one_pos
  | cons b bs ih =>
    have := b.isLt
    rw [leNat, List.length_cons, Nat.pow_succ]
    omega

theorem slice_length (b : List Byte) (off n : Nat) : (slice b off n).length = n := by
  simp only [slice, List.length_append, List.length_replicate, List.length_take]
  omega

theorem leAt_lt (b : List Byte) (off n : Nat) : leAt b off n < 256 ^ n := by
  have bound := leNat_lt (slice b off n)
  rwa [slice_length] at bound

theorem State.clearHeat_shape (s : State) : ∃ e, s.clearHeat = { s with emb := e } := by
  have step : ∀ (u : State) (t : Nat), (∃ e, u = { s with emb := e }) →
      ∃ e, u.setEmbt t { u.embt t with sketch := [], cand := [], exact := [] } = { s with emb := e } := by
    rintro _ t ⟨e, rfl⟩
    exact ⟨_, rfl⟩
  exact State.eachTile_keeps step ⟨s.emb, rfl⟩

theorem State.newWindow_frame (s : State) (w : Option Nat) : (s.newWindow w).csr = s.csr ∧ (s.newWindow w).mem = s.mem ∧
    (s.newWindow w).cores = s.cores ∧ (s.newWindow w).lay = s.lay := by
  obtain ⟨e, eq⟩ := s.clearHeat_shape
  rw [State.newWindow, eq]
  exact ⟨rfl, rfl, rfl, rfl⟩

theorem State.emptyDir_frame (s : State) : RegsExcept [kDirGen] s s.emptyDir ∧ s.emptyDir.mem = s.mem ∧
    s.emptyDir.cores = s.cores ∧ s.emptyDir.lay = s.lay := by
  unfold State.emptyDir State.nextDirGen
  generalize kDirGen = k
  split
  · exact ⟨.refl _ s, rfl, rfl, rfl⟩
  · have same : RegsExcept [k] s { s with embm := { s.embm with dir := [] } } := .of_csr (.refl _ s) rfl
    exact ⟨same.wr (by simp) _, rfl, rfl, rfl⟩

/-- The directory emptied and a new window opened, before the layout changes (R447). -/
def State.commitHot (s : State) : State := (s.emptyDir).newWindow (some 0)

theorem State.commitHot_frame (s : State) : RegsExcept [kDirGen] s s.commitHot ∧ s.commitHot.mem = s.mem ∧
    s.commitHot.cores = s.cores ∧ s.commitHot.lay = s.lay := by
  obtain ⟨regs, mem, cores, lay⟩ := s.emptyDir_frame
  obtain ⟨csr', mem', cores', lay'⟩ := s.emptyDir.newWindow_frame (some 0)
  exact ⟨regs.of_csr csr', mem'.trans mem, cores'.trans cores, lay'.trans lay⟩

/-- The new layout written to its registers (R448). -/
def State.commitRegs (s : State) (b : List Byte) : State :=
  let m := s.modules
  let s := (s.wr kLayout (leAt b 0 4 + lyNode b * 2 ^ 32)).wr (wideKey 0x13020C) (lyMax b)
  let s := ((s.wrf kLayoutStatus 0 16 (lyGen b)).wrf kLayoutStatus 29 1 1).wrf kLayoutStatus 18 1 0
  if lyModules b = m || ownReplaced b then s else s.wrf kParityCtrl 0 1 0

/-- The registers of a layout, and the one of a directory generation. -/
theorem layout_keys : [kLayout, wideKey 0x13020C, kLayoutStatus, kParityCtrl].Nodup ∧
    kDirGen ∉ [kLayout, wideKey 0x13020C, kLayoutStatus, kParityCtrl] := by
  decide

theorem State.commitRegs_effect (s : State) (b : List Byte) : let t := s.commitRegs b
    t.rd kLayout = leAt b 0 4 + lyNode b * 2 ^ 32 ∧ t.rd (wideKey 0x13020C) = lyMax b ∧ t.gen = lyGen b ∧
    bit (t.rd kLayoutStatus) 18 = false ∧
    (lyModules b ≠ s.modules → ownReplaced b = false → bit (t.rd kParityCtrl) 0 = false) ∧
    RegsExcept [kLayout, wideKey 0x13020C, kLayoutStatus, kParityCtrl] s t ∧ OnlyRegs s t := by
  obtain ⟨apart, -⟩ := layout_keys
  have lens := leAt_lt b 0 4
  have node : lyNode b < 2 ^ 20 := Nat.mod_lt _ (by decide)
  have most : lyMax b < 256 ^ 4 := leAt_lt b 12 4
  have gen : lyGen b < 2 ^ 16 := leAt_lt b 8 2
  unfold State.commitRegs State.gen
  generalize s.modules = m
  generalize kLayout = k1 at apart ⊢
  generalize wideKey 0x13020C = k2 at apart ⊢
  generalize kLayoutStatus = k3 at apart ⊢
  generalize kParityCtrl = k4 at apart ⊢
  obtain ⟨k12, k13, k14, k23, k24, k34⟩ : k1 ≠ k2 ∧ k1 ≠ k3 ∧ k1 ≠ k4 ∧ k2 ≠ k3 ∧ k2 ≠ k4 ∧ k3 ≠ k4 := by
    simpa [and_assoc] using apart
  intro t
  -- the state before the parity enable is judged
  have written : ∀ u, u = ((((s.wr k1 (leAt b 0 4 + lyNode b * 2 ^ 32)).wr k2 (lyMax b)).wrf k3 0 16 (lyGen b)).wrf k3 29 1
      1).wrf k3 18 1 0 → u.rd k1 = leAt b 0 4 + lyNode b * 2 ^ 32 ∧ u.rd k2 = lyMax b ∧ u.rdf k3 0 16 = lyGen b ∧
        bit (u.rd k3) 18 = false ∧ RegsExcept [k1, k2, k3, k4] s u ∧ OnlyRegs s u := by
    rintro u rfl
    refine ⟨?_, ?_, ?_, ?_, ?_, ((((OnlyRegs.refl s).wr _ _).wr _ _).wrf _ _ _ _).wrf _ _ _ _ |>.wrf _ _ _ _⟩
    · rw [State.rd_wrf_ne k13.symm, State.rd_wrf_ne k13.symm, State.rd_wrf_ne k13.symm, State.rd_wr_ne k12.symm,
        State.rd_wr_of_lt (by omega)]
    · rw [State.rd_wrf_ne k23.symm, State.rd_wrf_ne k23.symm, State.rd_wrf_ne k23.symm, State.rd_wr_of_lt (by omega)]
    · rw [State.rdf_wrf_apart (by decide) (by decide), State.rdf_wrf_apart (by decide) (by decide),
        State.rdf_wrf_same (by decide), Nat.mod_eq_of_lt gen]
    · rw [State.rd_wrf_same (by decide), bit_setFld_same]
      rfl
    · exact ((((RegsExcept.refl _ s).wr (by simp) _).wr (by simp) _).wrf (by simp) _ _ _).wrf (by simp) _ _ _ |>.wrf
        (by simp) _ _ _
  obtain ⟨layout, most', gen', built, regs, only⟩ := written _ rfl
  by_cases keeps : (decide (lyModules b = m) || ownReplaced b) = true
  · have ht : t = _ := if_pos keeps
    rw [ht]
    refine ⟨layout, most', gen', built, fun ne own => ?_, regs, only⟩
    simp [ne, own] at keeps
  · have ht : t = _ := if_neg keeps
    rw [ht, State.rd_wrf_ne k14.symm, State.rd_wrf_ne k24.symm, State.rdf, State.rd_wrf_ne k34.symm]
    refine ⟨layout, most', gen', built, fun _ _ => ?_, regs.wrf (by simp) _ _ _, only.wrf _ _ _ _⟩
    rw [State.rd_wrf_same (by decide), bit_setFld_same]
    rfl

/-- A port that is down and not enabled stays as it is when the layout changes (R450). -/
theorem State.axisPorts_of_down {s : State} {p : Nat} (down : s.linkSt p = 0) (idle : bit (s.rd (kLnk p 0)) 0 = false)
    (old : List Nat) : s.axisPorts old p = s := by
  simp [State.axisPorts, down, idle]

theorem State.reIdent_of_down {s : State} (down : ∀ p < 8, s.linkSt p = 0) : s.reIdent = s := by
  refine foldl_eq_self fun p hp => if_neg ?_
  rw [down p (List.mem_range.1 hp)]
  decide

/-- A jump of pod time and its event. -/
theorem State.timeJump_frame (v : State) (k x code arg : Nat) : RegsExcept [k, kRecDropped, kRecSticky] v
      ((({ v with net := { v.net with slew := 0 } } : State).wr k x).raise code 0 0 arg) ∧
    (({ v with net := { v.net with slew := 0 } } : State).wr k x).mem = v.mem ∧
    (({ v with net := { v.net with slew := 0 } } : State).wr k x).cores = v.cores ∧
    (({ v with net := { v.net with slew := 0 } } : State).wr k x).lay = v.lay := by
  have written : RegsExcept [k, kRecDropped, kRecSticky] v (({ v with net := { v.net with slew := 0 } } : State).wr k x) :=
    ((RegsExcept.refl _ v).of_csr (rfl : ({ v with net := { v.net with slew := 0 } } : State).csr = v.csr)).wr (by simp) _
  exact ⟨written.trans ((State.raise_regs _ _ _ _ _).mono (by simp)), rfl, rfl, rfl⟩

theorem State.timeCommit_frame (s : State) : RegsExcept [kTimeStatus, kPodTime, kRecDropped, kRecSticky] s s.timeCommit ∧
    s.timeCommit.mem = s.mem ∧ s.timeCommit.cores = s.cores ∧ s.timeCommit.lay = s.lay := by
  unfold State.timeCommit
  generalize kTimeStatus = k, kPodTime = k', kTimeOffset = k''
  dsimp only
  generalize hu : (s.wrf k 2 1 _).wrf k 8 8 _ = u
  have regs : RegsExcept [k, k', kRecDropped, kRecSticky] s u := by
    rw [← hu]
    exact ((RegsExcept.refl _ s).wrf (by simp) _ _ _).wrf (by simp) _ _ _
  have mem : u.mem = s.mem := by rw [← hu]; rfl
  have cores : u.cores = s.cores := by rw [← hu]; rfl
  have lay : u.lay = s.lay := by rw [← hu]; rfl
  split
  next jumps =>
    obtain ⟨jregs, jmem, jcores, jlay⟩ := u.timeJump_frame k' _ 0x0307 _
    exact ⟨regs.trans (jregs.mono (by simp)), (State.raise_mem _ _ _ _ _).trans (jmem.trans mem),
      (State.raise_cores _ _ _ _ _).trans (jcores.trans cores), (State.raise_lay _ _ _ _ _).trans (jlay.trans lay)⟩
  next => exact ⟨regs, mem, cores, lay⟩

/-- The state of a commit once its moves are done and its registers written (R447, R448). -/
def State.commitSet (s : State) (b : List Byte) (skipped : Nat) : State :=
  ({ s.commitHot with lay := { s.commitHot.lay with change := none, skipped := skipped } } : State).commitRegs b

theorem State.modules_withLay (s : State) (l : LayoutState) : ({ s with lay := l } : State).modules = s.modules := (rfl)

theorem State.commitEnd_ports {r s : State} {b : List Byte} {k : Nat}
    (moved : r.moveAll (leAt b 24 8) (lyMoves b) 0 = (k, s)) : r.commitEnd b =
      (((((List.range 8).foldl (fun u p => u.axisPorts ((List.range 4).map s.commitHot.layoutLen) p)
        (s.commitSet b k)).reIdent).timeCommit.bump (wideKey 0x130250) 1).raise 0x0803 0 0
          (lyGen b + leAt b 16 2 * 2 ^ 16)) := by
  rw [State.commitEnd, moved]
  unfold State.commitSet State.commitRegs State.commitHot
  dsimp only
  rw [State.modules_withLay (s.emptyDir.newWindow (some 0)) { (s.emptyDir.newWindow (some 0)).lay with
    change := none, skipped := k }]

theorem State.commitEnd_eq {r s : State} {b : List Byte} {k : Nat} (moved : r.moveAll (leAt b 24 8) (lyMoves b) 0 = (k, s))
    (ports : ∀ p < 8, (s.commitSet b k).linkSt p = 0 ∧ bit ((s.commitSet b k).rd (kLnk p 0)) 0 = false) :
    r.commitEnd b = ((s.commitSet b k).timeCommit.bump (wideKey 0x130250) 1).raise 0x0803 0 0
      (lyGen b + leAt b 16 2 * 2 ^ 16) := by
  have same : (List.range 8).foldl (fun u p => u.axisPorts ((List.range 4).map s.commitHot.layoutLen) p) (s.commitSet b k) =
      s.commitSet b k := foldl_eq_self fun p hp =>
    State.axisPorts_of_down (ports p (List.mem_range.1 hp)).1 (ports p (List.mem_range.1 hp)).2 _
  rw [State.commitEnd_ports moved, same, State.reIdent_of_down fun p hp => (ports p hp).1]

/-- The registers that the layout of a commit writes. -/
def layoutKeys : List Nat := kDirGen :: [kLayout, wideKey 0x13020C, kLayoutStatus, kParityCtrl]

theorem State.commitSet_effect (s : State) (b : List Byte) (k : Nat) : let t := s.commitSet b k
    t.lay.change = none ∧ t.lay.skipped = k ∧ t.rd kLayout = leAt b 0 4 + lyNode b * 2 ^ 32 ∧
    t.rd (wideKey 0x13020C) = lyMax b ∧ t.gen = lyGen b ∧ bit (t.rd kLayoutStatus) 18 = false ∧
    (lyModules b ≠ s.modules → ownReplaced b = false → bit (t.rd kParityCtrl) 0 = false) ∧
    RegsExcept layoutKeys s t ∧ t.cores = s.cores ∧ SameBytes s t := by
  obtain ⟨hot, mem, cores, -⟩ := s.commitHot_frame
  intro t
  generalize hu : ({ s.commitHot with lay := { s.commitHot.lay with change := none, skipped := k } } : State) = u
  have ht : t = u.commitRegs b := by rw [← hu]; rfl
  have csr : u.csr = s.commitHot.csr := by rw [← hu]
  have regs := hot.of_csr csr
  have sizes : u.modules = s.modules := by
    have layout : u.rd kLayout = s.rd kLayout := regs _ (by decide)
    simp only [State.modules, State.axis, State.rdf, layout]
  obtain ⟨layout, most, gen, built, parity, written, c, eq⟩ := u.commitRegs_effect b
  rw [ht]
  have lay : u.lay.change = none ∧ u.lay.skipped = k := by rw [← hu]; exact ⟨rfl, rfl⟩
  refine ⟨?_, ?_, layout, most, gen, built, fun ne => parity (sizes ▸ ne), ?_, ?_, SameBytes.of_mem ?_⟩
  · rw [eq]; exact lay.1
  · rw [eq]; exact lay.2
  · exact (regs.mono (by simp [layoutKeys])).trans (written.mono fun _ h => List.mem_cons_of_mem _ h)
  · rw [eq]; exact (by rw [← hu] : u.cores = s.commitHot.cores).trans cores
  · rw [eq]; exact (by rw [← hu] : u.mem = s.commitHot.mem).trans mem

/-- No register of a port is one of the layout. -/
theorem port_notMem_layoutKeys (p o : Nat) : kLnk p o ∉ layoutKeys := by
  have bound : ∀ k ∈ layoutKeys, k < 0xA00000 := by decide
  exact fun h => absurd (bound _ h) (by unfold kLnk portBase; omega)

theorem State.commitEnd_effect {r s : State} {b : List Byte} {k : Nat} (moved : r.moveAll (leAt b 24 8) (lyMoves b) 0 = (k, s))
    (down : ∀ p < 8, s.linkSt p = 0 ∧ bit (s.rd (kLnk p 0)) 0 = false) : let t := r.commitEnd b
    t.lay.change = none ∧ t.lay.skipped = k ∧ t.rd kLayout = leAt b 0 4 + lyNode b * 2 ^ 32 ∧
    t.rd (wideKey 0x13020C) = lyMax b ∧ t.gen = lyGen b ∧ bit (t.rd kLayoutStatus) 18 = false ∧
    (lyModules b ≠ s.modules → ownReplaced b = false → bit (t.rd kParityCtrl) 0 = false) ∧ t.cores = s.cores ∧
    SameBytes s t := by
  obtain ⟨change, skipped, layout, most, gen, built, parity, regs, cores, mem⟩ := s.commitSet_effect b k
  have ports : ∀ p < 8, (s.commitSet b k).linkSt p = 0 ∧ bit ((s.commitSet b k).rd (kLnk p 0)) 0 = false := fun p hp => by
    rw [State.linkSt, State.rdf, kLnkStatus, regs _ (port_notMem_layoutKeys p _), regs _ (port_notMem_layoutKeys p _)]
    exact down p hp
  intro t
  have ht : t = _ := State.commitEnd_eq moved ports
  generalize s.commitSet b k = u at ht change skipped layout most gen built parity cores mem
  obtain ⟨timed, tmem, tcores, tlay⟩ := u.timeCommit_frame
  have later : RegsExcept [kTimeStatus, kPodTime, kRecDropped, kRecSticky, wideKey 0x130250] u t := by
    rw [ht]
    exact ((timed.mono (by simp)).bump (by simp) _).trans ((State.raise_regs _ _ _ _ _).mono (by simp))
  have lay : t.lay = u.lay := by rw [ht, State.raise_lay]; exact tlay
  rw [lay, State.gen, State.rdf, later kLayout (by decide), later (wideKey 0x13020C) (by decide),
    later kLayoutStatus (by decide), later kParityCtrl (by decide)]
  refine ⟨change, skipped, layout, most, gen, built, parity, ?_, fun x => ?_⟩
  · rw [ht, State.raise_cores, State.bump_cores, tcores, cores]
  · exact (SameBytes.of_mem (by rw [ht, State.raise_mem, State.bump_mem, tmem]) x).trans (mem x)

/-- Settles O46. -/
theorem layoutFences : Obligations.LayoutFences := by
  refine ⟨⟨fun s q b late => exec_layoutArrivalBarrier late, fun s w => exec_layoutCompletionBarrier w⟩,
    fun s => ⟨fun q b => State.order4_of_change, State.order4_of_none, fun b => rfl, s.commitGo_effect,
      fun q b => State.commitOn_of_waiting⟩,
    fun r b k s => State.commitEnd_effect, fun s base gbase r l => exec_rebuildEnd, fun s a b => rfl,
    fun s a r t lost ht => s.rebuildUnit_lost a lost ht⟩

end Sys2Proof.Machine
end

section
/-! PROOFS of the update-block family: the staging of a block and the transaction of its commit (R258 to R267). -/

namespace Sys2Proof.Machine
open Sys2Proof

/-! ## A block is taken -/

theorem exec_blockStageStart_idle {s : State} {t : TileId} (idle : s.seq.mode ≠ .running ∨ s.fencedTile t = true ∨
    (s.upt t).jobs.find? (fun j => j.next < j.count) = none) : exec (.blockStageStart t) s = .next s := by
  simp only [exec, execBlockStageStart]
  cases job : (s.upt t).jobs.find? fun j => j.next < j.count with
  | none => rfl
  | some j =>
    refine congrArg _ (if_pos ?_)
    rcases idle with mode | fenced | no
    · simp [mode]
    · simp [fenced]
    · rw [job] at no
      cases no

theorem exec_blockStageStart_go {s : State} {t : TileId} {j : UeJob} (on : s.fabOn t = true) (mode : s.seq.mode = .running)
    (free : s.fencedTile t = false) (job : (s.upt t).jobs.find? (fun j => j.next < j.count) = some j) :
    (∀ i, ((s.upt t).slots.filter fun e => e.2.phase = .torn).length ≠ 16 →
      (List.range 16).find? (fun i => ((s.upt t).slot i).isNone) = some i →
      ∃ x, exec (.blockStageStart t) s = .next (s.setUpt t { (s.upt t).setSlot i x with
          jobs := (s.upt t).jobs.map fun k => if k.idx = j.idx then { k with next := k.next + 1 } else k }) ∧
        x.phase = .reading ∧ x.idx = j.idx ∧ x.record = j.params + j.next * s.recBytes j.recipe ∧
        x.grad = j.grads + j.next * 4096 ∧ x.step = s.step % 2 ^ 16) ∧
    (((s.upt t).slots.filter fun e => e.2.phase = .torn).length = 16 →
      exec (.blockStageStart t) s = .next (((s.orBits (kUe t 0x20) 8).jobError t j.idx false).ueAdvance t)) := by
  have due : (!s.fabOn t || s.fencedTile t || decide (s.seq.mode ≠ .running)) = false := by simp [on, mode, free]
  simp only [exec, execBlockStageStart, job, due, Bool.false_eq_true, if_false]
  refine ⟨fun i room slot => ?_, fun full => congrArg _ (if_pos full)⟩
  rw [if_neg room, slot]
  exact ⟨_, rfl, rfl, rfl, rfl, rfl, rfl⟩

/-! ## What staging writes -/

/-- A state that differs in its memory alone. -/
def OnlyMem (s t : State) : Prop := ∃ m e, t = { s with mem := m, ue := e }

theorem OnlyMem.refl (s : State) : OnlyMem s s := ⟨s.mem, s.ue, rfl⟩

theorem OnlyMem.trans {s t u : State} : OnlyMem s t → OnlyMem t u → OnlyMem s u := by
  rintro ⟨_, _, rfl⟩ ⟨_, _, rfl⟩
  exact ⟨_, _, rfl⟩

theorem OnlyMem.upt {s t : State} (i : Nat) : OnlyMem s t → t.upt i = s.upt i := by
  rintro ⟨_, _, rfl⟩
  rfl

theorem OnlyMem.csr {s t : State} : OnlyMem s t → t.csr = s.csr := by
  rintro ⟨_, _, rfl⟩
  rfl

theorem OnlyMem.rd {s t : State} (h : OnlyMem s t) (k : Nat) : t.rd k = s.rd k := by
  rw [State.rd, h.csr, State.rd]

theorem State.stagePut_onlyMem (s : State) (t i off : Nat) (bs : List Byte) : OnlyMem s (s.stagePut t i off bs) := by
  unfold State.stagePut
  dsimp only
  split
  · exact ⟨_, _, rfl⟩
  · exact .refl s

/-- What is staged into a slot stays inside the staging area. -/
theorem State.stagePut_bytes (s : State) (t : Nat) {i : Nat} (slot : i < 16) (off : Nat) (bs : List Byte) :
    BytesExcept (s.rdf (kUe t 0x10) 0 44) 0x80000 s (s.stagePut t i off bs) := by
  intro x outside
  unfold State.stagePut
  generalize s.rdf (kUe t 0x10) 0 44 = b at outside ⊢
  dsimp only
  split
  · refine bytesExcept_poke _ _ _ x fun inside => outside ?_
    have room := List.length_take_le (0x8000 - off) bs
    omega
  · rfl

/-- The flags of a recipe are registers of the engine. -/
theorem State.ueFlags_shape (s : State) (t : Nat) (f : NFlags) : OnlyRegs s (s.ueFlags t f) ∧
    RegsExcept [tileBase t + 0x11001C] s (s.ueFlags t f) := by
  unfold State.ueFlags
  split
  · exact ⟨.refl s, .refl _ s⟩
  · exact ⟨(OnlyRegs.refl s).orBits _ _, (RegsExcept.refl _ s).orBits (by simp) _⟩

/-- A state reached by staging bytes in the staging area of a tile, and by the flags of its recipes. -/
structure Staged (t : TileId) (s u : State) : Prop where
  upt : u.upt t = s.upt t
  step : u.rd kSeqStep = s.rd kSeqStep
  base : u.rd (kUe t 0x10) = s.rd (kUe t 0x10)
  bytes : BytesExcept (s.rdf (kUe t 0x10) 0 44) 0x80000 s u

theorem Staged.refl (t : TileId) (s : State) : Staged t s s := ⟨rfl, rfl, rfl, fun _ _ => rfl⟩

theorem Staged.stagePut {t : TileId} {s u : State} (h : Staged t s u) (slot : Fin 16) (off : Nat) (bs : List Byte) :
    Staged t s (u.stagePut t slot off bs) := by
  have only := u.stagePut_onlyMem t slot off bs
  refine ⟨(only.upt t).trans h.upt, (only.rd _).trans h.step, (only.rd _).trans h.base, fun x outside => ?_⟩
  rw [u.stagePut_bytes t slot.isLt off bs x (by rw [State.rdf, h.base]; exact outside), h.bytes x outside]

theorem Staged.stagePuts {t : TileId} {s u : State} (h : Staged t s u) (slot : Fin 16) (ws : List (Nat × List Byte)) :
    Staged t s (ws.foldl (fun s w => s.stagePut t slot w.1 w.2) u) :=
  List.foldlRecOn (motive := Staged t s) _ _ h fun _ h w _ => h.stagePut slot w.1 w.2

theorem Staged.flags {t : TileId} {s u : State} (h : Staged t s u) (f : NFlags) : Staged t s (u.ueFlags t f) := by
  obtain ⟨⟨c, eq⟩, regs⟩ := u.ueFlags_shape t f
  have apart : kSeqStep ≠ tileBase t + 0x11001C ∧ kUe t 0x10 ≠ tileBase t + 0x11001C := by
    unfold kSeqStep wideKey kUe tileBase
    omega
  refine ⟨?_, (regs _ (by simpa using apart.1)).trans h.step, (regs _ (by simpa using apart.2)).trans h.base,
    fun x outside => ?_⟩
  · rw [eq]
    exact h.upt
  · rw [eq]
    exact h.bytes x outside

/-! ## A staged block is judged -/

section
variable {s u v : State} {t : TileId} {slot : Fin 16} {x : UeSlot} {rec gr : List Byte} {c : Code}

theorem exec_blockStaged_record (on : s.fabOn t = true) (here : (s.upt t).slot slot = some x) (reading : x.phase = .reading)
    (read : s.memRead x.record (s.recBytes x.recipe) = (c, rec, u)) (failed : c ≠ .ok) : exec (.blockStaged t slot) s = .next
      (((u.setUpt t ((u.upt t).free slot)).jobError t x.idx (c = .ue)).ueAdvance t) := by
  simp only [exec, execBlockStaged, here, on, reading, read]
  cases c with
  | ok => exact absurd rfl failed
  | _ => rfl

theorem exec_blockStaged_gradients (on : s.fabOn t = true) (here : (s.upt t).slot slot = some x)
    (reading : x.phase = .reading) (read : s.memRead x.record (s.recBytes x.recipe) = (.ok, rec, u))
    (grads : u.memRead x.grad 4096 = (c, gr, v)) (failed : c ≠ .ok) : exec (.blockStaged t slot) s = .next
      (((v.setUpt t ((v.upt t).free slot)).jobError t x.idx (c = .ue)).ueAdvance t) := by
  simp only [exec, execBlockStaged, here, on, reading, read, grads]
  cases c with
  | ok => exact absurd rfl failed
  | _ => rfl

theorem exec_blockStaged_judged (on : s.fabOn t = true) (here : (s.upt t).slot slot = some x)
    (reading : x.phase = .reading) (read : s.memRead x.record (s.recBytes x.recipe) = (.ok, rec, u))
    (grads : u.memRead x.grad 4096 = (.ok, gr, v)) {p w : State}
    (hp : p = ((v.stagePut t slot 0 rec).stagePut t slot 0x5000 (slice rec 64 4096)).stagePut t slot 0x6000 gr)
    (hw : w = p.setUpt t ((p.upt t).free slot)) {tag : Nat} (htag : tag = leAt rec 0 8) :
    (tagState tag = 2 → ∀ q : State, q = (if p.seq.mode = .idle then p else p.noteTwo .torn .descError) →
      exec (.blockStaged t slot) s = .next ((((q.orBits (kUe t 0x20) 2).tear t slot { x with
        tag := tag, undo := [], old := rec } true true).jobError t x.idx false).ueAdvance t)) ∧
    (tagState tag = 3 → exec (.blockStaged t slot) s = .next (((w.orBits (kUe t 0x20) 2).jobError t x.idx false).ueAdvance t)) ∧
    (tagState tag = 1 → tagRecipe tag ≠ x.recipe →
      exec (.blockStaged t slot) s = .next (((w.orBits (kUe t 0x20) 4).jobError t x.idx false).ueAdvance t)) ∧
    (tagState tag = 1 → tagRecipe tag = x.recipe → tagStep tag = p.step % 2 ^ 16 → bit (p.rd (wideKey 0x110000)) 0 = true →
      exec (.blockStaged t slot) s = .next ((w.bump (kUe t 0x40) 1).ueAdvance t)) := by
  have due : (!s.fabOn t || decide (x.phase ≠ .reading)) = false := by simp [on, reading]
  simp only [exec, execBlockStaged, here, due, read, grads, ← htag, ← hp, ← hw, Bool.false_eq_true, if_false]
  refine ⟨fun torn q hq => ?_, fun gone => ?_, fun good other => ?_, fun good same step skip => ?_⟩
  · rw [if_pos torn]
    have idle : (if p.isIdle = true then p else p.noteTwo .torn .descError) = q := by
      rw [hq]
      simp [State.isIdle]
    rw [idle]
  · rw [if_neg (by omega), if_pos gone]
  · rw [if_neg (by omega), if_neg (by omega), if_pos (by simp [good, other])]
  · rw [if_neg (by omega), if_neg (by omega), if_neg (by simp [same]), if_pos (by simp [good, step, skip])]

theorem exec_blockStaged_computed (on : s.fabOn t = true) (here : (s.upt t).slot slot = some x)
    (reading : x.phase = .reading) (read : s.memRead x.record (s.recBytes x.recipe) = (.ok, rec, u))
    (grads : u.memRead x.grad 4096 = (.ok, gr, v)) {p : State}
    (hp : p = ((v.stagePut t slot 0 rec).stagePut t slot 0x5000 (slice rec 64 4096)).stagePut t slot 0x6000 gr)
    {tag : Nat} (htag : tag = leAt rec 0 8)
    (good : tagState tag = 0 ∨ tagState tag = 1 ∧ tagRecipe tag = x.recipe ∧
      ¬(tagStep tag = p.step % 2 ^ 16 ∧ bit (p.rd (wideKey 0x110000)) 0 = true)) {o : UeOut} {f : NFlags}
    (ran : p.runRecipe x.recipe 2048 (p.blockIn x.recipe rec gr) = (o, f)) :
    ((o.weight.getD [] ++ o.slots.flatMap (·.2)).all finite32 = true →
      ∃ y z, exec (.blockStaged t slot) s = .next (z.setUpt t ((z.upt t).setSlot slot y)) ∧ y.phase = .committing ∧
        y.record = x.record ∧ y.tag = tag ∧ y.undo = slice rec 64 4096 ∧ y.old = rec ∧
        y.writes.head? = some (0, leBytes 8 (tagWord (tagStep tag) 2 (tagLag tag) (tagRecipe tag))) ∧
        y.writes.getLast? = some (0, leBytes 8 (tagWord v.step 1 0 x.recipe) ++ List.replicate 56 0) ∧
        z.upt t = v.upt t ∧ BytesExcept (v.rdf (kUe t 0x10) 0 44) 0x80000 v z) ∧
    ((o.weight.getD [] ++ o.slots.flatMap (·.2)).all finite32 = false →
      ∀ q : State, q = (p.ueFlags t f).setUpt t (((p.ueFlags t f).upt t).free slot) →
      ∀ y : State, y = q.nonfinite t x.record (o.weight.getD [] ++ o.slots.flatMap (·.2)) →
      exec (.blockStaged t slot) s = .next ((y.setUpt t { y.upt t with jobs := (y.upt t).jobs.map fun j =>
        if j.idx = x.idx then { j with bad := j.bad || bit (y.rd (wideKey 0x110000)) 1 } else j }).ueAdvance t)) := by
  have due : (!s.fabOn t || decide (x.phase ≠ .reading)) = false := by simp [on, reading]
  have other : (decide (tagState tag = 1) && decide (tagRecipe tag ≠ x.recipe)) = false := by
    rcases good with zero | ⟨one, same, -⟩
    · simp [zero]
    · simp [same]
  have again : (decide (tagState tag = 1) && decide (tagStep tag = p.step % 2 ^ 16) &&
      bit (p.rd (wideKey 0x110000)) 0) = false := by
    rcases good with zero | ⟨one, -, new⟩
    · simp [zero]
    · simpa [one] using new
  have state : ¬tagState tag = 2 ∧ ¬tagState tag = 3 := by omega
  have staged : Staged t v p := by
    rw [hp]
    exact (((Staged.refl t v).stagePut slot _ _).stagePut slot _ _).stagePut slot _ _
  have step : (p.ueFlags t f).step = v.step := congrArg (fld · 0 48) (staged.flags f).step
  have step' : ∀ g, ((p.ueFlags t f).ueFlags t g).step = v.step := fun g =>
    congrArg (fld · 0 48) ((staged.flags f).flags g).step
  simp only [exec, execBlockStaged, here, due, read, grads, ← htag, ← hp, state, other, again, ran, Bool.false_eq_true,
    if_false, step]
  refine ⟨fun finite => ?_, fun bad q hq y hy => ?_⟩
  · rw [if_neg (by simp [finite])]
    refine ⟨_, _, rfl, rfl, rfl, rfl, rfl, rfl, rfl, ?_, ?_, ?_⟩
    · rw [step' _]
      exact List.getLast?_append.trans rfl
    · exact (((staged.flags f).flags _).stagePuts slot _).upt
    · exact (((staged.flags f).flags _).stagePuts slot _).bytes
  · rw [if_pos (by simp [bad]), ← hq, ← hy]

end

/-! ## The commit -/

theorem State.commitWrite_stored {s u : State} {x : UeSlot} {off : Nat} {b : List Byte} {rest : List (Nat × List Byte)}
    (due : x.writes = (off, b) :: rest) (stored : s.memWriteBare (x.record + off) b = (.ok, u)) (t i : Nat) (tagOk : Bool) :
    (rest ≠ [] → s.commitWrite t i x false tagOk =
      u.setUpt t ((u.upt t).setSlot i { x with writes := rest, retried := false })) ∧
    (rest = [] → s.commitWrite t i x false tagOk =
      (((u.parityCatchUp x.record x.old).setUpt t ((u.upt t).free i)).bump (kUe t 0x28) 1).ueAdvance t) := by
  simp only [State.commitWrite, due, stored, Bool.false_eq_true, if_false]
  exact ⟨fun more => if_neg more, fun last => if_pos last⟩

theorem State.commitWrite_failed {s u : State} {x : UeSlot} {off : Nat} {b : List Byte} {rest : List (Nat × List Byte)}
    (due : x.writes = (off, b) :: rest) {err : Bool} {c : Code}
    (failed : err = false ∧ s.memWriteBare (x.record + off) b = (c, u) ∧ c ≠ .ok ∨ err = true ∧ u = s) (t i : Nat)
    (tagOk : Bool) :
    (x.retried = false → s.commitWrite t i x err tagOk = u.setUpt t ((u.upt t).setSlot i { x with retried := true })) ∧
    (x.retried = true → s.commitWrite t i x err tagOk = (u.tear t i x x.noUndo tagOk).ueAdvance t) := by
  rcases failed with ⟨rfl, wrote, bad⟩ | ⟨rfl, rfl⟩
  · simp only [State.commitWrite, due, wrote, Bool.false_eq_true, if_false]
    cases c with
    | ok => exact absurd rfl bad
    | _ => exact ⟨fun first => if_neg (by simp [first]), fun again => if_pos again⟩
  · simp only [State.commitWrite, due, if_true]
    exact ⟨fun first => if_neg (by simp [first]), fun again => if_pos again⟩

theorem exec_blockCommitWriteDone {s : State} {t : TileId} {slot : Fin 16} {x : UeSlot} (on : s.fabOn t = true)
    (here : (s.upt t).slot slot = some x) (committing : x.phase = .committing) (tagOk : Bool) :
    exec (.blockCommitWriteDone t slot .done tagOk) s = .next (s.commitWrite t slot x false tagOk) ∧
    exec (.blockCommitWriteDone t slot .error tagOk) s = .next (s.commitWrite t slot x true tagOk) ∧
    ∀ lost, exec (.blockCommitWriteDone t slot (.stagedUe lost) tagOk) s =
      .next (if x.dataDue then (s.tear t slot x lost tagOk).ueAdvance t else s) := by
  have due : (!s.fabOn t || decide (x.phase ≠ .committing)) = false := by simp [on, committing]
  simp only [exec, execBlockCommitWriteDone, here, due, Bool.false_eq_true, if_false, implies_true, and_self]

/-- Settles O51. -/
theorem updateBlocks : Obligations.UpdateBlocks := by
  refine ⟨fun s t on => ⟨exec_blockStageStart_idle, fun j i mode free job => (exec_blockStageStart_go on mode free job).1 i,
    fun j mode free job => (exec_blockStageStart_go on mode free job).2, fun slot x here reading =>
      ⟨fun c rec u => exec_blockStaged_record on here reading, fun rec gr u v c read grads =>
        ⟨exec_blockStaged_gradients on here reading read grads, fun ok tag htag p hp w hw => ?_⟩⟩⟩,
    fun s t slot x tagOk on here committing off b rest due => ⟨fun u stored => ?_, fun c u res failed => ?_, fun lost => ?_⟩⟩
  · rw [ok] at grads
    obtain ⟨torn, gone, other, again⟩ := exec_blockStaged_judged on here reading read grads hp hw htag
    exact ⟨torn, gone, other, again, fun good o f => exec_blockStaged_computed on here reading read grads hp htag good⟩
  · obtain ⟨more, last⟩ := State.commitWrite_stored due stored t slot tagOk
    rw [(exec_blockCommitWriteDone on here committing tagOk).1]
    refine ⟨fun h => congrArg _ (more h), fun h v hv => ?_⟩
    rw [last h, ← hv]
  · obtain ⟨done, error, -⟩ := exec_blockCommitWriteDone on here committing tagOk
    rcases failed with ⟨wrote, bad, rfl⟩ | ⟨rfl, same⟩
    · rw [done]
      obtain ⟨first, again⟩ := State.commitWrite_failed due (.inl ⟨rfl, wrote, bad⟩) t slot tagOk
      exact ⟨fun h => congrArg _ (first h), fun h => congrArg _ (again h)⟩
    · rw [error]
      obtain ⟨first, again⟩ := State.commitWrite_failed (c := c) due (.inr ⟨rfl, same⟩) t slot tagOk
      exact ⟨fun h => congrArg _ (first h), fun h => congrArg _ (again h)⟩
  · rw [(exec_blockCommitWriteDone on here committing tagOk).2.2]
    exact ⟨fun data => congrArg _ (if_pos (by simpa [UeSlot.dataDue] using data)),
      fun done => congrArg _ (if_neg (by simpa [UeSlot.dataDue] using done))⟩

end Sys2Proof.Machine
end

section
/-! PROOFS of the link families: a link is trained and keyed (R390, R508 to R511). -/

namespace Sys2Proof.Machine
open Sys2Proof

/-! ## The state of a link -/

/-- A state that differs in its registers, in what is known of the ends of the rings, and in what it has sent. -/
def LinkOnly (s t : State) : Prop := ∃ c e o, t = { s with csr := c, net := { s.net with ends := e }, out := o }

theorem LinkOnly.refl (s : State) : LinkOnly s s := ⟨s.csr, s.net.ends, s.out, rfl⟩

theorem LinkOnly.trans {s t u : State} : LinkOnly s t → LinkOnly t u → LinkOnly s u := by
  rintro ⟨_, _, _, rfl⟩ ⟨_, _, _, rfl⟩
  exact ⟨_, _, _, rfl⟩

theorem LinkOnly.emit {s t : State} (h : LinkOnly s t) (o : Out) : LinkOnly s (t.emit o) := h.trans ⟨_, _, _, rfl⟩

theorem LinkOnly.wrf {s t : State} (h : LinkOnly s t) (k lo w x : Nat) : LinkOnly s (t.wrf k lo w x) :=
  h.trans ⟨(t.wrf k lo w x).csr, t.net.ends, t.out, by rw [State.wrf, State.wr]⟩

theorem LinkOnly.port {s t : State} (p : Nat) : LinkOnly s t → t.port p = s.port p := by
  rintro ⟨_, _, _, rfl⟩
  rfl

theorem LinkOnly.mem {s t : State} : LinkOnly s t → t.mem = s.mem := by
  rintro ⟨_, _, _, rfl⟩
  rfl

theorem LinkOnly.lay {s t : State} : LinkOnly s t → t.lay = s.lay := by
  rintro ⟨_, _, _, rfl⟩
  rfl

theorem LinkOnly.flash {s t : State} : LinkOnly s t → t.flash = s.flash := by
  rintro ⟨_, _, _, rfl⟩
  rfl

theorem RegsExcept.emit {ks : List Nat} {s t : State} (h : RegsExcept ks s t) (o : Out) : RegsExcept ks s (t.emit o) :=
  h.of_csr (t.emit_csr o)

theorem State.setEnd_effect (s : State) (a c : Nat) (plusEnd up : Bool) :
    LinkOnly s (s.setEnd a c plusEnd up) ∧ RegsExcept [netKey (8 + 4 * a)] s (s.setEnd a c plusEnd up) := by
  unfold State.setEnd
  generalize netKey (8 + 4 * a) = k
  dsimp only
  generalize smSet false s.net.ends (endKey a c plusEnd) up = e
  have ends : LinkOnly s { s with net := { s.net with ends := e } } := ⟨_, _, _, rfl⟩
  have same : RegsExcept [k] s { s with net := { s.net with ends := e } } := (RegsExcept.refl _ s).of_csr rfl
  exact ⟨ends.wrf _ _ _ _, same.wrf (by simp) _ _ _⟩

theorem State.sendState_effect (s : State) (q c : Nat) (plusEnd up : Bool) (ks : List Nat) :
    LinkOnly s (s.sendState q c plusEnd up) ∧ RegsExcept ks s (s.sendState q c plusEnd up) := by
  unfold State.sendState
  split
  · exact ⟨(LinkOnly.refl s).emit _, (RegsExcept.refl _ s).emit _⟩
  · exact ⟨.refl s, .refl _ s⟩

theorem State.tellRing_effect (s : State) (p : Nat) :
    LinkOnly s (s.tellRing p) ∧ RegsExcept [netKey (8 + 4 * (p / 2))] s (s.tellRing p) := by
  unfold State.tellRing
  dsimp only
  obtain ⟨only, regs⟩ := s.setEnd_effect (p / 2) (s.ringLink p) (decide (p % 2 = 0)) (s.portUp p)
  generalize s.setEnd (p / 2) (s.ringLink p) (decide (p % 2 = 0)) (s.portUp p) = u at only regs ⊢
  obtain ⟨only', regs'⟩ := u.sendState_effect (2 * (p / 2)) (s.ringLink p) (decide (p % 2 = 0)) (u.portUp p)
    [netKey (8 + 4 * (p / 2))]
  obtain ⟨only'', regs''⟩ := (u.sendState (2 * (p / 2)) (s.ringLink p) (decide (p % 2 = 0)) (u.portUp p)).sendState_effect
    (2 * (p / 2) + 1) (s.ringLink p) (decide (p % 2 = 0)) (u.portUp p) [netKey (8 + 4 * (p / 2))]
  exact ⟨(only.trans only').trans only'', (regs.trans regs').trans regs''⟩

theorem State.timeFollow_effect (s : State) (p : Nat) :
    LinkOnly s (s.timeFollow p) ∧ RegsExcept [kTimeStatus] s (s.timeFollow p) := by
  unfold State.timeFollow
  split
  · exact ⟨(LinkOnly.refl s).wrf _ _ _ _, (RegsExcept.refl _ s).wrf (by simp) _ _ _⟩
  · exact ⟨.refl s, .refl _ s⟩

/-- The registers that the state of the link of a port is told in: its own, that of its ring, and that of pod time. -/
def linkKeys (p : Nat) : List Nat := [kLnkStatus p, netKey (8 + 4 * (p / 2)), kTimeStatus]

theorem kLnkStatus_ne {p : Nat} (port : p < 8) : kLnkStatus p ≠ netKey (8 + 4 * (p / 2)) ∧ kLnkStatus p ≠ kTimeStatus := by
  unfold kLnkStatus kLnk portBase kTimeStatus netKey
  omega

/-- No register but those of ports and of the torus is one of a link. -/
theorem notMem_linkKeys {k p : Nat} (low : k < 0xA00000) : k ∉ linkKeys p := by
  unfold linkKeys kLnkStatus kLnk portBase kTimeStatus netKey
  simp only [List.mem_cons, List.not_mem_nil, or_false]
  omega

theorem State.setLinkSt_frame (s : State) (p v : Nat) : LinkOnly s (s.setLinkSt p v) ∧
    RegsExcept (linkKeys p) s (s.setLinkSt p v) := by
  unfold State.setLinkSt
  split
  · exact ⟨.refl s, .refl _ s⟩
  · obtain ⟨only, regs⟩ := (s.wrf (kLnkStatus p) 0 4 v).tellRing_effect p
    obtain ⟨only', regs'⟩ := ((s.wrf (kLnkStatus p) 0 4 v).tellRing p).timeFollow_effect p
    exact ⟨(((LinkOnly.refl s).wrf _ _ _ _).trans only).trans only',
      (((RegsExcept.refl _ s).wrf (by simp [linkKeys]) _ _ _).trans (regs.mono (by simp [linkKeys]))).trans
        (regs'.mono (by simp [linkKeys]))⟩

theorem State.linkSt_setLinkSt (s : State) {p v : Nat} (port : p < 8) (small : v < 16) : (s.setLinkSt p v).linkSt p = v := by
  obtain ⟨ring, time⟩ := kLnkStatus_ne port
  unfold State.setLinkSt
  split
  next same => exact same
  next =>
    obtain ⟨-, regs⟩ := (s.wrf (kLnkStatus p) 0 4 v).tellRing_effect p
    obtain ⟨-, regs'⟩ := ((s.wrf (kLnkStatus p) 0 4 v).tellRing p).timeFollow_effect p
    rw [State.linkSt, State.rdf, regs' _ (by simp [time]), regs _ (by simp [ring]), State.rd_wrf_same (by decide),
      fld_setFld_same]
    exact Nat.mod_eq_of_lt small

theorem State.port_setPort (s : State) (p : Nat) (x : PortState) : (s.setPort p x).port p = x := by
  rw [State.setPort, State.port]
  exact (smGet_smSet _ _ _ _ _).trans (if_pos rfl)

/-! ## Training begins -/

theorem State.identContent_linkOnly {s t : State} {p : Nat} (only : LinkOnly s t) (regs : RegsExcept (linkKeys p) s t) (q l : Nat) :
    t.identContent q l = s.identContent q l := by
  have status : t.rd kLayoutStatus = s.rd kLayoutStatus := regs _ (notMem_linkKeys (by decide))
  have layout : t.rd kLayout = s.rd kLayout := regs _ (notMem_linkKeys (by decide))
  simp only [State.identContent, State.reportNode, State.fenceChange, State.node, State.rdf, status, layout, only.lay, only.flash]

theorem State.identBlocks_effect (s : State) (p : Nat) : ∀ ls : List Nat,
    ls.foldl (fun s l => s.emitBlock p (some l) (s.identContent p l)) s =
      { s with out := s.out ++ if (s.port p).dark then [] else ls.map fun l => .block p (some l) (s.identContent p l) } := by
  intro ls
  induction ls generalizing s with
  | nil => simp
  | cons l ls ih =>
    rw [List.foldl_cons, ih]
    by_cases dark : (s.port p).dark = true
    · simp [State.emitBlock, dark]
    · have sent : s.emitBlock p (some l) (s.identContent p l) = s.emit (.block p (some l) (s.identContent p l)) := if_neg dark
      have only := (LinkOnly.refl s).emit (.block p (some l) (s.identContent p l))
      rw [sent, only.port]
      simp only [State.identContent_linkOnly only ((RegsExcept.refl (linkKeys p) s).emit _), if_neg dark, List.map_cons]
      rw [State.emit, List.append_assoc]
      rfl

theorem exec_trainingStart {s : State} {p : PortId} (on : s.portOn p = true) :
    (s.linkSt p = 1 → s.portOff p = false → s.pairLit (p / 2) = true → bit (s.rd kClkDomains) 16 = false →
      ∃ t, exec (.trainingStart p) s = .next t ∧ t.linkSt p = 2 ∧
        t.port p = { PortState.init with step := 1, dark := (s.port p).dark } ∧ t.mem = s.mem ∧
        t.out = (s.setLinkSt p 2).out ++ if (s.port p).dark then [] else
          (List.range 18).map fun l => .block p (some l) (s.identContent p l)) ∧
    (s.linkSt p ≠ 1 ∨ s.portOff p = true ∨ s.pairLit (p / 2) = false ∨ bit (s.rd kClkDomains) 16 = true →
      exec (.trainingStart p) s = .next s) := by
  refine ⟨fun down used lit free => ?_, fun idle => ?_⟩
  · have due : (!s.portOn p || decide (s.linkSt p ≠ 1) || s.portOff p || !s.pairLit (p / 2) || bit (s.rd kClkDomains) 16) =
        false := by simp [on, down, used, lit, free]
    simp only [exec, execTrainingStart, due, Bool.false_eq_true, if_false, State.identBlocks_effect, State.port_setPort]
    obtain ⟨only, regs⟩ := s.setLinkSt_frame p 2
    refine ⟨_, rfl, s.linkSt_setLinkSt p.isLt (by decide), State.port_setPort _ _ _, only.mem, ?_⟩
    have same : ∀ l, ((s.setLinkSt p 2).setPort p { PortState.init with step := 1, dark := (s.port p).dark }).identContent p l =
        s.identContent p l := fun l => State.identContent_linkOnly only regs p l
    simp only [same, State.setPort_out]
  · simp only [exec, execTrainingStart]
    refine congrArg _ (if_pos ?_)
    rcases idle with h | h | h | h <;> simp [h]

/-! ## The steps of training -/

section
variable {s : State} {p : PortId}

theorem exec_laneLock (on : s.portOn p = true) (training : s.linkSt p = 2) (lit : (s.port p).step = 1) {lanes : BitVec 18}
    (some : lanes ≠ 0) : exec (.laneLock p lanes) s = .next (s.setPort p { s.port p with locked := lanes.toNat, step := 2 }) :=
  congrArg Host.Outcome.next (if_pos (by simpa [on, training, lit] using some))

theorem exec_identBlock_training (on : s.portOn p = true) (training : s.linkSt p = 2) (lit : 2 ≤ (s.port p).step)
    (l : Fin 18) (b : RxBlock) :
    (leAt b.payload 1 1 ≠ Nat.xor p 1 ∨ leAt b.payload 2 1 ≠ l → exec (.identBlock p (some l) b) s = .next (s.linkDown p 3 false)) ∧
    (leAt b.payload 1 1 = Nat.xor p 1 → leAt b.payload 2 1 = l → ∀ i, i = Nat.lor (s.port p).idented (2 ^ (l : Nat)) →
      ∀ all, all = (Nat.land i (s.port p).locked = (s.port p).locked ∧ (s.port p).step = 2) →
      ∀ u, u = s.wr (kLnk p 0x10) (2 ^ 63 + leAt b.payload 1 1 % 8 * 2 ^ 20 + leAt b.payload 4 4 % 2 ^ 20) →
      (all → exec (.identBlock p (some l) b) s = .next
        ((u.setPort p { s.port p with idented := i, step := 3 }).sendPending p)) ∧
      (¬all → exec (.identBlock p (some l) b) s = .next (u.setPort p { s.port p with idented := i }))) := by
  have due : (decide (s.linkSt p ≠ 2) || decide ((s.port p).step < 2)) = false := by
    simp [training, Nat.not_lt.2 lit]
  simp only [exec, execIdentBlock, on, due, Bool.not_true, Bool.false_eq_true, if_false]
  refine ⟨fun wrong => congrArg _ (if_pos (by simpa using wrong)), fun port lane i hi all hall u hu => ?_⟩
  rw [if_neg (by simp [port, lane]), ← hi, ← hu]
  have swept : (decide (Nat.land i (s.port p).locked = (s.port p).locked) && decide ((s.port p).step < 3)) = true ↔ all := by
    subst hall
    rw [Bool.and_eq_true, decide_eq_true_iff, decide_eq_true_iff]
    exact and_congr_right fun _ => by omega
  refine ⟨fun yes => ?_, fun no => ?_⟩
  · rw [swept.2 yes]
    rfl
  · rw [Bool.eq_false_iff.2 (mt swept.1 no)]
    rfl

theorem exec_trainMarker (on : s.portOn p = true) (training : s.linkSt p = 2) {b : RxBlock} (lane : leAt b.payload 1 1 < 18) :
    (leAt b.payload 3 1 = 1 → exec (.trainMarker p b) s = .next (s.setPort p { s.port p with
      txPass := Nat.lor (s.port p).txPass (2 ^ leAt b.payload 1 1) })) ∧
    (leAt b.payload 3 1 = 2 → exec (.trainMarker p b) s = .next (s.setPort p { s.port p with
      txPass := setFld (s.port p).txPass (leAt b.payload 1 1) 1 0 })) ∧
    (leAt b.payload 3 1 = 0 → exec (.trainMarker p b) s = .next s) := by
  have due : (!s.portOn p || decide (s.linkSt p ≠ 2) || decide (leAt b.payload 1 1 ≥ 18)) = false := by
    simp [on, training, lane]
  simp only [exec, execTrainMarker, due, Bool.false_eq_true, if_false]
  exact ⟨fun one => by rw [if_pos one], fun two => by rw [if_neg (by omega), if_pos two],
    fun zero => by rw [if_neg (by omega), if_neg (by omega)]⟩

theorem lanesMask_lt {ls : List Nat} {n : Nat} (small : ∀ l ∈ ls, l < n) : lanesMask ls < 2 ^ n :=
  List.foldlRecOn (motive := fun m => m < 2 ^ n) _ _ (Nat.two_pow_pos n) fun _ h l hl =>
    Nat.or_lt_two_pow h (Nat.pow_lt_pow_right (by decide) (small l hl))

/-- The registers of lanes stand above those of their port. -/
theorem rd_laneRoles (s : State) (p : Nat) (role : Nat → Nat) (ls : List Nat) {k : Nat} (low : k < kLnk p 0x100) :
    (ls.foldl (fun s l => s.wrf (kLnk p (0x100 + 8 * l)) 6 2 (role l)) s).rd k = s.rd k :=
  List.foldlRecOn (motive := fun u : State => u.rd k = s.rd k) _ _ rfl fun u h l _ => by
    rw [State.rd_wrf_ne (by unfold kLnk at low ⊢; omega), h]

theorem exec_alignmentDone (on : s.portOn p = true) (training : s.linkSt p = 2) (swept : (s.port p).step = 4)
    (rtt : BitVec 16) :
    ∃ u : State, u.rd (kLnk p 0x18) = rtt.toNat ∧ bit (u.rd (kLnkStatus p)) 9 = decide (rtt.toNat > 1310) ∧
      u.rdf (kLnk p 8) 0 18 = lanesMask (((List.range 18).filter (bit (s.port p).txPass)).take 16) ∧
      (((List.range 18).filter (bit (s.port p).txPass)).length < 16 →
        exec (.alignmentDone p rtt) s = .next (u.linkDown p 4 false)) ∧
      (16 ≤ ((List.range 18).filter (bit (s.port p).txPass)).length →
        exec (.alignmentDone p rtt) s = .next (u.startKeying p)) := by
  have due : (!s.portOn p || decide (s.linkSt p ≠ 2) || decide ((s.port p).step ≠ 4)) = false := by
    simp [on, training, swept]
  simp only [exec, execAlignmentDone, due, Bool.false_eq_true, if_false]
  refine ⟨_, ?_, ?_, ?_, fun few => congrArg _ (if_pos (by simp; omega)), fun all => congrArg _ (if_neg (by simp; omega))⟩
  · rw [State.rd_wrf_ne (by unfold kLnkStatus kLnk; omega), State.rd_wr_of_lt (by omega)]
  · rw [State.rd_wrf_same (by decide), bit_setFld_same]
    by_cases far : rtt.toNat > 1310 <;> simp [far, b2n]
  · have active : lanesMask (((List.range 18).filter (bit (s.port p).txPass)).take 16) < 2 ^ 18 := lanesMask_lt fun l hl =>
      List.mem_range.1 (List.mem_filter.1 (List.mem_of_mem_take hl)).1
    rw [State.rdf, State.rd_wrf_ne (by unfold kLnkStatus kLnk; omega), State.rd_wr_ne (by unfold kLnk; omega),
      rd_laneRoles _ _ _ _ (by unfold kLnk; omega), State.rd_wrf_ne (by unfold kLnkStatus kLnk; omega),
      State.rd_wrf_same (by decide), fld_setFld_same]
    exact Nat.mod_eq_of_lt active

theorem exec_trainingTimeout (on : s.portOn p = true) :
    (s.linkSt p = 2 → exec (.trainingTimeout p) s = .next
      (s.linkDown p (if (s.port p).step ≤ 1 then 2 else if (s.port p).step = 2 then 3 else 4) false)) ∧
    (s.linkSt p = 3 → exec (.trainingTimeout p) s = .next (s.linkDown p 5 false)) := by
  simp only [exec, execTrainingTimeout, on, Bool.not_true, Bool.false_eq_true, if_false]
  exact ⟨fun two => congrArg _ (if_pos two), fun three => by rw [if_neg (by omega), if_pos three]⟩

/-! ## Keying -/

theorem exec_keyBlock_bad (on : s.portOn p = true) (keying : s.linkSt p = 3) {b : RxBlock} (bad : b.crcOk = false)
    (conf : List Byte) : exec (.keyBlock p b conf) s = .next ((s.bump (kLnkCount p 5) b.uncorr.toNat).bump (kLnkCount p 2) 1) := by
  have due : (!s.portOn p || decide (s.linkSt p ≠ 3)) = false := by simp [on, keying]
  simp only [exec, execKeyBlock, due, bad, State.badLink, State.crcFail, Bool.not_false, Bool.false_eq_true, if_false, if_true]

theorem exec_keyBlock (on : s.portOn p = true) (keying : s.linkSt p = 3) {b : RxBlock} (good : b.crcOk = true)
    (conf : List Byte) :
    let due := (Config.shake256 32 (asciiPad "ZLD-LCNF" 8 ++ (s.port p).keyK ++ [if p.val % 2 = 0 then 1 else 0]))
    let fails := exec (.keyBlock p b conf) s = .next (((s.linkDown p 5 false).orBits 0xC034 4).raise 0x0306 3 p p)
    (leAt b.payload 8 8 ≠ s.rd kPodKeyId → fails) ∧
    (leAt b.payload 8 8 = s.rd kPodKeyId → leAt b.payload 1 1 ≠ 0 → (s.port p).shared = false ∨ conf ≠ slice due 0 32 → fails) ∧
    (leAt b.payload 8 8 = s.rd kPodKeyId → leAt b.payload 1 1 ≠ 0 → (s.port p).shared = true → conf = slice due 0 32 →
      exec (.keyBlock p b conf) s = .next (s.linkUp p)) ∧
    (leAt b.payload 8 8 = s.rd kPodKeyId → leAt b.payload 1 1 = 0 → ∀ sh no x, sh = slice b.payload 16 56 →
      no = slice b.payload 72 32 → x = s.port p → ∀ k, k = Config.shake256 64 (asciiPad "ZLD-LINK" 8 ++ s.boot.podSecret.getD [] ++
        Config.x448 x.secret sh ++ (if p.val % 2 = 0 then slice x.share 0 56 ++ sh ++ slice x.nonce 0 32 ++ no
          else sh ++ slice x.share 0 56 ++ no ++ slice x.nonce 0 32)) →
      exec (.keyBlock p b conf) s = .next ((s.setPort p { x with keyK := k, shared := true }).sendLink p
        (s.keyContent 1 [] [] (slice (Config.shake256 32 (asciiPad "ZLD-LCNF" 8 ++ k ++ [if p.val % 2 = 0 then 0 else 1])) 0 32)))) := by
  have held : (!s.portOn p || decide (s.linkSt p ≠ 3)) = false := by simp [on, keying]
  have parity : (if p.val % 2 = 1 then (0 : Byte) else 1) = if p.val % 2 = 0 then 1 else 0 := by
    by_cases even : p.val % 2 = 0
    · rw [if_neg (by omega), if_pos even]
    · rw [if_pos (by omega), if_neg even]
  intro due fails
  have confirm : confirmOf (s.port p).keyK (decide (p.val % 2 = 1)) = slice due 0 32 := by
    simp only [confirmOf, decide_eq_true_iff, parity, due]
  simp only [fails, exec, execKeyBlock, held, good, confirm, Bool.not_true, Bool.false_eq_true, if_false]
  generalize kPodKeyId = key
  refine ⟨fun other => congrArg _ (if_pos other), fun same end_ bad => ?_, fun same end_ shared conf => ?_,
    fun same start sh no x hsh hno hx k hk => ?_⟩
  · rw [if_neg (by simp [same]), if_neg end_, if_pos (by simpa using bad)]
  · rw [if_neg (by simp [same]), if_neg end_, if_neg (by simp [shared, conf])]
  · subst hsh hno hx
    rw [if_neg (by simp [same]), if_pos start]
    simp only [decide_eq_true_iff, ← hk, confirmOf]

end

/-- Settles O53. -/
theorem linkTraining : Obligations.LinkTraining := by
  refine ⟨fun s p on => ⟨(exec_trainingStart on).1, (exec_trainingStart on).2, fun lanes training lit some => exec_laneLock on training lit some,
    fun l b training lit => exec_identBlock_training on training lit l b, fun b training lane => exec_trainMarker on training lane,
    fun meas training lit lim hlim best hbest pass hpass => ?_, fun rtt training swept => exec_alignmentDone on training swept rtt,
    exec_trainingTimeout on⟩, fun s p b conf on keying bad => exec_keyBlock_bad on keying bad conf,
    fun s p b conf on keying good => exec_keyBlock on keying good conf⟩
  have due : (!s.portOn p || decide (s.linkSt p ≠ 2) || decide ((s.port p).step ≠ 3)) = false := by
    simp [on, training, lit]
  subst hpass hbest hlim
  simp only [exec, execPresetSweepEnd, due, Bool.false_eq_true, if_false]
  exact ⟨fun few => congrArg _ (if_pos few), fun all => congrArg _ (if_neg (Nat.not_lt.2 all))⟩

end Sys2Proof.Machine
end

section
/-! PROOFS of the link families: sparing, retrains, LNK_CTRL and pod time (R392 to R404). -/

namespace Sys2Proof.Machine
open Sys2Proof

/-! ## Lanes -/

theorem State.failLane_of_noSpare {s : State} {p : Nat} (noSpare : s.spareLane p 4 = none) (l : Nat) :
    s.failLane p l true = s.wrf (kLnkStatus p) 10 1 1 ∧
    s.failLane p l false = (s.setPort p { s.port p with lackLane := true }).startRetrain p := by
  rw [State.failLane, State.failLane, noSpare]
  exact ⟨rfl, rfl⟩

section
variable {s : State} {p : PortId}

theorem goodBlock {b : RxBlock} (crc : b.crcOk = true) (tag : b.tagOk = true) (kind : b.kind = 2) : badBlock b = false := by
  simp [badBlock, crc, tag, kind]

theorem exec_laneSwap (on : s.portOn p = true) (up : s.linkSt p = 4) {b : RxBlock} (good : badBlock b = false) {dir l n : Nat}
    {u : State} (hdir : dir = leAt b.payload 1 1) (hl : l = leAt b.payload 2 1) (hn : n = leAt b.payload 3 1)
    (hu : u = s.takeHeader p b) :
    (dir ≤ 1 → l < 18 → n < 18 → exec (.laneSwap p b) s = .next
      ((((u.setPort p { u.port p with swapAt := leAt b.payload 4 4 }).swapLane p (if dir = 0 then 6 else 4) l n).bump
        (kLnkCount p 9) 1).raise 0x0301 3 p (p + (if dir = 0 then 8 else 0) + l * 2 ^ 8 + n * 2 ^ 16))) ∧
    (1 < dir ∨ 18 ≤ l ∨ 18 ≤ n → exec (.laneSwap p b) s = .next u) := by
  have due : (!s.portOn p || decide (s.linkSt p ≠ 4)) = false := by simp [on, up]
  simp only [exec, execLaneSwap, due, good, ← hdir, ← hl, ← hn, ← hu, Bool.false_eq_true, if_false]
  have fits : (decide (dir > 1) || decide (l ≥ 18) || decide (n ≥ 18)) = true ↔ 1 < dir ∨ 18 ≤ l ∨ 18 ≤ n := by
    simp [or_assoc]
  exact ⟨fun d l n => congrArg _ (if_neg (mt fits.1 (by omega))), fun bad => congrArg _ (if_pos (fits.2 bad))⟩

theorem exec_identBlock_up (on : s.portOn p = true) (up : s.linkSt p = 4) {b : RxBlock} (good : badBlock b = false) :
    exec (.identBlock p none b) s = .next
      (((s.takeHeader p b).wr (kLnk p 0x10) (2 ^ 63 + leAt b.payload 1 1 % 8 * 2 ^ 20 + leAt b.payload 4 4 % 2 ^ 20)).judgeCoord
        p) := by
  simp only [exec, execIdentBlock, on, up, good, Bool.not_true, Bool.false_eq_true, if_false, ne_eq, not_true]

/-! ## Losing a link -/

theorem exec_alignmentLost (on : s.portOn p = true) :
    (s.linkSt p = 4 → exec (.alignmentLost p) s = .next ((s.setLinkSt p 5).bump (kLnkCount p 7) 1)) ∧
    (s.linkSt p ≠ 4 → exec (.alignmentLost p) s = .next s) := by
  simp only [exec, execAlignmentLost, on, if_true, State.startRetrain]
  exact ⟨fun up => congrArg _ (if_pos up), fun other => congrArg _ (if_neg other)⟩

theorem exec_retrain (on : s.portOn p = true) (retrain : s.linkSt p = 5) :
    exec (.retrainTimeout p) s = .next (s.linkDown p 7 false) ∧
    ((s.port p).lackLane = true → exec (.retrainDone p) s = .next (s.linkDown p 7 false)) ∧
    ((s.port p).lackLane = false → ∀ u, u = (s.setLinkSt p 4).raise 0x0303 3 p p →
      ((u.port p).retry = [] → exec (.retrainDone p) s = .next (u.pumpAll p)) ∧
      (∀ x xs, (u.port p).retry = x :: xs → exec (.retrainDone p) s = .next ((u.resend p x.seq).pumpAll p))) := by
  have due : (s.portOn p && decide (s.linkSt p = 5)) = true := by simp [on, retrain]
  simp only [exec, execRetrainTimeout, execRetrainDone, due, if_true, Bool.true_and]
  refine ⟨trivial, fun lack => congrArg _ (if_pos lack), fun whole u hu => ?_⟩
  rw [if_neg (by simp [whole]), ← hu]
  refine ⟨fun all => ?_, fun x xs waits => ?_⟩
  · rw [all]
  · rw [waits]

theorem exec_downBlock (on : s.portOn p = true) (live : s.linkSt p = 4 ∨ s.linkSt p = 5) {b : RxBlock}
    (good : badBlock b = false) : exec (.downBlock p b) s = .next ((s.setLinkSt p 5).linkDown p 9 false) := by
  have due : (!s.portOn p || decide (s.linkSt p ≠ 4) && decide (s.linkSt p ≠ 5)) = false := by
    rcases live with h | h <;> simp [on, h]
  simp only [exec, execDownBlock, due, good, Bool.false_eq_true, if_false]

theorem exec_linkBlock_refused (on : s.portOn p = true) (up : s.linkSt p = 4) {b : RxBlock} (bad : badBlock b = true) :
    exec (.laneSwap p b) s = .next (s.refuseLink p b) ∧ exec (.identBlock p none b) s = .next (s.refuseLink p b) ∧
    exec (.downBlock p b) s = .next (s.refuseLink p b) ∧ exec (.timeBlock p b) s = .next (s.refuseLink p b) := by
  simp only [exec, execLaneSwap, execIdentBlock, execDownBlock, execTimeBlock, on, up, bad, Bool.not_true, Bool.false_or,
    ne_eq, not_true, decide_false, Bool.false_eq_true, if_false, if_true, Bool.false_and, and_self]

end

/-- What a LINK block that is refused does: a block of another KIND is dropped, and the other two are counted. -/
theorem State.refuseLink_effect {s : State} {p : Nat} {b : RxBlock} {u : State}
    (h : (b.crcOk = false ∧ u = (s.bump (kLnkCount p 5) b.uncorr.toNat).bump (kLnkCount p 2) 1) ∨
      (b.crcOk = true ∧ b.kind ≠ 2 ∧ u = s) ∨
      (b.crcOk = true ∧ b.kind = 2 ∧ b.tagOk = false ∧ ∀ v, v = (s.bump (kLnkCount p 6) 1).raise 0x0304 3 p b.seq.toNat →
        u = if b.seq.toNat ∈ (s.port p).authLink then v.linkDown p 8 false
          else v.setPort p { s.port p with authLink := b.seq.toNat :: (s.port p).authLink })) :
    badBlock b = true ∧ s.refuseLink p b = u := by
  rcases h with ⟨crc, rfl⟩ | ⟨crc, kind, rfl⟩ | ⟨crc, kind, tag, eq⟩
  · exact ⟨by simp [badBlock, crc], by simp [State.refuseLink, State.badLink, State.crcFail, crc]⟩
  · have other : decide (b.kind ≠ 2) = true := decide_eq_true kind
    exact ⟨by simp only [badBlock, other, Bool.or_true],
      by simp only [State.refuseLink, crc, other, Bool.and_true, if_true]⟩
  · refine ⟨by simp [badBlock, tag], ?_⟩
    rw [eq _ rfl]
    simp [State.refuseLink, State.badLink, crc, kind]

/-! ## The ends of a ring -/

theorem exec_linkStateMessage {s : State} {p : PortId} (on : s.hubOn = true) (up : s.portUp p = true) (link : Fin 32)
    (plusEnd known : Bool) {a l : Nat} (ha : a = p.val / 2) (hl : l = max 1 (s.layoutLen a)) {src : Nat}
    (hsrc : src = (if plusEnd then link.val else (link.val + 1) % l)) :
    (coordOf s.node a = src → exec (.linkStateMessage p ⟨link, plusEnd⟩ known) s = .next s) ∧
    (coordOf s.node a ≠ src → exec (.linkStateMessage p ⟨link, plusEnd⟩ known) s = .next
      ((s.setEnd a link plusEnd known).sendState (Nat.xor p 1) link plusEnd known)) := by
  simp only [exec, execLinkStateMessage, ← ha, ← hl, ← hsrc]
  exact ⟨fun own => congrArg _ (if_pos (by simp [own])), fun other => congrArg _ (if_neg (by simp [on, up, other]))⟩

theorem State.rd_setEnd (s : State) (a : Nat) (c : Fin 32) (plusEnd up : Bool) :
    (s.setEnd a c plusEnd up).rd (netKey (8 + 4 * a)) = setFld (s.ring a) c 1
      (b2n (up && smGet false s.net.ends (endKey a c !plusEnd))) := by
  have own : ∀ e e', smGet false (smSet false s.net.ends (endKey a c e) up) (endKey a c e') =
      if e = e' then up else smGet false s.net.ends (endKey a c e') := fun e e' => by
    rw [smGet_smSet]
    cases e <;> cases e' <;> simp [endKey, b2n]
  have ring : s.ring a = s.rd (netKey (8 + 4 * a)) := rfl
  have fits : c.val + 1 ≤ 64 := by omega
  unfold State.setEnd
  rw [ring]
  generalize netKey (8 + 4 * a) = k
  dsimp only
  rw [State.rd_wrf_same fits]
  cases plusEnd with
  | true => simp only [own, if_true, reduceCtorEq, if_false, Bool.not_true]; rfl
  | false => simp only [own, if_true, reduceCtorEq, if_false, Bool.not_false, Bool.and_comm up]; rfl

/-! ## LNK_CTRL -/

/-- The registers that enabling a port writes. -/
def enableKeys (p : Nat) : List Nat := kLnk p 0 :: linkKeys p

theorem kLnk_ne {p : Nat} (port : p < 8) : kLnk p 0 ∉ linkKeys p := by
  unfold linkKeys kLnkStatus kLnk portBase kTimeStatus netKey
  simp only [List.mem_cons, List.not_mem_nil, or_false]
  omega

/-- A port is off by its enable bit and by the layout alone. -/
theorem State.portOff_congr {s t : State} {p : Nat} (port : p < 8) (regs : RegsExcept (linkKeys p) s t) :
    t.portOff p = s.portOff p := by
  have len : t.layoutLen (p / 2) = s.layoutLen (p / 2) := by
    rw [State.layoutLen, State.rdf, regs kLayout (notMem_linkKeys (by decide)), State.layoutLen, State.rdf]
  rw [State.portOff, State.portOff, len, regs (kLnk p 0) (kLnk_ne port), regs kLayoutStatus (notMem_linkKeys (by decide))]

theorem State.lnkEnable_on (s : State) {p : Nat} (port : p < 8) : let t := s.lnkEnable p true
    bit (t.rd (kLnk p 0)) 0 = true ∧ (s.linkSt p = 0 → t.portOff p = false → t.linkSt p = 1) ∧
    (s.linkSt p ≠ 0 → t.linkSt p = s.linkSt p) ∧ RegsExcept (enableKeys p) s t ∧ SameBytes s t := by
  intro t
  generalize hu : s.wrf (kLnk p 0) 0 1 1 = u
  have ht : t = if (decide (u.linkSt p = 0) && !u.portOff p) = true then u.setLinkSt p 1 else u := by
    rw [← hu]
    exact if_pos rfl
  have enabled : bit (u.rd (kLnk p 0)) 0 = true := by
    rw [← hu, State.rd_wrf_same (by decide), bit_setFld_same]
    rfl
  have link : u.linkSt p = s.linkSt p := by
    rw [State.linkSt, State.rdf, ← hu, State.rd_wrf_ne (by unfold kLnkStatus kLnk; omega), State.linkSt, State.rdf]
  have regs : RegsExcept (enableKeys p) s u := by
    rw [← hu]
    exact (RegsExcept.refl _ s).wrf (by simp [enableKeys]) _ _ _
  have bytes : SameBytes s u := SameBytes.of_mem (by rw [← hu, State.wrf, State.wr_mem])
  rw [← link, ht]
  split
  next trains =>
    obtain ⟨only, written⟩ := u.setLinkSt_frame p 1
    have down : u.linkSt p = 0 := by simpa using (Bool.and_eq_true_iff.1 trains).1
    refine ⟨?_, fun _ _ => u.linkSt_setLinkSt port (by decide), fun up => absurd down up,
      regs.trans (written.mono fun k h => List.mem_cons_of_mem _ h), fun x => ?_⟩
    · rw [written _ (kLnk_ne port)]
      exact enabled
    · rw [SameBytes.of_mem only.mem x, bytes x]
  next stays =>
    refine ⟨enabled, fun down off => ?_, fun _ => rfl, regs, bytes⟩
    exact absurd (by simp [down, off]) stays

section
variable {s : State} {p : PortId}

theorem exec_lnkEnable_off (on : s.portOn p = true) :
    (s.quiet = false → exec (.lnkEnable p false) s = .next s) ∧
    (s.quiet = true → s.linkSt p = 0 → exec (.lnkEnable p false) s = .next (s.wrf (kLnk p 0) 0 1 0)) ∧
    (s.quiet = true → s.linkSt p ≠ 0 → exec (.lnkEnable p false) s = .next ((s.wrf (kLnk p 0) 0 1 0).linkDown p 1 true)) := by
  have link : (s.wrf (kLnk p 0) 0 1 0).linkSt p = s.linkSt p := by
    rw [State.linkSt, State.rdf, State.rd_wrf_ne (by unfold kLnkStatus kLnk; omega), State.linkSt, State.rdf]
  simp only [exec, execLnkEnable, on, if_true, State.lnkEnable, Bool.false_eq_true, if_false, link]
  exact ⟨fun busy => congrArg _ (if_pos (by simp [busy])),
    fun quiet down => congrArg _ ((if_neg (by simp [quiet])).trans (if_pos down)),
    fun quiet up => congrArg _ ((if_neg (by simp [quiet])).trans (if_neg up))⟩

theorem exec_lnkRetrain (on : s.portOn p = true) :
    (s.linkSt p = 4 → exec (.lnkRetrain p) s = .next ((s.setLinkSt p 5).bump (kLnkCount p 7) 1)) ∧
    (s.linkSt p ≠ 4 → exec (.lnkRetrain p) s = .next s) := by
  simp only [exec, execLnkRetrain, on, if_true, State.lnkRetrain, State.startRetrain]
  exact ⟨fun up => congrArg _ (if_pos up), fun other => congrArg _ (if_neg other)⟩

theorem exec_lnkFullTrain (on : s.portOn p = true) :
    (s.linkSt p ≠ 0 → exec (.lnkFullTrain p) s = .next (s.linkDown p 1 false)) ∧
    (s.linkSt p = 0 → exec (.lnkFullTrain p) s = .next s) := by
  simp only [exec, execLnkFullTrain, on, if_true, State.lnkFullTrain]
  exact ⟨fun up => congrArg _ (if_neg up), fun down => congrArg _ (if_pos down)⟩

/-! ## Pod time -/

/-- What a module takes from its parent's reply: the offset, its rate, and whether pod time is near. -/
theorem State.takeOffset_effect (u : State) (p : Nat) (x : PortState) {k k' : Nat} (apart : k ≠ k') (v : Nat) (near : Bool)
    (off : Int) : ∀ w : State, w = (u.setPort p x).wr k v → ∀ t : State,
      t = ((({ w with net := { w.net with slew := off } } : State).wrf k' 0 1 (b2n near)).wrf k' 1 1 0) →
    t.rd k = v % 2 ^ 64 ∧ t.net.slew = off ∧ t.port p = x ∧ bit (t.rd k') 0 = near ∧ bit (t.rd k') 1 = false ∧
    RegsExcept [k, k'] u t ∧ t.mem = u.mem := by
  rintro w hw t rfl
  have written : w.rd k = v % 2 ^ 64 := by rw [hw, State.rd_wr_same]
  have regs : RegsExcept [k, k'] u w := by
    rw [hw]
    exact ((RegsExcept.refl _ u).of_csr (State.setPort_csr ..)).wr (by simp) _
  refine ⟨?_, rfl, ?_, ?_, ?_, ?_, ?_⟩
  · rw [State.rd_wrf_ne apart.symm, State.rd_wrf_ne apart.symm]
    exact written
  · have port : w.port p = x := by
      rw [hw]
      exact u.port_setPort p x
    exact port
  · rw [State.rd_wrf_same (by decide), bit_setFld_apart (by decide), State.rd_wrf_same (by decide), bit_setFld_same]
    cases near <;> rfl
  · rw [State.rd_wrf_same (by decide), bit_setFld_same]
    rfl
  · exact ((regs.of_csr rfl).wrf (by simp) _ _ _).wrf (by simp) _ _ _
  · exact (by rw [hw]; rfl : w.mem = u.mem)

theorem exec_timeBlock_request (on : s.portOn p = true) (up : s.linkSt p = 4) {b : RxBlock} (good : badBlock b = false)
    {u : State} (hu : u = s.takeHeader p b) :
    (leAt b.payload 1 1 = 0 → exec (.timeBlock p b) s = .next (u.sendLink p ([5, 1, 0, 0, 0, 0, 0, 0] ++
      slice b.payload 8 8 ++ leBytes 8 (u.rd kPodTime) ++ leBytes 8 (u.rd kPodTime)))) ∧
    (leAt b.payload 1 1 ≠ 0 → u.parentPort ≠ some p.val ∨ (u.port p).t1 = none → exec (.timeBlock p b) s = .next u) := by
  have due : (!s.portOn p || decide (s.linkSt p ≠ 4)) = false := by simp [on, up]
  simp only [exec, execTimeBlock, due, good, ← hu, Bool.false_eq_true, if_false]
  refine ⟨fun asks => congrArg _ (if_pos asks), fun answers other => ?_⟩
  rw [if_neg answers, if_pos (by simpa using other)]

theorem exec_timeBlock_reply (on : s.portOn p = true) (up : s.linkSt p = 4) {b : RxBlock} (good : badBlock b = false)
    {u : State} (hu : u = s.takeHeader p b) (answers : leAt b.payload 1 1 ≠ 0) (parent : u.parentPort = some p.val)
    (asked : (u.port p).t1.isSome = true) {off : Int} (hoff : off = (((leAt b.payload 16 8 : Int) - leAt b.payload 8 8) -
      ((u.rd kPodTime : Int) - leAt b.payload 24 8)) / 2) :
    ∃ t, exec (.timeBlock p b) s = .next t ∧ t.rd kTimeOffset = wrapInt off 64 % 2 ^ 64 ∧ t.net.slew = off ∧
      (t.port p).t1 = none ∧ bit (t.rd kTimeStatus) 0 = decide (off.natAbs < 20) ∧ bit (t.rd kTimeStatus) 1 = false ∧
      RegsExcept [kTimeOffset, kTimeStatus] u t ∧ SameBytes u t := by
  have due : (!s.portOn p || decide (s.linkSt p ≠ 4)) = false := by simp [on, up]
  have taken : ¬(decide (u.parentPort ≠ some p.val) || (u.port p).t1.isNone) = true := by
    simp [parent, Option.isNone_iff_eq_none, ← Option.not_isSome_iff_eq_none, asked]
  have apart : kTimeOffset ≠ kTimeStatus := by decide
  simp only [exec, execTimeBlock, due, good, ← hu, if_neg answers, ← hoff, Bool.false_eq_true, if_false]
  refine ⟨_, congrArg Host.Outcome.next (if_neg taken), ?_⟩
  obtain ⟨offset, slew, port, near, free, regs, mem⟩ := u.takeOffset_effect p { u.port p with t1 := none } apart
    (wrapInt off 64) (decide (off.natAbs < 20)) off _ rfl _ rfl
  exact ⟨offset, slew, congrArg PortState.t1 port, near, free, regs, SameBytes.of_mem mem⟩

theorem exec_timePeriod (on : s.hubOn = true) :
    (s.parentPort = none → exec .timePeriod s = .next s) ∧
    (∀ p, s.parentPort = some p →
      (s.linkSt p = 4 → exec .timePeriod s = .next ((s.setPort p { s.port p with t1 := some (s.rd kPodTime) }).sendLink p
        ([5, 0, 0, 0, 0, 0, 0, 0] ++ leBytes 8 (s.rd kPodTime)))) ∧
      (s.linkSt p ≠ 4 → exec .timePeriod s = .next (s.wrf kTimeStatus 1 1 1))) := by
  simp only [exec, execTimePeriod, on, Bool.not_true, Bool.false_eq_true, if_false]
  refine ⟨fun root => ?_, fun p below => ?_⟩
  · rw [root]
  · rw [below]
    exact ⟨fun up => congrArg _ (if_pos up), fun down => congrArg _ (if_neg down)⟩

end

/-- Settles O54. -/
theorem linkUpkeep : Obligations.LinkUpkeep := by
  refine ⟨fun s p on => ⟨fun meas up => congrArg Host.Outcome.next (if_pos (by simp [on, up])),
      fun l errs ber lock rest passive => if_pos passive, fun l noSpare => State.failLane_of_noSpare noSpare l,
      fun b up crc tag kind dir l n u hdir hl hn hu => ?_, (exec_alignmentLost on).1, (exec_alignmentLost on).2,
      exec_retrain on, fun other => ⟨congrArg Host.Outcome.next (if_neg (by simp [other])), ?_⟩,
      fun b live crc tag kind => exec_downBlock on live (goodBlock crc tag kind), fun b u up refused => ?_,
      fun link plusEnd up hub open_ a l ha hl src hsrc => exec_linkStateMessage hub open_ link plusEnd up ha hl hsrc,
      s.rd_setEnd⟩,
    fun s p on => ⟨⟨_, congrArg Host.Outcome.next (if_pos on), s.lnkEnable_on p.isLt⟩, (exec_lnkEnable_off on).1,
      (exec_lnkEnable_off on).2.1, (exec_lnkEnable_off on).2.2, (exec_lnkRetrain on).1, (exec_lnkRetrain on).2,
      (exec_lnkFullTrain on).1, (exec_lnkFullTrain on).2⟩,
    fun s on => exec_timePeriod on, fun s p b on up crc tag kind u hu =>
      ⟨(exec_timeBlock_request on up (goodBlock crc tag kind) hu).1, (exec_timeBlock_request on up (goodBlock crc tag kind) hu).2,
        fun answers parent asked off hoff =>
          exec_timeBlock_reply on up (goodBlock crc tag kind) hu answers parent asked hoff⟩⟩
  · obtain ⟨swap, wrong⟩ := exec_laneSwap on up (goodBlock crc tag kind) hdir hl hn hu
    exact ⟨swap, wrong, by rw [hu]; exact exec_identBlock_up on up (goodBlock crc tag kind)⟩
  · have idle : (s.portOn p && decide (s.linkSt p = 5)) = false := by simp [other]
    simp only [exec, execRetrainDone, idle, Bool.false_and, Bool.false_eq_true, if_false]
  · obtain ⟨bad, eq⟩ := State.refuseLink_effect refused
    rw [← eq]
    exact exec_linkBlock_refused on up bad

end Sys2Proof.Machine
end

section
/-! PROOFS of the lamp families: authentication, failure and pulling of lamps (R408 to R430). -/

namespace Sys2Proof.Machine
open Sys2Proof

/-! ## The status register of a lamp -/

theorem State.rdf_wrf_disjoint {k j lo w lo' w' : Nat} (fits : lo + w ≤ 64) (apart : k ≠ j ∨ lo' + w' ≤ lo ∨ lo + w ≤ lo')
    (s : State) (x : Nat) : (s.wrf k lo w x).rdf j lo' w' = s.rdf j lo' w' := by
  by_cases same : k = j
  · subst same
    exact State.rdf_wrf_apart fits (apart.resolve_left fun h => h rfl) s k x
  · rw [State.rdf, State.rd_wrf_ne same, State.rdf]

theorem State.ramping_eq (s : State) (k : Nat) : s.ramping k = decide (s.rdf (kLamp k 0) 8 1 = 1) := (rfl)

theorem State.lampSt_setLampSt (s : State) (k v : Nat) : (s.setLampSt k v).lampSt k = v % 8 :=
  State.rdf_wrf_same (by decide) s _ v

theorem State.lampLevel_setLevel (s : State) (k v : Nat) : (s.setLevel k v).lampLevel k = v % 4 :=
  State.rdf_wrf_same (by decide) s _ v

theorem State.ramping_wrf (s : State) (k : Nat) (b : Bool) : (s.wrf (kLamp k 0) 8 1 (b2n b)).ramping k = b := by
  rw [State.ramping_eq, State.rdf_wrf_same (by decide)]
  cases b <;> rfl

theorem State.lampSt_setLevel (s : State) (k v j : Nat) : (s.setLevel k v).lampSt j = s.lampSt j :=
  State.rdf_wrf_disjoint (by decide) (.inr (by decide)) s v

theorem State.lampSt_wrf_ramp (s : State) (k b j : Nat) : (s.wrf (kLamp k 0) 8 1 b).lampSt j = s.lampSt j :=
  State.rdf_wrf_disjoint (by decide) (.inr (by decide)) s b

theorem State.lampLevel_wrf_ramp (s : State) (k b j : Nat) : (s.wrf (kLamp k 0) 8 1 b).lampLevel j = s.lampLevel j :=
  State.rdf_wrf_disjoint (by decide) (.inr (by decide)) s b

theorem kLamp_ne {j k : Nat} (h : j ≠ k) : kLamp j 0 ≠ kLamp k 0 := by
  unfold kLamp
  omega

theorem partner_ne (k : Nat) : partner k ≠ k := fun h => by
  have one : k ^^^ (k ^^^ 1) = k ^^^ k := congrArg (k ^^^ ·) h
  rw [← Nat.xor_assoc, Nat.xor_self, Nat.zero_xor] at one
  exact absurd one (by decide)

theorem State.lamp_setLamp (s : State) (k : Nat) (x : LampState) : (s.setLamp k x).lamp k = x := by
  rw [State.lamp, State.setLamp]
  exact (smGet_smSet _ _ _ _ _).trans (if_pos rfl)

/-! ## A slot is cleared -/

theorem smGet_filter {α : Type} (d : α) (m : SMap α) (p : Nat → Bool) (j : Nat) :
    smGet d (m.filter fun e => !p e.1) j = if p j then d else smGet d m j := by
  induction m with
  | nil => cases p j <;> rfl
  | cons e m ih =>
    obtain ⟨i, v⟩ := e
    rw [List.filter_cons]
    by_cases gone : p i = true
    · rw [if_neg (by simp [gone]), ih, smGet]
      by_cases same : i = j
      · rw [← same, if_pos gone, if_pos gone]
      · rw [if_neg same]
    · rw [if_pos (by simpa using gone), smGet, smGet, ih]
      by_cases same : i = j
      · rw [if_pos same, if_pos same, ← same, if_neg gone]
      · rw [if_neg same, if_neg same]

theorem State.rd_resetRegs (s : State) (p : Nat → Bool) (j : Nat) :
    (s.resetRegs p).rd j = if p j then (csrReset j).toNat else s.rd j := by
  rw [State.rd, State.resetRegs, State.rd]
  exact (congrArg _ (smGet_filter _ _ p j)).trans (by split <;> rfl)

theorem State.rd_clearSlot (s : State) (k j : Nat) :
    (s.clearSlot k).rd j = if kLamp k 0 ≤ j ∧ j < kLamp k 0x100 then (csrReset j).toNat else s.rd j := by
  rw [State.clearSlot, State.rd_resetRegs]
  simp only [Bool.and_eq_true, decide_eq_true_iff]

/-- A slot whose registers are cleared, with a new cartridge or with none. -/
theorem State.clearedSlot_effect (s : State) (k : LampId) (x : LampState) : let v := (s.clearSlot k).setLamp k x
    v.lampOn k = s.lampOn k ∧ v.lamp k = x ∧
    (∀ j, v.rd j = if kLamp k 0 ≤ j ∧ j < kLamp k 0x100 then (csrReset j).toNat else s.rd j) ∧ v.out = s.out ∧
    v.mem = s.mem := by
  intro v
  have rd : ∀ j, v.rd j = if kLamp k 0 ≤ j ∧ j < kLamp k 0x100 then (csrReset j).toNat else s.rd j := fun j => by
    rw [State.rd, State.setLamp_csr, ← State.rd, State.rd_clearSlot]
  have domains : v.rd kClkDomains = s.rd kClkDomains := by
    rw [rd, if_neg (by unfold kLamp kClkDomains; omega)]
  have powered : v.powered = s.powered := rfl
  refine ⟨?_, State.lamp_setLamp _ _ _, rd, rfl, rfl⟩
  rw [State.lampOn, State.fabOn, State.gated, domains, powered]
  rfl

/-! ## A cartridge is seated -/

theorem State.challengeLamp_effect (s : State) (k : Nat) : let t := s.challengeLamp k
    (t.lamp k).seated = (s.lamp k).seated ∧ t.lampSt k = 1 ∧ (t.lamp k).challenge.length = 32 ∧
    t.out = s.out ++ [.lampChallenge k (t.lamp k).challenge] ∧ t.mem = s.mem := by
  intro t
  generalize hu : (s.random 32).2.setLampSt k 1 = u
  have ht : t = (u.setLamp k { u.lamp k with challenge := (s.random 32).1 }).emit (.lampChallenge k (s.random 32).1) := by
    rw [← hu]
    rfl
  have lamp : t.lamp k = { u.lamp k with challenge := (s.random 32).1 } := by
    rw [ht]
    exact u.lamp_setLamp k _
  have st : t.lampSt k = 1 := by
    have same : u.lampSt k = 1 := by rw [← hu, State.lampSt_setLampSt]
    rw [ht]
    exact same
  rw [lamp]
  refine ⟨?_, st, (List.length_map _).trans List.length_range, ?_, ?_⟩
  · have same : u.lamp k = s.lamp k := by rw [← hu]; rfl
    exact (congrArg LampState.seated same :)
  · have out : u.out = s.out := by rw [← hu]; rfl
    rw [ht]
    exact congrArg (· ++ _) out
  · have mem : u.mem = s.mem := by rw [← hu]; rfl
    rw [ht]
    exact mem

section
variable {s : State} {k : LampId}

theorem exec_lampInserted (empty : (s.lamp k).seated = false) :
    (s.lampOn k = false → ∃ t, exec (.lampInserted k) s = .next t ∧ t.lamp k = { LampState.init with seated := true } ∧
      (∀ j, kLamp k 0 ≤ j → j < kLamp k 0x100 → t.rd j = (csrReset j).toNat) ∧
      (∀ j, ¬(kLamp k 0 ≤ j ∧ j < kLamp k 0x100) → t.rd j = s.rd j) ∧ t.out = s.out ∧ SameBytes s t) ∧
    (s.lampOn k = true → ∃ t, exec (.lampInserted k) s = .next t ∧ (t.lamp k).seated = true ∧
      t.lampSt k = 1 ∧ (t.lamp k).challenge.length = 32 ∧ t.out = s.out ++ [.lampChallenge k (t.lamp k).challenge] ∧
      SameBytes s t) := by
  obtain ⟨same, lamp, rd, out, mem⟩ := s.clearedSlot_effect k { LampState.init with seated := true }
  simp only [exec, execLampInserted, empty, same, Bool.false_eq_true, if_false]
  generalize (s.clearSlot k).setLamp k { LampState.init with seated := true } = v at lamp rd out mem ⊢
  refine ⟨fun off => ⟨v, congrArg _ (if_neg (by simp [off])), lamp, fun j low high => ?_, fun j other => ?_, out,
    SameBytes.of_mem mem⟩, fun on => ?_⟩
  · rw [rd, if_pos ⟨low, high⟩]
  · rw [rd, if_neg other]
  · refine ⟨v.challengeLamp k, congrArg _ (if_pos on), ?_⟩
    obtain ⟨seated, st, len, sent, mem'⟩ := v.challengeLamp_effect k
    exact ⟨seated.trans (congrArg _ lamp), st, len, sent.trans (by rw [out]), SameBytes.of_mem (mem'.trans mem)⟩

end

/-! ## A cartridge answers its challenge -/

/-- The minutes that a slot takes from its cartridge, and from what the module has kept of it (R416). -/
def State.keptMinutes (s : State) (k : Nat) (ser : List Byte) (lit aged : Nat) : Nat × Nat :=
  match smGet none (s.flash.lampRec.map fun e => (e.1, some e.2)) k with
  | some (ser', l, a) => if ser' = ser then (max lit l, max aged a) else (lit, aged)
  | none => (lit, aged)

/-- The age and the identity that a slot takes from the record of its cartridge (R415). -/
def State.recordHead (s : State) (k : Nat) (rec : List Byte) (l a : Nat) : State :=
  ((((s.wr (kLamp k 8) l).wr (kLamp k 4) a).wr (kLamp k 0x18) (leAt rec 76 5)).wr (kLamp k 0x20) (leAt rec 4 8)).wr
    (kLamp k 0x28) (leAt rec 12 4)

/-- The curve that a slot takes from that record. -/
def State.recordCurve (s : State) (k : Nat) (rec : List Byte) : State :=
  (List.range 16).foldl (fun s i => s.wr (kLamp k (0x40 + 4 * i)) (leAt rec (84 + 4 * i) 4)) s

theorem State.recordCurve_frame (s : State) (k : Nat) (rec : List Byte) :
    (∀ o < 0x40, (s.recordCurve k rec).rd (kLamp k o) = s.rd (kLamp k o)) ∧ (s.recordCurve k rec).mem = s.mem := by
  unfold State.recordCurve
  generalize List.range 16 = ls
  refine ⟨fun o low => List.foldlRecOn (motive := fun v : State => v.rd (kLamp k o) = s.rd (kLamp k o)) _ _ rfl
    fun v h i _ => ?_, List.foldlRecOn (motive := fun v : State => v.mem = s.mem) _ _ rfl fun v h i _ => h⟩
  rw [State.rd_wr_ne (by unfold kLamp; omega), h]

/-- The registers of a slot that take the record of its cartridge. -/
def State.recordRegs (s : State) (k : Nat) (rec : List Byte) (l a : Nat) : State :=
  ((s.recordHead k rec l a).recordCurve k rec).wr (kLamp k 0xC) ((2100000 - a) / 60)

theorem State.recordRegs_effect (s : State) (k : Nat) (rec : List Byte) (l a : Nat) : let t := s.recordRegs k rec l a
    t.rd (kLamp k 8) = l % 2 ^ 64 ∧ t.rd (kLamp k 4) = a % 2 ^ 64 ∧ t.rd (kLamp k 0x18) = leAt rec 76 5 ∧
    t.rd (kLamp k 0x20) = leAt rec 4 8 ∧ t.rd (kLamp k 0x28) = leAt rec 12 4 ∧ t.rd (kLamp k 0xC) = (2100000 - a) / 60 := by
  obtain ⟨curve, -⟩ := (s.recordHead k rec l a).recordCurve_frame k rec
  have small : ∀ off n, n ≤ 8 → leAt rec off n < 2 ^ 64 := fun off n le =>
    Nat.lt_of_lt_of_le (leAt_lt rec off n) (Nat.le_trans (Nat.pow_le_pow_right (by decide : 0 < 256) le) (by decide))
  have ne : ∀ o o', o ≠ o' → kLamp k o ≠ kLamp k o' := fun o o' h => by unfold kLamp; omega
  dsimp only
  rw [State.recordRegs, State.rd_wr_ne (ne _ 8 (by decide)), State.rd_wr_ne (ne _ 4 (by decide)),
    State.rd_wr_ne (ne _ 0x18 (by decide)), State.rd_wr_ne (ne _ 0x20 (by decide)), State.rd_wr_ne (ne _ 0x28 (by decide)),
    curve 8 (by decide), curve 4 (by decide), curve 0x18 (by decide), curve 0x20 (by decide), curve 0x28 (by decide),
    State.recordHead]
  generalize hu : State.recordCurve _ k rec = u
  refine ⟨?_, ?_, ?_, ?_, ?_, State.rd_wr_of_lt (by omega) u _⟩
  · rw [State.rd_wr_ne (ne _ _ (by decide)), State.rd_wr_ne (ne _ _ (by decide)), State.rd_wr_ne (ne _ _ (by decide)),
      State.rd_wr_ne (ne _ _ (by decide)), State.rd_wr_same]
  · rw [State.rd_wr_ne (ne _ _ (by decide)), State.rd_wr_ne (ne _ _ (by decide)), State.rd_wr_ne (ne _ _ (by decide)),
      State.rd_wr_same]
  · rw [State.rd_wr_ne (ne _ _ (by decide)), State.rd_wr_ne (ne _ _ (by decide)),
      State.rd_wr_of_lt (small _ _ (by decide))]
  · rw [State.rd_wr_ne (ne _ _ (by decide)), State.rd_wr_of_lt (small _ _ (by decide))]
  · rw [State.rd_wr_of_lt (small _ _ (by decide))]

theorem State.recordRegs_mem (s : State) (k : Nat) (rec : List Byte) (l a : Nat) : (s.recordRegs k rec l a).mem = s.mem := by
  obtain ⟨-, mem⟩ := (s.recordHead k rec l a).recordCurve_frame k rec
  rw [State.recordRegs, State.wr_mem, mem]
  rfl

section
variable {s : State} {k : LampId}

theorem exec_lampAuth_refused (on : s.lampOn k = true) (asked : s.lampSt k = 1) :
    exec (.lampAuthTimeout k) s = .next (s.refuseLamp k) ∧
    (∀ rec lit aged verified, verified = false ∨ lampRecordOk rec = false →
      exec (.lampAuthResponse k rec lit aged verified) s = .next (s.refuseLamp k)) := by
  refine ⟨congrArg Host.Outcome.next (if_pos (by simp [on, asked])), fun rec lit aged verified bad => ?_⟩
  have due : (!s.lampOn k || decide (s.lampSt k ≠ 1)) = false := by simp [on, asked]
  simp only [exec, execLampAuthResponse, due, Bool.false_eq_true, if_false]
  refine congrArg _ (if_pos ?_)
  rcases bad with h | h <;> simp [h]

/-- A slot whose cartridge is accepted, before it is judged. -/
def State.lampAccepted (s : State) (k : Nat) (rec : List Byte) (lit aged : W32) (l a : Nat) : State :=
  let s := (s.keepLampRec k (slice rec 4 12, l, a)).recordRegs k rec l a
  (s.setLampSt k 3).setLamp k { s.lamp k with predicted := false, cartLit := lit.toNat, cartAged := aged.toNat, challenge := [] }

theorem State.lampAccepted_effect (s : State) (k : Nat) (rec : List Byte) (lit aged : W32) (l a : Nat) :
    let u := s.lampAccepted k rec lit aged l a
    u.lampSt k = 3 ∧ u.rd (kLamp k 8) = l % 2 ^ 64 ∧ u.rd (kLamp k 4) = a % 2 ^ 64 ∧ u.rd (kLamp k 0x18) = leAt rec 76 5 ∧
    u.rd (kLamp k 0x20) = leAt rec 4 8 ∧ u.rd (kLamp k 0x28) = leAt rec 12 4 ∧ u.rd (kLamp k 0xC) = (2100000 - a) / 60 ∧
    (u.lamp k).challenge = [] ∧ SameBytes s u := by
  have ne : ∀ o, o ≠ 0 → kLamp k 0 ≠ kLamp k o := fun o h => by unfold kLamp; omega
  intro u
  have mem := (s.keepLampRec k (slice rec 4 12, l, a)).recordRegs_mem k rec l a
  obtain ⟨minutes, age, life, ser, ser', left⟩ :=
    (s.keepLampRec k (slice rec 4 12, l, a)).recordRegs_effect k rec l a
  generalize hw : (s.keepLampRec k (slice rec 4 12, l, a)).recordRegs k rec l a = w at minutes age life ser ser' left mem
  have hu : u = (w.setLampSt k 3).setLamp k { w.lamp k with
      predicted := false, cartLit := lit.toNat, cartAged := aged.toNat, challenge := [] } := by
    rw [← hw]
    rfl
  have rd : ∀ o, o ≠ 0 → u.rd (kLamp k o) = w.rd (kLamp k o) := fun o h => by
    rw [hu, State.rd, State.setLamp_csr, ← State.rd, State.setLampSt, State.rd_wrf_ne (ne o h)]
  rw [rd 8 (by decide), rd 4 (by decide), rd 0x18 (by decide), rd 0x20 (by decide), rd 0x28 (by decide), rd 0xC (by decide)]
  refine ⟨?_, minutes, age, life, ser, ser', left, ?_, SameBytes.of_mem ?_⟩
  · have st : (w.setLampSt k 3).lampSt k = 3 := w.lampSt_setLampSt k 3
    rw [hu]
    exact st
  · rw [hu, State.lamp_setLamp]
  · rw [hu]
    exact mem

theorem exec_lampAuth_accepted (on : s.lampOn k = true) (asked : s.lampSt k = 1) {rec : List Byte}
    (good : lampRecordOk rec = true) (lit aged : W32) {l a : Nat}
    (kept : (l, a) = s.keptMinutes k (slice rec 4 12) lit.toNat aged.toNat) {v : State}
    (hv : v = (s.lampAccepted k rec lit aged l a).judgeLamp k false) :
    exec (.lampAuthResponse k rec lit aged true) s = .next
      (if v.pwr.lampsDone = true ∧ bit (v.rd 0x8800) 0 = true then v.lightLamp k else v) := by
  have due : (!s.lampOn k || decide (s.lampSt k ≠ 1)) = false := by simp [on, asked]
  have fine : (!true || !lampRecordOk rec) = false := by simp [good]
  have light : (if v.pwr.lampsDone = true ∧ bit (v.rd 0x8800) 0 = true then v.lightLamp k else v) =
      if (v.pwr.lampsDone && bit (v.rd 0x8800) 0) = true then v.lightLamp k else v := by
    simp only [Bool.and_eq_true]
  rw [light, hv]
  simp only [exec, execLampAuthResponse, due, fine, Bool.false_eq_true, if_false]
  rw [State.keptMinutes] at kept
  cases record : smGet none (s.flash.lampRec.map fun e => (e.1, some e.2)) k with
  | none =>
    rw [record] at kept
    obtain ⟨rfl, rfl⟩ := Prod.mk.inj kept
    simp only [Nat.max_zero, State.lampAccepted, State.recordRegs, State.recordHead, State.recordCurve]
    rfl
  | some e =>
    obtain ⟨ser, l0, a0⟩ := e
    rw [record] at kept
    by_cases same : ser = slice rec 4 12
    · obtain ⟨rfl, rfl⟩ := Prod.mk.inj (kept.trans (if_pos same))
      simp only [if_pos same, State.lampAccepted, State.recordRegs, State.recordHead, State.recordCurve]
      rfl
    · obtain ⟨rfl, rfl⟩ := Prod.mk.inj (kept.trans (if_neg same))
      simp only [if_neg same, Nat.max_zero, State.lampAccepted, State.recordRegs, State.recordHead, State.recordCurve]
      rfl

end

/-! ## A lamp fails -/

/-- A lamp that has failed, before its partner or its ports are seen to. -/
def State.lampFailed (s : State) (k : Nat) : State :=
  let s := (((s.setLampSt k 6).setLevel k 0).wrf (kLamp k 0) 8 1 0).orBits kLampSticky (2 ^ (8 + k))
  (s.setLamp k { s.lamp k with target := 0, retiring := false }).raise 0x0204 4 k k

theorem State.lampFailed_effect (s : State) {k : Nat} (slot : k < 8) : let v := s.lampFailed k
    v.lampSt k = 6 ∧ v.lampLevel k = 0 ∧ v.ramping k = false ∧ bit (v.rd kLampSticky) (8 + k) = true ∧
    RegsExcept [kLamp k 0, kLampSticky, kRecDropped, kRecSticky] s v ∧ SameBytes s v := by
  have apart : kLampSticky ≠ kLamp k 0 ∧ kLamp k 0 ≠ kRecDropped ∧ kLamp k 0 ≠ kRecSticky ∧ kLampSticky ≠ kRecDropped ∧
      kLampSticky ≠ kRecSticky := by
    unfold kLamp kLampSticky kRecDropped kRecSticky
    omega
  obtain ⟨sticky, dropped, full, dropped', full'⟩ := apart
  have small : 2 ^ (8 + k) < 2 ^ 64 := Nat.pow_lt_pow_right (by decide) (by omega)
  generalize hu : (((s.setLampSt k 6).setLevel k 0).wrf (kLamp k 0) 8 1 (b2n false)) = u
  generalize hw : ((u.orBits kLampSticky (2 ^ (8 + k))).setLamp k
    { (u.orBits kLampSticky (2 ^ (8 + k))).lamp k with target := 0, retiring := false }) = w
  intro v
  have hv : v = w.raise 0x0204 4 k k := by
    rw [← hw, ← hu]
    rfl
  have st : u.lampSt k = 6 := by rw [← hu, State.lampSt_wrf_ramp, State.lampSt_setLevel, State.lampSt_setLampSt]
  have level : u.lampLevel k = 0 := by rw [← hu, State.lampLevel_wrf_ramp, State.lampLevel_setLevel]
  have still : u.ramping k = false := by rw [← hu, State.ramping_wrf]
  have regs : RegsExcept [kLamp k 0, kLampSticky, kRecDropped, kRecSticky] s u := by
    rw [← hu]
    exact (((RegsExcept.refl _ s).wrf (by simp) _ _ _).wrf (by simp) _ _ _).wrf (by simp) _ _ _
  have mem : u.mem = s.mem := by rw [← hu]; rfl
  have set : ∀ j, w.rd j = (u.orBits kLampSticky (2 ^ (8 + k))).rd j := fun j => by
    rw [← hw, State.rd, State.setLamp_csr, State.rd]
  have raised : RegsExcept [kRecDropped, kRecSticky] w v := hv ▸ State.raise_regs _ _ _ _ _
  have status : v.rd (kLamp k 0) = u.rd (kLamp k 0) := by
    rw [raised _ (by simp [dropped, full]), set, State.rd_orBits_ne sticky]
  refine ⟨?_, ?_, ?_, ?_, ?_, SameBytes.of_mem ?_⟩
  · rw [State.lampSt, State.rdf, status, ← State.rdf]
    exact st
  · rw [State.lampLevel, State.rdf, status, ← State.rdf]
    exact level
  · rw [State.ramping, status]
    exact still
  · rw [raised _ (by simp [dropped', full']), set, State.rd_orBits_same small, bit_eq_testBit, Nat.testBit_or,
      Nat.testBit_two_pow_self, Bool.or_true]
  · refine RegsExcept.trans (fun j out => ?_) (raised.mono (by simp))
    rw [set, State.rd_orBits_ne (fun h => out (by simp [h])), regs j out]
  · rw [hv, State.raise_mem, ← hw]
    exact mem

theorem partner_lt {k : Nat} (slot : k < 8) : partner k < 8 := Nat.xor_lt_two_pow (n := 3) slot (by decide)

theorem partner_notMem {k : Nat} (slot : k < 8) : kLamp (partner k) 0 ∉ [kLamp k 0, kLampSticky, kRecDropped, kRecSticky] := by
  have ne := kLamp_ne (partner_ne k)
  have low := partner_lt slot
  have apart : kLamp (partner k) 0 ≠ kLampSticky ∧ kLamp (partner k) 0 ≠ kRecDropped ∧ kLamp (partner k) 0 ≠ kRecSticky := by
    unfold kLamp kLampSticky kRecDropped kRecSticky
    omega
  simp [ne, apart]

theorem State.failLamp_eq (s : State) {k : Nat} (slot : k < 8) : s.failLamp k =
    if s.lampSt (partner k) = 4 then (((s.lampFailed k).setLevel (partner k) 2).wrf (kLamp (partner k) 0) 8 1 0).setLamp
      (partner k) { (s.lampFailed k).lamp (partner k) with target := 2, retiring := false }
    else (s.lampFailed k).pairDark (k / 2) := by
  obtain ⟨-, -, -, -, regs, -⟩ := s.lampFailed_effect slot
  have other : (s.lampFailed k).lampSt (partner k) = s.lampSt (partner k) := by
    rw [State.lampSt, State.rdf, regs _ (partner_notMem slot), State.lampSt, State.rdf]
  rw [← other]
  rfl

/-- A lamp that is raised to the level of two. -/
theorem State.raisedLamp_effect (v : State) (q : Nat) (x : LampState) :
    let t := ((v.setLevel q 2).wrf (kLamp q 0) 8 1 0).setLamp q x
    t.lampSt q = v.lampSt q ∧ t.lampLevel q = 2 ∧ t.ramping q = false ∧ RegsExcept [kLamp q 0] v t ∧ SameBytes v t := by
  intro t
  generalize hu : (v.setLevel q 2).wrf (kLamp q 0) 8 1 (b2n false) = u
  have ht : t = u.setLamp q x := by rw [← hu]; rfl
  have st : u.lampSt q = v.lampSt q := by rw [← hu, State.lampSt_wrf_ramp, State.lampSt_setLevel]
  have level : u.lampLevel q = 2 := by rw [← hu, State.lampLevel_wrf_ramp, State.lampLevel_setLevel]
  have still : u.ramping q = false := by rw [← hu, State.ramping_wrf]
  have regs : RegsExcept [kLamp q 0] v u := by
    rw [← hu]
    exact ((RegsExcept.refl _ v).wrf (by simp) _ _ _).wrf (by simp) _ _ _
  have mem : u.mem = v.mem := by rw [← hu]; rfl
  rw [ht]
  exact ⟨st, level, still, regs.of_csr (State.setLamp_csr ..), SameBytes.of_mem mem⟩

theorem State.failLamp_partner {s : State} {k : Nat} (slot : k < 8) (lit : s.lampSt (partner k) = 4) {t : State}
    (ht : t = s.failLamp k) : t.lampSt k = 6 ∧ t.lampLevel k = 0 ∧ t.ramping k = false ∧
    bit (t.rd kLampSticky) (8 + k) = true ∧ t.lampSt (partner k) = 4 ∧ t.lampLevel (partner k) = 2 ∧
    t.ramping (partner k) = false ∧ SameBytes s t := by
  obtain ⟨st, level, still, sticky, regs, bytes⟩ := s.lampFailed_effect slot
  have own : kLamp k 0 ∉ [kLamp (partner k) 0] := by simp [kLamp_ne (partner_ne k).symm]
  have shared : kLampSticky ∉ [kLamp (partner k) 0] := fun h => partner_notMem slot (by simp [← List.mem_singleton.1 h])
  have stays : (s.lampFailed k).lampSt (partner k) = 4 := by
    rw [State.lampSt, State.rdf, regs _ (partner_notMem slot), ← State.rdf]
    exact lit
  rw [ht, State.failLamp_eq s slot, if_pos lit]
  generalize s.lampFailed k = v at st level still sticky bytes stays ⊢
  obtain ⟨st', level', still', regs', bytes'⟩ :=
    v.raisedLamp_effect (partner k) { v.lamp (partner k) with target := 2, retiring := false }
  refine ⟨?_, ?_, ?_, ?_, st'.trans stays, level', still', fun x => (bytes' x).trans (bytes x)⟩
  · rw [State.lampSt, State.rdf, regs' _ own, ← State.rdf]
    exact st
  · rw [State.lampLevel, State.rdf, regs' _ own, ← State.rdf]
    exact level
  · rw [State.ramping, regs' _ own]
    exact still
  · rw [regs' _ shared]
    exact sticky

/-! ## A lamp is pulled -/

section
variable {s : State} {k : LampId}

theorem exec_lampPulled_dark (on : s.lampOn k = true) (seated : (s.lamp k).seated = true) (dark : s.lampSt k ≠ 4) :
    ∃ t, exec (.lampPulled k) s = .next t ∧ t.lamp k = LampState.init ∧
      (∀ j, kLamp k 0 ≤ j → j < kLamp k 0x100 → t.rd j = (csrReset j).toNat) ∧ bit (t.rd kLampSticky) (8 + k) = true ∧
      t.out = s.out ∧ SameBytes s t := by
  have unlit : (s.lampOn k && decide (s.lampSt k = 4)) = false := by simp [dark]
  have small : 2 ^ (8 + k.val) < 2 ^ 64 := Nat.pow_lt_pow_right (by decide) (by omega)
  obtain ⟨same, lamp, rd, out, mem⟩ := s.clearedSlot_effect k LampState.init
  simp only [exec, execLampPulled, seated, unlit, same, Bool.not_true, Bool.false_eq_true, if_false]
  generalize (s.clearSlot k).setLamp k LampState.init = v at lamp rd out mem ⊢
  refine ⟨v.orBits kLampSticky (2 ^ (8 + k.val)), congrArg _ (if_pos on), lamp, fun j low high => ?_, ?_, out,
    SameBytes.of_mem mem⟩
  · rw [State.rd_orBits_ne (by unfold kLamp at high; unfold kLampSticky; omega), rd, if_pos ⟨low, high⟩]
  · rw [State.rd_orBits_same small, bit_eq_testBit, Nat.testBit_or, Nat.testBit_two_pow_self, Bool.or_true]

theorem exec_lampPulled_lit (on : s.lampOn k = true) (seated : (s.lamp k).seated = true) (lit : s.lampSt k = 4) :
    ∃ t, exec (.lampPulled k) s = .next t ∧ (t.lamp k).seated = false ∧
      t = (((s.failLamp k).raise 0x0205 4 k k).setLamp k { ((s.failLamp k).raise 0x0205 4 k k).lamp k with seated := false }) := by
  have due : (s.lampOn k && decide (s.lampSt k = 4)) = true := by simp [on, lit]
  simp only [exec, execLampPulled, seated, due, Bool.not_true, Bool.false_eq_true, if_false, if_true]
  exact ⟨_, rfl, congrArg LampState.seated (State.lamp_setLamp _ _ _), rfl⟩

theorem exec_lampInterlock (on : s.lampOn k = true) :
    ∃ t, exec (.lampInterlock k) s = .next t ∧ t.rd (kLamp k 0x10) = 0 ∧ t.rd (kLamp k 0x14) = 0 ∧ t.lampLevel k = 0 ∧
      RegsExcept [kLamp k 0x10, kLamp k 0x14, kLamp k 0] s t ∧ t.lamps = s.lamps ∧ SameBytes s t := by
  have ne : ∀ o o', o ≠ o' → kLamp k o ≠ kLamp k o' := fun o o' h => by unfold kLamp; omega
  refine ⟨((s.wr (kLamp k 0x10) 0).wr (kLamp k 0x14) 0).setLevel k 0, congrArg Host.Outcome.next (if_pos on), ?_, ?_,
    State.lampLevel_setLevel _ _ _, ?_, rfl, SameBytes.of_mem rfl⟩
  · rw [State.setLevel, State.rd_wrf_ne (ne _ _ (by decide)), State.rd_wr_ne (ne _ _ (by decide)), State.rd_wr_of_lt (by decide)]
  · rw [State.setLevel, State.rd_wrf_ne (ne _ _ (by decide)), State.rd_wr_of_lt (by decide)]
  · exact ((((RegsExcept.refl _ s).wr (by simp) _).wr (by simp) _).wrf (by simp) _ _ _)

end

/-- Settles O55. -/
theorem lamps : Obligations.Lamps := by
  refine ⟨fun s k => ⟨fun seated => congrArg Host.Outcome.next (if_pos seated), fun empty => (exec_lampInserted empty).1,
      fun empty => (exec_lampInserted empty).2, fun on asked => ⟨(exec_lampAuth_refused on asked).1,
        (exec_lampAuth_refused on asked).2, fun rec lit aged good l a kept => ?_⟩⟩,
    fun s k on => ⟨fun lit => congrArg Host.Outcome.next (if_pos (by simp [on, lit])),
      fun dark => congrArg Host.Outcome.next (if_neg (by simp [dark])), fun lit t => State.failLamp_partner k.isLt lit,
      fun dark => ?_, fun empty => congrArg Host.Outcome.next (if_pos (by simp [empty])), exec_lampPulled_dark on,
      exec_lampPulled_lit on, exec_lampInterlock on, fun pair on => congrArg Host.Outcome.next (if_pos on)⟩⟩
  · obtain ⟨st, minutes, age, life, ser, ser', left, challenge, bytes⟩ := s.lampAccepted_effect k rec lit aged l a
    exact ⟨_, st, minutes, age, life, ser, ser', left, challenge, bytes,
      fun v => exec_lampAuth_accepted on asked good lit aged kept⟩
  · obtain ⟨st, level, still, sticky, -, bytes⟩ := s.lampFailed_effect k.isLt
    exact ⟨s.lampFailed k, (State.failLamp_eq s k.isLt).trans (if_neg dark), st, level, still, sticky, bytes⟩

end Sys2Proof.Machine
end

section
/-! PROOFS of the lamp families: the age of lamps, AUTO_LIGHT and open-fibre control (R416 to R427). -/

namespace Sys2Proof.Machine
open Sys2Proof

/-! ## A minute and an hour of light -/

/-- What a slot knows of its cartridge after a minute of light. -/
def State.minuteLamp (s : State) (k f lit aged : Nat) : LampState :=
  let x := s.lamp k
  let x := if x.minutes ≥ 60 then { x with minutes := 0, nominal := 0 } else x
  let x := { x with minutes := x.minutes + 1 }
  let x := { x with nominal := if s.lampLevel k = 1 then x.nominal + 1 else x.nominal }
  let x := { x with frac := f % 16 }
  if lit % 10 = 0 then { x with cartLit := lit, cartAged := aged } else x

theorem State.minuteLamp_effect (s : State) (k f lit aged : Nat) : (s.minuteLamp k f lit aged).frac = f % 16 ∧
    (s.minuteLamp k f lit aged).predicted = (s.lamp k).predicted := by
  unfold State.minuteLamp
  dsimp only
  split <;> split <;> exact ⟨rfl, rfl⟩

/-- The registers and the slot of a lamp after a minute of light. -/
def State.minuteLit (s : State) (k f : Nat) : State :=
  let lit := satAdd 32 (s.rd (kLamp k 8)) 1
  let aged := satAdd 32 (s.rd (kLamp k 4)) (f / 16)
  ((s.wr (kLamp k 8) lit).wr (kLamp k 4) aged).setLamp k (s.minuteLamp k f lit aged)

theorem State.minuteLit_effect (s : State) (k f : Nat) : let u := s.minuteLit k f
    u.rd (kLamp k 8) = min (s.rd (kLamp k 8) + 1) (2 ^ 32 - 1) ∧
    u.rd (kLamp k 4) = min (s.rd (kLamp k 4) + f / 16) (2 ^ 32 - 1) ∧ (u.lamp k).frac = f % 16 ∧
    (u.lamp k).predicted = (s.lamp k).predicted ∧ RegsExcept [kLamp k 8, kLamp k 4] s u ∧ u.out = s.out ∧ u.mem = s.mem := by
  have ne : kLamp k 4 ≠ kLamp k 8 := by unfold kLamp; omega
  have sat : ∀ a b, satAdd 32 a b = min (a + b) (2 ^ 32 - 1) := fun _ _ => rfl
  obtain ⟨frac, predicted⟩ := s.minuteLamp_effect k f (satAdd 32 (s.rd (kLamp k 8)) 1) (satAdd 32 (s.rd (kLamp k 4)) (f / 16))
  intro u
  have lamp : u.lamp k = _ := State.lamp_setLamp _ _ _
  have rd : ∀ j, u.rd j = ((s.wr (kLamp k 8) (satAdd 32 (s.rd (kLamp k 8)) 1)).wr (kLamp k 4)
      (satAdd 32 (s.rd (kLamp k 4)) (f / 16))).rd j := fun j => rfl
  rw [lamp]
  refine ⟨?_, ?_, frac, predicted, fun j out => ?_, rfl, rfl⟩
  · rw [rd, State.rd_wr_ne ne, State.rd_wr_of_lt (by rw [sat]; omega), sat]
  · rw [rd, State.rd_wr_of_lt (by rw [sat]; omega), sat]
  · rw [rd, ((RegsExcept.refl [kLamp k 8, kLamp k 4] s).wr (by simp) _).wr (by simp) _ j out]

section
variable {s : State} {k : LampId}

theorem exec_lampMinute_dark (on : s.lampOn k = true) (dark : s.lampSt k ≠ 4) :
    ∃ t, exec (.lampMinute k) s = .next t ∧ RegsExcept [] s t ∧ t.out = s.out ∧ SameBytes s t := by
  simp only [exec, execLampMinute, on, if_pos dark, Bool.not_true, Bool.false_eq_true, if_false]
  exact ⟨_, rfl, (RegsExcept.refl _ s).of_csr (State.setLamp_csr ..), rfl, SameBytes.of_mem rfl⟩

theorem exec_lampMinute_lit (on : s.lampOn k = true) (lit : s.lampSt k = 4) {f : Nat}
    (hf : f = (s.lamp k).frac + (if s.lampLevel k = 2 then s.rdf (kLamp k 0x18) 32 8 else 16)) {u v : State}
    (hu : u = s.minuteLit k f) (hv : v = (if (s.lamp k).predicted then u else (u.wr (kLamp k 0xC)
      ((60 * u.rdf (kLamp k 0x18) 0 16 - u.rd (kLamp k 4)) / 60)).judgeLamp k false)) :
    exec (.lampMinute k) s = .next (if u.rd (kLamp k 8) % 60 = 0 then v.keepLampRec k
      (leBytes 8 (v.rd (kLamp k 0x20)) ++ leBytes 4 (v.rd (kLamp k 0x28)), u.rd (kLamp k 8), u.rd (kLamp k 4)) else v) := by
  obtain ⟨minutes, age, -, predicted, -⟩ := s.minuteLit_effect k f
  obtain ⟨-, same⟩ := s.minuteLamp_effect k f (satAdd 32 (s.rd (kLamp k 8)) 1) (satAdd 32 (s.rd (kLamp k 4)) (f / 16))
  have judged : v = (if (s.minuteLamp k f (satAdd 32 (s.rd (kLamp k 8)) 1) (satAdd 32 (s.rd (kLamp k 4)) (f / 16))).predicted
      then u else (u.wr (kLamp k 0xC) (u.hoursLeft k)).judgeLamp k false) := by
    rw [same]
    exact hv
  rw [← hu] at minutes age
  have sat : ∀ a b, satAdd 32 a b = min (a + b) (2 ^ 32 - 1) := fun _ _ => rfl
  rw [minutes, age, ← sat, ← sat, judged, hu]
  simp only [exec, execLampMinute, on, lit, Bool.not_true, Bool.false_eq_true, if_false, ne_eq, not_true, State.minuteLit,
    State.minuteLamp]
  by_cases full : (s.lamp k).minutes ≥ 60
  · simp only [if_pos full, ← hf]
  · simp only [if_neg full, ← hf]

theorem exec_lampHour (on : s.lampOn k = true) (mean : Nat) :
    (s.lampSt k = 4 → (s.lamp k).nominal = 60 → exec (.lampHour k mean) s = .next
      (((s.wr (kLamp k 0xC) (s.predict k mean)).setLamp k { s.lamp k with predicted := true }).judgeLamp k false)) ∧
    (s.lampSt k ≠ 4 ∨ (s.lamp k).nominal ≠ 60 → exec (.lampHour k mean) s = .next s) := by
  refine ⟨fun lit full => congrArg Host.Outcome.next (if_pos (by simp [on, lit, full])),
    fun other => congrArg Host.Outcome.next (if_neg ?_)⟩
  rcases other with h | h <;> simp [h]

theorem exec_lampBiasSample (on : s.lampOn k = true) (ua uw : BitVec 20) {u : State}
    (hu : u = (s.wr (kLamp k 0x10) ua.toNat).wr (kLamp k 0x14) uw.toNat) :
    (s.lampSt k = 4 → s.rdf (kLamp k 0x18) 16 16 * 10 ≤ ua.toNat →
      exec (.lampBiasSample k ua uw) s = .next (u.judgeLamp k true)) ∧
    (s.lampSt k ≠ 4 ∨ ua.toNat < s.rdf (kLamp k 0x18) 16 16 * 10 → exec (.lampBiasSample k ua uw) s = .next u) := by
  have ne : ∀ o o', o ≠ o' → kLamp k o ≠ kLamp k o' := fun o o' h => by unfold kLamp; omega
  have rd : ∀ o, 0x10 ≠ o → 0x14 ≠ o → u.rd (kLamp k o) = s.rd (kLamp k o) := fun o h h' => by
    rw [hu, State.rd_wr_ne (ne _ _ h'), State.rd_wr_ne (ne _ _ h)]
  have st : u.lampSt k = s.lampSt k := by
    rw [State.lampSt, State.rdf, rd 0 (by decide) (by decide), State.lampSt, State.rdf]
  have worn : u.rdf (kLamp k 0x18) 16 16 = s.rdf (kLamp k 0x18) 16 16 := by
    rw [State.rdf, rd 0x18 (by decide) (by decide), State.rdf]
  simp only [exec, execLampBiasSample, on, ← hu, st, worn, Bool.not_true, Bool.false_eq_true, if_false]
  refine ⟨fun lit past => congrArg _ (if_pos (by simp [lit, past])), fun other => congrArg _ (if_neg ?_)⟩
  rcases other with h | h
  · simp [h]
  · simp [Nat.not_le.2 h]

end

/-! ## AUTO_LIGHT -/

theorem exec_autoLight {s : State} (on : s.hubOn = true) {u : State} (hu : u = s.wrf 0x8800 0 1 1) :
    (s.pwr.lampsDone = true → exec .autoLight s = .next
      ((List.range 8).foldl (fun s k => if s.lampOn k then s.lightLamp k else s) u)) ∧
    (s.pwr.lampsDone = false → exec .autoLight s = .next u) := by
  have pwr : u.pwr = s.pwr := by rw [hu]; rfl
  have written : s.wrf 0x8800 0 1 (b2n true) = u := hu.symm
  simp only [exec, execAutoLight, on, if_true, State.autoLight, written, pwr, Bool.true_and]
  exact ⟨fun done => congrArg _ (if_pos done), fun wait => congrArg _ (if_neg (by simp [wait]))⟩

/-- A lamp's ramp to a level: it is lit from the ramp's start (log 59). -/
theorem State.ramp_effect (s : State) (k : Nat) {level : Nat} (up : level ≠ 0) : let t := s.ramp k level false
    t.lampSt k = 4 ∧ t.ramping k = true ∧ (t.lamp k).target = level ∧ RegsExcept [kLamp k 0] s t ∧
    ∀ j, j ≠ k → t.lamp j = s.lamp j := by
  generalize hu : (s.setLampSt k 4).wrf (kLamp k 0) 8 1 (b2n true) = u
  intro t
  have ht : t = u.setLamp k { u.lamp k with target := level, retiring := false } := by
    rw [← hu]
    show s.ramp k level false = _
    rw [State.ramp, if_neg up]
    rfl
  have st : u.lampSt k = 4 := by rw [← hu, State.lampSt_wrf_ramp, State.lampSt_setLampSt]
  have ramping : u.ramping k = true := by rw [← hu, State.ramping_wrf]
  have regs : RegsExcept [kLamp k 0] s u := by
    rw [← hu]
    exact ((RegsExcept.refl _ s).wrf (by simp) _ _ _).wrf (by simp) _ _ _
  have lamps : u.lamps = s.lamps := by rw [← hu]; rfl
  rw [ht]
  refine ⟨st, ramping, congrArg LampState.target (State.lamp_setLamp _ _ _), regs.of_csr (State.setLamp_csr ..), fun j ne => ?_⟩
  rw [State.lamp, State.setLamp]
  exact (smGet_smSet _ _ _ _ _).trans ((if_neg ne.symm).trans (by rw [lamps, State.lamp]))

theorem State.lightLamp_alone {s : State} {k : Nat} (ready : s.lampSt k = 3) (still : s.ramping k = false)
    (alone : s.lampSt (partner k) ≠ 4) : s.lightLamp k = s.ramp k 2 false := by
  simp only [State.lightLamp, ready, still, if_neg alone, ne_eq, not_true, decide_false, Bool.or_false, Bool.false_eq_true,
    if_false]

theorem State.lightLamp_both {s : State} {k : Nat} (ready : s.lampSt k = 3) (still : s.ramping k = false)
    (lit : s.lampSt (partner k) = 4) : s.lightLamp k = (s.ramp k 1 false).ramp (partner k) 1 false := by
  simp only [State.lightLamp, ready, still, if_pos lit, ne_eq, not_true, decide_false, Bool.or_false, Bool.false_eq_true,
    if_false]

theorem State.lightLamp_partner {s : State} {k : Nat} (ready : s.lampSt k = 3) (still : s.ramping k = false)
    (lit : s.lampSt (partner k) = 4) {t : State} (ht : t = s.lightLamp k) :
    t.lampSt k = 4 ∧ t.ramping k = true ∧ (t.lamp k).target = 1 ∧ t.ramping (partner k) = true ∧
    (t.lamp (partner k)).target = 1 ∧ RegsExcept [kLamp k 0, kLamp (partner k) 0] s t := by
  have own : kLamp k 0 ∉ [kLamp (partner k) 0] := by simp [kLamp_ne (partner_ne k).symm]
  obtain ⟨st, ramping, target, regs, -⟩ := s.ramp_effect k (level := 1) (by decide)
  obtain ⟨-, ramping', target', regs', lamps⟩ := (s.ramp k 1 false).ramp_effect (partner k) (level := 1) (by decide)
  rw [ht, State.lightLamp_both ready still lit]
  refine ⟨?_, ?_, ?_, ramping', target', (regs.mono (by simp)).trans (regs'.mono (by simp))⟩
  · rw [State.lampSt, State.rdf, regs' _ own, ← State.rdf]
    exact st
  · rw [State.ramping, regs' _ own]
    exact ramping
  · rw [lamps k (partner_ne k).symm]
    exact target

/-- Settles O56. -/
theorem lampAgeing : Obligations.LampAgeing := by
  refine ⟨fun s k on => ⟨exec_lampMinute_dark on, fun lit => ?_, fun mean => (exec_lampHour on mean).1,
      fun mean => (exec_lampHour on mean).2, fun ua uw u => exec_lampBiasSample on ua uw⟩,
    fun s => ⟨fun on u => exec_autoLight on, fun k ready still alone _ t ht => ?_,
      fun k ready still lit t => State.lightLamp_partner ready still lit, fun p on =>
        ⟨congrArg Host.Outcome.next (if_pos on), fun peer dark => congrArg Host.Outcome.next (if_pos (by simp [on, dark])),
          fun peer light => congrArg Host.Outcome.next (if_neg (by simp [light]))⟩⟩⟩
  · obtain ⟨minutes, age, frac, -, regs, out, mem⟩ := s.minuteLit_effect k
      ((s.lamp k).frac + (if s.lampLevel k = 2 then s.rdf (kLamp k 0x18) 32 8 else 16))
    refine ⟨_, minutes, ?_, regs, out, SameBytes.of_mem mem, fun v => exec_lampMinute_lit on lit rfl rfl⟩
    rintro f rfl
    exact ⟨age, frac⟩
  · obtain ⟨st, ramping, target, regs, -⟩ := s.ramp_effect k (level := 2) (by decide)
    rw [ht, State.lightLamp_alone ready still alone]
    exact ⟨st, ramping, target, regs⟩

end Sys2Proof.Machine
end

section
/-! PROOFS of the boot family: the boot chain, measurement, and the pod secret (R516, R521, R576). -/

namespace Sys2Proof.Machine
open Sys2Proof

/-! ## Bytes of a number -/

theorem leBytes_leNat (bs : List Byte) : leBytes bs.length (leNat bs) = bs := by
  induction bs with
  | nil => rfl
  | cons b bs ih =>
    have low : BitVec.ofNat 8 (leNat (b :: bs)) = b := by
      apply BitVec.eq_of_toNat_eq
      have := b.isLt
      simp only [leNat, BitVec.toNat_ofNat]
      omega
    have high : leNat (b :: bs) / 256 = leNat bs := by
      have := b.isLt
      simp only [leNat]
      omega
    rw [List.length_cons, leBytes, low, high, ih]

theorem slice_eq_map (b : List Byte) (off n : Nat) : slice b off n = (List.range n).map fun i => b.getD (off + i) 0 := by
  refine List.ext_getElem (by rw [slice_length, List.length_map, List.length_range]) fun i h h' => ?_
  simp only [slice, List.getElem_map, List.getElem_range]
  by_cases inside : i < ((b.drop off).take n).length
  · rw [List.getElem_append_left inside, List.getElem_take, List.getElem_drop, getD_of_lt]
  · rw [List.getElem_append_right (by omega), List.getElem_replicate, List.getD_eq_getElem?_getD, List.getElem?_eq_none, Option.getD_none]
    simp only [List.length_map, List.length_range, List.length_take, List.length_drop] at h' inside
    omega

theorem leBytes_leAt (b : List Byte) (off n : Nat) : leBytes n (leAt b off n) = slice b off n := by
  have := leBytes_leNat (slice b off n)
  rwa [slice_length] at this

theorem slice_append (b : List Byte) (off m n : Nat) : slice b off m ++ slice b (off + m) n = slice b off (m + n) := by
  simp only [slice_eq_map, List.range_add, List.map_append, List.map_map, Function.comp_def, Nat.add_assoc]

theorem flatMap_words (b : List Byte) (n : Nat) : ((List.range n).flatMap fun j => slice b (8 * j) 8) = slice b 0 (8 * n) := by
  induction n with
  | zero => rfl
  | succ n ih =>
    rw [List.range_succ, List.flatMap_append, ih, List.flatMap_singleton]
    have whole := slice_append b 0 (8 * n) 8
    rwa [Nat.zero_add] at whole

/-! ## Measurement registers -/

theorem rd_setWords (s : State) (i : Nat) (b : List Byte) (n : Nat) {k : Nat} :
    ((List.range n).foldl (fun s j => s.wr (kMreg i j) (leAt b (8 * j) 8)) s).rd k =
      if kMreg i 0 ≤ k ∧ k < kMreg i n ∧ (k - kMreg i 0) % 8 = 0 then leAt b (k - kMreg i 0) 8 else s.rd k := by
  induction n with
  | zero => rw [if_neg (by omega)]; rfl
  | succ n ih =>
    have word : leAt b (8 * n) 8 < 2 ^ 64 := Nat.lt_of_lt_of_le (leAt_lt b _ 8) (by decide)
    rw [List.range_succ, List.foldl_append, List.foldl_cons, List.foldl_nil]
    by_cases last : kMreg i n = k
    · subst last
      have at' : kMreg i n - kMreg i 0 = 8 * n := by unfold kMreg; omega
      rw [State.rd_wr_of_lt word, if_pos ⟨by unfold kMreg; omega, by unfold kMreg; omega, by omega⟩, at']
    · rw [State.rd_wr_ne last, ih]
      refine ite_of_iff ⟨fun h => ⟨h.1, ?_, h.2.2⟩, fun h => ⟨h.1, ?_, h.2.2⟩⟩ rfl rfl <;> unfold kMreg at h last ⊢ <;> omega

theorem State.rd_extend_of (s : State) (i : Nat) (d : List Byte) {k : Nat} (other : k < kMreg i 0 ∨ kMreg i 8 ≤ k) :
    (s.extend i d).rd k = s.rd k := by
  rw [State.extend, State.setMreg, rd_setWords, if_neg (by omega)]

theorem flatMap_congr_of_mem {α β : Type} {f g : α → List β} {l : List α} (h : ∀ x ∈ l, f x = g x) :
    l.flatMap f = l.flatMap g := by
  rw [List.flatMap_def, List.flatMap_def, List.map_congr_left h]

theorem State.mreg_congr {s t : State} {i : Nat} (h : ∀ j < 8, t.rd (kMreg i j) = s.rd (kMreg i j)) : t.mreg i = s.mreg i :=
  flatMap_congr_of_mem fun j hj => by rw [h j (List.mem_range.1 hj)]

theorem State.mreg_extend_same (s : State) (i : Nat) (d : List Byte) :
    (s.extend i d).mreg i = slice (Config.shake256 64 (s.mreg i ++ d)) 0 64 := by
  rw [State.extend, State.setMreg]
  generalize Config.shake256 64 (s.mreg i ++ d) = b
  rw [← flatMap_words b 8, State.mreg]
  refine flatMap_congr_of_mem fun j hj => ?_
  have small := List.mem_range.1 hj
  have at' : kMreg i j - kMreg i 0 = 8 * j := by unfold kMreg; omega
  rw [rd_setWords, if_pos ⟨by unfold kMreg; omega, by unfold kMreg; omega, by omega⟩, at', leBytes_leAt]

theorem State.mreg_extend_ne (s : State) {i j : Nat} (ne : j ≠ i) (d : List Byte) : (s.extend i d).mreg j = s.mreg j :=
  State.mreg_congr fun k hk => s.rd_extend_of i d (by unfold kMreg; omega)

theorem State.extend_onlyRegs (s : State) (i : Nat) (d : List Byte) : OnlyRegs s (s.extend i d) :=
  List.foldlRecOn (motive := OnlyRegs s) _ _ (.refl s) fun _ h _ _ => h.wr _ _

/-! ## The boot ROM ends -/

theorem State.mreg_withBoot (s : State) (b : BootState) (i : Nat) : ({ s with boot := b } : State).mreg i = s.mreg i := (rfl)

theorem exec_bootRomDone_loaded {s u : State} (on : s.powered = true) (runs : s.boot.rom = .running)
    (hu : u = (s.extend 1 s.flash.birthDigest).extend 1 (Config.shake256 64 (Config.overlayBytes s.repair.overlay))) (b : Bool) :
    ∃ t, exec (.bootRomDone true (some b)) s = .next t ∧ t.boot.rom = .done ∧
      t.mreg 0 = (u.extend 0 (imgDigest (u.image 1 b))).mreg 0 ∧ t.mreg 1 = u.mreg 1 ∧
      smGet 0 t.boot.versions 1 = imgVersion (u.image 1 b) ∧ (b = true → bit (t.rd 0xC000) 2 = true) ∧
      t.boot.aliasKey = Config.shake256 57 (asciiPad "ZLD-ALIAS" 9 ++ Config.pufSeed ++ t.mreg 0) ∧ SameBytes s t := by
  have due : (!s.powered || decide (s.boot.rom ≠ .running)) = false := by simp [on, runs]
  simp only [exec, execBootRomDone, due, Bool.not_true, Bool.false_eq_true, if_false, ← hu]
  generalize hv : (u.extend 0 (imgDigest (u.image 1 b))).setVersion 1 (imgVersion (u.image 1 b)) = v
  generalize hw : (if b = true then v.wrf 0xC000 2 1 1 else v) = w
  have regs : RegsExcept [0xC000] v w := by
    rw [← hw]
    split
    · exact (RegsExcept.refl _ v).wrf (by simp) _ _ _
    · exact .refl _ v
  have boot : w.boot = v.boot ∧ w.mem = v.mem := by
    rw [← hw]
    split <;> exact ⟨rfl, rfl⟩
  have measured : ∀ i, w.mreg i = (u.extend 0 (imgDigest (u.image 1 b))).mreg i := fun i => by
    rw [State.mreg_congr fun j _ => regs _ (by simp only [List.mem_singleton]; unfold kMreg; omega), ← hv]
    rfl
  have mem : w.mem = s.mem := by
    obtain ⟨c, eq⟩ := s.extend_onlyRegs 1 s.flash.birthDigest
    obtain ⟨c', eq'⟩ := (s.extend 1 s.flash.birthDigest).extend_onlyRegs 1
      (Config.shake256 64 (Config.overlayBytes s.repair.overlay))
    obtain ⟨c'', eq''⟩ := u.extend_onlyRegs 0 (imgDigest (u.image 1 b))
    rw [boot.2, ← hv, eq'', hu, eq', eq]
    rfl
  refine ⟨_, rfl, rfl, (w.mreg_withBoot _ 0).trans (measured 0), ?_, ?_, fun copy => ?_, ?_, SameBytes.of_mem mem⟩
  · rw [State.mreg_withBoot, measured, State.mreg_extend_ne _ (by decide)]
  · have versions : smGet 0 v.boot.versions 1 = imgVersion (u.image 1 b) := by
      rw [← hv, State.setVersion]
      exact (smGet_smSet _ _ _ _ _).trans (if_pos rfl)
    rw [← boot.1] at versions
    exact versions
  · have written : bit (w.rd 0xC000) 2 = true := by
      rw [← hw, if_pos copy, State.rd_wrf_same (by decide), bit_setFld_same]
      rfl
    exact written
  · rw [State.mreg_withBoot]
    rfl

theorem exec_bootRomDone_halted {s : State} (on : s.powered = true) (runs : s.boot.rom = .running) :
    (∀ copy, exec (.bootRomDone false copy) s = .next { s with boot := { s.boot with rom := .halted } }) ∧
    (∀ u, u = (s.extend 1 s.flash.birthDigest).extend 1 (Config.shake256 64 (Config.overlayBytes s.repair.overlay)) →
      exec (.bootRomDone true none) s = .next { u with boot := { u.boot with rom := .halted } }) := by
  have due : (!s.powered || decide (s.boot.rom ≠ .running)) = false := by simp [on, runs]
  refine ⟨fun copy => ?_, fun u hu => ?_⟩
  · simp only [exec, execBootRomDone, due, Bool.not_false, Bool.false_eq_true, if_false, if_true]
  · simp only [exec, execBootRomDone, due, Bool.not_true, Bool.false_eq_true, if_false, ← hu]

/-! ## The pod secret -/

theorem kPodKeyId_ne : (0xC000 : Nat) ≠ kPodKeyId := by decide

/-- The pod secret in use, or none, and its identifier in the registers. -/
theorem State.podSet_effect (s : State) (secret : Option (List Byte)) (b : Bool) {id : Nat} (small : id < 2 ^ 64) : ∀ t : State,
    t = (({ s with boot := { s.boot with podSecret := secret } } : State).wrf 0xC000 1 1 (b2n b)).wr kPodKeyId id →
    t.boot.podSecret = secret ∧ bit (t.rd 0xC000) 1 = b ∧ t.rd kPodKeyId = id ∧ RegsExcept [0xC000, kPodKeyId] s t ∧
    SameBytes s t := by
  have apart := kPodKeyId_ne
  generalize kPodKeyId = k at apart ⊢
  generalize (0xC000 : Nat) = k' at apart ⊢
  rintro t rfl
  generalize hu : ({ s with boot := { s.boot with podSecret := secret } } : State) = u
  have boot : u.boot.podSecret = secret := by rw [← hu]
  have csr : u.csr = s.csr := by rw [← hu]
  have mem : u.mem = s.mem := by rw [← hu]
  refine ⟨boot, ?_, State.rd_wr_of_lt small _ k, ?_, SameBytes.of_mem mem⟩
  · rw [State.rd_wr_ne apart.symm, State.rd_wrf_same (by decide), bit_setFld_same]
    cases b <;> rfl
  · exact (((RegsExcept.refl _ s).of_csr csr).wrf (by simp) _ _ _).wr (by simp) _

theorem exec_podClear {s : State} (on : s.hubOn = true) :
    ∃ t, exec .podClear s = .next t ∧ t.boot.podSecret = none ∧ bit (t.rd 0xC000) 1 = false ∧ t.rd kPodKeyId = 0 ∧
      RegsExcept [0xC000, kPodKeyId] s t ∧ SameBytes s t :=
  ⟨s.podForget, congrArg Host.Outcome.next (if_pos on), s.podSet_effect none false (by decide) _ rfl⟩

theorem exec_podInstall {s : State} (on : s.hubOn = true) {b : List Byte}
    (hb : b = (List.range 4).flatMap (fun j => leBytes 8 (s.rd (0xC010 + 8 * j)))) :
    (b.all (· == 0) = true → exec .podInstall s = exec .podClear s) ∧
    (b.all (· == 0) = false → ∃ t, exec .podInstall s = .next t ∧ t.boot.podSecret = some b ∧ bit (t.rd 0xC000) 1 = true ∧
      t.rd kPodKeyId = leAt (Config.shake256 8 (asciiPad "ZLD-PODID" 9 ++ b)) 0 8 ∧ RegsExcept [0xC000, kPodKeyId] s t ∧
      SameBytes s t) := by
  have small : leAt (Config.shake256 8 (asciiPad "ZLD-PODID" 9 ++ b)) 0 8 < 2 ^ 64 :=
    Nat.lt_of_lt_of_le (leAt_lt _ 0 8) (by decide)
  simp only [exec, execPodInstall, execPodClear, if_pos on, State.podTake, ← hb]
  refine ⟨fun zero => congrArg _ (if_pos zero), fun other => ⟨_, congrArg _ (if_neg (by simp only [other]; decide)), ?_⟩⟩
  exact s.podSet_effect (some b) true small _ rfl

/-- RNG_FAIL follows the health tests. -/
theorem State.rngFail_effect (s : State) (b : Bool) : let t := s.wrf 0xC000 4 1 (b2n b)
    t.rngOk = !b ∧ RegsExcept [0xC000] s t ∧ SameBytes s t := by
  unfold State.rngOk
  generalize (0xC000 : Nat) = k
  refine ⟨?_, (RegsExcept.refl _ s).wrf (by simp) _ _ _, SameBytes.of_mem rfl⟩
  rw [State.rd_wrf_same (by decide), bit_setFld_same]
  cases b <;> rfl

/-- Settles O59. -/
theorem bootAndSecrets : Obligations.BootAndSecrets := by
  refine ⟨fun s ok copy powered => ⟨fun ended => congrArg Host.Outcome.next (if_pos (by simp [ended])), ?_, ?_,
      fun i d _ => ⟨s.mreg_extend_same i d, fun j _ ne => s.mreg_extend_ne ne d⟩,
      fun on => congrArg Host.Outcome.next (if_pos on)⟩,
    fun s on b hb => ⟨exec_podClear on, (exec_podInstall on hb).1, (exec_podInstall on hb).2, ?_, ?_⟩⟩
  · rintro runs rfl
    exact (exec_bootRomDone_halted powered runs).1 copy
  · rintro runs rfl u hu
    refine ⟨?_, ?_⟩
    · rintro rfl
      exact (exec_bootRomDone_halted powered runs).2 u hu
    · rintro b rfl
      exact exec_bootRomDone_loaded powered runs hu b
  · exact ⟨_, congrArg Host.Outcome.next (if_pos ((Bool.and_eq_true_iff.1 on).1)), s.rngFail_effect true⟩
  · exact ⟨_, congrArg Host.Outcome.next (if_pos ((Bool.and_eq_true_iff.1 on).1)), s.rngFail_effect false⟩

end Sys2Proof.Machine
end

section
/-! PROOFS of the memory families: accesses and arbitration (R332, R343 to R347). -/

namespace Sys2Proof.Machine
open Sys2Proof

/-! ## Accesses -/

/-- The round of the crossbar that an access passes first; none where it comes without one. -/
def State.viaRound (s : State) (via : Option XbarReq) : Bool × State :=
  match via with
  | some x => s.xbarRound x
  | none => (true, s)

theorem exec_memoryAccess_fenced {s : State} {via : Option XbarReq} (held : s.fencedAll = true ∨
    (∃ x, via = some x ∧ s.fencedTile x.tile.val = true)) (req : Fin 11) (g : W64) (op : MemOp) (rv : List (Fin 11)) :
    exec (.memoryAccess req g op rv via) s = .next s := by
  refine congrArg Host.Outcome.next (if_pos ?_)
  rcases held with all | ⟨x, rfl, tile⟩
  · simp [all]
  · simp [tile]

section
variable {s u : State} {via : Option XbarReq} {go : Bool}

/-- An access that nothing holds back: its rounds, and then its service. -/
theorem exec_memoryAccess_free (on : s.powered = true) (free : s.fencedAll = false)
    (tiles : ∀ x, via = some x → s.fencedTile x.tile.val = false) (round : (go, u) = s.viaRound via) (req : Fin 11)
    (g : W64) (op : MemOp) (rv : List (Fin 11)) :
    (go = false → exec (.memoryAccess req g op rv via) s = .next u) ∧
    (go = true → ∀ a, u.serve g.toNat = .here a → ∀ won v, u.bankRound a req (rv.map (·.val)) = (won, v) →
      (won = false → exec (.memoryAccess req g op rv via) s = .next v) ∧
      (won = true → ∀ c b w, v.serveGlobal g.toNat op = (c, b, w) →
        exec (.memoryAccess req g op rv via) s = .next (w.emit (.access req c b)))) ∧
    (go = true → u.serve g.toNat = .nowhere →
      exec (.memoryAccess req g op rv via) s = .next (u.emit (.access req .unmapped []))) := by
  have nowhere : u.serve g.toNat = .nowhere → u.serveGlobal g.toNat op = (.unmapped, [], u) := fun lost => by
    cases op <;> simp only [State.serveGlobal, lost, State.gRead, State.gWrite]
  cases via with
  | none =>
    obtain ⟨rfl, rfl⟩ := Prod.mk.inj round
    have due : (!u.powered || u.fencedAll || false) = false := by simp [on, free]
    simp only [exec, execMemoryAccess, due, Bool.not_true, Bool.false_eq_true, if_false]
    refine ⟨fun lost => absurd lost (by decide), fun _ a here won v bank => ?_, fun _ lost => ?_⟩
    · simp only [here, bank]
      refine ⟨fun lost => congrArg _ (if_pos (by simp [lost])), fun win c b w served => ?_⟩
      rw [if_neg (by simp [win]), served]
    · simp only [lost, nowhere lost, Bool.not_true, Bool.false_eq_true, if_false]
  | some x =>
    have due : (!s.powered || s.fencedAll || s.fencedTile x.tile.val) = false := by simp [on, free, tiles x rfl]
    have result : s.xbarRound x = (go, u) := round.symm
    simp only [exec, execMemoryAccess, due, result, Bool.false_eq_true, if_false]
    refine ⟨fun lost => congrArg _ (if_pos (by simp [lost])), fun win a here won v bank => ?_, fun win lost => ?_⟩
    · simp only [win, here, bank, Bool.not_true, Bool.false_eq_true, if_false]
      refine ⟨fun lost => congrArg _ (if_pos (by simp [lost])), fun win c b w served => ?_⟩
      rw [if_neg (by simp [win]), served]
    · simp only [win, lost, nowhere lost, Bool.not_true, Bool.false_eq_true, if_false]

end

theorem exec_remoteAccess (s : State) (a : BitVec 44) (op : MemOp) :
    (s.hubOn = false ∨ s.fencedAll = true → exec (.remoteAccess a op) s = .next s) ∧
    (s.hubOn = true → s.fencedAll = false → ∀ c b u, s.serveLocal a.toNat op = (c, b, u) →
      exec (.remoteAccess a op) s = .next (u.emit (.access 255 c b))) := by
  refine ⟨fun idle => congrArg Host.Outcome.next (if_pos (by simpa using idle)), fun on free c b u served => ?_⟩
  have due : (!s.hubOn || s.fencedAll) = false := by simp [on, free]
  simp only [exec, execRemoteAccess, due, served, Bool.false_eq_true, if_false]

theorem State.serveLocal_read {s : State} {a n : Nat} (memory : regionOf a ≠ .csr) (granted : s.accessCode a n = .ok)
    (clean : s.ueAt a n = none) : s.serveLocal a (.read n) = (.ok, s.bytes a n, s) := by
  simp only [State.serveLocal, State.busRead, if_neg memory]
  exact State.memRead_of_no_ue granted clean memory

theorem State.serveLocal_write_refused {s u : State} {a : Nat} {b : List Byte} {c : Code} (memory : regionOf a ≠ .csr)
    (served : s.serveLocal a (.write b false) = (c, [], u))
    (refused : s.accessCode a b.length ≠ .ok ∨ (regionOf a = .granary ∧ s.quiet = false)) : c ≠ .ok ∧ SameBytes s u := by
  have bus : s.busWrite false a b = s.memWrite false a b := if_neg memory
  -- a write that is refused has a code that is not OK, and changes no byte
  have mem : ∃ c' u', s.memWrite false a b = (c', u') ∧ c' ≠ .ok ∧ SameBytes s u' := by
    unfold State.memWrite
    cases code : s.accessCode a b.length with
    | ok =>
      rcases refused with bad | ⟨granary, busy⟩
      · exact absurd code bad
      · exact ⟨.denied, s.orBits (tileBase (tileOf a) + 0x120024) 2, if_pos (by simp [granary, busy]), by decide,
          SameBytes.of_mem (State.orBits_mem ..)⟩
    | _ => exact ⟨_, s, rfl, by decide, fun _ => rfl⟩
  obtain ⟨c', u', wrote, bad, same⟩ := mem
  simp only [State.serveLocal, bus, wrote] at served
  cases c' with
  | ok => exact absurd rfl bad
  | _ =>
    obtain ⟨rfl, -, rfl⟩ := by simpa using served
    exact ⟨bad, same⟩

/-! ## Arbitration -/

theorem exec_holdCutoff {s : State} {a : BitVec 44} {req : Fin 11} (on : s.fabOn (tileOf a.toNat) = true) {b : Nat}
    {core : Bool} (hb : b = tileBase (tileOf a.toNat)) (hcore : core = decide (regionOf a.toNat = .core)) :
    ((core = true ∧ req.val < 6 ∧ s.rdf (b + 0x120204) 8 16 ≠ 0) ∨
      (regionOf a.toNat = .studio ∧ s.rdf (b + 0x120210) 8 16 ≠ 0) →
      ∀ v, v = (if core then a.toNat / 0x100000 else 0x7FF) +
        (if core then coreBank a.toNat else studioBank a.toNat) * 2 ^ 16 + req.val * 2 ^ 24 + 2 ^ 63 →
      ∀ u, u = (((((s.orBits (b + 0x120228) (2 ^ (if core then req.val else 16 + req.val))).wr
        (b + 0x120230) v).bump (b + 0x120238) 1).raise 0x0901 1 (tileOf a.toNat) v).emit (.access req .cutoff [])) →
      exec (.holdCutoff a req) s = .next (if core then u.coreCut (a.toNat / 0x100000) req.val
        else u.studioCut (tileOf a.toNat) req.val)) ∧
    (¬((core = true ∧ req.val < 6 ∧ s.rdf (b + 0x120204) 8 16 ≠ 0) ∨
      (regionOf a.toNat = .studio ∧ s.rdf (b + 0x120210) 8 16 ≠ 0)) → exec (.holdCutoff a req) s = .next s) := by
  have live : ((core && decide (req.val < 6) && decide (s.rdf (b + 0x120204) 8 16 ≠ 0)) ||
      (decide (regionOf a.toNat = .studio) && decide (s.rdf (b + 0x120210) 8 16 ≠ 0))) = true ↔
      ((core = true ∧ req.val < 6 ∧ s.rdf (b + 0x120204) 8 16 ≠ 0) ∨
        (regionOf a.toNat = .studio ∧ s.rdf (b + 0x120210) 8 16 ≠ 0)) := by
    simp only [Bool.or_eq_true, Bool.and_eq_true, decide_eq_true_iff, and_assoc]
  simp only [exec, execHoldCutoff, ← hb, ← hcore]
  refine ⟨fun counted v hv u hu => ?_, fun none => congrArg _ (if_pos ?_)⟩
  · rw [live.2 counted, on, ← hv, ← hu]
    rfl
  · rw [Bool.eq_false_iff.2 (mt live.1 none)]
    rfl

theorem exec_withdraw {s : State} {x : XbarReq} (on : s.fabOn x.tile = true) :
    ((s.xbarRound x).1 = true → exec (.withdraw x) s = .next
      ((s.setArb (arbXbar x.tile x.port.val) ((s.arbOf (arbXbar x.tile x.port.val)).withdraw (s.xbarBase x.tile) x.slot.val
        (distinct (x.slot.val :: x.rivals.map (·.val))))).bump (tileBase x.tile + 0x120240) 1)) ∧
    ((s.xbarRound x).1 = false → exec (.withdraw x) s = .next s) := by
  simp only [exec, execWithdraw, on]
  exact ⟨fun won => congrArg _ (if_neg (by simp [won])), fun lost => congrArg _ (if_pos (by simp [lost]))⟩

/-- Settles O14. -/
theorem memoryAccessesAndArbitration : Obligations.MemoryAccessesAndArbitration := by
  refine ⟨⟨fun s req g op rv via on => ⟨fun held => exec_memoryAccess_fenced held req g op rv,
      fun free tiles go u round => ?_⟩, exec_remoteAccess,
      fun s a n => State.serveLocal_read, fun s a b c u => State.serveLocal_write_refused⟩,
    fun s a req on b core hb hcore => exec_holdCutoff on hb hcore, fun s x on t ht => ?_⟩
  · have via' : (go, u) = s.viaRound via := by
      cases via with
      | none => exact round
      | some x => exact round
    exact exec_memoryAccess_free on free tiles via' req g op rv
  · subst ht
    exact exec_withdraw on

end Sys2Proof.Machine
end

section
/-! PROOFS of the memory families: reads that end corrected or failed, scrubs, parity deltas and received messages (R329,
R352, R457, R557). -/

namespace Sys2Proof.Machine
open Sys2Proof

section
variable {s : State}

theorem exec_readCompletion (on : s.powered = true) :
    (∀ site, exec (.readCompletion site .retried) s = .next s) ∧
    (∀ a : BitVec 44, exec (.readCompletion (.mem a) .corrected) s = .next (s.noteCe a.toNat)) ∧
    (∀ c, exec (.readCompletion (.veRegs c) .corrected) s = .next (s.raise 0x0406 2 c 0) ∧
      exec (.readCompletion (.meBuffer c) .corrected) s = .next (s.raise 0x0406 2 c 0) ∧
      exec (.readCompletion (.dmaBuffer c) .corrected) s = .next (s.raise 0x0406 2 c 0) ∧
      exec (.readCompletion (.queue c) .corrected) s = .next (s.raise 0x0406 2 c 0) ∧
      ∀ k, exec (.readCompletion (.veStore c k) .corrected) s = .next (s.raise 0x0406 2 c 0)) ∧
    (∀ t, exec (.readCompletion (.table t) .corrected) s = .next (s.raise 0x0406 1 t 0)) ∧
    (∀ t r, exec (.readCompletion (.table t) (.failed r)) s = .next ((s.raise 0x0407 1 t 0).fault t .memUe)) := by
  simp only [exec, execReadCompletion, on, Bool.not_true, Bool.false_eq_true, if_false, implies_true, and_self]

theorem exec_readCompletion_mem (on : s.powered = true) (a : BitVec 44) (r : Recon) :
    exec (.readCompletion (.mem a) (.failed r)) s = .next
      (if regionOf a.toNat = .none then s
        else if regionOf a.toNat = .csr then s.ringFails a.toNat (ringSlotAt (a.toNat - csrBase))
        else s.readFails a.toNat r) := by
  simp only [exec, execReadCompletion, on, Bool.not_true, Bool.false_eq_true, if_false]
  cases regionOf a.toNat <;> simp only [reduceCtorEq, if_true, if_false]

theorem State.ringFails_none (a : Nat) : s.ringFails a none = s := rfl

theorem exec_readCompletion_ring (on : s.powered = true) {a : BitVec 44} (r : Recon) :
    (regionOf a.toNat = .none ∨ (regionOf a.toNat = .csr ∧ ringSlotAt (a.toNat - csrBase) = none) →
      exec (.readCompletion (.mem a) (.failed r)) s = .next s) ∧
    (∀ k, regionOf a.toNat = .csr → ringSlotAt (a.toNat - csrBase) = some k →
      ∀ u : State, u = { s with erec := { s.erec with badSlots := k :: s.erec.badSlots.filter (· ≠ k) } } →
      exec (.readCompletion (.mem a) (.failed r)) s = .next ((u.orBits kRecSticky 2).raise 0x0407 0 0 a.toNat)) := by
  rw [exec_readCompletion_mem on]
  refine ⟨fun outside => ?_, fun k csr ring u hu => ?_⟩
  · rcases outside with region | ⟨csr, ring⟩
    · rw [if_pos region]
    · rw [if_neg (by rw [csr]; decide), if_pos csr, ring, State.ringFails_none]
  · rw [if_neg (by rw [csr]; decide), if_pos csr, ring, State.ringFails, hu]

theorem State.csrRead_badRing {off n : Nat} {r : RegAt} {k : Nat} (access : s.csrAccess off n = (.ok, some r))
    (ring : ringSlotAt off = some k) (bad : k ∈ s.erec.badSlots) : s.csrRead off n = (.ue, 0) := by
  have marked : s.badRing off = true := by simp [State.badRing, ring, bad]
  simp only [State.csrRead, access, marked, if_true]

/-- A read of memory that fails: reconstructed where parity covers it, and else marked. -/
theorem exec_readCompletion_memory (on : s.powered = true) {a : BitVec 44} (inside : regionOf a.toNat ≠ .none)
    (memory : regionOf a.toNat ≠ .csr) (r : Recon) :
    exec (.readCompletion (.mem a) (.failed r)) s = .next (s.readFails a.toNat r) := by
  rw [exec_readCompletion_mem on, if_neg inside, if_neg memory]

theorem State.readFails_protected {a : Nat} (covered : s.isProtected a = true) :
    (∀ b, s.readFails a (.bytes b) = (((s.noteUe a).poke (a / 64 * 64) (slice b 0 64)).bump (wideKey 0x130240) 1).raise 0x0805 1
      (tileOf a) (a / 4096 * 4096)) ∧
    s.readFails a .doubleLoss = (s.orBits (wideKey 0x130214) 1).markUe a ∧
    s.readFails a .stripeTorn = (s.orBits (wideKey 0x130214) 2).markUe a :=
  ⟨fun _ => if_pos covered, if_pos covered, if_pos covered⟩

theorem State.readFails_parity {a : Nat} (plain : s.isProtected a = false) (parity : s.inParity a = true) :
    (∀ b, s.readFails a (.bytes b) = ((s.noteUe a).orBits (wideKey 0x130214) 4).poke (a / 64 * 64) (slice b 0 64)) ∧
    s.readFails a .doubleLoss = (s.orBits (wideKey 0x130214) 4).markUe a ∧
    s.readFails a .stripeTorn = (s.orBits (wideKey 0x130214) 4).markUe a := by
  have no : ¬s.isProtected a = true := by simp [plain]
  exact ⟨fun _ => (if_neg no).trans (if_pos parity), (if_neg no).trans (if_pos parity), (if_neg no).trans (if_pos parity)⟩

theorem State.readFails_plain {a : Nat} (plain : s.isProtected a = false) (data : s.inParity a = false) (r : Recon) :
    s.readFails a r = s.markUe a :=
  (if_neg (by simp [plain])).trans (if_neg (by simp [data]))

/-- The storage of a core's units fails: what its VE, its ME, its DMA or its queue works at ends. -/
theorem exec_readCompletion_core (on : s.powered = true) (c : CoreId) (r : Recon) {u : State} (hu : u = s.raise 0x0407 2 c 0) :
    (∀ sh, (u.ve c).run = some sh → (u.ve c).ended = false → exec (.readCompletion (.veRegs c) (.failed r)) s = .next
      (u.veFault c vfMemUe (u.ve c).pc ((u.veInsn c).elim 0 vOp) true)) ∧
    ((u.ve c).run = none ∨ (u.ve c).ended = true → exec (.readCompletion (.veRegs c) (.failed r)) s = .next u) ∧
    (∀ ch l, (u.me c).chains = ch :: l → exec (.readCompletion (.meBuffer c) (.failed r)) s = .next (u.chainFail c true ch)) ∧
    ((u.me c).chains = [] → exec (.readCompletion (.meBuffer c) (.failed r)) s = .next u) ∧
    (∀ x l, (u.ve c).dma = x :: l → exec (.readCompletion (.dmaBuffer c) (.failed r)) s = .next (u.dmaEnd c x .ue)) ∧
    ((u.ve c).dma = [] → exec (.readCompletion (.dmaBuffer c) (.failed r)) s = .next u) ∧
    (∀ k, exec (.readCompletion (.veStore c k) (.failed r)) s = .next (u.veStoreFails c k)) ∧
    exec (.readCompletion (.queue c) (.failed r)) s = .next (u.veQueueFails c) := by
  simp only [exec, execReadCompletion, on, ← hu, Bool.not_true, Bool.false_eq_true, if_false]
  refine ⟨fun sh run goes => ?_, fun ended => ?_, fun ch l chains => ?_, fun chains => ?_, fun x l dma => ?_, fun dma => ?_,
    fun _ => trivial, trivial⟩
  · rw [run]
    exact congrArg _ (if_neg (by simp [goes]))
  · cases run : (u.ve c).run with
    | none => rfl
    | some sh =>
      rcases ended with h | h
      · rw [run] at h
        cases h
      · exact congrArg _ (if_pos h)
  · rw [chains]
  · rw [chains]
  · rw [dma]
  · rw [dma]

theorem exec_patrolScrub (on : s.powered = true) {a : BitVec 44} {t : Nat} (ht : t = tileOf a.toNat) :
    (regionOf a.toNat = .hbm ∨ regionOf a.toNat = .granary → exec (.patrolScrub a true) s = .next (s.noteCe a.toNat)) ∧
    (regionOf a.toNat = .hbm → exec (.patrolScrub a false) s = .next
      (((s.wr (tileBase t + 0x120128) (2 ^ 63 + a.toNat)).raise 0x0402 1 t a.toNat).markUe a.toNat)) ∧
    (regionOf a.toNat = .granary → exec (.patrolScrub a false) s = .next
      (((s.wr (tileBase t + 0x1200A0) (2 ^ 63 + s.rdf (tileBase t + 0x1200A0) 48 15 * 2 ^ 48 + a.toNat)).raise 0x0405 1 t
        a.toNat).markUe a.toNat)) := by
  have due : regionOf a.toNat = .hbm ∨ regionOf a.toNat = .granary →
      (!s.powered || !(decide (regionOf a.toNat = .hbm) || decide (regionOf a.toNat = .granary))) = false := by
    rintro (h | h) <;> simp [on, h]
  simp only [exec, execPatrolScrub, ← ht]
  refine ⟨fun h => ?_, fun h => ?_, fun h => ?_⟩
  · rw [due h]
    rfl
  · rw [due (.inl h), if_pos h]
    rfl
  · have other : ¬regionOf a.toNat = .hbm := by rw [h]; decide
    rw [due (.inr h), if_neg other]
    rfl

theorem exec_parityDelta (on : s.hubOn = true) (gran : Bool) (j off : Nat) (x : List Byte) :
    (bit (s.rd kParityCtrl) 0 = true → j < s.parityUnits gran → off + x.length ≤ 4096 →
      exec (.parityDelta gran j off x) s = .next (s.poke (s.parityAddr gran j + off)
        (xorBytes (s.bytes (s.parityAddr gran j + off) x.length) x))) ∧
    (bit (s.rd kParityCtrl) 0 = false ∨ s.parityUnits gran ≤ j ∨ 4096 < off + x.length →
      exec (.parityDelta gran j off x) s = .next s) := by
  refine ⟨fun enabled unit fits => congrArg Host.Outcome.next (if_neg ?_),
    fun other => congrArg Host.Outcome.next (if_pos (by simpa [on, or_assoc] using other))⟩
  simp [on, enabled, unit, fits]

theorem exec_messageReceived (on : s.hubOn = true) {k n : Nat} {m : List Byte} {rest : List (Nat × Nat × List Byte)}
    (whole : s.net.assembled = (k, n, m) :: rest) : exec .messageReceived s = .next
      ((({ s with net := { s.net with assembled := rest } } : State).freeBuffers (k / 16) (k % 16) n).takeMessage (k / 16)
        (k % 16) m) := by
  simp only [exec, execMessageReceived, on, whole, Bool.not_true, Bool.false_eq_true, if_false]

end

/-- Settles O15. -/
theorem memoryErrors : Obligations.MemoryErrors := by
  intro s on
  obtain ⟨retried, corrected, units, table, tableFails⟩ := exec_readCompletion on
  refine ⟨retried, corrected, fun a r => (exec_readCompletion_ring on r).1, fun a r k => (exec_readCompletion_ring on r).2 k,
    fun off n r k => State.csrRead_badRing, fun a r inside memory plain data => ?_, fun a inside memory covered => ?_,
    fun a inside memory plain parity => ?_, units, fun c r u => exec_readCompletion_core on c r, table, tableFails,
    fun a t => exec_patrolScrub on, fun on => ⟨fun gran j off x => (exec_parityDelta on gran j off x).1,
      fun gran j off x => (exec_parityDelta on gran j off x).2, fun k n m rest => exec_messageReceived on⟩⟩
  · rw [exec_readCompletion_memory on inside memory, State.readFails_plain plain data]
  · obtain ⟨bytes, double, torn⟩ := State.readFails_protected covered
    simp only [exec_readCompletion_memory on inside memory, bytes, double, torn, implies_true, and_self]
  · obtain ⟨bytes, double, torn⟩ := State.readFails_parity plain parity
    simp only [exec_readCompletion_memory on inside memory, bytes, double, torn, implies_true, and_self]

end Sys2Proof.Machine
end

section
/-! PROOFS of the service-port family: the SMBus target and the boundary-scan chain (R26 to R33). -/

namespace Sys2Proof.Machine
open Sys2Proof

section
variable {s : State}

/-- What a listed read of the SMBus target is answered with: its data, and the PEC over the whole transfer (log 43). -/
def State.smbAnswer (s : State) (code : Nat) (d : List Byte) : State :=
  s.emit (.smb (d ++ [pec ([BitVec.ofNat 8 (2 * (0x38 + s.pwr.smbAddr)), BitVec.ofNat 8 code,
    BitVec.ofNat 8 (2 * (0x38 + s.pwr.smbAddr) + 1)] ++ d)]))

theorem State.smbRead_of_standby (standby : s.pwr.standby = true) (code : Nat) (d : List Byte) :
    s.smbRead code d = s.smbAnswer code d := if_pos standby

theorem State.status_bits (s : State) : leBytes 1 (b2n s.powered + 2 * b2n s.alertN + 4 * b2n (s.alertCondition 3) +
      8 * b2n s.pwr.bscan) =
    [BitVec.ofNat 8 (b2n (decide (s.pwr.phase = .on)) + 2 * b2n (decide (s.alertBits ≠ 0)) +
      4 * b2n (decide (s.pwr.offCause ≠ 0)) + 8 * b2n s.pwr.bscan)] := rfl

theorem State.hottest_of_off (off : s.pwr.phase ≠ .on) : leBytes 2 s.hottest = [0x00, 0x80] := by
  rw [State.hottest, if_neg (by simpa [State.powered] using off)]
  rfl

/-- ALERT_CLEAR leaves a bit that it does not name, and one whose condition holds (R29). -/
theorem exec_smbAlertClear (standby : s.pwr.standby = true) (bits : BitVec 16) : ∃ a : BitVec 5,
    exec (.smbAlertClear ⟨9, bits⟩ none) s = .next { s with pwr := { s.pwr with alertSource := a } } ∧
    ∀ i, i < 5 → a.getLsbD i = (s.pwr.alertSource.getLsbD i && (!bits.getLsbD i || s.alertCondition i)) := by
  let p := fun i => bit s.pwr.alertSource.toNat i && (!bit bits.toNat i || s.alertCondition i)
  have kept : ((List.range 5).filter p).foldl (fun v i => v + 2 ^ i) 0 = bitsWhere p 5 := List.foldl_filter
  simp only [exec, execSmbAlertClear, standby, Bool.not_true, Bool.false_eq_true, if_false, ne_eq, not_true]
  refine ⟨_, rfl, fun i hi => ?_⟩
  rw [kept, BitVec.getLsbD_ofNat, testBit_bitsWhere p hi, decide_eq_true hi, Bool.true_and]
  simp only [p, bit_eq_testBit, BitVec.testBit_toNat]

theorem exec_smbAlertClear_other (standby : s.pwr.standby = true) (w : SmbWord) :
    (∀ pe, w.code.toNat > 0x0A → exec (.smbAlertClear w pe) s = .next (s.emit .smbNack)) ∧
    (∀ x : Byte, x ≠ pec ([BitVec.ofNat 8 (2 * (0x38 + s.pwr.smbAddr)), w.code] ++ leBytes 2 w.data.toNat) →
      exec (.smbAlertClear w (some x)) s = .next (s.emit .smbNack)) ∧
    (w.code.toNat < 9 ∨ w.code.toNat = 10 → exec (.smbAlertClear w none) s = .next s) := by
  have addr : s.addrByte false = BitVec.ofNat 8 (2 * (0x38 + s.pwr.smbAddr)) := rfl
  simp only [exec, execSmbAlertClear, standby, addr, Bool.not_true, Bool.false_eq_true, if_false, Bool.false_or]
  refine ⟨fun pe high => congrArg _ (if_pos (by simp [high])), fun x bad => congrArg _ (if_pos (by simpa using .inl bad)),
    fun other => ?_⟩
  have ne : w.code ≠ 9 := fun h => by
    rw [h] at other
    exact absurd other (by decide)
  rw [if_neg (by simp; omega), if_pos ne]

theorem exec_scan (on : s.pwr.phase = .on) (d : Fin 5) :
    exec (.scanBypass d) s = .next (s.setScan d .bypass) ∧
    exec (.scanIdcode d) s = .next ((s.setScan d .idcode).emit (.scan d (leBytes 4 0x1D51E0D3))) ∧
    (∀ cells, exec (.scanSample d cells) s = .next { s with
      pwr := { s.pwr with scanIr := smSet .bypass s.pwr.scanIr d.val .sample, scanCells := smSet [] s.pwr.scanCells d.val cells }
      free := s.free + cells.length
      out := s.out ++ [.scan d (freeBytes cells.length s.free)] }) := by
  have powered : s.powered = true := decide_eq_true on
  exact ⟨congrArg Host.Outcome.next (if_pos powered), congrArg Host.Outcome.next (if_pos powered),
    fun cells => congrArg Host.Outcome.next (if_pos powered)⟩

theorem State.scanDrive_effect (on : s.pwr.phase = .on) (d : Nat) (i : ScanIr) :
    (s.pwr.bscan = true → s.scanDrive d i = s.setScan d i) ∧ (s.pwr.bscan = false → s.scanDrive d i = s.setScan d .bypass) := by
  have powered : s.powered = true := decide_eq_true on
  rw [State.scanDrive, if_pos powered]
  exact ⟨fun mode => by rw [if_pos mode], fun mode => by rw [if_neg (by simp [mode])]⟩

end

/-- Settles O26. -/
theorem servicePorts : Obligations.ServicePorts := by
  refine ⟨fun s standby => ?_, fun s d on => ?_⟩
  · have read := State.smbRead_of_standby standby
    refine ⟨fun w pe => (exec_smbAlertClear_other standby w).1 pe, ?_, fun x => congrArg Host.Outcome.next (read _ _),
      fun x => congrArg Host.Outcome.next (read _ _), fun x => congrArg Host.Outcome.next (read _ _),
      fun _ => congrArg Host.Outcome.next (read _ _), fun off => ?_, fun x => congrArg Host.Outcome.next (read _ _),
      fun x => congrArg Host.Outcome.next (read _ _), congrArg Host.Outcome.next (read _ _),
      congrArg Host.Outcome.next (read _ _), congrArg Host.Outcome.next (read _ _), fun waits => ?_,
      exec_smbAlertClear standby, fun w => (exec_smbAlertClear_other standby w).2.1,
      fun w => (exec_smbAlertClear_other standby w).2.2⟩
    · exact congrArg Host.Outcome.next ((read _ _).trans (congrArg (s.smbAnswer 0) s.status_bits))
    · exact congrArg Host.Outcome.next ((read _ _).trans (congrArg (s.smbAnswer 4) (State.hottest_of_off off)))
    · exact congrArg Host.Outcome.next (if_pos (by simp [standby, State.alertN, waits]))
  · obtain ⟨bypass, idcode, sample⟩ := exec_scan on d
    have drive := State.scanDrive_effect on d
    exact ⟨bypass, idcode, sample, fun mode => ⟨congrArg Host.Outcome.next ((drive _).1 mode),
        congrArg Host.Outcome.next ((drive _).1 mode), congrArg Host.Outcome.next ((drive _).1 mode)⟩,
      fun mode => ⟨congrArg Host.Outcome.next ((drive _).2 mode), congrArg Host.Outcome.next ((drive _).2 mode),
        congrArg Host.Outcome.next ((drive _).2 mode)⟩, fun i k => (smGet_smSet _ _ _ _ _).trans (by simp only [eq_comm])⟩

end Sys2Proof.Machine
end

section
/-! PROOFS of the command families: the commands that drive steps (R44, R59 to R64). -/

namespace Sys2Proof.Machine
open Sys2Proof

/-- A command whose domains run does its work. -/
theorem State.needs_of_running {t : State} {ds : List Nat} (h : t.running ds) (f : State → Ans) : t.needs ds f = f t :=
  if_pos (List.all_eq_true.2 fun d hd => by simp [h d hd])

/-! ## LOAD_PROGRAM -/

/-- One tile's share of a program load. -/
theorem State.slotImage_put (s : State) (mask j k : Nat) (slot : Bool) (p : List Byte) :
    let v := if bit mask j then s.putProgram j slot p else s
    (v.tile k).slotImage slot = (if j = k ∧ bit mask j = true then some p else (s.tile k).slotImage slot) ∧
    (v.tile k).slotImage (!slot) = (s.tile k).slotImage (!slot) ∧ v.csr = s.csr ∧ v.mem = s.mem := by
  intro v
  by_cases named : bit mask j = true
  · have hv : v = s.putProgram j slot p := if_pos named
    rw [hv, State.putProgram]
    generalize hx : (if slot = true then { s.tile j with slot1 := some p } else { s.tile j with slot0 := some p }) = x
    have own : x.slotImage slot = some p ∧ x.slotImage (!slot) = (s.tile j).slotImage (!slot) := by
      rw [← hx]
      cases slot <;> exact ⟨rfl, rfl⟩
    have tile : (s.setTile j x).tile k = if j = k then x else s.tile k := smGet_smSet _ _ _ _ _
    rw [tile]
    by_cases same : j = k
    · subst same
      rw [if_pos rfl, if_pos ⟨rfl, named⟩]
      exact ⟨own.1, own.2, rfl, rfl⟩
    · rw [if_neg same, if_neg fun h => same h.1]
      exact ⟨rfl, rfl, rfl, rfl⟩
  · have hv : v = s := if_neg named
    rw [hv, if_neg fun h => named h.2]
    exact ⟨rfl, rfl, rfl, rfl⟩

/-- The tiles that a program load names. -/
def State.putPrograms (s : State) (mask : Nat) (slot : Bool) (p : List Byte) : State :=
  s.eachTile fun s t => if bit mask t then s.putProgram t slot p else s

theorem State.putPrograms_effect (s : State) (mask : Nat) (slot : Bool) (p : List Byte) : let v := s.putPrograms mask slot p
    (∀ k, k < 4 → (v.tile k).slotImage slot = if bit mask k then some p else (s.tile k).slotImage slot) ∧
    (∀ k, (v.tile k).slotImage (!slot) = (s.tile k).slotImage (!slot)) ∧ v.csr = s.csr ∧ v.mem = s.mem := by
  unfold State.putPrograms State.eachTile
  have put := fun (u : State) j k => u.slotImage_put mask j k slot p
  refine ⟨fun k hk => ?_, fun k => ?_, ?_, ?_⟩
  · rw [(put _ 3 k).1, (put _ 2 k).1, (put _ 1 k).1, (put _ 0 k).1]
    obtain rfl | rfl | rfl | rfl : k = 0 ∨ k = 1 ∨ k = 2 ∨ k = 3 := by omega
    all_goals simp
  · rw [(put _ 3 k).2.1, (put _ 2 k).2.1, (put _ 1 k).2.1, (put _ 0 k).2.1]
  · rw [(put _ 3 0).2.2.1, (put _ 2 0).2.2.1, (put _ 1 0).2.2.1, (put _ 0 0).2.2.1]
  · rw [(put _ 3 0).2.2.2, (put _ 2 0).2.2.2, (put _ 1 0).2.2.2, (put _ 0 0).2.2.2]

section
variable {s t u : State} {e : HcpEntry} {slow : Bool}

theorem exec_loadProgram (due : s.cmdDue 0x0301 e t) (up : t.running fabDomains) (slot : leAt e.block 0 1 ≤ 1)
    (some : 1 ≤ leAt e.block 1 1) (four : leAt e.block 1 1 ≤ 15) (zero : zeroAt e.block 2 6 = true)
    (zero' : zeroAt e.block 20 4 = true) (long : 64 ≤ leAt e.block 16 4) (short : leAt e.block 16 4 ≤ 64 + 32 * 262142)
    (free : t.seq.mode = .idle ∨ t.seq.active = !decide (leAt e.block 0 1 = 1)) {p : List Byte}
    (read : t.gRead (leAt e.block 8 8) (leAt e.block 16 4) = (.ok, p, u)) :
    (progOk p = true → exec (.loadProgram slow) s = .next (t.answer e slow
      (stOk, [], u.putPrograms (leAt e.block 1 1) (decide (leAt e.block 0 1 = 1)) p))) ∧
    (progOk p = false → exec (.loadProgram slow) s = .next (t.answer e slow (stBadParam, [], u))) := by
  have fine : (decide (leAt e.block 0 1 > 1) || decide (leAt e.block 1 1 = 0) || decide (leAt e.block 1 1 > 15) ||
      !zeroAt e.block 2 6 || !zeroAt e.block 20 4 || decide (leAt e.block 16 4 < 64) ||
      decide (leAt e.block 16 4 > 64 + 32 * 262142)) = false := by
    simp [zero, zero']
    omega
  have quiet : (decide (decide (leAt e.block 0 1 = 1) = t.seq.active) && !t.isIdle) = false := by
    rcases free with idle | other
    · simp [State.isIdle, idle]
    · rw [other]
      cases decide (leAt e.block 0 1 = 1) <;> rfl
  have body : ∀ a, (if progOk p then (stOk, [], u.putPrograms (leAt e.block 1 1) (decide (leAt e.block 0 1 = 1)) p)
      else (stBadParam, [], u)) = a → exec (.loadProgram slow) s = .next (t.answer e slow a) := by
    rintro a rfl
    refine congrArg Host.Outcome.next (State.runCommand_answers due ?_)
    dsimp only
    rw [fine, if_neg (by decide), State.needs_of_running up, quiet, if_neg (by decide), read]
    rfl
  exact ⟨fun good => body _ (if_pos good), fun bad => body _ (if_neg (by simp [bad]))⟩

/-! ## RUN_STEPS -/

theorem exec_runSteps (due : s.cmdDue 0x0302 e t) (up : t.running fabDomains) (slot : leAt e.block 0 1 ≤ 1)
    (zero : zeroAt e.block 1 7 = true) {r : Nat}
    (hr : r = t.runRefusal (decide (leAt e.block 0 1 = 1)) (leAt e.block 8 8) (leAt e.block 16 8)) :
    exec (.runSteps slow) s = .next (t.answer e slow (if r = stOk then
      (stOk, [], t.runGo (decide (leAt e.block 0 1 = 1)) (leAt e.block 8 8) (leAt e.block 16 8)) else (r, [], t))) := by
  have fine : (decide (leAt e.block 0 1 > 1) || !zeroAt e.block 1 7) = false := by simp [zero, slot]
  refine congrArg Host.Outcome.next (State.runCommand_answers due ?_)
  dsimp only
  rw [fine, if_neg (by decide), State.needs_of_running up, ← hr]
  rfl

/-- The refusals of RUN_STEPS, in the order of R59. -/
theorem State.runRefusal_effect (s : State) (slot : Bool) (first count : Nat) :
    (s.seq.mode = .faulted → s.seq.mixed = true → s.runRefusal slot first count = stStepFault) ∧
    (s.seq.mode ≠ .idle → ¬(s.seq.mode = .faulted ∧ s.seq.mixed = true) → s.runRefusal slot first count = stBusy) ∧
    (s.seq.mode = .idle → (∃ k, k < 4 ∧ (s.tile k).slotImage slot = none) → s.runRefusal slot first count = stNotReady) ∧
    (∀ p : Nat → List Byte, s.seq.mode = .idle → (∀ k, k < 4 → (s.tile k).slotImage slot = some (p k)) →
      bit (s.rd kGrnCtrl) 4 = true →
      s.runRefusal slot first count =
        if s.seq.mixed = true then stStepFault
        else if [0, 1, 2, 3].any (fun k => progGen (p k) ≠ s.gen) then stGeneration
        else if first ≠ s.step then stBadParam
        else if first + count > 2 ^ 48 - 1 then stLimit
        else stOk) := by
  unfold State.runRefusal
  refine ⟨fun faulted mixed => if_pos (by simp [faulted, mixed]), fun runs notMixed => ?_, fun idle missing => ?_,
    fun p idle images online => ?_⟩
  · rw [if_neg (by simpa using notMixed), if_pos (by simpa [State.isIdle] using runs)]
  · obtain ⟨k, hk, none⟩ := missing
    have absent : ((List.range 4).map fun t => (s.tile t).slotImage slot).any (·.isNone) = true :=
      List.any_eq_true.2 ⟨_, List.mem_map.2 ⟨k, List.mem_range.2 hk, rfl⟩, by rw [none]; rfl⟩
    rw [if_neg (by simp [idle]), if_neg (by simp [State.isIdle, idle])]
    exact if_pos (by rw [absent, Bool.true_or])
  · have all : (List.range 4).map (fun t => (s.tile t).slotImage slot) = [some (p 0), some (p 1), some (p 2), some (p 3)] := by
      rw [← images 0 (by decide), ← images 1 (by decide), ← images 2 (by decide), ← images 3 (by decide)]
      rfl
    rw [if_neg (by simp [idle]), if_neg (by simp [State.isIdle, idle]), all]
    rw [online, if_neg (by simp)]
    rfl

/-! ## What RUN_STEPS starts -/

/-- A state that differs in its Granary and its embedding engines alone. -/
def OnlyStores (s t : State) : Prop := ∃ g e m, t = { s with gran := g, emb := e, embm := m }

theorem State.markStale_onlyStores (s : State) (first : Nat) : OnlyStores s (s.markStale first) := by
  refine State.eachTile_keeps (P := OnlyStores s) ?_ ⟨s.gran, s.emb, s.embm, rfl⟩
  rintro u t ⟨g, e, m, rfl⟩
  exact ⟨_, _, _, rfl⟩

theorem State.newWindow_onlyStores (s : State) (w : Option Nat) : OnlyStores s (s.newWindow w) := by
  obtain ⟨e, eq⟩ := s.clearHeat_shape
  rw [State.newWindow, eq]
  exact ⟨_, _, _, rfl⟩

theorem OnlyStores.trans {s t u : State} : OnlyStores s t → OnlyStores t u → OnlyStores s u := by
  rintro ⟨_, _, _, rfl⟩ ⟨_, _, _, rfl⟩
  exact ⟨_, _, _, rfl⟩

/-- The stores made ready for a run: later segments stale, and a window open. -/
def State.runStores (s : State) (first : Nat) : State :=
  if (s.markStale first).embm.window.isNone then (s.markStale first).newWindow (some 0) else s.markStale first

theorem State.runStores_onlyStores (s : State) (first : Nat) : OnlyStores s (s.runStores first) := by
  unfold State.runStores
  split
  · exact (s.markStale_onlyStores first).trans (State.newWindow_onlyStores _ _)
  · exact s.markStale_onlyStores first

theorem State.judgeCame_of_none {s : State} {ph : Nat} (none : ∀ m ∈ s.seq.came, m.phase ≠ ph) : s.judgeCame ph = s := by
  have empty : s.cameOf ph = [] := List.filter_eq_nil_iff.2 fun m hm => by simpa using none m hm
  rw [State.judgeCame, empty]
  rfl

theorem State.runGo_eq (first count : Nat) (slot : Bool) (early : ∀ m ∈ s.seq.came, m.phase ≠ 0) {w x : State}
    (hw : w = s.runStores first) (hx : x = ({ w with seq := { w.seq with
      active := slot, haltPending := false, firstFault := none, fenceOrder := 0, decision := none, mode := .starting } } : State).wr kSeqStepsLeft
        (if count = 0 then 2 ^ 48 - 1 else count)) : s.runGo slot first count = x.barrierOut 0 := by
  have seq : w.seq = s.seq := by
    obtain ⟨g, e, m, eq⟩ := s.runStores_onlyStores first
    rw [hw, eq]
  have came : ∀ m ∈ (x.barrierOut 0).seq.came, m.phase ≠ 0 := by
    have same : (x.barrierOut 0).seq.came = s.seq.came := by
      rw [hx]
      exact (congrArg SeqState.came seq :)
    rwa [same]
  rw [← State.judgeCame_of_none came, hx, hw]
  rfl

theorem State.runGo_effect (slot : Bool) (first count : Nat) (early : ∀ m ∈ s.seq.came, m.phase ≠ 0) :
    let t := s.runGo slot first count
    t.seq.mode = .starting ∧ t.seq.active = slot ∧ t.seq.haltPending = false ∧ t.seq.firstFault = none ∧
    (count < 2 ^ 48 → t.rd kSeqStepsLeft = if count = 0 then 2 ^ 48 - 1 else count) ∧
    t.out = s.out ++ [.podFence 0 s.step s.gen s.dirGen 0] ∧ RegsExcept [kSeqStepsLeft] s t ∧ SameBytes s t := by
  obtain ⟨g, e, m, eq⟩ := s.runStores_onlyStores first
  generalize hw : s.runStores first = w at eq
  generalize hy : ({ w with seq := { w.seq with
    active := slot, haltPending := false, firstFault := none, fenceOrder := 0, decision := none, mode := .starting } } : State) = y
  have csr : y.csr = s.csr := by rw [← hy, eq]
  have out : y.out = s.out := by rw [← hy, eq]
  have mem : y.mem = s.mem := by rw [← hy, eq]
  have seq : y.seq.mode = .starting ∧ y.seq.active = slot ∧ y.seq.haltPending = false ∧ y.seq.firstFault = none := by
    rw [← hy]
    exact ⟨rfl, rfl, rfl, rfl⟩
  generalize hx : y.wr kSeqStepsLeft (if count = 0 then 2 ^ 48 - 1 else count) = x
  have regs : RegsExcept [kSeqStepsLeft] s x := by
    rw [← hx]
    exact ((RegsExcept.refl _ s).of_csr csr).wr (by simp) _
  have step : x.step = s.step := congrArg (fld · 0 48) (regs kSeqStep (by decide))
  have gen : x.gen = s.gen := congrArg (fld · 0 16) (regs kLayoutStatus (by decide))
  have dir : x.dirGen = s.dirGen := congrArg (fld · 0 16) (regs kDirGen (by decide))
  intro t
  have ht : t = x.barrierOut 0 := State.runGo_eq first count slot early hw.symm (by rw [← hx, ← hy])
  obtain ⟨mode, active, halt, fault⟩ := seq
  have xseq : x.seq = y.seq := by rw [← hx, State.wr_seq]
  have sent : x.barrierOut 0 = x.emit (.podFence 0 s.step s.gen s.dirGen 0) := by
    rw [State.barrierOut, step, gen, dir, if_neg (by decide)]
  have tseq : t.seq = y.seq := by
    rw [ht, sent]
    exact xseq
  rw [tseq, ht, sent]
  refine ⟨mode, active, halt, fault, fun small => ?_, ?_, regs.emit _, SameBytes.of_mem ?_⟩
  · have left : x.rd kSeqStepsLeft = if count = 0 then 2 ^ 48 - 1 else count := by
      rw [← hx]
      exact State.rd_wr_of_lt (by split <;> omega) y _
    rw [State.rd, State.emit_csr, ← State.rd, left]
  · rw [State.emit, ← hx]
    exact congrArg (· ++ _) out
  · rw [← hx]
    exact mem

/-! ## HALT_STEPS, ABORT_JOB -/

theorem exec_haltSteps (due : s.cmdDue 0x0303 e t) :
    (t.seq.mode = .idle → exec (.haltSteps slow) s = .next (t.answer e slow (stOk, [], t))) ∧
    (t.seq.mode ≠ .idle → exec (.haltSteps slow) s = .next (t.answer e slow (stOk, [],
      ({ t with seq := { t.seq with haltPending := true } } : State).wr kSeqHaltAt (leAt e.block 0 8 % 2 ^ 48)))) :=
  ⟨fun idle => congrArg Host.Outcome.next (State.runCommand_answers due (if_pos (by simpa [State.isIdle] using idle))),
    fun runs => congrArg Host.Outcome.next (State.runCommand_answers due (if_neg (by simpa [State.isIdle] using runs)))⟩

theorem exec_abortJob (due : s.cmdDue 0x0304 e t) :
    (¬(t.seq.mode = .fence ∧ t.seq.fenceOrder ≥ 3) → exec .abortJob s = .next (t.answer e false (stOk, [], t.take .abort))) ∧
    (t.seq.mode = .fence ∧ t.seq.fenceOrder ≥ 3 →
      exec .abortJob s = .next (t.answer e false (stPending, [], t.take .abort))) :=
  ⟨fun free => congrArg Host.Outcome.next (State.runCommand_answers due (if_neg (by simpa [State.inFence] using free))),
    fun fence => congrArg Host.Outcome.next (State.runCommand_answers due (if_pos (by simpa [State.inFence] using fence)))⟩

end

/-- Settles O30. -/
theorem stepCommands : Obligations.StepCommands := by
  refine ⟨fun s t e slow => ⟨fun due up slot some four zero zero' long short free p u read => ?_,
      fun due up slot zero r => exec_runSteps due up slot zero, exec_haltSteps, exec_abortJob, fun due => ?_⟩,
    State.runRefusal_effect, fun s slot first count early => State.runGo_effect slot first count early⟩
  · obtain ⟨good, bad⟩ := exec_loadProgram (slow := slow) due up slot some four zero zero' long short free read
    obtain ⟨own, other, csr, mem⟩ := u.putPrograms_effect (leAt e.block 1 1) (decide (leAt e.block 0 1 = 1)) p
    exact ⟨fun ok => ⟨_, good ok, own, other, (RegsExcept.refl _ u).of_csr csr, SameBytes.of_mem mem⟩, bad⟩
  · refine congrArg Host.Outcome.next (State.runCommand_answers due ?_)
    cases t.seq.firstFault with
    | none => rfl
    | some c => cases c <;> rfl

end Sys2Proof.Machine
end

section
/-! PROOFS of the command families: the commands of embedding tables and rows (R275 to R300). -/

namespace Sys2Proof.Machine
open Sys2Proof

/-! ## What a store of memory leaves -/

theorem State.storeUnits_embm (s : State) (a : Nat) (bs : List Byte) (f : Nat) : (s.storeUnits a bs f).embm = s.embm := by
  induction f generalizing s a bs with
  | zero => rfl
  | succ f ih =>
    unfold State.storeUnits
    split
    · rfl
    · rw [ih]
      have sent : (s.parityDelta a (bs.take (4096 - a % 4096))).embm = s.embm := by
        unfold State.parityDelta
        rcases s.parityXor_eq a (xorBytes (s.bytes a (bs.take (4096 - a % 4096)).length) (bs.take (4096 - a % 4096))) with
          h | ⟨o, h⟩
        · rw [h]
        · rw [h]
          rfl
      exact sent

theorem State.store_embm (s : State) (a : Nat) (bs : List Byte) : (s.store a bs).embm = s.embm := by
  have posted : ∀ u : State, (u.post a bs.length).embm = u.embm := fun u => by
    unfold State.post
    split <;> rfl
  rw [State.store, posted, State.storeUnits_embm]

theorem State.memWrite_own_embm {s u : State} {a : Nat} {bs : List Byte} {c : Code} (wrote : s.memWrite true a bs = (c, u)) :
    u.embm = s.embm := by
  unfold State.memWrite at wrote
  cases code : s.accessCode a bs.length with
  | ok =>
    rw [code] at wrote
    simp only [Bool.not_true, Bool.and_false, Bool.false_and, Bool.false_eq_true, if_false, Prod.mk.injEq] at wrote
    rw [← wrote.2]
    split
    · rfl
    · exact s.store_embm a bs
  | _ =>
    rw [code] at wrote
    rw [← (Prod.mk.inj wrote).2]

section
variable {s t : State} {e : HcpEntry} {slow : Bool}

/-! ## Tables -/

theorem State.table_setTable (s : State) (n : Nat) (d : List Byte) : (s.setTable n d).table n = d :=
  (smGet_smPut _ _ _ _ _).trans (if_pos rfl)

theorem tableBlock {e : HcpEntry} (small : leAt e.block 0 2 < 4096) (zero : zeroAt e.block 2 6 = true) :
    (decide (leAt e.block 0 2 ≥ 4096) || !zeroAt e.block 2 6) = false := by
  simp [zero, small]

theorem exec_defineTable (due : s.cmdDue 0x0401 e t) (up : t.running fabDomains) (small : leAt e.block 0 2 < 4096)
    (zero : zeroAt e.block 2 6 = true) (idle : t.seq.mode = .idle) :
    (tbValid (t.table (leAt e.block 0 2)) = false ∧ t.tableFits (slice e.block 8 64) = true →
      (tbFmt (slice e.block 8 64) ≠ 0 ∧ bit (t.rd kGrnCtrl) 4 = false →
        exec (.defineTable slow) s = .next (t.answer e slow (stNotReady, [], t))) ∧
      (tbFmt (slice e.block 8 64) = 0 ∨ bit (t.rd kGrnCtrl) 4 = true →
        exec (.defineTable slow) s = .next (t.answer e slow (stOk, [], t.setTable (leAt e.block 0 2) (slice e.block 8 64))))) ∧
    (¬(tbValid (t.table (leAt e.block 0 2)) = false ∧ t.tableFits (slice e.block 8 64) = true) →
      exec (.defineTable slow) s = .next (t.answer e slow (stBadParam, [], t))) := by
  have runs : (!t.isIdle) = false := by simp [State.isIdle, idle]
  have body : ∀ a, (if (tbValid (t.table (leAt e.block 0 2)) || !t.tableFits (slice e.block 8 64)) = true then t.no stBadParam
      else if (decide (tbFmt (slice e.block 8 64) ≠ 0) && !bit (t.rd kGrnCtrl) 4) = true then t.no stNotReady
      else (t.setTable (leAt e.block 0 2) (slice e.block 8 64)).yes) = a →
      exec (.defineTable slow) s = .next (t.answer e slow a) := by
    rintro a rfl
    refine congrArg Host.Outcome.next (State.runCommand_answers due ?_)
    dsimp only
    rw [tableBlock small zero, if_neg (by decide), State.needs_of_running up, runs, if_neg (by decide)]
  refine ⟨fun ⟨free, fits⟩ => ⟨fun ⟨granary, off⟩ => body _ ?_, fun there => body _ ?_⟩, fun bad => body _ ?_⟩
  · rw [if_neg (by simp [free, fits]), if_pos (by simp [granary, off])]
    rfl
  · rw [if_neg (by simp [free, fits]), if_neg (by rcases there with h | h <;> simp [h])]
    rfl
  · rw [if_pos]
    · rfl
    · by_cases free : tbValid (t.table (leAt e.block 0 2)) = true
      · rw [free, Bool.true_or]
      · have misfit : t.tableFits (slice e.block 8 64) = false := by
          rw [← Bool.not_eq_true]
          exact fun fits => bad ⟨by rwa [← Bool.not_eq_true], fits⟩
        rw [misfit, Bool.not_false, Bool.or_true]

theorem exec_dropTable (due : s.cmdDue 0x0402 e t) (up : t.running fabDomains) (small : leAt e.block 0 2 < 4096)
    (zero : zeroAt e.block 2 6 = true) (idle : t.seq.mode = .idle) :
    (t.journalHolds (leAt e.block 0 2) = true → exec (.dropTable slow) s = .next (t.answer e slow (stNotReady, [], t))) ∧
    (t.journalHolds (leAt e.block 0 2) = false →
      exec (.dropTable slow) s = .next (t.answer e slow (stOk, [], t.dropTable (leAt e.block 0 2)))) := by
  have runs : (!t.isIdle) = false := by simp [State.isIdle, idle]
  have body : ∀ a, (if t.journalHolds (leAt e.block 0 2) = true then t.no stNotReady
      else (t.dropTable (leAt e.block 0 2)).yes) = a → exec (.dropTable slow) s = .next (t.answer e slow a) := by
    rintro a rfl
    refine congrArg Host.Outcome.next (State.runCommand_answers due ?_)
    dsimp only
    rw [tableBlock small zero, if_neg (by decide), State.needs_of_running up, runs, if_neg (by decide)]
  exact ⟨fun holds => body _ (if_pos holds), fun free => body _ (if_neg (by simp [free]))⟩

/-! ## Rows -/

theorem exec_restoreRow (due : s.cmdDue 0x0403 e t) (up : t.running fabDomains) (zero : zeroAt e.block 2 6 = true)
    (quiet : t.quiet = true) (table : t.tableOk (leAt e.block 0 2) = true)
    (row : leAt e.block 8 8 < tbRows (t.table (leAt e.block 0 2)))
    (own : t.owner (t.table (leAt e.block 0 2)) (leAt e.block 8 8) = t.rank)
    (whole : e.inline.length = tbRowBytes (t.table (leAt e.block 0 2))) {u : State}
    (wrote : t.memWrite true (t.home (t.table (leAt e.block 0 2)) (leAt e.block 8 8)) e.inline = (.ok, u)) {k : Nat} {v : State}
    (hk : k = u.serving (u.table (leAt e.block 0 2)) (leAt e.block 8 8))
    (hv : v = (u.restage k 0 (leAt e.block 0 2) (leAt e.block 8 8) e.inline).restage k 1 (leAt e.block 0 2) (leAt e.block 8 8)
      e.inline) :
    exec (.restoreRow slow) s = .next (t.answer e slow
      (stOk, leBytes 4 (b2n (u.isPoisoned (leAt e.block 0 2) (leAt e.block 8 8))),
        (v.dropDeltas (leAt e.block 0 2) (leAt e.block 8 8)).unpoison fun x y => x = leAt e.block 0 2 && y = leAt e.block 8 8)) := by
  have fine : (!t.tableOk (leAt e.block 0 2) || decide (leAt e.block 8 8 ≥ tbRows (t.table (leAt e.block 0 2))) ||
      decide (t.owner (t.table (leAt e.block 0 2)) (leAt e.block 8 8) ≠ t.rank) ||
      decide (e.inline.length ≠ tbRowBytes (t.table (leAt e.block 0 2)))) = false := by
    simp [table, row, own, whole]
  have same : u.table (leAt e.block 0 2) = t.table (leAt e.block 0 2) :=
    congrArg (fun x : EmbModule => smGet [] x.tables (leAt e.block 0 2)) (State.memWrite_own_embm wrote)
  rw [same] at hk
  refine congrArg Host.Outcome.next (State.runCommand_answers due ?_)
  dsimp only
  rw [zero, if_neg (by decide), State.needs_of_running up, quiet, if_neg (by decide), fine, if_neg (by decide), wrote, hv, hk]

theorem exec_hotrowPolicy (due : s.cmdDue 0x0404 e t) (up : t.running fabDomains) (flag : leAt e.block 0 1 ≤ 1)
    (zero : zeroAt e.block 1 1 = true) (zero' : zeroAt e.block 10 6 = true) (idle : t.seq.mode = .idle)
    (window : leAt e.block 2 2 ≠ 0) (whole : leAt e.block 8 2 % 64 = 0) (low : 64 ≤ leAt e.block 8 2)
    (high : leAt e.block 8 2 ≤ 1024) :
    exec (.hotrowPolicy slow) s = .next (t.answer e slow
      (stOk, [], t.hotPolicy (leAt e.block 0 1) (leAt e.block 2 2) (leAt e.block 4 2) (leAt e.block 6 2) (leAt e.block 8 2))) := by
  have form : (decide (leAt e.block 0 1 > 1) || !zeroAt e.block 1 1 || !zeroAt e.block 10 6) = false := by
    simp [zero, zero', flag]
  have runs : (!t.isIdle) = false := by simp [State.isIdle, idle]
  have fine : (decide (leAt e.block 2 2 = 0) || decide (leAt e.block 8 2 % 64 ≠ 0) || decide (leAt e.block 8 2 < 64) ||
      decide (leAt e.block 8 2 > 1024)) = false := by
    simp [window, whole, low, high]
  refine congrArg Host.Outcome.next (State.runCommand_answers due ?_)
  dsimp only
  rw [form, if_neg (by decide), State.needs_of_running up, runs, if_neg (by decide), fine, if_neg (by decide)]
  rfl

theorem exec_flushJournal (due : s.cmdDue 0x0405 e t) (up : t.running memDomains) (quiet : t.quiet = true) {n : Nat} {u : State}
    (wrote : t.writeBack t.step t.step (fun _ => true) = (n, u)) :
    exec (.flushJournal slow) s = .next (t.answer e slow (stOk, leBytes 8 n, u)) := by
  refine congrArg Host.Outcome.next (State.runCommand_answers due ?_)
  rw [State.needs_of_running up, quiet, if_neg (by decide), wrote]

end

/-- Settles O31. -/
theorem tableCommands : Obligations.TableCommands := by
  intro s t e slow
  refine ⟨fun due up small zero idle => ?_, exec_dropTable, fun due up zero quiet table row own whole u wrote k v =>
      exec_restoreRow due up zero quiet table row own whole wrote, exec_hotrowPolicy,
    fun due up quiet n u => exec_flushJournal due up quiet⟩
  obtain ⟨good, bad⟩ := exec_defineTable (slow := slow) due up small zero idle
  refine ⟨fun fits => ⟨(good fits).1, fun there => ⟨_, (good fits).2 there, rfl, State.table_setTable t _ _⟩⟩, bad⟩

end Sys2Proof.Machine
end

section
/-! PROOFS of the command families: calibration, the loss scale, flags and tracing; records and monitors (R118, R230 to
R236, R555 to R570). -/

namespace Sys2Proof.Machine
open Sys2Proof

section
variable {s t : State} {e : HcpEntry} {slow : Bool}

/-! ## Calibration and the loss scale -/

theorem exec_loadCalibration (due : s.cmdDue 0x0501 e t) (zero : zeroAt e.block 4 4 = true) (up : t.running fabDomains)
    (idle : t.seq.mode = .idle) (fits : leAt e.block 0 2 + leAt e.block 2 2 ≤ 16384) {d : List Byte} {u : State}
    (read : leAt e.block 8 8 = 0 ∧ d = e.inline ∧ u = t ∨
      leAt e.block 8 8 ≠ 0 ∧ t.gRead (leAt e.block 8 8) (8 * leAt e.block 2 2) = (.ok, d, u)) :
    ((calEntries d (leAt e.block 2 2)).all (fun x => x.toNat < 2 ^ 33) = true →
      exec (.loadCalibration slow) s = .next (t.answer e slow
        (stOk, [], u.putCal (leAt e.block 0 2) (calEntries d (leAt e.block 2 2))))) ∧
    ((calEntries d (leAt e.block 2 2)).all (fun x => x.toNat < 2 ^ 33) = false →
      exec (.loadCalibration slow) s = .next (t.answer e slow (stBadParam, [], u))) := by
  have runs : (!t.isIdle) = false := by simp [State.isIdle, idle]
  have source : (if leAt e.block 8 8 = 0 then (.ok, e.inline, t) else t.gRead (leAt e.block 8 8) (8 * leAt e.block 2 2) :
      Code × List Byte × State) = (.ok, d, u) := by
    rcases read with ⟨inl, rfl, rfl⟩ | ⟨far, got⟩
    · exact if_pos inl
    · exact (if_neg far).trans got
  have body : ∀ a, (if (calEntries d (leAt e.block 2 2)).all (fun x => x.toNat < 2 ^ 33) = true
      then (u.putCal (leAt e.block 0 2) (calEntries d (leAt e.block 2 2))).yes else u.no stBadParam) = a →
      exec (.loadCalibration slow) s = .next (t.answer e slow a) := by
    rintro a rfl
    refine congrArg Host.Outcome.next (State.runCommand_answers due ?_)
    dsimp only
    rw [zero, if_neg (by decide), State.needs_of_running up, runs, if_neg (by decide), if_neg (Nat.not_lt.2 fits), source]
  exact ⟨fun good => body _ (if_pos good), fun bad => body _ (if_neg (by rw [bad]; decide))⟩

theorem exec_setLossScale (due : s.cmdDue 0x0502 e t) (zero : zeroAt e.block 3 1 = true) (up : t.running fabDomains)
    (idle : t.seq.mode = .idle) :
    let x := sext (leAt e.block 0 1) 8
    let lo := sext (leAt e.block 1 1) 8
    let hi := sext (leAt e.block 2 1) 8
    (-126 ≤ lo ∧ lo ≤ x ∧ x ≤ hi →
      exec (.setLossScale slow) s = .next (t.answer e slow (stOk, [], t.setLoss x lo hi (leAt e.block 4 4)))) ∧
    (¬(-126 ≤ lo ∧ lo ≤ x ∧ x ≤ hi) → exec (.setLossScale slow) s = .next (t.answer e slow (stBadParam, [], t))) := by
  intro x lo hi
  have runs : (!t.isIdle) = false := by simp [State.isIdle, idle]
  have order : (decide (-126 ≤ lo) && decide (lo ≤ x) && decide (x ≤ hi)) = true ↔ -126 ≤ lo ∧ lo ≤ x ∧ x ≤ hi := by
    simp only [Bool.and_eq_true, decide_eq_true_iff, and_assoc]
  have body : ∀ a, (if (decide (-126 ≤ lo) && decide (lo ≤ x) && decide (x ≤ hi)) = true
      then (t.setLoss x lo hi (leAt e.block 4 4)).yes else t.no stBadParam) = a →
      exec (.setLossScale slow) s = .next (t.answer e slow a) := by
    rintro a rfl
    refine congrArg Host.Outcome.next (State.runCommand_answers due ?_)
    dsimp only
    rw [zero, if_neg (by decide), State.needs_of_running up, runs, if_neg (by decide)]
  exact ⟨fun good => body _ (if_pos (order.2 good)), fun bad => body _ (if_neg (mt order.1 bad))⟩

/-! ## Numeric flags -/

theorem exec_readNumericFlags (due : s.cmdDue 0x0503 e t) (form : flagScopeBad e.block = false)
    (scope : t.scopeStatus (leAt e.block 0 1) (leAt e.block 2 2) = stOk) :
    exec (.readNumericFlags slow) s = .next (t.answer e slow (stOk, t.flagData (leAt e.block 0 1) (leAt e.block 2 2), t)) := by
  refine congrArg Host.Outcome.next (State.runCommand_answers due ?_)
  dsimp only
  rw [form, if_neg (by decide), if_neg (Classical.not_not.2 scope)]

theorem exec_clearNumericFlags (due : s.cmdDue 0x0504 e t) (form : flagScopeBad e.block = false)
    (scope : t.scopeStatus (leAt e.block 0 1) (leAt e.block 2 2) = stOk) :
    exec (.clearNumericFlags slow) s = .next (t.answer e slow
      (stOk, [], t.clearFlags (leAt e.block 0 1) (leAt e.block 2 2))) := by
  refine congrArg Host.Outcome.next (State.runCommand_answers due ?_)
  dsimp only
  rw [form, if_neg (by decide), if_neg (Classical.not_not.2 scope)]
  rfl

end

/-- A register that reads 0 still does after another is cleared. -/
theorem State.rd_wr_zero {s : State} {k : Nat} (h : s.rd k = 0) (j : Nat) : (s.wr j 0).rd k = 0 := by
  rw [State.rd_wr]
  split
  · rfl
  · exact h

theorem State.rd_wr_zero_same (s : State) (k : Nat) : (s.wr k 0).rd k = 0 := by
  exact State.rd_wr_of_lt (by decide) s k

/-- What one member's step makes true, and every step keeps, is true in the end. -/
theorem foldl_of_mem {α β : Type} {P : α → Prop} {f : α → β → α} {x : β} (keeps : ∀ a y, P a → P (f a y))
    (makes : ∀ a, P (f a x)) {l : List β} (mem : x ∈ l) (a : α) : P (l.foldl f a) := by
  obtain ⟨before, after, rfl⟩ := List.append_of_mem mem
  rw [List.foldl_append, List.foldl_cons]
  exact List.foldlRecOn (motive := P) _ _ (makes _) fun b h y _ => keeps b y h

/-- The flags of the cores in a scope. -/
def State.clearCoreFlags (s : State) (l : List Nat) : State :=
  l.foldl (fun s c => (s.wr (coreBase c + 0x80) 0).wr (coreBase c + 0x108) 0) s

/-- The flags of the tiles in a scope. -/
def State.clearTileFlags (s : State) (l : List Nat) : State :=
  l.foldl (fun s t => (((s.wr (tileBase t + 0x140014) 0).wr (tileBase t + 0x11001C) 0).wr (tileBase t + 0x100044) 0).wr
    (tileBase t + 0x130228) 0) s

theorem State.clearFlags_eq (s : State) (sc tg : Nat) : s.clearFlags sc tg =
    if sc = 0 then ((s.clearCoreFlags (flagCores sc tg)).clearTileFlags (flagTiles sc tg)).clearFirst tg
    else ((s.clearCoreFlags (flagCores sc tg)).clearTileFlags (flagTiles sc tg)).wr (wideKey 0x140110) 0 := by
  simp only [State.clearFlags, State.clearCoreFlags, State.clearTileFlags]

theorem rd_foldl_zeros (g h : Nat → Nat) {l : List Nat} {c : Nat} (mem : c ∈ l) (s : State) :
    (l.foldl (fun s c => (s.wr (g c) 0).wr (h c) 0) s).rd (g c) = 0 ∧
    (l.foldl (fun s c => (s.wr (g c) 0).wr (h c) 0) s).rd (h c) = 0 :=
  foldl_of_mem (P := fun u : State => u.rd (g c) = 0 ∧ u.rd (h c) = 0)
    (fun _ _ z => ⟨State.rd_wr_zero (State.rd_wr_zero z.1 _) _, State.rd_wr_zero (State.rd_wr_zero z.2 _) _⟩)
    (fun _ => ⟨State.rd_wr_zero (State.rd_wr_zero_same _ _) _, State.rd_wr_zero_same _ _⟩) mem s

theorem State.rd_clearCoreFlags {l : List Nat} {c : Nat} (mem : c ∈ l) (s : State) :
    (s.clearCoreFlags l).rd (coreBase c + 0x80) = 0 ∧ (s.clearCoreFlags l).rd (coreBase c + 0x108) = 0 :=
  rd_foldl_zeros (fun c => coreBase c + 0x80) (fun c => coreBase c + 0x108) mem s

theorem rd_foldl_zeros_keeps (f g h i : Nat → Nat) {s : State} {k : Nat} (zero : s.rd k = 0) (l : List Nat) :
    (l.foldl (fun s t => (((s.wr (f t) 0).wr (g t) 0).wr (h t) 0).wr (i t) 0) s).rd k = 0 :=
  List.foldlRecOn (motive := fun u : State => u.rd k = 0) _ _ zero fun _ z _ _ =>
    State.rd_wr_zero (State.rd_wr_zero (State.rd_wr_zero (State.rd_wr_zero z _) _) _) _

theorem State.rd_clearTileFlags {s : State} {k : Nat} (zero : s.rd k = 0) (l : List Nat) : (s.clearTileFlags l).rd k = 0 :=
  rd_foldl_zeros_keeps (fun t => tileBase t + 0x140014) (fun t => tileBase t + 0x11001C) (fun t => tileBase t + 0x100044)
    (fun t => tileBase t + 0x130228) zero l

theorem mem_foldl_zeros (f g h i : Nat → Nat) (s : State) (l : List Nat) :
    (l.foldl (fun s c => (s.wr (g c) 0).wr (h c) 0) s).mem = s.mem ∧
    (l.foldl (fun s t => (((s.wr (f t) 0).wr (g t) 0).wr (h t) 0).wr (i t) 0) s).mem = s.mem :=
  ⟨List.foldlRecOn (motive := fun u : State => u.mem = s.mem) _ _ rfl fun _ z _ _ => z,
    List.foldlRecOn (motive := fun u : State => u.mem = s.mem) _ _ rfl fun _ z _ _ => z⟩

theorem State.clearCoreFlags_mem (s : State) (l : List Nat) : (s.clearCoreFlags l).mem = s.mem :=
  (mem_foldl_zeros id (fun c => coreBase c + 0x80) (fun c => coreBase c + 0x108) id s l).1

theorem State.clearTileFlags_mem (s : State) (l : List Nat) : (s.clearTileFlags l).mem = s.mem :=
  (mem_foldl_zeros (fun t => tileBase t + 0x140014) (fun t => tileBase t + 0x11001C) (fun t => tileBase t + 0x100044)
    (fun t => tileBase t + 0x130228) s l).2

theorem State.rd_setMe (s : State) (c : Nat) (x : MeState) (k : Nat) : (s.setMe c x).rd k = s.rd k := by
  rw [State.rd, State.setMe_csr, State.rd]

theorem State.clearFlags_rest (s : State) (sc tg : Nat) (u : State)
    (hu : u = (s.clearCoreFlags (flagCores sc tg)).clearTileFlags (flagTiles sc tg)) :
    u.mem = s.mem ∧ (∀ k, u.rd k = 0 → (s.clearFlags sc tg).rd k = 0) ∧ (s.clearFlags sc tg).mem = u.mem ∧
    (sc = 0 → (s.clearFlags sc tg).rd (coreBase tg + 0x84) = 0 ∧ (s.clearFlags sc tg).rd (coreBase tg + 0x10C) = 0) := by
  have mem : u.mem = s.mem := by
    rw [hu, State.clearTileFlags_mem, State.clearCoreFlags_mem]
  rw [State.clearFlags_eq, ← hu]
  by_cases core : sc = 0
  · rw [if_pos core, State.clearFirst, State.setMe_mem, State.wr_mem, State.wr_mem]
    generalize coreBase tg + 0x84 = k1, coreBase tg + 0x10C = k2
    exact ⟨mem, fun k h => (State.rd_setMe _ _ _ k).trans (State.rd_wr_zero (State.rd_wr_zero h k1) k2), rfl,
      fun _ => ⟨(State.rd_setMe _ _ _ k1).trans (State.rd_wr_zero (State.rd_wr_zero_same u k1) k2),
        (State.rd_setMe _ _ _ k2).trans (State.rd_wr_zero_same _ k2)⟩⟩
  · rw [if_neg core, State.wr_mem]
    exact ⟨mem, fun k h => State.rd_wr_zero h _, rfl, fun h => absurd h core⟩

theorem State.clearFlags_effect (s : State) (sc tg : Nat) : let u := s.clearFlags sc tg
    SameBytes s u ∧ (∀ c ∈ flagCores sc tg, u.rd (coreBase c + 0x80) = 0 ∧ u.rd (coreBase c + 0x108) = 0) ∧
    (sc = 0 → u.rd (coreBase tg + 0x84) = 0 ∧ u.rd (coreBase tg + 0x10C) = 0) := by
  obtain ⟨mem, keeps, mem', first⟩ := s.clearFlags_rest sc tg _ rfl
  refine ⟨SameBytes.of_mem (mem'.trans mem), fun c hc => ?_, first⟩
  obtain ⟨low, high⟩ := State.rd_clearCoreFlags hc s
  exact ⟨keeps _ (State.rd_clearTileFlags low _), keeps _ (State.rd_clearTileFlags high _)⟩

section
variable {s t : State} {e : HcpEntry} {slow : Bool}

theorem exec_traceConfig (due : s.cmdDue 0x0505 e t) (zero : zeroAt e.block 20 4 = true) (up : t.running fabDomains) :
    exec (.traceConfig slow) s = .next (t.answer e slow (stOk, [],
      ((t.putReg (tileBase 0 + 0x141000) (leAt e.block 0 4)).putReg (tileBase 0 + 0x141004) (leAt e.block 4 4)).eachTile
        fun s k => (s.putReg (tileBase k + 0x141008) (leAt e.block 8 8)).putReg (tileBase k + 0x141010) (leAt e.block 16 4))) := by
  refine congrArg Host.Outcome.next (State.runCommand_answers due ?_)
  dsimp only
  rw [zero, if_neg (by decide), State.needs_of_running up]
  rfl

/-! ## Records -/

theorem exec_readRecords (due : s.cmdDue 0x0801 e t) (some : 1 ≤ leAt e.block 4 2) (few : leAt e.block 4 2 ≤ 127)
    (zero : zeroAt e.block 6 2 = true) :
    let head := t.rd kRecHead
    let f := leAt e.block 0 4
    (f = head ∨ serialLater 32 f head = true →
      exec (.readRecords slow) s = .next (t.answer e slow (stOk, leBytes 4 0, t))) ∧
    (f ≠ head → serialLater 32 f head = false → ∀ d u,
      t.readRing head 4096 (if serialLater 32 (t.rd kRecOldest) f then t.rd kRecOldest else f) (leAt e.block 4 2) [] = (d, u) →
      exec (.readRecords slow) s = .next (t.answer e slow (stOk, leBytes 4 (d.length / 32) ++ d, u))) := by
  intro head f
  have form : (decide (leAt e.block 4 2 = 0) || decide (leAt e.block 4 2 > 127) || !zeroAt e.block 6 2) = false := by
    simp [zero, few]
    omega
  have body : ∀ a, t.cmdReadRecords e.block = a → exec (.readRecords slow) s = .next (t.answer e slow a) := fun a h =>
    congrArg Host.Outcome.next (State.runCommand_answers due h)
  refine ⟨fun empty => body _ ?_, fun other old d u read => body _ ?_⟩
  · rw [State.cmdReadRecords]
    dsimp only
    rw [form, if_neg (by decide)]
    exact if_pos (by simpa using empty)
  · rw [State.cmdReadRecords]
    dsimp only
    rw [form, if_neg (by decide), if_neg ?_, read]
    simp only [Bool.or_eq_true, decide_eq_true_iff, not_or, Bool.not_eq_true]
    exact ⟨other, old⟩

theorem exec_clearSticky_one (due : s.cmdDue 0x0802 e t) (low : csrBase ≤ leAt e.block 0 8)
    (high : leAt e.block 0 8 < csrBase + 2 ^ 24) {r : RegAt} (reg : regFind (leAt e.block 0 8 - csrBase) = some r) :
    (isSticky r.key r.o = true → exec (.clearSticky slow) s = .next (t.answer e slow
      (stOk, [], t.w1c r.key r.o all64 r.row))) ∧
    (isSticky r.key r.o = false → exec (.clearSticky slow) s = .next (t.answer e slow (stBadParam, [], t))) := by
  have positive : csrBase ≠ 0 := by decide
  have inside : (decide (leAt e.block 0 8 < csrBase) || decide (leAt e.block 0 8 ≥ csrBase + 2 ^ 24)) = false := by
    simpa [low] using high
  have body : ∀ a, (if isSticky r.key r.o = true then (t.w1c r.key r.o all64 r.row).yes else t.no stBadParam) = a →
      exec (.clearSticky slow) s = .next (t.answer e slow a) := by
    rintro a rfl
    refine congrArg Host.Outcome.next (State.runCommand_answers due ?_)
    rw [State.cmdClearSticky, if_neg (by omega), inside, if_neg (by decide), reg]
  exact ⟨fun sticky => body _ (if_pos sticky), fun plain => body _ (if_neg (by simp [plain]))⟩

/-! ## Monitors -/

theorem kHist_off (n o : Nat) : kHist n o = kHist n 0 + o := by
  unfold kHist
  omega

/-- A monitor channel set up: its settings, and its other registers as they are at reset (R565). -/
def State.monitorSet (t : State) (n : Nat) (c : List Byte) : State :=
  (List.range 3).foldl (fun s j => s.wr (kHist n (8 * j)) (leAt c (8 * j) 8))
    (t.resetRegs fun k => kHist n 0 ≤ k && k < kHist n 0x100)

theorem State.rd_monitorSet (t : State) (n : Nat) (c : List Byte) :
    (∀ j, j < 3 → (t.monitorSet n c).rd (kHist n (8 * j)) = leAt c (8 * j) 8) ∧
    (∀ k, kHist n 0x18 ≤ k → k < kHist n 0x100 → (t.monitorSet n c).rd k = (csrReset k).toNat) ∧
    (∀ k, k < kHist n 0 ∨ kHist n 0x100 ≤ k → (t.monitorSet n c).rd k = t.rd k) := by
  have word : ∀ j, leAt c (8 * j) 8 < 2 ^ 64 := fun j => Nat.lt_of_lt_of_le (leAt_lt c _ 8) (by decide)
  have apart : ∀ i j, i ≠ j → kHist n (8 * i) ≠ kHist n (8 * j) := fun i j h => by unfold kHist; omega
  have reset := fun k => t.rd_resetRegs (fun k => kHist n 0 ≤ k && k < kHist n 0x100) k
  have set : t.monitorSet n c = (((t.resetRegs fun k => kHist n 0 ≤ k && k < kHist n 0x100).wr (kHist n (8 * 0))
      (leAt c (8 * 0) 8)).wr (kHist n (8 * 1)) (leAt c (8 * 1) 8)).wr (kHist n (8 * 2)) (leAt c (8 * 2) 8) := rfl
  have others : ∀ k, k < kHist n 0 ∨ kHist n 0x18 ≤ k → (t.monitorSet n c).rd k =
      if kHist n 0 ≤ k ∧ k < kHist n 0x100 then (csrReset k).toNat else t.rd k := fun k out => by
    rw [set, State.rd_wr_ne (by unfold kHist at *; omega), State.rd_wr_ne (by unfold kHist at *; omega),
      State.rd_wr_ne (by unfold kHist at *; omega), reset]
    simp only [Bool.and_eq_true, decide_eq_true_iff]
  refine ⟨fun j hj => ?_, fun k low high => ?_, fun k out => ?_⟩
  · rw [set]
    obtain rfl | rfl | rfl : j = 0 ∨ j = 1 ∨ j = 2 := by omega
    · rw [State.rd_wr_ne (apart _ _ (by decide)), State.rd_wr_ne (apart _ _ (by decide)), State.rd_wr_of_lt (word 0)]
    · rw [State.rd_wr_ne (apart _ _ (by decide)), State.rd_wr_of_lt (word 1)]
    · rw [State.rd_wr_of_lt (word 2)]
  · rw [others k (.inr low), if_pos ⟨by unfold kHist at *; omega, high⟩]
  · rw [others k (out.imp_right fun h => by unfold kHist at *; omega), if_neg (by omega)]

theorem exec_monitorConfig (due : s.cmdDue 0x0803 e t) (channel : leAt e.block 0 1 ≤ 31) (zero : zeroAt e.block 1 7 = true) :
    (monConfigOk (slice e.block 8 24) = false → exec (.monitorConfig slow) s = .next (t.answer e slow (stBadParam, [], t))) ∧
    (monConfigOk (slice e.block 8 24) = true →
      exec (.monitorConfig slow) s = .next (t.answer e slow (stOk, [], t.monitorSet (leAt e.block 0 1) (slice e.block 8 24)))) := by
  have form : (decide (leAt e.block 0 1 > 31) || !zeroAt e.block 1 7 || !monConfigOk (slice e.block 8 24)) =
      !monConfigOk (slice e.block 8 24) := by
    rw [decide_eq_false (Nat.not_lt.2 channel), zero]
    rfl
  have body : ∀ a, t.cmdMonitorConfig e.block = a → exec (.monitorConfig slow) s = .next (t.answer e slow a) := fun a h =>
    congrArg Host.Outcome.next (State.runCommand_answers due h)
  refine ⟨fun bad => body _ ?_, fun good => body _ ?_⟩
  · rw [State.cmdMonitorConfig]
    dsimp only
    rw [form, bad]
    rfl
  · rw [State.cmdMonitorConfig]
    dsimp only
    rw [form, good]
    rfl

theorem exec_monitorRead (due : s.cmdDue 0x0804 e t) (zero : zeroAt e.block 4 4 = true) {l : List Nat}
    (hl : l = (List.range 32).filter (bit (leAt e.block 0 4))) (some : l ≠ []) :
    (l.length ≤ 25 → exec (.monitorRead slow) s = .next (t.answer e slow (stOk, l.flatMap t.monRecord, t))) ∧
    (25 < l.length → exec (.monitorRead slow) s = .next (t.answer e slow (stBadParam, [], t))) := by
  have form : (decide (l = []) || decide (l.length > 25) || !zeroAt e.block 4 4) = decide (l.length > 25) := by
    simp [zero, some]
  have body : ∀ a, t.cmdMonitorRead e.block = a → exec (.monitorRead slow) s = .next (t.answer e slow a) := fun a h =>
    congrArg Host.Outcome.next (State.runCommand_answers due h)
  refine ⟨fun few => body _ ?_, fun many => body _ ?_⟩
  · rw [State.cmdMonitorRead, ← hl, form, if_neg (by simpa using few)]
  · rw [State.cmdMonitorRead, ← hl, form, if_pos (by simpa using many)]
    rfl

end

/-- Settles O32. -/
theorem settingsAndRecords : Obligations.SettingsAndRecords := by
  refine ⟨fun s t e slow => ⟨fun due zero up idle fits d u => exec_loadCalibration due zero up idle fits, exec_setLossScale,
      exec_readNumericFlags, fun due form scope => ⟨_, exec_clearNumericFlags due form scope, rfl, State.clearFlags_effect _ _ _⟩,
      exec_traceConfig⟩,
    fun s t e slow => ⟨exec_readRecords, fun due all => ?_, fun due low high r => exec_clearSticky_one due low high,
      fun due channel zero => ?_, fun due zero l hl some => exec_monitorRead due zero hl some⟩⟩
  · exact congrArg Host.Outcome.next (State.runCommand_answers due (if_pos all))
  · obtain ⟨bad, good⟩ := exec_monitorConfig (slow := slow) due channel zero
    obtain ⟨own, rest, others⟩ := t.rd_monitorSet (leAt e.block 0 1) (slice e.block 8 24)
    exact ⟨bad, fun ok => ⟨_, good ok, own, rest, others, SameBytes.of_mem rfl⟩⟩

end Sys2Proof.Machine
end

section
/-! PROOFS of the command families: checkpoint streams, torn blocks and firmware (R264 to R268, R340, R583 to R587). -/

namespace Sys2Proof.Machine
open Sys2Proof

section
variable {s t u v : State} {e : HcpEntry} {slow : Bool}

/-! ## Checkpoint streams -/

theorem exec_exportState (due : s.cmdDue 0x0901 e t) (up : t.running fabDomains) (quiet : t.quiet = true)
    (good : t.exportBad e.block = false) (free : leAt e.block 0 1 = 1 → tbFmt (t.table (leAt e.block 4 2)) ≠ 0 →
      t.journalHolds (leAt e.block 4 2) = false) :
    (leAt e.block 2 1 = 0 → exec (.exportState slow) s = .next (t.answer e slow (stPending, [],
      { t with feed := { t.feed with
        exports := (t.feed.exports.filter fun x => x.entry.tag ≠ e.tag) ++ [⟨e, 0, 0, none⟩] } }))) ∧
    (leAt e.block 2 1 = 1 → ∀ st u v, t.exportStream e.block = (.ok, st, u) →
      u.putStream (leAt e.block 24 8) (chunks 64 (st.length / 64 + 1) st) = (.ok, v) →
      exec (.exportState slow) s = .next (t.answer e slow (stOk, v.exportData e.block, v))) := by
  have held : (decide (leAt e.block 0 1 = 1) && decide (tbFmt (t.table (leAt e.block 4 2)) ≠ 0) &&
      t.journalHolds (leAt e.block 4 2)) = false := by
    by_cases table : leAt e.block 0 1 = 1
    · by_cases granary : tbFmt (t.table (leAt e.block 4 2)) ≠ 0
      · simp [free table granary]
      · simp [granary]
    · simp [table]
  refine ⟨fun feed => congrArg Host.Outcome.next (State.runCommand_answers due ?_), fun memory st u v made put =>
    congrArg Host.Outcome.next (State.runCommand_answers due ?_)⟩
  · rw [State.needs_of_running up, quiet, if_neg (by decide), good, if_neg (by decide), held, if_neg (by decide), if_pos feed]
  · rw [State.needs_of_running up, quiet, if_neg (by decide), good, if_neg (by decide), held, if_neg (by decide),
      if_neg (by omega), made]
    dsimp only
    rw [put]

theorem exec_importState (due : s.cmdDue 0x0902 e t) (up : t.running fabDomains) (quiet : t.quiet = true) {h : List Byte}
    (read : t.gRead (leAt e.block 0 8) 64 = (.ok, h, u)) :
    (u.importPlan h (leAt e.block 8 8) = none → exec (.importState slow) s = .next (t.answer e slow (stBadParam, [], u))) ∧
    (∀ as d v, u.importPlan h (leAt e.block 8 8) = some as →
      u.gRead (leAt e.block 0 8 + 64) (leAt h 8 4 * leAt h 12 4) = (.ok, d, v) → crc32 d = leAt h 24 4 →
      (leAt h 6 1 = 0 → tagsBad (chunks (leAt h 12 4) (leAt h 8 4) d) = false) → v.placesCode (leAt h 12 4) as = .ok →
      exec (.importState slow) s = .next (t.answer e slow (stOk, leBytes 4 (leAt h 8 4),
        v.putUnits (decide (leAt h 6 1 = 0)) (as.zip (chunks (leAt h 12 4) (leAt h 8 4) d))))) := by
  refine ⟨fun bad => congrArg Host.Outcome.next (State.runCommand_answers due ?_), fun as d v plan body crc tags places =>
    congrArg Host.Outcome.next (State.runCommand_answers due ?_)⟩
  · rw [State.needs_of_running up, quiet, if_neg (by decide), read]
    dsimp only
    rw [bad]
    rfl
  · have fine : (decide (crc32 d ≠ leAt h 24 4) ||
        (decide (leAt h 6 1 = 0) && tagsBad (chunks (leAt h 12 4) (leAt h 8 4) d))) = false := by
      by_cases model : leAt h 6 1 = 0
      · simp [crc, tags model]
      · simp [crc, model]
    rw [State.needs_of_running up, quiet, if_neg (by decide), read]
    dsimp only
    rw [plan]
    dsimp only
    rw [body]
    dsimp only
    rw [fine, if_neg (by decide), if_neg (Classical.not_not.2 places)]

/-! ## Torn blocks -/

theorem exec_acceptTorn (due : s.cmdDue 0x0903 e t) (up : t.running fabDomains) (quiet : t.quiet = true)
    {l : List (Nat × Nat × UeSlot)}
    (hl : l = t.tornBlocks.filter (fun x => leAt e.block 0 8 = 2 ^ 64 - 1 || x.2.2.record = leAt e.block 0 8)) :
    (l = [] → exec (.acceptTorn slow) s = .next (t.answer e slow (stBadParam, [], t))) ∧
    (l ≠ [] → ∀ n left u, t.acceptAll l = (n, left, u) →
      exec (.acceptTorn slow) s = .next (t.answer e slow
        ((if left.isSome then stTornBlock else stOk), leBytes 4 n ++ List.replicate 4 0 ++ leBytes 8 (left.getD 0), u))) := by
  refine ⟨fun empty => congrArg Host.Outcome.next (State.runCommand_answers due ?_), fun some n left u accepted =>
    congrArg Host.Outcome.next (State.runCommand_answers due ?_)⟩
  · rw [State.needs_of_running up, quiet, if_neg (by decide), ← hl, if_pos empty]
    rfl
  · rw [State.needs_of_running up, quiet, if_neg (by decide), ← hl, if_neg some, accepted]
    rfl

/-! ## Firmware -/

theorem exec_updateFirmware (due : s.cmdDue 0x0904 e t) (zero : zeroAt e.block 12 4 = true) (quiet : t.quiet = true)
    (long : 384 ≤ leAt e.block 8 4) {h img : List Byte} (head : t.gRead (leAt e.block 0 8) 384 = (.ok, h, u))
    (good : imageOk h = true) (whole : leAt e.block 8 4 = 384 + leAt h 12 4) (fits : leAt h 12 4 ≤ flashArea (leAt h 6 1))
    (image : u.gRead (leAt e.block 0 8) (leAt e.block 8 4) = (.ok, img, v)) :
    exec (.updateFirmware true) s = .next (t.answer e false (stPending, [],
      (v.wr kFwUpdate (1 + leAt h 6 1 * 2 ^ 4 + leAt h 8 4 * 2 ^ 32)).setUpdate (some (img, true, false)))) ∧
    exec (.updateFirmware false) s = .next (t.answer e false (stAuthFail, [], v)) := by
  have body : ∀ verified a, (if (!verified) = true then v.no stAuthFail else (stPending, [],
      (v.wr kFwUpdate (1 + leAt h 6 1 * 2 ^ 4 + leAt h 8 4 * 2 ^ 32)).setUpdate (some (img, true, false)))) = a →
      exec (.updateFirmware verified) s = .next (t.answer e false a) := by
    rintro verified a rfl
    refine congrArg Host.Outcome.next (State.runCommand_answers due ?_)
    dsimp only
    rw [zero, if_neg (by decide), quiet, if_neg (by decide), if_neg (Nat.not_lt.2 long), head]
    dsimp only
    rw [good, if_neg (by decide), if_neg (Classical.not_not.2 whole), if_neg (Nat.not_lt.2 fits), image]
    rfl
  exact ⟨body true _ (if_neg (by decide)), body false _ (if_pos (by decide))⟩

theorem exec_firmwareCopyWritten {img : List Byte} {b again : Bool} (on : s.hubOn = true)
    (writing : s.boot.update = some (img, b, again)) :
    exec (.firmwareCopyWritten true) s = .next (s.copyGood img b) ∧
    exec (.firmwareCopyWritten false) s = .next (s.copyBad img b again) := by
  simp only [exec, execFirmwareCopyWritten, writing, on, Bool.not_true, Bool.false_eq_true, if_false, if_true, and_self]

/-- A copy of an image that stands in flash (R585). -/
theorem State.copyGood_effect (s : State) (img : List Byte) (stays : s.seq.deferred.contains .resetModule = false) :
    (s.copyGood img true).boot.update = some (img, false, false) ∧ (s.copyGood img false).boot.update = none ∧
    smGet [] (s.copyGood img true).flash.images (2 * leAt img 6 1 + 1) = img ∧
    smGet [] (s.copyGood img false).flash.images (2 * leAt img 6 1) = img := by
  have stored : ∀ b, smGet [] (s.setImage img b img).flash.images (2 * leAt img 6 1 + b2n b) = img := fun b =>
    (smGet_smSet _ _ _ _ _).trans (if_pos rfl)
  unfold State.copyGood
  generalize kFwUpdate = k
  have go : ∀ b lo, ¬((s.setImage img b img).wrf k lo 1 1).seq.deferred.contains .resetModule = true := fun b lo => by
    have same : ((s.setImage img b img).wrf k lo 1 1).seq = s.seq := rfl
    rw [same, stays]
    decide
  dsimp only
  rw [if_neg (go true _), if_neg (go false _)]
  exact ⟨rfl, rfl, stored true, stored false⟩

end

/-- Settles O33. -/
theorem stateCommands : Obligations.StateCommands := by
  refine ⟨fun s t e slow => ⟨exec_exportState, fun due up quiet h u read => exec_importState due up quiet read,
      fun due up quiet l hl => exec_acceptTorn due up quiet hl⟩,
    fun s t e h img u v due zero quiet long head good whole fits image => ?_,
    fun s img b again on writing => exec_firmwareCopyWritten on writing, State.copyGood_effect⟩
  have register : (0xC608 : Nat) = kFwUpdate := rfl
  rw [register]
  exact exec_updateFirmware due zero quiet long head good whole fits image

end Sys2Proof.Machine
end

section
/-! PROOFS of the command families: layout commands and replica digests (R268 to R271, R445, R446). -/

namespace Sys2Proof.Machine
open Sys2Proof

/-! ## SET_LAYOUT and RESHARD -/

section
variable {s t : State} {e : HcpEntry}

theorem State.layoutCmd_effect (reshard : Bool) (due : s.cmdDue (if reshard then 0x0602 else 0x0601) e t)
    (up : t.running fabDomains) :
    (∀ st, t.layoutRefusal reshard e.block = st → st ≠ stOk →
      s.layoutCmd reshard = t.answer e false (st, if st = stBusyReducing then leBytes 4 t.openCount else [], t)) ∧
    (t.layoutRefusal reshard e.block = stOk → s.layoutCmd reshard = t.answer e false (t.takeChange reshard e.block)) := by
  refine ⟨fun st refusal bad => State.runCommand_answers due ?_, fun good => State.runCommand_answers due ?_⟩
  · rw [State.needs_of_running up, refusal]
    exact if_neg bad
  · rw [State.needs_of_running up, good]
    exact if_pos rfl

theorem State.takeChange_set (u : State) (quiet : Bool)
    (hu : u = { t.changeGone with lay := { t.changeGone.lay with change := some (false, e.block) } }) (hq : u.quiet = quiet) :
    t.takeChange false e.block = if quiet then (stPending, [], u.layFenceStart) else (stOk, [], u) := by
  subst hu hq
  rfl

theorem State.takeChange_reshard (r u : State)
    (hr : r = (if ownReplaced e.block = true then t.wrf kLayoutStatus 0 16 ((lyGen e.block + 2 ^ 16 - 1) % 2 ^ 16) else t))
    (hu : u = { r.changeGone with lay := { r.changeGone.lay with change := some (true, e.block) } }) :
    t.takeChange true e.block = if u.quiet then (stPending, [], u.layFenceStart)
      else if lyMoves e.block ≠ 0 then (stPending, [], u) else (stOk, zeros 4, u) := by
  simp only [State.takeChange, Bool.true_and, ← hr, ← hu, decide_eq_true_eq, if_true]

theorem exec_setLayout (due : s.cmdDue 0x0601 e t) (up : t.running fabDomains) :
    (∀ st, t.layoutRefusal false e.block = st → st ≠ stOk →
      exec .setLayout s = .next (t.answer e false (st, if st = stBusyReducing then leBytes 4 t.openCount else [], t))) ∧
    (∀ u, t.layoutRefusal false e.block = stOk →
      u = { t.changeGone with lay := { t.changeGone.lay with change := some (false, e.block) } } →
      (u.quiet = true → exec .setLayout s = .next (t.answer e false (stPending, [], u.layFenceStart))) ∧
      (u.quiet = false → exec .setLayout s = .next (t.answer e false (stOk, [], u)))) := by
  obtain ⟨refused, taken⟩ := State.layoutCmd_effect false due up
  refine ⟨fun st refusal bad => congrArg Host.Outcome.next (refused st refusal bad), fun u good hu => ⟨fun quiet => ?_,
    fun runs => ?_⟩⟩
  · refine congrArg Host.Outcome.next ((taken good).trans (congrArg (t.answer e false) ?_))
    exact State.takeChange_set u true hu quiet
  · refine congrArg Host.Outcome.next ((taken good).trans (congrArg (t.answer e false) ?_))
    exact State.takeChange_set u false hu runs

theorem exec_reshard (due : s.cmdDue 0x0602 e t) (up : t.running fabDomains) :
    (∀ st, t.layoutRefusal true e.block = st → st ≠ stOk →
      exec .reshard s = .next (t.answer e false (st, if st = stBusyReducing then leBytes 4 t.openCount else [], t))) ∧
    (∀ r u, t.layoutRefusal true e.block = stOk →
      r = (if ownReplaced e.block = true then t.wrf kLayoutStatus 0 16 ((lyGen e.block + 2 ^ 16 - 1) % 2 ^ 16) else t) →
      u = { r.changeGone with lay := { r.changeGone.lay with change := some (true, e.block) } } →
      (u.quiet = true → exec .reshard s = .next (t.answer e false (stPending, [], u.layFenceStart))) ∧
      (u.quiet = false → lyMoves e.block ≠ 0 → exec .reshard s = .next (t.answer e false (stPending, [], u))) ∧
      (u.quiet = false → lyMoves e.block = 0 →
        exec .reshard s = .next (t.answer e false (stOk, List.replicate 4 0, u)))) := by
  obtain ⟨refused, taken⟩ := State.layoutCmd_effect true due up
  refine ⟨fun st refusal bad => congrArg Host.Outcome.next (refused st refusal bad), fun r u good hr hu => ?_⟩
  have answered : exec .reshard s = .next (t.answer e false (t.takeChange true e.block)) :=
    congrArg Host.Outcome.next (taken good)
  rw [answered, State.takeChange_reshard r u hr hu]
  exact ⟨fun quiet => by rw [if_pos quiet], fun runs moves => by rw [if_neg (by simp [runs]), if_pos moves],
    fun runs still => by rw [if_neg (by simp [runs]), if_neg (Classical.not_not.2 still)]; rfl⟩

/-! ## DIGEST_CHECK -/

theorem exec_digestCheck (due : s.cmdDue 0x0603 e t) (zero : zeroAt e.block 1 7 = true) (quiet : t.quiet = true)
    (axis : leAt e.block 0 1 ≤ 3) (long : t.layoutLen (leAt e.block 0 1) ≠ 1) (base : leAt e.block 8 8 % 4096 = 0)
    (whole : leAt e.block 16 8 % 4096 = 0) (small : leAt e.block 16 8 ≤ 2 ^ 36) {d : List Byte} {u : State}
    (read : t.memRead (leAt e.block 8 8) (leAt e.block 16 8) = (.ok, d, u)) :
    exec .digestCheck s = .next (t.answer e false (stPending, [], u.digestJoin (leAt e.block 0 1) (blockDigests d))) := by
  have form : (decide (leAt e.block 0 1 > 3) || decide (t.layoutLen (leAt e.block 0 1) = 1) ||
      decide (leAt e.block 8 8 % 4096 ≠ 0) || decide (leAt e.block 16 8 % 4096 ≠ 0) ||
      decide (leAt e.block 16 8 > 2 ^ 36)) = false := by
    simp only [Bool.or_eq_false_iff, decide_eq_false_iff_not]
    exact ⟨⟨⟨⟨Nat.not_lt.2 axis, long⟩, Classical.not_not.2 base⟩, Classical.not_not.2 whole⟩, Nat.not_lt.2 small⟩
  refine congrArg Host.Outcome.next (State.runCommand_answers due ?_)
  dsimp only
  rw [zero, if_neg (by decide), quiet, if_neg (by decide), form, if_neg (by decide), read]

end

/-! ## What a module keeps of its digests -/

theorem chunks_getElem? {α : Type} {n fuel k : Nat} {l : List α} (some : 0 < n) (enough : l.length ≤ fuel)
    (inside : n * k < l.length) : (chunks n fuel l)[k]? = .some ((l.drop (n * k)).take n) := by
  induction fuel generalizing l k with
  | zero => omega
  | succ fuel ih =>
    have ne : l ≠ [] := fun h => by simp [h] at inside
    rw [chunks, if_neg ne]
    cases k with
    | zero => rfl
    | succ k =>
      have next : n * (k + 1) = n + n * k := by rw [Nat.mul_add, Nat.mul_one, Nat.add_comm]
      rw [List.getElem?_cons_succ, ih (by rw [List.length_drop]; omega) (by rw [List.length_drop]; omega), List.drop_drop,
        next]

/-- The digests of the blocks of a module, by chunk. -/
def State.putChunkBlocks (s : State) (axis : Nat) (ks : List (List (List Byte))) (n : Nat) : State :=
  (withIdx ks n).foldl (fun s e => s.putBlocks (s.coord axis) e.1 e.2) s

theorem State.putChunkBlocks_shape (s : State) (axis : Nat) (ks : List (List (List Byte))) (n : Nat) :
    ∃ b, s.putChunkBlocks axis ks n = { s with lay := { s.lay with blocks := b } } := by
  refine List.foldlRecOn (motive := fun u : State => ∃ b, u = { s with lay := { s.lay with blocks := b } }) _ _
    ⟨s.lay.blocks, rfl⟩ ?_
  rintro _ ⟨b, rfl⟩ e _
  exact ⟨_, rfl⟩

theorem State.putChunkBlocks_blocks (s : State) (axis : Nat) (ks : List (List (List Byte))) (n j : Nat) :
    smGet [] (s.putChunkBlocks axis ks n).lay.blocks (65536 * s.coord axis + j) =
      if n ≤ j ∧ j < n + ks.length then ks.getD (j - n) [] else smGet [] s.lay.blocks (65536 * s.coord axis + j) := by
  induction ks generalizing s n with
  | nil => exact (if_neg (by simp)).symm
  | cons k ks ih =>
    have first : smGet [] (s.putBlocks (s.coord axis) n k).lay.blocks (65536 * s.coord axis + j) =
        if n = j then k else smGet [] s.lay.blocks (65536 * s.coord axis + j) :=
      (smGet_smPut _ _ _ _ _).trans (by simp only [Nat.add_left_cancel_iff])
    refine (ih (s.putBlocks (s.coord axis) n k) (n + 1)).trans ?_
    rw [List.length_cons]
    by_cases here : n = j
    · rw [if_neg (by omega), if_pos (by omega)]
      refine first.trans ?_
      rw [if_pos here, here, Nat.sub_self, List.getD_cons_zero]
    · by_cases later : n + 1 ≤ j ∧ j < n + 1 + ks.length
      · have step : j - n = j - (n + 1) + 1 := by omega
        rw [if_pos later, if_pos (by omega), step, List.getD_cons_succ]
      · rw [if_neg later, if_neg (by omega)]
        exact first.trans (if_neg here)

theorem State.digestTurn_effect (s : State) (axis n : Nat) : ∃ sent more,
    s.digestTurn axis n = { s with lay := { s.lay with sent := sent }, out := s.out ++ more } := by
  unfold State.digestTurn
  split
  · exact ⟨s.lay.sent, [], by rw [List.append_nil]⟩
  · refine List.foldlRecOn (motive := fun u : State => ∃ sent more,
      u = { s with lay := { s.lay with sent := sent }, out := s.out ++ more }) _ _ ⟨true, [], by rw [List.append_nil]⟩ ?_
    rintro _ ⟨sent, more, rfl⟩ k _
    exact ⟨sent, more ++ [.digests axis (some k) _], by rw [State.emit, ← List.append_assoc]⟩

theorem State.digestJoin_effect (s : State) (axis : Nat) (d : List (List Byte)) {ks : List (List Byte)}
    (hks : ks = (chunks 256 d.length d).map chunkDigest) : let t := s.digestJoin axis d
    smGet [] t.lay.digests (s.coord axis) = ks ∧ (∃ more, t.out = s.out ++ .digests axis none ks :: more) ∧
    (∀ i, i < d.length → (smGet [] t.lay.blocks (65536 * s.coord axis + i / 256)).getD (i % 256) [] = d.getD i []) ∧
    RegsExcept [] s t ∧ SameBytes s t := by
  have stored := s.putChunkBlocks_blocks axis (chunks 256 d.length d) 0
  obtain ⟨b, eq⟩ := s.putChunkBlocks_shape axis (chunks 256 d.length d) 0
  intro t
  have ht : t = (((s.putChunkBlocks axis (chunks 256 d.length d) 0).putChunks
      ((s.putChunkBlocks axis (chunks 256 d.length d) 0).coord axis) ks).emit (.digests axis none ks)).digestTurn axis
        d.length := by
    rw [hks]
    rfl
  rw [eq] at stored ht
  obtain ⟨sent, more, turn⟩ := State.digestTurn_effect ((({ s with lay := { s.lay with blocks := b } } : State).putChunks
    (s.coord axis) ks).emit (.digests axis none ks)) axis d.length
  have ht' : t = _ := ht.trans turn
  rw [ht']
  refine ⟨(smGet_smPut _ _ _ _ _).trans (if_pos rfl), ⟨more, ?_⟩, fun i hi => ?_, (RegsExcept.refl _ s).of_csr rfl,
    SameBytes.of_mem rfl⟩
  · exact List.append_assoc ..
  · have chunk := chunks_getElem? (n := 256) (k := i / 256) (by decide) (Nat.le_refl d.length) (by omega)
    have block : smGet [] b (65536 * s.coord axis + i / 256) = (d.drop (256 * (i / 256))).take 256 := by
      obtain ⟨short, -⟩ := List.getElem?_eq_some_iff.1 chunk
      rw [stored (i / 256), if_pos ⟨Nat.zero_le _, by rwa [Nat.zero_add]⟩, Nat.sub_zero, List.getD_eq_getElem?_getD, chunk]
      rfl
    refine (congrArg (List.getD · (i % 256) []) block).trans ?_
    have at' : 256 * (i / 256) + i % 256 = i := by omega
    rw [List.getD_eq_getElem?_getD, List.getElem?_take_of_lt (Nat.mod_lt _ (by decide)), List.getElem?_drop, at',
      ← List.getD_eq_getElem?_getD]

/-! ## Digests of the peers -/

theorem exec_digestMessage {s : State} (on : s.hubOn = true) (c : Fin 32) (l : List (List Byte)) :
    (∀ k : Fin 65536, exec (.digestMessage c (.blocks k l)) s = .next { s with
      lay := { s.lay with blocks := smPut s.lay.blocks (65536 * c.val + k.val) (l.map fun x => slice x 0 8) } }) ∧
    (s.hcp.pend = none → exec (.digestMessage c (.chunks l)) s = .next { s with
      lay := { s.lay with digests := smPut s.lay.digests c.val (l.map fun x => slice x 0 8) } }) ∧
    (∀ e u, s.hcp.pend = some ⟨e, none⟩ → e.opcode = 0x0603 →
      u = { s with lay := { s.lay with digests := smPut s.lay.digests c.val (l.map fun x => slice x 0 8) } } →
      exec (.digestMessage c (.chunks l)) s = .next (u.digestTurn (leAt e.block 0 1) (leAt e.block 16 8 / 4096))) := by
  have pend : ∀ v, (s.putChunks c v).hcp.pend = s.hcp.pend := fun v => rfl
  simp only [exec, execDigestMessage, on, Bool.not_true, Bool.false_eq_true, if_false, pend]
  refine ⟨fun _ => rfl, fun none => ?_, fun e u waits check hu => ?_⟩
  · rw [none]
    rfl
  · rw [waits, hu]
    exact congrArg _ (if_pos check)

theorem exec_digestJoinTimeout {s : State} {e : HcpEntry} (on : s.hubOn = true) (waits : s.hcp.pend = some ⟨e, none⟩)
    (check : e.opcode = 0x0603) (missing : s.allJoined (leAt e.block 0 1) = false) :
    exec .digestJoinTimeout s = .next { s with
      lay := { s.lay with digests := [], blocks := [], sent := false },
      hcp := { s.hcp with pend := some ⟨e, some (stNotReady, [])⟩ } } := by
  have due : (s.hubOn && decide (e.opcode = 0x0603) && !s.allJoined (leAt e.block 0 1)) = true := by
    simp [on, check, missing]
  have ends : s.dropDigests.pendingEnds stNotReady [] = { s with
      lay := { s.lay with digests := [], blocks := [], sent := false },
      hcp := { s.hcp with pend := s.hcp.pend.map fun p => { p with result := some (stNotReady, []) } } } := rfl
  simp only [exec, execDigestJoinTimeout, waits, due, if_true, ends, Option.map_some]

/-- Settles O34. -/
theorem layoutAndDigests : Obligations.LayoutAndDigests := by
  refine ⟨⟨fun s t e => exec_setLayout, fun s t e => exec_reshard⟩, fun s t e due zero quiet axis long base whole small d u =>
      exec_digestCheck due zero quiet axis long base whole small, fun s axis d ks => s.digestJoin_effect axis d,
    fun s c l on => exec_digestMessage on c l, fun s e => exec_digestJoinTimeout⟩

end Sys2Proof.Machine
end

section
/-! PROOFS of the commands on links and on pod parity (R406, R453 to R461). -/

namespace Sys2Proof.Machine
open Sys2Proof

variable {s t u r : State} {e : HcpEntry} {slow : Bool}

/-! ## LINK_STATUS -/

/-- The row of a LINK_STATUS whose ACTION it names. -/
theorem State.linkCmd_of_due (due : s.cmdDue 0x0604 e t) {p : Nat → Bool} (mine : p (leAt e.block 1 1) = true)
    (hu : u = ((maskPorts e.block).filter (fun p => t.cameBy e.via ≠ some p)).foldl
      (fun s p => s.linkAct (leAt e.block 1 1) p) t) :
    (t.linkRefusal e.block ≠ stOk → s.linkCmd p = t.finish e false (t.linkRefusal e.block) []) ∧
    (t.linkRefusal e.block = stOk →
      s.linkCmd p = ((maskPorts e.block).filter (fun p => t.cameBy e.via = some p)).foldl
        (fun s p => s.linkAct (leAt e.block 1 1) p)
        (u.finish e false stOk ((maskPorts e.block).flatMap u.linkRecord))) := by
  subst hu
  obtain ⟨head, may⟩ := due
  simp only [State.linkCmd, State.headIs_of_anyBlock (sub := fun b => p (leAt b 1 1)) head mine, may, if_true]
  exact ⟨fun bad => if_pos bad, fun good => if_neg (Classical.not_not.2 good)⟩

theorem exec_linkStatuses (due : s.cmdDue 0x0604 e t) {act : Nat} (named : leAt e.block 1 1 = act)
    (hu : u = ((maskPorts e.block).filter (fun p => t.cameBy e.via ≠ some p)).foldl (fun s p => s.linkAct act p) t)
    (bad : t.linkRefusal e.block ≠ stOk → r = t.finish e false (t.linkRefusal e.block) [])
    (good : t.linkRefusal e.block = stOk → r = ((maskPorts e.block).filter (fun p => t.cameBy e.via = some p)).foldl
      (fun s p => s.linkAct act p) (u.finish e false stOk ((maskPorts e.block).flatMap u.linkRecord))) :
    (act = 0 → exec .linkStatus s = .next r) ∧ (act = 1 → exec .linkStatusRetrain s = .next r) ∧
    (act = 2 → exec .linkStatusDisable s = .next r) ∧ (act = 3 → exec .linkStatusEnable s = .next r) := by
  subst named
  have row : ∀ p : Nat → Bool, p (leAt e.block 1 1) = true → s.linkCmd p = r := by
    intro p mine
    obtain ⟨refused, acts⟩ := State.linkCmd_of_due due mine hu
    by_cases ok : t.linkRefusal e.block = stOk
    · rw [acts ok, good ok]
    · rw [refused ok, bad ok]
  exact ⟨fun act => congrArg _ (row _ (by simp [act])), fun act => congrArg _ (row _ (by simp [act])),
    fun act => congrArg _ (row _ (by simp [act])), fun act => congrArg _ (row _ (by simp [act]))⟩

/-! ## PARITY_CONFIG -/

/-- A PARITY_CONFIG of good form runs the row of its ACTION. -/
theorem State.parityCmd_of_due (due : s.cmdDue 0x0605 e t) (zero : zeroAt e.block 2 6 = true) (up : t.running fabDomains)
    {p : Nat → Bool} (mine : p (leAt e.block 0 1) = true) (listed : leAt e.block 0 1 ≤ 2) {f : List Byte → State → Ans}
    {a : Ans} (ha : f e.block t = a) : s.parityCmd p slow f = t.answer e slow a := by
  rw [State.parityCmd, State.runCommand_of_due_sub due mine, if_neg (by simp [zero, listed]), State.needs_of_running up, ha]

theorem exec_parityConfigure (due : s.cmdDue 0x0605 e t) (zero : zeroAt e.block 2 6 = true) (up : t.running fabDomains)
    (action : leAt e.block 0 1 = 0) :
    (t.configureBad e.block = false → t.seq.mode = .idle →
      (unitsIn true (pcRanges e.block) ≠ 0 → bit (t.rd kGrnCtrl) 4 = true) →
      exec .parityConfigure s = .next (t.answer e false (stPending, [], t))) ∧
    (t.configureBad e.block = true → exec .parityConfigure s = .next (t.answer e false (stBadParam, [], t))) := by
  refine ⟨fun good idle online => congrArg _ (State.parityCmd_of_due due zero up (by simp [action]) (by omega) ?_),
    fun bad => congrArg _ (State.parityCmd_of_due due zero up (by simp [action]) (by omega) ?_)⟩
  · have held : (decide (unitsIn true (pcRanges e.block) ≠ 0) && !bit (t.rd kGrnCtrl) 4) = false := by
      by_cases units : unitsIn true (pcRanges e.block) = 0
      · simp [units]
      · simp [online units]
    rw [good, if_neg (by decide), if_neg (by simp [State.isIdle, idle]), held, if_neg (by decide)]
  · rw [if_pos bad]
    rfl

theorem exec_parityDisable (due : s.cmdDue 0x0605 e t) (zero : zeroAt e.block 2 6 = true) (up : t.running fabDomains)
    (action : leAt e.block 0 1 = 2) (none : leAt e.block 1 1 = 0) (idle : t.seq.mode = .idle) :
    exec (.parityDisable slow) s = .next (t.answer e slow (stOk, [], t.wrf kParityCtrl 0 1 0)) := by
  refine congrArg _ (State.parityCmd_of_due due zero up (by simp [action]) (by omega) ?_)
  rw [if_neg (by simp [none]), if_neg (by simp [State.isIdle, idle])]
  rfl

theorem setFld_div_two (v x : Nat) : setFld v 0 1 x / 2 = v / 2 := by
  simp only [setFld, fld, Nat.pow_zero, Nat.pow_one, Nat.div_one, Nat.mul_one]
  omega

/-- The lowest bit of a register is cleared and nothing else changes. -/
theorem State.clearLowBit_effect (s : State) (k : Nat) : let u := s.wrf k 0 1 0
    bit (u.rd k) 0 = false ∧ u.rd k / 2 = s.rd k / 2 ∧ RegsExcept [k] s u ∧ SameBytes s u := by
  refine ⟨?_, ?_, (RegsExcept.refl [k] s).wrf (List.mem_singleton_self k) 0 1 0, SameBytes.of_mem rfl⟩
  · rw [State.rd_wrf_same (by decide), bit_setFld_same]
    rfl
  · rw [State.rd_wrf_same (by decide), setFld_div_two]

theorem exec_parityRepair (due : s.cmdDue 0x0605 e t) (zero : zeroAt e.block 2 6 = true) (up : t.running fabDomains)
    {units : List (List Byte)} {lost : Option Bool} {base len : Nat} (action : leAt e.block 0 1 = 1)
    (one : leAt e.block 1 1 = 1) (range : (pcRanges e.block).headD (0, 0) = (base, len)) (ok : rangeOk (base, len) = true)
    (covered : t.allProtected base (len / 4096) = true) (quiet : t.quiet = true)
    (online : regionOf base = .granary → bit (t.rd kGrnCtrl) 4 = true) :
    (lost = none → exec (.parityRepair units lost slow) s = .next (t.answer e slow
      (stOk, leBytes 8 (len / 4096), t.parityRepair base len units))) ∧
    (∀ torn, lost = some torn → exec (.parityRepair units lost slow) s = .next (t.answer e slow
      (stPoisoned, [], t.orBits (wideKey 0x130214) (if torn then 2 else 1)))) := by
  have held : (decide (regionOf base = .granary) && !bit (t.rd kGrnCtrl) 4) = false := by
    by_cases gran : regionOf base = .granary
    · simp [online gran]
    · simp [gran]
  refine ⟨?_, ?_⟩
  · rintro rfl
    refine congrArg _ (State.parityCmd_of_due due zero up (by simp [action]) (by omega) ?_)
    rw [range]
    dsimp only
    rw [if_neg (by simp [one, ok, covered]), quiet, if_neg (by decide), held, if_neg (by decide)]
  · rintro torn rfl
    refine congrArg _ (State.parityCmd_of_due due zero up (by simp [action]) (by omega) ?_)
    rw [range]
    dsimp only
    rw [if_neg (by simp [one, ok, covered]), quiet, if_neg (by decide), held, if_neg (by decide)]

/-- Settles O35. -/
theorem linkAndParityCommands : Obligations.LinkAndParityCommands := by
  refine ⟨fun s t u r e act due named ⟨hu, bad, good⟩ => exec_linkStatuses due named hu bad good,
    fun s t e due zero up => ?_, fun s p on waits op unanswered => ?_⟩
  · refine ⟨fun action => (exec_parityConfigure due zero up action).1, fun action => (exec_parityConfigure due zero up action).2,
      fun slow action none idle => ⟨_, exec_parityDisable due zero up action none idle, t.clearLowBit_effect kParityCtrl⟩,
      fun slow units lost base len action one range ok covered quiet online =>
        exec_parityRepair due zero up action one range ok covered quiet online⟩
  · have due : (s.hubOn && s.pendIs 0x0605) = true := by simp [on, State.pendIs, waits, op, unanswered]
    simp only [exec, execParityJoinTimeout, due, if_true, State.pendingEnds, State.setHcp, waits, Option.map_some]

end Sys2Proof.Machine
end

section
/-! PROOFS of the commands that set the module: clocks, performance points, lamps and resets (R62, R421, R426, R539, R549,
R581 to R588). -/

namespace Sys2Proof.Machine
open Sys2Proof

section
variable {s t u : State} {e : HcpEntry} {slow : Bool}

theorem exec_setClockSource (due : s.cmdDue 0x0701 e t) :
    (t.clockRefusal e.block = stOk → exec (.setClockSource slow) s = .next (t.answer e slow
      (stOk, [], t.switchDomain (leAt e.block 0 1) (leAt e.block 1 1)))) ∧
    (t.clockRefusal e.block ≠ stOk → exec (.setClockSource slow) s = .next (t.answer e slow (t.clockRefusal e.block, [], t))) :=
  ⟨fun good => congrArg Host.Outcome.next (State.runCommand_answers due (if_pos good)),
    fun bad => congrArg Host.Outcome.next (State.runCommand_answers due (if_neg bad))⟩

theorem exec_setPerfPoint (due : s.cmdDue 0x0702 e t) (zero : zeroAt e.block 3 5 = true)
    (point : leAt e.block 2 1 = 0xFF ∨ leAt e.block 2 1 ≤ 15)
    (limit : leAt e.block 0 2 = 0 ∨ 600 ≤ leAt e.block 0 2 ∧ leAt e.block 0 2 ≤ 1900)
    (hu : u = if leAt e.block 0 2 = 0 then t else t.wr 0x4100 (setFld (t.rd 0x4100) 0 12 (leAt e.block 0 2))) :
    exec (.setPerfPoint slow) s = .next (t.answer e slow
      (stOk, [], if leAt e.block 2 1 = 0xFF then u else u.askCap (leAt e.block 2 1))) := by
  have fine : ¬ ((decide (leAt e.block 0 2 ≠ 0) && (decide (leAt e.block 0 2 < 600) || decide (leAt e.block 0 2 > 1900))) ||
      (decide (leAt e.block 2 1 ≠ 0xFF) && decide (leAt e.block 2 1 > 15)) || !zeroAt e.block 3 5) = true := by
    simp only [zero, Bool.not_true, Bool.or_false, Bool.or_eq_true, Bool.and_eq_true, decide_eq_true_eq]
    omega
  subst hu
  refine congrArg Host.Outcome.next (State.runCommand_answers due ?_)
  rw [if_neg fine]
  rfl

theorem exec_lampStatus (due : s.cmdDue 0x0703 e t) (zero : zeroAt e.block 1 7 = true) {l : List Nat}
    (hl : l = (List.range 8).filter (bit (leAt e.block 0 1))) (named : l ≠ []) :
    exec (.lampStatus slow) s = .next (t.answer e slow (stOk, l.flatMap t.lampRecord, t)) := by
  subst hl
  have fine : ¬ (decide ((List.range 8).filter (bit (leAt e.block 0 1)) = []) || !zeroAt e.block 1 7) = true := by
    simpa only [zero, Bool.not_true, Bool.or_false, decide_eq_true_eq] using named
  exact congrArg Host.Outcome.next (State.runCommand_answers due (if_neg fine))

theorem exec_lampRetire (due : s.cmdDue 0x0704 e t) (still : s.ramping (leAt e.block 0 1) = false)
    (other : s.ramping (partner (leAt e.block 0 1)) = false) (good : t.retireBad e.block = false)
    (on : t.lampOn (leAt e.block 0 1) = true) :
    (leAt e.block 1 1 = 1 → t.quiet = true →
      exec .lampRetire s = .next (t.answer e false (stOk, [], t.forceDark (leAt e.block 0 1)))) ∧
    (leAt e.block 1 1 = 1 → t.quiet = false → exec .lampRetire s = .next (t.answer e false (stBusy, [], t))) ∧
    (leAt e.block 1 1 = 0 → t.lampSt (leAt e.block 0 1) = 4 → t.lampSt (partner (leAt e.block 0 1)) = 4 →
      exec .lampRetire s = .next (t.answer e false
        (stPending, [], (t.ramp (partner (leAt e.block 0 1)) 2 false).ramp (leAt e.block 0 1) 0 true))) := by
  have body : ∀ a, (if bit (leAt e.block 1 1) 0 then
        (if t.quiet then (t.forceDark (leAt e.block 0 1)).yes else t.no stBusy)
      else if t.lampSt (leAt e.block 0 1) = 4 && t.lampSt (partner (leAt e.block 0 1)) = 4 then
        (stPending, [], (t.ramp (partner (leAt e.block 0 1)) 2 false).ramp (leAt e.block 0 1) 0 true)
      else t.no stNotReady) = a → exec .lampRetire s = .next (t.answer e false a) := by
    rintro a rfl
    have held : (!s.retireBad e.block && (s.ramping (leAt e.block 0 1) || s.ramping (partner (leAt e.block 0 1)))) = false := by
      rw [still, other, Bool.or_false, Bool.and_false]
    simp only [exec, execLampRetire, due.1]
    rw [held, if_neg (by decide)]
    refine congrArg Host.Outcome.next (State.runCommand_answers due ?_)
    rw [good, if_neg (by decide), on, if_neg (by decide)]
  refine ⟨fun force quiet => body _ ?_, fun force runs => body _ ?_, fun waits lit lit' => body _ ?_⟩
  · rw [force, if_pos (by decide), if_pos quiet]
    rfl
  · rw [force, if_pos (by decide), runs, if_neg (by decide)]
    rfl
  · rw [waits, if_neg (by decide), if_pos (by simp [lit, lit'])]

/-! ## Resets by command -/

theorem exec_resetTile (due : s.cmdDue 0x0A01 e t) (tile : leAt e.block 0 1 ≤ 3) (zero : zeroAt e.block 1 7 = true)
    (up : t.running (tileDomains (leAt e.block 0 1))) :
    exec .resetTile s = .next ((t.finish e false stOk []).take (.resetTile (leAt e.block 0 1))) := by
  obtain ⟨head, may⟩ := due
  have on : t.domainsUp (tileDomains (leAt e.block 0 1)) = true := List.all_eq_true.2 fun d hd => by rw [up d hd]; rfl
  simp only [exec, execResetTile, head]
  rw [may, if_neg (by decide), if_neg (by simp [zero, tile]), on, if_neg (by decide)]

theorem exec_resetModule (due : s.cmdDue 0x0A02 e t) :
    (t.srcReady 3 = true → ∀ u, u = t.finish e false stOk [] →
      exec .resetModule s = .next (({ u with
        hcp := { HcpState.init with nextTag := u.hcp.nextTag }, feed := { u.feed with last := none, exports := [] } } :
          State).take .resetModule)) ∧
    (t.srcReady 3 = false → exec .resetModule s = .next (t.finish e false stClockNotReady [])) := by
  obtain ⟨head, may⟩ := due
  simp only [exec, execResetModule, head]
  rw [may, if_neg (by decide)]
  refine ⟨?_, fun dark => ?_⟩
  · rintro ready u rfl
    rw [ready, if_neg (by decide)]
  · rw [dark, if_pos (by decide)]

end

/-! ## When a reset or abort takes effect -/

theorem State.take_effect (s : State) (d : Deferred) :
    (s.seq.deferred.contains .resetModule = true → s.take d = s) ∧
    (s.seq.deferred.contains .resetModule = false → s.seq.mode = .fence → s.seq.fenceOrder ≥ 3 →
      s.take d = { s with seq := { s.seq with
        deferred := if d = .resetModule then [.resetModule] else s.seq.deferred ++ [d] } }) ∧
    (s.seq.deferred.contains .resetModule = false → ¬(s.seq.mode = .fence ∧ s.seq.fenceOrder ≥ 3) →
      (d = .resetModule → s.boot.update = none) →
      s.take d = s.applyDeferred d) := by
  unfold State.take
  refine ⟨fun absorbed => if_pos absorbed, fun stays fence order => ?_, fun stays free copied => ?_⟩
  · rw [stays, if_neg (by decide), if_pos (by simp [State.inFence, fence, order])]
  · have copied' : (decide (d = .resetModule) && s.boot.update.isSome) = false := by
      by_cases reset : d = .resetModule
      · simp [copied reset]
      · simp [reset]
    rw [stays, if_neg (by decide), copied', if_neg (by simpa [State.inFence] using free)]
    simp only [State.runDeferred, ite_self]

/-! ## RESET_MODULE -/

/-- Everything of RESET_MODULE before the memories are cleared. -/
def State.moduleCleared (s : State) : State :=
  let s := s.eachTile fun s t => (s.ueStop t).undefWindows t
  let s := s.linksReset
  let s := s.granResetModule
  let s := ((s.quantReset).ueReset).embReset
  s.resetRegs fun k =>
    (0x200000 ≤ k && k < 0xA00000 && wideReset (k % 0x200000)) || (0x6100 ≤ k && k < 0x6300) || (0xA000 ≤ k && k < 0xA040)

/-- The memories and the units' own state as RESET_MODULE leaves them. -/
def State.stateCleared (s : State) : State :=
  let s := (s.zero 0 0x4B000000).loadMasks
  { s with
    seq := SeqState.reset, tseq := [], cores := [], col := [], lay := LayoutState.init, inbox := [], arb := []
    repair := { s.repair with testing := none }
    hcp := { HcpState.init with nextTag := s.hcp.nextTag }
    feed := FeedState.init
    boot := { s.boot with reeve := false, eth := [] }
    clk := { s.clk with rootLate := false } }

/-- The registers of start-up after a reset. -/
def State.restarted (s : State) (dimms : Bool) : State :=
  ((s.setMreg 7 (zeros 64)).wr kStartStatus (1 + b2n dimms * 2 ^ 3 + b2n s.pwr.lampsDone * 2 ^ 5 + 2 ^ 8)).clocksReset

theorem State.setMreg_onlyRegs (s : State) (i : Nat) (b : List Byte) : OnlyRegs s (s.setMreg i b) :=
  List.foldlRecOn (motive := fun t : State => OnlyRegs s t) _ _ (.refl s) fun _ h _ _ => h.wr _ _

theorem State.restarted_onlyRegs (s : State) (dimms : Bool) : OnlyRegs s (s.restarted dimms) :=
  (((s.setMreg_onlyRegs 7 (zeros 64)).wr _ _).wr _ _).wrf _ _ _ _

theorem State.resetModule_eq (s : State) : ∃ dimms,
    s.resetModule = (s.moduleCleared.stateCleared.restarted dimms).challengeLamps := by
  refine ⟨(s.eachTile fun s t => (s.ueStop t).undefWindows t).started 3, ?_⟩
  rfl

/-- A state that differs in its registers, its lamps and what it has sent alone. -/
def OnlyLamps (s t : State) : Prop := ∃ c l o f, t = { s with csr := c, lamps := l, out := o, free := f }

theorem State.challengeLamp_onlyLamps (s : State) (k : Nat) : OnlyLamps s (s.challengeLamp k) := ⟨_, _, _, _, rfl⟩

theorem OnlyLamps.trans {s t u : State} : OnlyLamps s t → OnlyLamps t u → OnlyLamps s u := by
  rintro ⟨c, l, o, f, rfl⟩ ⟨c', l', o', f', rfl⟩
  exact ⟨c', l', o', f', rfl⟩

theorem OnlyRegs.onlyLamps {s t : State} : OnlyRegs s t → OnlyLamps s t := by
  rintro ⟨c, rfl⟩
  exact ⟨c, s.lamps, s.out, s.free, rfl⟩

theorem State.challengeLamps_onlyLamps (s : State) : OnlyLamps s s.challengeLamps := by
  refine List.foldlRecOn (motive := fun t : State => OnlyLamps s t) _ _ (OnlyRegs.refl s).onlyLamps fun t h k _ => ?_
  split
  · exact h.trans (t.challengeLamp_onlyLamps k)
  · exact h

theorem State.loadMasks_onlyRegs (s : State) : OnlyRegs s s.loadMasks := by
  refine List.foldlRecOn (motive := fun t : State => OnlyRegs s t) _ _ ⟨_, rfl⟩ fun t h e _ => ?_
  split
  · exact h.wrf _ _ _ _
  · exact h

theorem State.byte_zero {s : State} {a n x : Nat} (h : a ≤ x ∧ x < a + n) : (s.zero a n).byte x = 0 := by
  exact (smGet_filter 0 s.mem (fun y => a ≤ y && y < a + n) x).trans (if_pos (by simp [h]))

theorem State.stateCleared_effect (s : State) : let t := s.stateCleared
    t.seq = SeqState.reset ∧ t.tseq = [] ∧ t.cores = [] ∧ t.col = [] ∧ t.inbox = [] ∧ t.feed = FeedState.init ∧
    t.hcp.queue = [] ∧ t.hcp.sessions = [] ∧ t.hcp.pend = none ∧ t.boot.reeve = false ∧
    ∀ a, a < 0x4B000000 → t.byte a = 0 := by
  refine ⟨rfl, rfl, rfl, rfl, rfl, rfl, rfl, rfl, rfl, rfl, fun a ha => ?_⟩
  obtain ⟨c, masks⟩ := (s.zero 0 0x4B000000).loadMasks_onlyRegs
  have mem : s.stateCleared.mem = (s.zero 0 0x4B000000).mem := (congrArg State.mem masks :)
  rw [State.byte, mem]
  exact State.byte_zero ⟨Nat.zero_le a, by omega⟩

/-- What RESET_MODULE leaves (R582); the queue and the owner record survive as in every command. -/
theorem State.resetModule_effect (s : State) : let t := s.resetModule
    t.seq = SeqState.reset ∧ t.tseq = [] ∧ t.cores = [] ∧ t.col = [] ∧ t.inbox = [] ∧ t.feed = FeedState.init ∧
    t.hcp.queue = [] ∧ t.hcp.sessions = [] ∧ t.hcp.pend = none ∧ t.boot.reeve = false ∧ t.pending = s.pending ∧
    t.flash.owner = s.flash.owner ∧ ∀ a, a < 0x4B000000 → t.byte a = 0 := by
  obtain ⟨dimms, eq⟩ := s.resetModule_eq
  obtain ⟨c, l, o, f, after⟩ :=
    ((s.moduleCleared.stateCleared.restarted_onlyRegs dimms).onlyLamps).trans (State.challengeLamps_onlyLamps _)
  obtain ⟨queue, -⟩ := State.resetModule_keeps (closed_queue s.pending []) ⟨rfl, List.nil_prefix⟩
  have owner := State.resetModule_keeps (closed_fixed (fun f => f.2.2.2.2.2.2) s.flash.owner) (s := s) rfl
  obtain ⟨seq, tseq, cores, col, inbox, feed, hq, sessions, pend, reeve, bytes⟩ := s.moduleCleared.stateCleared_effect
  generalize s.moduleCleared.stateCleared = v at *
  rw [eq, after] at queue owner ⊢
  exact ⟨seq, tseq, cores, col, inbox, feed, hq, sessions, pend, reeve, queue, owner, bytes⟩

/-! ## ABORT_JOB -/

/-- The step program of a tile has stopped. -/
def TileSeq.stopped (x : TileSeq) : Prop := x.inflight = [] ∧ x.next = 0 ∧ x.ctr = [] ∧ x.phase = 0

theorem State.tile_abortTile (s : State) (t k : Nat) :
    (s.abortTile t).tile k = if t = k then { s.tile t with next := 0, inflight := [], ctr := [], phase := 0, taint := 0 }
      else s.tile k := smGet_smSet _ _ _ _ _

theorem State.abortTile_stops (s : State) (t : Nat) : ((s.abortTile t).tile t).stopped := by
  rw [State.tile_abortTile, if_pos rfl]
  exact ⟨rfl, rfl, rfl, rfl⟩

theorem State.abortTile_stopped {s : State} {k : Nat} (h : (s.tile k).stopped) (t : Nat) : ((s.abortTile t).tile k).stopped := by
  rw [State.tile_abortTile]
  split
  · exact ⟨rfl, rfl, rfl, rfl⟩
  · exact h

theorem State.eachTile_abortTile_stopped (s : State) {k : Nat} (hk : k < 4) :
    ((s.eachTile fun s t => s.abortTile t).tile k).stopped := by
  obtain rfl | rfl | rfl | rfl : k = 0 ∨ k = 1 ∨ k = 2 ∨ k = 3 := by omega
  · exact State.abortTile_stopped (State.abortTile_stopped (State.abortTile_stopped (State.abortTile_stops _ 0) 1) 2) 3
  · exact State.abortTile_stopped (State.abortTile_stopped (State.abortTile_stops _ 1) 2) 3
  · exact State.abortTile_stopped (State.abortTile_stops _ 2) 3
  · exact State.abortTile_stops _ 3

theorem State.abortSeq_effect (s : State) (key : Nat) (stopped : ∀ k, k < 4 → (s.tile k).stopped) :
    let t := s.abortSeq.wr key 0
    t.seq.mode = .idle ∧ t.seq.mixed = false ∧ t.rd key = 0 ∧ ∀ k, k < 4 → (t.tile k).inflight = [] ∧
      (t.tile k).next = 0 ∧ (t.tile k).ctr = [] ∧ (t.tile k).phase = 0 :=
  ⟨rfl, rfl, State.rd_wr_of_lt (by decide) _ _, stopped⟩

/-- The engines of a step that ABORT_JOB ends have stopped; the step itself ends with `abortSeq`. -/
theorem State.abort_eq (s : State) : ∃ w : State,
    s.abort = (w.eachTile fun s t => s.abortTile t).abortSeq.wr kSeqStepsLeft 0 := ⟨_, rfl⟩

theorem State.abort_effect (s : State) : let t := s.abort
    t.seq.mode = .idle ∧ t.seq.mixed = false ∧ t.rd kSeqStepsLeft = 0 ∧ ∀ k, k < 4 → (t.tile k).inflight = [] ∧
      (t.tile k).next = 0 ∧ (t.tile k).ctr = [] ∧ (t.tile k).phase = 0 := by
  obtain ⟨w, eq⟩ := s.abort_eq
  rw [eq]
  exact State.abortSeq_effect _ _ fun k hk => w.eachTile_abortTile_stopped hk

/-- Settles O36. -/
theorem moduleCommands : Obligations.ModuleCommands := by
  refine ⟨fun s t e slow => ⟨exec_setClockSource, fun due zero point limit u hu => exec_setPerfPoint due zero point limit hu,
      fun due zero l hl named => exec_lampStatus due zero hl named,
      fun due _ still other good on => exec_lampRetire due still other good on, exec_resetTile,
      fun due ready => (exec_resetModule due).1 ready, fun due => (exec_resetModule due).2⟩,
    fun s d => ⟨(s.take_effect d).1, (s.take_effect d).2.1, fun stays free copied => ?_, s.resetModule_effect, s.abort_effect⟩⟩
  rw [(s.take_effect d).2.2 stays free copied]
  cases d <;> rfl

end Sys2Proof.Machine
end

section
/-! PROOFS of the descriptors of a step program: which is due, what its issue records, and the work of those that the
sequencer does itself or queues on its tile (R49 to R51, R86, R87, R211, R355, R359, R361). -/

namespace Sys2Proof.Machine
open Sys2Proof

/-! ## Which descriptor is due -/

theorem kindOrders_iff (k : Nat) : kindOrders k = true ↔ k = 0 ∨ k = 8 ∨ k = 13 ∨ k = 14 ∨ k = 15 := by
  simp only [kindOrders, Bool.or_eq_true, decide_eq_true_eq, or_assoc]

theorem State.due_eq (s : State) (t : Nat) : let x := s.tile t; let p := s.program t; let d := progDesc p x.next
    s.due t = if s.fabOn t = true ∧ s.seq.mode = .running ∧ (s.feedT t).copying = false ∧ x.next < progCount p ∧
        (dWaitValue d = 0 ∨ dWaitValue d ≤ smGet 0 x.ctr (dWaitCtr d)) ∧ x.inflight.length < 64 ∧
        (x.inflight.all fun i => decide (i.waiting = [])) = true ∧
        (dKind d = 0 ∨ dKind d = 8 ∨ dKind d = 13 ∨ dKind d = 14 ∨ dKind d = 15 ∨ s.fencedTile t = false) then some d
      else none := by
  dsimp only
  refine ite_of_iff ?_ rfl rfl
  simp only [Bool.and_eq_true, Bool.or_eq_true, decide_eq_true_eq, Bool.not_eq_true', kindOrders_iff, or_assoc, and_assoc]

/-! ## Its issue -/

theorem State.launch_effect (s : State) (t parts : Nat) (d : List Byte) (l : List Nat) (err : Option Bool) :
    let x := s.tile t
    let u := s.launch t d parts l err
    u.tile t = { x with next := x.next + 1, phase := phaseAt (s.program t) x.next,
                        inflight := x.inflight ++ [⟨x.next, dKind d, dFlags d, dSignal d, d.drop 8, parts, l, err, false, none⟩] } ∧
    (∀ k, k ≠ t → u.tile k = s.tile k) ∧ u.cores = s.cores ∧ RegsExcept [] s u ∧ SameBytes s u :=
  ⟨(smGet_smSet _ _ _ _ _).trans (if_pos rfl), fun _ ne => (smGet_smSet _ _ _ _ _).trans (if_neg ne.symm), rfl,
    fun _ _ => rfl, SameBytes.of_mem rfl⟩

section
variable {s : State} {t : TileId} {d : List Byte} {kind : Nat} {gate : List Byte → Bool} {body : State → Nat → List Byte → State}

/-- A descriptor that depends on failed work fails in turn. -/
theorem State.issue_tainted (due : s.due t = some d) (named : dKind d = kind) (go : gate d = true)
    (tainted : (s.tile t).tainted d = true) : s.issue t kind gate body = s.launch t d 0 [] (some false) := by
  simp only [State.issue, due, named, go, tainted, ne_eq, not_true_eq_false, decide_false, Bool.not_true, Bool.or_false,
    Bool.false_eq_true, if_false, if_true]

/-- One that may issue does its work. -/
theorem State.issue_sound (due : s.due t = some d) (named : dKind d = kind) (go : gate d = true)
    (sound : (s.tile t).tainted d = false) : s.issue t kind gate body = body (s.launch t d 1 [] none) (s.tile t).next d := by
  simp only [State.issue, due, named, go, sound, ne_eq, not_true_eq_false, decide_false, Bool.not_true, Bool.or_false,
    Bool.false_eq_true, if_false]

/-- One whose gate is shut waits. -/
theorem State.issue_shut (due : s.due t = some d) (shut : gate d = false) : s.issue t kind gate body = s := by
  simp only [State.issue, due, shut, Bool.not_false, Bool.or_true, if_true]

end

/-! ## Its work -/

theorem State.shareOut_none {u : State} {t n : Nat} {d : List Byte} (absent : u.coreRange d = none) :
    u.shareOut t n d = u.partDone t n (some false) := by
  simp only [State.shareOut, absent]

theorem State.shareOut_some {u : State} {t n : Nat} {d : List Byte} {cs : List Nat} (cores : u.coreRange d = some cs) :
    u.shareOut t n d = u.mapFlight t n (fun i => { i with parts := cs.length, waiting := cs }) := by
  simp only [State.shareOut, cores]

theorem State.copyIssue_bad {u : State} {t n size src dst : Nat}
    (bad : ¬(size ≠ 0 ∧ size % 4 = 0 ∧ src % 4 = 0 ∧ dst % 4 = 0)) :
    u.copyIssue t n size src dst = u.partDone t n (some false) := by
  refine if_pos ?_
  simp only [Bool.or_eq_true, decide_eq_true_eq]
  omega

theorem State.copyIssue_good {u v : State} {t n size src dst k : Nat} {c : Code}
    (good : size ≠ 0 ∧ size % 4 = 0 ∧ src % 4 = 0 ∧ dst % 4 = 0) (copied : u.copy false src dst size = (c, k, v)) :
    u.copyIssue t n size src dst = v.partDone t n (if c = .ok then none else some (decide (c = .ue))) := by
  obtain ⟨filled, whole, source, dest⟩ := good
  have fine : (decide (size = 0) || decide (size % 4 ≠ 0) || decide (src % 4 ≠ 0) || decide (dst % 4 ≠ 0)) = false := by
    simp [filled, whole, source, dest]
  rw [State.copyIssue, fine, if_neg (by decide), copied]
  cases c <;> rfl

section
variable {s u : State} {t : TileId} {d : List Byte} {n : Nat}

theorem exec_easelLoad (due : s.due t = some d) (kind : dKind d = 7) (sound : (s.tile t).tainted d = false)
    (hu : u = s.launch t d 1 [] none) (hn : n = (s.tile t).next) :
    let src := dArg d 8 8
    let off := dArg d 16 4
    let size := dArg d 4 4
    let good := size ≠ 0 ∧ size % 64 = 0 ∧ src % 64 = 0 ∧ off % 64 = 0 ∧ off + size ≤ u.rdf (kEasel t 8) 0 29
    (¬good → exec (.easelLoad t) s = .next (u.partDone t n (some false))) ∧
    (good → ∀ c k v, u.copy false src (ownGlobal (u.rdf (kEasel t 0) 0 44 + off)) size = (c, k, v) →
      exec (.easelLoad t) s = .next (v.partDone t n (if c = .ok then none else some (decide (c = .ue))))) := by
  subst hu hn
  refine ⟨fun bad => ?_, fun ⟨filled, whole, source, offset, fits⟩ c k v copied => ?_⟩
  · refine congrArg Host.Outcome.next ((State.issue_sound due kind rfl sound).trans (if_pos ?_))
    simp only [Bool.or_eq_true, decide_eq_true_eq]
    omega
  · refine congrArg Host.Outcome.next ((State.issue_sound due kind rfl sound).trans ((if_neg ?_).trans ?_))
    · simp only [Bool.or_eq_true, decide_eq_true_eq]
      omega
    · rw [copied]
      cases c <;> rfl

theorem exec_memFence (due : s.due t = some d) (kind : dKind d = 13) (sound : (s.tile t).tainted d = false)
    (hu : u = s.launch t d 1 [] none) (hn : n = (s.tile t).next) :
    (dArg d 0 1 ≤ 1 → exec (.memFence t) s = .next (u.partDone t n none)) ∧
    (dArg d 0 1 > 1 → exec (.memFence t) s = .next (u.partDone t n (some false))) := by
  subst hu hn
  refine ⟨fun listed => congrArg Host.Outcome.next ((State.issue_sound due kind rfl sound).trans ?_),
    fun bad => congrArg Host.Outcome.next ((State.issue_sound due kind rfl sound).trans ?_)⟩
  · rw [if_neg (Nat.not_lt.2 listed)]
  · rw [if_pos bad]

end

/-- Settles O37. -/
theorem descriptors : Obligations.Descriptors := by
  refine ⟨⟨State.due_eq, fun s t parts d l err => s.launch_effect t parts d l err, fun s r t d due tainted hr => ?_⟩,
    fun s t d u n due sound hu hn => ?_⟩
  · have fails : ∀ {k body}, dKind d = k → s.issue t k (fun _ => true) body = r := fun kind =>
      (State.issue_tainted due kind rfl tainted).trans hr.symm
    exact ⟨fun kind => congrArg _ (fails kind), fun kind => congrArg _ (fails kind), fun kind => congrArg _ (fails kind),
      fun kind => congrArg _ (fails kind), fun kind => congrArg _ (fails kind), fun kind => congrArg _ (fails kind),
      fun kind => congrArg _ (fails kind), fun kind => congrArg _ (fails kind), fun kind => congrArg _ (fails kind),
      fun kind => congrArg _ (fails kind)⟩
  · have works : ∀ {k body}, dKind d = k → s.issue t k (fun _ => true) body = body u n d := fun kind => by
      rw [State.issue_sound due kind rfl sound, hu, hn]
    exact ⟨fun kind => congrArg _ (works kind),
      fun absent => ⟨fun kind => congrArg _ ((works kind).trans (State.shareOut_none absent)),
        fun kind => congrArg _ ((works kind).trans (State.shareOut_none absent))⟩,
      fun cs v cores hv => ⟨fun kind => congrArg _ ((works kind).trans ((State.shareOut_some cores).trans hv.symm)),
        fun kind => congrArg _ ((works kind).trans ((State.shareOut_some cores).trans hv.symm))⟩,
      fun kind => exec_easelLoad due kind sound hu hn, fun kind => congrArg _ (works kind),
      fun kind => ⟨fun bad => congrArg _ ((works kind).trans (State.copyIssue_bad bad)),
        fun good c k v copied => congrArg _ ((works kind).trans (State.copyIssue_good good copied))⟩,
      fun kind => exec_memFence due kind sound hu hn, fun kind => congrArg _ (works kind), fun kind => congrArg _ (works kind),
      fun kind => congrArg _ (works kind)⟩

end Sys2Proof.Machine
end

section
/-! PROOFS of the update descriptors, the dispatch of shares and Easel fences (R55, R86, R87, R179, R346, R356). -/

namespace Sys2Proof.Machine
open Sys2Proof

/-! ## Update descriptors -/

section
variable {s u : State} {t : TileId} {d : List Byte} {n : Nat} {o : Decision}

theorem State.updateApplies_of (decided : s.seq.decision = some o) : s.updateApplies = o.apply := by
  rw [State.updateApplies, decided]

theorem exec_embApply_undecided (due : s.due t = some d) (undecided : s.seq.decision = none) :
    exec (.embApply t) s = .next s :=
  congrArg Host.Outcome.next (State.issue_shut due (by simp [undecided]))

theorem exec_updateDesc_undecided (due : s.due t = some d) (undecided : s.seq.decision = none) :
    exec (.updateDesc t) s = .next s :=
  congrArg Host.Outcome.next (State.issue_shut due (by simp [undecided]))

/-- EMB_APPLY waits for its journal areas where the update applies. -/
theorem embApply_gate (decided : s.seq.decision = some o) :
    (s.seq.decision.isSome && !(s.updateApplies && s.applyWaits)) = !(o.apply && s.applyWaits) := by
  rw [State.updateApplies_of decided, decided, Option.isSome_some, Bool.true_and]

theorem exec_embApply (due : s.due t = some d) (decided : s.seq.decision = some o) (sound : (s.tile t).tainted d = false)
    (hu : u = s.launch t d 1 [] none) (hn : n = (s.tile t).next) (kind : dKind d = 5) :
    (o.apply = false → exec (.embApply t) s = .next (u.partDone t n none)) ∧
    (o.apply = true → s.applyWaits = false → exec (.embApply t) s = .next (u.applyIssue t n (dArg d 0 2))) ∧
    (o.apply = true → s.applyWaits = true → exec (.embApply t) s = .next s) := by
  have applies : u.updateApplies = o.apply := hu ▸ State.updateApplies_of decided
  have gate := embApply_gate decided
  refine ⟨fun skipped => congrArg Host.Outcome.next ?_, fun applied free => congrArg Host.Outcome.next ?_, fun applied waits => congrArg Host.Outcome.next ?_⟩
  · rw [State.issue_sound due kind (by rw [gate, skipped]; rfl) sound, ← hu, ← hn, applies, skipped, if_neg (by decide)]
  · rw [State.issue_sound due kind (by rw [gate, applied, free]; rfl) sound, ← hu, ← hn, applies, applied, if_pos rfl]
  · exact State.issue_shut due (by rw [gate, applied, waits]; rfl)

theorem exec_updateDesc (due : s.due t = some d) (decided : s.seq.decision = some o) (sound : (s.tile t).tainted d = false)
    (hu : u = s.launch t d 1 [] none) (hn : n = (s.tile t).next) (kind : dKind d = 11) :
    (o.apply = false → exec (.updateDesc t) s = .next (u.partDone t n none)) ∧
    (o.apply = true → exec (.updateDesc t) s = .next
      (u.updateIssue t n (dArg d 0 1) (dArg d 4 4) (dArg d 8 8) (dArg d 16 8))) := by
  have applies : u.updateApplies = o.apply := hu ▸ State.updateApplies_of decided
  refine ⟨fun skipped => congrArg Host.Outcome.next ?_, fun applied => congrArg Host.Outcome.next ?_⟩
  · rw [State.issue_sound due kind (by rw [decided]; rfl) sound, ← hu, ← hn, applies, skipped, if_neg (by decide)]
  · rw [State.issue_sound due kind (by rw [decided]; rfl) sound, ← hu, ← hn, applies, applied, if_pos rfl]

theorem exec_update_tainted (due : s.due t = some d) (decided : s.seq.decision = some o)
    (tainted : (s.tile t).tainted d = true) :
    (dKind d = 5 → (o.apply = false ∨ s.applyWaits = false) →
      exec (.embApply t) s = .next (s.launch t d 0 [] (some false))) ∧
    (dKind d = 11 → exec (.updateDesc t) s = .next (s.launch t d 0 [] (some false))) := by
  refine ⟨fun kind free => congrArg Host.Outcome.next (State.issue_tainted due kind ?_ tainted),
    fun kind => congrArg Host.Outcome.next (State.issue_tainted due kind (by rw [decided]; rfl) tainted)⟩
  rw [embApply_gate decided]
  rcases free with free | free
  · rw [free]
    rfl
  · rw [free, Bool.and_false]
    rfl

end

theorem State.applyWaits_iff (s : State) : s.applyWaits = true ↔ ∃ k, k < 4 ∧ s.step % 10 ∈ (s.grn k).clearing := by
  simp only [State.applyWaits, List.any_eq_true, List.mem_range, List.contains_iff_mem]

/-! ## Dispatch of shares -/

section
variable {s : State} {t : TileId} {c : CoreId}

theorem exec_shareDispatch_desc (on : s.coreOn c = true) (fab : s.fabOn t = true) {i : InFlight}
    (found : (s.tile t).inflight.find? (fun i => i.waiting.contains c.val) = some i) :
    exec (.shareDispatch t c) s = .next
      (if (if i.kind = 1 then (s.me c).pend.isSome else (s.ve c).pend.isSome) = true then s else s.handShare t c i) := by
  simp only [exec, execShareDispatch, on, fab, Bool.not_true, Bool.or_false, Bool.false_eq_true, if_false, found]

theorem exec_shareDispatch_pool (on : s.coreOn c = true) (fab : s.fabOn t = true)
    (none : ∀ i ∈ (s.tile t).inflight, c.val ∉ i.waiting) : exec (.shareDispatch t c) s = .next (s.poolDispatch t c) := by
  have missing : (s.tile t).inflight.find? (fun i => i.waiting.contains c.val) = .none :=
    List.find?_eq_none.2 fun i hi => by simpa [List.contains_iff_mem] using none i hi
  simp only [exec, execShareDispatch, on, fab, Bool.not_true, Bool.or_false, Bool.false_eq_true, if_false, missing]

theorem State.poolDispatch_effect (s : State) (t c : Nat) :
    ((∀ sh ∈ (s.embt t).shares, ¬(sh.core = c ∧ sh.mode ≤ 2 ∧ sh.phase = .gather ∧ sh.known = true)) →
      s.poolDispatch t c = s) ∧
    (∀ sh bytes, (s.embt t).shares.find? (fun sh => sh.core = c && sh.mode ≤ 2 && sh.phase = .gather && sh.known) = some sh →
      bytes = (poolLayout sh.items.length (sh.rowForm (s.table sh.table)).1 (tbDim (s.table sh.table))).2.2.2 →
      s.absent c = false →
      (∀ a, (s.ve c).pend = none → s.fencedCore c = false → s.poolArea t c bytes = some a →
        s.poolDispatch t c = (s.poolStart t sh a).vePromote c) ∧
      ((s.ve c).pend.isSome = true ∨ s.fencedCore c = true ∨ s.poolArea t c bytes = none → s.poolDispatch t c = s)) := by
  unfold State.poolDispatch
  refine ⟨fun none => ?_, ?_⟩
  · have missing : (s.embt t).shares.find? (fun sh => sh.core = c && sh.mode ≤ 2 && sh.phase = .gather && sh.known) = .none :=
      List.find?_eq_none.2 fun sh hsh => by simpa [and_assoc] using none sh hsh
    rw [missing]
  · rintro sh bytes found rfl there
    rw [found]
    dsimp only
    rw [there, if_neg (by decide)]
    refine ⟨fun a free go area => ?_, fun stuck => ?_⟩
    · rw [free, go, if_neg (by decide), area]
    · by_cases held : ((s.ve c).pend.isSome || s.fencedCore c) = true
      · exact if_pos held
      · have full := (stuck.resolve_left fun h => held (by rw [h]; rfl)).resolve_left fun h => held (by rw [h, Bool.or_true])
        rw [if_neg held, full]

end

/-! ## Easel fences -/

section
variable {s : State} {t : TileId} {d : List Byte}

theorem exec_easelFence (due : s.due t = some d) (kind : dKind d = 8) (ns : Nat) :
    (s.easelBusy t (dArg d 0 2) = true → exec (.easelFence t ns) s = .next s) ∧
    (s.easelBusy t (dArg d 0 2) = false → (s.tile t).tainted d = true →
      exec (.easelFence t ns) s = .next (s.launch t d 0 [] (some false))) ∧
    (s.easelBusy t (dArg d 0 2) = false → (s.tile t).tainted d = false → exec (.easelFence t ns) s = .next
      ((((s.launch t d 1 [] none).easelWaited t (dArg d 0 2) ns).bump (kEasel t 0x20) 1).partDone t (s.tile t).next none)) :=
  ⟨fun busy => congrArg Host.Outcome.next (State.issue_shut due (by rw [busy]; rfl)),
    fun free tainted => congrArg Host.Outcome.next (State.issue_tainted due kind (by rw [free]; rfl) tainted),
    fun free sound => congrArg Host.Outcome.next (State.issue_sound due kind (by rw [free]; rfl) sound)⟩

theorem exec_windowTimeout (due : s.due t = some d) (kind : dKind d = 8) :
    (∀ l, s.easelBusy t (dArg d 0 2) = true → l = s.rdf (wideKey 0x13010C) 0 24 → l ≠ 0 →
      exec (.windowTimeout t) s = .next
        (((((s.launch t d 0 [] (some false)).easelWaited t (dArg d 0 2) (1000 * l)).bump (kEasel t 0x20) 1).raise
          0x0602 1 t (dArg d 0 2)).fault t .windowLate)) ∧
    (s.easelBusy t (dArg d 0 2) = false ∨ s.rdf (wideKey 0x13010C) 0 24 = 0 → exec (.windowTimeout t) s = .next s) := by
  simp only [exec, execWindowTimeout, due]
  generalize s.rdf (wideKey 0x13010C) 0 24 = limit
  refine ⟨?_, fun held => congrArg _ (if_pos ?_)⟩
  · rintro l busy rfl counts
    rw [if_neg (by simp [kind, counts, busy])]
  · rcases held with free | off
    · simp [free]
    · simp [off]

theorem State.easelBusy_iff (s : State) (t layer : Nat) : s.easelBusy t layer = true ↔
    ∃ i ∈ (s.tile t).inflight, (i.kind = 7 ∧ leAt i.args 0 2 = layer) ∨ i.easel = some layer := by
  simp only [State.easelBusy, List.any_eq_true, Bool.or_eq_true, Bool.and_eq_true, decide_eq_true_eq]

end

/-- Settles O38. -/
theorem sharesAndFences : Obligations.SharesAndFences := by
  refine ⟨fun s t d due => ⟨fun undecided => ⟨fun _ => exec_embApply_undecided due undecided,
      fun _ => exec_updateDesc_undecided due undecided⟩, fun o decided sound u n hu hn => ?_,
      fun o decided tainted => exec_update_tainted due decided tainted, s.applyWaits_iff⟩,
    ⟨fun s t c i on fab found => ?_, fun s t c on fab none => ?_, fun s c p free waits => ?_⟩, fun s t d due kind => ?_⟩
  · refine ⟨fun kind => (exec_embApply due decided sound hu hn kind).1,
      fun kind => (exec_embApply due decided sound hu hn kind).2.1,
      fun kind => (exec_embApply due decided sound hu hn kind).2.2,
      fun kind => (exec_updateDesc due decided sound hu hn kind).1,
      fun kind => (exec_updateDesc due decided sound hu hn kind).2⟩
  · rw [exec_shareDispatch_desc on fab found]
    refine ⟨fun me free => ?_, fun ve free => ?_, fun taken => by rw [if_pos taken]⟩
    · rw [if_neg (by simp [me, free]), State.handShare, if_pos me]
    · rw [if_neg (by simp [ve, free]), State.handShare, if_neg ve]
  · rw [exec_shareDispatch_pool on fab none]
    obtain ⟨idle, found⟩ := s.poolDispatch_effect t c
    exact ⟨fun none => congrArg _ (idle none), fun sh bytes first size there =>
      ⟨fun a free go area => congrArg _ ((found sh bytes first size there).1 a free go area),
        fun stuck => congrArg _ ((found sh bytes first size there).2 stuck)⟩⟩
  · rw [State.vePromote]
    dsimp only
    rw [free, waits]
  · obtain ⟨late, stays⟩ := exec_windowTimeout due kind
    exact ⟨fun ns => (exec_easelFence due kind ns).1, fun ns => (exec_easelFence due kind ns).2.1,
      fun ns => (exec_easelFence due kind ns).2.2, late, stays, s.easelBusy_iff t (dArg d 0 2)⟩

end Sys2Proof.Machine
end

section
/-! PROOFS of the collective engine: how a COLLECTIVE issues and what a collective message does (R436 to R443). -/

namespace Sys2Proof.Machine
open Sys2Proof

/-! ## Issue -/

section
variable {s u v w : State} {t n o a op : Nat} {d b : List Byte} {c : Code} {count : Bool}

/-- A COLLECTIVE takes its ordinal when it issues. -/
def State.takeOrdinal (s : State) (t : Nat) : State := s.setTile t { s.tile t with colOrd := (s.tile t).colOrd + 1 }

theorem State.colIssue_misplaced (bad : a % 64 ≠ 0) :
    s.colIssue t n a count = (s.takeOrdinal t).partDone t n (some false) := if_pos bad

theorem State.colIssue_unread (placed : a % 64 = 0) (bad : c ≠ .ok) (read : (s.takeOrdinal t).gRead a 64 = (c, b, v)) :
    s.colIssue t n a count = v.partDone t n (some (decide (c = .ue))) := by
  refine (if_neg (Classical.not_not.2 placed)).trans ?_
  unfold State.takeOrdinal at read
  rw [read]
  cases c with
  | ok => exact absurd rfl bad
  | _ => rfl

theorem State.colIssue_refused (placed : a % 64 = 0) (read : (s.takeOrdinal t).gRead a 64 = (.ok, b, v))
    (bad : v.colOk t b = false) : s.colIssue t n a count = v.partDone t n (some false) := by
  refine (if_neg (Classical.not_not.2 placed)).trans ?_
  unfold State.takeOrdinal at read
  rw [read]
  exact if_pos (by rw [bad]; rfl)

/-- The job that a collective descriptor names. -/
def colJobOf (b : List Byte) (n o : Nat) (count : Bool) : ColJob where
  idx := n
  ordinal := o
  op := leAt b 0 1
  fmt := leAt b 3 1
  bytes := leAt b 8 8
  dst := leAt b 24 8
  axes := leAt b 1 1
  root := leAt b 40 2
  minus := bit (leAt b 2 1) 1
  layer := if bit (leAt b 2 1) 0 then some (leAt b 6 2) else none
  countFlags := count
  got := []
  msgs := 0
  sent := (0, 0)
  gen := leAt b 4 2

theorem State.colIssue_starts (placed : a % 64 = 0) (read : (s.takeOrdinal t).gRead a 64 = (.ok, b, v))
    (good : v.colOk t b = true) {j : ColJob} (hj : j = colJobOf b n (s.tile t).colOrd count) :
    s.colIssue t n a count =
      ((v.mapFlight t n fun i => { i with easel := j.layer }).colStart t j (leAt b 16 8)).colSent t j v.net.nextMsg := by
  subst hj
  refine (if_neg (Classical.not_not.2 placed)).trans ?_
  unfold State.takeOrdinal at read
  rw [read]
  exact if_neg (by rw [good]; decide)

/-- Whether a COLLECTIVE may issue as operation op. -/
theorem State.colIs_of_misplaced (bad : dArg d 8 8 % 64 ≠ 0) : s.colIs op d = true := if_pos bad

theorem State.colIs_of_unread (bad : c ≠ .ok) (read : s.gRead (dArg d 8 8) 64 = (c, b, w)) : s.colIs op d = true := by
  unfold State.colIs
  dsimp only
  split
  · rfl
  · rw [read]
    cases c with
    | ok => exact absurd rfl bad
    | _ => rfl

theorem State.colIs_of_op (read : s.gRead (dArg d 8 8) 64 = (.ok, b, w)) (named : leAt b 0 1 = op) :
    s.colIs op d = true := by
  unfold State.colIs
  dsimp only
  split
  · rfl
  · rw [read]
    simp [named]

theorem State.colRow_sound (due : s.due t = some d) (kind : dKind d = 9) (mine : s.colIs op d = true)
    (sound : (s.tile t).tainted d = false) :
    s.colRow t op = (s.launch t d 1 [] none).colIssue t (s.tile t).next (dArg d 8 8) (dCount d) := by
  simp only [State.colRow, due, kind, mine, sound, ne_eq, not_true_eq_false, decide_false, Bool.not_true, Bool.or_false,
    Bool.false_eq_true, if_false]

theorem State.colRow_tainted (due : s.due t = some d) (kind : dKind d = 9) (mine : s.colIs op d = true)
    (tainted : (s.tile t).tainted d = true) : s.colRow t op = (s.launch t d 0 [] (some false)).takeOrdinal t := by
  simp only [State.colRow, due, kind, mine, tainted, ne_eq, not_true_eq_false, decide_false, Bool.not_true, Bool.or_false,
    Bool.false_eq_true, if_false, if_true, State.takeOrdinal]

theorem State.colOrd_launch (s : State) (t parts : Nat) (d : List Byte) (l : List Nat) (err : Option Bool) :
    ((s.launch t d parts l err).tile t).colOrd = (s.tile t).colOrd := by
  rw [(s.launch_effect t parts d l err).1]

/-- A row of a COLLECTIVE does one thing, under the name of its operation. -/
theorem exec_collective {s r : State} {t : TileId} {op : Nat} (h : s.colRow t op = r) :
    (op = 0 → exec (.allGather t) s = .next r) ∧ (op = 1 → exec (.reduceScatter t) s = .next r) ∧
    (op = 2 → exec (.allReduce t) s = .next r) ∧ (op = 3 → exec (.colBroadcast t) s = .next r) ∧
    (op = 4 → exec (.colShift t) s = .next r) := by
  refine ⟨?_, ?_, ?_, ?_, ?_⟩ <;> rintro rfl <;> exact congrArg Host.Outcome.next h

end

/-! ## Messages -/

section
variable {s : State} {m : InMsg}

theorem exec_collectiveMessage (first : s.inbox.find? (fun m => m.typ ≥ colClass && s.colJudge m ≠ .hold) = some m)
    (on : s.fabOn (leAt m.body 3 1 % 4) = true) : let u : State := { s with inbox := s.inbox.erase m }
    (s.colJudge m = .stale → exec .collectiveMessage s = .next (u.bump (wideKey 0x130230) 1)) ∧
    (∀ t j, s.colJudge m = .mine t j → exec .collectiveMessage s = .next (u.colTake t j m)) ∧
    (s.colJudge m = .flag → exec .collectiveMessage s = .next
      { u with seq := { u.seq with flagMsgs := u.seq.flagMsgs + 1 } }) ∧
    (s.colJudge m = .drop → exec .collectiveMessage s = .next u) := by
  simp only [exec, execCollectiveMessage, first, on, Bool.not_true, Bool.false_eq_true, if_false]
  refine ⟨fun judged => ?_, fun t j judged => ?_, fun judged => ?_, fun judged => ?_⟩ <;> rw [judged]

theorem State.colJudge_stale (settled : serialLater 16 (leAt m.body 0 2) s.gen = false)
    (other : leAt m.body 0 2 ≠ s.gen ∨ leAt m.body 8 4 ≠ s.step % 2 ^ 32) : s.colJudge m = .stale := by
  refine (if_neg ?_).trans (if_pos ?_)
  · rw [show s.rdf kLayoutStatus 0 16 = s.gen from rfl, settled]
    decide
  · simpa [State.gen] using other

end

/-- Settles O39. -/
theorem collectives : Obligations.Collectives := by
  refine ⟨fun s u r t d op n o a due kind hn ho ha hu outcome => exec_collective ?_,
    fun s m first on => ?_⟩
  · subst hn ho ha
    have issued : u = (s.launch t d 1 [] none).takeOrdinal t := by
      rw [hu, State.takeOrdinal, State.colOrd_launch]
    subst issued
    obtain ⟨sound, bad, hr⟩ | ⟨sound, placed, c, b, w, b', v, bad, read, read', hr⟩ |
      ⟨sound, placed, b, w, v, read, named, read', refused, starts⟩ | ⟨tainted, ⟨b, w, placed, read, named⟩, hr⟩ := outcome
    · rw [State.colRow_sound due kind (State.colIs_of_misplaced bad) sound, State.colIssue_misplaced bad, hr]
    · rw [State.colRow_sound due kind (State.colIs_of_unread bad read) sound, State.colIssue_unread placed bad read', hr]
    · rw [State.colRow_sound due kind (State.colIs_of_op read named) sound]
      cases good : v.colOk t b with
      | false => rw [State.colIssue_refused placed read' good, refused good]
      | true =>
        rw [State.colIssue_starts placed read' good rfl, starts good _ rfl, colJobOf, named, State.colOrd_launch]
    · rw [State.colRow_tainted due kind (State.colIs_of_op read named) tainted, State.takeOrdinal, State.colOrd_launch, hr]
  · obtain ⟨stale, mine, flag, drop⟩ := exec_collectiveMessage first on
    exact ⟨stale, mine, flag, drop, State.colJudge_stale⟩

end Sys2Proof.Machine
end

section
/-! PROOFS of the pod-wide decision: FLAG_REDUCE issues, the module joins, and the flag word decides the step (R51 to
R55). -/

namespace Sys2Proof.Machine
open Sys2Proof

theorem all_range_iff (n : Nat) (p : Nat → Bool) : (List.range n).all p = true ↔ ∀ k, k < n → p k = true := by
  simp only [List.all_eq_true, List.mem_range]

/-! ## FLAG_REDUCE -/

section
variable {s : State} {t : TileId} {d : List Byte}

theorem exec_flagReduce (due : s.due t = some d) (kind : dKind d = 14) (ready : ∀ k, k < 4 → s.reduceReady k = true)
    {u : State} (hu : u = s.launch t d 1 [] none) :
    ((∀ k, k < 4 → u.reduceGone k = true) → u.seq.reduceIssued = false → exec (.flagReduce t) s = .next u.reduceJoin) ∧
    (¬((∀ k, k < 4 → u.reduceGone k = true) ∧ u.seq.reduceIssued = false) → exec (.flagReduce t) s = .next u) := by
  subst hu
  have all : (List.range 4).all s.reduceReady = true := (all_range_iff 4 _).2 ready
  simp only [exec, execFlagReduce, due, kind, all, ne_eq, not_true_eq_false, decide_false, Bool.not_true, Bool.or_false,
    Bool.false_eq_true, if_false]
  refine ⟨fun gone first => congrArg _ (if_pos ?_), fun held => congrArg _ (if_neg ?_)⟩
  · rw [(all_range_iff 4 _).2 gone, first]
    rfl
  · simpa only [Bool.and_eq_true, Bool.not_eq_true', all_range_iff] using held

end

/-! ## Its result -/

section
variable {s : State}

theorem exec_flagReduceResult_old (on : s.fabOn 0 = true) (closed : s.flagOpen = false) (peers : W64) :
    exec (.flagReduceResult peers) s = .next { s with seq := { s.seq with opens := answerOld s.seq.opens } } := by
  simp only [exec, execFlagReduceResult, on, closed, Bool.not_true, Bool.not_false, Bool.false_eq_true, if_false, if_true]

/-- The flag word of the pod stands, and the module's part of the reduction is kept open. -/
def State.flagWord (s : State) (w : Nat) : State :=
  ((s.wr kPodFlags w).keepOpen (s.flagRed false)).sample 8 0 (s.time - s.seq.joinAt)

theorem State.flagWord_mode (s : State) (w : Nat) : (s.flagWord w).seq.mode = s.seq.mode := by
  obtain ⟨c, eq⟩ := State.sample_onlyRegs ((s.wr kPodFlags w).keepOpen (s.flagRed false)) 8 0 (s.time - s.seq.joinAt)
  rw [State.flagWord, eq]
  rfl

/-- The flags of the peers count where there are any. -/
theorem podFlags_eq (n a b : Nat) : Nat.lor a (if n > 1 then b else 0) = if n > 1 then Nat.lor a b else a := by
  split
  · rfl
  · exact Nat.or_zero a

theorem exec_flagReduceResult (on : s.fabOn 0 = true) (joined : s.flagOpen = true) {peers : W64} {w : Nat} {u : State}
    (hw : w = if s.modules > 1 then Nat.lor s.seq.sentFlags peers.toNat else s.seq.sentFlags) (hu : u = s.flagWord w) :
    (s.seq.mode ≠ .running →
      exec (.flagReduceResult peers) s = .next { u with seq := { u.seq with reduceIssued := false } }) ∧
    (∀ v, v = (({ u with seq := { u.seq with decision := some (u.outcome w) } } : State).eachTile fun s t =>
        s.partDone t (progReduce (s.program t)) none) → s.seq.mode = .running →
      ((u.outcome w).faulted = false → exec (.flagReduceResult peers) s = .next v) ∧
      ((u.outcome w).faulted = true → bit v.seq.sentFlags 48 = true →
        exec (.flagReduceResult peers) s = .next (v.endStep (v.seq.firstFault.getD .peerFault) false)) ∧
      ((u.outcome w).faulted = true → bit v.seq.sentFlags 48 = false →
        exec (.flagReduceResult peers) s = .next ((v.noteCause .peerFault).endStep .peerFault false))) := by
  have mode : u.seq.mode = s.seq.mode := hu ▸ s.flagWord_mode w
  have word : Nat.lor s.seq.sentFlags (if s.modules > 1 then peers.toNat else 0) = w := (podFlags_eq _ _ _).trans hw.symm
  unfold State.flagWord at hu
  simp only [exec, execFlagReduceResult, on, joined, Bool.not_true, Bool.false_eq_true, if_false, word, ← hu, mode]
  refine ⟨fun ended => by rw [if_pos ended], ?_⟩
  rintro v hv runs
  rw [if_neg (Classical.not_not.2 runs), ← hv]
  refine ⟨fun fine => by rw [fine]; rfl, fun faulted own => ?_, fun faulted other => ?_⟩
  · rw [faulted, own]
    rfl
  · rw [faulted, other]
    rfl

end

theorem State.keepOpen_effect (s : State) (o : OpenRed) : let u := s.keepOpen o
    u.seq.opens = (s.seq.opens ++ [o]).filter s.redOpen ∧ u.csr = s.csr ∧ u.mem = s.mem ∧ u.net = s.net ∧
    (s.redOpen o = true ↔ o.awaits = true ∨ s.unaccepted o.lo o.hi = true) :=
  ⟨rfl, rfl, rfl, rfl, by rw [State.redOpen, Bool.or_eq_true]⟩

/-! ## What the flag word decides -/

theorem State.outcome_effect (s : State) (w : Nat) :
    let above := w % 2 ^ 24 ≠ 0; let inv := w / 2 ^ 24 % 2 ^ 24 ≠ 0
    let faulted := w / 2 ^ 48 % 2 = 1
    let ignore := s.rd (wideKey 0x130000) % 2 = 1
    ((s.outcome w).faulted = true ↔ faulted) ∧
    ((s.outcome w).halve = true ↔ ¬faulted ∧ above) ∧
    ((s.outcome w).apply = true ↔ ¬faulted ∧ ¬inv ∧ (¬above ∨ ignore)) := by
  have above : w % 2 ^ 24 = fld w 0 24 := by rw [fld, Nat.pow_zero, Nat.div_one]
  have inv : w / 2 ^ 24 % 2 ^ 24 = fld w 24 24 := rfl
  have faulted : w / 2 ^ 48 % 2 = 1 ↔ bit w 48 = true := by rw [bit, fld, Nat.pow_one, decide_eq_true_eq]
  have ignore : s.rd (wideKey 0x130000) % 2 = 1 ↔ bit (s.rd (wideKey 0x130000)) 0 = true := by
    rw [bit, fld, Nat.pow_zero, Nat.pow_one, Nat.div_one, decide_eq_true_eq]
  dsimp only
  rw [above, inv, faulted, ignore, State.outcome]
  generalize fld w 0 24 = above
  generalize fld w 24 24 = inv
  by_cases none : above = 0 <;> by_cases valid : inv = 0 <;> simp [none, valid]

/-- Settles O40. -/
theorem flagOutcome : Obligations.FlagOutcome := by
  refine ⟨⟨fun s t d due kind ready u hu => exec_flagReduce due kind ready hu,
      fun s peers on closed => exec_flagReduceResult_old on closed peers,
      fun s peers joined on w u hw hu => exec_flagReduceResult on joined hw hu, fun s o => s.keepOpen_effect o⟩,
    fun s w => s.outcome_effect w⟩

end Sys2Proof.Machine
end

section
/-! PROOFS of how a step starts and how its descriptors complete (R49 to R51, R361, R498, R569). -/

namespace Sys2Proof.Machine
open Sys2Proof

/-! ## A descriptor completes -/

section
variable {s : State} {t idx : Nat} {i : InFlight}

theorem exec_descriptorComplete {t : TileId} (on : s.fabOn t = true) (found : s.flight t idx = some i) (parts : i.parts = 0)
    (handed : i.waiting = []) :
    (i.fences = true → s.accessBusy (leAt i.args 0 1) t = true → exec (.descriptorComplete t idx) s = .next s) ∧
    (i.fences = true → s.accessBusy (leAt i.args 0 1) t = false →
      exec (.descriptorComplete t idx) s = .next (s.complete t i).embPump) ∧
    (i.fences = false → exec (.descriptorComplete t idx) s = .next (s.complete t i)) := by
  simp only [exec, execDescriptorComplete, found, on, parts, handed, ne_eq, not_true_eq_false, decide_false, Bool.not_true,
    Bool.false_or]
  refine ⟨fun fence busy => ?_, fun fence done => ?_, fun plain => ?_⟩
  · rw [fence, busy]
    rfl
  · rw [fence, done]
    rfl
  · rw [plain]
    rfl

/-- The tile after a descriptor of its own has completed. -/
def TileSeq.completed (x : TileSeq) (i : InFlight) : TileSeq :=
  let x := { x with inflight := x.inflight.filter fun y => y.idx ≠ i.idx }
  if bit i.flags 0 then x
  else { x with
    ctr := smSet 0 x.ctr i.signal ((smGet 0 x.ctr i.signal + 1) % 2 ^ 16),
    taint := if i.err.isSome then Nat.lor x.taint (2 ^ i.signal) else x.taint }

theorem State.complete_eq (s : State) (t : Nat) (i : InFlight) :
    s.complete t i = s.setTile t ((s.tile t).completed i) := by
  unfold State.complete TileSeq.completed
  dsimp only
  split <;> rfl

theorem TileSeq.completed_effect (x : TileSeq) (i : InFlight) :
    (x.completed i).inflight = x.inflight.filter (fun y => y.idx ≠ i.idx) ∧
    (∀ c, smGet 0 (x.completed i).ctr c = if c = i.signal ∧ bit i.flags 0 = false then (smGet 0 x.ctr c + 1) % 2 ^ 16
      else smGet 0 x.ctr c) ∧
    (x.completed i).taint = (if bit i.flags 0 = false ∧ i.err.isSome = true then Nat.lor x.taint (2 ^ i.signal)
      else x.taint) ∧ (x.completed i).next = x.next := by
  unfold TileSeq.completed
  by_cases silent : bit i.flags 0 = true
  · simp [silent]
  · have signals : bit i.flags 0 = false := by simpa using silent
    simp only [signals, Bool.false_eq_true, if_false, true_and, and_true]
    refine fun c => (smGet_smSet _ _ _ _ _).trans ?_
    by_cases own : i.signal = c
    · rw [if_pos own, if_pos own.symm, own]
    · rw [if_neg own, if_neg (Ne.symm own)]

theorem State.complete_effect (s : State) (t : Nat) (i : InFlight) : let u := s.complete t i
    (∀ k, k ≠ t → u.tile k = s.tile k) ∧
    (u.tile t).inflight = (s.tile t).inflight.filter (fun y => y.idx ≠ i.idx) ∧
    (∀ c, smGet 0 (u.tile t).ctr c = if c = i.signal ∧ bit i.flags 0 = false then (smGet 0 (s.tile t).ctr c + 1) % 2 ^ 16
      else smGet 0 (s.tile t).ctr c) ∧
    (u.tile t).taint = (if bit i.flags 0 = false ∧ i.err.isSome = true then Nat.lor (s.tile t).taint (2 ^ i.signal)
      else (s.tile t).taint) ∧ (u.tile t).next = (s.tile t).next ∧ u.cores = s.cores ∧ RegsExcept [] s u ∧ SameBytes s u := by
  have own : (s.complete t i).tile t = (s.tile t).completed i := by
    rw [State.complete_eq]
    exact (smGet_smSet _ _ _ _ _).trans (if_pos rfl)
  obtain ⟨inflight, ctr, taint, next⟩ := (s.tile t).completed_effect i
  dsimp only
  rw [own, State.complete_eq]
  exact ⟨fun _ ne => (smGet_smSet _ _ _ _ _).trans (if_neg ne.symm), inflight, ctr, taint, next, rfl, fun _ _ => rfl,
    SameBytes.of_mem rfl⟩

theorem State.partDone_effect (found : s.flight t idx = some i) :
    (i.late = true → i.parts ≤ 1 → s.partDone t idx none = s.partDone t idx (some false)) ∧
    (i.late = false ∨ 1 < i.parts → s.partDone t idx none =
      s.mapFlight t idx fun i => { i with parts := i.parts - 1, err := orErr i.err none }) ∧
    (∀ ue, s.partDone t idx (some ue) =
      (s.mapFlight t idx fun i => { i with parts := i.parts - 1, err := orErr i.err (some ue) }).fault t
        (if ue then .memUe else .descError)) := by
  have kept : ∀ ue, (if (i.late && decide (i.parts ≤ 1)) = true then orErr (some ue) (some false) else some ue) = some ue :=
    fun ue => ite_self _
  simp only [State.partDone, found]
  refine ⟨fun late last => ?_, fun stays => ?_, fun ue => ?_⟩
  · have held : (i.late && decide (i.parts ≤ 1)) = true := by simp [late, last]
    rw [if_pos held, if_pos held]
    rfl
  · have held : (i.late && decide (i.parts ≤ 1)) = false := by
      rcases stays with punctual | more
      · rw [punctual, Bool.false_and]
      · rw [decide_eq_false (by omega), Bool.and_false]
    rw [held]
    rfl
  · rw [kept]
    rfl

end

section
variable {s : State} {t : TileId} {d : List Byte}

theorem exec_endStep (due : s.due t = some d) (kind : dKind d = 15) :
    ((s.tile t).inflight = [] → exec (.endStep t) s = .next (s.launch t d 0 [] none)) ∧
    ((s.tile t).inflight ≠ [] → exec (.endStep t) s = .next s) := by
  simp only [exec, execEndStep, due, kind, ne_eq, not_true_eq_false, decide_false, Bool.false_or, decide_eq_true_eq]
  exact ⟨fun idle => congrArg _ (if_neg (Classical.not_not.2 idle)), fun busy => congrArg _ (if_pos busy)⟩

end

/-! ## A step starts -/

section
variable {s : State}

/-- A tile's feed is not ready. -/
theorem all_feedReady_of_late (late : ∃ t, t < 4 ∧ s.feedReady t = false) : (List.range 4).all s.feedReady = false := by
  obtain ⟨t, ht, late⟩ := late
  exact List.all_eq_false.2 ⟨t, List.mem_range.2 ht, by rw [late]; decide⟩

theorem exec_stepStart (waits : s.seq.mode = .waitFeed) (ready : ∀ t, t < 4 → s.fabOn t = true ∧ s.feedReady t = true)
    (idle : s.cores.any (fun c => c.2.desc) = false) {o u : State}
    (ho : o = if s.flagOpen = true then s.keepOpen ⟨4, s.seq.flagMsgs, s.seq.flagSent.1, s.seq.flagSent.2, true⟩ else s)
    (hu : u = o.eachTile (fun s t => s.sample 7 t (s.time - s.seq.barrierAt))) :
    exec .stepStart s = .next
      ((({ u with seq := { u.seq with mode := .running, decision := none, reduceIssued := false, sentFlags := 0 } }
        ).quantStepStart.latchConsts).takeCap.eachTile fun s t => s.startTile t) := by
  have all : (List.range 4).all (fun t => s.fabOn t && s.feedReady t) = true :=
    (all_range_iff 4 _).2 fun t ht => by rw [(ready t ht).1, (ready t ht).2]; rfl
  subst hu ho
  exact congrArg Host.Outcome.next (if_pos (by rw [waits, all, idle]; rfl))

theorem exec_stepStart_late (late : ∃ t, t < 4 ∧ s.feedReady t = false) : exec .stepStart s = .next s := by
  obtain ⟨t, ht, late⟩ := late
  have some : (List.range 4).all (fun t => s.fabOn t && s.feedReady t) = false :=
    List.all_eq_false.2 ⟨t, List.mem_range.2 ht, by rw [late, Bool.and_false]; decide⟩
  exact congrArg Host.Outcome.next (if_neg (by rw [some, Bool.and_false, Bool.false_and]; decide))

theorem exec_feedTimeout (on : s.pwr.phase = .on) (waits : s.seq.mode = .waitFeed) (limit : s.rdf (wideKey 0x130030) 0 24 ≠ 0)
    (late : ∃ t, t < 4 ∧ s.feedReady t = false) :
    exec .feedTimeout s = .next ((s.noteCause .feedLate).endStep .feedLate true) := by
  have held : (s.powered && decide (s.seq.mode = .waitFeed) && decide (s.rdf (wideKey 0x130030) 0 24 ≠ 0) &&
      !(List.range 4).all s.feedReady) = true := by
    rw [all_feedReady_of_late late, State.powered, on, waits, decide_eq_true limit]
    rfl
  refine congrArg Host.Outcome.next ((if_pos held).trans ?_)
  rw [State.faultAtOnce, if_neg (by simp [State.isIdle, waits]), if_neg (by simp [State.quiet, waits])]
  rfl

theorem exec_feedCopyEnd {t : TileId} (on : s.fabOn t = true) :
    exec (.feedCopyEnd t) s = .next (s.setFeedT t { s.feedT t with copying := false }) :=
  congrArg Host.Outcome.next (if_pos on)

end

/-- Settles O41. -/
theorem stepProgress : Obligations.StepProgress := by
  refine ⟨⟨fun s t idx i on found parts handed => ?_, fun s t idx i found => State.partDone_effect found,
      fun s t d due kind => exec_endStep due kind⟩,
    fun s waits => ⟨fun ready idle o u ho hu => exec_stepStart waits ready idle ho hu, exec_stepStart_late,
      fun on limit late => exec_feedTimeout on waits limit late, fun t on => exec_feedCopyEnd on, fun t => rfl⟩⟩
  obtain ⟨waits, fences, plain⟩ := exec_descriptorComplete on found parts handed
  exact ⟨waits, fences, plain, _, rfl, s.complete_effect t i⟩

end Sys2Proof.Machine
end

section
/-! REFUTATION of the statement on step faults: a fault empties the staging areas of the prefetch, and where pod parity
protects such an area its clearing sends parity deltas (R457, R460), so a step may end with more sent than its abort
notice. -/

namespace Sys2Proof.Machine
open Sys2Proof

/-- Pod parity protects the first 4 KiB of HBM, and tile 0 has its staging area there. -/
def stagedInParity : State :=
  (((((State.reset.wr kParityCtrl (1 + 2 * 2 ^ 8 + 2 ^ 24)).wr (wideKey 0x130600) 0x1000000000).wr (wideKey 0x130608) 4096).wr
    (tileBase 0 + 0x120030) 1).wr (tileBase 0 + 0x120038) 0x1000000000).wr (tileBase 0 + 0x120040) 0

/-- A step that ends there without a notice sends a delta. -/
theorem endStep_stagedInParity_out : (stagedInParity.endStep .memUe false).out ≠ stagedInParity.out := by
  decide +kernel

/-- Refutes O42: a step that ends without a notice sends something where a staging area lies in a protected range. -/
theorem not_stepFaults : ¬ Obligations.StepFaults := by
  unfold Obligations.StepFaults
  rintro ⟨⟨-, ends⟩, -⟩
  obtain ⟨-, -, -, -, -, silent, -⟩ := ends stagedInParity .memUe false
  exact endStep_stagedInParity_out (silent rfl)

end Sys2Proof.Machine
end

section
/-! PROOFS of the sample feed's messages: which are accepted and what each does (R467, R468, R486 to R488). -/

namespace Sys2Proof.Machine
open Sys2Proof

section
variable {s u : State} {eth port n : Nat} {addr m d b : List Byte} {frag : Bool} {x : Session}

/-! ## Acceptance -/

theorem State.feedAccept_formless (low : eth ≤ 1) (up : s.ethUp eth = true) (on : s.gated 4 = false)
    (bad : frag = true ∨ m.length < 48 ∨ s.session? (leAt m 4 4) = none) :
    s.feedAccept eth addr port m frag = (none, s.feedDrop 0 (leAt m 16 8)) := by
  have reached : (decide (eth > 1) || !s.ethUp eth || s.gated 4) = false := by simp [low, up, on]
  simp only [State.feedAccept, reached, Bool.false_eq_true, if_false]
  by_cases short : (frag || decide (m.length < 48)) = true
  · exact if_pos short
  · rw [if_neg short]
    rcases bad with frag | bytes | gone
    · exact absurd (by rw [frag]; rfl) short
    · exact absurd (by rw [decide_eq_true bytes, Bool.or_true]) short
    · rw [gone]

/-- A SEQUENCE is new in a session's feed window (R488). -/
def Session.feedNew (x : Session) (q : Nat) : Prop :=
  q > x.feedHigh ∨ q + 4096 ≥ x.feedHigh ∧ q < x.feedHigh ∧ x.feedSeen.contains q = false

theorem Session.feedNew_iff (x : Session) (q : Nat) : x.feedNew q ↔
    (decide (q > x.feedHigh) || (decide (q + 4096 ≥ x.feedHigh) && decide (q < x.feedHigh) && !x.feedSeen.contains q)) =
      true := by
  simp only [Session.feedNew, Bool.or_eq_true, Bool.and_eq_true, decide_eq_true_eq, Bool.not_eq_true', and_assoc]

/-- What an accepted message leaves of its session, and where replies of the feed go from then on. -/
def State.feedAccepted (s : State) (n : Nat) (x : Session) (q eth : Nat) (addr : List Byte) (port : Nat) : State :=
  { s.putSession n (x.feedTake q) with feed := { s.feed with last := some (x.id, eth, addr, port) } }

theorem State.feedAccept_effect (low : eth ≤ 1) (up : s.ethUp eth = true) (on : s.gated 4 = false) (whole : frag = false)
    (long : m.length ≥ 48) (found : s.session? (leAt m 4 4) = some (n, x)) :
    (gcmOpen (x.key 2) (sessNonce 2 (leAt m 8 8)) (m.take 32) (m.drop 32) = none →
      s.feedAccept eth addr port m frag = (none, s.feedDrop 0 (leAt m 16 8))) ∧
    (∀ b, gcmOpen (x.key 2) (sessNonce 2 (leAt m 8 8)) (m.take 32) (m.drop 32) = some b →
      (¬(feedFormOk (m.take 32 ++ b ++ zeros 16) = true ∧ x.feedNew (leAt m 8 8)) →
        s.feedAccept eth addr port m frag = (none, s.feedDrop 0 (leAt m 16 8))) ∧
      (feedFormOk (m.take 32 ++ b ++ zeros 16) = true → x.feedNew (leAt m 8 8) →
        s.feedAccept eth addr port m frag =
          (some (m.take 32 ++ b ++ zeros 16), s.feedAccepted n x (leAt m 8 8) eth addr port))) := by
  have reached : (decide (eth > 1) || !s.ethUp eth || s.gated 4) = false := by simp [low, up, on]
  have formed : (frag || decide (m.length < 48)) = false := by rw [whole, decide_eq_false (by omega)]; rfl
  simp only [State.feedAccept, reached, formed, found, Bool.false_eq_true, if_false, Session.feedNew_iff, Session.feedOpen]
  refine ⟨fun sealed => by rw [sealed]; rfl, fun b opened => ?_⟩
  rw [opened]
  dsimp only [Option.map_some]
  refine ⟨fun bad => if_pos ?_, fun form new => ?_⟩
  · rw [← Bool.not_and, Bool.not_eq_true', Bool.eq_false_iff]
    exact fun both => bad (Bool.and_eq_true_iff.1 both)
  · rw [form, new, if_neg (by decide)]
    rfl

/-! ## What a message does -/

/-- A message that is not accepted, on the row of its TYPE. -/
theorem State.feedRow_none (refused : s.feedAccept eth addr port m frag = (none, u)) {typ : Nat} {f : State → List Byte → State}
    (mine : (frag || decide (leAt m 1 1 = typ) || (decide (typ = 1) && !(decide (1 ≤ leAt m 1 1) && decide (leAt m 1 1 ≤ 5)))) =
      true) : s.feedRow typ eth addr port m frag f = u := by
  simp only [State.feedRow, mine, if_true, refused]

theorem State.feedRow_none_of (refused : s.feedAccept eth addr port m frag = (none, u)) {typ : Nat}
    {f : State → List Byte → State} (mine : frag = true ∨ leAt m 1 1 = typ) : s.feedRow typ eth addr port m frag f = u :=
  State.feedRow_none refused (by
    rcases mine with frag | typ
    · rw [frag, Bool.true_or, Bool.true_or]
    · rw [decide_eq_true typ, Bool.or_true, Bool.true_or])

theorem State.feedRow_unlisted (refused : s.feedAccept eth addr port m frag = (none, u)) {f : State → List Byte → State}
    (mine : frag = true ∨ leAt m 1 1 = 1 ∨ leAt m 1 1 = 0 ∨ leAt m 1 1 > 5) : s.feedRow 1 eth addr port m frag f = u :=
  State.feedRow_none refused (by
    rcases mine with frag | type
    · rw [frag, Bool.true_or, Bool.true_or]
    · rw [← Bool.decide_and, ← decide_not, decide_eq_true rfl, Bool.true_and, Bool.or_assoc, ← Bool.decide_or,
        decide_eq_true (by omega), Bool.or_true])

theorem State.feedRow_some (accepted : s.feedAccept eth addr port m frag = (some d, u)) {typ : Nat}
    (type : leAt m 1 1 = typ) {f : State → List Byte → State} : s.feedRow typ eth addr port m frag f = f u d := by
  refine (if_pos ?_).trans (by rw [accepted])
  rw [decide_eq_true type, Bool.or_true, Bool.true_or]

/-- The memories that STATE_IN writes. -/
theorem exec_stateIn {eth : EthId} (accepted : s.feedAccept eth addr port m frag = (some d, u)) (type : leAt m 1 1 = 4) :
    (¬(regionOf (leAt d 16 8) = .hbm ∨ regionOf (leAt d 16 8) = .studio ∨ regionOf (leAt d 16 8) = .granary) →
      exec (.stateIn eth addr port m frag) s = .next (u.feedDrop 0 u.step)) ∧
    (regionOf (leAt d 16 8) = .hbm ∨ regionOf (leAt d 16 8) = .studio ∨ regionOf (leAt d 16 8) = .granary →
      ∀ c v, u.memWrite false (leAt d 16 8) (slice d 32 (leAt d 28 4)) = (c, v) →
        exec (.stateIn eth addr port m frag) s = .next (if c = .ok then v else v.feedDrop 0 v.step)) := by
  refine ⟨fun elsewhere => congrArg Host.Outcome.next ((State.feedRow_some accepted type).trans (if_pos ?_)),
    fun here c v written => congrArg Host.Outcome.next ((State.feedRow_some accepted type).trans ((if_neg ?_).trans ?_))⟩
  · revert elsewhere
    generalize regionOf (leAt d 16 8) = r
    cases r <;> decide
  · revert here
    generalize regionOf (leAt d 16 8) = r
    cases r <;> decide
  · rw [feedBody, written]
    cases c <;> rfl

/-- STATE_CREDIT grants a stream its bytes, or asks for a range of it again. -/
theorem exec_stateCredit {eth : EthId} (accepted : s.feedAccept eth addr port m frag = (some d, u))
    (type : leAt m 1 1 = 5) :
    (u.feed.exports.find? (fun e => e.entry.tag = leAt d 24 4 && e.entry.session = leAt d 4 4) = none →
      exec (.stateCredit eth addr port m frag) s = .next u) ∧
    (∀ x, u.feed.exports.find? (fun e => e.entry.tag = leAt d 24 4 && e.entry.session = leAt d 4 4) = some x →
      ∀ y, y = { x with granted := leAt d 16 8 } → ∀ v, v = u.mapExport x.entry.tag (fun _ => y) →
      (bit (leAt d 3 1) 0 = false → exec (.stateCredit eth addr port m frag) s = .next
        (if x.ended = none then v.exportPump y else v)) ∧
      (bit (leAt d 3 1) 0 = true →
        (∀ e, x.ended = some e → v.time > e + 10000000000 → exec (.stateCredit eth addr port m frag) s = .next v) ∧
        ((∀ e, x.ended = some e → v.time ≤ e + 10000000000) → ∀ c st w, v.exportStream x.entry.block = (c, st, w) →
          let n := min (leAt d 40 8) (min y.granted st.length - leAt d 32 8)
          exec (.stateCredit eth addr port m frag) s = .next
            (if c = .ok then w.sendRange x.entry st (n / 8192 + 1) (leAt d 32 8) n else w)))) := by
  have row : ∀ {r}, _ = r → exec (.stateCredit eth addr port m frag) s = .next r := fun h =>
    congrArg Host.Outcome.next ((State.feedRow_some accepted type).trans h)
  refine ⟨fun missing => row (by rw [missing]), ?_⟩
  rintro x found y rfl v hv
  have time : v.time = u.time := by rw [hv]; rfl
  refine ⟨fun credit => row ?_, fun again => ⟨fun e ended late => row ?_, fun live c st w stream => row ?_⟩⟩
  · rw [found]
    dsimp only
    rw [← hv, credit, if_neg (by decide)]
    cases x.ended <;> rfl
  · rw [found]
    dsimp only
    rw [← hv, again, if_pos rfl, ended]
    exact if_neg (by simpa [← time] using late)
  · rw [found]
    dsimp only
    rw [← hv, again, if_pos rfl, stream]
    refine if_pos ?_
    cases ended : x.ended with
    | none => rfl
    | some e => simpa [← time] using live e ended

end

/-- Settles O43. -/
theorem feedMessages : Obligations.FeedMessages := by
  refine ⟨fun s eth addr port m frag low up on => ⟨State.feedAccept_formless low up on, ?_⟩,
    fun s u eth addr port m frag => ⟨fun refused => ?_, fun d accepted => ?_⟩⟩
  · rintro n x whole long found q rfl
    obtain ⟨sealed, opens⟩ := State.feedAccept_effect (addr := addr) (port := port) low up on whole long found
    refine ⟨sealed, ?_⟩
    rintro b opened d rfl
    obtain ⟨refused, accepted⟩ := opens b opened
    exact ⟨refused, fun form new => ⟨_, accepted form new, rfl, rfl, fun _ _ => rfl, SameBytes.of_mem rfl⟩⟩
  · exact ⟨fun mine => congrArg _ (State.feedRow_unlisted refused mine), fun mine => congrArg _ (State.feedRow_none_of refused mine),
      fun mine => congrArg _ (State.feedRow_none_of refused mine), fun mine => congrArg _ (State.feedRow_none_of refused mine),
      fun mine => congrArg _ (State.feedRow_none_of refused mine)⟩
  · exact ⟨fun type => congrArg _ (State.feedRow_some accepted type), fun type => congrArg _ (State.feedRow_some accepted type),
      fun type => congrArg _ (State.feedRow_some accepted type), fun type => exec_stateIn accepted type,
      fun type => exec_stateCredit accepted type⟩

end Sys2Proof.Machine
end

section
/-! PROOFS of embedding lookups: requests, answers, pooling shares and row reads (R264 to R285, R309 to R313). -/

namespace Sys2Proof.Machine
open Sys2Proof

section
variable {s u : State} {m : InMsg}

/-! ## Requests and answers -/

theorem exec_embRequest (on : s.hubOn = true) (came : s.takeMsg 0x0401 = some (m, u)) :
    (s.fencedAll = true → exec .embRequest s = .next s) ∧
    (s.fencedAll = false →
      let n := leAt m.body 6 2
      let good := u.tableOk (leAt m.body 0 2) = true ∧ leAt m.body 2 1 ≤ 4 ∧ 1 ≤ n ∧ n ≤ 1022 ∧ m.body.length = 16 + 8 * n
      (good → exec .embRequest s = .next (u.serveRows m.src m.tag (leAt m.body 0 2) (leAt m.body 2 1)
          (withIdx ((nums n 8 (m.body.drop 16)).map (· % 2 ^ 40)) (leAt m.body 8 4))).embPump) ∧
      (¬good → exec .embRequest s = .next u)) := by
  simp only [exec, execEmbRequest, came, on, Bool.not_true, Bool.false_or]
  refine ⟨fun held => congrArg _ (if_pos held), fun free => ?_⟩
  rw [free, if_neg Bool.false_ne_true]
  have form : (!u.tableOk (leAt m.body 0 2) || decide (leAt m.body 2 1 > 4) || decide (leAt m.body 6 2 = 0) ||
      decide (leAt m.body 6 2 > 1022) || decide (m.body.length ≠ 16 + 8 * leAt m.body 6 2)) = true ↔
      ¬(u.tableOk (leAt m.body 0 2) = true ∧ leAt m.body 2 1 ≤ 4 ∧ 1 ≤ leAt m.body 6 2 ∧ leAt m.body 6 2 ≤ 1022 ∧
        m.body.length = 16 + 8 * leAt m.body 6 2) := by
    simp only [Bool.or_eq_true, Bool.not_eq_true', decide_eq_true_eq]
    cases u.tableOk (leAt m.body 0 2)
    · simp
    · simp only [Bool.true_eq_false, false_or, true_and]
      omega
  exact ⟨fun good => congrArg _ (if_neg fun bad => form.1 bad good), fun bad => congrArg _ (if_pos (form.2 bad))⟩

theorem exec_pooledResponse (on : s.hubOn = true) (came : s.takeMsg 0x0402 = some (m, u)) :
    (s.bagHeld m.tag = true → exec .pooledResponse s = .next s) ∧
    (s.bagHeld m.tag = false →
      (∀ t j b, u.bagOf m.tag = some (t, j, b) →
        ∀ fe, fe = (if leAt m.body 6 2 = 0xFFFF then 0xFFFF else posOf (u.sentTo m.tag m.src) (leAt m.body 6 2)) →
        exec .pooledResponse s = .next (u.bagStep t j { b with
          wait := b.wait - 1, inc := b.inc + leAt m.body 0 4, pois := b.pois + leAt m.body 4 2,
          firstEx := min b.firstEx fe, parts := b.parts ++ [nums j.d 2 (m.body.drop 16)] })) ∧
      (u.bagOf m.tag = none → exec .pooledResponse s = .next (u.takeAck m.tag))) := by
  simp only [exec, execPooledResponse, came, on, Bool.not_true, Bool.false_or]
  refine ⟨fun held => congrArg _ (if_pos held), fun free => ?_⟩
  rw [free, if_neg Bool.false_ne_true]
  refine ⟨?_, fun missing => by rw [missing]⟩
  rintro t j b bag fe rfl
  rw [bag]
  have first : (if leAt m.body 6 2 = 0xFFFF then leAt m.body 6 2 else posOf (u.sentTo m.tag m.src) (leAt m.body 6 2)) =
      if leAt m.body 6 2 = 0xFFFF then 0xFFFF else posOf (u.sentTo m.tag m.src) (leAt m.body 6 2) :=
    ite_congr rfl id fun _ => rfl
  dsimp only
  rw [first, State.takePartial, bag]

/-- An acknowledgement that no bag awaits is one less that its job awaits. -/
theorem State.takeAck_effect (s : State) (tag : Nat) :
    (s.jobOf tag = none → s.takeAck tag = s) ∧
    (∀ t j, s.jobOf tag = some (t, j) → 1 < j.wait → s.takeAck tag = s.putJob t { j with wait := j.wait - 1 }) ∧
    (∀ t j, s.jobOf tag = some (t, j) → j.wait ≤ 1 →
      s.takeAck tag = (s.setEmbt t { s.embt t with
        jobs := (s.embt t).jobs.filter fun k => k.idx ≠ j.idx }).partDone t j.idx j.err) := by
  unfold State.takeAck
  refine ⟨fun missing => by rw [missing], fun t j job more => ?_, fun t j job last => ?_⟩
  · rw [job]
    exact if_neg (Nat.not_le.2 more)
  · rw [job]
    exact if_pos last

theorem exec_rowsResponse (on : s.hubOn = true) (came : s.takeMsg 0x0403 = some (m, u)) :
    (s.bagHeld m.tag = true → exec .rowsResponse s = .next s) ∧
    (s.bagHeld m.tag = false →
      (∀ t j b, u.bagOf m.tag = some (t, j, b) →
        exec .rowsResponse s = .next (u.takeRows m.tag (rowsOf j.d (leAt m.body 0 4) (leAt m.body 8 8)
          (u.sentTo m.tag m.src) (leAt m.body 4 2) 0 (m.body.drop 16)))) ∧
      (u.bagOf m.tag = none → exec .rowsResponse s = .next u)) := by
  simp only [exec, execRowsResponse, came, on, Bool.not_true, Bool.false_or]
  refine ⟨fun held => congrArg _ (if_pos held), fun free => ?_⟩
  rw [free, if_neg Bool.false_ne_true]
  exact ⟨fun t j b bag => by rw [bag], fun missing => by rw [missing]⟩

end

/-! ## Pooling shares -/

section
variable (s : State) (t : Nat) (x : EmbState)

theorem State.setEmbt_node : (s.setEmbt t x).node = s.node := rfl
theorem State.setEmbt_table (n : Nat) : (s.setEmbt t x).table n = s.table n := rfl
theorem State.setEmbt_rdf (k lo w : Nat) : (s.setEmbt t x).rdf k lo w = s.rdf k lo w := rfl
theorem State.setEmbt_bytes (a n : Nat) : (s.setEmbt t x).bytes a n = s.bytes a n := by
  induction n generalizing a with
  | zero => rfl
  | succ n ih =>
    exact congrArg (List.cons (s.byte a)) (ih (a + 1))

end

theorem exec_poolShareComplete {s : State} {t : TileId} {sh : EmbShare}
    (ended : (s.embt t).shares.find? EmbShare.ended = some sh) :
    (s.fabOn t = false ∨ s.fencedTile t = true ∨ s.bagHeld sh.tag = true → exec (.poolShareComplete t) s = .next s) ∧
    (s.fabOn t = true → s.fencedTile t = false → s.bagHeld sh.tag = false →
      ∀ u : State, u = s.setEmbt t { s.embt t with shares := (s.embt t).shares.filter fun y => y.id ≠ sh.id } →
      (∀ ue, sh.phase = .ended (some ue) →
        (sh.node = s.node → exec (.poolShareComplete t) s = .next (u.takeFailure sh.tag ue)) ∧
        (sh.node ≠ s.node → exec (.poolShareComplete t) s = .next u)) ∧
      (sh.phase = .ended none → ∀ d, d = tbDim (s.table sh.table) →
        ∀ a, a = coreAddr sh.core (s.rdf (kEmb t 0x20) 0 20 + sh.area +
          (poolLayout sh.items.length (sh.rowForm (s.table sh.table)).1 d).2.1) →
        ∀ bad, bad = sh.items.filter (fun e => e.2.2 = .bad) →
        (sh.node = s.node → exec (.poolShareComplete t) s = .next (u.takePartial sh.tag (leNat (s.bytes a 4)) bad.length
          ((bad.map (·.1)).headD 0xFFFF) (nums d 2 (s.bytes (a + 4) (2 * d))))) ∧
        (sh.node ≠ s.node → exec (.poolShareComplete t) s = .next (u.respond sh.node 0x0402 sh.tag
          (partialBody (leNat (s.bytes a 4)) bad.length ((bad.map (·.1)).headD 0xFFFF)
            (nums d 2 (s.bytes (a + 4) (2 * d)))))))) := by
  simp only [exec, execPoolShareComplete, ended]
  refine ⟨fun held => congrArg _ (if_pos ?_), fun on free bag => ?_⟩
  · rcases held with off | held | held
    · rw [off]
      rfl
    · rw [held, Bool.or_true, Bool.true_or]
    · rw [held, Bool.or_true]
  · simp only [on, free, bag, Bool.not_true, Bool.or_false, Bool.false_eq_true, if_false]
    rintro u rfl
    simp only [State.setEmbt_node, State.setEmbt_table, State.setEmbt_rdf, State.setEmbt_bytes]
    refine ⟨fun ue failed => ?_, ?_⟩
    · rw [failed]
      exact ⟨fun here => congrArg _ (if_pos here), fun there => congrArg _ (if_neg there)⟩
    · rintro whole d rfl a rfl bad rfl
      rw [whole]
      exact ⟨fun here => congrArg _ (if_pos here), fun there => congrArg _ (if_neg there)⟩

/-! ## Row reads -/

section
variable {s : State} {t : TileId} {table : BitVec 12} {row : BitVec 40} {res : RowRead} {look pf : Nat}

/-- A row has been read with a failure of its bytes. -/
theorem State.rowFailed_eq (u : State) (t n r src : Nat) : u.rowFailed t n r src =
    (if src = u.home (u.table n) r then (u.bump (kEmbCount t 12) 1).noteUe src
      else ((u.bump (kEmbCount t 12) 1).noteUe src).raise 0x0405 1 t (u.home (u.table n) r)).poison t n r 0 := rfl

/-- What is done with a row that has been read from src. -/
def State.rowJudged (u : State) (t n r : Nat) (d : List Byte) (src : Nat) (res : RowRead) (look pf : Nat) : State :=
  let code := u.accessCode src (tbRowBytes d)
  let ue : Bool := code = .ok && (res = .failed || (u.ueAt src (tbRowBytes d)).isSome)
  let w := if res = .good || ue then u else u.bump (kEmbCount t 12) 1
  if ue then
    ((((w.rowFailed t n r src).bump (kEmbCount t 4) look).giveRow n r false .bad).giveRow n r true .bad).embPump
  else if code ≠ .ok then
    ((((w.bump (kEmbCount t 4) look).fault t .descError).giveRow n r false .bad).giveRow n r true .bad).embPump
  else
    let bs := w.bytes src (tbRowBytes d)
    let x := if look = 0 then w else
      let (g8, out, v) := w.present t n r (tbFresh d) bs
      v.giveRow n r false (.got g8 out)
    let y := if pf = 0 then x else
      let z := x.stageRow t ((x.step + 1) % 2) n r bs
      z.giveRow n r true (match z.stageFind t ((x.step + 1) % 2) n r with | some (.inl _) => .got false [] | _ => .bad)
    y.embPump

theorem State.rowJudged_effect (u : State) (t n r : Nat) (d : List Byte) (src : Nat) (res : RowRead) (look pf : Nat) :
    let ue := res = .failed ∨ (u.ueAt src (tbRowBytes d)).isSome = true
    (u.accessCode src (tbRowBytes d) = .ok → ue → u.rowJudged t n r d src res look pf =
      ((((u.rowFailed t n r src).bump (kEmbCount t 4) look).giveRow n r false .bad).giveRow n r true .bad).embPump) ∧
    (∀ w : State, w = (if res = .good then u else u.bump (kEmbCount t 12) 1) →
      (u.accessCode src (tbRowBytes d) ≠ .ok → u.rowJudged t n r d src res look pf =
        ((((w.bump (kEmbCount t 4) look).fault t .descError).giveRow n r false .bad).giveRow n r true .bad).embPump) ∧
      (u.accessCode src (tbRowBytes d) = .ok → ¬ue →
        ∀ g out v, w.present t n r (tbFresh d) (w.bytes src (tbRowBytes d)) = (g, out, v) →
        ∀ x : State, x = (if look = 0 then w else v.giveRow n r false (.got g out)) →
        ∀ z : State, z = x.stageRow t ((x.step + 1) % 2) n r (w.bytes src (tbRowBytes d)) →
        u.rowJudged t n r d src res look pf = (if pf = 0 then x
          else z.giveRow n r true (match z.stageFind t ((x.step + 1) % 2) n r with
            | some (.inl _) => .got false [] | _ => .bad)).embPump)) := by
  dsimp only
  have held : ∀ b : Bool, (b = true ↔ res = .failed ∨ (u.ueAt src (tbRowBytes d)).isSome = true) →
      (decide (res = .failed) || (u.ueAt src (tbRowBytes d)).isSome) = b := fun b hb => by
    rw [Bool.eq_iff_iff, hb, Bool.or_eq_true, decide_eq_true_eq]
  unfold State.rowJudged
  refine ⟨fun ok ue => ?_, ?_⟩
  · rw [ok, held true (by simp [ue])]
    simp only [decide_true, Bool.and_true, Bool.or_true, if_true]
  · rintro w rfl
    refine ⟨fun bad => ?_, ?_⟩
    · simp only [bad, decide_false, Bool.false_and, Bool.or_false, Bool.false_eq_true, if_false, ne_eq, not_false_eq_true,
        if_true, decide_eq_true_eq]
    · rintro ok fine g out v shown x rfl z rfl
      rw [ok, held false (by simp [fine])]
      simp only [decide_true, Bool.and_false, Bool.or_false, Bool.false_eq_true, if_false, ne_eq, not_true_eq_false,
        decide_eq_true_eq, shown]

theorem exec_rowReadDone_none (hlook : look = s.waiters table.toNat row.toNat false) (hpf : pf = s.waiters table.toNat row.toNat true)
    (held : s.fabOn t = false ∨ look + pf = 0 ∨ s.serving (s.table table.toNat) row.toNat ≠ t) :
    exec (.rowReadDone t table row res) s = .next s := by
  subst hlook hpf
  refine congrArg Host.Outcome.next (if_pos ?_)
  simpa only [Bool.or_eq_true, Bool.not_eq_true', decide_eq_true_eq, or_assoc] using held

theorem exec_rowReadDone (hlook : look = s.waiters table.toNat row.toNat false) (hpf : pf = s.waiters table.toNat row.toNat true)
    {d : List Byte} (hd : d = s.table table.toNat) (on : s.fabOn t = true) (mine : s.serving d row.toNat = t)
    (awaited : 0 < look + pf) {src : Nat} {staged : Bool}
    (source : (src, staged) = (if look = 0 then (s.home d row.toNat, false) else s.rowSource t table.toNat row.toNat))
    {u : State} (hu : u = (if tbFmt d = 0 ∨ staged = true then s else s.bump (kEmbCount t 2) 1)) {n : Nat}
    (hn : n = tbRowBytes d) :
    let ue := res = .failed ∨ (u.ueAt src n).isSome = true
    (u.accessCode src n = .ok → ue → ∀ v, v = (u.bump (kEmbCount t 12) 1).noteUe src →
      exec (.rowReadDone t table row res) s = .next
        ((((((if src = u.home (u.table table.toNat) row.toNat then v
          else v.raise 0x0405 1 t (u.home (u.table table.toNat) row.toNat)).poison t table.toNat row.toNat 0).bump
            (kEmbCount t 4) look).giveRow table.toNat row.toNat false .bad).giveRow table.toNat row.toNat true .bad)).embPump) ∧
    (∀ w : State, w = (if res = .good then u else u.bump (kEmbCount t 12) 1) →
      (u.accessCode src n ≠ .ok → exec (.rowReadDone t table row res) s = .next
        ((((w.bump (kEmbCount t 4) look).fault t .descError).giveRow table.toNat row.toNat false .bad).giveRow
          table.toNat row.toNat true .bad).embPump) ∧
      (u.accessCode src n = .ok → ¬ue →
        ∀ g out v, w.present t table.toNat row.toNat (tbFresh d) (w.bytes src n) = (g, out, v) →
        ∀ x : State, x = (if look = 0 then w else v.giveRow table.toNat row.toNat false (.got g out)) →
        ∀ z : State, z = x.stageRow t ((x.step + 1) % 2) table.toNat row.toNat (w.bytes src n) →
        exec (.rowReadDone t table row res) s = .next (if pf = 0 then x
          else z.giveRow table.toNat row.toNat true (match z.stageFind t ((x.step + 1) % 2) table.toNat row.toNat with
            | some (.inl _) => .got false [] | _ => .bad)).embPump)) := by
  have reached : (!s.fabOn t || decide (look + pf = 0) || decide (s.serving d row.toNat ≠ t)) = false := by
    simp only [on, mine, Bool.not_true, Bool.false_or, ne_eq, not_true_eq_false, decide_false, Bool.or_false,
      decide_eq_false_iff_not]
    omega
  have counted : (if (decide (tbFmt d = 0) || staged) = true then s else s.bump (kEmbCount t 2) 1) = u := by
    rw [hu]
    exact ite_congr (by simp) (fun _ => rfl) fun _ => rfl
  have run : exec (.rowReadDone t table row res) s = .next (u.rowJudged t table.toNat row.toNat d src res look pf) := by
    simp only [exec, execRowReadDone]
    rw [← hlook, ← hpf, ← hd, ← source]
    dsimp only
    rw [reached, counted]
    rfl
  subst hn
  dsimp only
  rw [run]
  obtain ⟨failed, others⟩ := u.rowJudged_effect t table.toNat row.toNat d src res look pf
  refine ⟨fun ok ue v hv => ?_, fun w hw => ⟨fun bad => ?_, ?_⟩⟩
  · rw [failed ok ue, State.rowFailed_eq, hv]
  · rw [(others w hw).1 bad]
  · rintro ok fine g out v shown x hx z hz
    rw [(others w hw).2 ok fine g out v shown x hx z hz]

end

/-- Settles O47. -/
theorem embeddingLookups : Obligations.EmbeddingLookups := by
  refine ⟨fun s => ⟨fun none => ?_, fun none => ?_, fun none => ?_, fun u m on => ⟨fun came => (exec_embRequest on came).1,
      fun came => (exec_embRequest on came).2, fun came => (exec_pooledResponse on came).1,
      fun came => (exec_rowsResponse on came).1, fun free => ⟨fun t j b came bag fe hfe => ?_, fun came missing => ?_,
        fun t j b came bag => ((exec_rowsResponse on came).2 free).1 t j b bag,
        fun came missing => ((exec_rowsResponse on came).2 free).2 missing⟩⟩⟩,
    fun s t => ⟨fun none => ?_, fun sh ended => exec_poolShareComplete ended⟩,
    fun s t table row res look pf hlook hpf d hd => ⟨fun held => ?_,
      fun on mine awaited src staged source u hu n hn => exec_rowReadDone hlook hpf hd on mine awaited source hu hn⟩⟩
  · simp only [exec, execEmbRequest, none]
  · simp only [exec, execPooledResponse, none]
  · simp only [exec, execRowsResponse, none]
  · exact ((exec_pooledResponse on came).2 free).1 t j b bag fe hfe
  · rw [((exec_pooledResponse on came).2 free).2 missing]
    obtain ⟨gone, more, last⟩ := u.takeAck_effect m.tag
    exact ⟨fun job => congrArg _ (gone job), fun t j job waits => congrArg _ (more t j job waits),
      fun t j job waits => congrArg _ (last t j job waits)⟩
  · simp only [exec, execPoolShareComplete, none]
  · rw [hd] at held
    exact exec_rowReadDone_none hlook hpf held

end Sys2Proof.Machine
end

section
/-! PROOFS of embedding gradients: contributions, row writes, refreshes of the Commons and the journal (R286 to R308, R340
to R346). -/

namespace Sys2Proof.Machine
open Sys2Proof

section
variable {s : State} {t : TileId}

/-! ## Contributions -/

theorem exec_contribution_held (held : s.fencedTile t = true) (src : Option RemoteContrib) :
    exec (.contribution t src) s = .next s :=
  congrArg Host.Outcome.next (if_pos (by rw [held, Bool.or_true]))

theorem exec_contribution_own (on : s.fabOn t = true) (free : s.fencedTile t = false) :
    ((s.embt t).contribs = [] → exec (.contribution t none) s = .next s) ∧
    (∀ c cs, (s.embt t).contribs = c :: cs → ∀ u, u = s.setEmbt t { s.embt t with contribs := cs } →
      (s.quiet = false → exec (.contribution t none) s = .next ((u.contribute t c.table c.row c.vec).takeAck c.tag)) ∧
      (s.quiet = true → exec (.contribution t none) s = .next (u.takeAck c.tag))) := by
  simp only [exec, execContribution, on, free, Bool.not_true, Bool.or_false, Bool.false_eq_true, if_false]
  refine ⟨fun none => by rw [none], ?_⟩
  rintro c cs first u hu
  have quiet : u.quiet = s.quiet := by rw [hu]; rfl
  rw [first]
  dsimp only
  rw [← hu, quiet]
  exact ⟨fun runs => by rw [runs, if_neg Bool.false_ne_true], fun ended => by rw [ended, if_pos rfl]⟩

theorem exec_contribution_remote (on : s.fabOn t = true) (free : s.fencedTile t = false) (c : RemoteContrib) :
    let here := s.tableOk c.table = true ∧ c.row < tbRows (s.table c.table) ∧ c.step = s.step ∧ s.quiet = false ∧
      s.owner (s.table c.table) c.row = s.rank ∧ s.serving (s.table c.table) c.row = t
    (here → exec (.contribution t (some c)) s = .next
      ((s.contribute t c.table c.row (c.vec.map WVal.num)).emit (.contributionDone c.node c.tag))) ∧
    (¬here → exec (.contribution t (some c)) s = .next (s.emit (.contributionDone c.node c.tag))) := by
  have here : (s.tableOk c.table && decide (c.row < tbRows (s.table c.table)) && decide (c.step = s.step) && !s.quiet &&
      decide (s.owner (s.table c.table) c.row = s.rank) && decide (s.serving (s.table c.table) c.row = t)) = true ↔
      s.tableOk c.table = true ∧ c.row < tbRows (s.table c.table) ∧ c.step = s.step ∧ s.quiet = false ∧
        s.owner (s.table c.table) c.row = s.rank ∧ s.serving (s.table c.table) c.row = t := by
    simp only [Bool.and_eq_true, Bool.not_eq_true', decide_eq_true_eq, and_assoc]
  simp only [exec, execContribution, on, free, Bool.not_true, Bool.or_false, Bool.false_eq_true, if_false]
  exact ⟨fun taken => by rw [if_pos (here.2 taken)], fun dropped => by rw [if_neg fun h => dropped (here.1 h)]⟩

/-! ## Row writes -/

theorem exec_rowWriteDone (on : s.fabOn t = true) {w : RowWrite} {ws : List RowWrite} (first : (s.embt t).writes = w :: ws)
    {c : Code} {u : State} (written : s.memWrite true w.addr w.bytes = (c, u)) :
    (c = .ok → exec (.rowWriteDone t false) s = .next
      ((((u.setEmbt t { u.embt t with writes := ws }).bump (kEmbCount t 7) 1).bump (kUe t 0x30) 1).partDone w.tile w.idx none)) ∧
    (∀ err v, c ≠ .ok ∧ err = false ∧ v = u ∨ err = true ∧ v = s →
      (w.retried = false → exec (.rowWriteDone t err) s = .next
        (v.setEmbt t { v.embt t with writes := { w with retried := true } :: ws })) ∧
      (w.retried = true → exec (.rowWriteDone t err) s = .next
        (((v.setEmbt t { v.embt t with writes := ws }).poison t w.table w.row 1).partDone w.tile w.idx none))) := by
  simp only [exec, execRowWriteDone, first, on, Bool.not_true, Bool.false_eq_true, if_false]
  refine ⟨?_, ?_⟩
  · rintro rfl
    rw [written]
  · rintro err v failed
    have result : ∃ c', c' ≠ .ok ∧ (if err = true then (Code.denied, s) else s.memWrite true w.addr w.bytes) = (c', v) := by
      rcases failed with ⟨bad, rfl, rfl⟩ | ⟨rfl, rfl⟩
      · exact ⟨c, bad, written⟩
      · exact ⟨.denied, by decide, rfl⟩
    obtain ⟨c', bad, result⟩ := result
    rw [result]
    cases c' with
    | ok => exact absurd rfl bad
    | _ => exact ⟨fun fresh => by rw [fresh]; rfl, fun again => by rw [again]; rfl⟩

/-! ## Refreshes of the Commons -/

theorem exec_commonsRefresh (table : BitVec 12) (row : BitVec 40) (b : List Byte) :
    (s.hubOn = false ∨ s.seq.mode ≠ .fence ∨ 6 < s.seq.fenceOrder → exec (.commonsRefresh table row b) s = .next s) ∧
    (s.hubOn = true → s.seq.mode = .fence →
      (s.seq.fenceOrder < 6 → exec (.commonsRefresh table row b) s = .next
        { s with embm := { s.embm with early := s.embm.early ++ [(table.toNat, row.toNat, b)] } }) ∧
      (s.seq.fenceOrder = 6 → (table.toNat, row.toNat) ∉ s.embm.awaited → exec (.commonsRefresh table row b) s = .next s) ∧
      (s.seq.fenceOrder = 6 → (table.toNat, row.toNat) ∈ s.embm.awaited →
        exec (.commonsRefresh table row b) s = .next (s.takeRefresh (table.toNat, row.toNat, b)).orders7to8)) := by
  simp only [exec, execCommonsRefresh]
  refine ⟨fun off => ?_, fun on fence => ?_⟩
  · by_cases held : (!s.hubOn || decide (s.seq.mode ≠ .fence)) = true
    · rw [if_pos held]
    · have late : 6 < s.seq.fenceOrder := by
        simp only [Bool.or_eq_true, Bool.not_eq_true', decide_eq_true_eq, not_or] at held
        exact (off.resolve_left held.1).resolve_left held.2
      rw [if_neg held, if_neg (by omega), if_neg (by omega)]
  · have go : (!s.hubOn || decide (s.seq.mode ≠ .fence)) = false := by simp [on, fence]
    rw [go, if_neg Bool.false_ne_true]
    refine ⟨fun early => ?_, fun due other => ?_, fun due awaited => ?_⟩
    · rw [if_neg (by omega), if_pos early]
    · rw [if_pos due, if_neg (by simpa [List.contains_iff_mem] using other)]
    · rw [if_pos due, if_pos (by simpa [List.contains_iff_mem] using awaited)]

/-! ## The journal -/

theorem exec_journalAreaCleared (on : s.fabOn t = true) (waited : Nat) :
    ((s.grn t).clearing = [] → exec (.journalAreaCleared t waited) s = .next s) ∧
    (∀ k ks, (s.grn t).clearing = k :: ks → ∀ u : State,
      u = (if s.step % 10 = k then s.bump (kGrnCount t 8) waited else s).clearArea t k →
      exec (.journalAreaCleared t waited) s = .next (u.setGrn t { u.grn t with clearing := ks })) := by
  simp only [exec, execJournalAreaCleared, on, Bool.not_true, Bool.false_eq_true, if_false]
  refine ⟨fun none => by rw [none], ?_⟩
  rintro k ks first u rfl
  rw [first]

theorem exec_delayWrite (on : s.fabOn t = true) (v : W32) {d : Nat} (hd : d = v.toNat % 16) :
    (s.isIdle = true → s.anySealed = false → 1 ≤ d → d ≤ 8 → exec (.delayWrite t v) s = .next (s.wrf kGrnCtrl 0 4 d)) ∧
    (s.isIdle = false ∨ s.anySealed = true ∨ d = 0 ∨ 8 < d →
      exec (.delayWrite t v) s = .next (s.orBits (tileBase t + 0x120024) 4)) := by
  have field : fld v.toNat 0 4 = d :=
    (congrArg (· % 16) (Nat.div_one v.toNat)).trans hd.symm
  have run : exec (.delayWrite t v) s = .next (s.delayWrite t v.toNat).2 := congrArg Host.Outcome.next (if_pos on)
  have takes : (s.isIdle && !s.anySealed && decide (1 ≤ d) && decide (d ≤ 8)) = true ↔
      s.isIdle = true ∧ s.anySealed = false ∧ 1 ≤ d ∧ d ≤ 8 := by
    simp only [Bool.and_eq_true, Bool.not_eq_true', decide_eq_true_eq, and_assoc]
  rw [run, State.delayWrite, field]
  refine ⟨fun idle none low high => by rw [if_pos (takes.2 ⟨idle, none, low, high⟩)], fun refused => ?_⟩
  rw [if_neg fun h => ?_]
  obtain ⟨idle, none, low, high⟩ := takes.1 h
  rcases refused with runs | sealed | zero | large
  · exact absurd (idle.symm.trans runs) (by decide)
  · exact absurd (none.symm.trans sealed) (by decide)
  · omega
  · omega

/-- A refresh writes the row's slot of the Commons on each tile, and is awaited no more. -/
theorem State.takeRefresh_eq (s : State) (n r : Nat) (b : List Byte) {u : State}
    (hu : u = if b = [] then s else s.commonsWrite n r (slice b 0 (rowBytes16 (tbDim (s.table n))))) :
    s.takeRefresh (n, r, b) = { u with embm := { u.embm with awaited := u.embm.awaited.filter (· ≠ (n, r)) } } := by
  rw [hu]
  rfl

end

/-- Settles O48. -/
theorem embeddingGradients : Obligations.EmbeddingGradients := by
  refine ⟨fun s t on => ⟨exec_contribution_held, fun free => ⟨(exec_contribution_own on free).1, (exec_contribution_own on free).2,
      exec_contribution_remote on free⟩, fun err none => ?_, fun w ws first c u written => exec_rowWriteDone on first written,
      fun table row b => ?_⟩,
    fun s t on => ⟨fun waited => (exec_journalAreaCleared on waited).1,
      fun k ks waited => (exec_journalAreaCleared on waited).2 k ks, fun v d hd => exec_delayWrite on v hd⟩⟩
  · simp only [exec, execRowWriteDone, none]
  · obtain ⟨out, inside⟩ := exec_commonsRefresh (s := s) table row b
    refine ⟨out, fun on fence => ⟨(inside on fence).1, (inside on fence).2.1, fun due awaited u hu => ?_⟩⟩
    rw [(inside on fence).2.2 due awaited, State.takeRefresh_eq s table.toNat row.toNat b (u := u)]
    rw [hu, State.commonsWrite]
    cases s.hotFind table.toNat row.toNat with
    | none => exact (ite_self s).symm
    | some e => rfl

end Sys2Proof.Machine
end

section
/-! PROOFS of the Quantizer: how a job starts, how its conversions end, and the Tracing Unit (R212 to R231). -/

namespace Sys2Proof.Machine
open Sys2Proof

/-! ## A job starts -/

section
variable {s u : State} {t : TileId} {idx addr : Nat} {cf : Bool} {rest : List (Nat × Nat × Bool)}

theorem exec_quantJobStart_none
    (held : s.fabOn t = false ∨ s.fencedTile t = true ∨ (s.qzt t).run ≠ none ∨ (s.qzt t).queue = []) :
    exec (.quantJobStart t) s = .next s := by
  simp only [exec, execQuantJobStart]
  cases queue : (s.qzt t).queue with
  | nil => rfl
  | cons job rest =>
    have shut : (!s.fabOn t || s.fencedTile t || (s.qzt t).run.isSome) = true := by
      rcases held with off | fenced | busy | empty
      · rw [off]
        rfl
      · rw [fenced, Bool.or_true, Bool.true_or]
      · rw [Option.isSome_iff_ne_none.2 busy, Bool.or_true]
      · exact absurd (queue.symm.trans empty) (by simp)
    exact congrArg _ (if_pos shut)

/-- The job at the head of a tile's queue, of a good descriptor, runs in its mode; its ticket is taken and the trace
buffer is asked for. -/
def State.runJob (s : State) (t idx : Nat) (cf : Bool) (j : List Byte) : State :=
  let cal : Bool := s.wantsCal j && (s.calOf (jobTensor j)).isSome
  let w := if s.wantsCal j && !cal then (s.bump (kQz t 0x38) 1).raise 0x0702 1 t (jobTensor j) else s
  let w := if jobTicket j = 0 then w else w.setTicket t (jobTicket j) 1
  (w.sampleJob t j).setRun t (some ⟨idx, cf, j, cal, false, false⟩)

theorem State.runJob_effect (s : State) (t idx : Nat) (cf : Bool) (j : List Byte) (cal : Bool)
    (hcal : cal = (s.wantsCal j && (s.calOf (jobTensor j)).isSome)) (w : State)
    (hw : w = if s.wantsCal j = true ∧ cal = false then (s.bump (kQz t 0x38) 1).raise 0x0702 1 t (jobTensor j) else s) :
    (jobTicket j = 0 → s.runJob t idx cf j = w.setRun t (some ⟨idx, cf, j, cal, false, false⟩)) ∧
    (jobTicket j ≠ 0 → s.runJob t idx cf j =
      ((w.setTicket t (jobTicket j) 1).sampleJob t j).setRun t (some ⟨idx, cf, j, cal, false, false⟩)) := by
  have warned : (if (s.wantsCal j && !cal) = true then (s.bump (kQz t 0x38) 1).raise 0x0702 1 t (jobTensor j) else s) = w := by
    rw [hw]
    exact ite_congr (by simp) (fun _ => rfl) fun _ => rfl
  unfold State.runJob
  rw [← hcal]
  dsimp only
  rw [warned]
  refine ⟨fun plain => ?_, fun gated => ?_⟩
  · rw [if_pos plain, State.sampleJob, if_pos plain]
  · rw [if_neg gated]

theorem exec_quantJobStart (on : s.fabOn t = true) (free : s.fencedTile t = false) (idle : (s.qzt t).run = none)
    (queue : (s.qzt t).queue = (idx, addr, cf) :: rest) (hu : u = s.setQzt t { s.qzt t with queue := rest }) :
    (addr % 8 ≠ 0 → exec (.quantJobStart t) s = .next (u.partDone t idx (some false))) ∧
    (addr % 8 = 0 → ∀ c j v, u.gRead addr 64 = (c, j, v) → ∀ k, k = jobTicket j →
      (c ≠ .ok → exec (.quantJobStart t) s = .next (v.partDone t idx (some (c = .ue)))) ∧
      (c = .ok → k ≠ 0 ∧ smGet 0 (s.qzt t).tickets k ≠ 0 →
        exec (.quantJobStart t) s = .next ((v.orBits (kQz t 0x18) 2).partDone t idx (some false))) ∧
      (c = .ok → ¬(k ≠ 0 ∧ smGet 0 (s.qzt t).tickets k ≠ 0) → v.jobOk j = false →
        exec (.quantJobStart t) s = .next ((((v.orBits (kQz t 0x18) 1).setTicket t k (if k = 0 then 0 else 1)).postNotice t k
          false).partDone t idx (some false))) ∧
      (c = .ok → ¬(k ≠ 0 ∧ smGet 0 (s.qzt t).tickets k ≠ 0) → v.jobOk j = true →
        exec (.quantJobStart t) s = .next (v.runJob t idx cf j))) := by
  have opens : (!s.fabOn t || s.fencedTile t || (s.qzt t).run.isSome) = false := by rw [on, free, idle]; rfl
  simp only [exec, execQuantJobStart, queue]
  rw [opens, if_neg Bool.false_ne_true]
  refine ⟨fun misplaced => by rw [if_pos misplaced, hu], ?_⟩
  rintro placed c j v read k rfl
  rw [if_neg (Classical.not_not.2 placed), ← hu, read]
  have taken : (decide (jobTicket j ≠ 0) && decide (smGet 0 (s.qzt t).tickets (jobTicket j) ≠ 0)) = true ↔
      jobTicket j ≠ 0 ∧ smGet 0 (s.qzt t).tickets (jobTicket j) ≠ 0 := by simp
  refine ⟨fun bad => ?_, ?_, ?_, ?_⟩
  · cases c with
    | ok => exact absurd rfl bad
    | _ => rfl
  · rintro rfl held
    exact congrArg _ (if_pos (taken.2 held))
  · rintro rfl new bad
    exact congrArg _ ((if_neg fun h => new (taken.1 h)).trans (if_pos (by rw [bad]; rfl)))
  · rintro rfl new good
    exact congrArg _ ((if_neg fun h => new (taken.1 h)).trans (if_neg (by rw [good]; decide)))

end

/-! ## Conversions end -/

section
variable {s : State} {t : TileId} {r : QzRun}

theorem exec_quantConversionEnd (on : s.fabOn t = true) (runs : (s.qzt t).run = some r) :
    (r.recon = true → exec (.quantConversionEnd t) s = .next s) ∧
    (r.recon = false →
      (∀ e v, s.qzConvert r.job (if r.cal then s.calOf (jobTensor r.job) else none) (s.wideFor t r.job) = (.error e, v) →
        exec (.quantConversionEnd t) s = .next (v.qzFail t r e)) ∧
      (∀ z v, s.qzConvert r.job (if r.cal then s.calOf (jobTensor r.job) else none) (s.wideFor t r.job) = (.ok z, v) →
        ∀ x : State, x = (v.orBits (kQz t 0x14) z.flags.toNat).clipStats t r.job z.sat →
        (r.cal = false ∨ z.sat ≤ x.rd kQzLimit → exec (.quantConversionEnd t) s = .next (x.qzStand t r z)) ∧
        (r.cal = true → x.rd kQzLimit < z.sat →
          ∀ y : State, y = (x.bump (kQz t 0x30) 1).raise 0x0701 1 t (jobTensor r.job + min z.sat 0xFFFFFFFF * 2 ^ 16) →
          (jobTicket r.job = 0 → exec (.quantConversionEnd t) s = .next
            (y.setRun t (some { r with recon := true, descDone := false }))) ∧
          (jobTicket r.job ≠ 0 → exec (.quantConversionEnd t) s = .next
            ((y.setRun t (some { r with recon := true, descDone := true })).partDone t r.idx none))))) := by
  simp only [exec, execQuantConversionEnd, runs, on, Bool.not_true, Bool.false_or]
  refine ⟨fun again => by rw [if_pos again], fun first => ?_⟩
  rw [first, if_neg Bool.false_ne_true]
  refine ⟨fun e v failed => by rw [failed], fun z v converted => ?_⟩
  rw [converted]
  rintro x hx
  dsimp only
  rw [← hx]
  refine ⟨fun stands => ?_, ?_⟩
  · rw [if_neg]
    simp only [Bool.and_eq_true, decide_eq_true_eq, not_and, Nat.not_lt]
    rintro cal
    exact stands.resolve_left (by rw [cal]; decide)
  · rintro cal many y rfl
    have saturated : (r.cal && decide (z.sat > x.rd kQzLimit)) = true := by rw [cal, decide_eq_true many]; rfl
    rw [saturated, if_pos rfl]
    refine ⟨fun plain => ?_, fun gated => ?_⟩
    · rw [decide_eq_false (Classical.not_not.2 plain), if_neg Bool.false_ne_true]
    · rw [decide_eq_true gated, if_pos rfl]

theorem exec_quantReconversionEnd (on : s.fabOn t = true) (runs : (s.qzt t).run = some r) :
    (r.recon = false → exec (.quantReconversionEnd t) s = .next s) ∧
    (r.recon = true →
      (∀ e v, s.qzConvert r.job none none = (.error e, v) → exec (.quantReconversionEnd t) s = .next (v.qzFail t r e)) ∧
      (∀ z v, s.qzConvert r.job none none = (.ok z, v) →
        exec (.quantReconversionEnd t) s = .next ((v.orBits (kQz t 0x14) z.flags.toNat).qzStand t r z))) := by
  simp only [exec, execQuantReconversionEnd, runs, on, Bool.not_true, Bool.false_or]
  refine ⟨fun first => by rw [first]; rfl, fun again => ?_⟩
  rw [again, Bool.not_true, if_neg Bool.false_ne_true]
  exact ⟨fun e v failed => by rw [failed], fun z v converted => by rw [converted]⟩

theorem State.wideFor_none {j : List Byte} (none : (s.qzt t).sample = .none) : s.wideFor t j = .none := by
  rw [State.wideFor, none]

theorem State.wideFor_some {j : List Byte} {sm : Sample} (sampled : (s.qzt t).sample = some sm) :
    s.wideFor t j = if sm.ticket = jobTicket j ∧ sm.copy = none then some sm.base else none := by
  rw [State.wideFor, sampled]
  exact ite_congr (by simp) (fun _ => rfl) fun _ => rfl

end

/-! ## The Tracing Unit -/

section
variable {s : State} {t : TileId} {sm : Sample} {cp : TraceCopy}

theorem exec_traceCopyEnd (on : s.fabOn t = true) (sampled : (s.qzt t).sample = some sm) (copied : sm.copy = some cp)
    (first : sm.recomputing = false) {u : State} (hu : u = s.setSample t (some { sm with recomputing := true })) :
    ((u.me cp.core).chains.find? (fun ch => ch.id = cp.chain && ch.traced) = none →
      exec (.traceCopyEnd t) s = .next u) ∧
    (∀ ch, (u.me cp.core).chains.find? (fun ch => ch.id = cp.chain && ch.traced) = some ch →
      exec (.traceCopyEnd t) s = .next ((u.chainFinal cp.core ch).meAdvance cp.core)) := by
  simp only [copied] at hu
  simp only [exec, execTraceCopyEnd, sampled, copied, on, first, Bool.not_true, Bool.or_false, Bool.false_eq_true, if_false,
    ← hu]
  exact ⟨fun gone => by rw [gone], fun ch found => by rw [found]⟩

theorem State.bump_qzm (s : State) (k n : Nat) : (s.bump k n).qzm = s.qzm := rfl
theorem State.setSample_qzm (s : State) (t : Nat) (x : Option Sample) : (s.setSample t x).qzm = s.qzm := rfl

theorem exec_traceRecomputeEnd (on : s.fabOn t = true) (sampled : (s.qzt t).sample = some sm) (copied : sm.copy = some cp)
    (again : sm.recomputing = true) {b last : Nat} (hb : b = s.traceBin sm cp)
    (hlast : last = jobTensor sm.job + b * 2 ^ 16 + cp.tag * 2 ^ 32) {u : State}
    (hu : u = ((((s.setSample t none).bump (kTrace t 0) 1).bump (tileBase t + 0x141100 + 8 * b) 1).wr
      (tileBase t + 0x141030) last)) :
    (b < max 1 (fld s.qzm.trCtrl 16 5) → exec (.traceRecomputeEnd t) s = .next u) ∧
    (max 1 (fld s.qzm.trCtrl 16 5) ≤ b → exec (.traceRecomputeEnd t) s = .next
      ((u.bump (kTrace t 2) 1).raise 0x0703 1 t last)) := by
  have ctrl : u.qzm.trCtrl = s.qzm.trCtrl := by rw [hu, State.wr_qzm, State.bump_qzm, State.bump_qzm, State.setSample_qzm]
  simp only [exec, execTraceRecomputeEnd, sampled, copied, on, again, Bool.not_true, Bool.or_false, Bool.false_eq_true,
    if_false, ← hb, ← hlast, ← hu, ctrl]
  exact ⟨fun calm => by rw [if_neg (Nat.not_le.2 calm)], fun alarm => by rw [if_pos alarm]⟩

end

/-- Settles O49. -/
theorem quantizer : Obligations.Quantizer := by
  refine ⟨fun s t => ⟨exec_quantJobStart_none, fun idx addr cf rest on free idle queue u hu => ?_⟩,
    fun s t r on runs wide hwide => ?_,
    fun s t sm cp on sampled copied => ⟨fun first u hu => exec_traceCopyEnd on sampled copied first hu,
      fun again b last hb hlast u hu => exec_traceRecomputeEnd on sampled copied again hb hlast hu⟩⟩
  · obtain ⟨misplaced, placed⟩ := exec_quantJobStart on free idle queue hu
    refine ⟨misplaced, fun aligned c j v read k hk => ?_⟩
    obtain ⟨unread, held, bad, good⟩ := placed aligned c j v read k hk
    refine ⟨unread, held, bad, fun ok new form cal hcal w hw => ?_⟩
    obtain ⟨plain, gated⟩ := v.runJob_effect t idx cf j cal hcal w hw
    rw [good ok new form, hk]
    exact ⟨fun none => congrArg _ (plain none), fun some => congrArg _ (gated some)⟩
  · have first : wide = s.wideFor t r.job := by
      rw [hwide]
      cases sample : (s.qzt t).sample with
      | none => rw [State.wideFor_none sample]
      | some sm => rw [State.wideFor_some sample]
    rw [first]
    obtain ⟨again, first⟩ := exec_quantConversionEnd on runs
    obtain ⟨first', again'⟩ := exec_quantReconversionEnd on runs
    exact ⟨again, first', first, again'⟩

end Sys2Proof.Machine
end

section
/-! PROOFS of the blocks of an UP link and their retry (R376 to R388, R401). -/

namespace Sys2Proof.Machine
open Sys2Proof

section
variable {s u : State} {p : PortId} {b : RxBlock}

/-- A link that is UP takes blocks. -/
theorem linkTakes (on : s.portOn p = true) (up : s.linkSt p = 4) :
    (!s.portOn p || decide (s.linkSt p ≠ 4)) = false := by
  simp [on, up]

/-! ## Blocks that are bad, or not for this row -/

theorem exec_block_crcFail (on : s.portOn p = true) (up : s.linkSt p = 4) (bad : b.crcOk = false)
    (hu : u = (s.bump (kLnkCount p 5) b.uncorr.toNat).bump (kLnkCount p 2) 1) :
    exec (.dataBlock p b) s = .next (u.discard p) ∧ exec (.idleBlock p b) s = .next u := by
  simp only [exec, execDataBlock, execIdleBlock, linkTakes on up, bad, Bool.false_eq_true, if_false, Bool.not_false, if_true,
    State.crcFail, ← hu, and_self]

theorem exec_idleBlock (on : s.portOn p = true) (up : s.linkSt p = 4) (good : b.crcOk = true) :
    (b.kind = 0 → exec (.idleBlock p b) s = .next (s.takeHeader p b)) ∧ (b.kind ≠ 0 → exec (.idleBlock p b) s = .next s) := by
  simp only [exec, execIdleBlock, linkTakes on up, good, Bool.false_eq_true, if_false, Bool.not_true]
  exact ⟨fun idle => by rw [if_neg (Classical.not_not.2 idle)], fun other => by rw [if_pos other]⟩

theorem exec_dataBlock_other (on : s.portOn p = true) (up : s.linkSt p = 4) (good : b.crcOk = true) :
    (2 < b.kind.toNat → exec (.dataBlock p b) s = .next (s.discard p)) ∧
    (b.kind = 0 ∨ b.kind = 2 → exec (.dataBlock p b) s = .next s) := by
  simp only [exec, execDataBlock, linkTakes on up, good, Bool.false_eq_true, if_false, Bool.not_true]
  refine ⟨fun unlisted => by rw [if_pos unlisted], fun other => ?_⟩
  rcases other with idle | link
  · rw [idle, if_neg (by decide), if_pos (by decide)]
  · rw [link, if_neg (by decide), if_pos (by decide)]

theorem exec_dataBlock_badTag (on : s.portOn p = true) (up : s.linkSt p = 4) (good : b.crcOk = true) (data : b.kind = 1)
    (bad : b.tagOk = false) (hu : u = (s.bump (kLnkCount p 6) 1).raise 0x0304 3 p b.seq.toNat) :
    (b.seq.toNat ∈ (s.port p).authSeq → exec (.dataBlock p b) s = .next (u.linkDown p 8 false)) ∧
    (b.seq.toNat ∉ (s.port p).authSeq → exec (.dataBlock p b) s = .next
      ((u.setPort p { s.port p with authSeq := b.seq.toNat :: (s.port p).authSeq }).discard p)) := by
  have listed : ¬ BitVec.toNat (1 : Byte) > 2 := by decide
  simp only [exec, execDataBlock, linkTakes on up, good, bad, listed, data, Bool.false_eq_true, if_false, Bool.not_true,
    Bool.not_false, if_true, ne_eq, not_true_eq_false, ← hu, List.contains_iff_mem]
  exact ⟨fun again => by rw [if_pos again], fun first => by rw [if_neg first]⟩

/-! ## A block that is due -/

theorem exec_dataBlock_good (on : s.portOn p = true) (up : s.linkSt p = 4) (good : b.crcOk = true) (data : b.kind = 1)
    (tag : b.tagOk = true) (hu : u = s.takeHeader p b) :
    (u.linkSt p ≠ 4 → exec (.dataBlock p b) s = .next u) ∧
    (u.linkSt p = 4 → b.seq.toNat ≠ (u.port p).rxSeq ∨ u.coordOk p = false →
      exec (.dataBlock p b) s = .next (u.discard p)) ∧
    (u.linkSt p = 4 → b.seq.toNat = (u.port p).rxSeq → u.coordOk p = true →
      exec (.dataBlock p b) s = .next (u.acceptBlock p b)) := by
  have listed : ¬ BitVec.toNat (1 : Byte) > 2 := by decide
  simp only [exec, execDataBlock, linkTakes on up, good, tag, listed, data, Bool.false_eq_true, if_false, Bool.not_true,
    ne_eq, not_true_eq_false, ← hu]
  refine ⟨fun down => by rw [if_pos down], fun still out => ?_, fun still due coord => ?_⟩
  · rw [if_neg (Classical.not_not.2 still), if_pos]
    rcases out with order | coord
    · rw [decide_eq_true order, Bool.true_or]
    · rw [coord, Bool.not_false, Bool.or_true]
  · rw [if_neg (Classical.not_not.2 still), if_neg (by simp [due, coord])]

/-- The messages of a block, numbered, name their port and virtual channel. -/
theorem map_withIdx_messages (f : Nat × List Byte → Nat) (k n : Nat) (l : List (List Byte)) :
    ((withIdx l n).map fun m => (k, f m, m.2)).map (fun m : Nat × Nat × List Byte => (m.1, m.2.2)) = l.map fun m => (k, m) := by
  induction l generalizing n with
  | nil => rfl
  | cons x l ih => exact congrArg (List.cons (k, x)) (ih (n + 1))

/-- What an accepted block leaves, before it is acknowledged. -/
theorem State.acceptBlock_effect (u : State) (p : Nat) (b : RxBlock) {vc : Nat}
    (hvc : vc = fld b.vc.toNat 0 3 * 2 + fld b.vc.toNat 3 1) {part : SMap (List Byte)} {done : List (List Byte)}
    (taken : takeSegments vc 121 b.payload (u.port p).part [] = (part, done)) :
    ∃ v, u.acceptBlock p b = v.sendIdle p 0xFF false ∧
      (v.port p).rxSeq = ((u.port p).rxSeq + 1) % 65536 ∧ (v.port p).nak = false ∧ (v.port p).part = part ∧
      smGet 0 (v.port p).held vc = smGet 0 (u.port p).held vc + 1 ∧ RegsExcept [kLnkCount p 1] u v ∧ SameBytes u v ∧
      ∃ new, v.net.assembled = u.net.assembled ++ new ∧
        new.map (fun m => (m.1, m.2.2)) = done.map fun m => ((p : Nat) * 16 + vc, m) := by
  subst hvc
  simp only [State.acceptBlock, taken]
  refine ⟨_, rfl, congrArg PortState.rxSeq (u.port_setPort p _), congrArg PortState.nak (u.port_setPort p _),
    congrArg PortState.part (u.port_setPort p _), ?_, ?_, SameBytes.of_mem rfl, _, rfl, map_withIdx_messages _ _ _ _⟩
  · refine (congrArg (fun x : PortState => smGet 0 x.held _) (u.port_setPort p _)).trans ?_
    dsimp only
    rw [smGet_smSet, if_pos rfl]
  · exact (RegsExcept.refl _ u).bump (List.mem_singleton_self _) 1

/-! ## Timers -/

theorem exec_nakTimer (on : s.portOn p = true) (up : s.linkSt p = 4) :
    ((s.port p).nak = true → exec (.nakTimer p) s = .next (s.sendIdle p 0xFF true)) ∧
    ((s.port p).nak = false → exec (.nakTimer p) s = .next s) := by
  simp only [exec, execNakTimer, on, up, decide_true, Bool.true_and]
  exact ⟨fun nak => by rw [if_pos nak], fun ack => by rw [ack, if_neg Bool.false_ne_true]⟩

/-- Every block from the first one on is sent again. -/
theorem State.resend_all {bs : List TxBlock} {x : TxBlock} (waits : (s.port p).retry = x :: bs)
    (fresh : x.resent < max 1 (s.rdf (netKey 0x24) 16 8))
    (later : ∀ y ∈ bs, serialLater 16 y.seq x.seq = true ∧ y.resent < max 1 (s.rdf (netKey 0x24) 16 8)) :
    s.resend p x.seq = emitBlocks (s.setPort p { s.port p with
      retry := (x :: bs).map fun y => { y with resent := y.resent + 1 } }) p (x :: bs) := by
  have again : ∀ y ∈ x :: bs, (decide (y.seq = x.seq) || serialLater 16 y.seq x.seq) = true := by
    rintro y (- | ⟨_, hy⟩)
    · simp
    · rw [(later y hy).1, Bool.or_true]
  have calm : ((x :: bs).any fun y => decide (y.resent ≥ max 1 (s.rdf (netKey 0x24) 16 8))) = false := by
    rw [List.any_eq_false]
    rintro y (- | ⟨_, hy⟩)
    · rwa [decide_eq_true_eq, ge_iff_le, Nat.not_le]
    · rw [decide_eq_true_eq, ge_iff_le, Nat.not_le]
      exact (later y hy).2
  have marked : ((x :: bs).map fun y => if (decide (y.seq = x.seq) || serialLater 16 y.seq x.seq) = true then
      { y with resent := y.resent + 1 } else y) = (x :: bs).map fun y => { y with resent := y.resent + 1 } :=
    List.map_congr_left fun y hy => if_pos (again y hy)
  simp only [State.resend, waits]
  rw [List.filter_eq_self.2 again, calm, if_neg Bool.false_ne_true, marked]

/-- A block that has been sent again too often takes the link DOWN. -/
theorem State.resend_spent {bs : List TxBlock} {x : TxBlock} (waits : (s.port p).retry = x :: bs)
    (spent : max 1 (s.rdf (netKey 0x24) 16 8) ≤ x.resent) : s.resend p x.seq = s.linkDown p 6 false := by
  refine if_pos (List.any_eq_true.2 ⟨x, List.mem_filter.2 ⟨?_, ?_⟩, decide_eq_true spent⟩)
  · rw [waits]
    exact List.mem_cons_self
  · simp

theorem exec_replayTimeout (on : s.portOn p = true) (up : s.linkSt p = 4) :
    ((s.port p).retry = [] → exec (.replayTimeout p) s = .next s) ∧
    (∀ x bs, (s.port p).retry = x :: bs → exec (.replayTimeout p) s = .next (s.resend p x.seq)) := by
  simp only [exec, execReplayTimeout, on, up, decide_true, Bool.and_self, if_true]
  exact ⟨fun none => by rw [none], fun x bs waits => by rw [waits]⟩

end

/-- Settles O52. -/
theorem linkBlocks : Obligations.LinkBlocks := by
  refine ⟨fun s p b on up => ⟨fun bad u hu => exec_block_crcFail on up bad hu, fun good => ?_,
      fun good data bad u hu => exec_dataBlock_badTag on up good data bad hu, fun good data tag u hu => ?_⟩,
    fun s p on up => ⟨(exec_nakTimer on up).1, (exec_nakTimer on up).2, (exec_replayTimeout on up).1, fun b bs waits => ?_⟩⟩
  · exact ⟨(exec_idleBlock on up good).1, (exec_idleBlock on up good).2, (exec_dataBlock_other on up good).1,
      (exec_dataBlock_other on up good).2⟩
  · obtain ⟨down, out, due⟩ := exec_dataBlock_good on up good data tag hu
    refine ⟨down, out, fun still order coord vc hvc part done taken => ?_⟩
    obtain ⟨v, accepted, effect⟩ := u.acceptBlock_effect p b hvc taken
    exact ⟨v, (due still order coord).trans (congrArg _ accepted), effect⟩
  · rw [(exec_replayTimeout on up).2 b bs waits]
    exact ⟨fun fresh later => congrArg _ (State.resend_all waits fresh later),
      fun spent => congrArg _ (State.resend_spent waits spent)⟩

end Sys2Proof.Machine
end
